-- ==== Sys2Proof/Word.lean ====
section
/-! DEFINITION. The word types of the Zhozu device (R39, R200, R201). -/

namespace Sys2Proof

/-- One byte of memory. -/
abbrev Byte := BitVec 8

/-- An x register, an address or a control register (R39, R41). -/
abbrev Word := BitVec 64

/-- An f register or one 32-bit instruction word (R39, R45). -/
abbrev Half := BitVec 32

/-- A vector register, or the 64 bytes of one line (R39, R116). -/
abbrev VWord := BitVec 512

/-- One row of an accumulator: 32 elements of 32 bits (R244). -/
abbrev AccRow := BitVec 1024

/-- A label word: EPOCH [31:24], P [16], HANDLE [15:0] (R201). -/
abbrev LabelWord := BitVec 32

/-- An environment: bit i says that assumption i belongs to the set (R200). -/
abbrev Env := BitVec 256

/-- A label: a disjunction of environments (R200). -/
abbrev Label := List Env

/-- A finite map from numbers, kept in ascending order of the keys. -/
abbrev NatMap (α : Type) := List (Nat × α)

end Sys2Proof
end

