-- ==== Sys2Proof/Config.lean ====
section
/-! DEFINITION. What one implementation fixes, and the free values: constants without a body, so that
nothing proved of the model rests on what they are. -/

namespace Sys2Proof.Config

/-- The free value number `k` of the draw `n`: whatever the spec leaves open and the machine goes on with
(R16, R52, R137, R209, R283, R414; what the caches still hold, R2, R152, R303). Log entries 3 and 68. -/
opaque free (n k : Nat) : Nat

/-- FEAT class 0 STEP, fused (R196). Log entry 5. -/
opaque step : Nat

/-- SHA-384, fixed by a published standard (R2, R444). Log entry 5. -/
opaque sha384 (bytes : List Byte) : BitVec 384

/-- ECDSA P-384 verification of a signature over a digest (R447). Log entry 5. -/
opaque ecdsaVerify (pubkey sig : List Byte) (digest : BitVec 384) : Bool

/-- The identity key's signature of a quote (R453). Log entry 5. -/
opaque quoteSignature (quote : List Byte) : List Byte

/-- The fused vendor key hash (R447). Log entry 5. -/
opaque vendorKeyHash : BitVec 384

/-- SHA-384 of the ROM (R444). Log entry 5. -/
opaque romDigest : BitVec 384

/-- The fused minimum SVN with which the device left the factory (R447). Log entry 5. -/
opaque fusedMinSvn : Nat

/-- A transform routine: from the routine's image, the source bytes, the shape (LEN, ROWS, both strides) and
the parameter to the destination bytes, or `none` when it ends in error (R277). Log entry 6. -/
opaque transform (image src : List Byte) (len rows sstride dstride param : Nat) : Option (List Byte)

/-- Whether a Tribolon section of which the text does not show where control goes keeps it in the code area (R384). Log
entry 6. -/
opaque translatorVerdict (bytes : List Byte) : Bool

/-- Bytes of the translator's cache that firmware gives a tenant (R389). Log entry 6. -/
opaque translatorQuota (tenant : Nat) : Nat

/-- The version of the translator in a firmware image (R388, R389). Log entry 6. -/
opaque translatorVersion (image : List Byte) : Nat

/-- The routing ID of this device on the fabric (R436). Log entry 5. -/
opaque routingId : BitVec 12

/-- The address that the runtime exports under a name (R364). Log entry 6. -/
opaque exported (name : List Byte) : Option Word

/-- Capacity of a core's FIFO of pending upcalls (R193). -/
def upcallFifo : Nat := 16

/-- Capacity of a cluster's range-lock table (R153). -/
def rangeLocks : Nat := 512

/-- Capacity of a core's queue of matrix commands (R252). -/
def matrixQueue : Nat := 64

/-- Capacity of a copy unit's queue, and of one core's share of it (R270). -/
def copyQueue : Nat := 64
@[inherit_doc copyQueue] def copyPerCore : Nat := 16

/-- Job statuses kept for JPOLL (R280). -/
def keptStatuses : Nat := 64

/-- Row operations and IREDs one core may have in flight (R302). -/
def rowOpsPerCore : Nat := 32
@[inherit_doc rowOpsPerCore] def iredsPerCore : Nat := 8

/-- Nogoods of a world and label handles of a world (R203, R204). -/
def nogoods : Nat := 1024
@[inherit_doc nogoods] def handles : Nat := 65534

/-- Entries of a core's first-level TLB and of a cluster's second-level TLB (R2, R412). -/
def tlbCore : Nat := 1024
@[inherit_doc tlbCore] def tlbCluster : Nat := 32768

/-- Lines that the caches of a package hold at most (R2): 64 KiB of L1D in each of 6,144 cores, and 4 GiB of L2. -/
def cacheLines : Nat := 6144 * 2 ^ 10 + 2 ^ 26

/-- Cycles of one stroke (R2, R443). -/
def stroke : Nat := 256

/-- The boundary row that a firmware image sets, in units of 8 rows from 32, modulo the 60 choices (R297). Log entry 5. -/
opaque boundaryRow (image : List Byte) : Nat

/-- REPLACE thresholds that a firmware image sets in place of the default ones: lost dies, stacks, clusters and Ultra
Ethernet ports that are not yet too many (R443, R457). Log entry 5. -/
opaque imageThresholds (image : List Byte) : Option (Nat × Nat × Nat × Nat)

/-- Pinned slots that one context may hold in one subarray, which firmware chooses (R311). Log entry 3. -/
opaque pinCap : Nat

end Sys2Proof.Config
end

