-- ==== Sys2Proof/Syntax.lean ====
section
/-! DEFINITION. The syntax of Emoskem EMK-4: one constructor for each row of spec/opcode_table.json. The first
191 are instructions, with the fields of R59 to R68; the others are the events and packets of the table, which
have no encoding. Register numbers and immediates are the raw field values. -/

namespace Sys2Proof

/-- Element types of the vector groups (R65). -/
inductive ElemTy where
  | f32 | bf16 | f16 | i32 | i16 | i8
  deriving DecidableEq, Repr

/-- Rounding field of the float groups (R64). -/
inductive Rm where
  | rne | rtz | rdn | rup | dyn
  deriving DecidableEq, Repr

/-- Conditions of FCMP (R64). -/
inductive FCc where
  | eq | lt | le | un
  deriving DecidableEq, Repr

/-- Conditions of VCMP (R65). -/
inductive VCc where
  | eq | ne | lt | le | gt | ge
  deriving DecidableEq, Repr

/-- Integer types of FCVTFI and FCVTIF (R64, R114). -/
inductive IntTy where
  | i32 | u32 | i64 | u64
  deriving DecidableEq, Repr

/-- Operations of AMO (R60, R168). -/
inductive AmoOp where
  | add | band | bor | bxor | smin | smax | minu | maxu | swap
  deriving DecidableEq, Repr

/-- Operations of FAMO (R60, R170). -/
inductive FamoOp where
  | fadd | fmin | fmax
  deriving DecidableEq, Repr

/-- Access width of AMO and CAS (R60). -/
inductive AmoWidth where
  | w | d
  deriving DecidableEq, Repr

/-- Order suffix of an atomic (R60). -/
inductive MemOrder where
  | rlx | acq | rel | ar
  deriving DecidableEq, Repr

/-- Scopes (R60, R142). -/
inductive Scope where
  | core | crew | clus | dev | sys
  deriving DecidableEq, Repr

/-- Operations of RBOOL (R62). -/
inductive RboolOp where
  | and2 | or2 | xor2 | nand2 | nor2 | xnor2 | not1 | maj3
  deriving DecidableEq, Repr

/-- Operations of PLOG (R65). -/
inductive PlogOp where
  | and2 | or2 | xor2 | andn2 | not1
  deriving DecidableEq, Repr

/-- Decode-table banks (R104). -/
inductive Bank where
  | a | b
  deriving DecidableEq, Repr

/-- A route-table entry with V = 1 (R379): NCLUS and FEP. -/
structure Route where
  nclus : Nat
  fep : BitVec 32
  deriving DecidableEq, Repr

/-- The values of a context descriptor that a creation message brings (R404, R421), with the physical cluster
and the table entries that firmware writes for each logical cluster (R378, R379). -/
structure CtxDesc where
  ctxid : Nat
  tenant : Nat
  /-- Physical cluster, `4 * die + cluster on the die`, of each logical cluster. -/
  part : List Nat
  tx : Nat
  ty : Nat
  tz : Nat
  cwin : Nat
  trapent : Nat
  lsbase : Nat
  bankkey : Nat
  age : Nat
  gangwait : Nat
  world : Nat
  save : Nat
  /-- PA of the stage map; its contents are `stages`. -/
  stagemap : Nat
  troot : Nat
  grant : Nat
  fring : Nat
  sdline : Nat
  svcCluster : Nat
  svcCore : Nat
  svcCounter : Nat
  /-- Mask of the logical cores serving (logical cluster, stage); a pair not listed is served by no core. -/
  stages : List ((Nat × Nat) × BitVec 192)
  /-- Logical cores with V = 0, as (logical cluster, logical core) (R378). -/
  unmapped : List (Nat × Nat)
  /-- CORE of the logical cores whose entry of the core table names another number than their own (R378). -/
  cores : List ((Nat × Nat) × Nat)
  /-- Route table: the entries with V = 1, by node index (R379). -/
  routes : List (Nat × Route)
  /-- Units of 2 MiB of PA that firmware grants to the context: the bits that it sets in the GRANT bitmap (R404). -/
  units : List Nat
  /-- Units of 2 MiB that firmware grants to the context as its code heap (R404, R432; log entry 9). -/
  heap : List Nat
  deriving DecidableEq, Repr

/-- The tables that firmware writes for the partition on which a context is restored (R429): CORE of the core table where it
is not the logical core's own number (R378), and the route table (R379). -/
structure Tables where
  cores : List ((Nat × Nat) × Nat)
  routes : List (Nat × Route)
  deriving DecidableEq, Repr

/-- Where an RMA access goes: the context whose command endpoint it names, and the memory key that it brings (R391). -/
structure RmaTarget where
  ctxid : Nat
  key : Half
  deriving DecidableEq, Repr

/-- Kinds of unit that can be lost (R456). -/
inductive UnitKind where
  | core | crew | cluster | die | stack | uePort | cxlPort | mgmtCore | ioDie
  | matrixEngine | copyUnit | transformCore | sweepUnit | l2Slice
  deriving DecidableEq, Repr

/-- What the self-test of a boot found (R444, R445). -/
structure SelfTest where
  digest : BitVec 384
  /-- Lost units that firmware can fuse off. -/
  lost : List (UnitKind × Nat)
  /-- The management complex failed: the device goes to the safe talkative state. -/
  fatal : Bool
  deriving DecidableEq, Repr

/-- One instruction, event or packet of the table. -/
inductive Instr where
  -- control transfers and loops (R86 to R91)
  | j (off : Nat)
  | jl (off : Nat)
  | beq (a b off : Nat)
  | bne (a b off : Nat)
  | blt (a b off : Nat)
  | bge (a b off : Nat)
  | bltu (a b off : Nat)
  | bgeu (a b off : Nat)
  | jlr (d a imm : Nat)
  | jr (a imm : Nat)
  | loop (a imm : Nat)
  | loopi (n imm : Nat)
  -- scalar loads and stores (R163)
  | lb (d a off : Nat)
  | lbu (d a off : Nat)
  | lh (d a off : Nat)
  | lhu (d a off : Nat)
  | lw (d a off : Nat)
  | lwu (d a off : Nat)
  | ld (d a off : Nat)
  | flw (d a off : Nat)
  | sb (d a off : Nat)
  | sh (d a off : Nat)
  | sw (d a off : Nat)
  | sd (d a off : Nat)
  | fsw (d a off : Nat)
  -- vector memory (R164, R165)
  | vld (d a imm : Nat)
  | vst (d a imm : Nat)
  | vlds (d a b pg : Nat)
  | vsts (d a b pg : Nat)
  | vldx (d a b pg : Nat)
  | vstx (d a b pg : Nat)
  -- atomics (R167 to R170)
  | amo (op : AmoOp) (w : AmoWidth) (ord : MemOrder) (sc : Scope) (d a : Nat)
  | cas (w : AmoWidth) (ord : MemOrder) (sc : Scope) (d a : Nat)
  | famo (op : FamoOp) (ord : MemOrder) (sc : Scope) (d a : Nat)
  | csum (ord : MemOrder) (sc : Scope) (d a : Nat)
  -- cache maintenance, fences, catch network, counters (R166, R172 to R181, R312)
  | cwb (a : Nat)
  | cinv (a : Nat)
  | cflush (a : Nat)
  | wbrow (a : Nat)
  | invrow (a : Nat)
  | fence (kinds : Nat) (sc : Scope)
  | fencesc
  | arrive (g a : Nat)
  | waitc (d g : Nat)
  | catchq (d g : Nat)
  | waitk (k a : Nat)
  | waitt (a b : Nat)
  | krd (d k a : Nat)
  | kadd (k a : Nat)
  -- continuations (R182 to R184)
  | spawn (a b : Nat)
  | join
  | finish (a : Nat)
  | suspk (k a d : Nat)
  | suspt (a : Nat)
  | yield
  -- labels (R226 to R238)
  | assume (d a b : Nat)
  | assumev (d a b : Nat)
  | lblof (d a : Nat)
  | lblset (d a b : Nat)
  | ljoin (d a b : Nat)
  | contra (a : Nat)
  | contrav (a : Nat)
  | ltest (d a : Nat)
  | lenv (d a b : Nat)
  | wreset
  | lld (d a : Nat)
  | lst (d a : Nat)
  -- copy unit, remote access, streams (R284 to R295)
  | jsub (d a : Nat)
  | jpoll (d a : Nat)
  | jcancel (d a : Nat)
  | get (k a : Nat)
  | getx (k a : Nat)
  | send (k a : Nat)
  | sendx (k a : Nat)
  | smode (v a : Nat)
  | soff (v : Nat)
  -- engine descriptors (R62, R300 to R314, R327)
  | rcopy (k a : Nat)
  | rfill (k a : Nat)
  | rbool (op : RboolOp) (k a : Nat)
  | rpromo (pin : Bool) (k a : Nat)
  | rdemo (k a : Nat)
  | ired (fast : Bool) (k a : Nat)
  | edgerun (k a : Nat)
  -- control registers and system (R195, R95 to R97, R196, R197, R129, R341)
  | crr (d n : Nat)
  | crw (n a : Nat)
  | crs (d n a : Nat)
  | crc (d n a : Nat)
  | svc (n : Nat)
  | eret
  | upret
  | feat (d n : Nat)
  | invpg (a : Nat)
  | dtld (bank : Bank) (a : Nat)
  | edgeret (a : Nat)
  | edgeskip
  | edgedone
  -- long immediates (R84)
  | upi (d imm : Nat)
  | aupc (d imm : Nat)
  -- integer register forms (R80, R81)
  | add (d a b : Nat)
  | sub (d a b : Nat)
  | and (d a b : Nat)
  | or (d a b : Nat)
  | xor (d a b : Nat)
  | shl (d a b : Nat)
  | shr (d a b : Nat)
  | sra (d a b : Nat)
  | slt (d a b : Nat)
  | sltu (d a b : Nat)
  | min (d a b : Nat)
  | max (d a b : Nat)
  | minu (d a b : Nat)
  | maxu (d a b : Nat)
  | clz (d a : Nat)
  | popc (d a : Nat)
  | mul (d a b : Nat)
  | mulh (d a b : Nat)
  | mulhu (d a b : Nat)
  | div (d a b : Nat)
  | divu (d a b : Nat)
  | rem (d a b : Nat)
  | remu (d a b : Nat)
  -- integer immediate forms (R82, R83)
  | addi (d a imm : Nat)
  | andi (d a imm : Nat)
  | ori (d a imm : Nat)
  | xori (d a imm : Nat)
  | slti (d a imm : Nat)
  | sltiu (d a imm : Nat)
  | shli (d a n : Nat)
  | shri (d a n : Nat)
  | srai (d a n : Nat)
  -- scalar float (R112 to R115)
  | fadd (rm : Rm) (d a b : Nat)
  | fsub (rm : Rm) (d a b : Nat)
  | fmul (rm : Rm) (d a b : Nat)
  | fdiv (rm : Rm) (d a b : Nat)
  | ffma (rm : Rm) (d a b : Nat)
  | fmin (d a b : Nat)
  | fmax (d a b : Nat)
  | fcmp (cc : FCc) (d a b : Nat)
  | fsqrt (rm : Rm) (d a : Nat)
  | fcvtfi (rm : Rm) (it : IntTy) (d a : Nat)
  | fcvtif (rm : Rm) (it : IntTy) (d a : Nat)
  | fmvxf (d a : Nat)
  | fmvfx (d a : Nat)
  | fclass (d a : Nat)
  -- vector (R116 to R128)
  | vadd (t : ElemTy) (d a b pg : Nat)
  | vsub (t : ElemTy) (d a b pg : Nat)
  | vmul (t : ElemTy) (d a b pg : Nat)
  | vfma (t : ElemTy) (d a b pg : Nat)
  | vfms (t : ElemTy) (d a b pg : Nat)
  | vmin (t : ElemTy) (d a b pg : Nat)
  | vmax (t : ElemTy) (d a b pg : Nat)
  | vabs (t : ElemTy) (d a pg : Nat)
  | vneg (t : ElemTy) (d a pg : Nat)
  | vand (t : ElemTy) (d a b pg : Nat)
  | vor (t : ElemTy) (d a b pg : Nat)
  | vxor (t : ElemTy) (d a b pg : Nat)
  | vshl (t : ElemTy) (d a b pg : Nat)
  | vshr (t : ElemTy) (d a b pg : Nat)
  | vsra (t : ElemTy) (d a b pg : Nat)
  | vsel (t : ElemTy) (d a b pg : Nat)
  | vcmp (cc : VCc) (t : ElemTy) (p a b pg : Nat)
  | vcvt (t src : ElemTy) (d a pg : Nat)
  | venc (bank : Bank) (nan : Bool) (t : ElemTy) (d a pg : Nat)
  | vdec (bank : Bank) (t : ElemTy) (d a pg : Nat)
  | vscale (t : ElemTy) (d a b pg : Nat)
  | vreds (t : ElemTy) (d a pg : Nat)
  | vredm (t : ElemTy) (d a pg : Nat)
  | vexp2 (t : ElemTy) (d a pg : Nat)
  | vrcp (t : ElemTy) (d a pg : Nat)
  | vrsq (t : ElemTy) (d a pg : Nat)
  | vperm (t : ElemTy) (d a b pg : Nat)
  | vbcast (t : ElemTy) (d a pg : Nat)
  | vins (t : ElemTy) (d a b : Nat)
  | vext (t : ElemTy) (d a b : Nat)
  | vmov (t : ElemTy) (d a pg : Nat)
  | pset (t : ElemTy) (p a : Nat)
  | plog (op : PlogOp) (d a b : Nat)
  -- matrix (R260 to R269)
  | mmabb (shape acc : Nat) (z : Bool) (a b : Nat)
  | mmahh (shape acc : Nat) (z : Bool) (a b : Nat)
  | mmaee (shape acc : Nat) (z : Bool) (a b vs : Nat)
  | mmaef (shape acc : Nat) (z : Bool) (a b vs : Nat)
  | mmaff (shape acc : Nat) (z : Bool) (a b vs : Nat)
  | mmaii (shape acc : Nat) (z : Bool) (a b : Nat)
  | macq (n : Nat)
  | mrel
  | mzero (acc : Nat)
  | mlda (acc a : Nat)
  | msta (acc a : Nat)
  | msync
  | mskld (d a b : Nat)
  | hpref (d a b : Nat)
  -- events of cores, dispatcher and strokes
  | longLatencyResultReturn (cl core idx : Nat)
  | dispatch (cl core : Nat)
  | recordAging (cl : Nat) (rec : Word)
  | gangReserve (cl core : Nat)
  | gangwaitExpiry (cl : Nat) (rec : Word)
  | recordWake (cl : Nat) (rec : Word)
  | coreParkWake (cl core : Nat)
  | fencescTickEnd (cl core : Nat)
  | strokeTick
  | upcallDelivery (cl core : Nat)
  | contraRetire (cl core : Nat)
  | wresetRetire (cl core : Nat)
  -- events of the engines
  | leaseGrant (cl crew : Nat)
  | matrixCommandComplete (cl crew : Nat)
  | matrixHalt (cl crew : Nat)
  | jobStart (cl crew : Nat)
  | jobComplete (cl crew : Nat) (id : Word)
  | jobFault (cl crew : Nat) (id : Word)
  | transformTimeout (cl crew : Nat) (id : Word)
  | faultRecordPoll (slot : Nat)
  | streamStripFetch (cl core v : Nat)
  /-- Item `i` of operation `op` lands; `bytes` and `lbl` are what a remote source sent. -/
  | remoteLand (cl op item : Nat) (bytes : List Byte) (lbl : LabelWord)
  | remoteFailure (cl op : Nat) (byTarget : Bool)
  | rowOpExecute (cl op : Nat)
  | rpromoComplete (cl op : Nat)
  | rdemoComplete (cl op : Nat)
  | iredExecute (cl op : Nat)
  | edgeRunStart (cl : Nat)
  | superstep (cl : Nat)
  | edgeInvocation (cl core : Nat)
  | edgeRunFault (cl : Nat)
  -- events of translation, code, contexts
  | pageWalkComplete (cl : Nat) (va : Word)
  | shootdownService
  | unloadFree (base : Word)
  | gangStop
  | contextRestore (ctxid : Nat) (part : List Nat) (tables : Tables)
  | contextCreate (desc : CtxDesc)
  | contextDestroy (ctxid : Nat)
  | deviceFault
  -- host queues and packets
  | queueCreate (desc : BitVec 512)
  | doorbell (msg : BitVec 128)
  | rmaWrite (va : Word) (bytes : List Byte) (target : RmaTarget)
  | rmaRead (va : Word) (len : Nat) (target : RmaTarget)
  | packetDependencyMet (qid n : Nat)
  | launch (qid n : Nat)
  | copyin (qid n : Nat)
  | copyout (qid n : Nat)
  | signal (qid n : Nat)
  | wait (qid n : Nat)
  | barrier (qid n : Nat)
  | load (qid n : Nat)
  | unload (qid n : Nat)
  | qreset (qid n : Nat)
  -- time and the shared pool
  | ptpSync (offset : Int) (time gm : Nat)
  | ptpSyncLoss
  | poolReadMiss (line dev inc : Nat)
  | poolLeaseExpiry (line : Nat)
  | poolWriteApply (line : Nat)
  | backInvalidate (line : Nat)
  | fabricBind (dev inc : Nat)
  -- firmware and fleet
  | powerOnReset (selfTest : SelfTest) (image : Option (List Byte))
  | firmwareFetchRetry (image : Option (List Byte))
  | firmwareFetch (image : Option (List Byte))
  | statusRequest
  | routineLoad (ctxid id : Nat) (image : List Byte)
  | attestationRequest (nonce : BitVec 384)
  | svnRaise (svn : Nat)
  | healthRequest
  | telemetryRequest
  | powerCapSet (units : Nat)
  | currentLimit
  | thermalThrottle (die : Nat)
  | thermalTrip (die : Nat)
  | unitLoss (kind : UnitKind) (num : Nat)
  | currentFallsBelowLimit
  | throttleLevelChange (level : Nat)
  | copyPacketComplete (qid n code : Nat) (bytes : List Byte)
  deriving DecidableEq, Repr

end Sys2Proof
end

