-- ==== Sys2Proof/WellFormed.lean ====
section
/-! DEFINITION. Well-formedness: the operand values that the encodings of R54 to R68 admit, and for events the
numbers that name an agent of the device (R2, R8). -/

namespace Sys2Proof

/-- The integer element types (R65). -/
def ElemTy.isInt : ElemTy → Bool
  | .i32 | .i16 | .i8 => true
  | .f32 | .bf16 | .f16 => false

/-- K code limit and smallest K of a matrix form (R245, R246), as (limit, Kmin). -/
structure MmaLimits where
  kc : Nat
  kmin : Nat
  deriving DecidableEq, Repr

/-- N is a shape of a pair with these limits, and z is allowed with it (R246). -/
def MmaLimits.shapeOk (l : MmaLimits) (shape : Nat) (z : Bool) : Bool :=
  decide (shape < 32) && decide (shape % 8 ≤ l.kc) && (!z || decide (l.kmin * 2 ^ (shape % 8) ≤ 128))

/-- A register group of `n` registers from `x[a]` ends at or below x63 (R55). -/
def groupOk (a n : Nat) : Bool := decide (a + n ≤ 64)

def mmaBB : MmaLimits := ⟨4, 32⟩
def mmaHH : MmaLimits := ⟨4, 32⟩
def mmaEE : MmaLimits := ⟨4, 64⟩
def mmaEF : MmaLimits := ⟨4, 64⟩
def mmaFF : MmaLimits := ⟨3, 128⟩
def mmaII : MmaLimits := ⟨4, 64⟩

/-- The A and B groups, shape and accumulator of an MMA form (R66, R246). -/
def mmaOk (l : MmaLimits) (shape acc : Nat) (z : Bool) (a b : Nat) : Bool :=
  l.shapeOk shape z && decide (acc < 2) && groupOk a (if z then 3 else 2) && groupOk b 2

/-- The scale registers of a scaled MMA form end at or below v31 (R246). -/
def scalesOk (l : MmaLimits) (shape vs : Nat) : Bool :=
  decide (vs + l.kmin * 2 ^ (shape % 8) / 32 ≤ 32)

def reg3 (d a b : Nat) : Bool := decide (d < 64 ∧ a < 64 ∧ b < 64)
def reg2 (d a : Nat) : Bool := decide (d < 64 ∧ a < 64)
def regOff (d a off : Nat) : Bool := decide (d < 64 ∧ a < 64 ∧ off < 512)
def regImm (d a imm : Nat) : Bool := decide (d < 64 ∧ a < 64 ∧ imm < 4096)
def flt3 (d a b : Nat) : Bool := decide (d < 32 ∧ a < 32 ∧ b < 32)
def vec4 (d a b pg : Nat) : Bool := decide (d < 32 ∧ a < 32 ∧ b < 32 ∧ pg < 8)
def vec3 (d a pg : Nat) : Bool := decide (d < 32 ∧ a < 32 ∧ pg < 8)
def clusterOk (cl : Nat) : Bool := decide (cl < 32)
def coreOk (cl core : Nat) : Bool := decide (cl < 32 ∧ core < 192)
def crewOk (cl crew : Nat) : Bool := decide (cl < 32 ∧ crew < 24)

/-- The instruction's operands lie in the ranges of its encoding; an event names agents of the device. -/
def Instr.wf : Instr → Bool
  | .j off | .jl off => decide (off < 2 ^ 24)
  | .beq a b off | .bne a b off | .blt a b off | .bge a b off | .bltu a b off | .bgeu a b off => regImm a b off
  | .jlr d a imm => regImm d a imm && decide (d ≠ 0)
  | .jr a imm => regImm 0 a imm
  | .loop a imm => regImm 0 a imm
  | .loopi n imm => decide (n < 4096 ∧ imm < 4096)
  | .lb d a off | .lbu d a off | .lh d a off | .lhu d a off | .lw d a off | .lwu d a off | .ld d a off => regOff d a off
  | .flw d a off | .fsw d a off => regOff d a off && decide (d < 32)
  | .sb d a off | .sh d a off | .sw d a off | .sd d a off => regOff d a off
  | .vld d a imm | .vst d a imm => decide (d < 32 ∧ a < 64 ∧ imm < 8192)
  | .vlds d a b pg | .vsts d a b pg => decide (d < 32 ∧ a < 64 ∧ b < 64 ∧ pg < 8)
  | .vldx d a b pg | .vstx d a b pg => decide (d < 32 ∧ a < 64 ∧ b < 32 ∧ pg < 8)
  | .amo _ _ _ _ d a => reg2 d a
  | .cas _ _ _ d a => reg2 d a && decide (d < 63)
  | .famo _ _ _ d a | .csum _ _ d a => decide (d < 32 ∧ a < 64)
  | .cwb a | .cinv a | .cflush a | .wbrow a | .invrow a => decide (a < 64)
  | .fence kinds _ => decide (0 < kinds ∧ kinds < 16)
  | .fencesc => true
  | .arrive g a => decide (g < 16 ∧ a < 64)
  | .waitc d g | .catchq d g => decide (d < 64 ∧ g < 16)
  | .waitk k a | .kadd k a => decide (k < 16 ∧ a < 64)
  | .waitt a b => reg2 a b
  | .krd d k a => reg2 d a && decide (k < 16)
  | .spawn a b => reg2 a b
  | .join | .yield | .wreset => true
  | .finish a | .suspt a => decide (a < 64)
  | .suspk k a d => reg2 d a && decide (k < 16)
  | .assume d a b | .lblset d a b | .ljoin d a b | .lenv d a b => reg3 d a b
  | .assumev d a b => decide (d < 32 ∧ a < 32 ∧ b < 64)
  | .lblof d a | .ltest d a | .lld d a | .lst d a => reg2 d a
  | .contra a => decide (a < 64)
  | .contrav a => decide (a < 32)
  | .jsub d a => reg2 d a && decide (0 < d ∧ d < 63)
  | .jpoll d a | .jcancel d a => reg2 d a
  | .get k a | .getx k a | .send k a | .sendx k a => decide (k < 16) && groupOk a 4
  | .smode v a => decide (28 ≤ v ∧ v < 32) && groupOk a 4
  | .soff v => decide (28 ≤ v ∧ v < 32)
  | .rcopy k a | .rfill k a => decide (k < 16) && groupOk a 3
  | .rbool _ k a => decide (k < 16) && groupOk a 5
  | .rpromo _ k a | .rdemo k a => decide (k < 16) && groupOk a 2
  | .ired _ k a | .edgerun k a => decide (k < 16 ∧ a < 64)
  | .crr d n => decide (d < 64 ∧ n < 1024)
  | .crw n a => decide (a < 64 ∧ n < 1024)
  | .crs d n a | .crc d n a => reg2 d a && decide (n < 1024)
  | .svc n => decide (n < 4096)
  | .eret | .upret | .edgeskip | .edgedone => true
  | .feat d n => decide (d < 64 ∧ n < 16)
  | .invpg a | .dtld _ a | .edgeret a => decide (a < 64)
  | .upi d imm | .aupc d imm => decide (d < 64 ∧ imm < 2 ^ 20)
  | .add d a b | .sub d a b | .and d a b | .or d a b | .xor d a b | .shl d a b | .shr d a b | .sra d a b
  | .slt d a b | .sltu d a b | .min d a b | .max d a b | .minu d a b | .maxu d a b | .mul d a b | .mulh d a b
  | .mulhu d a b | .div d a b | .divu d a b | .rem d a b | .remu d a b => reg3 d a b
  | .clz d a | .popc d a => reg2 d a
  | .addi d a imm | .andi d a imm | .ori d a imm | .xori d a imm | .slti d a imm | .sltiu d a imm => regImm d a imm
  | .shli d a n | .shri d a n | .srai d a n => reg3 d a n
  | .fadd _ d a b | .fsub _ d a b | .fmul _ d a b | .fdiv _ d a b | .ffma _ d a b => flt3 d a b
  | .fmin d a b | .fmax d a b => flt3 d a b
  | .fcmp _ d a b => decide (d < 64 ∧ a < 32 ∧ b < 32)
  | .fsqrt _ d a => decide (d < 32 ∧ a < 32)
  | .fcvtfi _ _ d a | .fmvxf d a | .fclass d a => decide (d < 64 ∧ a < 32)
  | .fcvtif _ _ d a | .fmvfx d a => decide (d < 32 ∧ a < 64)
  | .vadd _ d a b pg | .vsub _ d a b pg | .vmul _ d a b pg | .vfma _ d a b pg | .vfms _ d a b pg
  | .vmin _ d a b pg | .vmax _ d a b pg | .vsel _ d a b pg | .vperm _ d a b pg => vec4 d a b pg
  | .vand t d a b pg | .vor t d a b pg | .vxor t d a b pg | .vshl t d a b pg | .vshr t d a b pg
  | .vsra t d a b pg => vec4 d a b pg && t.isInt
  | .vabs _ d a pg | .vneg _ d a pg | .vreds _ d a pg | .vredm _ d a pg | .vmov _ d a pg => vec3 d a pg
  | .vcmp _ _ p a b pg => decide (p < 8 ∧ a < 32 ∧ b < 32 ∧ pg < 8)
  | .vcvt t src d a pg => vec3 d a pg && decide (src ≠ t)
  | .venc _ _ t d a pg | .vdec _ t d a pg => vec3 d a pg && !t.isInt
  | .vscale t d a b pg => vec4 d a b pg && !t.isInt
  | .vexp2 t d a pg | .vrcp t d a pg | .vrsq t d a pg => vec3 d a pg && !t.isInt
  | .vbcast _ d a pg => vec3 d a pg
  | .vins _ d a b | .vext _ d a b => flt3 d a b
  | .pset _ p a => decide (p < 8 ∧ a < 32)
  | .plog op d a b => decide (d < 8 ∧ a < 8 ∧ b < 8) && (decide (op ≠ .not1) || decide (b = 0))
  | .mmabb s c z a b => mmaOk mmaBB s c z a b
  | .mmahh s c z a b => mmaOk mmaHH s c z a b
  | .mmaii s c z a b => mmaOk mmaII s c z a b
  | .mmaee s c z a b vs => mmaOk mmaEE s c z a b && scalesOk mmaEE s vs
  | .mmaef s c z a b vs => mmaOk mmaEF s c z a b && scalesOk mmaEF s vs
  | .mmaff s c z a b vs => mmaOk mmaFF s c z a b && scalesOk mmaFF s vs
  | .macq n => decide (0 < n ∧ n ≤ 64)
  | .mrel | .msync => true
  | .mzero acc => decide (acc < 2)
  | .mlda acc a | .msta acc a => decide (acc < 2) && groupOk a 2
  | .mskld d a b | .hpref d a b => reg3 d a b
  | .longLatencyResultReturn cl core _ | .dispatch cl core | .gangReserve cl core | .coreParkWake cl core
  | .fencescTickEnd cl core | .upcallDelivery cl core | .contraRetire cl core | .wresetRetire cl core
  | .edgeInvocation cl core => coreOk cl core
  | .streamStripFetch cl core v => coreOk cl core && decide (28 ≤ v ∧ v < 32)
  | .recordAging cl _ | .gangwaitExpiry cl _ | .recordWake cl _ | .remoteLand cl _ _ _ _ | .remoteFailure cl _ _
  | .rowOpExecute cl _ | .rpromoComplete cl _ | .rdemoComplete cl _ | .iredExecute cl _ | .edgeRunStart cl
  | .superstep cl | .edgeRunFault cl | .pageWalkComplete cl _ => clusterOk cl
  | .leaseGrant cl crew | .matrixCommandComplete cl crew | .matrixHalt cl crew | .jobStart cl crew
  | .jobComplete cl crew _ | .jobFault cl crew _ | .transformTimeout cl crew _ => crewOk cl crew
  | .faultRecordPoll slot => decide (slot < 64)
  | .contextRestore ctxid _ tables => decide (0 < ctxid ∧ ctxid < 65536) && tables.cores.all fun e => decide (e.2 < 192)
  | .contextDestroy ctxid => decide (0 < ctxid ∧ ctxid < 65536)
  | .contextCreate d => decide (0 < d.ctxid ∧ d.ctxid < 65536) && d.cores.all fun e => decide (e.2 < 192)
  | .routineLoad ctxid id _ => decide (0 < ctxid ∧ ctxid < 65536 ∧ id < 65536)
  | .packetDependencyMet qid _ | .launch qid _ | .copyin qid _ | .copyout qid _ | .signal qid _ | .wait qid _
  | .barrier qid _ | .load qid _ | .unload qid _ | .qreset qid _ | .copyPacketComplete qid _ _ _ =>
    decide (0 < qid ∧ qid < 65536)
  | .thermalThrottle die | .thermalTrip die => decide (die < 8)
  | .throttleLevelChange level => decide (level < 8)
  | .powerCapSet units => decide (30 ≤ units ∧ units ≤ 90)
  | .fabricBind _ inc => decide (inc < 65536)
  | .strokeTick | .shootdownService | .unloadFree _ | .gangStop | .deviceFault | .queueCreate _ | .doorbell _
  | .rmaWrite _ _ _ | .rmaRead _ _ _ | .ptpSync _ _ _ | .ptpSyncLoss | .poolReadMiss _ _ _ | .poolLeaseExpiry _
  | .poolWriteApply _ | .backInvalidate _ | .powerOnReset _ _ | .firmwareFetchRetry _ | .firmwareFetch _
  | .statusRequest | .attestationRequest _ | .svnRaise _ | .healthRequest | .telemetryRequest | .currentLimit
  | .unitLoss _ _ | .currentFallsBelowLimit => true

end Sys2Proof
end

