-- ==== Sys2Proof/Decode.lean ====
section
/-! DEFINITION. Instruction words (R45, R54 to R69): the decoder of a 30-bit body, total on every body, and the
encoder, both written from the field tables of 02_encoding. A body is a natural number; bit 0 is the least
significant bit of the word. -/

namespace Sys2Proof

/-- Why a body is refused; each is an ILLEGAL trap (R55, R57). -/
inductive Undecodable where
  /-- A cell marked ILL: EINFO 8. -/
  | illCell
  /-- A field that breaks R55 or a "0" field that is not 0: EINFO 7. -/
  | badField
  deriving DecidableEq, Repr

/-- `n` bits of `w` from bit `lo`. -/
def fld (w lo n : Nat) : Nat := w / 2 ^ lo % 2 ^ n

def ElemTy.code : ElemTy → Nat
  | .f32 => 0 | .bf16 => 1 | .f16 => 2 | .i32 => 3 | .i16 => 4 | .i8 => 5

def ElemTy.ofCode : Nat → Option ElemTy
  | 0 => some .f32 | 1 => some .bf16 | 2 => some .f16 | 3 => some .i32 | 4 => some .i16 | 5 => some .i8 | _ => none

def Rm.code : Rm → Nat
  | .rne => 0 | .rtz => 1 | .rdn => 2 | .rup => 3 | .dyn => 4

def Rm.ofCode : Nat → Option Rm
  | 0 => some .rne | 1 => some .rtz | 2 => some .rdn | 3 => some .rup | 4 => some .dyn | _ => none

def FCc.code : FCc → Nat
  | .eq => 0 | .lt => 1 | .le => 2 | .un => 3

def FCc.ofCode : Nat → Option FCc
  | 0 => some .eq | 1 => some .lt | 2 => some .le | 3 => some .un | _ => none

def VCc.code : VCc → Nat
  | .eq => 0 | .ne => 1 | .lt => 2 | .le => 3 | .gt => 4 | .ge => 5

def VCc.ofCode : Nat → Option VCc
  | 0 => some .eq | 1 => some .ne | 2 => some .lt | 3 => some .le | 4 => some .gt | 5 => some .ge | _ => none

/-- b[1] selects 64 bits and b[0] unsigned (R64). -/
def IntTy.code : IntTy → Nat
  | .i32 => 0 | .u32 => 1 | .i64 => 2 | .u64 => 3

def IntTy.ofCode : Nat → IntTy
  | 0 => .i32 | 1 => .u32 | 2 => .i64 | _ => .u64

def AmoOp.code : AmoOp → Nat
  | .add => 0 | .band => 1 | .bor => 2 | .bxor => 3 | .smin => 4 | .smax => 5 | .minu => 6 | .maxu => 7 | .swap => 8

def AmoOp.ofCode : Nat → Option AmoOp
  | 0 => some .add | 1 => some .band | 2 => some .bor | 3 => some .bxor | 4 => some .smin | 5 => some .smax
  | 6 => some .minu | 7 => some .maxu | 8 => some .swap | _ => none

def FamoOp.code : FamoOp → Nat
  | .fadd => 10 | .fmin => 11 | .fmax => 12

def FamoOp.ofCode : Nat → Option FamoOp
  | 10 => some .fadd | 11 => some .fmin | 12 => some .fmax | _ => none

def AmoWidth.code : AmoWidth → Nat
  | .w => 0 | .d => 1

def AmoWidth.ofCode : Nat → AmoWidth
  | 0 => .w | _ => .d

def MemOrder.code : MemOrder → Nat
  | .rlx => 0 | .acq => 1 | .rel => 2 | .ar => 3

def MemOrder.ofCode : Nat → MemOrder
  | 0 => .rlx | 1 => .acq | 2 => .rel | _ => .ar

def Scope.code : Scope → Nat
  | .core => 0 | .crew => 1 | .clus => 2 | .dev => 3 | .sys => 4

def Scope.ofCode : Nat → Option Scope
  | 0 => some .core | 1 => some .crew | 2 => some .clus | 3 => some .dev | 4 => some .sys | _ => none

def RboolOp.code : RboolOp → Nat
  | .and2 => 0 | .or2 => 1 | .xor2 => 2 | .nand2 => 3 | .nor2 => 4 | .xnor2 => 5 | .not1 => 6 | .maj3 => 7

def RboolOp.ofCode : Nat → RboolOp
  | 0 => .and2 | 1 => .or2 | 2 => .xor2 | 3 => .nand2 | 4 => .nor2 | 5 => .xnor2 | 6 => .not1 | _ => .maj3

def PlogOp.code : PlogOp → Nat
  | .and2 => 0 | .or2 => 1 | .xor2 => 2 | .andn2 => 3 | .not1 => 4

def PlogOp.ofCode : Nat → Option PlogOp
  | 0 => some .and2 | 1 => some .or2 | 2 => some .xor2 | 3 => some .andn2 | 4 => some .not1 | _ => none

def Bank.code : Bank → Nat
  | .a => 0 | .b => 1

def Bank.ofCode : Nat → Bank
  | 0 => .a | _ => .b

def boolCode (b : Bool) : Nat := if b then 1 else 0

namespace Dec

/-- A decoded instruction whose "0" fields and register fields satisfy `ok` (R55: else EINFO 7). -/
def need (ok : Bool) (i : Instr) : Except Undecodable Instr := if ok then .ok i else .error .badField

/-- A sub-code that selects a cell: `none` is a cell marked ILL (R57: EINFO 8). -/
def sel {α : Type} (o : Option α) (k : α → Except Undecodable Instr) : Except Undecodable Instr :=
  match o with
  | some x => k x
  | none => .error .illCell

/-- An admitted operand combination of R118, R122 or R246 (else EINFO 8). -/
def cell (ok : Bool) (k : Except Undecodable Instr) : Except Undecodable Instr :=
  if ok then k else .error .illCell

-- fields of the R, I and B formats (R54)
def d (b : Nat) : Nat := fld b 18 6
def a (b : Nat) : Nat := fld b 12 6
def rb (b : Nat) : Nat := fld b 6 6
def fn (b : Nat) : Nat := fld b 0 6
def imm (b : Nat) : Nat := fld b 0 12
-- fields of the V format
def vty (b : Nat) : Nat := fld b 21 3
def vd (b : Nat) : Nat := fld b 16 5
def va (b : Nat) : Nat := fld b 11 5
def vb (b : Nat) : Nat := fld b 6 5
def pg (b : Nat) : Nat := fld b 3 3
def vfn (b : Nat) : Nat := fld b 0 3

/-- Major 0x0B (R163). -/
def loads (b : Nat) : Except Undecodable Instr :=
  match fld b 9 3 with
  | 0 => .ok (.lb (d b) (a b) (fld b 0 9))
  | 1 => .ok (.lbu (d b) (a b) (fld b 0 9))
  | 2 => .ok (.lh (d b) (a b) (fld b 0 9))
  | 3 => .ok (.lhu (d b) (a b) (fld b 0 9))
  | 4 => .ok (.lw (d b) (a b) (fld b 0 9))
  | 5 => .ok (.lwu (d b) (a b) (fld b 0 9))
  | 6 => .ok (.ld (d b) (a b) (fld b 0 9))
  | _ => need (decide (d b < 32)) (.flw (d b) (a b) (fld b 0 9))

/-- Major 0x0C (R163). -/
def stores (b : Nat) : Except Undecodable Instr :=
  match fld b 9 3 with
  | 0 => .ok (.sb (d b) (a b) (fld b 0 9))
  | 1 => .ok (.sh (d b) (a b) (fld b 0 9))
  | 2 => .ok (.sw (d b) (a b) (fld b 0 9))
  | 3 => .ok (.sd (d b) (a b) (fld b 0 9))
  | 4 => need (decide (d b < 32)) (.fsw (d b) (a b) (fld b 0 9))
  | _ => .error .illCell

/-- Major 0x0F (R59, R165). -/
def vmem (b : Nat) : Except Undecodable Instr :=
  match fld b 3 3 with
  | 0 => need (decide (d b < 32)) (.vlds (d b) (a b) (rb b) (fld b 0 3))
  | 1 => need (decide (d b < 32)) (.vsts (d b) (a b) (rb b) (fld b 0 3))
  | 2 => need (decide (d b < 32 ∧ rb b < 32)) (.vldx (d b) (a b) (rb b) (fld b 0 3))
  | 3 => need (decide (d b < 32 ∧ rb b < 32)) (.vstx (d b) (a b) (rb b) (fld b 0 3))
  | _ => .error .illCell

/-- Major 0x10 (R60). -/
def atomics (b : Nat) : Except Undecodable Instr :=
  let op := fld b 8 4
  let w := AmoWidth.ofCode (fld b 7 1)
  let ord := MemOrder.ofCode (fld b 5 2)
  sel (Scope.ofCode (fld b 2 3)) fun sc =>
    if op < 9 then sel (AmoOp.ofCode op) fun o => need (fld b 0 2 == 0) (.amo o w ord sc (d b) (a b))
    else if op = 9 then need (fld b 0 2 == 0 && decide (d b < 63)) (.cas w ord sc (d b) (a b))
    else if op < 13 then
      sel (FamoOp.ofCode op) fun o =>
        need (fld b 0 2 == 0 && fld b 7 1 == 0 && decide (d b < 32)) (.famo o ord sc (d b) (a b))
    else if op = 13 then need (fld b 0 2 == 0 && fld b 7 1 == 0 && decide (d b < 32)) (.csum ord sc (d b) (a b))
    else .error .illCell

/-- Major 0x11 (R58, R61). -/
def sync (b : Nat) : Except Undecodable Instr :=
  let z := d b == 0 && rb b == 0
  let k := fld b 6 4
  let hi := fld b 10 2 == 0
  match fn b with
  | 0x00 => need z (.cwb (a b))
  | 0x01 => need z (.cinv (a b))
  | 0x02 => need z (.cflush (a b))
  | 0x03 => need z (.wbrow (a b))
  | 0x04 => need z (.invrow (a b))
  | 0x08 => sel (Scope.ofCode (fld b 6 3)) fun sc =>
      need (fld b 22 2 == 0 && a b == 0 && fld b 9 3 == 0 && fld b 18 4 != 0) (.fence (fld b 18 4) sc)
  | 0x09 => need (fld b 6 18 == 0) .fencesc
  | 0x10 => need (d b == 0 && hi) (.arrive k (a b))
  | 0x11 => need (a b == 0 && hi) (.waitc (d b) k)
  | 0x12 => need (a b == 0 && hi) (.catchq (d b) k)
  | 0x18 => need (d b == 0 && hi) (.waitk k (a b))
  | 0x19 => need (d b == 0) (.waitt (a b) (rb b))
  | 0x1A => need hi (.krd (d b) k (a b))
  | 0x1B => need (d b == 0 && hi) (.kadd k (a b))
  | _ => .error .illCell

/-- Major 0x12 (R58, R61, R182). -/
def continuation (b : Nat) : Except Undecodable Instr :=
  match fn b with
  | 0 => need (d b == 0) (.spawn (a b) (rb b))
  | 1 => need (fld b 6 18 == 0) .join
  | 2 => need (d b == 0 && rb b == 0) (.finish (a b))
  | 3 => need (fld b 10 2 == 0) (.suspk (fld b 6 4) (a b) (d b))
  | 4 => need (d b == 0 && rb b == 0) (.suspt (a b))
  | 5 => need (fld b 6 18 == 0) .yield
  | _ => .error .illCell

/-- Major 0x13 (R226). -/
def label (b : Nat) : Except Undecodable Instr :=
  match fn b with
  | 0 => .ok (.assume (d b) (a b) (rb b))
  | 1 => need (decide (d b < 32 ∧ a b < 32)) (.assumev (d b) (a b) (rb b))
  | 2 => need (rb b == 0) (.lblof (d b) (a b))
  | 3 => .ok (.lblset (d b) (a b) (rb b))
  | 4 => .ok (.ljoin (d b) (a b) (rb b))
  | 5 => need (d b == 0 && rb b == 0) (.contra (a b))
  | 6 => need (d b == 0 && rb b == 0 && decide (a b < 32)) (.contrav (a b))
  | 7 => need (rb b == 0) (.ltest (d b) (a b))
  | 8 => .ok (.lenv (d b) (a b) (rb b))
  | 9 => need (fld b 6 18 == 0) .wreset
  | 10 => need (rb b == 0) (.lld (d b) (a b))
  | 11 => need (rb b == 0) (.lst (d b) (a b))
  | _ => .error .illCell

/-- Major 0x14 (R284). -/
def copy (b : Nat) : Except Undecodable Instr :=
  let g := d b == 0 && fld b 10 2 == 0 && groupOk (a b) 4
  match fn b with
  | 0 => need (rb b == 0 && decide (0 < d b ∧ d b < 63)) (.jsub (d b) (a b))
  | 1 => need (rb b == 0) (.jpoll (d b) (a b))
  | 2 => need (rb b == 0) (.jcancel (d b) (a b))
  | 4 => need g (.get (fld b 6 4) (a b))
  | 5 => need g (.getx (fld b 6 4) (a b))
  | 6 => need g (.send (fld b 6 4) (a b))
  | 7 => need g (.sendx (fld b 6 4) (a b))
  | 8 => cell (decide (28 ≤ d b ∧ d b < 32)) (need (rb b == 0 && groupOk (a b) 4) (.smode (d b) (a b)))
  | 9 => cell (decide (28 ≤ d b ∧ d b < 32)) (need (a b == 0 && rb b == 0) (.soff (d b)))
  | _ => .error .illCell

/-- Major 0x15, E format (R62, R300, R320, R327). -/
def engine (b : Nat) : Except Undecodable Instr :=
  let k := fld b 20 4
  let x := fld b 14 6
  match fld b 8 6 with
  | 0 => need (fld b 0 8 == 0 && groupOk x 3) (.rcopy k x)
  | 1 => need (fld b 0 8 == 0 && groupOk x 3) (.rfill k x)
  | 2 => need (fld b 3 5 == 0 && groupOk x 5) (.rbool (RboolOp.ofCode (fld b 0 3)) k x)
  | 3 => need (fld b 1 7 == 0 && groupOk x 2) (.rpromo (fld b 0 1 == 1) k x)
  | 4 => need (fld b 0 8 == 0 && groupOk x 2) (.rdemo k x)
  | 5 => need (fld b 1 7 == 0) (.ired (fld b 0 1 == 1) k x)
  | 6 => need (fld b 0 8 == 0) (.edgerun k x)
  | _ => .error .illCell

/-- Major 0x16 (R63, R195). -/
def crAccess (b : Nat) : Except Undecodable Instr :=
  match fld b 10 2 with
  | 0 => need (a b == 0) (.crr (d b) (fld b 0 10))
  | 1 => need (d b == 0) (.crw (fld b 0 10) (a b))
  | 2 => .ok (.crs (d b) (fld b 0 10) (a b))
  | _ => .ok (.crc (d b) (fld b 0 10) (a b))

/-- Major 0x17 (R58, R61, R94, R129, R196, R197, R341). -/
def system (b : Nat) : Except Undecodable Instr :=
  let none3 := fld b 6 18 == 0
  match fn b with
  | 0 => need (d b == 0) (.svc (fld b 6 12))
  | 1 => need none3 .eret
  | 2 => need none3 .upret
  | 3 => need (a b == 0 && fld b 10 2 == 0) (.feat (d b) (fld b 6 4))
  | 4 => need (d b == 0 && rb b == 0) (.invpg (a b))
  | 5 => need (fld b 19 5 == 0 && rb b == 0) (.dtld (Bank.ofCode (fld b 18 1)) (a b))
  | 8 => need (d b == 0 && rb b == 0) (.edgeret (a b))
  | 9 => need none3 .edgeskip
  | 10 => need none3 .edgedone
  | _ => .error .illCell

/-- Major 0x20 (R79). -/
def integer (b : Nat) : Except Undecodable Instr :=
  match fn b with
  | 0 => .ok (.add (d b) (a b) (rb b))
  | 1 => .ok (.sub (d b) (a b) (rb b))
  | 2 => .ok (.and (d b) (a b) (rb b))
  | 3 => .ok (.or (d b) (a b) (rb b))
  | 4 => .ok (.xor (d b) (a b) (rb b))
  | 5 => .ok (.shl (d b) (a b) (rb b))
  | 6 => .ok (.shr (d b) (a b) (rb b))
  | 7 => .ok (.sra (d b) (a b) (rb b))
  | 8 => .ok (.slt (d b) (a b) (rb b))
  | 9 => .ok (.sltu (d b) (a b) (rb b))
  | 10 => .ok (.min (d b) (a b) (rb b))
  | 11 => .ok (.max (d b) (a b) (rb b))
  | 12 => .ok (.minu (d b) (a b) (rb b))
  | 13 => .ok (.maxu (d b) (a b) (rb b))
  | 14 => need (rb b == 0) (.clz (d b) (a b))
  | 15 => need (rb b == 0) (.popc (d b) (a b))
  | 16 => .ok (.mul (d b) (a b) (rb b))
  | 17 => .ok (.mulh (d b) (a b) (rb b))
  | 18 => .ok (.mulhu (d b) (a b) (rb b))
  | 19 => .ok (.div (d b) (a b) (rb b))
  | 20 => .ok (.divu (d b) (a b) (rb b))
  | 21 => .ok (.rem (d b) (a b) (rb b))
  | 22 => .ok (.remu (d b) (a b) (rb b))
  | _ => .error .illCell

/-- Major 0x27 (R83). -/
def shiftImm (b : Nat) : Except Undecodable Instr :=
  match fld b 10 2 with
  | 0 => need (fld b 6 4 == 0) (.shli (d b) (a b) (fld b 0 6))
  | 1 => need (fld b 6 4 == 0) (.shri (d b) (a b) (fld b 0 6))
  | 2 => need (fld b 6 4 == 0) (.srai (d b) (a b) (fld b 0 6))
  | _ => .error .illCell

/-- Major 0x28 (R64, R112). -/
def floatBinary (b : Nat) : Except Undecodable Instr :=
  let fff := decide (d b < 32 ∧ a b < 32 ∧ rb b < 32)
  let rm := Rm.ofCode (fld b 0 3)
  match fld b 3 3 with
  | 0 => sel rm fun r => need fff (.fadd r (d b) (a b) (rb b))
  | 1 => sel rm fun r => need fff (.fsub r (d b) (a b) (rb b))
  | 2 => sel rm fun r => need fff (.fmul r (d b) (a b) (rb b))
  | 3 => sel rm fun r => need fff (.fdiv r (d b) (a b) (rb b))
  | 4 => sel rm fun r => need fff (.ffma r (d b) (a b) (rb b))
  | 5 => need (fff && fld b 0 3 == 0) (.fmin (d b) (a b) (rb b))
  | 6 => need (fff && fld b 0 3 == 0) (.fmax (d b) (a b) (rb b))
  | _ => sel (FCc.ofCode (fld b 0 3)) fun c => need (decide (a b < 32 ∧ rb b < 32)) (.fcmp c (d b) (a b) (rb b))

/-- Major 0x29 (R64, R112, R114, R115). -/
def floatUnary (b : Nat) : Except Undecodable Instr :=
  let rm := Rm.ofCode (fld b 0 3)
  let z := rb b == 0 && fld b 0 3 == 0
  match fld b 3 3 with
  | 0 => sel rm fun r => need (rb b == 0 && decide (d b < 32 ∧ a b < 32)) (.fsqrt r (d b) (a b))
  | 1 => sel rm fun r =>
      need (fld b 8 4 == 0 && decide (a b < 32)) (.fcvtfi r (IntTy.ofCode (fld b 6 2)) (d b) (a b))
  | 2 => sel rm fun r =>
      need (fld b 8 4 == 0 && decide (d b < 32)) (.fcvtif r (IntTy.ofCode (fld b 6 2)) (d b) (a b))
  | 3 => need (z && decide (a b < 32)) (.fmvxf (d b) (a b))
  | 4 => need (z && decide (d b < 32)) (.fmvfx (d b) (a b))
  | 5 => need (z && decide (a b < 32)) (.fclass (d b) (a b))
  | _ => .error .illCell

/-- Major 0x2A (R65). -/
def vectorA (b : Nat) : Except Undecodable Instr :=
  sel (ElemTy.ofCode (vty b)) fun t =>
    match vfn b with
    | 0 => .ok (.vadd t (vd b) (va b) (vb b) (pg b))
    | 1 => .ok (.vsub t (vd b) (va b) (vb b) (pg b))
    | 2 => .ok (.vmul t (vd b) (va b) (vb b) (pg b))
    | 3 => .ok (.vfma t (vd b) (va b) (vb b) (pg b))
    | 4 => .ok (.vfms t (vd b) (va b) (vb b) (pg b))
    | 5 => .ok (.vmin t (vd b) (va b) (vb b) (pg b))
    | 6 => .ok (.vmax t (vd b) (va b) (vb b) (pg b))
    | _ => need (vb b == 0) (.vabs t (vd b) (va b) (pg b))

/-- Major 0x2B (R65, R118). -/
def vectorB (b : Nat) : Except Undecodable Instr :=
  sel (ElemTy.ofCode (vty b)) fun t =>
    match vfn b with
    | 0 => need (vb b == 0) (.vneg t (vd b) (va b) (pg b))
    | 1 => cell t.isInt (.ok (.vand t (vd b) (va b) (vb b) (pg b)))
    | 2 => cell t.isInt (.ok (.vor t (vd b) (va b) (vb b) (pg b)))
    | 3 => cell t.isInt (.ok (.vxor t (vd b) (va b) (vb b) (pg b)))
    | 4 => cell t.isInt (.ok (.vshl t (vd b) (va b) (vb b) (pg b)))
    | 5 => cell t.isInt (.ok (.vshr t (vd b) (va b) (vb b) (pg b)))
    | 6 => cell t.isInt (.ok (.vsra t (vd b) (va b) (vb b) (pg b)))
    | _ => .ok (.vsel t (vd b) (va b) (vb b) (pg b))

/-- Major 0x2C (R65, R120). -/
def vectorCmp (b : Nat) : Except Undecodable Instr :=
  sel (ElemTy.ofCode (vty b)) fun t =>
    sel (VCc.ofCode (vfn b)) fun c => need (fld b 19 2 == 0) (.vcmp c t (fld b 16 3) (va b) (vb b) (pg b))

/-- Major 0x2D (R65, R118, R122, R123). -/
def vectorC (b : Nat) : Except Undecodable Instr :=
  sel (ElemTy.ofCode (vty b)) fun t =>
    match vfn b with
    | 0 => sel (ElemTy.ofCode (fld b 6 3)) fun s =>
        cell (decide (s ≠ t)) (need (fld b 9 2 == 0) (.vcvt t s (vd b) (va b) (pg b)))
    | 1 => cell (!t.isInt)
        (need (fld b 8 3 == 0) (.venc (Bank.ofCode (fld b 6 1)) (fld b 7 1 == 1) t (vd b) (va b) (pg b)))
    | 2 => cell (!t.isInt) (need (fld b 7 4 == 0) (.vdec (Bank.ofCode (fld b 6 1)) t (vd b) (va b) (pg b)))
    | 3 => cell (!t.isInt) (.ok (.vscale t (vd b) (va b) (vb b) (pg b)))
    | 4 => need (vb b == 0) (.vreds t (vd b) (va b) (pg b))
    | 5 => need (vb b == 0) (.vredm t (vd b) (va b) (pg b))
    | 6 => cell (!t.isInt) (need (vb b == 0) (.vexp2 t (vd b) (va b) (pg b)))
    | _ => cell (!t.isInt) (need (vb b == 0) (.vrcp t (vd b) (va b) (pg b)))

/-- PLOG of major 0x2E, whose type field is the operation (R65). -/
def plog (b : Nat) : Except Undecodable Instr :=
  sel (PlogOp.ofCode (vty b)) fun o =>
    need (fld b 19 2 == 0 && fld b 14 2 == 0 && fld b 9 2 == 0 && pg b == 0 && (decide (o ≠ .not1) || fld b 6 3 == 0))
      (.plog o (fld b 16 3) (fld b 11 3) (fld b 6 3))

/-- Major 0x2E (R65, R118, R127, R128). -/
def vectorD (b : Nat) : Except Undecodable Instr :=
  if vfn b = 7 then plog b
  else sel (ElemTy.ofCode (vty b)) fun t =>
    match vfn b with
    | 0 => cell (!t.isInt) (need (vb b == 0) (.vrsq t (vd b) (va b) (pg b)))
    | 1 => .ok (.vperm t (vd b) (va b) (vb b) (pg b))
    | 2 => need (vb b == 0) (.vbcast t (vd b) (va b) (pg b))
    | 3 => need (pg b == 0) (.vins t (vd b) (va b) (vb b))
    | 4 => need (pg b == 0) (.vext t (vd b) (va b) (vb b))
    | 5 => need (vb b == 0) (.vmov t (vd b) (va b) (pg b))
    | _ => need (fld b 19 2 == 0 && vb b == 0 && pg b == 0) (.pset t (fld b 16 3) (va b))

-- fields of the MM format
def mshape (b : Nat) : Nat := fld b 19 5
def macc (b : Nat) : Nat := fld b 18 1
def mz (b : Nat) : Bool := fld b 17 1 == 1
def ma (b : Nat) : Nat := fld b 11 6
def mb (b : Nat) : Nat := fld b 5 6
def mvs (b : Nat) : Nat := fld b 0 5

/-- The operand groups of an MMA form (R55, R66). -/
def mmaGroups (b : Nat) : Bool := groupOk (ma b) (if mz b then 3 else 2) && groupOk (mb b) 2

/-- An unscaled MMA form (R245, R246). -/
def mmaPlain (l : MmaLimits) (b : Nat) (i : Instr) : Except Undecodable Instr :=
  cell (l.shapeOk (mshape b) (mz b)) (need (mvs b == 0 && mmaGroups b) i)

/-- A scaled MMA form (R245, R246). -/
def mmaScaled (l : MmaLimits) (b : Nat) (i : Instr) : Except Undecodable Instr :=
  cell (l.shapeOk (mshape b) (mz b) && scalesOk l (mshape b) (mvs b)) (need (mmaGroups b) i)

/-- Major 0x36 (R67, R260). -/
def matrixControl (b : Nat) : Except Undecodable Instr :=
  let acc := fld b 18 1
  let z := fld b 19 5 == 0
  match fn b with
  | 0 => need (d b == 0 && a b == 0) (.macq (rb b + 1))
  | 1 => need (fld b 6 18 == 0) .mrel
  | 2 => need (z && a b == 0 && rb b == 0) (.mzero acc)
  | 3 => need (z && rb b == 0 && groupOk (a b) 2) (.mlda acc (a b))
  | 4 => need (z && rb b == 0 && groupOk (a b) 2) (.msta acc (a b))
  | 5 => need (fld b 6 18 == 0) .msync
  | 6 => .ok (.mskld (d b) (a b) (rb b))
  | _ => .error .illCell

/-- The major opcode grid (R56). -/
def major (m b : Nat) : Except Undecodable Instr :=
  match m with
  | 0x00 => .ok (.j (fld b 0 24))
  | 0x01 => .ok (.jl (fld b 0 24))
  | 0x02 => .ok (.beq (d b) (a b) (imm b))
  | 0x03 => .ok (.bne (d b) (a b) (imm b))
  | 0x04 => .ok (.blt (d b) (a b) (imm b))
  | 0x05 => .ok (.bge (d b) (a b) (imm b))
  | 0x06 => .ok (.bltu (d b) (a b) (imm b))
  | 0x07 => .ok (.bgeu (d b) (a b) (imm b))
  | 0x08 => if d b = 0 then .ok (.jr (a b) (imm b)) else .ok (.jlr (d b) (a b) (imm b))
  | 0x09 => need (d b == 0) (.loop (a b) (imm b))
  | 0x0A => .ok (.loopi (fld b 12 12) (imm b))
  | 0x0B => loads b
  | 0x0C => stores b
  | 0x0D => .ok (.vld (fld b 19 5) (fld b 13 6) (fld b 0 13))
  | 0x0E => .ok (.vst (fld b 19 5) (fld b 13 6) (fld b 0 13))
  | 0x0F => vmem b
  | 0x10 => atomics b
  | 0x11 => sync b
  | 0x12 => continuation b
  | 0x13 => label b
  | 0x14 => copy b
  | 0x15 => engine b
  | 0x16 => crAccess b
  | 0x17 => system b
  | 0x18 | 0x19 | 0x1A | 0x1B => .ok (.upi (fld b 20 6) (fld b 0 20))
  | 0x1C | 0x1D | 0x1E | 0x1F => .ok (.aupc (fld b 20 6) (fld b 0 20))
  | 0x20 => integer b
  | 0x21 => .ok (.addi (d b) (a b) (imm b))
  | 0x22 => .ok (.andi (d b) (a b) (imm b))
  | 0x23 => .ok (.ori (d b) (a b) (imm b))
  | 0x24 => .ok (.xori (d b) (a b) (imm b))
  | 0x25 => .ok (.slti (d b) (a b) (imm b))
  | 0x26 => .ok (.sltiu (d b) (a b) (imm b))
  | 0x27 => shiftImm b
  | 0x28 => floatBinary b
  | 0x29 => floatUnary b
  | 0x2A => vectorA b
  | 0x2B => vectorB b
  | 0x2C => vectorCmp b
  | 0x2D => vectorC b
  | 0x2E => vectorD b
  | 0x30 => mmaPlain mmaBB b (.mmabb (mshape b) (macc b) (mz b) (ma b) (mb b))
  | 0x31 => mmaPlain mmaHH b (.mmahh (mshape b) (macc b) (mz b) (ma b) (mb b))
  | 0x32 => mmaScaled mmaEE b (.mmaee (mshape b) (macc b) (mz b) (ma b) (mb b) (mvs b))
  | 0x33 => mmaScaled mmaEF b (.mmaef (mshape b) (macc b) (mz b) (ma b) (mb b) (mvs b))
  | 0x34 => mmaScaled mmaFF b (.mmaff (mshape b) (macc b) (mz b) (ma b) (mb b) (mvs b))
  | 0x35 => mmaPlain mmaII b (.mmaii (mshape b) (macc b) (mz b) (ma b) (mb b))
  | 0x36 => matrixControl b
  | 0x3F => if fn b = 0 then .ok (.hpref (d b) (a b) (rb b)) else .ok (.ori 0 0 0)
  | _ => .error .illCell

end Dec

/-- The instruction of a 30-bit body. A hint of major 0x3F that EMK-4 does not define is NOP, `ori x0, x0, 0`
(R69, R76). -/
def decodeBody (b : Nat) : Except Undecodable Instr := Dec.major (fld b 24 6) b

/-- A 32-bit instruction word: bits 31 (LONE) and 30 (SW) belong to the container (R45). -/
def decodeWord (w : Half) : Except Undecodable Instr := decodeBody (w.toNat % 2 ^ 30)

/-- The host's view of the decoder: an instruction word of the table, numbered as the table numbers it. Every
row of the table has one word of 32 bits. -/
def decodeTableWord (nbits w : Nat) : Option Instr :=
  match decodeBody (w % 2 ^ nbits % 2 ^ 30) with
  | .ok i => some i
  | .error _ => none

/-! ### The encoder -/

namespace Enc

/-- R format (R54). -/
def r (m d a b fn : Nat) : Nat := m * 2 ^ 24 + d * 2 ^ 18 + a * 2 ^ 12 + b * 2 ^ 6 + fn
/-- I and B formats: the two 6-bit fields and a 12-bit one. -/
def i (m d a imm : Nat) : Nat := m * 2 ^ 24 + d * 2 ^ 18 + a * 2 ^ 12 + imm
/-- J format. -/
def j (m off : Nat) : Nat := m * 2 ^ 24 + off
/-- U format: [29:27] = 011. -/
def u (sel d imm : Nat) : Nat := 3 * 2 ^ 27 + sel * 2 ^ 26 + d * 2 ^ 20 + imm
/-- V format. -/
def v (m t vd va vb pg fn : Nat) : Nat :=
  m * 2 ^ 24 + t * 2 ^ 21 + vd * 2 ^ 16 + va * 2 ^ 11 + vb * 2 ^ 6 + pg * 2 ^ 3 + fn
/-- VM format. -/
def vm (m vd xa imm : Nat) : Nat := m * 2 ^ 24 + vd * 2 ^ 19 + xa * 2 ^ 13 + imm
/-- MM format. -/
def mm (m shape acc : Nat) (z : Bool) (xa xb vs : Nat) : Nat :=
  m * 2 ^ 24 + shape * 2 ^ 19 + acc * 2 ^ 18 + boolCode z * 2 ^ 17 + xa * 2 ^ 11 + xb * 2 ^ 5 + vs
/-- E format: op[13:8] and op[7:0]. -/
def e (k xa f modifier : Nat) : Nat := 0x15 * 2 ^ 24 + k * 2 ^ 20 + xa * 2 ^ 14 + f * 2 ^ 8 + modifier
/-- Loads and stores: selector and scaled offset in imm12 (R163). -/
def mem (m sel d a off : Nat) : Nat := m * 2 ^ 24 + d * 2 ^ 18 + a * 2 ^ 12 + sel * 2 ^ 9 + off
/-- Atomics (R60). -/
def atom (op w : Nat) (ord : MemOrder) (sc : Scope) (d a : Nat) : Nat :=
  0x10 * 2 ^ 24 + d * 2 ^ 18 + a * 2 ^ 12 + op * 2 ^ 8 + w * 2 ^ 7 + ord.code * 2 ^ 5 + sc.code * 2 ^ 2
/-- CR accesses (R63). -/
def cr (op d a n : Nat) : Nat := 0x16 * 2 ^ 24 + d * 2 ^ 18 + a * 2 ^ 12 + op * 2 ^ 10 + n
/-- Float groups: fn[5:3] and fn[2:0] (R64). -/
def fl (m op sub d a b : Nat) : Nat := m * 2 ^ 24 + d * 2 ^ 18 + a * 2 ^ 12 + b * 2 ^ 6 + op * 2 ^ 3 + sub

end Enc

/-- The 30-bit body of an instruction; an event or packet has none. -/
def encode : Instr → Option Nat
  | .j off => some (Enc.j 0x00 off)
  | .jl off => some (Enc.j 0x01 off)
  | .beq a b off => some (Enc.i 0x02 a b off)
  | .bne a b off => some (Enc.i 0x03 a b off)
  | .blt a b off => some (Enc.i 0x04 a b off)
  | .bge a b off => some (Enc.i 0x05 a b off)
  | .bltu a b off => some (Enc.i 0x06 a b off)
  | .bgeu a b off => some (Enc.i 0x07 a b off)
  | .jlr d a imm => some (Enc.i 0x08 d a imm)
  | .jr a imm => some (Enc.i 0x08 0 a imm)
  | .loop a imm => some (Enc.i 0x09 0 a imm)
  | .loopi n imm => some (0x0A * 2 ^ 24 + n * 2 ^ 12 + imm)
  | .lb d a off => some (Enc.mem 0x0B 0 d a off)
  | .lbu d a off => some (Enc.mem 0x0B 1 d a off)
  | .lh d a off => some (Enc.mem 0x0B 2 d a off)
  | .lhu d a off => some (Enc.mem 0x0B 3 d a off)
  | .lw d a off => some (Enc.mem 0x0B 4 d a off)
  | .lwu d a off => some (Enc.mem 0x0B 5 d a off)
  | .ld d a off => some (Enc.mem 0x0B 6 d a off)
  | .flw d a off => some (Enc.mem 0x0B 7 d a off)
  | .sb d a off => some (Enc.mem 0x0C 0 d a off)
  | .sh d a off => some (Enc.mem 0x0C 1 d a off)
  | .sw d a off => some (Enc.mem 0x0C 2 d a off)
  | .sd d a off => some (Enc.mem 0x0C 3 d a off)
  | .fsw d a off => some (Enc.mem 0x0C 4 d a off)
  | .vld d a imm => some (Enc.vm 0x0D d a imm)
  | .vst d a imm => some (Enc.vm 0x0E d a imm)
  | .vlds d a b pg => some (Enc.fl 0x0F 0 pg d a b)
  | .vsts d a b pg => some (Enc.fl 0x0F 1 pg d a b)
  | .vldx d a b pg => some (Enc.fl 0x0F 2 pg d a b)
  | .vstx d a b pg => some (Enc.fl 0x0F 3 pg d a b)
  | .amo op w ord sc d a => some (Enc.atom op.code w.code ord sc d a)
  | .cas w ord sc d a => some (Enc.atom 9 w.code ord sc d a)
  | .famo op ord sc d a => some (Enc.atom op.code 0 ord sc d a)
  | .csum ord sc d a => some (Enc.atom 13 0 ord sc d a)
  | .cwb a => some (Enc.r 0x11 0 a 0 0x00)
  | .cinv a => some (Enc.r 0x11 0 a 0 0x01)
  | .cflush a => some (Enc.r 0x11 0 a 0 0x02)
  | .wbrow a => some (Enc.r 0x11 0 a 0 0x03)
  | .invrow a => some (Enc.r 0x11 0 a 0 0x04)
  | .fence kinds sc => some (Enc.r 0x11 kinds 0 sc.code 0x08)
  | .fencesc => some (Enc.r 0x11 0 0 0 0x09)
  | .arrive g a => some (Enc.r 0x11 0 a g 0x10)
  | .waitc d g => some (Enc.r 0x11 d 0 g 0x11)
  | .catchq d g => some (Enc.r 0x11 d 0 g 0x12)
  | .waitk k a => some (Enc.r 0x11 0 a k 0x18)
  | .waitt a b => some (Enc.r 0x11 0 a b 0x19)
  | .krd d k a => some (Enc.r 0x11 d a k 0x1A)
  | .kadd k a => some (Enc.r 0x11 0 a k 0x1B)
  | .spawn a b => some (Enc.r 0x12 0 a b 0)
  | .join => some (Enc.r 0x12 0 0 0 1)
  | .finish a => some (Enc.r 0x12 0 a 0 2)
  | .suspk k a d => some (Enc.r 0x12 d a k 3)
  | .suspt a => some (Enc.r 0x12 0 a 0 4)
  | .yield => some (Enc.r 0x12 0 0 0 5)
  | .assume d a b => some (Enc.r 0x13 d a b 0)
  | .assumev d a b => some (Enc.r 0x13 d a b 1)
  | .lblof d a => some (Enc.r 0x13 d a 0 2)
  | .lblset d a b => some (Enc.r 0x13 d a b 3)
  | .ljoin d a b => some (Enc.r 0x13 d a b 4)
  | .contra a => some (Enc.r 0x13 0 a 0 5)
  | .contrav a => some (Enc.r 0x13 0 a 0 6)
  | .ltest d a => some (Enc.r 0x13 d a 0 7)
  | .lenv d a b => some (Enc.r 0x13 d a b 8)
  | .wreset => some (Enc.r 0x13 0 0 0 9)
  | .lld d a => some (Enc.r 0x13 d a 0 10)
  | .lst d a => some (Enc.r 0x13 d a 0 11)
  | .jsub d a => some (Enc.r 0x14 d a 0 0)
  | .jpoll d a => some (Enc.r 0x14 d a 0 1)
  | .jcancel d a => some (Enc.r 0x14 d a 0 2)
  | .get k a => some (Enc.r 0x14 0 a k 4)
  | .getx k a => some (Enc.r 0x14 0 a k 5)
  | .send k a => some (Enc.r 0x14 0 a k 6)
  | .sendx k a => some (Enc.r 0x14 0 a k 7)
  | .smode v a => some (Enc.r 0x14 v a 0 8)
  | .soff v => some (Enc.r 0x14 v 0 0 9)
  | .rcopy k a => some (Enc.e k a 0 0)
  | .rfill k a => some (Enc.e k a 1 0)
  | .rbool op k a => some (Enc.e k a 2 op.code)
  | .rpromo pin k a => some (Enc.e k a 3 (boolCode pin))
  | .rdemo k a => some (Enc.e k a 4 0)
  | .ired fast k a => some (Enc.e k a 5 (boolCode fast))
  | .edgerun k a => some (Enc.e k a 6 0)
  | .crr d n => some (Enc.cr 0 d 0 n)
  | .crw n a => some (Enc.cr 1 0 a n)
  | .crs d n a => some (Enc.cr 2 d a n)
  | .crc d n a => some (Enc.cr 3 d a n)
  | .svc n => some (0x17 * 2 ^ 24 + n * 2 ^ 6)
  | .eret => some (Enc.r 0x17 0 0 0 1)
  | .upret => some (Enc.r 0x17 0 0 0 2)
  | .feat d n => some (Enc.r 0x17 d 0 n 3)
  | .invpg a => some (Enc.r 0x17 0 a 0 4)
  | .dtld bank a => some (Enc.r 0x17 bank.code a 0 5)
  | .edgeret a => some (Enc.r 0x17 0 a 0 8)
  | .edgeskip => some (Enc.r 0x17 0 0 0 9)
  | .edgedone => some (Enc.r 0x17 0 0 0 10)
  | .upi d imm => some (Enc.u 0 d imm)
  | .aupc d imm => some (Enc.u 1 d imm)
  | .add d a b => some (Enc.r 0x20 d a b 0)
  | .sub d a b => some (Enc.r 0x20 d a b 1)
  | .and d a b => some (Enc.r 0x20 d a b 2)
  | .or d a b => some (Enc.r 0x20 d a b 3)
  | .xor d a b => some (Enc.r 0x20 d a b 4)
  | .shl d a b => some (Enc.r 0x20 d a b 5)
  | .shr d a b => some (Enc.r 0x20 d a b 6)
  | .sra d a b => some (Enc.r 0x20 d a b 7)
  | .slt d a b => some (Enc.r 0x20 d a b 8)
  | .sltu d a b => some (Enc.r 0x20 d a b 9)
  | .min d a b => some (Enc.r 0x20 d a b 10)
  | .max d a b => some (Enc.r 0x20 d a b 11)
  | .minu d a b => some (Enc.r 0x20 d a b 12)
  | .maxu d a b => some (Enc.r 0x20 d a b 13)
  | .clz d a => some (Enc.r 0x20 d a 0 14)
  | .popc d a => some (Enc.r 0x20 d a 0 15)
  | .mul d a b => some (Enc.r 0x20 d a b 16)
  | .mulh d a b => some (Enc.r 0x20 d a b 17)
  | .mulhu d a b => some (Enc.r 0x20 d a b 18)
  | .div d a b => some (Enc.r 0x20 d a b 19)
  | .divu d a b => some (Enc.r 0x20 d a b 20)
  | .rem d a b => some (Enc.r 0x20 d a b 21)
  | .remu d a b => some (Enc.r 0x20 d a b 22)
  | .addi d a imm => some (Enc.i 0x21 d a imm)
  | .andi d a imm => some (Enc.i 0x22 d a imm)
  | .ori d a imm => some (Enc.i 0x23 d a imm)
  | .xori d a imm => some (Enc.i 0x24 d a imm)
  | .slti d a imm => some (Enc.i 0x25 d a imm)
  | .sltiu d a imm => some (Enc.i 0x26 d a imm)
  | .shli d a n => some (Enc.i 0x27 d a n)
  | .shri d a n => some (Enc.i 0x27 d a (0x400 + n))
  | .srai d a n => some (Enc.i 0x27 d a (0x800 + n))
  | .fadd rm d a b => some (Enc.fl 0x28 0 rm.code d a b)
  | .fsub rm d a b => some (Enc.fl 0x28 1 rm.code d a b)
  | .fmul rm d a b => some (Enc.fl 0x28 2 rm.code d a b)
  | .fdiv rm d a b => some (Enc.fl 0x28 3 rm.code d a b)
  | .ffma rm d a b => some (Enc.fl 0x28 4 rm.code d a b)
  | .fmin d a b => some (Enc.fl 0x28 5 0 d a b)
  | .fmax d a b => some (Enc.fl 0x28 6 0 d a b)
  | .fcmp cc d a b => some (Enc.fl 0x28 7 cc.code d a b)
  | .fsqrt rm d a => some (Enc.fl 0x29 0 rm.code d a 0)
  | .fcvtfi rm it d a => some (Enc.fl 0x29 1 rm.code d a it.code)
  | .fcvtif rm it d a => some (Enc.fl 0x29 2 rm.code d a it.code)
  | .fmvxf d a => some (Enc.fl 0x29 3 0 d a 0)
  | .fmvfx d a => some (Enc.fl 0x29 4 0 d a 0)
  | .fclass d a => some (Enc.fl 0x29 5 0 d a 0)
  | .vadd t d a b pg => some (Enc.v 0x2A t.code d a b pg 0)
  | .vsub t d a b pg => some (Enc.v 0x2A t.code d a b pg 1)
  | .vmul t d a b pg => some (Enc.v 0x2A t.code d a b pg 2)
  | .vfma t d a b pg => some (Enc.v 0x2A t.code d a b pg 3)
  | .vfms t d a b pg => some (Enc.v 0x2A t.code d a b pg 4)
  | .vmin t d a b pg => some (Enc.v 0x2A t.code d a b pg 5)
  | .vmax t d a b pg => some (Enc.v 0x2A t.code d a b pg 6)
  | .vabs t d a pg => some (Enc.v 0x2A t.code d a 0 pg 7)
  | .vneg t d a pg => some (Enc.v 0x2B t.code d a 0 pg 0)
  | .vand t d a b pg => some (Enc.v 0x2B t.code d a b pg 1)
  | .vor t d a b pg => some (Enc.v 0x2B t.code d a b pg 2)
  | .vxor t d a b pg => some (Enc.v 0x2B t.code d a b pg 3)
  | .vshl t d a b pg => some (Enc.v 0x2B t.code d a b pg 4)
  | .vshr t d a b pg => some (Enc.v 0x2B t.code d a b pg 5)
  | .vsra t d a b pg => some (Enc.v 0x2B t.code d a b pg 6)
  | .vsel t d a b pg => some (Enc.v 0x2B t.code d a b pg 7)
  | .vcmp cc t p a b pg => some (Enc.v 0x2C t.code p a b pg cc.code)
  | .vcvt t src d a pg => some (Enc.v 0x2D t.code d a src.code pg 0)
  | .venc bank nan t d a pg => some (Enc.v 0x2D t.code d a (bank.code + 2 * boolCode nan) pg 1)
  | .vdec bank t d a pg => some (Enc.v 0x2D t.code d a bank.code pg 2)
  | .vscale t d a b pg => some (Enc.v 0x2D t.code d a b pg 3)
  | .vreds t d a pg => some (Enc.v 0x2D t.code d a 0 pg 4)
  | .vredm t d a pg => some (Enc.v 0x2D t.code d a 0 pg 5)
  | .vexp2 t d a pg => some (Enc.v 0x2D t.code d a 0 pg 6)
  | .vrcp t d a pg => some (Enc.v 0x2D t.code d a 0 pg 7)
  | .vrsq t d a pg => some (Enc.v 0x2E t.code d a 0 pg 0)
  | .vperm t d a b pg => some (Enc.v 0x2E t.code d a b pg 1)
  | .vbcast t d a pg => some (Enc.v 0x2E t.code d a 0 pg 2)
  | .vins t d a b => some (Enc.v 0x2E t.code d a b 0 3)
  | .vext t d a b => some (Enc.v 0x2E t.code d a b 0 4)
  | .vmov t d a pg => some (Enc.v 0x2E t.code d a 0 pg 5)
  | .pset t p a => some (Enc.v 0x2E t.code p a 0 0 6)
  | .plog op d a b => some (Enc.v 0x2E op.code d a b 0 7)
  | .mmabb s c z a b => some (Enc.mm 0x30 s c z a b 0)
  | .mmahh s c z a b => some (Enc.mm 0x31 s c z a b 0)
  | .mmaee s c z a b vs => some (Enc.mm 0x32 s c z a b vs)
  | .mmaef s c z a b vs => some (Enc.mm 0x33 s c z a b vs)
  | .mmaff s c z a b vs => some (Enc.mm 0x34 s c z a b vs)
  | .mmaii s c z a b => some (Enc.mm 0x35 s c z a b 0)
  | .macq n => some (Enc.r 0x36 0 0 (n - 1) 0)
  | .mrel => some (Enc.r 0x36 0 0 0 1)
  | .mzero acc => some (Enc.r 0x36 acc 0 0 2)
  | .mlda acc a => some (Enc.r 0x36 acc a 0 3)
  | .msta acc a => some (Enc.r 0x36 acc a 0 4)
  | .msync => some (Enc.r 0x36 0 0 0 5)
  | .mskld d a b => some (Enc.r 0x36 d a b 6)
  | .hpref d a b => some (Enc.r 0x3F d a b 0)
  | .longLatencyResultReturn _ _ _ | .dispatch _ _ | .recordAging _ _ | .gangReserve _ _ | .gangwaitExpiry _ _
  | .recordWake _ _ | .coreParkWake _ _ | .fencescTickEnd _ _ | .strokeTick | .upcallDelivery _ _
  | .contraRetire _ _ | .wresetRetire _ _ | .leaseGrant _ _ | .matrixCommandComplete _ _ | .matrixHalt _ _
  | .jobStart _ _ | .jobComplete _ _ _ | .jobFault _ _ _ | .transformTimeout _ _ _ | .faultRecordPoll _
  | .streamStripFetch _ _ _ | .remoteLand _ _ _ _ _ | .remoteFailure _ _ _ | .rowOpExecute _ _
  | .rpromoComplete _ _ | .rdemoComplete _ _ | .iredExecute _ _ | .edgeRunStart _ | .superstep _
  | .edgeInvocation _ _ | .edgeRunFault _ | .pageWalkComplete _ _ | .shootdownService | .unloadFree _ | .gangStop
  | .contextRestore _ _ _ | .contextCreate _ | .contextDestroy _ | .deviceFault | .queueCreate _ | .doorbell _
  | .rmaWrite _ _ _ | .rmaRead _ _ _ | .packetDependencyMet _ _ | .launch _ _ | .copyin _ _ | .copyout _ _
  | .signal _ _ | .wait _ _ | .barrier _ _ | .load _ _ | .unload _ _ | .qreset _ _ | .ptpSync _ _ _ | .ptpSyncLoss
  | .poolReadMiss _ _ _ | .poolLeaseExpiry _ | .poolWriteApply _ | .backInvalidate _ | .fabricBind _ _
  | .powerOnReset _ _ | .firmwareFetchRetry _ | .firmwareFetch _ | .statusRequest | .routineLoad _ _ _
  | .attestationRequest _ | .svnRaise _ | .healthRequest | .telemetryRequest | .powerCapSet _ | .currentLimit
  | .thermalThrottle _ | .thermalTrip _ | .unitLoss _ _ | .currentFallsBelowLimit | .throttleLevelChange _
  | .copyPacketComplete _ _ _ _ => none

end Sys2Proof
end

