-- ==== Sys2Proof/Machine/Map.lean ====
section
/-! DEFINITION. Finite maps from numbers, as ascending lists of pairs: the form of memory and of every sparse table
of the state. -/

namespace Sys2Proof.Machine

/-- The value at key `k`. -/
def lookup {α : Type} (m : NatMap α) (k : Nat) : Option α :=
  match m with
  | [] => none
  | (j, v) :: t => if j = k then some v else lookup t k

/-- The value at key `k`, or `d` where the map has none. -/
def lookupD {α : Type} (d : α) (m : NatMap α) (k : Nat) : α := (lookup m k).getD d

/-- The map with `v` at key `k`. -/
def insertAt {α : Type} (k : Nat) (v : α) : NatMap α → NatMap α
  | [] => [(k, v)]
  | (j, w) :: t => if k < j then (k, v) :: (j, w) :: t else if j = k then (k, v) :: t else (j, w) :: insertAt k v t

/-- The map without key `k`. -/
def eraseAt {α : Type} (k : Nat) (m : NatMap α) : NatMap α := m.filter (fun e => e.1 != k)

/-- The map with `v` at key `k`, listing no entry equal to the default `d`. -/
def putD {α : Type} [DecidableEq α] (d : α) (k : Nat) (v : α) (m : NatMap α) : NatMap α :=
  if v = d then eraseAt k m else insertAt k v m

/-- The map with the value at `k` changed by `f`, which also sees a missing entry as `d`. -/
def modifyAt {α : Type} (d : α) (k : Nat) (f : α → α) (m : NatMap α) : NatMap α := insertAt k (f (lookupD d m k)) m

/-- Keys strictly ascend. -/
def ascending {α : Type} (m : NatMap α) : Bool := decide (List.Pairwise (· < ·) (m.map Prod.fst))

end Sys2Proof.Machine
end

