-- ==== Sys2Proof/Machine/State.lean ====
section
/-! DEFINITION. The state of the machine, as plain data: the core that moves (the focus), its context with every
cluster and engine, the other contexts, the device; the machine after reset; and why a step can stop. Each
structure's docstring names the rules of spec/ that give it. -/

namespace Sys2Proof.Machine

/-! ### One core -/

/-- Core modes (R43). -/
inductive Mode where
  | u | s
  deriving DecidableEq, Repr

/-- STATUS (R43); the reserved bits read 0. -/
structure Status where
  haz : Bool
  upe : Bool
  inup : Bool
  mode : Mode
  deriving DecidableEq, Repr

/-- The sticky flags of FCSR (R44). -/
structure FFlags where
  nv : Bool
  dz : Bool
  of : Bool
  uf : Bool
  nx : Bool
  deriving DecidableEq, Repr

/-- FCSR (R44): rm is 0 RNE, 1 RTZ, 2 RDN or 3 RUP. -/
structure Fcsr where
  rm : Nat
  flags : FFlags
  deriving DecidableEq, Repr

/-- The register files of R39 with their label words, FCSR and the decode banks: what one pair reads before
either of its instructions writes (R47). -/
structure Regs where
  x : Vector Word 64
  xl : Vector LabelWord 64
  f : Vector Half 32
  fl : Vector LabelWord 32
  v : Vector VWord 32
  vl : Vector LabelWord 32
  p : Vector Word 8
  pl : Vector LabelWord 8
  fcsr : Fcsr
  /-- Decode bank A, 256 entries, and bank B, 16 entries (R104). -/
  bankA : Vector Half 256
  bankB : Vector Half 16
  deriving DecidableEq, Repr

/-- One accumulator tile: 32 rows of 32 elements, a label word per row (R39, R244). -/
structure Tile where
  row : Vector AccRow 32
  lbl : Vector LabelWord 32
  deriving DecidableEq, Repr

/-- An entry of the loop stack (R26): `stop` is the address of the body's last container. -/
structure LoopEntry where
  start : Word
  stop : Word
  count : Nat
  deriving DecidableEq, Repr

/-- The issue latch (model's own): the word executing, whether its container is lone, whether a transfer was
taken in the container, and whether the word is word1 of a pair whose word0 transferred (R45 to R49). -/
structure Issue where
  addr : Word
  lone : Bool
  taken : Bool
  deriving DecidableEq, Repr

/-- A trap cause (R190). -/
inductive Cause where
  | illegal | pair | misalign | page | perm | memerr | memattr | range | lblovf | lbltab | ngfull | lblctl | lblpage
  | lblwrap | loopovf | loopsusp | edgestore | mmalease | catchTrap | priv | svc
  deriving DecidableEq, Repr

/-- A trap about to be taken (R186). -/
structure Trap where
  cause : Cause
  info : Word
  addr : Word
  epc : Word
  /-- The deferred matrix fault, taken here (R191). -/
  deferred : Bool
  deriving DecidableEq, Repr

/-- A register that a long-latency result goes to (R53). -/
inductive Reg where
  | x (n : Nat)
  | f (n : Nat)
  | v (n : Nat)
  | p (n : Nat)
  deriving DecidableEq, Repr

/-- A long-latency result that has not been written (R52), with the FCSR flags that its write ORs in (R101). -/
structure Pending where
  reg : Reg
  value : VWord
  lbl : LabelWord
  flags : FFlags
  deriving DecidableEq, Repr

/-- Why a core that holds a record does not issue (R25, R51, R148, R149, R232, R236, R240, R266, R327). -/
inductive Park where
  | marker
  | counter (k threshold : Nat)
  /-- WAITT: the cycle, the job, and whether a late job without a deliverable handler is waited for (R283). -/
  | cycle (until_ job : Word) (late : Bool)
  | catchPhase (g phase : Nat)
  | fenceE
  | fencesc (stroke : Nat)
  | macq
  /-- A lease held at a gang-stop is to be granted again before anything executes (R259). -/
  | lease
  | msync
  | edgerun
  /-- CONTRA or CONTRAV: the environments on their way to the umpires. -/
  | contra (g : List Env)
  | wreset
  deriving DecidableEq, Repr

/-- Kinds of upcall (R192). -/
inductive UpcallKind where
  | notify | late | remoteError
  deriving DecidableEq, Repr

/-- A pending upcall (R192, R193). -/
structure Upcall where
  kind : UpcallKind
  detail : Nat
  job : Word
  handler : Word
  deriving DecidableEq, Repr

/-- A stream of v28 to v31 (R292): the pattern, the number of the next strip, the control label, and the strips
fetched ahead. -/
structure Stream where
  base : Word
  n0 : Nat
  n1 : Nat
  n2 : Nat
  s0 : Int
  s1 : Int
  s2 : Int
  pos : Nat
  ctl : LabelWord
  ahead : List (VWord × LabelWord)
  deriving DecidableEq, Repr

/-- The six MMA forms (R245). -/
inductive MForm where
  | bb | hh | ee | ef | ff | ii
  deriving DecidableEq, Repr

/-- A matrix command with its operands captured at issue (R252). -/
inductive MCmd where
  | mma (form : MForm) (shape acc : Nat) (z : Bool) (a aw b bw bitmap : Word) (scales : List VWord)
  | mzero (acc : Nat)
  | mlda (acc : Nat) (base w : Word)
  | msta (acc : Nat) (base w : Word)
  deriving DecidableEq, Repr

/-- A queued or set-aside matrix command: issuing core and word, mode of the issuer, control label, decode tables of its
lease (R243), rows already done (R256), range locks. -/
structure MEntry where
  cmd : MCmd
  core : Nat
  /-- The record that issued it. -/
  record : Word
  pc : Word
  mode : Mode
  ctl : LabelWord
  /-- Label words of the scale registers. -/
  scaleLbls : List LabelWord
  bankA : Vector Half 256
  bankB : Vector Half 16
  rows : Nat
  locks : List Nat
  /-- The core has been dispatched since: the accumulators hold unpredictable values once the command is done (R244). -/
  last : Bool
  deriving DecidableEq, Repr

/-- Membership of a core in a gang (R19). -/
structure GangRole where
  index : Nat
  size : Nat
  deriving DecidableEq, Repr

/-- One invocation of an edge function (R329). -/
structure Invocation where
  u : Nat
  v : Nat
  e : Nat
  deriving DecidableEq, Repr

/-- A participant of an edge run (R327 to R329, R337): its counter; the registers, the pc and the issue latch as at
EDGERUN; the running invocation, and how many traps its handlers have not returned from. -/
structure EdgeRole where
  k : Nat
  regs : Regs
  pc : Word
  issue : Issue
  inv : Option Invocation
  depth : Nat
  deriving DecidableEq, Repr

/-- LBLCFG without EPOCH (R207). -/
structure LblCfg where
  xmax : Nat
  swept : Bool
  ovf : Bool
  strict : Bool
  deriving DecidableEq, Repr

/-- LBLSTAT (R208). -/
structure LblStat where
  drops : Nat
  slows : Nat
  lost : Bool
  deriving DecidableEq, Repr

/-- One logical core. -/
structure Core where
  pc : Word
  regs : Regs
  acc0 : Tile
  acc1 : Tile
  status : Status
  /-- k0 to k15 (R30). -/
  k : Vector Half 16
  /-- The loop stack, innermost entry first, and how many outermost entries an upcall froze (R26, R29). -/
  loops : List LoopEntry
  frozen : Nat
  /-- STAGE and CREC (R16); `record` is none on an idle core. -/
  stage : Nat
  crec : Word
  record : Option Word
  gang : Option GangRole
  /-- The gang record for which the core is reserved (R20). -/
  reserved : Option Word
  /-- Epoch the core uses (R224). -/
  epoch : BitVec 8
  lblcfg : LblCfg
  lblstat : LblStat
  epc : Word
  ecause : Word
  einfo : Word
  eaddr : Word
  sloop : Vector Word 4
  upjob : Word
  upcause : Word
  upepc : Word
  /-- Pending upcalls, oldest first, and LOST (R193). -/
  upcalls : List Upcall
  uplost : Bool
  /-- MPROG.ROWS, and the set-aside commands, PEND being that there are some (R256 to R258). -/
  mrows : Nat
  aside : List MEntry
  mfpc : Word
  /-- The deferred matrix fault (R191). -/
  mfault : Option Trap
  dealpat : Word
  catchcfg : Word
  codegen : Half
  /-- Table generation (R243). -/
  tableGen : Nat
  pending : List Pending
  park : Option Park
  /-- Parks of the container that have ended, by slot, each with the value it hands over (model's own): the
  container issues again and completes. -/
  grants : NatMap Word
  /-- What the latest CONTRA of a pair sent to the umpires (R232). -/
  sent : Option Label
  /-- The last instruction stalled at issue (R47). -/
  stalled : Bool
  streams : NatMap Stream
  /-- The streams that word0 of a lone container popped, with the container, for its word1 (R293); and what stood there at
  the latest trap entry and upcall delivery, for the return. -/
  popped : Option (Word × List Nat)
  poppedTrap : Option (Word × List Nat)
  poppedUpcall : Option (Word × List Nat)
  /-- Phase that the core's latest ARRIVE on a group stood in, since the latest CATCHCFG write (R177). -/
  arrived : NatMap Nat
  edge : Option EdgeRole
  issue : Issue
  /-- What a pair reads (R47): the registers and LBLCFG before it. -/
  latch : Option (Regs × LblCfg)
  /-- The LATE that the WAITT of the running container takes at its end (R193), as its job and handler. -/
  late : Option (Word × Word)
  /-- The trap that the running instruction took, for a pair to take as a whole (R47). -/
  trapped : Option Trap
  /-- Store numbers up to which a fetch sees every store, by scope, and those that the next transfer will bring
  into force (R137). -/
  fetchSync : Vector Nat 5
  fenced : Vector Nat 5
  /-- Store number up to which the core's page walks see its own stores (R414). -/
  walkSync : Nat
  deriving DecidableEq, Repr

/-! ### Contexts: world, clusters, engines -/

/-- The world of a context (R199): the epoch as the umpires hold it and as engines use it, the epochs current
since the last sweep (R225), the label table, each entry under the epoch in which it was entered (handle n is
entry n - 1), the nogood store and NGGEN. -/
structure World where
  epoch : BitVec 8
  agentEpoch : BitVec 8
  used : List (BitVec 8)
  table : List (BitVec 8 × Label)
  nogoods : List Env
  nggen : Word
  deriving DecidableEq, Repr

/-- Kinds of operation in EINFO[3:1] of RANGE (R154). -/
inductive LockKind where
  | matrix | copy | row | ired | remote | edge
  deriving DecidableEq, Repr

/-- A registered range of virtual addresses, `lo` to `hi - 1`, in whole lines (R153). -/
structure RangeLock where
  id : Nat
  lo : Nat
  hi : Nat
  dst : Bool
  kind : LockKind
  core : Nat
  deriving DecidableEq, Repr

/-- Members of catch groups: cores 0 to 191, copy units 192 to 215, the sweep unit 216 (R174). -/
abbrev CatchMember := Nat

/-- One catch group (R174, R175). -/
structure CatchGroup where
  image : BitVec 256
  phase : Half
  flags : BitVec 217
  or : Bool
  err : Bool
  /-- OR and ERR of the latest completed phase; none since the latest CATCHCFG write. -/
  latest : Option (Bool × Bool)
  /-- Engine arrivals for a later phase, oldest first: member, OR, ERR. -/
  held : List (CatchMember × Bool × Bool)
  deriving DecidableEq, Repr

/-- The decode tables of a lease that a gang-stop saved, with its holder and the pair recorded for them (R155, R243, R259). -/
structure LeaseTables where
  member : Nat
  tables : Option (Nat × Nat)
  bankA : Vector Half 256
  bankB : Vector Half 16
  deriving DecidableEq, Repr

/-- A crew's matrix engine (R239 to R243, R252). -/
structure MEngine where
  holder : Option Nat
  lrem : Nat
  prev : Option Nat
  /-- Waiting MACQs: member and requested length. -/
  requests : NatMap Nat
  /-- The (core, generation) pair of the tables held, and the tables. -/
  tables : Option (Nat × Nat)
  bankA : Vector Half 256
  bankB : Vector Half 16
  queue : List MEntry
  saved : Option LeaseTables
  deriving DecidableEq, Repr

/-- States of a job (R279). -/
inductive JobState where
  | queued | running | awaiting
  deriving DecidableEq, Repr

/-- A copy job with everything JSUB captured (R271, R285), for which record (R430). -/
structure Job where
  id : Word
  core : Nat
  record : Word
  mode : Mode
  kind : Nat
  k : Nat
  fk : Bool
  fa : Bool
  fn : Bool
  g : Nat
  src : Word
  dst : Word
  len : Nat
  rows : Nat
  sstride : Int
  dstride : Int
  arg : Word
  statva : Word
  handler : Word
  dealpat : Word
  /-- TRANSFORM: the routine bound at acceptance (R451). -/
  routine : Option (List Byte)
  ctl : LabelWord
  bankA : Vector Half 256
  bankB : Vector Half 16
  state : JobState
  /-- A MEMERR has been met once (R281). -/
  retried : Bool
  /-- The fault a job awaiting replay posted: cause code of R417, access, address. -/
  fault : Option (Nat × Nat × Word)
  locks : List Nat
  deriving DecidableEq, Repr

/-- A crew's copy unit (R270): jobs in acceptance order, the latest sequence number, the status words kept for
each core, newest first (R280). -/
structure CopyUnit where
  jobs : List Job
  seq : Half
  kept : List (Word × Word × Nat)
  deriving DecidableEq, Repr

/-- Row operations of the row queue (R300, R309, R310). -/
inductive RowKind where
  | rcopy | rfill
  | rbool (op : RboolOp)
  | rpromo (pin : Bool)
  | rdemo
  deriving DecidableEq, Repr

/-- An operand of a row operation: VA, physical location, LT, CMP. -/
structure RowOperand where
  va : Word
  loc : Nat
  pa : Nat
  lt : Bool
  cmp : Bool
  deriving DecidableEq, Repr

/-- A row operation captured at issue (R302, R309). -/
structure RowOp where
  id : Nat
  kind : RowKind
  core : Nat
  record : Word
  k : Nat
  mode : Mode
  ctl : LabelWord
  /-- Destination first, then the sources or the pattern; RPROMO and RDEMO have the row alone. -/
  operands : List RowOperand
  /-- The status word, unless there is none or the issuer may not write it. -/
  status : Option RowOperand
  locks : List Nat
  deriving DecidableEq, Repr

/-- An IRED captured at issue (R313, R314): of each bag the lines of its table rows, and of its destination row. -/
structure Ired where
  id : Nat
  fast : Bool
  core : Nat
  record : Word
  k : Nat
  mode : Mode
  ctl : LabelWord
  op : Nat
  rowb : Nat
  bags : List (List (List RowOperand) × List RowOperand)
  statva : Word
  locks : List Nat
  deriving DecidableEq, Repr

/-- GET, GETX, SEND, SENDX (R289). -/
inductive RemoteKind where
  | get | getx | send | sendx
  deriving DecidableEq, Repr

/-- A remote operation in flight (R289 to R291). -/
structure RemoteOp where
  id : Nat
  kind : RemoteKind
  core : Nat
  record : Word
  k : Nat
  mode : Mode
  ctl : LabelWord
  /-- The target, `none` for another device of the torus. -/
  target : Option (Nat × Nat)
  place : Word
  bytes : Nat
  n : Nat
  esize : Nat
  tk : Bool
  tcounter : Nat
  remote : Nat
  localOff : Nat
  indexOff : Nat
  /-- The index list as read at issue. -/
  index : List Nat
  handler : Word
  /-- Items that have landed. -/
  landed : List Nat
  locks : List Nat
  /-- Locks in the target cluster's table (R153). -/
  targetLocks : List Nat
  deriving DecidableEq, Repr

/-- An edge-program descriptor (R322). -/
structure EdgeDesc where
  n : Nat
  op : Nat
  mode0 : Bool
  nosw : Bool
  settle : Bool
  g : Nat
  limit : Nat
  alpha : Nat
  beta : Nat
  state : Word
  ooff : Word
  oidx : Word
  oval : Word
  ioff : Word
  iidx : Word
  ival : Word
  f0 : Word
  f1 : Word
  unf : Word
  work : Word
  entry : Word
  arg : Word
  statva : Word
  deriving DecidableEq, Repr

/-- The open scan of an owner (R332): a vertex (source in push, destination in pull) and the positions left. -/
structure Scan where
  vertex : Nat
  pos : Nat
  stop : Nat
  deriving DecidableEq, Repr

/-- The running value of a pull scan (R332): r, for ljoin its label, the label words combined, whether a
contribution was combined, whether a step changed r. -/
structure PullAcc where
  value : Nat
  lbl : Label
  words : List LabelWord
  any : Bool
  changed : Bool
  deriving DecidableEq, Repr

/-- Phases of an edge run: participants join; all have joined; a superstep is to begin; it runs; a fault pauses it;
it ends with its CODE. -/
inductive RunPhase where
  | joining | ready | boundary | running | paused | ending
  deriving DecidableEq, Repr

/-- An edge run (R327 to R339): `cores` are the participants in rank order, `joins` the counter and control label of
those that joined, `left` the counters of participants whose record is gone, `todo` what each owner has not begun to scan,
`given` the contributions not yet combined: vertex, value and label word. `back` is the phase that a paused run resumes;
`closed` when all is done but the return of EDGERUN. -/
structure EdgeRun where
  desc : EdgeDesc
  va : Word
  /-- The record of its first participant. -/
  record : Word
  mode : Mode
  cores : List Nat
  joins : NatMap (Nat × LabelWord)
  left : NatMap Nat
  closed : Bool
  ctl : LabelWord
  phase : RunPhase
  back : RunPhase
  step : Nat
  pull : Bool
  switches : Nat
  mismatch : Bool
  code : Nat
  limitHit : Bool
  snap : NatMap (Nat × LabelWord)
  todo : NatMap (List Nat)
  scan : NatMap Scan
  accs : NatMap PullAcc
  given : NatMap (Nat × Word × LabelWord)
  changed : List Nat
  done : List Nat
  fault : Option Nat
  locks : List Nat
  deriving DecidableEq, Repr

/-- A leaf of a page table with the range it maps (R405, R406). -/
structure Leaf where
  pa : Nat
  block : Bool
  cmp : Bool
  lt : Bool
  c : Bool
  u : Bool
  x : Bool
  w : Bool
  r : Bool
  deriving DecidableEq, Repr

/-- A running gang (R19, R184): members still running, and the token of the first FINISH with a ≠ 0. -/
structure Gang where
  record : Word
  running : List Nat
  token : Option (BitVec 16)
  deriving DecidableEq, Repr

/-- A gang that holds reservations (R20): the cores it holds and the stroke at which it gives up. -/
structure Reservation where
  record : Word
  cores : List Nat
  deadline : Nat
  deriving DecidableEq, Repr

/-- One logical cluster: dispatcher, catch network, range locks, engines, and its cores but for the focus. -/
structure Cluster where
  /-- Run queues by 4 × stage + priority, head first (R17). -/
  runq : NatMap (List Word)
  suspended : List Word
  gangs : List Gang
  reservations : List Reservation
  catchGroups : Vector CatchGroup 16
  locks : List RangeLock
  /-- Translations in the second-level TLB, by page number; those in first-level TLBs, of a core under its number and
  of the engines under those that Agent.slot gives; level-1 and level-2 table entries that the walkers hold (R412). -/
  tlb : NatMap Leaf
  first : NatMap (NatMap Leaf)
  walks : NatMap Nat
  engines : NatMap MEngine
  copies : NatMap CopyUnit
  rowq : List RowOp
  ireds : List Ired
  remotes : List RemoteOp
  /-- Edge runs, the current one first (R321). -/
  runs : List EdgeRun
  cores : NatMap Core
  deriving DecidableEq, Repr

/-- States of a command queue (R394). -/
inductive QState where
  | active | frozen | draining | destroyed
  deriving DecidableEq, Repr

/-- A packet the device has consumed and not completed (R395 to R400). -/
structure Packet where
  seq : Nat
  /-- The slot's 128 bytes. -/
  slot : BitVec 1024
  /-- Every dependency is DONE. -/
  met : Bool
  /-- It executes; a LAUNCH stays until its record retires. -/
  started : Bool
  deriving DecidableEq, Repr

/-- A host command queue (R392 to R394). -/
structure Queue where
  qid : Nat
  /-- The memory key issued with it (R391). -/
  key : Half
  ring : Word
  caplog : Nat
  statva : Word
  rev : Nat
  rc : Word
  wc : Word
  state : QState
  cause : Nat
  badwc : Word
  stale : Nat
  packets : List Packet
  deriving DecidableEq, Repr

/-- What the device keeps of a record of an inbox beside it (R425): the inbox, the number of the record, the issuer and its
counter, and whether the beat is an element, which is written as a partial write (R218). -/
structure HeldBeat where
  cl : Nat
  core : Nat
  record : Nat
  issuerCl : Nat
  issuer : Nat
  counter : Nat
  element : Bool
  deriving DecidableEq, Repr

/-- A shootdown served (R415, R416): the pages that it covers, and the stores made before it. -/
structure Shot where
  first : Nat
  pages : Nat
  stores : Nat
  deriving DecidableEq, Repr

/-- A loaded image (R369, R372). -/
structure Image where
  base : Word
  size : Nat
  /-- The PAs of its pages, in order. -/
  places : List Nat
  /-- The driver's code in a translated image, as first offset and end (R387). -/
  driver : Nat × Nat
  gen : Half
  /-- UNLOAD has begun, at this stroke (R374). -/
  unloading : Option Nat
  /-- Records launched since: they reach none of its pages (R374). -/
  barred : List Word
  deriving DecidableEq, Repr

/-- A device context (R421): its descriptor, world, clusters, queues, images and status. -/
structure Context where
  desc : CtxDesc
  world : World
  clusters : NatMap Cluster
  queues : NatMap Queue
  images : List Image
  /-- Pages of the code heap that firmware has taken as page tables. -/
  tables : List Nat
  /-- What the device keeps of the beats that inboxes hold, in a form of its own beside the records (R425). -/
  beats : List HeldBeat
  /-- Shootdowns served: no walk uses an entry that was replaced before one that covers it (R416). -/
  shots : List Shot
  cg : Half
  /-- CG as the latest stroke tick brought it to idle cores (R373). -/
  idleGen : Half
  routines : NatMap (List Byte)
  /-- Next record of the engine fault ring (R417), and who posted the records outstanding. -/
  ringNext : Nat
  ringOwners : NatMap (Nat × Nat × Word)
  /-- Parked at a gang-stop (R425), faulted (R423), destroyed (R424). -/
  stopped : Bool
  faulted : Bool
  destroyed : Bool
  deriving DecidableEq, Repr

/-! ### The device -/

/-- A cached line: its format tag (R140), whether it is held, and, when it is dirty, the contents that memory
may hold, oldest first (R152). -/
structure Held where
  cmp : Bool
  past : List (VWord × LabelWord)
  deriving DecidableEq, Repr

/-- A writer of memory by the smallest scope that contains it (R142): a core or a crew's matrix engine and copy unit, by
context, cluster and number; a cluster's sweep unit; another unit of the device; a host or a peer. -/
inductive Writer where
  | core (ctx cl core : Nat)
  | crew (ctx cl crew : Nat)
  | sweep (ctx cl : Nat)
  | device
  | outside
  deriving DecidableEq, Repr

/-- A doubleword that a store replaced (R137, R414): location, old contents, store number, writer. -/
structure Superseded where
  loc : Nat
  old : Word
  seq : Nat
  writer : Writer
  deriving DecidableEq, Repr

/-- A promotion slot (R309): the row, dirty, the context that pinned it, its place in the order of promotion. -/
structure Slot where
  row : Nat
  dirty : Bool
  pinned : Option Nat
  order : Nat
  deriving DecidableEq, Repr

/-- Boot status (R448); `lost` and `failed` are what self-test found: a unit that is fused off, and a failure that keeps the
device in the safe talkative state (R445). -/
structure Boot where
  stage : Nat
  code : Nat
  tries : Nat
  rb : Nat
  unit : Nat
  lost : Bool
  failed : Bool
  deriving DecidableEq, Repr

/-- PTP servo (R403): consecutive good Sync intervals, the offset in ns, the time in elevenths of ns (a cycle is ten
of them), the grandmaster; whether leased regions are uncacheable until the servo is LOCKED again (R439). -/
structure Ptp where
  locked : Bool
  good : Nat
  offset : Int
  time : Nat
  gm : Nat
  block : Bool
  deriving DecidableEq, Repr

/-- A descriptor of the pool map (R436): V, MODE, OWNER, LDUR, GBQ. -/
structure PoolDesc where
  valid : Bool
  leased : Bool
  home : BitVec 12
  ldur : BitVec 16
  gbq : BitVec 8
  deriving DecidableEq, Repr

/-- A lease (R438 to R441): the line, the other device and its incarnation, T_exp; for a lease granted, the cycle of
the grant and whether the servo has stayed LOCKED since. -/
structure Lease where
  line : Nat
  dev : Nat
  inc : BitVec 16
  expiry : Nat
  sent : Nat
  trusted : Bool
  deriving DecidableEq, Repr

/-- What a request that waits at its owner asks for (R438): a write of its bytes; an uncacheable read of so many bytes; an
atomic, of which its bytes are the operand, for CAS the value compared and then the value stored. -/
inductive PoolOp where
  | write
  | read (n : Nat)
  | amo (op : AmoOp) (w : AmoWidth)
  | cas (w : AmoWidth)
  | famo (op : FamoOp)
  | csum
  deriving DecidableEq, Repr

/-- A request waiting at this device, the owner of its line, in the order of arrival (R440): another device's, from an offset
in the line; or the place that an access of this device's own, by `who`, holds until it is performed. -/
structure PoolWrite where
  line : Nat
  dev : Nat
  inc : BitVec 16
  off : Nat
  bytes : List Byte
  op : PoolOp
  who : Writer
  deriving DecidableEq, Repr

/-- Losses that firmware tolerates before it sets REPLACE (R457): of dies, stacks, clusters, Ultra Ethernet ports. -/
structure Thresholds where
  maxDies : Nat
  maxStacks : Nat
  maxClusters : Nat
  maxPorts : Nat
  deriving DecidableEq, Repr

/-- A message the device sends out (R391, R392, R398, R448, R453, R457, R458). -/
inductive Reply where
  /-- A queue created: its QID and its memory key. -/
  | qid (qid : Nat) (key : Half)
  /-- A routine loaded (R453). -/
  | routine (id : Nat)
  /-- An RMA read of a host buffer: host address, fabric endpoint, key, length (R398). -/
  | hostRead (host : Word) (fep key : Half) (len : Nat)
  /-- An RMA write of a host buffer (R398). -/
  | hostWrite (host : Word) (fep key : Half) (bytes : List Byte)
  | refused (code : Nat)
  | rma (bytes : List Byte)
  | poolLine (bytes : List Byte) (expiry : Option Nat)
  /-- What another device's uncacheable read or atomic found (R438). -/
  | poolOld (dev : Nat) (bytes : List Byte)
  | nak
  | status (boot : Boot)
  | quote (bytes : List Byte)
  | health (words : List Nat)
  | telemetry (words : List Nat)
  /-- A GET or SEND form sent to the fabric endpoint of another node's device (R290, R379). -/
  | remote (fep : Half) (place : Word)
  | contextFault (ctxid code : Nat)
  | deviceFault (code : Nat)
  deriving DecidableEq, Repr

/-- An entry of the translator's cache (R388): tenant, SHA-384 of the section, target level, the native section. -/
structure Translated where
  tenant : Nat
  key : BitVec 384
  level : Nat
  code : List Byte
  deriving DecidableEq, Repr

/-- The device outside the contexts. -/
structure Device where
  cycle : Word
  stroke : Word
  /-- Every byte of memory by location; an unlisted byte reads as 0. Label words lie in it too (Ops). -/
  mem : NatMap Byte
  poison : List Nat
  held : NatMap Held
  /-- Lines whose memory holds the compressed format (R139, R419). -/
  packed : List Nat
  log : List Superseded
  stores : Nat
  /-- Ids for locks and engine operations. -/
  nextId : Nat
  rb : Nat
  slots : NatMap (NatMap Slot)
  promotions : Nat
  boot : Boot
  mr : Vector (BitVec 384) 4
  minSvn : Nat
  svn : Nat
  image : List Byte
  lostUnits : List (UnitKind × Nat)
  thresholds : Thresholds
  /-- REPLACE has been reported as set since the reset (R457). -/
  replaced : Bool
  counters : NatMap Nat
  snapshot : NatMap Nat
  powerCap : Nat
  pendingCap : Option Nat
  currentStall : Bool
  throttle : Nat
  dieThrottle : NatMap Nat
  dieFenced : List Nat
  ptp : Ptp
  /-- Capacity of the expander on each CXL port, and the ports that serve the fabric (R434). -/
  expanders : NatMap Nat
  fabricPorts : List Nat
  /-- CXL ports with an access ended by MEMERR, whose ranges firmware has yet to take from the grants (R435). -/
  cxlFailed : List Nat
  /-- The pool map, by region; a region not listed has the reset descriptor (R436). -/
  pool : NatMap PoolDesc
  leasesHeld : List Lease
  leasesGranted : List Lease
  poolWrites : List PoolWrite
  /-- Lines at which an access of the running turn has to wait (R440; model's own, empty between turns). -/
  awaited : List Nat
  /-- The incarnation under which this device is bound to the fabric, if it is, and those of other devices (R441). -/
  incarnation : BitVec 16
  bound : Bool
  peers : NatMap (BitVec 16)
  replies : List Reply
  /-- The translator's cache, the entry used last first (R388, R389). -/
  cache : List Translated
  down : Bool
  deriving DecidableEq, Repr

/-- A turn to come (model's own): an event, a core's next issue, or time that passes. -/
inductive Turn where
  | event (i : Instr)
  | core (ctxid cl core : Nat)
  | elapse (cycles : Nat)
  deriving DecidableEq, Repr

/-- Which core moves: cluster and core of the context in `ctx`. -/
structure Focus where
  cl : Nat
  core : Nat
  deriving DecidableEq, Repr

/-- The machine: the core that moves is `core` and its context `ctx`, in which the entry of that core is
unused. `agenda` holds the turns to come and `fresh` counts the free values drawn; both are the model's own. -/
structure State where
  core : Core
  focus : Focus
  ctx : Context
  others : List Context
  dev : Device
  agenda : List Turn
  fresh : Nat
  deriving DecidableEq, Repr

/-- Why the machine stops. -/
inductive Fault where
  /-- Raised by `step` when the agenda names a context, cluster or core that the machine does not have. Safe:
  the hardware has no such turn. -/
  | noSuchAgent
  deriving DecidableEq, Repr

/-- Why an instruction has no meaning. -/
inductive Refusal where
  /-- Raised by an arm of `exec` for an instruction that this model does not give a meaning yet. Safe. -/
  | notModelled (mnemonic : String)
  deriving DecidableEq, Repr

/-! ### Reset -/

/-- The VAL field of a positive decode-table entry: `mant × 2 ^ (exp - 10)` with 1024 ≤ mant < 2048, or zero (R98,
R102). -/
def tableVal (mant : Nat) (exp : Int) : Nat := if mant = 0 then 0 else (exp + 127).toNat * 1024 + (mant - 1024)

/-- An entry of reset bank A (R106): E4M3. -/
def resetA (c : Nat) : Half :=
  let e := c % 128 / 8
  let m := c % 8
  let neg := c / 128 * 2 ^ 18
  let normal := (e : Int) - 7
  if c % 128 = 127 then BitVec.ofNat 32 (0x2BFE00 + neg)
  else if e ≠ 0 then BitVec.ofNat 32 (tableVal (1024 + m * 128) normal + neg)
  else if m = 0 then BitVec.ofNat 32 neg
  else if m = 1 then BitVec.ofNat 32 (tableVal 1024 (-9) + neg)
  else if m < 4 then BitVec.ofNat 32 (tableVal (m * 512) (-8) + neg)
  else BitVec.ofNat 32 (tableVal (m * 256) (-7) + neg)

/-- An entry of reset bank B (R106): E2M1. -/
def resetB (c : Nat) : Half :=
  let e := c % 8 / 2
  let m := c % 2
  let neg := c / 8 * 2 ^ 18
  if e ≠ 0 then BitVec.ofNat 32 (tableVal (1024 + m * 512) ((e : Int) - 1) + neg)
  else BitVec.ofNat 32 (tableVal (m * 1024) (-1) + neg)

/-- A vector of `n` equal entries. -/
def fill {α : Type} (n : Nat) (v : α) : Vector α n := ⟨⟨List.replicate n v⟩, by simp⟩

/-- A vector from the numbers of its entries. -/
def tabulate {α : Type} (n : Nat) (f : Nat → α) : Vector α n := ⟨⟨(List.range n).map f⟩, by simp⟩

def FFlags.none : FFlags := ⟨false, false, false, false, false⟩

/-- Register files after reset: FCSR and the banks by R41 and R106, the rest by log entry 1. -/
def Regs.reset : Regs :=
  { x := fill 64 0, xl := fill 64 0, f := fill 32 0, fl := fill 32 0, v := fill 32 0, vl := fill 32 0
    p := fill 8 0, pl := fill 8 0, fcsr := ⟨0, FFlags.none⟩, bankA := tabulate 256 resetA
    bankB := tabulate 16 resetB }

def Tile.reset : Tile := ⟨fill 32 0, fill 32 0⟩

/-- A core after reset: the CRs by R41, STATUS by R43, the counters by R30, LBLCFG by R207; PC, STAGE, CREC, the
loop stack and the tiles by log entry 1. -/
def Core.reset : Core :=
  { pc := 0, regs := Regs.reset, acc0 := Tile.reset, acc1 := Tile.reset
    status := ⟨false, false, false, .u⟩, k := fill 16 0, loops := [], frozen := 0, stage := 0, crec := 0
    record := none, gang := none, reserved := none, epoch := 1, lblcfg := ⟨4, false, false, false⟩
    lblstat := ⟨0, 0, false⟩, epc := 0, ecause := 0, einfo := 0, eaddr := 0, sloop := fill 4 0, upjob := 0
    upcause := 0, upepc := 0, upcalls := [], uplost := false, mrows := 0, aside := [], mfpc := 0, mfault := none
    dealpat := 0, catchcfg := 0, codegen := 0, tableGen := 0, pending := [], park := none, grants := [], sent := none
    stalled := false, streams := [], popped := none, poppedTrap := none, poppedUpcall := none, arrived := [], edge := none, issue := ⟨0, true, false⟩, latch := none, late := none
    trapped := none, fetchSync := fill 5 0, fenced := fill 5 0, walkSync := 0 }

/-- A catch group after context creation: reset, with an empty image (R422). -/
def CatchGroup.reset : CatchGroup := ⟨0, 0, 0, false, false, none, []⟩

def MEngine.reset : MEngine :=
  { holder := none, lrem := 0, prev := none, requests := [], tables := none, bankA := tabulate 256 resetA
    bankB := tabulate 16 resetB, queue := [], saved := none }

def CopyUnit.reset : CopyUnit := ⟨[], 0, []⟩

/-- A cluster with nothing in it (R422). -/
def Cluster.reset : Cluster :=
  { runq := [], suspended := [], gangs := [], reservations := [], catchGroups := fill 16 CatchGroup.reset
    locks := [], tlb := [], first := [], walks := [], engines := [], copies := [], rowq := [], ireds := [], remotes := [], runs := []
    cores := [] }

/-- A fresh world (R422): epoch 1, empty table and store, NGGEN 0. -/
def World.reset : World := { epoch := 1, agentEpoch := 1, used := [1], table := [], nogoods := [], nggen := 0 }

/-- The descriptor of no context: log entry 1. -/
def CtxDesc.zero : CtxDesc :=
  { ctxid := 0, tenant := 0, part := [], tx := 0, ty := 0, tz := 0, cwin := 0, trapent := 0, lsbase := 0
    bankkey := 0, age := 0, gangwait := 0, world := 0, save := 0, stagemap := 0, troot := 0, grant := 0
    fring := 0, sdline := 0, svcCluster := 0, svcCore := 0, svcCounter := 0, stages := [], unmapped := [], cores := []
    routes := [], units := [], heap := [] }

/-- A context with nothing run in it (R422). -/
def Context.fresh (d : CtxDesc) : Context :=
  { desc := d, world := World.reset, clusters := [], queues := [], images := [], tables := [], beats := [], shots := [], cg := 0, idleGen := 0, routines := []
    ringNext := 0, ringOwners := [], stopped := false, faulted := false, destroyed := false }

/-- The descriptor of a pool region after reset (R436). -/
def PoolDesc.reset : PoolDesc := ⟨false, false, 0, 20, 8⟩

/-- The device after reset (R41, R448, R452, R457): nothing held, no context, boot status at its reset values;
the fused values are constants of Config (log entry 5). -/
def Device.reset : Device :=
  { cycle := 0, stroke := 0, mem := [], poison := [], held := [], packed := [], log := [], stores := 0, nextId := 0
    rb := 128, slots := [], promotions := 0, boot := ⟨0, 0, 0, 0, 0, false, false⟩, mr := fill 4 0, minSvn := Config.fusedMinSvn
    svn := 0, image := [], lostUnits := [], thresholds := ⟨0, 0, 2, 4⟩, replaced := false, counters := [], snapshot := [], powerCap := 90, pendingCap := none
    currentStall := false, throttle := 0, dieThrottle := [], dieFenced := []
    ptp := ⟨false, 0, 0, 0, 0, false⟩, expanders := [], fabricPorts := [], cxlFailed := [], pool := [], leasesHeld := []
    leasesGranted := [], poolWrites := [], awaited := [], incarnation := 0, bound := false, peers := [], replies := []
    cache := [], down := false }

/-- The machine right after reset. -/
def State.reset : State :=
  { core := Core.reset, focus := ⟨0, 0⟩, ctx := Context.fresh CtxDesc.zero, others := [], dev := Device.reset
    agenda := [], fresh := 0 }

end Sys2Proof.Machine
end

