-- ==== Sys2Proof/Machine/Bits.lean ====
section
/-! DEFINITION. Bit fields, sign extension, byte order and lanes (R4, R55, R116). -/

namespace Sys2Proof.Machine

/-- Sign extension of an `n`-bit field. -/
def sext (n v : Nat) : Int := if v % 2 ^ n < 2 ^ (n - 1) then (v % 2 ^ n : Nat) else (v % 2 ^ n : Nat) - (2 ^ n : Nat)

/-- A 64-bit value from an integer, modulo 2 ^ 64. -/
def wordOf (i : Int) : Word := BitVec.ofInt 64 i

/-- `n` bits of a word from bit `lo`, as a number. -/
def bitsAt {w : Nat} (v : BitVec w) (lo n : Nat) : Nat := v.toNat / 2 ^ lo % 2 ^ n

/-- Bit `i` of a word. -/
def bitAt {w : Nat} (v : BitVec w) (i : Nat) : Bool := v.toNat.testBit i

def oneBit (b : Bool) : Nat := if b then 1 else 0

/-- 1 or 0 as an x register value. -/
def boolWord (b : Bool) : Word := if b then 1 else 0

/-- `n` bytes of a number, least significant first (R4). -/
def bytesOf (n v : Nat) : List Byte := (List.range n).map fun i => BitVec.ofNat 8 (v / 256 ^ i)

/-- The number that bytes hold, least significant first. -/
def natOf (bs : List Byte) : Nat := bs.foldr (fun b acc => b.toNat + 256 * acc) 0

/-- The list's elements in groups of `n`, with fuel. -/
def chunks {α : Type} (n : Nat) : Nat → List α → List (List α)
  | 0, _ => []
  | k + 1, l => if l.isEmpty then [] else l.take n :: chunks n k (l.drop n)

/-- Lane `i` of `w` bits (R116). -/
def lane {k : Nat} (w : Nat) (v : BitVec k) (i : Nat) : Nat := bitsAt v (w * i) w

/-- The number whose `w`-bit lanes are listed, lane 0 first. -/
def packLanes (w : Nat) (l : List Nat) : Nat := l.foldr (fun x acc => x % 2 ^ w + 2 ^ w * acc) 0

/-- A vector register from its `w`-bit lanes. -/
def ofLanes (w : Nat) (l : List Nat) : VWord := BitVec.ofNat 512 (packLanes w l)

/-- The `n` lanes of `w` bits of a register. -/
def lanes {k : Nat} (w n : Nat) (v : BitVec k) : List Nat := (List.range n).map (lane w v)

/-- An element of a register file; a field of six, five or three bits names one (R54, R55). -/
def fileGet {α : Type} {n : Nat} (h : 0 < n) (v : Vector α n) (i : Nat) : α := v[i % n]'(Nat.mod_lt i h)

/-- A register file with one element replaced. -/
def filePut {α : Type} {n : Nat} (h : 0 < n) (v : Vector α n) (i : Nat) (a : α) : Vector α n :=
  v.set (i % n) a (Nat.mod_lt i h)

end Sys2Proof.Machine
end

