-- ==== Sys2Proof/Machine/Flags.lean ====
section
/-! DEFINITION. Number formats, exact values, rounding and the flags of FCSR: R98 to R103, R108 to R115, R126. -/

namespace Sys2Proof

namespace Machine

/-! ### Exact values -/

/-- The exact value `m × 2 ^ e`. -/
structure Exact where
  m : Int
  e : Int
  deriving DecidableEq, Repr

/-- `m × 2 ^ k` for `k ≥ 0`. -/
def scaleUp (m : Int) (k : Int) : Int := m * ((2 ^ k.toNat : Nat) : Int)

def Exact.add (a b : Exact) : Exact :=
  let e := min a.e b.e
  ⟨scaleUp a.m (a.e - e) + scaleUp b.m (b.e - e), e⟩

def Exact.mul (a b : Exact) : Exact := ⟨a.m * b.m, a.e + b.e⟩
def Exact.neg (a : Exact) : Exact := ⟨-a.m, a.e⟩
def Exact.abs (a : Exact) : Exact := ⟨a.m.natAbs, a.e⟩
def Exact.lt (a b : Exact) : Bool := decide ((a.add b.neg).m < 0)
def Exact.eqv (a b : Exact) : Bool := decide ((a.add b.neg).m = 0)

/-- A decoded floating-point value; a zero keeps its sign. -/
inductive FVal where
  | nan (signalling : Bool)
  | inf (neg : Bool)
  | fin (neg : Bool) (m : Nat) (e : Int)
  deriving DecidableEq, Repr

def FVal.isNan : FVal → Bool
  | .nan _ => true
  | .inf _ => false
  | .fin _ _ _ => false

def FVal.isSnan : FVal → Bool
  | .nan s => s
  | .inf _ => false
  | .fin _ _ _ => false

def FVal.neg : FVal → FVal
  | .nan s => .nan s
  | .inf n => .inf (!n)
  | .fin n m e => .fin (!n) m e

/-- The value of a finite number. -/
def FVal.exact : FVal → Exact
  | .fin n m e => ⟨if n then -(m : Int) else m, e⟩
  | .nan _ => ⟨0, 0⟩
  | .inf _ => ⟨0, 0⟩

/-! ### Formats (R98) -/

/-- Exponent and fraction widths. -/
structure Fmt where
  eb : Nat
  mb : Nat
  deriving DecidableEq, Repr

def fp32 : Fmt := ⟨8, 23⟩
def bf16 : Fmt := ⟨8, 7⟩
def fp16 : Fmt := ⟨5, 10⟩

/-- The fields and bias of E8M10 (R98, R102). -/
def e8m10 : Fmt := ⟨8, 10⟩

def Fmt.bias (t : Fmt) : Nat := 2 ^ (t.eb - 1) - 1
def Fmt.width (t : Fmt) : Nat := t.eb + t.mb + 1
def Fmt.signBit (t : Fmt) : Nat := 2 ^ (t.eb + t.mb)
def Fmt.infBits (t : Fmt) (neg : Bool) : Nat := (2 ^ t.eb - 1) * 2 ^ t.mb + oneBit neg * t.signBit
def Fmt.nanBits (t : Fmt) : Nat := (2 ^ t.eb - 1) * 2 ^ t.mb + 2 ^ (t.mb - 1)
def Fmt.maxBits (t : Fmt) (neg : Bool) : Nat := (2 ^ t.eb - 1) * 2 ^ t.mb - 1 + oneBit neg * t.signBit
def Fmt.zeroBits (t : Fmt) (neg : Bool) : Nat := oneBit neg * t.signBit

/-- The value that the bits hold (R98). -/
def Fmt.decode (t : Fmt) (bits : Nat) : FVal :=
  let neg := bits / t.signBit % 2 == 1
  let ex := bits / 2 ^ t.mb % 2 ^ t.eb
  let fr := bits % 2 ^ t.mb
  if ex = 2 ^ t.eb - 1 then
    if fr = 0 then .inf neg else .nan (decide (fr < 2 ^ (t.mb - 1)))
  else if ex = 0 then .fin neg fr (1 - (t.bias : Int) - t.mb)
  else .fin neg (2 ^ t.mb + fr) ((ex : Int) - t.bias - t.mb)

/-! ### Flags (R44, R101) -/

def FFlags.or (a b : FFlags) : FFlags :=
  ⟨a.nv || b.nv, a.dz || b.dz, a.of || b.of, a.uf || b.uf, a.nx || b.nx⟩

def FFlags.invalid : FFlags := ⟨true, false, false, false, false⟩
def FFlags.divZero : FFlags := ⟨false, true, false, false, false⟩
def FFlags.overflow : FFlags := ⟨false, false, true, false, true⟩

/-- NV when the condition holds. -/
def FFlags.nvIf (b : Bool) : FFlags := ⟨b, false, false, false, false⟩
def FFlags.nxIf (b : Bool) : FFlags := ⟨false, false, false, false, b⟩

def FFlags.all (l : List FFlags) : FFlags := l.foldl FFlags.or FFlags.none

/-- The five flags as FCSR[4:0]. -/
def FFlags.toNat (f : FFlags) : Nat :=
  16 * oneBit f.nv + 8 * oneBit f.dz + 4 * oneBit f.of + 2 * oneBit f.uf + oneBit f.nx

def FFlags.ofNat (n : Nat) : FFlags := ⟨n.testBit 4, n.testBit 3, n.testBit 2, n.testBit 1, n.testBit 0⟩

/-! ### Rounding (R99) -/

end Machine

open Machine in
/-- The rounding mode of an instruction with an rm field (R101). -/
def Rm.mode (rm : Rm) (fcsrRm : Nat) : Nat :=
  match rm with
  | .rne => 0 | .rtz => 1 | .rdn => 2 | .rup => 3 | .dyn => fcsrRm

namespace Machine

/-- `m × 2 ^ -shift` rounded to an integer in mode `rm`, and whether it was inexact. -/
def roundInt (rm : Nat) (neg : Bool) (m : Nat) (shift : Int) : Nat × Bool :=
  if shift ≤ 0 then (m * 2 ^ (-shift).toNat, false)
  else
    let d := 2 ^ shift.toNat
    let n := m / d
    let rem := m % d
    let up := match rm with
      | 0 => decide (2 * rem > d) || (decide (2 * rem = d) && n % 2 == 1)
      | 1 => false
      | 2 => neg && rem != 0
      | _ => !neg && rem != 0
    (n + oneBit up, rem != 0)

/-- A nonzero magnitude `m × 2 ^ e` with its sign, rounded once to the format; tininess after rounding (R99). -/
def Fmt.round (t : Fmt) (rm : Nat) (neg : Bool) (m : Nat) (e : Int) : Nat × FFlags :=
  if m = 0 then (t.zeroBits neg, FFlags.none)
  else
    let top := e + m.log2
    let emin := 1 - (t.bias : Int)
    let q := max top emin - t.mb
    let (n, inexact) := roundInt rm neg m (q - e)
    let (u, _) := roundInt rm neg m (top - t.mb - e)
    let tiny := decide (top < emin) && !(decide (top + 1 = emin) && decide (u = 2 ^ (t.mb + 1)))
    if decide (n ≠ 0) && decide (q + n.log2 > t.bias) then
      (if rm = 0 ∨ (rm = 2 ∧ neg) ∨ (rm = 3 ∧ ¬neg) then t.infBits neg else t.maxBits neg, FFlags.overflow)
    else
      let be := (q + t.mb + t.bias - 1).toNat
      (be * 2 ^ t.mb + n + t.zeroBits neg, ⟨false, false, false, tiny && inexact, inexact⟩)

/-- A dyadic rounded to the format; `zeroNeg` is the sign of an exact zero. -/
def Fmt.roundD (t : Fmt) (rm : Nat) (zeroNeg : Bool) (x : Exact) : Nat × FFlags :=
  if x.m = 0 then (t.zeroBits zeroNeg, FFlags.none) else t.round rm (decide (x.m < 0)) x.m.natAbs x.e

/-- A quotient or root known to within one unit of `m`, inexact when `sticky`. -/
def Fmt.roundSticky (t : Fmt) (rm : Nat) (neg : Bool) (m : Nat) (e : Int) (sticky : Bool) : Nat × FFlags :=
  t.round rm neg (2 * m + oneBit sticky) (e - 1)

/-- The canonical NaN, NV when an operand is signalling (R100). -/
def Fmt.nanOf (t : Fmt) (ops : List FVal) : Nat × FFlags := (t.nanBits, FFlags.nvIf (ops.any FVal.isSnan))

/-! ### Arithmetic (R99, R112) -/

/-- Round(a + b). -/
def Fmt.addV (t : Fmt) (rm : Nat) (a b : FVal) : Nat × FFlags :=
  match a, b with
  | .nan _, _ => t.nanOf [a, b]
  | _, .nan _ => t.nanOf [a, b]
  | .inf n, .inf k => if n = k then (t.infBits n, FFlags.none) else (t.nanBits, FFlags.invalid)
  | .inf n, .fin _ _ _ => (t.infBits n, FFlags.none)
  | .fin _ _ _, .inf n => (t.infBits n, FFlags.none)
  | .fin n _ _, .fin k _ _ => t.roundD rm (if n = k then n else decide (rm = 2)) (a.exact.add b.exact)

/-- An exact product, `none` for Inf × 0. -/
def mulV (a b : FVal) : Option FVal :=
  match a, b with
  | .nan s, .nan r => some (.nan (s || r))
  | .nan s, .inf _ => some (.nan s)
  | .nan s, .fin _ _ _ => some (.nan s)
  | .inf _, .nan s => some (.nan s)
  | .fin _ _ _, .nan s => some (.nan s)
  | .inf n, .inf k => some (.inf (n != k))
  | .inf n, .fin k m _ => if m = 0 then none else some (.inf (n != k))
  | .fin n m _, .inf k => if m = 0 then none else some (.inf (n != k))
  | .fin n m e, .fin k l f => some (.fin (n != k) (m * l) (e + f))

/-- Round(a × b). -/
def Fmt.mulF (t : Fmt) (rm : Nat) (a b : FVal) : Nat × FFlags :=
  match mulV a b with
  | none => (t.nanBits, FFlags.invalid)
  | some (.nan _) => t.nanOf [a, b]
  | some (.inf n) => (t.infBits n, FFlags.none)
  | some (.fin n m e) => t.round rm n m e

/-- Round(d + a × b), rounded once (R112). -/
def Fmt.fmaF (t : Fmt) (rm : Nat) (d a b : FVal) : Nat × FFlags :=
  match mulV a b with
  | none => (t.nanBits, FFlags.invalid)
  | some p => if p.isNan || d.isNan then t.nanOf [d, a, b] else t.addV rm d p

/-- Round(a / b): 0/0 and Inf/Inf invalid, x/0 DZ (R112). -/
def Fmt.divF (t : Fmt) (rm : Nat) (a b : FVal) : Nat × FFlags :=
  match a, b with
  | .nan _, _ => t.nanOf [a, b]
  | _, .nan _ => t.nanOf [a, b]
  | .inf _, .inf _ => (t.nanBits, FFlags.invalid)
  | .inf n, .fin k _ _ => (t.infBits (n != k), FFlags.none)
  | .fin n _ _, .inf k => (t.zeroBits (n != k), FFlags.none)
  | .fin n m e, .fin k l f =>
    if l = 0 then
      if m = 0 then (t.nanBits, FFlags.invalid) else (t.infBits (n != k), FFlags.divZero)
    else if m = 0 then (t.zeroBits (n != k), FFlags.none)
    else
      let s := t.mb + 3 + l.log2
      t.roundSticky rm (n != k) (m * 2 ^ s / l) (e - f - s) (decide (m * 2 ^ s % l ≠ 0))

/-- Bits of the integer square root from bit `b` down. -/
def isqrtFrom (n : Nat) : Nat → Nat → Nat
  | 0, r => r
  | b + 1, r => if (r + 2 ^ b) * (r + 2 ^ b) ≤ n then isqrtFrom n b (r + 2 ^ b) else isqrtFrom n b r

/-- The integer square root. -/
def isqrt (n : Nat) : Nat := isqrtFrom n (n.log2 / 2 + 1) 0

/-- Round(√a) (R112). -/
def Fmt.sqrtF (t : Fmt) (rm : Nat) (a : FVal) : Nat × FFlags :=
  match a with
  | .nan _ => t.nanOf [a]
  | .inf n => if n then (t.nanBits, FFlags.invalid) else (t.infBits false, FFlags.none)
  | .fin n m e =>
    if m = 0 then (t.zeroBits n, FFlags.none)
    else if n then (t.nanBits, FFlags.invalid)
    else
      let odd := e % 2
      let k := t.mb + 3
      let w := m * 2 ^ odd.toNat * 2 ^ (2 * k)
      let r := isqrt w
      t.roundSticky rm false r ((e - odd) / 2 - k) (decide (r * r ≠ w))

/-- 1/x rounded RNE (R126). -/
def Fmt.rcpF (t : Fmt) (a : FVal) : Nat × FFlags := t.divF 0 (.fin false 1 0) a

/-- 1/√x rounded RNE (R126). -/
def Fmt.rsqF (t : Fmt) (a : FVal) : Nat × FFlags :=
  match a with
  | .nan _ => t.nanOf [a]
  | .inf n => if n then (t.nanBits, FFlags.invalid) else (t.zeroBits false, FFlags.none)
  | .fin n m e =>
    if m = 0 then (t.infBits n, FFlags.divZero)
    else if n then (t.nanBits, FFlags.invalid)
    else
      let odd := e % 2
      let w := m * 2 ^ odd.toNat
      let k := t.mb + 3 + w.log2
      let r := isqrt (2 ^ (2 * k) / w)
      t.roundSticky 0 false r (-((e - odd) / 2) - k) (decide (r * r * w ≠ 2 ^ (2 * k)))

/-- Fixed-point precision of `exp2Frac`. -/
def expBits : Nat := 256

/-- 2 ^ f in fixed point, for f given by its binary digits after the point, most significant first; `root` is
2 ^ (2 ^ -(digits consumed)). -/
def exp2Frac : List Bool → Nat → Nat → Nat
  | [], _, acc => acc
  | d :: ds, root, acc =>
    let r := isqrt (root * 2 ^ expBits)
    exp2Frac ds r (if d then acc * r / 2 ^ expBits else acc)

/-- 2 ^ x rounded RNE (R126). Log entry 20: digits of the fraction beyond 2 ^ -160 cannot change the rounding. -/
def Fmt.exp2F (t : Fmt) (a : FVal) : Nat × FFlags :=
  match a with
  | .nan _ => t.nanOf [a]
  | .inf n => (if n then t.zeroBits false else t.infBits false, FFlags.none)
  | .fin n m e =>
    if m = 0 then t.round 0 false 1 0
    else if e + m.log2 > 9 then t.round 0 false 1 (if n then -1000 else 1000)
    else
      let k : Nat := 160
      let x : Int := if 0 ≤ e + k then scaleUp m (e + k) else 1
      let x := if n then -x else x
      let whole := x / ((2 ^ k : Nat) : Int)
      let frac := (x % ((2 ^ k : Nat) : Int)).toNat
      if frac = 0 then t.round 0 false 1 whole
      else
        let digits := (List.range k).map fun i => frac.testBit (k - 1 - i)
        t.roundSticky 0 false (exp2Frac digits (2 * 2 ^ expBits) (2 ^ expBits)) (whole - expBits) true

/-! ### Comparison, minimum, maximum (R112, R113, R120) -/

/-- a < b of two values that are not NaN. -/
def FVal.lt (a b : FVal) : Bool :=
  match a, b with
  | .inf n, .inf k => n && !k
  | .inf n, _ => n
  | _, .inf k => !k
  | _, _ => a.exact.lt b.exact

/-- a = b of two values that are not NaN; +0 = −0. -/
def FVal.eqv (a b : FVal) : Bool := !a.lt b && !b.lt a

/-- The sign, for the order −0 < +0 of FMIN and FMAX. -/
def FVal.isNeg : FVal → Bool
  | .nan _ => false
  | .inf n => n
  | .fin n _ _ => n

/-- FMIN (`max` false) or FMAX on bit patterns (R112). -/
def Fmt.minMax (t : Fmt) (max : Bool) (a b : Nat) : Nat × FFlags :=
  let x := t.decode a
  let y := t.decode b
  let fl := FFlags.nvIf (x.isSnan || y.isSnan)
  if x.isNan && y.isNan then (t.nanBits, fl)
  else if x.isNan then (b, fl)
  else if y.isNan then (a, fl)
  else
    let less := x.lt y || (x.eqv y && x.isNeg && !y.isNeg)
    (if less != max then a else b, fl)

end Machine

open Machine in
/-- FCMP (R113). -/
def FCc.eval (cc : FCc) (a b : FVal) : Bool × FFlags :=
  let un := a.isNan || b.isNan
  let sn := a.isSnan || b.isSnan
  match cc with
  | .eq => (!un && a.eqv b, FFlags.nvIf sn)
  | .lt => (!un && a.lt b, FFlags.nvIf un)
  | .le => (!un && (a.lt b || a.eqv b), FFlags.nvIf un)
  | .un => (un, FFlags.nvIf sn)

open Machine in
/-- VCMP on floats (R120). -/
def VCc.evalF (cc : VCc) (a b : FVal) : Bool × FFlags :=
  let un := a.isNan || b.isNan
  let sn := a.isSnan || b.isSnan
  match cc with
  | .eq => (!un && a.eqv b, FFlags.nvIf sn)
  | .ne => (un || !a.eqv b, FFlags.nvIf sn)
  | .lt => (!un && a.lt b, FFlags.nvIf un)
  | .le => (!un && (a.lt b || a.eqv b), FFlags.nvIf un)
  | .gt => (!un && b.lt a, FFlags.nvIf un)
  | .ge => (!un && (b.lt a || a.eqv b), FFlags.nvIf un)

open Machine in
/-- VCMP on signed integers (R120). -/
def VCc.evalI (cc : VCc) (a b : Int) : Bool :=
  match cc with
  | .eq => decide (a = b)
  | .ne => decide (a ≠ b)
  | .lt => decide (a < b)
  | .le => decide (a ≤ b)
  | .gt => decide (a > b)
  | .ge => decide (a ≥ b)

namespace Machine

/-! ### Conversions (R114, R122) -/

/-- A float rounded to an integer and saturated to [lo, hi]: NaN gives 0 with NV, saturation NV without NX. -/
def toInt (rm : Nat) (lo hi : Int) (a : FVal) : Int × FFlags :=
  match a with
  | .nan _ => (0, FFlags.invalid)
  | .inf n => (if n then lo else hi, FFlags.invalid)
  | .fin n m e =>
    let (k, inexact) := roundInt rm n m (-e)
    let i : Int := if n then -(k : Int) else k
    if i < lo then (lo, FFlags.invalid) else if i > hi then (hi, FFlags.invalid) else (i, FFlags.nxIf inexact)

/-- An integer rounded to the format. -/
def Fmt.ofInt (t : Fmt) (rm : Nat) (i : Int) : Nat × FFlags := t.roundD rm false ⟨i, 0⟩

/-- A value rounded to the format: NaN becomes the canonical NaN (R100, R122). -/
def Fmt.convert (t : Fmt) (rm : Nat) (a : FVal) : Nat × FFlags :=
  match a with
  | .nan _ => t.nanOf [a]
  | .inf n => (t.infBits n, FFlags.none)
  | .fin n m e => t.round rm n m e

/-- FCLASS (R115): the number of the bit that is set. -/
def Fmt.classify (t : Fmt) (bits : Nat) : Nat :=
  match t.decode bits with
  | .nan s => if s then 8 else 9
  | .inf n => if n then 0 else 7
  | .fin n m _ =>
    if m = 0 then (if n then 3 else 4)
    else if m < 2 ^ t.mb then (if n then 2 else 5)
    else if n then 1 else 6

/-- x × 2 ^ (c - 127), and a NaN without a flag for code 0xFF or a NaN x (R103, R124). -/
def Fmt.scale (t : Fmt) (a : FVal) (c : Nat) : Nat × FFlags :=
  if c = 255 then (t.nanBits, FFlags.none)
  else match a with
    | .nan s => (t.nanBits, FFlags.nvIf s)
    | .inf n => (t.infBits n, FFlags.none)
    | .fin n m e => t.round 0 n m (e + c - 127)

/-! ### Decode tables (R104, R105, R108, R109) -/

def entExcl (e : Half) : Bool := bitAt e 21
def entInf (e : Half) : Bool := bitAt e 20
def entNan (e : Half) : Bool := bitAt e 19
def entVal (e : Half) : FVal := e8m10.decode (bitsAt e 0 19)
def entEligible (e : Half) : Bool := !entExcl e && !entInf e && !entNan e

/-- Decode(c) (R108). -/
def decodeEntry (e : Half) : FVal :=
  if entNan e then .nan false else if entInf e then .inf (bitAt e 18) else entVal e

/-- The codes of the list of entries with the property, ascending. -/
def codesWhere (bank : List Half) (p : Half → Bool) : List Nat :=
  (List.range bank.length).filter fun c => p (bank.getD c 0)

/-- The rule of R105 that the bank breaks first and the code it concerns: rules 1 to 6 by the lowest code, else
rule 7 by code 0. -/
def tableFault (bank : List Half) : Option Nat :=
  let h := bank.length / 2
  let mag (c : Nat) : Exact := (entVal (bank.getD c 0)).exact
  let bad (c : Nat) : Bool :=
    let e := bank.getD c 0
    let v := entVal e
    let rule1 := decide (bitsAt e 22 10 ≠ 0)
    let rule2 := decide (h ≤ c) && decide (e ≠ (bank.getD (c - h) 0 ||| (0x40000 : Half)))
    let rule3 := decide (c < h) && bitAt e 18
    let rule4 := decide (c = 0) && !(entEligible e && decide (bitsAt e 0 19 = 0))
    let rule5 := if entNan e then entInf e || !v.isNan
      else if entInf e then (match v with
        | .inf _ => false
        | .nan _ => true
        | .fin _ _ _ => true)
      else (match v with
        | .inf _ => true
        | .nan _ => true
        | .fin _ _ _ => false)
    let before := (List.range c).filter fun j => entEligible (bank.getD j 0)
    let rule6 := decide (c < h) && entEligible e && before.any (fun j => !(mag j).lt (mag c))
    rule1 || rule2 || rule3 || rule4 || rule5 || rule6
  match (List.range bank.length).find? bad with
  | some c => some c
  | none =>
    if (List.range h).any (fun c => entEligible (bank.getD c 0) && decide (bitsAt (bank.getD c 0) 0 18 ≠ 0)) then
      none
    else some 0

/-- The better of two eligible codes for |x|: nearer, then the even one, then the smaller magnitude (R109). -/
def nearerCode (bank : List Half) (x : Exact) (best c : Nat) : Nat :=
  let dist (k : Nat) : Exact := (x.add (entVal (bank.getD k 0)).exact.neg).abs
  if (dist c).lt (dist best) then c
  else if (dist best).lt (dist c) then best
  else if c % 2 = best % 2 then best
  else if c % 2 = 0 then c else best

/-- Encode(x, bank, ov) (R109): the code and the flags; `sign` is the sign bit of x, `nanMode` is .nan. Of several Inf codes
in the half it returns the lowest, of several NaN codes the highest (log entry 56). -/
def encodeValue (bank : List Half) (nanMode : Bool) (sign : Bool) (x : FVal) : Nat × FFlags :=
  let h := bank.length / 2
  let b := if sign then h else 0
  let inHalf (c : Nat) : Bool := decide (b ≤ c) && decide (c < b + h)
  let nans := (codesWhere bank entNan).filter inHalf
  let infs := (codesWhere bank fun e => entInf e && !entNan e).filter inHalf
  let elig := (codesWhere bank entEligible).filter fun c => decide (c < h)
  let top := elig.getLast?.getD 0
  let next := elig.dropLast.getLast?.getD 0
  let magTop := (entVal (bank.getD top 0)).exact
  let magNext := (entVal (bank.getD next 0)).exact
  let ovf : Nat × FFlags :=
    if nanMode then
      match infs, nans.getLast? with
      | c :: _, _ => (c, FFlags.overflow)
      | [], some c => (c, FFlags.overflow)
      | [], none => (b + top, FFlags.overflow.or FFlags.invalid)
    else (b + top, FFlags.overflow)
  match x with
  | .nan s =>
    match nans.getLast? with
    | some c => (c, FFlags.nvIf s)
    | none => (b + top, FFlags.invalid)
  | .inf _ =>
    match infs with
    | c :: _ => (c, FFlags.none)
    | [] =>
      match nanMode, nans.getLast? with
      | true, some c => (c, FFlags.overflow)
      | _, _ => (b + top, FFlags.overflow)
  | .fin _ m e =>
    let a : Exact := ⟨m, e⟩
    -- |x| > M + (M - P) / 2, doubled
    if ((magTop.add magTop).add (magTop.add magNext.neg)).lt (a.add a) then ovf
    else
      let c := elig.foldl (nearerCode bank a) (elig.headD 0)
      let exact := ((entVal (bank.getD c 0)).exact).eqv a
      let least := elig.find? fun k => decide (bitsAt (bank.getD k 0) 0 18 ≠ 0)
      let under := !exact && match least with
        | some k => a.lt (entVal (bank.getD k 0)).exact
        | none => false
      (b + c, ⟨false, false, false, under, !exact⟩)

/-! ### Shared sums (R110, R111) -/

/-- FP32 addition rounded RNE, without flags. -/
def addRne (a b : Nat) : Nat := (fp32.addV 0 (fp32.decode a) (fp32.decode b)).1

/-- The update of R111: from (s, e) and v to (s', e'). -/
def csumStep (s e v : Nat) : Nat × Nat :=
  let s' := addRne s v
  let t := match fp32.decode s' with
    | .fin _ _ _ =>
      let d := ((fp32.decode s).exact.add (fp32.decode v).exact).add (fp32.decode s').exact.neg
      (fp32.roundD 0 false d).1
    | .nan _ => 0
    | .inf _ => 0
  (s', addRne e t)

/-- The exact sum of one K block (R110) with both scale codes; `products` are the factor pairs. `none` is NaN. -/
def blockSum (products : List (FVal × FVal)) (scale : Int) : Option FVal :=
  let ps := products.map fun p => mulV p.1 p.2
  if ps.any (fun p => p == none || (match p with
      | some v => v.isNan
      | none => true)) then none
  else
    let vs := ps.filterMap id
    let infs := vs.filterMap fun v => match v with
      | .inf n => some n
      | .nan _ => none
      | .fin _ _ _ => none
    match infs with
    | n :: rest => if rest.all (· == n) then some (.inf n) else none
    | [] =>
      let total : Exact := vs.foldl (fun (acc : Exact) (v : FVal) => acc.add v.exact) ⟨0, 0⟩
      if total.m = 0 then some (.fin (vs.all FVal.isNeg) 0 0)
      else some (.fin (decide (total.m < 0)) total.m.natAbs (total.e + scale))

/-- One K block added to an accumulator element (R110); `sa` and `sb` are E8M0 codes, 127 without scales. -/
def mmaStep (c : Nat) (products : List (FVal × FVal)) (sa sb : Nat) : Nat :=
  let s := if sa = 255 ∨ sb = 255 then fp32.nanBits
    else match blockSum products ((sa : Int) + sb - 254) with
      | none => fp32.nanBits
      | some v => (fp32.convert 0 v).1
  addRne c s

end Machine

end Sys2Proof
end

