-- ==== Sys2Proof/Machine/Labels.lean ====
section
/-! DEFINITION. The label algebra of R200 to R206 and R210: environments, Minimise, Conj, Disj, the label table,
the nogood store, and forming a label. -/

namespace Sys2Proof.Machine

/-- ⊤ = {∅} (R200). -/
def topLabel : Label := [0]
/-- ⊥ = {} (R200). -/
def botLabel : Label := []

/-- Every assumption of `a` belongs to `b`. -/
def envSubset (a b : Env) : Bool := decide (a &&& b = a)

/-- Number of assumptions of an environment, from bit `n - 1` down. -/
def envSize (e : Env) : Nat := ((List.range 256).filter fun i => e.toNat.testBit i).length

/-- The canonical order (R200): ascending size, then ascending value. -/
def envBefore (a b : Env) : Bool :=
  decide (envSize a < envSize b) || (decide (envSize a = envSize b) && decide (a.toNat < b.toNat))

/-- Insertion of an environment into a canonical list, a duplicate once. -/
def insertEnv (e : Env) : Label → Label
  | [] => [e]
  | f :: t => if e = f then f :: t else if envBefore e f then e :: f :: t else f :: insertEnv e t

/-- Minimise(S) against the nogoods (R205). -/
def minimise (nogoods : List Env) (s : Label) : Label :=
  let live := s.filter fun e => !nogoods.any fun n => envSubset n e
  let least := live.filter fun e => !live.any fun f => envSubset f e && decide (f ≠ e)
  least.foldr insertEnv []

/-- Conj (R205). -/
def conj (nogoods : List Env) (a b : Label) : Label := minimise nogoods (a.flatMap fun e => b.map fun f => e ||| f)

/-- Disj (R205). -/
def disj (nogoods : List Env) (a b : Label) : Label := minimise nogoods (a ++ b)

/-- Conj over a list (R205). -/
def conjAll (nogoods : List Env) (l : List Label) : Label := l.foldl (conj nogoods) (minimise nogoods topLabel)

/-- Hidden (R205). -/
def hidden (nogoods : List Env) (l : Label) : Bool := decide (minimise nogoods l = [])

/-- Class(L) (R85). -/
inductive LabelClass where
  | top | bot | cond
  deriving DecidableEq, Repr

def classOf (nogoods : List Env) (l : Label) : LabelClass :=
  if minimise nogoods l = topLabel then .top else if hidden nogoods l then .bot else .cond

/-! ### Label words (R201, R202) -/

def lwEpoch (w : LabelWord) : BitVec 8 := w.extractLsb' 24 8
def lwP (w : LabelWord) : Bool := w.getLsbD 16
def lwHandle (w : LabelWord) : Nat := (w.extractLsb' 0 16).toNat

/-- The label word {epoch, P, handle}. -/
def mkWord (epoch : BitVec 8) (p : Bool) (handle : Nat) : LabelWord :=
  BitVec.ofNat 32 (epoch.toNat * 2 ^ 24 + oneBit p * 2 ^ 16 + handle % 2 ^ 16)

/-- The stored label of a handle for an agent in `epoch`; a handle not entered in that epoch reads as ⊥
(R202, R230, R236). -/
def World.entry (w : World) (epoch : BitVec 8) (handle : Nat) : Label :=
  match w.table[handle - 1]? with
  | some (e, l) => if e = epoch then l else botLabel
  | none => botLabel

/-- ReadWord (R202) by an agent in `epoch`. -/
def World.readWord (w : World) (epoch : BitVec 8) (lw : LabelWord) : Label :=
  if lw = 0 then topLabel
  else if lwEpoch lw ≠ epoch then botLabel
  else if lwHandle lw = 0 then topLabel
  else if lwHandle lw = 0xFFFF then botLabel
  else w.entry epoch (lwHandle lw)

/-- The evaluation of a label word: ReadWord, minimised against the store (R206). -/
def World.eval (w : World) (epoch : BitVec 8) (lw : LabelWord) : Label := minimise w.nogoods (w.readWord epoch lw)

/-- The place of an entry equal to (epoch, label), counted from `i`. -/
def findEntry (epoch : BitVec 8) (l : Label) : List (BitVec 8 × Label) → Nat → Option Nat
  | [], _ => none
  | (e, m) :: t, i => if e = epoch ∧ m = l then some i else findEntry epoch l t (i + 1)

/-- Why a label cannot be formed (R210, R203). -/
inductive LabelFail where
  /-- LBLOVF, with the environments needed. -/
  | ovf (n : Nat)
  | tab
  deriving DecidableEq, Repr

/-- XMAX and OVF of R207 as the forming agent holds them. -/
structure LabelCfg where
  epoch : BitVec 8
  xmax : Nat
  ovf : Bool
  deriving DecidableEq, Repr

/-- A minimised label cut to XMAX environments (R210), and whether it was truncated. -/
def fitLabel (c : LabelCfg) (l : Label) : Except LabelFail (Label × Bool) :=
  if l.length ≤ c.xmax then .ok (l, false)
  else if c.ovf then .ok (l.take c.xmax, true)
  else .error (.ovf l.length)

/-- The handle of a label that fits, entering it when it is new (R203, R206). -/
def World.enter (w : World) (epoch : BitVec 8) (l : Label) : Except LabelFail (Nat × World) :=
  if l = botLabel then .ok (0xFFFF, w)
  else if l = topLabel then .ok (0, w)
  else match findEntry epoch l w.table 1 with
    | some h => .ok (h, w)
    | none =>
      if w.table.length < Config.handles then .ok (w.table.length + 1, { w with table := w.table ++ [(epoch, l)] })
      else .error .tab

/-- A label formed by an agent: minimised, cut, entered (R206, R210): the word with P = 0, the world, and
whether it was truncated. -/
def World.form (w : World) (c : LabelCfg) (l : Label) : Except LabelFail (LabelWord × World × Bool) :=
  match fitLabel c (minimise w.nogoods l) with
  | .error e => .error e
  | .ok (m, dropped) =>
    match w.enter c.epoch m with
    | .error e => .error e
    | .ok (h, w') => .ok (mkWord c.epoch false h, w', dropped)

/-- One environment added to the store (R204). -/
def addNogood (store : List Env) (g : Env) : List Env :=
  if store.any (fun n => envSubset n g) then store else (store.filter fun n => !envSubset g n) ++ [g]

/-- AddNogoods (R204): `none` is NGFULL. -/
def World.addNogoods (w : World) (g : List Env) : Option World :=
  let store := g.foldl addNogood w.nogoods
  if store.length > Config.nogoods then none else some { w with nogoods := store, nggen := w.nggen + 1 }

/-- The epoch after `e` (R224). -/
def nextEpoch (e : BitVec 8) : BitVec 8 := if e = 255 then 1 else e + 1

end Sys2Proof.Machine
end

