-- ==== Sys2Proof/Machine/Access.lean ====
section
/-! DEFINITION. Reaching the parts of the state, physical memory, and address translation: R9, R130, R144, R152,
R296 to R299, R404 to R414, R463. -/

namespace Sys2Proof.Machine

/-! ### Parts of the state -/

def State.mapCore (s : State) (f : Core → Core) : State := { s with core := f s.core }
def State.mapDev (s : State) (f : Device → Device) : State := { s with dev := f s.dev }
def State.mapCtx (s : State) (f : Context → Context) : State := { s with ctx := f s.ctx }
def State.mapWorld (s : State) (f : World → World) : State := { s with ctx := { s.ctx with world := f s.ctx.world } }

/-- A logical cluster of the context. -/
def State.cluster (s : State) (cl : Nat) : Cluster := lookupD Cluster.reset s.ctx.clusters cl

def State.mapCluster (s : State) (cl : Nat) (f : Cluster → Cluster) : State :=
  { s with ctx := { s.ctx with clusters := modifyAt Cluster.reset cl f s.ctx.clusters } }

/-- The cluster and the logical core are those that move. -/
def State.isFocus (s : State) (cl c : Nat) : Bool := decide (cl = s.focus.cl ∧ c = s.focus.core)

/-- A core of the context that nothing has happened to but strokes: it holds the epoch of the engines and the code
generation of the latest tick (R224, R373). -/
def Context.idleCore (k : Context) : Core :=
  { Core.reset with codegen := k.idleGen, epoch := k.world.agentEpoch }

/-- A logical core of the context. -/
def State.coreAt (s : State) (cl c : Nat) : Core :=
  if s.isFocus cl c then s.core else lookupD s.ctx.idleCore (s.cluster cl).cores c

def State.mapCoreAt (s : State) (cl c : Nat) (f : Core → Core) : State :=
  if s.isFocus cl c then s.mapCore f
  else s.mapCluster cl fun k => { k with cores := modifyAt s.ctx.idleCore c f k.cores }

/-- The context with the core that moves back in its place. -/
def Context.stow (k : Context) (f : Focus) (c : Core) : Context :=
  { k with clusters := modifyAt Cluster.reset f.cl (fun u => { u with cores := insertAt f.core c u.cores }) k.clusters }

/-- The state with a core of context `k` as the one that moves. -/
def State.enter (s : State) (k : Context) (cl c : Nat) : State :=
  let u := lookupD Cluster.reset k.clusters cl
  { s with
    core := lookupD k.idleCore u.cores c
    focus := ⟨cl, c⟩
    ctx := { k with clusters := insertAt cl { u with cores := eraseAt c u.cores } k.clusters } }

/-- Clusters of the context (R421). -/
def Context.nclus (k : Context) : Nat := k.desc.part.length

/-- The cores of the context as (logical cluster, logical core). -/
def Context.places (k : Context) : List (Nat × Nat) :=
  (List.range k.nclus).flatMap fun cl => (List.range 192).map fun c => (cl, c)

/-- The state with a core of some context as the one that moves; `none` when the machine has no such core. -/
def State.focusOn (s : State) (ctxid cl c : Nat) : Option State :=
  if c ≥ 192 then none
  else if ctxid = s.ctx.desc.ctxid then
    if s.isFocus cl c then some s
    else if cl < s.ctx.nclus then some (s.enter (s.ctx.stow s.focus s.core) cl c) else none
  else
    match s.others.find? fun k => k.desc.ctxid == ctxid && decide (cl < k.nclus) with
    | none => none
    | some k =>
      let rest := s.others.filter fun j => j.desc.ctxid != ctxid
      let away := if s.ctx.desc.ctxid = 0 then rest else s.ctx.stow s.focus s.core :: rest
      some ({ s with others := away }.enter k cl c)

/-- What firmware does in the context CTXID, the core that moves staying the same. -/
def State.inContext (s : State) (ctxid : Nat) (f : State → State) : State :=
  if ctxid = s.ctx.desc.ctxid then f s
  else match s.focusOn ctxid 0 0 with
    | none => s
    | some t =>
      let u := f t
      (u.focusOn s.ctx.desc.ctxid s.focus.cl s.focus.core).getD u

/-- The core table maps the logical core (R130, R378). -/
def Context.mapped (k : Context) (cl c : Nat) : Bool :=
  decide (cl < k.nclus) && decide (c < 192) && !k.desc.unmapped.contains (cl, c)

/-- The crew of a logical core and its place in the crew (R8). -/
def crewOf (c : Nat) : Nat := c / 8
def memberOf (c : Nat) : Nat := c % 8

/-- The free value number `k` of the current draw (log entry 3). -/
def State.freeNat (s : State) (k : Nat) : Nat := Config.free s.fresh k

/-- The state after a draw. -/
def State.drawn (s : State) : State := { s with fresh := s.fresh + 1 }

/-- The state with a number handed out for a lock or an engine operation. -/
def State.takeId (s : State) : Nat × State :=
  (s.dev.nextId, s.mapDev fun d => { d with nextId := d.nextId + 1 })

/-! ### Physical memory -/

/-- Regions of physical addresses (R407). -/
inductive Region where
  | striped | row | near | tier2
  deriving DecidableEq, Repr

/-- DRAM offset of a striped PA (R463). -/
def stripedOffset (rb a : Nat) : Nat :=
  let f (lo n : Nat) : Nat := a / 2 ^ lo % 2 ^ n
  f 0 8 + 2 ^ 8 * f 21 2 + 2 ^ 10 * f 23 8 + 2 ^ 18 * f 16 5 + 2 ^ 23 * f 12 4 + 2 ^ 27 * f 8 4
    + 2 ^ 31 * (rb + a / 2 ^ 31)

/-- Something is attached behind a second-tier PA: an expander of the capacity it reports on a port, or a pool
region with V = 1 (R434, R436). -/
def Device.attached (d : Device) (pa : Nat) : Bool :=
  if pa < 12 * 2 ^ 40 then
    !d.fabricPorts.contains (pa / 2 ^ 40 - 4) && decide (pa % 2 ^ 40 < lookupD 0 d.expanders (pa / 2 ^ 40 - 4))
  else !d.fabricPorts.isEmpty && (lookupD PoolDesc.reset d.pool ((pa - 12 * 2 ^ 40) / 2 ^ 30)).valid

/-- The descriptor of a valid pool region in leased mode (R436). -/
def Device.leasedRegion (d : Device) (pa : Nat) : Option PoolDesc :=
  if pa < 12 * 2 ^ 40 ∨ 2 ^ 44 ≤ pa then none
  else (some (lookupD PoolDesc.reset d.pool ((pa - 12 * 2 ^ 40) / 2 ^ 30))).filter fun r => r.valid && r.leased

/-- The region is leased from another device. -/
def Device.leasedAway (d : Device) (pa : Nat) : Option PoolDesc :=
  (d.leasedRegion pa).filter fun r => r.home != Config.routingId

/-- A copy of a leased line may be used (R439): the servo is LOCKED, its offset is within half the guard band, and it has
been LOCKED anew since an offset was beyond one. -/
def Device.leaseTrust (d : Device) (r : PoolDesc) : Bool :=
  d.ptp.locked && !d.ptp.block && decide (d.ptp.offset.natAbs ≤ 125 * r.gbq.toNat)

/-- The stack of a DRAM offset (R296). -/
def stackOf (o : Nat) : Nat := o / 2 ^ 27 % 16

/-- A stack works (R456). -/
def Device.stackWorks (d : Device) (n : Nat) : Bool := !d.lostUnits.contains (.stack, n)

/-- Region and location of a PA by the ranges of R297 and R407; `none` is a hole. -/
def Device.mapPa (d : Device) (pa : Nat) : Option (Region × Nat) :=
  let rb := d.rb
  if pa < 2 ^ 31 * (504 - rb) then some (.striped, stripedOffset rb pa)
  else if 2 ^ 40 ≤ pa ∧ pa < 2 ^ 41 then
    let row := (pa - 2 ^ 40) / 2 ^ 31
    if (32 ≤ row ∧ row < rb) ∨ 504 ≤ row then some (.row, pa - 2 ^ 40) else none
  else if 2 ^ 41 ≤ pa ∧ pa < 2 ^ 41 + 24 * 2 ^ 31 then some (.near, pa - 2 ^ 41)
  else if 2 ^ 42 ≤ pa ∧ pa < 2 ^ 44 ∧ d.attached pa then some (.tier2, pa)
  else none

/-- Region and location of a PA; the offsets of a lost stack are holes (R456). -/
def Device.locate (d : Device) (pa : Nat) : Option (Region × Nat) :=
  match d.mapPa pa with
  | none => none
  | some (r, loc) => if decide (2 ^ 40 ≤ loc) || d.stackWorks (stackOf loc) then some (r, loc) else none

/-- Location of a local-store byte (R130). -/
def localLoc (ctxid cl core off : Nat) : Nat := 2 ^ 48 + 2 ^ 32 * ctxid + 2 ^ 26 * cl + 2 ^ 18 * core + off

/-- The location is a local store's. -/
def isLocal (loc : Nat) : Bool := decide (2 ^ 48 ≤ loc ∧ loc < 2 ^ 49)

/-- The line of a location. -/
def lineOf (loc : Nat) : Nat := loc / 64 * 64

/-- Where the label word of a line lies: the label plane for DRAM (R223), beside the store for a local store. -/
def labelLoc (loc : Nat) : Nat :=
  if loc < 2 ^ 48 then 0xFC00000000 + loc / 64 * 4 else 2 ^ 50 + loc / 64 * 4

/-- The ROW of a DRAM offset and the name of its subarray (R296). -/
def rowOf (o : Nat) : Nat := o / 2 ^ 31
def subarrayOf (o : Nat) : Nat := o / 2 ^ 10 % 2 ^ 21

/-- The PA of a DRAM offset (R297, R463). -/
def paOf (rb o : Nat) : Nat :=
  let f (lo n : Nat) : Nat := o / 2 ^ lo % 2 ^ n
  if rowOf o < 24 then 2 ^ 41 + o
  else if rowOf o < rb ∨ 504 ≤ rowOf o then 2 ^ 40 + o
  else f 0 8 + 2 ^ 8 * f 27 4 + 2 ^ 12 * f 23 4 + 2 ^ 16 * f 18 5 + 2 ^ 21 * f 8 2 + 2 ^ 23 * f 10 8
    + 2 ^ 31 * (rowOf o - rb)

/-- The PA of a location of device or second-tier memory. -/
def paOfLoc (rb loc : Nat) : Nat := if loc < 2 ^ 40 then paOf rb loc else loc

/-- One byte; what no write has reached reads as 0 (log entry 2). -/
def Device.byte (d : Device) (loc : Nat) : Byte := lookupD 0 d.mem loc

def Device.bytes (d : Device) (loc n : Nat) : List Byte := (List.range n).map fun i => d.byte (loc + i)

def Device.num (d : Device) (loc n : Nat) : Nat := natOf (d.bytes loc n)

/-- The 64 bytes of a line. -/
def Device.lineData (d : Device) (line : Nat) : VWord := BitVec.ofNat 512 (d.num line 64)

/-- The label word of a line as stored. -/
def Device.rawLabel (d : Device) (line : Nat) : LabelWord := BitVec.ofNat 32 (d.num (labelLoc line) 4)

/-- Bytes of memory replaced, the canonical form kept. -/
def pokeBytes (mem : NatMap Byte) (loc : Nat) : List Byte → NatMap Byte
  | [] => mem
  | b :: bs => pokeBytes (putD 0 loc b mem) (loc + 1) bs

def Device.poke (d : Device) (loc : Nat) (bs : List Byte) : Device := { d with mem := pokeBytes d.mem loc bs }

def Device.setRawLabel (d : Device) (line : Nat) (w : LabelWord) : Device :=
  d.poke (labelLoc line) (bytesOf 4 w.toNat)

/-- The doublewords that a store of `n` bytes at `loc` replaces, noted for later fetches and walks
(R137, R414). -/
def Device.note (d : Device) (loc n : Nat) (writer : Writer) : Device :=
  let first := loc / 8
  let count := (loc + n + 7) / 8 - first
  let olds := (List.range count).map fun i =>
    (⟨(first + i) * 8, BitVec.ofNat 64 (d.num ((first + i) * 8) 8), d.stores, writer⟩ : Superseded)
  { d with log := d.log ++ olds, stores := d.stores + 1 }

/-- A promoted row that is written becomes dirty (R309). -/
def Device.dirtySlot (d : Device) (loc : Nat) : Device :=
  if loc < 2 ^ 40 then
    match lookup d.slots (subarrayOf loc) with
    | none => d
    | some m =>
      let m' := m.map fun e => if e.2.row = rowOf loc then (e.1, { e.2 with dirty := true }) else e
      { d with slots := insertAt (subarrayOf loc) m' d.slots }
  else d

/-- The region of the line when this device owns it in leased mode (R438). -/
def Device.owned (d : Device) (line : Nat) : Option PoolDesc :=
  (d.leasedRegion line).filter fun r => r.home == Config.routingId

/-- The lease holds a write back no longer (R440). -/
def Device.leaseOver (d : Device) (r : PoolDesc) (l : Lease) : Bool :=
  (l.trusted && d.ptp.locked && decide (l.expiry + 2750 * r.gbq.toNat < d.ptp.time))
    || decide (l.sent + 1100 * r.ldur.toNat + 550 * r.gbq.toNat ≤ d.cycle.toNat)

/-- The entry is the place of an access of this device's own; of one by `who`. -/
def PoolWrite.own (w : PoolWrite) : Bool := w.dev == Config.routingId.toNat
def PoolWrite.mine (w : PoolWrite) (who : Writer) : Bool := w.own && w.who == who

/-- The request changes the line. -/
def PoolWrite.writes (w : PoolWrite) : Bool :=
  match w.op with
  | .read _ => false
  | .write | .amo _ _ | .cas _ | .famo _ | .csum => true

/-- Writes wait at the line before the place of `who`, or at all where it holds none (R440). -/
def Device.behind (d : Device) (line : Nat) (who : Writer) : Bool :=
  ((d.poolWrites.filter fun w => w.line == line && w.writes).takeWhile fun w => !w.mine who) ≠ []

/-- An access of the running turn has to wait at the line: it keeps its place there, which holds new leases back, and the
turn is taken again later (R440, log entry 45). -/
def Device.standBy (d : Device) (line : Nat) (who : Writer) : Device :=
  { d with
    awaited := line :: d.awaited
    poolWrites := if d.poolWrites.any fun w => w.line == line && w.mine who then d.poolWrites
      else d.poolWrites ++ [⟨line, Config.routingId.toNat, d.incarnation, 0, [], .write, who⟩] }

/-- A write of the device itself to a line that it owns is performed where no other write waits there before it and every
lease of the line is over (R438, R440); the place that it held goes. -/
def Device.perform (d : Device) (line : Nat) (who : Writer) : Device :=
  match d.owned line with
  | none => d
  | some r =>
    if d.behind line who || d.leasesGranted.any (fun l => l.line == line && !d.leaseOver r l) then d.standBy line who
    else { d with
      poolWrites := d.poolWrites.filter fun w => !(w.line == line && w.mine who)
      leasesGranted := d.leasesGranted.filter fun l => l.line != line }

/-- A read miss of the device itself on a line that it owns is served after the writes that wait there, its own core's
apart (R440). -/
def Device.meet (d : Device) (line : Nat) (who : Writer) : Device :=
  if (d.owned line).isSome && d.behind line who && (lookup d.held line).isNone then { d with awaited := line :: d.awaited }
  else d

/-- The places that the device's own accesses hold are given up. -/
def Device.dropPlaces (d : Device) : Device := { d with poolWrites := d.poolWrites.filter fun w => !w.own }

/-- Bytes stored by a writer. -/
def Device.store (d : Device) (loc : Nat) (bs : List Byte) (writer : Writer) : Device :=
  (((d.note loc bs.length writer).poke loc bs).dirtySlot loc).perform (lineOf loc) writer

/-- Every cached copy of the line goes, what memory holds being current. -/
def Device.dropLine (d : Device) (line : Nat) : Device :=
  { d with held := eraseAt line d.held, leasesHeld := d.leasesHeld.filter fun l => l.line != line }

/-- A read miss on a leased line: the copy, held until the T_exp that its owner gives; an owner that is not LOCKED gives
none, the data serving once (R438, R439). -/
def Device.leaseLine (d : Device) (line : Nat) (r : PoolDesc) (cmp : Bool) (grant : Option Nat) : Device :=
  let d := d.dropLine line
  match grant with
  | none => d
  | some expiry =>
    if d.leaseTrust r then
      { d with
        held := insertAt line ⟨cmp, []⟩ d.held
        leasesHeld := d.leasesHeld ++ [⟨line, r.home.toNat, d.incarnation, expiry, 0, true⟩] }
    else d

/-- A lease of the line that still serves. -/
def Device.leaseServes (d : Device) (line : Nat) (r : PoolDesc) : Bool :=
  d.leaseTrust r && d.leasesHeld.any fun l => l.line == line && decide (d.ptp.time < l.expiry)

/-- CWB of one line: memory holds the current contents, copies stay clean (R166). -/
def Device.cleanLine (d : Device) (line : Nat) : Device :=
  match lookup d.held line with
  | none => d
  | some h => { d with held := insertAt line { h with past := [] } d.held }

/-- Before a cached write: the contents that memory may still hold (R152). -/
def Device.dirtyLine (d : Device) (line : Nat) (cmp : Bool) : Device :=
  let h := (lookup d.held line).getD ⟨cmp, []⟩
  { d with held := insertAt line { h with past := h.past ++ [(d.lineData line, d.rawLabel line)] } d.held }

/-- Numbers of the telemetry counters, in the table's order (R458). -/
def ctrDramce : Nat := 0
def ctrDramue : Nat := 1
def ctrPoison : Nat := 2
def ctrSramce : Nat := 3
def ctrUeretry : Nat := 4
def ctrUelink : Nat := 5
def ctrCxlerr : Nat := 6
def ctrPtpunlk : Nat := 7
def ctrThrcyc : Nat := 8
def ctrCtxflt : Nat := 9
def ctrDevflt : Nat := 10

/-- Events counted, saturating. -/
def Device.countBy (d : Device) (n by_ : Nat) : Device :=
  { d with counters := insertAt n (min (2 ^ 64 - 1) (lookupD 0 d.counters n + by_)) d.counters }

/-- One more event counted. -/
def Device.count (d : Device) (n : Nat) : Device := d.countBy n 1

def setMember (l : List Nat) (k : Nat) (b : Bool) : List Nat :=
  if b then (if l.contains k then l else k :: l) else l.filter (· != k)

/-! ### Access outcomes -/

/-- Kinds of access in EINFO[1:0] (R190). -/
inductive Access where
  | read | write | fetch | atomic
  deriving DecidableEq, Repr

def Access.code : Access → Nat
  | .read => 0 | .write => 1 | .fetch => 2 | .atomic => 3

/-- A failed check of R159: the cause, EINFO and EADDR. -/
structure Deny where
  cause : Cause
  info : Nat
  addr : Word
  deriving DecidableEq, Repr

/-- The unit of a cluster that performs an access (R142): a core, a crew's matrix engine or copy unit or the sweep unit, for
the record whose operation it runs, the cluster's port to the torus, or a unit outside the clusters: the row queue, the
base dies, the dispatcher, firmware; `host` is a host or a peer. -/
inductive AgentUnit where
  | core (c : Nat)
  | matrix (crew : Nat) (record : Word)
  | copy (crew : Nat) (record : Word)
  | sweep (record : Word)
  | torus | device | host
  deriving DecidableEq, Repr

/-- Who makes an access: its cluster, the mode whose permissions bind it, and the unit; an engine sets EINFO[2] (R190). -/
structure Agent where
  cl : Nat
  mode : Mode
  unit : AgentUnit
  deriving DecidableEq, Repr

/-- The number of the core that makes the access. -/
def Agent.core (a : Agent) : Option Nat :=
  match a.unit with
  | .core c => some c
  | .matrix _ _ | .copy _ _ | .sweep _ | .torus | .device | .host => none

/-- The agent as a writer of memory (R142). -/
def Agent.writer (a : Agent) (ctxid : Nat) : Writer :=
  match a.unit with
  | .core c => .core ctxid a.cl c
  | .matrix n _ | .copy n _ => .crew ctxid a.cl n
  | .sweep _ | .torus => .sweep ctxid a.cl
  | .device => .device
  | .host => .outside

def Agent.engineBit (a : Agent) : Nat := if a.core.isSome then 0 else 4

/-- A translated address (R405, R130): its location, PA (0 for a local store), attributes and permissions. -/
structure Place where
  va : Word
  loc : Nat
  pa : Nat
  /-- The logical core whose local store it is. -/
  ls : Option Nat
  lt : Bool
  cacheable : Bool
  cmp : Bool
  u : Bool
  x : Bool
  w : Bool
  r : Bool
  deriving DecidableEq, Repr

/-! ### Page tables (R405 to R409) -/

/-- Every 2 MiB unit of the range is granted (R404). -/
def State.granted (s : State) (pa len : Nat) : Bool :=
  let g := s.ctx.desc.grant
  decide (pa + len ≤ 2 ^ 44) && (List.range ((len + 2 ^ 21 - 1) / 2 ^ 21)).all fun i =>
    let unit := pa / 2 ^ 21 + i
    match s.dev.locate (g + unit / 8) with
    | some (_, loc) => (s.dev.byte loc).toNat.testBit (unit % 8)
    | none => false

/-- Bytes of the save area of one logical core, and of the whole area of a context: those of its cores, then 1 MiB for each
cluster (R427). -/
def saveSize : Nat := 0x80000
def Context.saveBytes (k : Context) : Nat := (192 * saveSize + 2 ^ 20) * k.nclus

/-- The range meets the world area, of 96 MiB, or the save area of the context (R199, R428). -/
def Context.keeps (k : Context) (pa len : Nat) : Bool :=
  let meets (base size : Nat) : Bool := decide (pa < base + size) && decide (base < pa + len)
  decide (k.desc.ctxid ≠ 0) && !k.destroyed && (meets k.desc.world (96 * 2 ^ 20) || meets k.desc.save k.saveBytes)

/-- The 2 MiB units of PA that hold the DRAM offsets from `o` to `stop - 1`: every unit of a striped row (R297, R463). -/
def unitsOf (rb o stop : Nat) : List Nat :=
  (List.range (rowOf (stop - 1) + 1 - rowOf o)).flatMap fun i =>
    let row := rowOf o + i
    if row < rb then
      let base := (if row < 24 then 2 ^ 41 else 2 ^ 40)
      let lo := (base + max o (2 ^ 31 * row)) / 2 ^ 21
      let hi := (base + min stop (2 ^ 31 * (row + 1)) - 1) / 2 ^ 21
      (List.range (hi + 1 - lo)).map (lo + ·)
    else (List.range 1024).map (1024 * (row - rb) + ·)

/-- A range of the label plane may be mapped where every data line whose label words it holds belongs to the context
(R298, R404). -/
def State.planeAllowed (s : State) (pa len : Nat) : Bool :=
  let first := 2 ^ 40 + 504 * 2 ^ 31
  pa < first || 2 ^ 41 ≤ pa
    || (unitsOf s.dev.rb (16 * (pa - first)) (16 * (pa - first) + 16 * len)).all fun u => s.granted (2 ^ 21 * u) 1

/-- The context may map the range (R404, R428): it is granted, and meets no world area and no save area. -/
def State.mappable (s : State) (pa len : Nat) : Bool :=
  s.granted pa len && !((s.ctx :: s.others).any fun k => k.keeps pa len) && s.planeAllowed pa len

/-- The stacks that hold bytes of a range of whole pages at DRAM offset `o`: all for striped addresses (R463). -/
def stacksOf (r : Region) (o len : Nat) : List Nat :=
  match r with
  | .striped => List.range 16
  | .row | .near => (List.range ((len + 2 ^ 27 - 1) / 2 ^ 27)).map fun i => stackOf (o + 2 ^ 27 * i)
  | .tier2 => []

/-- The range of PAs, whole pages, lies in one region that is no hole (R408, R456). -/
def State.oneRegion (s : State) (pa len : Nat) : Option (Region × Nat) :=
  match s.dev.locate pa, s.dev.locate (pa + len - 1) with
  | some (r, o), some (r', _) => if r = r' ∧ (stacksOf r o len).all s.dev.stackWorks then some (r, o) else none
  | _, _ => none

/-- LT = 1 is allowed on the range at DRAM offset `o` (R408), whose own stacks work: so does that of its label words. -/
def State.labelCapable (s : State) (r : Region) (o len : Nat) : Bool :=
  (decide (r = .row) || decide (r = .near)) && decide (o + len ≤ 2 ^ 38) && s.dev.stackWorks (rowOf o % 16)

/-- Entry `e` at level `lvl` as a leaf. -/
def leafOf (e lvl : Nat) : Leaf :=
  { pa := 2 ^ 16 * (e / 2 ^ 16 % 2 ^ 36), block := decide (lvl = 2), cmp := e.testBit 11, lt := e.testBit 10
    c := e.testBit 9, u := e.testBit 8, x := e.testBit 7, w := e.testBit 6, r := e.testBit 5 }

/-- Whether CMP = 1 may map the second-tier address: direct-attached expanders, not the pool (R434). -/
def cmpAllowed (r : Region) (pa : Nat) : Bool := decide (r ≠ .tier2) || decide (pa < 12 * 2 ^ 40)

/-- Valid(e, lvl) for a leaf (R408), over the label plane too (log entry 76). -/
def State.leafValid (s : State) (e lvl : Nat) : Bool :=
  let f := leafOf e lvl
  let len := if lvl = 2 then 2 ^ 29 else 2 ^ 16
  decide (lvl = 2 ∨ lvl = 3) && decide (e / 2 ^ 52 % 256 = 0) && decide (e / 4 % 8 = 0) && decide (e / 2 ^ 12 % 16 = 0)
    && decide (f.pa % len = 0) && s.mappable f.pa len
    && (match s.oneRegion f.pa len with
      | none => false
      | some (r, o) =>
        (!f.w || f.r) && (!f.cmp || (f.c && !f.x && cmpAllowed r f.pa))
          && (!f.lt || (!f.x && s.labelCapable r o len)))

/-- The page lies wholly in device DRAM that the context may map and that is no hole. -/
def State.dramPage (s : State) (pa : Nat) : Bool :=
  s.mappable pa (2 ^ 16)
    && (match s.oneRegion pa (2 ^ 16) with
      | some (r, _) => decide (r ≠ .tier2)
      | none => false)

/-- Valid(e, lvl) for a table entry (R408). -/
def State.tableValid (s : State) (e lvl : Nat) : Bool :=
  decide (lvl = 1 ∨ lvl = 2) && decide (e / 2 ^ 52 % 256 = 0) && decide (e / 4 % 2 ^ 14 = 0)
    && s.dramPage (2 ^ 16 * (e / 2 ^ 16 % 2 ^ 36))

/-- Pages of 64 KiB that an entry of a level translates. -/
def levelPages (lvl : Nat) : Nat := 2 ^ (39 - 13 * lvl)

/-- A shootdown that covers a page of what an entry of the level translates for the address has been served since the store
(R415, R416). -/
def Context.shotSince (k : Context) (va : Word) (lvl seq : Nat) : Bool :=
  let n := levelPages lvl
  let lo := va.toNat / 2 ^ 16 / n * n
  k.shots.any fun h => decide (h.first < lo + n ∧ lo < h.first + h.pages ∧ seq < h.stores)

/-- The old doublewords that a walk of the core's own for the address may still read: its stores since its latest FENCE of the
W kind at DEVICE scope (R414), where no shootdown has followed (R416). -/
def State.staleWords (s : State) (a : Agent) (va : Word) (lvl loc : Nat) : List Word :=
  match a.core with
  | none => []
  | some c =>
    ((s.dev.log.filter fun e => e.loc == loc && e.writer == .core s.ctx.desc.ctxid a.cl c
      && decide ((s.coreAt a.cl c).walkSync ≤ e.seq) && !s.ctx.shotSince va lvl e.seq)).map Superseded.old

/-- The key of a held table entry of level 1 or 2: the VA bits that it translates (R405, R412). -/
def walkKey (va : Word) (lvl : Nat) : Nat := if lvl = 1 then va.toNat / 2 ^ 42 else 2 ^ 48 + va.toNat / 2 ^ 29

/-- An entry of a page table as the walker reads it: the current one, or one that a free value picks among those that
the walkers still hold and the core's own stale ones (R412, R414). -/
def State.readEntry (s : State) (a : Agent) (va : Word) (lvl loc : Nat) : Nat × State :=
  let now := s.dev.num loc 8
  let held := (if lvl < 3 then (lookup (s.cluster a.cl).walks (walkKey va lvl)).toList else []).filter (· != now)
  match held ++ (s.staleWords a va lvl loc).map BitVec.toNat with
  | [] => (now, s)
  | olds => ((olds[s.freeNat 0 % (olds.length + 1)]?).getD now, s.drawn)

/-- Why a walk ends without a leaf. -/
inductive WalkFail where
  | level (n : Nat)
  | poisoned
  deriving DecidableEq, Repr

/-- The index of the address at a level (R405). -/
def pageIndex (va : Word) (lvl : Nat) : Nat := va.toNat / 2 ^ (55 - 13 * lvl) % 2 ^ 13

/-- The walk from level `lvl` with `fuel` levels left (R409). -/
def State.walkFrom (s : State) (a : Agent) (va : Word) : Nat → Nat → Nat → Except WalkFail Leaf × State
  | 0, lvl, _ => (.error (.level lvl), s)
  | fuel + 1, lvl, table =>
    match s.dev.locate (table + 8 * pageIndex va lvl) with
    | none => (.error (.level lvl), s)
    | some (_, loc) =>
      if s.dev.poison.contains (lineOf loc) then (.error .poisoned, s)
      else
        let (e, s) := s.readEntry a va lvl loc
        if e % 4 = 2 then (if s.leafValid e lvl then .ok (leafOf e lvl) else .error (.level lvl), s)
        else if e % 4 = 1 ∧ s.tableValid e lvl then
          (s.mapCluster a.cl fun k => { k with walks := insertAt (walkKey va lvl) e k.walks }).walkFrom a va fuel (lvl + 1)
            (2 ^ 16 * (e / 2 ^ 16 % 2 ^ 36))
        else (.error (.level lvl), s)

/-- The location of the entry for an address in a table. -/
def State.entryLoc (s : State) (va : Word) (lvl table : Nat) : Option Nat :=
  (s.dev.locate (table + 8 * pageIndex va lvl)).map Prod.snd

/-- The table that the entry of a level names for an address. -/
def State.nextTable (s : State) (va : Word) (lvl table : Nat) : Option Nat :=
  (s.entryLoc va lvl table).bind fun loc =>
    let e := s.dev.num loc 8
    if e % 4 = 1 ∧ s.tableValid e lvl then some (2 ^ 16 * (e / 2 ^ 16 % 2 ^ 36)) else none

/-- The tables as they stand in memory map the address, or cannot be read for it (R369). -/
def State.mapsVa (s : State) (va : Word) : Nat → Nat → Nat → Bool
  | 0, _, _ => false
  | fuel + 1, lvl, table =>
    match s.entryLoc va lvl table with
    | none => false
    | some loc =>
      if s.dev.poison.contains (lineOf loc) then true
      else if s.dev.num loc 8 % 4 = 2 then s.leafValid (s.dev.num loc 8) lvl
      else match s.nextTable va lvl table with
        | some t => s.mapsVa va fuel (lvl + 1) t
        | none => false

/-- An entry written by firmware. -/
def State.putEntry (s : State) (va : Word) (lvl table e : Nat) : State :=
  match s.entryLoc va lvl table with
  | none => s
  | some loc => s.mapDev fun d => d.store loc (bytesOf 8 e) .device

/-! ### The code heap (R369, R374; log entry 9) -/

/-- The addresses of the pages of an image. -/
def Image.pages (i : Image) : List Word :=
  (List.range ((i.size + 2 ^ 16 - 1) / 2 ^ 16)).map fun p => i.base + BitVec.ofNat 64 (p * 2 ^ 16)

/-- The pages of the code heap that hold no image and no page table. -/
def State.heapFree (s : State) : List Nat :=
  (s.ctx.desc.heap.flatMap fun u => (List.range 32).map fun i => 2 ^ 21 * u + 2 ^ 16 * i).filter fun pa =>
    !s.ctx.tables.contains pa && !(s.ctx.images.any fun i => i.places.contains pa) && s.dramPage pa

/-- The line as device memory holds it after a write of 256 bytes by firmware: no copy, no error, no other format. -/
def Device.freshLine (d : Device) (line : Nat) : Device :=
  { d.dropLine line with poison := d.poison.filter (· != line), packed := d.packed.filter (· != line) }

/-- Bytes of a page of the heap written by firmware, in the granules of R463. -/
def State.putPage (s : State) (pa : Nat) (bs : List Byte) : State :=
  (chunks 256 256 bs).zipIdx.foldl (fun s e =>
    match s.dev.locate (pa + 256 * e.2) with
    | none => s
    | some (_, loc) => s.mapDev fun d =>
      (List.range 4).foldl (fun d i => d.freshLine (loc + 64 * i)) (d.store loc e.1 .device)) s

/-- A page of the heap taken as a page table, empty. -/
def State.takeTable (s : State) : Option (Nat × State) :=
  s.heapFree.head?.map fun t =>
    (t, (s.putPage t (bytesOf (2 ^ 16) 0)).mapCtx fun k => { k with tables := t :: k.tables })

/-- The table that the entry of a level names for an address in the code window; where it names none, firmware takes one in
the code heap. -/
def State.tableFor (s : State) (va : Word) (lvl table : Nat) : Option (Nat × State) :=
  match s.nextTable va lvl table with
  | some t => some (t, s)
  | none => s.takeTable.map fun e => (e.1, e.2.putEntry va lvl table (e.1 + 1))

/-- A page of an image mapped: readable and executable, for both modes, without LT and CMP (R369). -/
def State.mapPage (s : State) (va : Word) (pa : Nat) : Option State := do
  let (t, s) ← s.tableFor va 1 s.ctx.desc.troot
  let (t, s) ← s.tableFor va 2 t
  some (s.putEntry va 3 t (pa + 0x3A2))

/-- The page of an image mapped no longer, where the tables still map it. -/
def State.unmapPage (s : State) (va : Word) (pa : Nat) : State :=
  match ((s.nextTable va 1 s.ctx.desc.troot).bind fun t => s.nextTable va 2 t) with
  | none => s
  | some t =>
    match s.entryLoc va 3 t with
    | none => s
    | some loc => if (leafOf (s.dev.num loc 8) 3).pa = pa then s.putEntry va 3 t 0 else s

/-- Keys of the TLB: a 64 KiB page, or a 512 MiB block. -/
def pageKey (va : Word) : Nat := va.toNat / 2 ^ 16
def blockKey (va : Word) : Nat := 2 ^ 48 + va.toNat / 2 ^ 29

def leafKey (va : Word) (f : Leaf) : Nat := if f.block then blockKey va else pageKey va

/-- The translation that a TLB holds for an address. -/
def heldIn (tlb : NatMap Leaf) (va : Word) : Option Leaf :=
  match lookup tlb (pageKey va) with
  | some f => some f
  | none => lookup tlb (blockKey va)

/-- The translation that the cluster's second-level TLB holds for an address (R412). -/
def Cluster.cached (k : Cluster) (va : Word) : Option Leaf := heldIn k.tlb va

/-- The number of an agent's first-level TLB (R412): each core, matrix engine, copy unit and sweep unit has its own; 241
stands for what reaches the second level directly. -/
def Agent.slot (a : Agent) : Nat :=
  match a.unit with
  | .core c => c
  | .matrix n _ => 192 + n
  | .copy n _ => 216 + n
  | .sweep _ => 240
  | .torus | .device | .host => 241

/-- The translation that the agent's first-level TLB holds for an address (R412). -/
def Cluster.firstOf (k : Cluster) (a : Agent) (va : Word) : Option Leaf := heldIn (lookupD [] k.first a.slot) va

def forgetIn (tlb : NatMap Leaf) (va : Word) : NatMap Leaf := eraseAt (pageKey va) (eraseAt (blockKey va) tlb)

/-- The agent's first-level TLB and the second-level TLB forget an address. -/
def Cluster.forget (k : Cluster) (a : Agent) (va : Word) : Cluster :=
  { k with tlb := forgetIn k.tlb va, first := modifyAt [] a.slot (forgetIn · va) k.first }

/-- A TLB of `n` entries with room for one more: a full one gives up the entry that `pick` names (R2, R412). -/
def roomIn (n pick : Nat) (tlb : NatMap Leaf) : NatMap Leaf :=
  if tlb.length < n then tlb else tlb.eraseIdx (pick % tlb.length)

/-- Both hold a translation; 241 is no TLB. -/
def Cluster.hold (k : Cluster) (a : Agent) (va : Word) (f : Leaf) (pick : Nat) : Cluster :=
  let k := k.forget a va
  let put (n : Nat) (tlb : NatMap Leaf) : NatMap Leaf := insertAt (leafKey va f) f (roomIn n pick tlb)
  { k with
    tlb := put Config.tlbCluster k.tlb
    first := if a.slot = 241 then k.first else modifyAt [] a.slot (put Config.tlbCore) k.first }

/-- A TLB of the agent is full. -/
def Cluster.tlbFull (k : Cluster) (a : Agent) : Bool :=
  decide (Config.tlbCluster ≤ k.tlb.length) || decide (Config.tlbCore ≤ (lookupD [] k.first a.slot).length)

/-- The translation held; a free value names the entry that a full TLB gives up. -/
def State.holdLeaf (s : State) (a : Agent) (va : Word) (f : Leaf) : State :=
  let pick := s.freeNat 1
  (if (s.cluster a.cl).tlbFull a then s.drawn else s).mapCluster a.cl (·.hold a va f pick)

/-- The leaf that translates the address: a held translation that the tables no longer give may still serve, by
a free value (R414). -/
def State.leafFor (s : State) (a : Agent) (va : Word) : Except WalkFail Leaf × State :=
  let (w, s) := s.walkFrom a va 3 1 s.ctx.desc.troot
  let k := s.cluster a.cl
  let olds := ((k.firstOf a va).toList ++ (k.cached va).toList).filter fun g => match w with
    | .ok f => f != g
    | .error _ => true
  match olds[s.freeNat 0 % (olds.length + 1)]? with
  | some g => (.ok g, s.drawn)
  | none =>
    let s := if olds.isEmpty then s else s.drawn
    match w with
    | .ok f => (.ok f, s.holdLeaf a va f)
    | .error e => (.error e, s.mapCluster a.cl (·.forget a va))

/-- The record that the agent works for: that of a core, or that whose operation an engine runs. -/
def State.recordBehind (s : State) (a : Agent) : Option Word :=
  match a.unit with
  | .core c => (s.coreAt a.cl c).record
  | .matrix _ r | .copy _ r | .sweep r => some r
  | .torus | .device | .host => none

/-- A record launched after the UNLOAD of an image reaches none of its pages, nor do its engine operations (R374). -/
def State.barredAt (s : State) (a : Agent) (pa : Nat) : Bool :=
  match s.recordBehind a with
  | none => false
  | some r => s.ctx.images.any fun i =>
    i.barred.contains r && i.places.any fun p => decide (p ≤ pa ∧ pa < p + 2 ^ 16)

/-- Offset of an address in the local-store window, when it lies there (R130). -/
def Context.windowOff (k : Context) (va : Word) : Option Nat :=
  if k.desc.lsbase ≤ va.toNat ∧ va.toNat < k.desc.lsbase + 192 * 2 ^ 18 then some (va.toNat - k.desc.lsbase) else none

/-- Bits [63:55] equal bit 54 (R405). -/
def canonicalVa (va : Word) : Bool :=
  decide (va.toNat / 2 ^ 54 = 0) || decide (va.toNat / 2 ^ 54 = 2 ^ 10 - 1)

/-- The place of a local-store byte. -/
def localPlace (k : Context) (cl core off : Nat) (va : Word) : Place :=
  { va := va, loc := localLoc k.desc.ctxid cl core off, pa := 0, ls := some core, lt := true, cacheable := false
    cmp := false, u := true, x := false, w := true, r := true }

/-- Check 2 of R159: translation (R130, R409). -/
def State.translate (s : State) (a : Agent) (acc : Access) (va : Word) : Except Deny (Place × State) :=
  let info := acc.code + a.engineBit
  match s.ctx.windowOff va with
  | some off =>
    if s.ctx.mapped a.cl (off / 2 ^ 18) then .ok (localPlace s.ctx a.cl (off / 2 ^ 18) (off % 2 ^ 18) va, s)
    else .error ⟨.page, info + 64, va⟩
  | none =>
    if !canonicalVa va then .error ⟨.page, info + 16, va⟩
    else match s.leafFor a va with
      | (.error (.level n), _) => .error ⟨.page, info + 16 * n, va⟩
      | (.error .poisoned, _) => .error ⟨.memerr, info + 8, va⟩
      | (.ok f, s) =>
        let pa := f.pa + va.toNat % (if f.block then 2 ^ 29 else 2 ^ 16)
        match s.dev.locate pa with
        | none => .error ⟨.page, info + 48, va⟩
        | some (_, loc) =>
          if s.barredAt a pa then .error ⟨.page, info + 48, va⟩
          else .ok ({ va := va, loc := loc, pa := pa, ls := none, lt := f.lt, cacheable := f.c, cmp := f.cmp, u := f.u,
                      x := f.x, w := f.w, r := f.r }, s)

/-- First byte of the inbox (R132). -/
def inboxOff : Nat := 0x3F000

/-- Check 3 of R159: permission (R410, R132). CINV and INVROW of an inbox address in U-mode are checked as the writes that
R166 makes of them and trap PERM (log entry 53). What no core writes reaches an inbox at a gang-stop alone (R132): every other
write of an engine, the device or a host there is refused with PERM (log entry 69). -/
def permCheck (a : Agent) (acc : Access) (p : Place) : Except Deny Unit :=
  let user := decide (a.mode = .u)
  let ok := match acc with
    | .read => p.r
    | .write => p.w
    | .fetch => p.x
    | .atomic => p.w && p.r
  let inbox := p.ls.isSome && decide (inboxOff ≤ p.loc % 2 ^ 18) && (user || a.core.isNone)
    && (decide (acc = .write) || decide (acc = .atomic))
  if ok && (!user || p.u) && !inbox then .ok () else .error ⟨.perm, acc.code + a.engineBit, p.va⟩

/-- Check 4 of R159: the tag of a cached line against the attribute (R140); a line that disagrees stays until a CFLUSH
through the old attribute removes it (R420). -/
def State.tagCheck (s : State) (a : Agent) (acc : Access) (p : Place) : Except Deny Unit :=
  match lookup s.dev.held (lineOf p.loc) with
  | none => .ok ()
  | some h =>
    if p.ls.isSome || h.cmp == p.cmp then .ok ()
    else .error ⟨.memattr, acc.code + a.engineBit + 8 * oneBit h.cmp, p.va⟩

/-- The line as an access finds it: a line whose memory holds the other format reads as free bytes until it is
written (R419). `who` is the agent as a writer. -/
def State.settle (s : State) (who : Writer) (p : Place) : State :=
  let line := lineOf p.loc
  if p.ls.isNone && (lookup s.dev.held line).isNone && s.dev.packed.contains line != p.cmp then
    let bs := bytesOf 64 (s.freeNat 0 % 2 ^ 512)
    (s.drawn.mapDev fun d => { d.poke line bs with packed := setMember d.packed line p.cmp }).mapDev (·.meet line who)
  else s.mapDev (·.meet line who)

/-- Codes of LockKind (R154). -/
def LockKind.code : LockKind → Nat
  | .matrix => 0 | .copy => 1 | .row => 2 | .ired => 3 | .remote => 4 | .edge => 5

/-- The lock that an access of `n` bytes hits (R154): a destination before a source, the earliest first. -/
def lockHit (locks : List RangeLock) (va n : Nat) (write : Bool) : Option RangeLock :=
  let hits := fun l : RangeLock => decide (va < l.hi) && decide (l.lo < va + n)
  match locks.find? fun l => l.dst && hits l with
  | some l => some l
  | none => if write then locks.find? fun l => !l.dst && hits l else none

/-- Check 5 of R159: range locks (R154). -/
def rangeCheck (locks : List RangeLock) (va : Word) (n : Nat) (write : Bool) : Except Deny Unit :=
  match lockHit locks va.toNat n write with
  | none => .ok ()
  | some l => .error ⟨.range, oneBit l.dst + 2 * l.kind.code + 256 * l.core, va⟩

/-- The location lies behind a lost CXL port, a port of the fabric being one of several (R435, R456); or in the pool, of
which the homes and owners reject every request of a device that is not bound under its current incarnation (R441). -/
def Device.linkLost (d : Device) (loc : Nat) : Bool :=
  if 4 * 2 ^ 40 ≤ loc ∧ loc < 12 * 2 ^ 40 then d.lostUnits.contains (.cxlPort, loc / 2 ^ 40 - 4)
  else if 12 * 2 ^ 40 ≤ loc ∧ loc < 2 ^ 44 then
    !d.bound || d.fabricPorts.all fun p => d.lostUnits.contains (.cxlPort, p)
  else false

/-- The last port of the fabric is lost, and the pool with it (R456). -/
def Device.poolLost (d : Device) : Bool :=
  !d.fabricPorts.isEmpty && d.fabricPorts.all fun p => d.lostUnits.contains (.cxlPort, p)

/-- No access reaches a location behind a lost port, a write of a whole line neither (R435). -/
def State.linkCheck (s : State) (a : Agent) (acc : Access) (p : Place) : Except Deny Unit :=
  if s.dev.linkLost p.loc then .error ⟨.memerr, acc.code + a.engineBit, p.va⟩ else .ok ()

/-- Check 8 of R159: an uncorrectable error (R162) or a lost link (R435). -/
def State.poisonCheck (s : State) (a : Agent) (acc : Access) (p : Place) : Except Deny Unit :=
  if s.dev.poison.contains (lineOf p.loc) then .error ⟨.memerr, acc.code + a.engineBit + 8, p.va⟩
  else s.linkCheck a acc p

/-- The label word that a read of the line finds: the universal word on a page without LT (R160). -/
def State.lineWord (s : State) (p : Place) : LabelWord := if p.lt then s.dev.rawLabel (lineOf p.loc) else 0

/-- The label word that a copy of the line carries: as stored (R215, R306), or, for a page without LT, where none is
stored, ⊤ in the epoch of the engines (log entry 60). -/
def State.copyWord (s : State) (p : Place) : LabelWord :=
  if p.lt then s.dev.rawLabel (lineOf p.loc) else mkWord s.ctx.world.agentEpoch false 0

/-! ### Accesses of engines and firmware -/

/-- The line of an agent's access as it finds it. -/
def State.found (s : State) (a : Agent) (p : Place) : State := s.settle (a.writer s.ctx.desc.ctxid) p

/-- A unit that stands outside the clusters, or firmware, as an agent that translates in a cluster. -/
def engineOf (cl : Nat) (mode : Mode) : Agent := ⟨cl, mode, .device⟩

/-- Checks 2 to 4 of R159 for an engine, and the line as it is found. -/
def State.enginePlace (s : State) (a : Agent) (acc : Access) (va : Word) : Except Deny (Place × State) := do
  let (p, t) ← s.translate a acc va
  permCheck a acc p
  t.tagCheck a acc p
  .ok (p, t.found a p)

/-- A read within one line: the number, the line's label word. -/
def State.engineRead (s : State) (a : Agent) (va : Word) (n : Nat) : Except Deny (Nat × LabelWord × State) := do
  let (p, t) ← s.enginePlace a .read va
  t.poisonCheck a .read p
  .ok (t.dev.num p.loc n, t.lineWord p, t)

/-- A label word as an engine evaluates it (R206, R224). -/
def State.engineEval (s : State) (w : LabelWord) : Label := s.ctx.world.eval s.ctx.world.agentEpoch w

/-- A write by an agent that is no core: the bytes, and every cached copy dropped. -/
def State.engineBytes (s : State) (a : Agent) (p : Place) (bs : List Byte) : State :=
  s.mapDev fun d => (d.store p.loc bs (a.writer s.ctx.desc.ctxid)).dropLine (lineOf p.loc)

/-- The label word of a line after a partial write labelled ⊤ by an engine (R161). -/
def State.topPartial (s : State) (p : Place) : State :=
  if p.lt then
    let raw := s.dev.rawLabel (lineOf p.loc)
    let epoch := s.ctx.world.agentEpoch
    if lwEpoch raw = epoch then s
    else
      let h := if s.engineEval raw = topLabel then 0 else 0xFFFF
      s.mapDev (·.setRawLabel (lineOf p.loc) (mkWord epoch (lwP raw) h))
  else s

/-- A partial write labelled ⊤ within one line: status words, signals, records. -/
def State.engineWrite (s : State) (a : Agent) (va : Word) (bs : List Byte) : Except Deny State := do
  let (p, t) ← s.enginePlace a .write va
  t.poisonCheck a .write p
  .ok ((t.topPartial p).engineBytes a p bs)

/-- An access to the second tier has ended with MEMERR at one of the locations: it is counted (R458), and the range of a
direct-attached port is to leave every grant (R435). -/
def Device.cxlError (d : Device) (locs : List Nat) : Device :=
  let tier := locs.filter fun l => decide (2 ^ 42 ≤ l ∧ l < 2 ^ 44)
  let ports := (tier.filter fun l => decide (l < 12 * 2 ^ 40)).map fun l => l / 2 ^ 40 - 4
  if tier = [] then d else { d.count ctrCxlerr with cxlFailed := (ports ++ d.cxlFailed).eraseDups }

/-- An access that has ended with a cause is noted so. -/
def State.noteError (s : State) (a : Agent) (cause : Cause) (va : Word) : State :=
  if cause = .memerr then
    match s.translate a .read va with
    | .ok (p, _) => s.mapDev (·.cxlError [p.loc])
    | .error _ => s
  else s

/-- An operation that has ended with a code is noted so, for the locations that it failed at. -/
def State.noteTier (s : State) (code : Nat) (locs : List Nat) : State :=
  if code = 4 then s.mapDev (·.cxlError locs) else s

/-- A failed check of an access, counted where it is one of the second tier. -/
def State.noteDeny (s : State) (a : Agent) (d : Deny) : State := s.noteError a d.cause d.addr

/-- A status word written; a write that fails is dropped. -/
def State.statusPut (s : State) (a : Agent) (va : Word) (bs : List Byte) : State :=
  match s.engineWrite a va bs with
  | .ok t => t
  | .error d => s.noteDeny a d

/-- A status word written when its address is not 0. -/
def State.statusWrite (s : State) (a : Agent) (va : Word) (bs : List Byte) : State :=
  if va = 0 then s else s.statusPut a va bs

end Sys2Proof.Machine
end

