-- ==== Sys2Proof/Machine/Ops.lean ====
section
/-! DEFINITION. The shared operations of the instructions: registers and labels of the core that moves, traps
and the return from them, the end of an instruction and control transfers, long-latency results, and loads and
stores with the checks of R159. -/

namespace Sys2Proof.Machine

/-- How a meaning can end without its effect. -/
inductive Stop where
  | trap (t : Trap)
  /-- Stalled at issue, interlocked (R47). -/
  | stall
  /-- Stalled likewise, a part of its effect staying in the state (R257). -/
  | hold (t : State)
  | fault (f : Fault)
  | refused (r : Refusal)
  deriving DecidableEq, Repr

abbrev Result (α : Type) := Except Stop α

/-- The outcome of one instruction. -/
abbrev Out := Host.Outcome State Fault Refusal

/-! ### Registers (R39, R40, R76) -/

/-- The registers that the instruction reads: before a pair, when it stands in one (R47). -/
def State.src (s : State) : Regs := (s.core.latch.map Prod.fst).getD s.core.regs

/-- LBLCFG as the instruction reads it, likewise. -/
def State.srcCfg (s : State) : LblCfg := (s.core.latch.map Prod.snd).getD s.core.lblcfg

def State.mapRegs (s : State) (f : Regs → Regs) : State := s.mapCore fun c => { c with regs := f c.regs }

def State.rdX (s : State) (a : Nat) : Word := if a = 0 then 0 else fileGet (by decide) s.src.x a
def State.labX (s : State) (a : Nat) : LabelWord := if a = 0 then 0 else fileGet (by decide) s.src.xl a
def State.rdF (s : State) (a : Nat) : Half := fileGet (by decide) s.src.f a
def State.labF (s : State) (a : Nat) : LabelWord := fileGet (by decide) s.src.fl a
def State.rdV (s : State) (a : Nat) : VWord := fileGet (by decide) s.src.v a
def State.labV (s : State) (a : Nat) : LabelWord := fileGet (by decide) s.src.vl a
def State.rdP (s : State) (a : Nat) : Word := if a = 0 then BitVec.allOnes 64 else fileGet (by decide) s.src.p a
def State.labP (s : State) (a : Nat) : LabelWord := if a = 0 then 0 else fileGet (by decide) s.src.pl a

/-- WriteX with a label word (R76). -/
def Regs.putX (r : Regs) (d : Nat) (v : Word) (l : LabelWord) : Regs :=
  if d = 0 then r else { r with x := filePut (by decide) r.x d v, xl := filePut (by decide) r.xl d l }

def Regs.putF (r : Regs) (d : Nat) (v : Half) (l : LabelWord) : Regs :=
  { r with f := filePut (by decide) r.f d v, fl := filePut (by decide) r.fl d l }

def Regs.putV (r : Regs) (d : Nat) (v : VWord) (l : LabelWord) : Regs :=
  { r with v := filePut (by decide) r.v d v, vl := filePut (by decide) r.vl d l }

def Regs.putP (r : Regs) (d : Nat) (v : Word) (l : LabelWord) : Regs :=
  if d = 0 then r else { r with p := filePut (by decide) r.p d v, pl := filePut (by decide) r.pl d l }

def Regs.orFlags (r : Regs) (f : FFlags) : Regs := { r with fcsr := { r.fcsr with flags := r.fcsr.flags.or f } }

def State.wrX (s : State) (d : Nat) (v : Word) (l : LabelWord) : State := s.mapRegs (·.putX d v l)
def State.wrF (s : State) (d : Nat) (v : Half) (l : LabelWord) : State := s.mapRegs (·.putF d v l)
/-- A write of a vector register ends its stream (R293). -/
def State.wrV (s : State) (d : Nat) (v : VWord) (l : LabelWord) : State :=
  s.mapCore fun c => { c with regs := c.regs.putV d v l, streams := eraseAt d c.streams }
def State.wrP (s : State) (d : Nat) (v : Word) (l : LabelWord) : State := s.mapRegs (·.putP d v l)
def State.orFlags (s : State) (f : FFlags) : State := s.mapRegs (·.orFlags f)

/-! ### The word that executes (R45 to R50) -/

/-- The container of an instruction address. -/
def container (a : Word) : Word := a &&& ~~~(7 : Word)

/-- 1 for word1 of a container (EINFO[4] of R190). -/
def slotOf (a : Word) : Nat := bitsAt a 2 1

/-- The address that EPC holds for the instruction: its own, or its container's in a pair (R47). -/
def Issue.epc (i : Issue) : Word := if i.lone then i.addr else container i.addr

/-- The sequential successor (R49). -/
def Issue.successor (i : Issue) : Word :=
  if i.lone && slotOf i.addr == 0 then i.addr + 4 else container i.addr + 8

def State.trap (s : State) (c : Cause) (info : Nat) (addr : Word) : Stop :=
  .trap ⟨c, BitVec.ofNat 64 info, addr, s.core.issue.epc, false⟩

/-- ILLEGAL with a reason and the slot (R190). -/
def State.illegal (s : State) (reason : Nat) (addr : Word) : Stop :=
  s.trap .illegal (reason + 16 * slotOf s.core.issue.addr) addr

/-- The trap of a failed check. -/
def State.denied (s : State) (d : Deny) : Stop := s.trap d.cause d.info d.addr

/-- A check's outcome as the core's. -/
def State.check {α : Type} (s : State) (r : Except Deny α) : Result α :=
  match r with
  | .ok a => .ok a
  | .error d => .error (s.denied d)

def State.require (b : Bool) (e : Stop) : Result Unit := if b then .ok () else .error e

/-- The core that moves, as an agent. -/
def State.me (s : State) : Agent := ⟨s.focus.cl, s.core.status.mode, .core s.focus.core⟩

def State.myCluster (s : State) : Cluster := s.cluster s.focus.cl

/-- The name of the core that moves as a writer of memory (R137). -/
def State.meAsWriter (s : State) : Writer := .core s.ctx.desc.ctxid s.focus.cl s.focus.core

/-! ### Labels of the core (R77, R85, R209 to R211) -/

def State.labelCfg (s : State) : LabelCfg := ⟨s.core.epoch, s.srcCfg.xmax, s.srcCfg.ovf⟩

/-- A label word as this core evaluates it (R206). -/
def State.eval (s : State) (w : LabelWord) : Label := s.ctx.world.eval s.core.epoch w

/-- ⊤ in the current epoch: the word of every result labelled ⊤. -/
def State.topWord (s : State) : LabelWord := mkWord s.core.epoch false 0

def saturate16 (n : Nat) : Nat := min n 0xFFFF

/-- DROPS, LOST and SLOWS after one formation (R208 to R210). -/
def LblStat.count (t : LblStat) (dropped slow : Bool) : LblStat :=
  { drops := if dropped then saturate16 (t.drops + 1) else t.drops
    slows := if slow then saturate16 (t.slows + 1) else t.slows
    lost := t.lost || dropped }

/-- A label formed by the core (R209, R210): the fast path runs when every label involved has at most one
environment and the handle is in the label cache, of which a free value decides; handles 0 and 0xFFFF miss nothing (log
entry 11). -/
def State.formLabel (s : State) (wide : Bool) (l : Label) : Result (LabelWord × State) :=
  match s.ctx.world.form s.labelCfg l with
  | .error (.ovf n) => .error (s.trap .lblovf (min n 63) 0)
  | .error .tab => .error (s.trap .lbltab 0 0)
  | .ok (w, world, dropped) =>
    let slow := wide || decide ((minimise s.ctx.world.nogoods l).length > 1)
    let s := s.mapWorld fun _ => world
    if slow || lwHandle w == 0 || lwHandle w == 0xFFFF then
      .ok (w, s.mapCore fun c => { c with lblstat := c.lblstat.count dropped slow })
    else
      .ok (w, s.drawn.mapCore fun c => { c with lblstat := c.lblstat.count dropped (s.freeNat 0 % 2 == 1) })

/-- Conj over label words, as a label (R205). -/
def State.conjOf (s : State) (ws : List LabelWord) : Label :=
  conjAll s.ctx.world.nogoods (ws.map s.eval)

/-- Some source has more than one environment (R209). -/
def State.wideOf (s : State) (ws : List LabelWord) : Bool := ws.any fun w => decide ((s.eval w).length > 1)

/-- Lbl over register label words (R77). -/
def State.formConj (s : State) (ws : List LabelWord) : Result (LabelWord × State) :=
  s.formLabel (s.wideOf ws) (s.conjOf ws)

/-- A result written to an x register with the Conj of its sources; nothing is formed for x0 (R76, R77). -/
def State.setX (s : State) (d : Nat) (v : Word) (ws : List LabelWord) : Result State :=
  if d = 0 then .ok s
  else match s.formConj ws with
    | .error e => .error e
    | .ok (l, t) => .ok (t.wrX d v l)

def State.setF (s : State) (d : Nat) (v : Half) (ws : List LabelWord) : Result State :=
  match s.formConj ws with
  | .error e => .error e
  | .ok (l, t) => .ok (t.wrF d v l)

def State.setV (s : State) (d : Nat) (v : VWord) (ws : List LabelWord) : Result State :=
  match s.formConj ws with
  | .error e => .error e
  | .ok (l, t) => .ok (t.wrV d v l)

def State.setP (s : State) (d : Nat) (v : Word) (ws : List LabelWord) : Result State :=
  if d = 0 then .ok s
  else match s.formConj ws with
    | .error e => .error e
    | .ok (l, t) => .ok (t.wrP d v l)

/-- The Class rule (R85): with STRICT, a controlling label of class COND traps with the handles read. -/
def State.classRule (s : State) (ws : List LabelWord) : Result Unit :=
  if s.srcCfg.strict ∧ classOf s.ctx.world.nogoods (s.conjOf ws) = .cond then
    .error (s.trap .lblctl ((ws.map lwHandle).getD 0 0 + 2 ^ 16 * (ws.map lwHandle).getD 1 0) 0)
  else .ok ()

/-! ### Traps (R185 to R191) -/

def Cause.code : Cause → Nat
  | .illegal => 1 | .pair => 2 | .misalign => 3 | .page => 4 | .perm => 5 | .memerr => 6 | .memattr => 7
  | .range => 8 | .lblovf => 9 | .lbltab => 10 | .ngfull => 11 | .lblctl => 12 | .lblpage => 13 | .lblwrap => 14
  | .loopovf => 15 | .loopsusp => 16 | .edgestore => 17 | .mmalease => 18 | .catchTrap => 19 | .priv => 20 | .svc => 21

/-- An address in the code window (R185). -/
def Context.inCodeWindow (k : Context) (va : Word) : Bool := decide (va.toNat / 2 ^ 35 = k.desc.cwin / 2 ^ 35)

/-- The place that an instruction is fetched from (R131, R185). -/
def State.fetchPlace (s : State) (mode : Mode) (va : Word) : Except Deny (Place × State) :=
  if !s.ctx.inCodeWindow va || (s.ctx.windowOff va).isSome then .error ⟨.perm, 2, va⟩
  else
    let a : Agent := ⟨s.focus.cl, mode, .core s.focus.core⟩
    match s.translate a .fetch va with
    | .error d => .error d
    | .ok (p, t) =>
      match permCheck a .fetch p with
      | .error d => .error d
      | .ok () => match t.tagCheck a .fetch p with
        | .error d => .error d
        | .ok () => match t.poisonCheck a .fetch p with
          | .error d => .error d
          | .ok () => .ok (p, t)

/-- An entry of the loop stack in SLOOP form (R187). -/
def LoopEntry.pack (e : LoopEntry) : Word :=
  BitVec.ofNat 64 (e.count % 2 ^ 32 * 2 ^ 32 + ((e.stop - e.start).toNat / 8) % 2 ^ 12 * 2 ^ 20 + bitsAt e.start 3 20)

/-- SLOOP0 to SLOOP3, entry 0 outermost (R186). -/
def packLoops (loops : List LoopEntry) : Vector Word 4 :=
  tabulate 4 fun i => ((loops.reverse[i]?).map LoopEntry.pack).getD 0

/-- ECAUSE (R188). -/
def packCause (loops : List LoopEntry) (frozen : Nat) (mode : Mode) (c : Cause) : Word :=
  let shi (i : Nat) : Nat := ((loops.reverse[i]?).map fun e => bitsAt e.start 23 12).getD 0
  BitVec.ofNat 64 (c.code + oneBit (decide (mode = .s)) * 2 ^ 8 + frozen * 2 ^ 9
    + shi 0 * 2 ^ 16 + shi 1 * 2 ^ 28 + shi 2 * 2 ^ 40 + shi 3 * 2 ^ 52)

/-! ### Queues: status block and freezing (R36, R394, R402) -/

/-- The agent as which firmware, the host engine and the dispatcher reach memory, and a host's or a peer's RMA, in logical
cluster 0 (log entry 12). -/
def hostAgent : Agent := engineOf 0 .s
def rmaAgent : Agent := ⟨0, .s, .host⟩

def State.queue (s : State) (qid : Nat) : Option Queue := lookup s.ctx.queues qid
def State.mapQueue (s : State) (qid : Nat) (f : Queue → Queue) : State :=
  match s.queue qid with
  | some q => s.mapCtx fun c => { c with queues := insertAt qid (f q) c.queues }
  | none => s

/-- The status block (R394). -/
def Queue.statusBytes (q : Queue) : List Byte :=
  let st := oneBit (decide (q.state ≠ .active))
  bytesOf 8 (st + q.cause * 2 ^ 8 + min q.stale 255 * 2 ^ 16 + q.rev * 2 ^ 24) ++ bytesOf 8 q.rc.toNat
    ++ bytesOf 8 q.badwc.toNat ++ bytesOf 40 0

/-- The status block written at STATVA. -/
def State.showQueue (s : State) (qid : Nat) : State :=
  match s.queue qid with
  | some q => s.statusPut hostAgent q.statva q.statusBytes
  | none => s

/-- An active queue freezes (R36, R402). -/
def State.freezeQueue (s : State) (qid cause : Nat) : State :=
  match s.queue qid with
  | none => s
  | some q =>
    if q.state = .active then
      (s.mapQueue qid fun q => { q with state := .frozen, cause := cause, wc := q.rc }).showQueue qid
    else s

/-- A queue that is not destroyed freezes with CAUSE 1, whatever its state and cause (R423). -/
def State.freezeAnyway (s : State) (qid : Nat) : State :=
  match s.queue qid with
  | none => s
  | some q =>
    if q.state = .destroyed then s
    else (s.mapQueue qid fun q => { q with state := .frozen, cause := 1, wc := q.rc }).showQueue qid

/-- A context fault (R423): every core of the context stops, its queues freeze with CAUSE 1, the endpoint
reports. -/
def State.contextFault (s : State) (code : Nat) : State :=
  let t : State := { s with
    ctx := { s.ctx with faulted := true, stopped := true }
    dev := { s.dev.count ctrCtxflt with replies := s.dev.replies ++ [Reply.contextFault s.ctx.desc.ctxid code] } }
  (t.ctx.queues.map Prod.fst).foldl State.freezeAnyway t

/-- TrapEntry (R186) on a core, whatever stands at the trap entry; it is no transfer of control to a FENCE (log entry 87). -/
def Core.enterTrap (c : Core) (t : Trap) (entry : Word) : Core :=
  { c with
    epc := t.epc
    ecause := packCause c.loops c.frozen c.status.mode t.cause
    einfo := t.info
    eaddr := t.addr
    sloop := packLoops c.loops
    loops := []
    frozen := 0
    status := { c.status with mode := .s }
    pc := entry
    park := none
    grants := []
    stalled := false
    mfault := if t.deferred then none else c.mfault
    edge := c.edge.map fun r => { r with depth := r.depth + 1 }
    late := none
    popped := none
    poppedTrap := c.popped
    trapped := some t }

/-- The access that a trap reports is counted (R458); that of a deferred one is when the engine halts. -/
def State.noteTrap (s : State) (t : Trap) : State := if t.deferred then s else s.noteError s.me t.cause t.addr

/-- Trap entry (R186); a context fault when its first instruction cannot be fetched (R423), a fetch that is counted too. -/
def State.trapEntry (s : State) (t : Trap) : State :=
  match s.fetchPlace .s (BitVec.ofNat 64 s.ctx.desc.trapent) with
  | .error d => ((s.noteTrap t).noteDeny s.me d).contextFault d.cause.code
  | .ok (_, u) => (u.noteTrap t).mapCore fun c => c.enterTrap t (BitVec.ofNat 64 s.ctx.desc.trapent)

/-- The loop stack that ERET rebuilds (R187, R189): leading entries whose COUNT is not 0, innermost first. -/
def unpackLoops (epc ecause : Word) (sloop : Vector Word 4) : List LoopEntry :=
  let entry (i : Nat) (w : Word) : LoopEntry :=
    let start := bitsAt epc 35 20 * 2 ^ 35 + bitsAt ecause (16 + 12 * i) 12 * 2 ^ 23 + bitsAt w 0 20 * 8
    let va := wordOf (sext 55 start)
    ⟨va, va + BitVec.ofNat 64 (8 * bitsAt w 20 12), bitsAt w 32 32⟩
  let live := sloop.toList.takeWhile fun w => decide (bitsAt w 32 32 ≠ 0)
  (live.mapIdx fun i w => entry i w).reverse

/-- The end of a meaning. -/
def commit (s : State) (r : Result State) : Out :=
  match r with
  | .ok t => .next t
  | .error (.trap t) => .next (s.trapEntry t)
  | .error .stall => .next (s.mapCore fun c => { c with stalled := true })
  | .error (.hold t) => .next (t.mapCore fun c => { c with stalled := true })
  | .error (.fault f) => .fault f
  | .error (.refused r) => .refused r

/-! ### End of an instruction, loops, transfers (R26 to R28, R47 to R49, R93, R464) -/

/-- End-of-body processing (R27): what remains of the unfrozen entries (innermost first), and the start address
when an entry decides the next fetch. -/
def endOfBody (here : Word) : List LoopEntry → List LoopEntry × Option Word
  | [] => ([], none)
  | e :: t =>
    if e.stop ≠ here then (e :: t, none)
    else if e.count > 1 then ({ e with count := e.count - 1 } :: t, some e.start)
    else endOfBody here t

/-- The core after the last instruction of a container with no taken transfer. -/
def Core.passContainer (c : Core) (here : Word) : Core :=
  let live := c.loops.take (c.loops.length - c.frozen)
  let kept := c.loops.drop (c.loops.length - c.frozen)
  let (rest, next) := endOfBody here live
  { c with loops := rest ++ kept, pc := next.getD (here + 8) }

/-- The end of an instruction: the pc, and at the end of its container the loops (R27, R49). After a branch from word0 of a
lone container to its own word1 the loops are handled when word1 ends (log entry 85). -/
def Core.complete (c : Core) : Core :=
  if slotOf c.issue.addr = 0 then
    if c.issue.lone then { c with pc := c.issue.addr + 4, grants := [], stalled := false } else c
  else
    let c := { c with grants := [], stalled := false }
    if c.issue.taken then c else c.passContainer (container c.issue.addr)

def State.complete (s : State) : State := s.mapCore Core.complete

/-- Entries left when control goes to `t` (R28). -/
def popOutside (t : Word) : List LoopEntry → List LoopEntry
  | [] => []
  | e :: rest => if e.start.toNat ≤ t.toNat ∧ t.toNat < e.stop.toNat + 8 then e :: rest else popOutside t rest

/-- A taken transfer that pops no entry: JL and JLR (R28); fetches now see what the latest FENCE ordered
(R137; log entry 87), and a container begins anew (R293). -/
def Core.jump (c : Core) (t : Word) : Core :=
  { c with pc := t, issue := { c.issue with taken := true }, fetchSync := c.fenced, popped := none, stalled := false }

/-- A taken transfer: J, JR and branches (R28). -/
def Core.transfer (c : Core) (t : Word) : Core :=
  let live := c.loops.take (c.loops.length - c.frozen)
  let kept := c.loops.drop (c.loops.length - c.frozen)
  { c.jump t with loops := popOutside t live ++ kept }

/-- A LOOP or LOOPI that skips its body, whose last container is `e` (R464). -/
def Core.skipBody (c : Core) (e : Word) : Core :=
  match c.loops.take (c.loops.length - c.frozen) with
  | top :: _ => if top.stop = e then (c.jump (e + 8)).passContainer e else c.transfer (e + 8)
  | [] => c.transfer (e + 8)

/-! ### Long-latency results (R51 to R53, R101) -/

/-- A result written. -/
def Regs.land (r : Regs) (p : Pending) : Regs :=
  let r := match p.reg with
    | .x n => r.putX n (p.value.truncate 64) p.lbl
    | .f n => r.putF n (p.value.truncate 32) p.lbl
    | .v n => r.putV n p.value p.lbl
    | .p n => r.putP n (p.value.truncate 64) p.lbl
  r.orFlags p.flags

/-- Every outstanding result returns, oldest first (R51). -/
def Core.drain (c : Core) : Core := { c with regs := c.pending.foldl Regs.land c.regs, pending := [] }

/-- The result number `i` returns. -/
def Core.returnOne (c : Core) (i : Nat) : Core :=
  match c.pending[i]? with
  | some p => { c with regs := c.regs.land p, pending := c.pending.eraseIdx i }
  | none => c

/-- A result that stays outstanding; nothing for x0 (R52, R160). -/
def State.later (s : State) (p : Pending) : State :=
  if p.reg = .x 0 then s
  else s.mapCore fun c =>
    { c with
      pending := c.pending ++ [p]
      streams := match p.reg with
        | .v n => eraseAt n c.streams
        | .x _ => c.streams
        | .f _ => c.streams
        | .p _ => c.streams }

def State.drain (s : State) : State := s.mapCore Core.drain

/-- The core waits (R25) at the instruction, which issues again when the park ends. -/
def State.parkAt (s : State) (p : Park) : State := s.mapCore fun c => { c with park := some p, stalled := false }

/-- A core's park ends; `v` is what its instruction finds when its container issues again. -/
def Core.wake (c : Core) (v : Word) : Core :=
  { c with park := none, grants := insertAt (slotOf c.issue.addr) v c.grants, stalled := false }

/-- What the end of the instruction's park handed over, once it has ended. -/
def State.grantValue (s : State) : Option Word := lookup s.core.grants (slotOf s.core.issue.addr)

/-! ### Loads and stores (R159 to R165) -/

/-- The addresses translated, in order. -/
def State.translateAll (s : State) (a : Agent) (acc : Access) : List Word → Except Deny (List Place × State)
  | [] => .ok ([], s)
  | va :: vas =>
    match s.translate a acc va with
    | .error d => .error d
    | .ok (p, t) =>
      match t.translateAll a acc vas with
      | .error d => .error d
      | .ok (ps, u) => .ok (p :: ps, u)

def permAll (a : Agent) (acc : Access) : List Place → Except Deny Unit
  | [] => .ok ()
  | p :: ps =>
    match permCheck a acc p with
    | .error d => .error d
    | .ok () => permAll a acc ps

def State.tagAll (s : State) (a : Agent) (acc : Access) : List Place → Except Deny Unit
  | [] => .ok ()
  | p :: ps =>
    match s.tagCheck a acc p with
    | .error d => .error d
    | .ok () => s.tagAll a acc ps

def rangeAll (locks : List RangeLock) (n : Nat) (write : Bool) : List Place → Except Deny Unit
  | [] => .ok ()
  | p :: ps =>
    match rangeCheck locks p.va n write with
    | .error d => .error d
    | .ok () => rangeAll locks n write ps

def State.poisonAll (s : State) (a : Agent) (acc : Access) : List Place → Except Deny Unit
  | [] => .ok ()
  | p :: ps =>
    match s.poisonCheck a acc p with
    | .error d => .error d
    | .ok () => s.poisonAll a acc ps

/-- Check 1 over the elements (R159). -/
def alignAll (acc : Access) (align : Nat) (vas : List Word) : Except Deny Unit :=
  match vas.find? fun va => decide (va.toNat % align ≠ 0) with
  | none => .ok ()
  | some va => .error ⟨.misalign, acc.code, va⟩

def Access.writes : Access → Bool
  | .read => false | .write => true | .fetch => false | .atomic => true

/-- Nothing is made of bytes read from an owned line of the pool at which a write waits: the turn is put off (R440). -/
def State.inHand (s : State) : Result Unit := if s.dev.awaited = [] then .ok () else .error (.hold s)

/-- Checks 1 to 5 of R159 over the elements of an access of `n` bytes each, then the lines as they are found. -/
def State.resolve (s : State) (acc : Access) (n align : Nat) (vas : List Word) : Result (List Place × State) := do
  s.check (alignAll acc align vas)
  let (ps, t) ← s.check (s.translateAll s.me acc vas)
  s.check (permAll s.me acc ps)
  s.check (t.tagAll s.me acc ps)
  s.check (rangeAll s.myCluster.locks n acc.writes ps)
  .ok (ps, ps.foldl (·.found s.me ·) t)

/-- What the owner of a leased line answers to a read miss (R438): a lease with T_exp of its own clock, or, where its servo
is not LOCKED, none; a free value says which, as the owner's state is another device's (log entry 45). -/
def State.ownerGrant (s : State) : Option Nat := if s.freeNat 0 % 2 = 0 then some (s.freeNat 0 / 2) else none

/-- The caches give up a line, a dirty one being written back (R152). -/
def Device.evict (d : Device) (line : Nat) : Device := d.dropLine line

/-- Some TLB holds a translation of the line with the other attribute: accesses that meet the line trap, until a CFLUSH through
the old attribute removes it (R420). -/
def State.disagrees (s : State) (line : Nat) (h : Held) : Bool :=
  let pa := paOfLoc s.dev.rb line
  (s.ctx :: s.others).any fun k => k.clusters.any fun c => c.2.tlb.any fun e =>
    e.2.cmp != h.cmp && decide (e.2.pa ≤ pa ∧ pa < e.2.pa + (if e.2.block then 2 ^ 29 else 2 ^ 16))

/-- Room for one line more: full caches give up a line that a free value names (R2; log entry 68), of those whose format no
translation in use disagrees with (R420). -/
def State.makeRoom (s : State) : State :=
  if s.dev.held.length < Config.cacheLines then s
  else
    let lines := s.dev.held.filter fun e => !s.disagrees e.1 e.2
    match lines[s.freeNat 0 % lines.length]? with
    | none => s
    | some e => s.drawn.mapDev (·.evict e.1)

/-- Which of the lines the caches have given up since: any that are held in the format of their page, as a free value says
(R152, R303; log entry 68); one that disagrees stays until a CFLUSH (R420). -/
def State.evictSome (s : State) (lines : List (Nat × Bool)) : State :=
  let held := (lines.filter fun l => (lookup s.dev.held l.1).any fun h => h.cmp == l.2).map Prod.fst
  if held.isEmpty then s
  else s.drawn.mapDev (((held.eraseDups).filter fun l => s.freeNat (l / 64) % 2 == 1).foldl Device.evict ·)

/-- A cacheable line that is read is held afterwards (R135, R140); one leased from another device while its lease
serves (R438, R439). -/
def State.cacheLine (s : State) (p : Place) : State :=
  match s.dev.leasedAway p.loc with
  | some r =>
    if p.cacheable ∧ !s.dev.leaseServes (lineOf p.loc) r then
      s.makeRoom.drawn.mapDev (·.leaseLine (lineOf p.loc) r p.cmp s.makeRoom.ownerGrant)
    else s
  | none =>
    if p.cacheable ∧ (lookup s.dev.held (lineOf p.loc)).isNone then
      s.makeRoom.mapDev fun d => { d with held := insertAt (lineOf p.loc) ⟨p.cmp, []⟩ d.held }
    else s

/-- Bytes read, with the line's label word (R160). -/
def State.readPlace (s : State) (p : Place) (n : Nat) : Nat × LabelWord × State :=
  (s.dev.num p.loc n, s.lineWord p, s.cacheLine p)

/-- A core's write of bytes, or of the label word, at a place: the contents that memory may still hold are kept
when the line is cached (R152); a write to a leased line drops the copy and is performed at its owner (R438). -/
def State.beforeWrite (s : State) (p : Place) : State :=
  if p.cacheable ∧ (s.dev.leasedAway p.loc).isNone then
    (if (lookup s.dev.held (lineOf p.loc)).isSome then s else s.makeRoom).mapDev (·.dirtyLine (lineOf p.loc) p.cmp)
  else s.mapDev (·.dropLine (lineOf p.loc))

/-- The label word of a line after a partial write (R161), formed by a core; `nl` is the write label after the
limit of R210. -/
def State.partialWord (s : State) (p : Place) (nl : Label) : Result (LabelWord × State) :=
  let raw := s.dev.rawLabel (lineOf p.loc)
  let old := s.eval raw
  let lbl := conj s.ctx.world.nogoods old nl
  if lbl = old ∧ lwEpoch raw = s.core.epoch then .ok (raw, s)
  else match s.formLabel (decide (old.length > 1) || decide (nl.length > 1)) lbl with
    | .error e => .error e
    | .ok (w, t) => .ok (mkWord s.core.epoch (lwP raw || decide (nl ≠ topLabel)) (lwHandle w), t)

/-- The write label of a store (R161), formed from label words: its word, for LBLPAGE, and the label (check 6 of R159). -/
def State.writeLabel (s : State) (ws : List LabelWord) : Result (LabelWord × Label × State) :=
  match s.formConj ws with
  | .error e => .error e
  | .ok (w, t) => .ok (w, t.eval w, t)

/-- Check 7 of R159: LBLPAGE with the handle of the write label for a page without LT (R141). -/
def State.pageLabelCheck (s : State) (nl : Label) (handle : Nat) : List Place → Result Unit
  | [] => .ok ()
  | p :: ps =>
    if nl ≠ topLabel ∧ !p.lt then .error (s.trap .lblpage handle p.va) else s.pageLabelCheck nl handle ps

/-- The label word of the line set by a partial write. -/
def State.putPartialLabel (s : State) (p : Place) (nl : Label) : Result State :=
  if p.lt then
    match s.partialWord p nl with
    | .error e => .error e
    | .ok (w, t) => .ok (t.mapDev (·.setRawLabel (lineOf p.loc) w))
  else .ok s

/-- Check 6 over the places: the labels formed in order, on a trial state. -/
def State.trialLabels (s : State) (nl : Label) : List Place → Result Unit
  | [] => .ok ()
  | p :: ps =>
    match s.putPartialLabel p nl with
    | .error e => .error e
    | .ok t => t.trialLabels nl ps

/-- Partial writes at the places, in order (R161, R165). -/
def State.writeEach (s : State) (nl : Label) : List (Place × List Byte) → Result State
  | [] => .ok s
  | (p, bs) :: rest =>
    match (s.beforeWrite p).putPartialLabel p nl with
    | .error e => .error e
    | .ok t => (t.mapDev (·.store p.loc bs s.meAsWriter)).writeEach nl rest

/-- Partial stores of the elements (checks 1 to 8 of R159, then R161). -/
def State.storeAll (s : State) (ws : List LabelWord) (n align : Nat) (els : List (Word × List Byte)) :
    Result State := do
  let (ps, t) ← s.resolve .write n align (els.map Prod.fst)
  let (w, nl, t) ← t.writeLabel ws
  t.trialLabels nl ps
  t.pageLabelCheck nl (lwHandle w) ps
  s.check (t.poisonAll s.me .write ps)
  t.writeEach nl (ps.zip (els.map Prod.snd))

/-- A full-line store (R164): the label word from the write alone, poison cleared (R162). -/
def State.storeLine (s : State) (ws : List LabelWord) (va : Word) (v : VWord) : Result State := do
  let (ps, t) ← s.resolve .write 64 64 [va]
  let (w, t) ← t.formConj ws
  t.pageLabelCheck (t.eval w) (lwHandle w) ps
  let p ← (match ps with
    | p :: _ => .ok p
    | [] => .error .stall)
  s.check (t.linkCheck s.me .write p)
  let t := t.beforeWrite p
  let t := if p.lt then t.mapDev (·.setRawLabel (lineOf p.loc) w) else t
  let t := t.mapDev (·.store p.loc (bytesOf 64 v.toNat) s.meAsWriter)
  .ok (t.mapDev fun d => { d with poison := setMember d.poison (lineOf p.loc) false })

/-- The elements read, with every line's label word (R160); checks 1 to 5 and 8 of R159. -/
def State.loadAll (s : State) (n align : Nat) (vas : List Word) : Result (List (Nat × LabelWord) × State) := do
  let (ps, t) ← s.resolve .read n align vas
  s.check (t.poisonAll s.me .read ps)
  .ok (ps.map (fun p => (t.dev.num p.loc n, t.lineWord p)), ps.foldl State.cacheLine t)

/-- One aligned element read. -/
def State.loadOne (s : State) (n : Nat) (va : Word) : Result (Nat × LabelWord × State) :=
  match s.loadAll n n [va] with
  | .ok ([(v, l)], t) => .ok (v, l, t)
  | .ok _ => .error .stall
  | .error e => .error e

end Sys2Proof.Machine
end

