-- ==== Sys2Proof/Machine/FetchWord.lean ====
section
/-! DEFINITION. A context in which one given instruction word is the next to issue: what firmware, the host and the
dispatcher do before a record's first instruction (R16, R185, R404, R421), done at once (log entry 8). -/

namespace Sys2Proof.Machine

/-- The context of a placed word: one cluster, code window 0x8_0000_0000, local-store window
0x4000_0000_0000, page tables at PA 0x100_0000_0000 of the row region. -/
def placedDesc : CtxDesc :=
  { CtxDesc.zero with
    ctxid := 1, part := [0], tx := 1, ty := 1, tz := 1, cwin := 0x800000000, trapent := 0x800010000
    lsbase := 0x400000000000, troot := 0x11000000000, grant := 0x11000100000, world := 0x11060000000, save := 0x11040000000
    stages := [((0, 0), BitVec.allOnes 192)] }

/-- Where the placed container lies: its VA, and the location of its page. -/
def placedVa : Word := 0x800000000
def placedLoc : Nat := 0x1000200000

/-- The bytes of the page tables: one page for code at 0x8_0000_0000 (R, W, X, U, C) and one for the trap entry,
in a granted unit of 2 MiB. -/
def placedTables (d : Device) : Device :=
  let pte (pa attrs : Nat) : List Byte := bytesOf 8 (pa + attrs)
  let d := d.poke (0x1000000000 + 8 * 0) (pte 0x11000010000 1)
  let d := d.poke (0x1000010000 + 8 * 64) (pte 0x11000020000 1)
  let d := d.poke (0x1000020000 + 8 * 0) (pte 0x11000200000 0x3E2)
  let d := d.poke (0x1000020000 + 8 * 1) (pte 0x11000210000 0x3E2)
  -- grant bits of PA 0x110_0000_0000 and of the next unit
  d.poke (0x1000100000 + 0x11000000000 / 2 ^ 21 / 8) [3]

/-- The word as word0 of a lone container when its bit 31 is set, else as word1 behind a NOP (R45, R76). -/
def State.placeWord (s : State) (w : Nat) : State :=
  let first := w / 2 ^ 31 % 2 = 1
  let bytes := if first then bytesOf 4 w ++ bytesOf 4 0x23000000 else bytesOf 4 0xA3000000 ++ bytesOf 4 w
  let d := placedTables { s.dev with rb := 128 }
  { s with
    agenda := []
    ctx := { s.ctx with
      desc := placedDesc, stopped := false, images := []
      clusters := modifyAt Cluster.reset 0 (fun k => { k with tlb := [], first := [], walks := [] }) s.ctx.clusters }
    focus := ⟨0, 0⟩
    dev := { d.poke placedLoc bytes with
      stroke := BitVec.ofNat 64 (s.dev.cycle.toNat / Config.stroke), down := false, currentStall := false, awaited := [] }
    core := { s.core with
      pc := if first then placedVa else placedVa + 4
      record := some 0, park := none, grants := [], stalled := false, upcalls := [] } }

end Sys2Proof.Machine
end

