-- ==== Sys2Proof/Machine/Operands.lean ====
section
/-! DEFINITION. Operand forms: which registers each instruction reads and writes, for hazards (R52), streams
(R293) and the pairing rule (R50); offsets and branch targets (R55); scalars of the vector forms (R116, R127). -/

namespace Sys2Proof.Machine

/-- A register group (R55). -/
def xGroup (a n : Nat) : List Reg := (List.range n).map fun i => .x (a + i)

/-- The governing predicate when it counts (R117). -/
def predSrc (pg : Nat) : List Reg := if pg = 0 then [] else [.p pg]

/-- The scalar of VBCAST and VINS: an x register for an integer type, an f register for a float type (R127). -/
def scalarReg (t : ElemTy) (a : Nat) : Reg := if t.isInt then .x a else .f a

/-- K of a shape (R246). -/
def shapeK (l : MmaLimits) (shape : Nat) : Nat := l.kmin * 2 ^ (shape % 8)

/-- The x registers of an MMA form and its scale registers (R66, R252). -/
def mmaSrc (z : Bool) (a b : Nat) : List Reg := xGroup a (if z then 3 else 2) ++ xGroup b 2
def scaleSrc (l : MmaLimits) (shape vs : Nat) : List Reg := (List.range (shapeK l shape / 32)).map fun i => .v (vs + i)

/-- The registers that the instruction reads as sources while results may be outstanding. A merging form and VINS keep lanes of
their destination and read none of it (R117, R127), so that they pop no strip of it (R293); VFMA and VFMS accumulate into
it, and VPERM takes its second source from it (R121). EDGERET and the suspension points
read theirs once nothing is (R341, R344); HPREF, which changes no register and never faults, counts as no reader of its
address register (R68; log entry 55). -/
def sources : Instr → List Reg
  | .j _ | .jl _ | .loopi _ _ | .fencesc | .join | .yield | .wreset | .soff _ | .crr _ _ | .svc _ | .eret | .upret
  | .feat _ _ | .edgeret _ | .edgeskip | .edgedone | .upi _ _ | .aupc _ _ | .waitc _ _ | .catchq _ _ | .fence _ _ | .macq _ | .mrel
  | .mzero _ | .msync | .hpref _ _ _ | .finish _ | .suspk _ _ _ | .suspt _ => []
  | .beq a b _ | .bne a b _ | .blt a b _ | .bge a b _ | .bltu a b _ | .bgeu a b _ => [.x a, .x b]
  | .jlr _ a _ | .jr a _ | .loop a _ => [.x a]
  | .lb _ a _ | .lbu _ a _ | .lh _ a _ | .lhu _ a _ | .lw _ a _ | .lwu _ a _ | .ld _ a _ | .flw _ a _ => [.x a]
  | .sb d a _ | .sh d a _ | .sw d a _ | .sd d a _ => [.x d, .x a]
  | .fsw d a _ => [.f d, .x a]
  | .vld _ a _ => [.x a]
  | .vst d a _ => [.v d, .x a]
  | .vlds _ a b pg => [.x a, .x b] ++ predSrc pg
  | .vsts d a b pg => [.v d, .x a, .x b] ++ predSrc pg
  | .vldx _ a b pg => [.x a, .v b] ++ predSrc pg
  | .vstx d a b pg => [.v d, .x a, .v b] ++ predSrc pg
  | .amo _ _ _ _ d a => [.x d, .x a]
  | .cas _ _ _ d a => [.x d, .x (d + 1), .x a]
  | .famo _ _ _ d a | .csum _ _ d a => [.f d, .x a]
  | .cwb a | .cinv a | .cflush a | .wbrow a | .invrow a => [.x a]
  | .arrive _ a | .waitk _ a | .krd _ _ a | .kadd _ a => [.x a]
  | .waitt a b | .spawn a b => [.x a, .x b]
  | .assume _ a b | .lblset _ a b | .ljoin _ a b | .lenv _ a b => [.x a, .x b]
  | .assumev _ a b => [.v a, .x b]
  | .lblof _ a | .ltest _ a | .lld _ a => [.x a]
  | .contra a => [.x a]
  | .contrav a => [.v a]
  | .lst d a => [.x d, .x a]
  | .jsub _ a | .jpoll _ a | .jcancel _ a => [.x a]
  | .get _ a | .getx _ a | .send _ a | .sendx _ a | .smode _ a => xGroup a 4
  | .rcopy _ a | .rfill _ a => xGroup a 3
  | .rbool op _ a =>
    match op with
    | .not1 => [.x a, .x (a + 1), .x (a + 4)]
    | .maj3 => xGroup a 5
    | .and2 | .or2 | .xor2 | .nand2 | .nor2 | .xnor2 => [.x a, .x (a + 1), .x (a + 2), .x (a + 4)]
  | .rpromo _ _ a | .rdemo _ a => xGroup a 2
  | .ired _ _ a | .edgerun _ a => [.x a]
  | .crw _ a | .crs _ _ a | .crc _ _ a | .invpg a | .dtld _ a => [.x a]
  | .add _ a b | .sub _ a b | .and _ a b | .or _ a b | .xor _ a b | .shl _ a b | .shr _ a b | .sra _ a b
  | .slt _ a b | .sltu _ a b | .min _ a b | .max _ a b | .minu _ a b | .maxu _ a b | .mul _ a b | .mulh _ a b
  | .mulhu _ a b | .div _ a b | .divu _ a b | .rem _ a b | .remu _ a b => [.x a, .x b]
  | .clz _ a | .popc _ a | .addi _ a _ | .andi _ a _ | .ori _ a _ | .xori _ a _ | .slti _ a _ | .sltiu _ a _
  | .shli _ a _ | .shri _ a _ | .srai _ a _ => [.x a]
  | .fadd _ _ a b | .fsub _ _ a b | .fmul _ _ a b | .fdiv _ _ a b | .fmin _ a b | .fmax _ a b | .fcmp _ _ a b =>
    [.f a, .f b]
  | .ffma _ d a b => [.f d, .f a, .f b]
  | .fsqrt _ _ a | .fcvtfi _ _ _ a | .fmvxf _ a | .fclass _ a => [.f a]
  | .fcvtif _ _ _ a | .fmvfx _ a => [.x a]
  | .vadd _ _ a b pg | .vsub _ _ a b pg | .vmul _ _ a b pg | .vmin _ _ a b pg | .vmax _ _ a b pg
  | .vand _ _ a b pg | .vor _ _ a b pg | .vxor _ _ a b pg | .vshl _ _ a b pg | .vshr _ _ a b pg
  | .vsra _ _ a b pg | .vscale _ _ a b pg => [.v a, .v b] ++ predSrc pg
  | .vfma _ d a b pg | .vfms _ d a b pg | .vperm _ d a b pg => [.v d, .v a, .v b] ++ predSrc pg
  | .vabs _ _ a pg | .vneg _ _ a pg | .vcvt _ _ _ a pg | .venc _ _ _ _ a pg | .vdec _ _ _ a pg | .vexp2 _ _ a pg
  | .vrcp _ _ a pg | .vrsq _ _ a pg | .vmov _ _ a pg => [.v a] ++ predSrc pg
  | .vsel _ _ a b pg | .vcmp _ _ _ a b pg => [.v a, .v b] ++ predSrc pg
  | .vreds _ _ a pg | .vredm _ _ a pg => [.v a] ++ predSrc pg
  | .vbcast t _ a pg => [scalarReg t a] ++ predSrc pg
  | .vins t _ a b => [scalarReg t a, .x b]
  | .vext _ _ a b => [.v a, .x b]
  | .pset _ _ a => [.x a]
  | .plog _ _ a b => [.p a, .p b]
  | .mmabb _ _ z a b | .mmahh _ _ z a b | .mmaii _ _ z a b => mmaSrc z a b
  | .mmaee s _ z a b vs => mmaSrc z a b ++ scaleSrc mmaEE s vs
  | .mmaef s _ z a b vs => mmaSrc z a b ++ scaleSrc mmaEF s vs
  | .mmaff s _ z a b vs => mmaSrc z a b ++ scaleSrc mmaFF s vs
  | .mlda _ a | .msta _ a => xGroup a 2
  | .mskld _ a b => [.x a, .x b]
  | .longLatencyResultReturn _ _ _ | .dispatch _ _ | .recordAging _ _ | .gangReserve _ _ | .gangwaitExpiry _ _
  | .recordWake _ _ | .coreParkWake _ _ | .fencescTickEnd _ _ | .strokeTick | .upcallDelivery _ _
  | .contraRetire _ _ | .wresetRetire _ _ | .leaseGrant _ _ | .matrixCommandComplete _ _ | .matrixHalt _ _
  | .jobStart _ _ | .jobComplete _ _ _ | .jobFault _ _ _ | .transformTimeout _ _ _ | .faultRecordPoll _
  | .streamStripFetch _ _ _ | .remoteLand _ _ _ _ _ | .remoteFailure _ _ _ | .rowOpExecute _ _
  | .rpromoComplete _ _ | .rdemoComplete _ _ | .iredExecute _ _ | .edgeRunStart _ | .superstep _
  | .edgeInvocation _ _ | .edgeRunFault _ | .pageWalkComplete _ _ | .shootdownService | .unloadFree _ | .gangStop
  | .contextRestore _ _ _ | .contextCreate _ | .contextDestroy _ | .deviceFault | .queueCreate _ | .doorbell _
  | .rmaWrite _ _ _ | .rmaRead _ _ _ | .packetDependencyMet _ _ | .launch _ _ | .copyin _ _ | .copyout _ _
  | .signal _ _ | .wait _ _ | .barrier _ _ | .load _ _ | .unload _ _ | .qreset _ _ | .ptpSync _ _ _ | .ptpSyncLoss
  | .poolReadMiss _ _ _ | .poolLeaseExpiry _ | .poolWriteApply _ | .backInvalidate _ | .fabricBind _ _
  | .powerOnReset _ _ | .firmwareFetchRetry _ | .firmwareFetch _ | .statusRequest | .routineLoad _ _ _
  | .attestationRequest _ | .svnRaise _ | .healthRequest | .telemetryRequest | .powerCapSet _ | .currentLimit
  | .thermalThrottle _ | .thermalTrip _ | .unitLoss _ _ | .currentFallsBelowLimit | .throttleLevelChange _
  | .copyPacketComplete _ _ _ _ => []

/-- The registers that the instruction writes. -/
def dests : Instr → List Reg
  | .jl _ => [.x 1]
  | .jlr d _ _ => [.x d]
  | .lb d _ _ | .lbu d _ _ | .lh d _ _ | .lhu d _ _ | .lw d _ _ | .lwu d _ _ | .ld d _ _ => [.x d]
  | .flw d _ _ => [.f d]
  | .vld d _ _ | .vlds d _ _ _ | .vldx d _ _ _ => [.v d]
  | .amo _ _ _ _ d _ | .cas _ _ _ d _ => [.x d]
  | .famo _ _ _ d _ | .csum _ _ d _ => [.f d]
  | .waitc d _ | .catchq d _ | .krd d _ _ => [.x d]
  | .assume d _ _ | .lblof d _ | .lblset d _ _ | .ltest d _ | .lenv d _ _ | .lld d _ => [.x d]
  | .ljoin d _ _ => [.x d, .p 7]
  | .assumev d _ _ => [.v d]
  | .jsub d _ => [.x d, .x (d + 1)]
  | .jpoll d _ | .jcancel d _ => [.x d]
  | .crr d _ | .crs d _ _ | .crc d _ _ | .feat d _ | .upi d _ | .aupc d _ => [.x d]
  | .add d _ _ | .sub d _ _ | .and d _ _ | .or d _ _ | .xor d _ _ | .shl d _ _ | .shr d _ _ | .sra d _ _
  | .slt d _ _ | .sltu d _ _ | .min d _ _ | .max d _ _ | .minu d _ _ | .maxu d _ _ | .mul d _ _ | .mulh d _ _
  | .mulhu d _ _ | .div d _ _ | .divu d _ _ | .rem d _ _ | .remu d _ _ => [.x d]
  | .clz d _ | .popc d _ | .addi d _ _ | .andi d _ _ | .ori d _ _ | .xori d _ _ | .slti d _ _ | .sltiu d _ _
  | .shli d _ _ | .shri d _ _ | .srai d _ _ => [.x d]
  | .fadd _ d _ _ | .fsub _ d _ _ | .fmul _ d _ _ | .fdiv _ d _ _ | .ffma _ d _ _ | .fmin d _ _ | .fmax d _ _ => [.f d]
  | .fcmp _ d _ _ | .fcvtfi _ _ d _ | .fmvxf d _ | .fclass d _ => [.x d]
  | .fsqrt _ d _ | .fcvtif _ _ d _ | .fmvfx d _ => [.f d]
  | .vadd _ d _ _ _ | .vsub _ d _ _ _ | .vmul _ d _ _ _ | .vfma _ d _ _ _ | .vfms _ d _ _ _ | .vmin _ d _ _ _
  | .vmax _ d _ _ _ | .vand _ d _ _ _ | .vor _ d _ _ _ | .vxor _ d _ _ _ | .vshl _ d _ _ _ | .vshr _ d _ _ _
  | .vsra _ d _ _ _ | .vsel _ d _ _ _ | .vscale _ d _ _ _ | .vperm _ d _ _ _ => [.v d]
  | .vabs _ d _ _ | .vneg _ d _ _ | .vcvt _ _ d _ _ | .venc _ _ _ d _ _ | .vdec _ _ d _ _ | .vreds _ d _ _
  | .vredm _ d _ _ | .vexp2 _ d _ _ | .vrcp _ d _ _ | .vrsq _ d _ _ | .vmov _ d _ _ | .vbcast _ d _ _ => [.v d]
  | .vins _ d _ _ => [.v d]
  | .vcmp _ _ p _ _ _ | .pset _ p _ => [.p p]
  | .plog _ d _ _ => [.p d]
  | .vext t d _ _ => [scalarReg t d]
  | .mskld d _ _ => [.x d]
  | .j _ | .beq _ _ _ | .bne _ _ _ | .blt _ _ _ | .bge _ _ _ | .bltu _ _ _ | .bgeu _ _ _ | .jr _ _ | .loop _ _
  | .loopi _ _ | .sb _ _ _ | .sh _ _ _ | .sw _ _ _ | .sd _ _ _ | .fsw _ _ _ | .vst _ _ _ | .vsts _ _ _ _
  | .vstx _ _ _ _ | .cwb _ | .cinv _ | .cflush _ | .wbrow _ | .invrow _ | .fence _ _ | .fencesc | .arrive _ _
  | .waitk _ _ | .waitt _ _ | .kadd _ _ | .spawn _ _ | .join | .finish _ | .suspk _ _ _ | .suspt _ | .yield
  | .contra _ | .contrav _ | .wreset | .lst _ _ | .get _ _ | .getx _ _ | .send _ _ | .sendx _ _ | .smode _ _
  | .soff _ | .rcopy _ _ | .rfill _ _ | .rbool _ _ _ | .rpromo _ _ _ | .rdemo _ _ | .ired _ _ _ | .edgerun _ _
  | .crw _ _ | .svc _ | .eret | .upret | .invpg _ | .dtld _ _ | .edgeret _ | .edgeskip | .edgedone
  | .mmabb _ _ _ _ _ | .mmahh _ _ _ _ _ | .mmaee _ _ _ _ _ _ | .mmaef _ _ _ _ _ _ | .mmaff _ _ _ _ _ _
  | .mmaii _ _ _ _ _ | .macq _ | .mrel | .mzero _ | .mlda _ _ | .msta _ _ | .msync | .hpref _ _ _ => []
  | .longLatencyResultReturn _ _ _ | .dispatch _ _ | .recordAging _ _ | .gangReserve _ _ | .gangwaitExpiry _ _
  | .recordWake _ _ | .coreParkWake _ _ | .fencescTickEnd _ _ | .strokeTick | .upcallDelivery _ _
  | .contraRetire _ _ | .wresetRetire _ _ | .leaseGrant _ _ | .matrixCommandComplete _ _ | .matrixHalt _ _
  | .jobStart _ _ | .jobComplete _ _ _ | .jobFault _ _ _ | .transformTimeout _ _ _ | .faultRecordPoll _
  | .streamStripFetch _ _ _ | .remoteLand _ _ _ _ _ | .remoteFailure _ _ _ | .rowOpExecute _ _
  | .rpromoComplete _ _ | .rdemoComplete _ _ | .iredExecute _ _ | .edgeRunStart _ | .superstep _
  | .edgeInvocation _ _ | .edgeRunFault _ | .pageWalkComplete _ _ | .shootdownService | .unloadFree _ | .gangStop
  | .contextRestore _ _ _ | .contextCreate _ | .contextDestroy _ | .deviceFault | .queueCreate _ | .doorbell _
  | .rmaWrite _ _ _ | .rmaRead _ _ _ | .packetDependencyMet _ _ | .launch _ _ | .copyin _ _ | .copyout _ _
  | .signal _ _ | .wait _ _ | .barrier _ _ | .load _ _ | .unload _ _ | .qreset _ _ | .ptpSync _ _ _ | .ptpSyncLoss
  | .poolReadMiss _ _ _ | .poolLeaseExpiry _ | .poolWriteApply _ | .backInvalidate _ | .fabricBind _ _
  | .powerOnReset _ _ | .firmwareFetchRetry _ | .firmwareFetch _ | .statusRequest | .routineLoad _ _ _
  | .attestationRequest _ | .svnRaise _ | .healthRequest | .telemetryRequest | .powerCapSet _ | .currentLimit
  | .thermalThrottle _ | .thermalTrip _ | .unitLoss _ _ | .currentFallsBelowLimit | .throttleLevelChange _
  | .copyPacketComplete _ _ _ _ => []

/-- A write to the register is discarded (R40). -/
def Reg.discarded : Reg → Bool
  | .x n => n == 0
  | .p n => n == 0
  | .f _ => false
  | .v _ => false

/-- Both write one register, x0 and p0 excepted (R50). -/
def writesClash (i0 i1 : Instr) : Bool := (dests i0).any fun r => !r.discarded && (dests i1).contains r

/-- Bit 29 of the body: 1 is the arithmetic class (R46). -/
def arithmeticBody (body : Nat) : Bool := body.testBit 29

/-- SVC, ERET, UPRET, EDGERET, EDGESKIP and EDGEDONE, which stand in no pair (R50). -/
def neverPaired : Instr → Bool
  | .svc _ | .eret | .upret | .edgeret _ | .edgeskip | .edgedone => true
  | _ => false

/-! ### Offsets and targets (R55, R86 to R88, R163, R164) -/

/-- The target of a branch or jump: its word's address + 4 × the signed offset. -/
def branchTarget (addr : Word) (bits off : Nat) : Word := addr + wordOf (4 * sext bits off)

/-- sext(imm12) as a 64-bit value (R82). -/
def imm12 (imm : Nat) : Word := wordOf (sext 12 imm)

/-- Effective address of a scalar memory form (R163). -/
def State.scalarEa (s : State) (a off size : Nat) : Word := s.rdX a + wordOf (sext 9 off * size)

/-- Effective address of VLD and VST (R164). -/
def State.vectorEa (s : State) (a imm : Nat) : Word := s.rdX a + wordOf (sext 13 imm * 64)

/-- Label words of an x register group. -/
def State.labGroup (s : State) (a n : Nat) : List LabelWord := (List.range n).map fun i => s.labX (a + i)

/-! ### Vector lanes (R116) -/

end Sys2Proof.Machine

namespace Sys2Proof

open Machine

/-- Bytes of an element. -/
def ElemTy.size : ElemTy → Nat
  | .f32 => 4 | .bf16 => 2 | .f16 => 2 | .i32 => 4 | .i16 => 2 | .i8 => 1

def ElemTy.bits (t : ElemTy) : Nat := 8 * t.size
/-- Lanes of a register. -/
def ElemTy.count (t : ElemTy) : Nat := 64 / t.size

/-- The float format of a type; FP32 for the integer types, which do not use it. -/
def ElemTy.fmt : ElemTy → Fmt
  | .f32 => fp32 | .bf16 => Machine.bf16 | .f16 => fp16 | .i32 => fp32 | .i16 => fp32 | .i8 => fp32

/-- Lane `i` of type `t` is active under a predicate (R116). -/
def ElemTy.active (t : ElemTy) (p : Word) (i : Nat) : Bool := p.toNat.testBit (i * t.size)

/-- Signed reading of a lane. -/
def ElemTy.signed (t : ElemTy) (v : Nat) : Int := sext t.bits v

/-- A signed result as a lane, wrapping. -/
def ElemTy.wrap (t : ElemTy) (i : Int) : Nat := (i % ((2 ^ t.bits : Nat) : Int)).toNat

end Sys2Proof

namespace Sys2Proof.Machine

/-- Every bit of lane `i` set where `f i` (R116). -/
def predOf (t : ElemTy) (f : Nat → Bool) : Word :=
  BitVec.ofNat 64 (packLanes t.size ((List.range t.count).map fun i => if f i then 2 ^ t.size - 1 else 0))

/-! ### Containers (R45, R50) -/

/-- Body bits of a word (R45). -/
def bodyOf (w : Half) : Nat := w.toNat % 2 ^ 30
/-- The SW bit (R45). -/
def swBit (w : Half) : Bool := w.getLsbD 30
/-- The LONE bit of word0 (R45). -/
def loneBit (w : Half) : Bool := w.getLsbD 31

/-- EINFO reason of an undecodable body (R55, R57). -/
def undecodableReason : Undecodable → Nat
  | .illCell => 8 | .badField => 7

/-- What a fetched container holds for the core at `pc`, or the trap that R50 gives it: cause, EINFO, EPC. -/
inductive Fetched where
  | lone (i : Instr) (sw : Bool)
  | pair (i0 i1 : Instr) (sw : Bool)
  | bad (c : Cause) (info : Nat) (epc : Word)
  deriving DecidableEq, Repr

/-- The checks of R50 in table order, as far as a word that does not decode lets them be made, then decoding: a word without
an instruction writes no register and is none of those of reason 5, so that such a pair still takes reasons 5 and 6 before
ILLEGAL 7 or 8 (log entry 18). -/
def decodeContainer (pc : Word) (w0 w1 : Half) : Fetched :=
  let here := container pc
  let paired := !loneBit w0
  if w0 = 0 ∧ w1 = 0 then .bad .illegal 1 here
  else if loneBit w1 ∨ (paired ∧ swBit w1) then .bad .illegal (2 + 16) here
  else if paired ∧ arithmeticBody (bodyOf w0) then .bad .pair 3 here
  else if paired ∧ !arithmeticBody (bodyOf w1) then .bad .pair (3 + 16) here
  else if paired then
    match decodeWord w0, decodeWord w1 with
    | .ok i0, .ok i1 =>
      if writesClash i0 i1 then .bad .pair (4 + 16) here
      else if neverPaired i0 then .bad .pair 5 here
      else if slotOf pc = 1 then .bad .pair (6 + 16) pc
      else .pair i0 i1 (swBit w0)
    | .ok i0, .error u =>
      if neverPaired i0 then .bad .pair 5 here
      else if slotOf pc = 1 then .bad .pair (6 + 16) pc
      else .bad .illegal (undecodableReason u + 16) here
    | .error u, _ => if slotOf pc = 1 then .bad .pair (6 + 16) pc else .bad .illegal (undecodableReason u) here
  else if slotOf pc = 0 then
    match decodeWord w0 with
    | .ok i => .lone i (swBit w0)
    | .error u => .bad .illegal (undecodableReason u) pc
  else
    match decodeWord w1 with
    | .ok i => .lone i (swBit w1)
    | .error u => .bad .illegal (undecodableReason u + 16) pc

end Sys2Proof.Machine
end

