-- ==== Sys2Proof/Machine/Memory.lean ====
section
/-! DEFINITION. Loads, stores and vector memory forms (R159 to R165), cache maintenance (R166, R312) and atomics
(R167 to R171). -/

namespace Sys2Proof.Machine


/-- The forms that an edge invocation refuses (R330), before any check of their own; `kind` is EINFO[1:0]. -/
def State.edgeGuard (s : State) (kind : Nat) (addr : Word) : Result Unit :=
  match s.core.edge with
  | some r => if r.inv.isSome ∧ r.depth = 0 then .error (s.trap .edgestore kind addr) else .ok ()
  | none => .ok ()

/-- A long-latency result with Conj over label words (R77, R160); x0 takes nothing. -/
def State.laterConj (s : State) (d : Reg) (v : VWord) (ws : List LabelWord) (fl : FFlags) : Result State :=
  if d = .x 0 then .ok s
  else match s.formConj ws with
    | .error e => .error e
    | .ok (l, t) => .ok (t.later ⟨d, v, l, fl⟩)

/-- A scalar load (R163). -/
def State.load (s : State) (d : Reg) (a off size : Nat) (ext : Nat → VWord) : Out :=
  commit s (do
    let (v, w, t) ← s.loadOne size (s.scalarEa a off size)
    let t ← t.laterConj d (ext v) [s.labX a, w] FFlags.none
    .ok t.complete)

/-- Sign extension of the bytes read to 64 bits. -/
def signedWord (size v : Nat) : VWord := (wordOf (sext (8 * size) v)).zeroExtend 512
def plainWord (v : Nat) : VWord := BitVec.ofNat 512 v

def execLb (d a off : Nat) (s : State) : Out := s.load (.x d) a off 1 (signedWord 1)
def execLbu (d a off : Nat) (s : State) : Out := s.load (.x d) a off 1 plainWord
def execLh (d a off : Nat) (s : State) : Out := s.load (.x d) a off 2 (signedWord 2)
def execLhu (d a off : Nat) (s : State) : Out := s.load (.x d) a off 2 plainWord
def execLw (d a off : Nat) (s : State) : Out := s.load (.x d) a off 4 (signedWord 4)
def execLwu (d a off : Nat) (s : State) : Out := s.load (.x d) a off 4 plainWord
def execLd (d a off : Nat) (s : State) : Out := s.load (.x d) a off 8 plainWord
def execFlw (d a off : Nat) (s : State) : Out := s.load (.f d) a off 4 plainWord

/-- A scalar store of the low bytes of a register (R163). -/
def State.storeScalar (s : State) (v : Nat) (lbl : LabelWord) (a off size : Nat) : Out :=
  let ea := s.scalarEa a off size
  commit s (do
    s.edgeGuard 1 ea
    let t ← s.storeAll [lbl, s.labX a] size size [(ea, bytesOf size v)]
    .ok t.complete)

def execSb (d a off : Nat) (s : State) : Out := s.storeScalar (s.rdX d).toNat (s.labX d) a off 1
def execSh (d a off : Nat) (s : State) : Out := s.storeScalar (s.rdX d).toNat (s.labX d) a off 2
def execSw (d a off : Nat) (s : State) : Out := s.storeScalar (s.rdX d).toNat (s.labX d) a off 4
def execSd (d a off : Nat) (s : State) : Out := s.storeScalar (s.rdX d).toNat (s.labX d) a off 8
def execFsw (d a off : Nat) (s : State) : Out := s.storeScalar (s.rdF d).toNat (s.labF d) a off 4

def execVld (d a imm : Nat) (s : State) : Out :=
  commit s (do
    let (els, t) ← s.loadAll 64 64 [s.vectorEa a imm]
    let t ← t.laterConj (.v d) (BitVec.ofNat 512 ((els.map Prod.fst).headD 0)) (s.labX a :: els.map Prod.snd) FFlags.none
    .ok t.complete)

def execVst (d a imm : Nat) (s : State) : Out :=
  commit s (do
    s.edgeGuard 1 (s.vectorEa a imm)
    let t ← s.storeLine [s.labV d, s.labX a] (s.vectorEa a imm) (s.rdV d)
    .ok t.complete)

/-! ### Strided and indexed forms (R165) -/

/-- Active lanes of the 16, ascending. -/
def activeLanes (p : Word) : List Nat := (List.range 16).filter fun i => p.toNat.testBit (4 * i)

/-- Address of element `i`. -/
def State.strideEa (s : State) (a b i : Nat) : Word := s.rdX a + wordOf ((i : Int) * (s.rdX b).toInt)
def State.indexEa (s : State) (a b i : Nat) : Word := s.rdX a + wordOf (sext 32 (lane 32 (s.rdV b) i))

/-- The 32-bit lanes of a register, those listed replaced. -/
def replaceLanes (old : VWord) (news : List (Nat × Nat)) : VWord :=
  ofLanes 32 ((List.range 16).map fun i => (lookup news i).getD (lane 32 old i))

/-- A gather; `idx` is the label word of the stride or index register. -/
def State.gather (s : State) (d a pg : Nat) (idx : LabelWord) (ea : Nat → Word) : Out :=
  let act := activeLanes (s.rdP pg)
  let merge := if pg = 0 then [] else [s.labP pg, s.labV d]
  commit s (do
    let (els, t) ← s.loadAll 4 4 (act.map ea)
    let v := replaceLanes (s.rdV d) (act.zip (els.map Prod.fst))
    let t ← t.laterConj (.v d) v ([s.labX a, idx] ++ merge ++ els.map Prod.snd) FFlags.none
    .ok t.complete)

/-- A scatter. -/
def State.scatter (s : State) (d a pg : Nat) (idx : LabelWord) (ea : Nat → Word) : Out :=
  let act := activeLanes (s.rdP pg)
  let merge := if pg = 0 then [] else [s.labP pg]
  commit s (do
    s.edgeGuard 1 ((act.map ea).headD 0)
    let els := act.map fun i => (ea i, bytesOf 4 (lane 32 (s.rdV d) i))
    let t ← s.storeAll ([s.labV d, s.labX a, idx] ++ merge) 4 4 els
    .ok t.complete)

def execVlds (d a b pg : Nat) (s : State) : Out := s.gather d a pg (s.labX b) (s.strideEa a b)
def execVldx (d a b pg : Nat) (s : State) : Out := s.gather d a pg (s.labV b) (s.indexEa a b)
def execVsts (d a b pg : Nat) (s : State) : Out := s.scatter d a pg (s.labX b) (s.strideEa a b)
def execVstx (d a b pg : Nat) (s : State) : Out := s.scatter d a pg (s.labV b) (s.indexEa a b)

/-! ### Cache maintenance -/

/-- The first address of the aligned block of `n` bytes that holds an address. -/
def blockBase (va : Word) (n : Nat) : Word := BitVec.ofNat 64 (va.toNat / n * n)

/-- The places of the lines of an aligned block of `n` bytes, ascending; of a local store, its first alone. -/
def Device.lineAt (d : Device) (p : Place) (n : Nat) : List Place :=
  if p.ls.isSome then [p]
  else (List.range (n / 64)).filterMap fun i =>
    (d.locate (p.pa + 64 * i)).map fun r => { p with va := p.va + BitVec.ofNat 64 (64 * i), pa := p.pa + 64 * i, loc := r.2 }

/-- Checks 2 to 4 of R159 for a maintenance form (R154 names no maintenance form for check 5), check 4 line by line
(R312), and the effect on each line in turn; the Class rule of x[a] comes before them (log entry 36). CINV and INVROW need the permission of a write (R166), so that in U mode they
trap on an inbox as a store does (R132; log entry 53). -/
def State.maintain (s : State) (a n : Nat) (acc : Access) (f : State → Nat → State) : Out :=
  commit s (do
    s.edgeGuard 1 (blockBase (s.rdX a) n)
    s.classRule [s.labX a]
    let (p, t) ← s.check (s.translate s.me acc (blockBase (s.rdX a) n))
    s.check (permCheck s.me acc p)
    let ps := t.dev.lineAt p n
    s.check (t.tagAll s.me acc ps)
    .ok (if p.cacheable then ((ps.map fun q => lineOf q.loc).foldl f t).complete else t.complete))

/-- CINV of one line: memory's contents become the line's, by a free value where an eviction may have written any
of those that the line has held since it was clean (R152, R166). -/
def State.invalidateLine (s : State) (line : Nat) : State :=
  match lookup s.dev.held line with
  | none => s
  | some h =>
    match h.past with
    | [] => s.mapDev (·.dropLine line)
    | _ :: _ =>
      let all := h.past ++ [(s.dev.lineData line, s.dev.rawLabel line)]
      match all[s.freeNat 0 % all.length]? with
      | none => s
      | some (v, w) =>
        s.drawn.mapDev fun d => ((d.dropLine line).store line (bytesOf 64 v.toNat) s.meAsWriter).setRawLabel line w

def State.cleanLine (s : State) (line : Nat) : State := s.mapDev (·.cleanLine line)
def State.flushLine (s : State) (line : Nat) : State := s.mapDev (·.dropLine line)

def execCwb (a : Nat) (s : State) : Out := s.maintain a 64 .read State.cleanLine
def execCflush (a : Nat) (s : State) : Out := s.maintain a 64 .read State.flushLine
def execCinv (a : Nat) (s : State) : Out := s.maintain a 64 .write State.invalidateLine
/-- CWB of every line of the block (R312). -/
def execWbrow (a : Nat) (s : State) : Out := s.maintain a 1024 .read State.cleanLine
/-- CINV of every line of the block (R312). -/
def execInvrow (a : Nat) (s : State) : Out := s.maintain a 1024 .write State.invalidateLine

/-! ### Atomics -/

/-- Read half and write half of an atomic at one place (R167): the old bytes, Lr, whether a label with several
environments goes into it, and the state. -/
def State.atomicAt (s : State) (n : Nat) (va : Word) (ws : List LabelWord) (f : Nat → Nat) :
    Result (Nat × Label × Bool × State) := do
  s.edgeGuard 3 va
  let (ps, t) ← s.resolve .atomic n n [va]
  let (w, nl, t) ← t.writeLabel ws
  t.trialLabels nl ps
  t.pageLabelCheck nl (lwHandle w) ps
  s.check (t.poisonAll s.me .atomic ps)
  let p ← (match ps with
    | p :: _ => .ok p
    | [] => .error .stall)
  let old := t.dev.num p.loc n
  let ll := t.eval (t.lineWord p)
  let wide := decide (nl.length > 1) || decide (ll.length > 1)
  let t ← t.writeEach nl [(p, bytesOf n (f old))]
  .ok (old, conj s.ctx.world.nogoods ll nl, wide, t)

/-- The atomic's result, long-latency, labelled Lr (R167). -/
def State.atomicResult (s : State) (d : Reg) (v : VWord) (lr : Label) (wide : Bool) (fl : FFlags) : Result State :=
  if d = .x 0 then .ok s
  else match s.formLabel wide lr with
    | .error e => .error e
    | .ok (l, t) => .ok (t.later ⟨d, v, l, fl⟩)

end Sys2Proof.Machine

namespace Sys2Proof

def AmoWidth.size : AmoWidth → Nat
  | .w => 4 | .d => 8

/-- AMO's new value on operands of `n` bits (R168). -/
def AmoOp.apply (op : AmoOp) (n old v : Nat) : Nat :=
  let so := Machine.sext n old
  let sv := Machine.sext n v
  match op with
  | .add => (old + v) % 2 ^ n
  | .band => old &&& v
  | .bor => old ||| v
  | .bxor => old ^^^ v
  | .smin => if so ≤ sv then old else v
  | .smax => if so ≥ sv then old else v
  | .minu => if old ≤ v then old else v
  | .maxu => if old ≥ v then old else v
  | .swap => v

/-- FAMO's result (R170). -/
def FamoOp.apply (op : FamoOp) (old v : Nat) : Nat × Machine.FFlags :=
  match op with
  | .fadd => Machine.fp32.addV 0 (Machine.fp32.decode old) (Machine.fp32.decode v)
  | .fmin => Machine.fp32.minMax false old v
  | .fmax => Machine.fp32.minMax true old v

end Sys2Proof

namespace Sys2Proof.Machine

/-- The old value as AMO and CAS return it. -/
def oldWord (w : AmoWidth) (v : Nat) : VWord :=
  match w with
  | .w => signedWord 4 v
  | .d => plainWord v

def execAmo (op : AmoOp) (w : AmoWidth) (_ord : MemOrder) (_sc : Scope) (d a : Nat) (s : State) : Out :=
  let bits := 8 * w.size
  commit s (do
    let (old, lr, wide, t) ← s.atomicAt w.size (s.rdX a) [s.labX a, s.labX d] fun old =>
      op.apply bits old ((s.rdX d).toNat % 2 ^ bits)
    let t ← t.atomicResult (.x d) (oldWord w old) lr wide FFlags.none
    .ok t.complete)

def execCas (w : AmoWidth) (_ord : MemOrder) (_sc : Scope) (d a : Nat) (s : State) : Out :=
  let bits := 8 * w.size
  commit s (do
    let (old, lr, wide, t) ← s.atomicAt w.size (s.rdX a) [s.labX a, s.labX d, s.labX (d + 1)] fun old =>
      if old = (s.rdX d).toNat % 2 ^ bits then (s.rdX (d + 1)).toNat % 2 ^ bits else old
    let t ← t.atomicResult (.x d) (oldWord w old) lr wide FFlags.none
    .ok t.complete)

def execFamo (op : FamoOp) (_ord : MemOrder) (_sc : Scope) (d a : Nat) (s : State) : Out :=
  let v := (s.rdF d).toNat
  commit s (do
    let (old, lr, wide, t) ← s.atomicAt 4 (s.rdX a) [s.labX a, s.labF d] fun old => (op.apply old v).1
    let t ← t.atomicResult (.f d) (plainWord old) lr wide (op.apply old v).2
    .ok t.complete)

def execCsum (_ord : MemOrder) (_sc : Scope) (d a : Nat) (s : State) : Out :=
  let v := (s.rdF d).toNat
  commit s (do
    let (old, lr, wide, t) ← s.atomicAt 8 (s.rdX a) [s.labX a, s.labF d] fun old =>
      let r := csumStep (old % 2 ^ 32) (old / 2 ^ 32) v
      r.1 + 2 ^ 32 * r.2
    let t ← t.atomicResult (.f d) (plainWord (addRne (old % 2 ^ 32) (old / 2 ^ 32))) lr wide FFlags.none
    .ok t.complete)

end Sys2Proof.Machine
end

