-- ==== Sys2Proof/Machine/Engine.lean ====
section
/-! DEFINITION. What every engine shares: completion to counters, catch groups and upcalls (R30, R31, R151, R175,
R193), range locks (R153), and coherent accesses with labels (R152, R161, R162, R211). -/

namespace Sys2Proof.Machine

/-! ### Completion signals -/

/-- A counter advanced (R31), with ERR when the operation ended in error (R30). -/
def Core.bump (c : Core) (k n : Nat) (err : Bool) : Core :=
  let w := fileGet (by decide) c.k k
  let v := (bitsAt w 0 31 + n) % 2 ^ 31 + 2 ^ 31 * oneBit (err || bitAt w 31)
  { c with k := filePut (by decide) c.k k (BitVec.ofNat 32 v) }

def State.bumpAt (s : State) (cl core k n : Nat) (err : Bool) : State := s.mapCoreAt cl core (·.bump k n err)

/-- A threshold is reached (R31). -/
def reached (count threshold : Nat) : Bool := decide ((count + 2 ^ 31 - threshold % 2 ^ 31) % 2 ^ 31 < 2 ^ 30)

/-- An upcall arrives at a core's FIFO (R193). -/
def Core.post (c : Core) (u : Upcall) : Core :=
  if c.upcalls.length ≥ Config.upcallFifo then { c with uplost := true } else { c with upcalls := c.upcalls ++ [u] }

/-! ### Catch groups (R174, R175) -/

/-- The members that an image names. -/
def CatchGroup.members (g : CatchGroup) : Nat := g.image.toNat % 2 ^ 217

def CatchGroup.isMember (g : CatchGroup) (m : CatchMember) : Bool := g.members.testBit m
def CatchGroup.flag (g : CatchGroup) (m : CatchMember) : Bool := g.flags.toNat.testBit m

/-- Every member has arrived. -/
def CatchGroup.full (g : CatchGroup) : Bool :=
  decide (g.members ≠ 0) && decide (g.flags.toNat &&& g.members = g.members)

/-- A member's flag set, with its legs. -/
def CatchGroup.mark (g : CatchGroup) (m : CatchMember) (or err : Bool) : CatchGroup :=
  { g with flags := BitVec.ofNat 217 (g.flags.toNat ||| 2 ^ m), or := g.or || or, err := g.err || err }

/-- An engine's arrival, held while its flag is set. -/
def CatchGroup.hold (g : CatchGroup) (m : CatchMember) (or err : Bool) : CatchGroup :=
  if g.flag m then { g with held := g.held ++ [(m, or, err)] } else g.mark m or err

/-- Completed phases recorded, one after another while held arrivals complete more. -/
def CatchGroup.settle : Nat → CatchGroup → CatchGroup
  | 0, g => g
  | fuel + 1, g =>
    if g.full then
      let next : CatchGroup :=
        { g with
          phase := g.phase + 1, flags := 0, or := false, err := false, latest := some (g.or, g.err), held := [] }
      CatchGroup.settle fuel (g.held.foldl (fun k e => k.hold e.1 e.2.1 e.2.2) next)
    else g

def CatchGroup.settled (g : CatchGroup) : CatchGroup := CatchGroup.settle (g.held.length + 1) g

def Cluster.group (k : Cluster) (g : Nat) : CatchGroup := fileGet (by decide) k.catchGroups g

def Cluster.mapGroup (k : Cluster) (g : Nat) (f : CatchGroup → CatchGroup) : Cluster :=
  { k with catchGroups := filePut (by decide) k.catchGroups g (f (k.group g)) }

/-- An engine arrives at a group (R175). -/
def State.engineArrive (s : State) (cl g : Nat) (m : CatchMember) (err : Bool) : State :=
  s.mapCluster cl fun k => k.mapGroup g fun c => if c.isMember m then (c.hold m false err).settled else c

/-! ### Range locks (R153) -/

/-- Ranges registered, each as (lowest byte, length, destination), or `none` when the table lacks room. -/
def State.lockRanges (s : State) (cl core : Nat) (kind : LockKind) (ranges : List (Nat × Nat × Bool)) :
    Option (List Nat × State) :=
  let ranges := ranges.filter fun r => decide (r.2.1 ≠ 0)
  if (s.cluster cl).locks.length + ranges.length > Config.rangeLocks then none
  else
    let first := s.dev.nextId
    let news := ranges.mapIdx fun i r =>
      (⟨first + i, r.1 / 64 * 64, (r.1 + r.2.1 + 63) / 64 * 64, r.2.2, kind, core⟩ : RangeLock)
    let t := s.mapDev fun d => { d with nextId := d.nextId + ranges.length }
    some (news.map RangeLock.id, t.mapCluster cl fun k => { k with locks := k.locks ++ news })

def State.unlock (s : State) (cl : Nat) (ids : List Nat) : State :=
  s.mapCluster cl fun k => { k with locks := k.locks.filter fun l => !ids.contains l.id }

/-- The first byte of `len` bytes from `va` that lies in an inbox of the window (R133). -/
def Context.inboxByte (k : Context) (va len : Nat) : Option Nat :=
  let base := k.desc.lsbase
  let lo := max va base
  let hi := min (va + len) (base + 192 * 2 ^ 18)
  if lo ≥ hi then none
  else
    let o := lo - base
    if o % 2 ^ 18 ≥ inboxOff then some lo
    else
      let next := base + o / 2 ^ 18 * 2 ^ 18 + inboxOff
      if next < hi then some next else none

/-- ILLEGAL 9 for the lowest destination byte in an inbox (R133). -/
def State.inboxCheck (s : State) (spans : List (Nat × Nat)) : Result Unit :=
  match spans.filterMap fun r => s.ctx.inboxByte r.1 r.2 with
  | [] => .ok ()
  | v :: vs => .error (s.illegal 9 (BitVec.ofNat 64 (vs.foldl min v)))

/-- The bounding interval of `rows` rows of `len` bytes, `stride` apart. -/
def boundsOf (base : Word) (rows len : Nat) (stride : Int) : Nat × Nat :=
  let last : Int := (rows - 1 : Nat) * stride
  let lo := (base.toNat : Int) + min 0 last
  (lo.toNat, ((last.natAbs + len : Nat)))

/-- What an engine of the context does next, which is nothing while the context stands at a gang-stop (R259, R282, R318,
R426). -/
def State.engineRuns (s t : State) : Out := .next (if s.ctx.stopped then s else t)

/-! ### Accesses -/

/-- The failure at the lower address (R256). -/
def Deny.lower (d e : Deny) : Deny := if e.addr.toNat < d.addr.toNat then e else d

/-- Why an access of an engine fails. -/
inductive EngineFail where
  | access (d : Deny)
  | label (f : LabelFail)
  | page (handle : Nat) (va : Word)
  deriving DecidableEq, Repr

def liftDeny {α : Type} (r : Except Deny α) : Except EngineFail α :=
  match r with
  | .ok a => .ok a
  | .error d => .error (.access d)

/-- Of two failures the one at the lower address; a label that cannot be formed has none, and stands (R191). -/
def EngineFail.lower (f g : EngineFail) : EngineFail :=
  match f, g with
  | .access d, .access e => if e.addr.toNat < d.addr.toNat then g else f
  | .access d, .page _ va => if va.toNat < d.addr.toNat then g else f
  | .page _ va, .access e => if e.addr.toNat < va.toNat then g else f
  | .page _ va, .page _ vb => if vb.toNat < va.toNat then g else f
  | .label _, _ => f
  | _, .label _ => f

/-- The failing access's cause, EINFO and EADDR (R190, R191). -/
def EngineFail.deny (f : EngineFail) : Deny :=
  match f with
  | .access d => d
  | .label (.ovf n) => ⟨.lblovf, min n 63, 0⟩
  | .label .tab => ⟨.lbltab, 0, 0⟩
  | .page h va => ⟨.lblpage, h, va⟩

def State.engineConj (s : State) (ws : List LabelWord) : Label :=
  conjAll s.ctx.world.nogoods (ws.map s.engineEval)

/-- XMAX and OVF of the issuing core, in the engines' epoch (R211). -/
def State.engineCfg (s : State) (cl core : Nat) : LabelCfg :=
  let c := s.coreAt cl core
  ⟨s.ctx.world.agentEpoch, c.lblcfg.xmax, c.lblcfg.ovf⟩

/-- A label formed for an operation of a core (R211), counted in that core's LBLSTAT (log entry 72). -/
def State.engineForm (s : State) (cl core : Nat) (l : Label) : Except EngineFail (LabelWord × State) :=
  match s.ctx.world.form (s.engineCfg cl core) l with
  | .error f => .error (.label f)
  | .ok (w, world, dropped) =>
    .ok (w, (s.mapWorld fun _ => world).mapCoreAt cl core fun c =>
      { c with lblstat := c.lblstat.count dropped (decide (l.length > 1)) })

/-- The label word of a line whose word was `raw` after a partial write labelled `fit` (R161, R211). -/
def State.partialLabel (s : State) (cl core : Nat) (raw : LabelWord) (fit : Label) :
    Except EngineFail (LabelWord × State) :=
  let world := s.ctx.world
  let lbl := conj world.nogoods (s.engineEval raw) fit
  if lbl = s.engineEval raw ∧ lwEpoch raw = world.agentEpoch then .ok (raw, s)
  else match s.engineForm cl core lbl with
    | .error e => .error e
    | .ok (w, t) => .ok (mkWord world.agentEpoch (lwP raw || decide (fit ≠ topLabel)) (lwHandle w), t)

/-- A write label formed for an operation of a core (R211): its word, the label after the limit of R210, and the state in
which the truncation is counted. -/
def State.engineFit (s : State) (cl core : Nat) (nl : Label) : Except EngineFail (LabelWord × Label × State) :=
  match s.engineForm cl core nl with
  | .error e => .error e
  | .ok (w, t) => .ok (w, t.engineEval w, t)

/-- The address of the line that holds a byte. -/
def lineVa (va : Word) : Word := va &&& ~~~(63 : Word)

/-- A page without LT takes the label ⊤ alone (R141); the failure names the line (R191). -/
def plainPage (va : Word) (w : LabelWord) (fit : Label) : Except EngineFail Unit :=
  if fit = topLabel then .ok () else .error (.page (lwHandle w) (lineVa va))

/-- A partial write labelled `nl` for an operation of a core, at one place, with checks 6 to 8 of R159 (R161, R162,
R211). -/
def State.enginePartial (s : State) (a : Agent) (core : Nat) (p : Place) (bs : List Byte) (nl : Label) :
    Except EngineFail State := do
  let (w, fit, s) ← s.engineFit a.cl core nl
  if p.lt then
    let (w, t) ← s.partialLabel a.cl core (s.dev.rawLabel (lineOf p.loc)) fit
    liftDeny (s.poisonCheck a .write p)
    .ok ((t.mapDev (·.setRawLabel (lineOf p.loc) w)).engineBytes a p bs)
  else
    plainPage p.va w fit
    liftDeny (s.poisonCheck a .write p)
    .ok (s.engineBytes a p bs)

/-- The write replaces the whole line, and its poison with it (R162). -/
def State.cleared (s : State) (line : Nat) : State := s.mapDev fun d => { d with poison := setMember d.poison line false }

/-- A write labelled `nl` for an operation of a core, at one place. One of all 64 bytes sets the line's label from itself
alone, whatever the engine (R162; R144 and R161 name VST and RMA only: log entry 50). -/
def State.engineStore (s : State) (a : Agent) (core : Nat) (p : Place) (bs : List Byte) (nl : Label) :
    Except EngineFail State :=
  if bs.length = 64 ∧ p.loc % 64 = 0 then
    match s.engineForm a.cl core nl with
    | .error e => .error e
    | .ok (w, t) =>
      if lwHandle w ≠ 0 ∧ !p.lt then .error (.page (lwHandle w) (lineVa p.va))
      else if s.dev.linkLost p.loc then .error (.access ⟨.memerr, Access.write.code + a.engineBit, p.va⟩)
      else
        let t := if p.lt then t.mapDev (·.setRawLabel (lineOf p.loc) w) else t
        .ok ((t.engineBytes a p bs).cleared (lineOf p.loc))
  else s.enginePartial a core p bs nl

/-- The pieces of `len` bytes from `va` that lie in one line each, as (address, length), with fuel. -/
def linePieces : Nat → Word → Nat → List (Word × Nat)
  | 0, _, _ => []
  | fuel + 1, va, len =>
    if len = 0 then []
    else
      let n := min len (64 - va.toNat % 64)
      (va, n) :: linePieces fuel (va + BitVec.ofNat 64 n) (len - n)

def piecesOf (va : Word) (len : Nat) : List (Word × Nat) := linePieces (len / 64 + 2) va len

/-- The bytes of the pieces and a label word for each of their lines, in order. -/
def State.readPieces (s : State) (word : State → Place → LabelWord) (a : Agent) :
    List (Word × Nat) → Except Deny (List Byte × List LabelWord × State)
  | [] => .ok ([], [], s)
  | (va, n) :: rest => do
    let (p, t) ← s.enginePlace a .read va
    t.poisonCheck a .read p
    let bs := t.dev.bytes p.loc n
    let w := word t p
    let (bs', ws, u) ← t.readPieces word a rest
    .ok (bs ++ bs', w :: ws, u)

/-- Bytes read, with the label words that reads of their lines find (R160). -/
def State.readSpan (s : State) (a : Agent) (va : Word) (len : Nat) :
    Except Deny (List Byte × List LabelWord × State) := s.readPieces State.lineWord a (piecesOf va len)

/-- Bytes written over the pieces, in order, labelled `nl`. -/
def State.writePieces (s : State) (a : Agent) (core : Nat) (nl : Label) :
    List (Word × Nat) → List Byte → Except EngineFail State
  | [], _ => .ok s
  | (va, n) :: rest, bs =>
    match liftDeny (s.enginePlace a .write va) with
    | .error e => .error e
    | .ok (p, t) =>
      match t.engineStore a core p (bs.take n) nl with
      | .error e => .error e
      | .ok u => u.writePieces a core nl rest (bs.drop n)

def State.writeSpan (s : State) (a : Agent) (core : Nat) (nl : Label) (va : Word) (bs : List Byte) :
    Except EngineFail State := s.writePieces a core nl (piecesOf va bs.length) bs

end Sys2Proof.Machine
end

