-- ==== Sys2Proof/Machine/Record.lean ====
section
/-! DEFINITION. Continuation records and the dispatcher (R10 to R24, R33 to R36), and the signals and freezing of
host queues that records cause (R36, R394, R400, R402). -/

namespace Sys2Proof.Machine

/-! ### Record fields (R11) -/

/-- A field of the 512-bit record replaced. -/
def setBits {w : Nat} (r : BitVec w) (lo n v : Nat) : BitVec w :=
  BitVec.ofNat w (r.toNat - bitsAt r lo n * 2 ^ lo + v % 2 ^ n * 2 ^ lo)

def rCode (r : VWord) : Nat := bitsAt r 0 64
def rFrame (r : VWord) : Nat := bitsAt r 64 64
def rParent (r : VWord) : Word := r.extractLsb' 128 64
def rJoin (r : VWord) : Nat := bitsAt r 192 32
def rQid (r : VWord) : Nat := bitsAt r 224 16
def rStage (r : VWord) : Nat := bitsAt r 240 4
def rPrio (r : VWord) : Nat := bitsAt r 244 2
def rPlkind (r : VWord) : Nat := bitsAt r 246 2
def rGang (r : VWord) : Bool := bitAt r 248
def rPltgt (r : VWord) : Nat := bitsAt r 256 16
def rLclu (r : VWord) : Nat := bitsAt r 272 8
def rGsize (r : VWord) : Nat := bitsAt r 280 8
def rWarg (r : VWord) : Nat := bitsAt r 320 60
def rWkind (r : VWord) : Nat := bitsAt r 380 4
def rState (r : VWord) : Nat := bitsAt r 384 4
def rFinal (r : VWord) : Nat := bitsAt r 388 4
def rToken (r : VWord) : Nat := bitsAt r 400 16
def rEnq (r : VWord) : Nat := bitsAt r 416 32
def rFlbl (r : VWord) : LabelWord := r.extractLsb' 448 32

/-- Members of a gang, 1 for a free continuation. -/
def rMembers (r : VWord) : Nat := if rGang r then rGsize r else 1

/-- The SW fields of an image in a new record, with every HW field at its reset value (R11, R14). -/
def newRecord (image : VWord) (qid : Nat) (epoch : BitVec 8) : VWord :=
  BitVec.ofNat 512
    (rCode image + rFrame image * 2 ^ 64 + (rParent image).toNat * 2 ^ 128 + qid % 2 ^ 16 * 2 ^ 224
      + rStage image * 2 ^ 240 + rPrio image * 2 ^ 244 + rPlkind image * 2 ^ 246 + oneBit (rGang image) * 2 ^ 248
      + rPltgt image * 2 ^ 256 + rLclu image * 2 ^ 272 + rGsize image * 2 ^ 280 + 1 * 2 ^ 384
      + epoch.toNat * 2 ^ 24 * 2 ^ 448)

/-! ### Records in memory -/

/-- Where the dispatcher reaches a byte of a record; nowhere through a line that is held under the other format (R420) or
behind a lost link (R435; log entry 13). -/
def State.recordPlace (s : State) (va : Word) : Option (Place × State) :=
  match s.translate hostAgent .write va with
  | .ok (p, t) =>
    if (t.tagCheck hostAgent .write p).isOk && (t.linkCheck hostAgent .write p).isOk then some (p, t) else none
  | .error _ => none

/-- An access of the dispatcher that a lost link ends is counted (R458). -/
def State.noteLink (s : State) (va : Word) : State :=
  match s.translate hostAgent .write va with
  | .ok (p, _) => if s.dev.linkLost p.loc then s.mapDev (·.cxlError [p.loc]) else s
  | .error _ => s

/-- The record at a VA, line by line; zeros where nothing is mapped (log entry 13). -/
def State.record (s : State) (va : Word) : VWord :=
  BitVec.ofNat 512 (natOf ((piecesOf va 64).flatMap fun q =>
    match s.recordPlace q.1 with
    | some (p, t) => t.dev.bytes p.loc q.2
    | none => List.replicate q.2 0))

/-- Bytes written over the pieces of a record, each through its own translation: a PARENT that is no multiple of 64
reaches bytes that the context maps and no others (R13, R14). -/
def State.putRecordPieces (s : State) : List (Word × Nat) → List Byte → State
  | [], _ => s
  | (va, n) :: rest, bs =>
    let u := match s.recordPlace va with
      | some (p, t) => (t.topPartial p).engineBytes hostAgent p (bs.take n)
      | none => s.noteLink va
    u.putRecordPieces rest (bs.drop n)

def State.putRecord (s : State) (va : Word) (r : VWord) : State :=
  s.putRecordPieces (piecesOf va 64) (bytesOf 64 r.toNat)

/-! ### Signals of queues -/

/-- Fields of a packet's slot (R397). -/
def slotType (slot : BitVec 1024) : Nat := bitsAt slot 0 8
def slotTag (slot : BitVec 1024) : Nat := bitsAt slot 32 32
def slotSig (slot : BitVec 1024) : Word := slot.extractLsb' 64 64
/-- Bytes `off` to `off + 7` of the body. -/
def slotBody (slot : BitVec 1024) (off : Nat) : Word := slot.extractLsb' (512 + 8 * off) 64

/-- The signal word (R400): STATE 1 DONE, 2 CANCELLED, 3 FAILED. -/
def signalBytes (slot : BitVec 1024) (st code : Nat) : List Byte :=
  bytesOf 8 (st + (if st = 3 then code % 256 else 0) * 2 ^ 8 + slotTag slot * 2 ^ 32)

/-- A packet signals and leaves the queue; FAILED freezes it (R400, R401). -/
def State.signalPacket (s : State) (qid seq st code : Nat) : State :=
  match s.queue qid with
  | none => s
  | some q =>
    match q.packets.find? fun p => p.seq == seq with
    | none => s
    | some p =>
      let t := s.mapQueue qid fun q => { q with packets := q.packets.filter fun p => p.seq != seq }
      let t := t.statusWrite hostAgent (slotSig p.slot) (signalBytes p.slot st code)
      if st = 3 then t.freezeQueue qid 1 else t

/-- The LAUNCH packet whose record is at `va`. -/
def State.launcher (s : State) (va : Word) : Option (Nat × Nat) :=
  s.ctx.queues.findSome? fun q =>
    (q.2.packets.find? fun p => p.started && slotType p.slot == 1 && slotBody p.slot 32 == va).map fun p => (q.1, p.seq)

/-- The signal of a record that has retired to STATE 5, 6 or 7. -/
def State.signalRecord (s : State) (va : Word) (final token : Nat) : State :=
  match s.launcher va with
  | some (qid, seq) => s.signalPacket qid seq (final - 4) (token % 256)
  | none => s

/-! ### Retirement (R33 to R35) -/

/-- The dispatcher holds the record (R13). -/
def heldRecord (r : VWord) : Bool := decide (1 ≤ rState r ∧ rState r ≤ 4)

/-- A child's token passed to its parent (R34, R35). -/
def passToken (p : VWord) (token : Nat) : VWord :=
  if rToken p = 0 ∧ token ≠ 0 then
    let p := setBits p 400 16 token
    if rState p = 4 ∧ rFinal p = 5 then setBits p 388 4 6 else p
  else p

/-- Retirement of a record whose JOIN is 0 to `final`, and of the parents that drain with it; `fuel` bounds the
chain of parents by the records that memory can hold. -/
def State.finishRetire : Nat → State → Word → Nat → State
  | 0, s, _, _ => s
  | fuel + 1, s, va, final =>
    let r := s.record va
    let s := s.putRecord va (setBits (setBits r 384 4 final) 388 4 0)
    let s := s.signalRecord va final (rToken r)
    if rParent r = 0 then s
    else
      let p := s.record (rParent r)
      if !heldRecord p then
        -- R14: an unpredictable effect on those 64 bytes
        s.drawn.putRecord (rParent r) (BitVec.ofNat 512 (s.freeNat 0))
      else
        let p := passToken (setBits p 192 32 (rJoin p + (2 ^ 32 - 1))) (rToken r)
        let s := s.putRecord (rParent r) p
        if rJoin p = 0 ∧ rState p = 4 then s.finishRetire fuel (rParent r) (rFinal p) else s

/-- A record that is to retire to `final` (R35). -/
def State.retire (s : State) (va : Word) (final : Nat) : State :=
  let r := s.record va
  let s := if final = 7 then s.freezeQueue (rQid r) 1 else s
  if rJoin r ≠ 0 then s.putRecord va (setBits (setBits r 384 4 4) 388 4 final)
  else s.finishRetire (2 ^ 34) va final

/-- A record that dies by fault with a token (R34). -/
def State.failRecord (s : State) (va : Word) (token : Nat) : State :=
  (s.putRecord va (setBits (s.record va) 400 16 token)).retire va 7

/-! ### Queueing (R9, R15, R17, R24) -/

/-- Logical cores of a cluster that serve a stage (R9). -/
def Context.serves (k : Context) (cl stage core : Nat) : Bool :=
  k.desc.stages.any (fun e => e.1 == (cl, stage) && e.2.toNat.testBit core) && k.mapped cl core

/-- The placement admits the core. -/
def admits (r : VWord) (core : Nat) : Bool :=
  match rPlkind r with
  | 0 => true
  | 1 => crewOf core == rPltgt r
  | 2 => core == rPltgt r
  | _ => false

def Context.eligible (k : Context) (r : VWord) (core : Nat) : Bool :=
  k.serves (rLclu r) (rStage r) core && admits r core

def Context.eligibleCores (k : Context) (r : VWord) : List Nat := (List.range 192).filter (k.eligible r)

/-- The placement is valid (R15). -/
def Context.placeable (k : Context) (r : VWord) : Bool :=
  decide (rLclu r < k.nclus) && decide (rPlkind r ≠ 3)
    && (match rPlkind r with
      | 1 => decide (rPltgt r < 24)
      | 2 => decide (rPltgt r < 192)
      | _ => decide (rPltgt r = 0))
    && !(k.eligibleCores r).isEmpty
    && (!rGang r || (decide (rGsize r ≠ 0) && decide (rGsize r ≤ (k.eligibleCores r).length)
      && !(decide (rPlkind r = 2) && decide (rGsize r > 1))))

def queueKey (r : VWord) : Nat := 4 * rStage r + rPrio r

/-- A record at the tail of its run queue, RUNNABLE, with a new ENQ. -/
def State.queueTail (s : State) (va : Word) : State :=
  let r := setBits (setBits (s.record va) 384 4 1) 416 32 s.dev.stroke.toNat
  (s.putRecord va r).mapCluster (rLclu r) fun k => { k with runq := modifyAt [] (queueKey r) (· ++ [va]) k.runq }

/-- CODE lies in the driver of a translated image (R387). -/
def Context.runsDriver (k : Context) (code : Nat) : Bool :=
  k.images.any fun i => decide (i.base.toNat + i.driver.1 ≤ code ∧ code < i.base.toNat + i.driver.2)

/-- A record enters the run queue at the tail (R14, R24), unless it carries a token (R34), with which a driver retires as
FAILED (R387; log entry 6), or its placement is invalid (R15). -/
def State.enqueue (s : State) (va : Word) : State :=
  let r := s.record va
  if rToken r ≠ 0 then s.retire va (if s.ctx.runsDriver (rCode r) then 7 else 6)
  else if !s.ctx.placeable r then s.failRecord va 0xC001
  else s.queueTail va

def Cluster.unqueue (k : Cluster) (va : Word) : Cluster :=
  { k with runq := k.runq.map fun e => (e.1, e.2.filter (· != va)) }

/-- A record created at a place that passed the checks of R10 (R14), in the epoch of the agent that creates it (R224). -/
def State.create (s : State) (va : Word) (image : VWord) (qid : Nat) (epoch : BitVec 8) : State :=
  let s := s.putRecord va (newRecord image qid epoch)
  let parent := rParent image
  let s := if parent = 0 then s
    else
      let p := s.record parent
      if heldRecord p then s.putRecord parent (setBits p 192 32 (rJoin p + 1))
      else s.drawn.putRecord parent (BitVec.ofNat 512 (s.freeNat 0))
  s.enqueue va

/-- What SPAWN creates reaches no page of an image that its parent cannot reach (R374). -/
def State.inheritBar (s : State) (parent child : Word) : State :=
  s.mapCtx fun k =>
    { k with images := k.images.map fun i =>
      { i with barred := if i.barred.contains parent then child :: i.barred.erase child else i.barred.erase child } }

/-! ### Dispatch (R16 to R20) -/

/-- A label word of a register that holds an unpredictable one: its reserved bits and P are 0, and epoch 0 stands only in
the universal word (R201). -/
def regWord (n : Nat) : LabelWord :=
  let w : LabelWord := BitVec.ofNat 32 n &&& 0xFF00FFFF
  if lwEpoch w = 0 then 0 else w

/-- Registers after dispatch, suspension or invocation entry: every value and label word free. -/
def Regs.unknown (n : Nat) (r : Regs) : Regs :=
  let word (k : Nat) : LabelWord := regWord (Config.free n k)
  { r with
    x := tabulate 64 fun i => BitVec.ofNat 64 (Config.free n i), xl := tabulate 64 fun i => word (64 + i)
    f := tabulate 32 fun i => BitVec.ofNat 32 (Config.free n (128 + i)), fl := tabulate 32 fun i => word (160 + i)
    v := tabulate 32 fun i => BitVec.ofNat 512 (Config.free n (192 + i)), vl := tabulate 32 fun i => word (224 + i)
    p := tabulate 8 fun i => BitVec.ofNat 64 (Config.free n (256 + i)), pl := tabulate 8 fun i => word (264 + i) }

/-- Accumulators whose contents are unpredictable (R16). -/
def Tile.unknown (n k : Nat) : Tile :=
  ⟨tabulate 32 fun i => BitVec.ofNat 1024 (Config.free n (k + i)),
   tabulate 32 fun i => regWord (Config.free n (k + 32 + i))⟩

/-- A core as dispatch leaves it (R16, R43, R371, R373): `n` numbers the free values of the rest. The accumulators of a core
whose earlier commands are still queued stand as those commands find them (R253) and are unpredictable after the last (R244;
log entry 63). -/
def Core.dispatched (c : Core) (n stores : Nat) (va : Word) (r : VWord) (w : World) (cg : Half) (gang : Option GangRole)
    (busy : Bool) : Core :=
  let epoch := if c.epoch = w.epoch then c.epoch else w.agentEpoch
  let top := mkWord epoch false 0
  let regs := c.regs.unknown n
  let regs := (regs.putX 4 (BitVec.ofNat 64 (rFrame r)) (rFlbl r)).putX 63 va top
  let regs := match gang with
    | none => regs
    | some g => (regs.putX 5 (BitVec.ofNat 64 g.index) top).putX 6 (BitVec.ofNat 64 g.size) top
  { c with
    pc := BitVec.ofNat 64 (rCode r)
    regs := regs
    acc0 := if busy then c.acc0 else Tile.unknown n 512
    acc1 := if busy then c.acc1 else Tile.unknown n 640
    status := ⟨false, false, false, .u⟩
    loops := [], frozen := 0, stage := rStage r, crec := va, record := some va, gang := gang, reserved := none
    codegen := cg, epoch := epoch, streams := [], popped := none, pending := [], park := none, grants := []
    stalled := false, edge := none, latch := none, late := none, trapped := none, fetchSync := fill 5 stores
    fenced := fill 5 stores }

/-- Commands of a core that its crew's engine has not executed. -/
def State.queuedCmds (s : State) (cl core : Nat) : Bool :=
  (lookupD MEngine.reset (s.cluster cl).engines (crewOf core)).queue.any fun e => e.core == core

/-- Both accumulators of a core hold unpredictable values (R16, R244). -/
def State.spoilTiles (s : State) (cl core : Nat) : State :=
  let n := s.fresh
  s.drawn.mapCoreAt cl core fun c => { c with acc0 := Tile.unknown n 512, acc1 := Tile.unknown n 640 }

/-- The latest command of a core in a queue is marked as the last before a dispatch. -/
def markLast (core : Nat) (queue : List MEntry) : List MEntry :=
  match (queue.reverse.findIdx? fun e => e.core == core) with
  | none => queue
  | some i => queue.modify (queue.length - 1 - i) fun e => { e with last := true }

/-- One core takes a record. -/
def State.startOn (s : State) (cl core : Nat) (va : Word) (r : VWord) (gang : Option GangRole) : State :=
  let n := s.fresh
  let busy := s.queuedCmds cl core
  let s := if busy then s.mapCluster cl fun k =>
      { k with engines := modifyAt MEngine.reset (crewOf core) (fun e => { e with queue := markLast core e.queue }) k.engines }
    else s
  s.drawn.mapCoreAt cl core fun c => c.dispatched n s.dev.stores va r s.ctx.world s.ctx.cg gang busy

/-- A core without a record or a reservation. -/
def State.idle (s : State) (cl core : Nat) : Bool :=
  (s.coreAt cl core).record.isNone && (s.coreAt cl core).reserved.isNone

/-- A gang starts on its cores, members in ascending order (R16, R19). -/
def State.startGang (s : State) (cl : Nat) (va : Word) (r : VWord) (cores : List Nat) : State :=
  let s := s.putRecord va (setBits r 384 4 2)
  let s := s.mapCluster cl fun k =>
    { k.unqueue va with
      gangs := ⟨va, cores, none⟩ :: k.gangs
      reservations := k.reservations.filter fun g => g.record != va }
  (cores.mapIdx fun i c => (i, c)).foldl (fun t e => t.startOn cl e.2 va r (some ⟨e.1, cores.length⟩)) s

/-- Queue keys in the order in which an idle core examines them (R17). -/
def examineOrder : List Nat := [3, 2, 1, 0].flatMap fun prio => (List.range 16).map fun st => 4 * st + prio

/-- The first record that admits the core, in the order of R17. -/
def State.pick (s : State) (cl core : Nat) : Option Word :=
  examineOrder.findSome? fun key =>
    if s.ctx.serves cl (key / 4) core then
      (lookupD [] (s.cluster cl).runq key).find? fun va => admits (s.record va) core
    else none

/-- Strokes that a gang may hold reservations (R20). -/
def Context.patience (k : Context) : Nat := if k.desc.gangwait = 0 then 1 else k.desc.gangwait

/-- Sorted insertion of a core number. -/
def insertNat (a : Nat) : List Nat → List Nat
  | [] => [a]
  | b :: t => if a < b then a :: b :: t else if a = b then b :: t else b :: insertNat a t

/-- A gang whose patience has ended: its cores are free again and it goes to the tail of its queue, whatever its token
(R20). -/
def State.expireGang (s : State) (cl : Nat) (va : Word) : State :=
  let t := (List.range 192).foldl (fun t c =>
    if (t.coreAt cl c).reserved = some va then t.mapCoreAt cl c fun k => { k with reserved := none } else t) s
  (t.mapCluster cl fun k =>
    { k.unqueue va with reservations := k.reservations.filter fun h => h.record != va }).queueTail va

/-- The gang holds reservations and its patience has ended. -/
def State.gangLate (s : State) (cl : Nat) (va : Word) : Bool :=
  (s.cluster cl).reservations.any fun g => g.record == va && decide (g.deadline ≤ s.dev.stroke.toNat)

/-- A gang at the head of its queue, found by an idle core (R20): it starts when enough eligible cores are idle or
reserved for it, and else reserves the idle ones. -/
def State.tryGang (s : State) (cl : Nat) (va : Word) (r : VWord) : State :=
  let mine := fun c => decide ((s.coreAt cl c).reserved = some va)
  let held := (s.ctx.eligibleCores r).filter mine
  let idle := (s.ctx.eligibleCores r).filter fun c => s.idle cl c
  let cores := (held ++ idle).take (rMembers r)
  if cores.length = rMembers r then
    let s := (held ++ idle).foldl (fun t c => t.mapCoreAt cl c fun k =>
      if k.reserved = some va then { k with reserved := none } else k) s
    s.startGang cl va r (cores.foldl (fun l c => insertNat c l) [])
  else
    let s := cores.foldl (fun t c => t.mapCoreAt cl c fun k => { k with reserved := some va }) s
    s.mapCluster cl fun k =>
      if k.reservations.any fun g => g.record == va then k
      else { k with
        reservations := ⟨va, cores, s.dev.stroke.toNat + s.ctx.patience⟩ :: k.reservations }

/-- An idle core takes the record that R17 picks: a gang, a record whose STATE is wrong (R12), or one to run. A record that
a program wrote while the dispatcher holds it runs from the new values alone (log entry 51), and a core that R17 leads to a
record of higher priority takes that record although a gang reserves (log entry 52). A record whose STATE is wrong leaves
the core idle, which goes on to the next (R37); `fuel` bounds them. -/
def State.dispatchPast (cl core : Nat) : Nat → State → State
  | 0, s => s
  | fuel + 1, s =>
    if !s.idle cl core || s.ctx.stopped then s
    else match s.pick cl core with
      | none => s
      | some va =>
        let r := s.record va
        if rState r ≠ 1 then State.dispatchPast cl core fuel ((s.mapCluster cl (·.unqueue va)).failRecord va 0xC002)
        else if rGang r then (if s.gangLate cl va then s.expireGang cl va else s.tryGang cl va r)
        else
          let s := (s.mapCluster cl (·.unqueue va)).putRecord va (setBits r 384 4 2)
          s.startOn cl core va r none

/-- Records in the run queues of a cluster. -/
def State.queuedRecords (s : State) (cl : Nat) : List Word := (s.cluster cl).runq.flatMap fun e => e.2

def State.dispatchOn (s : State) (cl core : Nat) : State :=
  State.dispatchPast cl core ((s.queuedRecords cl).length + 1) s

/-! ### Leaving a core (R22, R24) -/

/-- A lease and its waiting request given up (R241). -/
def MEngine.release (e : MEngine) (m : Nat) : MEngine :=
  { e with
    requests := eraseAt m e.requests
    holder := if e.holder = some m then none else e.holder
    lrem := if e.holder = some m then 0 else e.lrem
    prev := if e.holder = some m then some m else e.prev }

def Cluster.engine (k : Cluster) (crew : Nat) : MEngine := lookupD MEngine.reset k.engines crew
def Cluster.mapEngine (k : Cluster) (crew : Nat) (f : MEngine → MEngine) : Cluster :=
  { k with engines := modifyAt MEngine.reset crew f k.engines }
def Cluster.copyUnit (k : Cluster) (crew : Nat) : CopyUnit := lookupD CopyUnit.reset k.copies crew
def Cluster.mapCopy (k : Cluster) (crew : Nat) (f : CopyUnit → CopyUnit) : Cluster :=
  { k with copies := modifyAt CopyUnit.reset crew f k.copies }

/-- The lease is held by the core (R241). -/
def State.holdsLease (s : State) : Bool :=
  decide ((s.myCluster.engine (crewOf s.focus.core)).holder = some (memberOf s.focus.core))

def State.releaseLease (s : State) (cl core : Nat) : State :=
  s.mapCluster cl fun k => k.mapEngine (crewOf core) (·.release (memberOf core))

/-- Set-aside matrix commands and an untaken fault discarded (R257). -/
def State.discardAside (s : State) (cl core : Nat) : State :=
  let ids := ((s.coreAt cl core).aside).flatMap MEntry.locks
  (s.unlock cl ids).mapCoreAt cl core fun c => { c with aside := [], mfault := none }

/-- Runs in which the core takes part end with CODE 9 (R340). -/
def Cluster.cancelRuns (k : Cluster) (core : Nat) : Cluster :=
  { k with
    runs := k.runs.map fun r =>
      match lookup r.joins core with
      | none => r
      | some (n, _) =>
        { r with code := 9, phase := .ending, joins := eraseAt core r.joins, left := insertAt core n r.left } }

/-- A core loses its record: the lease and streams end, what was set aside is discarded (R22, R257). -/
def State.vacate (s : State) (cl core : Nat) : State :=
  (((s.releaseLease cl core).discardAside cl core).mapCluster cl (·.cancelRuns core)).mapCoreAt cl core fun c =>
    { c.drain with record := none, gang := none, streams := [], popped := none, park := none, grants := [], loops := []
                   frozen := 0, edge := none, late := none }

/-- A suspension point's discard of the upcall FIFO with UPE = 0 (R194). -/
def Core.dropUpcalls (c : Core) : Core :=
  if c.status.upe then c else { c with upcalls := [], uplost := c.uplost || !c.upcalls.isEmpty }

/-- CODE, FRAME, FLBL, WKIND and WARG saved at a suspension point at which nothing is outstanding (R22); x4 is as word1 of
its pair has left it (R50). -/
def State.savePoint (s : State) (wkind warg : Nat) : State :=
  let r := s.record s.core.crec
  let r := setBits (setBits r 0 64 s.core.issue.successor.toNat) 64 64 (fileGet (by decide) s.core.regs.x 4).toNat
  let r := setBits (setBits r 448 32 (fileGet (by decide) s.core.regs.xl 4).toNat) 380 4 wkind
  s.putRecord s.core.crec (setBits r 320 60 warg)

/-- A suspension point of a core with nothing outstanding: the record saved, SUSPENDED, and the core left (R22). -/
def State.suspend (s : State) (wkind warg : Nat) : State :=
  let va := s.core.crec
  let s := s.savePoint wkind warg
  let r := setBits (s.record va) 384 4 3
  let s := (s.putRecord va r).mapCore Core.dropUpcalls
  let s := s.vacate s.focus.cl s.focus.core
  if wkind = 0 then s.enqueue va
  else s.mapCluster (rLclu r) fun k => { k with suspended := k.suspended ++ [va] }

/-- The wake condition of a suspended record holds (R24). -/
def State.wakes (s : State) (r : VWord) : Bool :=
  match rWkind r with
  | 1 =>
    let c := s.coreAt (rLclu r) (bitsAt r 360 8)
    reached (bitsAt (fileGet (by decide) c.k (bitsAt r 352 4)) 0 31) (bitsAt r 320 31)
  | 2 => decide (rWarg r ≤ s.dev.cycle.toNat)
  | 3 => decide (rJoin r = 0)
  | _ => true

end Sys2Proof.Machine
end

