-- ==== Sys2Proof/Machine/Sync.lean ====
section
/-! DEFINITION. Fences (R148, R149, R172, R173), the catch network (R176, R177), counters and timed waits (R178 to
R181), and continuation instructions (R182 to R184). -/

namespace Sys2Proof.Machine

/-- Some engine operation that the core issued has not completed or holds ranges (R148); those of an edge run are every
participant's (R154, R321). -/
def State.engineBusy (s : State) (cl c : Nat) : Bool :=
  let k := s.cluster cl
  ((k.engine (crewOf c)).queue.any fun e => e.core == c) || !(s.coreAt cl c).aside.isEmpty
    || ((k.copyUnit (crewOf c)).jobs.any fun j => j.core == c) || (k.rowq.any fun r => r.core == c)
    || (k.ireds.any fun r => r.core == c) || (k.remotes.any fun r => r.core == c)
    || k.runs.any fun r => (lookup r.joins c).isSome && !r.locks.isEmpty && !r.closed

/-- The effect of a FENCE on what later fetches and page walks of the core see (R137, R414). -/
def Core.fence (c : Core) (kinds sc stores : Nat) : Core :=
  { c with
    fenced := if kinds.testBit 0 then filePut (by decide) c.fenced sc stores else c.fenced
    walkSync := if kinds.testBit 1 ∧ sc ≥ 3 then stores else c.walkSync }

def State.fence (s : State) (kinds sc : Nat) : State := s.mapCore (·.fence kinds sc s.dev.stores)

def execFence (kinds : Nat) (sc : Scope) (s : State) : Out :=
  commit s (do
    if kinds.testBit 3 then s.edgeGuard 1 0
    if kinds.testBit 3 ∧ s.grantValue = none ∧ s.engineBusy s.focus.cl s.focus.core then .ok (s.parkAt .fenceE)
    else .ok (s.fence kinds sc.code).complete)

/-- FENCESC (R149, R173) at every scope; it orders fetches as a FENCE of the R kind does (R137; log entry 71). -/
def execFencesc (s : State) : Out :=
  commit s (do
    s.edgeGuard 1 0
    match s.grantValue with
    | none => .ok (s.drain.parkAt (.fencesc s.dev.stroke.toNat))
    | some _ => .ok ([0, 1, 2, 3].foldl (fun t sc => t.fence 7 sc) s).complete)

/-! ### Catch groups -/

def State.group (s : State) (g : Nat) : CatchGroup := s.myCluster.group g

/-- CATCH reasons 1 and 2 (R176). -/
def State.catchCheck (s : State) (g : Nat) : Result Unit := do
  if s.core.gang = none then .error (s.trap .catchTrap (1 + 256 * g) 0)
  if !(s.group g).isMember s.focus.core then .error (s.trap .catchTrap (2 + 256 * g) 0)

def execArrive (g a : Nat) (s : State) : Out :=
  commit s (do
    s.edgeGuard 1 0
    s.catchCheck g
    if (s.group g).flag s.focus.core then .error (s.trap .catchTrap (3 + 256 * g) 0)
    s.classRule [s.labX a]
    let phase := (s.group g).phase.toNat
    let t := s.mapCluster s.focus.cl fun k => k.mapGroup g fun c =>
      (c.mark s.focus.core (bitAt (s.rdX a) 0) (bitAt (s.rdX a) 1)).settled
    .ok (t.mapCore fun c => { c with arrived := insertAt g phase c.arrived }).complete)

/-- The result of WAITC (R177). -/
def CatchGroup.waitcWord (g : CatchGroup) : Word :=
  match g.latest with
  | none => BitVec.ofNat 64 (2 ^ 34)
  | some (or, err) => BitVec.ofNat 64 ((g.phase - 1).toNat + 2 ^ 32 * oneBit or + 2 ^ 33 * oneBit err)

/-- The phase that WAITC waits for has completed, or there is none. -/
def catchDone (c : Core) (g : CatchGroup) (n : Nat) : Bool :=
  match lookup c.arrived n with
  | none => true
  | some phase => decide (g.phase.toNat ≠ phase)

/-- WAITC: a wake hands over what it returns, one more than the word (R174, R177). -/
def execWaitc (d g : Nat) (s : State) : Out :=
  commit s (do
    s.edgeGuard 1 0
    match s.grantValue with
    | some v => .ok (s.wrX d (v - 1) s.topWord).complete
    | none =>
      s.catchCheck g
      if catchDone s.core (s.group g) g then .ok (s.wrX d (s.group g).waitcWord s.topWord).complete
      else .ok (s.parkAt (.catchPhase g (s.group g).phase.toNat)))

/-- Members still to arrive (R177). -/
def CatchGroup.waiting (g : CatchGroup) : Nat := ((List.range 217).filter fun m => g.isMember m && !g.flag m).length

def execCatchq (d g : Nat) (s : State) : Out :=
  let c := s.group g
  let v := c.phase.toNat + 2 ^ 32 * oneBit c.or + 2 ^ 33 * oneBit c.err + 2 ^ 34 * oneBit c.latest.isNone
    + 2 ^ 35 * oneBit (c.flag s.focus.core) + 2 ^ 36 * c.waiting
  commit s (do
    s.catchCheck g
    .ok (s.wrX d (BitVec.ofNat 64 v) s.topWord).complete)

/-! ### Counters and timed waits -/

/-- A counter of the core that moves. -/
def Core.counter (c : Core) (k : Nat) : Half := fileGet (by decide) c.k k

def execWaitk (k a : Nat) (s : State) : Out :=
  commit s (do
    s.edgeGuard 1 0
    s.classRule [s.labX a]
    if s.grantValue.isSome || reached (bitsAt (s.core.counter k) 0 31) (bitsAt (s.rdX a) 0 31) then .ok s.complete
    else .ok (s.parkAt (.counter k (bitsAt (s.rdX a) 0 31))))

/-- The job of a core with an id, when it is not complete (R279, R286). -/
def State.findJob (s : State) (cl core : Nat) (id : Word) : Option Job :=
  ((s.cluster cl).copyUnit (crewOf core)).jobs.find? fun j => j.id == id && j.core == core

/-- WAITT: a wake hands over the handler of the LATE that it takes at its end, or 0 (R193, R283). -/
def execWaitt (a b : Nat) (s : State) : Out :=
  commit s (do
    s.edgeGuard 1 0
    match s.grantValue with
    | some v =>
      let t := if v = 0 then s else s.mapCore fun c => { c with late := some (s.rdX b, v) }
      .ok t.complete
    | none =>
      s.classRule [s.labX a, s.labX b]
      let onTime := decide (s.rdX b = 0) || (s.findJob s.focus.cl s.focus.core (s.rdX b)).isNone
      if decide ((s.rdX a).toNat ≤ s.dev.cycle.toNat) && onTime then .ok s.complete
      else .ok (s.parkAt (.cycle (s.rdX a) (s.rdX b) false)))

/-- A logical core named by a register: above 191 or unmapped it traps (R180). -/
def State.coreOperand (s : State) (v : Word) : Result Nat :=
  if v.toNat > 191 then .error (s.illegal 9 0)
  else if !s.ctx.mapped s.focus.cl v.toNat then
    .error (s.trap .page 64 (BitVec.ofNat 64 (s.ctx.desc.lsbase + v.toNat * 2 ^ 18)))
  else .ok v.toNat

def execKrd (d k a : Nat) (s : State) : Out :=
  commit s (
    if a = 0 then .ok (s.wrX d ((s.core.counter k).zeroExtend 64) s.topWord).complete
    else do
      let c ← s.coreOperand (s.rdX a)
      let v := (s.coreAt s.focus.cl c).counter k
      .ok (s.later ⟨.x d, v.zeroExtend 512, s.topWord, FFlags.none⟩).complete)

def execKadd (k a : Nat) (s : State) : Out :=
  let v := s.rdX a
  .next (s.mapCore fun c =>
    let w := c.counter k
    let err := if bitAt v 31 then false else bitAt w 31
    let n := (bitsAt w 0 31 + bitsAt v 0 31) % 2 ^ 31 + 2 ^ 31 * oneBit err
    { c with k := filePut (by decide) c.k k (BitVec.ofNat 32 n) }).complete

/-! ### Continuations -/

/-- Checks of SPAWN on the record address (R183 list 2), and the tag of its line (R420; log entry 61). R10's page rule
speaks of uncacheable and compressed pages only; a record address in the local-store window traps MEMATTR too (log entry
57). -/
def State.recordCheck (s : State) (va : Word) : Result State := do
  s.check (alignAll .write 64 [va])
  let (p, t) ← s.check (s.translate s.me .write va)
  s.check (permCheck s.me .write p)
  if p.ls.isSome ∨ !p.cacheable ∨ p.cmp then .error (s.trap .memattr (1 + 8 * oneBit p.cmp) va)
  s.check (t.tagCheck s.me .write p)
  .ok t

/-- The image read (R183 list 3), the tag of its line checked too (R420; log entry 61). -/
def State.imageRead (s : State) (va : Word) : Result (VWord × State) := do
  s.check (alignAll .read 64 [va])
  let (p, t) ← s.check (s.translate s.me .read va)
  s.check (permCheck s.me .read p)
  s.check (t.tagCheck s.me .read p)
  s.check (t.poisonCheck s.me .read p)
  let t := t.found s.me p
  t.inHand
  if t.eval (t.lineWord p) ≠ topLabel then .error (s.illegal 12 va)
  .ok (t.dev.lineData (lineOf p.loc), t)

def execSpawn (a b : Nat) (s : State) : Out :=
  commit s (do
    s.edgeGuard 1 0
    s.classRule [s.labX a, s.labX b]
    let t ← s.recordCheck (s.rdX a)
    let (image, t) ← t.imageRead (s.rdX b)
    .ok ((t.inheritBar s.core.crec (s.rdX a)).create (s.rdX a) image (rQid (s.record s.core.crec)) s.core.epoch).complete)

/-- ILLEGAL 13 inside an upcall handler, then LOOPSUSP (R23). -/
def State.suspendCheck (s : State) : Result Unit := do
  if s.core.status.inup then .error (s.illegal 13 0)
  if !s.core.loops.isEmpty then .error (s.trap .loopsusp 0 0)

/-- ILLEGAL 13 in a gang member (R21). -/
def State.gangCheck (s : State) : Result Unit := if s.core.gang.isSome then .error (s.illegal 13 0) else .ok ()

def execJoin (s : State) : Out :=
  commit s (do
    s.gangCheck
    if rJoin (s.record s.core.crec) = 0 then .ok s.complete
    else
      s.suspendCheck
      .ok (s.drain.suspend 3 0))

/-- One member of a gang has finished; the last retires the record (R19, R184). -/
def State.leaveGang (s : State) (cl core : Nat) (va : Word) (token : Nat) : State :=
  let k := s.cluster cl
  match k.gangs.find? fun g => g.record == va with
  | none => s
  | some g =>
    let first := g.token = none ∧ token ≠ 0
    let s := if first then s.putRecord va (setBits (s.record va) 400 16 token) else s
    let g' : Gang := { g with
      running := g.running.filter (· != core)
      token := if first then some (BitVec.ofNat 16 token) else g.token }
    let others := k.gangs.filter fun h => h.record != va
    if g'.running.isEmpty then
      let s := s.mapCluster cl fun k => { k with gangs := others }
      s.retire va (if g'.token.isSome then 7 else if rToken (s.record va) = 0 then 5 else 6)
    else s.mapCluster cl fun k => { k with gangs := g' :: others }

/-- FINISH, like every suspension point, reads its operands once nothing is outstanding (R22, R344). -/
def execFinish (a : Nat) (s : State) : Out :=
  commit s (do
    s.edgeGuard 1 0
    if a ≠ 0 ∧ s.core.status.mode = .u then .error (s.trap .priv 0 0)
    let u := s.drain
    let token := if a = 0 then 0 else bitsAt (u.rdX a) 0 16
    if a ≠ 0 ∧ token / 2 ^ 15 = 0 then .error (s.illegal 9 0)
    s.suspendCheck
    let va := s.core.crec
    let cl := s.focus.cl
    let t := ((u.savePoint 0 0).mapCore Core.dropUpcalls).vacate cl s.focus.core
    if s.core.gang.isSome then .ok (t.leaveGang cl s.focus.core va token)
    else if a ≠ 0 then .ok (t.failRecord va token)
    else .ok (t.retire va (if rToken (t.record va) = 0 then 5 else 6)))

def execSuspk (k a d : Nat) (s : State) : Out :=
  commit s (do
    s.gangCheck
    let u := s.drain
    u.classRule [u.labX a, u.labX d]
    let c ← (if d = 0 then .ok s.focus.core else u.coreOperand (u.rdX d))
    s.suspendCheck
    .ok (u.suspend 1 (bitsAt (u.rdX a) 0 31 + k * 2 ^ 32 + c * 2 ^ 40)))

def execSuspt (a : Nat) (s : State) : Out :=
  commit s (do
    s.gangCheck
    let u := s.drain
    u.classRule [u.labX a]
    if (u.rdX a).toNat / 2 ^ 60 ≠ 0 then .error (s.illegal 9 0)
    s.suspendCheck
    .ok (u.suspend 2 (u.rdX a).toNat))

def execYield (s : State) : Out :=
  commit s (do
    s.gangCheck
    s.suspendCheck
    .ok (s.drain.suspend 0 0))

end Sys2Proof.Machine
end

