-- ==== Sys2Proof/Machine/LabelOps.lean ====
section
/-! DEFINITION. Label instructions (R226 to R238) and the retirement of CONTRA and WRESET (R224, R225, R232,
R233). -/

namespace Sys2Proof.Machine

/-- {{n}} as a label. -/
def oneAssumption (n : Nat) : Label := [BitVec.ofNat 256 (2 ^ n)]

/-- ILLEGAL 9 for an assumption number above 255 (R228). -/
def State.assumption (s : State) (b : Nat) : Result Nat :=
  if (s.rdX b).toNat > 255 then .error (s.illegal 9 0) else .ok (s.rdX b).toNat

/-- Conj of label words and of one more label, formed; that label counts as wide by the environments it has as it stands (log
entry 89). -/
def State.formWith (s : State) (ws : List LabelWord) (l : Label) : Result (LabelWord × State) :=
  s.formLabel (s.wideOf ws || decide (l.length > 1)) (conj s.ctx.world.nogoods (s.conjOf ws) l)

def execAssume (d a b : Nat) (s : State) : Out :=
  commit s (do
    let n ← s.assumption b
    if d = 0 then .ok s.complete
    else
      let (w, t) ← s.formWith [s.labX a, s.labX b] (oneAssumption n)
      .ok (t.wrX d (s.rdX a) w).complete)

def execAssumev (d a b : Nat) (s : State) : Out :=
  commit s (do
    let n ← s.assumption b
    let (w, t) ← s.formWith [s.labV a, s.labX b] (oneAssumption n)
    .ok (t.wrV d (s.rdV a) w).complete)

/-- The canonical form of a label word (R229). -/
def canonicalWord (epoch : BitVec 8) (w : LabelWord) : LabelWord :=
  let h := if w = 0 ∨ (lwEpoch w = epoch ∧ lwHandle w = 0) then 0
    else if lwEpoch w ≠ epoch ∨ lwHandle w = 0xFFFF then 0xFFFF else lwHandle w
  mkWord epoch false h

def execLblof (d a : Nat) (s : State) : Out :=
  .next (s.wrX d ((canonicalWord s.core.epoch (s.labX a)).zeroExtend 64) s.topWord).complete

/-- The label that a word held as data names; bits [23:16] are ignored (R230). -/
def State.namedLabel (s : State) (v : Word) : Label :=
  s.ctx.world.readWord s.core.epoch ((v.truncate 32 : LabelWord) &&& 0xFF00FFFF)

def execLblset (d a b : Nat) (s : State) : Out :=
  commit s (
    if d = 0 then .ok s.complete
    else match s.formWith [s.labX a, s.labX b] (s.namedLabel (s.rdX b)) with
      | .error e => .error e
      | .ok (w, t) => .ok (t.wrX d (s.rdX a) w).complete)

def execLjoin (d a b : Nat) (s : State) : Out :=
  let ws := [s.labX a, s.labX b]
  let wide := s.wideOf ws
  let same := decide (s.rdX a = s.rdX b)
  commit s (do
    let t ← (if same ∧ d ≠ 0 then
        match s.formLabel wide (disj s.ctx.world.nogoods (s.eval (s.labX a)) (s.eval (s.labX b))) with
        | .error e => .error e
        | .ok (w, t) => .ok (t.wrX d (s.rdX a) w)
      else .ok s)
    let (w, t) ← t.formLabel wide (s.conjOf ws)
    .ok (t.wrP 7 (if same then BitVec.allOnes 64 else 0) w).complete)

/-! ### CONTRA and WRESET -/

/-- What the acknowledgement of a CONTRA in a pair hands over: the container issues again and, both its words taking effect,
adds the nogoods that were sent (R47, R232, R233; log entry 23). -/
def ackPair : Word := 2

/-- CONTRA and CONTRAV of a label word: sent to the umpires, and completed when they have acknowledged; a handed
over 1 is NGFULL (R232). -/
def State.contra (s : State) (w : LabelWord) : Out :=
  commit s (do
    s.edgeGuard 1 0
    match s.grantValue with
    | some v =>
      if v = 0 then .ok s.complete
      else if v = ackPair then
        match s.ctx.world.addNogoods (s.core.sent.getD []) with
        | some world => .ok (s.mapWorld fun _ => world).complete
        | none => .error (s.trap .ngfull 0 0)
      else .error (s.trap .ngfull 0 0)
    | none =>
      if s.eval w = topLabel then .error (s.illegal 9 0)
      else .ok (s.parkAt (.contra (s.eval w))))

def execContra (a : Nat) (s : State) : Out := s.contra (s.labX a)
def execContrav (a : Nat) (s : State) : Out := s.contra (s.labV a)

/-- Every umpire has acknowledged the CONTRA of a core. -/
def State.retireContra (s : State) (cl core : Nat) (g : Label) : State :=
  if !(s.coreAt cl core).issue.lone then s.mapCoreAt cl core fun c => { c.wake ackPair with sent := some g }
  else match s.ctx.world.addNogoods g with
    | some w => (s.mapWorld fun _ => w).mapCoreAt cl core (·.wake 0)
    | none => s.mapCoreAt cl core (·.wake 1)

/-- The acknowledgement of a CONTRA arrives (R232, R233). -/
def execContraRetire (cl core : Nat) (s : State) : Out :=
  .next (match (s.coreAt cl core).park with
    | some (.contra g) => s.retireContra cl core g
    | _ => s)

/-- The world of a new epoch (R224, R225). -/
def World.advance (w : World) (swept : Bool) : World :=
  let e := nextEpoch w.epoch
  { w with
    epoch := e, used := if swept then [e] else e :: w.used, table := [], nogoods := [], nggen := w.nggen + 1 }

/-- Label words that read ⊤ take the word of the new epoch (R236). -/
def relabel (w : World) (old new : BitVec 8) (lw : LabelWord) : LabelWord :=
  if w.eval old lw = topLabel then mkWord new false 0 else lw

def Regs.relabel (r : Regs) (w : World) (old new : BitVec 8) : Regs :=
  let f := Machine.relabel w old new
  { r with xl := r.xl.map f, fl := r.fl.map f, vl := r.vl.map f, pl := r.pl.map f }

/-- The WRESET of a core takes effect, or the epoch that LBLWRAP reports when the new one is still in use (R224, R225). In
a pair what the instructions have latched is relabelled too (log entry 23). -/
def State.newEpoch (s : State) (cl core : Nat) : Except (BitVec 8) State :=
  let c := s.coreAt cl core
  let w := s.ctx.world
  let e := nextEpoch w.epoch
  if w.used.contains e ∧ !c.lblcfg.swept then .error e
  else
    .ok ((s.mapWorld (·.advance c.lblcfg.swept)).mapCoreAt cl core fun c =>
      { c with
        epoch := e, regs := c.regs.relabel w c.epoch e, lblcfg := { c.lblcfg with swept := false }
        latch := c.latch.map fun l => (l.1.relabel w c.epoch e, { l.2 with swept := false }) })

/-- What the acknowledgement of a WRESET in a pair hands over, which is no epoch (R47, log entry 23). -/
def ackReset : Word := 256

/-- WRESET: outstanding results return, then the umpires; a handed over epoch is the one that LBLWRAP reports
(R225, R236). -/
def execWreset (s : State) : Out :=
  commit s (do
    s.edgeGuard 1 0
    match s.grantValue with
    | some v =>
      if v = 0 then .ok s.complete
      else if v = ackReset then
        match s.newEpoch s.focus.cl s.focus.core with
        | .ok t => .ok t.complete
        | .error e => .error (s.trap .lblwrap e.toNat 0)
      else .error (s.trap .lblwrap v.toNat 0)
    | none => .ok (s.drain.parkAt .wreset))

/-- Every umpire has acknowledged the WRESET of a core. -/
def State.retireReset (s : State) (cl core : Nat) : State :=
  if !(s.coreAt cl core).issue.lone then s.mapCoreAt cl core (·.wake ackReset)
  else match s.newEpoch cl core with
    | .ok t => t.mapCoreAt cl core (·.wake 0)
    | .error e => s.mapCoreAt cl core (·.wake (e.zeroExtend 64))

def execWresetRetire (cl core : Nat) (s : State) : Out :=
  .next (if (s.coreAt cl core).park = some .wreset then s.retireReset cl core else s)

/-! ### Inspection (R234, R235) -/

def execLtest (d a : Nat) (s : State) : Out :=
  let l := s.eval (s.labX a)
  let v := oneBit (decide (l = [])) + 2 * oneBit (decide (l = topLabel)) + 2 ^ 8 * (l.length % 256)
    + 2 ^ 32 * (s.ctx.world.nggen.toNat % 2 ^ 32)
  commit s (.ok (s.later ⟨.x d, BitVec.ofNat 512 v, s.topWord, FFlags.none⟩).complete)

def execLenv (d a b : Nat) (s : State) : Out :=
  let l := s.eval (s.labX a)
  let i := bitsAt (s.rdX b) 2 5
  let q := bitsAt (s.rdX b) 0 2
  commit s (do
    if (s.rdX b).toNat > 127 then .error (s.illegal 9 0)
    let v := ((l[i]?).map fun e => lane 64 e q).getD 0
    .ok (s.later ⟨.x d, BitVec.ofNat 512 v, s.topWord, FFlags.none⟩).complete)

/-! ### Label words of lines (R237, R238) -/

/-- The line of an address with checks 2 to 5 of R159. -/
def State.linePlace (s : State) (acc : Access) (va : Word) : Result (Place × State) := do
  let (ps, t) ← s.resolve acc 1 1 [va]
  match ps with
  | p :: _ => .ok (p, t)
  | [] => .error .stall

def execLld (d a : Nat) (s : State) : Out :=
  commit s (do
    let (p, t) ← s.linePlace .read (s.rdX a)
    let w := t.lineWord p
    let t ← (t.cacheLine p).laterConj (.x d) (w.zeroExtend 512) [s.labX a] FFlags.none
    .ok t.complete)

/-- LST in U mode: a partial write of no bytes, its label formed as that of a store (R161). -/
def State.narrowLine (s : State) (p : Place) (ws : List LabelWord) (l : Label) : Result State := do
  let (w, t) ← s.formWith ws l
  let nl := t.eval w
  t.trialLabels nl [p]
  t.pageLabelCheck nl (lwHandle w) [p]
  if p.lt then (t.beforeWrite p).putPartialLabel p nl else .ok t

/-- LST in S mode: the word as written, bits [23:17] cleared. -/
def State.setLineWord (s : State) (p : Place) (w : LabelWord) : Result State :=
  let w := w &&& 0xFF01FFFF
  if p.lt then .ok ((s.beforeWrite p).mapDev (·.setRawLabel (lineOf p.loc) w))
  else if w = 0 ∨ lwHandle w = 0 then .ok s
  else .error (s.trap .lblpage (lwHandle w) p.va)

def execLst (d a : Nat) (s : State) : Out :=
  commit s (do
    s.edgeGuard 1 (s.rdX a)
    let (p, t) ← s.linePlace .write (s.rdX a)
    let w : LabelWord := (s.rdX d).truncate 32
    let t ← (match s.core.status.mode with
      | .s => t.setLineWord p w
      | .u => t.narrowLine p [s.labX d, s.labX a] (s.ctx.world.readWord s.core.epoch w))
    .ok t.complete)

end Sys2Proof.Machine
end

