-- ==== Sys2Proof/Machine/Ring.lean ====
section
/-! DEFINITION. The engine fault ring (R417, R418) and the service counter (R404). -/

namespace Sys2Proof.Machine

/-- One more at the service counter (R404, R415, R417). -/
def State.service (s : State) : State :=
  s.bumpAt s.ctx.desc.svcCluster s.ctx.desc.svcCore s.ctx.desc.svcCounter 1 false

/-- VA of a ring record. -/
def Context.ringVa (k : Context) (slot : Nat) : Word := BitVec.ofNat 64 (k.desc.fring + 32 * (slot % 64))

/-- STATE of a ring record; an unreadable record reads as 0 (log entry 13). -/
def State.ringState (s : State) (slot : Nat) : Nat :=
  match s.engineRead hostAgent (s.ctx.ringVa slot) 1 with
  | .ok (v, _, _) => v
  | .error _ => 0

/-- CAUSE of a ring record and CODE of a job for a replayable failure (R279, R417). -/
def replayCode (c : Cause) : Option Nat :=
  match c with
  | .page => some 2
  | .perm => some 3
  | .memattr => some 5
  | .memerr | .illegal | .pair | .misalign | .range | .lblovf | .lbltab | .ngfull | .lblctl | .lblpage | .lblwrap
  | .loopovf | .loopsusp | .edgestore | .mmalease | .catchTrap | .priv | .svc => none

/-- A record of the ring that cannot be read is counted as an access that failed (R458). -/
def State.ringError (s : State) (slot : Nat) : State :=
  match s.engineRead hostAgent (s.ctx.ringVa slot) 1 with
  | .ok _ => s
  | .error d => s.noteDeny hostAgent d

/-- A record posted (R417); `none` while the next record is not free. -/
def State.postRecord (s : State) (cl crew : Nat) (job : Word) (cause acc : Nat) (va : Word) : Option State :=
  let slot := s.ctx.ringNext % 64
  if s.ringState slot ≠ 0 then none
  else
    let low := 1 + cause * 2 ^ 8 + acc * 2 ^ 12 + crew * 2 ^ 16
    let bs := bytesOf 16 low ++ bytesOf 8 job.toNat ++ bytesOf 8 va.toNat
    let s := (s.ringError slot).statusWrite hostAgent (s.ctx.ringVa slot) bs
    some (s.service.mapCtx fun k =>
      { k with ringNext := slot + 1, ringOwners := insertAt slot (cl, crew, job) k.ringOwners })

/-- A record freed by the unit that posted it (R418). -/
def State.freeRecord (s : State) (slot : Nat) : State :=
  (s.statusWrite hostAgent (s.ctx.ringVa slot) [0]).mapCtx fun k => { k with ringOwners := eraseAt slot k.ringOwners }

end Sys2Proof.Machine
end

