-- ==== Sys2Proof/Machine/Float.lean ====
section
/-! DEFINITION. Scalar float instructions (R112 to R115). -/

namespace Sys2Proof.Machine

/-- The rounding mode in force (R101). -/
def State.rm (s : State) (rm : Rm) : Nat := rm.mode s.src.fcsr.rm

def half (n : Nat) : Half := BitVec.ofNat 32 n

/-- A result in an f register with its flags; completes with bypass (R112). -/
def State.floatResult (s : State) (d : Nat) (r : Nat × FFlags) (ws : List LabelWord) : Out :=
  commit s (match s.setF d (half r.1) ws with
    | .error e => .error e
    | .ok t => .ok (t.orFlags r.2).complete)

/-- A result in an x register with its flags. -/
def State.floatToX (s : State) (d : Nat) (v : Word) (fl : FFlags) (ws : List LabelWord) : Out :=
  commit s (match s.setX d v ws with
    | .error e => .error e
    | .ok t => .ok (t.orFlags fl).complete)

/-- A long-latency result in an f register (R53). -/
def State.floatLater (s : State) (d : Nat) (r : Nat × FFlags) (ws : List LabelWord) : Out :=
  commit s (match s.laterConj (.f d) (BitVec.ofNat 512 r.1) ws r.2 with
    | .error e => .error e
    | .ok t => .ok t.complete)

/-- The value of an f register. -/
def State.valF (s : State) (a : Nat) : FVal := fp32.decode (s.rdF a).toNat

def execFadd (rm : Rm) (d a b : Nat) (s : State) : Out :=
  s.floatResult d (fp32.addV (s.rm rm) (s.valF a) (s.valF b)) [s.labF a, s.labF b]
def execFsub (rm : Rm) (d a b : Nat) (s : State) : Out :=
  s.floatResult d (fp32.addV (s.rm rm) (s.valF a) (s.valF b).neg) [s.labF a, s.labF b]
def execFmul (rm : Rm) (d a b : Nat) (s : State) : Out :=
  s.floatResult d (fp32.mulF (s.rm rm) (s.valF a) (s.valF b)) [s.labF a, s.labF b]
def execFdiv (rm : Rm) (d a b : Nat) (s : State) : Out :=
  s.floatLater d (fp32.divF (s.rm rm) (s.valF a) (s.valF b)) [s.labF a, s.labF b]
def execFfma (rm : Rm) (d a b : Nat) (s : State) : Out :=
  s.floatResult d (fp32.fmaF (s.rm rm) (s.valF d) (s.valF a) (s.valF b)) [s.labF d, s.labF a, s.labF b]
def execFmin (d a b : Nat) (s : State) : Out :=
  s.floatResult d (fp32.minMax false (s.rdF a).toNat (s.rdF b).toNat) [s.labF a, s.labF b]
def execFmax (d a b : Nat) (s : State) : Out :=
  s.floatResult d (fp32.minMax true (s.rdF a).toNat (s.rdF b).toNat) [s.labF a, s.labF b]
def execFsqrt (rm : Rm) (d a : Nat) (s : State) : Out :=
  s.floatLater d (fp32.sqrtF (s.rm rm) (s.valF a)) [s.labF a]
def execFcmp (cc : FCc) (d a b : Nat) (s : State) : Out :=
  let r := cc.eval (s.valF a) (s.valF b)
  s.floatToX d (boolWord r.1) r.2 [s.labF a, s.labF b]

end Sys2Proof.Machine

namespace Sys2Proof

/-- Bounds of an integer type (R114). -/
def IntTy.lo : IntTy → Int
  | .i32 => -(2 ^ 31) | .u32 => 0 | .i64 => -(2 ^ 63) | .u64 => 0
def IntTy.hi : IntTy → Int
  | .i32 => 2 ^ 31 - 1 | .u32 => 2 ^ 32 - 1 | .i64 => 2 ^ 63 - 1 | .u64 => 2 ^ 64 - 1

/-- An x register read as the type. -/
def IntTy.read (t : IntTy) (v : Word) : Int :=
  match t with
  | .i32 => Machine.sext 32 v.toNat | .u32 => (v.toNat % 2 ^ 32 : Nat) | .i64 => v.toInt | .u64 => v.toNat

end Sys2Proof

namespace Sys2Proof.Machine

def execFcvtfi (rm : Rm) (it : IntTy) (d a : Nat) (s : State) : Out :=
  let r := toInt (s.rm rm) it.lo it.hi (s.valF a)
  s.floatToX d (wordOf r.1) r.2 [s.labF a]
def execFcvtif (rm : Rm) (it : IntTy) (d a : Nat) (s : State) : Out :=
  s.floatResult d (fp32.ofInt (s.rm rm) (it.read (s.rdX a))) [s.labX a]
def execFmvxf (d a : Nat) (s : State) : Out := s.floatToX d ((s.rdF a).zeroExtend 64) FFlags.none [s.labF a]
def execFmvfx (d a : Nat) (s : State) : Out :=
  s.floatResult d ((s.rdX a).toNat % 2 ^ 32, FFlags.none) [s.labX a]
def execFclass (d a : Nat) (s : State) : Out :=
  s.floatToX d (BitVec.ofNat 64 (2 ^ fp32.classify (s.rdF a).toNat)) FFlags.none [s.labF a]

end Sys2Proof.Machine
end

