-- ==== Sys2Proof/Machine/Vector.lean ====
section
/-! DEFINITION. Vector instructions (R116 to R128) and table loading (R129). -/

namespace Sys2Proof.Machine

/-! ### Kinds of form (R117) -/

/-- The governing predicate's label word, when it counts. -/
def State.predLab (s : State) (pg : Nat) : List LabelWord := if pg = 0 then [] else [s.labP pg]
/-- The old destination's label word, when a merging form reads it. -/
def State.mergeLab (s : State) (d pg : Nat) : List LabelWord := if pg = 0 then [] else [s.labV d]

/-- A vector register written with its flags; completes with bypass. -/
def State.vecResult (s : State) (d : Nat) (r : VWord × FFlags) (ws : List LabelWord) : Out :=
  commit s (match s.setV d r.1 ws with
    | .error e => .error e
    | .ok t => .ok (t.orFlags r.2).complete)

/-- A long-latency vector result (R53). -/
def State.vecLater (s : State) (d : Nat) (r : VWord × FFlags) (ws : List LabelWord) : Out :=
  commit s (match s.laterConj (.v d) r.1 ws r.2 with
    | .error e => .error e
    | .ok t => .ok t.complete)

/-- The register whose active lanes of type `t` are computed by `f` and whose other lanes are those of `old`; the
flags of the active lanes. -/
def mapLanes (t : ElemTy) (p : Word) (old : VWord) (f : Nat → Nat × FFlags) : VWord × FFlags :=
  let rs := (List.range t.count).map fun i => if t.active p i then f i else (lane t.bits old i, FFlags.none)
  (ofLanes t.bits (rs.map Prod.fst), FFlags.all (rs.map Prod.snd))

/-- A merging form (R117) over the operands' label words. -/
def State.merging (s : State) (t : ElemTy) (d pg : Nat) (ws : List LabelWord) (f : Nat → Nat × FFlags) : Out :=
  s.vecResult d (mapLanes t (s.rdP pg) (s.rdV d) f) (ws ++ s.predLab pg ++ s.mergeLab d pg)

/-- The same, long-latency. -/
def State.mergingLater (s : State) (t : ElemTy) (d pg : Nat) (ws : List LabelWord) (f : Nat → Nat × FFlags) : Out :=
  s.vecLater d (mapLanes t (s.rdP pg) (s.rdV d) f) (ws ++ s.predLab pg ++ s.mergeLab d pg)

/-- Lane `i` of a vector register, and its value. -/
def State.laneV (s : State) (t : ElemTy) (a i : Nat) : Nat := lane t.bits (s.rdV a) i
def State.laneF (s : State) (t : ElemTy) (a i : Nat) : FVal := t.fmt.decode (s.laneV t a i)
def State.laneI (s : State) (t : ElemTy) (a i : Nat) : Int := t.signed (s.laneV t a i)

/-- An integer result without flags. -/
def intLane (t : ElemTy) (i : Int) : Nat × FFlags := (t.wrap i, FFlags.none)

/-- A two-operand merging form, by its float and its integer meaning (R119). -/
def State.vec2 (s : State) (t : ElemTy) (d a b pg : Nat) (f : FVal → FVal → Nat × FFlags) (g : Int → Int → Int) :
    Out :=
  s.merging t d pg [s.labV a, s.labV b] fun i =>
    if t.isInt then intLane t (g (s.laneI t a i) (s.laneI t b i)) else f (s.laneF t a i) (s.laneF t b i)

/-- FCSR.RM as the instruction uses it. -/
def State.frm (s : State) : Nat := s.src.fcsr.rm

def execVadd (t : ElemTy) (d a b pg : Nat) (s : State) : Out := s.vec2 t d a b pg (t.fmt.addV s.frm) (· + ·)
def execVsub (t : ElemTy) (d a b pg : Nat) (s : State) : Out :=
  s.vec2 t d a b pg (fun x y => t.fmt.addV s.frm x y.neg) (· - ·)
def execVmul (t : ElemTy) (d a b pg : Nat) (s : State) : Out := s.vec2 t d a b pg (t.fmt.mulF s.frm) (· * ·)

/-- VFMA and VFMS (R119): accumulating. -/
def State.fused (s : State) (t : ElemTy) (d a b pg : Nat) (minus : Bool) : Out :=
  s.vecResult d
    (mapLanes t (s.rdP pg) (s.rdV d) fun i =>
      if t.isInt then
        let p := s.laneI t a i * s.laneI t b i
        intLane t (s.laneI t d i + if minus then -p else p)
      else
        let x := s.laneF t a i
        t.fmt.fmaF s.frm (s.laneF t d i) (if minus then x.neg else x) (s.laneF t b i))
    ([s.labV d, s.labV a, s.labV b] ++ s.predLab pg)

def execVfma (t : ElemTy) (d a b pg : Nat) (s : State) : Out := s.fused t d a b pg false
def execVfms (t : ElemTy) (d a b pg : Nat) (s : State) : Out := s.fused t d a b pg true

/-- Minimum or maximum of two lanes (R112, R119). -/
def laneMinMax (t : ElemTy) (max : Bool) (x y : Nat) : Nat × FFlags :=
  if t.isInt then
    let less := decide (t.signed x < t.signed y)
    (if less != max then x else y, FFlags.none)
  else t.fmt.minMax max x y

/-- A two-operand merging form on lane bits. -/
def State.vecBits (s : State) (t : ElemTy) (d a b pg : Nat) (f : Nat → Nat → Nat × FFlags) : Out :=
  s.merging t d pg [s.labV a, s.labV b] fun i => f (s.laneV t a i) (s.laneV t b i)

def execVmin (t : ElemTy) (d a b pg : Nat) (s : State) : Out := s.vecBits t d a b pg (laneMinMax t false)
def execVmax (t : ElemTy) (d a b pg : Nat) (s : State) : Out := s.vecBits t d a b pg (laneMinMax t true)

/-- A one-operand merging form on lane bits. -/
def State.vec1 (s : State) (t : ElemTy) (d a pg : Nat) (f : Nat → Nat × FFlags) : Out :=
  s.merging t d pg [s.labV a] fun i => f (s.laneV t a i)

def execVabs (t : ElemTy) (d a pg : Nat) (s : State) : Out :=
  s.vec1 t d a pg fun x => (if t.isInt then t.wrap (t.signed x).natAbs else x % t.fmt.signBit, FFlags.none)
def execVneg (t : ElemTy) (d a pg : Nat) (s : State) : Out :=
  s.vec1 t d a pg fun x => (if t.isInt then t.wrap (-t.signed x) else x ^^^ t.fmt.signBit, FFlags.none)

def plain (n : Nat) : Nat × FFlags := (n, FFlags.none)

def execVand (t : ElemTy) (d a b pg : Nat) (s : State) : Out := s.vecBits t d a b pg fun x y => plain (x &&& y)
def execVor (t : ElemTy) (d a b pg : Nat) (s : State) : Out := s.vecBits t d a b pg fun x y => plain (x ||| y)
def execVxor (t : ElemTy) (d a b pg : Nat) (s : State) : Out := s.vecBits t d a b pg fun x y => plain (x ^^^ y)
def execVshl (t : ElemTy) (d a b pg : Nat) (s : State) : Out :=
  s.vecBits t d a b pg fun x y => plain (x * 2 ^ (y % t.bits) % 2 ^ t.bits)
def execVshr (t : ElemTy) (d a b pg : Nat) (s : State) : Out :=
  s.vecBits t d a b pg fun x y => plain (x / 2 ^ (y % t.bits))
def execVsra (t : ElemTy) (d a b pg : Nat) (s : State) : Out :=
  s.vecBits t d a b pg fun x y => intLane t (t.signed x / ((2 ^ (y % t.bits) : Nat) : Int))

/-! ### Compare, select, permute (R120, R121) -/

def execVcmp (cc : VCc) (t : ElemTy) (p a b pg : Nat) (s : State) : Out :=
  let act (i : Nat) : Bool := t.active (s.rdP pg) i
  let r (i : Nat) : Bool × FFlags :=
    if t.isInt then (cc.evalI (s.laneI t a i) (s.laneI t b i), FFlags.none)
    else cc.evalF (s.laneF t a i) (s.laneF t b i)
  let fl := FFlags.all (((List.range t.count).filter act).map fun i => (r i).2)
  commit s (match s.setP p (predOf t fun i => act i && (r i).1) ([s.labV a, s.labV b] ++ s.predLab pg) with
    | .error e => .error e
    | .ok u => .ok (u.orFlags fl).complete)

def execVsel (t : ElemTy) (d a b pg : Nat) (s : State) : Out :=
  s.vecResult d (mapLanes t (s.rdP pg) (s.rdV b) fun i => plain (s.laneV t a i))
    ([s.labV a, s.labV b] ++ s.predLab pg)

def execVmov (t : ElemTy) (d a pg : Nat) (s : State) : Out := s.vec1 t d a pg plain

def execVperm (t : ElemTy) (d a b pg : Nat) (s : State) : Out :=
  let n := t.count
  s.vecResult d
    (mapLanes t (s.rdP pg) (s.rdV d) fun i =>
      let j := s.laneV t b i % (2 * n)
      plain (if j < n then s.laneV t a j else s.laneV t d (j - n)))
    ([s.labV d, s.labV a, s.labV b] ++ s.predLab pg)

/-! ### Conversion, encoding, scaling (R122 to R124) -/

/-- One lane of type `src` as type `t`. -/
def convertLane (rm : Nat) (t src : ElemTy) (x : Nat) : Nat × FFlags :=
  let lo : Int := -((2 ^ (t.bits - 1) : Nat) : Int)
  let hi : Int := (2 ^ (t.bits - 1) : Nat) - 1
  match src.isInt, t.isInt with
  | false, false => t.fmt.convert rm (src.fmt.decode x)
  | false, true =>
    let r := toInt rm lo hi (src.fmt.decode x)
    (t.wrap r.1, r.2)
  | true, false => t.fmt.ofInt rm (src.signed x)
  | true, true => intLane t (max lo (min hi (src.signed x)))

def execVcvt (t src : ElemTy) (d a pg : Nat) (s : State) : Out :=
  s.merging t d pg [s.labV a] fun i =>
    if i < src.count then convertLane s.frm t src (s.laneV src a i) else plain 0

/-- The entries of a bank. -/
def State.bank (s : State) (b : Bank) : List Half :=
  match b with
  | .a => s.src.bankA.toList | .b => s.src.bankB.toList

/-- Bits of one code. -/
def codeBits (b : Bank) : Nat :=
  match b with
  | .a => 8 | .b => 4

def execVenc (bk : Bank) (nan : Bool) (t : ElemTy) (d a pg : Nat) (s : State) : Out :=
  let w := codeBits bk
  let rs := (List.range t.count).map fun i =>
    if t.active (s.rdP pg) i then
      encodeValue (s.bank bk) nan (decide (s.laneV t a i / t.fmt.signBit = 1)) (s.laneF t a i)
    else plain (lane w (s.rdV d) i)
  s.vecResult d (ofLanes w (rs.map Prod.fst), FFlags.all (rs.map Prod.snd))
    ([s.labV a] ++ s.predLab pg ++ s.mergeLab d pg)

def execVdec (bk : Bank) (t : ElemTy) (d a pg : Nat) (s : State) : Out :=
  s.merging t d pg [s.labV a] fun i =>
    t.fmt.convert 0 (decodeEntry ((s.bank bk).getD (lane (codeBits bk) (s.rdV a) i) 0))

def execVscale (t : ElemTy) (d a b pg : Nat) (s : State) : Out :=
  s.merging t d pg [s.labV a, s.labV b] fun i => t.fmt.scale (s.laneF t a i) (lane 8 (s.rdV b) i)

/-! ### Reductions and approximations (R125, R126) -/

/-- The tree of R125 over `2 ^ k` values. -/
def reduceTree (op : Nat → Nat → Nat × FFlags) : Nat → List Nat → Nat × FFlags
  | 0, l => plain (l.headD 0)
  | k + 1, l =>
    let h := l.length / 2
    let rs := (List.range h).map fun i => op (l.getD i 0) (l.getD (i + h) 0)
    let r := reduceTree op k (rs.map Prod.fst)
    (r.1, (FFlags.all (rs.map Prod.snd)).or r.2)

def State.reduce (s : State) (t : ElemTy) (d a pg : Nat) (ident : Nat) (op : Nat → Nat → Nat × FFlags) : Out :=
  let vals := (List.range t.count).map fun i => if t.active (s.rdP pg) i then s.laneV t a i else ident
  let r := reduceTree op t.count.log2 vals
  s.vecResult d (BitVec.ofNat 512 r.1, r.2) ([s.labV a] ++ s.predLab pg)

def execVreds (t : ElemTy) (d a pg : Nat) (s : State) : Out :=
  s.reduce t d a pg (if t.isInt then 0 else t.fmt.zeroBits true) fun x y =>
    if t.isInt then plain ((x + y) % 2 ^ t.bits) else t.fmt.addV 0 (t.fmt.decode x) (t.fmt.decode y)
def execVredm (t : ElemTy) (d a pg : Nat) (s : State) : Out :=
  s.reduce t d a pg (if t.isInt then 2 ^ (t.bits - 1) else t.fmt.infBits true) (laneMinMax t true)

def execVexp2 (t : ElemTy) (d a pg : Nat) (s : State) : Out :=
  s.mergingLater t d pg [s.labV a] fun i => t.fmt.exp2F (s.laneF t a i)
def execVrcp (t : ElemTy) (d a pg : Nat) (s : State) : Out :=
  s.mergingLater t d pg [s.labV a] fun i => t.fmt.rcpF (s.laneF t a i)
def execVrsq (t : ElemTy) (d a pg : Nat) (s : State) : Out :=
  s.mergingLater t d pg [s.labV a] fun i => t.fmt.rsqF (s.laneF t a i)

/-! ### Between the files (R127, R128) -/

/-- The scalar that VBCAST and VINS put in a lane, with its flags, and its label word. -/
def State.scalarLane (s : State) (t : ElemTy) (a : Nat) : Nat × FFlags :=
  match t with
  | .f32 => plain (s.rdF a).toNat
  | .bf16 => bf16.convert s.frm (s.valF a)
  | .f16 => fp16.convert s.frm (s.valF a)
  | .i32 => plain ((s.rdX a).toNat % 2 ^ 32)
  | .i16 => plain ((s.rdX a).toNat % 2 ^ 16)
  | .i8 => plain ((s.rdX a).toNat % 2 ^ 8)

def State.scalarLab (s : State) (t : ElemTy) (a : Nat) : LabelWord := if t.isInt then s.labX a else s.labF a

def execVbcast (t : ElemTy) (d a pg : Nat) (s : State) : Out :=
  s.merging t d pg [s.scalarLab t a] fun _ => s.scalarLane t a

/-- VINS is a move: it sets no flag, when it narrows the scalar to the lane neither (R100, R127; log entry 54). -/
def execVins (t : ElemTy) (d a b : Nat) (s : State) : Out :=
  let j := (s.rdX b).toNat
  s.vecResult d (ofLanes t.bits ((List.range t.count).map fun i => if i = j then (s.scalarLane t a).1 else s.laneV t d i),
    FFlags.none) [s.labV d, s.scalarLab t a, s.labX b]

def execVext (t : ElemTy) (d a b : Nat) (s : State) : Out :=
  let j := (s.rdX b).toNat
  let ws := [s.labV a, s.labX b]
  if t.isInt then s.floatToX d (if j < t.count then wordOf (s.laneI t a j) else 0) FFlags.none ws
  else
    s.floatResult d (if j < t.count then (match t with
        | .f32 => plain (s.laneV t a j)
        | .bf16 | .f16 | .i32 | .i16 | .i8 => fp32.convert 0 (s.laneF t a j))
      else plain 0) ws

def execPset (t : ElemTy) (p a : Nat) (s : State) : Out :=
  commit s (match s.setP p (predOf t fun i => decide (i < (s.rdX a).toNat)) [s.labX a] with
    | .error e => .error e
    | .ok u => .ok u.complete)

def execPlog (op : PlogOp) (d a b : Nat) (s : State) : Out :=
  let x := s.rdP a
  let y := s.rdP b
  let v := match op with
    | .and2 => x &&& y | .or2 => x ||| y | .xor2 => x ^^^ y | .andn2 => x &&& ~~~y | .not1 => ~~~x
  commit s (match s.setP d v [s.labP a, s.labP b] with
    | .error e => .error e
    | .ok u => .ok u.complete)

/-! ### DTLD (R129) -/

/-- Lines of an image, each an address. -/
def imageLines (base : Word) (n : Nat) : List Word := (List.range n).map fun i => base + BitVec.ofNat 64 (64 * i)

/-- The numbers as 32-bit entries. -/
def entriesOf (lines : List Nat) : List Half :=
  lines.flatMap fun v => (List.range 16).map fun i => BitVec.ofNat 32 (v / 2 ^ (32 * i))

/-- A bank replaced. -/
def Regs.loadBank (r : Regs) (b : Bank) (es : List Half) : Regs :=
  match b with
  | .a => { r with bankA := tabulate 256 fun i => es.getD i 0 }
  | .b => { r with bankB := tabulate 16 fun i => es.getD i 0 }

/-- DTLD (R129): the Class rule of x[a] comes before its alignment (log entry 36), the lines' labels before their entries. -/
def execDtld (b : Bank) (a : Nat) (s : State) : Out :=
  let base := s.rdX a
  let lines := match b with
    | .a => imageLines base 16
    | .b => imageLines base 1
  commit s (do
    s.edgeGuard 1 0
    s.classRule [s.labX a]
    s.check (alignAll .read 64 [base])
    let (els, t) ← s.loadAll 64 64 lines
    t.inHand
    match (lines.zip els).find? fun e => decide (t.eval e.2.2 ≠ topLabel) with
    | some e => .error (s.illegal 12 e.1)
    | none =>
      let es := entriesOf (els.map Prod.fst)
      match tableFault es with
      | some c => .error (s.illegal 11 (base + BitVec.ofNat 64 (4 * c)))
      | none =>
        .ok ((t.mapRegs (·.loadBank b es)).mapCore fun c => { c with tableGen := c.tableGen + 1 }).complete)

end Sys2Proof.Machine
end

