-- ==== Sys2Proof/Machine/Copy.lean ====
section
/-! DEFINITION. The copy unit (R270 to R287): jobs, their execution and completion, JSUB, JPOLL and JCANCEL. -/

namespace Sys2Proof.Machine

/-! ### Descriptors (R271 to R276) -/

/-- A descriptor's fields as a job that is not accepted yet. -/
def jobOf (d : VWord) (dealpat : Word) : Job :=
  let f (lo n : Nat) : Nat := bitsAt d lo n
  { id := 0, core := 0, record := 0, mode := .u, kind := f 0 4, k := f 4 4, fk := bitAt d 8, fa := bitAt d 9, g := f 10 4
    fn := bitAt d 14, src := d.extractLsb' 64 64, dst := d.extractLsb' 128 64, len := f 192 32, rows := f 224 16
    sstride := sext 32 (f 256 32), dstride := sext 32 (f 288 32), arg := d.extractLsb' 320 64
    statva := d.extractLsb' 384 64, handler := d.extractLsb' 448 64, dealpat := dealpat, routine := none, ctl := 0
    bankA := fill 256 0, bankB := fill 16 0, state := .queued, retried := false, fault := none, locks := [] }

/-- Bits of an element of a CONVERT type code (R273). -/
def typeBits (t : Nat) : Nat :=
  match t with
  | 0 => 32 | 1 => 16 | 2 => 16 | 3 => 32 | 4 => 16 | 5 => 8 | 6 => 8 | _ => 4

def Job.stype (j : Job) : Nat := bitsAt j.arg 0 3
def Job.dtype (j : Job) : Nat := bitsAt j.arg 3 3

/-- Bytes of a source row and of a destination row (R272). -/
def Job.srcLen (j : Job) : Nat :=
  match j.kind with
  | 1 => j.len * typeBits j.stype / 8
  | 4 => 4 * j.len
  | _ => j.len
def Job.dstLen (j : Job) : Nat :=
  match j.kind with
  | 1 => j.len * typeBits j.dtype / 8
  | 4 => 4 * j.len
  | _ => j.len

/-- Fields of DEALPAT (R275). -/
def dealScope (p : Word) : Bool := bitAt p 0
def dealBlock (p : Word) : Nat := 64 * 2 ^ bitsAt p 8 4
def dealCores (p : Word) : Nat := bitsAt p 12 8
def dealFirst (p : Word) : Nat := bitsAt p 20 8
def dealOff (p : Word) : Nat := bitsAt p 28 18

/-- The pattern is legal (R275). -/
def dealOk (p : Word) : Bool :=
  let limit := if dealScope p then 192 else 8
  decide (dealOff p % 64 = 0) && decide (bitsAt p 8 4 ≤ 10) && decide (dealFirst p < limit)
    && decide (1 ≤ dealCores p) && decide (dealFirst p + dealCores p ≤ limit)

/-- Blocks of a DEAL: (offset in the source, length, logical core, offset in the local store) (R276). -/
def dealBlocks (p : Word) (crew len : Nat) : List (Nat × Nat × Nat × Nat) :=
  let bs := dealBlock p
  (List.range ((len + bs - 1) / bs)).map fun b =>
    let t := dealFirst p + b % dealCores p
    (b * bs, min bs (len - b * bs), if dealScope p then t else 8 * crew + t, dealOff p + b / dealCores p * bs)

/-- Window VA of a byte of a local store. -/
def Context.storeVa (k : Context) (core off : Nat) : Word := BitVec.ofNat 64 (k.desc.lsbase + core * 2 ^ 18 + off)

/-- Destination spans of a job as (lowest byte, length). -/
def State.jobSpans (s : State) (crew : Nat) (j : Job) : List (Nat × Nat) :=
  if j.kind = 3 then
    (dealBlocks j.dealpat crew j.len).map fun b => ((s.ctx.storeVa b.2.2.1 b.2.2.2).toNat, b.2.1)
  else [boundsOf j.dst j.rows j.dstLen j.dstride]

/-- Spans that the job writes byte by byte, for the check of R133: its rows or blocks, and the status word, which no
operation writes into an inbox either. -/
def State.writtenSpans (s : State) (crew : Nat) (j : Job) : List (Nat × Nat) :=
  (if j.kind = 3 then s.jobSpans crew j
    else (List.range j.rows).map fun (r : Nat) => ((j.dst + wordOf (((r : Nat) : Int) * j.dstride)).toNat, j.dstLen))
    ++ if j.statva = 0 then [] else [(j.statva.toNat, 8)]

/-- The interval that bounds spans. -/
def spanHull (l : List (Nat × Nat)) : Nat × Nat :=
  match l with
  | [] => (0, 0)
  | r :: rs =>
    let lo := rs.foldl (fun a x => min a x.1) r.1
    (lo, rs.foldl (fun a x => max a (x.1 + x.2)) (r.1 + r.2) - lo)

/-- Destination ranges that the job registers (R153): the bounding interval of its rows, or, for a DEAL, of the blocks of
each target core (R276). -/
def State.jobLocks (s : State) (crew : Nat) (j : Job) : List (Nat × Nat) :=
  if j.kind = 3 then
    let blocks := dealBlocks j.dealpat crew j.len
    ((blocks.map fun b => b.2.2.1).eraseDups).map fun c =>
      spanHull ((blocks.filter fun b => b.2.2.1 == c).map fun b => ((s.ctx.storeVa b.2.2.1 b.2.2.2).toNat, b.2.1))
  else s.jobSpans crew j

def spansMeet (a b : Nat × Nat) : Bool := decide (a.1 < b.1 + b.2) && decide (b.1 < a.1 + a.2)

/-- The argument is legal for its kind (R272, R273). -/
def Job.argOk (j : Job) : Bool :=
  match j.kind with
  | 0 => decide (j.arg = 0)
  | 1 =>
    let sb := max 1 (typeBits j.stype / 8)
    let db := max 1 (typeBits j.dtype / 8)
    decide (bitsAt j.arg 14 50 = 0) && !bitAt j.arg 7 && decide (j.stype ≠ j.dtype)
      && decide (j.src.toNat % sb = 0) && decide (j.dst.toNat % db = 0)
      && (decide (j.rows = 1) || (decide (j.sstride % sb = 0) && decide (j.dstride % db = 0)))
      && (decide (j.len % 2 = 0) || (decide (j.stype ≠ 7) && decide (j.dtype ≠ 7)))
  | 2 => decide (bitsAt j.arg 16 16 = 0)
  | 3 => decide (j.arg = 0) && decide (j.len % 64 = 0) && decide (j.rows = 1) && dealOk j.dealpat
  | 4 => decide (j.arg.toNat < 4) && decide (j.len * j.rows * 4 ≤ 2 ^ 16)
  | _ => false

/-- The descriptor keeps R271 to R276. -/
def State.jobOk (s : State) (crew : Nat) (d : VWord) (j : Job) : Bool :=
  decide (bitsAt d 240 16 = 0) && decide (bitsAt d 15 49 = 0) && decide (j.rows ≠ 0) && decide (j.len ≠ 0)
    && decide (j.handler.toNat % 4 = 0) && decide (j.statva.toNat % 8 = 0) && j.argOk
    && !((s.jobLocks crew j).any fun r => spansMeet r (boundsOf j.src j.rows j.srcLen j.sstride))

/-! ### Planned writes -/

/-- Bytes to be written within one destination line, and the source lines that supply them (R215); `part` where its line is
written in part whatever its bytes: REDUCE reads it first (R162), or half a byte of it keeps its old bits (R274). -/
structure Piece where
  va : Word
  bytes : List Byte
  src : List (Word × LabelWord)
  part : Bool
  deriving DecidableEq, Repr

/-- One destination line as a job writes it, as one whole (R215, R279): its runs of bytes, a label word to copy when
a single source line supplies all 64, and else the label words of the lines that supply it; and whether it is a partial
write (R161) though it has all 64 bytes. -/
structure LineWrite where
  va : Word
  bytes : List Byte
  rest : List (Word × List Byte)
  copied : Option LabelWord
  words : List LabelWord
  part : Bool
  deriving DecidableEq, Repr

/-- The place of another byte of the place's line. -/
def Place.move (p : Place) (va : Word) : Place := { p with va := va, loc := lineOf p.loc + va.toNat % 64 }

/-- The first run of a line written, with its label: C joins it (R213, R215). -/
def State.writeRun (s : State) (a : Agent) (core : Nat) (ctl : LabelWord) (p : Place) (w : LineWrite) :
    Except EngineFail State :=
  match w.copied, decide (s.engineEval ctl = topLabel) with
  | some lw, true =>
    if s.engineEval lw ≠ topLabel ∧ !p.lt then .error (.page (lwHandle lw) w.va)
    else if s.dev.linkLost p.loc then .error (.access ⟨.memerr, Access.write.code + a.engineBit, p.va⟩)
    else
      let t := if p.lt then s.mapDev (·.setRawLabel (lineOf p.loc) lw) else s
      .ok ((t.engineBytes a p w.bytes).cleared (lineOf p.loc))
  | some lw, false => s.engineStore a core p w.bytes (s.engineConj [lw, ctl])
  | none, _ =>
    let nl := s.engineConj (ctl :: w.words)
    if w.part then s.enginePartial a core p w.bytes nl else s.engineStore a core p w.bytes nl

/-- A line or a part of one written at its place. -/
def State.writeAt (s : State) (a : Agent) (core : Nat) (ctl : LabelWord) (p : Place) (w : LineWrite) :
    Except EngineFail State :=
  match s.writeRun a core ctl p w with
  | .error e => .error e
  | .ok t => .ok (w.rest.foldl (fun t r => t.engineBytes a (p.move r.1) r.2) t)

/-- One planned write made. -/
def State.writeLine (s : State) (a : Agent) (core : Nat) (ctl : LabelWord) (w : LineWrite) : Except EngineFail State :=
  match liftDeny (s.enginePlace a .write w.va) with
  | .error e => .error e
  | .ok (p, t) => t.writeAt a core ctl p w

/-- Writes made in order. -/
def State.writeLines (s : State) (a : Agent) (core : Nat) (ctl : LabelWord) : List LineWrite → Except EngineFail State
  | [] => .ok s
  | w :: ws =>
    match s.writeLine a core ctl w with
    | .error e => .error e
    | .ok t => t.writeLines a core ctl ws

/-- As many of the writes as a free value says, for work that ends early (R279). -/
def State.writeSome (s : State) (a : Agent) (core : Nat) (ctl : LabelWord) (ws : List LineWrite) : State :=
  let n := s.freeNat 0 % (ws.length + 1)
  (ws.take n).foldl (fun t w => match t.writeLine a core ctl w with
    | .ok u => u
    | .error _ => t) s.drawn

/-- Whether the piece supplies byte `i` of a line. -/
def Piece.covers (p : Piece) (line : Word) (i : Nat) : Bool :=
  decide (lineVa p.va = line) && decide (p.va.toNat % 64 ≤ i) && decide (i < p.va.toNat % 64 + p.bytes.length)

def Piece.byteAt (p : Piece) (i : Nat) : Byte := p.bytes.getD (i - p.va.toNat % 64) 0

/-- Runs of consecutive bytes, as (offset, bytes). -/
def runsOf : List (Nat × Byte) → List (Nat × List Byte)
  | [] => []
  | (i, b) :: t =>
    match runsOf t with
    | (j, bs) :: rest => if j = i + 1 then (i, b :: bs) :: rest else (i, [b]) :: (j, bs) :: rest
    | [] => [(i, [b])]

/-- What the pieces make of one line, a later piece over an earlier one. -/
def mergeLine (copy : Bool) (pieces : List Piece) (line : Word) : Option LineWrite :=
  let mine := (pieces.filter fun p => lineVa p.va == line).reverse
  let given := (List.range 64).filterMap fun i => (mine.find? fun p => p.covers line i).map fun p => (i, p)
  let src := (given.flatMap fun e => e.2.src).eraseDups
  match runsOf (given.map fun e => (e.1, e.2.byteAt e.1)) with
  | [] => none
  | (i, bs) :: rest =>
    some
      { va := line + BitVec.ofNat 64 i, bytes := bs
        rest := rest.map fun r => (line + BitVec.ofNat 64 r.1, r.2)
        copied := if copy ∧ bs.length = 64 ∧ src.length = 1 then (src.head?).map Prod.snd else none
        words := src.map Prod.snd, part := mine.any Piece.part }

/-- The lines that the pieces write, in order. -/
def mergeLines (copy : Bool) (pieces : List Piece) : List LineWrite :=
  ((pieces.map fun p => lineVa p.va).eraseDups).filterMap (mergeLine copy pieces)

/-- The pieces of a row as (offset in the row, length), by destination line. -/
def rowPieces (va : Word) (len : Nat) : List (Nat × Nat) :=
  (piecesOf va len).map fun p => ((p.1 - va).toNat, p.2)

/-- What a job would write: the pieces, the failure that ended its reading with the destination spans that it left,
and the offending element. -/
structure Plan where
  pieces : List Piece
  fail : Option EngineFail
  left : List (Word × Nat)
  conv : Option Nat
  deriving DecidableEq, Repr

/-- The lines of a plan that are planned whole. -/
def Plan.lines (p : Plan) (copy : Bool) : List LineWrite :=
  let open_ := (p.left.flatMap fun s => piecesOf s.1 s.2).map fun x => lineVa x.1
  mergeLines copy (p.pieces.filter fun x => !open_.contains (lineVa x.va))

/-- What planning one piece of a row gives: its bytes, and, where an element stops the work, how many elements of the
last byte keep their old bits. -/
abbrev PieceResult := Except Deny (List Piece × Option Nat × State)

/-- Pieces planned one by one until one cannot be or stops the work. -/
def planPieces (f : Nat × Nat → State → PieceResult) : List (Nat × Nat) → State → List Piece → Plan × State
  | [], s, acc => (⟨acc, none, [], none⟩, s)
  | p :: ps, s, acc =>
    match f p s with
    | .error d => (⟨acc, some (.access d), [], none⟩, s)
    | .ok (w, some k, t) => (⟨acc ++ w, none, [], some k⟩, t)
    | .ok (w, none, t) => planPieces f ps t (acc ++ w)

/-- Bytes read, with the source lines that hold them and the words that copies of these carry. -/
def State.readSources (s : State) (a : Agent) (va : Word) (len : Nat) :
    Except Deny (List Byte × List (Word × LabelWord) × State) := do
  let (bs, ws, t) ← s.readPieces State.copyWord a (piecesOf va len)
  .ok (bs, ((piecesOf va len).map fun p => lineVa p.1).zip ws, t)

/-- Bytes copied, cut where the source line changes. -/
def cutSources (dst : Word) : List (Word × Nat) → List Byte → List (Word × LabelWord) → List Piece
  | (_, n) :: ps, bs, w :: ws => ⟨dst, bs.take n, [w], false⟩ :: cutSources (dst + BitVec.ofNat 64 n) ps (bs.drop n) ws
  | _, _, _ => []

/-- One copied piece. -/
def copyPiece (a : Agent) (src dst : Word) (p : Nat × Nat) (s : State) : PieceResult := do
  let from_ := src + BitVec.ofNat 64 p.1
  let (bs, ws, t) ← s.readSources a from_ p.2
  .ok (cutSources (dst + BitVec.ofNat 64 p.1) (piecesOf from_ p.2) bs ws, none, t)

/-! ### CONVERT (R273, R274) -/

/-- A decoded source element: a float value with its sign and whether it is subnormal, or an integer. -/
inductive Source where
  | float (v : FVal) (neg sub : Bool)
  | int (i : Int)
  deriving DecidableEq, Repr

def elemOf (t : Nat) : ElemTy :=
  match t with
  | 0 => .f32 | 1 => .bf16 | 2 => .f16 | 3 => .i32 | 4 => .i16 | _ => .i8

def subnormalBits (t : Fmt) (v : Nat) : Bool := decide (v / 2 ^ t.mb % 2 ^ t.eb = 0) && decide (v % 2 ^ t.mb ≠ 0)

def Job.bankOf (j : Job) (t : Nat) : List Half := if t = 6 then j.bankA.toList else j.bankB.toList

def Job.readElement (j : Job) (v : Nat) : Source :=
  let t := j.stype
  if t < 3 then
    let f := (elemOf t).fmt
    .float (f.decode v) (decide (v / f.signBit = 1)) (subnormalBits f v)
  else if t < 6 then .int ((elemOf t).signed v)
  else
    let e := (j.bankOf t).getD v 0
    .float (decodeEntry e) (bitAt e 18) (subnormalBits e8m10 (bitsAt e 0 19))

/-- The destination bits and whether the element offends. -/
def Job.convertElement (j : Job) (x : Source) : Nat × Bool :=
  let rm := bitsAt j.arg 12 2
  let fnan := bitAt j.arg 8
  let finf := bitAt j.arg 9
  let fovf := bitAt j.arg 10
  let fsub := bitAt j.arg 11
  let t := j.dtype
  let isNan := match x with
    | .float v _ _ => v.isNan
    | .int _ => false
  let isInf := match x with
    | .float (.inf _) _ _ => true
    | .float (.nan _) _ _ => false
    | .float (.fin _ _ _) _ _ => false
    | .int _ => false
  let srcSub := match x with
    | .float _ _ b => b
    | .int _ => false
  let (bits, ovf, sub) : Nat × Bool × Bool :=
    if t < 3 then
      let f := (elemOf t).fmt
      let r := match x with
        | .float v _ _ => f.convert rm v
        | .int i => f.ofInt rm i
      (r.1, r.2.of, subnormalBits f r.1)
    else if t < 6 then
      let e := elemOf t
      let lo : Int := -((2 ^ (e.bits - 1) : Nat) : Int)
      let hi : Int := (2 ^ (e.bits - 1) : Nat) - 1
      match x with
      | .float v _ _ =>
        let r := toInt rm lo hi v
        (e.wrap r.1, r.2.nv && !isNan, false)
      | .int i => (e.wrap (max lo (min hi i)), decide (i < lo ∨ i > hi), false)
    else
      let bank := j.bankOf t
      let r := match x with
        | .float v n _ => encodeValue bank (bitAt j.arg 6) n v
        | .int i => encodeValue bank (bitAt j.arg 6) (decide (i < 0)) (.fin (decide (i < 0)) i.natAbs 0)
      (r.1, r.2.of, r.2.uf)
  (bits, (fnan && isNan) || (finf && isInf) || (fovf && ovf) || (fsub && (srcSub || sub)))

/-- Elements before the first that offends, and whether one does. -/
def untilOffence : List (Nat × Bool) → List Nat × Bool
  | [] => ([], false)
  | (v, bad) :: t => if bad then ([], true) else
    let r := untilOffence t
    (v :: r.1, r.2)

/-- Source pieces read one by one until one cannot be: what was read, and the failure. -/
def State.readPrefix (s : State) (a : Agent) :
    List (Word × Nat) → List Byte × List (Word × LabelWord) × Option Deny × State
  | [] => ([], [], none, s)
  | p :: ps =>
    match s.readSources a p.1 p.2 with
    | .error d => ([], [], some d, s)
    | .ok (bs, ws, t) =>
      let r := t.readPrefix a ps
      (bs ++ r.1, ws ++ r.2.1, r.2.2)

/-- One converted piece of a row; it stops at an offending element, whose half byte keeps its old bits. Elements are
taken in ascending order, so an element past the offending one is not read. -/
def Job.convertPiece (j : Job) (a : Agent) (src dst : Word) (p : Nat × Nat) (s : State) :
    PieceResult := do
  let sb := typeBits j.stype
  let db := typeBits j.dtype
  let e0 := p.1 * 8 / db
  let n := p.2 * 8 / db
  let skip := e0 * sb % 8
  let from_ := src + BitVec.ofNat 64 (e0 * sb / 8)
  let (bs, ws, bad, t) := s.readPrefix a (piecesOf from_ ((n * sb + skip + 7) / 8))
  let raw := natOf bs / 2 ^ skip
  let outs := (List.range (min n ((bs.length * 8 - skip) / sb))).map fun i =>
    j.convertElement (j.readElement (raw / 2 ^ (sb * i) % 2 ^ sb))
  let (good, stop) := untilOffence outs
  let ws := ws.take (piecesOf from_ ((good.length * sb + skip + 7) / 8)).length
  let va := dst + BitVec.ofNat 64 p.1
  let whole := good.length * db / 8
  match stop, bad with
  | false, some d => .error d
  | _, _ =>
    if good.length * db % 8 = 0 then
      .ok ([⟨va, bytesOf whole (packLanes db good), ws, false⟩], if stop then some 0 else none, t)
    else
      let (old, _, t) ← t.engineRead a (va + BitVec.ofNat 64 whole) 1
      .ok ([⟨va, bytesOf (whole + 1) (packLanes db (good ++ [old / 16])), ws, true⟩], if stop then some 1 else none, t)

/-- The elements that the pieces hold: the flat index of an offending element, but for those of its byte that keep
their old bits. -/
def Job.countElements (j : Job) (ws : List Piece) : Nat :=
  (ws.map fun w => w.bytes.length * 8 / typeBits j.dtype).sum

/-- The half byte that a stopped job leaves in the last byte that it writes is that of an earlier row where one wrote it
(R274). -/
def keepNibble (ps : List Piece) : List Piece :=
  match ps.reverse with
  | [] => ps
  | last :: earlier =>
    let at_ := last.va + BitVec.ofNat 64 (last.bytes.length - 1)
    match earlier.find? fun q => q.covers (lineVa at_) (at_.toNat % 64) with
    | none => ps
    | some q =>
      let old := (q.byteAt (at_.toNat % 64)).toNat
      let new := ((last.bytes.getLast?).getD 0).toNat
      let b : Byte := BitVec.ofNat 8 (new % 16 + old / 16 * 16)
      earlier.reverse ++ [{ last with bytes := last.bytes.dropLast ++ [b], src := last.src ++ q.src, part := false }]

/-! ### REDUCE (R278) -/

def reduceOp (op old v : Nat) : Nat :=
  match op with
  | 0 => (fp32.addV 0 (fp32.decode old) (fp32.decode v)).1
  | 1 => (old + v) % 2 ^ 32
  | 2 => (fp32.minMax true old v).1
  | _ => (fp32.minMax false old v).1

/-- One row's result bytes, and the label words of a piece's lines. -/
def Job.reducePiece (j : Job) (a : Agent) (src dst : Word) (p : Nat × Nat) (s : State) : PieceResult := do
  let e0 := p.1 / 4
  let e1 := (p.1 + p.2 + 3) / 4
  let (sv, sw, t) ← s.readSources a (src + BitVec.ofNat 64 (4 * e0)) (4 * (e1 - e0))
  let (dv, dw, t) ← t.readSources a (dst + BitVec.ofNat 64 (4 * e0)) (4 * (e1 - e0))
  let (_, t) ← t.enginePlace a .write (dst + BitVec.ofNat 64 p.1)
  let vals := ((lanesOf sv).zip (lanesOf dv)).map fun e => reduceOp (bitsAt j.arg 0 2) e.2 e.1
  let bs := ((bytesOf (4 * (e1 - e0)) (packLanes 32 vals)).drop (p.1 - 4 * e0)).take p.2
  .ok ([⟨dst + BitVec.ofNat 64 p.1, bs, sw ++ dw, true⟩], none, t)
where
  /-- 32-bit elements of bytes. -/
  lanesOf (bs : List Byte) : List Nat := elementsList (natOf bs) (bs.length / 4)
  elementsList (n count : Nat) : List Nat := (List.range count).map fun i => n / 2 ^ (32 * i) % 2 ^ 32

/-! ### Plans by kind -/

/-- The crew's copy unit, on behalf of the issuer of a job (R142). -/
def Job.agent (j : Job) (cl crew : Nat) : Agent := ⟨cl, j.mode, .copy crew j.record⟩

/-- Address of a row. -/
def strideAddr (base : Word) (stride : Int) (r : Nat) : Word := base + wordOf ((r : Int) * stride)

/-- Rows planned in order; `span` gives the destination of a row. -/
def planRows (span : Nat → Word × Nat) (row : Nat → State → Plan × State) : List Nat → State → List Piece → Plan × State
  | [], s, acc => (⟨acc, none, [], none⟩, s)
  | r :: rs, s, acc =>
    let (p, t) := row r s
    let acc := acc ++ p.pieces
    if p.fail.isSome then (⟨acc, p.fail, (r :: rs).map span, none⟩, t)
    else if p.conv.isSome then (⟨acc, none, [], p.conv⟩, t)
    else planRows span row rs t acc

/-- All source rows read, for a transform. -/
def State.readRows (s : State) (a : Agent) (j : Job) : List Nat → Except Deny (List Byte × List LabelWord × State)
  | [] => .ok ([], [], s)
  | r :: rs => do
    let (bs, ws, t) ← s.readSpan a (strideAddr j.src j.sstride r) j.len
    let (bs', ws', u) ← t.readRows a j rs
    .ok (bs ++ bs', ws ++ ws', u)

/-- What the routine writes (R277); `none` in the plan's place is ROUTINE. -/
def State.planTransform (s : State) (a : Agent) (j : Job) : Option (Plan × State) :=
  match j.routine with
  | none => none
  | some image =>
    match s.readRows a j (List.range j.rows) with
    | .error d => some (⟨[], some (.access d), [], none⟩, s)
    | .ok (bs, ws, t) =>
      let m (i : Int) : Nat := (i % ((2 ^ 32 : Nat) : Int)).toNat
      match Config.transform image bs j.len j.rows (m j.sstride) (m j.dstride) (bitsAt j.arg 32 32) with
      | none => none
      | some out =>
        if out.length ≠ j.len * j.rows then none
        else
          let pieces := (List.range j.rows).flatMap fun r =>
            let dst := strideAddr j.dst j.dstride r
            (rowPieces dst j.len).map fun p =>
              ⟨dst + BitVec.ofNat 64 p.1, (out.drop (r * j.len + p.1)).take p.2, ws.map fun w => (0, w), false⟩
          some (⟨pieces, none, [], none⟩, t)

/-- The plan of a job; `none` is ROUTINE. -/
def State.planJob (s : State) (cl crew : Nat) (j : Job) : Option (Plan × State) :=
  let a := j.agent cl crew
  let span (r : Nat) : Word × Nat := (strideAddr j.dst j.dstride r, j.dstLen)
  let rows (f : Word → Word → Nat × Nat → State → PieceResult) : Plan × State :=
    planRows span (fun r s =>
      let dst := strideAddr j.dst j.dstride r
      planPieces (f (strideAddr j.src j.sstride r) dst) (rowPieces dst j.dstLen) s []) (List.range j.rows) s []
  match j.kind with
  | 0 => some (rows (copyPiece a))
  | 1 =>
    let (p, t) := rows (j.convertPiece a)
    some ({ p with
      pieces := if p.conv = some 1 then keepNibble p.pieces else p.pieces
      conv := p.conv.map fun kept => j.countElements p.pieces - kept }, t)
  | 2 => s.planTransform a j
  | 3 =>
    let blocks := dealBlocks j.dealpat crew j.len
    let at_ (b : Nat × Nat × Nat × Nat) : Word := s.ctx.storeVa b.2.2.1 b.2.2.2
    some (planRows (fun i => ((blocks[i]?).map fun b => (at_ b, b.2.1)).getD (0, 0)) (fun i s =>
      match blocks[i]? with
      | none => (⟨[], none, [], none⟩, s)
      | some b => planPieces (copyPiece a (j.src + BitVec.ofNat 64 b.1) (at_ b)) (rowPieces (at_ b) b.2.1) s [])
      (List.range blocks.length) s [])
  | _ => some (rows (j.reducePiece a))

/-- The lines that a plan of the job writes (R215). -/
def Job.linesOf (j : Job) (p : Plan) : List LineWrite := p.lines (decide (j.kind = 0 ∨ j.kind = 3))

/-- What a job that ends early leaves (R279): a free number of its lines, none of a REDUCE. -/
def State.leaveEarly (s : State) (a : Agent) (j : Job) (p : Plan) : State :=
  if j.kind = 4 then s else s.writeSome a j.core j.ctl (j.linesOf p)

/-- What a running job that is cancelled leaves. -/
def State.cancelPlan (s : State) (cl crew : Nat) (j : Job) : State :=
  match s.planJob cl crew j with
  | some (p, t) => t.leaveEarly (j.agent cl crew) j p
  | none => s

/-! ### Completion (R279 to R281) -/

/-- CODE of a failure. -/
def EngineFail.code (f : EngineFail) : Nat :=
  match f with
  | .access d =>
    match d.cause with
    | .page => 2
    | .perm => 3
    | .memattr => 5
    | .memerr | .illegal | .pair | .misalign | .range | .lblovf | .lbltab | .ngfull | .lblctl | .lblpage | .lblwrap
    | .loopovf | .loopsusp | .edgestore | .mmalease | .catchTrap | .priv | .svc => 4
  | .page _ _ => 6
  | .label (.ovf _) => 7
  | .label .tab => 8

/-- The failure is met by replay (R281): PAGE, PERM, MEMATTR by the ring, MEMERR once. -/
def EngineFail.replayable (f : EngineFail) : Bool :=
  match f with
  | .access _ => true
  | .page _ _ => false
  | .label _ => false

def statusOf (state code index : Nat) : Nat := state + code * 2 ^ 8 + index * 2 ^ 32

def State.mapCopy (s : State) (cl crew : Nat) (f : CopyUnit → CopyUnit) : State := s.mapCluster cl (·.mapCopy crew f)
def State.copyUnit (s : State) (cl crew : Nat) : CopyUnit := (s.cluster cl).copyUnit crew

def State.setJob (s : State) (cl crew : Nat) (id : Word) (f : Job → Job) : State :=
  s.mapCopy cl crew fun u => { u with jobs := u.jobs.map fun j => if j.id = id then f j else j }

/-- Statuses kept: 64 of each core, newest first (R280). -/
def keepStatus (kept : List (Word × Word × Nat)) (e : Word × Word × Nat) : List (Word × Word × Nat) :=
  let mine := (kept.filter fun x => x.2.2 == e.2.2).take (Config.keptStatuses - 1)
  e :: mine ++ kept.filter fun x => x.2.2 != e.2.2

/-- A job completes with a code (R280). -/
def State.completeJob (s : State) (cl crew : Nat) (j : Job) (code index : Nat) : State :=
  let w := statusOf 3 code index
  let s := s.statusWrite (j.agent cl crew) j.statva (bytesOf 8 w)
  let s := s.unlock cl j.locks
  let s := s.mapCopy cl crew fun u =>
    { u with
      jobs := u.jobs.filter fun x => x.id != j.id
      kept := keepStatus u.kept (j.id, BitVec.ofNat 64 w, j.core) }
  let s := if j.fk then s.bumpAt cl j.core j.k 1 (decide (code ≠ 0)) else s
  let s := if j.fa then s.engineArrive cl j.g (192 + crew) (decide (code ≠ 0)) else s
  if j.fn ∧ j.handler ≠ 0 then s.mapCoreAt cl j.core (·.post ⟨.notify, code, j.id, j.handler⟩) else s

/-- What a job comes to when it runs. -/
inductive JobEnd where
  | complete (s : State) (code index : Nat)
  | replay (s : State) (f : EngineFail)
  deriving DecidableEq, Repr

/-- A job run from its first row; one that ends with ROUTINE has written nothing (log entry 31). -/
def State.runJob (s : State) (cl crew : Nat) (j : Job) : JobEnd :=
  let a := j.agent cl crew
  match s.planJob cl crew j with
  | none => .complete s 10 0
  | some (p, t) =>
    match p.fail with
    | some f => .replay (s.leaveEarly a j p) f
    | none =>
      match t.writeLines a j.core j.ctl (j.linesOf p) with
      | .error f =>
        let early := s.leaveEarly a j p
        if f.replayable then .replay early f else .complete early f.code 0
      | .ok u =>
        match p.conv with
        | some n => .complete u 1 n
        | none => .complete u 0 0

/-! ### Events -/

/-- The next accepted job starts (R270). -/
def execJobStart (cl crew : Nat) (s : State) : Out :=
  s.engineRuns (match (s.copyUnit cl crew).jobs.find? fun j => j.state == .queued with
    | some j => s.setJob cl crew j.id fun j => { j with state := .running }
    | none => s)

def State.runningJob (s : State) (cl crew : Nat) (id : Word) : Option Job :=
  (s.copyUnit cl crew).jobs.find? fun j => j.id == id && j.state == .running

/-- A running job that ends completes (R280). -/
def execJobComplete (cl crew : Nat) (id : Word) (s : State) : Out :=
  s.engineRuns (match s.runningJob cl crew id with
    | none => s
    | some j =>
      match s.runJob cl crew j with
      | .complete t code index => t.completeJob cl crew j code index
      | .replay _ _ => s)

/-- A running job whose access fails is abandoned for replay, or completes (R281). -/
def execJobFault (cl crew : Nat) (id : Word) (s : State) : Out :=
  s.engineRuns (match s.runningJob cl crew id with
    | none => s
    | some j =>
      match s.runJob cl crew j with
      | .complete _ _ _ => s
      | .replay t f =>
        let d := f.deny
        match replayCode d.cause with
        | none =>
          let t := t.noteDeny (j.agent cl crew) d
          if j.retried then t.completeJob cl crew j 4 0
          else t.setJob cl crew id fun j => { j with retried := true }
        | some cause =>
          match t.postRecord cl crew id cause (d.info % 4) d.addr with
          | none => s
          | some u => u.setJob cl crew id fun j => { j with state := .awaiting, fault := some (cause, d.info % 4, d.addr) })

/-- A transform that runs too long ends with ROUTINE (R277), and has written nothing (log entry 31). -/
def execTransformTimeout (cl crew : Nat) (id : Word) (s : State) : Out :=
  s.engineRuns (match s.runningJob cl crew id with
    | some j => if j.kind = 2 then s.completeJob cl crew j 10 0 else s
    | none => s)

/-! ### JSUB, JPOLL, JCANCEL (R285 to R287) -/

/-- The descriptor read with checks 2, 3 and 8 of R159, and the tag of its line (R420; log entry 61). -/
def State.readDescriptor (s : State) (va : Word) : Result (VWord × LabelWord × State) := do
  s.check (alignAll .read 64 [va])
  let (p, t) ← s.check (s.translate s.me .read va)
  s.check (permCheck s.me .read p)
  s.check (t.tagCheck s.me .read p)
  s.check (t.poisonCheck s.me .read p)
  let t := t.found s.me p
  t.inHand
  .ok (t.dev.lineData (lineOf p.loc), t.lineWord p, t)

/-- Sequence numbers are never 0. -/
def nextSeq (seq : Half) : Half := if seq + 1 = 0 then 1 else seq + 1

/-- JSUB's two results (R285). -/
def State.jsubResult (s : State) (d : Nat) (id p : Word) : State :=
  let r (n : Nat) (v : Word) : Pending := ⟨.x n, v.zeroExtend 512, s.topWord, FFlags.none⟩
  ((s.later (r d id)).later (r (d + 1) p)).complete

def execJsub (d a : Nat) (s : State) : Out :=
  let cl := s.focus.cl
  let me := s.focus.core
  let crew := crewOf me
  commit s (do
    s.edgeGuard 1 0
    let (desc, lw, t) ← s.readDescriptor (s.rdX a)
    let j := jobOf desc s.core.dealpat
    if !t.jobOk crew desc j then .error (s.illegal 9 0)
    t.inboxCheck (t.writtenSpans crew j)
    if j.fa ∧ s.core.gang = none then .error (s.trap .catchTrap (1 + 256 * j.g) 0)
    if j.fa ∧ !(s.group j.g).isMember (192 + crew) then .error (s.trap .catchTrap (2 + 256 * j.g) 0)
    let (ctl, t) ← t.formConj [s.labX a, lw]
    let u := t.copyUnit cl crew
    if u.jobs.length ≥ Config.copyQueue ∨ (u.jobs.filter fun x => x.core == me).length ≥ Config.copyPerCore then
      .ok (t.jsubResult d 0 s.dev.cycle)
    else
      let src := boundsOf j.src j.rows j.srcLen j.sstride
      let ranges := (src.1, src.2, false) :: (t.jobLocks crew j).map fun r => (r.1, r.2, true)
      match t.lockRanges cl me .copy ranges with
      | none => .error .stall
      | some (locks, t) =>
        let seq := nextSeq u.seq
        let id := BitVec.ofNat 64 (seq.toNat + memberOf me * 2 ^ 32 + crew * 2 ^ 35 + cl * 2 ^ 40)
        let j := { j with
          id := id, core := me, record := s.core.crec, mode := s.core.status.mode, ctl := ctl, locks := locks
          bankA := s.src.bankA, bankB := s.src.bankB
          routine := if j.kind = 2 then lookup s.ctx.routines (bitsAt j.arg 0 16) else none }
        let t := t.mapCopy cl crew fun u => { u with jobs := u.jobs ++ [j], seq := seq }
        .ok (t.drawn.jsubResult d id (BitVec.ofNat 64 (t.freeNat 0))))

def JobState.code : JobState → Nat
  | .queued => 0 | .running => 1 | .awaiting => 2

/-- The status of a job of the core that moves (R279, R286). -/
def State.jobStatus (s : State) (id : Word) : Nat :=
  let u := s.copyUnit s.focus.cl (crewOf s.focus.core)
  match s.findJob s.focus.cl s.focus.core id with
  | some j => j.state.code
  | none =>
    match u.kept.find? fun e => e.1 == id && e.2.2 == s.focus.core with
    | some e => e.2.1.toNat
    | none => 0xFF

def execJpoll (d a : Nat) (s : State) : Out :=
  .next (s.wrX d (BitVec.ofNat 64 (s.jobStatus (s.rdX a))) s.topWord).complete

def execJcancel (d a : Nat) (s : State) : Out :=
  let cl := s.focus.cl
  let crew := crewOf s.focus.core
  let id := s.rdX a
  let fin (t : State) (v : Word) : State := (t.wrX d v s.topWord).complete
  commit s (do
    s.edgeGuard 1 0
    .ok (match s.findJob cl s.focus.core id with
      | some j =>
        match j.state with
        | .queued | .awaiting => fin (s.completeJob cl crew j 9 0) 1
        | .running =>
          let t := s.cancelPlan cl crew j
          fin (t.completeJob cl crew j 9 0) 2
      | none => fin s (if s.jobStatus id = 0xFF then 0 else 3)))

end Sys2Proof.Machine
end

