-- ==== Sys2Proof/Machine/Streams.lean ====
section
/-! DEFINITION. Streams of v28 to v31 (R292 to R295): SMODE, SOFF, and strips fetched ahead of use. -/

namespace Sys2Proof.Machine

def Stream.count (t : Stream) : Nat := t.n0 * t.n1 * t.n2

/-- Address of strip `n` (R292). -/
def Stream.addr (t : Stream) (n : Nat) : Word :=
  t.base + wordOf ((n % t.n0 : Nat) * t.s0 + (n / t.n0 % t.n1 : Nat) * t.s1 + (n / t.n0 / t.n1 : Nat) * t.s2)

/-- Strip `n` read with checks 2, 3, 4 and 8 of R159 (R293), as an access of the core (log entry 75). -/
def State.readStrip (s : State) (a : Agent) (t : Stream) (n : Nat) : Except Deny ((VWord × LabelWord) × State) := do
  let (p, u) ← s.translate a .read (t.addr n)
  permCheck a .read p
  u.tagCheck a .read p
  u.poisonCheck a .read p
  let u := u.found a p
  .ok ((u.dev.lineData p.loc, u.lineWord p), u.cacheLine p)

/-- The stream of an operand group, its control label to come. -/
def State.streamOf (s : State) (a : Nat) : Stream :=
  let n := s.rdX (a + 1)
  let d := s.rdX (a + 2)
  { base := s.rdX a, n0 := bitsAt n 0 16, n1 := bitsAt n 16 16, n2 := bitsAt n 32 16
    s0 := sext 32 (bitsAt d 0 32), s1 := sext 32 (bitsAt d 32 32), s2 := sext 32 (bitsAt (s.rdX (a + 3)) 0 32)
    pos := 0, ctl := 0, ahead := [] }

/-- Counts, strides and reserved bits in range. -/
def State.streamOk (s : State) (a : Nat) (t : Stream) : Bool :=
  decide (bitsAt (s.rdX (a + 1)) 48 16 = 0) && decide (bitsAt (s.rdX (a + 3)) 32 32 = 0)
    && decide (1 ≤ t.n0 ∧ 1 ≤ t.n1 ∧ 1 ≤ t.n2)
    && decide (t.s0 % 64 = 0) && decide (t.s1 % 64 = 0) && decide (t.s2 % 64 = 0)

/-- SMODE (R292). -/
def execSmode (v a : Nat) (s : State) : Out :=
  let t := s.streamOf a
  commit s (do
    s.edgeGuard 1 0
    if t.base.toNat % 64 ≠ 0 then .error (s.trap .misalign 0 t.base)
    if !s.streamOk a t then .error (s.illegal 9 0)
    let (ctl, u) ← s.formConj (s.labGroup a 4)
    .ok (u.mapCore fun c => { c with streams := insertAt v { t with ctl := ctl } c.streams }).complete)

/-- SOFF (R295): the register keeps what it holds. -/
def execSoff (v : Nat) (s : State) : Out :=
  .next (s.mapCore fun c => { c with streams := eraseAt v c.streams }).complete

/-- The next strip of a stream fetched ahead (R294); one that cannot be read is left for the pop. -/
def execStreamStripFetch (cl core v : Nat) (s : State) : Out :=
  let c := s.coreAt cl core
  s.engineRuns (match lookup c.streams v with
    | none => s
    | some t =>
      if t.pos + t.ahead.length ≥ t.count then s
      else match s.readStrip ⟨cl, c.status.mode, .core core⟩ t (t.pos + t.ahead.length) with
        | .error _ => s
        | .ok (strip, u) => u.mapCoreAt cl core fun c =>
          { c with streams := insertAt v { t with ahead := t.ahead ++ [strip] } c.streams })

end Sys2Proof.Machine
end

