-- ==== Sys2Proof/Machine/NearMemory.lean ====
section
/-! DEFINITION. Near memory (R296 to R317): row operations, promotion, base-die reduce. -/

namespace Sys2Proof.Machine

/-! ### Operands (R300, R302) -/

/-- What an operand is: its alignment, bytes and kind of access. -/
inductive RowRole where
  | dst | src | pat | stat
  deriving DecidableEq, Repr

def RowRole.bytes : RowRole → Nat
  | .dst => 1024 | .src => 1024 | .pat => 64 | .stat => 8

def RowRole.access : RowRole → Access
  | .dst => .write | .src => .read | .pat => .read | .stat => .write

/-- Alignment of every operand, in order. -/
def State.rowAlign (s : State) : List (RowRole × Word) → Result Unit
  | [] => .ok ()
  | (r, va) :: rest =>
    if va.toNat % r.bytes ≠ 0 then .error (s.trap .misalign r.access.code va) else s.rowAlign rest

/-- Every operand translated, in order; a status VA of 0 is none. -/
def State.rowTranslate (s : State) : List (RowRole × Word) → Result (List (RowRole × Place) × State)
  | [] => .ok ([], s)
  | (r, va) :: rest =>
    if r = .stat ∧ va = 0 then s.rowTranslate rest
    else do
      let (p, t) ← s.check (s.translate s.me r.access va)
      let (ps, t) ← t.rowTranslate rest
      .ok ((r, p) :: ps, t)

def State.rowPermit (s : State) : List (RowRole × Place) → Result Unit
  | [] => .ok ()
  | (r, p) :: rest => do
    s.check (permCheck s.me r.access p)
    s.rowPermit rest

/-- A place captured. -/
def Place.capture (p : Place) : RowOperand := ⟨p.va, p.loc, p.pa, p.lt, p.cmp⟩

/-- The place of byte `off` of a captured operand. -/
def RowOperand.place (o : RowOperand) (d : Device) (off : Nat) : Place :=
  let loc := if isLocal o.loc then o.loc + off else ((d.locate (o.pa + off)).map Prod.snd).getD (o.loc + off)
  { va := o.va + BitVec.ofNat 64 off, loc := loc, pa := o.pa + off
    ls := if isLocal o.loc then some (o.loc / 2 ^ 18 % 2 ^ 8) else none
    lt := o.lt, cacheable := true, cmp := o.cmp, u := true, x := false, w := true, r := true }

/-- Row operations of a core in flight, promotions apart (R302). -/
def RowKind.isRow : RowKind → Bool
  | .rcopy => true | .rfill => true | .rbool _ => true | .rpromo _ => false | .rdemo => false

def State.rowsInFlight (s : State) : Nat :=
  (s.myCluster.rowq.filter fun r => r.core == s.focus.core && r.kind.isRow).length

/-- A row operation enters the cluster's row queue with its operands as translated (R302). -/
def State.enqueueRow (s : State) (kind : RowKind) (k : Nat) (ctl : LabelWord) (ps : List (RowRole × Place))
    (locks : List Nat) : State :=
  let (id, t) := s.takeId
  let status := ps.find? fun p => decide (p.1 = .stat) && (permCheck s.me .write p.2).isOk
  let op : RowOp :=
    { id := id, kind := kind, core := s.focus.core, record := s.core.crec, k := k, mode := s.core.status.mode, ctl := ctl
      operands := (ps.filter fun p => p.1 ≠ .stat).map fun p => p.2.capture
      status := status.map fun p => p.2.capture, locks := locks }
  (t.mapCluster s.focus.cl fun c => { c with rowq := c.rowq ++ [op] }).complete

/-- Bytes that the operation writes: its destination row, and its status word, which no operation writes into an inbox
either (R133). -/
def writtenBytes (ops : List (RowRole × Word)) : List (Nat × Nat) :=
  (ops.filter fun o => o.1.access.writes && !(o.1 == .stat && o.2 == 0)).map fun o => (o.2.toNat, o.1.bytes)

/-- RCOPY, RFILL and RBOOL at issue (R302): `inputs` are the registers after the destination, with their roles. -/
def State.issueRow (s : State) (kind : RowKind) (k a : Nat) (inputs : List (RowRole × Nat)) : Out :=
  let regs := (RowRole.dst, a) :: inputs
  let ops := regs.map fun r => (r.1, s.rdX r.2)
  commit s (do
    s.edgeGuard 1 0
    s.rowAlign ops
    s.inboxCheck (writtenBytes ops)
    let (ps, t) ← s.rowTranslate ops
    s.rowPermit ps
    let (ctl, t) ← t.formConj (regs.map fun r => s.labX r.2)
    let rows := ps.filter fun p => p.1 ≠ .stat
    let ranges := rows.map fun p => (p.2.va.toNat, p.1.bytes, decide (p.1 = RowRole.dst))
    if s.rowsInFlight ≥ Config.rowOpsPerCore then .error .stall
    match t.lockRanges s.focus.cl s.focus.core .row ranges with
    | none => .error .stall
    | some (locks, t) => .ok (t.enqueueRow kind k ctl ps locks))

def execRcopy (k a : Nat) (s : State) : Out := s.issueRow .rcopy k a [(.src, a + 1), (.stat, a + 2)]
def execRfill (k a : Nat) (s : State) : Out := s.issueRow .rfill k a [(.pat, a + 1), (.stat, a + 2)]

def execRbool (op : RboolOp) (k a : Nat) (s : State) : Out :=
  s.issueRow (.rbool op) k a (match op with
    | .not1 => [(.src, a + 1), (.stat, a + 4)]
    | .maj3 => [(.src, a + 1), (.src, a + 2), (.src, a + 3), (.stat, a + 4)]
    | .and2 | .or2 | .xor2 | .nand2 | .nor2 | .xnor2 => [(.src, a + 1), (.src, a + 2), (.stat, a + 4)])

/-- RPROMO and RDEMO at issue (R309): alignment, translation and read permission. -/
def State.issuePromo (s : State) (kind : RowKind) (k a : Nat) : Out :=
  let ops := [(RowRole.src, s.rdX a), (.stat, s.rdX (a + 1))]
  commit s (do
    s.edgeGuard 1 0
    s.classRule [s.labX a, s.labX (a + 1)]
    s.rowAlign ops
    s.inboxCheck (writtenBytes ops)
    let (ps, t) ← s.rowTranslate ops
    s.rowPermit (ps.filter fun p => p.1 ≠ .stat)
    .ok (t.enqueueRow kind k s.topWord ps []))

def execRpromo (pin : Bool) (k a : Nat) (s : State) : Out := s.issuePromo (.rpromo pin) k a
def execRdemo (k a : Nat) (s : State) : Out := s.issuePromo .rdemo k a

/-! ### Completion (R301) -/

/-- Fields of a row status word but CODE and DONE. -/
structure RowFlags where
  slot : Nat
  evict : Bool
  hit : Bool
  fellback : Bool
  deriving DecidableEq, Repr

def RowFlags.none : RowFlags := ⟨0, false, false, false⟩

def rowStatus (code : Nat) (f : RowFlags) : Nat :=
  1 + 2 * oneBit f.fellback + 4 * oneBit f.hit + 8 * oneBit f.evict + 16 * f.slot + 2 ^ 8 * code

/-- A status word written at the place captured at issue; a write that would fault is dropped (R301, R302). -/
def State.statusAt (s : State) (a : Agent) (o : Option RowOperand) (bs : List Byte) : State :=
  match o with
  | none => s
  | some o =>
    let p := o.place s.dev 0
    let t := s.found a p
    match t.tagCheck a .write p, t.poisonCheck a .write p with
    | .ok (), .ok () => (t.topPartial p).engineBytes a p bs
    | .ok (), .error d => s.noteDeny a d
    | .error _, _ => s

/-- The status word, the ranges released, then the counter. -/
def State.finishRow (s : State) (cl : Nat) (op : RowOp) (code : Nat) (f : RowFlags) : State :=
  let s := s.statusAt (engineOf cl op.mode) op.status (bytesOf 8 (rowStatus code f))
  let s := (s.unlock cl op.locks).mapCluster cl fun c => { c with rowq := c.rowq.filter fun r => r.id != op.id }
  s.bumpAt cl op.core op.k 1 (decide (code ≠ 0))

def State.findRow (s : State) (cl id : Nat) : Option RowOp := (s.cluster cl).rowq.find? fun r => r.id == id

/-! ### Row operations (R303 to R308) -/

/-- The subarray of an operand in the row region or the near window. -/
def RowOperand.subarray (o : RowOperand) (d : Device) : Option Nat :=
  match d.locate o.pa with
  | some (.row, loc) | some (.near, loc) => if o.loc < 2 ^ 40 then some (subarrayOf loc) else none
  | some (.striped, _) | some (.tier2, _) | none => none

/-- The 16 line places of a row. -/
def RowOperand.lines (o : RowOperand) (d : Device) : List Place := (List.range 16).map fun j => o.place d (64 * j)

def Device.lineDirty (d : Device) (line : Nat) : Bool :=
  match lookup d.held line with
  | some h => !h.past.isEmpty
  | none => false

/-- Every element equals the first. -/
def allSame (l : List LabelWord) : Bool := l.all fun w => some w == l.head?

/-- The lines of the operation's rows, with their format. -/
def RowOp.lines (op : RowOp) (d : Device) : List (Nat × Bool) :=
  op.operands.flatMap fun o => (o.lines d).map fun p => (lineOf p.loc, p.cmp)

/-- The caches as the operation finds them when it begins (R303). -/
def State.rowsFound (s : State) (op : RowOp) : State := s.evictSome (op.lines s.dev)

/-- The three conditions of the DRAM path (R303). -/
def State.dramPath (s : State) (op : RowOp) : Bool :=
  let d := s.dev
  match op.operands with
  | [] => false
  | dst :: inputs =>
    let srcs := if op.kind = .rfill then [] else inputs
    let sub := dst.subarray d
    sub.isSome && (srcs.all fun o => o.subarray d == sub)
      && (if op.kind = .rcopy then srcs.all fun o => o.cmp == dst.cmp else (dst :: srcs).all fun o => !o.cmp)
      && (srcs.all fun o => (o.lines d).all fun p => !d.lineDirty (lineOf p.loc))
      && ((dst.lines d).all fun p => (lookup d.held (lineOf p.loc)).isNone)
      && (srcs.all fun o => !o.lt || allSame ((o.lines d).map fun p => d.rawLabel (lineOf p.loc)))

/-- Line j of an input: the pattern is the same for every line. -/
def RowOp.inputLine (op : RowOp) (d : Device) (o : RowOperand) (j : Nat) : Place :=
  if op.kind = .rfill then o.place d 0 else o.place d (64 * j)

/-- The data of a destination line (R305). -/
def rowData (kind : RowKind) (ins : List VWord) : VWord :=
  let s1 := ins.getD 0 0
  let s2 := ins.getD 1 0
  let s3 := ins.getD 2 0
  match kind with
  | .rcopy | .rfill | .rpromo _ | .rdemo => s1
  | .rbool op =>
    match op with
    | .and2 => s1 &&& s2
    | .or2 => s1 ||| s2
    | .xor2 => s1 ^^^ s2
    | .nand2 => ~~~(s1 &&& s2)
    | .nor2 => ~~~(s1 ||| s2)
    | .xnor2 => ~~~(s1 ^^^ s2)
    | .not1 => ~~~s1
    | .maj3 => (s1 &&& s2) ||| (s1 &&& s3) ||| (s2 &&& s3)

/-- A destination line to be written: its place, data, label word, poison. -/
structure RowLine where
  place : Place
  data : VWord
  word : LabelWord
  poisoned : Bool
  deriving DecidableEq, Repr

/-- The label word of a destination line (R306). -/
def State.rowWord (s : State) (cl : Nat) (op : RowOp) (ws : List LabelWord) : Except EngineFail (LabelWord × State) :=
  let plain := decide (op.kind = .rcopy ∨ op.kind = .rfill) && decide (s.engineEval op.ctl = topLabel)
  if plain then .ok (ws.headD 0, s)
  else
    match s.engineForm cl op.core (s.engineConj (op.ctl :: ws)) with
    | .error e => .error e
    | .ok (w, t) => .ok (mkWord s.ctx.world.agentEpoch (ws.any lwP) (lwHandle w), t)

/-- A line is cached under the other format: an operation of the row queue or the base dies that reaches it ends with CODE 4
and writes nothing, R301 giving MEMATTR no code of its own (R140; log entry 61). -/
def State.mistagged (s : State) (p : Place) : Bool := !(s.tagCheck (engineOf 0 .s) .read p).isOk

/-- The destination lines from j on, or the CODE with which nothing is written (R306, R307): that of the lowest line that
fails (log entry 77). -/
def State.rowLines (s : State) (cl : Nat) (op : RowOp) (dst : RowOperand) (inputs : List RowOperand) :
    List Nat → Except Nat (List RowLine × State)
  | [] => .ok ([], s)
  | j :: js =>
    let ps := inputs.map fun o => op.inputLine s.dev o j
    let out := dst.place s.dev (64 * j)
    let barred := s.dev.linkLost out.loc || (out :: ps).any s.mistagged
    let s := ps.foldl (·.settle .device ·) s
    let ws := ps.map s.copyWord
    let data := rowData op.kind (ps.map fun p => s.dev.lineData (lineOf p.loc))
    let bad := ps.any fun p => s.dev.poison.contains (lineOf p.loc) || s.dev.linkLost p.loc
    match s.rowWord cl op ws with
    | .error f => .error f.code
    | .ok (w, s) =>
      match s.rowLines cl op dst inputs js with
      | .error c => .error c
      | .ok (ls, s) =>
        if !dst.lt ∧ s.engineEval w ≠ topLabel then .error 6
        else if barred then .error 4
        else .ok (⟨out, data, w, bad⟩ :: ls, s)

/-- A destination line written. -/
def State.putRowLine (s : State) (l : RowLine) : State :=
  let s := s.settle .device l.place
  let s := if l.place.lt then s.mapDev (·.setRawLabel (lineOf l.place.loc) l.word) else s
  (s.engineBytes (engineOf 0 .s) l.place (bytesOf 64 l.data.toNat)).mapDev fun d =>
    let d := { d with poison := setMember d.poison (lineOf l.place.loc) l.poisoned }
    if l.poisoned then d.count ctrPoison else d

/-- Locations at which the operation fails: poisoned inputs, and rows behind a lost link (R162, R435). -/
def RowOp.failedAt (op : RowOp) (d : Device) (dst : RowOperand) (inputs : List RowOperand) : List Nat :=
  ((inputs.flatMap fun o => (List.range 16).map fun j => (op.inputLine d o j).loc).filter fun l =>
    d.poison.contains (lineOf l) || d.linkLost l) ++ ((dst.lines d).map Place.loc).filter d.linkLost

/-- A queued row operation runs, every source read before any line is written. -/
def execRowOpExecute (cl op : Nat) (s : State) : Out :=
  s.engineRuns (match s.findRow cl op with
    | none => s
    | some r =>
      if !r.kind.isRow then s
      else match r.operands with
        | [] => s
        | dst :: inputs =>
          let s := s.rowsFound r
          let flags : RowFlags := { RowFlags.none with fellback := !s.dramPath r }
          let locs := r.failedAt s.dev dst inputs
          match s.rowLines cl r dst inputs (List.range 16) with
          | .error code => (s.noteTier code locs).finishRow cl r code flags
          | .ok (ls, t) =>
            let code := if ls.any fun l => l.poisoned then 4 else 0
            ((ls.foldl State.putRowLine t).noteTier code locs).finishRow cl r code flags)

/-! ### Promotion (R309 to R311) -/

def Device.slotsOf (d : Device) (sub : Nat) : NatMap Slot := lookupD [] d.slots sub
def Device.setSlots (d : Device) (sub : Nat) (m : NatMap Slot) : Device := { d with slots := insertAt sub m d.slots }

/-- The slot that holds a row. -/
def slotWith (m : NatMap Slot) (row : Nat) : Option Nat := (m.find? fun e => e.2.row == row).map Prod.fst

/-- The lowest free slot, else the unpinned slot promoted earliest. -/
def slotFor (m : NatMap Slot) : Option Nat :=
  match (List.range 8).find? fun i => (lookup m i).isNone with
  | some i => some i
  | none =>
    (m.foldl (fun (best : Option (Nat × Slot)) e =>
      if e.2.pinned.isSome then best
      else match best with
        | none => some e
        | some b => if e.2.order < b.2.order then some e else best) none).map Prod.fst

/-- A pin within the cap (R311). -/
def mayPin (m : NatMap Slot) (ctxid : Nat) : Bool :=
  decide ((m.filter fun e => e.2.pinned == some ctxid).length < Config.pinCap)

def Slot.pin (m : NatMap Slot) (ctxid : Nat) (want : Bool) (v : Slot) : Slot :=
  if want && v.pinned.isNone && mayPin m ctxid then { v with pinned := some ctxid } else v

/-- The row of a far operand: in the row region, ROW 32 to 511. -/
def RowOperand.farRow (o : RowOperand) (d : Device) : Option (Nat × Nat) :=
  match d.locate o.pa with
  | some (.row, loc) => if o.loc < 2 ^ 40 ∧ rowOf loc ≥ 32 then some (subarrayOf loc, rowOf loc) else none
  | some (.near, _) | some (.striped, _) | some (.tier2, _) | none => none

/-- The promotion of a row: CODE, the status fields, the device. -/
def Device.promote (d : Device) (ctxid : Nat) (pin : Bool) (o : RowOperand) : Nat × RowFlags × Device :=
  match o.farRow d with
  | none => (0, RowFlags.none, d)
  | some (sub, row) =>
    let m := d.slotsOf sub
    match slotWith m row with
    | some i =>
      let m' := m.map fun e => if e.1 = i then (e.1, Slot.pin m ctxid pin e.2) else e
      (0, { RowFlags.none with slot := i, hit := true }, d.setSlots sub m')
    | none =>
      match slotFor m with
      | none => (14, RowFlags.none, d)
      | some i =>
        let v : Slot := ⟨row, false, none, d.promotions⟩
        let d' := { d.setSlots sub (insertAt i (Slot.pin m ctxid pin v) m) with promotions := d.promotions + 1 }
        (0, { RowFlags.none with slot := i, evict := (lookup m i).isSome }, d')

/-- RDEMO: the slot that holds the row is freed. -/
def Device.demote (d : Device) (o : RowOperand) : RowFlags × Device :=
  match o.farRow d with
  | none => (RowFlags.none, d)
  | some (sub, row) =>
    match slotWith (d.slotsOf sub) row with
    | none => (RowFlags.none, d)
    | some i => ({ RowFlags.none with slot := i, hit := true }, d.setSlots sub (eraseAt i (d.slotsOf sub)))

/-- RPROMO or RDEMO completes. -/
def State.finishPromo (s : State) (cl : Nat) (r : RowOp) : State :=
  match r.kind, r.operands with
  | .rpromo pin, o :: _ =>
    let (code, flags, d) := s.dev.promote s.ctx.desc.ctxid pin o
    (s.mapDev fun _ => d).finishRow cl r code flags
  | .rdemo, o :: _ =>
    let (flags, d) := s.dev.demote o
    (s.mapDev fun _ => d).finishRow cl r 0 flags
  | _, _ => s

/-- The operation with a number, of one kind. -/
def State.rowOfKind (s : State) (cl id : Nat) (kind : RowKind → Bool) : Option RowOp :=
  (s.findRow cl id).filter fun r => kind r.kind

def RowKind.promotes : RowKind → Bool
  | .rpromo _ => true | .rdemo => false | .rcopy => false | .rfill => false | .rbool _ => false
def RowKind.demotes : RowKind → Bool
  | .rpromo _ => false | .rdemo => true | .rcopy => false | .rfill => false | .rbool _ => false

def execRpromoComplete (cl op : Nat) (s : State) : Out :=
  s.engineRuns (match s.rowOfKind cl op RowKind.promotes with
    | none => s
    | some r => s.finishPromo cl r)

def execRdemoComplete (cl op : Nat) (s : State) : Out :=
  s.engineRuns (match s.rowOfKind cl op RowKind.demotes with
    | none => s
    | some r => s.finishPromo cl r)

/-! ### Base-die reduce (R313 to R317) -/

/-- Fields of an IRED descriptor (R313). -/
structure IredDesc where
  table : Word
  idx : Word
  dst : Word
  statva : Word
  tstride : Nat
  dstride : Nat
  rowb : Nat
  pool : Nat
  nbag : Nat
  op : Nat
  nrows : Nat
  deriving DecidableEq, Repr

def iredDescOf (d : VWord) : IredDesc :=
  { table := d.extractLsb' 0 64, idx := d.extractLsb' 64 64, dst := d.extractLsb' 128 64
    statva := d.extractLsb' 192 64, tstride := bitsAt d 256 32, dstride := bitsAt d 288 32
    rowb := bitsAt d 320 16, pool := bitsAt d 336 16, nbag := bitsAt d 352 16, op := bitsAt d 368 4
    nrows := bitsAt d 384 32 }

/-- Bytes of a destination row. -/
def IredDesc.dstb (d : IredDesc) : Nat := if d.op = 1 then 2 * d.rowb else d.rowb

/-- What the operation writes, as (first byte, length): its destination rows and its status word. -/
def IredDesc.written (d : IredDesc) : List (Nat × Nat) :=
  ((List.range d.nbag).map fun b => ((d.dst + BitVec.ofNat 64 (b * d.dstride)).toNat, d.dstb))
    ++ if d.statva = 0 then [] else [(d.statva.toNat, 8)]

/-- The descriptor keeps R313. -/
def IredDesc.ok (d : IredDesc) (raw : VWord) : Bool :=
  decide (bitsAt raw 372 12 = 0) && decide (bitsAt raw 416 96 = 0) && decide (d.op ≤ 3) && decide (1 ≤ d.nrows)
    && decide (1 ≤ d.nbag) && decide (1 ≤ d.pool) && decide (d.pool * d.nbag ≤ 4096)
    && decide (d.rowb % 64 = 0) && decide (64 ≤ d.rowb) && decide (d.rowb ≤ if d.op = 1 then 512 else 1024)
    && decide (d.dstride % 64 = 0) && decide (d.dstb ≤ d.dstride) && decide (d.tstride % 64 = 0)
    && decide (d.rowb ≤ d.tstride) && decide (d.statva.toNat % 8 = 0) && decide (d.dst.toNat % 64 = 0)
    && decide (d.idx.toNat % 4 = 0) && decide (d.table.toNat % 64 = 0)

/-- Bytes read by the issuing core, checks 2, 3 and 8 of R159, and that of the tag (R420), each made over the whole list, and
the label words of their lines. -/
def State.plainRead (s : State) (pieces : List (Word × Nat)) : Result (List Byte × List LabelWord × State) := do
  let (ps, t) ← s.check (s.translateAll s.me .read (pieces.map Prod.fst))
  s.check (permAll s.me .read ps)
  s.check (t.tagAll s.me .read ps)
  s.check (t.poisonAll s.me .read ps)
  let t := ps.foldl (·.found s.me ·) t
  t.inHand
  .ok ((ps.zip pieces).flatMap fun e => t.dev.bytes e.1.loc e.2.2, ps.map t.lineWord, t)

/-- VAs of the lines of a row of `n` bytes. -/
def rowVas (va : Word) (n : Nat) : List Word := (List.range (n / 64)).map fun j => va + BitVec.ofNat 64 (64 * j)

/-- Places grouped as their rows were. -/
def regroup (ps : List Place) (lens : List Nat) : List (List RowOperand) :=
  match lens with
  | [] => []
  | n :: ns => (ps.take n).map Place.capture :: regroup (ps.drop n) ns

def iredsInFlight (k : Cluster) (core : Nat) : Nat := (k.ireds.filter fun r => r.core == core).length

def execIred (fast : Bool) (k a : Nat) (s : State) : Out :=
  commit s (do
    s.edgeGuard 1 0
    let (raw, lw, t) ← s.readDescriptor (s.rdX a)
    let d := iredDescOf raw
    if !d.ok raw then .error (s.illegal 9 0)
    s.inboxCheck d.written
    let count := d.pool * d.nbag
    let (bs, ws, t) ← t.plainRead (piecesOf d.idx (4 * count))
    let idx := (List.range count).map fun i => natOf ((bs.drop (4 * i)).take 4)
    if idx.any fun i => decide (i ≥ d.nrows) then .error (s.illegal 9 0)
    let tables := idx.map fun i => rowVas (d.table + BitVec.ofNat 64 (i * d.tstride)) d.rowb
    let dsts := (List.range d.nbag).map fun b => rowVas (d.dst + BitVec.ofNat 64 (b * d.dstride)) d.dstb
    let (tp, t) ← s.check (t.translateAll s.me .read tables.flatten)
    let (dp, t) ← s.check (t.translateAll s.me .write dsts.flatten)
    s.check (permAll s.me .read tp)
    s.check (permAll s.me .write dp)
    if (tp ++ dp).any fun p => decide (p.loc ≥ 2 ^ 40) || p.cmp then .error (s.illegal 9 0)
    let (ctl, t) ← t.formConj (s.labX a :: lw :: ws)
    if iredsInFlight s.myCluster s.focus.core ≥ Config.iredsPerCore then .error .stall
    let rows := boundsOf d.dst d.nbag d.dstb d.dstride
    match t.lockRanges s.focus.cl s.focus.core .ired [(rows.1, rows.2, true), (d.idx.toNat, 4 * count, false)] with
    | none => .error .stall
    | some (locks, t) =>
      let (id, t) := t.takeId
      let rows := regroup tp (tables.map List.length)
      let op : Ired :=
        { id := id, fast := fast, core := s.focus.core, record := s.core.crec, k := k, mode := s.core.status.mode, ctl := ctl, op := d.op
          rowb := d.rowb, bags := (chunks d.pool rows.length rows).zip (regroup dp (dsts.map List.length))
          statva := d.statva, locks := locks }
      .ok (t.mapCluster s.focus.cl fun c => { c with ireds := c.ireds ++ [op] }).complete)

/-- Which of the contents that memory may hold of a line it holds, oldest first; a free value says (R152). -/
def State.iredPick (s : State) (line : Nat) (h : Held) : Nat := s.freeNat (line / 64) % (h.past.length + 1)

/-- A line as IRED reads it: coherently, or as its DRAM copy stands (R152, R317). -/
def State.iredLine (s : State) (fast : Bool) (p : Place) : VWord × LabelWord :=
  let line := lineOf p.loc
  let now := (s.dev.lineData line, s.dev.rawLabel line)
  let v := match lookup s.dev.held line with
    | some h => if fast ∧ !h.past.isEmpty then ((h.past ++ [now])[s.iredPick line h]?).getD now else now
    | none => now
  (v.1, if p.lt then v.2 else 0)

/-- What memory has been seen to hold, it holds or has replaced: no later read gives older contents (R152). `base` is the
state in which the lines were read. -/
def State.seenLine (base s : State) (line : Nat) : State :=
  match lookup base.dev.held line, lookup s.dev.held line with
  | some h, some k =>
    s.mapDev fun d => { d with held := insertAt line { k with past := k.past.drop (base.iredPick line h) } d.held }
  | _, _ => s

/-- Op of R315. -/
def iredCombine (op a b : Nat) : Nat :=
  match op with
  | 0 | 1 => (fp32.addV 0 (fp32.decode a) (fp32.decode b)).1
  | 2 => (a + b) % 2 ^ 32
  | _ => (fp32.minMax true a b).1

/-- Contributions combined by stack and then with the old element (R315). -/
def iredElement (op old : Nat) (vs : List (Nat × Nat)) : Nat :=
  (List.range 16).foldl (fun r st =>
    match (vs.filter fun v => v.1 == st).map Prod.snd with
    | [] => r
    | p :: rest => iredCombine op r (rest.foldl (iredCombine op) p)) old

/-- A destination line to be written. -/
structure IredLine where
  place : Place
  data : VWord
  word : LabelWord
  deriving DecidableEq, Repr

/-- Line j of bag b's destination: the table line and the place in it that each of its 16 elements comes from. -/
def State.iredData (s : State) (op : Ired) (rows : List (List Place)) (dst : Place) (j : Nat) : VWord × List LabelWord :=
  let src := rows.filterMap fun r => r[if op.op = 1 then j / 2 else j]?
  let old := (s.iredLine op.fast dst).1
  let els := (List.range 16).map fun e =>
    let v (p : Place) : Nat :=
      if op.op = 1 then lane 16 (s.iredLine op.fast p).1 (16 * (j % 2) + e) * 2 ^ 16
      else lane 32 (s.iredLine op.fast p).1 e
    iredElement op.op (lane 32 old e) (src.map fun p => (stackOf p.loc, v p))
  (ofLanes 32 els, src.map fun p => (s.iredLine op.fast p).2)

/-- The read phase (R315, R316): the lines to write, the label failures, whether a page without LT is in the way. -/
def State.iredRead (s : State) (cl : Nat) (op : Ired) :
    List (List (List Place) × Place × Nat) → List IredLine × List LabelFail × Bool × State
  | [] => ([], [], false, s)
  | (rows, dst, j) :: rest =>
    let (data, ws) := s.iredData op rows dst j
    let r : Except EngineFail (LabelWord × State) := do
      let (w, fit, t) ← s.engineFit cl op.core (s.engineConj (op.ctl :: ws))
      if dst.lt then t.partialLabel cl op.core (s.iredLine op.fast dst).2 fit
      else
        plainPage dst.va w fit
        .ok (0, t)
    match r with
    | .ok (w, t) =>
      let (ls, fs, pg, u) := t.iredRead cl op rest
      (⟨dst, data, w⟩ :: ls, fs, pg, u)
    | .error (.label f) =>
      let (ls, fs, pg, u) := s.iredRead cl op rest
      (ls, f :: fs, pg, u)
    | .error (.page _ _) | .error (.access _) =>
      let (ls, fs, _, u) := s.iredRead cl op rest
      (ls, fs, true, u)

def State.putIredLine (s : State) (l : IredLine) : State :=
  let s := if l.place.lt then s.mapDev (·.setRawLabel (lineOf l.place.loc) l.word) else s
  s.engineBytes (engineOf 0 .s) l.place (bytesOf 64 l.data.toNat)

def State.finishIred (s : State) (cl : Nat) (op : Ired) (code : Nat) : State :=
  let s := s.statusWrite (engineOf cl op.mode) op.statva (bytesOf 8 (rowStatus code RowFlags.none))
  let s := (s.unlock cl op.locks).mapCluster cl fun c => { c with ireds := c.ireds.filter fun r => r.id != op.id }
  s.bumpAt cl op.core op.k 1 (decide (code ≠ 0))

/-- CODE of the read phase (R316). -/
def iredCode (poisoned : Bool) (fs : List LabelFail) (page : Bool) : Nat :=
  if poisoned then 4
  else if !fs.isEmpty then (if fs.any fun f => decide (f ≠ .tab) then 7 else 8)
  else if page then 6 else 0

/-- An IRED's read phase and write phase. -/
def execIredExecute (cl op : Nat) (s : State) : Out :=
  s.engineRuns (match (s.cluster cl).ireds.find? fun r => r.id == op with
    | none => s
    | some r =>
      let place (o : RowOperand) : Place := o.place s.dev 0
      let bags := r.bags.map fun b => (b.1.map (·.map place), b.2.map place)
      let all := bags.flatMap fun b => b.1.flatten ++ b.2
      let s := all.foldl (·.settle .device ·) s
      let jobs := bags.flatMap fun b => b.2.mapIdx fun j p => (b.1, p, j)
      let poisoned := all.any fun p =>
        s.dev.poison.contains (lineOf p.loc) || s.dev.linkLost p.loc || s.mistagged p
      let (ls, fs, pg, t) := s.iredRead cl r jobs
      let code := iredCode poisoned fs pg
      let seen (u : State) : State :=
        if r.fast then ((all.map fun p => lineOf p.loc).eraseDups).foldl (fun u l => s.seenLine u l) u else u
      if code = 0 then ((ls.foldl State.putIredLine (seen t)).drawn).finishIred cl r 0
      else ((seen s).drawn.noteTier code ((all.map Place.loc).filter fun l => s.dev.poison.contains (lineOf l) || s.dev.linkLost l)).finishIred cl r code)

end Sys2Proof.Machine
end

