-- ==== Sys2Proof/Machine/Edge.lean ====
section
/-! DEFINITION. Edge programs (R321 to R341): EDGERUN, the sweep unit's supersteps and invocations, and the returns of
an invocation. -/

namespace Sys2Proof.Machine

/-! ### Descriptors (R322 to R326) -/

def edgeDescOf (d : BitVec 1024) : EdgeDesc :=
  let va (lo : Nat) : Word := d.extractLsb' lo 64
  { n := bitsAt d 0 32, op := bitsAt d 32 4, mode0 := bitAt d 36, nosw := bitAt d 37, settle := bitAt d 38
    g := bitsAt d 40 4, limit := bitsAt d 48 16, alpha := bitsAt d 64 16, beta := bitsAt d 80 16
    state := va 128, ooff := va 192, oidx := va 256, oval := va 320, ioff := va 384, iidx := va 448, ival := va 512
    f0 := va 576, f1 := va 640, unf := va 704, work := va 768, entry := va 832, arg := va 896, statva := va 960 }

/-- Bytes from one state element to the next, and of an element's value (R324). -/
def EdgeDesc.stride (d : EdgeDesc) : Nat := if d.op = 6 then 64 else if d.op = 5 then 8 else 4
def EdgeDesc.width (d : EdgeDesc) : Nat := if d.op < 5 then 4 else 8

/-- Lines of a bitmap, in bytes (R323). -/
def EdgeDesc.mapBytes (d : EdgeDesc) : Nat := (d.n + 511) / 512 * 64

def alignedTo (n : Nat) (v : Word) : Bool := decide (v.toNat % n = 0)

/-- The descriptor is valid, its group's image aside (R326). -/
def EdgeDesc.ok (d : EdgeDesc) (raw : BitVec 1024) (k : Context) : Bool :=
  decide (1 ≤ d.n ∧ d.n ≤ 2 ^ 28) && decide (d.op < 7) && decide (d.limit ≠ 0) && decide (bitsAt raw 96 32 = 0)
    && decide (bitsAt raw 44 4 = 0) && !bitAt raw 39
    && ([d.ooff, d.oidx, d.oval, d.ioff, d.iidx, d.ival, d.entry].all (alignedTo 4))
    && ([d.state, d.f0, d.f1, d.unf, d.work].all (alignedTo 64)) && alignedTo 8 d.statva
    && decide (d.ooff ≠ 0 ∧ d.oidx ≠ 0 ∧ d.ioff ≠ 0 ∧ d.iidx ≠ 0) && decide (d.f0 ≠ d.f1) && k.inCodeWindow d.entry

/-- What the unit writes, as (first byte, length). -/
def EdgeDesc.written (d : EdgeDesc) : List (Nat × Nat) :=
  [(d.state.toNat, d.n * d.stride), (d.f0.toNat, d.mapBytes), (d.f1.toNat, d.mapBytes), (d.unf.toNat, d.mapBytes),
    (d.work.toNat, d.n * 16)]

/-- The cores of an image, and that it holds the sweep unit and no copy unit. -/
def CatchGroup.coreMembers (g : CatchGroup) : List Nat := (List.range 192).filter g.isMember
def CatchGroup.sweepOnly (g : CatchGroup) : Bool := g.isMember 216 && (List.range 24).all fun c => !g.isMember (192 + c)

/-! ### EDGERUN (R327) -/

def newRun (d : EdgeDesc) (va record : Word) (mode : Mode) (cores : List Nat) : EdgeRun :=
  { desc := d, va := va, record := record, mode := mode, cores := cores, joins := [], left := [], closed := false, ctl := 0, phase := .joining, back := .joining
    step := 0, pull := d.mode0, switches := 0, mismatch := false, code := 0, limitHit := false, snap := [], todo := []
    scan := [], accs := [], given := [], changed := [], done := [], fault := none, locks := [] }

/-- A join recorded; a run that all have joined waits behind those that are ready. -/
def joinRun (runs : List EdgeRun) (new : EdgeRun) (core k : Nat) (ctl : LabelWord) : List EdgeRun :=
  let mine := fun r : EdgeRun => r.phase == .joining && r.desc.g == new.desc.g && r.va == new.va
  let r := (runs.find? mine).getD new
  let r := { r with joins := insertAt core (k, ctl) r.joins }
  let others := runs.filter fun r => !mine r
  if r.cores.all fun c => (lookup r.joins c).isSome then others ++ [{ r with phase := .ready }] else others ++ [r]

/-- EDGERUN executes again after a gang-stop in the join (R328, R424). -/
def State.rejoins (s : State) : Bool := s.core.edge.any fun e => e.inv.isNone && e.pc == s.core.pc

/-- What EDGERUN leaves (R337): x0, x4 and x63 as before, the rest free. -/
def Regs.afterRun (r : Regs) (n : Nat) : Regs :=
  ((r.unknown n).putX 4 (fileGet (by decide) r.x 4) (fileGet (by decide) r.xl 4)).putX 63 (fileGet (by decide) r.x 63)
    (fileGet (by decide) r.xl 63)

/-- EDGERUN (R327): its park returns the core's outstanding results (log entry 83). -/
def execEdgerun (k a : Nat) (s : State) : Out :=
  let me := s.focus.core
  let va := s.rdX a
  commit s (
    if s.grantValue.isSome then .ok ((s.mapRegs (·.afterRun s.fresh)).drawn.complete)
    else if s.rejoins then .ok (s.drain.parkAt .edgerun)
    else do
      s.edgeGuard 1 0
      if s.core.gang = none then .error (s.trap .catchTrap 1 0)
      if !s.core.loops.isEmpty then .error (s.trap .loopsusp 0 0)
      s.check (alignAll .read 64 [va])
      let (bs, ws, t) ← s.plainRead [(va, 64), (va + 64, 64)]
      let raw : BitVec 1024 := BitVec.ofNat 1024 (natOf bs)
      let d := edgeDescOf raw
      let grp := s.group d.g
      let clash := s.myCluster.runs.any fun r => r.phase == .joining && r.desc.g == d.g && r.va != va
      if !d.ok raw s.ctx ∨ !grp.sweepOnly ∨ clash then .error (s.illegal 9 0)
      s.inboxCheck d.written
      if !grp.isMember me then .error (s.trap .catchTrap (2 + 256 * d.g) 0)
      if grp.coreMembers.any grp.flag then .error (s.trap .catchTrap (3 + 256 * d.g) 0)
      let (ctl, t) ← t.formConj (s.labX a :: ws)
      let t := t.drain
      let t := t.mapCluster s.focus.cl fun c =>
        { c with runs := joinRun c.runs (newRun d va s.core.crec s.core.status.mode grp.coreMembers) me k ctl }
      .ok ((t.mapCore fun c => { c with edge := some ⟨k, c.regs, c.pc, c.issue, none, 0⟩ }).parkAt .edgerun))

/-! ### Accesses of the unit -/

/-- Why the unit cannot go on (R339). -/
inductive RunFail where
  | engine (f : EngineFail)
  | format
  deriving DecidableEq, Repr

def liftRun {α : Type} (r : Except EngineFail α) : Except RunFail α :=
  match r with
  | .ok a => .ok a
  | .error f => .error (.engine f)

def liftAccess {α : Type} (r : Except Deny α) : Except RunFail α := liftRun (liftDeny r)

/-- The core whose label settings the unit uses: rank 0. -/
def EdgeRun.lead (r : EdgeRun) : Nat := r.cores.headD 0

def EdgeRun.agent (r : EdgeRun) (cl : Nat) : Agent := ⟨cl, r.mode, .sweep r.record⟩

/-- Word `i` of a 32-bit array, with the label word of its line. -/
def State.runWord (s : State) (cl : Nat) (r : EdgeRun) (base : Word) (i : Nat) :
    Except RunFail (Nat × LabelWord × State) :=
  liftAccess (s.engineRead (r.agent cl) (base + BitVec.ofNat 64 (4 * i)) 4)

/-- The offsets of a vertex, checked as they are read (R339). -/
def State.edgeBounds (s : State) (cl : Nat) (r : EdgeRun) (base : Word) (u : Nat) :
    Except RunFail (Nat × Nat × State) := do
  let (lo, _, s) ← s.runWord cl r base u
  let (hi, _, s) ← s.runWord cl r base (u + 1)
  if hi < lo ∨ (u = 0 ∧ lo ≠ 0) then .error .format
  .ok (lo, hi, s)

/-- The vertices of a bitmap. -/
def State.readSet (s : State) (cl : Nat) (r : EdgeRun) (base : Word) : Except RunFail (List Nat × State) := do
  let (bs, _, s) ← liftAccess (s.readSpan (r.agent cl) base ((r.desc.n + 7) / 8))
  let bits := natOf bs
  .ok ((List.range r.desc.n).filter bits.testBit, s)

/-- One bit of a bitmap. -/
def State.readBit (s : State) (cl : Nat) (r : EdgeRun) (base : Word) (v : Nat) : Except RunFail (Bool × State) := do
  let (b, _, s) ← liftAccess (s.engineRead (r.agent cl) (base + BitVec.ofNat 64 (v / 8)) 1)
  .ok (b.testBit (v % 8), s)

/-- Bits of the bytes of a bitmap written, with write label C (R336); bits at and above n are written 0. -/
def State.writeBits (s : State) (cl : Nat) (r : EdgeRun) (base : Word) (value : Bool) (vs : List Nat) :
    List Nat → Except RunFail State
  | [] => .ok s
  | b :: rest => do
    let va := base + BitVec.ofNat 64 b
    let (old, _, s) ← liftAccess (s.engineRead (r.agent cl) va 1)
    let bit (i : Nat) : Bool :=
      decide (8 * b + i < r.desc.n) && (if vs.contains (8 * b + i) then value else old.testBit i)
    let new := ((List.range 8).map fun i => oneBit (bit i) * 2 ^ i).sum
    let s ← liftRun (s.writeSpan (r.agent cl) r.lead (s.engineEval r.ctl) va (bytesOf 1 new))
    s.writeBits cl r base value vs rest

def bytesHolding (vs : List Nat) : List Nat := (vs.map (· / 8)).eraseDups

/-! ### Combines (R324, R325, R336) -/

/-- Op(old, c) but for ljoin. -/
def edgeCombine (op old c : Nat) : Nat :=
  let c32 := c % 2 ^ 32
  match op with
  | 0 => (old + c32) % 2 ^ 32
  | 1 => min old c32
  | 2 => max old c32
  | 3 => old ||| c32
  | 4 => addRne old c32
  | _ =>
    let r := csumStep (old % 2 ^ 32) (old / 2 ^ 32) c32
    r.1 + 2 ^ 32 * r.2

/-- The ljoin of a contribution: the new value and label, or `none` for a mismatch. -/
def ljoinOf (nogoods : List Env) (old : Nat) (lo : Label) (c : Nat) (lc : Label) : Option (Nat × Label) :=
  if old = c then some (old, disj nogoods lo lc) else if hidden nogoods lo then some (c, lc) else none

/-- Bytes 0 to 7 of an ljoin line and its label word, which is set whatever it held, and whether the word changed (R336). -/
def State.ljoinStore (s : State) (a : Agent) (core : Nat) (p : Place) (v : Nat) (l : Label) :
    Except EngineFail (Bool × State) := do
  let raw := s.dev.rawLabel (lineOf p.loc)
  let bs := bytesOf 8 v
  let (w, fit, t) ← s.engineFit a.cl core l
  if !p.lt then
    plainPage p.va w fit
    .ok (false, t.engineBytes a p bs)
  else .ok (decide (w ≠ raw), (t.mapDev (·.setRawLabel (lineOf p.loc) w)).engineBytes a p bs)

def EdgeRun.stateVa (r : EdgeRun) (v : Nat) : Word := r.desc.state + BitVec.ofNat 64 (v * r.desc.stride)

/-- A contribution combined at state[v] in one event: whether it changed the element, whether it mismatched. -/
def State.combineAt (s : State) (cl : Nat) (r : EdgeRun) (v : Nat) (c : Word) (w : LabelWord) :
    Except RunFail (Bool × Bool × State) := do
  let a := r.agent cl
  let (p, s) ← liftAccess (s.enginePlace a .atomic (r.stateVa v))
  liftAccess (s.poisonCheck a .atomic p)
  let old := s.dev.num p.loc r.desc.width
  if r.desc.op = 6 then
    match ljoinOf s.ctx.world.nogoods old (s.engineEval (s.lineWord p)) c.toNat (s.engineEval w) with
    | none => .ok (false, true, s)
    | some (new, l) =>
      let (moved, s) ← liftRun (s.ljoinStore a r.lead p new l)
      .ok (moved || decide (new ≠ old), false, s)
  else
    let new := edgeCombine r.desc.op old c.toNat
    let s ← liftRun (s.enginePartial a r.lead p (bytesOf r.desc.width new) (s.engineEval w))
    .ok (decide (new ≠ old), false, s)

/-- A contribution combined into r of a pull scan; one that does not match leaves r as it is (R325, R332). -/
def PullAcc.combine (x : PullAcc) (op : Nat) (nogoods : List Env) (c : Word) (w : LabelWord) (l : Label) :
    PullAcc × Bool :=
  if op = 6 then
    match ljoinOf nogoods x.value x.lbl c.toNat l with
    | none => (x, true)
    | some (v, m) =>
      ({ x with value := v, lbl := m, any := true, changed := x.changed || decide (v ≠ x.value ∨ m ≠ x.lbl) }, false)
  else
    let v := edgeCombine op x.value c.toNat
    ({ x with value := v, words := w :: x.words, any := true, changed := x.changed || decide (v ≠ x.value) }, false)

/-- state[v] read as r. -/
def State.openAcc (s : State) (cl : Nat) (r : EdgeRun) (v : Nat) : Except RunFail (PullAcc × State) := do
  let (n, w, s) ← liftAccess (s.engineRead (r.agent cl) (r.stateVa v) r.desc.width)
  .ok (⟨n, s.engineEval w, [], false, false⟩, s)

/-- r written to state[v]: whether v changed. -/
def State.closeAcc (s : State) (cl : Nat) (r : EdgeRun) (v : Nat) (x : PullAcc) : Except RunFail (Bool × State) := do
  if !x.any then .ok (x.changed, s)
  else
    let a := r.agent cl
    let (p, s) ← liftAccess (s.enginePlace a .write (r.stateVa v))
    if r.desc.op = 6 then
      liftAccess (s.poisonCheck a .write p)
      let (moved, s) ← liftRun (s.ljoinStore a r.lead p x.value x.lbl)
      .ok (x.changed || moved, s)
    else
      let s ← liftRun (s.enginePartial a r.lead p (bytesOf r.desc.width x.value) (s.engineConj x.words))
      .ok (x.changed, s)

/-! ### Beginning a superstep (R331, R333) -/

/-- Sum of the degrees of some vertices. -/
def State.degreeSum (s : State) (cl : Nat) (r : EdgeRun) (base : Word) : List Nat → Except RunFail (Nat × State)
  | [] => .ok (0, s)
  | u :: us => do
    let (lo, hi, s) ← s.edgeBounds cl r base u
    let (n, s) ← s.degreeSum cl r base us
    .ok (hi - lo + n, s)

/-- Direction(mode): whether the superstep pulls. -/
def State.direction (s : State) (cl : Nat) (r : EdgeRun) (active unf : List Nat) : Except RunFail (Bool × State) :=
  let d := r.desc
  if d.nosw then .ok (r.pull, s)
  else if r.pull then .ok (!(decide (d.beta ≠ 0) && decide (active.length * d.beta < d.n)), s)
  else if d.alpha = 0 then .ok (false, s)
  else do
    let (fe, s) ← s.degreeSum cl r d.ooff active
    let (ue, s) ← s.degreeSum cl r d.ioff unf
    .ok (decide (fe * d.alpha > ue), s)

/-- The snapshot of the active vertices. -/
def State.snapshot (s : State) (cl : Nat) (r : EdgeRun) : List Nat → Except RunFail (NatMap (Nat × LabelWord) × State)
  | [] => .ok ([], s)
  | u :: us => do
    let (v, w, s) ← liftAccess (s.engineRead (r.agent cl) (r.stateVa u) r.desc.width)
    let (m, s) ← s.snapshot cl r us
    .ok ((u, (v, w)) :: m, s)

/-- Zeros written over the pieces, in order, as partial writes labelled `nl` (R161, R336). -/
def State.clearPieces (s : State) (a : Agent) (core : Nat) (nl : Label) : List (Word × Nat) → Except EngineFail State
  | [] => .ok s
  | (va, n) :: rest => do
    let (p, t) ← liftDeny (s.enginePlace a .write va)
    let u ← t.enginePartial a core p (bytesOf n 0) nl
    u.clearPieces a core nl rest

def EdgeRun.current (r : EdgeRun) : Word := if r.step % 2 = 0 then r.desc.f0 else r.desc.f1
def EdgeRun.next (r : EdgeRun) : Word := if r.step % 2 = 0 then r.desc.f1 else r.desc.f0

/-- The vertices of each owner, in ascending order (R328). -/
def EdgeRun.share (r : EdgeRun) (vs : List Nat) : NatMap (List Nat) :=
  r.cores.mapIdx fun i c => (c, vs.filter fun v => v % r.cores.length == i)

/-- The start of a superstep. -/
def State.beginStep (s : State) (cl : Nat) (r : EdgeRun) : Except RunFail (EdgeRun × State) := do
  let (active, s) ← s.readSet cl r r.current
  let (unf, s) ← s.readSet cl r r.desc.unf
  let (pull, s) ← s.direction cl r active unf
  let (snap, s) ← s.snapshot cl r active
  let s ← liftRun (s.clearPieces (r.agent cl) r.lead (s.engineEval r.ctl) (piecesOf r.next r.desc.mapBytes))
  .ok ({ r with
    phase := .running, pull := pull, switches := min 255 (r.switches + oneBit (pull != r.pull)), snap := snap
    todo := r.share (if pull then unf else active), scan := [], accs := [], given := [], changed := [], done := [] }, s)

/-! ### Invocations (R329, R332) -/

/-- The participant runs no invocation. -/
def Core.awaitsEdge (c : Core) : Bool := c.edge.any fun e => e.inv.isNone

/-- It is parked in the join, where an invocation can begin. -/
def Core.readyForEdge (c : Core) : Bool := c.awaitsEdge && decide (c.park = some .edgerun)

/-- Registers at the entry of an invocation. -/
def Regs.forEdge (at_ : Regs) (n : Nat) (top : LabelWord) (u v : Nat) (x7 x8 : Word × LabelWord) (arg x10 : Word) :
    Regs :=
  let r := at_.afterRun n
  ((((((r.putX 5 (BitVec.ofNat 64 u) top).putX 6 (BitVec.ofNat 64 v) top).putX 7 x7.1 x7.2).putX 8 x8.1 x8.2).putX 9
    arg top).putX 10 x10 top)

/-- FCSR and the decode banks as the core has them now (R107, R129). -/
def Regs.keepBanks (r now : Regs) : Regs := { r with fcsr := now.fcsr, bankA := now.bankA, bankB := now.bankB }

/-- The core at the entry of an invocation. -/
def Core.invoke (c : Core) (regs : Regs) (entry : Word) (i : Invocation) : Core :=
  { c with
    pc := entry, regs := regs.keepBanks c.regs, loops := [], frozen := 0, park := none, grants := []
    stalled := false, latch := none, popped := none, edge := c.edge.map fun e => { e with inv := some i, depth := 0 } }

/-- x8 from a snapshot (R329). -/
def sourceState (op v : Nat) : Word :=
  BitVec.ofNat 64 (if op = 5 then addRne (v % 2 ^ 32) (v / 2 ^ 32) else v)

/-- One edge invoked on its owner (R329); the labels of x7 and x8 are formed under the owner's settings (R210; log entry 90). -/
def State.invokeEdge (s : State) (cl core : Nat) (r : EdgeRun) (i : Invocation) : Except RunFail State := do
  let vals := if r.pull then r.desc.ival else r.desc.oval
  let (x7, w7, s) ← (if vals = 0 then .ok (0, 0, s) else s.runWord cl r vals i.e)
  let (x8, w8) := (lookup r.snap i.u).getD (0, 0)
  let (l7, s) ← liftRun (s.engineForm cl core (s.engineConj [w7, r.ctl]))
  let (l8, s) ← liftRun (s.engineForm cl core (s.engineConj [w8, r.ctl]))
  let top := mkWord s.ctx.world.agentEpoch false 0
  let x10 := BitVec.ofNat 64 (r.step * 2 ^ 32 + oneBit r.pull)
  let n := s.fresh
  .ok (s.drawn.mapCoreAt cl core fun c =>
    let held := (c.edge.map EdgeRole.regs).getD c.regs
    let regs := held.forEdge n top i.u i.v (BitVec.ofNat 64 x7, l7) (sourceState r.desc.op x8, l8) r.desc.arg x10
    c.invoke regs r.desc.entry i)

/-- The next edge of a scan that is invoked, from its position on (R332): (position, other vertex). -/
def State.nextEdge (s : State) (cl : Nat) (r : EdgeRun) : Nat → Nat → Except RunFail (Option (Nat × Nat) × State)
  | 0, _ => .ok (none, s)
  | left + 1, pos => do
    let (v, _, s) ← s.runWord cl r (if r.pull then r.desc.iidx else r.desc.oidx) pos
    if v ≥ r.desc.n then .error .format
    let (sel, s) ← (if r.pull then .ok ((lookup r.snap v).isSome, s) else s.readBit cl r r.desc.unf v)
    if sel then .ok (some (pos, v), s) else s.nextEdge cl r left (pos + 1)

/-- A contribution of an owner combined (R332). -/
def State.takeGiven (s : State) (cl core : Nat) (r : EdgeRun) (v : Nat) (c : Word) (w : LabelWord) :
    Except RunFail (EdgeRun × State) :=
  let r := { r with given := eraseAt core r.given }
  if r.pull then
    match lookup r.accs core with
    | none => .ok (r, s)
    | some x =>
      let (x, bad) := x.combine r.desc.op s.ctx.world.nogoods c w (s.engineEval w)
      .ok ({ r with accs := insertAt core x r.accs, mismatch := r.mismatch || bad }, s)
  else do
    let (moved, bad, s) ← s.combineAt cl r v c w
    .ok ({ r with changed := if moved then insertNat v r.changed else r.changed, mismatch := r.mismatch || bad }, s)

/-- What is left of an owner's superstep: one action of the unit for it; `none` when there is nothing to do. -/
def State.unitAct (s : State) (cl core : Nat) (r : EdgeRun) : Except RunFail (Option (EdgeRun × State)) :=
  match lookup r.given core with
  | some (v, c, w) => do
    let x ← s.takeGiven cl core r v c w
    .ok (some x)
  | none =>
    match lookup r.scan core with
    | some sc => do
      let (edge, s) ← s.nextEdge cl r (sc.stop - sc.pos) sc.pos
      match edge with
      | some (e, other) =>
        let i : Invocation := if r.pull then ⟨other, sc.vertex, e⟩ else ⟨sc.vertex, other, e⟩
        let s ← s.invokeEdge cl core r i
        .ok (some ({ r with scan := insertAt core { sc with pos := e + 1 } r.scan }, s))
      | none =>
        let r' := { r with scan := eraseAt core r.scan, accs := eraseAt core r.accs }
        match lookup r.accs core with
        | none => .ok (some (r', s))
        | some x =>
          let (moved, s) ← s.closeAcc cl r sc.vertex x
          .ok (some ({ r' with changed := if moved then insertNat sc.vertex r.changed else r.changed }, s))
    | none =>
      match lookupD [] r.todo core with
      | [] => .ok none
      | v :: vs => do
        let (lo, hi, s) ← s.edgeBounds cl r (if r.pull then r.desc.ioff else r.desc.ooff) v
        let r := { r with todo := insertAt core vs r.todo, scan := insertAt core ⟨v, lo, hi⟩ r.scan }
        if r.pull then
          let (x, s) ← s.openAcc cl r v
          .ok (some ({ r with accs := insertAt core x r.accs }, s))
        else .ok (some (r, s))

/-! ### The current run -/

/-- The run that the unit serves (R321). -/
def Cluster.activeRun (k : Cluster) : Option EdgeRun :=
  match k.runs.find? fun r => r.phase == .ending with
  | some r => some r
  | none => k.runs.find? fun r => r.phase == .boundary || r.phase == .running || r.phase == .paused

/-- The run with the given descriptor and group replaced, or removed. -/
def sameRun (r q : EdgeRun) : Bool := r.va == q.va && r.desc.g == q.desc.g && r.phase == q.phase && r.joins == q.joins

def State.putRun (s : State) (cl : Nat) (old new : EdgeRun) : State :=
  s.mapCluster cl fun k => { k with runs := k.runs.map fun q => if sameRun old q then new else q }

def State.dropRun (s : State) (cl : Nat) (old : EdgeRun) : State :=
  s.mapCluster cl fun k => { k with runs := k.runs.filter fun q => !sameRun old q }

/-- Actions for one owner until an invocation runs there or nothing is left; an access that fails stops them. -/
def State.unitLoop (cl core : Nat) : Nat → EdgeRun → State → EdgeRun × State
  | 0, r, s => (r, s)
  | fuel + 1, r, s =>
    if !(s.coreAt cl core).readyForEdge then (r, s)
    else match s.unitAct cl core r with
      | .error _ | .ok none => (r, s)
      | .ok (some (r', s')) => State.unitLoop cl core fuel r' s'

/-- The hardware arrives at the run's group for a participant whose last invocation of the superstep has ended; it counts as
the core's own arrival (R177, R335). -/
def State.arriveFor (s : State) (cl : Nat) (r : EdgeRun) (core : Nat) : State :=
  let g := (s.cluster cl).group r.desc.g
  if g.isMember core && !g.flag core then
    (s.mapCoreAt cl core fun c => { c with arrived := insertAt r.desc.g g.phase.toNat c.arrived }).mapCluster cl fun k =>
      k.mapGroup r.desc.g (·.mark core false false)
  else s

/-- The sweep unit arrives last, for what participants have not arrived yet too (R335, R339). -/
def State.arriveAll (s : State) (cl : Nat) (r : EdgeRun) (or err : Bool) : State :=
  let s := (r.cores.filter fun c => (lookup r.joins c).isSome).foldl (fun t c => t.arriveFor cl r c) s
  s.mapCluster cl fun k => k.mapGroup r.desc.g fun g =>
    if g.isMember 216 && !g.flag 216 then (g.mark 216 or err).settled else g

/-- Nothing is left of the superstep on a participant. -/
def State.shareDone (s : State) (cl : Nat) (r : EdgeRun) (core : Nat) : Bool :=
  (s.coreAt cl core).awaitsEdge && (lookup r.given core).isNone && (lookup r.scan core).isNone
    && (lookupD [] r.todo core).isEmpty

/-- The unit works for an owner: it combines what the last invocation gave and starts the next, and arrives for the owner
whose last has ended (R329, R332, R335, R339). -/
def execEdgeInvocation (cl core : Nat) (s : State) : Out :=
  s.engineRuns (match (s.cluster cl).activeRun with
    | none => s
    | some r =>
      if !r.cores.contains core then s
      else match r.phase with
        | .running =>
          let (r', t) := State.unitLoop cl core (2 ^ 34) r s
          let t := t.putRun cl r r'
          if t.shareDone cl r' core then t.arriveFor cl r' core else t
        | .ending => if r.code ≠ 9 ∧ (s.coreAt cl core).awaitsEdge then s.arriveFor cl r core else s
        | .joining | .ready | .boundary | .paused => s)

/-! ### Starting and ending (R328, R331, R335, R337) -/

/-- The unit starts the first run that waits for it: C fixed, the ranges registered; `none` while the table lacks
room. -/
def State.startRun (s : State) (cl : Nat) (r : EdgeRun) : Except RunFail (Option (EdgeRun × State)) := do
  let d := r.desc
  let (ctl, s) ← liftRun (s.engineForm cl r.lead (s.engineConj (r.joins.map fun j => j.2.2)))
  let (out, _, s) ← s.runWord cl r d.ooff d.n
  let (inn, _, s) ← s.runWord cl r d.ioff d.n
  let vals (va : Word) (n : Nat) : Nat × Nat × Bool := (va.toNat, if va = 0 then 0 else 4 * n, false)
  let sources := [(d.ooff.toNat, 4 * (d.n + 1), false), (d.ioff.toNat, 4 * (d.n + 1), false), vals d.oidx out,
    vals d.oval out, vals d.iidx inn, vals d.ival inn]
  match s.lockRanges cl r.lead .edge (sources ++ d.written.map fun w => (w.1, w.2, true)) with
  | none => .ok none
  | some (locks, s) => .ok (some ({ r with ctl := ctl, phase := .boundary, locks := locks }, s))

/-- The run that may start now. -/
def Cluster.readyRun (k : Cluster) : Option EdgeRun :=
  if k.activeRun.isSome then none else k.runs.find? fun r => r.phase == .ready

def execEdgeRunStart (cl : Nat) (s : State) : Out :=
  s.engineRuns (match (s.cluster cl).readyRun with
    | none => s
    | some r =>
      match s.startRun cl r with
      | .error _ | .ok none => s
      | .ok (some (r', t)) => t.putRun cl r r')

/-- The run status word. -/
def EdgeRun.status (r : EdgeRun) : Nat :=
  1 + 2 * oneBit r.mismatch + 4 * oneBit r.pull + 8 * oneBit r.limitHit + 2 ^ 8 * r.code + 2 ^ 16 * r.switches
    + 2 ^ 32 * r.step

/-- The work area after a run: bytes that nothing constrains (R323). -/
def State.spoilWork (s : State) (cl : Nat) (r : EdgeRun) : State :=
  let n := s.fresh
  (piecesOf r.desc.work (16 * r.desc.n)).foldl (fun t p =>
    t.statusWrite (r.agent cl) p.1 (bytesOf p.2 (Config.free n (p.1.toNat / 64)))) s.drawn

/-- The grant that says that word1 of a pair has executed: when its EDGERUN joined (R47, log entry 23). -/
def pairDoneSlot : Nat := 2

/-- A participant's EDGERUN returns (R337). -/
def Core.leaveRun (c : Core) : Core :=
  match c.edge with
  | none => c
  | some e =>
    let c := ({ c with regs := e.regs.keepBanks c.regs, pc := e.pc, issue := e.issue, edge := none }).wake 0
    { c with
      loops := [], frozen := 0
      grants := if e.issue.lone then c.grants else insertAt pairDoneSlot 0 c.grants }

/-- The run's status, its ranges and its counters (steps 1 to 3 of R337). -/
def State.closeRun (s : State) (cl : Nat) (r : EdgeRun) : State :=
  let s := if r.locks.isEmpty then s else s.spoilWork cl r
  let s := (s.statusWrite (r.agent cl) r.desc.statva (bytesOf 8 r.status)).unlock cl r.locks
  (r.joins.map (fun j => (j.1, j.2.1)) ++ r.left).foldl (fun t j => t.bumpAt cl j.1 j.2 1 (decide (r.code ≠ 0))) s

/-- The run ends. -/
def State.finishRun (s : State) (cl : Nat) (r : EdgeRun) : State :=
  let s := if r.closed then s else s.closeRun cl r
  r.joins.foldl (fun t j => t.mapCoreAt cl j.1 Core.leaveRun) s

/-- The end of a superstep: bitmaps, arrivals, the next superstep or the run's end. -/
def State.endStep (s : State) (cl : Nat) (r : EdgeRun) : Except RunFail (EdgeRun × State) := do
  let gone := if r.desc.settle then r.changed ++ r.done else r.done
  let s ← s.writeBits cl r r.next true r.changed (bytesHolding r.changed)
  let s ← s.writeBits cl r r.desc.unf false gone (bytesHolding gone)
  let (unf, s) ← s.readSet cl r r.desc.unf
  let s := s.arriveAll cl r (!r.changed.isEmpty) false
  let step := r.step + 1
  let over_ := r.changed.isEmpty || unf.isEmpty || decide (step = r.desc.limit)
  .ok ({ r with
    step := step, phase := if over_ then .ending else .boundary
    limitHit := over_ && decide (step = r.desc.limit) && !r.changed.isEmpty }, s)

/-- Nothing is left of the superstep on any participant. -/
def State.stepDone (s : State) (cl : Nat) (r : EdgeRun) : Bool := r.cores.all (s.shareDone cl r)

/-- No participant runs an invocation. -/
def State.quiet (s : State) (cl : Nat) (r : EdgeRun) : Bool := r.joins.all fun j => (s.coreAt cl j.1).awaitsEdge

/-- A superstep begins, ends, or the run ends (R331, R337, R339, R340). -/
def execSuperstep (cl : Nat) (s : State) : Out :=
  s.engineRuns (match (s.cluster cl).activeRun with
    | none => s
    | some r =>
      match r.phase with
      | .boundary =>
        match s.beginStep cl r with
        | .error _ => s
        | .ok (r', t) => t.putRun cl r r'
      | .running =>
        if !s.stepDone cl r then s
        else match s.endStep cl r with
          | .error _ => s
          | .ok (r', t) => if r'.phase = .ending then (t.dropRun cl r).finishRun cl r' else t.putRun cl r r'
      | .ending =>
        if !s.quiet cl r then s
        else if r.code = 9 then (s.dropRun cl r).finishRun cl r
        else ((s.dropRun cl r).arriveAll cl r (!r.changed.isEmpty) true).finishRun cl { r with step := r.step + 1 }
      | .joining | .ready | .paused => s)

/-- The cancelled runs of a cluster complete (R430); a participant whose invocation still runs returns at its end. -/
def State.closeRuns (s : State) (cl : Nat) : State :=
  ((s.cluster cl).runs.filter fun r => r.phase == .ending && r.code == 9 && !r.closed).foldl (fun t r =>
    if t.quiet cl r then (t.dropRun cl r).finishRun cl r else (t.closeRun cl r).putRun cl r { r with closed := true }) s

/-! ### Faults of the unit (R339) -/

/-- What the unit fails at. -/
def State.runFailure (s : State) (cl : Nat) : Option (EdgeRun × RunFail) :=
  let k := s.cluster cl
  let failed {α : Type} (r : EdgeRun) (x : Except RunFail α) : Option (EdgeRun × RunFail) :=
    match x with
    | .error f => some (r, f)
    | .ok _ => none
  match k.readyRun with
  | some r => failed r (s.startRun cl r)
  | none =>
    match k.activeRun with
    | none => none
    | some r =>
      match r.phase with
      | .boundary => failed r (s.beginStep cl r)
      | .running =>
        match r.cores.findSome? fun c =>
            if (s.coreAt cl c).readyForEdge then failed r (s.unitAct cl c r) else none with
        | some x => some x
        | none => if s.stepDone cl r then failed r (s.endStep cl r) else none
      | .joining | .ready | .paused | .ending => none

def execEdgeRunFault (cl : Nat) (s : State) : Out :=
  s.engineRuns (match s.runFailure cl with
    | none => s
    | some (r, .format) => s.putRun cl r { r with code := 13, phase := .ending }
    | some (r, .engine f) =>
      let d := f.deny
      match replayCode d.cause with
      | none => (s.noteDeny (r.agent cl) d).putRun cl r { r with code := f.code, phase := .ending }
      | some cause =>
        match s.postRecord cl 0xFF 0 cause (d.info % 4) d.addr with
        | none => s
        | some t => t.putRun cl r { r with phase := .paused, back := r.phase, fault := some cause })

/-! ### The gang-stop (R340, R426) -/

/-- The combines in flight complete; one whose access fails stays for after the restore. -/
def State.combineGiven (s : State) (cl : Nat) : State :=
  match (s.cluster cl).runs.find? fun r => r.phase == .running with
  | none => s
  | some r =>
    let (r', t) := r.given.foldl (fun (x : EdgeRun × State) e =>
      match x.2.takeGiven cl e.1 x.1 e.2.1 e.2.2.1 e.2.2.2 with
      | .ok y => y
      | .error _ => x) (r, s)
    t.putRun cl r r'

/-! ### Ending an invocation (R341) -/

/-- The running invocation of the core that moves. -/
def State.invocation (s : State) : Result Invocation :=
  match s.core.edge with
  | some e =>
    match e.inv, e.depth with
    | some i, 0 => .ok i
    | _, _ => .error (s.illegal 8 0)
  | none => .error (s.illegal 8 0)

/-- The core is parked again and waits for the unit. -/
def Core.endInvocation (c : Core) : Core :=
  match c.edge with
  | none => c
  | some e =>
    { c with
      edge := some { e with inv := none }, pc := e.pc, issue := e.issue, loops := [], frozen := 0, grants := []
      park := some .edgerun, stalled := false, popped := none }

/-- The run of the core that moves, when it combines contributions. -/
def State.mapMyRun (s : State) (f : EdgeRun → EdgeRun) : State :=
  s.mapCluster s.focus.cl fun k =>
    { k with runs := k.runs.map fun r =>
      if (lookup r.joins s.focus.core).isSome && (r.phase == .running || r.phase == .paused) then f r else r }

/-- The control label of the core's run. -/
def State.runCtl (s : State) : LabelWord :=
  ((s.myCluster.runs.find? fun r => (lookup r.joins s.focus.core).isSome).map EdgeRun.ctl).getD 0

def execEdgeret (a : Nat) (s : State) : Out :=
  commit s (do
    let i ← s.invocation
    let (w, t) ← s.drain.formConj [s.drain.labX a, s.runCtl]
    if t.core.lblcfg.strict ∧ classOf t.ctx.world.nogoods (t.eval w) = .cond then .error (t.trap .lblctl (lwHandle w) 0)
    .ok ((t.mapMyRun fun r => { r with given := insertAt s.focus.core (i.v, t.rdX a, w) r.given }).mapCore
      Core.endInvocation))

def execEdgeskip (s : State) : Out :=
  commit s (do
    let _ ← s.invocation
    .ok (s.drain.mapCore Core.endInvocation))

def execEdgedone (s : State) : Out :=
  commit s (do
    let i ← s.invocation
    let t := s.drain.mapMyRun fun r =>
      if r.pull then
        { r with
          done := insertNat i.v r.done
          scan := r.scan.map fun e => if e.1 = s.focus.core then (e.1, { e.2 with pos := e.2.stop }) else e }
      else r
    .ok (t.mapCore Core.endInvocation))

end Sys2Proof.Machine
end

