-- ==== Sys2Proof/Machine/Matrix.lean ====
section
/-! DEFINITION. The matrix engine (R239 to R269): leases, commands and their execution by row groups, deferred
faults, MSYNC, MSKLD, and the hint HPREF (R69). -/

namespace Sys2Proof.Machine

/-! ### Leases (R240 to R243) -/

def State.mengine (s : State) (cl crew : Nat) : MEngine := (s.cluster cl).engine crew
def State.mapMengine (s : State) (cl crew : Nat) (f : MEngine → MEngine) : State :=
  s.mapCluster cl (·.mapEngine crew f)

/-- The engine of the core that moves. -/
def State.myEngine (s : State) : MEngine := s.mengine s.focus.cl (crewOf s.focus.core)
def State.mapMyEngine (s : State) (f : MEngine → MEngine) : State := s.mapMengine s.focus.cl (crewOf s.focus.core) f

/-- The requesting member that follows the previous holder (R240). -/
def MEngine.next (e : MEngine) : Option Nat :=
  let order := match e.prev with
    | none => List.range 8
    | some p => (List.range 8).map fun i => (p + 1 + i) % 8
  order.find? fun m => (lookup e.requests m).isSome

def execMacq (n : Nat) (s : State) : Out :=
  commit s (do
    s.edgeGuard 1 0
    match s.grantValue with
    | some _ => .ok s.complete
    | none =>
      let m := memberOf s.focus.core
      let t := s.mapMyEngine fun e => { e.release m with requests := insertAt m n (e.release m).requests }
      .ok (t.parkAt .macq))

def execMrel (s : State) : Out :=
  let m := memberOf s.focus.core
  .next (if s.holdsLease then s.mapMyEngine (·.release m) else s).complete

/-- A core with its lease: MACQ completes, or the core goes on after a restore (R240, R259). -/
def Core.leased (c : Core) : Core := if c.park = some .lease then { c with park := none } else c.wake 0

/-- The tables of the lease that a member is granted: those saved with it at a gang-stop, or the member's own, copied when
the recorded pair differs (R243, R259). -/
def MEngine.tablesFor (e : MEngine) (m : Nat) (c : Core) (core : Nat) : LeaseTables :=
  match e.saved.filter fun t => t.member == m && c.park == some .lease with
  | some t => t
  | none =>
    let pair := some (core, c.tableGen)
    if e.tables = pair then ⟨m, pair, e.bankA, e.bankB⟩ else ⟨m, pair, c.regs.bankA, c.regs.bankB⟩

/-- A lease granted (R240, R243). -/
def execLeaseGrant (cl crew : Nat) (s : State) : Out :=
  let e := s.mengine cl crew
  s.engineRuns (match e.holder, e.next with
    | none, some m =>
      let core := crew * 8 + m
      let c := s.coreAt cl core
      let t := e.tablesFor m c core
      (s.mapMengine cl crew fun e =>
        { e with
          holder := some m, lrem := lookupD 1 e.requests m, requests := eraseAt m e.requests, tables := t.tables
          bankA := t.bankA, bankB := t.bankB, saved := e.saved.filter fun k => k.member != m }).mapCoreAt cl core Core.leased
    | _, _ => s)

/-! ### Shapes and operands (R245 to R250) -/

def shapeM (shape : Nat) : Nat := if shape / 8 < 2 then 32 else 16
def shapeN (shape : Nat) : Nat := if shape / 8 % 2 = 0 then 32 else 16

def MForm.limits : MForm → MmaLimits
  | .bb => mmaBB | .hh => mmaHH | .ee => mmaEE | .ef => mmaEF | .ff => mmaFF | .ii => mmaII

/-- Bits of an element of A and of B. -/
def MForm.bitsA : MForm → Nat
  | .bb => 16 | .hh => 16 | .ee => 8 | .ef => 8 | .ff => 4 | .ii => 8
def MForm.bitsB : MForm → Nat
  | .bb => 16 | .hh => 16 | .ee => 8 | .ef => 4 | .ff => 4 | .ii => 8

/-- The value of an element of `n` bits; an int8 is its exact value (R245). -/
def elementValue (f : MForm) (bankA : Vector Half 256) (bankB : Vector Half 16) (n v : Nat) : FVal :=
  match f with
  | .bb => bf16.decode v
  | .hh => fp16.decode v
  | .ii => .fin (decide (sext 8 v < 0)) (sext 8 v).natAbs 0
  | .ee | .ef | .ff =>
    if n = 8 then decodeEntry (bankA.toList.getD v 0) else decodeEntry (bankB.toList.getD v 0)

/-- Fields of a stride word (R247). -/
def strideOf (w : Word) : Nat := bitsAt w 0 48
def vcOf (w : Word) : Nat := bitsAt w 48 8
def vrOf (w : Word) : Nat := bitsAt w 56 8

/-- Valid rows, columns and depth of an MMA (R248). -/
structure Extent where
  k : Nat
  vr : Nat
  vc : Nat
  vk : Nat
  deriving DecidableEq, Repr

def extentOf (f : MForm) (shape : Nat) (aw bw : Word) : Extent :=
  let k := shapeK f.limits shape
  { k := k, vr := min (vrOf aw) (shapeM shape), vc := min (vcOf bw) (shapeN shape)
    vk := 8 * min (min (vcOf aw) (vrOf bw)) (k / 8) }

/-- Address of row `i`. -/
def rowAddr (base w : Word) (i : Nat) : Word := base + BitVec.ofNat 64 (i * strideOf w)

/-- The interval of `rows` rows of `len` bytes, empty when either is 0. -/
def rowSpan (base w : Word) (rows len : Nat) : Nat × Nat :=
  if rows = 0 ∨ len = 0 then (base.toNat, 0) else boundsOf base rows len (strideOf w)

/-! ### Execution by row groups (R255) -/

/-- Elements of `bits` bits of a row's bytes. -/
def elementsOf (bits : Nat) (bs : List Byte) : List Nat :=
  let n := natOf bs
  (List.range (bs.length * 8 / bits)).map fun i => n / 2 ^ (bits * i) % 2 ^ bits

/-- What the engine reads of one row: for each element taken its value, and the label words of the lines. -/
abbrev RowData := List (Option FVal) × List LabelWord

/-- The engine of the crew, on behalf of the issuer of a command (R142). -/
def MEntry.agent (e : MEntry) (cl : Nat) : Agent := ⟨cl, e.mode, .matrix (crewOf e.core) e.record⟩

/-- What is read row by row, in order, and the lowest failing address of all rows when one fails (R256). -/
def readEach {α : Type} (f : Nat → State → Except Deny (α × State)) : List Nat → State → Except Deny (List α × State)
  | [], s => .ok ([], s)
  | i :: is, s =>
    match f i s with
    | .error d => .error (match readEach f is s with
      | .error e => d.lower e
      | .ok _ => d)
    | .ok (r, t) =>
      match readEach f is t with
      | .error e => .error e
      | .ok (rs, u) => .ok (r :: rs, u)

/-- The 8-element blocks of row `i` of A from block `c` on, taken when below vk and not skipped. -/
def State.readBlocks (s : State) (ag : Agent) (dec : Nat → FVal) (bits : Nat) (skip : Nat → Bool) (row : Word) :
    List Nat → Except Deny (RowData × State)
  | [] => .ok (([], []), s)
  | c :: cs => do
    let ((vs, ws), t) ← (if skip c then .ok ((List.replicate 8 none, []), s)
      else do
        let (n, w, t) ← s.engineRead ag (row + BitVec.ofNat 64 (c * bits)) bits
        .ok (((elementsOf bits (bytesOf bits n)).map fun v => some (dec v), [w]), t))
    let ((vs', ws'), u) ← t.readBlocks ag dec bits skip row cs
    .ok ((vs ++ vs', ws ++ ws'), u)

/-- Row `i` of A. -/
def State.readRowA (s : State) (ag : Agent) (dec : Nat → FVal) (bits : Nat) (x : Extent) (bitmap base w : Word)
    (i : Nat) : Except Deny (RowData × State) :=
  let skip (c : Nat) : Bool :=
    decide (i ≥ x.vr) || decide (8 * c ≥ x.vk) || bitmap.toNat.testBit (16 * (i / 8) + c)
  s.readBlocks ag dec bits skip (rowAddr base w i) (List.range (x.k / 8))

/-- Row `k` of B. -/
def State.readRowB (s : State) (ag : Agent) (dec : Nat → FVal) (bits : Nat) (x : Extent) (cols : Nat) (base w : Word)
    (k : Nat) : Except Deny (RowData × State) :=
  if k ≥ x.vk ∨ x.vc = 0 then .ok ((List.replicate cols none, []), s)
  else do
    let (bs, ws, t) ← s.readSpan ag (rowAddr base w k) ((x.vc * bits + 7) / 8)
    let vs := ((elementsOf bits bs).take x.vc).map fun v => some (dec v)
    .ok ((vs ++ List.replicate (cols - x.vc) none, ws), t)

/-- The factors of one product: +0 twice unless both elements are taken (R248). -/
def factors (a b : Option FVal) : FVal × FVal :=
  match a, b with
  | some x, some y => (x, y)
  | some _, none => (.fin false 0 0, .fin false 0 0)
  | none, some _ => (.fin false 0 0, .fin false 0 0)
  | none, none => (.fin false 0 0, .fin false 0 0)

/-- An accumulator element after an MMA (R110, R251). -/
def mmaElement (f : MForm) (c : Nat) (row col : List (Option FVal)) (scale : Nat → Nat × Nat) : Nat :=
  let products := (row.zip col).map fun p => factors p.1 p.2
  match f with
  | .ii =>
    let sum : Int := products.foldl (fun (t : Int) p => t + p.1.exact.m * p.2.exact.m) 0
    ((c + sum) % ((2 ^ 32 : Nat) : Int)).toNat
  | .bb | .hh | .ee | .ef | .ff =>
    let blocks := chunks 32 products.length products
    (blocks.mapIdx fun kb b => (kb, b)).foldl (fun t e => mmaStep t e.2 (scale e.1).1 (scale e.1).2) c

/-- A tile of a core. -/
def Core.tile (c : Core) (acc : Nat) : Tile := if acc = 0 then c.acc0 else c.acc1
def Core.setTile (c : Core) (acc : Nat) (t : Tile) : Core := if acc = 0 then { c with acc0 := t } else { c with acc1 := t }

def State.putRow (s : State) (cl core acc i : Nat) (v : AccRow) (w : LabelWord) : State :=
  s.mapCoreAt cl core fun c =>
    let t := c.tile acc
    c.setTile acc ⟨filePut (by decide) t.row i v, filePut (by decide) t.lbl i w⟩

/-- Rows with their labels formed, written together. -/
def State.putRows (s : State) (cl core acc : Nat) : List (Nat × AccRow × Label) → Except EngineFail State
  | [] => .ok s
  | (i, v, l) :: rest =>
    match s.engineForm cl core l with
    | .error e => .error e
    | .ok (w, t) => (t.putRow cl core acc i v w).putRows cl core acc rest

/-- What a command did: the state reached, and the failure with the rows completed before its group. -/
structure Ran where
  state : State
  fail : Option (EngineFail × Nat)
  deriving DecidableEq, Repr

/-- Groups run in order until one fails. -/
def runGroups (f : Nat → State → Except EngineFail State) : List Nat → State → Ran
  | [], s => ⟨s, none⟩
  | g :: gs, s =>
    match f g s with
    | .error e => ⟨s, some (e, 8 * g)⟩
    | .ok t => runGroups f gs t

/-- Groups of `rows` rows, from row `start`. -/
def groupsFrom (start rows : Nat) : List Nat := (List.range ((rows + 7) / 8)).filter fun g => decide (start / 8 ≤ g)

/-- Rows of group `g` below a limit. -/
def rowsOf (g limit : Nat) : List Nat := ((List.range 8).map (8 * g + ·)).filter fun i => decide (i < limit)

/-- An MMA (R267). -/
def State.runMma (s : State) (cl : Nat) (e : MEntry) (f : MForm) (shape acc : Nat) (a aw b bw bitmap : Word)
    (scales : List VWord) : Ran :=
  let ag := e.agent cl
  let x := extentOf f shape aw bw
  let n := shapeN shape
  let value := elementValue f e.bankA e.bankB
  match liftDeny (readEach (fun k s => s.readRowB ag (value f.bitsB) f.bitsB x n b bw k) (List.range x.k) s) with
  | .error d => ⟨s, some (d, e.rows)⟩
  | .ok (bs, s) =>
    let cols := (List.range n).map fun j => bs.map fun r => (r.1[j]?).getD none
    let shared := e.ctl :: e.scaleLbls ++ bs.flatMap Prod.snd
    let scale (i j kb : Nat) : Nat × Nat :=
      match scales[kb]? with
      | some v => (lane 8 v i, lane 8 v (32 + j))
      | none => (127, 127)
    runGroups (fun g s =>
      match liftDeny (readEach (fun i s => s.readRowA ag (value f.bitsA) f.bitsA x bitmap a aw i)
          (rowsOf g (shapeM shape)) s) with
      | .error d => .error d
      | .ok (rows, s) =>
        let tile := (s.coreAt cl e.core).tile acc
        let news := ((rowsOf g (shapeM shape)).zip rows).map fun p =>
          let i := p.1
          let old := fileGet (by decide) tile.row i
          let vals := (cols.mapIdx fun j col => mmaElement f (lane 32 old j) p.2.1 col (scale i j))
          let kept := (List.range (32 - n)).map fun j => lane 32 old (n + j)
          (i, BitVec.ofNat 1024 (packLanes 32 (vals ++ kept)),
            s.engineConj (fileGet (by decide) tile.lbl i :: shared ++ p.2.2))
        s.putRows cl e.core acc news)
      (groupsFrom e.rows (shapeM shape)) s

/-- Row `i` loaded by MLDA, with the labels of its lines. -/
def State.loadRow (s : State) (ag : Agent) (ctl : LabelWord) (base w : Word) (i : Nat) :
    Except Deny ((Nat × AccRow × Label) × State) := do
  let (bs, ws, t) ← s.readSpan ag (rowAddr base w i) 128
  .ok ((i, BitVec.ofNat 1024 (natOf bs), t.engineConj (ctl :: ws)), t)

/-- Row `i` stored by MSTA. -/
def State.storeRow (s : State) (cl : Nat) (e : MEntry) (acc : Nat) (base w : Word) (cols i : Nat) : Except EngineFail State :=
  let tile := (s.coreAt cl e.core).tile acc
  let bs := bytesOf (4 * cols) (fileGet (by decide) tile.row i).toNat
  let nl := s.engineConj [fileGet (by decide) tile.lbl i, e.ctl]
  s.writeSpan (e.agent cl) e.core nl (rowAddr base w i) bs

/-- Rows stored by MSTA; what is written before a failure stays, and the failure is the lowest of its group (R256). -/
def State.storeRows (s : State) (cl : Nat) (e : MEntry) (acc : Nat) (base w : Word) (cols : Nat) :
    List Nat → State × Option (EngineFail × Nat)
  | [] => (s, none)
  | i :: is =>
    match s.storeRow cl e acc base w cols i with
    | .error d =>
      let others := (is.filter fun k => k / 8 = i / 8).filterMap fun k =>
        match s.storeRow cl e acc base w cols k with
        | .error f => some f
        | .ok _ => none
      (s, some (others.foldl EngineFail.lower d, i / 8 * 8))
    | .ok t => t.storeRows cl e acc base w cols is

/-- A command executed from the row it stands at. -/
def State.runCommand (s : State) (cl : Nat) (e : MEntry) : Ran :=
  match e.cmd with
  | .mma f shape acc _ a aw b bw bitmap scales => s.runMma cl e f shape acc a aw b bw bitmap scales
  | .mzero acc =>
    let word := mkWord s.ctx.world.agentEpoch false 0
    ⟨s.mapCoreAt cl e.core fun c => c.setTile acc ⟨fill 32 0, fill 32 word⟩, none⟩
  | .mlda acc base w =>
    let rows := min (vrOf w) 32
    runGroups (fun g s =>
      match liftDeny (readEach (fun i s => s.loadRow (e.agent cl) e.ctl base w i) (rowsOf g rows) s) with
      | .error d => .error d
      | .ok (news, t) => t.putRows cl e.core acc news) (groupsFrom e.rows rows) s
  | .msta acc base w =>
    let rows := min (vrOf w) 32
    let r := s.storeRows cl e acc base w (min (vcOf w) 32) ((List.range rows).filter fun i => decide (e.rows ≤ i))
    ⟨r.1, r.2⟩

/-- The command at the head of an engine's queue completes (R253). -/
def execMatrixCommandComplete (cl crew : Nat) (s : State) : Out :=
  s.engineRuns (match (s.mengine cl crew).queue with
    | [] => s
    | e :: _ =>
      let r := s.runCommand cl e
      match r.fail with
      | some _ => s
      | none =>
        let t := (r.state.unlock cl e.locks).mapMengine cl crew fun m => { m with queue := m.queue.drop 1 }
        if e.last then t.spoilTiles cl e.core else t)

/-- The command at the head fails: it and the core's later ones are set aside (R256). -/
def execMatrixHalt (cl crew : Nat) (s : State) : Out :=
  s.engineRuns (match (s.mengine cl crew).queue with
    | [] => s
    | e :: rest =>
      let r := s.runCommand cl e
      match r.fail with
      | none => s
      | some (f, rows) =>
        let mine := rest.filter fun m => m.core == e.core
        let d := f.deny
        let t := (r.state.noteDeny (e.agent cl) d).mapMengine cl crew fun m =>
          { m with queue := rest.filter fun m => m.core != e.core }
        t.mapCoreAt cl e.core fun c =>
          { c with
            mrows := rows, mfpc := e.pc, aside := { e with rows := rows } :: (mine ++ c.aside)
            mfault := some ⟨d.cause, BitVec.ofNat 64 d.info, d.addr, 0, true⟩ })

/-! ### Issue (R252) -/

/-- The deferred fault taken (R191). -/
def State.takeDeferred (s : State) : Result Unit :=
  match s.core.mfault with
  | some t => .error (.trap { t with epc := s.core.issue.epc })
  | none => .ok ()

/-- Set-aside commands resume ahead of what is queued (R257). -/
def State.resumeAside (s : State) : State :=
  let mine := s.core.aside
  if mine.isEmpty then s
  else (s.mapMyEngine fun e => { e with queue := mine ++ e.queue }).mapCore fun c => { c with aside := [] }

/-- MMALEASE without a lease (R239). -/
def State.leaseCheck (s : State) : Result Unit :=
  if s.holdsLease then .ok () else .error (s.trap .mmalease 1 0)

/-- MISALIGN of a base or its stride (R247). -/
def State.strideCheck (s : State) (acc : Access) (base w : Word) : Result Unit :=
  if base.toNat % 16 ≠ 0 ∨ strideOf w % 16 ≠ 0 then .error (s.trap .misalign acc.code base) else .ok ()

/-- One command counted against the lease (R241). -/
def MEngine.spend (e : MEngine) : MEngine :=
  if e.lrem ≤ 1 then { e with holder := none, lrem := 0, prev := e.holder } else { e with lrem := e.lrem - 1 }

/-- A command enters the core's queue, or its set-aside commands when it may not resume them (R252, R256); a full
queue or lock table stalls, the set-aside commands having resumed ahead of it (R257). -/
def State.enqueueCmd (s : State) (cmd : MCmd) (ws scaleLbls : List LabelWord) (ranges : List (Nat × Nat × Bool))
    (resumes : Bool) : Result State := do
  let me := s.focus.core
  let cl := s.focus.cl
  let s := if resumes then s.resumeAside else s
  let stalled : Stop := .hold s
  let (ctl, s) ← s.formConj ws
  match s.lockRanges cl me .matrix ranges with
  | none => .error stalled
  | some (locks, s) =>
    let e := s.myEngine
    let waiting := (e.queue.filter fun m => m.core == me).length + s.core.aside.length
    if waiting ≥ Config.matrixQueue then .error stalled
    else
      let entry : MEntry :=
        { cmd := cmd, core := me, record := s.core.crec, last := false, pc := s.core.issue.addr, mode := s.core.status.mode, ctl := ctl
          scaleLbls := scaleLbls, bankA := e.bankA, bankB := e.bankB, rows := 0, locks := locks }
      let s := s.mapMyEngine MEngine.spend
      .ok (if s.core.aside.isEmpty then s.mapMyEngine fun e => { e with queue := e.queue ++ [entry] }
        else s.mapCore fun c => { c with aside := c.aside ++ [entry] }).complete

def State.issueMma (s : State) (f : MForm) (shape acc : Nat) (z : Bool) (a b : Nat) (scales : List Nat) : Out :=
  let aw := s.rdX (a + 1)
  let bw := s.rdX (b + 1)
  let x := extentOf f shape aw bw
  let ra := rowSpan (s.rdX a) aw (if x.vk = 0 then 0 else x.vr) (x.vk * f.bitsA / 8)
  let rb := rowSpan (s.rdX b) bw (if x.vc = 0 then 0 else x.vk) ((x.vc * f.bitsB + 7) / 8)
  commit s (do
    s.edgeGuard 1 0
    s.takeDeferred
    s.leaseCheck
    s.strideCheck .read (s.rdX a) aw
    s.strideCheck .read (s.rdX b) bw
    s.enqueueCmd
      (.mma f shape acc z (s.rdX a) aw (s.rdX b) bw (if z then s.rdX (a + 2) else 0) (scales.map s.rdV))
      (s.labGroup a (if z then 3 else 2) ++ s.labGroup b 2) (scales.map s.labV)
      [(ra.1, ra.2, false), (rb.1, rb.2, false)] true)

/-- Scale registers of a scaled form (R250). -/
def scaleRegs (l : MmaLimits) (shape vs : Nat) : List Nat := (List.range (shapeK l shape / 32)).map (vs + ·)

def execMmabb (shape acc : Nat) (z : Bool) (a b : Nat) (s : State) : Out := s.issueMma .bb shape acc z a b []
def execMmahh (shape acc : Nat) (z : Bool) (a b : Nat) (s : State) : Out := s.issueMma .hh shape acc z a b []
def execMmaii (shape acc : Nat) (z : Bool) (a b : Nat) (s : State) : Out := s.issueMma .ii shape acc z a b []
def execMmaee (shape acc : Nat) (z : Bool) (a b vs : Nat) (s : State) : Out :=
  s.issueMma .ee shape acc z a b (scaleRegs mmaEE shape vs)
def execMmaef (shape acc : Nat) (z : Bool) (a b vs : Nat) (s : State) : Out :=
  s.issueMma .ef shape acc z a b (scaleRegs mmaEF shape vs)
def execMmaff (shape acc : Nat) (z : Bool) (a b vs : Nat) (s : State) : Out :=
  s.issueMma .ff shape acc z a b (scaleRegs mmaFF shape vs)

def execMzero (acc : Nat) (s : State) : Out :=
  commit s (do
    s.edgeGuard 1 0
    s.leaseCheck
    s.enqueueCmd (.mzero acc) [] [] [] false)

def execMlda (acc a : Nat) (s : State) : Out :=
  let w := s.rdX (a + 1)
  let r := rowSpan (s.rdX a) w (min (vrOf w) 32) 128
  commit s (do
    s.edgeGuard 1 0
    s.leaseCheck
    s.strideCheck .read (s.rdX a) w
    s.enqueueCmd (.mlda acc (s.rdX a) w) (s.labGroup a 2) [] [(r.1, r.2, false)] false)

def execMsta (acc a : Nat) (s : State) : Out :=
  let w := s.rdX (a + 1)
  let rows := min (vrOf w) 32
  let cols := min (vcOf w) 32
  let r := rowSpan (s.rdX a) w rows (4 * cols)
  commit s (do
    s.edgeGuard 1 0
    s.takeDeferred
    s.leaseCheck
    s.strideCheck .write (s.rdX a) w
    s.inboxCheck ((List.range rows).map fun i => ((rowAddr (s.rdX a) w i).toNat, 4 * cols))
    s.enqueueCmd (.msta acc (s.rdX a) w) (s.labGroup a 2) [] [(r.1, r.2, true)] true)

/-- Commands of a core that have not completed. -/
def State.matrixBusy (s : State) (cl core : Nat) : Bool :=
  ((s.mengine cl (crewOf core)).queue.any fun e => e.core == core) || !(s.coreAt cl core).aside.isEmpty

def execMsync (s : State) : Out :=
  commit s (do
    if s.core.mfault.isSome then s.edgeGuard 1 0
    s.takeDeferred
    let t := s.resumeAside
    if t.matrixBusy s.focus.cl s.focus.core then .ok (t.parkAt .msync) else .ok t.complete)

/-! ### MSKLD (R269) and HPREF (R69) -/

/-- The stored quarters of a bitmap, read in order: the bitmap and the label words. -/
def State.readQuarters (s : State) (pres : Nat) : List Nat → Word → Nat → Result (Nat × List LabelWord × State)
  | [], _, r => .ok (r, [], s)
  | q :: qs, p, r =>
    if pres.testBit q then do
      let (v, w, t) ← s.loadOne 2 p
      let (r, ws, u) ← t.readQuarters pres qs (p + 2) (r + v * 2 ^ (16 * q))
      .ok (r, w :: ws, u)
    else s.readQuarters pres qs p r

def execMskld (d a b : Nat) (s : State) : Out :=
  let mb := s.rdX a
  let t := s.rdX b
  commit s (do
    s.check (alignAll .read 8 [mb])
    let (nbr, w0, u) ← s.loadOne 4 mb
    u.inHand
    if t.toNat ≥ nbr then .error (s.illegal 9 0)
    let (idx, w1, u) ← u.loadOne 4 (mb + 8 + 4 * t)
    u.inHand
    let (r, ws, u) ← u.readQuarters (idx % 16) [0, 1, 2, 3] (mb + BitVec.ofNat 64 (2 * (idx / 16))) 0
    let u ← u.setX d (BitVec.ofNat 64 r) ([s.labX a, s.labX b, w0, w1] ++ ws)
    .ok u.complete)

/-- HPREF changes no register, label or memory (R69). -/
def execHpref (_d _a _b : Nat) (s : State) : Out := .next s.complete

end Sys2Proof.Machine
end

