-- ==== Sys2Proof/Machine/Events.lean ====
section
/-! DEFINITION. Events of cores, of the dispatcher, of strokes, of the fault ring and of translation. An event that is
not enabled leaves the machine as it is. -/

namespace Sys2Proof.Machine

/-! ### Long-latency results and parks (R25, R51, R194) -/

def execLongLatencyResultReturn (cl core idx : Nat) (s : State) : Out :=
  .next (s.mapCoreAt cl core (·.returnOne idx))

/-- An upcall may be delivered to the core as to mode and status (R194), and to no participant of an edge run
(R340). -/
def Core.takesUpcalls (c : Core) : Bool :=
  c.status.upe && !c.status.inup && decide (c.status.mode = .u) && c.edge.isNone

/-- WAITT at its wake (R179, R283): it hands over the handler of the LATE that the core takes, or 0. -/
def State.wakeTimed (s : State) (cl core : Nat) (until_ job : Word) (late : Bool) : State :=
  let awake := s.mapCoreAt cl core (·.wake 0)
  match (if job = 0 then none else s.findJob cl core job) with
  | none => if late ∨ until_.toNat ≤ s.dev.cycle.toNat then awake else s
  | some j =>
    if late ∨ s.dev.cycle.toNat < until_.toNat then s
    else if j.handler ≠ 0 ∧ (s.coreAt cl core).takesUpcalls then
      s.mapCoreAt cl core (·.wake j.handler)
    else s.mapCoreAt cl core fun c => { c with park := some (.cycle until_ job true) }

/-- A core whose condition has come wakes (R25). -/
def State.parkWake (s : State) (cl core : Nat) : State :=
  let c := s.coreAt cl core
  let wakeIf (b : Bool) : State := if b then s.mapCoreAt cl core (·.wake 0) else s
  match c.park with
  | some .marker => if c.pending = [] then s.mapCoreAt cl core fun c => { c with park := none } else s
  | some (.counter k threshold) => wakeIf (reached (bitsAt (c.counter k) 0 31) threshold)
  | some (.cycle until_ job late) => s.wakeTimed cl core until_ job late
  | some (.catchPhase g _) =>
    let k := (s.cluster cl).group g
    if catchDone c k g then s.mapCoreAt cl core (·.wake (k.waitcWord + 1)) else s
  | some .fenceE => wakeIf (!s.engineBusy cl core)
  | some .msync => wakeIf (!s.matrixBusy cl core || c.mfault.isSome)
  | some (.fencesc _) | some .macq | some .lease | some .edgerun | some (.contra _) | some .wreset | none => s

def execCoreParkWake (cl core : Nat) (s : State) : Out := s.engineRuns (s.parkWake cl core)

/-- A stroke tick ends a FENCESC that had drained before it (R149). -/
def State.fencescEnd (s : State) (cl core : Nat) : State :=
  match (s.coreAt cl core).park with
  | some (.fencesc stroke) => if stroke < s.dev.stroke.toNat then s.mapCoreAt cl core (·.wake 0) else s
  | _ => s

def execFencescTickEnd (cl core : Nat) (s : State) : Out := s.engineRuns (s.fencescEnd cl core)

/-! ### Upcalls (R192 to R194) -/

def UpcallKind.code : UpcallKind → Nat
  | .notify => 1 | .late => 2 | .remoteError => 3

/-- UPCAUSE. -/
def Upcall.cause (u : Upcall) (lost : Bool) : Word :=
  BitVec.ofNat 64 (u.kind.code + u.detail % 2 ^ 8 * 2 ^ 8 + oneBit lost * 2 ^ 16)

/-- An upcall delivered (R194). -/
def Core.take (c : Core) (u : Upcall) : Core :=
  let c := c.drain
  { c with
    upjob := u.job, upcause := u.cause c.uplost, upepc := c.pc, uplost := false
    frozen := c.loops.length, status := { c.status with inup := true }, pc := u.handler, park := none
    poppedUpcall := c.popped, popped := none, stalled := false }

/-- Delivery of the oldest upcall. -/
def Core.deliver (c : Core) : Core :=
  match c.upcalls with
  | [] => c
  | u :: rest => { c with upcalls := rest }.take u

/-- The LATE that a WAITT takes once its container is complete, ahead of the FIFO (R193, R194). -/
def Core.deliverLate (c : Core) : Core :=
  match c.late with
  | none => c
  | some (job, handler) => { c with late := none }.take ⟨.late, 0, job, handler⟩

/-- The parks that an upcall ends (R194). -/
def Park.interruptible : Park → Bool
  | .counter _ _ => true | .cycle _ _ _ => true | .catchPhase _ _ => true | .fenceE => true
  | .marker => false | .fencesc _ => false | .macq => true | .lease => false | .msync => true | .edgerun => false
  | .contra _ => false | .wreset => false

/-- The core stands at a boundary where an upcall is delivered. -/
def Core.upcallReady (c : Core) : Bool :=
  c.takesUpcalls && !c.upcalls.isEmpty && c.record.isSome && c.grants.isEmpty
    && (match c.park with
      | none => true
      | some p => p.interruptible)

/-- An upcall delivered; a waiting MACQ's request ends with its park. -/
def execUpcallDelivery (cl core : Nat) (s : State) : Out :=
  s.engineRuns (if (s.coreAt cl core).upcallReady then
      let t := if (s.coreAt cl core).park = some .macq then
          s.mapCluster cl fun k => k.mapEngine (crewOf core) fun e =>
            { e with requests := eraseAt (memberOf core) e.requests }
        else s
      t.mapCoreAt cl core Core.deliver
    else s)

/-! ### The dispatcher (R17 to R20, R24) -/

def execDispatch (cl core : Nat) (s : State) : Out := .next (s.dispatchOn cl core)

/-- An idle core finds a gang at the head of its queue (R20). -/
def execGangReserve (cl core : Nat) (s : State) : Out :=
  s.engineRuns (match s.pick cl core with
    | none => s
    | some va => if rGang (s.record va) then s.dispatchOn cl core else s)

/-- A record that has waited more than AGE strokes ages (R18). -/
def State.ageRecord (s : State) (cl : Nat) (va : Word) : State :=
  let r := s.record va
  let k := s.cluster cl
  let waits := (lookupD [] k.runq (queueKey r)).contains va
  let reserving := k.reservations.any fun g => g.record == va
  let waited := (s.dev.stroke.toNat + 2 ^ 32 - rEnq r) % 2 ^ 32
  if waits ∧ !reserving ∧ s.ctx.desc.age ≠ 0 ∧ rPrio r < 3 ∧ s.ctx.desc.age < waited then
    let r' := setBits (setBits r 244 2 (rPrio r + 1)) 416 32 s.dev.stroke.toNat
    (s.putRecord va r').mapCluster cl fun k =>
      let k := k.unqueue va
      { k with runq := modifyAt [] (queueKey r') (· ++ [va]) k.runq }
  else s

def execRecordAging (cl : Nat) (rec_ : Word) (s : State) : Out := s.engineRuns (s.ageRecord cl rec_)

/-- A gang's patience ends: its cores are free again and it goes to the tail of its queue (R20). -/
def State.gangwait (s : State) (cl : Nat) (va : Word) : State := if s.gangLate cl va then s.expireGang cl va else s

def execGangwaitExpiry (cl : Nat) (rec_ : Word) (s : State) : Out := s.engineRuns (s.gangwait cl rec_)

/-- The wake condition of a suspended record has come (R24). -/
def State.wakeRecord (s : State) (cl : Nat) (va : Word) : State :=
  if (s.cluster cl).suspended.contains va && s.wakes (s.record va) then
    (s.mapCluster cl fun k => { k with suspended := k.suspended.filter (· != va) }).enqueue va
  else s

def execRecordWake (cl : Nat) (rec_ : Word) (s : State) : Out := s.engineRuns (s.wakeRecord cl rec_)

/-! ### Strokes (R150, R224, R373, R458, R459) -/

/-- What a tick brings to a core: the epoch, and on an idle core the code generation. -/
def Core.tick (c : Core) (w : World) (cg : Half) : Core :=
  { c with epoch := w.epoch, codegen := if c.record.isNone then cg else c.codegen }

/-- A tick of a context: at a gang-stop its cores keep what was saved of them (R373). -/
def Context.tick (k : Context) : Context :=
  if k.stopped then k
  else
    { k with
      idleGen := k.cg
      world := { k.world with agentEpoch := k.world.epoch }
      clusters := k.clusters.map fun e =>
        (e.1, { e.2 with cores := e.2.cores.map fun c => (c.1, c.2.tick k.world k.cg) }) }

def Device.throttled (d : Device) : Bool := decide (d.throttle ≠ 0) || d.dieThrottle.any fun e => decide (e.2 ≠ 0)

def Device.tick (d : Device) : Device :=
  let d' := { d with
    stroke := d.stroke + 1, snapshot := d.counters, powerCap := d.pendingCap.getD d.powerCap, pendingCap := none }
  if d.throttled then d'.count ctrThrcyc else d'

/-- Errors since the last tick, which no event of the table brings (R162, R458): so many corrected ones of DRAM and of local
stores and caches and so many retransmissions as free values say, and at most one uncorrectable one, whose line stays
poisoned (log entry 46). -/
def Device.errors (d : Device) (n : Nat) : Device :=
  let d := ((d.countBy ctrDramce (Config.free n 0)).countBy ctrSramce (Config.free n 1)).countBy ctrUeretry (Config.free n 2)
  if Config.free n 3 % 2 = 0 then d
  else
    let line := lineOf (Config.free n 4)
    let d := if line < 2 ^ 40 then d.count ctrDramue else d
    { d with poison := setMember d.poison line true }.count ctrPoison

/-- Every core of the partition has passed the generation. -/
def State.allPast (s : State) (g : Half) : Bool :=
  s.ctx.places.all fun p => decide (g.toNat ≤ (s.coreAt p.1 p.2).codegen.toNat)

/-- Unloaded images that every core has passed are freed, those that `sel` names (R374): their pages are mapped no longer. -/
def State.freeImages (s : State) (sel : Image → Bool) : State :=
  let freed (i : Image) : Bool :=
    sel i && (match i.unloading with
      | none => false
      | some t => decide (t < s.dev.stroke.toNat)) && s.allPast i.gen
  if s.ctx.nclus ≤ 4 && s.ctx.images.any freed then
    let mapped := (s.ctx.images.filter freed).flatMap fun i => i.pages.zip i.places
    let pages := mapped.map fun e => pageKey e.1
    (mapped.foldl (fun s e => s.unmapPage e.1 e.2) s).mapCtx fun k =>
      { k with
        images := k.images.filter (!freed ·)
        clusters := k.clusters.map fun e =>
          (e.1, { e.2 with
            tlb := e.2.tlb.filter fun l => !pages.contains l.1
            first := e.2.first.map fun t => (t.1, t.2.filter fun l => !pages.contains l.1) }) }
  else s

/-- Cores of a cluster, of those that anything has happened to. -/
def State.listedCores (s : State) (cl : Nat) : List Nat :=
  (if s.focus.cl = cl then [s.focus.core] else []) ++ (s.cluster cl).cores.map Prod.fst

/-- What the dispatcher of a cluster has done at the latest when a tick ends (R18, R20, R24, R25, R37, R149): records and
cores whose conditions hold wake, gangs whose patience has ended give up, records age, idle cores take records. -/
def State.tickCluster (s : State) (cl : Nat) : State :=
  let s := (s.cluster cl).suspended.foldl (fun t va => t.wakeRecord cl va) s
  let s := (s.listedCores cl).foldl (fun t c => (t.parkWake cl c).fencescEnd cl c) s
  let s := ((s.cluster cl).reservations.map Reservation.record).foldl (fun t va => t.gangwait cl va) s
  let s := (s.queuedRecords cl).foldl (fun t va => t.ageRecord cl va) s
  if (s.queuedRecords cl).isEmpty then s
  else (List.range 192).foldl (fun t c => t.dispatchOn cl c) s

/-- Clusters of the context that moves to which anything has happened. -/
def State.listedClusters (s : State) : List Nat := (s.focus.cl :: s.ctx.clusters.map Prod.fst).eraseDups

/-- The same for every cluster of the context that moves; then firmware frees images (R374). -/
def State.tickContext (s : State) : State :=
  (if s.ctx.stopped then s else s.listedClusters.foldl (fun t cl => t.tickCluster cl) s).freeImages fun _ => true

/-- What a tick counts: the epoch and the code generation, the device's own counts. -/
def State.ticked (s : State) : State :=
  { s with
    core := if s.ctx.stopped then s.core else s.core.tick s.ctx.world s.ctx.cg
    ctx := s.ctx.tick, others := s.others.map Context.tick, dev := s.dev.tick.errors s.fresh
    fresh := s.fresh + 1 }

/-- The context that moves, if there is one, loses the grants of `n` units of 2 MiB from unit `first` on (R404, R435). -/
def State.revoke (s : State) (first n : Nat) : State :=
  if s.ctx.desc.ctxid = 0 ∨ s.ctx.destroyed then s else
  let g := s.ctx.desc.grant
  let gone (pa : Nat) : Bool := decide (g + first / 8 ≤ pa) && decide (pa < g + (first + n) / 8)
  (s.mapDev fun d => { d with mem := d.mem.filter fun e => !gone (paOfLoc d.rb e.1) }).mapCtx fun k =>
    let stays (u : Nat) : Bool := decide (u < first ∨ first + n ≤ u)
    { k with desc := { k.desc with units := k.desc.units.filter stays, heap := k.desc.heap.filter stays } }

/-- What firmware does in every context. -/
def State.inEvery (s : State) (f : State → State) : State :=
  (s.ctx.desc.ctxid :: s.others.map fun k => k.desc.ctxid).foldl (fun t id => t.inContext id f) s

/-- Units of 2 MiB behind a CXL port, 1 TiB of PA (R434). -/
def portUnits : Nat := 2 ^ 19

/-- The ranges of ports that have failed an access or are lost leave every grant, and with the last port of the fabric the
pool (R435, R456), at the stroke tick (log entry 78). -/
def State.dropFailed (s : State) : State :=
  let t := s.dev.cxlFailed.foldl (fun t p => t.inEvery (·.revoke (portUnits * (4 + p)) portUnits))
    (s.mapDev fun d => { d with cxlFailed := [] })
  if s.dev.poolLost then t.inEvery (·.revoke (portUnits * 12) (4 * portUnits)) else t

/-- What is due in each context when a tick ends, and what firmware does then. -/
def State.tickWork (s : State) : State := (s.inEvery State.tickContext).dropFailed

def execStrokeTick (s : State) : Out := .next s.ticked.tickWork

/-! ### The engine fault ring (R281, R339, R418) -/

/-- A paused run goes on, or ends with the code of its fault. -/
def EdgeRun.answer (r : EdgeRun) (resolved : Bool) : EdgeRun :=
  if r.phase ≠ .paused then r
  else if resolved then { r with phase := r.back, fault := none }
  else { r with phase := .ending, code := r.fault.getD 2 }

/-- A copy job is replayed whole, or completes with the code of its fault. -/
def State.answerJob (s : State) (cl crew : Nat) (id : Word) (resolved : Bool) : State :=
  match (s.copyUnit cl crew).jobs.find? fun j => j.id == id && j.state == .awaiting with
  | none => s
  | some j =>
    if resolved then s.setJob cl crew id fun j => { j with state := .queued, fault := none }
    else s.completeJob cl crew j ((j.fault.map fun f => f.1).getD 2) 0

/-- The posting unit reads its record (R418), at no gang-stop (R282). -/
def execFaultRecordPoll (slot : Nat) (s : State) : Out :=
  s.engineRuns (match lookup s.ctx.ringOwners slot with
    | none => s
    | some (cl, crew, job) =>
      let state := s.ringState slot
      if state = 2 ∨ state = 3 then
        let t := if crew = 0xFF then
            s.mapCluster cl fun k => { k with runs := k.runs.map fun r => r.answer (decide (state = 2)) }
          else s.answerJob cl crew job (decide (state = 2))
        t.freeRecord slot
      else s.ringError slot)

/-! ### Translation (R409, R412 to R416) -/

/-- A walk completes: the cluster holds the translation found. -/
def execPageWalkComplete (cl : Nat) (va : Word) (s : State) : Out :=
  .next (if (s.ctx.windowOff va).isSome ∨ !canonicalVa va ∨ cl ≥ s.ctx.nclus then s
    else match s.walkFrom (engineOf cl .s) va 3 1 s.ctx.desc.troot with
      | (.ok f, t) => t.holdLeaf (engineOf cl .s) va f
      | (.error _, t) => t)

/-- The translation under a key is covered by `npg` pages from page `lo`. -/
def covered (lo npg key : Nat) : Bool :=
  if key < 2 ^ 48 then decide (lo ≤ key) && decide (key < lo + npg)
  else
    let b := 2 ^ 13 * (key - 2 ^ 48)
    decide (lo < b + 2 ^ 13) && decide (b < lo + npg)

/-- The same for a table entry that the walkers hold; one of level 2 has the key of its block. -/
def coveredWalk (lo npg key : Nat) : Bool :=
  if key < 2 ^ 48 then decide (lo < 2 ^ 26 * key + 2 ^ 26) && decide (2 ^ 26 * key < lo + npg) else covered lo npg key

/-- What a cluster holds of the translations that match a request goes (R415). -/
def Cluster.shoot (k : Cluster) (all : Bool) (lo npg : Nat) : Cluster :=
  let stays (l : Nat × Leaf) := !(all || covered lo npg l.1)
  { k with
    tlb := k.tlb.filter stays
    first := k.first.map fun t => (t.1, t.2.filter stays)
    walks := k.walks.filter fun w => !(all || coveredWalk lo npg w.1) }

/-- Row operations and IREDs in flight, whose captured translations the request waits for. -/
def Context.nearBusy (k : Context) : Bool := k.clusters.any fun e => !e.2.rowq.isEmpty || !e.2.ireds.isEmpty

/-- Firmware serves the shootdown line (R415). -/
def execShootdownService (s : State) : Out :=
  let va : Word := BitVec.ofNat 64 s.ctx.desc.sdline
  .next (match s.engineRead hostAgent va 64 with
    | .error d => s.noteDeny hostAgent d
    | .ok (line, _, t) =>
      let w : VWord := BitVec.ofNat 512 line
      let seq := bitsAt w 128 32
      let npg := bitsAt w 64 64
      let all := bitAt w 192
      let legal := decide (bitsAt w 193 319 = 0) && (all || (decide (1 ≤ npg) && decide (npg ≤ 65535)))
      if seq = bitsAt w 160 32 then t
      else
        let lo := bitsAt w 0 64 / 2 ^ 16
        let t := if legal then
            t.mapCtx fun k =>
              { k with
                clusters := k.clusters.map fun e => (e.1, e.2.shoot all lo npg)
                shots := k.shots ++ [if all then ⟨0, 2 ^ 48, s.dev.stores⟩ else ⟨lo, npg, s.dev.stores⟩] }
          else t
        if legal ∧ t.ctx.nearBusy then t
        else (t.statusWrite hostAgent (va + 20) (bytesOf 4 seq)).service)

end Sys2Proof.Machine
end

