-- ==== Sys2Proof/Machine/Fleet.lean ====
section
/-! DEFINITION. Lost units, health, telemetry, power and cooling (R454 to R461), and device-level faults (R433). -/

namespace Sys2Proof.Machine

/-! ### Lost units (R456) -/

/-- The physical clusters that a lost unit takes with it; a unit inside a cluster has the number 256 × cluster + its own
(log entry 14). -/
def lostClusters (u : UnitKind × Nat) : List Nat :=
  match u.1 with
  | .core | .crew | .matrixEngine | .copyUnit | .transformCore | .sweepUnit | .l2Slice => [u.2 / 256]
  | .cluster => [u.2]
  | .die => (List.range 4).map fun i => 4 * u.2 + i
  | .stack | .uePort | .cxlPort | .mgmtCore | .ioDie => []

/-- Physical clusters that work. -/
def Device.liveClusters (d : Device) : List Nat :=
  (List.range 32).filter fun c => !d.lostUnits.any fun u => (lostClusters u).contains c

def Device.lostOf (d : Device) (k : UnitKind) : Nat := (d.lostUnits.filter fun u => u.1 == k).eraseDups.length

/-- GiB of rows 0 to 127 that can be label-tracked: 128 MiB of a row on each working stack, where the row's label
words lie on a working stack (R456, R457). -/
def Device.labelGib (d : Device) : Nat :=
  ((List.range 128).filter fun r => d.stackWorks (r % 16)).length
    * ((List.range 16).filter d.stackWorks).length / 8

/-- Largest partition that the working clusters fill (R455). -/
def Device.maxPart (d : Device) : Nat :=
  ([32, 16, 8, 4, 2, 1].find? fun n => decide (n ≤ d.liveClusters.length)).getD 0

/-- Losses of dies, stacks, clusters or ports are beyond the thresholds (R457). -/
def Device.replace (d : Device) : Bool :=
  decide (d.thresholds.maxDies < d.lostOf .die + d.lostOf .ioDie) || decide (d.thresholds.maxStacks < d.lostOf .stack)
    || decide (d.liveClusters.length + d.thresholds.maxClusters < 32) || decide (d.thresholds.maxPorts < d.lostOf .uePort)

/-- The health word (R457): a REPLACE that has been reported stays set (log entry 82). -/
def Device.health (d : Device) : Nat :=
  let thr := d.dieThrottle.foldl (fun a e => Nat.max a e.2) d.throttle
  thr + 2 ^ 8 * d.powerCap + 2 ^ 16 * d.maxPart + 2 ^ 24 * (8 - d.lostOf .cxlPort) + 2 ^ 32 * (24 - d.lostOf .uePort)
    + 2 ^ 40 * (16 - d.lostOf .stack) + 2 ^ 48 * d.liveClusters.length + 2 ^ 63 * oneBit (d.replaced || d.replace)

/-! ### Telemetry (R458) -/

def execTelemetryRequest (s : State) : Out :=
  .next (s.mapDev fun d =>
    { d with replies := d.replies ++ [.telemetry ((List.range 11).map fun i => lookupD 0 d.snapshot i)] })

def execHealthRequest (s : State) : Out :=
  .next (s.mapDev fun d => { d with replaced := d.replaced || d.replace, replies := d.replies ++ [.health [d.health]] })

/-! ### Device-level fault (R433) -/

/-- All work discarded and every context destroyed; memory reads as scrubbed (R428, R432). -/
def State.deviceFault (s : State) (code : Nat) : State :=
  { s with
    core := Core.reset
    ctx := { Context.fresh CtxDesc.zero with stopped := true, destroyed := true }
    others := []
    dev := { s.dev.count ctrDevflt with
      mem := [], poison := [], held := [], packed := [], log := [], slots := [], cache := []
      replies := s.dev.replies ++ [.deviceFault code] } }

def execDeviceFault (s : State) : Out := .next (s.deviceFault 0)

/-- Every management core or both I/O dies lost (R456). -/
def Device.mute (d : Device) : Bool := decide (d.lostOf .mgmtCore ≥ 4) || decide (d.lostOf .ioDie ≥ 2)

/-- A failure that firmware cannot fuse off: of the management complex, of both I/O dies, of all compute dies (R445). -/
def Device.broken (d : Device) : Bool := d.boot.failed || d.mute || decide (d.lostOf .die ≥ 8)

/-- The safe talkative state (R445). -/
def Device.safeTalkative (d : Device) : Device := { d with down := true, boot := { d.boot with stage := 0xFF } }

/-- The die is fenced: every compute die in the safe talkative state (R445), and after a thermal trip until reset (R460). -/
def Device.fenced (d : Device) (die : Nat) : Bool := decide (d.boot.stage = 0xFF) || d.dieFenced.contains die

/-! ### Power and cooling (R459, R460) -/

def execPowerCapSet (units : Nat) (s : State) : Out :=
  .next (if 30 ≤ units ∧ units ≤ 90 then s.mapDev fun d => { d with pendingCap := some units } else s)

def execCurrentLimit (s : State) : Out := .next (s.mapDev fun d => { d with currentStall := true })
def execCurrentFallsBelowLimit (s : State) : Out := .next (s.mapDev fun d => { d with currentStall := false })

def execThrottleLevelChange (level : Nat) (s : State) : Out := .next (s.mapDev fun d => { d with throttle := level % 8 })

def execThermalThrottle (die : Nat) (s : State) : Out :=
  .next (s.mapDev fun d => { d with dieThrottle := insertAt die 4 d.dieThrottle })

def execThermalTrip (_die : Nat) (s : State) : Out :=
  .next ((s.deviceFault 2).mapDev fun d => { d with dieFenced := List.range 8 })

end Sys2Proof.Machine
end

