-- ==== Sys2Proof/Machine/Firmware.lean ====
section
/-! DEFINITION. Boot, the firmware image, measurement and attestation, transform routines (R443 to R453). -/

namespace Sys2Proof.Machine

/-! ### Measurements (R452) -/

def digestBytes (d : BitVec 384) : List Byte := bytesOf 48 d.toNat

/-- MRi := SHA-384(MRi ‖ digest). -/
def Device.extend (d : Device) (i : Nat) (digest : BitVec 384) : Device :=
  let m := Config.sha384 (digestBytes (fileGet (by decide) d.mr i) ++ digestBytes digest)
  { d with mr := filePut (by decide) d.mr i m }

/-! ### The image (R446, R447) -/

def numAt (bs : List Byte) (off n : Nat) : Nat := natOf ((bs.drop off).take n)

/-- The CODE of R448 with which an image fails, 0 when ROM accepts it. -/
def imageFault (minSvn : Nat) (image : List Byte) : Nat :=
  let len := numAt image 8 8
  let pub := (image.drop 64).take 96
  let key := Config.sha384 pub
  let signed := image.take 160 ++ (image.drop 256).take len
  if numAt image 0 4 ≠ 0x57464D45 ∨ len < 2 ^ 16 ∨ len > 2 ^ 26 ∨ image.length ≠ 256 + len then 3
  else if digestBytes key ≠ (image.drop 16).take 48 ∨ key ≠ Config.vendorKeyHash then 3
  else if !Config.ecdsaVerify pub ((image.drop 160).take 96) (Config.sha384 signed) then 3
  else if numAt image 4 4 < minSvn then 4
  else 0

/-- Attempts in all (R447). -/
def fetchLimit : Nat := 8

/-- The image starts: RB, which stays as it is until the next reset (R449), and the thresholds are set, a new translator finds
its cache empty (R389), and the device reports STAGE 3 with what self-test found (R444, R448). -/
def Device.start (d : Device) (image : List Byte) : Device :=
  let rb := if d.boot.rb = 0 then 32 + 8 * (Config.boundaryRow image % 60) else d.boot.rb
  let t := match Config.imageThresholds image with
    | some (a, b, c, e) => ⟨a, b, c, e⟩
    | none => d.thresholds
  let cache := if Config.translatorVersion image = Config.translatorVersion d.image then d.cache else []
  { d with
    image := image, cache := cache, svn := numAt image 4 4, rb := rb, down := false, thresholds := t
    boot := { d.boot with stage := 3, rb := rb, code := oneBit d.boot.lost } }

/-- Step 3 of the boot with one fetch, and step 4 when the image is accepted and the device can leave the safe talkative
state. -/
def Device.fetchImage (d : Device) (image : Option (List Byte)) : Device :=
  let d := { d with boot := { d.boot with tries := d.boot.tries + 1, stage := 2 } }
  let failed (code : Nat) : Device :=
    let d := { d with boot := { d.boot with code := code } }
    if d.boot.tries ≥ fetchLimit then d.safeTalkative else d
  match image with
  | none => failed 2
  | some bs =>
    match imageFault d.minSvn bs with
    | 0 =>
      let d := d.extend 2 (Config.sha384 bs)
      if d.broken then d.safeTalkative else d.start bs
    | code + 1 => failed (code + 1)

/-! ### Boot (R444, R445) -/

/-- Kind and number in UNIT of the boot status word: a unit inside a cluster is given by its own number there, and what has
no kind of its own by the crew or the cluster that it is part of (log entry 14). -/
def unitWord (u : UnitKind × Nat) : Nat :=
  let (k, n) := match u.1 with
    | .core => (0, u.2 % 256)
    | .crew | .matrixEngine | .copyUnit | .transformCore => (1, u.2 % 256)
    | .cluster => (2, u.2)
    | .sweepUnit | .l2Slice => (2, u.2 / 256)
    | .die | .ioDie => (3, u.2)
    | .stack => (4, u.2)
    | .uePort | .cxlPort => (5, u.2)
    | .mgmtCore => (0, u.2)
  k * 2 ^ 12 + n % 2 ^ 12

/-- Reset and steps 1 to 4 with the first fetch: what was live is lost. -/
def execPowerOnReset (test : SelfTest) (image : Option (List Byte)) (s : State) : Out :=
  let old := s.dev
  let d := { Device.reset with minSvn := old.minSvn, incarnation := old.incarnation, replies := old.replies }
  let d := (d.extend 0 Config.romDigest).extend 1 test.digest
  let bad := test.fatal || !test.lost.isEmpty
  let d := { d with
    lostUnits := test.lost
    boot := { d.boot with
      stage := 1, code := oneBit bad, unit := ((test.lost.head?).map unitWord).getD 0, lost := bad
      failed := test.fatal } }
  let d := if d.broken then d.safeTalkative else d.fetchImage image
  .next { State.reset with
    dev := d, agenda := s.agenda, fresh := s.fresh
    ctx := { Context.fresh CtxDesc.zero with stopped := true } }

/-- A further attempt, one second later (R447). -/
def execFirmwareFetchRetry (image : Option (List Byte)) (s : State) : Out :=
  .next (if s.dev.boot.stage = 2 ∧ s.dev.boot.tries < fetchLimit then s.mapDev (·.fetchImage image) else s)

/-- The fetch command of the safe talkative state (R445). -/
def execFirmwareFetch (image : Option (List Byte)) (s : State) : Out :=
  .next (if s.dev.boot.stage = 0xFF then
      s.mapDev fun d => { d with boot := { d.boot with tries := 0 } }.fetchImage image
    else s)

/-- A fused minimum raised, at most to the running image's SVN (R447). -/
def execSvnRaise (svn : Nat) (s : State) : Out :=
  .next (if s.dev.minSvn < svn ∧ svn ≤ s.dev.svn ∧ s.dev.boot.stage = 3 then s.mapDev fun d => { d with minSvn := svn }
    else s)

/-! ### Status and quotes (R448, R453) -/

def Boot.word (b : Boot) : Nat :=
  b.stage + b.code * 2 ^ 8 + b.tries * 2 ^ 16 + b.rb * 2 ^ 31 + (if b.code = 1 then b.unit else 0) * 2 ^ 48

def execStatusRequest (s : State) : Out :=
  .next (s.mapDev fun d => { d with replies := d.replies ++ [.status d.boot] })

def execAttestationRequest (nonce : BitVec 384) (s : State) : Out :=
  let d := s.dev
  let mr (i : Nat) : List Byte := digestBytes (fileGet (by decide) d.mr i)
  let mr3 := if d.boot.stage = 3 then mr 3 else bytesOf 48 0
  let quote := digestBytes nonce ++ mr 0 ++ mr 1 ++ mr 2 ++ mr3 ++ bytesOf 4 d.svn ++ bytesOf 8 d.boot.word
  .next (s.mapDev fun d => { d with replies := d.replies ++ [.quote (quote ++ Config.quoteSignature quote)] })

/-! ### Routines (R450) -/

/-- A context changed by its CTXID. -/
def State.mapContext (s : State) (ctxid : Nat) (f : Context → Context) : State :=
  if s.ctx.desc.ctxid = ctxid then s.mapCtx f
  else { s with others := s.others.map fun k => if k.desc.ctxid = ctxid then f k else k }

/-- The context exists. -/
def State.hasContext (s : State) (ctxid : Nat) : Bool :=
  decide (ctxid ≠ 0) && ((s.ctx.desc.ctxid == ctxid && !s.ctx.destroyed)
    || s.others.any fun k => k.desc.ctxid == ctxid && !k.destroyed)

def execRoutineLoad (ctxid id : Nat) (image : List Byte) (s : State) : Out :=
  .next (if s.hasContext ctxid ∧ image.length ≤ 2 ^ 20 then
      (s.mapDev fun d =>
        { d.extend 3 (Config.sha384 image) with replies := d.replies ++ [.routine id] }).mapContext ctxid fun k =>
        { k with routines := insertAt id image k.routines }
    else s.mapDev fun d => { d with replies := d.replies ++ [.refused 1] })

end Sys2Proof.Machine
end

