-- ==== Sys2Proof/Machine/Scalar.lean ====
section
/-! DEFINITION. Scalar integer instructions (R76 to R84) and control transfers (R85 to R97). -/

namespace Sys2Proof.Machine



/-- A result written with Lbl over its register operands, then the next instruction (R76, R77, R80). -/
def State.result (s : State) (d : Nat) (v : Word) (ws : List LabelWord) : Out :=
  commit s (match s.setX d v ws with
    | .error e => .error e
    | .ok t => .ok t.complete)

/-- A register–register form (R80). A register named twice counts once; Conj is idempotent in it. -/
def State.binary (s : State) (d a b : Nat) (f : Word → Word → Word) : Out :=
  s.result d (f (s.rdX a) (s.rdX b)) [s.labX a, s.labX b]

/-- A form with one register operand (R80, R82, R83). -/
def State.unary (s : State) (d a : Nat) (f : Word → Word) : Out := s.result d (f (s.rdX a)) [s.labX a]

/-- A long-latency result in an x register (R53, R78). -/
def State.longBinary (s : State) (d a b : Nat) (f : Word → Word → Word) : Out :=
  commit s (
    if d = 0 then .ok s.complete
    else match s.formConj [s.labX a, s.labX b] with
      | .error e => .error e
      | .ok (l, t) =>
        .ok (t.later ⟨.x d, (f (s.rdX a) (s.rdX b)).zeroExtend 512, l, FFlags.none⟩).complete)

def execAdd (d a b : Nat) (s : State) : Out := s.binary d a b (· + ·)
def execSub (d a b : Nat) (s : State) : Out := s.binary d a b (· - ·)
def execAnd (d a b : Nat) (s : State) : Out := s.binary d a b (· &&& ·)
def execOr (d a b : Nat) (s : State) : Out := s.binary d a b (· ||| ·)
def execXor (d a b : Nat) (s : State) : Out := s.binary d a b (· ^^^ ·)
/-- Shift amount B[5:0] (R80). -/
def shiftAmount (b : Word) : Nat := b.toNat % 64
def execShl (d a b : Nat) (s : State) : Out := s.binary d a b fun x y => x <<< shiftAmount y
def execShr (d a b : Nat) (s : State) : Out := s.binary d a b fun x y => x >>> shiftAmount y
def execSra (d a b : Nat) (s : State) : Out := s.binary d a b fun x y => x.sshiftRight (shiftAmount y)
def execSlt (d a b : Nat) (s : State) : Out := s.binary d a b fun x y => boolWord (decide (x.toInt < y.toInt))
def execSltu (d a b : Nat) (s : State) : Out := s.binary d a b fun x y => boolWord (decide (x.toNat < y.toNat))
def execMin (d a b : Nat) (s : State) : Out := s.binary d a b fun x y => if x.toInt ≤ y.toInt then x else y
def execMax (d a b : Nat) (s : State) : Out := s.binary d a b fun x y => if x.toInt ≥ y.toInt then x else y
def execMinu (d a b : Nat) (s : State) : Out := s.binary d a b fun x y => if x.toNat ≤ y.toNat then x else y
def execMaxu (d a b : Nat) (s : State) : Out := s.binary d a b fun x y => if x.toNat ≥ y.toNat then x else y
/-- Zero bits above the highest one bit (R80). -/
def leadingZeros (x : Word) : Nat := if x = 0 then 64 else 63 - x.toNat.log2
def popCount (x : Word) : Nat := ((List.range 64).filter fun i => x.toNat.testBit i).length
def execClz (d a : Nat) (s : State) : Out := s.unary d a fun x => BitVec.ofNat 64 (leadingZeros x)
def execPopc (d a : Nat) (s : State) : Out := s.unary d a fun x => BitVec.ofNat 64 (popCount x)
def execMul (d a b : Nat) (s : State) : Out := s.binary d a b (· * ·)
def execMulh (d a b : Nat) (s : State) : Out :=
  s.binary d a b fun x y => wordOf (x.toInt * y.toInt / ((2 ^ 64 : Nat) : Int))
def execMulhu (d a b : Nat) (s : State) : Out :=
  s.binary d a b fun x y => BitVec.ofNat 64 (x.toNat * y.toNat / 2 ^ 64)

/-- Quotient and remainder, signed (R81). -/
def quotS (x y : Word) : Word := if y = 0 then BitVec.allOnes 64 else wordOf (x.toInt.tdiv y.toInt)
def remS (x y : Word) : Word := if y = 0 then x else wordOf (x.toInt.tmod y.toInt)
/-- Quotient and remainder, unsigned (R81). -/
def quotU (x y : Word) : Word := if y = 0 then BitVec.allOnes 64 else BitVec.ofNat 64 (x.toNat / y.toNat)
def remU (x y : Word) : Word := if y = 0 then x else BitVec.ofNat 64 (x.toNat % y.toNat)
def execDiv (d a b : Nat) (s : State) : Out := s.longBinary d a b quotS
def execDivu (d a b : Nat) (s : State) : Out := s.longBinary d a b quotU
def execRem (d a b : Nat) (s : State) : Out := s.longBinary d a b remS
def execRemu (d a b : Nat) (s : State) : Out := s.longBinary d a b remU

def execAddi (d a imm : Nat) (s : State) : Out := s.unary d a (· + imm12 imm)
def execAndi (d a imm : Nat) (s : State) : Out := s.unary d a (· &&& imm12 imm)
def execOri (d a imm : Nat) (s : State) : Out := s.unary d a (· ||| imm12 imm)
def execXori (d a imm : Nat) (s : State) : Out := s.unary d a (· ^^^ imm12 imm)
def execSlti (d a imm : Nat) (s : State) : Out :=
  s.unary d a fun x => boolWord (decide (x.toInt < (imm12 imm).toInt))
def execSltiu (d a imm : Nat) (s : State) : Out :=
  s.unary d a fun x => boolWord (decide (x.toNat < (imm12 imm).toNat))
def execShli (d a n : Nat) (s : State) : Out := s.unary d a (· <<< n)
def execShri (d a n : Nat) (s : State) : Out := s.unary d a (· >>> n)
def execSrai (d a n : Nat) (s : State) : Out := s.unary d a fun x => x.sshiftRight n

/-- Sext64(imm20 << 12) (R84). -/
def upper (imm : Nat) : Word := wordOf (sext 32 (imm * 2 ^ 12))
def execUpi (d imm : Nat) (s : State) : Out := .next (s.wrX d (upper imm) s.topWord).complete
def execAupc (d imm : Nat) (s : State) : Out :=
  .next (s.wrX d (s.core.issue.addr + upper imm) s.topWord).complete

/-! ### Jumps and branches (R86 to R89) -/

def execJ (off : Nat) (s : State) : Out :=
  .next (s.mapCore fun c => c.transfer (branchTarget s.core.issue.addr 24 off))

def execJl (off : Nat) (s : State) : Out :=
  .next ((s.wrX 1 s.core.issue.successor s.topWord).mapCore fun c =>
    c.jump (branchTarget s.core.issue.addr 24 off))

/-- A conditional branch (R85, R88). -/
def State.branch (s : State) (a b off : Nat) (taken : Word → Word → Bool) : Out :=
  commit s (match s.classRule [s.labX a, s.labX b] with
    | .error e => .error e
    | .ok () =>
      if taken (s.rdX a) (s.rdX b) then
        .ok (s.mapCore fun c => c.transfer (branchTarget s.core.issue.addr 12 off))
      else .ok s.complete)

def execBeq (a b off : Nat) (s : State) : Out := s.branch a b off fun x y => decide (x = y)
def execBne (a b off : Nat) (s : State) : Out := s.branch a b off fun x y => decide (x ≠ y)
def execBlt (a b off : Nat) (s : State) : Out := s.branch a b off fun x y => decide (x.toInt < y.toInt)
def execBge (a b off : Nat) (s : State) : Out := s.branch a b off fun x y => decide (x.toInt ≥ y.toInt)
def execBltu (a b off : Nat) (s : State) : Out := s.branch a b off fun x y => decide (x.toNat < y.toNat)
def execBgeu (a b off : Nat) (s : State) : Out := s.branch a b off fun x y => decide (x.toNat ≥ y.toNat)

/-- The target of JR and JLR (R87). -/
def State.registerTarget (s : State) (a imm : Nat) : Word := s.rdX a + wordOf (4 * sext 12 imm)

/-- MISALIGN of a transfer target (R50, R87): a fetch, EADDR at the target (R190). -/
def State.targetCheck (s : State) (t : Word) : Result Unit :=
  if t.toNat % 4 ≠ 0 then .error (s.trap .misalign 2 t) else .ok ()

/-- JLR and JR: under STRICT a COND label of xa traps LBLCTL before the target's own check (R85, R87: log entry 36). -/
def execJlr (d a imm : Nat) (s : State) : Out :=
  commit s (do
    s.classRule [s.labX a]
    s.targetCheck (s.registerTarget a imm)
    .ok ((s.wrX d s.core.issue.successor s.topWord).mapCore fun c => c.jump (s.registerTarget a imm)))

def execJr (a imm : Nat) (s : State) : Out :=
  commit s (do
    s.classRule [s.labX a]
    s.targetCheck (s.registerTarget a imm)
    .ok (s.mapCore fun c => c.transfer (s.registerTarget a imm)))

/-! ### Counted loops (R90, R91, R464) -/

/-- LOOP and LOOPI with the count read (R91). -/
def State.enterLoop (s : State) (count : Int) (imm : Nat) : Result State :=
  let start := container s.core.issue.addr + 8
  let stop := start + BitVec.ofNat 64 (8 * imm)
  if count ≤ 0 then .ok (s.mapCore fun c => c.skipBody stop)
  else if s.core.loops.length ≥ 4 then .error (s.trap .loopovf 0 0)
  else .ok (s.mapCore fun c => { c with loops := ⟨start, stop, count.toNat⟩ :: c.loops }).complete

def execLoop (a imm : Nat) (s : State) : Out :=
  commit s (do
    s.classRule [s.labX a]
    if (s.rdX a).toInt > 0xFFFFFFFF then .error (s.illegal 9 0) else s.enterLoop (s.rdX a).toInt imm)

def execLoopi (n imm : Nat) (s : State) : Out := commit s (s.enterLoop n imm)

/-! ### Handlers (R94 to R97) -/

/-- Where an instruction that ends its container goes on: end-of-body processing included (R93). -/
def execSvc (n : Nat) (s : State) : Out :=
  .next ((s.complete.trapEntry ⟨.svc, BitVec.ofNat 64 n, 0, s.complete.core.pc, false⟩).mapCore fun c =>
    { c with trapped := none })

/-- PRIV in U mode (R57). -/
def State.privileged (s : State) : Result Unit :=
  if s.core.status.mode = .u then .error (s.trap .priv 0 0) else .ok ()

/-- FROZ and PMODE of ECAUSE (R188). -/
def frozOf (ecause : Word) : Nat := bitsAt ecause 9 3
def pmodeOf (ecause : Word) : Mode := if bitAt ecause 8 then .s else .u

/-- The return from an exception (R96, R189): the loop stack rebuilt and frozen again, the mode at trap entry,
the pc at EPC. -/
def Core.leaveTrap (c : Core) : Core :=
  { c with
    loops := unpackLoops c.epc c.ecause c.sloop
    frozen := frozOf c.ecause
    status := { c.status with mode := pmodeOf c.ecause }
    pc := c.epc
    issue := { c.issue with taken := true }
    fetchSync := c.fenced
    edge := c.edge.map fun r => { r with depth := r.depth - 1 }
    popped := c.poppedTrap
    stalled := false }

def execEret (s : State) : Out :=
  commit s (do
    s.privileged
    s.targetCheck s.core.epc
    let depth := (unpackLoops s.core.epc s.core.ecause s.core.sloop).length
    if frozOf s.core.ecause > depth ∨ (frozOf s.core.ecause ≠ 0 ∧ !s.core.status.inup) then .error (s.illegal 9 0)
    else .ok (s.mapCore Core.leaveTrap))

/-- The end of an upcall (R97): entries pushed since delivery go, the rest unfreezes. -/
def Core.leaveUpcall (c : Core) : Core :=
  { c with
    loops := c.loops.drop (c.loops.length - c.frozen)
    frozen := 0
    status := { c.status with inup := false }
    pc := c.upepc
    issue := { c.issue with taken := true }
    fetchSync := c.fenced
    popped := c.poppedUpcall
    stalled := false }

def execUpret (s : State) : Out :=
  commit s (do
    if s.core.status.mode = .s ∨ !s.core.status.inup then .error (s.illegal 10 0)
    s.targetCheck s.core.upepc
    .ok (s.mapCore Core.leaveUpcall))

end Sys2Proof.Machine
end

