-- ==== Sys2Proof/Machine/System.lean ====
section
/-! DEFINITION. Control registers (R41 to R44, R195, R462), the feature query (R196) and page invalidation
(R197). -/

namespace Sys2Proof.Machine

/-! ### Control registers -/

/-- Access to a control register (R41): readable and writable in U mode, writable in S mode, readable in S mode
always. -/
structure CrAccess where
  uRead : Bool
  uWrite : Bool
  sWrite : Bool
  deriving DecidableEq, Repr

/-- The map of R41; `none` is an unassigned number. -/
def crAccess (n : Nat) : Option CrAccess :=
  if n ≤ 1 then some ⟨true, true, true⟩
  else if n ≤ 3 then some ⟨true, false, false⟩
  else if n = 4 then some ⟨false, false, false⟩
  else if n ≤ 8 then some ⟨true, false, false⟩
  else if n = 0x10 then some ⟨true, false, true⟩
  else if n = 0x11 then some ⟨true, true, true⟩
  else if n = 0x12 then some ⟨true, false, false⟩
  else if 0x20 ≤ n ∧ n ≤ 0x27 then some ⟨false, false, true⟩
  else if n = 0x30 ∨ n = 0x31 then some ⟨true, false, true⟩
  else if n = 0x32 then some ⟨true, true, true⟩
  else if n = 0x40 ∨ n = 0x41 then some ⟨true, false, true⟩
  else if n = 0x48 then some ⟨true, true, true⟩
  else if n = 0x50 then some ⟨false, false, true⟩
  else if n = 0x58 ∨ n = 0x60 then some ⟨true, false, false⟩
  else none

def Status.word (t : Status) : Nat :=
  oneBit (decide (t.mode = .s)) + 2 ^ 5 * oneBit t.inup + 2 ^ 6 * oneBit t.upe + 2 ^ 7 * oneBit t.haz

def Fcsr.word (f : Fcsr) : Nat := f.flags.toNat + 2 ^ 5 * f.rm

def LblCfg.word (l : LblCfg) (epoch : BitVec 8) : Nat :=
  oneBit l.strict + 2 * oneBit l.ovf + 8 * oneBit l.swept + 2 ^ 8 * l.xmax + 2 ^ 16 * epoch.toNat

def LblStat.word (l : LblStat) : Nat := oneBit l.lost + 2 ^ 16 * l.slows + 2 ^ 32 * l.drops

/-- MPROG (R258). -/
def State.mprog (s : State) : Nat :=
  let lrem := if s.holdsLease then (s.myCluster.engine (crewOf s.focus.core)).lrem else 0
  s.core.mrows + 2 ^ 48 * lrem + 2 ^ 62 * oneBit s.holdsLease + 2 ^ 63 * oneBit (!s.core.aside.isEmpty)

/-- The physical core that the core table names for a logical core (R378). -/
def physicalCore (d : CtxDesc) (cl core : Nat) : Nat :=
  ((d.cores.find? fun e => e.1 == (cl, core)).map Prod.snd).getD core

/-- COREID (R462). -/
def State.coreid (s : State) : Nat :=
  s.ctx.desc.part.getD s.focus.cl 0 * 2 ^ 8 + physicalCore s.ctx.desc s.focus.cl s.focus.core % 2 ^ 8

/-- The value of a control register. -/
def State.crRead (s : State) (n : Nat) : Word :=
  let num (v : Nat) : Word := BitVec.ofNat 64 v
  let c := s.core
  if n = 0 then num c.status.word
  else if n = 1 then num c.regs.fcsr.word
  else if n = 2 then s.dev.cycle
  else if n = 3 then s.dev.stroke
  else if n = 4 then num s.coreid
  else if n = 5 then num s.focus.core
  else if n = 6 then num s.focus.cl
  else if n = 7 then num c.stage
  else if n = 8 then c.crec
  else if n = 0x10 then num (c.lblcfg.word c.epoch)
  else if n = 0x11 then num c.lblstat.word
  else if n = 0x12 then s.ctx.world.nggen
  else if n = 0x20 then c.epc
  else if n = 0x21 then c.ecause
  else if n = 0x22 then c.einfo
  else if n = 0x23 then c.eaddr
  else if n ≤ 0x27 then fileGet (by decide) c.sloop (n - 0x24)
  else if n = 0x30 then c.upjob
  else if n = 0x31 then c.upcause
  else if n = 0x32 then c.upepc
  else if n = 0x40 then num s.mprog
  else if n = 0x41 then c.mfpc
  else if n = 0x48 then c.dealpat
  else if n = 0x50 then c.catchcfg
  else if n = 0x58 then c.codegen.zeroExtend 64
  else num s.ctx.desc.lsbase

/-- What a CATCHCFG write brings to another core (R174): no arrival on the group, and the end of a WAITC on it with the result
that no phase has completed. -/
def Core.leaveGroup (c : Core) (g : Nat) : Core :=
  let c := { c with arrived := eraseAt g c.arrived }
  match c.park with
  | some (.catchPhase h _) => if h = g then c.wake (BitVec.ofNat 64 (2 ^ 34) + 1) else c
  | _ => c

/-- A group after a CATCHCFG write (R174): waiting and arrived members start afresh and edge runs on it end. -/
def State.resetGroup (s : State) (g : Nat) (image : BitVec 256) : State :=
  let cl := s.focus.cl
  let s := s.mapCluster cl fun k =>
    { k.mapGroup g (fun _ => { CatchGroup.reset with image := image }) with
      cores := k.cores.map fun e => (e.1, e.2.leaveGroup g)
      runs := k.runs.map fun r => if r.desc.g = g then { r with code := 9, phase := .ending } else r }
  s.mapCore fun c => { c with arrived := eraseAt g c.arrived }

/-- A CATCHCFG write: the image read with checks 1 to 3 and 8 of R159 and that of the tag (R420; log entry 61), then the
group reset (R174). -/
def State.writeCatchcfg (s : State) (v : Word) : Result State := do
  let va := v &&& ~~~(31 : Word)
  let (p, t) ← s.check (s.translate s.me .read va)
  s.check (permCheck s.me .read p)
  s.check (t.tagCheck s.me .read p)
  s.check (t.poisonCheck s.me .read p)
  let t := t.found s.me p
  t.inHand
  let image := BitVec.ofNat 256 (t.dev.num p.loc 32)
  if image.toNat / 2 ^ 217 ≠ 0 then .error (s.illegal 7 0)
  .ok ((t.mapCore fun c => { c with catchcfg := v &&& ~~~(16 : Word) }).resetGroup (bitsAt v 0 4) image)

/-- Set-aside matrix commands discarded by a write of MPROG (R258); with those of an earlier dispatch the accumulators are
unpredictable (R244). -/
def State.dropAside (s : State) : State :=
  let t := (s.unlock s.focus.cl (s.core.aside.flatMap MEntry.locks)).mapCore fun c => { c with aside := [] }
  if s.core.aside.any MEntry.last then t.spoilTiles s.focus.cl s.focus.core else t

/-- Writable bits of DEALPAT (R275), UPCAUSE (R192) and ECAUSE (R188); reserved bits read as zero (R7). -/
def dealpatMask : Word := 0x3FFFFFFFFF01
def upcauseMask : Word := 0x1FFFF
def ecauseMask : Word := 0xFFFFFFFFFFFF0FFF

def LblCfg.write (l : LblCfg) (v : Word) : LblCfg :=
  let x := bitsAt v 8 6
  { xmax := if 4 ≤ x ∧ x ≤ 32 then x else l.xmax, swept := bitAt v 3, ovf := bitAt v 1, strict := bitAt v 0 }

/-- FCSR written; a rounding mode of 4 to 7 leaves RM (R44). -/
def Fcsr.write (f : Fcsr) (v : Word) : Fcsr :=
  ⟨if bitsAt v 5 3 < 4 then bitsAt v 5 3 else f.rm, FFlags.ofNat (bitsAt v 0 5)⟩

/-- A control register written, by the access of its fields. -/
def State.crWrite (s : State) (n : Nat) (v : Word) : Result State :=
  if n = 0 then .ok (s.mapCore fun c => { c with status := { c.status with haz := bitAt v 7, upe := bitAt v 6 } })
  else if n = 1 then .ok (s.mapRegs fun r => { r with fcsr := r.fcsr.write v })
  else if n = 0x10 then .ok (s.mapCore fun c => { c with lblcfg := c.lblcfg.write v })
  else if n = 0x11 then .ok (s.mapCore fun c => { c with lblstat := ⟨bitsAt v 32 16, bitsAt v 16 16, bitAt v 0⟩ })
  else if n = 0x20 then .ok (s.mapCore fun c => { c with epc := v })
  else if n = 0x21 then .ok (s.mapCore fun c => { c with ecause := v &&& ecauseMask })
  else if n = 0x22 then .ok (s.mapCore fun c => { c with einfo := v })
  else if n = 0x23 then .ok (s.mapCore fun c => { c with eaddr := v })
  else if 0x24 ≤ n ∧ n ≤ 0x27 then .ok (s.mapCore fun c => { c with sloop := filePut (by decide) c.sloop (n - 0x24) v })
  else if n = 0x30 then .ok (s.mapCore fun c => { c with upjob := v })
  else if n = 0x31 then .ok (s.mapCore fun c => { c with upcause := v &&& upcauseMask })
  else if n = 0x32 then .ok (s.mapCore fun c => { c with upepc := v })
  else if n = 0x40 then
    if bitAt v 63 then .ok s else .ok s.dropAside
  else if n = 0x48 then .ok (s.mapCore fun c => { c with dealpat := v &&& dealpatMask })
  else if n = 0x50 then s.writeCatchcfg v
  else .ok s

/-- Fates of R42; `op` is the operation of R63. -/
def State.crCheck (s : State) (n op : Nat) (write : Bool) : Result Unit :=
  match crAccess n with
  | none => .error (s.illegal 8 0)
  | some a =>
    let user := decide (s.core.status.mode = .u)
    if user ∧ (!a.uRead ∨ (write ∧ !a.uWrite)) then .error (s.trap .priv (n % 1024 + 2 ^ 10 * op + 2 ^ 12) 0)
    else if write ∧ !a.sWrite then .error (s.illegal 8 0)
    else .ok ()

def execCrr (d n : Nat) (s : State) : Out :=
  commit s (do
    s.crCheck n 0 false
    .ok (s.wrX d (s.crRead n) s.topWord).complete)

/-- CRW, CRS and CRC (R195). -/
def State.crModify (s : State) (op n a : Nat) (new : Word → Word) (d : Option Nat) : Out :=
  commit s (do
    s.crCheck n op true
    s.classRule [s.labX a]
    let t ← s.crWrite n (new (s.crRead n))
    .ok (match d with
      | some d => (t.wrX d (s.crRead n) s.topWord).complete
      | none => t.complete))

def execCrw (n a : Nat) (s : State) : Out := s.crModify 1 n a (fun _ => s.rdX a) none
def execCrs (d n a : Nat) (s : State) : Out := s.crModify 2 n a (fun old => old ||| s.rdX a) (some d)
def execCrc (d n a : Nat) (s : State) : Out := s.crModify 3 n a (fun old => old &&& ~~~(s.rdX a)) (some d)

/-! ### Features (R196) -/

def State.feature (s : State) (n : Nat) : Nat :=
  match n with
  | 0 => 4 + 4 * 2 ^ 8 + 2 ^ 24 * (Config.step % 256) + 0xF * 2 ^ 32
  | 1 => 65534 + 1024 * 2 ^ 16 + 256 * 2 ^ 28 + 4 * 2 ^ 37 + 32 * 2 ^ 42
  | 2 => 0x3F + 32 * 2 ^ 8 + 32 * 2 ^ 16 + 64 * 2 ^ 24
  | 3 => 256 + 2 ^ 16 * (128 * s.dev.liveClusters.length) + 2 ^ 32 * (64 * (16 - s.dev.lostOf .stack))
      + 2 ^ 48 * s.dev.labelGib
  | 4 => 0x7F + 4 * 2 ^ 8 + 16 * 2 ^ 16 + 16 * 2 ^ 24 + 512 * 2 ^ 32
  | 5 => 192 + 8 * 2 ^ 8 + 2 ^ 16 * s.ctx.nclus + 16 * 2 ^ 24 + 2 ^ 32 * s.ctx.desc.tx + 2 ^ 40 * s.ctx.desc.ty
      + 2 ^ 48 * s.ctx.desc.tz
  | _ => 0

def execFeat (d n : Nat) (s : State) : Out := .next (s.wrX d (BitVec.ofNat 64 (s.feature n)) s.topWord).complete

/-- INVPG (R197): with every earlier access of the core performed, as for FENCESC (R149; log entry 81), its walks see its own
stores, and what the core and its cluster hold of the translation goes. -/
def execInvpg (a : Nat) (s : State) : Out :=
  commit s (do
    s.privileged
    let va := s.rdX a
    let t := s.drain.mapCore fun c => { c with walkSync := s.dev.stores }
    .ok (t.mapCluster s.focus.cl fun k =>
      { k.forget s.me va with walks := eraseAt (walkKey va 1) (eraseAt (walkKey va 2) k.walks) }).complete)

end Sys2Proof.Machine
end

