-- ==== Sys2Proof/Machine/SaveArea.lean ====
section
/-! DEFINITION. The save area of a context (R427, R428): what the save path writes at a gang-stop, byte by byte. -/

namespace Sys2Proof.Machine

/-! ### Where the area lies -/

/-- PA of the area of a logical core. -/
def Context.saveOf (k : Context) (cl core : Nat) : Nat := k.desc.save + saveSize * (cl * 192 + core)

/-- The PA lies in the save area, or in the 96 MiB of the world area (R199). -/
def Context.inSave (k : Context) (pa : Nat) : Bool := decide (k.desc.save ≤ pa ∧ pa < k.desc.save + k.saveBytes)
def Context.inWorld (k : Context) (pa : Nat) : Bool := decide (k.desc.world ≤ pa ∧ pa < k.desc.world + 96 * 2 ^ 20)

/-! ### The area of one core -/

/-- `n` bytes for each element. -/
def wordBytes (n : Nat) (l : List Nat) : List Byte := l.flatMap (bytesOf n)

def labelBytes (l : List LabelWord) : List Byte := wordBytes 4 (l.map BitVec.toNat)

/-- An entry of the loop stack: start, then COUNT and LEN. -/
def LoopEntry.saved (e : LoopEntry) : List Byte :=
  bytesOf 8 e.start.toNat ++ bytesOf 8 (e.pack.toNat / 2 ^ 20 * 2 ^ 20)

/-- An entry of the upcall FIFO: the handler, then kind, detail and job (log entry 25). -/
def Upcall.saved (u : Upcall) : List Byte :=
  bytesOf 8 u.handler.toNat ++ bytesOf 8 (u.kind.code + u.detail % 2 ^ 8 * 2 ^ 8 + u.job.toNat % 2 ^ 48 * 2 ^ 16)

/-- Bytes up to a length, zeros behind them. -/
def padTo (n : Nat) (bs : List Byte) : List Byte := (bs ++ List.replicate n 0).take n

/-- The doublewords of offset 0xD88; no trap of a long-latency result is ever recorded. -/
def State.savedControl (s : State) : List Nat :=
  s.core.pc.toNat :: s.core.crec.toNat ::
    ([0x00, 0x01, 0x10, 0x11, 0x20, 0x21, 0x22, 0x23, 0x24, 0x25, 0x26, 0x27, 0x30, 0x31, 0x32, 0x40, 0x41, 0x48,
      0x58].map fun n => (s.crRead n).toNat) ++ [s.core.tableGen, oneBit s.core.uplost, 0]

/-- Offsets 0 to 0x34FF of the area of the core that moves. -/
def State.saveImage (s : State) : List Byte :=
  let s := s.mapCore fun c => { c with latch := none }
  let c := s.core
  let names (n : Nat) := List.range n
  wordBytes 8 ((names 64).map fun r => (s.rdX r).toNat) ++ labelBytes ((names 64).map s.labX)
    ++ wordBytes 4 ((names 32).map fun r => (s.rdF r).toNat) ++ labelBytes ((names 32).map s.labF)
    ++ wordBytes 64 ((names 32).map fun r => (s.rdV r).toNat) ++ labelBytes ((names 32).map s.labV)
    ++ padTo 0x80 (wordBytes 8 ((names 8).map fun r => (s.rdP r).toNat) ++ labelBytes ((names 8).map s.labP))
    ++ padTo 0x40 (c.loops.reverse.flatMap LoopEntry.saved) ++ bytesOf 8 (c.loops.length % 8 + c.frozen % 8 * 2 ^ 4)
    ++ wordBytes 4 (c.k.toList.map BitVec.toNat)
    ++ wordBytes 8 s.savedControl
    ++ padTo 0x100 (c.upcalls.flatMap Upcall.saved)
    ++ padTo 0x4B8 (wordBytes 4 (c.regs.bankA.toList.map BitVec.toNat ++ c.regs.bankB.toList.map BitVec.toNat))
    ++ wordBytes 128 (c.acc0.row.toList.map BitVec.toNat ++ c.acc1.row.toList.map BitVec.toNat)
    ++ labelBytes (c.acc0.lbl.toList ++ c.acc1.lbl.toList)

/-- Bytes at a PA. -/
def bytesAt (pa : Nat) (bs : List Byte) : List (Nat × Byte) := bs.mapIdx fun i b => (pa + i, b)

/-- The image of a logical core, as (PA, byte): its registers, and the engine state in the device's own format, bytes that
nothing constrains (log entry 25). -/
def State.savedCore (s : State) (cl core : Nat) : List (Nat × Byte) :=
  let t := (s.focusOn s.ctx.desc.ctxid cl core).getD s
  let base := s.ctx.saveOf cl core
  bytesAt base (t.saveImage.take 0x3500)
    ++ bytesAt (base + 0x4000) (bytesOf 0x4000 (s.freeNat (192 * cl + core)))

/-- The cluster state of a logical cluster, likewise; it follows the areas of the cores (R427). -/
def State.savedCluster (s : State) (cl : Nat) : List (Nat × Byte) :=
  bytesAt (s.ctx.saveOf s.ctx.nclus 0 + 2 ^ 20 * cl) (bytesOf (2 ^ 20) (s.freeNat (2 ^ 16 + cl)))

/-- Where a byte of the context's local stores, or of their label words, is saved. -/
def Context.savedByte (k : Context) (e : Nat × Byte) : Option (Nat × Byte) :=
  let lo := localLoc k.desc.ctxid 0 0 0
  let lb := labelLoc lo
  if lo ≤ e.1 ∧ e.1 < lo + 2 ^ 26 * k.nclus then
    let o := e.1 - lo
    if o % 2 ^ 26 / 2 ^ 18 < 192 then
      some (k.saveOf (o / 2 ^ 26) (o % 2 ^ 26 / 2 ^ 18) + 0x40000 + o % 2 ^ 18, e.2)
    else none
  else if lb ≤ e.1 ∧ e.1 < lb + 2 ^ 22 * k.nclus then
    let o := e.1 - lb
    if o % 2 ^ 22 / 2 ^ 14 < 192 then
      some (k.saveOf (o / 2 ^ 22) (o % 2 ^ 22 / 2 ^ 14) + 0x8000 + o % 2 ^ 14, e.2)
    else none
  else none

/-- The parts of a core's area that are written; the others are reserved. -/
def savedPart (o : Nat) : Bool := decide (o < 0x3500 ∨ 0x4000 ≤ o ∧ o < 0xC000 ∨ 0x40000 ≤ o)

/-- The byte of the context's area is written at a gang-stop. -/
def Context.rewritten (k : Context) (pa : Nat) : Bool :=
  k.inSave pa && (decide (k.saveOf k.nclus 0 ≤ pa) || savedPart ((pa - k.desc.save) % saveSize))

/-- A byte written at a PA. -/
def Device.putPa (d : Device) (mem : NatMap Byte) (e : Nat × Byte) : NatMap Byte :=
  match d.locate e.1 with
  | some (_, loc) => putD 0 loc e.2 mem
  | none => mem

/-- Cluster and core state of the context saved (steps 4 and 5 of R424). -/
def State.saveCores (s : State) : State :=
  let news := s.ctx.places.flatMap (fun p => s.savedCore p.1 p.2) ++ (List.range s.ctx.nclus).flatMap s.savedCluster
    ++ s.dev.mem.filterMap s.ctx.savedByte
  let old := s.dev.mem.filter fun e => !s.ctx.rewritten (paOfLoc s.dev.rb e.1)
  s.drawn.mapDev fun v => { v with mem := news.foldl v.putPa old }

end Sys2Proof.Machine
end

