-- ==== Sys2Proof/Machine/Remote.lean ====
section
/-! DEFINITION. Remote access (R288 to R291): GET, GETX, SEND, SENDX, the landing of their lines and elements, and
their failure. -/

namespace Sys2Proof.Machine

def RemoteKind.sends : RemoteKind → Bool
  | .get => false | .getx => false | .send => true | .sendx => true

/-- The forms that move indexed elements. -/
def RemoteKind.indexed : RemoteKind → Bool
  | .get => false | .getx => true | .send => false | .sendx => true

/-- Bytes of the window. -/
def windowSize : Nat := 192 * 2 ^ 18

/-! ### Operands (R288, R289) -/

/-- The target of a place word; `none` where the word is illegal (R288). -/
def Context.placeTarget (k : Context) (w : Word) : Option (Option (Nat × Nat)) :=
  let lcore := bitsAt w 0 8
  let lclu := bitsAt w 8 8
  if bitsAt w 41 23 ≠ 0 ∨ lcore > 191 then none
  else if bitAt w 40 then (if lclu < k.nclus then some (some (lclu, lcore)) else none)
  else if bitsAt w 16 8 < k.desc.tx ∧ bitsAt w 24 8 < k.desc.ty ∧ bitsAt w 32 8 < k.desc.tz then some none
  else none

/-- The operation of an operand group, before its index list is read. -/
def State.remoteOf (s : State) (kind : RemoteKind) (k a : Nat) : RemoteOp :=
  let w := s.rdX (a + 1)
  let l := s.rdX (a + 2)
  { id := 0, kind := kind, core := s.focus.core, record := s.core.crec, k := k, mode := s.core.status.mode, ctl := 0
    target := (s.ctx.placeTarget (s.rdX a)).getD none, place := s.rdX a
    bytes := if kind.indexed then 0 else bitsAt w 40 24
    n := if kind.indexed then bitsAt w 48 16 else 0
    esize := 4 * 2 ^ bitsAt w 40 3
    tk := kind.sends && bitAt w 36, tcounter := bitsAt w 32 4
    remote := bitsAt w 0 18, localOff := bitsAt l 0 26, indexOff := bitsAt l 32 26, index := []
    handler := s.rdX (a + 3), landed := [], locks := [], targetLocks := [] }

/-- The group and the place word are as R288 and R289 give them. -/
def State.groupOk (s : State) (a : Nat) (r : RemoteOp) : Bool :=
  let w := s.rdX (a + 1)
  let l := s.rdX (a + 2)
  (s.ctx.placeTarget (s.rdX a)).isSome && decide (bitsAt w 37 3 = 0) && decide (bitsAt w 18 14 = 0)
    && (if r.kind.indexed then
        decide (bitsAt w 43 5 = 0) && decide (bitsAt w 40 3 ≤ 4) && decide (bitsAt l 26 6 = 0)
          && decide (bitsAt l 58 6 = 0) && decide (r.remote % r.esize = 0) && decide (r.localOff % r.esize = 0)
          && decide (r.indexOff % r.esize = 0)
      else decide (bitsAt l 26 38 = 0) && decide (r.bytes ≤ 2 ^ 18))

/-- The sides that the group names lie in the window and in the target's store (R290). -/
def RemoteOp.bounded (r : RemoteOp) : Bool :=
  if r.kind.indexed then
    decide (r.localOff + r.n * r.esize ≤ windowSize) && decide (r.indexOff + 4 * r.n ≤ windowSize)
  else decide (r.remote + r.bytes ≤ 2 ^ 18) && decide (r.localOff + r.bytes ≤ windowSize)

/-- The operands are accepted, apart from inboxes and the elements that an index list names. -/
def State.remoteOk (s : State) (a : Nat) (r : RemoteOp) : Bool := s.groupOk a r && r.bounded

/-- Window VA of a local offset. -/
def Context.windowVa (k : Context) (off : Nat) : Word := BitVec.ofNat 64 (k.desc.lsbase + off)

/-- Bytes of the local side. -/
def RemoteOp.localLen (r : RemoteOp) : Nat := if r.kind.indexed then r.n * r.esize else r.bytes

/-- Spans of the target's store as (offset, length). -/
def RemoteOp.remoteSpans (r : RemoteOp) : List (Nat × Nat) :=
  if r.kind.indexed then r.index.map fun i => (r.remote + i * r.esize, r.esize) else [(r.remote, r.bytes)]

/-- Checks 2 to 5 of R159 over the pieces of a side, without reading it. The side is checked line by line, and EADDR of RANGE
is the first byte of the piece that hits a lock (R154, R290; log entry 59). -/
def State.sideCheck (s : State) (acc : Access) (off len : Nat) : Result State := do
  let ps := piecesOf (s.ctx.windowVa off) len
  let (places, t) ← s.check (s.translateAll s.me acc (ps.map Prod.fst))
  s.check (permAll s.me acc places)
  s.check (t.tagAll s.me acc places)
  s.check (ps.foldl (fun r p => match r with
    | .ok () => rangeCheck s.myCluster.locks p.1 p.2 acc.writes
    | .error d => .error d) (.ok ()))
  .ok t

/-- The index list of `n` elements and the label words of its lines. -/
def State.readIndex (s : State) (r : RemoteOp) : Result (List Nat × List LabelWord × State) :=
  if r.kind.indexed then do
    let t ← s.sideCheck .read r.indexOff (4 * r.n)
    let (bs, ws, t) ← s.check (t.readSpan s.me (s.ctx.windowVa r.indexOff) (4 * r.n))
    t.inHand
    .ok ((List.range r.n).map fun i => natOf ((bs.drop (4 * i)).take 4), ws, t)
  else .ok ([], [], s)

/-- The delivery bitmap of an indexed form: its window offset and its bytes (R291). -/
def RemoteOp.bitmapOff (r : RemoteOp) : Nat := (r.indexOff + 4 * r.n + 7) / 8 * 8
def RemoteOp.bitmapLen (r : RemoteOp) : Nat := if r.kind.indexed then (r.n + 63) / 64 * 8 else 0

/-- ILLEGAL 9 for a byte in an inbox that the issuer's end writes: the side of a GET, the delivery bitmap (R133, R290). -/
def State.nearInbox (s : State) (r : RemoteOp) : Result Unit :=
  s.inboxCheck ((if r.kind.sends then [] else [((s.ctx.windowVa r.localOff).toNat, r.localLen)])
    ++ [((s.ctx.windowVa r.bitmapOff).toNat, r.bitmapLen)])

/-- The same for what a SEND writes in the target's store, which for SENDX the index list names. -/
def State.farInbox (s : State) (r : RemoteOp) : Result Unit :=
  if r.kind.sends then
    let lcore := bitsAt r.place 0 8
    s.inboxCheck (r.remoteSpans.map fun p => (s.ctx.desc.lsbase + lcore * 2 ^ 18 + p.1, min p.2 (2 ^ 18 - p.1)))
  else .ok ()

/-- The route of a place word of another device: its node's entry, when V = 1 (R379). -/
def routeOf (d : CtxDesc) (w : Word) : Option Route :=
  lookup d.routes (bitsAt w 16 8 + d.tx * (bitsAt w 24 8 + d.ty * bitsAt w 32 8))

/-- An operation sent to another node's device. -/
def State.sendRemote (s : State) (r : RemoteOp) : State :=
  match r.target, routeOf s.ctx.desc r.place with
  | none, some e => s.mapDev fun d => { d with replies := d.replies ++ [.remote e.fep r.place] }
  | _, _ => s

/-- The operation goes over a link, to another node's device that has a route (R379). -/
def State.linked (s : State) (r : RemoteOp) : Bool := r.target.isNone && (routeOf s.ctx.desc r.place).isSome

/-- Ranges in the issuer's table, as (lowest byte, length, destination): the contiguous sides that it names by
its own window (R153). -/
def State.remoteRanges (s : State) (r : RemoteOp) : List (Nat × Nat × Bool) :=
  let here := ((s.ctx.windowVa r.localOff).toNat, r.localLen, !r.kind.sends)
  match r.target with
  | some (cl, core) =>
    if cl = s.focus.cl ∧ !r.kind.indexed then
      [here, (s.ctx.desc.lsbase + core * 2 ^ 18 + r.remote, r.bytes, r.kind.sends)]
    else [here]
  | none => [here]

/-- GET, GETX, SEND and SENDX (R290). A byte in an inbox is reported before a side that passes its bound (R133): the lowest at
the issuer's end, and where there is none the lowest at the target's. The index list is checked before the local side (log
entry 74 for both orders). -/
def State.remoteIssue (s : State) (kind : RemoteKind) (k a : Nat) : Out :=
  let r := s.remoteOf kind k a
  commit s (do
    s.edgeGuard 1 0
    if !s.groupOk a r then .error (s.illegal 9 0)
    s.nearInbox r
    s.farInbox r
    if !r.bounded then .error (s.illegal 9 0)
    let (index, ws, t) ← s.readIndex r
    let r := { r with index := index }
    s.farInbox r
    if r.remoteSpans.any (fun p => decide (p.1 + p.2 > 2 ^ 18)) then .error (s.illegal 9 0)
    let t ← t.sideCheck (if kind.sends then .read else .write) r.localOff r.localLen
    let (ctl, t) ← t.formConj (s.labGroup a 4 ++ ws)
    if r.localLen = 0 then .ok t.complete
    else match t.lockRanges s.focus.cl s.focus.core .remote (t.remoteRanges r) with
      | none => .error .stall
      | some (locks, t) =>
        let (id, t) := t.takeId
        let r := { r with id := id, ctl := ctl, locks := locks }
        .ok ((t.mapCluster s.focus.cl fun c => { c with remotes := c.remotes ++ [r] }).sendRemote r).complete)

def execGet (k a : Nat) (s : State) : Out := s.remoteIssue .get k a
def execGetx (k a : Nat) (s : State) : Out := s.remoteIssue .getx k a
def execSend (k a : Nat) (s : State) : Out := s.remoteIssue .send k a
def execSendx (k a : Nat) (s : State) : Out := s.remoteIssue .sendx k a

/-! ### Landing -/

/-- The items of an operation as (offset in the sides, length, offset of the local side, of the remote side):
destination lines of GET and SEND, elements of GETX and SENDX. -/
def RemoteOp.items (r : RemoteOp) : List (Nat × Nat × Nat) :=
  if r.kind.indexed then r.index.mapIdx fun i x => (r.esize, r.localOff + i * r.esize, r.remote + x * r.esize)
  else
    let dst := if r.kind.sends then r.remote else r.localOff
    (piecesOf (BitVec.ofNat 64 dst) r.bytes).map fun p =>
      (p.2, r.localOff + (p.1.toNat - dst), r.remote + (p.1.toNat - dst))

/-- The place of a byte of a local store, by logical cluster, core and offset. -/
def State.storePlace (s : State) (cl core off : Nat) : Place :=
  localPlace s.ctx cl core off (s.ctx.windowVa (core * 2 ^ 18 + off))

/-- Bytes of a local store with the label words of their lines. -/
def State.storeBytes (s : State) (cl core off n : Nat) : List Byte × List LabelWord :=
  let p := s.storePlace cl core off
  let lines := (piecesOf (BitVec.ofNat 64 off) n).map fun q => lineOf (p.loc - off + q.1.toNat)
  (s.dev.bytes p.loc n, lines.map s.dev.rawLabel)

/-- Items of higher number, already landed, that name the same remote element (R290), and the highest of them. -/
def RemoteOp.above (r : RemoteOp) (i : Nat) : List Nat :=
  if r.kind.sends then r.landed.filter fun j => decide (j > i) && r.index[j]? == r.index[i]? else []
def RemoteOp.later (r : RemoteOp) (i : Nat) : Bool := !(r.above i).isEmpty
def RemoteOp.highest (r : RemoteOp) (i : Nat) : Nat := (r.above i).foldl max i

/-- What an item writes: the place, the bytes, the label words that supply them. -/
structure Landing where
  cl : Nat
  place : Place
  bytes : List Byte
  words : List LabelWord
  /-- A whole line from one source line (R215, R218). -/
  whole : Bool
  deriving DecidableEq, Repr

/-- The landing of an item; `none` when it writes nothing here: a SEND to another device, acknowledged. -/
def State.landing (s : State) (cl : Nat) (r : RemoteOp) (item : Nat × Nat × Nat) (bytes : List Byte) (lbl : LabelWord) :
    Option Landing :=
  let (n, lo, ro) := item
  let near := fun o => s.storePlace cl (o / 2 ^ 18) (o % 2 ^ 18)
  let aligned := fun o => decide (n = 64) && decide (o % 64 = 0)
  if r.kind.sends then
    match r.target with
    | none => none
    | some (tcl, tcore) =>
      let src := s.storeBytes cl (lo / 2 ^ 18) (lo % 2 ^ 18) n
      some ⟨tcl, s.storePlace tcl tcore ro, src.1, src.2, aligned lo⟩
  else
    match r.target with
    | none => some ⟨cl, near lo, (bytes ++ List.replicate n 0).take n, [lbl], aligned ro⟩
    | some (tcl, tcore) =>
      let src := s.storeBytes tcl tcore ro n
      some ⟨cl, near lo, src.1, src.2, aligned ro⟩

/-- A landing written (R218): a line of GET or SEND as a copy, an element as a partial write. -/
def State.land (s : State) (cl : Nat) (r : RemoteOp) (i : Nat) (l : Landing) : Except EngineFail State :=
  -- R142: outside the issuer's cluster the operation is an agent of SYSTEM scope
  let a : Agent := ⟨cl, r.mode, if l.cl = cl then .torus else .host⟩
  if r.kind.indexed then
    let bs := if r.later i then s.dev.bytes l.place.loc l.bytes.length else l.bytes
    s.enginePartial a r.core l.place bs (s.engineConj (r.ctl :: l.words))
  else s.writeAt a r.core r.ctl l.place ⟨l.place.va, l.bytes, [], if l.whole then l.words.head? else none, l.words, false⟩

def State.setRemote (s : State) (cl id : Nat) (f : RemoteOp → RemoteOp) : State :=
  s.mapCluster cl fun k => { k with remotes := k.remotes.map fun r => if r.id = id then f r else r }

/-- The operation leaves, its ranges first (R153). -/
def State.endRemote (s : State) (cl : Nat) (r : RemoteOp) : State :=
  let s := (s.unlock cl r.locks).mapCluster cl fun k => { k with remotes := k.remotes.filter fun q => q.id != r.id }
  match r.target with
  | some (tcl, _) => s.unlock tcl r.targetLocks
  | none => s

/-- The delivery bitmap (R291). -/
def RemoteOp.bitmap (r : RemoteOp) : List Byte :=
  bytesOf r.bitmapLen (r.landed.foldl (fun m i => m ||| 2 ^ i) 0)

/-- The operation ends in failure (R291), with a code of R192. -/
def State.failRemote (s : State) (cl : Nat) (r : RemoteOp) (code : Nat) : State :=
  let write (t : State) (p : Word × Nat) (bs : List Byte) : State :=
    if (t.ctx.windowOff p.1).isSome then t.statusWrite ⟨cl, r.mode, .torus⟩ p.1 bs else t
  let s := if r.kind.indexed then
      ((piecesOf (s.ctx.windowVa r.bitmapOff) r.bitmap.length).foldl
        (fun (e : State × List Byte) p => (write e.1 p (e.2.take p.2), e.2.drop p.2)) (s, r.bitmap)).1
    else s
  let s := (s.endRemote cl r).bumpAt cl r.core r.k (r.items.length - r.landed.length) true
  if r.handler = 0 then s
  else s.mapCoreAt cl r.core (·.post ⟨.remoteError, code, BitVec.ofNat 64 r.k, r.handler⟩)

/-- A SEND's destination registered in the target cluster's table from its first line on (R153). -/
def State.lockTarget (s : State) (cl : Nat) (r : RemoteOp) : Option (RemoteOp × State) :=
  match r.target with
  | none => some (r, s)
  | some (tcl, tcore) =>
    if tcl = cl ∨ r.kind ≠ .send ∨ !r.targetLocks.isEmpty then some (r, s)
    else match s.lockRanges tcl r.core .remote [(s.ctx.desc.lsbase + tcore * 2 ^ 18 + r.remote, r.bytes, true)] with
      | none => none
      | some (ids, t) => some ({ r with targetLocks := ids }, t)

/-- The target is a core of this device whose store is there, or of a reachable node that has its logical cluster (R379). -/
def State.served (s : State) (r : RemoteOp) : Bool :=
  match r.target with
  | none => match routeOf s.ctx.desc r.place with
    | none => false
    | some e => decide (bitsAt r.place 8 8 < e.nclus)
  | some (cl, core) => s.ctx.mapped cl core

/-- Item `i` lands or is acknowledged (R290). -/
def State.landItem (s : State) (cl : Nat) (r : RemoteOp) (i : Nat) (item : Nat × Nat × Nat) (bytes : List Byte)
    (lbl : LabelWord) : State :=
  match s.lockTarget cl r with
  | none => s
  | some (r, s) =>
    let written : Except EngineFail State := match s.landing cl r item bytes lbl with
      | none => .ok s
      | some l => s.land cl r i l
    match written with
    | .error f => (s.noteDeny ⟨cl, r.mode, .torus⟩ f.deny).failRemote cl r 12
    | .ok s =>
      let r := { r with landed := i :: r.landed }
      let s := if r.landed.length = r.items.length then s.endRemote cl r else s.setRemote cl r.id fun _ => r
      let s := match r.target with
        | some (tcl, tcore) => if r.tk then s.bumpAt tcl tcore r.tcounter 1 false else s
        | none => s
      s.bumpAt cl r.core r.k 1 false

/-! ### Beats that land while the context stands stopped (R425) -/

/-- The label word that a beat carries (R218): its source line's as it stands, where one line supplies it and C is ⊤, else
one formed from its source lines and C. -/
def State.beatWord (s : State) (cl : Nat) (r : RemoteOp) (ws : List LabelWord) : Except EngineFail (LabelWord × State) :=
  match ws with
  | [w] => if s.engineEval r.ctl = topLabel then .ok (w, s) else s.engineForm cl r.core (s.engineConj [r.ctl, w])
  | _ => s.engineForm cl r.core (s.engineConj (r.ctl :: ws))

/-- An inbox record: the line, where it goes, the label word, the increment that it holds (R425). -/
def inboxRecord (line : List Byte) (off mask : Nat) (w : LabelWord) (inc : Nat) : List Byte :=
  line ++ bytesOf 8 off ++ bytesOf 8 mask ++ bytesOf 4 w.toNat ++ bytesOf 4 inc ++ bytesOf 40 0

/-- Bytes of a local store written at a stop, and where the save area holds that store (R427). -/
def State.stowBytes (s : State) (cl core off : Nat) (bs : List Byte) : State :=
  s.mapDev fun d =>
    let d := d.store (localLoc s.ctx.desc.ctxid cl core off) bs .device
    (bs.mapIdx fun i b => (s.ctx.saveOf cl core + 0x40000 + off + i, b)).foldl
      (fun d e => { d with mem := d.putPa d.mem e }) d

/-- The increment field of a record (R425): the target's counter where TK = 1, and else the issuer's, by bit 6. -/
def RemoteOp.increment (r : RemoteOp) : Nat :=
  if r.kind.sends && r.tk then r.tcounter + 2 ^ 4 else r.k + 2 ^ 4 + 2 ^ 6

/-- The bytes that a beat carries: those of the highest element that has landed at the same place, which remain (R290). -/
def State.beatBytes (s : State) (cl : Nat) (r : RemoteOp) (i : Nat) (l : Landing) : List Byte :=
  if r.later i then
    let lo := r.localOff + r.highest i * r.esize
    (s.storeBytes cl (lo / 2 ^ 18) (lo % 2 ^ 18) r.esize).1
  else l.bytes

/-- A beat for a local store of the stopped context, written to the inbox of that store's core with the increment that it
causes (R425); one that finds the inbox full, or is acknowledged by another device, is sent again after restore. -/
def State.inboxItem (s : State) (cl : Nat) (r : RemoteOp) (i : Nat) (item : Nat × Nat × Nat) (bytes : List Byte)
    (lbl : LabelWord) : State :=
  match s.landing cl r item bytes lbl with
  | none => s
  | some l =>
    let core := l.place.loc / 2 ^ 18 % 2 ^ 8
    let off := l.place.loc % 2 ^ 18
    let count := s.dev.num (localLoc s.ctx.desc.ctxid l.cl core inboxOff) 8
    if count ≥ 31 then s
    else match s.beatWord cl r l.words with
      | .error _ => s
      | .ok (w, s) =>
        let first := off % 64
        let line := (bytesOf first 0 ++ s.beatBytes cl r i l ++ bytesOf 64 0).take 64
        let record := inboxRecord line (off / 64 * 64) ((2 ^ l.bytes.length - 1) * 2 ^ first) w r.increment
        let s := (s.stowBytes l.cl core (inboxOff + 64 + 128 * count) record).stowBytes l.cl core inboxOff
          (bytesOf 8 (count + 1))
        let r := { r with landed := i :: r.landed }
        let s := if r.landed.length = r.items.length then s.endRemote cl r else s.setRemote cl r.id fun _ => r
        s.mapCtx fun k => { k with beats := ⟨l.cl, core, count, cl, r.core, r.k, r.kind.indexed⟩ :: k.beats }

/-! ### Events -/

def State.findRemote (s : State) (cl op : Nat) : Option RemoteOp := (s.cluster cl).remotes.find? fun r => r.id == op

def execRemoteLand (cl op i : Nat) (bytes : List Byte) (lbl : LabelWord) (s : State) : Out :=
  .next (match s.findRemote cl op with
    | none => s
    | some r =>
      if !s.served r || r.landed.contains i then s
      else match r.items[i]? with
        | none => s
        | some item =>
          if s.ctx.stopped then s.inboxItem cl r i item bytes lbl else s.landItem cl r i item bytes lbl)

/-- A link fails, or the target refuses (R291); a refusal lands nothing (R290). -/
def execRemoteFailure (cl op : Nat) (refused : Bool) (s : State) : Out :=
  .next (match s.findRemote cl op with
    | none => s
    | some r =>
      let possible := if refused then r.landed.isEmpty && (r.target.isNone || !s.served r) else s.linked r
      if !possible ∨ s.ctx.stopped then s
      else
        let t := s.failRemote cl r (if refused then 12 else 11)
        if refused then t else t.mapDev (·.count ctrUelink))

end Sys2Proof.Machine
end

