-- ==== Sys2Proof/Machine/Contexts.lean ====
section
/-! DEFINITION. Contexts (R421 to R432): creation, the gang-stop, restore, teardown of a queue's work, destruction. -/

namespace Sys2Proof.Machine

/-! ### Every core of a context -/

/-- All cores of a context, the one that moves apart. -/
def Context.mapCores (k : Context) (f : Core → Core) : Context :=
  { k with clusters := k.clusters.map fun e => (e.1, { e.2 with cores := e.2.cores.map fun c => (c.1, f c.2) }) }

def State.mapCores (s : State) (f : Core → Core) : State :=
  { s with core := f s.core, ctx := s.ctx.mapCores f }

/-! ### The gang-stop (R424 to R426) -/

/-- Parks that end at the stop: the instruction executes again after restore. CONTRA and WRESET have retired, and a core that
waits for its lease has nothing to execute. -/
def Park.restarts : Park → Bool
  | .counter _ _ => true | .cycle _ _ _ => true | .catchPhase _ _ => true | .fenceE => true | .macq => true
  | .msync => true | .fencesc _ => true | .marker => true | .edgerun => true | .lease => false | .contra _ => false
  | .wreset => false

/-- A core at the stop. -/
def Core.halt (c : Core) : Core :=
  let c := c.drain
  { c with
    park := c.park.filter fun p => !p.restarts
    stalled := false
    streams := c.streams.map fun t => (t.1, { t.2 with ahead := [] }) }

/-- A job at the stop: abandoned for whole replay when it runs (R282). -/
def Job.halt (j : Job) : Job := if j.state = .running then { j with state := .queued } else j

/-- A matrix engine at the stop: a MACQ executes again; what a core waits for since a restore stays (R259). -/
def State.haltedEngine (s : State) (cl crew : Nat) (e : MEngine) : MEngine :=
  { e with requests := e.requests.filter fun q => decide ((s.coreAt cl (8 * crew + q.1)).park = some .lease) }

/-- Engines and requests of the clusters at the stop. -/
def State.haltEngines (s : State) : State :=
  s.mapCtx fun k =>
    { k with clusters := k.clusters.map fun c =>
      (c.1, { c.2 with
        engines := c.2.engines.map fun e => (e.1, s.haltedEngine c.1 e.1 e.2)
        copies := c.2.copies.map fun u => (u.1, { u.2 with jobs := u.2.jobs.map Job.halt }) }) }

/-- CONTRA and WRESET of a core retire (R233). -/
def State.retireLabel (s : State) (p : Nat × Nat) : State :=
  match (s.coreAt p.1 p.2).park with
  | some (.contra g) => s.retireContra p.1 p.2 g
  | some .wreset => s.retireReset p.1 p.2
  | _ => s

/-- Every core stands at an instruction boundary: none has an instruction whose park has ended and that has not retired. -/
def State.atBoundary (s : State) : Bool := s.ctx.places.all fun p => (s.coreAt p.1 p.2).grants.isEmpty

/-- RPROMO and RDEMO in flight complete (R318). -/
def State.completePromos (s : State) (cl : Nat) (which : RowOp → Bool) : State :=
  ((s.cluster cl).rowq.filter fun r => (r.kind.promotes || r.kind.demotes) && which r).foldl (·.finishPromo cl ·) s

/-- Engines finish what they do not leave for after the restore (R318, R340). -/
def State.settleEngines (s : State) (cl : Nat) : State := (s.completePromos cl fun _ => true).combineGiven cl

/-- The context that moves stops, and its cores are saved. The stop waits for a CONTRA, CONTRAV or WRESET until the core has
retired it or trapped (R233): until then the event brings the umpires' answer and stops nothing. -/
def execGangStop (s : State) : Out :=
  .next (if s.ctx.stopped then s
    else
      let s := s.ctx.places.foldl State.retireLabel s
      if !s.atBoundary then s
      else
        let t := (List.range s.ctx.nclus).foldl State.settleEngines s
        ((t.haltEngines.mapCores Core.halt).mapDev (·.dropPlaces)).mapCtx (fun k => { k with stopped := true }) |>.saveCores)

/-! ### Restore (R429) -/

/-- The runs of bytes that a mask names, as (first, length). -/
def maskRuns (mask : Nat) : List (Nat × Nat) :=
  (List.range 64).filterMap fun i =>
    if mask.testBit i && !(decide (0 < i) && mask.testBit (i - 1)) then
      some (i, ((List.range (64 - i)).takeWhile fun j => mask.testBit (i + j)).length)
    else none

/-- Bytes of a record written with its label word: a whole line takes both, and loses its poison; part of one, or an element,
is a partial write (R218). Bytes whose label cannot be formed are dropped (log entry 58). -/
def State.replayRun (s : State) (cl core : Nat) (element : Bool) (line : List Byte) (off : Nat) (w : LabelWord)
    (run : Nat × Nat) : State :=
  let a : Agent := ⟨cl, .s, .host⟩
  let p := s.storePlace cl core (off + run.1)
  let bs := (line.drop run.1).take run.2
  if run.2 = 64 ∧ !element then ((s.mapDev (·.setRawLabel (lineOf p.loc) w)).engineBytes a p bs).cleared (lineOf p.loc)
  else match s.enginePartial a core p bs (s.engineEval w) with
    | .ok t => t
    | .error _ => s

/-- One record of an inbox written to its destination, then its increments: the target's, and the issuer's, of the core that
issued the beat (R425, R429). -/
def State.replayRecord (s : State) (cl core i : Nat) : State :=
  let at_ := localLoc s.ctx.desc.ctxid cl core 0 + inboxOff + 64 + 128 * i
  let off := s.dev.num (at_ + 64) 8 % 2 ^ 18
  let w : LabelWord := BitVec.ofNat 32 (s.dev.num (at_ + 80) 4)
  let inc := s.dev.num (at_ + 84) 4
  let line := s.dev.bytes at_ 64
  let beat := s.ctx.beats.find? fun b => b.cl == cl && b.core == core && b.record == i
  let s := (maskRuns (s.dev.num (at_ + 72) 8)).foldl (·.replayRun cl core (beat.any HeldBeat.element) line off w ·) s
  let s := if inc.testBit 4 && !inc.testBit 6 then s.bumpAt cl core (inc % 16) 1 (inc.testBit 5) else s
  match beat with
  | some b => s.bumpAt b.issuerCl b.issuer b.counter 1 (inc.testBit 5 && inc.testBit 6)
  | none => if inc.testBit 4 && inc.testBit 6 then s.bumpAt cl core (inc % 16) 1 (inc.testBit 5) else s

/-- A core's inbox in record order; NREC := 0. -/
def State.replayInbox (s : State) (cl core : Nat) : State :=
  let nrec := localLoc s.ctx.desc.ctxid cl core inboxOff
  let n := min 31 (s.dev.num nrec 8)
  if n = 0 then s
  else ((List.range n).foldl (·.replayRecord cl core ·) s).mapDev fun d => d.store nrec (bytesOf 8 0) .device

/-- A lease that was saved: its core waits for it in the order of R240, with the saved LREM and its decode tables, and executes
nothing before (R243, R259). The previous holder stays the one before the saved lease (log entry 73). -/
def State.requeueLease (s : State) (cl : Nat) (e : Nat × MEngine) : State :=
  match e.2.holder with
  | none => s
  | some m =>
    (s.mapMengine cl e.1 fun e =>
      { e with
        holder := none, lrem := 0, requests := insertAt m e.lrem e.requests
        saved := some ⟨m, e.tables, e.bankA, e.bankB⟩ }).mapCoreAt
      cl (8 * e.1 + m) fun c => { c with park := some .lease }

def State.requeueLeases (s : State) : State :=
  s.ctx.clusters.foldl (fun t c => c.2.engines.foldl (·.requeueLease c.1 ·) t) s

/-- Physical clusters on which some context runs. -/
def State.inUse (s : State) : List Nat :=
  (s.ctx :: s.others).flatMap fun k => if k.stopped ∨ k.destroyed then [] else k.desc.part

/-- The die of a physical cluster. -/
def dieOf (cluster : Nat) : Nat := cluster / 4

/-- A partition that a context may run on now: distinct clusters that work, whose dies are not fenced (R460), and that no
running context has. -/
def State.freePart (s : State) (part : List Nat) : Bool :=
  [1, 2, 4, 8, 16, 32].contains part.length && decide part.Nodup
    && part.all fun p => s.dev.liveClusters.contains p && !s.inUse.contains p && !s.dev.fenced (dieOf p)

/-- The context that moves runs again, on other clusters, with its tables rewritten (R429). The save area holds what its
cores and stores still hold (R428, log entry 25), so that only the inboxes change them. -/
def State.resume (s : State) (part : List Nat) (tables : Tables) : State :=
  let t := s.mapCtx fun k =>
    { k with
      desc := { k.desc with part := part, cores := tables.cores, routes := tables.routes }
      clusters := k.clusters.map fun e => (e.1, { e.2 with tlb := [], first := [], walks := [] }) }
  (t.ctx.places.foldl (fun t p => t.replayInbox p.1 p.2) t).requeueLeases.mapCtx fun k =>
    { k with stopped := false, beats := [] }

/-- An uncorrectable error stands in the save area of a context. -/
def State.saveError (s : State) (k : Context) : Bool :=
  s.dev.poison.any fun l => decide (l < 2 ^ 44) && k.inSave (paOfLoc s.dev.rb l)

def execContextRestore (ctxid : Nat) (part : List Nat) (tables : Tables) (s : State) : Out :=
  .next (match (s.ctx :: s.others).find? fun k => k.desc.ctxid == ctxid with
    | none => s
    | some k =>
      if k.stopped ∧ !k.faulted ∧ !k.destroyed ∧ part.length = k.desc.part.length ∧ s.freePart part then
        s.inContext ctxid fun t =>
          if s.saveError k then t.contextFault Cause.memerr.code else t.resume part tables
      else s)

/-! ### Creation (R404, R421, R422, R443) -/

/-- Bytes of the GRANT bitmap. -/
def grantSize : Nat := 2 ^ 20

/-- What a new context keeps from every context: its world area, its save area, its GRANT bitmap, as (PA, length). -/
def keptBy (d : CtxDesc) : List (Nat × Nat) :=
  [(d.world, 96 * 2 ^ 20), (d.save, (192 * saveSize + 2 ^ 20) * d.part.length), (d.grant, grantSize)]

def apart (a b : Nat × Nat) : Bool := decide (a.1 + a.2 ≤ b.1) || decide (b.1 + b.2 ≤ a.1)

/-- Some unit of 2 MiB that meets the range is granted to a context. -/
def State.grantsInto (s : State) (k : Context) (r : Nat × Nat) : Bool :=
  decide (k.desc.ctxid ≠ 0) && !k.destroyed
    && (List.range ((r.1 + r.2 - 1) / 2 ^ 21 + 1 - r.1 / 2 ^ 21)).any fun i =>
        ({ s with ctx := k }).granted (2 ^ 21 * (r.1 / 2 ^ 21 + i)) 1

/-- The units that firmware grants to the context. -/
def grantedUnits (d : CtxDesc) : List Nat := d.units ++ d.heap

/-- The label plane, which the device writes as labels (R298). -/
def labelPlane : Nat × Nat := (2 ^ 40 + 504 * 2 ^ 31, 8 * 2 ^ 31)

/-- The memory of a new context is its own (R404, R428, R443): the units granted to it and its root table meet no area that
a context keeps, no root table of another context and no unit of one; what it keeps meets none of these either, nor does it or
the root table lie in the label plane. -/
def State.isolated (s : State) (d : CtxDesc) : Bool :=
  let all := s.ctx :: s.others
  let mine := (d.troot, 2 ^ 16) :: (grantedUnits d).map fun u => (2 ^ 21 * u, 2 ^ 21)
  let kept := keptBy d
  let theirs := (all.filter fun k => decide (k.desc.ctxid ≠ 0) && !k.destroyed).flatMap fun k =>
    (k.desc.troot, 2 ^ 16) :: keptBy k.desc
  kept.Pairwise (fun a b => apart a b = true)
    && mine.all (fun r => (kept ++ theirs).all (apart r ·) && !all.any fun k => s.grantsInto k r)
    && kept.all (fun r => theirs.all (apart r ·) && !all.any fun k => s.grantsInto k r)
    && ((d.troot, 2 ^ 16) :: kept).all (apart labelPlane ·)

/-- The descriptor can be created on the device as it stands, which accepts creation at STAGE 3 (R444). -/
def State.creatable (s : State) (d : CtxDesc) : Bool :=
  decide (1 ≤ d.ctxid ∧ d.ctxid ≤ 65535) && !s.hasContext d.ctxid && s.freePart d.part && !s.dev.down
    && decide (s.dev.boot.stage = 3)
    && decide (d.lsbase % 2 ^ 26 = 0) && decide (d.troot % 2 ^ 16 = 0) && decide (d.fring % 64 = 0)
    && decide (d.sdline % 64 = 0) && decide (d.trapent % 4 = 0)
    && decide (d.cwin % 2 ^ 35 = 0) && decide (d.trapent / 2 ^ 35 = d.cwin / 2 ^ 35)
    && decide (d.svcCluster < d.part.length ∧ d.svcCore < 192 ∧ d.svcCounter < 16)
    && (grantedUnits d).all (fun u => decide (u < 2 ^ 23)) && d.heap.all (fun u => !d.units.contains u) && s.isolated d

/-- The unit of 2 MiB lies on a lost DRAM stack, behind a lost CXL port, or in the pool when no port of the fabric is left. -/
def Device.unitLost (d : Device) (u : Nat) : Bool :=
  let pa := 2 ^ 21 * u
  if pa < 4 * 2 ^ 40 then
    match d.mapPa pa with
    | some (.row, o) | some (.near, o) => !d.stackWorks (stackOf o)
    | some (.striped, _) | some (.tier2, _) | none => false
  else if pa < 12 * 2 ^ 40 then d.lostUnits.contains (.cxlPort, pa / 2 ^ 40 - 4)
  else d.poolLost

/-- The descriptor without the units that firmware has fused off (R456). -/
def Device.fused (d : Device) (g : CtxDesc) : CtxDesc :=
  { g with units := g.units.filter fun u => !d.unitLost u, heap := g.heap.filter fun u => !d.unitLost u }

/-- The GRANT bitmap written: the units of the descriptor, every other bit 0 (R404). -/
def Device.writeGrant (d : Device) (g : CtxDesc) : Device :=
  let old := d.mem.filter fun e =>
    let pa := paOfLoc d.rb e.1
    !decide (g.grant ≤ pa ∧ pa < g.grant + grantSize)
  let bits (i : Nat) : Byte := BitVec.ofNat 8 ((List.range 8).map fun b => oneBit ((grantedUnits g).contains (8 * i + b)) * 2 ^ b).sum
  { d with mem := ((grantedUnits g).map fun u => (g.grant + u / 8, bits (u / 8))).foldl d.putPa old }

/-- Local stores of a context zeroed, their label words universal. -/
def scrubStores (ctxid : Nat) (mem : NatMap Byte) : NatMap Byte :=
  let lo := localLoc ctxid 0 0 0
  mem.filter fun e =>
    !(decide (lo ≤ e.1 ∧ e.1 < lo + 2 ^ 32)) && !(decide (labelLoc lo ≤ e.1 ∧ e.1 < labelLoc lo + 2 ^ 28))

def execContextCreate (desc : CtxDesc) (s : State) : Out :=
  .next (if !s.creatable desc then s.mapDev fun d => { d with replies := d.replies ++ [.refused 1] }
    else
      let granted := s.dev.fused desc
      let t := s.mapDev fun d => { d with mem := scrubStores desc.ctxid d.mem }.writeGrant granted
      let k := Context.fresh granted
      if s.ctx.desc.ctxid = 0 ∨ s.ctx.destroyed then { t with ctx := k, core := Core.reset, focus := ⟨0, 0⟩ }
      else { t with others := t.others ++ [k] })

/-! ### Teardown (R430, R431) -/

/-- The records whose engine operations are in flight in a cluster. -/
def Cluster.working (k : Cluster) : List Word :=
  (k.copies.flatMap fun u => u.2.jobs.map Job.record) ++ k.rowq.map RowOp.record ++ k.ireds.map Ired.record
    ++ k.remotes.map RemoteOp.record ++ k.engines.flatMap fun e => e.2.queue.map MEntry.record

/-- The records of a queue that run or wait. -/
def State.recordsOf (s : State) (qid : Nat) : List Word :=
  ((s.ctx.places.filterMap fun p => (s.coreAt p.1 p.2).record)
    ++ s.ctx.clusters.flatMap fun e => (e.2.runq.flatMap Prod.snd) ++ e.2.suspended).eraseDups.filter fun va =>
    rQid (s.record va) == qid

/-- The parents of a record, their parents and so on. -/
def State.ancestors (s : State) : Nat → Word → List Word
  | 0, _ => []
  | fuel + 1, va =>
    let p := rParent (s.record va)
    if p = 0 ∨ !heldRecord (s.record p) then [] else p :: s.ancestors fuel p

/-- The records of a queue that stand DRAINING, with operations in flight or for children (R35; log entry 79). -/
def State.drainingOf (s : State) (qid : Nat) : List Word :=
  let held := (s.ctx.places.filterMap fun p => (s.coreAt p.1 p.2).record)
    ++ s.ctx.clusters.flatMap fun e => (e.2.runq.flatMap Prod.snd) ++ e.2.suspended
  let found := held ++ s.ctx.clusters.flatMap fun e => e.2.working
  (found ++ found.flatMap (s.ancestors (2 ^ 34))).eraseDups.filter fun va =>
    rState (s.record va) == 4 && rQid (s.record va) == qid

/-- A record leaves the cores and queues. -/
def State.withdraw (s : State) (va : Word) : State :=
  let s := s.ctx.places.foldl (fun t p =>
    let c := t.coreAt p.1 p.2
    let t := if c.record = some va then t.vacate p.1 p.2 else t
    if c.reserved = some va then t.mapCoreAt p.1 p.2 fun c => { c with reserved := none } else t) s
  s.mapCtx fun k =>
    { k with
      clusters := k.clusters.map fun e =>
        (e.1, { e.2.unqueue va with
          suspended := e.2.suspended.filter (· != va), gangs := e.2.gangs.filter fun g => g.record != va
          reservations := e.2.reservations.filter fun g => g.record != va }) }

/-- The engine operations of the records end with CODE 9; RPROMO and RDEMO complete (R318). -/
def State.cancelOps (s : State) (vas : List Word) (cl : Nat) : State :=
  let s := s.completePromos cl fun r => vas.contains r.record
  let k := s.cluster cl
  let jobs := k.copies.flatMap fun u => (u.2.jobs.filter fun j => vas.contains j.record).map fun j => (u.1, j)
  let s := jobs.foldl (fun t e =>
    let t := if e.2.state = .running then t.cancelPlan cl e.1 e.2 else t
    t.completeJob cl e.1 e.2 9 0) s
  let s := (k.rowq.filter fun r => vas.contains r.record).foldl (fun t r => t.finishRow cl r 9 RowFlags.none) s
  let s := (k.ireds.filter fun r => vas.contains r.record).foldl (fun t r => t.finishIred cl r 9) s
  let s := (k.remotes.filter fun r => vas.contains r.record).foldl
    (fun t r => (t.endRemote cl r).bumpAt cl r.core r.k (r.items.length - r.landed.length) true) s
  s.closeRuns cl

/-- The cores that run records of a queue. -/
def State.coresOf (s : State) (qid : Nat) : List (Nat × Nat) :=
  s.ctx.places.filter fun p => (s.coreAt p.1 p.2).record.any fun va => rQid (s.record va) == qid

/-- CONTRA and WRESET of the cores that run records of a queue get the umpires' answer (step 1 of R424). -/
def State.retireOn (s : State) (qid : Nat) : State := (s.coresOf qid).foldl State.retireLabel s

/-- The cores that run records of a queue stand at an instruction boundary (step 2 of R430). -/
def State.queueAtBoundary (s : State) (qid : Nat) : Bool := (s.coresOf qid).all fun p => (s.coreAt p.1 p.2).grants.isEmpty

/-- Signals of every packet written CANCELLED (R400, R430). -/
def State.cancelPackets (s : State) (qid : Nat) : State :=
  match s.queue qid with
  | none => s
  | some q => q.packets.foldl (fun t p => t.signalPacket qid p.seq 2 0) s

/-- A record discarded with TOKEN 0xC003, which retires with STATE 6 (R34, R35, R430). -/
def State.discard (s : State) (va : Word) : State := (s.putRecord va (setBits (s.record va) 400 16 0xC003)).retire va 6

/-- One that stands DRAINING discarded: it stands so with FINAL 6 until its JOIN is 0 (R35, R430; log entry 79). -/
def State.discardDraining (s : State) (va : Word) : State :=
  s.putRecord va (setBits (setBits (s.record va) 400 16 0xC003) 388 4 6)

/-- The work of a queue torn down, in the order of R430. -/
def State.tearDown (s : State) (qid : Nat) : State :=
  let s := s.freezeQueue qid 0
  let vas := s.recordsOf qid
  let draining := s.drainingOf qid
  let s := (vas.foldl State.withdraw s).mapDev (·.dropPlaces)
  let s := (List.range s.ctx.nclus).foldl (fun t cl => t.cancelOps (vas ++ draining) cl) s
  vas.foldl State.discard (draining.foldl State.discardDraining (s.cancelPackets qid))

/-! ### Destruction (R432, R311) -/

/-- The byte belongs to the context that moves: granted memory, and its lines' label words. -/
def State.owns (s : State) (loc : Nat) : Bool :=
  let plain := if loc < 2 ^ 40 then s.granted (paOf s.dev.rb loc) 1 else s.granted loc 1
  let labelled := decide (0xFC00000000 ≤ loc ∧ loc < 2 ^ 40)
    && s.granted (paOf s.dev.rb ((loc - 0xFC00000000) / 4 * 64)) 1
  plain || labelled

/-- The save area and the world area of the context, scrubbed before another context can have them (R428). -/
def State.reserved (s : State) (loc : Nat) : Bool :=
  let pa := paOfLoc s.dev.rb loc
  decide (loc < 2 ^ 44) && (s.ctx.inSave pa || s.ctx.inWorld pa)

/-- The byte is scrubbed before its memory can be another context's: granted memory, the code heap with it, world and save
area. -/
def State.scrubbed (s : State) (loc : Nat) : Bool := s.owns loc || s.reserved loc

/-- What the device still holds of scrubbed lines: older contents of caches, of fetches and walks, and their poison. -/
def Device.forgetLines (d : Device) (gone : Nat → Bool) : Device :=
  { d with
    held := d.held.filter fun e => !gone e.1
    log := d.log.filter fun e => !gone e.loc
    poison := d.poison.filter fun l => !gone l
    packed := d.packed.filter fun l => !gone l }

/-- The context that moves is destroyed: its queues torn down, its pins cleared, its memory scrubbed; with a tenant's last
context its entries in the translator's cache go (R389). -/
def State.destroy (s : State) : State :=
  let id := s.ctx.desc.ctxid
  let t := (s.ctx.queues.map Prod.fst).foldl State.tearDown s
  let d := t.dev
  let tenant := s.ctx.desc.tenant
  let last := !s.others.any fun k => k.desc.tenant == tenant && !k.destroyed
  { t with
    core := Core.reset
    ctx := { Context.fresh { CtxDesc.zero with ctxid := id } with stopped := true, destroyed := true }
    dev := { d.forgetLines t.scrubbed with
      mem := scrubStores id (d.mem.filter fun e => !t.scrubbed e.1)
      cache := if last then d.cache.filter fun e => e.tenant != tenant else d.cache
      slots := d.slots.map fun e =>
        (e.1, e.2.map fun v => (v.1, if v.2.pinned = some id then { v.2 with pinned := none } else v.2)) } }

def execContextDestroy (ctxid : Nat) (s : State) : Out :=
  .next (if !s.hasContext ctxid then s.mapDev fun d => { d with replies := d.replies ++ [.refused 2] }
    else
      let t := s.inContext ctxid State.destroy
      { t with others := t.others.filter fun k => !k.destroyed })

end Sys2Proof.Machine
end

