-- ==== Sys2Proof/Machine/Tribolon.lean ====
section
/-! DEFINITION. The portable form (R380 to R390): the tables of a section, the rules of a valid one, its translation into a
driver with gangs and tasks, and the translator's cache. -/

namespace Sys2Proof.Machine

/-! ### The portable form (R380 to R384) -/

/-- A table entry of a section: `n` bytes each from `off`. -/
def tableAt (bs : List Byte) (off n count : Nat) : List (List Byte) :=
  (List.range count).map fun i => (bs.drop (off + n * i)).take n

/-- Fields of the Tribolon header (R380). -/
structure Tribolon where
  bytes : List Byte
  nlc : Nat
  code : Nat
  codesz : Nat
  regions : List (List Byte)
  steps : List (List Byte)
  tasks : List (List Byte)
  transfers : List (List Byte)
  deriving DecidableEq, Repr

def tribolonOf (bs : List Byte) : Tribolon :=
  { bytes := bs, nlc := numAt bs 18 3, code := numAt bs 56 8, codesz := numAt bs 52 4
    regions := tableAt bs (numAt bs 36 4) 16 (numAt bs 25 1), steps := tableAt bs (numAt bs 40 4) 16 (numAt bs 26 2)
    tasks := tableAt bs (numAt bs 44 4) 32 (numAt bs 28 4), transfers := tableAt bs (numAt bs 48 4) 16 (numAt bs 32 4) }

/-- Fields of the entries (R381). -/
def rgSize (e : List Byte) : Nat := numAt e 0 4
def rgLocal (e : List Byte) : Bool := decide (numAt e 4 1 % 16 = 0)
def stKind (e : List Byte) : Nat := numAt e 0 1 % 16
def stFirst (e : List Byte) : Nat := numAt e 8 4
def stCount (e : List Byte) : Nat := numAt e 12 4
def tkRead (e : List Byte) : Nat := numAt e 0 8
def tkWrite (e : List Byte) : Nat := numAt e 8 8
def tkEntry (e : List Byte) : Nat := numAt e 24 4
def tkLc (e : List Byte) : Nat := numAt e 29 3
def tfSrc (e : List Byte) : Nat := numAt e 0 3
def tfDst (e : List Byte) : Nat := numAt e 3 3
def tfRegion (e : List Byte) : Nat := numAt e 6 1
def tfOffset (e : List Byte) : Nat := numAt e 8 4
def tfBytes (e : List Byte) : Nat := numAt e 12 4

/-- A table of `count` entries of `n` bytes lies inside the section. -/
def tableInside (bs : List Byte) (off n count : Nat) : Bool := decide (off % 8 = 0) && decide (off + n * count ≤ bs.length)

/-- Rule 1 of R383. -/
def Tribolon.framed (t : Tribolon) : Bool :=
  let bs := t.bytes
  decide (numAt bs 0 4 = 0x4C425254 ∧ numAt bs 4 4 = 1 ∧ numAt bs 8 10 = 0 ∧ numAt bs 21 3 = 0 ∧ numAt bs 24 1 = 0)
    && decide (1 ≤ t.nlc) && decide (1 ≤ t.tasks.length) && decide (1 ≤ t.steps.length)
    && decide (1 ≤ t.regions.length ∧ t.regions.length ≤ 64) && decide (t.codesz % 8 = 0)
    && tableInside bs t.code 1 t.codesz && tableInside bs (numAt bs 36 4) 16 t.regions.length
    && tableInside bs (numAt bs 40 4) 16 t.steps.length && tableInside bs (numAt bs 44 4) 32 t.tasks.length
    && tableInside bs (numAt bs 48 4) 16 t.transfers.length
    && (t.regions.all fun e =>
      decide (rgSize e ≠ 0 ∧ rgSize e % 64 = 0 ∧ numAt e 4 4 < 2 ∧ (numAt e 8 8 = 0 ∨ numAt e 8 8 + rgSize e ≤ bs.length)))
    && (t.steps.all fun e => decide (numAt e 0 8 < 2)) && (t.tasks.all fun e => decide (numAt e 28 1 = 0))
    && t.transfers.all fun e => decide (numAt e 7 1 = 0)

/-- Rule 3: the steps of a kind cover its table in order. -/
def stepsCover (kind total : Nat) (steps : List (List Byte)) : Bool :=
  let mine := steps.filter fun e => stKind e == kind
  let (sum, ok) := mine.foldl (fun a e => (a.1 + stCount e, a.2 && decide (stFirst e = a.1))) (0, true)
  ok && decide (sum = total)

/-- The entries of a step. -/
def stepOf {α : Type} (l : List α) (e : List Byte) : List α := (l.drop (stFirst e)).take (stCount e)

/-- The instance of region `r` for a logical core (R382); `P` is the number of logical cores of a node. -/
def Tribolon.instanceOf (t : Tribolon) (P r lc : Nat) : Nat :=
  if (t.regions[r]?).any rgLocal then lc else lc / P

/-- Rule 6 for two tasks of one step: what `a` writes, `b` neither writes nor reads. -/
def Tribolon.tasksApart (t : Tribolon) (P : Nat) (a b : List Byte) : Bool :=
  (List.range t.regions.length).all fun r =>
    !((tkWrite a).testBit r && ((tkWrite b).testBit r || (tkRead b).testBit r)
      && t.instanceOf P r (tkLc a) == t.instanceOf P r (tkLc b))

/-- Byte ranges of two transfers overlap in one region. -/
def bytesMeet (a b : List Byte) : Bool :=
  decide (tfRegion a = tfRegion b ∧ tfOffset a < tfOffset b + tfBytes b ∧ tfOffset b < tfOffset a + tfBytes a)

/-- Rule 8 for two transfers of one step. -/
def transfersApart (a b : List Byte) : Bool :=
  !(bytesMeet a b && (decide (tfDst a = tfDst b) || decide (tfDst a = tfSrc b)))

/-- Every two entries of a list, in both orders, satisfy `f`. -/
def allPairs {α : Type} (f : α → α → Bool) : List α → Bool
  | [] => true
  | a :: l => (l.all fun b => f a b && f b a) && allPairs f l

/-! ### Code (R343, R345, R384) -/

/-- Majors of the base subset, and FINISH with a = 0 (R384). -/
def baseForm (body : Nat) (i : Instr) : Bool :=
  let m := body / 2 ^ 24
  decide (m ≤ 8 ∨ m = 0x0B ∨ m = 0x0C ∨ (0x20 ≤ m ∧ m ≤ 0x29) ∨ m = 0x3F) || decide (i = .finish 0)

/-- Instructions of the code area that issue together (R47), and their marker. -/
structure Site where
  instrs : List Instr
  sw : Bool
  deriving DecidableEq, Repr

/-- What issues at the word with this number of the code area: `none` where R50 gives a trap, as at word1 of a pair. -/
def Tribolon.site (t : Tribolon) (w : Nat) : Option Site :=
  let at8 (k : Nat) : Half := BitVec.ofNat 32 (numAt t.bytes (t.code + 8 * (w / 2) + 4 * k) 4)
  match decodeContainer (BitVec.ofNat 64 (4 * w)) (at8 0) (at8 1) with
  | .lone i sw => some ⟨[i], sw⟩
  | .pair i0 i1 sw => some ⟨[i0, i1], sw⟩
  | .bad _ _ _ => none

def Tribolon.sites (t : Tribolon) : List (Option Site) := (List.range (t.codesz / 4)).map t.site

/-- The word that a direct transfer at word `w` goes to; far past the code area when the target lies before it. -/
def directTarget (w : Nat) (i : Instr) : Option Nat :=
  let go (bits off : Nat) : Nat := (branchTarget (BitVec.ofNat 64 (4 * w)) bits off).toNat / 4
  match i with
  | .j off | .jl off => some (go 24 off)
  | .beq _ _ off | .bne _ _ off | .blt _ _ off | .bge _ _ off | .bltu _ _ off | .bgeu _ _ off => some (go 12 off)
  | _ => none

/-- R50 and the base forms hold in a container of the code area, and its direct transfers stay in the code area, at a word
that a transfer may target. -/
def Tribolon.containerOk (t : Tribolon) (sites : List (Option Site)) (c : Nat) : Bool :=
  let body (w : Nat) : Nat := bodyOf (BitVec.ofNat 32 (numAt t.bytes (t.code + 4 * w) 4))
  let sound (w : Nat) (i : Instr) : Bool :=
    baseForm (body w) i && (directTarget w i).all fun v => ((sites[v]?).bind id).isSome
  match t.site (2 * c), t.site (2 * c + 1) with
  | some ⟨[a], _⟩, some ⟨[b], _⟩ => sound (2 * c) a && sound (2 * c + 1) b
  | some ⟨[a, b], _⟩, none => sound (2 * c) a && sound (2 * c + 1) b
  | _, _ => false

/-- Registers as bits of a number: x0 never counts. -/
def Reg.bit : Reg → Nat
  | .x n => if n = 0 then 0 else 2 ^ n
  | .f n => 2 ^ (64 + n)
  | .v n => 2 ^ (96 + n)
  | .p n => 2 ^ (128 + n)

def regBits (l : List Reg) : Nat := l.foldl (fun m r => m ||| r.bit) 0

/-- Long-latency forms of the base subset (R53). -/
def longForm : Instr → Bool
  | .lb _ _ _ | .lbu _ _ _ | .lh _ _ _ | .lhu _ _ _ | .lw _ _ _ | .lwu _ _ _ | .ld _ _ _ | .flw _ _ _ | .vld _ _ _
  | .vlds _ _ _ _ | .vldx _ _ _ _ | .div _ _ _ | .divu _ _ _ | .rem _ _ _ | .remu _ _ _ | .fdiv _ _ _ _
  | .fsqrt _ _ _ => true
  | _ => false

/-- Registers with a result outstanding after a site, from those before it (R51, R343). -/
def Site.leaves (t : Site) (before : Nat) : Nat :=
  if t.sw then 0 else before ||| regBits (t.instrs.flatMap fun i => if longForm i then dests i else [])

/-- What the text shows where control comes to a word: the results that may be outstanding there, and the values that an
integer register may hold. A value is an offset from the start of the code area, or 2^64 plus a constant, or `foreign`, or
`unknown`; a register without an entry holds `foreign`, what it held at the task's entry. -/
structure Flow where
  due : Nat
  regs : List (Nat × List Nat)
  deriving DecidableEq, Repr

/-- What a register holds at a task's entry, or that plus a constant: no address that stays in the code area (R385). -/
def foreign : Nat := 2 ^ 65

/-- A value that the text does not show: from memory, or of arithmetic that is not followed. -/
def unknown : Nat := 2 ^ 65 + 1

/-- A value added to a rising list. -/
def insertRising (v : Nat) : List Nat → List Nat
  | [] => [v]
  | x :: l => if v < x then v :: x :: l else if v = x then x :: l else x :: insertRising v l

/-- Both lists; more than sixteen values are not followed. -/
def mergeValues (a b : List Nat) : List Nat :=
  let l := b.foldl (fun l v => insertRising v l) a
  if l.length ≤ 16 then l else [unknown]

def Flow.values (f : Flow) (r : Nat) : List Nat := if r = 0 then [2 ^ 64] else (f.regs.lookup r).getD [foreign]

def Flow.put (f : Flow) (r : Nat) (vs : List Nat) : Flow :=
  { f with regs := (if r = 0 then [] else [(r, mergeValues [] vs)]) ++ f.regs.filter fun e => e.1 != r }

/-- Two paths meet: a result outstanding on either is outstanding (R343). -/
def Flow.join (f g : Flow) : Flow :=
  let keys := f.regs.map (·.1) ++ (g.regs.map (·.1)).filter fun r => !(f.regs.map (·.1)).contains r
  ⟨f.due ||| g.due, keys.map fun r => (r, mergeValues (f.values r) (g.values r))⟩

/-- ADDI of a value. -/
def addValue (imm v : Nat) : Nat :=
  if v < 2 ^ 64 then (BitVec.ofNat 64 v + imm12 imm).toNat
  else if v < 2 ^ 65 then 2 ^ 64 + (BitVec.ofNat 64 (v - 2 ^ 64) + imm12 imm).toNat
  else v

/-- Number of the word after a site. -/
def Site.after (t : Site) (w : Nat) : Nat := if t.instrs.length = 2 then 2 * (w / 2) + 2 else w + 1

/-- What an instruction of the site at word `w` leaves in its integer destinations, from the values `f` before the site. -/
def Site.put (t : Site) (w : Nat) (f g : Flow) (i : Instr) : Flow :=
  match i with
  | .addi d a imm => g.put d ((f.values a).map (addValue imm))
  | .jl _ => g.put 1 [4 * t.after w]
  | .jlr d _ _ => g.put d [4 * t.after w]
  | _ => (dests i).foldl (fun g r => match r with
    | .x n => g.put n [unknown]
    | _ => g) g

/-- Words that JR and JLR go to, from the values of their register that the text shows; the number of words stands for a
place outside the code area. -/
def indirectTargets (words imm : Nat) (vs : List Nat) : List Nat :=
  (vs.filter (· != unknown)).map fun v =>
    let t := (BitVec.ofNat 64 v + wordOf (4 * sext 12 imm)).toNat
    if 2 ^ 64 ≤ v ∨ t % 4 ≠ 0 then words else t / 4

/-- A branch on one register is taken always or never. -/
def sureBranch : Instr → Option Bool
  | .beq a b _ | .bge a b _ | .bgeu a b _ => if a = b then some true else none
  | .bne a b _ | .blt a b _ | .bltu a b _ => if a = b then some false else none
  | _ => none

/-- Where control goes from a site, and what is known there. -/
def Site.exits (t : Site) (words w : Nat) (before : Flow) : List (Nat × Flow) :=
  let after := t.instrs.foldl (t.put w before) { before with due := t.leaves before.due }
  let goes (l : List Nat) : List (Nat × Flow) := l.map fun v => (v, after)
  match t.instrs.head? with
  | none => []
  | some i =>
    match i with
    | .j _ | .jl _ => goes (directTarget w i).toList
    | .jr a imm | .jlr _ a imm => goes (indirectTargets words imm (before.values a))
    | .finish _ => []
    | _ => match sureBranch i with
      | some true => goes (directTarget w i).toList
      | some false => goes [t.after w]
      | none => goes (t.after w :: (directTarget w i).toList)

/-- The text shows where control goes from the site. -/
def Site.known (t : Site) (before : Flow) : Bool :=
  match t.instrs.head? with
  | some (.jr a _) | some (.jlr _ a _) => !(before.values a).contains unknown
  | _ => true

/-- Nothing that the site reads or writes is outstanding (R343). -/
def Site.clean (t : Site) (before : Nat) : Bool :=
  decide (regBits (t.instrs.flatMap fun i => sources i ++ dests i) &&& before = 0)

/-- One pass over the code area: what is known at each word, `none` where control has not come. -/
def flowPass (sites : List (Option Site)) (reach : List (Option Flow)) : List (Option Flow) :=
  let out := (reach.zip sites).mapIdx fun w e =>
    match e with
    | (some f, some t) => t.exits sites.length w f
    | (_, _) => []
  out.flatten.foldl (fun r e => r.modify e.1 fun m => some ((m.map (·.join e.2)).getD e.2)) reach

/-- Passes until nothing changes; each pass before that adds a word, a register or a value. -/
def flowFix (sites : List (Option Site)) : Nat → List (Option Flow) → List (Option Flow)
  | 0, reach => reach
  | fuel + 1, reach =>
    let next := flowPass sites reach
    if next = reach then reach else flowFix sites fuel next

/-- What the text shows at each word where control that enters at the tasks' entries comes, with the site there. -/
def Tribolon.reached (t : Tribolon) : List (Option Flow × Option Site) :=
  let sites := t.sites
  let start := t.tasks.foldl (fun r e => r.set (tkEntry e / 4) (some ⟨0, []⟩)) (sites.map fun _ => none)
  (flowFix sites (1500 * sites.length + 1) start).zip sites

/-- Bodies are free of hazards, and control leaves the code area only by FINISH (R384), as far as the text shows it; where the
text does not show where control goes, a free value says whether the section keeps the rule (log entry 6). -/
def Tribolon.flowOk (t : Tribolon) : Bool :=
  let reached := t.reached
  let words := reached.length
  (reached.mapIdx fun w e =>
    match e with
    | (none, _) => true
    | (some _, none) => false
    | (some f, some s) => s.clean f.due && (s.exits words w f).all fun x => decide (x.1 < words)).all id
    && (Config.translatorVerdict t.bytes || reached.all fun e =>
      match e with
      | (some f, some s) => s.known f
      | (_, _) => true)

/-- The rules of R383, in a context with `P` logical cores at each of `nodes` nodes. -/
def Tribolon.valid (t : Tribolon) (P nodes : Nat) : Bool :=
  t.framed
    && decide (((t.regions.filter rgLocal).map rgSize).sum ≤ 0x20000)
    && stepsCover 0 t.tasks.length t.steps && stepsCover 1 t.transfers.length t.steps
    && (t.tasks.all fun e => decide (tkLc e < t.nlc))
    && (t.transfers.all fun e => decide (tfSrc e < t.nlc ∧ tfDst e < t.nlc ∧ tfSrc e ≠ tfDst e))
    && (t.tasks.all fun e =>
      decide (tkRead e < 2 ^ t.regions.length ∧ tkWrite e < 2 ^ t.regions.length ∧ tkEntry e % 8 = 0 ∧ tkEntry e < t.codesz))
    && (t.steps.all fun e => stKind e == 1 || allPairs (t.tasksApart P) (stepOf t.tasks e))
    && (t.transfers.all fun e => (t.regions[tfRegion e]?).any fun g =>
      rgLocal g && decide (1 ≤ tfBytes e ∧ tfOffset e + tfBytes e ≤ rgSize g))
    && (t.steps.all fun e => stKind e == 0 || allPairs transfersApart (stepOf t.transfers e))
    && decide (t.nlc ≤ P * nodes)
    && (let sites := t.sites; (List.range (t.codesz / 8)).all (t.containerOk sites)) && t.flowOk

/-! ### The translation (R385 to R387)

The native section is the code area as it stands, then the driver's code from the next 64-byte boundary, then
the whole of the section and a table of region offsets. The driver works in its frame (log entry 6): the number of its
node, which the launch writes there, the step, the tokens to wait for, the base of the image, the image of a record to
spawn; then a page of 4 KiB for each task or gang, the base tables and the node's SHARED instances. Every word carries a
marker (R51), so that its results have returned before the next. -/

/-- Where the parts of the image lie, and what of the section the driver's code holds. -/
structure Layout where
  runtime : Nat
  member : Nat
  entry : Nat
  starter : Nat
  data : Nat
  offsets : Nat
  regions : Nat
  steps : Nat
  tasks : Nat
  transfers : Nat
  nreg : Nat
  nstep : Nat
  nlc : Nat
  pages : Nat
  deriving DecidableEq, Repr

/-- Code of the driver. -/
abbrev Code := List Instr

/-- Parts one after the other. -/
def inOrder (parts : List Code) : Code := parts.flatten

def back (n : Nat) : Instr := .j (2 ^ 24 - n)

/-- `body` while a < b (unsigned), after `pre`. -/
def loopWhile (pre : Code) (a b : Nat) (body : Code) : Code :=
  inOrder [pre, [.bgeu a b (body.length + 2)], body, [back (pre.length + body.length + 1)]]

def whenEq (a b : Nat) (body : Code) : Code := .bne a b (body.length + 1) :: body
def whenNe (a b : Nat) (body : Code) : Code := .beq a b (body.length + 1) :: body

/-- A constant of 55 bits. -/
def loadConst (d v : Nat) : Code :=
  let part (k : Nat) : Nat := v / 2 ^ (11 * k) % 2 ^ 11
  .addi d 0 (part 4) :: [3, 2, 1, 0].flatMap fun k => [.shli d d 11, .ori d d (part k)]

/-- d := x13 + v: an address of the image. -/
def imageAddr (d v : Nat) : Code := inOrder [loadConst d v, [.add d d 13]]

/-- A field of `width` bits at `lo`. -/
def takeField (d a lo width : Nat) : Code := [.shli d a (64 - lo - width), .shri d d (64 - width)]

def move (d a : Nat) : Instr := .addi d a 0
def less (d n : Nat) : Instr := .addi d d (2 ^ 12 - n)

/-- The topology from FEAT class 5 (R196): x15 NCLUS, x16 P, x17 to x19 the torus, x25 its nodes. -/
def topology : Code :=
  inOrder [[.feat 10 5], takeField 15 10 16 8, [.addi 11 0 192, .mul 16 15 11], takeField 17 10 32 8, takeField 18 10 40 8,
    takeField 19 10 48 8, [.mul 25 17 18, .mul 25 25 19]]

/-- v0 := 0, labelled ⊤: a store of it over a whole line leaves the line at ⊤ in the current epoch (R161). -/
def clearV0 : Code := [.vbcast .i32 0 0 0]

/-- What the driver needs again after each suspension: v0 as `clearV0` leaves it, x13 the image, x14 its node, x20 LSBASE,
x21 the pages, x22 the base tables, x23 the SHARED instances, x24 the logical cores of the node. -/
def setup (p : Layout) : Code :=
  inOrder [clearV0, [.ld 13 4 10, .ld 14 4 2], topology, [.crr 20 0x60], loadConst 11 0x1000, [.add 21 4 11],
    loadConst 11 (0x1000 * (p.pages + 1)), [.add 22 4 11, .shli 11 16 9, .add 23 22 11, .mul 11 14 16],
    loadConst 24 p.nlc, [.sub 24 24 11, .max 24 24 0, .min 24 24 16]]

/-- x34 over the region entries, x33 over the region offsets. -/
def eachRegion (p : Layout) (body : Code) : Code :=
  inOrder [imageAddr 33 p.offsets, imageAddr 34 p.regions, [.addi 35 0 0, .addi 36 0 p.nreg],
    loopWhile [] 35 36 (inOrder [body, [.addi 33 33 8, .addi 34 34 16, .addi 35 35 1]])]

/-- The instance at x37 filled from the region entry at x34: zeros labelled ⊤, line by line, then INIT's bytes of the section
where it names some (R381, R385). -/
def fillInstance (p : Layout) : Code :=
  inOrder [[.lwu 40 34 0, .ld 41 34 1, .add 42 37 40, move 43 37], loopWhile [] 43 42 [.vst 0 43 0, .addi 43 43 64],
    whenNe 41 0 (inOrder [imageAddr 11 p.data, [.add 41 41 11],
      loopWhile [] 37 42 [.lbu 43 41 0, .sb 43 37 0, .addi 41 41 1, .addi 37 37 1]])]

/-- The initial contents of the instances of a kind whose offsets count from x`base` (R386). -/
def fillRegions (p : Layout) (kind base : Nat) : Code :=
  inOrder [[.addi 39 0 kind],
    eachRegion p (inOrder [[.lbu 38 34 4],
      whenEq 38 39 (inOrder [[.ld 37 33 0, .add 37 37 base], fillInstance p])])]

/-- The base tables: doubleword r of a logical core's table is the address of its instance of region r (R385). -/
def baseTables (p : Layout) : Code :=
  inOrder [[.addi 30 0 0],
    loopWhile [] 30 24 (inOrder [
      [.addi 11 0 192, .remu 31 30 11, .shli 31 31 18, .add 31 31 20, .shli 32 30 9, .add 32 32 22],
      (List.range 8).map (.vst 0 32 ·),
      eachRegion p (inOrder [[.ld 37 33 0, .lbu 38 34 4, move 39 31], whenNe 38 0 [move 39 23],
        [.add 37 37 39, .sd 37 32 0, .addi 32 32 8]]),
      [.addi 30 30 1]])]

/-- SPAWN of the record in page x51 with the code at image offset `code`, cluster x52, PLTGT x53, GSIZE x56; `kind` is
PLKIND, or 4 for a gang of PLKIND 0 (R11, R183). The stage is the driver's own. -/
def spawnAt (code kind : Nat) : Code :=
  inOrder [imageAddr 54 code,
    [.vst 0 4 2, .sd 54 4 16, .addi 54 51 64, .sd 54 4 17, .sd 63 4 18, .crr 54 7, .shli 54 54 48, .addi 55 0 kind, .shli 55 55 54,
      .or 54 54 55, .sd 54 4 19],
    [.shli 54 52 16, .or 54 54 53, .shli 55 56 24, .or 54 54 55, .sd 54 4 20, .sd 0 4 21, .sd 0 4 22, .sd 0 4 23,
      .addi 57 4 0x80, .spawn 51 57]]

/-- x52 and x53: cluster and core of local core number x`c` (R387). -/
def placeOf (c : Nat) : Code := [.addi 11 0 192, .divu 52 c 11, .remu 53 c 11]

/-- JOIN (R33); a driver that runs on with a child's token calls the runtime, which retires it FAILED with that token (R34,
R387). -/
def joinAll : Code := inOrder [[.join, .lhu 11 63 25], whenNe 11 0 [.svc 0, back 1]]

/-- One task for each logical core of the node, which fills its LOCAL instances. -/
def startInstances (p : Layout) : Code :=
  inOrder [[.addi 30 0 0],
    loopWhile [] 30 24 (inOrder [
      [.shli 51 30 12, .add 51 51 21], placeOf 30,
      [.shli 31 53 18, .add 31 31 20, .vst 0 51 1, .sd 31 51 10, .sd 13 51 15, .addi 56 0 1], spawnAt p.starter 2, [.addi 30 30 1]])]

/-- The code of that task. -/
def starterCode (p : Layout) : Code := inOrder [clearV0, [.ld 13 4 7, .ld 20 4 2], fillRegions p 0 20, [.finish 0]]

/-- The task of the entry at x47 with the number x30, on local core number x33 (R385, R387). -/
def startTask (p : Layout) : Code :=
  inOrder [placeOf 33,
    [.shli 51 30 12, .add 51 51 21, .vst 0 51 1, .sd 30 51 10, .shli 34 33 9, .add 34 34 22, .sd 34 51 11, .ld 34 47 2, .sd 34 51 12],
    [.sd 31 51 13, .lwu 34 47 6, .add 34 34 13, .sd 34 51 14, .addi 56 0 1], spawnAt p.entry 2]

/-- A compute step with FIRST x45 and COUNT x46: a task for each entry placed at the node (R387). -/
def computeStep (p : Layout) : Code :=
  inOrder [[.shli 11 45 5], imageAddr 47 p.tasks, [.add 47 47 11, .addi 30 0 0],
    loopWhile [] 30 46 (inOrder [
      [.lwu 31 47 7, .shri 31 31 8, .divu 32 31 16], whenEq 32 14 (inOrder [[.remu 33 31 16], startTask p]),
      [.addi 47 47 32, .addi 30 30 1]])]

/-- Entry of a task: x5 to x8 as R385 gives them, then its body. -/
def entryCode : Code := [.ld 5 4 2, .ld 6 4 3, .ld 7 4 4, .ld 8 4 5, .ld 13 4 6, .jr 13 0]

/-- `body` for each transfer of the step whose source is at the node x14 in the cluster x48, with the entry at x47, its
first doubleword in x31, the number of the source within the node in x34 and 192 in x11. -/
def eachTransfer (p : Layout) (body : Code) : Code :=
  inOrder [[.shli 11 45 4], imageAddr 47 p.transfers, [.add 47 47 11, .addi 30 0 0],
    loopWhile [] 30 46 (inOrder [
      [.ld 31 47 0], takeField 32 31 0 24, [.divu 33 32 16],
      whenEq 33 14 (inOrder [[.remu 34 32 16, .addi 11 0 192, .divu 33 34 11], whenEq 33 48 body]),
      [.addi 47 47 16, .addi 30 30 1]])]

/-- A communication step with FIRST x45 and COUNT x46: a gang in each cluster that is the source of a transfer. -/
def transferStep (p : Layout) : Code :=
  inOrder [[.addi 48 0 0],
    loopWhile [] 48 15 (inOrder [
      [.addi 49 0 0], eachTransfer p [.addi 49 49 1],
      whenNe 49 0 (inOrder [
        [.shli 51 48 12, .add 51 51 21, .vst 0 51 1, .sd 45 51 10, .sd 46 51 11, .sd 48 51 12, .sd 14 51 13, .sd 13 51 15],
        [.addi 56 0 8, .min 56 56 49, move 52 48, .addi 53 0 0], spawnAt p.member 4]),
      [.addi 48 48 1]])]

/-- ERR of k0 cleared, x59 := k0, and no line counted. -/
def startCount : Code := [.addi 11 0 1, .shli 11 11 31, .kadd 0 11, .krd 59 0 0, .addi 58 0 0]

/-- Waits on k0 for the x58 lines touched; with ERR, calls the runtime, which retires the record with a token (R291,
R34). -/
def awaitCount : Code :=
  inOrder [[.add 59 59 58, .waitk 0 59, .krd 59 0 0, .shri 59 59 31], whenNe 59 0 [.svc 0, back 1]]

/-- The place word in x40 of core x54 of cluster x53 at the node x51 (R288). -/
def placeWord : Code :=
  [.remu 50 51 17, .shli 50 50 16, .shli 40 53 8, .or 40 40 54, .or 40 40 50, .divu 50 51 17, .remu 50 50 18, .shli 50 50 24,
    .or 40 40 50, .divu 50 51 17, .divu 50 50 18, .shli 50 50 32, .or 40 40 50]

/-- The place word in x40 of core x54 of cluster x53 of this device (R288). -/
def placeHere : Code := [.shli 40 53 8, .or 40 40 54, .addi 50 0 1, .shli 50 50 40, .or 40 40 50]

/-- One SEND of a gang's member (R387): the transfer of `eachTransfer`. -/
def sendTransfer (p : Layout) : Code :=
  inOrder [[.remu 34 34 11], takeField 36 31 48 8, [.shli 36 36 3], imageAddr 37 p.offsets,
    [.add 37 37 36, .ld 37 37 0, .lwu 38 47 2, .lwu 39 47 3, .add 37 37 38],
    [.shli 41 39 40, .or 41 41 37, .shli 42 34 18, .add 42 42 37, .addi 43 0 0], takeField 50 31 24 24,
    [.divu 51 50 16, .remu 52 50 16, .divu 53 52 11, .remu 54 52 11], placeWord, whenEq 51 14 placeHere,
    [.send 0 40, .add 56 37 39, less 56 1, .shri 56 56 6, .shri 57 37 6, .sub 56 56 57, .addi 56 56 1, .add 58 58 56]]

/-- The code of a gang's member: x5 is its number and x6 the gang's size (R16). -/
def memberCode (p : Layout) : Code :=
  inOrder [[.ld 13 4 7, .ld 14 4 5], topology, [.ld 45 4 2, .ld 46 4 3, .ld 48 4 4, .addi 49 0 0], startCount,
    eachTransfer p (inOrder [[.remu 35 49 6], whenEq 35 5 (sendTransfer p), [.addi 49 49 1]]), awaitCount, [.finish 0]]

/-- A SEND of 8 bytes, which nothing reads, to the driver's core of the node x51, with a token on its k1 (R387). -/
def sendToken : Code := inOrder [placeWord, [.send 0 40, .addi 58 58 1]]

/-- The boundary across nodes (R387): a token to the driver's core of every other node, then theirs on k1. -/
def boundary : Code :=
  inOrder [[.addi 11 0 1], whenNe 25 11 (inOrder [startCount,
    [.crr 54 5, .crr 53 6, .addi 42 0 1, .shli 42 42 17, .addi 41 0 8, .shli 41 41 8, .addi 41 41 0x11, .shli 41 41 32],
    [.or 41 41 42, .shli 11 54 18, .add 42 42 11, .addi 43 0 0, .addi 51 0 0],
    loopWhile [] 51 25 (inOrder [whenNe 51 14 sendToken, [.addi 51 51 1]]), awaitCount,
    [.ld 31 4 9, .add 31 31 25, less 31 1, .sd 31 4 9, .waitk 1 31]])]

/-- One step: its tasks or its gangs, then the boundary (R386, R387). -/
def driverStep (p : Layout) : Code :=
  inOrder [[.shli 11 44 4], imageAddr 29 p.steps, [.add 29 29 11, .lwu 45 29 2, .lwu 46 29 3, .lbu 33 29 0],
    whenEq 33 0 (computeStep p), [.lbu 33 29 0], whenNe 33 0 (transferStep p), joinAll, setup p, boundary,
    [.ld 44 4 8, .addi 44 44 1, .sd 44 4 8]]

/-- The driver. At its end k1 stands where it stood before. -/
def driverCode (p : Layout) : Code :=
  inOrder [[.aupc 13 0], clearV0, [.vst 0 4 1], loadConst 11 p.runtime,
    [.sub 13 13 11, .sd 13 4 10, .sd 0 4 8, .sd 0 4 9], setup p, baseTables p, fillRegions p 1 23, startInstances p, joinAll, setup p, boundary,
    loopWhile (inOrder [setup p, [.ld 44 4 8], loadConst 11 p.nstep]) 44 11 (driverStep p),
    [.ld 31 4 9, .sub 31 0 31, .kadd 1 31, .finish 0]]

/-- Words of lone containers, each with a marker (R45, R51). -/
def wordsOf (c : Code) : List Byte :=
  (c.mapIdx fun k i => bytesOf 4 ((encode i).getD 0 + 2 ^ 30 + (if k % 2 = 0 then 2 ^ 31 else 0))).flatten

def alignUp (v a : Nat) : Nat := (v + a - 1) / a * a

/-- A value padded with zeros to a multiple of 64 bytes. -/
def padded (bs : List Byte) : List Byte := bs ++ bytesOf (alignUp bs.length 64 - bs.length) 0

/-- Offsets of the regions: LSOFF for LOCAL ones, the place among the node's instances for SHARED ones (R381). -/
def regionOffsets : Nat → Nat → List (List Byte) → List Nat
  | _, _, [] => []
  | loc, shared, e :: es =>
    if rgLocal e then loc :: regionOffsets (loc + rgSize e) shared es
    else shared :: regionOffsets loc (shared + rgSize e) es

/-- The runtime's code: driver, gang member, task entry, instance starter. -/
def Layout.code (p : Layout) : List Byte :=
  padded (wordsOf (driverCode p)) ++ padded (wordsOf (memberCode p)) ++ padded (wordsOf entryCode)
    ++ padded (wordsOf (starterCode p))

/-- The layout of a bytess image: the sizes of the parts do not depend on where they lie. -/
def Tribolon.layout (t : Tribolon) : Layout :=
  let counts := t.steps.map fun e => if stKind e = 0 then stCount e else 0
  let p : Layout :=
    { runtime := alignUp t.codesz 64, member := 0, entry := 0, starter := 0, data := 0, offsets := 0, regions := 0
      steps := 0, tasks := 0, transfers := 0, nreg := t.regions.length, nstep := t.steps.length, nlc := t.nlc
      pages := max 32 (max (counts.foldl max 0) (min t.nlc 6144)) }
  let size (c : Code) : Nat := alignUp (4 * c.length) 64
  let member := p.runtime + size (driverCode p)
  let entry := member + size (memberCode p)
  let starter := entry + size entryCode
  let data := starter + size (starterCode p)
  { p with
    member := member, entry := entry, starter := starter, data := data, offsets := data + alignUp t.bytes.length 64
    regions := data + numAt t.bytes 36 4, steps := data + numAt t.bytes 40 4, tasks := data + numAt t.bytes 44 4
    transfers := data + numAt t.bytes 48 4 }

/-- The native section of level 4 that the translator makes. -/
def Tribolon.native (t : Tribolon) : List Byte :=
  let p := t.layout
  padded ((t.bytes.drop t.code).take t.codesz) ++ p.code ++ padded t.bytes
    ++ (regionOffsets 0 0 t.regions).flatMap (bytesOf 8)

/-! ### The cache of translations (R388 to R390) -/

/-- The entry that a lookup of the tenant finds. -/
def cachedOf (cache : List Translated) (tenant : Nat) (key : BitVec 384) (level : Nat) : Option Translated :=
  cache.find? fun e => e.tenant == tenant && e.key == key && e.level == level

/-- Entries of the tenant, the last used first, as many as fit in `room` bytes; entries of others stay. -/
def evict (tenant : Nat) : Nat → List Translated → List Translated
  | _, [] => []
  | room, e :: es =>
    if e.tenant ≠ tenant then e :: evict tenant room es
    else if e.code.length ≤ room then e :: evict tenant (room - e.code.length) es
    else evict tenant 0 es

/-- An entry used or made now: first of all; the tenant's older ones go where its quota needs the room. An entry beyond the
quota is not kept. -/
def keepEntry (e : Translated) (cache : List Translated) : List Translated :=
  let rest := cache.filter fun x => !(x.tenant == e.tenant && x.key == e.key && x.level == e.level)
  let quota := Config.translatorQuota e.tenant
  if e.code.length ≤ quota then e :: evict e.tenant (quota - e.code.length) rest else rest

/-- The native section of level 4 of a section that is valid: from the cache, or translated now. -/
def State.translation (s : State) (bytes : List Byte) : List Byte × State :=
  let key := Config.sha384 bytes
  let e := match cachedOf s.dev.cache s.ctx.desc.tenant key 4 with
    | some e => e
    | none => ⟨s.ctx.desc.tenant, key, 4, (tribolonOf bytes).native⟩
  (e.code, s.mapDev fun d => { d with cache := keepEntry e d.cache })

end Sys2Proof.Machine
end

