-- ==== Sys2Proof/Machine/Loader.lean ====
section
/-! DEFINITION. Code objects (R362 to R372), loading and unloading images (R369 to R375), with the translation of
portable sections and its cache (R388 to R390). -/

namespace Sys2Proof.Machine

/-! ### An object as read (R362 to R365) -/

/-- A section-table entry with the bytes it has in the file (R363). -/
structure Sect where
  typ : Nat
  level : Nat
  link : Nat
  reserved : Nat
  foff : Nat
  size : Nat
  imgoff : Nat
  data : List Byte
  deriving DecidableEq, Repr

def sectOf (e data : List Byte) : Sect :=
  { typ := numAt e 0 1, level := numAt e 1 1, link := numAt e 2 2, reserved := numAt e 4 4, foff := numAt e 8 8
    size := numAt e 16 8, imgoff := numAt e 24 8, data := data }

/-- A symbol with its name (R364). -/
structure Sym where
  value : Nat
  reserved : Nat
  kind : Nat
  bind : Nat
  sec : Nat
  name : List Byte
  deriving DecidableEq, Repr

def symOf (e name : List Byte) : Sym :=
  { value := numAt e 8 8, reserved := numAt e 6 2 / 16, kind := numAt e 6 2 / 4 % 4, bind := numAt e 6 2 % 4
    sec := numAt e 4 2, name := name }

/-- An object: header, sections, symbols in section-table order. -/
structure Obj where
  header : List Byte
  sects : List Sect
  syms : List Sym
  deriving DecidableEq, Repr

/-- The header names a code object of the version (R362). -/
def isObject (header : List Byte) : Bool := decide (numAt header 0 4 = 0x4F4B4D45) && decide (numAt header 4 2 = 1)

def objNsec (header : List Byte) : Nat := numAt header 6 2
def objPbase (header : List Byte) : Nat := numAt header 8 8
def objSize (header : List Byte) : Nat := numAt header 16 8
def objSecoff (header : List Byte) : Nat := numAt header 24 8
def objStroff (header : List Byte) : Nat := numAt header 32 8
def objNsym (header : List Byte) : Nat := numAt header 40 4

/-- Entries of 16 bytes of a section. -/
def sixteens (data : List Byte) : List (List Byte) := (chunks 16 (data.length / 16 + 1) data).filter fun e => e.length == 16

/-- The symbol entries of all symbol sections. -/
def symEntries (sects : List Sect) : List (List Byte) := sects.flatMap fun s => if s.typ = 6 then sixteens s.data else []

/-- The REASON of a load that cannot read its object (R370). -/
def objReadReason (d : Deny) : Nat :=
  match d.cause with
  | .page => 2
  | .perm => 3
  | _ => 4

/-- Bytes of the object at `va`. -/
def State.objBytes (s : State) (va : Word) (off n : Nat) : Except Deny (List Byte × State) :=
  match s.readSpan hostAgent (va + BitVec.ofNat 64 off) n with
  | .ok (bs, _, t) => .ok (bs, t)
  | .error d => .error d

/-- A name, up to its byte 0; the address space bounds it. -/
def State.objName (s : State) (va : Word) : Nat → Nat → Except Deny (List Byte × State)
  | 0, _ => .error ⟨.page, 0, va⟩
  | fuel + 1, off => do
    let (b, t) ← s.objBytes va off 1
    if natOf b = 0 then .ok ([], t)
    else
      let (rest, u) ← t.objName va fuel (off + 1)
      .ok (b ++ rest, u)

def State.objSects (s : State) (va : Word) : List Nat → Except Deny (List Sect × State)
  | [] => .ok ([], s)
  | off :: offs => do
    let (e, t) ← s.objBytes va off 32
    let (d, t) ← t.objBytes va (numAt e 8 8) (numAt e 16 8)
    let (rest, u) ← t.objSects va offs
    .ok (sectOf e d :: rest, u)

def State.objSyms (s : State) (va : Word) (stroff : Nat) : List (List Byte) → Except Deny (List Sym × State)
  | [] => .ok ([], s)
  | e :: es => do
    let (n, t) ← s.objName va (2 ^ 56) (stroff + numAt e 0 4)
    let (rest, u) ← t.objSyms va stroff es
    .ok (symOf e n :: rest, u)

/-- The object at its VA, read before any other step (R369): the header, then what its tables name. -/
def State.readObj (s : State) (va : Word) : Except Deny (Obj × State) := do
  let (h, t) ← s.objBytes va 0 64
  if !isObject h then .ok (⟨h, [], []⟩, t)
  else
    let (sects, t) ← t.objSects va ((List.range (min 256 (objNsec h))).map fun i => objSecoff h + 32 * i)
    let (syms, t) ← t.objSyms va (objStroff h) (symEntries sects)
    .ok (⟨h, sects, syms⟩, t)

/-! ### FORMAT (R362 to R365) -/

/-- The first section of a type. -/
def Obj.only (o : Obj) (typ : Nat) : Option Sect := o.sects.find? fun s => s.typ == typ

/-- IMGOFF of the constant pool, and the end of the pool (R363). -/
def Obj.poolOff (o : Obj) : Nat := alignUp ((o.sects.map fun s => if s.typ = 1 then s.size else 0).foldl max 0) 256
def Obj.poolEnd (o : Obj) : Nat := o.poolOff + ((o.only 3).map Sect.size).getD 0

/-- The sections' fields by type; a constant pool or a GOT of SIZE 0 is absent (R363). -/
def Obj.sectOk (o : Obj) (s : Sect) : Bool :=
  let placed := decide (s.imgoff + s.size ≤ objSize o.header)
  let plain := decide (s.reserved = 0) && decide (s.foff % 8 = 0)
  let unlinked := decide (s.link = 0)
  let linked := (o.sects[s.link]?).any fun n => n.typ == 1
  plain && (match s.typ with
    | 1 => decide (1 ≤ s.level ∧ s.level ≤ 4) && decide (s.size % 8 = 0) && decide (s.imgoff = 0) && unlinked && placed
    | 2 => decide (s.level = 0) && decide (s.imgoff = 0) && unlinked
    | 3 => decide (s.level = 0) && decide (s.size ≠ 0) && decide (s.imgoff = o.poolOff) && unlinked && placed
    | 4 => decide (s.level = 0) && decide (s.size ≠ 0) && decide (s.imgoff = alignUp o.poolEnd 64) && unlinked && placed
      && decide (s.size % 8 = 0) && s.data.all fun b => decide (b = 0)
    | 5 => decide (s.level = 0) && decide (s.imgoff = 0) && linked && decide (s.size % 16 = 0)
    | 6 => decide (s.level = 0) && decide (s.imgoff = 0) && linked && decide (s.size % 16 = 0)
    | _ => false)

/-- One section at most of each kind (R363). -/
def Obj.sectsOnce (o : Obj) : Bool :=
  decide (o.sects.map fun s =>
    (s.typ, match s.typ with
      | 1 => s.level
      | 5 => s.link
      | 6 => s.link
      | _ => 0)).Nodup

/-- Fields of a symbol (R364). -/
def Obj.symOk (o : Obj) (y : Sym) : Bool :=
  let home := o.sects[y.sec]?
  decide (y.reserved = 0 ∧ y.kind ≤ 1 ∧ y.bind ≤ 1)
    && (decide (y.sec = 0xFFFF) || home.any fun s => s.typ == 1 || s.typ == 3 || s.typ == 4)
    && (decide (y.kind = 0)
      || (decide (y.sec ≠ 0xFFFF ∧ y.value % 8 = 0) && home.any fun s => s.typ == 1 && decide (y.value < s.size)))

/-- A name is defined once in each native section and in the constant pool (R364). -/
def Obj.namesOnce (o : Obj) : Bool :=
  decide ((o.syms.filter fun y =>
    decide (y.sec ≠ 0xFFFF) && (o.sects[y.sec]?).any fun s => s.typ == 1 || s.typ == 3).map fun y => (y.sec, y.name)).Nodup

/-- The header, the section table and the symbols are as R362 to R365 state. -/
def Obj.wellFormed (o : Obj) : Bool :=
  let h := o.header
  isObject h && decide (1 ≤ objNsec h ∧ objNsec h ≤ 256) && decide (objPbase h % 2 ^ 16 = 0)
    && decide (objSize h % 8 = 0) && decide (objSecoff h % 8 = 0) && decide (numAt h 44 20 = 0)
    && o.sects.all o.sectOk && o.sectsOnce && decide (o.syms.length = objNsym h) && o.syms.all o.symOk && o.namesOnce

/-! ### Choosing a section (R368) -/

/-- Why a load fails (R370): CODE, INDEX, REASON. -/
structure LoadFail where
  code : Nat
  index : Nat
  reason : Nat
  deriving DecidableEq, Repr

/-- The load result word (R370). -/
def LoadFail.word (f : LoadFail) : Word := BitVec.ofNat 64 (f.code + f.reason * 2 ^ 8 + f.index * 2 ^ 32)

/-- The native section of the highest level, with its index; this device runs all four (R196, R368). -/
def Obj.chosen (o : Obj) : Option (Nat × Sect) :=
  [4, 3, 2, 1].findSome? fun lvl =>
    ((o.sects.mapIdx fun i s => (i, s)).find? fun e => e.2.typ == 1 && e.2.level == lvl)

/-- The object of a translation: one native section of level 4 at the base of the first one, and the driver as its
kernel (R387; log entry 6). -/
def translatedObj (o : Obj) (t : Tribolon) (code : List Byte) : Obj :=
  let header := natOf (bytesOf 4 0x4F4B4D45 ++ bytesOf 2 1 ++ bytesOf 2 1 ++ bytesOf 8 (objPbase o.header)
    ++ bytesOf 8 code.length)
  { header := bytesOf 64 header
    sects := [⟨1, 4, 0, 0, 0, code.length, 0, code⟩]
    syms := [⟨t.layout.runtime, 0, 1, 1, 0, []⟩] }

/-- The object to load with its native section, the offsets of a driver in it and the state after: the object itself, or the
translation of its Tribolon section, which is checked first (R368, R383). -/
def State.choose (s : State) (o : Obj) : Except LoadFail (Obj × Nat × Sect × (Nat × Nat) × State) :=
  match o.chosen with
  | some (i, n) => .ok (o, i, n, (0, 0), s)
  | none =>
    match o.only 2 with
    | none => .error ⟨2, 0, 0⟩
    | some c =>
      let t := tribolonOf c.data
      let k := s.ctx
      if !t.valid (k.nclus * 192) (k.desc.tx * k.desc.ty * k.desc.tz) then .error ⟨5, 0, 0⟩
      else
        let (code, u) := s.translation c.data
        .ok (translatedObj o t code, 0, ⟨1, 4, 0, 0, 0, code.length, 0, code⟩, (t.layout.runtime, t.layout.member), u)

/-! ### Relocation (R366, R367) -/

/-- A relocation entry (R365). -/
structure Reloc where
  off : Nat
  typ : Nat
  sym : Nat
  addend : Word
  deriving DecidableEq, Repr

def relocOf (e : List Byte) : Reloc := ⟨numAt e 0 4, numAt e 4 1, numAt e 5 3, BitVec.ofNat 64 (numAt e 8 8)⟩

/-- Hi(V) and Lo(V). -/
def hiOf (v : Word) : Word := (v + 0x800).sshiftRight 12
def loOf (v : Word) : Word := v - (hiOf v <<< 12)

/-- A load in the making: the object, its native section, the base, the image before relocation. -/
structure Loading where
  obj : Obj
  sec : Nat
  native : Sect
  base : Word
  image : List Byte
  relocs : List Reloc
  deriving DecidableEq, Repr

/-- S of a symbol index (R364): `none` where REASON 4 applies. -/
def Loading.symbol (l : Loading) (i : Nat) : Option Word :=
  match l.obj.syms[i]? with
  | none => none
  | some y =>
    if y.sec = 0xFFFF then Config.exported y.name
    else match l.obj.sects[y.sec]? with
      | none => none
      | some s =>
        if y.sec = l.sec ∨ s.typ = 3 ∨ s.typ = 4 then some (l.base + BitVec.ofNat 64 (s.imgoff + y.value)) else none

/-- The instruction that a type requires at OFF stands there. -/
def relocInstr (typ : Nat) (w : Nat) : Bool :=
  match typ with
  | 1 => decide (w / 2 ^ 26 % 16 = 6)
  | 2 => decide (w / 2 ^ 24 % 64 = 0x21)
  | 3 => decide (w / 2 ^ 26 % 16 = 7)
  | 4 => decide (w / 2 ^ 24 % 64 = 0x21)
  | 5 => decide (w / 2 ^ 24 % 64 ≤ 1)
  | _ => true

/-- Bits of the patched field. -/
def relocField (typ : Nat) : Nat :=
  match typ with
  | 1 | 3 => 20
  | 2 | 4 => 12
  | 5 => 24
  | _ => 64

def Reloc.width (r : Reloc) : Nat := if r.typ ≥ 6 then 8 else 4

/-- The GOT holds the doubleword. -/
def Loading.inGot (l : Loading) (off : Nat) : Bool :=
  (l.obj.only 4).any fun g => decide (g.imgoff ≤ off ∧ off + 8 ≤ g.imgoff + g.size)

/-- The partner of a PCLO12 whose symbol is at `a` (R366). -/
def Loading.partner (l : Loading) (a : Word) : Option Reloc :=
  l.relocs.find? fun r => r.typ == 3 && l.base + BitVec.ofNat 64 r.off == a

/-- The value of an entry with symbol address `a`, and whether it fits; a partner without a symbol address is
rejected at its own entry. -/
def Loading.value (l : Loading) (r : Reloc) (a : Word) : Word × Bool :=
  let p := l.base + BitVec.ofNat 64 r.off
  let fits20 (v : Word) : Bool := decide (-0x80000 ≤ v.toInt ∧ v.toInt ≤ 0x7FFFF)
  match r.typ with
  | 1 => (hiOf (a + r.addend), fits20 (hiOf (a + r.addend)))
  | 2 => (loOf (a + r.addend), true)
  | 3 => (hiOf (a + r.addend - p), fits20 (hiOf (a + r.addend - p)))
  | 4 =>
    match l.partner a with
    | none => (0, true)
    | some q =>
      let s := (l.symbol q.sym).getD 0
      (loOf (s + q.addend - (l.base + BitVec.ofNat 64 q.off)), true)
  | 5 =>
    let d := a + r.addend - p
    let v := d.sshiftRight 2
    (v, decide (d.toNat % 4 = 0) && decide (-(2 ^ 23) ≤ v.toInt ∧ v.toInt ≤ 2 ^ 23 - 1))
  | _ => (a + r.addend, true)

/-- The entry's value, or its REASON (R367). -/
def Loading.check (l : Loading) (r : Reloc) : Except Nat Word :=
  if r.typ = 0 ∨ 8 ≤ r.typ then .error 6
  else if r.off % r.width ≠ 0 ∨ l.image.length < r.off + r.width ∨ (r.typ = 6 ∧ !l.inGot r.off) then .error 3
  else match l.symbol r.sym with
    | none => .error 4
    | some a =>
      if !relocInstr r.typ (numAt l.image r.off 4) then .error 2
      else if r.typ = 4 ∧ l.partner a = none then .error 5
      else if (l.value r a).2 then .ok (l.value r a).1 else .error 1

/-- Every entry checked in order: its value, or the first rejection. -/
def Loading.checkAll (l : Loading) : Nat → List Reloc → Except LoadFail (List (Reloc × Word))
  | _, [] => .ok []
  | i, r :: rs =>
    match l.check r with
    | .error reason => .error ⟨3, i, reason⟩
    | .ok v =>
      match l.checkAll (i + 1) rs with
      | .error e => .error e
      | .ok vs => .ok ((r, v) :: vs)

/-- Bytes replaced in a list. -/
def spliceBytes (l : List Byte) (off : Nat) (bs : List Byte) : List Byte := l.take off ++ bs ++ l.drop (off + bs.length)

/-- The field patched, every other bit of the word unchanged (R366). -/
def patch (image : List Byte) (e : Reloc × Word) : List Byte :=
  let old := numAt image e.1.off e.1.width
  let f := 2 ^ relocField e.1.typ
  spliceBytes image e.1.off (bytesOf e.1.width (old / f * f + e.2.toNat % f))

/-- The image before relocation (R369). -/
def rawImage (o : Obj) (n : Sect) : List Byte :=
  let image := spliceBytes (bytesOf (objSize o.header) 0) 0 n.data
  match o.only 3 with
  | some c => spliceBytes image c.imgoff c.data
  | none => image

/-! ### LOAD (R369, R370) -/

/-- The range can take the image (R369). -/
def State.spaceFor (s : State) (base : Word) (size : Nat) : Bool :=
  let lo := base.toNat
  let pages := (size + 2 ^ 16 - 1) / 2 ^ 16
  decide (lo % 2 ^ 16 = 0) && canonicalVa base && s.ctx.inCodeWindow base
    && decide (lo % 2 ^ 35 + size ≤ 2 ^ 35)
    && (s.ctx.images.all fun i => !(decide (lo < i.base.toNat + i.size) && decide (i.base.toNat < lo + size)))
    && (List.range pages).all fun p => !s.mapsVa (base + BitVec.ofNat 64 (p * 2 ^ 16)) 3 1 s.ctx.desc.troot

/-- The image mapped at its base (R369) on pages of the code heap, which hold it and zeros; `none` where the heap has not the
room for it and its page tables (log entry 9). -/
def State.mapImage (s : State) (base : Word) (image : List Byte) (driver : Nat × Nat) : Option State :=
  let n := (image.length + 2 ^ 16 - 1) / 2 ^ 16
  let places := s.heapFree.take n
  if places.length < n then none
  else
    let i : Image := ⟨base, image.length, places, driver, 0, none, []⟩
    let bs := image ++ bytesOf (2 ^ 16 * n - image.length) 0
    let t := (places.zip (chunks (2 ^ 16) n bs)).foldl (fun s e => s.putPage e.1 e.2)
      (s.mapCtx fun k => { k with images := k.images ++ [i] })
    (i.pages.zip places).foldlM (fun s e => s.mapPage e.1 e.2) t

/-- A load of the object at `va` at base `base`: the load result word and the state after it. -/
def State.loadImage (s : State) (va base : Word) : Word × State :=
  match s.readObj va with
  | .error d => (LoadFail.word ⟨6, 0, objReadReason d⟩, s.noteDeny hostAgent d)
  | .ok (o, t) =>
    if !o.wellFormed then (LoadFail.word ⟨1, 0, 0⟩, t)
    else match t.choose o with
      | .error e => (e.word, t)
      | .ok (o, i, n, driver, t) =>
        if !t.spaceFor base (objSize o.header) then (LoadFail.word ⟨4, 0, 0⟩, t)
        else
          let relocs := (o.sects.filter fun x => x.typ == 5 && x.link == i).flatMap fun x => (sixteens x.data).map relocOf
          let l : Loading := ⟨o, i, n, base, rawImage o n, relocs⟩
          match l.checkAll 0 relocs with
          | .error e => (e.word, t)
          | .ok patches =>
            match t.mapImage base (patches.foldl patch l.image) driver with
            | some u => (0, u)
            | none => (LoadFail.word ⟨4, 0, 0⟩, t)

/-- A packet of the queue whose dependencies are DONE and that does not execute yet. -/
def State.readyPacket (s : State) (qid n typ : Nat) : Option Packet :=
  (s.queue qid).bind fun q => q.packets.find? fun p => p.seq == n && p.met && !p.started && slotType p.slot == typ

def execLoad (qid n : Nat) (s : State) : Out :=
  .next (match s.readyPacket qid n 7 with
    | none => s
    | some p =>
      let (w, t) := s.loadImage (slotBody p.slot 0) (slotBody p.slot 8)
      let t := match t.engineWrite hostAgent (slotBody p.slot 16) (bytesOf 8 w.toNat) with
        | .ok u => u
        | .error d => t.noteDeny hostAgent d
      if w = 0 then t.signalPacket qid n 1 0 else t.signalPacket qid n 3 (bitsAt w 0 8))

/-! ### UNLOAD (R374, R375) -/

/-- The image at the base that is loaded and not yet unloaded. -/
def Context.imageAt (k : Context) (base : Word) : Option Image :=
  k.images.find? fun i => i.base == base && i.unloading.isNone

def execUnload (qid n : Nat) (s : State) : Out :=
  .next (match s.readyPacket qid n 8 with
    | none => s
    | some p =>
      let base := slotBody p.slot 0
      match s.ctx.imageAt base with
      | none => s.signalPacket qid n 3 1
      | some _ =>
        (s.mapCtx fun k =>
          { k with
            cg := k.cg + 1
            images := k.images.map fun i =>
              if i.base = base ∧ i.unloading.isNone then
                { i with gen := k.cg + 1, unloading := some s.dev.stroke.toNat }
              else i }).signalPacket qid n 1 0)

/-- Firmware frees the pages of an unloaded image at a tick (R374): every tick does, and this event in the cycle of one. -/
def execUnloadFree (base : Word) (s : State) : Out :=
  .next (if s.dev.cycle.toNat % Config.stroke = 0 ∧ s.dev.stroke.toNat = s.dev.cycle.toNat / Config.stroke then
      s.freeImages fun i => decide (i.base = base)
    else s)

end Sys2Proof.Machine
end

