-- ==== Sys2Proof/Machine/Host.lean ====
section
/-! DEFINITION. Attachment (R391 to R403): queues and doorbells, consuming packets, their effects and signals, RMA
accesses of hosts and peers, the PTP servo. -/

namespace Sys2Proof.Machine

/-- A message sent out. -/
def State.reply (s : State) (r : Reply) : State := s.mapDev fun d => { d with replies := d.replies ++ [r] }

/-! ### Creating a queue (R392 to R394) -/

/-- A page that can hold the ring or the status block: cacheable, without LT or CMP (R392). -/
def State.queuePage (s : State) (acc : Access) (va : Word) : Bool :=
  match s.enginePlace hostAgent acc va with
  | .ok (p, _) => p.ls.isNone && p.cacheable && !p.lt && !p.cmp
  | .error _ => false

/-- The fields of the descriptor are valid for the context that moves. -/
def State.queueValid (s : State) (d : BitVec 512) : Bool :=
  let caplog := bitsAt d 160 4
  let ring : Word := d.extractLsb' 0 64
  let statva : Word := d.extractLsb' 64 64
  let size := 2 ^ (caplog + 7)
  decide (bitsAt d 208 304 = 0 ∧ bitsAt d 164 12 = 0 ∧ bitsAt d 128 32 = 0 ∧ 3 ≤ caplog)
    && decide (bitsAt d 192 8 ≤ 1 ∧ 1 ≤ bitsAt d 200 8)
    && decide (statva.toNat % 64 = 0 ∧ ring.toNat % size = 0)
    && s.queuePage .write statva
    && (List.range ((size + 2 ^ 16 - 1) / 2 ^ 16)).all fun i => s.queuePage .read (ring + BitVec.ofNat 64 (i * 2 ^ 16))

/-- The first QID from `q` on, cyclically, that names no queue, with fuel. -/
def Context.freeQid (k : Context) : Nat → Nat → Option Nat
  | 0, _ => none
  | fuel + 1, q => if (lookup k.queues q).isNone then some q else k.freeQid fuel (q % 65535 + 1)

/-- The queue created, its QID and its memory key of firmware's choice; none in a faulted context, which the host can only
destroy (R423). -/
def State.newQueue (s : State) (d : BitVec 512) : State :=
  if !s.queueValid d || s.ctx.faulted then s.reply (.refused 1)
  else match s.ctx.freeQid 65535 (s.freeNat 0 % 65535 + 1) with
    | none => s.reply (.refused 1)
    | some qid =>
      let q : Queue :=
        { qid := qid, key := BitVec.ofNat 32 (s.freeNat 1), ring := d.extractLsb' 0 64, caplog := bitsAt d 160 4, statva := d.extractLsb' 64 64, rev := 1
          rc := 0, wc := 0, state := .active, cause := 0, badwc := 0, stale := 0, packets := [] }
      let t := s.drawn.mapCtx fun k => { k with queues := insertAt qid q k.queues }
      (t.showQueue qid).reply (.qid qid q.key)

def execQueueCreate (desc : BitVec 512) (s : State) : Out :=
  .next (if !s.hasContext (bitsAt desc 176 16) then s.reply (.refused 1)
    else s.inContext (bitsAt desc 176 16) fun t => t.newQueue desc)

/-! ### Slots (R397 to R399) -/

/-- The slot of packet `n`. -/
def Queue.slotVa (q : Queue) (n : Word) : Word := q.ring + BitVec.ofNat 64 (n.toNat % 2 ^ q.caplog * 128)

/-- The 128 bytes of a slot, or the access that fails. -/
def State.readSlot (s : State) (q : Queue) (n : Word) : Except Deny (BitVec 1024 × State) :=
  match s.readSpan hostAgent (q.slotVa n) 128 with
  | .ok (bs, _, t) => .ok (BitVec.ofNat 1024 (natOf bs), t)
  | .error d => .error d

def slotRev (p : BitVec 1024) : Nat := bitsAt p 8 8
def slotNdep (p : BitVec 1024) : Nat := bitsAt p 16 3
def slotDep (p : BitVec 1024) (i : Nat) : Word := p.extractLsb' (128 + 64 * i) 64
/-- The body's bytes from `off` on are 0. -/
def bodyZero (p : BitVec 1024) (off : Nat) : Bool := decide (bitsAt p (512 + 8 * off) (512 - 8 * off) = 0)

/-- An address of a signal word. -/
def signalVa (va : Word) : Bool := decide (va.toNat % 8 = 0) && canonicalVa va

/-- The header is valid. -/
def slotHeader (p : BitVec 1024) : Bool :=
  decide (slotNdep p ≤ 6 ∧ bitsAt p 19 13 = 0) && signalVa (slotSig p)
    && (List.range 6).all fun i => if i < slotNdep p then signalVa (slotDep p i) else decide (slotDep p i = 0)

/-- The body is valid for a type that an active queue executes (R398). -/
def slotBodyOk (p : BitVec 1024) : Bool :=
  match slotType p with
  | 1 => decide (bitsAt (slotBody p 24) 9 7 = 0 ∧ bitsAt (slotBody p 24) 48 16 = 0 ∧ (slotBody p 32).toNat % 64 = 0) && bodyZero p 40
  | 2 => bodyZero p 32
  | 3 => bodyZero p 32
  | 4 => decide ((slotBody p 0).toNat % 8 = 0) && bodyZero p 16
  | 5 => decide ((slotBody p 0).toNat % 8 = 0) && bodyZero p 16
  | 6 => bodyZero p 0
  | 7 => decide ((slotBody p 16).toNat % 8 = 0) && bodyZero p 24
  | 8 => bodyZero p 8
  | _ => false

/-- A valid QRESET of the revision, its SIGVA a multiple of 8 (R402). -/
def validReset (rev : Nat) (p : BitVec 1024) : Bool :=
  decide (slotType p = 9 ∧ slotRev p = rev ∧ slotNdep p = 0 ∧ bitsAt p 19 13 = 0)
    && decide ((slotSig p).toNat % 8 = 0) && (List.range 6).all (fun i => decide (slotDep p i = 0))
    && decide (bitsAt (slotBody p 0) 1 63 = 0) && bodyZero p 8

/-! ### Consuming (R395, R399) -/

/-- WAIT or BARRIER holds the queue. -/
def Queue.holding (q : Queue) : Bool := q.packets.any fun p => slotType p.slot == 5 || slotType p.slot == 6

/-- Packets consumed in order while the queue is active, none holds it, and the doorbell covers one; `fuel` bounds
them by the capacity. -/
def State.consume : Nat → State → Nat → State
  | 0, s, _ => s
  | fuel + 1, s, qid =>
    match s.queue qid with
    | none => s
    | some q =>
      if q.state ≠ .active ∨ q.rc = q.wc ∨ q.holding then s
      else match s.readSlot q q.rc with
        | .error d => (s.noteDeny hostAgent d).freezeQueue qid 5
        | .ok (slot, s) =>
          if slotRev slot ≠ q.rev then s.freezeQueue qid 3
          else if !(slotHeader slot && slotBodyOk slot) then s.freezeQueue qid 4
          else
            let p : Packet := ⟨q.rc.toNat, slot, slotNdep slot == 0, false⟩
            let t := s.mapQueue qid fun q => { q with rc := q.rc + 1, packets := q.packets ++ [p] }
            (t.showQueue qid).consume fuel qid

/-- The queue goes on consuming. -/
def State.resumeQueue (s : State) (qid : Nat) : State := s.consume (2 ^ 15) qid

/-- A packet signals, and its queue goes on. -/
def State.finishPacket (s : State) (qid n st code : Nat) : State := (s.signalPacket qid n st code).resumeQueue qid

/-- A doorbell at a queue (R395, R402); the queues of a faulted context stay frozen (R423). -/
def State.ring (s : State) (q : Queue) (wcnt : Word) : State :=
  if s.ctx.faulted then s
  else match q.state with
  | .frozen =>
    if wcnt ≠ q.rc + 1 then s
    else match s.readSlot q q.rc with
      | .error d => s.noteDeny hostAgent d
      | .ok (slot, s) =>
        if validReset q.rev slot then
          s.mapQueue q.qid fun q =>
            { q with state := .draining, packets := q.packets ++ [⟨q.rc.toNat, slot, true, false⟩] }
        else s
  | .active =>
    if (wcnt - q.wc).toNat ≥ 2 ^ 63 then s.mapQueue q.qid fun q => { q with stale := min 255 (q.stale + 1) }
    else if (wcnt - q.rc).toNat > 2 ^ q.caplog then
      (s.mapQueue q.qid fun q => { q with state := .frozen, cause := 2, badwc := wcnt, wc := q.rc }).showQueue q.qid
    else (s.mapQueue q.qid fun q => { q with wc := wcnt }).resumeQueue q.qid
  | .draining => s
  | .destroyed => s

def execDoorbell (msg : BitVec 128) (s : State) : Out :=
  .next (match s.queue (bitsAt msg 64 16) with
    | none => s
    | some q => if bitsAt msg 80 48 ≠ 0 then s else s.ring q (msg.extractLsb' 0 64))

/-- CODE 2, 3 or 4 of a failed access (R400). -/
def signalCode (d : Deny) : Nat := objReadReason d

/-- STATE of each dependency word, or the failed access of the first that cannot be read. -/
def State.depStates (s : State) : List Word → Except Deny (List Nat × State)
  | [] => .ok ([], s)
  | va :: vas =>
    match s.engineRead hostAgent va 8 with
    | .error d => .error d
    | .ok (w, _, t) =>
      match t.depStates vas with
      | .error c => .error c
      | .ok (l, u) => .ok (w % 256 :: l, u)

def execPacketDependencyMet (qid n : Nat) (s : State) : Out :=
  .next (match (s.queue qid).bind fun q => q.packets.find? fun p => p.seq == n && !p.met with
    | none => s
    | some p =>
      match s.depStates ((List.range (slotNdep p.slot)).map (slotDep p.slot)) with
      | .error d => (s.noteDeny hostAgent d).finishPacket qid n 3 (signalCode d)
      | .ok (sts, t) =>
        if sts.contains 0 then t
        else if sts.all (· == 1) then
          t.mapQueue qid fun q => { q with packets := q.packets.map fun p => if p.seq = n then { p with met := true } else p }
        else t.finishPacket qid n 2 0)

/-! ### Packets (R398, R400) -/

/-- A packet begins to execute. -/
def State.startPacket (s : State) (qid n : Nat) : State :=
  s.mapQueue qid fun q => { q with packets := q.packets.map fun p => if p.seq = n then { p with started := true } else p }

/-- The record image of a LAUNCH (R398). -/
def launchImage (p : BitVec 1024) : VWord :=
  let c := slotBody p 24
  BitVec.ofNat 512 ((slotBody p 0).toNat + (slotBody p 8).toNat * 2 ^ 64 + (slotBody p 16).toNat * 2 ^ 128
    + bitsAt c 0 4 * 2 ^ 240 + bitsAt c 4 2 * 2 ^ 244 + bitsAt c 6 2 * 2 ^ 246 + bitsAt c 8 1 * 2 ^ 248
    + bitsAt c 16 16 * 2 ^ 256 + bitsAt c 40 8 * 2 ^ 272 + bitsAt c 32 8 * 2 ^ 280)

/-- The cause with which RECVA creates no record (R400), `none` when it creates one. -/
def State.recvaFault (s : State) (va : Word) : Option Nat :=
  match s.translate hostAgent .write va with
  | .error _ => some 4
  | .ok (p, t) =>
    match permCheck hostAgent .write p with
    | .error _ => some 5
    | .ok () => if p.ls.isSome ∨ !p.cacheable ∨ p.cmp ∨ !(t.tagCheck hostAgent .write p).isOk then some 7 else none

/-- A record launched after an UNLOAD reaches none of the image's pages (R374). -/
def State.bar (s : State) (va : Word) : State :=
  s.mapCtx fun k =>
    { k with images := k.images.map fun i => if i.unloading.isSome then { i with barred := va :: i.barred.erase va } else i }

def execLaunch (qid n : Nat) (s : State) : Out :=
  .next (match s.readyPacket qid n 1 with
    | none => s
    | some p =>
      let va := slotBody p.slot 32
      match s.recvaFault va with
      | some code => s.finishPacket qid n 3 code
      | none => ((s.startPacket qid n).bar va).create va (launchImage p.slot) qid s.ctx.world.agentEpoch)

/-- Host address, fabric endpoint and key of the host buffer of a copy packet (R398). -/
def hostAddr (p : BitVec 1024) : Word := slotBody p 8
def hostFep (p : BitVec 1024) : Half := (slotBody p 24).extractLsb' 0 32
def hostKey (p : BitVec 1024) : Half := (slotBody p 24).extractLsb' 32 32

/-- The device reads the host buffer by RMA. -/
def execCopyin (qid n : Nat) (s : State) : Out :=
  .next (match s.readyPacket qid n 2 with
    | none => s
    | some p =>
      (s.startPacket qid n).reply
        (.hostRead (hostAddr p.slot) (hostFep p.slot) (hostKey p.slot) (slotBody p.slot 16).toNat))

/-- The device reads its bytes and writes them into the host buffer by RMA. -/
def execCopyout (qid n : Nat) (s : State) : Out :=
  .next (match s.readyPacket qid n 3 with
    | none => s
    | some p =>
      match s.readSpan hostAgent (slotBody p.slot 0) (slotBody p.slot 16).toNat with
      | .ok (bs, _, t) =>
        (t.startPacket qid n).reply (.hostWrite (hostAddr p.slot) (hostFep p.slot) (hostKey p.slot) bs)
      | .error d => (s.noteDeny hostAgent d).finishPacket qid n 3 (signalCode d))

/-- A write for a host or peer within one line, labelled ⊤ (R220): a full line takes ⊤ and loses its poison. -/
def State.hostPiece (s : State) (va : Word) (bs : List Byte) : Except Deny State :=
  if bs.length = 64 then
    match s.enginePlace rmaAgent .write va with
    | .error d => .error d
    | .ok (p, t) => do
      t.linkCheck rmaAgent .write p
      let t := if p.lt then t.mapDev (·.setRawLabel (lineOf p.loc) (mkWord t.ctx.world.agentEpoch false 0)) else t
      .ok ((t.engineBytes rmaAgent p bs).cleared (lineOf p.loc))
  else s.engineWrite rmaAgent va bs

/-- The pieces written in order, as far as none fails. -/
def State.hostPieces (s : State) : List (Word × Nat) → List Byte → State × Option Deny
  | [], _ => (s, none)
  | (va, n) :: rest, bs =>
    match s.hostPiece va (bs.take n) with
    | .error d => (s, some d)
    | .ok t => t.hostPieces rest (bs.drop n)

/-- COPYIN's bytes written; with a failure, a free number of the pieces before it. -/
def State.copyinWrite (s : State) (va : Word) (bs : List Byte) : State × Option Deny :=
  let pieces := piecesOf va bs.length
  match s.hostPieces pieces bs with
  | (t, none) => (t, none)
  | (_, some d) =>
    let u := (s.drawn.hostPieces (pieces.take (s.freeNat 0 % (pieces.length + 1))) bs).1
    (u, some d)

/-- A transfer of the packet has ended: `code` 0 with the bytes of the host, 11 LINK, 12 REMOTE. -/
def execCopyPacketComplete (qid n code : Nat) (bytes : List Byte) (s : State) : Out :=
  .next (match (s.queue qid).bind fun q => q.packets.find? fun p =>
      p.seq == n && p.started && (slotType p.slot == 2 || slotType p.slot == 3) with
    | none => s
    | some p =>
      let va := slotBody p.slot 0
      if code = 11 then (s.mapDev (·.count ctrUelink)).finishPacket qid n 3 11
      else if code = 12 then s.finishPacket qid n 3 12
      else if code ≠ 0 then s
      else if slotType p.slot = 3 then s.finishPacket qid n 1 0
      else if bytes.length ≠ (slotBody p.slot 16).toNat then s
      else match s.copyinWrite va bytes with
        | (t, none) => t.finishPacket qid n 1 0
        | (t, some d) => (t.noteDeny hostAgent d).finishPacket qid n 3 (signalCode d))

def execSignal (qid n : Nat) (s : State) : Out :=
  .next (match s.readyPacket qid n 4 with
    | none => s
    | some p =>
      match s.engineWrite hostAgent (slotBody p.slot 0) (bytesOf 8 (slotBody p.slot 8).toNat) with
      | .ok t => t.finishPacket qid n 1 0
      | .error d => (s.noteDeny hostAgent d).finishPacket qid n 3 (signalCode d))

def execWait (qid n : Nat) (s : State) : Out :=
  .next (match s.readyPacket qid n 5 with
    | none => s
    | some p =>
      match s.engineRead hostAgent (slotBody p.slot 0) 8 with
      | .ok (w, _, t) => if (slotBody p.slot 8).toNat ≤ w then t.finishPacket qid n 1 0 else t
      | .error d => s.noteDeny hostAgent d)

/-- Every earlier packet of the queue has signalled. -/
def State.allBefore (s : State) (qid n : Nat) : Bool :=
  (s.queue qid).all fun q => q.packets.all fun p => decide (n ≤ p.seq)

def execBarrier (qid n : Nat) (s : State) : Out :=
  .next (match s.readyPacket qid n 6 with
    | none => s
    | some _ => if s.allBefore qid n then s.finishPacket qid n 1 0 else s)

/-- An accepted QRESET acts (R402). A teardown waits for a CONTRA, CONTRAV or WRESET until the core has retired it or trapped
(R430, R424): until then the event brings the umpires' answer (log entry 79). -/
def execQreset (qid n : Nat) (s : State) : Out :=
  .next (match (s.readyPacket qid n 9).filter fun _ => !s.ctx.faulted with
    | none => s
    | some p =>
      let tears := bitAt (slotBody p.slot 0) 0
      let s := if tears then s.retireOn qid else s
      if tears && !s.queueAtBoundary qid then s else
      let t := s.mapQueue qid fun q => { q with packets := q.packets.filter fun p => p.seq != n }
      let t := if tears then t.tearDown qid else t
      let t := t.mapQueue qid fun q =>
        { q with
          rc := q.rc + 1, wc := q.rc + 1, cause := 0, badwc := 0, state := .active, packets := q.packets ++ [p] }
      (t.showQueue qid).signalPacket qid n 1 0)

/-! ### RMA (R391, R220) -/

/-- The key is one that firmware issued with a queue of the context. -/
def Context.keyed (k : Context) (key : Half) : Bool := k.queues.any fun q => q.2.key == key

/-- An RMA access refused: nothing changes but the count of an error of the second tier (R458). -/
def State.nak (s : State) (d : Deny) : State := (s.noteDeny rmaAgent d).reply .nak

/-- An access at the command endpoint of a context; one with no such context, or with another key, is refused (R391). -/
def State.atEndpoint (s : State) (target : RmaTarget) (f : State → State) : State :=
  if !s.hasContext target.ctxid then s.reply .nak
  else s.inContext target.ctxid fun t => if t.ctx.keyed target.key then f t else t.reply .nak

def execRmaWrite (va : Word) (bytes : List Byte) (target : RmaTarget) (s : State) : Out :=
  .next (s.atEndpoint target fun t =>
    match t.hostPieces (piecesOf va bytes.length) bytes with
    | (u, none) => u
    | (_, some d) => t.nak d)

def execRmaRead (va : Word) (len : Nat) (target : RmaTarget) (s : State) : Out :=
  .next (s.atEndpoint target fun t =>
    match t.readSpan rmaAgent va len with
    | .ok (bs, _, u) => u.reply (.rma bs)
    | .error d => t.nak d)

/-! ### PTP (R403, R439) -/

/-- Every leased copy dropped. -/
def Device.dropLeases (d : Device) : Device := d.leasesHeld.foldl (fun d l => d.dropLine l.line) d

/-- The servo leaves LOCKED: leased copies go, and leases granted no longer end by PTP time (R439, R440). -/
def Device.unlockPtp (d : Device) : Device :=
  if d.ptp.locked then
    { (d.count ctrPtpunlk).dropLeases with
      ptp := { d.ptp with locked := false, good := 0 }
      leasesGranted := d.leasesGranted.map fun l => { l with trusted := false } }
  else { d with ptp := { d.ptp with good := 0 } }

/-- Some leased region's guard band is too narrow for the offset (R439). -/
def Device.bandPassed (d : Device) : Bool :=
  d.pool.any fun e => e.2.valid && e.2.leased && decide (125 * e.2.gbq.toNat < d.ptp.offset.natAbs)

/-- One Sync interval with its measured offset in ns, the PTP time in ns and the grandmaster. An offset beyond half a guard
band makes every leased region uncacheable until 16 good intervals in a row lock the servo anew (R439, log entry 45). -/
def Device.sync (d : Device) (offset : Int) (time gm : Nat) : Device :=
  let lost := decide (offset.natAbs > 1000) || decide (gm ≠ d.ptp.gm)
  let d := if lost then d.unlockPtp else d
  let good := if offset.natAbs ≤ 250 then d.ptp.good + 1 else 0
  let d := { d with
    ptp := { d.ptp with
      good := good, locked := d.ptp.locked || decide (16 ≤ good), offset := offset, time := 11 * time, gm := gm
      block := d.ptp.block && decide (good < 16) } }
  if d.bandPassed then { d.dropLeases with ptp := { d.ptp with block := true } } else d

def execPtpSync (offset : Int) (time gm : Nat) (s : State) : Out := .next (s.mapDev (·.sync offset time gm))

/-- No Sync for four intervals. -/
def execPtpSyncLoss (s : State) : Out := .next (s.mapDev Device.unlockPtp)

end Sys2Proof.Machine
end

