-- ==== Sys2Proof/Machine/Loss.lean ====
section
/-! DEFINITION. A unit lost at run time (R435, R456): the device-level fault, what ends with it, what the grants lose. -/

namespace Sys2Proof.Machine

/-- Operations of the context that moves that are in flight on the port, which a free value picks, end with LINK (R291). -/
def State.cutRemotes (s : State) (cl : Nat) : State :=
  ((s.cluster cl).remotes.filter s.linked).foldl (fun t r =>
    if t.freeNat 0 % 2 = 0 then t.drawn else (t.drawn.failRemote cl r 11).mapDev (·.count ctrUelink)) s

/-- The transfers of a queue that are in flight on it end with LINK (R400). -/
def State.cutPackets (s : State) (qid : Nat) : State :=
  match s.queue qid with
  | none => s
  | some q =>
    (q.packets.filter fun p => p.started && (slotType p.slot == 2 || slotType p.slot == 3)).foldl (fun t p =>
      if t.freeNat 0 % 2 = 0 then t.drawn
      else (t.drawn.mapDev (·.count ctrUelink)).finishPacket qid p.seq 3 11) s

/-- An Ultra Ethernet port lost, seen from the context that moves; what is in flight while it stands stopped is sent again
after its restore (R425). -/
def State.cutPort (s : State) : State :=
  let s := if s.ctx.stopped then s else (List.range s.ctx.nclus).foldl State.cutRemotes s
  (s.ctx.queues.map Prod.fst).foldl State.cutPackets s

/-- A CXL port lost: accesses behind it end with MEMERR, and firmware takes its range out of every grant at the stroke tick
(R435, R456; log entry 78). -/
def State.losePort (s : State) (num : Nat) : State :=
  s.mapDev fun d => { d with cxlFailed := (num :: d.cxlFailed).eraseDups }

/-- A lost unit at run time (R456); the last management core or I/O die is answered as a device-level fault (log entry 84). -/
def execUnitLoss (kind : UnitKind) (num : Nat) (s : State) : Out :=
  let s := s.mapDev fun d => { d with lostUnits := d.lostUnits ++ [(kind, num)] }
  .next (match kind with
    | .core | .crew | .cluster | .die | .stack | .matrixEngine | .copyUnit | .transformCore | .sweepUnit | .l2Slice =>
      s.deviceFault 1
    | .uePort => s.inEvery State.cutPort
    | .cxlPort => s.losePort num
    | .mgmtCore | .ioDie => if s.dev.mute then (s.deviceFault 1).mapDev (·.safeTalkative) else s)

end Sys2Proof.Machine
end

