-- ==== Sys2Proof/Machine/Pool.lean ====
section
/-! DEFINITION. The shared pool (R437 to R441): serving leases to other devices, leased copies, back-invalidation,
incarnations. -/

namespace Sys2Proof.Machine

/-- A request of another device carries its current incarnation (R441). -/
def Device.current (d : Device) (dev : Nat) (inc : BitVec 16) : Bool := (lookup d.peers dev).all (· == inc)

/-- The owner serves a cacheable read of another device, after every write that waits at the line (R438, R440). -/
def execPoolReadMiss (line dev inc : Nat) (s : State) : Out :=
  let inc := BitVec.ofNat 16 inc
  .next (match s.dev.owned line with
    | none => s
    | some r =>
      if !s.dev.current dev inc then s.reply .nak
      else if s.dev.poolWrites.any fun w => w.line == line && w.writes then s
      else
        let data := s.dev.bytes line 64
        if s.dev.ptp.locked then
          let expiry := s.dev.ptp.time + 11000 * r.ldur.toNat
          (s.mapDev fun d =>
            { d with
              leasesGranted := d.leasesGranted ++ [⟨line, dev, inc, expiry, d.cycle.toNat, true⟩] }).reply
            (.poolLine data (some expiry))
        else s.reply (.poolLine data none))

/-- The holder drops a copy whose T_exp has passed (R439). -/
def execPoolLeaseExpiry (line : Nat) (s : State) : Out :=
  .next (if s.dev.leasesHeld.any fun l => l.line == line && decide (l.expiry ≤ s.dev.ptp.time) then
      s.mapDev (·.dropLine line)
    else s)

/-- Bytes that the request reaches. -/
def PoolWrite.size (w : PoolWrite) : Nat :=
  match w.op with
  | .write => w.bytes.length
  | .read n => n
  | .amo _ v => v.size
  | .cas v => v.size
  | .famo _ => 4
  | .csum => 8

/-- The bytes that stand where the request has been served, `old` being those it finds (R168 to R171, R438). -/
def PoolWrite.result (w : PoolWrite) (old : List Byte) : List Byte :=
  let n := natOf old
  let v := natOf w.bytes
  match w.op with
  | .write => w.bytes
  | .read _ => old
  | .amo op u => bytesOf u.size (op.apply (8 * u.size) n (v % 2 ^ (8 * u.size)))
  | .cas u => bytesOf u.size (if n = v % 2 ^ (8 * u.size) then v / 2 ^ (8 * u.size) % 2 ^ (8 * u.size) else n)
  | .famo op => bytesOf 4 (op.apply n (v % 2 ^ 32)).1
  | .csum =>
    let r := csumStep (n % 2 ^ 32) (n / 2 ^ 32) (v % 2 ^ 32)
    bytesOf 8 (r.1 + 2 ^ 32 * r.2)

/-- The requester gets what its read or its atomic found. -/
def PoolWrite.answer (w : PoolWrite) (old : List Byte) : List Reply :=
  match w.op with
  | .write => []
  | .read _ | .amo _ _ | .cas _ | .famo _ | .csum => [.poolOld w.dev old]

/-- The first request that waits at the line, another device's, is served: one of an older incarnation is rejected (R441), a
read is served at once, without a lease, and what writes once every lease of the line is over (R438, R440); then no copy of
what the line held before is left. -/
def Device.applyWrite (d : Device) (line : Nat) : Device :=
  match d.owned line, d.poolWrites.find? fun w => w.line == line with
  | some r, some w =>
    let old := d.bytes (line + w.off) w.size
    if w.own then d
    else if !d.current w.dev w.inc then { d with poolWrites := d.poolWrites.erase w, replies := d.replies ++ [.nak] }
    else if !w.writes then { d with poolWrites := d.poolWrites.erase w, replies := d.replies ++ w.answer old }
    else if (d.leasesGranted.filter fun l => l.line == line).all (d.leaseOver r) then
      let d := { d with
        poolWrites := d.poolWrites.erase w, leasesGranted := d.leasesGranted.filter fun l => l.line != line
        replies := d.replies ++ w.answer old }
      ((d.note (line + w.off) w.size .outside).poke (line + w.off) (w.result old)).dropLine line
    else d
  | _, _ => d

def execPoolWriteApply (line : Nat) (s : State) : Out := .next (s.mapDev (·.applyWrite line))

/-- A snoop of the pool device on a line of a region with MODE 0 (R437). -/
def execBackInvalidate (line : Nat) (s : State) : Out :=
  let region := lookup s.dev.pool ((line - 12 * 2 ^ 40) / 2 ^ 30)
  let free := decide (12 * 2 ^ 40 ≤ line) && region.any fun r => r.valid && !r.leased
  .next (if free then s.mapDev (·.dropLine line) else s)

/-- This device binds: its caches hold no pool line, and what it sent under the older incarnation is discarded (R441). -/
def Device.bind (d : Device) (inc : BitVec 16) : Device :=
  let lines := (d.held.map Prod.fst).filter fun l => decide (12 * 2 ^ 40 ≤ l ∧ l < 2 ^ 44)
  { (lines.foldl Device.dropLine d).dropPlaces with incarnation := inc, bound := true }

/-- Another device binds: every older lease and waiting write of it goes (R441). -/
def Device.bindPeer (d : Device) (dev : Nat) (inc : BitVec 16) : Device :=
  { d with
    peers := insertAt dev inc d.peers
    leasesGranted := d.leasesGranted.filter fun l => !(l.dev == dev && l.inc != inc)
    poolWrites := d.poolWrites.filter fun w => !(w.dev == dev && w.inc != inc) }

def execFabricBind (dev inc : Nat) (s : State) : Out :=
  .next (s.mapDev fun d =>
    if dev = Config.routingId.toNat then d.bind (BitVec.ofNat 16 inc) else d.bindPeer dev (BitVec.ofNat 16 inc))

end Sys2Proof.Machine
end

