-- ==== Sys2Proof/Machine/Dispatch.lean ====
section
/-! DEFINITION. The meaning of every constructor of Instr: one arm, one call. -/

namespace Sys2Proof.Machine

def exec (i : Instr) (s : State) : Host.Outcome State Fault Refusal :=
  match i with
  | .j off => Sys2Proof.Machine.execJ off s
  | .jl off => Sys2Proof.Machine.execJl off s
  | .beq a b off => Sys2Proof.Machine.execBeq a b off s
  | .bne a b off => Sys2Proof.Machine.execBne a b off s
  | .blt a b off => Sys2Proof.Machine.execBlt a b off s
  | .bge a b off => Sys2Proof.Machine.execBge a b off s
  | .bltu a b off => Sys2Proof.Machine.execBltu a b off s
  | .bgeu a b off => Sys2Proof.Machine.execBgeu a b off s
  | .jlr d a imm => Sys2Proof.Machine.execJlr d a imm s
  | .jr a imm => Sys2Proof.Machine.execJr a imm s
  | .loop a imm => Sys2Proof.Machine.execLoop a imm s
  | .loopi n imm => Sys2Proof.Machine.execLoopi n imm s
  | .lb d a off => Sys2Proof.Machine.execLb d a off s
  | .lbu d a off => Sys2Proof.Machine.execLbu d a off s
  | .lh d a off => Sys2Proof.Machine.execLh d a off s
  | .lhu d a off => Sys2Proof.Machine.execLhu d a off s
  | .lw d a off => Sys2Proof.Machine.execLw d a off s
  | .lwu d a off => Sys2Proof.Machine.execLwu d a off s
  | .ld d a off => Sys2Proof.Machine.execLd d a off s
  | .flw d a off => Sys2Proof.Machine.execFlw d a off s
  | .sb d a off => Sys2Proof.Machine.execSb d a off s
  | .sh d a off => Sys2Proof.Machine.execSh d a off s
  | .sw d a off => Sys2Proof.Machine.execSw d a off s
  | .sd d a off => Sys2Proof.Machine.execSd d a off s
  | .fsw d a off => Sys2Proof.Machine.execFsw d a off s
  | .vld d a imm => Sys2Proof.Machine.execVld d a imm s
  | .vst d a imm => Sys2Proof.Machine.execVst d a imm s
  | .vlds d a b pg => Sys2Proof.Machine.execVlds d a b pg s
  | .vsts d a b pg => Sys2Proof.Machine.execVsts d a b pg s
  | .vldx d a b pg => Sys2Proof.Machine.execVldx d a b pg s
  | .vstx d a b pg => Sys2Proof.Machine.execVstx d a b pg s
  | .amo op w ord sc d a => Sys2Proof.Machine.execAmo op w ord sc d a s
  | .cas w ord sc d a => Sys2Proof.Machine.execCas w ord sc d a s
  | .famo op ord sc d a => Sys2Proof.Machine.execFamo op ord sc d a s
  | .csum ord sc d a => Sys2Proof.Machine.execCsum ord sc d a s
  | .cwb a => Sys2Proof.Machine.execCwb a s
  | .cinv a => Sys2Proof.Machine.execCinv a s
  | .cflush a => Sys2Proof.Machine.execCflush a s
  | .wbrow a => Sys2Proof.Machine.execWbrow a s
  | .invrow a => Sys2Proof.Machine.execInvrow a s
  | .fence kinds sc => Sys2Proof.Machine.execFence kinds sc s
  | .fencesc => Sys2Proof.Machine.execFencesc s
  | .arrive g a => Sys2Proof.Machine.execArrive g a s
  | .waitc d g => Sys2Proof.Machine.execWaitc d g s
  | .catchq d g => Sys2Proof.Machine.execCatchq d g s
  | .waitk k a => Sys2Proof.Machine.execWaitk k a s
  | .waitt a b => Sys2Proof.Machine.execWaitt a b s
  | .krd d k a => Sys2Proof.Machine.execKrd d k a s
  | .kadd k a => Sys2Proof.Machine.execKadd k a s
  | .spawn a b => Sys2Proof.Machine.execSpawn a b s
  | .join => Sys2Proof.Machine.execJoin s
  | .finish a => Sys2Proof.Machine.execFinish a s
  | .suspk k a d => Sys2Proof.Machine.execSuspk k a d s
  | .suspt a => Sys2Proof.Machine.execSuspt a s
  | .yield => Sys2Proof.Machine.execYield s
  | .assume d a b => Sys2Proof.Machine.execAssume d a b s
  | .assumev d a b => Sys2Proof.Machine.execAssumev d a b s
  | .lblof d a => Sys2Proof.Machine.execLblof d a s
  | .lblset d a b => Sys2Proof.Machine.execLblset d a b s
  | .ljoin d a b => Sys2Proof.Machine.execLjoin d a b s
  | .contra a => Sys2Proof.Machine.execContra a s
  | .contrav a => Sys2Proof.Machine.execContrav a s
  | .ltest d a => Sys2Proof.Machine.execLtest d a s
  | .lenv d a b => Sys2Proof.Machine.execLenv d a b s
  | .wreset => Sys2Proof.Machine.execWreset s
  | .lld d a => Sys2Proof.Machine.execLld d a s
  | .lst d a => Sys2Proof.Machine.execLst d a s
  | .jsub d a => Sys2Proof.Machine.execJsub d a s
  | .jpoll d a => Sys2Proof.Machine.execJpoll d a s
  | .jcancel d a => Sys2Proof.Machine.execJcancel d a s
  | .get k a => Sys2Proof.Machine.execGet k a s
  | .getx k a => Sys2Proof.Machine.execGetx k a s
  | .send k a => Sys2Proof.Machine.execSend k a s
  | .sendx k a => Sys2Proof.Machine.execSendx k a s
  | .smode v a => Sys2Proof.Machine.execSmode v a s
  | .soff v => Sys2Proof.Machine.execSoff v s
  | .rcopy k a => Sys2Proof.Machine.execRcopy k a s
  | .rfill k a => Sys2Proof.Machine.execRfill k a s
  | .rbool op k a => Sys2Proof.Machine.execRbool op k a s
  | .rpromo pin k a => Sys2Proof.Machine.execRpromo pin k a s
  | .rdemo k a => Sys2Proof.Machine.execRdemo k a s
  | .ired fast k a => Sys2Proof.Machine.execIred fast k a s
  | .edgerun k a => Sys2Proof.Machine.execEdgerun k a s
  | .crr d n => Sys2Proof.Machine.execCrr d n s
  | .crw n a => Sys2Proof.Machine.execCrw n a s
  | .crs d n a => Sys2Proof.Machine.execCrs d n a s
  | .crc d n a => Sys2Proof.Machine.execCrc d n a s
  | .svc n => Sys2Proof.Machine.execSvc n s
  | .eret => Sys2Proof.Machine.execEret s
  | .upret => Sys2Proof.Machine.execUpret s
  | .feat d n => Sys2Proof.Machine.execFeat d n s
  | .invpg a => Sys2Proof.Machine.execInvpg a s
  | .dtld bank a => Sys2Proof.Machine.execDtld bank a s
  | .edgeret a => Sys2Proof.Machine.execEdgeret a s
  | .edgeskip => Sys2Proof.Machine.execEdgeskip s
  | .edgedone => Sys2Proof.Machine.execEdgedone s
  | .upi d imm => Sys2Proof.Machine.execUpi d imm s
  | .aupc d imm => Sys2Proof.Machine.execAupc d imm s
  | .add d a b => Sys2Proof.Machine.execAdd d a b s
  | .sub d a b => Sys2Proof.Machine.execSub d a b s
  | .and d a b => Sys2Proof.Machine.execAnd d a b s
  | .or d a b => Sys2Proof.Machine.execOr d a b s
  | .xor d a b => Sys2Proof.Machine.execXor d a b s
  | .shl d a b => Sys2Proof.Machine.execShl d a b s
  | .shr d a b => Sys2Proof.Machine.execShr d a b s
  | .sra d a b => Sys2Proof.Machine.execSra d a b s
  | .slt d a b => Sys2Proof.Machine.execSlt d a b s
  | .sltu d a b => Sys2Proof.Machine.execSltu d a b s
  | .min d a b => Sys2Proof.Machine.execMin d a b s
  | .max d a b => Sys2Proof.Machine.execMax d a b s
  | .minu d a b => Sys2Proof.Machine.execMinu d a b s
  | .maxu d a b => Sys2Proof.Machine.execMaxu d a b s
  | .clz d a => Sys2Proof.Machine.execClz d a s
  | .popc d a => Sys2Proof.Machine.execPopc d a s
  | .mul d a b => Sys2Proof.Machine.execMul d a b s
  | .mulh d a b => Sys2Proof.Machine.execMulh d a b s
  | .mulhu d a b => Sys2Proof.Machine.execMulhu d a b s
  | .div d a b => Sys2Proof.Machine.execDiv d a b s
  | .divu d a b => Sys2Proof.Machine.execDivu d a b s
  | .rem d a b => Sys2Proof.Machine.execRem d a b s
  | .remu d a b => Sys2Proof.Machine.execRemu d a b s
  | .addi d a imm => Sys2Proof.Machine.execAddi d a imm s
  | .andi d a imm => Sys2Proof.Machine.execAndi d a imm s
  | .ori d a imm => Sys2Proof.Machine.execOri d a imm s
  | .xori d a imm => Sys2Proof.Machine.execXori d a imm s
  | .slti d a imm => Sys2Proof.Machine.execSlti d a imm s
  | .sltiu d a imm => Sys2Proof.Machine.execSltiu d a imm s
  | .shli d a n => Sys2Proof.Machine.execShli d a n s
  | .shri d a n => Sys2Proof.Machine.execShri d a n s
  | .srai d a n => Sys2Proof.Machine.execSrai d a n s
  | .fadd rm d a b => Sys2Proof.Machine.execFadd rm d a b s
  | .fsub rm d a b => Sys2Proof.Machine.execFsub rm d a b s
  | .fmul rm d a b => Sys2Proof.Machine.execFmul rm d a b s
  | .fdiv rm d a b => Sys2Proof.Machine.execFdiv rm d a b s
  | .ffma rm d a b => Sys2Proof.Machine.execFfma rm d a b s
  | .fmin d a b => Sys2Proof.Machine.execFmin d a b s
  | .fmax d a b => Sys2Proof.Machine.execFmax d a b s
  | .fcmp cc d a b => Sys2Proof.Machine.execFcmp cc d a b s
  | .fsqrt rm d a => Sys2Proof.Machine.execFsqrt rm d a s
  | .fcvtfi rm it d a => Sys2Proof.Machine.execFcvtfi rm it d a s
  | .fcvtif rm it d a => Sys2Proof.Machine.execFcvtif rm it d a s
  | .fmvxf d a => Sys2Proof.Machine.execFmvxf d a s
  | .fmvfx d a => Sys2Proof.Machine.execFmvfx d a s
  | .fclass d a => Sys2Proof.Machine.execFclass d a s
  | .vadd t d a b pg => Sys2Proof.Machine.execVadd t d a b pg s
  | .vsub t d a b pg => Sys2Proof.Machine.execVsub t d a b pg s
  | .vmul t d a b pg => Sys2Proof.Machine.execVmul t d a b pg s
  | .vfma t d a b pg => Sys2Proof.Machine.execVfma t d a b pg s
  | .vfms t d a b pg => Sys2Proof.Machine.execVfms t d a b pg s
  | .vmin t d a b pg => Sys2Proof.Machine.execVmin t d a b pg s
  | .vmax t d a b pg => Sys2Proof.Machine.execVmax t d a b pg s
  | .vabs t d a pg => Sys2Proof.Machine.execVabs t d a pg s
  | .vneg t d a pg => Sys2Proof.Machine.execVneg t d a pg s
  | .vand t d a b pg => Sys2Proof.Machine.execVand t d a b pg s
  | .vor t d a b pg => Sys2Proof.Machine.execVor t d a b pg s
  | .vxor t d a b pg => Sys2Proof.Machine.execVxor t d a b pg s
  | .vshl t d a b pg => Sys2Proof.Machine.execVshl t d a b pg s
  | .vshr t d a b pg => Sys2Proof.Machine.execVshr t d a b pg s
  | .vsra t d a b pg => Sys2Proof.Machine.execVsra t d a b pg s
  | .vsel t d a b pg => Sys2Proof.Machine.execVsel t d a b pg s
  | .vcmp cc t p a b pg => Sys2Proof.Machine.execVcmp cc t p a b pg s
  | .vcvt t src d a pg => Sys2Proof.Machine.execVcvt t src d a pg s
  | .venc bank nan t d a pg => Sys2Proof.Machine.execVenc bank nan t d a pg s
  | .vdec bank t d a pg => Sys2Proof.Machine.execVdec bank t d a pg s
  | .vscale t d a b pg => Sys2Proof.Machine.execVscale t d a b pg s
  | .vreds t d a pg => Sys2Proof.Machine.execVreds t d a pg s
  | .vredm t d a pg => Sys2Proof.Machine.execVredm t d a pg s
  | .vexp2 t d a pg => Sys2Proof.Machine.execVexp2 t d a pg s
  | .vrcp t d a pg => Sys2Proof.Machine.execVrcp t d a pg s
  | .vrsq t d a pg => Sys2Proof.Machine.execVrsq t d a pg s
  | .vperm t d a b pg => Sys2Proof.Machine.execVperm t d a b pg s
  | .vbcast t d a pg => Sys2Proof.Machine.execVbcast t d a pg s
  | .vins t d a b => Sys2Proof.Machine.execVins t d a b s
  | .vext t d a b => Sys2Proof.Machine.execVext t d a b s
  | .vmov t d a pg => Sys2Proof.Machine.execVmov t d a pg s
  | .pset t p a => Sys2Proof.Machine.execPset t p a s
  | .plog op d a b => Sys2Proof.Machine.execPlog op d a b s
  | .mmabb shape acc z a b => Sys2Proof.Machine.execMmabb shape acc z a b s
  | .mmahh shape acc z a b => Sys2Proof.Machine.execMmahh shape acc z a b s
  | .mmaee shape acc z a b vs => Sys2Proof.Machine.execMmaee shape acc z a b vs s
  | .mmaef shape acc z a b vs => Sys2Proof.Machine.execMmaef shape acc z a b vs s
  | .mmaff shape acc z a b vs => Sys2Proof.Machine.execMmaff shape acc z a b vs s
  | .mmaii shape acc z a b => Sys2Proof.Machine.execMmaii shape acc z a b s
  | .macq n => Sys2Proof.Machine.execMacq n s
  | .mrel => Sys2Proof.Machine.execMrel s
  | .mzero acc => Sys2Proof.Machine.execMzero acc s
  | .mlda acc a => Sys2Proof.Machine.execMlda acc a s
  | .msta acc a => Sys2Proof.Machine.execMsta acc a s
  | .msync => Sys2Proof.Machine.execMsync s
  | .mskld d a b => Sys2Proof.Machine.execMskld d a b s
  | .hpref d a b => Sys2Proof.Machine.execHpref d a b s
  | .longLatencyResultReturn cl core idx => Sys2Proof.Machine.execLongLatencyResultReturn cl core idx s
  | .dispatch cl core => Sys2Proof.Machine.execDispatch cl core s
  | .recordAging cl rec => Sys2Proof.Machine.execRecordAging cl rec s
  | .gangReserve cl core => Sys2Proof.Machine.execGangReserve cl core s
  | .gangwaitExpiry cl rec => Sys2Proof.Machine.execGangwaitExpiry cl rec s
  | .recordWake cl rec => Sys2Proof.Machine.execRecordWake cl rec s
  | .coreParkWake cl core => Sys2Proof.Machine.execCoreParkWake cl core s
  | .fencescTickEnd cl core => Sys2Proof.Machine.execFencescTickEnd cl core s
  | .strokeTick => Sys2Proof.Machine.execStrokeTick s
  | .upcallDelivery cl core => Sys2Proof.Machine.execUpcallDelivery cl core s
  | .contraRetire cl core => Sys2Proof.Machine.execContraRetire cl core s
  | .wresetRetire cl core => Sys2Proof.Machine.execWresetRetire cl core s
  | .leaseGrant cl crew => Sys2Proof.Machine.execLeaseGrant cl crew s
  | .matrixCommandComplete cl crew => Sys2Proof.Machine.execMatrixCommandComplete cl crew s
  | .matrixHalt cl crew => Sys2Proof.Machine.execMatrixHalt cl crew s
  | .jobStart cl crew => Sys2Proof.Machine.execJobStart cl crew s
  | .jobComplete cl crew id => Sys2Proof.Machine.execJobComplete cl crew id s
  | .jobFault cl crew id => Sys2Proof.Machine.execJobFault cl crew id s
  | .transformTimeout cl crew id => Sys2Proof.Machine.execTransformTimeout cl crew id s
  | .faultRecordPoll slot => Sys2Proof.Machine.execFaultRecordPoll slot s
  | .streamStripFetch cl core v => Sys2Proof.Machine.execStreamStripFetch cl core v s
  | .remoteLand cl op item bytes lbl => Sys2Proof.Machine.execRemoteLand cl op item bytes lbl s
  | .remoteFailure cl op byTarget => Sys2Proof.Machine.execRemoteFailure cl op byTarget s
  | .rowOpExecute cl op => Sys2Proof.Machine.execRowOpExecute cl op s
  | .rpromoComplete cl op => Sys2Proof.Machine.execRpromoComplete cl op s
  | .rdemoComplete cl op => Sys2Proof.Machine.execRdemoComplete cl op s
  | .iredExecute cl op => Sys2Proof.Machine.execIredExecute cl op s
  | .edgeRunStart cl => Sys2Proof.Machine.execEdgeRunStart cl s
  | .superstep cl => Sys2Proof.Machine.execSuperstep cl s
  | .edgeInvocation cl core => Sys2Proof.Machine.execEdgeInvocation cl core s
  | .edgeRunFault cl => Sys2Proof.Machine.execEdgeRunFault cl s
  | .pageWalkComplete cl va => Sys2Proof.Machine.execPageWalkComplete cl va s
  | .shootdownService => Sys2Proof.Machine.execShootdownService s
  | .unloadFree base => Sys2Proof.Machine.execUnloadFree base s
  | .gangStop => Sys2Proof.Machine.execGangStop s
  | .contextRestore ctxid part tables => Sys2Proof.Machine.execContextRestore ctxid part tables s
  | .contextCreate desc => Sys2Proof.Machine.execContextCreate desc s
  | .contextDestroy ctxid => Sys2Proof.Machine.execContextDestroy ctxid s
  | .deviceFault => Sys2Proof.Machine.execDeviceFault s
  | .queueCreate desc => Sys2Proof.Machine.execQueueCreate desc s
  | .doorbell msg => Sys2Proof.Machine.execDoorbell msg s
  | .rmaWrite va bytes target => Sys2Proof.Machine.execRmaWrite va bytes target s
  | .rmaRead va len target => Sys2Proof.Machine.execRmaRead va len target s
  | .packetDependencyMet qid n => Sys2Proof.Machine.execPacketDependencyMet qid n s
  | .launch qid n => Sys2Proof.Machine.execLaunch qid n s
  | .copyin qid n => Sys2Proof.Machine.execCopyin qid n s
  | .copyout qid n => Sys2Proof.Machine.execCopyout qid n s
  | .signal qid n => Sys2Proof.Machine.execSignal qid n s
  | .wait qid n => Sys2Proof.Machine.execWait qid n s
  | .barrier qid n => Sys2Proof.Machine.execBarrier qid n s
  | .load qid n => Sys2Proof.Machine.execLoad qid n s
  | .unload qid n => Sys2Proof.Machine.execUnload qid n s
  | .qreset qid n => Sys2Proof.Machine.execQreset qid n s
  | .ptpSync offset time gm => Sys2Proof.Machine.execPtpSync offset time gm s
  | .ptpSyncLoss => Sys2Proof.Machine.execPtpSyncLoss s
  | .poolReadMiss line dev inc => Sys2Proof.Machine.execPoolReadMiss line dev inc s
  | .poolLeaseExpiry line => Sys2Proof.Machine.execPoolLeaseExpiry line s
  | .poolWriteApply line => Sys2Proof.Machine.execPoolWriteApply line s
  | .backInvalidate line => Sys2Proof.Machine.execBackInvalidate line s
  | .fabricBind dev inc => Sys2Proof.Machine.execFabricBind dev inc s
  | .powerOnReset selfTest image => Sys2Proof.Machine.execPowerOnReset selfTest image s
  | .firmwareFetchRetry image => Sys2Proof.Machine.execFirmwareFetchRetry image s
  | .firmwareFetch image => Sys2Proof.Machine.execFirmwareFetch image s
  | .statusRequest => Sys2Proof.Machine.execStatusRequest s
  | .routineLoad ctxid id image => Sys2Proof.Machine.execRoutineLoad ctxid id image s
  | .attestationRequest nonce => Sys2Proof.Machine.execAttestationRequest nonce s
  | .svnRaise svn => Sys2Proof.Machine.execSvnRaise svn s
  | .healthRequest => Sys2Proof.Machine.execHealthRequest s
  | .telemetryRequest => Sys2Proof.Machine.execTelemetryRequest s
  | .powerCapSet units => Sys2Proof.Machine.execPowerCapSet units s
  | .currentLimit => Sys2Proof.Machine.execCurrentLimit s
  | .thermalThrottle die => Sys2Proof.Machine.execThermalThrottle die s
  | .thermalTrip die => Sys2Proof.Machine.execThermalTrip die s
  | .unitLoss kind num => Sys2Proof.Machine.execUnitLoss kind num s
  | .currentFallsBelowLimit => Sys2Proof.Machine.execCurrentFallsBelowLimit s
  | .throttleLevelChange level => Sys2Proof.Machine.execThrottleLevelChange level s
  | .copyPacketComplete qid n code bytes => Sys2Proof.Machine.execCopyPacketComplete qid n code bytes s

end Sys2Proof.Machine
end

