-- ==== Sys2Proof/Machine/Issue.lean ====
section
/-! DEFINITION. One issue of the core that moves: fetching a container, the checks of R50, hazards (R52), stream
pops (R293), lone words and pairs (R47, R48), the switch marker (R51). -/

namespace Sys2Proof.Machine

/-- The smallest scope that contains the writer, from the core that moves (R142). -/
def State.scopeOf (s : State) (w : Writer) : Nat :=
  let near (ctx cl : Nat) : Bool := decide (ctx = s.ctx.desc.ctxid) && decide (cl = s.focus.cl)
  match w with
  | .core ctx cl c =>
    if !near ctx cl then 3 else if c = s.focus.core then 0 else if crewOf c = crewOf s.focus.core then 1 else 2
  | .crew ctx cl n => if !near ctx cl then 3 else if n = crewOf s.focus.core then 1 else 2
  | .sweep ctx cl => if near ctx cl then 2 else 3
  | .device => 3
  | .outside => 4

/-- Some FENCE of the R kind, at a scope that contains the writer and followed by a transfer, orders the store
before the core's fetches (R137). -/
def State.fetchSees (s : State) (e : Superseded) : Bool :=
  (List.range 5).any fun sc => decide (s.scopeOf e.writer ≤ sc) && decide (e.seq < fileGet (by decide) s.core.fetchSync sc)

/-- Old doublewords that a fetch may still return: what the stores after the last one that it sees replaced. -/
def State.staleCode (s : State) (loc : Nat) : List Word :=
  let now := BitVec.ofNat 64 (s.dev.num loc 8)
  let unseen := ((s.dev.log.filter fun e => e.loc == loc).reverse.takeWhile fun e => !s.fetchSees e).reverse
  (unseen.filter fun e => e.old != now).map Superseded.old

/-- The container fetched at a place, as (word0, word1): each word the current one, or one that free values pick
among the stale ones (R137). -/
def State.fetchWords (s : State) (p : Place) : (Half × Half) × State :=
  let loc := p.loc / 8 * 8
  let now := BitVec.ofNat 64 (s.dev.num loc 8)
  match s.staleCode loc with
  | [] => ((now.truncate 32, now.extractLsb' 32 32), s)
  | olds =>
    let pick (k : Nat) : Word := (olds[s.freeNat k % (olds.length + 1)]?).getD now
    (((pick 0).truncate 32, (pick 1).extractLsb' 32 32), s.drawn)

/-- A trap of the issue itself, on the state before it. -/
def State.issueTrap (s : State) (c : Cause) (info : Nat) (addr epc : Word) : Host.Outcome State Fault Refusal :=
  .next ((s.trapEntry ⟨c, BitVec.ofNat 64 info, addr, epc, false⟩).mapCore fun k => { k with trapped := none, latch := none })

/-- One register read or written with a result outstanding (R52): HAZ, and a free value decides whether the
result has returned. -/
def State.hazard (s : State) (r : Reg) : State :=
  if s.core.pending.any fun p => p.reg == r then
    let s := s.mapCore fun c => { c with status := { c.status with haz := true } }
    if s.freeNat 0 % 2 = 1 then
      s.drawn.mapCore fun c =>
        { c with
          regs := (c.pending.filter fun p => p.reg == r).foldl Regs.land c.regs
          pending := c.pending.filter fun p => p.reg != r }
    else s.drawn
  else s

def State.hazards (s : State) (i : Instr) : State := (sources i ++ dests i).eraseDups.foldl State.hazard s

/-- A pop of the stream on `v` (R293): the strip fetched ahead, or read now. -/
def State.popStream (s : State) (v : Nat) (t : Stream) : Result State := do
  let ((line, word), u) ← (match t.ahead with
    | a :: _ => .ok (a, s)
    | [] => s.check (s.readStrip s.me t t.pos))
  let (l, u) ← u.formConj [t.ctl, word]
  .ok (u.mapCore fun c =>
    { c with
      regs := c.regs.putV v line l
      streams := if t.pos + 1 ≥ t.n0 * t.n1 * t.n2 then eraseAt v c.streams
        else insertAt v { t with pos := t.pos + 1, ahead := t.ahead.drop 1 } c.streams })

/-- Every stream register among the sources popped once (R293). -/
def State.popStreams (s : State) : List Nat → Result State
  | [] => .ok s
  | v :: vs =>
    match lookup s.core.streams v with
    | none => s.popStreams vs
    | some t =>
      match s.popStream v t with
      | .error e => .error e
      | .ok u => u.popStreams vs

/-- Vector registers among the sources, each once. -/
def vectorSources (l : List Reg) : List Nat :=
  (l.filterMap fun r => match r with
    | .v n => some n
    | .x _ => none
    | .f _ => none
    | .p _ => none).eraseDups

/-- After an instruction that neither trapped, stalled nor waits: the switch marker (R51), which after an SVC parks the core at
its handler (log entry 86). -/
def State.mark (s : State) (sw : Bool) : State :=
  if sw ∧ s.core.pending ≠ [] ∧ s.core.park = none ∧ s.core.record.isSome then
    s.mapCore fun c => { c with park := some .marker }
  else s

/-- A container that waits has consumed no strip (R293): the streams and their registers stand as before. -/
def Core.unpop (c base : Core) : Core :=
  { c with
    streams := base.streams
    popped := base.popped
    regs := base.streams.foldl (fun r e =>
      r.putV e.1 (fileGet (by decide) base.regs.v e.1) (fileGet (by decide) base.regs.vl e.1)) c.regs }

/-- The waits at owned lines of the pool that `d'` has, with the places they keep. -/
def Device.waitsAs (d d' : Device) : Device :=
  if d'.awaited = [] then d else { d with awaited := d'.awaited, poolWrites := d'.poolWrites }

/-- What a container that stalls leaves: the state before it, but for set-aside matrix commands that an instruction of it
has resumed (R47, R257), and the lines of the pool at which it has to wait (R440). STATUS.HAZ stays if the attempt met a hazard
(R52; log entry 70). -/
def State.afterStall (base t : State) : State :=
  let kept := if t.core.aside.isEmpty then base.resumeAside else base
  (kept.mapCore fun c => { c with stalled := true, latch := none }).mapDev (·.waitsAs t.dev)

/-- The outcome of a container on the state before it: a trap is taken there as a whole and a stall leaves it (R47, R293); a
LATE is delivered where the container ends (R194). -/
def State.settleIssue (base : State) (sw : Bool) (o : Host.Outcome State Fault Refusal) :
    Host.Outcome State Fault Refusal :=
  match o with
  | .next t =>
    match t.core.trapped with
    | some tr => .next ((base.trapEntry tr).mapCore fun c => { c with trapped := none, latch := none })
    | none =>
      if t.core.stalled then .next (base.afterStall t)
      else if t.core.park.isSome then .next (t.mapCore fun c => { c.unpop base.core with latch := none })
      else .next ((t.mapCore fun c => { c.deliverLate with latch := none }).mark sw)
  | .fault f => .fault f
  | .refused r => .refused r

/-- The core with the issue latch set for a word. -/
def State.latchIssue (s : State) (addr : Word) (lone taken : Bool) : State :=
  s.mapCore fun c => { c with issue := ⟨addr, lone, taken⟩, trapped := none, late := none, stalled := false }

/-- MMA, MSTA and MSYNC: a deferred fault is taken before any check of theirs (R191). -/
def takesDeferred : Instr → Bool
  | .mmabb _ _ _ _ _ | .mmahh _ _ _ _ _ | .mmaee _ _ _ _ _ _ | .mmaef _ _ _ _ _ _ | .mmaff _ _ _ _ _ _
  | .mmaii _ _ _ _ _ | .msta _ _ | .msync => true
  | _ => false

/-- Forms with a vector source that an edge invocation refuses before any check (R330). -/
def edgeRefuses : Instr → Bool
  | .vst _ _ _ | .vsts _ _ _ _ | .vstx _ _ _ _ | .mmaee _ _ _ _ _ _ | .mmaef _ _ _ _ _ _ | .mmaff _ _ _ _ _ _
  | .contrav _ => true
  | _ => false

/-- The core runs an edge invocation, and no trap handler over it. -/
def Core.invoked (c : Core) : Bool := c.edge.any fun e => e.inv.isSome && decide (e.depth = 0)

/-- Vector registers that the instruction reads, whose streams it pops: none where it takes a deferred fault instead, or an
edge invocation refuses it. -/
def State.popsOf (s : State) (i : Instr) : List Nat :=
  if (takesDeferred i ∧ s.core.mfault.isSome) ∨ (edgeRefuses i ∧ s.core.invoked) then [] else vectorSources (sources i)

/-- The streams of word1 that word0 of the same lone container has popped already: both slots read one strip (R293). -/
def Core.poppedHere (c : Core) : List Nat :=
  match c.popped with
  | some (here, vs) => if here = container c.pc then vs else []
  | none => []

/-- The return of an invocation waits for what is outstanding before anything else of it (R341, R344). -/
def State.waitsFirst (s : State) : Instr → Bool
  | .edgeret _ | .edgeskip | .edgedone => s.core.invoked
  | _ => false

/-- The state in which a lone instruction issues. -/
def State.readied (s : State) (i : Instr) : State := if s.waitsFirst i then s.drain else s

/-- One word of a lone container (R48). -/
def State.issueLone (s : State) (i : Instr) (sw : Bool) : Host.Outcome State Fault Refusal :=
  let s := s.readied i
  let base := (s.latchIssue s.core.pc true false).hazards i
  let first := decide (slotOf s.core.pc = 0)
  let vs := (base.popsOf i).filter fun v => first || !s.core.poppedHere.contains v
  match base.popStreams vs with
  | .error e => base.settleIssue sw (commit base (.error e))
  | .ok t =>
    let mine := vs.filter fun v => (lookup base.core.streams v).isSome
    let t := t.mapCore fun c => { c with popped := if first then some (container c.pc, mine) else none }
    base.settleIssue sw (exec i t)

/-- The suspension points, which leave the core without a record (R22). -/
def suspends : Instr → Bool
  | .suspk _ _ _ | .suspt _ | .yield | .finish _ | .join => true
  | _ => false

/-- Word1 of the pair has executed, when its EDGERUN joined the run that it returns from or joins again. -/
def State.pairDone (s : State) : Bool := (lookup s.core.grants pairDoneSlot).isSome || s.rejoins

/-- The core parks. -/
def parks (o : Host.Outcome State Fault Refusal) : Bool :=
  match o with
  | .next t => t.core.park.isSome && t.core.trapped.isNone && !t.core.stalled
  | .fault _ => false
  | .refused _ => false

/-- Both words of a pair on the latched state (R47): word1 first on trial when word0 waits, for its trap or stall; a word1
that waits waits for the whole container. A suspension point leaves the core once word1 has executed (R50), and EDGERUN joins
its run then, as nothing undoes the run. -/
def State.runPair (base t : State) (i0 i1 : Instr) (sw : Bool) : Host.Outcome State Fault Refusal :=
  let here := t.core.issue.addr
  let at0 (u : State) := u.mapCore fun c => { c with issue := { c.issue with addr := here }, trapped := none }
  let at1 (u : State) := u.mapCore fun c => { c with issue := { c.issue with addr := here + 4 }, trapped := none }
  match exec i0 t with
  | .next t0 =>
    if t0.core.trapped.isSome ∨ t0.core.stalled ∨ t0.ctx.faulted then base.settleIssue sw (.next t0)
    else if t.pairDone then base.settleIssue sw (.next (if t0.core.park.isSome then t0 else (at1 t0).complete))
    else if suspends i0 then
      match exec i1 (at1 t) with
      | .next t1 =>
        if t1.core.trapped.isSome ∨ t1.core.stalled ∨ t1.core.park.isSome then base.settleIssue sw (.next t1)
        else base.settleIssue sw (exec i0 (at0 t1))
      | .fault f => .fault f
      | .refused r => .refused r
    else if t0.core.park.isSome then
      match exec i1 (at1 t) with
      | .next t1 =>
        if t1.core.trapped.isSome ∨ t1.core.stalled then base.settleIssue sw (.next t1)
        else if t0.core.park = some .edgerun then
          if t1.core.park.isSome then base.settleIssue sw (.next t1)
          else
            let u := (at0 t1).mapCore fun c => { c with pc := t.core.pc }
            let o := exec i0 u
            (if parks o then u else base).settleIssue sw o
        else base.settleIssue sw (.next t0)
      | .fault f => .fault f
      | .refused r => .refused r
    else
      match exec i1 (at1 t0) with
      | .next t1 =>
        if t1.core.park.isSome then base.settleIssue sw (exec i1 (at1 t)) else base.settleIssue sw (.next t1)
      | .fault f => .fault f
      | .refused r => .refused r
  | .fault f => .fault f
  | .refused r => .refused r

/-- Word0 waits on its own for what is outstanding (R344): WRESET and the suspension points, JOIN being one with a counter
that is not 0 (R22; log entry 80). -/
def State.awaitsResults (s : State) (i : Instr) : Bool :=
  i == .wreset || (suspends i && !(i == .join && rJoin (s.record s.core.crec) == 0))

/-- The instructions of a pair read the registers as they stand now. -/
def State.latched (s : State) : State := s.mapCore fun c => { c with latch := some (c.regs, c.lblcfg), popped := none }

/-- Word0's trap or stall where it has one, and else that of a strip of word1 that cannot be read (R47, R293). -/
def State.popFailed (base t : State) (i0 : Instr) (sw : Bool) (e : Stop) : Host.Outcome State Fault Refusal :=
  match exec i0 t with
  | .next t0 =>
    if t0.core.trapped.isSome ∨ t0.core.stalled ∨ t0.ctx.faulted then base.settleIssue sw (.next t0)
    else base.settleIssue sw (commit base (.error e))
  | .fault f => .fault f
  | .refused r => .refused r

/-- Both words of a pair issue in this state. -/
def State.issueBoth (s : State) (i0 i1 : Instr) (sw : Bool) : Host.Outcome State Fault Refusal :=
  let base := (((s.latchIssue (container s.core.pc) false false).hazards i0).hazards i1)
  let mine := base.popsOf i0
  match base.popStreams mine with
  | .error e => base.settleIssue sw (commit base (.error e))
  | .ok t =>
    match t.popStreams ((if s.pairDone then [] else base.popsOf i1).filter fun v => !mine.contains v) with
    | .error e => base.popFailed t.latched i0 sw e
    | .ok t => base.runPair t.latched i0 i1 sw

/-- A pair issues: a word0 that waits for what is outstanding does so before both issue, so that no hazard arises. Where it
traps instead it has waited for nothing (R23, R186; log entry 80). -/
def State.issuePair (s : State) (i0 i1 : Instr) (sw : Bool) : Host.Outcome State Fault Refusal :=
  if s.awaitsResults i0 then
    let begun (u : State) : State := u.latchIssue (container s.core.pc) false false
    match exec i0 (begun s.drain).latched with
    | .next t =>
      if t.core.trapped.isSome ∨ t.ctx.faulted then (begun s).settleIssue sw (.next t) else s.drain.issueBoth i0 i1 sw
    | .fault f => .fault f
    | .refused r => .refused r
  else s.issueBoth i0 i1 sw

/-- One issue of the core that moves; a container that does not decode traps with a deferred fault pending too (log entry
88). -/
def State.issue (s : State) : Host.Outcome State Fault Refusal :=
  let pc := s.core.pc
  if pc.toNat % 4 ≠ 0 then s.issueTrap .misalign 2 pc pc
  else match s.fetchPlace s.core.status.mode pc with
    | .error d => s.issueTrap d.cause d.info d.addr pc
    | .ok (p, t) =>
      let (ws, t) := t.fetchWords p
      match decodeContainer pc ws.1 ws.2 with
      | .bad c info epc => t.issueTrap c info 0 epc
      | .lone i sw => t.issueLone i sw
      | .pair i0 i1 sw => t.issuePair i0 i1 sw

end Sys2Proof.Machine
end

