-- ==== Sys2Proof/Machine/Schedule.lean ====
section
/-! DEFINITION. Turns (model's own, log entry 7): which core moves, how the clock advances, and what happens when
the agenda names nothing: an event that the cluster has pending, or the core's next issue. -/

namespace Sys2Proof.Machine

/-- `n` cycles pass (R2), of 10/11 ns each (R443). -/
def State.elapse (s : State) (n : Nat) : State :=
  s.mapDev fun d => { d with cycle := d.cycle + BitVec.ofNat 64 n, ptp := { d.ptp with time := d.ptp.time + 10 * n } }

/-- A stroke tick is due: every 256 cycles (R2). -/
def State.tickDue (s : State) : Bool := decide (s.dev.stroke.toNat < s.dev.cycle.toNat / Config.stroke)

/-- What the row queue does next for an operation. -/
def rowEvent (cl : Nat) (r : RowOp) : Instr :=
  match r.kind with
  | .rcopy | .rfill | .rbool _ => .rowOpExecute cl r.id
  | .rpromo _ => .rpromoComplete cl r.id
  | .rdemo => .rdemoComplete cl r.id

/-- The items of a remote operation that have not landed. -/
def landEvents (cl : Nat) (r : RemoteOp) : List Instr :=
  ((List.range r.items.length).filter fun i => !r.landed.contains i).map fun i => .remoteLand cl r.id i [] 0

/-- Events of the cluster that may be pending for the core that moves. -/
def State.pendingEvents (s : State) : List Instr :=
  let cl := s.focus.cl
  let me := s.focus.core
  let k := s.myCluster
  let crew := crewOf me
  let engine := k.engine crew
  let result : List Instr := if s.core.pending = [] then [] else [.longLatencyResultReturn cl me 0]
  let parked : List Instr := match s.core.park with
    | some (.contra _) => [.contraRetire cl me]
    | some .wreset => [.wresetRetire cl me]
    | some (.fencesc _) => [.fencescTickEnd cl me]
    | _ => []
  let leases : List Instr := if engine.requests = [] then [] else [.leaseGrant cl crew]
  let matrix : List Instr := if engine.queue = [] then [] else [.matrixCommandComplete cl crew, .matrixHalt cl crew]
  let jobs := (k.copyUnit crew).jobs.flatMap fun j =>
    ([.jobStart cl crew, .jobComplete cl crew j.id, .jobFault cl crew j.id] : List Instr)
  let runs : List Instr := if k.runs = [] then []
    else [.edgeRunStart cl, .superstep cl, .edgeInvocation cl me, .edgeRunFault cl]
  result ++ parked ++ leases ++ matrix ++ jobs ++ k.rowq.map (rowEvent cl) ++ k.ireds.map (fun r => .iredExecute cl r.id)
    ++ k.remotes.flatMap (landEvents cl) ++ runs ++ k.suspended.map (.recordWake cl)

/-- The event that comes next while the core that moves waits: the cycle counter goes round those pending; `none`
lets time pass. -/
def State.progress (s : State) : Option Instr :=
  s.pendingEvents[s.dev.cycle.toNat % max 1 s.pendingEvents.length]?

/-- The state after the next pending event. -/
def State.advance (s : State) : Host.Outcome State Fault Refusal :=
  match s.progress with
  | some e => exec e s
  | none => .next s

/-- `o`, and then `f` where the core still waits. -/
def orElseWait (o : Host.Outcome State Fault Refusal) (waits : State → Bool)
    (f : State → Host.Outcome State Fault Refusal) : Host.Outcome State Fault Refusal :=
  match o with
  | .next t => if waits t then f t else .next t
  | .fault e => .fault e
  | .refused r => .refused r

/-- The turn of the core that moves, the agenda naming nothing for it. -/
def State.turn (s : State) : Host.Outcome State Fault Refusal :=
  let cl := s.focus.cl
  let me := s.focus.core
  if s.dev.down ∨ s.ctx.stopped ∨ s.dev.currentStall then .next s
  else if s.core.record.isNone then
    orElseWait (exec (.dispatch cl me) s) (fun t => t.core.record.isNone) State.advance
  else if s.core.upcallReady then exec (.upcallDelivery cl me) s
  else if s.core.park.isSome then
    orElseWait (exec (.coreParkWake cl me) s) (fun t => t.core.park.isSome) State.advance
  else if s.core.stalled ∧ s.progress.isSome then (s.mapCore fun c => { c with stalled := false }).advance
  else s.issue

/-! ### Accesses that wait at an owned line of the pool (R440) -/

/-- The places that writes of a turn hold where they have to wait. -/
def Device.waits (d : Device) : List PoolWrite := d.poolWrites.filter fun w => w.own && d.awaited.contains w.line

/-- The turn of `s` that led to the device `d` is put off: of all that it did there remain the places of its writes; the
owner serves the lines where it waits, and `again` comes next (log entry 45). -/
def State.putOff (s : State) (d : Device) (again : List Turn) : State :=
  let places := d.waits.filter fun w => !s.dev.poolWrites.contains w
  { s with
    agenda := again ++ s.agenda
    dev := d.awaited.foldl Device.applyWrite { s.dev with awaited := [], poolWrites := s.dev.poolWrites ++ places } }

/-- A turn taken in `s`: as it is where each of its accesses is performed at once, else put off. -/
def performed (s : State) (again : List Turn) (o : Host.Outcome State Fault Refusal) : Host.Outcome State Fault Refusal :=
  match o with
  | .next t => if t.dev.awaited = [] then .next t else .next (s.putOff t.dev again)
  | .fault f => .fault f
  | .refused r => .refused r

/-- The turn of the core that moves, one cycle later. -/
def State.coreTurn (s : State) : Host.Outcome State Fault Refusal := performed (s.elapse 1) [] (s.elapse 1).turn

/-- The tick that is due. -/
def State.tickTurn (s : State) : Host.Outcome State Fault Refusal := performed (s.elapse 1) [] (exec .strokeTick s)

/-- One turn of the agenda. -/
def State.takeTurn (s : State) (t : Turn) : Host.Outcome State Fault Refusal :=
  match t with
  | .elapse n => .next (s.elapse n)
  | .event i => performed s [.elapse 1, .event i] (exec i s)
  | .core ctxid cl c =>
    match s.focusOn ctxid cl c with
    | none => .fault .noSuchAgent
    | some u => u.coreTurn

end Sys2Proof.Machine
end

