-- ==== Sys2Proof/Machine/Step.lean ====
section
/-! DEFINITION. One step of the machine, and the state that runs a given word next. -/

namespace Sys2Proof.Machine

/-- One step: a stroke tick that is due, the first turn of the agenda, or the turn of the core that moves. -/
def step (s : State) : Host.Outcome State Fault Refusal :=
  if s.tickDue then s.tickTurn
  else match s.agenda with
    | t :: rest => { s with agenda := rest }.takeTurn t
    | [] => s.coreTurn

/-- `s` with an instruction word placed where `step` fetches next, and all that this takes (log entry 8). -/
def State.withFetchWord (s : State) (nbits w : Nat) : State := s.placeWord (w % 2 ^ nbits)

end Sys2Proof.Machine
end

