-- ==== Sys2Proof/Safety.lean ====
section
/-! DEFINITION. What counts as a good state and a safe run: the invariants that every step keeps. -/

namespace Sys2Proof.Machine

/-- The canonical form of memory: addresses strictly rise and no byte is listed with the value that an unlisted
byte reads as (log entry 2). -/
abbrev Memory.wf (m : NatMap Byte) : Prop :=
  List.Pairwise (· < ·) (m.map Prod.fst) ∧ ∀ e ∈ m, e.2 ≠ 0

/-- The machine goes on: no fault and no refusal. -/
def goesOn (o : Host.Outcome State Fault Refusal) : Prop := ∃ t, o = .next t

end Sys2Proof.Machine
end

