-- ==== Sys2Proof/Certificates/Slice0/Obligations.lean ====
section
/-! DEFINITION. The statements for the provers. Claims holds what several of them share: readings of a register
after an instruction, and the frames, which say what an instruction leaves as it was. -/

namespace Sys2Proof.Claims

open Machine

/-! ### Readings -/

def x (s : State) (r : Nat) : Word := fileGet (by decide) s.core.regs.x r
def xl (s : State) (r : Nat) : LabelWord := fileGet (by decide) s.core.regs.xl r
def f (s : State) (r : Nat) : Half := fileGet (by decide) s.core.regs.f r
def fl (s : State) (r : Nat) : LabelWord := fileGet (by decide) s.core.regs.fl r
def v (s : State) (r : Nat) : VWord := fileGet (by decide) s.core.regs.v r
def vl (s : State) (r : Nat) : LabelWord := fileGet (by decide) s.core.regs.vl r
def p (s : State) (r : Nat) : Word := fileGet (by decide) s.core.regs.p r
def pl (s : State) (r : Nat) : LabelWord := fileGet (by decide) s.core.regs.pl r

/-- Signed value of an `n`-bit field. -/
def signed (n k : Nat) : Int := (BitVec.ofNat n k).toInt

/-! ### Frames -/

/-- Of the core, all is as the completion of an instruction leaves it but for the register files, the outstanding results, the
streams and LBLSTAT: the pc goes to the next instruction, or to the start of a loop body that ends here, whose pass is counted
(R27, R49), and the model's marks of a container that waited go. -/
def coreKept (s t : State) : Prop :=
  { t.core with
    regs := s.core.regs, pending := s.core.pending, streams := s.core.streams, lblstat := s.core.lblstat } = s.core.complete

/-- The same of an instruction that sets the pc and the loop stack itself. -/
def coreButLoops (s t : State) : Prop :=
  { t.core with
    regs := s.core.regs, pc := s.core.pc, loops := s.core.loops, pending := s.core.pending
    streams := s.core.streams, lblstat := s.core.lblstat, grants := s.core.grants
    stalled := s.core.stalled } = s.core

/-- Of the context, all is as before but that labels may have been entered behind those in the table. -/
def ctxKept (s t : State) : Prop :=
  ∃ extra, t.ctx = { s.ctx with world := { s.ctx.world with table := s.ctx.world.table ++ extra } }

/-- Which core moves, the other contexts, the agenda and the device are as before. -/
def restKept (s t : State) : Prop :=
  t.focus = s.focus ∧ t.others = s.others ∧ t.agenda = s.agenda ∧ t.dev = s.dev

/-- Every byte of memory reads as before. -/
def memoryKept (s t : State) : Prop := ∀ a, t.dev.byte a = s.dev.byte a

/-- Outstanding results and streams are as before. -/
def latencyKept (s t : State) : Prop := t.core.pending = s.core.pending ∧ t.core.streams = s.core.streams

/-- Registers are as before but for the x file, in which `x d` alone holds `v` labelled `w`; x0 takes nothing. -/
def xFileWritten (s t : State) (d : Nat) (v : Word) (w : LabelWord) : Prop :=
  { t.core.regs with x := s.core.regs.x, xl := s.core.regs.xl } = s.core.regs ∧
    ∀ r, r < 64 → x t r = (if r = d ∧ d ≠ 0 then v else x s r) ∧ xl t r = (if r = d ∧ d ≠ 0 then w else xl s r)

/-- The instruction wrote one x register and completed, leaving all else. -/
def xWritten (s t : State) (d : Nat) (v : Word) (w : LabelWord) : Prop :=
  xFileWritten s t d v w ∧ latencyKept s t ∧ coreKept s t ∧ ctxKept s t ∧ restKept s t ∧ memoryKept s t

/-- The label of a result is formed from label words `ws`: its word is `w`; no label is formed for x0. -/
def labelled (s : State) (d : Nat) (ws : List LabelWord) (w : LabelWord) : Prop :=
  d = 0 ∨ ∃ u, s.formConj ws = .ok (w, u)

/-- The Class rule lets the instruction go on. -/
def classPasses (s : State) (ws : List LabelWord) : Prop :=
  s.srcCfg.strict = false ∨ classOf s.ctx.world.nogoods (s.conjOf ws) ≠ .cond

/-- The Class rule traps (R85): STRICT is 1 and the class of the controlling label is COND. -/
def classTraps (s : State) (ws : List LabelWord) : Prop :=
  s.srcCfg.strict = true ∧ classOf s.ctx.world.nogoods (s.conjOf ws) = .cond

/-- The handle of a label word (R201). -/
def handle (w : LabelWord) : Nat := w.toNat % 2 ^ 16

/-- The instruction completed and changed nothing but the pc, the loop stack and the marks of a waiting container. -/
def passed (s t : State) : Prop :=
  t.core.regs = s.core.regs ∧ latencyKept s t ∧ coreKept s t ∧ t.ctx = s.ctx ∧ restKept s t ∧ memoryKept s t

/-- The core runs no edge invocation whose forms R330 refuses. -/
def plainCore (s : State) : Prop := ∀ r, s.core.edge = some r → r.inv = none ∨ r.depth ≠ 0

/-- A result is left outstanding for `d` with value `v`, label word `w` and FCSR flags; nothing for x0. -/
def outstandingWith (s t : State) (d : Reg) (v : VWord) (w : LabelWord) (flags : FFlags) : Prop :=
  t.core.pending = s.core.pending ++ (if d = .x 0 then [] else [⟨d, v, w, flags⟩])

def outstanding (s t : State) (d : Reg) (v : VWord) (w : LabelWord) : Prop := outstandingWith s t d v w FFlags.none

/-- A result outstanding for a vector register ends its stream (R293); no other stream changes. -/
def streamsEnded (s t : State) (d : Reg) : Prop :=
  ∀ v, lookup t.core.streams v = if d = .v v then none else lookup s.core.streams v

/-! ### Integer forms -/

/-- The forms with two register operands, with their results. -/
def integerForms (d a b : Nat) : List (Instr × (Word → Word → Word)) :=
  [(.add d a b, fun x y => BitVec.ofNat 64 (x.toNat + y.toNat)),
   (.sub d a b, fun x y => BitVec.ofInt 64 (x.toInt - y.toInt)),
   (.and d a b, fun x y => BitVec.ofNat 64 (x.toNat &&& y.toNat)),
   (.or d a b, fun x y => BitVec.ofNat 64 (x.toNat ||| y.toNat)),
   (.xor d a b, fun x y => BitVec.ofNat 64 (x.toNat ^^^ y.toNat)),
   (.shl d a b, fun x y => BitVec.ofNat 64 (x.toNat * 2 ^ (y.toNat % 64))),
   (.shr d a b, fun x y => BitVec.ofNat 64 (x.toNat / 2 ^ (y.toNat % 64))),
   (.sra d a b, fun x y => BitVec.ofInt 64 (x.toInt / 2 ^ (y.toNat % 64))),
   (.slt d a b, fun x y => if x.toInt < y.toInt then 1 else 0),
   (.sltu d a b, fun x y => if x.toNat < y.toNat then 1 else 0),
   (.min d a b, fun x y => BitVec.ofInt 64 (min x.toInt y.toInt)),
   (.max d a b, fun x y => BitVec.ofInt 64 (max x.toInt y.toInt)),
   (.minu d a b, fun x y => BitVec.ofNat 64 (min x.toNat y.toNat)),
   (.maxu d a b, fun x y => BitVec.ofNat 64 (max x.toNat y.toNat)),
   (.mul d a b, fun x y => BitVec.ofNat 64 (x.toNat * y.toNat)),
   (.mulh d a b, fun x y => BitVec.ofInt 64 (x.toInt * y.toInt / 2 ^ 64)),
   (.mulhu d a b, fun x y => BitVec.ofNat 64 (x.toNat * y.toNat / 2 ^ 64))]

/-- The forms with one register operand, with their results. -/
def unaryForms (d a k : Nat) : List (Instr × (Word → Word)) :=
  [(.clz d a, fun x => BitVec.ofNat 64 (64 - x.toNat.size)),
   (.popc d a, fun x => BitVec.ofNat 64 ((List.range 64).countP fun i => x.toNat.testBit i)),
   (.addi d a k, fun x => BitVec.ofInt 64 (x.toNat + signed 12 k)),
   (.andi d a k, fun x => x &&& BitVec.ofInt 64 (signed 12 k)),
   (.ori d a k, fun x => x ||| BitVec.ofInt 64 (signed 12 k)),
   (.xori d a k, fun x => x ^^^ BitVec.ofInt 64 (signed 12 k)),
   (.slti d a k, fun x => if x.toInt < signed 12 k then 1 else 0),
   (.sltiu d a k, fun x => if x.toNat < (BitVec.ofInt 64 (signed 12 k)).toNat then 1 else 0),
   (.shli d a k, fun x => BitVec.ofNat 64 (x.toNat * 2 ^ k)),
   (.shri d a k, fun x => BitVec.ofNat 64 (x.toNat / 2 ^ k)),
   (.srai d a k, fun x => BitVec.ofInt 64 (x.toInt / 2 ^ k))]

/-- The divisions, with their results (R81). -/
def divisionForms (d a b : Nat) : List (Instr × (Word → Word → Word)) :=
  [(.div d a b, fun x y => if y = 0 then BitVec.allOnes 64 else BitVec.ofInt 64 (x.toInt.tdiv y.toInt)),
   (.divu d a b, fun x y => if y = 0 then BitVec.allOnes 64 else BitVec.ofNat 64 (x.toNat / y.toNat)),
   (.rem d a b, fun x y => if y = 0 then x else BitVec.ofInt 64 (x.toInt.tmod y.toInt)),
   (.remu d a b, fun x y => if y = 0 then x else BitVec.ofNat 64 (x.toNat % y.toNat))]

/-! ### Transfers -/

/-- The frame of a taken transfer: the pc, the loop stack and the registers aside, the container counts as left by a
transfer and later fetches see what the latest FENCE ordered. -/
def transferKept (s t : State) : Prop :=
  { t.core with
    regs := s.core.regs, pc := s.core.pc, loops := s.core.loops, issue := s.core.issue
    fetchSync := s.core.fetchSync, stalled := s.core.stalled, popped := s.core.popped } = s.core ∧
    t.core.issue = { s.core.issue with taken := true } ∧ t.core.fetchSync = s.core.fenced ∧
    t.ctx = s.ctx ∧ restKept s t ∧ memoryKept s t

/-- The entries that a transfer to `dst` leaves: the innermost go until one whose body holds the target; frozen entries
stay (R28, R29). -/
def loopsAfter (s : State) (dst : Word) : List LoopEntry :=
  let n := s.core.loops.length - s.core.frozen
  (s.core.loops.take n).dropWhile (fun e => !decide (e.start.toNat ≤ dst.toNat ∧ dst.toNat < e.stop.toNat + 8))
    ++ s.core.loops.drop n

/-- The address after the instruction (R49): the next word of a lone container, else the next container. -/
def nextAddress (i : Issue) : Word :=
  if i.lone = true ∧ i.addr.toNat / 4 % 2 = 0 then i.addr + 4 else BitVec.ofNat 64 (i.addr.toNat / 8 * 8) + 8

/-- A branch or jump offset in words from an instruction. -/
def target (s : State) (bits off : Nat) : Word := s.core.issue.addr + BitVec.ofInt 64 (4 * signed bits off)

/-- The pass at the container `e` of the entries `live`, innermost first (R27): what remains of them, and where the next fetch
is. -/
def passAt (e : Word) : List LoopEntry → List LoopEntry × Word
  | [] => ([], e + 8)
  | x :: rest =>
    if x.stop = e then
      if 1 < x.count then ({ x with count := x.count - 1 } :: rest, x.start) else passAt e rest
    else (x :: rest, e + 8)

/-- A LOOP or LOOPI skipped its body and the body's last container `e` as a taken transfer (R464): the pass of an innermost
entry that is not frozen and ends at `e` ends there; otherwise control goes to `e + 8` and entries are popped as R28 gives. -/
def bodySkipped (s t : State) (e : Word) : Prop :=
  let n := s.core.loops.length - s.core.frozen
  t.core.regs = s.core.regs ∧ transferKept s t ∧
    (((s.core.loops.take n).head?.map LoopEntry.stop = some e →
      t.core.pc = (passAt e (s.core.loops.take n)).2 ∧
      t.core.loops = (passAt e (s.core.loops.take n)).1 ++ s.core.loops.drop n) ∧
    ((s.core.loops.take n).head?.map LoopEntry.stop ≠ some e →
      t.core.pc = e + 8 ∧ t.core.loops = loopsAfter s (e + 8)))

/-- The conditional branches with their conditions (R88). -/
def branches (a b off : Nat) : List (Instr × (Word → Word → Bool)) :=
  [(.beq a b off, fun x y => decide (x = y)), (.bne a b off, fun x y => decide (x ≠ y)),
   (.blt a b off, fun x y => decide (x.toInt < y.toInt)), (.bge a b off, fun x y => decide (y.toInt ≤ x.toInt)),
   (.bltu a b off, fun x y => decide (x.toNat < y.toNat)), (.bgeu a b off, fun x y => decide (y.toNat ≤ x.toNat))]


/-! ### Traps -/

/-- The trap entry of the context can be fetched, so that a trap is taken there (R423); `u` is the state after the
translation. -/
def entryFetched (s u : State) : Prop := ∃ p, s.fetchPlace .s (BitVec.ofNat 64 s.ctx.desc.trapent) = .ok (p, u)

/-- `t` is `s` after trap entry with the given cause, EINFO, EADDR and EPC (R186). -/
def trapped (s t : State) (c : Cause) (info : Nat) (addr epc : Word) : Prop :=
  t = s.trapEntry ⟨c, BitVec.ofNat 64 info, addr, epc, false⟩

/-- A loop entry whose fields SLOOP, SHI and EPC can hold (R187). -/
def loopSaved (epc : Word) (e : LoopEntry) : Prop :=
  0 < e.count ∧ e.count < 2 ^ 32 ∧ e.start.toNat % 8 = 0 ∧
    e.start.toNat / 2 ^ 35 % 2 ^ 20 = epc.toNat / 2 ^ 35 % 2 ^ 20 ∧ canonicalVa e.start = true ∧
    ∃ n, n < 4096 ∧ e.stop = e.start + BitVec.ofNat 64 (8 * n)

/-- The instruction traps at its own address or its container's (R47, R50): `t` is `s` after trap entry with the given cause,
EINFO and EADDR. -/
def traps (i : Instr) (s : State) (c : Cause) (info : Nat) (addr : Word) : Prop :=
  ∃ t, exec i s = .next t ∧ trapped s t c info addr s.core.issue.epc

/-- EINFO of an ILLEGAL trap: the reason and the slot of the word (R190). -/
def illegalInfo (s : State) (reason : Nat) : Nat := reason + 16 * (s.core.issue.addr.toNat / 4 % 2)

/-! ### Control registers -/

/-- 1 where the flag holds, as the bit at `n` (R43, R44, R207, R208, R258). -/
def bit (n : Nat) (b : Bool) : Nat := if b then 2 ^ n else 0

/-- The control registers that a read gives from fields of the state (R41): those of one field, then STATUS (R43), FCSR
(R44), COREID (R462), LBLCFG (R207), LBLSTAT (R208) and MPROG (R258) by their layouts. -/
def crFields (s : State) : List (Nat × Word) :=
  let t := s.core.status
  let f := s.core.regs.fcsr
  let l := s.core.lblcfg
  let e := s.myCluster.engine (s.focus.core / 8)
  let holds : Bool := e.holder == some (s.focus.core % 8)
  [(0x002, s.dev.cycle), (0x003, s.dev.stroke), (0x005, BitVec.ofNat 64 s.focus.core),
   (0x006, BitVec.ofNat 64 s.focus.cl), (0x007, BitVec.ofNat 64 s.core.stage), (0x008, s.core.crec),
   (0x012, s.ctx.world.nggen), (0x020, s.core.epc), (0x021, s.core.ecause), (0x022, s.core.einfo),
   (0x023, s.core.eaddr), (0x024, s.core.sloop[0]), (0x025, s.core.sloop[1]), (0x026, s.core.sloop[2]),
   (0x027, s.core.sloop[3]), (0x030, s.core.upjob), (0x031, s.core.upcause), (0x032, s.core.upepc),
   (0x041, s.core.mfpc), (0x048, s.core.dealpat), (0x050, s.core.catchcfg),
   (0x058, s.core.codegen.zeroExtend 64), (0x060, BitVec.ofNat 64 s.ctx.desc.lsbase),
   (0x000, BitVec.ofNat 64 (bit 0 (t.mode == .s) + bit 5 t.inup + bit 6 t.upe + bit 7 t.haz)),
   (0x001, BitVec.ofNat 64 (bit 0 f.flags.nx + bit 1 f.flags.uf + bit 2 f.flags.of + bit 3 f.flags.dz
     + bit 4 f.flags.nv + f.rm * 2 ^ 5)),
   (0x004, BitVec.ofNat 64 (s.ctx.desc.part.getD s.focus.cl 0 * 2 ^ 8
     + physicalCore s.ctx.desc s.focus.cl s.focus.core % 2 ^ 8)),
   (0x010, BitVec.ofNat 64 (bit 0 l.strict + bit 1 l.ovf + bit 3 l.swept + l.xmax * 2 ^ 8 + s.core.epoch.toNat * 2 ^ 16)),
   (0x011, BitVec.ofNat 64 (bit 0 s.core.lblstat.lost + s.core.lblstat.slows * 2 ^ 16 + s.core.lblstat.drops * 2 ^ 32)),
   (0x040, BitVec.ofNat 64 (s.core.mrows + (if holds then e.lrem else 0) * 2 ^ 48 + bit 62 holds
     + bit 63 (s.core.aside != [])))]

/-- Fields of the feature words: lowest bit, width, value (R196); class 3 of a device that has lost no unit. -/
def featureFields (s : State) : Nat → List (Nat × Nat × Nat)
  | 0 => [(0, 8, 4), (8, 8, 4), (16, 8, 0), (24, 8, Config.step % 256), (32, 4, 0xF), (36, 28, 0)]
  | 1 => [(0, 16, 65534), (16, 12, 1024), (28, 9, 256), (37, 5, 4), (42, 6, 32), (48, 16, 0)]
  | 2 => [(0, 6, 0x3F), (6, 2, 0), (8, 8, 32), (16, 8, 32), (24, 8, 64), (32, 32, 0)]
  | 3 => [(0, 16, 256), (16, 16, 4096), (32, 16, 1024), (48, 16, 256)]
  | 4 => [(0, 7, 0x7F), (7, 1, 0), (8, 8, 4), (16, 8, 16), (24, 8, 16), (32, 16, 512), (48, 16, 0)]
  | 5 => [(0, 8, 192), (8, 8, 8), (16, 8, s.ctx.nclus), (24, 8, 16), (32, 8, s.ctx.desc.tx), (40, 8, s.ctx.desc.ty),
      (48, 8, s.ctx.desc.tz), (56, 8, 0)]
  | _ => []

/-- U mode may read the control register (R41). -/
def userReads : List Nat :=
  [0x000, 0x001, 0x002, 0x003, 0x005, 0x006, 0x007, 0x008, 0x010, 0x011, 0x012, 0x030, 0x031, 0x032, 0x040, 0x041,
   0x048, 0x058, 0x060]

/-- U mode may write the control register (R41). -/
def userWrites : List Nat := [0x000, 0x001, 0x011, 0x032, 0x048]

/-- What a write of `v` leaves in a control register that held `old`, by the access of its fields (R41, R43, R44,
R187, R188, R192, R207, R208, R258, R275); MPROG written with PEND = 0 and CATCHCFG are not in the list. -/
def crWrites (old v : Word) : List (Nat × Word) :=
  let field (lo n : Nat) (w : Word) : Nat := w.toNat / 2 ^ lo % 2 ^ n * 2 ^ lo
  let num (n : Nat) : Word := BitVec.ofNat 64 n
  [(0x000, num (field 6 2 v + field 0 6 old)),
   (0x001, num (field 0 5 v + if v.toNat / 32 % 8 < 4 then field 5 3 v else field 5 3 old)),
   (0x010, num (field 0 2 v + field 3 1 v + field 16 8 old +
     if 4 ≤ v.toNat / 256 % 64 ∧ v.toNat / 256 % 64 ≤ 32 then field 8 6 v else field 8 6 old)),
   (0x011, num (field 0 1 v + field 16 32 v)), (0x020, v), (0x021, num (field 0 12 v + field 16 48 v)), (0x022, v),
   (0x023, v), (0x024, v), (0x025, v), (0x026, v), (0x027, v), (0x030, v), (0x031, num (field 0 17 v)), (0x032, v),
   (0x041, old), (0x048, num (field 0 1 v + field 8 38 v))] ++ if 2 ^ 63 ≤ v.toNat then [(0x040, old)] else []

/-- The control registers that no mode may write (R41). -/
def readOnly : List Nat := [0x002, 0x003, 0x004, 0x005, 0x006, 0x007, 0x008, 0x012, 0x058, 0x060]

/-- The membership image at `va` can be loaded: checks 1 to 3 and 8 of R159 and that of the tag (R140, log entry 61) pass at
the place `p` (R174); `u` is the state
after the translation. -/
def imageAt (s : State) (va : Word) (p : Place) (u : State) : Prop :=
  s.translate s.me .read va = .ok (p, u) ∧ permCheck s.me .read p = .ok () ∧
    (p.ls.isSome = true ∨ s.dev.packed.contains (lineOf p.loc) = p.cmp) ∧ s.tagCheck s.me .read p = .ok () ∧
    s.dev.poison.contains (lineOf p.loc) = false ∧ s.dev.linkLost p.loc = false

/-- What a CATCHCFG write of `v` with the image `m` leaves (R174): the register, the group reset with that image, no arrival
and no WAITC on the group, and edge runs on it ended with CODE 9; the other groups stay. -/
def groupReset (s t : State) (v : Word) (m : BitVec 256) : Prop :=
  let g := v.toNat % 16
  t.core.catchcfg = v &&& ~~~(16 : Word) ∧ t.group g = { CatchGroup.reset with image := m } ∧
    (∀ h, h < 16 → h ≠ g → t.group h = s.group h) ∧ lookup t.core.arrived g = none ∧
    (∀ n, n ≠ s.focus.core → lookup (t.coreAt s.focus.cl n).arrived g = none ∧
      ∀ k, (t.coreAt s.focus.cl n).park ≠ some (.catchPhase g k)) ∧
    (∀ r, r ∈ t.myCluster.runs → r.desc.g = g → r.code = 9)

/-- The assigned numbers (R41). -/
def crNumbers : List Nat := userReads ++ [0x004, 0x020, 0x021, 0x022, 0x023, 0x024, 0x025, 0x026, 0x027, 0x050]

/-- FCSR and LBLCFG hold legal values: a rounding mode up to 3, XMAX from 4 to 32. -/
def crLegal (s : State) : Prop := s.core.regs.fcsr.rm < 4 ∧ 4 ≤ s.core.lblcfg.xmax ∧ s.core.lblcfg.xmax ≤ 32

/-- The frame of a control register write: every control register but `n` and CYCLE reads as before, and so do the
register files but for `x d`; engines, memory and the rest are as before. -/
def crWritten (s t : State) (n d : Nat) (got : Word) : Prop :=
  (∀ m, m ∈ crNumbers → m ≠ n → t.crRead m = s.crRead m) ∧
    (∀ r, r < 64 → x t r = (if r = d ∧ d ≠ 0 then got else x s r) ∧ xl t r = (if r = d ∧ d ≠ 0 then s.topWord else xl s r)) ∧
    { t.core.regs with x := s.core.regs.x, xl := s.core.regs.xl, fcsr := s.core.regs.fcsr } = s.core.regs ∧
    t.core.k = s.core.k ∧ t.core.acc0 = s.core.acc0 ∧ t.core.acc1 = s.core.acc1 ∧ latencyKept s t ∧ t.ctx = s.ctx ∧
    restKept s t ∧ memoryKept s t

/-- The writing forms with the register that takes the old value, 0 for none, and what they write (R195). -/
def crForms (s : State) (d n a : Nat) : List (Instr × Nat × Word) :=
  [(.crw n a, 0, s.rdX a), (.crs d n a, d, s.crRead n ||| s.rdX a), (.crc d n a, d, s.crRead n &&& ~~~(s.rdX a))]

/-- The mode may write the control register (R41, R42). -/
def crWritable (s : State) (n : Nat) : Prop :=
  n ∈ userWrites ∨ (s.core.status.mode = .s ∧ n ∈ crNumbers ∧ n ∉ readOnly)

/-- A control register access trap in U mode reports the access in EINFO (R42, R190). -/
def crInfo (n op : Nat) : Nat := 2 ^ 12 + op * 2 ^ 10 + n

/-! ### Synchronisation -/

/-- The core is in a gang and a member of catch group `g` (R21, R176). -/
def catchMember (s : State) (g : Nat) : Prop :=
  s.core.gang ≠ none ∧ s.focus.core < 192 ∧ (s.group g).image.getLsbD s.focus.core = true

/-- The flags of a group with that of the core set. -/
def flagsWith (s : State) (g : Nat) : Nat := (s.group g).flags.toNat ||| 2 ^ s.focus.core

/-- The group once the core's ARRIVE has completed the phase (R175): the result recorded, the next phase with no flags or
legs, and the engine arrivals that were held applied to it in order. -/
def nextPhase (s : State) (g a : Nat) : CatchGroup :=
  let c := s.group g
  c.held.foldl (fun k e => k.hold e.1 e.2.1 e.2.2)
    { c with
      phase := c.phase + 1, flags := 0, or := false, err := false, held := []
      latest := some (c.or || (s.rdX a).getLsbD 0, c.err || (s.rdX a).getLsbD 1) }

/-- Every member named by the image has its flag among `flags`. -/
def allArrived (g : CatchGroup) (flags : Nat) : Prop := ∀ m, m < 217 → g.image.getLsbD m = true → flags.testBit m = true

/-- The core has left its record: no record, no loops, no streams, no outstanding results, no wait. -/
def vacated (t : State) : Prop :=
  t.core.record = none ∧ t.core.gang = none ∧ t.core.loops = [] ∧ t.core.streams = [] ∧ t.core.pending = [] ∧
    t.core.park = none ∧ t.core.aside = []

/-- A new record (R11, R14): CODE, FRAME and PARENT, then STAGE to GANG, PLTGT, LCLU and GSIZE are the image's; QID is the
queue's, STATE is 1, FLBL carries the epoch with handle 0, and every other bit is 0. -/
def newBits (image : VWord) (qid : Nat) (epoch : BitVec 8) (i : Nat) : Bool :=
  if i < 192 then image.getLsbD i
  else if 224 ≤ i ∧ i < 240 then qid.testBit (i - 224)
  else if (240 ≤ i ∧ i < 249) ∨ (256 ≤ i ∧ i < 288) then image.getLsbD i
  else if 472 ≤ i ∧ i < 480 then epoch.getLsbD (i - 472)
  else decide (i = 384)

/-- The bits of a record are those of a new one. -/
def recordHolds (r image : VWord) (qid : Nat) (epoch : BitVec 8) : Prop :=
  ∀ i, i < 512 → r.getLsbD i = newBits image qid epoch i

/-- The record that a suspension point saves (R22): CODE is the next instruction word, FRAME and FLBL are x4 and its label
word, WKIND and WARG as given; the other bits are those that memory holds. -/
def savedBits (s : State) (wkind warg i : Nat) : Bool :=
  if i < 64 then (nextAddress s.core.issue).getLsbD i
  else if i < 128 then (x s 4).getLsbD (i - 64)
  else if 320 ≤ i ∧ i < 380 then warg.testBit (i - 320)
  else if 380 ≤ i ∧ i < 384 then wkind.testBit (i - 380)
  else if 448 ≤ i ∧ i < 480 then (xl s 4).getLsbD (i - 448)
  else (s.record s.core.crec).getLsbD i

/-- The core suspends its record (R22): the record saved, STATE 3 in it, the core left, and the record in its run queue
(WKIND 0) or waiting in its cluster. -/
def suspendedAs (s t : State) (wkind warg : Nat) : Prop :=
  ∃ (r q : VWord) (u : State), (∀ i, i < 512 → r.getLsbD i = savedBits s wkind warg i) ∧
    (∀ i, i < 512 → q.getLsbD i = if 384 ≤ i ∧ i < 388 then decide (i < 386)
      else ((s.putRecord s.core.crec r).record s.core.crec).getLsbD i) ∧
    u = (((s.putRecord s.core.crec r).putRecord s.core.crec q).mapCore Core.dropUpcalls).vacate s.focus.cl s.focus.core ∧
    t = if wkind = 0 then u.enqueue s.core.crec
      else u.mapCluster (rLclu q) fun k => { k with suspended := k.suspended ++ [s.core.crec] }

/-- The instruction is a suspension point whose checks on the mode, the gang and its operands pass (R22, R23, R182, R184). -/
def mayLeave (s : State) (a d k : Nat) (i : Instr) : Prop :=
  let u := s.drain
  i = .finish 0 ∨ (i = .finish a ∧ s.core.status.mode = .s ∧ (u.rdX a).getLsbD 15 = true) ∨
    s.core.gang = none ∧
      (i = .yield ∨ (i = .join ∧ rJoin (s.record s.core.crec) ≠ 0) ∨
       (i = .suspt a ∧ classPasses u [u.labX a] ∧ (u.rdX a).toNat < 2 ^ 60) ∨
       (i = .suspk k a d ∧ classPasses u [u.labX a, u.labX d] ∧
         (d = 0 ∨ ((u.rdX d).toNat < 192 ∧ s.ctx.mapped s.focus.cl (u.rdX d).toNat = true))))

/-! ### Accesses -/

/-- An access of `n` bytes at `va` passes checks 1 to 5 of R159 and reaches the place `p`, on a line whose format agrees
with the page's attribute (R140, R419); `u` is the state after the translation. -/
def reaches (s : State) (acc : Access) (n : Nat) (va : Word) (p : Place) (u : State) : Prop :=
  va.toNat % n = 0 ∧ s.translate s.me acc va = .ok (p, u) ∧ permCheck s.me acc p = .ok () ∧
    (p.ls.isSome = true ∨ ∀ h, lookup s.dev.held (lineOf p.loc) = some h → h.cmp = p.cmp) ∧
    rangeCheck s.myCluster.locks va n acc.writes = .ok () ∧
    (p.ls.isSome = true ∨ s.dev.packed.contains (lineOf p.loc) = p.cmp)

/-- The lines that a maintenance form on the `n` bytes from a place reaches (R166, R312). -/
def linesOf (s : State) (p : Place) (n : Nat) : List Nat := (s.dev.lineAt p n).map fun q => lineOf q.loc

/-- Checks 2 to 4 of R159 pass for a maintenance form on the `n` bytes at `va`, check 4 on every line (R166, R312). -/
def maintains (s : State) (acc : Access) (n : Nat) (va : Word) (p : Place) : Prop :=
  (∃ u, s.translate s.me acc va = .ok (p, u)) ∧ permCheck s.me acc p = .ok () ∧
    (p.ls.isSome = true ∨ ∀ line, line ∈ linesOf s p n → ∀ h, lookup s.dev.held line = some h → h.cmp = p.cmp)

/-- The line carries no uncorrectable error and lies behind no lost port (R162, R435). -/
def clean (s : State) (p : Place) : Prop := s.dev.poison.contains (lineOf p.loc) = false ∧ s.dev.linkLost p.loc = false

/-- The label word that the line of a place reads with (R160). -/
def lineLabel (s : State) (p : Place) : LabelWord := if p.lt then s.dev.rawLabel (lineOf p.loc) else 0

/-- The label of a line after a partial write with the write label `nl` can be formed, labels being entered in the world of
`v`; a page without LT takes ⊤ alone (R141, R161, R210, R211). -/
def lineForms (s v : State) (p : Place) (nl : Label) : Prop :=
  if p.lt then
    (conj v.ctx.world.nogoods (v.eval (lineLabel s p)) nl = v.eval (lineLabel s p) ∧
      lwEpoch (lineLabel s p) = s.core.epoch) ∨
    ∃ r, v.ctx.world.form s.labelCfg (conj v.ctx.world.nogoods (v.eval (lineLabel s p)) nl) = .ok r
  else nl = topLabel

/-- The write label of a partial store from label words `ws` is `nl`, formed in the state `v`, and the line's label after it
can be formed. -/
def writeLabels (s v : State) (p : Place) (ws : List LabelWord) (nl : Label) : Prop :=
  (∃ w, s.formConj ws = .ok (w, v) ∧ nl = v.eval w) ∧ lineForms s v p nl

/-- The byte lies in the `n` bytes from `loc`. -/
def within (loc n b : Nat) : Prop := loc ≤ b ∧ b < loc + n

/-- The label word of the place's line lies outside the `n` bytes from a location, as for every place that a translation gives
(R130, R223, R407). -/
def labelApart (p : Place) (loc n : Nat) : Prop := ∀ b, within (labelLoc (lineOf p.loc)) 4 b → ¬ within loc n b

/-- The label word that a partial write with the write label `nl` has left in the line at `p` of a page with LT, labels being
entered in the world `w` (R161): the old word where the line's label stays what it is in the current epoch; else one of the
current epoch with the handle of both labels together, whose P is 1 if it was or if `nl` is not ⊤. -/
def lineAfter (s t : State) (w : World) (p : Place) (nl : Label) : Prop :=
  let old := s.dev.rawLabel (lineOf p.loc)
  let both := conj w.nogoods (w.eval s.core.epoch old) nl
  p.lt = true →
    (both = w.eval s.core.epoch old ∧ lwEpoch old = s.core.epoch → t.dev.rawLabel (lineOf p.loc) = old) ∧
    (¬ (both = w.eval s.core.epoch old ∧ lwEpoch old = s.core.epoch) → ∀ r, w.form s.labelCfg both = .ok r →
      t.dev.rawLabel (lineOf p.loc) = BitVec.ofNat 32 (s.core.epoch.toNat * 2 ^ 24
        + (if old.getLsbD 16 = true ∨ nl ≠ topLabel then 2 ^ 16 else 0) + handle r.1))

/-- The format of the place's line agrees with the attribute of its page (R140, R419). -/
def agrees (s : State) (p : Place) : Prop := p.ls.isSome = true ∨ s.dev.packed.contains (lineOf p.loc) = p.cmp

/-- The same, or the line is held. -/
def formatKept (s : State) (p : Place) : Prop := agrees s p ∨ (lookup s.dev.held (lineOf p.loc)).isSome = true

/-- Every byte of memory outside the `n` bytes stored at a place, and outside the label word of its line where the page
has LT, reads as before. -/
def memoryKeptBut (s t : State) (p : Place) (n : Nat) : Prop :=
  ∀ b, ¬ within p.loc n b → (p.lt = false ∨ ¬ within (labelLoc (lineOf p.loc)) 4 b) → t.dev.byte b = s.dev.byte b

/-- Of the device, all is as before but for memory, which lines are cached or leased, what the model notes of stores, and,
at this device as the owner of a line, the places and leases there and what waits for them (R440). -/
def devKept (s t : State) : Prop :=
  { t.dev with
    mem := s.dev.mem, held := s.dev.held, leasesHeld := s.dev.leasesHeld, log := s.dev.log, stores := s.dev.stores
    slots := s.dev.slots, poison := s.dev.poison, poolWrites := s.dev.poolWrites, awaited := s.dev.awaited
    leasesGranted := s.dev.leasesGranted } = s.dev

/-- Of the context, all is as before but that labels may have been entered and translations be held. -/
def ctxKeptButTlb (s t : State) : Prop :=
  (∃ extra, t.ctx = { s.ctx with
    clusters := t.ctx.clusters, world := { s.ctx.world with table := s.ctx.world.table ++ extra } }) ∧
    ∀ cl, { t.cluster cl with
      tlb := (s.cluster cl).tlb, first := (s.cluster cl).first, walks := (s.cluster cl).walks } = s.cluster cl

/-- The frame of an access, memory apart. -/
def accessKept (s t : State) : Prop :=
  coreKept s t ∧ ctxKeptButTlb s t ∧ t.focus = s.focus ∧ t.others = s.others ∧ t.agenda = s.agenda ∧ devKept s t

/-- The address of a scalar access of `n` bytes (R163). -/
def scalarAddress (s : State) (a off n : Nat) : Word := s.rdX a + BitVec.ofInt 64 (signed 9 off * n)

/-- The scalar, vector and atomic accesses of one place, with their kind, size and address (R163, R164, R167). -/
def accessOf (s : State) : Instr → Option (Access × Nat × Word)
  | .lb _ a off | .lbu _ a off => some (.read, 1, scalarAddress s a off 1)
  | .lh _ a off | .lhu _ a off => some (.read, 2, scalarAddress s a off 2)
  | .lw _ a off | .lwu _ a off | .flw _ a off => some (.read, 4, scalarAddress s a off 4)
  | .ld _ a off => some (.read, 8, scalarAddress s a off 8)
  | .sb _ a off => some (.write, 1, scalarAddress s a off 1)
  | .sh _ a off => some (.write, 2, scalarAddress s a off 2)
  | .sw _ a off | .fsw _ a off => some (.write, 4, scalarAddress s a off 4)
  | .sd _ a off => some (.write, 8, scalarAddress s a off 8)
  | .vld _ a imm => some (.read, 64, s.rdX a + BitVec.ofInt 64 (signed 13 imm * 64))
  | .vst _ a imm => some (.write, 64, s.rdX a + BitVec.ofInt 64 (signed 13 imm * 64))
  | .amo _ w _ _ _ a | .cas w _ _ _ a => some (.atomic, w.size, s.rdX a)
  | .famo _ _ _ _ a => some (.atomic, 4, s.rdX a)
  | .csum _ _ _ a => some (.atomic, 8, s.rdX a)
  | _ => none

/-- The page and the mode permit the access (R132, R410): the page's R for a load, W for a store, both for an atomic, U in U
mode, in which no store or atomic reaches an inbox. -/
def permitted (s : State) (acc : Access) (p : Place) : Prop :=
  (acc ≠ .write → p.r = true) ∧ (acc ≠ .read → p.w = true) ∧
    (s.core.status.mode = .u → p.u = true ∧ ¬ (acc ≠ .read ∧ p.ls.isSome = true ∧ 0x3F000 ≤ p.loc % 2 ^ 18))

/-- An access of `n` bytes at `va` fails a check of R159, the earlier ones passing: with that cause and EINFO. The first five
checks of every access, and the eighth of a load. -/
inductive AccessFails (s : State) (acc : Access) (n : Nat) (va : Word) : Cause → Nat → Prop
  | misalign : va.toNat % n ≠ 0 → AccessFails s acc n va .misalign acc.code
  | page {d : Deny} : va.toNat % n = 0 → s.translate s.me acc va = .error d → AccessFails s acc n va d.cause d.info
  | perm {p : Place} {u : State} : va.toNat % n = 0 → s.translate s.me acc va = .ok (p, u) → ¬ permitted s acc p →
      AccessFails s acc n va .perm acc.code
  | memattr {p : Place} {u : State} {h : Held} : va.toNat % n = 0 → s.translate s.me acc va = .ok (p, u) →
      permitted s acc p → p.ls = none → lookup s.dev.held (lineOf p.loc) = some h → h.cmp ≠ p.cmp →
      AccessFails s acc n va .memattr (acc.code + if h.cmp then 8 else 0)
  | range {p : Place} {u : State} {d : Deny} : va.toNat % n = 0 → s.translate s.me acc va = .ok (p, u) →
      permitted s acc p → (p.ls.isSome = true ∨ ∀ h, lookup s.dev.held (lineOf p.loc) = some h → h.cmp = p.cmp) →
      rangeCheck s.myCluster.locks va n acc.writes = .error d → AccessFails s acc n va .range d.info
  | memerr {p : Place} {u : State} : acc = .read → reaches s acc n va p u → s.dev.poison.contains (lineOf p.loc) = true →
      AccessFails s acc n va .memerr 8

/-- The address of a vector line (R164). -/
def lineAddress (s : State) (a imm : Nat) : Word := s.rdX a + BitVec.ofInt 64 (signed 13 imm * 64)

/-- The scalar loads with register, size and extension (R163). -/
def loadForms (d a off : Nat) : List (Instr × Reg × Nat × (Nat → VWord)) :=
  [(.lb d a off, .x d, 1, fun n => (BitVec.ofInt 64 (signed 8 n)).zeroExtend 512),
   (.lbu d a off, .x d, 1, fun n => BitVec.ofNat 512 n),
   (.lh d a off, .x d, 2, fun n => (BitVec.ofInt 64 (signed 16 n)).zeroExtend 512),
   (.lhu d a off, .x d, 2, fun n => BitVec.ofNat 512 n),
   (.lw d a off, .x d, 4, fun n => (BitVec.ofInt 64 (signed 32 n)).zeroExtend 512),
   (.lwu d a off, .x d, 4, fun n => BitVec.ofNat 512 n), (.ld d a off, .x d, 8, fun n => BitVec.ofNat 512 n),
   (.flw d a off, .f d, 4, fun n => BitVec.ofNat 512 n)]

/-- The scalar stores with value, label word and size (R163). -/
def storeForms (s : State) (d a off : Nat) : List (Instr × Nat × LabelWord × Nat) :=
  [(.sb d a off, (s.rdX d).toNat, s.labX d, 1), (.sh d a off, (s.rdX d).toNat, s.labX d, 2),
   (.sw d a off, (s.rdX d).toNat, s.labX d, 4), (.sd d a off, (s.rdX d).toNat, s.labX d, 8),
   (.fsw d a off, (s.rdF d).toNat, s.labF d, 4)]

/-- The 32-bit lanes that a predicate makes active, ascending (R116, R165). -/
def lanesOn (s : State) (pg : Nat) : List Nat := (List.range 16).filter fun i => (s.rdP pg).getLsbD (4 * i)

/-- Element `i` of a strided and of an indexed form (R165). -/
def strided (s : State) (a b i : Nat) : Word := s.rdX a + BitVec.ofInt 64 (i * (s.rdX b).toInt)
def indexed (s : State) (a b i : Nat) : Word :=
  s.rdX a + BitVec.ofInt 64 (signed 32 ((s.rdV b).toNat / 2 ^ (32 * i) % 2 ^ 32))

/-- The gathers, with the label word of the index operand and the element addresses. -/
def gathers (s : State) (d a b pg : Nat) : List (Instr × LabelWord × (Nat → Word)) :=
  [(.vlds d a b pg, s.labX b, strided s a b), (.vldx d a b pg, s.labV b, indexed s a b)]

/-- The scatters, likewise. -/
def scatters (s : State) (d a b pg : Nat) : List (Instr × LabelWord × (Nat → Word)) :=
  [(.vsts d a b pg, s.labX b, strided s a b), (.vstx d a b pg, s.labV b, indexed s a b)]

/-- A 32-bit lane of a vector register. -/
def lane32 (v : VWord) (i : Nat) : Nat := v.toNat / 2 ^ (32 * i) % 2 ^ 32

/-! ### Atomics -/

/-- The operations of AMO on values of `n` bits (R168). -/
def amoResults (n old v : Nat) : List (AmoOp × Nat) :=
  [(.add, (old + v) % 2 ^ n), (.band, old &&& v), (.bor, old ||| v), (.bxor, old ^^^ v),
   (.smin, if signed n old ≤ signed n v then old else v), (.smax, if signed n v ≤ signed n old then old else v),
   (.minu, min old v), (.maxu, max old v), (.swap, v)]

/-- An atomic may go on (R167): its place, the label `nl` of what it writes, formed in the state `v`, and the word `lr` of its
result, the line's label and `nl` together. -/
def atomicGoes (s v : State) (n : Nat) (va : Word) (ws : List LabelWord) (p : Place) (nl : Label) (lr : LabelWord) : Prop :=
  plainCore s ∧ clean s p ∧ (∃ u, reaches s .atomic n va p u) ∧ writeLabels s v p ws nl ∧
    ∃ r, v.ctx.world.form s.labelCfg (conj v.ctx.world.nogoods (v.eval (lineLabel s p)) nl) = .ok r ∧ lr = r.1

/-- An atomic of `n` bytes at `p` stored `new` and left the old value `val`, labelled `lr`, outstanding for `d`; the line's label
word is that of a partial store with `nl`. -/
def atomicDone (s v t : State) (p : Place) (n new : Nat) (d : Reg) (val : VWord) (flags : FFlags) (nl : Label)
    (lr : LabelWord) : Prop :=
  t.core.regs = s.core.regs ∧ outstandingWith s t d val lr flags ∧
    (∀ j, j < n → t.dev.byte (p.loc + j) = BitVec.ofNat 8 (new / 256 ^ j)) ∧
    (labelApart p p.loc n → lineAfter s t v.ctx.world p nl) ∧ memoryKeptBut s t p n ∧ accessKept s t

/-- The old value of an integer atomic as x[d] takes it: a word sign-extended. -/
def oldValue (w : AmoWidth) (v : Nat) : VWord :=
  match w with
  | .w => (BitVec.ofInt 64 (signed 32 v)).zeroExtend 512
  | .d => BitVec.ofNat 512 v

/-! ### Labels -/

/-- The environments are minimal, in canonical order and clear of the nogoods: a label that Minimise leaves alone
(R200, R205). -/
def canonical (s : State) (l : Label) : Prop := minimise s.ctx.world.nogoods l = l

/-- The frame of a vector register write: the v file but for `v d`, whose stream ends. -/
def vWritten (s t : State) (d : Nat) (val : VWord) (w : LabelWord) : Prop :=
  { t.core.regs with v := s.core.regs.v, vl := s.core.regs.vl } = s.core.regs ∧
    (∀ r, r < 32 → v t r = (if r = d then val else v s r) ∧ vl t r = (if r = d then w else vl s r)) ∧
    t.core.pending = s.core.pending ∧ streamsEnded s t (.v d) ∧ coreKept s t ∧ ctxKept s t ∧ restKept s t ∧
    memoryKept s t

/-- The registers of a core after its WRESET: a label word that read ⊤ is the new epoch's word of ⊤, and every other is as
before (R236). -/
def renewed (s : State) (c : Core) : Regs :=
  let f (w : LabelWord) : LabelWord :=
    if s.ctx.world.eval c.epoch w = topLabel then BitVec.ofNat 32 ((nextEpoch s.ctx.world.epoch).toNat * 2 ^ 24) else w
  { c.regs with xl := c.regs.xl.map f, fl := c.regs.fl.map f, vl := c.regs.vl.map f, pl := c.regs.pl.map f }

/-- LJOIN wrote p7 (R231): its value and label, every other register but the x file as before, and so are memory and all but
the label table and LBLSTAT. -/
def joined (s t : State) (val : Word) (w : LabelWord) : Prop :=
  (∀ r, r < 8 → p t r = (if r = 7 then val else p s r) ∧ pl t r = (if r = 7 then w else pl s r)) ∧
    { t.core.regs with
      x := s.core.regs.x, xl := s.core.regs.xl, p := s.core.regs.p, pl := s.core.regs.pl } = s.core.regs ∧
    latencyKept s t ∧ coreKept s t ∧ ctxKept s t ∧ restKept s t ∧ memoryKept s t

/-- The word that LBLOF gives for a label word (R229): the current epoch, P 0, and 0 for ⊤, 0xFFFF for what a stale or ⊥
word reads as, else the handle. -/
def canonicalValue (s : State) (w : LabelWord) : Word :=
  BitVec.ofNat 64 (s.core.epoch.toNat * 2 ^ 24 +
    if w = 0 then 0 else if lwEpoch w ≠ s.core.epoch then 0xFFFF else w.toNat % 2 ^ 16)

/-- The label that a label word held as data names, bits [23:16] ignored (R230). -/
def named (s : State) (v : Word) : Label :=
  s.ctx.world.readWord s.core.epoch (BitVec.ofNat 32 (v.toNat % 2 ^ 16 + v.toNat / 2 ^ 24 % 2 ^ 8 * 2 ^ 24))

/-! ### Floats and vectors -/

/-- The rounding mode of an instruction: its own, or FCSR.RM when it is dynamic (R101). -/
def rounding (s : State) (rm : Rm) : Nat :=
  match rm with
  | .rne => 0 | .rtz => 1 | .rdn => 2 | .rup => 3 | .dyn => s.src.fcsr.rm

/-- The value of a finite number, and that it is one (R98). -/
def rat (v : FVal) : Rat := v.exact.m * (2 : Rat) ^ v.exact.e
def finite : FVal → Prop
  | .fin _ _ _ => True
  | _ => False

/-- FCSR after the flags were ORed in (R101). -/
def flagged (s : State) (g : FFlags) : Fcsr := ⟨s.core.regs.fcsr.rm, s.core.regs.fcsr.flags.or g⟩

/-- The frame of a float instruction that writes `f d`: the f file but for `f d`, and FCSR's flags. -/
def fWritten (s t : State) (d : Nat) (val : Half) (w : LabelWord) (g : FFlags) : Prop :=
  { t.core.regs with f := s.core.regs.f, fl := s.core.regs.fl, fcsr := s.core.regs.fcsr } = s.core.regs ∧
    t.core.regs.fcsr = flagged s g ∧
    (∀ r, r < 32 → f t r = (if r = d then val else f s r) ∧ fl t r = (if r = d then w else fl s r)) ∧
    latencyKept s t ∧ coreKept s t ∧ ctxKept s t ∧ restKept s t ∧ memoryKept s t

/-- The frame of a float instruction that writes `x d`. -/
def xFlagged (s t : State) (d : Nat) (val : Word) (w : LabelWord) (g : FFlags) : Prop :=
  { t.core.regs with x := s.core.regs.x, xl := s.core.regs.xl, fcsr := s.core.regs.fcsr } = s.core.regs ∧
    t.core.regs.fcsr = flagged s g ∧
    (∀ r, r < 64 → x t r = (if r = d ∧ d ≠ 0 then val else x s r) ∧ xl t r = (if r = d ∧ d ≠ 0 then w else xl s r)) ∧
    latencyKept s t ∧ coreKept s t ∧ ctxKept s t ∧ restKept s t ∧ memoryKept s t

/-- The frame of a vector instruction that writes `v d`. -/
def vFlagged (s t : State) (d : Nat) (val : VWord) (w : LabelWord) (g : FFlags) : Prop :=
  { t.core.regs with v := s.core.regs.v, vl := s.core.regs.vl, fcsr := s.core.regs.fcsr } = s.core.regs ∧
    t.core.regs.fcsr = flagged s g ∧
    (∀ r, r < 32 → v t r = (if r = d then val else v s r) ∧ vl t r = (if r = d then w else vl s r)) ∧
    t.core.pending = s.core.pending ∧ streamsEnded s t (.v d) ∧ coreKept s t ∧ ctxKept s t ∧ restKept s t ∧
    memoryKept s t

/-- The frame of a predicate write; p0 takes nothing. -/
def pFlagged (s t : State) (d : Nat) (val : Word) (w : LabelWord) (g : FFlags) : Prop :=
  { t.core.regs with p := s.core.regs.p, pl := s.core.regs.pl, fcsr := s.core.regs.fcsr } = s.core.regs ∧
    t.core.regs.fcsr = flagged s g ∧
    (∀ r, r < 8 → p t r = (if r = d ∧ d ≠ 0 then val else p s r) ∧ pl t r = (if r = d ∧ d ≠ 0 then w else pl s r)) ∧
    latencyKept s t ∧ coreKept s t ∧ ctxKept s t ∧ restKept s t ∧ memoryKept s t

/-- The value of an f register. -/
def fval (s : State) (a : Nat) : FVal := fp32.decode (s.rdF a).toNat

/-- The float forms that complete with bypass into an f register, with result, flags and label words (R112, R114). -/
def floatForms (s : State) (rm : Rm) (it : IntTy) (d a b : Nat) : List (Instr × (Nat × FFlags) × List LabelWord) :=
  let m := rounding s rm
  let ab := [s.labF a, s.labF b]
  [(.fadd rm d a b, fp32.addV m (fval s a) (fval s b), ab),
   (.fsub rm d a b, fp32.addV m (fval s a) (fval s b).neg, ab),
   (.fmul rm d a b, fp32.mulF m (fval s a) (fval s b), ab),
   (.ffma rm d a b, fp32.fmaF m (fval s d) (fval s a) (fval s b), [s.labF d, s.labF a, s.labF b]),
   (.fmin d a b, fp32.minMax false (s.rdF a).toNat (s.rdF b).toNat, ab),
   (.fmax d a b, fp32.minMax true (s.rdF a).toNat (s.rdF b).toNat, ab),
   (.fcvtif rm it d a, fp32.ofInt m (match it with
     | .i32 => signed 32 (s.rdX a).toNat
     | .u32 => ((s.rdX a).toNat % 2 ^ 32 : Nat)
     | .i64 => (s.rdX a).toInt
     | .u64 => ((s.rdX a).toNat : Int)), [s.labX a]),
   (.fmvfx d a, ((s.rdX a).toNat % 2 ^ 32, FFlags.none), [s.labX a])]

/-- The float forms that complete with bypass into an x register (R112, R114, R115). -/
def floatToXForms (s : State) (rm : Rm) (it : IntTy) (cc : FCc) (d a b : Nat) :
    List (Instr × (Word × FFlags) × List LabelWord) :=
  let c := toInt (rounding s rm) it.lo it.hi (fval s a)
  [(.fcmp cc d a b, (if (cc.eval (fval s a) (fval s b)).1 then 1 else 0, (cc.eval (fval s a) (fval s b)).2),
     [s.labF a, s.labF b]),
   (.fcvtfi rm it d a, (BitVec.ofInt 64 c.1, c.2), [s.labF a]),
   (.fmvxf d a, (BitVec.ofNat 64 (s.rdF a).toNat, FFlags.none), [s.labF a]),
   (.fclass d a, (BitVec.ofNat 64 (2 ^ fp32.classify (s.rdF a).toNat), FFlags.none), [s.labF a])]

/-- The long-latency float forms (R53, R112). -/
def floatLongForms (s : State) (rm : Rm) (d a b : Nat) : List (Instr × (Nat × FFlags) × List LabelWord) :=
  [(.fdiv rm d a b, fp32.divF (rounding s rm) (fval s a) (fval s b), [s.labF a, s.labF b]),
   (.fsqrt rm d a, fp32.sqrtF (rounding s rm) (fval s a), [s.labF a])]

/-- Lane `i` of a register, `n` bits wide (R116). -/
def laneOf (n : Nat) (val : VWord) (i : Nat) : Nat := val.toNat / 2 ^ (n * i) % 2 ^ n

/-- Lane `i` is active under the governing predicate: the bit of its lowest byte (R116). -/
def activeLane (s : State) (t : ElemTy) (pg i : Nat) : Bool := (s.rdP pg).getLsbD (i * t.size)

/-- Label words of a governing predicate, and of the old destination that a merging form keeps (R117). -/
def predWords (s : State) (pg : Nat) : List LabelWord := if pg = 0 then [] else [s.labP pg]
def mergeWords (s : State) (d pg : Nat) : List LabelWord := if pg = 0 then [] else [s.labP pg, s.labV d]

/-- Lanes as integers and as floats. -/
def laneInt (s : State) (t : ElemTy) (a i : Nat) : Int := signed t.bits (laneOf t.bits (s.rdV a) i)
def laneFloat (s : State) (t : ElemTy) (a i : Nat) : FVal := t.fmt.decode (laneOf t.bits (s.rdV a) i)

/-- An integer modulo the lane width. -/
def wrapped (t : ElemTy) (k : Int) : Nat × FFlags := ((k % (2 ^ t.bits : Nat)).toNat, FFlags.none)

/-- A lane by its integer or its float meaning. -/
def byType (t : ElemTy) (k : Int) (g : Nat × FFlags) : Nat × FFlags := if t.isInt then wrapped t k else g

/-- The scalar that VBCAST and VINS put in a lane (R127). -/
def scalar (s : State) (t : ElemTy) (a : Nat) : Nat × FFlags :=
  match t with
  | .f32 => ((s.rdF a).toNat, FFlags.none)
  | .bf16 => Machine.bf16.convert s.src.fcsr.rm (fval s a)
  | .f16 => fp16.convert s.src.fcsr.rm (fval s a)
  | .i32 => ((s.rdX a).toNat % 2 ^ 32, FFlags.none)
  | .i16 => ((s.rdX a).toNat % 2 ^ 16, FFlags.none)
  | .i8 => ((s.rdX a).toNat % 2 ^ 8, FFlags.none)

/-- The lanewise vector forms that complete with bypass: label words, the register that inactive lanes come from, and
lane `i` of an active lane with its flags (R118 to R121, R127). -/
def vectorForms (s : State) (t : ElemTy) (d a b pg : Nat) :
    List (Instr × List LabelWord × VWord × (Nat → Nat × FFlags)) :=
  let ab := [s.labV a, s.labV b] ++ mergeWords s d pg
  let one := [s.labV a] ++ mergeWords s d pg
  let acc := [s.labV d, s.labV a, s.labV b] ++ predWords s pg
  let old := s.rdV d
  let A := laneOf t.bits (s.rdV a)
  let B := laneOf t.bits (s.rdV b)
  let X := laneInt s t a
  let Y := laneInt s t b
  let F := laneFloat s t a
  let G := laneFloat s t b
  let m := s.src.fcsr.rm
  let bits (n : Nat) : Nat × FFlags := (n, FFlags.none)
  [(.vadd t d a b pg, ab, old, fun i => byType t (X i + Y i) (t.fmt.addV m (F i) (G i))),
   (.vsub t d a b pg, ab, old, fun i => byType t (X i - Y i) (t.fmt.addV m (F i) (G i).neg)),
   (.vmul t d a b pg, ab, old, fun i => byType t (X i * Y i) (t.fmt.mulF m (F i) (G i))),
   (.vfma t d a b pg, acc, old, fun i =>
     byType t (laneInt s t d i + X i * Y i) (t.fmt.fmaF m (laneFloat s t d i) (F i) (G i))),
   (.vfms t d a b pg, acc, old, fun i =>
     byType t (laneInt s t d i - X i * Y i) (t.fmt.fmaF m (laneFloat s t d i) (F i).neg (G i))),
   (.vmin t d a b pg, ab, old, fun i => byType t (min (X i) (Y i)) (t.fmt.minMax false (A i) (B i))),
   (.vmax t d a b pg, ab, old, fun i => byType t (max (X i) (Y i)) (t.fmt.minMax true (A i) (B i))),
   (.vabs t d a pg, one, old, fun i => byType t (X i).natAbs (bits (A i % t.fmt.signBit))),
   (.vneg t d a pg, one, old, fun i => byType t (-X i) (bits (A i ^^^ t.fmt.signBit))),
   (.vand t d a b pg, ab, old, fun i => bits (A i &&& B i)), (.vor t d a b pg, ab, old, fun i => bits (A i ||| B i)),
   (.vxor t d a b pg, ab, old, fun i => bits (A i ^^^ B i)),
   (.vshl t d a b pg, ab, old, fun i => bits (A i * 2 ^ (B i % t.bits) % 2 ^ t.bits)),
   (.vshr t d a b pg, ab, old, fun i => bits (A i / 2 ^ (B i % t.bits))),
   (.vsra t d a b pg, ab, old, fun i => wrapped t (X i / 2 ^ (B i % t.bits))),
   (.vsel t d a b pg, [s.labV a, s.labV b] ++ predWords s pg, s.rdV b, fun i => bits (A i)),
   (.vmov t d a pg, one, old, fun i => bits (A i)),
   (.vperm t d a b pg, acc, old, fun i =>
     let j := B i % (2 * t.count)
     bits (if j < t.count then A j else laneOf t.bits (s.rdV d) (j - t.count))),
   (.vscale t d a b pg, ab, old, fun i => t.fmt.scale (F i) (laneOf 8 (s.rdV b) i)),
   (.vbcast t d a pg, [if t.isInt then s.labX a else s.labF a] ++ mergeWords s d pg, old, fun _ => scalar s t a)]

/-- The tree of a reduction over `2 ^ k` values, half of them onto the other half at each level, with all flags (R125). -/
def tree (op : Nat → Nat → Nat × FFlags) : Nat → (Nat → Nat) → Nat × FFlags
  | 0, v => (v 0, FFlags.none)
  | k + 1, v =>
    let r (i : Nat) : Nat × FFlags := op (v i) (v (i + 2 ^ k))
    let top := tree op k fun i => (r i).1
    (top.1, ((List.range (2 ^ k)).foldl (fun acc i => acc.or (r i).2) FFlags.none).or top.2)

/-- The lanes that a reduction takes, the identity for inactive ones (R125). -/
def reduced (s : State) (t : ElemTy) (a pg ident i : Nat) : Nat :=
  if activeLane s t pg i then laneOf t.bits (s.rdV a) i else ident

/-- The sum of R125: −0 is the identity of floats, 0 of integers; floats are rounded to nearest even at each step. -/
def laneSum (s : State) (t : ElemTy) (a pg : Nat) : Nat × FFlags :=
  tree (fun p q => if t.isInt then ((p + q) % 2 ^ t.bits, FFlags.none) else t.fmt.addV 0 (t.fmt.decode p) (t.fmt.decode q))
    t.count.log2 (reduced s t a pg (if t.isInt then 0 else 2 ^ (t.bits - 1)))

/-- The maximum of R125: −Inf is the identity of floats, the most negative integer that of integers. -/
def laneMax (s : State) (t : ElemTy) (a pg : Nat) : Nat × FFlags :=
  tree (fun p q => if t.isInt then (if signed t.bits p < signed t.bits q then q else p, FFlags.none)
      else t.fmt.minMax true p q)
    t.count.log2 (reduced s t a pg (if t.isInt then 2 ^ (t.bits - 1) else t.fmt.infBits true))

/-- What VEXT gives of a float lane: its bits, or the lane as FP32; +0 beyond the last (R127). -/
def laneFp32 (s : State) (t : ElemTy) (a i : Nat) : Nat × FFlags :=
  if t.count ≤ i then (0, FFlags.none)
  else if t = .f32 then (laneOf 32 (s.rdV a) i, FFlags.none)
  else fp32.convert 0 (laneFloat s t a i)

/-- The long-latency vector forms (R126, R53). -/
def vectorLongForms (s : State) (t : ElemTy) (d a pg : Nat) : List (Instr × (Nat → Nat × FFlags)) :=
  [(.vexp2 t d a pg, fun i => t.fmt.exp2F (laneFloat s t a i)), (.vrcp t d a pg, fun i => t.fmt.rcpF (laneFloat s t a i)),
   (.vrsq t d a pg, fun i => t.fmt.rsqF (laneFloat s t a i))]

/-- A register whose active lanes are `g`'s and whose other lanes are those of `old`. -/
def lanesAre (s : State) (t : ElemTy) (pg : Nat) (old : VWord) (g : Nat → Nat × FFlags) (val : VWord) : Prop :=
  ∀ i, i < t.count → laneOf t.bits val i =
    if activeLane s t pg i then (g i).1 % 2 ^ t.bits else laneOf t.bits old i

/-- The flags of the active lanes together. -/
def laneFlags (s : State) (t : ElemTy) (pg : Nat) (g : Nat → Nat × FFlags) : FFlags :=
  ((List.range t.count).filter (activeLane s t pg)).foldl (fun acc i => acc.or (g i).2) FFlags.none

/-- An element converted between types (R122). -/
def converted (s : State) (t src : ElemTy) (bits : Nat) : Nat × FFlags :=
  let m := s.src.fcsr.rm
  let k := signed src.bits bits
  let lo : Int := -(2 ^ (t.bits - 1) : Nat)
  let hi : Int := (2 ^ (t.bits - 1) : Nat) - 1
  match src.isInt, t.isInt with
  | false, false => t.fmt.convert m (src.fmt.decode bits)
  | false, true => ((wrapped t (toInt m lo hi (src.fmt.decode bits)).1).1, (toInt m lo hi (src.fmt.decode bits)).2)
  | true, false => t.fmt.ofInt m k
  | true, true => wrapped t (max lo (min hi k))

/-- The entries of a decode bank, and the bits of its codes (R104). -/
def entries (s : State) (b : Bank) : List Half :=
  match b with
  | .a => s.src.bankA.toList
  | .b => s.src.bankB.toList

def codeWidth (b : Bank) : Nat :=
  match b with
  | .a => 8
  | .b => 4

/-- A predicate with every bit of lane `i` set where `g i` (R116). -/
def predIs (t : ElemTy) (g : Nat → Bool) (val : Word) : Prop :=
  ∀ i, i < 64 → val.getLsbD i = g (i / t.size)

/-! ### Encodings and steps -/

/-- The events and packets, which have no encoding. -/
def event : Instr → Bool
  | .longLatencyResultReturn _ _ _ | .dispatch _ _ | .recordAging _ _ | .gangReserve _ _ | .gangwaitExpiry _ _
  | .recordWake _ _ | .coreParkWake _ _ | .fencescTickEnd _ _ | .strokeTick | .upcallDelivery _ _
  | .contraRetire _ _ | .wresetRetire _ _ | .leaseGrant _ _ | .matrixCommandComplete _ _ | .matrixHalt _ _
  | .jobStart _ _ | .jobComplete _ _ _ | .jobFault _ _ _ | .transformTimeout _ _ _ | .faultRecordPoll _
  | .streamStripFetch _ _ _ | .remoteLand _ _ _ _ _ | .remoteFailure _ _ _ | .rowOpExecute _ _
  | .rpromoComplete _ _ | .rdemoComplete _ _ | .iredExecute _ _ | .edgeRunStart _ | .superstep _
  | .edgeInvocation _ _ | .edgeRunFault _ | .pageWalkComplete _ _ | .shootdownService | .unloadFree _ | .gangStop
  | .contextRestore _ _ _ | .contextCreate _ | .contextDestroy _ | .deviceFault | .queueCreate _ | .doorbell _
  | .rmaWrite _ _ _ | .rmaRead _ _ _ | .packetDependencyMet _ _ | .launch _ _ | .copyin _ _ | .copyout _ _
  | .signal _ _ | .wait _ _ | .barrier _ _ | .load _ _ | .unload _ _ | .qreset _ _ | .ptpSync _ _ _ | .ptpSyncLoss
  | .poolReadMiss _ _ _ | .poolLeaseExpiry _ | .poolWriteApply _ | .backInvalidate _ | .fabricBind _ _
  | .powerOnReset _ _ | .firmwareFetchRetry _ | .firmwareFetch _ | .statusRequest | .routineLoad _ _ _
  | .attestationRequest _ | .svnRaise _ | .healthRequest | .telemetryRequest | .powerCapSet _ | .currentLimit
  | .thermalThrottle _ | .thermalTrip _ | .unitLoss _ _ | .currentFallsBelowLimit | .throttleLevelChange _
  | .copyPacketComplete _ _ _ _ => true
  | _ => false

/-- The immediate shifts with their selectors and results (R83). -/
def shiftForms (d a n : Nat) : List (Instr × Nat × (Word → Word)) :=
  [(.shli d a n, 0, fun x => BitVec.ofNat 64 (x.toNat * 2 ^ n)), (.shri d a n, 1, fun x => BitVec.ofNat 64 (x.toNat / 2 ^ n)),
   (.srai d a n, 2, fun x => BitVec.ofInt 64 (x.toInt / 2 ^ n))]

/-- No tick is due, the agenda is empty, and the core that moves has a record and waits for nothing. -/
def mayIssue (s : State) : Prop :=
  s.tickDue = false ∧ s.agenda = [] ∧ s.dev.down = false ∧ s.ctx.stopped = false ∧ s.dev.currentStall = false ∧
    s.core.record ≠ none ∧ s.core.upcallReady = false ∧ s.core.park = none ∧ s.core.stalled = false

/-- Among the registers read and written none waits for a result and no source is a stream. -/
def operandsSettled (s : State) (read written : List Reg) : Prop :=
  (∀ p, p ∈ s.core.pending → p.reg ∉ read ++ written) ∧
    ∀ v, Reg.v v ∈ read → lookup s.core.streams v = none

/-- The core with a word as the one that executes; of a lone container its word1 finds no strip popped by word0. -/
def issuing (s : State) (addr : Word) (lone : Bool) : State :=
  { s with core := { s.core with
      issue := ⟨addr, lone, false⟩, trapped := none, late := none, stalled := false
      popped := if lone = true ∧ addr.toNat / 4 % 2 = 0 then some (BitVec.ofNat 64 (addr.toNat / 8 * 8), []) else none } }

/-- The state from which both words of a pair run: a word0 that waits for what is outstanding has waited (R344), and what
the words read is latched (R47). -/
def pairing (s : State) (here : Word) (i : Instr) : State :=
  let u := issuing (if s.awaitsResults i then s.drain else s) here false
  { u with core := { u.core with latch := some (u.core.regs, u.core.lblcfg) } }

/-- A word of a pair as the one that executes. -/
def atWord (s : State) (addr : Word) : State :=
  { s with core := { s.core with issue := { s.core.issue with addr := addr }, trapped := none } }

/-- What a step makes of an instruction that completed: the switch marker parks a core with results outstanding (R51). -/
def marked (t : State) (sw : Bool) : State :=
  let u : State := { t with core := { t.core with latch := none } }
  if sw = true ∧ u.core.pending ≠ [] ∧ u.core.record ≠ none then
    { u with core := { u.core with park := some .marker } }
  else u

/-- The instruction completed: it neither trapped nor waits, and each of its accesses was performed (R440). -/
def completed (t : State) : Prop :=
  t.core.trapped = none ∧ t.core.stalled = false ∧ t.core.park = none ∧ t.core.late = none ∧ t.dev.awaited = []

/-- The control registers with their reset values (R41, R207). -/
def resetValues : List (Nat × Word) :=
  [(0x000, 0), (0x001, 0), (0x002, 0), (0x003, 0), (0x010, 0x10400), (0x011, 0), (0x012, 0), (0x020, 0), (0x021, 0),
   (0x022, 0), (0x023, 0), (0x024, 0), (0x025, 0), (0x026, 0), (0x027, 0), (0x030, 0), (0x031, 0), (0x032, 0), (0x040, 0),
   (0x041, 0), (0x048, 0), (0x050, 0), (0x058, 0)]

/-- The sample entries of the reset banks, and that the upper half of each holds the negatives of the lower (R106). -/
def resetBanks : Prop :=
  let a (c : Nat) : Half := fileGet (by decide) State.reset.core.regs.bankA c
  let b (c : Nat) : Half := fileGet (by decide) State.reset.core.regs.bankB c
  a 0x00 = 0 ∧ a 0x01 = 0x0001D800 ∧ a 0x38 = 0x0001FC00 ∧ a 0x7E = 0x00021F00 ∧ a 0x7F = 0x002BFE00 ∧
    a 0xFF = 0x002FFE00 ∧ b 0x0 = 0 ∧ b 0x1 = 0x0001F800 ∧ b 0x7 = 0x00020600 ∧ b 0xF = 0x00060600 ∧
    (∀ c, c < 128 → a (128 + c) = a c + 0x40000) ∧ ∀ c, c < 8 → b (8 + c) = b c + 0x40000

/-! ### Engines -/

/-- Of the context, all is as before but labels entered, and in the core's cluster the engines, the range locks, the
translations held and the queues of engine operations. -/
def engineKept (s t : State) : Prop :=
  (∃ extra, t.ctx = { s.ctx with
    clusters := t.ctx.clusters, world := { s.ctx.world with table := s.ctx.world.table ++ extra } }) ∧
    (∀ cl, { t.cluster cl with
      engines := (s.cluster cl).engines, copies := (s.cluster cl).copies, rowq := (s.cluster cl).rowq
      ireds := (s.cluster cl).ireds, remotes := (s.cluster cl).remotes, locks := (s.cluster cl).locks
      tlb := (s.cluster cl).tlb, first := (s.cluster cl).first, walks := (s.cluster cl).walks } = s.cluster cl) ∧
    t.focus = s.focus ∧ t.others = s.others ∧ t.agenda = s.agenda

/-- The range-lock table of the core's cluster has room for `n` more ranges. -/
def locksRoom (s : State) (n : Nat) : Prop := s.myCluster.locks.length + n ≤ Config.rangeLocks

/-- The core's matrix commands can be queued: it holds the lease, nothing is set aside, no fault is deferred, its queue
is not full (R239, R252, R256). -/
def matrixReady (s : State) : Prop :=
  plainCore s ∧ s.holdsLease = true ∧ s.core.aside = [] ∧ s.core.mfault = none ∧
    (s.myEngine.queue.filter fun m => m.core == s.focus.core).length < Config.matrixQueue ∧ locksRoom s 2

/-- A base and its stride word are multiples of 16 (R247). -/
def strideAligned (base w : Word) : Prop := base.toNat % 16 = 0 ∧ w.toNat % 2 ^ 48 % 16 = 0

/-- The label words of `n` registers from x`a`. -/
def group (s : State) (a n : Nat) : List LabelWord := (List.range n).map fun i => s.labX (a + i)

/-- The scale registers of a form with depth `k` (R250). -/
def scales (vs k : Nat) : List Nat := (List.range (k / 32)).map (vs + ·)

/-- The six MMA forms with the form, the scale registers, and whether they take a bitmap (R245 to R250). -/
def mmaForms (shape acc : Nat) (z : Bool) (a b vs : Nat) : List (Instr × MForm × List Nat) :=
  [(.mmabb shape acc z a b, .bb, []), (.mmahh shape acc z a b, .hh, []), (.mmaii shape acc z a b, .ii, []),
   (.mmaee shape acc z a b vs, .ee, scales vs (shapeK mmaEE shape)),
   (.mmaef shape acc z a b vs, .ef, scales vs (shapeK mmaEF shape)),
   (.mmaff shape acc z a b vs, .ff, scales vs (shapeK mmaFF shape))]

/-- A matrix command entered the queue of the core's engine behind those there, with its operands as captured and one
command counted against the lease; the core completed and changed no register (R241, R252). -/
def commandQueued (s t : State) (cmd : MCmd) (ctl : LabelWord) (scaleLbls : List LabelWord) : Prop :=
  (∃ e, t.myEngine.queue = s.myEngine.queue ++ [e] ∧ e.cmd = cmd ∧ e.core = s.focus.core ∧ e.pc = s.core.issue.addr ∧
    e.mode = s.core.status.mode ∧ e.ctl = ctl ∧ e.scaleLbls = scaleLbls ∧ e.bankA = s.myEngine.bankA ∧
    e.bankB = s.myEngine.bankB ∧ e.rows = 0 ∧ e.record = s.core.crec ∧ e.last = false) ∧
    (1 < s.myEngine.lrem → t.myEngine.holder = s.myEngine.holder ∧ t.myEngine.lrem = s.myEngine.lrem - 1) ∧
    (s.myEngine.lrem ≤ 1 → t.myEngine.holder = none ∧ t.myEngine.prev = s.myEngine.holder) ∧
    t.core.regs = s.core.regs ∧ latencyKept s t ∧ coreKept s t ∧ engineKept s t ∧
    { t.dev with nextId := s.dev.nextId } = s.dev ∧ memoryKept s t

/-- A word of 32 bits of an accumulator row. -/
def accWord (c : Core) (acc i j : Nat) : Nat := (fileGet (by decide) (c.tile acc).row i).toNat / 2 ^ (32 * j) % 2 ^ 32

/-- The byte lies in the inbox of a local store of the window (R132, R133). -/
def inInbox (s : State) (v : Nat) : Prop :=
  s.ctx.desc.lsbase ≤ v ∧ v < s.ctx.desc.lsbase + 192 * 2 ^ 18 ∧ 0x3F000 ≤ (v - s.ctx.desc.lsbase) % 2 ^ 18

/-- `v` is the lowest byte of the spans, each as (first byte, length), that lies in an inbox (R133). -/
def lowestInbox (s : State) (spans : List (Nat × Nat)) (v : Nat) : Prop :=
  inInbox s v ∧ (∃ p, p ∈ spans ∧ within p.1 p.2 v) ∧ ∀ b, b < v → inInbox s b → ∀ p, p ∈ spans → ¬ within p.1 p.2 b

/-- The core's crew. -/
def crew (s : State) : Nat := s.focus.core / 8

/-- The copy unit of a crew. -/
def unit (s : State) (cl crew : Nat) : CopyUnit := (s.cluster cl).copyUnit crew

/-- A job of a unit that runs. -/
def runs (s : State) (cl crew : Nat) (j : Job) : Prop :=
  ((unit s cl crew).jobs.find? fun x => x.id == j.id && x.state == .running) = some j

/-- The COUNT and the ERR bit of a counter. -/
def count (c : Core) (k : Nat) : Nat := (fileGet (by decide) c.k k).toNat % 2 ^ 31
def err (c : Core) (k : Nat) : Bool := (fileGet (by decide) c.k k).getLsbD 31

/-- A counter went from its value in `c` on by `n`, with ERR set when the operation ended in error (R30, R31). -/
def counted (c d : Core) (k n : Nat) (bad : Bool) : Prop :=
  count d k = (count c k + n) % 2 ^ 31 ∧ err d k = (bad || err c k)

/-- A job completed with a code, the state before its completion being `u` (R280): it has left its unit, its status is
kept, its ranges are free, its counter has advanced. -/
def jobDone (u t : State) (cl crew : Nat) (j : Job) (code index : Nat) : Prop :=
  (∀ x, x ∈ (unit t cl crew).jobs → x.id ≠ j.id) ∧
    (j.id, BitVec.ofNat 64 (3 + code * 2 ^ 8 + index * 2 ^ 32), j.core) ∈ (unit t cl crew).kept ∧
    (∀ l, l ∈ (t.cluster cl).locks → l.id ∉ j.locks) ∧
    (j.fk = true → counted (u.coreAt cl j.core) (t.coreAt cl j.core) j.k 1 (decide (code ≠ 0))) ∧
    (j.fk = false → (t.coreAt cl j.core).k = (u.coreAt cl j.core).k)

/-- A file of registers in which one alone has taken a new value. -/
def oneWritten {α : Type} {n : Nat} (h : 0 < n) (v w : Vector α n) (d : Nat) (a : α) : Prop :=
  ∀ r, r < n → fileGet h w r = if r = d then a else fileGet h v r

/-- The registers after a result has returned (R52, R101): its register and label word alone, nothing for x0 and p0, and FCSR's
flags. -/
def landed (r q : Regs) (p : Pending) : Prop :=
  q.fcsr = ⟨r.fcsr.rm, r.fcsr.flags.or p.flags⟩ ∧
    match p.reg with
    | .x d => { q with x := r.x, xl := r.xl, fcsr := r.fcsr } = r ∧ (d = 0 → q.x = r.x ∧ q.xl = r.xl) ∧ (0 < d → d < 64 →
        oneWritten (by decide) r.x q.x d (p.value.truncate 64) ∧ oneWritten (by decide) r.xl q.xl d p.lbl)
    | .f d => { q with f := r.f, fl := r.fl, fcsr := r.fcsr } = r ∧ (d < 32 →
        oneWritten (by decide) r.f q.f d (p.value.truncate 32) ∧ oneWritten (by decide) r.fl q.fl d p.lbl)
    | .v d => { q with v := r.v, vl := r.vl, fcsr := r.fcsr } = r ∧ (d < 32 →
        oneWritten (by decide) r.v q.v d p.value ∧ oneWritten (by decide) r.vl q.vl d p.lbl)
    | .p d => { q with p := r.p, pl := r.pl, fcsr := r.fcsr } = r ∧ (d = 0 → q.p = r.p ∧ q.pl = r.pl) ∧ (0 < d → d < 8 →
        oneWritten (by decide) r.p q.p d (p.value.truncate 64) ∧ oneWritten (by decide) r.pl q.pl d p.lbl)

/-- A counter of another core than the one that moves, or of it. -/
def regsOf (s : State) (cl core : Nat) : Regs := (s.coreAt cl core).regs

/-- The remote forms (R289). -/
def remoteForms (k a : Nat) : List (Instr × RemoteKind) :=
  [(.get k a, .get), (.getx k a, .getx), (.send k a, .send), (.sendx k a, .sendx)]

/-- What an operation writes at the issuer's end, as (first byte, length): the side of a GET, the delivery bitmap (R290,
R291). -/
def nearSpans (s : State) (r : RemoteOp) : List (Nat × Nat) :=
  let base := s.ctx.desc.lsbase
  match r.kind with
  | .get => [(base + r.localOff, r.bytes)]
  | .getx => [(base + r.localOff, r.n * r.esize), (base + (r.indexOff + 4 * r.n + 7) / 8 * 8, (r.n + 63) / 64 * 8)]
  | .send => []
  | .sendx => [(base + (r.indexOff + 4 * r.n + 7) / 8 * 8, (r.n + 63) / 64 * 8)]

/-- An operation in flight of a cluster. -/
def inFlight (s : State) (cl : Nat) (r : RemoteOp) : Prop :=
  ((s.cluster cl).remotes.find? fun x => x.id == r.id) = some r

/-- The group of an SMODE breaks its rules (R292): a count of 0, a stride that is no multiple of 64, a reserved bit. -/
def streamBad (s : State) (a : Nat) : Prop :=
  let n := (s.rdX (a + 1)).toNat
  let d := (s.rdX (a + 2)).toNat
  let e := (s.rdX (a + 3)).toNat
  n % 2 ^ 16 = 0 ∨ n / 2 ^ 16 % 2 ^ 16 = 0 ∨ n / 2 ^ 32 % 2 ^ 16 = 0 ∨ n / 2 ^ 48 ≠ 0 ∨ d % 64 ≠ 0 ∨ d / 2 ^ 32 % 64 ≠ 0 ∨
    e % 64 ≠ 0 ∨ e / 2 ^ 32 ≠ 0

/-- A bit of a destination row from those of its sources (R305). -/
def rowBit (kind : RowKind) (bs : List Bool) : Bool :=
  let x := bs.getD 0 false
  let y := bs.getD 1 false
  let z := bs.getD 2 false
  match kind with
  | .rbool .and2 => x && y
  | .rbool .or2 => x || y
  | .rbool .xor2 => x != y
  | .rbool .nand2 => !(x && y)
  | .rbool .nor2 => !(x || y)
  | .rbool .xnor2 => x == y
  | .rbool .not1 => !x
  | .rbool .maj3 => decide (2 ≤ x.toNat + y.toNat + z.toNat)
  | _ => x

/-- The row operations with their kind and the registers after the destination, with their roles (R300, R302). -/
def rowForms (k a : Nat) : List (Instr × RowKind × List (RowRole × Nat)) :=
  [(.rcopy k a, .rcopy, [(.src, a + 1), (.stat, a + 2)]), (.rfill k a, .rfill, [(.pat, a + 1), (.stat, a + 2)]),
   (.rbool .not1 k a, .rbool .not1, [(.src, a + 1), (.stat, a + 4)]),
   (.rbool .maj3 k a, .rbool .maj3, [(.src, a + 1), (.src, a + 2), (.src, a + 3), (.stat, a + 4)])] ++
  ([.and2, .or2, .xor2, .nand2, .nor2, .xnor2] : List RboolOp).map fun op =>
    (.rbool op k a, .rbool op, [(.src, a + 1), (.src, a + 2), (.stat, a + 4)])

/-- The promotion forms (R309). -/
def promoForms (pin : Bool) (k a : Nat) : List (Instr × RowKind) :=
  [(.rpromo pin k a, .rpromo pin), (.rdemo k a, .rdemo)]

/-- A row operation entered the row queue of the core's cluster; the core completed. -/
def rowQueued (s v t : State) (kind : RowKind) (k : Nat) (ctl : LabelWord) (operands : List RowOperand) (status : Option RowOperand) :
    Prop :=
  (∃ op, t.myCluster.rowq = v.myCluster.rowq ++ [op] ∧ op.kind = kind ∧ op.k = k ∧ op.ctl = ctl ∧
    op.operands = operands ∧ op.status = status ∧ op.core = s.focus.core ∧ op.mode = s.core.status.mode) ∧
    t.core.regs = s.core.regs ∧ latencyKept s t ∧ (v.dev.mem = s.dev.mem → memoryKept s t)

/-- A row operation of a cluster. -/
def queuedRow (s : State) (cl : Nat) (r : RowOp) : Prop :=
  ((s.cluster cl).rowq.find? fun x => x.id == r.id) = some r

/-- The invocation that the core runs, outside its trap handlers (R329, R341). -/
def invoked (s : State) (e : EdgeRole) (i : Invocation) : Prop :=
  s.core.edge = some e ∧ e.inv = some i ∧ e.depth = 0

/-- The forms that an edge invocation refuses, with EINFO and EADDR (R330); scatters with an active lane. -/
def refusedForm (s : State) : Instr → Option (Nat × Word)
  | .sb _ a off => some (1, scalarAddress s a off 1)
  | .sh _ a off => some (1, scalarAddress s a off 2)
  | .sw _ a off | .fsw _ a off => some (1, scalarAddress s a off 4)
  | .sd _ a off => some (1, scalarAddress s a off 8)
  | .vst _ a imm => some (1, lineAddress s a imm)
  | .vsts _ a b pg => (lanesOn s pg).head?.map fun i => (1, strided s a b i)
  | .vstx _ a b pg => (lanesOn s pg).head?.map fun i => (1, indexed s a b i)
  | .lst _ a => some (1, s.rdX a)
  | .cwb a | .cinv a | .cflush a => some (1, BitVec.ofNat 64 ((s.rdX a).toNat / 64 * 64))
  | .wbrow a | .invrow a => some (1, BitVec.ofNat 64 ((s.rdX a).toNat / 1024 * 1024))
  | .amo _ _ _ _ _ a | .cas _ _ _ _ a | .famo _ _ _ _ a | .csum _ _ _ a => some (3, s.rdX a)
  | .jsub _ _ | .jcancel _ _ | .get _ _ | .getx _ _ | .send _ _ | .sendx _ _ | .smode _ _ | .rcopy _ _ | .rfill _ _
  | .rbool _ _ _ | .rpromo _ _ _ | .rdemo _ _ | .ired _ _ _ | .macq _ | .mmabb _ _ _ _ _ | .mmahh _ _ _ _ _
  | .mmaee _ _ _ _ _ _ | .mmaef _ _ _ _ _ _ | .mmaff _ _ _ _ _ _ | .mmaii _ _ _ _ _ | .mzero _ | .mlda _ _ | .msta _ _
  | .spawn _ _ | .finish _ | .arrive _ _ | .waitc _ _ | .waitk _ _ | .waitt _ _ | .fencesc | .contra _ | .contrav _ | .wreset
  | .dtld _ _ => some (1, 0)
  | .edgerun _ _ => if s.grantValue = none then some (1, 0) else none
  | .fence kinds _ => if 8 ≤ kinds then some (1, 0) else none
  | _ => none

/-- EDGERUN joins a run (R327): the one that waits for joins of the group at that address, or `new`; joined by all it is
ready. The other runs stay. -/
def joinedRun (v q : State) (new : EdgeRun) (k : Nat) (ctl : LabelWord) : Prop :=
  let mine := fun r : EdgeRun => r.phase == .joining && r.desc.g == new.desc.g && r.va == new.va
  (∀ r, r ∈ v.myCluster.runs → mine r = false → r ∈ q.myCluster.runs) ∧
    ∀ r joins, (v.myCluster.runs.find? mine = some r ∨ v.myCluster.runs.find? mine = none ∧ r = new) →
      joins = insertAt v.focus.core (k, ctl) r.joins →
      { r with joins := joins, phase := if r.cores.all (fun c => (lookup joins c).isSome) then .ready else .joining } ∈
        q.myCluster.runs

/-- The core's invocation has ended: it waits for the unit again at its EDGERUN; its outstanding results have returned. -/
def invocationEnded (t : State) (e : EdgeRole) : Prop :=
  t.core.edge = some { e with inv := none } ∧ t.core.pc = e.pc ∧ t.core.issue = e.issue ∧ t.core.loops = [] ∧
    t.core.park = some .edgerun ∧ t.core.pending = []

/-- The core's run, when it combines contributions. -/
def combines (s : State) (r : EdgeRun) : Prop :=
  (lookup r.joins s.focus.core).isSome = true ∧ (r.phase = .running ∨ r.phase = .paused)

/-- The combines of 32 bits with their results (R324). -/
def combines32 (old c : Nat) : List (Nat × Nat) := [(0, (old + c) % 2 ^ 32), (1, min old c), (2, max old c), (3, old ||| c)]

/-- What another core, or the one that moves, keeps when something else happens to it: its registers. -/
def coreRegsKept (s t : State) (cl core : Nat) : Prop := (t.coreAt cl core).regs = (s.coreAt cl core).regs

/-! ### Contexts, queues and the device -/

/-- One context, which runs, with no record suspended, in a run queue or reserving and no image being unloaded: at a stroke
tick nothing of its dispatcher is due. -/
def nothingDue (s : State) : Prop :=
  s.others = [] ∧ s.ctx.stopped = false ∧ (∀ i, i ∈ s.ctx.images → i.unloading = none) ∧
    ∀ cl, (s.cluster cl).suspended = [] ∧ (s.cluster cl).reservations = [] ∧ ∀ e, e ∈ (s.cluster cl).runq → e.2 = []

/-- Nor of firmware: no CXL port has failed an access, and one of the fabric is left. -/
def nothingQueued (s : State) : Prop := nothingDue s ∧ s.dev.cxlFailed = [] ∧ s.dev.poolLost = false

/-- Nothing is in the way of a gang-stop: no CONTRA or WRESET waits, every core stands at an instruction boundary, no
promotion, demotion or combine is in flight, no access of the device's own waits at a line. -/
def stoppable (s : State) : Prop :=
  (∀ cl c g, (s.coreAt cl c).park ≠ some (.contra g) ∧ (s.coreAt cl c).park ≠ some .wreset) ∧ s.atBoundary = true ∧
    (∀ cl r, r ∈ (s.cluster cl).rowq → r.kind.promotes = false ∧ r.kind.demotes = false) ∧
    (∀ cl r, r ∈ (s.cluster cl).runs → r.given = []) ∧ ∀ w, w ∈ s.dev.poolWrites → w.own = false

/-- The byte belongs to the GRANT bitmap of a context (R404). -/
def inGrant (s : State) (desc : CtxDesc) (a : Nat) : Prop :=
  (desc.grant ≤ paOfLoc s.dev.rb a ∧ paOfLoc s.dev.rb a < desc.grant + 2 ^ 20) ∨
    ∃ (pa : Nat) (r : Region), desc.grant ≤ pa ∧ pa < desc.grant + 2 ^ 20 ∧ s.dev.locate pa = some (r, a)

/-- No engine of the context holds a lease for a core. -/
def unleased (s : State) : Prop := ∀ c e, c ∈ s.ctx.clusters → e ∈ c.2.engines → e.2.holder = none

/-- A self-test that leaves nothing to boot with: both I/O dies, the four management cores, or the eight compute dies lost
(R445). -/
def lostAll (lost : List (UnitKind × Nat)) : Prop :=
  (∀ n, n < 2 → (UnitKind.ioDie, n) ∈ lost) ∨ (∀ n, n < 4 → (UnitKind.mgmtCore, n) ∈ lost) ∨
    ∀ n, n < 8 → (UnitKind.die, n) ∈ lost

/-- The unit of 2 MiB of PA lies behind none of the port `num` and, where it is lost, the pool (R434). -/
abbrev unitStays (num : Nat) (pool : Bool) (u : Nat) : Prop :=
  (u < 2 ^ 19 * (4 + num) ∨ 2 ^ 19 * (5 + num) ≤ u) ∧ (pool = true → u < 2 ^ 19 * 12 ∨ 2 ^ 23 ≤ u)

/-- A unit is lost: of the device only the list of lost units changes. -/
def onlyLost (s t : State) (kind : UnitKind) (num : Nat) : Prop :=
  t = { s with dev := { s.dev with lostUnits := s.dev.lostUnits ++ [(kind, num)] } }

/-- The byte of memory belongs to a local store of a context (R130). -/
def inStores (ctxid a : Nat) : Prop := localLoc ctxid 0 0 0 ≤ a ∧ a < localLoc ctxid 0 0 0 + 2 ^ 32

/-- The byte belongs to the label word of a line of a local store of a context. -/
def inStoreLabels (ctxid a : Nat) : Prop :=
  labelLoc (localLoc ctxid 0 0 0) ≤ a ∧ a < labelLoc (localLoc ctxid 0 0 0) + 2 ^ 28

/-- The byte belongs to the save area of the context that moves (R427). -/
def inSaveArea (s : State) (a : Nat) : Prop :=
  s.ctx.inSave (paOfLoc s.dev.rb a) = true ∨ ∃ (pa : Nat) (r : Region), s.ctx.inSave pa = true ∧ s.dev.locate pa = some (r, a)

/-- A queue with a packet in it that may execute (R396, R399). -/
def ready (s : State) (qid typ : Nat) (q : Queue) (p : Packet) : Prop :=
  lookup s.ctx.queues qid = some q ∧ (q.packets.find? fun x =>
    x.seq == p.seq && x.met && !x.started && slotType x.slot == typ) = some p

/-- The packet of the queue executes; nothing else of the context or of the core has changed. -/
def startedAlone (s t : State) (qid seq : Nat) (q : Queue) : Prop :=
  lookup t.ctx.queues qid =
    some { q with packets := q.packets.map fun x => if x.seq = seq then { x with started := true } else x } ∧
    { t.ctx with queues := s.ctx.queues } = s.ctx ∧ t.core = s.core ∧ t.others = s.others

/-- Of the device only one message more is sent out. -/
def replied (s t : State) (r : Reply) : Prop :=
  t = { s with dev := { s.dev with replies := s.dev.replies ++ [r] } }

/-- Doubleword `i` of a packet's body, and its signal word's address (R397). -/
def body (p : Packet) (i : Nat) : Word := p.slot.extractLsb' (512 + 64 * i) 64

/-- The record image of a LAUNCH packet (R11, R398): CODE, FRAME and PARENT are its first doublewords; the control doubleword
gives STAGE, PRIO, PLKIND, GANG, PLTGT, LCLU and GSIZE. -/
def launchBits (p : Packet) (i : Nat) : Bool :=
  if i < 192 then p.slot.getLsbD (512 + i)
  else if 240 ≤ i ∧ i < 249 then p.slot.getLsbD (704 + (i - 240))
  else if 256 ≤ i ∧ i < 272 then p.slot.getLsbD (720 + (i - 256))
  else if 272 ≤ i ∧ i < 280 then p.slot.getLsbD (744 + (i - 272))
  else if 280 ≤ i ∧ i < 288 then p.slot.getLsbD (736 + (i - 280))
  else false

/-- A lease holds a write of its line back no longer (R440): its owner LOCKED, its expiry past by the guard band; or, by cycles
since the data was sent, its time over whatever the clocks say. -/
def leaseEnded (s : State) (r : PoolDesc) (l : Lease) : Prop :=
  (l.trusted = true ∧ s.dev.ptp.locked = true ∧ l.expiry + 2750 * r.gbq.toNat < s.dev.ptp.time) ∨
    l.sent + 1100 * r.ldur.toNat + 550 * r.gbq.toNat ≤ s.dev.cycle.toNat

/-- A request of another device that changes a line of the pool, an atomic of `n` bytes: what stands there afterwards where it
finds `old` (R168 to R171, R438). -/
def poolResult (w : PoolWrite) (old n new : Nat) : Prop :=
  let v := natOf w.bytes
  (∃ op u, w.op = .amo op u ∧ n = u.size ∧ (op, new) ∈ amoResults (8 * n) old (v % 2 ^ (8 * n))) ∨
    (∃ u, w.op = .cas u ∧ n = u.size ∧
      new = if old = v % 2 ^ (8 * n) then v / 2 ^ (8 * n) % 2 ^ (8 * n) else old) ∨
    (∃ op, w.op = .famo op ∧ n = 4 ∧ new = (op.apply old (v % 2 ^ 32)).1) ∨
    (w.op = .csum ∧ n = 8 ∧ new = (csumStep (old % 2 ^ 32) (old / 2 ^ 32) (v % 2 ^ 32)).1
      + 2 ^ 32 * (csumStep (old % 2 ^ 32) (old / 2 ^ 32) (v % 2 ^ 32)).2)

/-- The next attempt at the firmware image has failed with a code (R447, R448). -/
def fetchFailed (s t : State) (code : Nat) : Prop :=
  t.dev.boot.code = code ∧ (s.dev.boot.tries + 1 < 8 → t.dev.boot.stage = 2 ∧ t.dev.boot.tries = s.dev.boot.tries + 1) ∧
    (8 ≤ s.dev.boot.tries + 1 → t.dev.boot.stage = 0xFF ∧ t.dev.down = true)

/-- The firmware image runs and is measured into MR2 (R446, R452). -/
def fetched (s t : State) (image : List Byte) : Prop :=
  t.dev.boot.stage = 3 ∧ t.dev.image = image ∧ t.dev.down = false ∧ t.dev.svn = numAt image 4 4 ∧
    fileGet (by decide) t.dev.mr 2 =
      Config.sha384 (bytesOf 48 (fileGet (by decide) s.dev.mr 2).toNat ++ bytesOf 48 (Config.sha384 image).toNat)

/-! ### Words of the spec's listings -/

/-- Words and the instructions that the spec's listings give for them: control transfers and loops. -/
def listedControl : List (Half × Instr) :=
  [(0x033C_0005, .bne 15 0 5), (0x8A00_3001, .loopi 3 1), (0x0900_8006, .loop 8 6), (0x8804_F000, .jlr 1 15 0),
   (0x0800_1000, .jr 1 0), (0x8100_000C, .jl 0xC), (0x1700_0140, .svc 5)]

/-- Memory, atomics, fences, the catch network and counters. -/
def listedMemory : List (Half × Instr) :=
  [(0xCB14_DC02, .ld 5 13 2), (0x0C3C_D600, .sd 15 13 0), (0x8B05_4E00, .flw 1 20 0), (0x0E00_8001, .vst 0 4 1),
   (0x9014_D0F0, .amo .add .d .ar .sys 5 13), (0xD03C_692C, .cas .w .acq .dev 15 6), (0x110C_0108, .fence 3 .sys),
   (0x1108_0048, .fence 2 .crew), (0x9101_1000, .cwb 17), (0x1100_D0D0, .arrive 3 13), (0x1114_00D2, .catchq 5 3),
   (0x1114_009A, .krd 5 2 0), (0x1100_6159, .waitt 6 5)]

/-- Continuations, labels and control registers. -/
def listedSystem : List (Half × Instr) :=
  [(0x1200_D083, .suspk 2 13 0), (0x9200_0002, .finish 0), (0x1380_D000, .assume 32 13 0), (0x139A_0844, .ljoin 38 32 33),
   (0x1300_F005, .contra 15), (0x133A_9007, .ltest 14 41), (0x1300_0009, .wreset), (0x1614_0001, .crr 5 1),
   (0x1600_D401, .crw 1 13), (0x1614_D800, .crs 5 0 13)]

/-- Engines and edge programs. -/
def listedEngines : List (Half × Instr) :=
  [(0x1414_D000, .jsub 5 13), (0x1402_00C6, .send 3 32), (0x1472_4008, .smode 28 36), (0x1539_0202, .rbool .xor2 3 36),
   (0x1503_4301, .rpromo true 0 13), (0x1523_C501, .ired true 2 15), (0x1513_4600, .edgerun 1 13),
   (0x1700_D008, .edgeret 13), (0x1700_000A, .edgedone), (0x3003_0460, .mmabb 0 0 true 32 35),
   (0x3241_0460, .mmaee 8 0 false 32 35 0), (0x340D_0468, .mmaff 1 1 false 32 35 8), (0x3600_0FC0, .macq 64),
   (0x3604_5003, .mlda 1 5), (0x3688_5186, .mskld 34 5 6)]

/-- Integer, float and vector arithmetic. -/
def listedArithmetic : List (Half × Instr) :=
  [(0x9861_2346, .upi 6 0x12346), (0x1CE0_0000, .aupc 14 0), (0x2118_6FFF, .addi 6 6 0xFFF), (0x2082_0840, .add 32 32 33),
   (0x2041_0381, .sub 16 16 14), (0xA0A6_9A02, .and 41 41 40), (0xA73C_5006, .shli 15 5 6), (0x2300_0000, .ori 0 0 0),
   (0x2804_20C4, .fadd .dyn 1 2 3), (0xA810_51A0, .ffma .rne 4 5 6), (0x291C_2009, .fcvtfi .rtz .i32 7 2),
   (0xAA01_10D3, .vfma .f32 1 2 3 2), (0x2D03_1002, .vdec .a .f32 3 2 0), (0xAEA4_6802, .vbcast .i8 4 13 0),
   (0x2D03_1903, .vscale .f32 3 3 4 0)]

def listed : List (Half × Instr) :=
  listedControl ++ listedMemory ++ listedSystem ++ listedEngines ++ listedArithmetic

end Sys2Proof.Claims

section

open Sys2Proof Sys2Proof.Machine

/-- R78 to R80, R82, R83: an integer form with two register operands or with one writes its result to x[d] and completes;
nothing else but the label table and LBLSTAT changes. Where the label cannot be formed the form traps and writes nothing. -/
def Obligations.IntegerForms : Prop :=
  (∀ (s : State) (d a b : Nat) (i : Instr) (g : Word → Word → Word) (w : LabelWord),
      (i, g) ∈ Claims.integerForms d a b → i.wf = true →
      (Claims.labelled s d [s.labX a, s.labX b] w →
        ∃ t, exec i s = .next t ∧ Claims.xWritten s t d (g (s.rdX a) (s.rdX b)) w) ∧
      ∀ e, d ≠ 0 → s.formConj [s.labX a, s.labX b] = .error (.trap e) → exec i s = .next (s.trapEntry e)) ∧
  (∀ (s : State) (d a k : Nat) (i : Instr) (g : Word → Word) (w : LabelWord),
      (i, g) ∈ Claims.unaryForms d a k → i.wf = true →
      (Claims.labelled s d [s.labX a] w → ∃ t, exec i s = .next t ∧ Claims.xWritten s t d (g (s.rdX a)) w) ∧
      ∀ e, d ≠ 0 → s.formConj [s.labX a] = .error (.trap e) → exec i s = .next (s.trapEntry e))

/-- R81, R78: a division leaves its result outstanding for x[d], and completes. -/
def Obligations.DivisionForms : Prop :=
  ∀ (s : State) (d a b : Nat) (i : Instr) (g : Word → Word → Word) (w : LabelWord),
    (i, g) ∈ Claims.divisionForms d a b → i.wf = true → Claims.labelled s d [s.labX a, s.labX b] w →
    ∃ t, exec i s = .next t ∧ t.core.regs = s.core.regs ∧
      Claims.outstanding s t (.x d) ((g (s.rdX a) (s.rdX b)).zeroExtend 512) w ∧
      t.core.streams = s.core.streams ∧ Claims.coreKept s t ∧ Claims.ctxKept s t ∧ Claims.restKept s t ∧
      Claims.memoryKept s t

/-- R84: UPI and AUPC stand in the U format, belong to the control/memory class, and write x[d] with label ⊤; the spec's
constant sequence as an example. With any word1 of the arithmetic class that decodes and writes another register, either is
word0 of a pair. -/
def Obligations.UpperForms : Prop :=
  (∀ (s : State) (d k : Nat), d < 64 → k < 2 ^ 20 →
    encode (.upi d k) = some (3 * 2 ^ 27 + d * 2 ^ 20 + k) ∧
    encode (.aupc d k) = some (3 * 2 ^ 27 + 2 ^ 26 + d * 2 ^ 20 + k) ∧
    decodeBody (3 * 2 ^ 27 + d * 2 ^ 20 + k) = .ok (.upi d k) ∧
    decodeBody (3 * 2 ^ 27 + 2 ^ 26 + d * 2 ^ 20 + k) = .ok (.aupc d k) ∧
    (∀ body i, (body, i) ∈ [(3 * 2 ^ 27 + d * 2 ^ 20 + k, Instr.upi d k), (3 * 2 ^ 27 + 2 ^ 26 + d * 2 ^ 20 + k, .aupc d k)] →
      arithmeticBody body = false ∧
      ∀ other j, other < 2 ^ 30 → arithmeticBody other = true → decodeBody other = .ok j →
        (d = 0 ∨ Reg.x d ∉ dests j) →
        decodeContainer 0 (BitVec.ofNat 32 body) (BitVec.ofNat 32 other) = .pair i j false) ∧
    (∃ t, exec (.upi d k) s = .next t ∧
      Claims.xWritten s t d (BitVec.ofInt 64 (Claims.signed 20 k * 4096)) s.topWord) ∧
    (∃ t, exec (.aupc d k) s = .next t ∧
      Claims.xWritten s t d (s.core.issue.addr + BitVec.ofInt 64 (Claims.signed 20 k * 4096)) s.topWord)) ∧
  decodeContainer 0 0x98612346 0x21186FFF = .lone (.upi 6 0x12346) false ∧
  decodeContainer 4 0x98612346 0x21186FFF = .lone (.addi 6 6 0xFFF) false ∧
  decodeContainer 0 0x18612346 0x21186FFF = .bad .pair 20 0

/-- R86, R87, R85, R28: J and JL go to their target, JR and JLR to a register's where the Class rule passes and the target
is a multiple of 4; J and JR pop the loops that do not hold the target, JL and JLR pop none and write the address of the
next instruction. A register's target that is no multiple of 4 traps with MISALIGN, and a label of class COND under STRICT
with LBLCTL. -/
def Obligations.Jumps : Prop :=
  ∀ (s : State) (off d a k : Nat) (dst : Word), off < 2 ^ 24 → d < 64 → a < 64 → k < 4096 → d ≠ 0 →
    dst = s.rdX a + BitVec.ofInt 64 (4 * Claims.signed 12 k) →
    (∃ t, exec (.j off) s = .next t ∧ t.core.pc = Claims.target s 24 off ∧ t.core.regs = s.core.regs ∧
      t.core.loops = Claims.loopsAfter s (Claims.target s 24 off) ∧ Claims.transferKept s t) ∧
    (∃ t, exec (.jl off) s = .next t ∧ t.core.pc = Claims.target s 24 off ∧ t.core.loops = s.core.loops ∧
      Claims.xFileWritten s t 1 (Claims.nextAddress s.core.issue) s.topWord ∧ Claims.transferKept s t) ∧
    (dst.toNat % 4 = 0 → Claims.classPasses s [s.labX a] →
      (∃ t, exec (.jr a k) s = .next t ∧ t.core.pc = dst ∧ t.core.regs = s.core.regs ∧
        t.core.loops = Claims.loopsAfter s dst ∧ Claims.transferKept s t) ∧
      (∃ t, exec (.jlr d a k) s = .next t ∧ t.core.pc = dst ∧ t.core.loops = s.core.loops ∧
        Claims.xFileWritten s t d (Claims.nextAddress s.core.issue) s.topWord ∧ Claims.transferKept s t)) ∧
    (dst.toNat % 4 ≠ 0 → Claims.classPasses s [s.labX a] →
      Claims.traps (.jr a k) s .misalign 2 dst ∧ Claims.traps (.jlr d a k) s .misalign 2 dst) ∧
    (dst.toNat % 4 = 0 → Claims.classTraps s [s.labX a] →
      Claims.traps (.jr a k) s .lblctl (Claims.handle (s.labX a)) 0 ∧
      Claims.traps (.jlr d a k) s .lblctl (Claims.handle (s.labX a)) 0)

/-- R85, R88, R28: a branch whose condition holds goes to its target; another completes. Under STRICT a controlling label of
class COND traps with LBLCTL and the handles of both words. -/
def Obligations.Branches : Prop :=
  ∀ (s : State) (a b off : Nat) (i : Instr) (c : Word → Word → Bool),
    (i, c) ∈ Claims.branches a b off → i.wf = true →
    (Claims.classPasses s [s.labX a, s.labX b] →
      ∃ t, exec i s = .next t ∧ t.core.regs = s.core.regs ∧
      (c (s.rdX a) (s.rdX b) = true → t.core.pc = Claims.target s 12 off ∧
        t.core.loops = Claims.loopsAfter s (Claims.target s 12 off) ∧ Claims.transferKept s t) ∧
      (c (s.rdX a) (s.rdX b) = false → Claims.passed s t)) ∧
    (Claims.classTraps s [s.labX a, s.labX b] →
      Claims.traps i s .lblctl (Claims.handle (s.labX a) + 2 ^ 16 * Claims.handle (s.labX b)) 0)

/-- R85, R90, R91, R464: LOOP and LOOPI with a count above 0 and room on the loop stack push the body that begins with the
next container and ends with its last container, with the count, and go on with the next word of a lone container, else with
the body; with a full stack they trap with LOOPOVF; with a count of 0
or less they skip the body. LOOP traps with ILLEGAL, EINFO 9, on a count of 2^32 or more, and with LBLCTL under STRICT on a
label of class COND. -/
def Obligations.LoopsPush : Prop :=
  ∀ (s : State) (a k imm : Nat) (here : Word), a < 64 → k < 4096 → imm < 4096 →
    here = BitVec.ofNat 64 (s.core.issue.addr.toNat / 8 * 8) →
    (∀ (i : Instr) (n : Int), (i = .loopi k imm ∧ n = k ∨
        i = .loop a imm ∧ n = (s.rdX a).toInt ∧ n < 2 ^ 32 ∧ Claims.classPasses s [s.labX a]) →
      (0 < n → s.core.loops.length < 4 →
        ∃ t, exec i s = .next t ∧ t.core.regs = s.core.regs ∧
          t.core.loops = ⟨here + 8, here + 8 + BitVec.ofNat 64 (8 * imm), n.toNat⟩ :: s.core.loops ∧
          t.core.pc = (if s.core.issue.addr.toNat / 4 % 2 = 0 then
            if s.core.issue.lone = true then Claims.nextAddress s.core.issue else s.core.pc
            else if s.core.issue.taken = true then s.core.pc else here + 8) ∧
          Claims.latencyKept s t ∧ Claims.coreButLoops s t ∧ t.ctx = s.ctx ∧ Claims.restKept s t ∧ Claims.memoryKept s t) ∧
      (0 < n → 4 ≤ s.core.loops.length → Claims.traps i s .loopovf 0 0) ∧
      (n ≤ 0 → ∃ t, exec i s = .next t ∧ Claims.bodySkipped s t (here + 8 + BitVec.ofNat 64 (8 * imm)))) ∧
    (2 ^ 32 ≤ (s.rdX a).toInt → Claims.classPasses s [s.labX a] →
      Claims.traps (.loop a imm) s .illegal (Claims.illegalInfo s 9) 0) ∧
    (Claims.classTraps s [s.labX a] → Claims.traps (.loop a imm) s .lblctl (Claims.handle (s.labX a)) 0)

/-- R48, R49, R27: where the end of an instruction that transfers no control leads. Word0 of a lone container goes on
with word1; word0 of a pair leaves the pc to word1; the last instruction of a container goes on with the next container
unless the innermost loop that is not frozen ends here, which then repeats or is popped. -/
def Obligations.CompletionAdvances : Prop :=
  ∀ (s : State) (here : Word), here = BitVec.ofNat 64 (s.core.issue.addr.toNat / 8 * 8) →
    (s.core.issue.addr.toNat / 4 % 2 = 0 → s.core.issue.lone = true →
      s.complete.core.pc = s.core.issue.addr + 4 ∧ s.complete.core.loops = s.core.loops) ∧
    (s.core.issue.addr.toNat / 4 % 2 = 0 → s.core.issue.lone = false → s.complete.core = s.core) ∧
    (s.core.issue.addr.toNat / 4 % 2 = 1 → s.core.issue.taken = true →
      s.complete.core.pc = s.core.pc ∧ s.complete.core.loops = s.core.loops) ∧
    (s.core.issue.addr.toNat / 4 % 2 = 1 → s.core.issue.taken = false →
      (s.core.loops.length ≤ s.core.frozen →
        s.complete.core.pc = here + 8 ∧ s.complete.core.loops = s.core.loops) ∧
      ∀ e rest, s.core.loops = e :: rest → s.core.frozen ≤ rest.length →
        (e.stop ≠ here → s.complete.core.pc = here + 8 ∧ s.complete.core.loops = s.core.loops) ∧
        (e.stop = here → 1 < e.count → s.complete.core.pc = e.start ∧
          s.complete.core.loops = { e with count := e.count - 1 } :: rest) ∧
        (e.stop = here → e.count ≤ 1 →
          s.complete.core = (s.mapCore fun c => { c with loops := rest }).complete.core))

/-- R186, R187, R188, R423: trap entry saves the pc, the cause and the loop stack, sets S mode and goes to the trap entry; the
registers, the counters, the accumulators and the results outstanding stay. Where the trap entry cannot be fetched the
context takes a context fault, which is reported with the cause, and the core stays as it was. -/
def Obligations.TrapEntry : Prop :=
  (∀ (s u : State) (t : Trap), Claims.entryFetched s u → s.core.loops.length ≤ 4 → s.core.frozen ≤ 4 →
      (s.trapEntry t).core.epc = t.epc ∧ (s.trapEntry t).core.einfo = t.info ∧ (s.trapEntry t).core.eaddr = t.addr ∧
      (s.trapEntry t).core.ecause.toNat % 2 ^ 8 = t.cause.code ∧
      (s.trapEntry t).core.ecause.getLsbD 8 = decide (s.core.status.mode = .s) ∧
      (s.trapEntry t).core.ecause.toNat / 2 ^ 9 % 2 ^ 3 = s.core.frozen ∧
      (∀ i, i < 4 → match s.core.loops.reverse[i]? with
        | none => fileGet (by decide) (s.trapEntry t).core.sloop i = 0
        | some e =>
          (fileGet (by decide) (s.trapEntry t).core.sloop i).toNat / 2 ^ 32 = e.count % 2 ^ 32 ∧
          (fileGet (by decide) (s.trapEntry t).core.sloop i).toNat / 2 ^ 20 % 2 ^ 12
            = (e.stop - e.start).toNat / 8 % 2 ^ 12 ∧
          (fileGet (by decide) (s.trapEntry t).core.sloop i).toNat % 2 ^ 20 = e.start.toNat / 2 ^ 3 % 2 ^ 20 ∧
          (s.trapEntry t).core.ecause.toNat / 2 ^ (16 + 12 * i) % 2 ^ 12 = e.start.toNat / 2 ^ 23 % 2 ^ 12) ∧
      (s.trapEntry t).core.loops = [] ∧
      (s.trapEntry t).core.status = { s.core.status with mode := .s } ∧
      (s.trapEntry t).core.pc = BitVec.ofNat 64 s.ctx.desc.trapent ∧
      (s.trapEntry t).core.regs = s.core.regs ∧ (s.trapEntry t).core.k = s.core.k ∧
      (s.trapEntry t).core.acc0 = s.core.acc0 ∧ (s.trapEntry t).core.acc1 = s.core.acc1 ∧
      (s.trapEntry t).core.pending = s.core.pending ∧ Claims.memoryKept s (s.trapEntry t)) ∧
  ∀ (s : State) (t : Trap) (d : Deny), s.fetchPlace .s (BitVec.ofNat 64 s.ctx.desc.trapent) = .error d →
    (s.trapEntry t).ctx.faulted = true ∧ (s.trapEntry t).ctx.stopped = true ∧ (s.trapEntry t).core = s.core ∧
    Reply.contextFault s.ctx.desc.ctxid d.cause.code ∈ (s.trapEntry t).dev.replies

/-- R95: SVC n is encoded with n[11:6] in a and n[5:0] in b, and traps with cause SVC in either mode: EPC is the
sequential successor or the address that end-of-body processing chose, EINFO is n, EADDR is 0, and the loop stack as
that processing left it is saved. -/
def Obligations.SvcTraps : Prop :=
  encode (.svc 5) = some 0x17000140 ∧
  ∀ (s u : State) (n : Nat), n < 4096 → Claims.entryFetched s.complete u →
    encode (.svc n) = some (Enc.r 0x17 0 (n / 64) (n % 64) 0) ∧
    ∃ t, exec (.svc n) s = .next t ∧
      (∃ r, Claims.trapped s.complete r .svc n 0 s.complete.core.pc ∧
        t = r.mapCore fun c => { c with trapped := none }) ∧
      t.core.epc = s.complete.core.pc ∧ t.core.einfo = BitVec.ofNat 64 n ∧ t.core.eaddr = 0 ∧
      t.core.ecause.toNat % 2 ^ 8 = 21 ∧ t.core.sloop = packLoops s.complete.core.loops ∧ t.core.loops = [] ∧
      t.core.status.mode = .s ∧ t.core.pc = BitVec.ofNat 64 s.ctx.desc.trapent

/-- R29, R96, R97, R189: ERET in S mode goes to EPC in the mode that ECAUSE records, rebuilds the loop stack from the
leading SLOOP registers whose COUNT is not 0, and freezes the lowest FROZ entries again. UPRET in U mode inside an upcall
discards the loops pushed since delivery, unfreezes the rest, clears INUP and goes to UPEPC; outside an upcall or in S
mode it traps with ILLEGAL, EINFO 10. No register changes. A return address that is no multiple of 4 traps with MISALIGN,
and an ERET whose FROZ does not fit the loop stack or comes without INUP with ILLEGAL, EINFO 9. -/
def Obligations.Returns : Prop :=
  (∀ s : State, s.core.status.mode = .s →
      (s.core.epc.toNat % 4 = 0 → ((s.core.ecause.toNat / 2 ^ 9 % 8 ≤
        (s.core.sloop.toList.takeWhile fun w => decide (w.toNat / 2 ^ 32 ≠ 0)).length) →
      (s.core.ecause.toNat / 2 ^ 9 % 8 = 0 ∨ s.core.status.inup = true) →
      ∃ t, exec .eret s = .next t ∧ t.core.pc = s.core.epc ∧ t.core.regs = s.core.regs ∧
        t.core.status = { s.core.status with mode := if s.core.ecause.getLsbD 8 then .s else .u } ∧
        t.core.frozen = s.core.ecause.toNat / 2 ^ 9 % 8 ∧
        t.core.loops.reverse.map LoopEntry.count =
          (s.core.sloop.toList.takeWhile fun w => decide (w.toNat / 2 ^ 32 ≠ 0)).map (fun w => w.toNat / 2 ^ 32) ∧
        t.core.epc = s.core.epc ∧ t.core.ecause = s.core.ecause ∧ t.core.sloop = s.core.sloop ∧
        t.core.einfo = s.core.einfo ∧ t.core.eaddr = s.core.eaddr ∧ t.core.k = s.core.k ∧
        Claims.latencyKept s t ∧ t.ctx = s.ctx ∧ Claims.restKept s t ∧ Claims.memoryKept s t)) ∧
      (s.core.epc.toNat % 4 ≠ 0 → Claims.traps .eret s .misalign 2 s.core.epc) ∧
      (s.core.epc.toNat % 4 = 0 →
        ((s.core.sloop.toList.takeWhile fun w => decide (w.toNat / 2 ^ 32 ≠ 0)).length < s.core.ecause.toNat / 2 ^ 9 % 8 ∨
          (s.core.ecause.toNat / 2 ^ 9 % 8 ≠ 0 ∧ s.core.status.inup = false)) →
        Claims.traps .eret s .illegal (Claims.illegalInfo s 9) 0)) ∧
  (∀ s : State,
      (s.core.status.mode = .u → s.core.status.inup = true → s.core.upepc.toNat % 4 = 0 →
        ∃ t, exec .upret s = .next t ∧ t.core.pc = s.core.upepc ∧ t.core.regs = s.core.regs ∧
          t.core.status = { s.core.status with inup := false } ∧ t.core.frozen = 0 ∧
          t.core.loops = s.core.loops.drop (s.core.loops.length - s.core.frozen) ∧ t.core.upepc = s.core.upepc ∧
          t.core.upjob = s.core.upjob ∧ t.core.upcause = s.core.upcause ∧ Claims.latencyKept s t ∧ t.ctx = s.ctx ∧
          Claims.restKept s t ∧ Claims.memoryKept s t) ∧
      (s.core.status.mode = .s ∨ s.core.status.inup = false →
        Claims.traps .upret s .illegal (Claims.illegalInfo s 10) 0) ∧
      (s.core.status.mode = .u → s.core.status.inup = true → s.core.upepc.toNat % 4 ≠ 0 →
        Claims.traps .upret s .misalign 2 s.core.upepc))

/-- R186, R187, R189: ERET undoes trap entry. When SLOOP can hold the loop stack, ERET after a trap brings back the loop
stack with its frozen entries, the mode and the registers, and goes to the trap's EPC. -/
def Obligations.EretUndoesTrapEntry : Prop :=
  ∀ (s u : State) (t : Trap), Claims.entryFetched s u → t.epc.toNat % 4 = 0 → s.core.loops.length ≤ 4 →
    s.core.frozen ≤ s.core.loops.length → (s.core.frozen = 0 ∨ s.core.status.inup = true) →
    (∀ e, e ∈ s.core.loops → Claims.loopSaved t.epc e) →
    ∃ r, exec .eret (s.trapEntry t) = .next r ∧ r.core.pc = t.epc ∧ r.core.loops = s.core.loops ∧
      r.core.frozen = s.core.frozen ∧ r.core.status = s.core.status ∧ r.core.regs = s.core.regs ∧
      r.core.pending = s.core.pending ∧ Claims.memoryKept s r

/-- R41, R195 to R197: CRR reads a control register that its mode may read into x[d] with label ⊤, and FEAT a class's
word, with the fields of R196 in classes 0 to 5 (class 3 on a device that has lost nothing) and 0 from class 6 on; INVPG
in S mode makes the cluster forget the translation of an address, keeping every other. -/
def Obligations.ControlRegisterReads : Prop :=
  (∀ (s : State) (d n : Nat) (old : Word), d < 64 → (n, old) ∈ Claims.crFields s →
      (s.core.status.mode = .s ∨ n ∈ Claims.userReads) →
      ∃ t, exec (.crr d n) s = .next t ∧ Claims.xWritten s t d old s.topWord) ∧
  (∀ (s : State) (d a n : Nat), d < 64 → a < 64 → n < 16 →
      (∃ t, exec (.feat d n) s = .next t ∧ Claims.xWritten s t d (BitVec.ofNat 64 (s.feature n)) s.topWord) ∧
      (6 ≤ n → s.feature n = 0) ∧
      ((n = 3 → s.dev.lostUnits = []) →
        s.ctx.nclus < 256 → s.ctx.desc.tx < 256 → s.ctx.desc.ty < 256 → s.ctx.desc.tz < 256 →
        s.feature n < 2 ^ 64 ∧ ∀ e, e ∈ Claims.featureFields s n → s.feature n / 2 ^ e.1 % 2 ^ e.2.1 = e.2.2) ∧
      (s.core.status.mode = .s → ∃ t, exec (.invpg a) s = .next t ∧ t.core.regs = s.core.drain.regs ∧
        t.core.pending = [] ∧ t.core.walkSync = s.dev.stores ∧
        t.myCluster.cached (s.rdX a) = none ∧ t.myCluster.firstOf s.me (s.rdX a) = none ∧
        lookup t.myCluster.walks (walkKey (s.rdX a) 1) = none ∧ lookup t.myCluster.walks (walkKey (s.rdX a) 2) = none ∧
        (∀ va, pageKey va ≠ pageKey (s.rdX a) → blockKey va ≠ blockKey (s.rdX a) →
          t.myCluster.cached va = s.myCluster.cached va ∧ t.myCluster.firstOf s.me va = s.myCluster.firstOf s.me va) ∧
        (∀ (x : Agent) (va : Word), x.slot ≠ s.me.slot → t.myCluster.firstOf x va = s.myCluster.firstOf x va) ∧
        Claims.coreKept s (t.mapCore fun c => { c with walkSync := s.core.walkSync }) ∧ t.core.streams = s.core.streams ∧
        t.ctx.world = s.ctx.world ∧ Claims.restKept s t ∧ Claims.memoryKept s t))

/-- R195, R41, R43, R44, R174, R188, R207, R208, R258: CRW, CRS and CRC write each field of a control register by its access;
CRS and CRC also give its old value. Under STRICT a label of class COND traps with LBLCTL where the mode may write the register.
A write of MPROG with PEND = 0 discards the commands set aside and releases their
ranges, the accumulators staying unless one of them was issued before the core's latest dispatch (log entry 63), and one of
CATCHCFG loads a membership image and resets its group. -/
def Obligations.ControlRegisterWrites : Prop :=
  (∀ (s : State) (d n a : Nat) (new : Word), d < 64 → a < 64 → Claims.crLegal s → Claims.classPasses s [s.labX a] →
    (s.core.status.mode = .s ∨ n ∈ Claims.userWrites) →
    ((n, new) ∈ Claims.crWrites (s.crRead n) (s.rdX a) →
      ∃ t, exec (.crw n a) s = .next t ∧ t.crRead n = new ∧ Claims.crWritten s t n 0 0) ∧
    ((n, new) ∈ Claims.crWrites (s.crRead n) (s.crRead n ||| s.rdX a) →
      ∃ t, exec (.crs d n a) s = .next t ∧ t.crRead n = new ∧ Claims.crWritten s t n d (s.crRead n)) ∧
    ((n, new) ∈ Claims.crWrites (s.crRead n) (s.crRead n &&& ~~~(s.rdX a)) →
      ∃ t, exec (.crc d n a) s = .next t ∧ t.crRead n = new ∧ Claims.crWritten s t n d (s.crRead n))) ∧
  (∀ (s : State) (d n a x : Nat) (v : Word) (i : Instr), (i, x, v) ∈ Claims.crForms s d n a → Claims.crWritable s n →
    Claims.classTraps s [s.labX a] → Claims.traps i s .lblctl (Claims.handle (s.labX a)) 0) ∧
  (∀ (s : State) (d a x : Nat) (v : Word) (i : Instr), d < 64 → a < 64 → s.core.status.mode = .s →
    Claims.classPasses s [s.labX a] → (i, x, v) ∈ Claims.crForms s d 0x040 a → v.toNat < 2 ^ 63 →
    ∃ t, exec i s = .next t ∧ t.core.aside = [] ∧ Claims.xFileWritten s t x (s.crRead 0x040) s.topWord ∧
      (∀ l, l ∈ t.myCluster.locks ↔ l ∈ s.myCluster.locks ∧ l.id ∉ s.core.aside.flatMap MEntry.locks) ∧
      t.myCluster.engines = s.myCluster.engines ∧
      Claims.coreKept s (t.mapCore fun c => { c with aside := s.core.aside, acc0 := s.core.acc0, acc1 := s.core.acc1 }) ∧
      ((∀ e, e ∈ s.core.aside → e.last = false) → t.core.acc0 = s.core.acc0 ∧ t.core.acc1 = s.core.acc1) ∧
      Claims.latencyKept s t ∧ Claims.restKept s t ∧ Claims.memoryKept s t) ∧
  ∀ (s u : State) (d a x : Nat) (v : Word) (i : Instr) (p : Place) (m : BitVec 256), d < 64 → a < 64 →
    s.core.status.mode = .s → Claims.classPasses s [s.labX a] → (i, x, v) ∈ Claims.crForms s d 0x050 a →
    Claims.imageAt s (v &&& ~~~(31 : Word)) p u → m = BitVec.ofNat 256 (s.dev.num p.loc 32) →
    (m.toNat / 2 ^ 217 = 0 → ∃ t, exec i s = .next t ∧ Claims.groupReset s t v m ∧
      Claims.xFileWritten s t x (s.crRead 0x050) s.topWord ∧ t.core.k = s.core.k ∧ t.core.acc0 = s.core.acc0 ∧ t.core.acc1 = s.core.acc1 ∧
      Claims.latencyKept s t ∧ Claims.memoryKept s t) ∧
    (m.toNat / 2 ^ 217 ≠ 0 → Claims.traps i s .illegal (Claims.illegalInfo s 7) 0)

/-- R42, R57, R96, R184, R197: where privilege and the control register map stop an instruction. In U mode ERET, INVPG,
FINISH with a register, and an access to a control register that U mode may not make trap with PRIV. In either mode an access
to an unassigned number, and in S mode a write to a register that S may only read, trap with ILLEGAL, EINFO 8. That CRW,
CRS and CRC do so whatever the Class rule finds is the model's choice: the spec gives no order between these traps and
LBLCTL (log entry 36). -/
def Obligations.PrivilegeTraps : Prop :=
  ∀ (s : State) (a d n : Nat), n < 1024 →
    (s.core.status.mode = .u → Claims.plainCore s →
      Claims.traps .eret s .priv 0 0 ∧ Claims.traps (.invpg a) s .priv 0 0 ∧
      (a ≠ 0 → Claims.traps (.finish a) s .priv 0 0) ∧
      (n ∈ Claims.crNumbers → n ∉ Claims.userReads → Claims.traps (.crr d n) s .priv (Claims.crInfo n 0) 0) ∧
      (n ∈ Claims.crNumbers → n ∉ Claims.userWrites →
        Claims.traps (.crw n a) s .priv (Claims.crInfo n 1) 0 ∧ Claims.traps (.crs d n a) s .priv (Claims.crInfo n 2) 0 ∧
        Claims.traps (.crc d n a) s .priv (Claims.crInfo n 3) 0)) ∧
    (n ∉ Claims.crNumbers → Claims.traps (.crr d n) s .illegal (Claims.illegalInfo s 8) 0) ∧
    (n ∉ Claims.crNumbers ∨ (s.core.status.mode = .s ∧ n ∈ Claims.readOnly) →
      Claims.traps (.crw n a) s .illegal (Claims.illegalInfo s 8) 0 ∧
      Claims.traps (.crs d n a) s .illegal (Claims.illegalInfo s 8) 0 ∧
      Claims.traps (.crc d n a) s .illegal (Claims.illegalInfo s 8) 0)

/-- R148, R149, R137, R414: FENCE of the kinds R, W and D completes and brings the R kind into force for later fetches
at its scope, and the W kind at DEVICE or SYSTEM scope for page walks; of the E kind it waits while an engine operation
of the core is in flight. FENCESC waits, its outstanding results returned, until a stroke tick, and then completes; that it is
then in force as a FENCE of kinds R and W, for fetches and for page walks, is the model's choice (log entry 71). -/
def Obligations.Fences : Prop :=
  ∀ (s : State) (kinds : Nat) (sc : Scope), 0 < kinds → kinds < 16 → Claims.plainCore s →
    (kinds < 8 ∨ s.engineBusy s.focus.cl s.focus.core = false →
      ∃ t, exec (.fence kinds sc) s = .next t ∧ t.core.regs = s.core.regs ∧
        (∀ i, i < 5 → fileGet (by decide) t.core.fenced i =
          if kinds % 2 = 1 ∧ i = sc.code then s.dev.stores else fileGet (by decide) s.core.fenced i) ∧
        t.core.walkSync = (if kinds / 2 % 2 = 1 ∧ (sc = .dev ∨ sc = .sys) then s.dev.stores else s.core.walkSync) ∧
        t.core.status = s.core.status ∧ t.core.k = s.core.k ∧ Claims.latencyKept s t ∧ t.ctx = s.ctx ∧
        Claims.restKept s t ∧ Claims.memoryKept s t) ∧
    (8 ≤ kinds → s.grantValue = none → s.engineBusy s.focus.cl s.focus.core = true →
      ∃ t, exec (.fence kinds sc) s = .next t ∧ t.core.park = some .fenceE ∧ t.core.regs = s.core.regs) ∧
    (s.grantValue = none → ∃ t, exec .fencesc s = .next t ∧ t.core.park = some (.fencesc s.dev.stroke.toNat) ∧
      t.core.pending = [] ∧ t.dev = s.dev) ∧
    (s.grantValue = some 0 → ∃ t, exec .fencesc s = .next t ∧ t.core.regs = s.core.regs ∧
      (∀ i, i < 4 → fileGet (by decide) t.core.fenced i = s.dev.stores) ∧ t.core.walkSync = s.dev.stores ∧
      Claims.latencyKept s t ∧ t.ctx = s.ctx ∧ Claims.restKept s t ∧ Claims.memoryKept s t)

/-- R174 to R177: ARRIVE sets the core's flag and ORs its legs; the last member's arrival completes the phase. WAITC
gives the completed phase once the phase of the core's arrival is over, and waits before; a wait that is over gives what the
wake hands over: the completed phase, or 0x4_0000_0000 after a CATCHCFG write (log entry 23). CATCHQ gives the state of the
current phase. They trap with CATCH outside a gang, on a group of which the core is no member, and ARRIVE on a flag already
set. That ARRIVE traps with CATCH whatever the Class rule finds is the model's choice (log entry 36). -/
def Obligations.CatchNetwork : Prop :=
  (∀ (s : State) (g d a : Nat), g < 16 → d < 64 → a < 64 → Claims.plainCore s → Claims.catchMember s g →
    ((s.group g).flags.getLsbD s.focus.core = false → Claims.classPasses s [s.labX a] →
      ∃ t, exec (.arrive g a) s = .next t ∧ t.core.regs = s.core.regs ∧
        lookup t.core.arrived g = some (s.group g).phase.toNat ∧ (t.group g).image = (s.group g).image ∧
        (Claims.allArrived (s.group g) (Claims.flagsWith s g) →
          ¬ Claims.allArrived (s.group g) (Claims.nextPhase s g a).flags.toNat → t.group g = Claims.nextPhase s g a) ∧
        (¬ Claims.allArrived (s.group g) (Claims.flagsWith s g) →
          (t.group g).phase = (s.group g).phase ∧ (t.group g).flags.toNat = Claims.flagsWith s g ∧
          (t.group g).or = ((s.group g).or || (s.rdX a).getLsbD 0) ∧
          (t.group g).err = ((s.group g).err || (s.rdX a).getLsbD 1) ∧ (t.group g).latest = (s.group g).latest) ∧
        (∀ h, h < 16 → h ≠ g → t.group h = s.group h) ∧ Claims.latencyKept s t ∧ Claims.restKept s t ∧
        Claims.memoryKept s t) ∧
    (s.grantValue = none → (∀ n, lookup s.core.arrived g = some n → (s.group g).phase.toNat ≠ n) →
      ∃ t, exec (.waitc d g) s = .next t ∧ Claims.xWritten s t d (match (s.group g).latest with
        | none => BitVec.ofNat 64 (2 ^ 34)
        | some (or, err) => BitVec.ofNat 64 (((s.group g).phase - 1).toNat + (if or then 2 ^ 32 else 0)
            + if err then 2 ^ 33 else 0)) s.topWord) ∧
    (∀ v, s.grantValue = some (v + 1) → ∃ t, exec (.waitc d g) s = .next t ∧ Claims.xWritten s t d v s.topWord) ∧
    ((s.group g).flags.getLsbD s.focus.core = true → Claims.traps (.arrive g a) s .catchTrap (3 + 256 * g) 0) ∧
    ((s.group g).flags.getLsbD s.focus.core = false → Claims.classTraps s [s.labX a] →
      Claims.traps (.arrive g a) s .lblctl (Claims.handle (s.labX a)) 0) ∧
    (s.grantValue = none → lookup s.core.arrived g = some (s.group g).phase.toNat →
      ∃ t, exec (.waitc d g) s = .next t ∧ t.core.park = some (.catchPhase g (s.group g).phase.toNat)) ∧
    (∃ t, exec (.catchq d g) s = .next t ∧ Claims.xWritten s t d (BitVec.ofNat 64 ((s.group g).phase.toNat
      + (if (s.group g).or then 2 ^ 32 else 0) + (if (s.group g).err then 2 ^ 33 else 0)
      + (if (s.group g).latest = none then 2 ^ 34 else 0)
      + (if (s.group g).flags.getLsbD s.focus.core then 2 ^ 35 else 0)
      + 2 ^ 36 * (List.range 217).countP fun m => (s.group g).image.getLsbD m && !(s.group g).flags.getLsbD m))
      s.topWord)) ∧
  ∀ (s : State) (g d a reason : Nat), s.focus.core < 192 → Claims.plainCore s → s.grantValue = none →
    (s.core.gang = none ∧ reason = 1 ∨
      s.core.gang ≠ none ∧ (s.group g).image.getLsbD s.focus.core = false ∧ reason = 2) →
    Claims.traps (.arrive g a) s .catchTrap (reason + 256 * g) 0 ∧
    Claims.traps (.waitc d g) s .catchTrap (reason + 256 * g) 0 ∧
    Claims.traps (.catchq d g) s .catchTrap (reason + 256 * g) 0

/-- R30, R31, R178 to R181: WAITK completes once its counter has reached the threshold, by the comparison modulo 2^31,
and waits before; WAITT completes at its cycle when its job, if it names one, is complete; KRD gives a counter, its own
at once and another core's as an outstanding result; KADD adds to a counter and keeps or clears ERR. A core above 191 or
unmapped traps, and so does a threshold or cycle of class COND under STRICT. -/
def Obligations.CountersAndTimedWaits : Prop :=
  ∀ (s : State) (k a b d : Nat), k < 16 → a < 64 → b < 64 → d < 64 → Claims.plainCore s →
    (Claims.classPasses s [s.labX a] →
      (((fileGet (by decide) s.core.k k).toNat % 2 ^ 31 + (2 ^ 31 - (s.rdX a).toNat % 2 ^ 31)) % 2 ^ 31 < 2 ^ 30 →
        ∃ t, exec (.waitk k a) s = .next t ∧ Claims.passed s t) ∧
      (2 ^ 30 ≤ ((fileGet (by decide) s.core.k k).toNat % 2 ^ 31 + (2 ^ 31 - (s.rdX a).toNat % 2 ^ 31)) % 2 ^ 31 →
        s.grantValue = none →
        ∃ t, exec (.waitk k a) s = .next t ∧ t.core.park = some (.counter k ((s.rdX a).toNat % 2 ^ 31)))) ∧
    (s.grantValue = none → Claims.classPasses s [s.labX a, s.labX b] → (s.rdX a).toNat ≤ s.dev.cycle.toNat →
      (s.rdX b = 0 ∨ s.findJob s.focus.cl s.focus.core (s.rdX b) = none) →
      ∃ t, exec (.waitt a b) s = .next t ∧ Claims.passed s t) ∧
    (∃ t, exec (.krd d k 0) s = .next t ∧
      Claims.xWritten s t d ((fileGet (by decide) s.core.k k).zeroExtend 64) s.topWord) ∧
    (a ≠ 0 → (s.rdX a).toNat < 192 → s.ctx.mapped s.focus.cl (s.rdX a).toNat = true →
      ∃ t, exec (.krd d k a) s = .next t ∧ t.core.regs = s.core.regs ∧
        Claims.outstanding s t (.x d)
          ((fileGet (by decide) (s.coreAt s.focus.cl (s.rdX a).toNat).k k).zeroExtend 512) s.topWord ∧
        Claims.coreKept s t ∧ t.ctx = s.ctx ∧ Claims.restKept s t ∧ Claims.memoryKept s t) ∧
    (a ≠ 0 → 191 < (s.rdX a).toNat → Claims.traps (.krd d k a) s .illegal (Claims.illegalInfo s 9) 0) ∧
    (a ≠ 0 → (s.rdX a).toNat < 192 → s.ctx.mapped s.focus.cl (s.rdX a).toNat = false →
      Claims.traps (.krd d k a) s .page 64 (BitVec.ofNat 64 (s.ctx.desc.lsbase + (s.rdX a).toNat * 2 ^ 18))) ∧
    (Claims.classTraps s [s.labX a] → Claims.traps (.waitk k a) s .lblctl (Claims.handle (s.labX a)) 0) ∧
    (s.grantValue = none → Claims.classTraps s [s.labX a, s.labX b] →
      Claims.traps (.waitt a b) s .lblctl (Claims.handle (s.labX a) + 2 ^ 16 * Claims.handle (s.labX b)) 0) ∧
    (∃ t, exec (.kadd k a) s = .next t ∧ t.core.regs = s.core.regs ∧
      (∀ j, j < 16 → fileGet (by decide) t.core.k j = if j = k then
        BitVec.ofNat 32 (((fileGet (by decide) s.core.k k).toNat % 2 ^ 31 + (s.rdX a).toNat % 2 ^ 31) % 2 ^ 31 +
          if (s.rdX a).getLsbD 31 then 0 else (fileGet (by decide) s.core.k k).toNat / 2 ^ 31 * 2 ^ 31)
        else fileGet (by decide) s.core.k j) ∧
      Claims.latencyKept s t ∧ t.ctx = s.ctx ∧ Claims.restKept s t ∧ Claims.memoryKept s t)

/-- R11, R14, R22 to R24, R182 to R184: SPAWN creates the record that its image describes: the bits of R11, the parent's JOIN
one higher, then the run queue; a record written where the dispatcher reaches it lies in memory byte by byte. JOIN passes when
the record waits for no child; a core that finishes, suspends or yields leaves its record; a suspension saves CODE, FRAME,
FLBL, WKIND, WARG and STATE 3, and a suspended record waits in its cluster. A suspension point whose own checks pass traps
inside an upcall handler with ILLEGAL, EINFO 13, and with LOOPSUSP where the loop stack is not empty; in a gang JOIN,
YIELD, SUSPT and SUSPK trap with ILLEGAL, EINFO 13. -/
def Obligations.Continuations : Prop :=
  ∀ (s : State) (a b d k : Nat), a < 64 → b < 64 → d < 64 → k < 16 → Claims.plainCore s →
    (∀ u v image, Claims.classPasses s [s.labX a, s.labX b] → s.recordCheck (s.rdX a) = .ok u →
      u.imageRead (s.rdX b) = .ok (image, v) →
      ∃ t, exec (.spawn a b) s = .next t ∧
        t = ((v.inheritBar s.core.crec (s.rdX a)).create (s.rdX a) image (rQid (s.record s.core.crec)) s.core.epoch).complete ∧
        t.core.regs = v.core.regs) ∧
    (∀ (u : State) (va : Word) (image r : VWord) (qid : Nat) (epoch : BitVec 8), Claims.recordHolds r image qid epoch →
      (rParent image = 0 → u.create va image qid epoch = (u.putRecord va r).enqueue va) ∧
      (∀ n, rParent image ≠ 0 → heldRecord ((u.putRecord va r).record (rParent image)) = true →
        n = setBits ((u.putRecord va r).record (rParent image)) 192 32
          (rJoin ((u.putRecord va r).record (rParent image)) + 1) →
        u.create va image qid epoch = ((u.putRecord va r).putRecord (rParent image) n).enqueue va)) ∧
    (∀ (u w : State) (va : Word) (r : VWord) (p : Place) (i : Nat), va.toNat % 64 = 0 → u.recordPlace va = some (p, w) →
      i < 64 → (u.putRecord va r).dev.byte (p.loc + i) = r.extractLsb' (8 * i) 8) ∧
    (s.core.gang = none → rJoin (s.record s.core.crec) = 0 → ∃ t, exec .join s = .next t ∧ Claims.passed s t) ∧
    (s.core.status.inup = false → s.core.loops = [] →
      (∃ t, exec (.finish 0) s = .next t ∧ Claims.vacated t) ∧
      (s.core.status.mode = .s → a ≠ 0 → (s.drain.rdX a).getLsbD 15 = true →
        ∃ t, exec (.finish a) s = .next t ∧ Claims.vacated t) ∧
      (s.core.gang = none →
        (rJoin (s.record s.core.crec) ≠ 0 → ∃ t, exec .join s = .next t ∧ Claims.suspendedAs s.drain t 3 0 ∧ Claims.vacated t) ∧
        (Claims.classPasses s.drain [s.drain.labX a, s.drain.labX d] →
          (d = 0 ∨ ((s.drain.rdX d).toNat < 192 ∧ s.ctx.mapped s.focus.cl (s.drain.rdX d).toNat = true)) →
          ∃ t, exec (.suspk k a d) s = .next t ∧ Claims.vacated t ∧
            (∃ cl, s.core.crec ∈ (t.cluster cl).suspended) ∧
            Claims.suspendedAs s.drain t 1 ((s.drain.rdX a).toNat % 2 ^ 31 + k * 2 ^ 32
              + (if d = 0 then s.focus.core else (s.drain.rdX d).toNat) * 2 ^ 40)) ∧
        (Claims.classPasses s.drain [s.drain.labX a] → (s.drain.rdX a).toNat < 2 ^ 60 →
          ∃ t, exec (.suspt a) s = .next t ∧ Claims.vacated t ∧ (∃ cl, s.core.crec ∈ (t.cluster cl).suspended) ∧
            Claims.suspendedAs s.drain t 2 (s.drain.rdX a).toNat) ∧
        (∃ t, exec .yield s = .next t ∧ Claims.vacated t ∧ Claims.suspendedAs s.drain t 0 0))) ∧
    (∀ i, Claims.mayLeave s a d k i →
      (s.core.status.inup = true → Claims.traps i s .illegal (Claims.illegalInfo s 13) 0) ∧
      (s.core.status.inup = false → s.core.loops ≠ [] → Claims.traps i s .loopsusp 0 0)) ∧
    (s.core.gang ≠ none → ∀ i, i ∈ [.join, .yield, .suspt a, .suspk k a d] →
      Claims.traps i s .illegal (Claims.illegalInfo s 13) 0) ∧
    (s.core.status.mode = .s → a ≠ 0 → (s.drain.rdX a).getLsbD 15 = false →
      Claims.traps (.finish a) s .illegal (Claims.illegalInfo s 9) 0) ∧
    (s.core.gang = none →
      (Claims.classPasses s.drain [s.drain.labX a] → 2 ^ 60 ≤ (s.drain.rdX a).toNat →
        Claims.traps (.suspt a) s .illegal (Claims.illegalInfo s 9) 0) ∧
      (Claims.classPasses s.drain [s.drain.labX a, s.drain.labX d] → d ≠ 0 → 191 < (s.drain.rdX d).toNat →
        Claims.traps (.suspk k a d) s .illegal (Claims.illegalInfo s 9) 0) ∧
      (Claims.classTraps s.drain [s.drain.labX a] →
        Claims.traps (.suspt a) s .lblctl (Claims.handle (s.drain.labX a)) 0) ∧
      (Claims.classTraps s.drain [s.drain.labX a, s.drain.labX d] →
        Claims.traps (.suspk k a d) s .lblctl
          (Claims.handle (s.drain.labX a) + 2 ^ 16 * Claims.handle (s.drain.labX d)) 0)) ∧
    (Claims.classTraps s [s.labX a, s.labX b] →
      Claims.traps (.spawn a b) s .lblctl (Claims.handle (s.labX a) + 2 ^ 16 * Claims.handle (s.labX b)) 0)

/-- R132, R159 to R164, R167, R410: a scalar load leaves the bytes it reads, extended, outstanding for its register,
labelled by its address register and the line, and memory stays; a scalar store writes the low bytes of its register
at its address and narrows the label word of the line by its write label, and every other byte stays. A scalar access, VLD, VST or atomic
that fails one of the checks 1 to 5 of R159, or a load check 8, traps with the cause and EINFO of the first that fails
and EADDR at its first byte; a store whose label the page cannot hold traps with LBLPAGE, and one that merges into a
poisoned line with MEMERR. -/
def Obligations.ScalarAccesses : Prop :=
  (∀ (s u : State) (d a off n : Nat) (i : Instr) (r : Reg) (ext : Nat → VWord) (p : Place) (w : LabelWord),
      (i, r, n, ext) ∈ Claims.loadForms d a off → i.wf = true →
      Claims.reaches s .read n (Claims.scalarAddress s a off n) p u → Claims.clean s p →
      (r = .x 0 ∨ ∃ u', u.formConj [s.labX a, Claims.lineLabel s p] = .ok (w, u')) →
      ∃ t, exec i s = .next t ∧ t.core.regs = s.core.regs ∧ Claims.outstanding s t r (ext (s.dev.num p.loc n)) w ∧
        t.core.streams = s.core.streams ∧ Claims.memoryKept s t ∧ Claims.accessKept s t) ∧
  (∀ (s u v : State) (d a off n val : Nat) (i : Instr) (lbl : LabelWord) (p : Place) (nl : Label),
      (i, val, lbl, n) ∈ Claims.storeForms s d a off → i.wf = true → Claims.plainCore s →
      Claims.reaches s .write n (Claims.scalarAddress s a off n) p u → Claims.clean s p →
      Claims.writeLabels s v p [lbl, s.labX a] nl →
      ∃ t, exec i s = .next t ∧ t.core.regs = s.core.regs ∧
        (∀ j, j < n → t.dev.byte (p.loc + j) = BitVec.ofNat 8 (val / 256 ^ j)) ∧ Claims.memoryKeptBut s t p n ∧
        (Claims.labelApart p p.loc n → Claims.lineAfter s t v.ctx.world p nl) ∧
        Claims.latencyKept s t ∧ Claims.accessKept s t) ∧
  ((∀ (s : State) (i : Instr) (acc : Access) (n : Nat) (va : Word) (c : Cause) (info : Nat),
      i.wf = true → Claims.plainCore s → Claims.accessOf s i = some (acc, n, va) → Claims.AccessFails s acc n va c info →
      Claims.traps i s c info va) ∧
    ∀ (s u v : State) (d a off n val : Nat) (i : Instr) (lbl : LabelWord) (p : Place) (w : LabelWord) (nl : Label),
      (i, val, lbl, n) ∈ Claims.storeForms s d a off → i.wf = true → Claims.plainCore s →
      Claims.reaches s .write n (Claims.scalarAddress s a off n) p u →
      (s.formConj [lbl, s.labX a] = .ok (w, v) → v.eval w ≠ topLabel → p.lt = false →
        Claims.traps i s .lblpage (Claims.handle w) (Claims.scalarAddress s a off n)) ∧
      (Claims.writeLabels s v p [lbl, s.labX a] nl → s.dev.poison.contains (lineOf p.loc) = true →
        Claims.traps i s .memerr 9 (Claims.scalarAddress s a off n)))

/-- R164, R160, R162: VLD leaves the line it reads outstanding; VST writes a whole line, whose label word comes from the
write alone and whose uncorrectable error it clears. -/
def Obligations.VectorLines : Prop :=
  ∀ (s u : State) (d a imm : Nat) (p : Place) (w : LabelWord), d < 32 → a < 64 → imm < 8192 →
    (Claims.reaches s .read 64 (Claims.lineAddress s a imm) p u → Claims.clean s p →
      (∃ u', u.formConj [s.labX a, Claims.lineLabel s p] = .ok (w, u')) →
      ∃ t, exec (.vld d a imm) s = .next t ∧ t.core.regs = s.core.regs ∧
        Claims.outstanding s t (.v d) (BitVec.ofNat 512 (s.dev.num p.loc 64)) w ∧ Claims.streamsEnded s t (.v d) ∧
        Claims.memoryKept s t ∧ Claims.accessKept s t) ∧
    (Claims.reaches s .write 64 (Claims.lineAddress s a imm) p u → Claims.plainCore s → s.dev.linkLost p.loc = false →
      (∃ u', u.formConj [s.labV d, s.labX a] = .ok (w, u')) →
      (p.lt = true ∨ s.conjOf [s.labV d, s.labX a] = topLabel) →
      ∃ t, exec (.vst d a imm) s = .next t ∧ t.core.regs = s.core.regs ∧
        (∀ j, j < 64 → t.dev.byte (p.loc + j) = BitVec.ofNat 8 ((s.rdV d).toNat / 256 ^ j)) ∧
        (p.lt = true → Claims.labelApart p p.loc 64 → t.dev.rawLabel (lineOf p.loc) = w) ∧
        Claims.clean t p ∧ Claims.memoryKeptBut s t p 64 ∧ Claims.latencyKept s t ∧ Claims.accessKept s t)

/-- R165, R117: a gather leaves a register outstanding whose active lanes hold the elements read and whose other lanes
are as before; a scatter completes with the stores of its active lanes in ascending order. -/
def Obligations.VectorElements : Prop :=
  ∀ (s u : State) (d a b pg : Nat) (i : Instr) (idx w : LabelWord) (ea : Nat → Word) (els : List (Nat × LabelWord)),
    i.wf = true →
    ((i, idx, ea) ∈ Claims.gathers s d a b pg → s.loadAll 4 4 ((Claims.lanesOn s pg).map ea) = .ok (els, u) →
      (∃ u', u.formConj ([s.labX a, idx] ++ (if pg = 0 then [] else [s.labP pg, s.labV d]) ++ els.map Prod.snd)
        = .ok (w, u')) →
      ∃ t val, exec i s = .next t ∧ t.core.regs = s.core.regs ∧ Claims.outstanding s t (.v d) val w ∧
        (∀ j k, (Claims.lanesOn s pg)[j]? = some k → Claims.lane32 val k = ((els.map Prod.fst).getD j 0) % 2 ^ 32) ∧
        (∀ k, k < 16 → k ∉ Claims.lanesOn s pg → Claims.lane32 val k = Claims.lane32 (s.rdV d) k) ∧
        Claims.streamsEnded s t (.v d) ∧ (u.dev.mem = s.dev.mem → Claims.memoryKept s t)) ∧
    ((i, idx, ea) ∈ Claims.scatters s d a b pg → Claims.plainCore s →
      s.storeAll ([s.labV d, s.labX a, idx] ++ (if pg = 0 then [] else [s.labP pg])) 4 4
        ((Claims.lanesOn s pg).map fun k => (ea k, bytesOf 4 (Claims.lane32 (s.rdV d) k))) = .ok u →
      ∃ t, exec i s = .next t ∧ t = u.complete ∧ t.core.regs = s.core.regs ∧ Claims.latencyKept s t)

/-- R159, R161, R165: stores of several elements leave every byte alone but for the elements stored and, on a page with LT, the
label words of their lines; a line whose format does not agree with its page's attribute is found with contents that R419
leaves open. The label word of a line in which one element lies is that of a partial store with the write label of all the
sources. -/
def Obligations.StoresStayInTheirLines : Prop :=
  ∀ (s u : State) (ws : List LabelWord) (n align : Nat) (els : List (Word × List Byte)),
    s.storeAll ws n align els = .ok u → (∀ e, e ∈ els → e.2.length = n) →
    ∃ ps v, s.translateAll s.me .write (els.map Prod.fst) = .ok (ps, v) ∧ ps.map Place.va = els.map Prod.fst ∧
      (∀ b, (∀ p, p ∈ ps → ¬ Claims.within p.loc n b ∧ (Claims.agrees s p ∨ ¬ Claims.within (lineOf p.loc) 64 b) ∧
          (p.lt = false ∨ ¬ Claims.within (labelLoc (lineOf p.loc)) 4 b)) →
        u.dev.byte b = s.dev.byte b) ∧
      ∃ w x, s.formConj ws = .ok (w, x) ∧ ∀ p, (∀ q, q ∈ ps → Claims.agrees s q ∧ Claims.labelApart p q.loc n) →
        (ps.countP fun q => lineOf q.loc == lineOf p.loc) = 1 → p ∈ ps →
        ∃ extra, Claims.lineAfter s u { x.ctx.world with table := x.ctx.world.table ++ extra } p (x.eval w)

/-- R167 to R171: an atomic stores its new value, leaves the old one outstanding with the label of the line and of what it
writes, and narrows the line's label word. AMO and CAS take words sign-extended or doublewords; FAMO and CSUM compute in
FP32. -/
def Obligations.Atomics : Prop :=
  ∀ (s v : State) (d a : Nat) (w : AmoWidth) (ord : MemOrder) (sc : Scope) (p : Place) (old : Nat) (nl : Label) (lr : LabelWord),
    d < 64 → a < 64 →
    (old = s.dev.num p.loc w.size → Claims.atomicGoes s v w.size (s.rdX a) [s.labX a, s.labX d] p nl lr →
      ∀ op new, (op, new) ∈ Claims.amoResults (8 * w.size) old ((s.rdX d).toNat % 2 ^ (8 * w.size)) →
      ∃ t, exec (.amo op w ord sc d a) s = .next t ∧
        Claims.atomicDone s v t p w.size new (.x d) (Claims.oldValue w old) FFlags.none nl lr) ∧
    (old = s.dev.num p.loc w.size → d < 63 →
      Claims.atomicGoes s v w.size (s.rdX a) [s.labX a, s.labX d, s.labX (d + 1)] p nl lr →
      ∃ t, exec (.cas w ord sc d a) s = .next t ∧
        Claims.atomicDone s v t p w.size
          (if old = (s.rdX d).toNat % 2 ^ (8 * w.size) then (s.rdX (d + 1)).toNat % 2 ^ (8 * w.size) else old) (.x d)
          (Claims.oldValue w old) FFlags.none nl lr) ∧
    (old = s.dev.num p.loc 4 → d < 32 → Claims.atomicGoes s v 4 (s.rdX a) [s.labX a, s.labF d] p nl lr →
      ∀ op : FamoOp, ∃ t, exec (.famo op ord sc d a) s = .next t ∧
        Claims.atomicDone s v t p 4 (op.apply old (s.rdF d).toNat).1 (.f d) (BitVec.ofNat 512 old)
          (op.apply old (s.rdF d).toNat).2 nl lr) ∧
    (old = s.dev.num p.loc 8 → d < 32 → Claims.atomicGoes s v 8 (s.rdX a) [s.labX a, s.labF d] p nl lr →
      ∃ t, exec (.csum ord sc d a) s = .next t ∧
        Claims.atomicDone s v t p 8 ((csumStep (old % 2 ^ 32) (old / 2 ^ 32) (s.rdF d).toNat).1
            + 2 ^ 32 * (csumStep (old % 2 ^ 32) (old / 2 ^ 32) (s.rdF d).toNat).2) (.f d)
          (BitVec.ofNat 512 (addRne (old % 2 ^ 32) (old / 2 ^ 32))) FFlags.none nl lr)

/-- R166, R152, R312: CWB and WBROW clean cached lines, CFLUSH and CINV drop one, INVROW drops those of a segment. CWB,
WBROW and CFLUSH leave every byte of memory; CINV and INVROW may leave older contents in the lines that they drop, and
every other byte alone. -/
def Obligations.CacheMaintenance : Prop :=
  ∀ (s : State) (a : Nat) (acc : Access) (n : Nat) (p : Place), a < 64 → Claims.plainCore s →
    Claims.classPasses s [s.labX a] →
    Claims.maintains s acc n (BitVec.ofNat 64 ((s.rdX a).toNat / n * n)) p →
    (n = 64 → acc = .read →
      (∃ t, exec (.cwb a) s = .next t ∧ t.core.regs = s.core.regs ∧ Claims.memoryKept s t ∧ Claims.accessKept s t ∧
        (p.cacheable = true → ∀ h, lookup t.dev.held (lineOf p.loc) = some h → h.past = [])) ∧
      (∃ t, exec (.cflush a) s = .next t ∧ t.core.regs = s.core.regs ∧ Claims.memoryKept s t ∧
        Claims.accessKept s t ∧ (p.cacheable = true → lookup t.dev.held (lineOf p.loc) = none))) ∧
    (n = 64 → acc = .write →
      ∃ t, exec (.cinv a) s = .next t ∧ t.core.regs = s.core.regs ∧ Claims.accessKept s t ∧
        (p.cacheable = true → lookup t.dev.held (lineOf p.loc) = none) ∧
        (∀ b, ¬ Claims.within (lineOf p.loc) 64 b → ¬ Claims.within (labelLoc (lineOf p.loc)) 4 b →
          t.dev.byte b = s.dev.byte b) ∧
        ((∀ h, lookup s.dev.held (lineOf p.loc) = some h → h.past = []) → Claims.memoryKept s t)) ∧
    (n = 1024 → acc = .read →
      ∃ t, exec (.wbrow a) s = .next t ∧ t.core.regs = s.core.regs ∧ Claims.memoryKept s t ∧ Claims.accessKept s t ∧
        (p.cacheable = true → ∀ line h, line ∈ Claims.linesOf s p 1024 → lookup t.dev.held line = some h →
          h.past = [])) ∧
    (n = 1024 → acc = .write →
      ∃ t, exec (.invrow a) s = .next t ∧ t.core.regs = s.core.regs ∧ Claims.accessKept s t ∧
        (p.cacheable = true → ∀ line, line ∈ Claims.linesOf s p 1024 → lookup t.dev.held line = none) ∧
        (∀ b, (∀ line, line ∈ Claims.linesOf s p 1024 →
            ¬ Claims.within line 64 b ∧ ¬ Claims.within (labelLoc line) 4 b) → t.dev.byte b = s.dev.byte b))

/-- R190, R203, R205, R206, R209 to R211: a label that is formed reads back: the label word evaluates to the environments that
Minimise leaves, the first XMAX of them when more are dropped; forming enters at most one label and keeps every entry of
the table. More environments than XMAX without OVF trap with LBLOVF and their number, at most 63; a label that needs a new
entry of a full table traps with LBLTAB. -/
def Obligations.FormedLabelReadsBack : Prop :=
  (∀ (s : State) (wide : Bool) (l m : Label), m = minimise s.ctx.world.nogoods l →
    (s.srcCfg.ovf = false → s.srcCfg.xmax < m.length →
      s.formLabel wide l = .error (.trap ⟨.lblovf, BitVec.ofNat 64 (min m.length 63), 0, s.core.issue.epc, false⟩)) ∧
    (m.length ≤ s.srcCfg.xmax → m ≠ [] → m ≠ topLabel → (s.core.epoch, m) ∉ s.ctx.world.table →
      Config.handles ≤ s.ctx.world.table.length →
      s.formLabel wide l = .error (.trap ⟨.lbltab, 0, 0, s.core.issue.epc, false⟩))) ∧
  ∀ (s t : State) (wide : Bool) (l : Label) (w : LabelWord), s.formLabel wide l = .ok (w, t) →
    s.ctx.world.table.length ≤ Config.handles →
    t.eval w = (minimise s.ctx.world.nogoods l).take (min s.srcCfg.xmax (minimise s.ctx.world.nogoods l).length) ∧
      (s.srcCfg.ovf = false → t.eval w = minimise s.ctx.world.nogoods l) ∧ lwP w = false ∧
      lwEpoch w = s.core.epoch ∧
      ∃ extra, t.ctx = { s.ctx with world := { s.ctx.world with table := s.ctx.world.table ++ extra } } ∧
        extra.length ≤ 1

/-- R227 to R231, R234, R235: ASSUME and ASSUMEV copy a register under one more assumption; LBLSET copies one under a
label held as data; LJOIN joins the labels of equal values; LBLOF gives a label word as data; LTEST and LENV leave what
they find of a label outstanding. An assumption above 255 and an index above 127 trap with ILLEGAL, EINFO 9. -/
def Obligations.LabelForms : Prop :=
  ∀ (s u : State) (d a b : Nat) (w : LabelWord), a < 64 → b < 64 → d < 64 →
    ((s.rdX b).toNat < 256 →
      (d ≠ 0 → s.formWith [s.labX a, s.labX b] [BitVec.ofNat 256 (2 ^ (s.rdX b).toNat)] = .ok (w, u) →
        ∃ t, exec (.assume d a b) s = .next t ∧ Claims.xWritten s t d (s.rdX a) w) ∧
      (∃ t, exec (.assume 0 a b) s = .next t ∧ Claims.passed s t) ∧
      (d < 32 → a < 32 → s.formWith [s.labV a, s.labX b] [BitVec.ofNat 256 (2 ^ (s.rdX b).toNat)] = .ok (w, u) →
        ∃ t, exec (.assumev d a b) s = .next t ∧ Claims.vWritten s t d (s.rdV a) w)) ∧
    (d ≠ 0 → s.formWith [s.labX a, s.labX b] (Claims.named s (s.rdX b)) = .ok (w, u) →
      ∃ t, exec (.lblset d a b) s = .next t ∧ Claims.xWritten s t d (s.rdX a) w) ∧
    (∃ t, exec (.lblset 0 a b) s = .next t ∧ Claims.passed s t) ∧
    (255 < (s.rdX b).toNat → Claims.traps (.assume d a b) s .illegal (Claims.illegalInfo s 9) 0 ∧
      Claims.traps (.assumev d a b) s .illegal (Claims.illegalInfo s 9) 0) ∧
    (s.rdX a ≠ s.rdX b ∨ d = 0 →
      s.formLabel (s.wideOf [s.labX a, s.labX b]) (s.conjOf [s.labX a, s.labX b]) = .ok (w, u) →
      ∃ t, exec (.ljoin d a b) s = .next t ∧
        Claims.joined s t (if s.rdX a = s.rdX b then BitVec.allOnes 64 else 0) w ∧
        t.core.regs.x = s.core.regs.x ∧ t.core.regs.xl = s.core.regs.xl) ∧
    (∀ (w2 : LabelWord) (u2 : State), s.rdX a = s.rdX b → d ≠ 0 →
      s.formLabel (s.wideOf [s.labX a, s.labX b])
        (disj s.ctx.world.nogoods (s.eval (s.labX a)) (s.eval (s.labX b))) = .ok (w, u) →
      u.formLabel (s.wideOf [s.labX a, s.labX b]) (s.conjOf [s.labX a, s.labX b]) = .ok (w2, u2) →
      ∃ t, exec (.ljoin d a b) s = .next t ∧ Claims.joined s t (BitVec.allOnes 64) w2 ∧
        ∀ r, r < 64 → Claims.x t r = (if r = d then s.rdX a else Claims.x s r) ∧
          Claims.xl t r = (if r = d then w else Claims.xl s r)) ∧
    (∃ t, exec (.lblof d a) s = .next t ∧ Claims.xWritten s t d (Claims.canonicalValue s (s.labX a)) s.topWord) ∧
    (∃ t, exec (.ltest d a) s = .next t ∧ t.core.regs = s.core.regs ∧
      Claims.outstanding s t (.x d) (BitVec.ofNat 512 ((if s.eval (s.labX a) = [] then 1 else 0)
        + (if s.eval (s.labX a) = topLabel then 2 else 0) + 2 ^ 8 * ((s.eval (s.labX a)).length % 256)
        + 2 ^ 32 * (s.ctx.world.nggen.toNat % 2 ^ 32))) s.topWord ∧
      Claims.coreKept s t ∧ t.ctx = s.ctx ∧ Claims.restKept s t ∧ Claims.memoryKept s t) ∧
    (127 < (s.rdX b).toNat → Claims.traps (.lenv d a b) s .illegal (Claims.illegalInfo s 9) 0) ∧
    ((s.rdX b).toNat < 128 →
      ∃ t, exec (.lenv d a b) s = .next t ∧ t.core.regs = s.core.regs ∧
        Claims.outstanding s t (.x d) (BitVec.ofNat 512
          (((s.eval (s.labX a)).getD ((s.rdX b).toNat / 4) 0).toNat / 2 ^ (64 * ((s.rdX b).toNat % 4)) % 2 ^ 64))
          s.topWord ∧
        Claims.coreKept s t ∧ t.ctx = s.ctx ∧ Claims.restKept s t ∧ Claims.memoryKept s t)

/-- R237, R238: LLD leaves the label word of a line outstanding as data. LST in S mode sets it, bits [23:17] cleared, and
changes no other byte; in U mode it narrows it as a partial store of no bytes, by the label that its register names and those of
its registers. On a page without LT it changes nothing where the label is ⊤, in S mode where the word's handle is 0, and traps
with LBLPAGE otherwise. -/
def Obligations.LineLabels : Prop :=
  ∀ (s u v : State) (d a : Nat) (p : Place) (w : LabelWord), d < 64 → a < 64 →
    (Claims.reaches s .read 1 (s.rdX a) p u → (d = 0 ∨ ∃ u', u.formConj [s.labX a] = .ok (w, u')) →
      ∃ t, exec (.lld d a) s = .next t ∧ t.core.regs = s.core.regs ∧
        Claims.outstanding s t (.x d) ((Claims.lineLabel s p).zeroExtend 512) w ∧ Claims.memoryKept s t ∧
        Claims.accessKept s t) ∧
    (Claims.reaches s .write 1 (s.rdX a) p u → Claims.plainCore s → s.core.status.mode = .s →
      (p.lt = true →
        ∃ t, exec (.lst d a) s = .next t ∧ t.core.regs = s.core.regs ∧
          t.dev.rawLabel (lineOf p.loc) =
            BitVec.ofNat 32 ((s.rdX d).toNat / 2 ^ 24 % 2 ^ 8 * 2 ^ 24 + (s.rdX d).toNat % 2 ^ 17) ∧
          (∀ b, ¬ Claims.within (labelLoc (lineOf p.loc)) 4 b → t.dev.byte b = s.dev.byte b) ∧
          Claims.latencyKept s t ∧ Claims.accessKept s t) ∧
      (p.lt = false → (s.rdX d).toNat % 2 ^ 16 = 0 →
        ∃ t, exec (.lst d a) s = .next t ∧ t.core.regs = s.core.regs ∧ Claims.memoryKept s t ∧ Claims.latencyKept s t ∧
          Claims.accessKept s t) ∧
      (p.lt = false → (s.rdX d).toNat % 2 ^ 16 ≠ 0 →
        Claims.traps (.lst d a) s .lblpage ((s.rdX d).toNat % 2 ^ 16) (s.rdX a))) ∧
    (Claims.reaches s .write 1 (s.rdX a) p u → Claims.plainCore s → s.core.status.mode = .u →
      s.formWith [s.labX d, s.labX a] (s.ctx.world.readWord s.core.epoch (BitVec.ofNat 32 (s.rdX d).toNat)) = .ok (w, v) →
      (Claims.lineForms s v p (v.eval w) →
        ∃ t, exec (.lst d a) s = .next t ∧ t.core.regs = s.core.regs ∧ Claims.lineAfter s t v.ctx.world p (v.eval w) ∧
          (∀ b, p.lt = false ∨ ¬ Claims.within (labelLoc (lineOf p.loc)) 4 b → t.dev.byte b = s.dev.byte b) ∧
          Claims.latencyKept s t ∧ Claims.accessKept s t) ∧
      (p.lt = false → v.eval w ≠ topLabel →
        Claims.traps (.lst d a) s .lblpage (Claims.handle w) (s.rdX a)))

/-- R204, R224, R225, R232, R233, R236: CONTRA and CONTRAV send the environments of a label that is not ⊤ to the umpires
and complete once their retirement has added them to the nogoods, with NGGEN one higher; WRESET waits with no result
outstanding, and its retirement begins the next epoch with an empty table and no nogood, in which the registers of that core
whose labels read ⊤ still do. Word0 of a pair waits for the umpires and takes that effect, with the environments that it sent, when it issues again
with word1 (R47, log entry 23). A label that is ⊤ traps with ILLEGAL, EINFO 9, a full store with NGFULL, and an epoch in use
without SWEPT with LBLWRAP; these change neither the store nor the epoch. -/
def Obligations.NogoodsAndEpochs : Prop :=
  ∀ (s : State) (a cl core : Nat) (w : World), a < 64 → Claims.plainCore s →
    (s.grantValue = none → s.eval (s.labX a) ≠ topLabel →
      ∃ t, exec (.contra a) s = .next t ∧ t.core.park = some (.contra (s.eval (s.labX a))) ∧
        t.core.regs = s.core.regs) ∧
    (a < 32 → s.grantValue = none → s.eval (s.labV a) ≠ topLabel →
      ∃ t, exec (.contrav a) s = .next t ∧ t.core.park = some (.contra (s.eval (s.labV a))) ∧
        t.core.regs = s.core.regs) ∧
    (s.grantValue = none → ∃ t, exec .wreset s = .next t ∧ t.core.park = some .wreset ∧ t.core.pending = []) ∧
    (s.grantValue = some 0 →
      (∃ t, exec (.contra a) s = .next t ∧ Claims.passed s t) ∧ (∃ t, exec (.contrav a) s = .next t ∧ Claims.passed s t) ∧
      (∃ t, exec .wreset s = .next t ∧ Claims.passed s t)) ∧
    (s.grantValue = none →
      (s.eval (s.labX a) = topLabel → Claims.traps (.contra a) s .illegal (Claims.illegalInfo s 9) 0) ∧
      (a < 32 → s.eval (s.labV a) = topLabel → Claims.traps (.contrav a) s .illegal (Claims.illegalInfo s 9) 0)) ∧
    (∀ v, s.grantValue = some v → v ≠ 0 →
      (v ≠ ackPair → Claims.traps (.contra a) s .ngfull 0 0 ∧ Claims.traps (.contrav a) s .ngfull 0 0) ∧
      (v ≠ ackReset → Claims.traps .wreset s .lblwrap v.toNat 0)) ∧
    (s.grantValue = some ackPair → ∀ i g, i ∈ [Instr.contra a, .contrav a] → s.core.sent = some g →
      (s.ctx.world.addNogoods g = some w → ∃ t, exec i s = .next t ∧ t.ctx.world = w ∧
        w.nggen = s.ctx.world.nggen + 1 ∧ t.core.regs = s.core.regs ∧ t.dev = s.dev) ∧
      (s.ctx.world.addNogoods g = none → Claims.traps i s .ngfull 0 0)) ∧
    (s.grantValue = some ackReset →
      (nextEpoch s.ctx.world.epoch ∉ s.ctx.world.used ∨ s.core.lblcfg.swept = true →
        ∃ t, exec .wreset s = .next t ∧ t.ctx.world.epoch = nextEpoch s.ctx.world.epoch ∧ t.ctx.world.table = [] ∧
          t.ctx.world.nogoods = [] ∧ t.ctx.world.nggen = s.ctx.world.nggen + 1 ∧
          t.core.epoch = nextEpoch s.ctx.world.epoch ∧ t.core.regs = Claims.renewed s s.core ∧
          t.core.lblcfg.swept = false ∧ t.dev = s.dev) ∧
      (nextEpoch s.ctx.world.epoch ∈ s.ctx.world.used → s.core.lblcfg.swept = false →
        Claims.traps .wreset s .lblwrap (nextEpoch s.ctx.world.epoch).toNat 0)) ∧
    ((s.coreAt cl core).issue.lone = false →
      (∀ g, (s.coreAt cl core).park = some (.contra g) →
        ∃ t, exec (.contraRetire cl core) s = .next t ∧ t.ctx.world = s.ctx.world ∧
          t.coreAt cl core = { (s.coreAt cl core).wake ackPair with sent := some g } ∧ t.dev = s.dev) ∧
      ((s.coreAt cl core).park = some .wreset →
        ∃ t, exec (.wresetRetire cl core) s = .next t ∧ t.ctx.world = s.ctx.world ∧
          t.coreAt cl core = (s.coreAt cl core).wake ackReset ∧ t.dev = s.dev)) ∧
    ((s.coreAt cl core).issue.lone = true →
     (∀ g, (s.coreAt cl core).park = some (.contra g) → s.ctx.world.addNogoods g = none →
      ∃ t, exec (.contraRetire cl core) s = .next t ∧ t.ctx.world = s.ctx.world ∧
        t.coreAt cl core = (s.coreAt cl core).wake 1 ∧ t.dev = s.dev) ∧
    ((s.coreAt cl core).park = some .wreset → nextEpoch s.ctx.world.epoch ∈ s.ctx.world.used →
      (s.coreAt cl core).lblcfg.swept = false →
      ∃ t, exec (.wresetRetire cl core) s = .next t ∧ t.ctx.world = s.ctx.world ∧
        t.coreAt cl core = (s.coreAt cl core).wake ((nextEpoch s.ctx.world.epoch).zeroExtend 64) ∧ t.dev = s.dev) ∧
    (∀ g, (s.coreAt cl core).park = some (.contra g) → s.ctx.world.addNogoods g = some w →
      ∃ t, exec (.contraRetire cl core) s = .next t ∧ t.ctx.world = w ∧ w.nggen = s.ctx.world.nggen + 1 ∧
        (t.coreAt cl core).park = none ∧ (t.coreAt cl core).regs = (s.coreAt cl core).regs ∧ t.dev = s.dev) ∧
    ((s.coreAt cl core).park = some .wreset →
      (nextEpoch s.ctx.world.epoch ∉ s.ctx.world.used ∨ (s.coreAt cl core).lblcfg.swept = true) →
      ∃ t, exec (.wresetRetire cl core) s = .next t ∧ t.ctx.world.epoch = nextEpoch s.ctx.world.epoch ∧
        t.ctx.world.table = [] ∧ t.ctx.world.nogoods = [] ∧ t.ctx.world.nggen = s.ctx.world.nggen + 1 ∧
        (t.coreAt cl core).epoch = nextEpoch s.ctx.world.epoch ∧ (t.coreAt cl core).park = none ∧
        (t.coreAt cl core).regs = Claims.renewed s (s.coreAt cl core) ∧ (t.coreAt cl core).lblcfg.swept = false ∧
        t.dev = s.dev))

/-- R101, R112, R114, R115, R53: the scalar float forms that complete with bypass write f[d] or x[d] and OR their flags into
FCSR; FDIV and FSQRT leave their result outstanding with the flags that its write will OR in.
R99, R100, R112: a sum, a difference or a product of finite numbers that FP32 represents, other than 0, is that number, and raises
no flag, whatever the rounding mode; with a NaN operand it is the canonical NaN, and NV is raised by a signalling one alone. -/
def Obligations.FloatForms : Prop :=
  (∀ (m : Nat) (x y : FVal) (r : Nat), m < 4 → Claims.finite x → Claims.finite y → r < 2 ^ 32 →
    Claims.finite (fp32.decode r) → Claims.rat (fp32.decode r) ≠ 0 →
    (Claims.rat (fp32.decode r) = Claims.rat x + Claims.rat y → fp32.addV m x y = (r, FFlags.none)) ∧
    (Claims.rat (fp32.decode r) = Claims.rat x - Claims.rat y → fp32.addV m x y.neg = (r, FFlags.none)) ∧
    (Claims.rat (fp32.decode r) = Claims.rat x * Claims.rat y → fp32.mulF m x y = (r, FFlags.none))) ∧
  (∀ (m : Nat) (x y : FVal), x.isNan = true ∨ y.isNan = true →
    (∀ r, r ∈ [fp32.addV m x y, fp32.addV m x y.neg, fp32.mulF m x y] →
      r.1 = 0x7FC00000 ∧ r.2 = ⟨x.isSnan || y.isSnan, false, false, false, false⟩)) ∧
  (∀ (s : State) (rm : Rm) (it : IntTy) (d a b : Nat) (i : Instr) (r : Nat × FFlags) (ws : List LabelWord) (w : LabelWord)
      (u : State),
      (i, r, ws) ∈ Claims.floatForms s rm it d a b → i.wf = true → s.formConj ws = .ok (w, u) →
      ∃ t, exec i s = .next t ∧ Claims.fWritten s t d (BitVec.ofNat 32 r.1) w r.2) ∧
  (∀ (s : State) (rm : Rm) (it : IntTy) (cc : FCc) (d a b : Nat) (i : Instr) (ws : List LabelWord) (w : LabelWord),
      i.wf = true →
      (∀ r, (i, r, ws) ∈ Claims.floatToXForms s rm it cc d a b → Claims.labelled s d ws w →
        ∃ t, exec i s = .next t ∧ Claims.xFlagged s t d r.1 w r.2) ∧
      (∀ r u, (i, r, ws) ∈ Claims.floatLongForms s rm d a b → s.formConj ws = .ok (w, u) →
        ∃ t, exec i s = .next t ∧ t.core.regs = s.core.regs ∧
          Claims.outstandingWith s t (.f d) (BitVec.ofNat 512 r.1) w r.2 ∧ t.core.streams = s.core.streams ∧
          Claims.coreKept s t ∧ Claims.ctxKept s t ∧ Claims.restKept s t ∧ Claims.memoryKept s t))

/-- R116 to R121, R124, R126, R127, R53: a lanewise vector form computes its active lanes and keeps the other lanes of the
register it merges into; only v[d], FCSR's flags, the label table and LBLSTAT change, and the pc and the loop stack as at the end
of any instruction. VEXP2, VRCP and VRSQ leave a register outstanding. -/
def Obligations.VectorForms : Prop :=
  (∀ (s u : State) (t : ElemTy) (d a b pg : Nat) (i : Instr) (ws : List LabelWord) (old : VWord)
      (g : Nat → Nat × FFlags) (w : LabelWord),
      (i, ws, old, g) ∈ Claims.vectorForms s t d a b pg → i.wf = true → s.formConj ws = .ok (w, u) →
      ∃ r val, exec i s = .next r ∧ Claims.vFlagged s r d val w (Claims.laneFlags s t pg g) ∧
        Claims.lanesAre s t pg old g val) ∧
  (∀ (s u : State) (t : ElemTy) (d a pg : Nat) (i : Instr) (g : Nat → Nat × FFlags) (w : LabelWord),
      (i, g) ∈ Claims.vectorLongForms s t d a pg → i.wf = true →
      s.formConj ([s.labV a] ++ Claims.mergeWords s d pg) = .ok (w, u) →
      ∃ r val, exec i s = .next r ∧ r.core.regs = s.core.regs ∧
        Claims.outstandingWith s r (.v d) val w (Claims.laneFlags s t pg g) ∧ Claims.lanesAre s t pg (s.rdV d) g val ∧
        Claims.streamsEnded s r (.v d) ∧ Claims.coreKept s r ∧ Claims.ctxKept s r ∧ Claims.restKept s r ∧
        Claims.memoryKept s r)

/-- R104, R107, R122, R123: VCVT converts each active lane, lanes beyond the source's count giving 0; VDEC decodes codes
by a bank; VENC encodes lanes into codes, keeps the codes of inactive lanes and clears every byte above the last code. -/
def Obligations.VectorConversions : Prop :=
  ∀ (s u : State) (t src : ElemTy) (bank : Bank) (nan : Bool) (d a pg : Nat) (w : LabelWord),
    s.formConj ([s.labV a] ++ Claims.mergeWords s d pg) = .ok (w, u) →
    ((Instr.vcvt t src d a pg).wf = true →
      ∀ g, g = (fun i => if i < src.count then Claims.converted s t src (Claims.laneOf src.bits (s.rdV a) i)
        else (0, FFlags.none)) →
      ∃ r val, exec (.vcvt t src d a pg) s = .next r ∧ Claims.vFlagged s r d val w (Claims.laneFlags s t pg g) ∧
        Claims.lanesAre s t pg (s.rdV d) g val) ∧
    ((Instr.vdec bank t d a pg).wf = true →
      ∀ g, g = (fun i => t.fmt.convert 0
        (decodeEntry ((Claims.entries s bank).getD (Claims.laneOf (Claims.codeWidth bank) (s.rdV a) i) 0))) →
      ∃ r val, exec (.vdec bank t d a pg) s = .next r ∧ Claims.vFlagged s r d val w (Claims.laneFlags s t pg g) ∧
        Claims.lanesAre s t pg (s.rdV d) g val) ∧
    ((Instr.venc bank nan t d a pg).wf = true →
      ∀ g, g = (fun i => encodeValue (Claims.entries s bank) nan
        (decide (Claims.laneOf t.bits (s.rdV a) i / t.fmt.signBit = 1)) (Claims.laneFloat s t a i)) →
      ∃ r val, exec (.venc bank nan t d a pg) s = .next r ∧
        Claims.vFlagged s r d val w (Claims.laneFlags s t pg g) ∧
        (∀ i, i < t.count → Claims.laneOf (Claims.codeWidth bank) val i =
          if Claims.activeLane s t pg i then (g i).1 % 2 ^ Claims.codeWidth bank
          else Claims.laneOf (Claims.codeWidth bank) (s.rdV d) i) ∧
        ∀ i, Claims.codeWidth bank * t.count ≤ 8 * i → i < 64 → Claims.laneOf 8 val i = 0)

/-- R125, R127, R128: VREDS and VREDM reduce the active lanes into lane 0 by the fixed tree and clear the rest; for integers
VREDS is the sum modulo the lane width, and VREDM the greatest of the active lanes. VINS replaces one lane by the scalar, or
none, and sets no flag (log entry 54); VEXT takes one out, or gives 0. -/
def Obligations.VectorReductionsAndElements : Prop :=
  ∀ (s u : State) (t : ElemTy) (d a b pg : Nat) (w : LabelWord), a < 32 → pg < 8 →
    (d < 32 → s.formConj ([s.labV a] ++ Claims.predWords s pg) = .ok (w, u) →
      (∃ r, exec (.vreds t d a pg) s = .next r ∧
        Claims.vFlagged s r d (BitVec.ofNat 512 (Claims.laneSum s t a pg).1) w (Claims.laneSum s t a pg).2 ∧
        (Claims.laneSum s t a pg).1 < 2 ^ t.bits ∧
        (t.isInt = true → (Claims.laneSum s t a pg).2 = FFlags.none ∧ (Claims.laneSum s t a pg).1 =
          (((List.range t.count).filter (Claims.activeLane s t pg)).map (Claims.laneOf t.bits (s.rdV a))).sum
            % 2 ^ t.bits)) ∧
      (∃ r, exec (.vredm t d a pg) s = .next r ∧
        Claims.vFlagged s r d (BitVec.ofNat 512 (Claims.laneMax s t a pg).1) w (Claims.laneMax s t a pg).2 ∧
        (Claims.laneMax s t a pg).1 < 2 ^ t.bits ∧
        (t.isInt = true → (Claims.laneMax s t a pg).2 = FFlags.none ∧
          (∀ i, i < t.count → Claims.activeLane s t pg i = true →
            Claims.laneInt s t a i ≤ Claims.signed t.bits (Claims.laneMax s t a pg).1) ∧
          ((∃ i, i < t.count ∧ Claims.activeLane s t pg i = true ∧
              (Claims.laneMax s t a pg).1 = Claims.laneOf t.bits (s.rdV a) i) ∨
            (Claims.laneMax s t a pg).1 = 2 ^ (t.bits - 1))))) ∧
    (d < 32 → s.formConj [s.labV d, if t.isInt then s.labX a else s.labF a, s.labX b] = .ok (w, u) →
      ∃ r val, exec (.vins t d a b) s = .next r ∧ Claims.vFlagged s r d val w FFlags.none ∧
        ∀ i, i < t.count → Claims.laneOf t.bits val i =
          if i = (s.rdX b).toNat then (Claims.scalar s t a).1 % 2 ^ t.bits else Claims.laneOf t.bits (s.rdV d) i) ∧
    (t.isInt = true → d < 64 → Claims.labelled s d [s.labV a, s.labX b] w →
      ∃ r, exec (.vext t d a b) s = .next r ∧ Claims.xWritten s r d
        (if (s.rdX b).toNat < t.count then BitVec.ofInt 64 (Claims.laneInt s t a (s.rdX b).toNat) else 0) w) ∧
    (t.isInt = false → d < 32 → s.formConj [s.labV a, s.labX b] = .ok (w, u) →
      ∃ r, exec (.vext t d a b) s = .next r ∧ Claims.fWritten s r d
        (BitVec.ofNat 32 (Claims.laneFp32 s t a (s.rdX b).toNat).1) w (Claims.laneFp32 s t a (s.rdX b).toNat).2)

/-- R116, R120, R128: VCMP, PSET and PLOG write a predicate; p0 takes nothing. On floats VCMP sets NV for a NaN among the active
lanes, for eq and ne only for a signalling one, and no other flag. -/
def Obligations.PredicateForms : Prop :=
  ∀ (s : State) (cc : VCc) (t : ElemTy) (op : PlogOp) (d a b pg : Nat) (w : LabelWord), d < 8 → pg < 8 →
    (a < 32 → b < 32 →
      (d = 0 ∨ ∃ u, s.formConj ([s.labV a, s.labV b] ++ Claims.predWords s pg) = .ok (w, u)) →
      ∃ r val, exec (.vcmp cc t d a b pg) s = .next r ∧
        Claims.pFlagged s r d val w { FFlags.none with
          nv := (List.range t.count).any fun i => Claims.activeLane s t pg i && !t.isInt &&
            (if cc = .eq ∨ cc = .ne then (Claims.laneFloat s t a i).isSnan || (Claims.laneFloat s t b i).isSnan
              else (Claims.laneFloat s t a i).isNan || (Claims.laneFloat s t b i).isNan) } ∧
        Claims.predIs t (fun i => Claims.activeLane s t pg i &&
          (if t.isInt then cc.evalI (Claims.laneInt s t a i) (Claims.laneInt s t b i)
            else (cc.evalF (Claims.laneFloat s t a i) (Claims.laneFloat s t b i)).1)) val) ∧
    (a < 32 → (d = 0 ∨ ∃ u, s.formConj [s.labX a] = .ok (w, u)) →
      ∃ r val, exec (.pset t d a) s = .next r ∧ Claims.pFlagged s r d val w FFlags.none ∧
        Claims.predIs t (fun i => decide (i < (s.rdX a).toNat)) val) ∧
    (a < 8 → b < 8 → (d = 0 ∨ ∃ u, s.formConj [s.labP a, s.labP b] = .ok (w, u)) →
      ∃ r, exec (.plog op d a b) s = .next r ∧ Claims.pFlagged s r d (match op with
        | .and2 => s.rdP a &&& s.rdP b
        | .or2 => s.rdP a ||| s.rdP b
        | .xor2 => s.rdP a ^^^ s.rdP b
        | .andn2 => s.rdP a &&& ~~~(s.rdP b)
        | .not1 => ~~~(s.rdP a)) w FFlags.none)

/-- R129, R104, R110: DTLD of an image of legal entries labelled ⊤ replaces the bank by the image's 32-bit words and
starts a new table generation; of the core nothing else changes but the pc, the loop stack and LBLSTAT as at the end of any
instruction, of the context but the label table and translations held, and the device is as the read has left it. -/
def Obligations.DecodeTableLoads : Prop :=
  ∀ (s u : State) (bank : Bank) (a : Nat) (els : List (Nat × LabelWord)) (es : List Half), a < 64 →
    Claims.plainCore s → Claims.classPasses s [s.labX a] → (s.rdX a).toNat % 64 = 0 →
    s.loadAll 64 64 ((List.range (match bank with
      | .a => 16
      | .b => 1)).map fun i => s.rdX a + BitVec.ofNat 64 (64 * i)) = .ok (els, u) →
    (∀ e, e ∈ els → u.eval e.2 = topLabel) →
    es = (els.flatMap fun e => (List.range 16).map fun i => BitVec.ofNat 32 (e.1 / 2 ^ (32 * i))) →
    tableFault es = none →
    ∃ t, exec (.dtld bank a) s = .next t ∧ t.core.tableGen = s.core.tableGen + 1 ∧
      (match bank with
      | .a => (∀ i, i < 256 → fileGet (by decide) t.core.regs.bankA i = es.getD i 0) ∧
          { t.core.regs with bankA := s.core.regs.bankA } = s.core.regs
      | .b => (∀ i, i < 16 → fileGet (by decide) t.core.regs.bankB i = es.getD i 0) ∧
          { t.core.regs with bankB := s.core.regs.bankB } = s.core.regs) ∧
      Claims.latencyKept s t ∧ Claims.coreKept s (t.mapCore fun c => { c with tableGen := s.core.tableGen }) ∧
      Claims.ctxKeptButTlb s t ∧ t.focus = s.focus ∧ t.others = s.others ∧ t.agenda = s.agenda ∧ t.dev = u.dev

/-- R54 to R69, R245, R246: every well-formed instruction has an encoding, an event or a packet none; the encoding is a 30-bit
body that decodes to the instruction; and whatever the decoder gives is well-formed and no event. -/
def Obligations.DecodeOfEncode : Prop :=
  (∀ i : Instr, (Claims.event i = true → encode i = none) ∧
    (Claims.event i = false → i.wf = true → ∃ b, encode i = some b)) ∧
  (∀ (i : Instr) (b : Nat), i.wf = true → encode i = some b → b < 2 ^ 30 ∧ decodeBody b = .ok i) ∧
  (∀ (b : Nat) (i : Instr), decodeBody b = .ok i → i.wf = true ∧ Claims.event i = false)

/-- R69, R68: every encoding of major 0x3F that is not HPREF is NOP, which completes and changes nothing; HPREF changes
nothing either. -/
def Obligations.Hints : Prop :=
  ∀ (b d a k : Nat) (s : State),
    (b < 2 ^ 30 → b / 2 ^ 24 = 0x3F → b % 2 ^ 6 ≠ 0 → decodeBody b = .ok (.ori 0 0 0)) ∧
    (∃ t, exec (.ori 0 0 0) s = .next t ∧ Claims.passed s t) ∧ (∃ t, exec (.hpref d a k) s = .next t ∧ Claims.passed s t)

/-- Words that the spec's listings give with their fields, from every family of majors, decode to the instructions that
the listings name; a cell that the tables leave out and a "0" field that is not 0 are refused (R55, R57). -/
def Obligations.DecodeWords : Prop :=
  (∀ e, e ∈ Claims.listed → decodeWord e.1 = .ok e.2) ∧ decodeWord 0x2F00_0000 = .error .illCell ∧
    decodeWord 0x2000_0017 = .error .illCell ∧ decodeWord 0x1700_0041 = .error .badField ∧
    decodeWord 0x2B00_0001 = .error .illCell

/-- R45, R47, R48, R50, R51: a step of a core that may issue runs the instruction that the words at its pc decode to. A lone
word runs by itself, a pair word0 and then word1, both reading the registers as they were before the pair; a word0 that is a
suspension point leaves the core after word1. The return of an edge invocation waits for its outstanding results before
anything else (R341, R344). The model's choices here: that the clock has moved one cycle (log entry 4), that the container of a
pair issues again with the mark that word1 has been performed, the clause on pairDone (log entry 23), that an event which the
agenda names is run as it is and a tick that is due comes first (log entry 7), where no access has to wait at an owner (log
entry 45). -/
def Obligations.StepRunsDecoded : Prop :=
  ∀ (s t u r : State) (p : Place) (w0 w1 : Half) (i i0 i1 : Instr) (sw : Bool),
    (s.tickDue = true → exec .strokeTick s = .next r → r.dev.awaited = [] → step s = .next r) ∧
    (∀ rest, s.tickDue = false → s.agenda = .event i :: rest → exec i { s with agenda := rest } = .next r →
      r.dev.awaited = [] → step s = .next r) ∧
    (Claims.mayIssue s → s.core.pc.toNat % 4 = 0 →
      (s.elapse 1).fetchPlace s.core.status.mode s.core.pc = .ok (p, t) → t.fetchWords p = ((w0, w1), u) →
      (decodeContainer s.core.pc w0 w1 = .lone i sw → Claims.operandsSettled (u.readied i) (sources i) (dests i) →
        exec i (Claims.issuing (u.readied i) s.core.pc true) = .next r → Claims.completed r → step s = .next (Claims.marked r sw)) ∧
      (∀ (b v : State) (here : Word), decodeContainer s.core.pc w0 w1 = .pair i0 i1 sw →
        here = BitVec.ofNat 64 (s.core.pc.toNat / 8 * 8) → b = Claims.pairing u here i0 →
        Claims.operandsSettled b (sources i0 ++ sources i1) (dests i0 ++ dests i1) →
        (b.pairDone = true → exec i0 b = .next v → Claims.completed v → v.ctx.faulted = false →
          (Claims.atWord v (here + 4)).complete = r → step s = .next (Claims.marked r sw)) ∧
        (b.pairDone = false → suspends i0 = false → exec i0 b = .next v → Claims.completed v → v.ctx.faulted = false →
          exec i1 (Claims.atWord v (here + 4)) = .next r → Claims.completed r → step s = .next (Claims.marked r sw)) ∧
        (b.pairDone = false → suspends i0 = true → ∀ q, exec i0 b = .next q → q.core.trapped = none → q.core.stalled = false →
          q.ctx.faulted = false → exec i1 (Claims.atWord b (here + 4)) = .next v → Claims.completed v →
          exec i0 (Claims.atWord v here) = .next r → Claims.completed r → step s = .next (Claims.marked r sw))))

/-- R41, R43, R30, R106, R202: what reset leaves by the spec: the control registers with a reset value read it, the counters
are 0, the world is empty in epoch 1, no upcall is pending, and the decode banks hold E4M3 and E2M1. Memory is in the
canonical form (log entry 2, the model's choice: an unlisted byte reads as 0). -/
def Obligations.ResetState : Prop :=
  ((∀ e, e ∈ Claims.resetValues → State.reset.crRead e.1 = e.2) ∧
      (∀ k, k < 16 → fileGet (by decide) State.reset.core.k k = 0) ∧ State.reset.core.upcalls = [] ∧
      State.reset.core.lblcfg.xmax = 4 ∧ State.reset.core.epoch = 1 ∧ State.reset.ctx.world.epoch = 1 ∧
      State.reset.ctx.world.nogoods = [] ∧ State.reset.ctx.world.table = [] ∧ State.reset.dev.boot.stage = 0 ∧
      Claims.resetBanks) ∧
  (Memory.wf State.reset.dev.mem ∧ ∀ a, State.reset.dev.byte a = 0)

/-- Log entry 2: every step keeps memory in its canonical form, so that equal memories are equal data. -/
def Obligations.StepsKeepMemoryCanonical : Prop :=
  ∀ s t : State, Memory.wf s.dev.mem → step s = .next t → Memory.wf t.dev.mem

/-- R191, R245 to R254: an MMA, MZERO, MLDA or MSTA of a core that holds the lease enters the engine's queue with its operands
as they stand at issue; no register, accumulator or byte of memory changes until it runs. Without the lease it traps with
MMALEASE; a base or stride that is no multiple of 16 traps with MISALIGN; a deferred fault is taken by the next MMA, MSTA or
MSYNC, whose address EPC then holds. -/
def Obligations.MatrixIssue : Prop :=
  (∀ (s : State) (i : Instr) (shape acc : Nat) (z : Bool) (a b vs : Nat), i.wf = true → Claims.plainCore s →
    (∀ tr, s.core.mfault = some tr →
      i ∈ .msta acc a :: .msync :: (Claims.mmaForms shape acc z a b vs).map Prod.fst →
      exec i s = .next (s.trapEntry { tr with epc := s.core.issue.epc })) ∧
    (s.core.mfault = none → s.holdsLease = false →
      i ∈ .mzero acc :: .mlda acc a :: .msta acc a :: (Claims.mmaForms shape acc z a b vs).map Prod.fst →
      Claims.traps i s .mmalease 1 0) ∧
    (s.core.mfault = none → s.holdsLease = true →
      (i = .mlda acc a → ¬ Claims.strideAligned (s.rdX a) (s.rdX (a + 1)) → Claims.traps i s .misalign 0 (s.rdX a)) ∧
      (i = .msta acc a → ¬ Claims.strideAligned (s.rdX a) (s.rdX (a + 1)) → Claims.traps i s .misalign 1 (s.rdX a)) ∧
      (i ∈ (Claims.mmaForms shape acc z a b vs).map Prod.fst →
        (¬ Claims.strideAligned (s.rdX a) (s.rdX (a + 1)) → Claims.traps i s .misalign 0 (s.rdX a)) ∧
        (Claims.strideAligned (s.rdX a) (s.rdX (a + 1)) → ¬ Claims.strideAligned (s.rdX b) (s.rdX (b + 1)) →
          Claims.traps i s .misalign 0 (s.rdX b))))) ∧
  ∀ (s u : State) (i : Instr) (shape acc : Nat) (z : Bool) (a b vs : Nat) (ctl : LabelWord), i.wf = true →
    Claims.matrixReady s →
    (∀ f regs, (i, f, regs) ∈ Claims.mmaForms shape acc z a b vs →
      Claims.strideAligned (s.rdX a) (s.rdX (a + 1)) → Claims.strideAligned (s.rdX b) (s.rdX (b + 1)) →
      s.formConj (Claims.group s a (if z then 3 else 2) ++ Claims.group s b 2) = .ok (ctl, u) →
      ∃ t, exec i s = .next t ∧ Claims.commandQueued s t
        (.mma f shape acc z (s.rdX a) (s.rdX (a + 1)) (s.rdX b) (s.rdX (b + 1)) (if z then s.rdX (a + 2) else 0)
          (regs.map s.rdV)) ctl (regs.map s.labV)) ∧
    (i = .mzero acc → s.formConj [] = .ok (ctl, u) →
      ∃ t, exec i s = .next t ∧ Claims.commandQueued s t (.mzero acc) ctl []) ∧
    (i = .mlda acc a → Claims.strideAligned (s.rdX a) (s.rdX (a + 1)) → s.formConj (Claims.group s a 2) = .ok (ctl, u) →
      ∃ t, exec i s = .next t ∧ Claims.commandQueued s t (.mlda acc (s.rdX a) (s.rdX (a + 1))) ctl []) ∧
    (i = .msta acc a → Claims.strideAligned (s.rdX a) (s.rdX (a + 1)) → s.formConj (Claims.group s a 2) = .ok (ctl, u) →
      (∀ r, r < min ((s.rdX (a + 1)).toNat / 2 ^ 56 % 2 ^ 8) 32 → s.ctx.inboxByte (s.rdX a + BitVec.ofNat 64 (r * ((s.rdX (a + 1)).toNat % 2 ^ 48))).toNat
        (4 * min ((s.rdX (a + 1)).toNat / 2 ^ 48 % 2 ^ 8) 32) = none) →
      ∃ t, exec i s = .next t ∧ Claims.commandQueued s t (.msta acc (s.rdX a) (s.rdX (a + 1))) ctl [])

/-- R240 to R243, R259, R266: MACQ gives up the core's lease and waits with its request, and completes once the lease is granted;
the grant goes to the requesting member that follows the previous holder, for the length asked, and copies the member's
decode tables unless the engine holds them, a lease that a gang-stop has interrupted going on with the tables that it had (R243,
R259); MREL gives the lease up. MSYNC waits while commands of the core are queued and
passes when none is.
R269: MSKLD reads the count of blocks, the index word of its block and the stored quarters of its bitmap, and writes
the bitmap to x[d], labelled by its operands and by every line read. -/
def Obligations.LeasesAndMatrixSync : Prop :=
  (∀ (s : State) (n cl crew m : Nat), Claims.plainCore s →
      (s.grantValue = none → ∃ t, exec (.macq n) s = .next t ∧ t.core.park = some .macq ∧ t.core.regs = s.core.regs ∧
        lookup t.myEngine.requests (s.focus.core % 8) = some n ∧ t.holdsLease = false ∧
        (s.holdsLease = false → t.myEngine.holder = s.myEngine.holder)) ∧
      (∀ v, s.grantValue = some v → ∃ t, exec (.macq n) s = .next t ∧ Claims.passed s t) ∧
      (∃ t, exec .mrel s = .next t ∧ t.holdsLease = false ∧ (s.holdsLease = false → t.myEngine = s.myEngine) ∧
        t.core.regs = s.core.regs ∧ Claims.latencyKept s t ∧ Claims.coreKept s t ∧ Claims.engineKept s t ∧ t.dev = s.dev) ∧
      (s.ctx.stopped = false → (s.mengine cl crew).holder = none → (s.mengine cl crew).next = some m →
        ∃ t, exec (.leaseGrant cl crew) s = .next t ∧ (t.mengine cl crew).holder = some m ∧
          (t.mengine cl crew).lrem = lookupD 1 (s.mengine cl crew).requests m ∧
          lookup (t.mengine cl crew).requests m = none ∧ (t.mengine cl crew).queue = (s.mengine cl crew).queue ∧
          (∀ k, (s.coreAt cl (crew * 8 + m)).park = some .lease → (s.mengine cl crew).saved = some k → k.member = m →
            (t.mengine cl crew).bankA = k.bankA ∧ (t.mengine cl crew).bankB = k.bankB ∧
            (t.mengine cl crew).tables = k.tables ∧ (t.mengine cl crew).saved = none) ∧
          (((s.coreAt cl (crew * 8 + m)).park ≠ some .lease ∨ ∀ k, (s.mengine cl crew).saved = some k → k.member ≠ m) →
            ((s.mengine cl crew).tables = some (crew * 8 + m, (s.coreAt cl (crew * 8 + m)).tableGen) →
              (t.mengine cl crew).bankA = (s.mengine cl crew).bankA ∧
              (t.mengine cl crew).bankB = (s.mengine cl crew).bankB) ∧
            ((s.mengine cl crew).tables ≠ some (crew * 8 + m, (s.coreAt cl (crew * 8 + m)).tableGen) →
              (t.mengine cl crew).bankA = (s.coreAt cl (crew * 8 + m)).regs.bankA ∧
              (t.mengine cl crew).bankB = (s.coreAt cl (crew * 8 + m)).regs.bankB)) ∧
          (t.coreAt cl (crew * 8 + m)).park = none ∧
          (t.coreAt cl (crew * 8 + m)).regs = (s.coreAt cl (crew * 8 + m)).regs ∧ t.dev = s.dev) ∧
      (s.core.mfault = none → s.core.aside = [] →
        (∀ e, e ∈ s.myEngine.queue → e.core ≠ s.focus.core) → ∃ t, exec .msync s = .next t ∧ Claims.passed s t) ∧
      (s.core.mfault = none → (∃ e, e ∈ s.myEngine.queue ∧ e.core = s.focus.core) →
        ∃ t, exec .msync s = .next t ∧ t.core.park = some .msync ∧ t.core.regs = s.core.regs)) ∧
  (∀ (s s0 s1 s2 s3 : State) (d a b nbr idx r : Nat) (w0 w1 w : LabelWord) (ws : List LabelWord), d < 64 → a < 64 → b < 64 →
      (s.rdX a).toNat % 8 = 0 → s.loadOne 4 (s.rdX a) = .ok (nbr, w0, s0) → (s.rdX b).toNat < nbr →
      s0.loadOne 4 (s.rdX a + 8 + 4 * s.rdX b) = .ok (idx, w1, s1) →
      s1.readQuarters (idx % 16) [0, 1, 2, 3] (s.rdX a + BitVec.ofNat 64 (2 * (idx / 16))) 0 = .ok (r, ws, s2) →
      (d = 0 ∨ s2.formConj ([s.labX a, s.labX b, w0, w1] ++ ws) = .ok (w, s3)) →
      ∃ t, exec (.mskld d a b) s = .next t ∧ Claims.xFileWritten s t d (BitVec.ofNat 64 r) w ∧ Claims.latencyKept s t ∧
        (s2.dev.mem = s.dev.mem → Claims.memoryKept s t))

/-- R253 to R256, R267: the command at the head of an engine's queue runs. MZERO clears one accumulator of its core and
labels its rows ⊤ (unless the core has taken another record since: its accumulators are then unpredictable, R244, log entry
63); a command that completes leaves the queue; one that fails leaves it with the core's later ones, which
are set aside with the rows done, its address in MFPC and a deferred fault.
What the commands compute (R248, R251, R253, R267): MLDA of at most 8 rows loads 32 words of 32 bits into each and leaves the
others; MSTA of one row within a line stores its words there; an element of MMAII is the old one and the sum of the products of
its int8 factors, modulo 2 ^ 32; a NaN factor makes an element of every other form the canonical NaN. -/
def Obligations.MatrixCommandsRun : Prop :=
  (∀ (s : State) (cl crew acc rows : Nat) (e : MEntry) (rest : List MEntry) (f : EngineFail),
    (s.mengine cl crew).queue = e :: rest → s.ctx.stopped = false →
    (e.cmd = .mzero acc → ∃ t, exec (.matrixCommandComplete cl crew) s = .next t ∧
      (t.mengine cl crew).queue = rest ∧
      (e.last = false →
        (∀ i, i < 32 → fileGet (by decide) ((t.coreAt cl e.core).tile acc).row i = 0 ∧
          fileGet (by decide) ((t.coreAt cl e.core).tile acc).lbl i = mkWord s.ctx.world.agentEpoch false 0) ∧
        (t.coreAt cl e.core).tile (if acc = 0 then 1 else 0) = (s.coreAt cl e.core).tile (if acc = 0 then 1 else 0)) ∧
      (t.coreAt cl e.core).regs = (s.coreAt cl e.core).regs ∧ t.dev = s.dev) ∧
    ((s.runCommand cl e).fail = none → ∃ t, exec (.matrixCommandComplete cl crew) s = .next t ∧
      t.dev = (s.runCommand cl e).state.dev ∧
      (∀ l, l ∈ (t.cluster cl).locks → l.id ∉ e.locks) ∧
      (e.last = false → (t.coreAt cl e.core).acc0 = ((s.runCommand cl e).state.coreAt cl e.core).acc0 ∧
        (t.coreAt cl e.core).acc1 = ((s.runCommand cl e).state.coreAt cl e.core).acc1)) ∧
    ((s.runCommand cl e).fail = some (f, rows) → ∃ t, exec (.matrixHalt cl crew) s = .next t ∧
      (t.mengine cl crew).queue = rest.filter (fun m => m.core != e.core) ∧
      (t.coreAt cl e.core).mfpc = e.pc ∧ (t.coreAt cl e.core).mrows = rows ∧
      (t.coreAt cl e.core).aside =
        { e with rows := rows } :: (rest.filter (fun m => m.core == e.core) ++ (s.coreAt cl e.core).aside) ∧
      (∃ tr, (t.coreAt cl e.core).mfault = some tr ∧ tr.cause = f.deny.cause ∧ tr.addr = f.deny.addr ∧
        tr.deferred = true) ∧
      t.dev = ((s.runCommand cl e).state.noteDeny (e.agent cl) f.deny).dev)) ∧
  (∀ (s : State) (cl acc n : Nat) (e : MEntry) (base sw : Word) (bs : Nat → List Byte) (ws : Nat → List LabelWord),
    e.cmd = .mlda acc base sw → e.rows = 0 → n = sw.toNat / 2 ^ 56 % 2 ^ 8 → n ≤ 8 →
    (∀ i, i < n → s.readSpan (e.agent cl) (base + BitVec.ofNat 64 (i * (sw.toNat % 2 ^ 48))) 128 = .ok (bs i, ws i, s)) →
    (s.runCommand cl e).fail = none →
    (∀ i j, i < n → j < 32 → Claims.accWord ((s.runCommand cl e).state.coreAt cl e.core) acc i j =
      natOf (((bs i).drop (4 * j)).take 4)) ∧
    (∀ i, n ≤ i → i < 32 → fileGet (by decide) (((s.runCommand cl e).state.coreAt cl e.core).tile acc).row i =
      fileGet (by decide) ((s.coreAt cl e.core).tile acc).row i)) ∧
  (∀ (s u : State) (cl acc n : Nat) (e : MEntry) (base sw : Word) (p : Place),
    e.cmd = .msta acc base sw → e.rows = 0 → sw.toNat / 2 ^ 56 % 2 ^ 8 = 1 → n = 4 * min (sw.toNat / 2 ^ 48 % 2 ^ 8) 32 →
    0 < n → base.toNat % 64 + n ≤ 64 → s.enginePlace (e.agent cl) .write base = .ok (p, u) →
    (s.runCommand cl e).fail = none →
    (∀ k, k < n → (s.runCommand cl e).state.dev.byte (p.loc + k) =
      BitVec.ofNat 8 (Claims.accWord (s.coreAt cl e.core) acc 0 (k / 4) / 256 ^ (k % 4))) ∧
    ∀ b, ¬ Claims.within p.loc n b → (p.lt = false ∨ ¬ Claims.within (labelLoc (lineOf p.loc)) 4 b) →
      (s.runCommand cl e).state.dev.byte b = u.dev.byte b) ∧
  (∀ (c : Nat) (xs ys : List Nat) (bankA : Vector Half 256) (bankB : Vector Half 16) (scale : Nat → Nat × Nat),
    xs.length = ys.length →
    mmaElement .ii c (xs.map fun v => some (elementValue .ii bankA bankB 8 v))
        (ys.map fun v => some (elementValue .ii bankA bankB 8 v)) scale =
      (((c : Int) + ((xs.zip ys).map fun e => Claims.signed 8 e.1 * Claims.signed 8 e.2).sum) % (2 ^ 32 : Nat)).toNat) ∧
  ∀ (f : MForm) (c i : Nat) (row col : List (Option FVal)) (x y : FVal) (scale : Nat → Nat × Nat), f ≠ .ii →
    row[i]? = some (some x) → col[i]? = some (some y) → x.isNan = true ∨ y.isNan = true →
    mmaElement f c row col scale = 0x7FC00000

/-- R270, R279, R285: JSUB accepts the job that a valid descriptor names: the job is queued behind those of its crew with
the next sequence number, and its promise, of member, crew and cluster, is left outstanding. With the unit full nothing
is queued and the promise is 0.
R133, R190, R285: a descriptor that is not aligned, one that breaks its rules, a job that would write into an inbox, and one whose
catch group the crew's copy unit is no member of, or the core in no gang, trap.
R279, R286, R287: JPOLL gives the state of a job of the core, its kept status once it is complete, or 0xFF. JCANCEL of
a job that does not run completes it with CODE 9 and gives 1; of one that runs it gives 2, of a complete one 3, of an
unknown one 0. -/
def Obligations.JobInstructions : Prop :=
  (∀ (s t u v : State) (d a : Nat) (desc : VWord) (lw ctl : LabelWord) (j : Job) (locks : List Nat) (seq : Half),
      0 < d → d < 63 → a < 64 → Claims.plainCore s → s.readDescriptor (s.rdX a) = .ok (desc, lw, t) →
      j = jobOf desc s.core.dealpat → t.jobOk (Claims.crew s) desc j = true →
      (j.fa = true → s.core.gang ≠ none ∧ (s.group j.g).isMember (192 + Claims.crew s) = true) →
      t.inboxCheck (t.writtenSpans (Claims.crew s) j) = .ok () → t.formConj [s.labX a, lw] = .ok (ctl, u) →
      seq = (if (Claims.unit u s.focus.cl (Claims.crew s)).seq + 1 = 0 then 1
        else (Claims.unit u s.focus.cl (Claims.crew s)).seq + 1) →
      ((Claims.unit u s.focus.cl (Claims.crew s)).jobs.length < Config.copyQueue →
        ((Claims.unit u s.focus.cl (Claims.crew s)).jobs.filter fun x => x.core == s.focus.core).length
          < Config.copyPerCore →
        u.lockRanges s.focus.cl s.focus.core .copy (((boundsOf j.src j.rows j.srcLen j.sstride).1,
          (boundsOf j.src j.rows j.srcLen j.sstride).2, false) ::
            (u.jobLocks (Claims.crew s) j).map fun r => (r.1, r.2, true)) = some (locks, v) →
        ∃ r job val, exec (.jsub d a) s = .next r ∧
          (Claims.unit r s.focus.cl (Claims.crew s)).jobs = (Claims.unit u s.focus.cl (Claims.crew s)).jobs ++ [job] ∧
          (Claims.unit r s.focus.cl (Claims.crew s)).seq = seq ∧
          job.id = BitVec.ofNat 64 (seq.toNat + s.focus.core % 8 * 2 ^ 32 + Claims.crew s * 2 ^ 35 + s.focus.cl * 2 ^ 40) ∧
          job.state = .queued ∧ job.kind = desc.toNat % 2 ^ 4 ∧ job.src.toNat = desc.toNat / 2 ^ 64 % 2 ^ 64 ∧
          job.dst.toNat = desc.toNat / 2 ^ 128 % 2 ^ 64 ∧ job.len = desc.toNat / 2 ^ 192 % 2 ^ 32 ∧
          job.rows = desc.toNat / 2 ^ 224 % 2 ^ 16 ∧ job.core = s.focus.core ∧ job.record = s.core.crec ∧
          job.mode = s.core.status.mode ∧ job.ctl = ctl ∧ job.locks = locks ∧
          r.core.pending = s.core.pending ++ [⟨.x d, job.id.zeroExtend 512, s.topWord, FFlags.none⟩,
            ⟨.x (d + 1), val, s.topWord, FFlags.none⟩] ∧ r.core.regs = s.core.regs ∧
          (u.dev.mem = s.dev.mem → Claims.memoryKept s r)) ∧
      (Config.copyQueue ≤ (Claims.unit u s.focus.cl (Claims.crew s)).jobs.length ∨
          Config.copyPerCore ≤
            ((Claims.unit u s.focus.cl (Claims.crew s)).jobs.filter fun x => x.core == s.focus.core).length →
        ∃ r, exec (.jsub d a) s = .next r ∧
          (Claims.unit r s.focus.cl (Claims.crew s)).jobs = (Claims.unit u s.focus.cl (Claims.crew s)).jobs ∧
          r.core.pending = s.core.pending ++ [⟨.x d, 0, s.topWord, FFlags.none⟩,
            ⟨.x (d + 1), s.dev.cycle.zeroExtend 512, s.topWord, FFlags.none⟩] ∧ r.core.regs = s.core.regs)) ∧
  (∀ (s t : State) (d a v : Nat) (desc : VWord) (lw : LabelWord) (j : Job), 0 < d → d < 63 → a < 64 → Claims.plainCore s →
      ((s.rdX a).toNat % 64 ≠ 0 → Claims.traps (.jsub d a) s .misalign 0 (s.rdX a)) ∧
      (s.readDescriptor (s.rdX a) = .ok (desc, lw, t) → j = jobOf desc s.core.dealpat →
        (t.jobOk (Claims.crew s) desc j = false → Claims.traps (.jsub d a) s .illegal (Claims.illegalInfo s 9) 0) ∧
        (t.jobOk (Claims.crew s) desc j = true → Claims.lowestInbox t (t.writtenSpans (Claims.crew s) j) v →
          Claims.traps (.jsub d a) s .illegal (Claims.illegalInfo s 9) (BitVec.ofNat 64 v)) ∧
        (t.jobOk (Claims.crew s) desc j = true → t.inboxCheck (t.writtenSpans (Claims.crew s) j) = .ok () → j.fa = true →
          (s.core.gang = none → Claims.traps (.jsub d a) s .catchTrap (1 + 2 ^ 8 * j.g) 0) ∧
          (s.core.gang ≠ none → (s.group j.g).isMember (192 + Claims.crew s) = false →
            Claims.traps (.jsub d a) s .catchTrap (2 + 2 ^ 8 * j.g) 0)))) ∧
  (∀ (s : State) (d a : Nat) (j : Job), d < 64 → a < 64 → Claims.plainCore s →
      (s.findJob s.focus.cl s.focus.core (s.rdX a) = some j →
        (∃ t, exec (.jpoll d a) s = .next t ∧ Claims.xWritten s t d (match j.state with
          | .queued => 0
          | .running => 1
          | .awaiting => 2) s.topWord) ∧
        (j.state ≠ .running → ∃ t, exec (.jcancel d a) s = .next t ∧
          Claims.jobDone s t s.focus.cl (Claims.crew s) j 9 0 ∧ Claims.xFileWritten s t d 1 s.topWord) ∧
        (j.state = .running → ∃ t, exec (.jcancel d a) s = .next t ∧
          (∀ x, x ∈ (Claims.unit t s.focus.cl (Claims.crew s)).jobs → x.id ≠ j.id) ∧
          Claims.xFileWritten s t d 2 s.topWord)) ∧
      (s.findJob s.focus.cl s.focus.core (s.rdX a) = none →
        ((∀ e, e ∈ (Claims.unit s s.focus.cl (Claims.crew s)).kept → e.1 = s.rdX a → e.2.2 ≠ s.focus.core) →
          (∃ t, exec (.jpoll d a) s = .next t ∧ Claims.xWritten s t d 0xFF s.topWord) ∧
          (∃ t, exec (.jcancel d a) s = .next t ∧ Claims.xWritten s t d 0 s.topWord)) ∧
        (∀ w, w ≠ 0xFF → ((Claims.unit s s.focus.cl (Claims.crew s)).kept.find? fun e =>
            e.1 == s.rdX a && e.2.2 == s.focus.core) = some (s.rdX a, w, s.focus.core) →
          (∃ t, exec (.jpoll d a) s = .next t ∧ Claims.xWritten s t d w s.topWord) ∧
          (∃ t, exec (.jcancel d a) s = .next t ∧ Claims.xWritten s t d 3 s.topWord))))

/-- R270, R277, R279 to R281: the copy unit starts the first accepted job; a running job completes with the code of its
run; one whose access fails with a fault that can be replayed is posted and waits, and one that met an uncorrectable
error starts again once; a transform may end with ROUTINE.
R272, R215: a COPY of one line that completes with CODE 0 has copied its 64 bytes, and with a control label of ⊤ its label word
too, and changed no other byte. -/
def Obligations.JobsRun : Prop :=
  (∀ (s u v w : State) (cl crew index : Nat) (j : Job) (p q : Place), j.kind = 0 → j.rows = 1 → j.len = 64 →
    j.src.toNat % 64 = 0 → j.dst.toNat % 64 = 0 → s.enginePlace (j.agent cl crew) .read j.src = .ok (p, v) →
    v.enginePlace (j.agent cl crew) .write j.dst = .ok (q, w) → s.runJob cl crew j = .complete u 0 index →
    (∀ k, k < 64 → u.dev.byte (q.loc + k) = v.dev.byte (p.loc + k)) ∧
    (s.engineEval j.ctl = topLabel → q.lt = true → Claims.labelApart q q.loc 64 →
      u.dev.rawLabel (lineOf q.loc) = v.copyWord p) ∧
    ∀ b, ¬ Claims.within q.loc 64 b → (q.lt = false ∨ ¬ Claims.within (labelLoc (lineOf q.loc)) 4 b) →
      u.dev.byte b = w.dev.byte b) ∧
  ∀ (s u : State) (cl crew code index : Nat) (j : Job) (f : EngineFail), s.ctx.stopped = false →
    (((Claims.unit s cl crew).jobs.find? fun x => x.state == .queued) = some j →
      ∃ t, exec (.jobStart cl crew) s = .next t ∧ (Claims.unit t cl crew).jobs =
        ((Claims.unit s cl crew).jobs.map fun x => if x.id = j.id then { x with state := .running } else x) ∧
        t.core = s.core ∧ t.dev = s.dev) ∧
    (Claims.runs s cl crew j →
      (s.runJob cl crew j = .complete u code index →
        ∃ t, exec (.jobComplete cl crew j.id) s = .next t ∧ Claims.jobDone u t cl crew j code index) ∧
      (s.runJob cl crew j = .replay u f → replayCode f.deny.cause = none →
        (j.retried = false → ∃ t, exec (.jobFault cl crew j.id) s = .next t ∧
          t.dev = (u.noteError (j.agent cl crew) f.deny.cause f.deny.addr).dev ∧
          (Claims.unit t cl crew).jobs = ((Claims.unit u cl crew).jobs.map fun x =>
            if x.id = j.id then { x with retried := true } else x)) ∧
        (j.retried = true → ∃ t, exec (.jobFault cl crew j.id) s = .next t ∧ Claims.jobDone u t cl crew j 4 0)) ∧
      (∀ cause v, s.runJob cl crew j = .replay u f → replayCode f.deny.cause = some cause →
        u.postRecord cl crew j.id cause (f.deny.info % 4) f.deny.addr = some v →
        ∃ t, exec (.jobFault cl crew j.id) s = .next t ∧ t.dev = v.dev ∧
          (Claims.unit t cl crew).jobs = ((Claims.unit v cl crew).jobs.map fun x => if x.id = j.id then
            { x with state := .awaiting, fault := some (cause, f.deny.info % 4, f.deny.addr) } else x)) ∧
      (j.kind = 2 → ∃ t, exec (.transformTimeout cl crew j.id) s = .next t ∧ Claims.jobDone s t cl crew j 10 0))

/-- R289, R290, R153: a GET, GETX, SEND or SENDX whose group, index list and sides pass their checks is in flight with its
ranges registered; one of length 0 completes at once.
R133, R190, R288 to R290: a group or place word that breaks its rules, a byte to be written that lies in an inbox, here or, of
SEND, in the target's store, and a side that passes its bound, trap, in this order, with the lowest such byte in EADDR. That the
issuer's end comes before the target's is the model's choice (log entry 74).
R218, R290: a line of a GET from this device that lands brings its bytes and its label word and counts once.
R290, R291, R192: an item of a SEND to another device that is acknowledged counts once at its core's counter and the
operation leaves when every item has landed. An operation that fails leaves, counts the items that have not landed with
ERR, and posts an upcall of its code when it has a handler. -/
def Obligations.RemoteOperations : Prop :=
  (∀ (s t u v w : State) (i : Instr) (kind : RemoteKind) (k a : Nat) (index locks : List Nat) (ws : List LabelWord)
      (ctl : LabelWord) (r : RemoteOp), (i, kind) ∈ Claims.remoteForms k a → i.wf = true → Claims.plainCore s →
      s.remoteOk a (s.remoteOf kind k a) = true → s.readIndex (s.remoteOf kind k a) = .ok (index, ws, t) →
      r = { s.remoteOf kind k a with index := index } →
      s.nearInbox (s.remoteOf kind k a) = .ok () → (∀ p, p ∈ r.remoteSpans → p.1 + p.2 ≤ 2 ^ 18) →
      s.farInbox r = .ok () →
      t.sideCheck (if kind.sends then .read else .write) r.localOff r.localLen = .ok u →
      u.formConj (Claims.group s a 4 ++ ws) = .ok (ctl, v) →
      (r.localLen = 0 → ∃ q, exec i s = .next q ∧ q.core.regs = s.core.regs ∧ q.core.pc = s.core.complete.pc ∧
        q.myCluster.remotes = v.myCluster.remotes) ∧
      (r.localLen ≠ 0 → v.lockRanges s.focus.cl s.focus.core .remote (v.remoteRanges r) = some (locks, w) →
        ∃ q op, exec i s = .next q ∧ q.myCluster.remotes = w.myCluster.remotes ++ [op] ∧ op.kind = kind ∧ op.k = k ∧
          op.core = s.focus.core ∧ op.place = s.rdX a ∧ op.index = index ∧ op.ctl = ctl ∧ op.landed = [] ∧
          op.locks = locks ∧ op.handler = s.rdX (a + 3) ∧ q.core.regs = s.core.regs ∧ Claims.latencyKept s q ∧
          (w.dev.mem = s.dev.mem → Claims.memoryKept s q))) ∧
  (∀ (s : State) (i : Instr) (kind : RemoteKind) (k a v : Nat) (r : RemoteOp), (i, kind) ∈ Claims.remoteForms k a →
      i.wf = true → Claims.plainCore s → r = s.remoteOf kind k a → s.ctx.desc.lsbase + 2 ^ 27 ≤ 2 ^ 64 →
      ((s.rdX a).toNat / 2 ^ 41 ≠ 0 ∨ 191 < (s.rdX a).toNat % 2 ^ 8 → s.groupOk a r = false) ∧
      (s.groupOk a r = false → Claims.traps i s .illegal (Claims.illegalInfo s 9) 0) ∧
      (s.groupOk a r = true →
        (Claims.lowestInbox s (Claims.nearSpans s r) v →
          Claims.traps i s .illegal (Claims.illegalInfo s 9) (BitVec.ofNat 64 v)) ∧
        (s.nearInbox r = .ok () → kind = .send →
          Claims.lowestInbox s [(s.ctx.desc.lsbase + (s.rdX a).toNat % 2 ^ 8 * 2 ^ 18 + r.remote,
            min r.bytes (2 ^ 18 - r.remote))] v →
          Claims.traps i s .illegal (Claims.illegalInfo s 9) (BitVec.ofNat 64 v)) ∧
        (s.nearInbox r = .ok () → s.farInbox r = .ok () → r.bounded = false →
          Claims.traps i s .illegal (Claims.illegalInfo s 9) 0))) ∧
  (∀ (s : State) (cl i tcl tcore lo ro here there : Nat) (bs : List Byte) (lbl : LabelWord) (r : RemoteOp),
      Claims.inFlight s cl r → s.ctx.stopped = false → r.kind = .get → r.target = some (tcl, tcore) → s.served r = true →
      i ∉ r.landed → r.items[i]? = some (64, lo, ro) → ro % 64 = 0 → ro < 2 ^ 18 → lo < 2 ^ 26 → cl < 16 → tcl < 16 →
      s.ctx.desc.ctxid < 2 ^ 16 → s.engineEval r.ctl = topLabel →
      here = localLoc s.ctx.desc.ctxid cl (lo / 2 ^ 18) (lo % 2 ^ 18) → here % 64 = 0 →
      there = localLoc s.ctx.desc.ctxid tcl tcore ro →
      ∃ t, exec (.remoteLand cl r.id i bs lbl) s = .next t ∧
        (∀ k, k < 64 → t.dev.byte (here + k) = s.dev.byte (there + k)) ∧ t.dev.rawLabel here = s.dev.rawLabel there ∧
        (∀ b, ¬ Claims.within here 64 b → ¬ Claims.within (labelLoc here) 4 b → t.dev.byte b = s.dev.byte b) ∧
        Claims.counted (s.coreAt cl r.core) (t.coreAt cl r.core) r.k 1 false) ∧
  (∀ (s : State) (cl i : Nat) (bs : List Byte) (lbl : LabelWord) (r : RemoteOp), Claims.inFlight s cl r →
      s.ctx.stopped = false → r.target = none → s.served r = true →
      (r.kind.sends = true → i < r.items.length → i ∉ r.landed →
        ∃ t, exec (.remoteLand cl r.id i bs lbl) s = .next t ∧ t.dev = s.dev ∧
          Claims.counted (s.coreAt cl r.core) (t.coreAt cl r.core) r.k 1 false ∧
          (r.landed.length + 1 = r.items.length → ∀ x, x ∈ (t.cluster cl).remotes → x.id ≠ r.id) ∧
          (r.landed.length + 1 ≠ r.items.length → Claims.inFlight t cl { r with landed := i :: r.landed })) ∧
      (∀ (refused : Bool) (code : Nat), (refused = true → r.landed = []) → (refused = false → s.linked r = true) →
          code = (if refused then 12 else 11) →
        ∃ t, exec (.remoteFailure cl r.id refused) s = .next t ∧ (∀ x, x ∈ (t.cluster cl).remotes → x.id ≠ r.id) ∧
          Claims.counted (s.coreAt cl r.core) (t.coreAt cl r.core) r.k (r.items.length - r.landed.length) true ∧
          (∀ l, l ∈ (t.cluster cl).locks → l.id ∉ r.locks) ∧
          (r.handler ≠ 0 → (s.coreAt cl r.core).upcalls.length < Config.upcallFifo →
            (t.coreAt cl r.core).upcalls = (s.coreAt cl r.core).upcalls ++
              [⟨.remoteError, code, BitVec.ofNat 64 r.k, r.handler⟩])))

/-- R292 to R295: SMODE opens a stream on a vector register with the pattern of its group, and traps on a base that is not
aligned and on a group that breaks its rules; SOFF ends one and keeps what the
register holds; a strip fetched ahead waits behind those fetched before it. -/
def Obligations.Streams : Prop :=
  ∀ (s u : State) (v a cl core : Nat) (ctl : LabelWord) (t : Stream) (strip : VWord × LabelWord), 28 ≤ v → v < 32 → a < 61 →
    Claims.plainCore s →
    ((s.rdX a).toNat % 64 ≠ 0 → Claims.traps (.smode v a) s .misalign 0 (s.rdX a)) ∧
    ((s.rdX a).toNat % 64 = 0 → Claims.streamBad s a →
      Claims.traps (.smode v a) s .illegal (Claims.illegalInfo s 9) 0) ∧
    ((s.rdX a).toNat % 64 = 0 → ¬ Claims.streamBad s a → s.streamOk a (s.streamOf a) = true) ∧
    ((s.rdX a).toNat % 64 = 0 → s.streamOk a (s.streamOf a) = true → s.formConj (Claims.group s a 4) = .ok (ctl, u) →
      ∃ r n, exec (.smode v a) s = .next r ∧ lookup r.core.streams v = some n ∧ n.base = s.rdX a ∧
        n.n0 = (s.rdX (a + 1)).toNat % 2 ^ 16 ∧ n.n1 = (s.rdX (a + 1)).toNat / 2 ^ 16 % 2 ^ 16 ∧
        n.n2 = (s.rdX (a + 1)).toNat / 2 ^ 32 % 2 ^ 16 ∧ n.s0 = Claims.signed 32 (s.rdX (a + 2)).toNat ∧
        n.s1 = Claims.signed 32 ((s.rdX (a + 2)).toNat / 2 ^ 32) ∧ n.s2 = Claims.signed 32 (s.rdX (a + 3)).toNat ∧
        n.pos = 0 ∧ n.ctl = ctl ∧ n.ahead = [] ∧
        (∀ x, x ≠ v → lookup r.core.streams x = lookup s.core.streams x) ∧ r.core.regs = s.core.regs ∧
        r.core.pending = s.core.pending ∧ Claims.coreKept s r ∧ Claims.ctxKept s r ∧ Claims.restKept s r ∧
        Claims.memoryKept s r) ∧
    (∃ r, exec (.soff v) s = .next r ∧ r.core.regs = s.core.regs ∧ r.core.pending = s.core.pending ∧
      (∀ x, lookup r.core.streams x = if x = v then none else lookup s.core.streams x) ∧ Claims.coreKept s r ∧
      r.ctx = s.ctx ∧ Claims.restKept s r ∧ Claims.memoryKept s r) ∧
    (s.ctx.stopped = false → lookup (s.coreAt cl core).streams v = some t → t.pos + t.ahead.length < t.n0 * t.n1 * t.n2 →
      s.readStrip ⟨cl, (s.coreAt cl core).status.mode, .core core⟩ t (t.pos + t.ahead.length) = .ok (strip, u) →
      ∃ r, exec (.streamStripFetch cl core v) s = .next r ∧
        lookup (r.coreAt cl core).streams v = some { t with ahead := t.ahead ++ [strip] } ∧
        (r.coreAt cl core).regs = (s.coreAt cl core).regs ∧ r.dev = u.dev)

/-- R300, R302, R309: RCOPY, RFILL, RBOOL, RPROMO and RDEMO whose operands pass their checks enter the cluster's row queue
with what they captured. That RPROMO and RDEMO do not check the permission of their status word, which they keep only where it
may be written, is the model's choice (log entry 36), and so is the check of that word against the inboxes (log entry 64).
R301, R303 to R311: a row operation runs on the caches as it finds them (log entry 68): with its lines formed it writes
them, else nothing, and either way it leaves
the queue, frees its ranges and counts once at its core's counter, with ERR for a code other than 0. A bit of the destination
is that of the sources, or their Boolean function (R305), where the format of every source line is that of its page. A promotion or a
demotion changes the slots of its subarray and no byte of memory. -/
def Obligations.RowOperations : Prop :=
  (∀ (s t u v : State) (i : Instr) (kind : RowKind) (pin : Bool) (k a : Nat) (regs ops : List (RowRole × Nat))
      (ps : List (RowRole × Place)) (ctl : LabelWord) (locks : List Nat), i.wf = true → Claims.plainCore s →
      ((i, kind, regs) ∈ Claims.rowForms k a → ops = (.dst, a) :: regs →
        s.rowAlign (ops.map fun r => (r.1, s.rdX r.2)) = .ok () →
        s.inboxCheck (writtenBytes (ops.map fun r => (r.1, s.rdX r.2))) = .ok () →
        s.rowTranslate (ops.map fun r => (r.1, s.rdX r.2)) = .ok (ps, t) → s.rowPermit ps = .ok () →
        t.formConj (ops.map fun r => s.labX r.2) = .ok (ctl, u) →
        (s.myCluster.rowq.filter fun r => r.core == s.focus.core && r.kind.isRow).length < Config.rowOpsPerCore →
        u.lockRanges s.focus.cl s.focus.core .row ((ps.filter fun p => decide (p.1 ≠ .stat)).map fun p =>
          (p.2.va.toNat, p.1.bytes, decide (p.1 = RowRole.dst))) = some (locks, v) →
        ∃ r, exec i s = .next r ∧ Claims.rowQueued s v r kind k ctl
          ((ps.filter fun p => decide (p.1 ≠ .stat)).map fun p => p.2.capture)
          ((ps.find? fun p => decide (p.1 = .stat)).map fun p => p.2.capture)) ∧
      ((i, kind) ∈ Claims.promoForms pin k a → ops = [(.src, a), (.stat, a + 1)] →
        Claims.classPasses s [s.labX a, s.labX (a + 1)] → s.rowAlign (ops.map fun r => (r.1, s.rdX r.2)) = .ok () →
        s.inboxCheck (writtenBytes (ops.map fun r => (r.1, s.rdX r.2))) = .ok () →
        s.rowTranslate (ops.map fun r => (r.1, s.rdX r.2)) = .ok (ps, t) →
        s.rowPermit (ps.filter fun p => decide (p.1 ≠ .stat)) = .ok () →
        ∃ r, exec i s = .next r ∧ Claims.rowQueued s t r kind k s.topWord
          ((ps.filter fun p => decide (p.1 ≠ .stat)).map fun p => p.2.capture)
          ((ps.find? fun p => decide (p.1 = .stat) && (permCheck s.me .write p.2).isOk).map fun p => p.2.capture))) ∧
  (∀ (s u : State) (cl code : Nat) (r : RowOp) (dst : RowOperand) (rest : List RowOperand) (ls : List RowLine)
      (flags : RowFlags) (d : Device), Claims.queuedRow s cl r → r.operands = dst :: rest → s.ctx.stopped = false →
      (r.kind.isRow = true → (s.rowsFound r).rowLines cl r dst rest (List.range 16) = .error code →
        ∃ t, exec (.rowOpExecute cl r.id) s = .next t ∧ (∀ x, x ∈ (t.cluster cl).rowq → x.id ≠ r.id) ∧
          (∀ l, l ∈ (t.cluster cl).locks → l.id ∉ r.locks) ∧
          Claims.counted (s.coreAt cl r.core) (t.coreAt cl r.core) r.k 1 (decide (code ≠ 0)) ∧
          (r.status = none →
              { t.dev with counters := s.dev.counters, cxlFailed := s.dev.cxlFailed } = (s.rowsFound r).dev)) ∧
      (r.kind.isRow = true → (s.rowsFound r).rowLines cl r dst rest (List.range 16) = .ok (ls, u) →
        ∃ t, exec (.rowOpExecute cl r.id) s = .next t ∧ (∀ x, x ∈ (t.cluster cl).rowq → x.id ≠ r.id) ∧
          (∀ l, l ∈ (t.cluster cl).locks → l.id ∉ r.locks) ∧
          Claims.counted (s.coreAt cl r.core) (t.coreAt cl r.core) r.k 1 (ls.any fun l => l.poisoned) ∧
          (r.status = none → { t.dev with
            counters := (ls.foldl State.putRowLine u).dev.counters
            cxlFailed := (ls.foldl State.putRowLine u).dev.cxlFailed } =
            (ls.foldl State.putRowLine u).dev) ∧
          ((∀ o j, o ∈ rest → j < 16 → Claims.formatKept (s.rowsFound r) (r.inputLine (s.rowsFound r).dev o j)) →
            ∀ j, j < 16 → ∃ l, ls[j]? = some l ∧ l.place = dst.place (s.rowsFound r).dev (64 * j) ∧
              ∀ b, b < 512 → l.data.getLsbD b = Claims.rowBit r.kind (rest.map fun o =>
                ((s.rowsFound r).dev.lineData (lineOf (r.inputLine (s.rowsFound r).dev o j).loc)).getLsbD b))) ∧
      (∀ pin, r.kind = .rpromo pin → s.dev.promote s.ctx.desc.ctxid pin dst = (code, flags, d) →
        ∃ t, exec (.rpromoComplete cl r.id) s = .next t ∧ (∀ x, x ∈ (t.cluster cl).rowq → x.id ≠ r.id) ∧
          Claims.counted (s.coreAt cl r.core) (t.coreAt cl r.core) r.k 1 (decide (code ≠ 0)) ∧
          (r.status = none → t.dev = d ∧ Claims.memoryKept s t)) ∧
      (r.kind = .rdemo → ∃ t, exec (.rdemoComplete cl r.id) s = .next t ∧ (∀ x, x ∈ (t.cluster cl).rowq → x.id ≠ r.id) ∧
        Claims.counted (s.coreAt cl r.core) (t.coreAt cl r.core) r.k 1 false ∧
        (r.status = none → Claims.memoryKept s t ∧ ∀ sub row, dst.farRow s.dev = some (sub, row) →
          ((s.dev.slotsOf sub).filter fun e => e.2.row == row).length ≤ 1 → slotWith (t.dev.slotsOf sub) row = none)))

/-- R313 to R317, R133: IRED reads its descriptor and its index list, translates every line of its table rows and of its
destination, and is then in flight; run, it leaves, frees its ranges and counts once. With add.i32 an element of a
destination line is the old one and the sum of those of the bag's rows, modulo 2 ^ 32 (R315). -/
def Obligations.BaseDieReduce : Prop :=
  (∀ (s : State) (op : Ired) (rows : List (List Place)) (dst : Place) (j e : Nat), op.op = 2 → op.fast = false → e < 16 →
    Claims.lane32 (s.iredData op rows dst j).1 e = (Claims.lane32 (s.dev.lineData (lineOf dst.loc)) e +
      ((rows.filterMap fun r => r[j]?).map fun p => Claims.lane32 (s.dev.lineData (lineOf p.loc)) e).sum) % 2 ^ 32) ∧
  ∀ (s s0 s1 s2 s3 s4 v : State) (fast : Bool) (k a cl : Nat) (raw : VWord) (lw ctl : LabelWord) (d : IredDesc)
    (bs : List Byte) (ws : List LabelWord) (idx locks : List Nat) (tp dp : List Place) (op : Ired), k < 16 → a < 64 →
    (Claims.plainCore s → s.readDescriptor (s.rdX a) = .ok (raw, lw, s0) → d = iredDescOf raw → d.ok raw = true →
      s.inboxCheck d.written = .ok () →
      s0.plainRead (piecesOf d.idx (4 * (d.pool * d.nbag))) = .ok (bs, ws, s1) →
      idx = (List.range (d.pool * d.nbag)).map (fun i => natOf ((bs.drop (4 * i)).take 4)) →
      (∀ i, i ∈ idx → i < d.nrows) →
      s1.translateAll s.me .read (idx.map fun i => rowVas (d.table + BitVec.ofNat 64 (i * d.tstride)) d.rowb).flatten
        = .ok (tp, s2) →
      s2.translateAll s.me .write ((List.range d.nbag).map fun b =>
        rowVas (d.dst + BitVec.ofNat 64 (b * d.dstride)) d.dstb).flatten = .ok (dp, s3) →
      permAll s.me .read tp = .ok () → permAll s.me .write dp = .ok () →
      (∀ p, p ∈ tp ++ dp → p.loc < 2 ^ 40 ∧ p.cmp = false) → s3.formConj (s.labX a :: lw :: ws) = .ok (ctl, s4) →
      (s.myCluster.ireds.filter fun r => r.core == s.focus.core).length < Config.iredsPerCore →
      s4.lockRanges s.focus.cl s.focus.core .ired
        [((boundsOf d.dst d.nbag d.dstb d.dstride).1, (boundsOf d.dst d.nbag d.dstb d.dstride).2, true),
          (d.idx.toNat, 4 * (d.pool * d.nbag), false)] = some (locks, v) →
      ∃ t q, exec (.ired fast k a) s = .next t ∧ t.myCluster.ireds = v.myCluster.ireds ++ [q] ∧ q.fast = fast ∧ q.k = k ∧
        q.op = d.op ∧ q.rowb = d.rowb ∧ q.statva = d.statva ∧ q.ctl = ctl ∧ q.locks = locks ∧ q.core = s.focus.core ∧
        t.core.regs = s.core.regs ∧ Claims.latencyKept s t ∧ (v.dev.mem = s.dev.mem → Claims.memoryKept s t)) ∧
    (s.ctx.stopped = false → ((s.cluster cl).ireds.find? fun r => r.id == op.id) = some op →
      ∃ t bad, exec (.iredExecute cl op.id) s = .next t ∧ (∀ x, x ∈ (t.cluster cl).ireds → x.id ≠ op.id) ∧
        (∀ l, l ∈ (t.cluster cl).locks → l.id ∉ op.locks) ∧
        Claims.counted (s.coreAt cl op.core) (t.coreAt cl op.core) op.k 1 bad)

/-- R327, R329, R330, R337, R341: EDGERUN joins the run of its group and descriptor with k and its control label, and parks;
that its outstanding results have returned by then is the model's choice (log entry 83); it traps outside a gang, with a loop stack that is not empty, and at an address that is no
multiple of 64. An invocation refuses, with EDGESTORE, the forms of Claims.refusedForm; the EADDR of LST, of the cache
instructions of a line and of those of a block is the model's choice (log entry 47). Outside an invocation EDGERET, EDGESKIP
and EDGEDONE trap with ILLEGAL, EINFO 8. An EDGERUN whose run has ended completes with x4, x63 and FCSR as they were.
EDGERET gives its value to the run that the core takes part in and ends the invocation; EDGESKIP ends it; EDGEDONE in a
pulling run marks the vertex done and ends its scan besides. -/
def Obligations.EdgeReturns : Prop :=
  ∀ (s u : State) (k a : Nat) (w : LabelWord) (e : EdgeRole) (i : Invocation), k < 16 → a < 64 →
    (Claims.plainCore s → s.grantValue = none → s.rejoins = false →
      (s.core.gang = none → Claims.traps (.edgerun k a) s .catchTrap 1 0) ∧
      (s.core.gang ≠ none → s.core.loops ≠ [] → Claims.traps (.edgerun k a) s .loopsusp 0 0) ∧
      (s.core.gang ≠ none → s.core.loops = [] → (s.rdX a).toNat % 64 ≠ 0 →
        Claims.traps (.edgerun k a) s .misalign 0 (s.rdX a)) ∧
      ∀ (t v : State) (bs : List Byte) (ws : List LabelWord) (d : EdgeDesc) (ctl : LabelWord), s.core.gang ≠ none →
        s.core.loops = [] → (s.rdX a).toNat % 64 = 0 →
        s.plainRead [(s.rdX a, 64), (s.rdX a + 64, 64)] = .ok (bs, ws, t) → d = edgeDescOf (BitVec.ofNat 1024 (natOf bs)) →
        d.ok (BitVec.ofNat 1024 (natOf bs)) s.ctx = true → (s.group d.g).sweepOnly = true →
        (∀ r, r ∈ s.myCluster.runs → r.phase = .joining → r.desc.g = d.g → r.va = s.rdX a) →
        s.inboxCheck d.written = .ok () → (s.group d.g).isMember s.focus.core = true →
        (∀ c, c ∈ (s.group d.g).coreMembers → (s.group d.g).flag c = false) →
        t.formConj (s.labX a :: ws) = .ok (ctl, v) →
        ∃ q, exec (.edgerun k a) s = .next q ∧ q.core.park = some .edgerun ∧ q.core.pending = [] ∧
          q.core.regs = v.drain.core.regs ∧ (∃ e, q.core.edge = some e ∧ e.inv = none ∧ e.k = k ∧ e.pc = s.core.pc) ∧
          Claims.joinedRun v q (newRun d (s.rdX a) s.core.crec s.core.status.mode (s.group d.g).coreMembers) k ctl) ∧
    (s.grantValue = none → s.rejoins = true →
      ∃ q, exec (.edgerun k a) s = .next q ∧ q.core.park = some .edgerun ∧ q.core.pending = [] ∧
        q.myCluster.runs = s.myCluster.runs) ∧
    (Claims.invoked s e i → ∀ j kind addr, j.wf = true → Claims.refusedForm s j = some (kind, addr) →
      Claims.traps j s .edgestore kind addr) ∧
    (Claims.plainCore s → ∀ j, j ∈ [.edgeret a, .edgeskip, .edgedone] →
      Claims.traps j s .illegal (Claims.illegalInfo s 8) 0) ∧
    (s.grantValue ≠ none → ∃ t, exec (.edgerun k a) s = .next t ∧ Claims.x t 4 = Claims.x s 4 ∧
      Claims.x t 63 = Claims.x s 63 ∧ Claims.xl t 4 = Claims.xl s 4 ∧ Claims.xl t 63 = Claims.xl s 63 ∧
      t.core.regs.fcsr = s.core.regs.fcsr ∧ t.core.regs.bankA = s.core.regs.bankA ∧ t.core.pc = s.core.complete.pc ∧
      t.core.k = s.core.k ∧ t.ctx = s.ctx ∧ Claims.restKept s t ∧ Claims.memoryKept s t) ∧
    (Claims.invoked s e i →
      (s.drain.formConj [s.drain.labX a, s.drain.runCtl] = .ok (w, u) →
        (s.core.lblcfg.strict = true → classOf u.ctx.world.nogoods (u.eval w) ≠ .cond) →
        ∃ t, exec (.edgeret a) s = .next t ∧ Claims.invocationEnded t e ∧ t.core.regs = s.drain.core.regs ∧
          (∀ r, r ∈ s.myCluster.runs → Claims.combines s r →
            { r with given := insertAt s.focus.core (i.v, s.drain.rdX a, w) r.given } ∈ t.myCluster.runs) ∧
          (∀ r, r ∈ s.myCluster.runs → ¬ Claims.combines s r → r ∈ t.myCluster.runs) ∧ t.dev = s.dev) ∧
      (∃ t, exec .edgeskip s = .next t ∧ Claims.invocationEnded t e ∧ t.core.regs = s.drain.core.regs ∧
        t.ctx = s.ctx ∧ t.dev = s.dev) ∧
      (∃ t, exec .edgedone s = .next t ∧ Claims.invocationEnded t e ∧ t.core.regs = s.drain.core.regs ∧ t.dev = s.dev ∧
        (∀ r, r ∈ s.myCluster.runs → ¬ (Claims.combines s r ∧ r.pull = true) → r ∈ t.myCluster.runs) ∧
        (∀ r, r ∈ s.myCluster.runs → Claims.combines s r → r.pull = true →
          ∃ q, q ∈ t.myCluster.runs ∧ q.va = r.va ∧ i.v ∈ q.done ∧
            ∀ x, lookup r.scan s.focus.core = some x → ∃ y, lookup q.scan s.focus.core = some y ∧ y.pos = x.stop)))

/-- R321, R331 to R333, R335, R337, R339: the unit starts the first run that all have joined; it begins a superstep, works
for an owner until its next invocation, ends the superstep, and ends the run; data that breaks the format ends the run
with CODE 13. R324, R325: a contribution is combined with the state element by the sum, minimum, maximum or union of 32 bits; under
ljoin one that differs from a value that is not hidden is a mismatch and writes nothing. -/
def Obligations.EdgeRuns : Prop :=
  (∀ (s u t : State) (cl v old new : Nat) (r : EdgeRun) (c : Word) (w : LabelWord) (p : Place) (moved bad : Bool),
    s.enginePlace (r.agent cl) .atomic (r.stateVa v) = .ok (p, u) →
    (old = u.dev.num p.loc 4 → (r.desc.op, new) ∈ Claims.combines32 old (c.toNat % 2 ^ 32) →
      s.combineAt cl r v c w = .ok (moved, bad, t) →
      bad = false ∧ moved = decide (new ≠ old) ∧ ∀ j, j < 4 → t.dev.byte (p.loc + j) = BitVec.ofNat 8 (new / 256 ^ j)) ∧
    (r.desc.op = 6 → Claims.clean u p → u.dev.num p.loc 8 ≠ c.toNat →
      minimise u.ctx.world.nogoods (u.engineEval (u.lineWord p)) ≠ [] → s.combineAt cl r v c w = .ok (false, true, u))) ∧
  ∀ (s t : State) (cl core : Nat) (r q : EdgeRun), s.ctx.stopped = false →
    ((s.cluster cl).readyRun = some r → s.startRun cl r = .ok (some (q, t)) →
      q.phase = .boundary ∧ q.desc = r.desc ∧ q.step = r.step ∧ exec (.edgeRunStart cl) s = .next (t.putRun cl r q)) ∧
    ((s.cluster cl).activeRun = some r →
      (r.phase = .boundary → s.beginStep cl r = .ok (q, t) →
        q.phase = .running ∧ q.changed = [] ∧ q.done = [] ∧ q.step = r.step ∧
          exec (.superstep cl) s = .next (t.putRun cl r q)) ∧
      (r.phase = .running → s.stepDone cl r = true → s.endStep cl r = .ok (q, t) →
        q.step = r.step + 1 ∧ (r.changed = [] → q.phase = .ending) ∧ (q.step = r.desc.limit → q.phase = .ending) ∧
          (q.phase = .boundary → exec (.superstep cl) s = .next (t.putRun cl r q)) ∧
          (q.phase = .ending → exec (.superstep cl) s = .next ((t.dropRun cl r).finishRun cl q))) ∧
      (r.phase = .ending → s.quiet cl r = true → r.code = 9 → r.locks = [] → r.desc.statva = 0 →
        ∃ v, exec (.superstep cl) s = .next v ∧ v.dev = s.dev ∧
          ∀ c k l, (c, (k, l)) ∈ r.joins → (v.coreAt cl c).edge = none) ∧
      (r.phase = .running → core ∈ r.cores → (s.coreAt cl core).readyForEdge = true →
        s.unitAct cl core r = .ok (some (q, t)) → (t.coreAt cl core).awaitsEdge = false →
        exec (.edgeInvocation cl core) s = .next (t.putRun cl r q)) ∧
      (r.phase = .running → core ∈ r.cores → (s.coreAt cl core).readyForEdge = true →
        s.unitAct cl core r = .ok none → ∃ v, exec (.edgeInvocation cl core) s = .next v ∧ v.dev = s.dev ∧
          (v.coreAt cl core).regs = (s.coreAt cl core).regs ∧
          (r.desc.g < 16 → ((s.cluster cl).group r.desc.g).isMember core = true →
            ((v.cluster cl).group r.desc.g).flag core = true))) ∧
    (s.runFailure cl = some (r, .format) →
      ∃ v, exec (.edgeRunFault cl) s = .next v ∧ v.core = s.core ∧ v.dev = s.dev ∧
        v.ctx = (s.putRun cl r { r with code := 13, phase := .ending }).ctx)

/-- R25, R51, R52, R101, R149, R181, R194: a result that returns is written to its register with its label word, its flags
joining FCSR's, and enters no label; the parks end when what they wait
for has come; an upcall is delivered to a core in U mode that takes upcalls, with its pc saved, its loops frozen and its
outstanding results returned. -/
def Obligations.CoreEvents : Prop :=
  ∀ (s : State) (cl core n k threshold : Nat) (stroke : Nat) (p : Pending) (u : Upcall) (rest : List Upcall),
    ((s.coreAt cl core).pending[n]? = some p →
      ∃ t, exec (.longLatencyResultReturn cl core n) s = .next t ∧
        (t.coreAt cl core).pending = (s.coreAt cl core).pending.eraseIdx n ∧ t.dev = s.dev ∧
        t.ctx.world = s.ctx.world ∧ Claims.landed (s.coreAt cl core).regs (t.coreAt cl core).regs p) ∧
    (s.ctx.stopped = false → (s.coreAt cl core).park = some .marker → (s.coreAt cl core).pending = [] →
      ∃ t, exec (.coreParkWake cl core) s = .next t ∧ (t.coreAt cl core).park = none ∧ Claims.coreRegsKept s t cl core ∧
        t.dev = s.dev) ∧
    (s.ctx.stopped = false → (s.coreAt cl core).park = some (.counter k threshold) →
      (Claims.count (s.coreAt cl core) k + (2 ^ 31 - threshold % 2 ^ 31)) % 2 ^ 31 < 2 ^ 30 →
      ∃ t, exec (.coreParkWake cl core) s = .next t ∧ (t.coreAt cl core).park = none ∧ Claims.coreRegsKept s t cl core ∧
        t.dev = s.dev) ∧
    (s.ctx.stopped = false → (s.coreAt cl core).park = some (.fencesc stroke) → stroke < s.dev.stroke.toNat →
      ∃ t, exec (.fencescTickEnd cl core) s = .next t ∧ (t.coreAt cl core).park = none ∧
        Claims.coreRegsKept s t cl core ∧ t.dev = s.dev) ∧
    (s.ctx.stopped = false → (s.coreAt cl core).upcallReady = true → (s.coreAt cl core).upcalls = u :: rest →
      ∃ t, exec (.upcallDelivery cl core) s = .next t ∧ (t.coreAt cl core).pc = u.handler ∧
        (t.coreAt cl core).upepc = (s.coreAt cl core).pc ∧ (t.coreAt cl core).upjob = u.job ∧
        (t.coreAt cl core).upcause.toNat % 2 ^ 8 = u.kind.code ∧
        (t.coreAt cl core).upcause.toNat / 2 ^ 8 % 2 ^ 8 = u.detail % 2 ^ 8 ∧
        (t.coreAt cl core).status = { (s.coreAt cl core).status with inup := true } ∧
        (t.coreAt cl core).loops = (s.coreAt cl core).loops ∧
        (t.coreAt cl core).frozen = (s.coreAt cl core).loops.length ∧ (t.coreAt cl core).pending = [] ∧
        (t.coreAt cl core).park = none ∧ (t.coreAt cl core).upcalls = rest ∧ (t.coreAt cl core).uplost = false ∧
        t.dev = s.dev)

/-- R2, R150, R224, R409, R412, R415, R418, R458: a stroke tick brings STROKE on by one, the epoch of the world to the
cores and the engines, and the counters to the telemetry snapshot; a page walk that finds a leaf leaves it with the
cluster; a fault record that firmware has resolved starts its job again; a shootdown request that is not served forgets
the translations of its range; firmware and the walk of an event translate with the host's agent (log entry 12, PRESUMED). -/
def Obligations.StrokesAndTranslations : Prop :=
  ∀ (s t : State) (cl slot crew line : Nat) (va job : Word) (f : Leaf) (w : LabelWord),
    (∃ u, exec .strokeTick s = .next u.tickWork ∧ u.dev.stroke = s.dev.stroke + 1 ∧ u.dev.snapshot = s.dev.counters ∧
      u.dev.powerCap = s.dev.pendingCap.getD s.dev.powerCap ∧ u.dev.pendingCap = none ∧ Claims.memoryKept s u ∧
      u.core.regs = s.core.regs ∧ u.ctx.world.epoch = s.ctx.world.epoch ∧
      (s.ctx.stopped = true → u.core = s.core ∧ u.ctx = s.ctx) ∧
      (s.ctx.stopped = false → u.core.epoch = s.ctx.world.epoch ∧ u.ctx.world.agentEpoch = s.ctx.world.epoch ∧
        (s.core.record ≠ none → u.core.codegen = s.core.codegen) ∧
        (s.core.record = none → u.core.codegen = s.ctx.cg))) ∧
    (Claims.nothingQueued s → ∃ u, exec .strokeTick s = .next u ∧ u.dev.stroke = s.dev.stroke + 1 ∧
      u.dev.snapshot = s.dev.counters ∧ u.core.epoch = s.ctx.world.epoch ∧ u.core.regs = s.core.regs ∧
      u.core.pc = s.core.pc ∧ Claims.memoryKept s u ∧
      (∀ k threshold, s.core.park = some (.counter k threshold) →
        (Claims.count s.core k + (2 ^ 31 - threshold % 2 ^ 31)) % 2 ^ 31 < 2 ^ 30 → u.core.park = none) ∧
      (∀ stroke, s.core.park = some (.fencesc stroke) → stroke ≤ s.dev.stroke.toNat →
        s.dev.stroke.toNat + 1 < 2 ^ 64 → u.core.park = none)) ∧
    (s.ctx.windowOff va = none → canonicalVa va = true → cl < s.ctx.nclus →
      s.walkFrom (engineOf cl .s) va 3 1 s.ctx.desc.troot = (.ok f, t) →
      ∃ u, exec (.pageWalkComplete cl va) s = .next u ∧ (u.cluster cl).cached va = some f ∧ u.core = s.core ∧
        u.dev = s.dev) ∧
    (s.ctx.stopped = false → lookup s.ctx.ringOwners slot = some (cl, crew, job) → crew ≠ 0xFF → s.ringState slot = 2 →
      (∃ j, j ∈ (Claims.unit s cl crew).jobs ∧ j.id = job ∧ j.state = .awaiting) →
      ∃ u, exec (.faultRecordPoll slot) s = .next u ∧ lookup u.ctx.ringOwners slot = none ∧
        (Claims.unit u cl crew).jobs = ((Claims.unit s cl crew).jobs.map fun j =>
          if j.id = job then { j with state := .queued, fault := none } else j)) ∧
    (s.engineRead hostAgent (BitVec.ofNat 64 s.ctx.desc.sdline) 64 = .ok (line, w, t) →
      line / 2 ^ 128 % 2 ^ 32 ≠ line / 2 ^ 160 % 2 ^ 32 → line / 2 ^ 192 % 2 ^ 320 = 0 → 1 ≤ line / 2 ^ 64 % 2 ^ 64 →
      line / 2 ^ 64 % 2 ^ 64 ≤ 65535 → t.ctx.nearBusy = false →
      ∃ u v : State, exec .shootdownService s = .next u ∧ v.dev = t.dev ∧
        (∀ c x, line % 2 ^ 64 / 2 ^ 16 ≤ x.toNat / 2 ^ 16 →
          x.toNat / 2 ^ 16 < line % 2 ^ 64 / 2 ^ 16 + line / 2 ^ 64 % 2 ^ 64 → (v.cluster c).cached x = none ∧ ∀ who, (v.cluster c).firstOf who x = none) ∧
        u = (v.statusWrite hostAgent (BitVec.ofNat 64 s.ctx.desc.sdline + 20)
          (bytesOf 4 (line / 2 ^ 128 % 2 ^ 32))).service)

/-- R16 to R20, R24: an idle core takes the record that the order of R17 gives it and starts at its CODE in U mode with
x4 its FRAME; a gang starts or reserves; a record that has waited too long rises one priority and goes to the tail of its
new queue; a gang whose patience ends goes to the tail of its queue without its cores; a suspended record whose wake
condition holds is queued. -/
def Obligations.Dispatcher : Prop :=
  ∀ (s : State) (cl core : Nat) (va : Word) (r : VWord), r = s.record va →
    (s.idle cl core = true → s.ctx.stopped = false → s.pick cl core = some va → rState r = 1 → rGang r = false →
      ∃ t, exec (.dispatch cl core) s = .next t ∧ (t.coreAt cl core).record = some va ∧ (t.coreAt cl core).crec = va ∧
        (t.coreAt cl core).pc.toNat = r.toNat % 2 ^ 64 ∧
        (fileGet (by decide) (t.coreAt cl core).regs.x 4).toNat = r.toNat / 2 ^ 64 % 2 ^ 64 ∧
        (fileGet (by decide) (t.coreAt cl core).regs.xl 4).toNat = r.toNat / 2 ^ 448 % 2 ^ 32 ∧
        fileGet (by decide) (t.coreAt cl core).regs.x 63 = va ∧
        fileGet (by decide) (t.coreAt cl core).regs.xl 63 = mkWord (t.coreAt cl core).epoch false 0 ∧
        (t.coreAt cl core).stage = r.toNat / 2 ^ 240 % 2 ^ 4 ∧ (t.coreAt cl core).status.mode = .u ∧
        (t.coreAt cl core).status.inup = false ∧ (t.coreAt cl core).loops = [] ∧
        (t.coreAt cl core).regs.fcsr = (s.coreAt cl core).regs.fcsr ∧ (t.coreAt cl core).k = (s.coreAt cl core).k) ∧
    (s.idle cl core = true → s.pick cl core = none → ∃ t, exec (.dispatch cl core) s = .next t ∧ t = s) ∧
    (s.idle cl core = true → s.ctx.stopped = false → s.pick cl core = some va → rState r = 1 → rGang r = true →
      (s.gangLate cl va = false → exec (.gangReserve cl core) s = .next (s.tryGang cl va r)) ∧
      (s.gangLate cl va = true → exec (.gangReserve cl core) s = .next (s.expireGang cl va))) ∧
    (s.ctx.stopped = false → va ∈ lookupD [] (s.cluster cl).runq (4 * rStage r + rPrio r) →
      (∀ g, g ∈ (s.cluster cl).reservations → g.record ≠ va) → s.ctx.desc.age ≠ 0 → rPrio r < 3 →
      s.ctx.desc.age < (s.dev.stroke.toNat + 2 ^ 32 - rEnq r) % 2 ^ 32 →
      ∃ t pre, exec (.recordAging cl va) s = .next t ∧
        lookupD [] (t.cluster cl).runq (4 * rStage r + rPrio r + 1) = pre ++ [va] ∧
        (∀ key, va ∈ lookupD [] (t.cluster cl).runq key → key = 4 * rStage r + rPrio r + 1) ∧ t.core = s.core) ∧
    (∀ g, s.ctx.stopped = false → g ∈ (s.cluster cl).reservations → g.record = va → g.deadline ≤ s.dev.stroke.toNat →
      ∃ t u : State, exec (.gangwaitExpiry cl va) s = .next t ∧ t = u.queueTail va ∧
        (∀ x, x ∈ (u.cluster cl).reservations → x.record ≠ va) ∧ (∀ key, va ∉ lookupD [] (u.cluster cl).runq key) ∧
        ∀ c, c < 192 → (u.coreAt cl c).reserved ≠ some va) ∧
    (s.ctx.stopped = false → va ∈ (s.cluster cl).suspended → s.wakes r = true →
      ∃ t u : State, exec (.recordWake cl va) s = .next t ∧ t = u.enqueue va ∧ va ∉ (u.cluster cl).suspended ∧ u.core = s.core ∧
        u.dev = s.dev)

/-- R421 to R433, R374: a gang-stop halts the context between instructions: outstanding results are written, running jobs
are queued again, memory outside the save area stays. A stopped context runs again on other clusters, or
faults when its save area has an uncorrectable error. Creation gives a context a fresh world, a core after reset and local
stores of zeros, its grant without the units on lost memory; destruction leaves none of it. A device-level fault discards
everything. Firmware frees an unloaded image, and maps its pages no longer, once a stroke has passed and every core has passed
its generation. The model's choices among this: the registers after creation, destruction and fault (log entry 1), memory of
zeros after a device-level fault (log entry 27), that a context needs a free partition, where a fenced die counts as lost (log
entries 42 and 66), where the isolation of contexts is enforced (log entry 67), which pages an image takes (log entry 9), that
a gang-stop waits for every core to stand at a boundary and what it writes of the save area, and that a restore takes up the
cores and stores as they stand in State, leaving the device as it is (log entry 25). -/
def Obligations.Contexts : Prop :=
  ∀ (s : State) (desc : CtxDesc) (part : List Nat) (cores : List ((Nat × Nat) × Nat)) (routes : List (Nat × Route)) (base : Word)
    (img : Image) (τ : Nat),
    (s.ctx.stopped = false → Claims.stoppable s →
      ∃ t, exec .gangStop s = .next t ∧ t.ctx.stopped = true ∧ t.core.pending = [] ∧ t.core.stalled = false ∧
        t.core.regs = s.core.drain.regs ∧ t.core.pc = s.core.pc ∧ t.core.record = s.core.record ∧
        (∀ cl crew j, j ∈ (Claims.unit t cl crew).jobs → j.state ≠ .running) ∧
        { t.dev with mem := s.dev.mem } = s.dev ∧ ∀ a, ¬ Claims.inSaveArea s a → t.dev.byte a = s.dev.byte a) ∧
    (s.ctx.stopped = true → s.ctx.faulted = false → s.ctx.destroyed = false → part.length = s.ctx.desc.part.length →
      s.freePart part = true → s.saveError s.ctx = true →
      ∃ t, exec (.contextRestore s.ctx.desc.ctxid part ⟨cores, routes⟩) s = .next t ∧ t.ctx.faulted = true ∧ t.ctx.stopped = true) ∧
    (s.ctx.stopped = true → s.ctx.faulted = false → s.ctx.destroyed = false → part.length = s.ctx.desc.part.length →
      s.freePart part = true → s.saveError s.ctx = false →
      ∃ t, exec (.contextRestore s.ctx.desc.ctxid part ⟨cores, routes⟩) s = .next t ∧ t.ctx.stopped = false ∧
        t.ctx.desc.part = part ∧ t.ctx.desc.cores = cores ∧ t.ctx.desc.routes = routes ∧ t.core.regs = s.core.regs ∧
        ((∀ cl c, s.dev.num (localLoc s.ctx.desc.ctxid cl c 0x3F000) 8 = 0) → t.dev = s.dev ∧
          { t.core with park := s.core.park } = s.core ∧ (Claims.unleased s → t.core = s.core))) ∧
    (s.creatable desc = true → s.ctx.desc.ctxid = 0 →
      ∃ t, exec (.contextCreate desc) s = .next t ∧ { t.ctx.desc with units := desc.units, heap := desc.heap } = desc ∧
        (∀ u, u ∈ t.ctx.desc.units ↔ u ∈ desc.units ∧ s.dev.unitLost u = false) ∧
        (∀ u, u ∈ t.ctx.desc.heap ↔ u ∈ desc.heap ∧ s.dev.unitLost u = false) ∧ t.ctx.world.epoch = 1 ∧ t.ctx.world.nogoods = [] ∧
        t.ctx.queues = [] ∧ t.ctx.images = [] ∧ t.ctx.stopped = false ∧ t.core = Core.reset ∧
        (∀ a, Claims.inStores desc.ctxid a → t.dev.byte a = 0) ∧
        (∀ a, ¬ Claims.inStores desc.ctxid a → ¬ Claims.inStoreLabels desc.ctxid a → ¬ Claims.inGrant s desc a →
          t.dev.byte a = s.dev.byte a)) ∧
    (s.creatable desc = false → ∃ t, exec (.contextCreate desc) s = .next t ∧ Claims.replied s t (.refused 1)) ∧
    (s.ctx.desc.ctxid ≠ 0 → s.ctx.destroyed = false →
      ∃ t, exec (.contextDestroy s.ctx.desc.ctxid) s = .next t ∧ t.ctx.destroyed = true ∧ t.ctx.stopped = true ∧
        t.ctx.queues = [] ∧ t.core = Core.reset ∧ ∀ a, Claims.inStores s.ctx.desc.ctxid a → t.dev.byte a = 0) ∧
    (∃ t, exec .deviceFault s = .next t ∧ t.core = Core.reset ∧ t.others = [] ∧ t.ctx.destroyed = true ∧
      (∀ a, t.dev.byte a = 0) ∧ t.dev.cycle = s.dev.cycle ∧ t.dev.replies = s.dev.replies ++ [.deviceFault 0]) ∧
    (s.ctx.desc.part.length ≤ 4 → img ∈ s.ctx.images → img.base = base → img.unloading = some τ →
      τ < s.dev.stroke.toNat → s.dev.cycle.toNat % Config.stroke = 0 →
      s.dev.stroke.toNat = s.dev.cycle.toNat / Config.stroke →
      (∀ cl c, cl < s.ctx.desc.part.length → c < 192 → img.gen.toNat ≤ (s.coreAt cl c).codegen.toNat) →
      ∃ t, exec (.unloadFree base) s = .next t ∧ img ∉ t.ctx.images ∧
        (∀ x, x ∈ s.ctx.images → x.base ≠ base → x ∈ t.ctx.images) ∧ t.core = s.core ∧ Claims.devKept s t ∧
        ∀ table loc pa, s.ctx.images = [img] → 0 < img.size → img.size ≤ 2 ^ 16 → img.places = [pa] →
          ((s.nextTable base 1 s.ctx.desc.troot).bind fun x => s.nextTable base 2 x) = some table →
          s.entryLoc base 3 table = some loc →
          (leafOf (s.dev.num loc 8) 3).pa = pa →
          t.dev.num loc 8 = 0 ∧ ∀ b, ¬ Claims.within loc 8 b → t.dev.byte b = s.dev.byte b)

/-- R392 to R399, R402, R423: a valid descriptor of a context makes a queue and gives its QID, unless the context has faulted;
the host's accesses translate in logical cluster 0 (log entry 12, PRESUMED). A doorbell that lies behind is
counted stale, one beyond the ring freezes the queue with CAUSE 2, and another moves the write count of a queue that a
WAIT or a BARRIER holds. A packet whose dependencies are DONE may execute; a COPYIN or COPYOUT then starts. -/
def Obligations.HostQueues : Prop :=
  ∀ (s : State) (desc : BitVec 512) (msg : BitVec 128) (qid m : Nat) (q : Queue) (p : Packet) (wcnt : Word) (sts : List Nat),
    (desc.toNat / 2 ^ 176 % 2 ^ 16 = s.ctx.desc.ctxid → s.ctx.desc.ctxid ≠ 0 → s.ctx.destroyed = false →
      s.queueValid desc = true → s.ctx.faulted = false → s.ctx.freeQid 65535 (s.freeNat 0 % 65535 + 1) = some m →
      ∃ t n, exec (.queueCreate desc) s = .next t ∧ lookup t.ctx.queues m = some n ∧ n.qid = m ∧
        n.ring.toNat = desc.toNat % 2 ^ 64 ∧ n.statva.toNat = desc.toNat / 2 ^ 64 % 2 ^ 64 ∧
        n.caplog = desc.toNat / 2 ^ 160 % 2 ^ 4 ∧ n.rev = 1 ∧ n.rc = 0 ∧ n.wc = 0 ∧ n.state = .active ∧ n.packets = [] ∧
        t.dev.replies = s.dev.replies ++ [.qid m n.key] ∧ t.core = s.core) ∧
    (desc.toNat / 2 ^ 176 % 2 ^ 16 = s.ctx.desc.ctxid → s.ctx.desc.ctxid ≠ 0 → s.ctx.destroyed = false →
      s.ctx.faulted = true → ∃ t, exec (.queueCreate desc) s = .next t ∧ Claims.replied s t (.refused 1)) ∧
    (s.ctx.faulted = false → lookup s.ctx.queues qid = some q → q.qid = qid → q.state = .active → msg.toNat / 2 ^ 64 = qid →
      wcnt = BitVec.ofNat 64 msg.toNat → qid < 2 ^ 16 →
      (2 ^ 63 ≤ (wcnt - q.wc).toNat → ∃ t, exec (.doorbell msg) s = .next t ∧
        lookup t.ctx.queues qid = some { q with stale := min 255 (q.stale + 1) } ∧ t.core = s.core ∧ t.dev = s.dev) ∧
      ((wcnt - q.wc).toNat < 2 ^ 63 → 2 ^ q.caplog < (wcnt - q.rc).toNat →
        ∃ t, exec (.doorbell msg) s = .next t ∧ lookup t.ctx.queues qid =
          some { q with state := .frozen, cause := 2, badwc := wcnt, wc := q.rc } ∧ t.core = s.core) ∧
      ((wcnt - q.wc).toNat < 2 ^ 63 → (wcnt - q.rc).toNat ≤ 2 ^ q.caplog →
        (∃ x, x ∈ q.packets ∧ (slotType x.slot = 5 ∨ slotType x.slot = 6)) →
        ∃ t, exec (.doorbell msg) s = .next t ∧ lookup t.ctx.queues qid = some { q with wc := wcnt } ∧ t.core = s.core ∧
          t.dev = s.dev)) ∧
    (∀ u, lookup s.ctx.queues qid = some q → (q.packets.find? fun x => x.seq == p.seq && !x.met) = some p →
      s.depStates ((List.range (p.slot.toNat / 2 ^ 16 % 2 ^ 3)).map fun i => p.slot.extractLsb' (128 + 64 * i) 64)
        = .ok (sts, u) → (∀ x, x ∈ sts → x = 1) →
      ∃ t, exec (.packetDependencyMet qid p.seq) s = .next t ∧ lookup t.ctx.queues qid =
        some { q with packets := q.packets.map fun x => if x.seq = p.seq then { x with met := true } else x } ∧
        t.core = s.core ∧ t.dev = u.dev) ∧
    (Claims.ready s qid 2 q p → ∃ t, exec (.copyin qid p.seq) s = .next t ∧ Claims.startedAlone s t qid p.seq q ∧
      t.dev = { s.dev with replies := s.dev.replies ++ [.hostRead (Claims.body p 1)
        ((Claims.body p 3).extractLsb' 0 32) ((Claims.body p 3).extractLsb' 32 32) (Claims.body p 2).toNat] }) ∧
    (∀ u bs ws, Claims.ready s qid 3 q p →
      s.readSpan hostAgent (Claims.body p 0) (Claims.body p 2).toNat = .ok (bs, ws, u) →
      lookup u.ctx.queues qid = some q →
      ∃ t, exec (.copyout qid p.seq) s = .next t ∧ Claims.startedAlone u t qid p.seq q ∧
        t.dev = { u.dev with replies := u.dev.replies ++ [.hostWrite (Claims.body p 1)
          ((Claims.body p 3).extractLsb' 0 32) ((Claims.body p 3).extractLsb' 32 32) bs] })

/-- R374, R391, R398 to R402, R370: what each packet does once it may execute. LAUNCH creates the record of its fields at
RECVA, whose image holds them as R11 and R398 place them; a signal writes STATE, CODE with FAILED, and TAG at SIGVA
(R400), and FAILED freezes the queue; the host's accesses translate in logical cluster 0 (log entry 12, PRESUMED). SIGNAL
writes its doubleword; WAIT holds until the word has reached its value, BARRIER until it is the oldest; LOAD writes its
result word; UNLOAD starts a new code generation; a transfer that ends signals; QRESET makes the queue active with one
packet more consumed. A host's RMA with a wrong key is refused. -/
def Obligations.HostPackets : Prop :=
  ∀ (s t : State) (qid code : Nat) (q : Queue) (p : Packet) (w : Nat) (lw : LabelWord) (bs : List Byte) (va : Word)
    (img : Image) (result : Word),
    (Claims.ready s qid 1 q p → s.recvaFault (Claims.body p 4) = none →
      exec (.launch qid p.seq) s = .next (((s.startPacket qid p.seq).bar (Claims.body p 4)).create (Claims.body p 4)
        (launchImage p.slot) qid s.ctx.world.agentEpoch)) ∧
    (∀ i, i < 512 → (launchImage p.slot).getLsbD i = Claims.launchBits p i) ∧
    (∀ (st c : Nat) (pl : Place) (v : State), s.queue qid = some q → (q.packets.find? fun x => x.seq == p.seq) = some p →
      st < 3 → slotSig p.slot ≠ 0 →
      (s.mapQueue qid fun q => { q with packets := q.packets.filter fun x => x.seq != p.seq }).enginePlace hostAgent .write
        (slotSig p.slot) = .ok (pl, v) →
      v.poisonCheck hostAgent .write pl = .ok () →
      ∀ i, i < 8 → (s.signalPacket qid p.seq st c).dev.byte (pl.loc + i) =
        BitVec.ofNat 8 ((st + 2 ^ 32 * (p.slot.toNat / 2 ^ 32 % 2 ^ 32)) / 256 ^ i)) ∧
    (∀ (c : Nat) (pl : Place) (v : State), s.queue qid = some q → (q.packets.find? fun x => x.seq == p.seq) = some p →
      c < 256 → slotSig p.slot ≠ 0 →
      (s.mapQueue qid fun q => { q with packets := q.packets.filter fun x => x.seq != p.seq }).enginePlace hostAgent .write
        (slotSig p.slot) = .ok (pl, v) →
      v.poisonCheck hostAgent .write pl = .ok () →
      ∃ u : State, s.signalPacket qid p.seq 3 c = u.freezeQueue qid 1 ∧ ∀ i, i < 8 → u.dev.byte (pl.loc + i) =
        BitVec.ofNat 8 ((3 + 2 ^ 8 * c + 2 ^ 32 * (p.slot.toNat / 2 ^ 32 % 2 ^ 32)) / 256 ^ i)) ∧
    (Claims.ready s qid 4 q p →
      s.engineWrite hostAgent (Claims.body p 0) (bytesOf 8 (Claims.body p 1).toNat) = .ok t →
      exec (.signal qid p.seq) s = .next (t.finishPacket qid p.seq 1 0)) ∧
    (Claims.ready s qid 5 q p → s.engineRead hostAgent (Claims.body p 0) 8 = .ok (w, lw, t) →
      ((Claims.body p 1).toNat ≤ w → exec (.wait qid p.seq) s = .next (t.finishPacket qid p.seq 1 0)) ∧
      (w < (Claims.body p 1).toNat → exec (.wait qid p.seq) s = .next t)) ∧
    (Claims.ready s qid 6 q p →
      ((∀ x, x ∈ q.packets → p.seq ≤ x.seq) → exec (.barrier qid p.seq) s = .next (s.finishPacket qid p.seq 1 0)) ∧
      ((∃ x, x ∈ q.packets ∧ x.seq < p.seq) → exec (.barrier qid p.seq) s = .next s)) ∧
    (Claims.ready s qid 7 q p → ∀ u, s.loadImage (Claims.body p 0) (Claims.body p 1) = (result, t) →
      t.engineWrite hostAgent (Claims.body p 2) (bytesOf 8 result.toNat) = .ok u →
      exec (.load qid p.seq) s =
        .next (u.signalPacket qid p.seq (if result = 0 then 1 else 3) (result.toNat % 2 ^ 8))) ∧
    (Claims.ready s qid 8 q p → img ∈ s.ctx.images → img.base = Claims.body p 0 → img.unloading = none →
      ∃ u v : State, exec (.unload qid p.seq) s = .next u ∧ u = v.signalPacket qid p.seq 1 0 ∧ v.ctx.cg = s.ctx.cg + 1 ∧
        { img with gen := s.ctx.cg + 1, unloading := some s.dev.stroke.toNat } ∈ v.ctx.images ∧ v.core = s.core ∧
        v.dev = s.dev) ∧
    (Claims.ready s qid 9 q p → s.ctx.faulted = false → (Claims.body p 0).getLsbD 0 = false →
      ∃ u v : State, exec (.qreset qid p.seq) s = .next u ∧ u = (v.showQueue qid).signalPacket qid p.seq 1 0 ∧
        (∃ n, lookup v.ctx.queues qid = some n ∧ n.state = .active ∧ n.rc = q.rc + 1 ∧ n.wc = q.rc + 1 ∧ n.cause = 0) ∧
        v.core = s.core ∧ v.dev = s.dev) ∧
    (lookup s.ctx.queues qid = some q → (q.packets.find? fun x => x.seq == p.seq && x.started &&
        (slotType x.slot == 2 || slotType x.slot == 3)) = some p →
      (code = 12 → exec (.copyPacketComplete qid p.seq code bs) s = .next (s.finishPacket qid p.seq 3 code)) ∧
      (code = 11 → ∃ u : State, exec (.copyPacketComplete qid p.seq code bs) s = .next (u.finishPacket qid p.seq 3 code) ∧
        u = { s with dev := { s.dev with counters := u.dev.counters } } ∧
        lookupD 0 u.dev.counters 5 = min (2 ^ 64 - 1) (lookupD 0 s.dev.counters 5 + 1)) ∧
      (slotType p.slot = 2 → bs.length = (Claims.body p 2).toNat → s.copyinWrite (Claims.body p 0) bs = (t, none) →
        exec (.copyPacketComplete qid p.seq 0 bs) s = .next (t.finishPacket qid p.seq 1 0))) ∧
    (∀ ctxid key, s.hasContext ctxid = false ∨ ctxid = s.ctx.desc.ctxid ∧ (∀ e, e ∈ s.ctx.queues → e.2.key ≠ key) →
      (∃ u, exec (.rmaWrite va bs ⟨ctxid, key⟩) s = .next u ∧ Claims.replied s u .nak) ∧
      (∃ u, exec (.rmaRead va w ⟨ctxid, key⟩) s = .next u ∧ Claims.replied s u .nak)) ∧
    (∀ e, e ∈ s.ctx.queues → s.ctx.desc.ctxid ≠ 0 → s.ctx.destroyed = false →
      (s.hostPieces (piecesOf va bs.length) bs = (t, none) →
        exec (.rmaWrite va bs ⟨s.ctx.desc.ctxid, e.2.key⟩) s = .next t) ∧
      (∀ ws, s.readSpan rmaAgent va w = .ok (bs, ws, t) →
        ∃ u, exec (.rmaRead va w ⟨s.ctx.desc.ctxid, e.2.key⟩) s = .next u ∧ Claims.replied t u (.rma bs)))

/-- R403, R436 to R441: the PTP servo locks after 16 good intervals and unlocks beyond its band or without Sync; an owner
serves a read of another device with a lease while its servo is LOCKED; a copy whose lease has expired, or whose line is
snooped, is dropped; a waiting write or
atomic of another device waits while a lease stands against it, is performed once none does, and an uncacheable read at once,
the old value answered (log entry 45), and one sent under an older incarnation is rejected; a device that binds loses what older
incarnations of it hold, and this device, when it binds, its lines of the pool and its places at them. -/
def Obligations.PoolAndTime : Prop :=
  ∀ (s : State) (offset : Int) (time gm line dev n : Nat) (inc : BitVec 16) (r : PoolDesc) (w : PoolWrite),
    (∃ t, exec (.ptpSync offset time gm) s = .next t ∧ t.dev.ptp.offset = offset ∧ t.dev.ptp.time = 11 * time ∧
      t.dev.ptp.gm = gm ∧ t.core = s.core ∧ t.ctx = s.ctx ∧ Claims.memoryKept s t ∧
      (gm = s.dev.ptp.gm → offset.natAbs ≤ 250 → t.dev.ptp.good = s.dev.ptp.good + 1 ∧
        (15 ≤ s.dev.ptp.good → t.dev.ptp.locked = true)) ∧
      (1000 < offset.natAbs → t.dev.ptp.locked = false ∧ t.dev.ptp.good = 0)) ∧
    (∃ t, exec .ptpSyncLoss s = .next t ∧ t.dev.ptp.locked = false ∧ t.dev.ptp.good = 0 ∧ Claims.memoryKept s t ∧
      t.core = s.core ∧ t.ctx = s.ctx) ∧
    (s.dev.owned line = some r → inc = BitVec.ofNat 16 n → s.dev.current dev inc = true → (∀ x, x ∈ s.dev.poolWrites → x.line ≠ line) →
      (s.dev.ptp.locked = true → ∃ t, exec (.poolReadMiss line dev n) s = .next t ∧
        t.dev.leasesGranted = s.dev.leasesGranted ++
          [⟨line, dev, inc, s.dev.ptp.time + 11000 * r.ldur.toNat, s.dev.cycle.toNat, true⟩] ∧
        t.dev.replies = s.dev.replies ++
          [.poolLine (s.dev.bytes line 64) (some (s.dev.ptp.time + 11000 * r.ldur.toNat))] ∧ Claims.memoryKept s t) ∧
      (s.dev.ptp.locked = false → ∃ t, exec (.poolReadMiss line dev n) s = .next t ∧
        Claims.replied s t (.poolLine (s.dev.bytes line 64) none))) ∧
    ((∃ l, l ∈ s.dev.leasesHeld ∧ l.line = line ∧ l.expiry ≤ s.dev.ptp.time) →
      ∃ t, exec (.poolLeaseExpiry line) s = .next t ∧ lookup t.dev.held line = none ∧
        (∀ l, l ∈ t.dev.leasesHeld → l.line ≠ line) ∧ Claims.memoryKept s t) ∧
    (∀ n, s.dev.owned line = some r → s.dev.poolWrites.find? (fun x => x.line == line) = some w →
      w.dev ≠ Config.routingId.toNat → s.dev.current w.dev w.inc = true → w.op = .read n →
      ∃ t, exec (.poolWriteApply line) s = .next t ∧ t.dev.poolWrites = s.dev.poolWrites.erase w ∧
        t.dev.replies = s.dev.replies ++ [.poolOld w.dev (s.dev.bytes (line + w.off) n)] ∧
        t.dev.leasesGranted = s.dev.leasesGranted ∧ Claims.memoryKept s t) ∧
    (s.dev.owned line = some r → s.dev.poolWrites.find? (fun x => x.line == line) = some w →
      (∃ l, l ∈ s.dev.leasesGranted ∧ l.line = line ∧ ¬ Claims.leaseEnded s r l) →
      w.dev ≠ Config.routingId.toNat → s.dev.current w.dev w.inc = true → (∀ n, w.op ≠ .read n) →
      exec (.poolWriteApply line) s = .next s) ∧
    (s.dev.owned line = some r → s.dev.poolWrites.find? (fun x => x.line == line) = some w →
      w.dev ≠ Config.routingId.toNat → s.dev.current w.dev w.inc = false →
      ∃ t, exec (.poolWriteApply line) s = .next t ∧ t.dev.poolWrites = s.dev.poolWrites.erase w ∧
        t.dev.replies = s.dev.replies ++ [.nak] ∧ Claims.memoryKept s t) ∧
    (s.dev.owned line = some r → s.dev.poolWrites.find? (fun x => x.line == line) = some w →
      (∀ l, l ∈ s.dev.leasesGranted → l.line = line → Claims.leaseEnded s r l) →
      w.dev ≠ Config.routingId.toNat → s.dev.current w.dev w.inc = true →
      (w.op = .write → ∃ t, exec (.poolWriteApply line) s = .next t ∧
        (∀ i, i < w.bytes.length → t.dev.byte (line + w.off + i) = w.bytes.getD i 0) ∧
        (∀ b, ¬ Claims.within (line + w.off) w.bytes.length b → t.dev.byte b = s.dev.byte b) ∧
        t.dev.poolWrites = s.dev.poolWrites.erase w ∧ t.dev.replies = s.dev.replies ∧
        ∀ l, l ∈ t.dev.leasesGranted → l.line ≠ line) ∧
      ∀ n new, Claims.poolResult w (s.dev.num (line + w.off) n) n new → ∃ t, exec (.poolWriteApply line) s = .next t ∧
        (∀ i, i < n → t.dev.byte (line + w.off + i) = BitVec.ofNat 8 (new / 256 ^ i)) ∧
        (∀ b, ¬ Claims.within (line + w.off) n b → t.dev.byte b = s.dev.byte b) ∧
        t.dev.poolWrites = s.dev.poolWrites.erase w ∧
        t.dev.replies = s.dev.replies ++ [.poolOld w.dev (s.dev.bytes (line + w.off) n)] ∧
        ∀ l, l ∈ t.dev.leasesGranted → l.line ≠ line) ∧
    (12 * 2 ^ 40 ≤ line → lookup s.dev.pool ((line - 12 * 2 ^ 40) / 2 ^ 30) = some r → r.valid = true →
      r.leased = false → ∃ t, exec (.backInvalidate line) s = .next t ∧ lookup t.dev.held line = none ∧
        Claims.memoryKept s t) ∧
    (dev = Config.routingId.toNat → inc = BitVec.ofNat 16 n → ∃ t, exec (.fabricBind dev n) s = .next t ∧
      t.dev.incarnation = inc ∧ t.dev.bound = true ∧ (∀ x, x ∈ t.dev.poolWrites → x.dev ≠ dev) ∧
      Claims.memoryKept s t ∧
      ∀ l, 12 * 2 ^ 40 ≤ l → l < 2 ^ 44 → lookup t.dev.held l = none) ∧
    (dev ≠ Config.routingId.toNat → inc = BitVec.ofNat 16 n → ∃ t, exec (.fabricBind dev n) s = .next t ∧ lookup t.dev.peers dev = some inc ∧
      (∀ l, l ∈ t.dev.leasesGranted → l.dev = dev → l.inc = inc) ∧
      (∀ x, x ∈ t.dev.poolWrites → x.dev = dev → x.inc = inc) ∧ Claims.memoryKept s t)

/-- R444 to R453: power-on reset loses all that was live but for the raised minimum SVN and the incarnation, and records
the self-test; a further fetch of the firmware image either runs it, or counts the attempt and, after the eighth, leaves
the device in the safe talkative state, from which a command fetches again; the status word, quotes and routines answer
as the spec says, and a minimum SVN is raised at most to the running image's. The cores' registers and memory of zeros after
power-on are the model's choices (log entries 1 and 2), and so is what a fetch from the safe talkative state begins with (log
entry 28). -/
def Obligations.FirmwareEvents : Prop :=
  ∀ (s : State) (test : SelfTest) (image : Option (List Byte)) (bs : List Byte) (svn id : Nat) (nonce : BitVec 384),
    (∃ t, exec (.powerOnReset test image) s = .next t ∧ t.core = Core.reset ∧ t.others = [] ∧ t.ctx.stopped = true ∧
      (∀ a, t.dev.byte a = 0) ∧ t.dev.minSvn = s.dev.minSvn ∧ t.dev.incarnation = s.dev.incarnation ∧
      t.dev.lostUnits = test.lost ∧ t.dev.cycle = 0 ∧ (test.fatal = true ∨ Claims.lostAll test.lost → t.dev.boot.stage = 0xFF ∧ t.dev.down = true) ∧
      fileGet (by decide) t.dev.mr 0 = Config.sha384 (bytesOf 48 0 ++ bytesOf 48 Config.romDigest.toNat)) ∧
    (s.dev.boot.stage = 2 → s.dev.boot.tries < 8 →
      (∃ t, exec (.firmwareFetchRetry (some bs)) s = .next t ∧
        (imageFault s.dev.minSvn bs = 0 → s.dev.broken = false → Claims.fetched s t bs) ∧
        (imageFault s.dev.minSvn bs = 0 → s.dev.broken = true → t.dev.boot.stage = 0xFF ∧ t.dev.down = true) ∧
        (imageFault s.dev.minSvn bs ≠ 0 → Claims.fetchFailed s t (imageFault s.dev.minSvn bs))) ∧
      (∃ t, exec (.firmwareFetchRetry none) s = .next t ∧ Claims.fetchFailed s t 2)) ∧
    (s.dev.boot.stage = 0xFF →
      ∃ t, exec (.firmwareFetch (some bs)) s = .next t ∧ t.dev.boot.tries = 1 ∧
        (imageFault s.dev.minSvn bs = 0 → s.dev.broken = false → Claims.fetched s t bs) ∧
        (imageFault s.dev.minSvn bs ≠ 0 → t.dev.boot.stage = 2 ∧ t.dev.boot.code = imageFault s.dev.minSvn bs)) ∧
    (∃ t, exec .statusRequest s = .next t ∧ Claims.replied s t (.status s.dev.boot)) ∧
    (∃ t q, exec (.attestationRequest nonce) s = .next t ∧ Claims.replied s t (.quote q) ∧
      q.take 48 = bytesOf 48 nonce.toNat) ∧
    (s.dev.minSvn < svn → svn ≤ s.dev.svn → s.dev.boot.stage = 3 →
      ∃ t, exec (.svnRaise svn) s = .next t ∧ t = { s with dev := { s.dev with minSvn := svn } }) ∧
    (s.ctx.desc.ctxid ≠ 0 → s.ctx.destroyed = false → bs.length ≤ 2 ^ 20 →
      ∃ t, exec (.routineLoad s.ctx.desc.ctxid id bs) s = .next t ∧ lookup t.ctx.routines id = some bs ∧
        fileGet (by decide) t.dev.mr 3 =
          Config.sha384 (bytesOf 48 (fileGet (by decide) s.dev.mr 3).toNat ++ bytesOf 48 (Config.sha384 bs).toNat) ∧
        t.dev.replies = s.dev.replies ++ [.routine id] ∧
        t.core = s.core ∧ Claims.memoryKept s t)

/-- R454 to R461: health and telemetry requests answer; a power cap from 30 to 90 units takes force at the next stroke;
the current limit stalls the cores until the current falls; throttle levels are kept; a thermal trip and the loss of a
cluster or a unit in it, of a die or of a stack are device-level faults. An Ultra Ethernet port lost with nothing in flight
leaves all else alone; a CXL port that is lost, or has failed an access, takes its range, and the last port of the fabric the
pool, out of the grants; a management core or I/O die leaves all else alone
unless it is the last, which puts the device in the safe talkative state. That the grants, in descriptor and bitmap, lose the
range at the stroke tick (log entries 46 and 78), that the last management core or I/O die is answered as a device-level fault
(log entry 84), that a REPLACE once reported stays set (log entry 82), and the registers after a fault (log entry 1) are the
model's choices. -/
def Obligations.FleetEvents : Prop :=
  ∀ (s : State) (units level die num : Nat) (kind : UnitKind),
    (∃ t, exec .healthRequest s = .next t ∧ t = { s with dev := { s.dev with
      replaced := s.dev.replaced || s.dev.replace, replies := s.dev.replies ++ [.health [s.dev.health]] } }) ∧
    (∃ t, exec .telemetryRequest s = .next t ∧
      Claims.replied s t (.telemetry ((List.range 11).map fun i => lookupD 0 s.dev.snapshot i))) ∧
    (30 ≤ units → units ≤ 90 → ∃ t u : State, exec (.powerCapSet units) s = .next t ∧ t.dev.powerCap = s.dev.powerCap ∧
      exec .strokeTick t = .next u.tickWork ∧ u.dev.powerCap = units) ∧
    (units < 30 ∨ 90 < units → exec (.powerCapSet units) s = .next s) ∧
    (∃ t, exec .currentLimit s = .next t ∧ t = { s with dev := { s.dev with currentStall := true } }) ∧
    (∃ t, exec .currentFallsBelowLimit s = .next t ∧ t = { s with dev := { s.dev with currentStall := false } }) ∧
    (level < 8 → ∃ t, exec (.throttleLevelChange level) s = .next t ∧
      t = { s with dev := { s.dev with throttle := level } }) ∧
    (∃ t, exec (.thermalThrottle die) s = .next t ∧ lookup t.dev.dieThrottle die = some 4 ∧ t.core = s.core ∧
      t.ctx = s.ctx ∧ Claims.memoryKept s t) ∧
    (∃ t, exec (.thermalTrip die) s = .next t ∧ t.core = Core.reset ∧ t.dev.dieFenced = List.range 8 ∧
      t.dev.replies = s.dev.replies ++ [.deviceFault 2]) ∧
    (kind ∈ [UnitKind.core, .crew, .cluster, .die, .stack, .matrixEngine, .copyUnit, .transformCore, .sweepUnit,
        .l2Slice] → ∃ t, exec (.unitLoss kind num) s = .next t ∧
      t.core = Core.reset ∧ (kind, num) ∈ t.dev.lostUnits ∧ t.dev.replies = s.dev.replies ++ [.deviceFault 1]) ∧
    (kind = .uePort → s.others = [] → (∀ cl, (s.cluster cl).remotes = []) →
      (∀ e q, e ∈ s.ctx.queues → lookup s.ctx.queues e.1 = some q → ∀ p, p ∈ q.packets → p.started = false) →
      ∃ t, exec (.unitLoss kind num) s = .next t ∧ Claims.onlyLost s t kind num) ∧
    (kind = .cxlPort → ∃ t, exec (.unitLoss kind num) s = .next t ∧
      t = { s with dev := { s.dev with lostUnits := s.dev.lostUnits ++ [(kind, num)], cxlFailed := t.dev.cxlFailed } } ∧
      ∀ n, n ∈ t.dev.cxlFailed ↔ n = num ∨ n ∈ s.dev.cxlFailed) ∧
    (∀ pool : Bool, Claims.nothingDue s → s.dev.cxlFailed = [num] → pool = s.dev.poolLost → s.ctx.desc.ctxid ≠ 0 →
      s.ctx.destroyed = false →
      ∃ t, exec .strokeTick s = .next t ∧ t.dev.cxlFailed = [] ∧
        t.ctx.desc.units = s.ctx.desc.units.filter (fun u => decide (Claims.unitStays num pool u)) ∧
        t.ctx.desc.heap = s.ctx.desc.heap.filter (fun u => decide (Claims.unitStays num pool u)) ∧
        ∀ a, t.dev.byte a = if (s.ctx.desc.grant + 2 ^ 16 * (4 + num) ≤ paOfLoc s.dev.rb a ∧
            paOfLoc s.dev.rb a < s.ctx.desc.grant + 2 ^ 16 * (5 + num)) ∨
            (pool = true ∧ s.ctx.desc.grant + 2 ^ 16 * 12 ≤ paOfLoc s.dev.rb a ∧
              paOfLoc s.dev.rb a < s.ctx.desc.grant + 2 ^ 20) then 0 else s.dev.byte a) ∧
    (kind = .mgmtCore ∨ kind = .ioDie →
      (∀ d : Device, d = { s.dev with lostUnits := s.dev.lostUnits ++ [(kind, num)] } →
        (d.mute = false → ∃ t, exec (.unitLoss kind num) s = .next t ∧ Claims.onlyLost s t kind num) ∧
        (d.mute = true → ∃ t, exec (.unitLoss kind num) s = .next t ∧ t.core = Core.reset ∧ t.dev.boot.stage = 0xFF ∧
          t.dev.down = true ∧ t.dev.replies = s.dev.replies ++ [.deviceFault 1])))

end
end

