-- ==== Sys2Proof/Laws/State.lean ====
section
/-! SUPPORT. What each update of the state leaves in each of its fields: one lemma per field and update. -/

namespace Sys2Proof.Machine

set_option Elab.async false

/-! ### mapCore -/

@[simp] theorem State.mapCore_core (s : State) (f : Core → Core) : (s.mapCore f).core = f s.core := rfl
@[simp] theorem State.mapCore_focus (s : State) (f : Core → Core) : (s.mapCore f).focus = s.focus := rfl
@[simp] theorem State.mapCore_ctx (s : State) (f : Core → Core) : (s.mapCore f).ctx = s.ctx := rfl
@[simp] theorem State.mapCore_others (s : State) (f : Core → Core) : (s.mapCore f).others = s.others := rfl
@[simp] theorem State.mapCore_dev (s : State) (f : Core → Core) : (s.mapCore f).dev = s.dev := rfl
@[simp] theorem State.mapCore_agenda (s : State) (f : Core → Core) : (s.mapCore f).agenda = s.agenda := rfl
@[simp] theorem State.mapCore_fresh (s : State) (f : Core → Core) : (s.mapCore f).fresh = s.fresh := rfl

/-! ### mapDev -/

@[simp] theorem State.mapDev_core (s : State) (f : Device → Device) : (s.mapDev f).core = s.core := rfl
@[simp] theorem State.mapDev_focus (s : State) (f : Device → Device) : (s.mapDev f).focus = s.focus := rfl
@[simp] theorem State.mapDev_ctx (s : State) (f : Device → Device) : (s.mapDev f).ctx = s.ctx := rfl
@[simp] theorem State.mapDev_others (s : State) (f : Device → Device) : (s.mapDev f).others = s.others := rfl
@[simp] theorem State.mapDev_dev (s : State) (f : Device → Device) : (s.mapDev f).dev = f s.dev := rfl
@[simp] theorem State.mapDev_agenda (s : State) (f : Device → Device) : (s.mapDev f).agenda = s.agenda := rfl
@[simp] theorem State.mapDev_fresh (s : State) (f : Device → Device) : (s.mapDev f).fresh = s.fresh := rfl

/-! ### mapCtx -/

@[simp] theorem State.mapCtx_core (s : State) (f : Context → Context) : (s.mapCtx f).core = s.core := rfl
@[simp] theorem State.mapCtx_focus (s : State) (f : Context → Context) : (s.mapCtx f).focus = s.focus := rfl
@[simp] theorem State.mapCtx_ctx (s : State) (f : Context → Context) : (s.mapCtx f).ctx = f s.ctx := rfl
@[simp] theorem State.mapCtx_others (s : State) (f : Context → Context) : (s.mapCtx f).others = s.others := rfl
@[simp] theorem State.mapCtx_dev (s : State) (f : Context → Context) : (s.mapCtx f).dev = s.dev := rfl
@[simp] theorem State.mapCtx_agenda (s : State) (f : Context → Context) : (s.mapCtx f).agenda = s.agenda := rfl
@[simp] theorem State.mapCtx_fresh (s : State) (f : Context → Context) : (s.mapCtx f).fresh = s.fresh := rfl

/-! ### mapWorld -/

@[simp] theorem State.mapWorld_core (s : State) (f : World → World) : (s.mapWorld f).core = s.core := rfl
@[simp] theorem State.mapWorld_focus (s : State) (f : World → World) : (s.mapWorld f).focus = s.focus := rfl
@[simp] theorem State.mapWorld_ctx (s : State) (f : World → World) : (s.mapWorld f).ctx = { s.ctx with world := f s.ctx.world } := rfl
@[simp] theorem State.mapWorld_others (s : State) (f : World → World) : (s.mapWorld f).others = s.others := rfl
@[simp] theorem State.mapWorld_dev (s : State) (f : World → World) : (s.mapWorld f).dev = s.dev := rfl
@[simp] theorem State.mapWorld_agenda (s : State) (f : World → World) : (s.mapWorld f).agenda = s.agenda := rfl
@[simp] theorem State.mapWorld_fresh (s : State) (f : World → World) : (s.mapWorld f).fresh = s.fresh := rfl

/-! ### mapCluster -/

@[simp] theorem State.mapCluster_core (s : State) (cl : Nat) (f : Cluster → Cluster) : (s.mapCluster cl f).core = s.core := rfl
@[simp] theorem State.mapCluster_focus (s : State) (cl : Nat) (f : Cluster → Cluster) : (s.mapCluster cl f).focus = s.focus := rfl
@[simp] theorem State.mapCluster_ctx (s : State) (cl : Nat) (f : Cluster → Cluster) : (s.mapCluster cl f).ctx = { s.ctx with clusters := modifyAt Cluster.reset cl f s.ctx.clusters } := rfl
@[simp] theorem State.mapCluster_others (s : State) (cl : Nat) (f : Cluster → Cluster) : (s.mapCluster cl f).others = s.others := rfl
@[simp] theorem State.mapCluster_dev (s : State) (cl : Nat) (f : Cluster → Cluster) : (s.mapCluster cl f).dev = s.dev := rfl
@[simp] theorem State.mapCluster_agenda (s : State) (cl : Nat) (f : Cluster → Cluster) : (s.mapCluster cl f).agenda = s.agenda := rfl
@[simp] theorem State.mapCluster_fresh (s : State) (cl : Nat) (f : Cluster → Cluster) : (s.mapCluster cl f).fresh = s.fresh := rfl

/-! ### drawn -/

@[simp] theorem State.drawn_core (s : State) : (s.drawn).core = s.core := rfl
@[simp] theorem State.drawn_focus (s : State) : (s.drawn).focus = s.focus := rfl
@[simp] theorem State.drawn_ctx (s : State) : (s.drawn).ctx = s.ctx := rfl
@[simp] theorem State.drawn_others (s : State) : (s.drawn).others = s.others := rfl
@[simp] theorem State.drawn_dev (s : State) : (s.drawn).dev = s.dev := rfl
@[simp] theorem State.drawn_agenda (s : State) : (s.drawn).agenda = s.agenda := rfl
@[simp] theorem State.drawn_fresh (s : State) : (s.drawn).fresh = s.fresh + 1 := rfl

/-! ### mapRegs -/

@[simp] theorem State.mapRegs_core (s : State) (f : Regs → Regs) : (s.mapRegs f).core = { s.core with regs := f s.core.regs } := rfl
@[simp] theorem State.mapRegs_focus (s : State) (f : Regs → Regs) : (s.mapRegs f).focus = s.focus := rfl
@[simp] theorem State.mapRegs_ctx (s : State) (f : Regs → Regs) : (s.mapRegs f).ctx = s.ctx := rfl
@[simp] theorem State.mapRegs_others (s : State) (f : Regs → Regs) : (s.mapRegs f).others = s.others := rfl
@[simp] theorem State.mapRegs_dev (s : State) (f : Regs → Regs) : (s.mapRegs f).dev = s.dev := rfl
@[simp] theorem State.mapRegs_agenda (s : State) (f : Regs → Regs) : (s.mapRegs f).agenda = s.agenda := rfl
@[simp] theorem State.mapRegs_fresh (s : State) (f : Regs → Regs) : (s.mapRegs f).fresh = s.fresh := rfl

/-! ### wrX -/

@[simp] theorem State.wrX_core (s : State) (d : Nat) (v : Word) (l : LabelWord) : (s.wrX d v l).core = { s.core with regs := s.core.regs.putX d v l } := rfl
@[simp] theorem State.wrX_focus (s : State) (d : Nat) (v : Word) (l : LabelWord) : (s.wrX d v l).focus = s.focus := rfl
@[simp] theorem State.wrX_ctx (s : State) (d : Nat) (v : Word) (l : LabelWord) : (s.wrX d v l).ctx = s.ctx := rfl
@[simp] theorem State.wrX_others (s : State) (d : Nat) (v : Word) (l : LabelWord) : (s.wrX d v l).others = s.others := rfl
@[simp] theorem State.wrX_dev (s : State) (d : Nat) (v : Word) (l : LabelWord) : (s.wrX d v l).dev = s.dev := rfl
@[simp] theorem State.wrX_agenda (s : State) (d : Nat) (v : Word) (l : LabelWord) : (s.wrX d v l).agenda = s.agenda := rfl
@[simp] theorem State.wrX_fresh (s : State) (d : Nat) (v : Word) (l : LabelWord) : (s.wrX d v l).fresh = s.fresh := rfl

/-! ### wrF -/

@[simp] theorem State.wrF_core (s : State) (d : Nat) (v : Half) (l : LabelWord) : (s.wrF d v l).core = { s.core with regs := s.core.regs.putF d v l } := rfl
@[simp] theorem State.wrF_focus (s : State) (d : Nat) (v : Half) (l : LabelWord) : (s.wrF d v l).focus = s.focus := rfl
@[simp] theorem State.wrF_ctx (s : State) (d : Nat) (v : Half) (l : LabelWord) : (s.wrF d v l).ctx = s.ctx := rfl
@[simp] theorem State.wrF_others (s : State) (d : Nat) (v : Half) (l : LabelWord) : (s.wrF d v l).others = s.others := rfl
@[simp] theorem State.wrF_dev (s : State) (d : Nat) (v : Half) (l : LabelWord) : (s.wrF d v l).dev = s.dev := rfl
@[simp] theorem State.wrF_agenda (s : State) (d : Nat) (v : Half) (l : LabelWord) : (s.wrF d v l).agenda = s.agenda := rfl
@[simp] theorem State.wrF_fresh (s : State) (d : Nat) (v : Half) (l : LabelWord) : (s.wrF d v l).fresh = s.fresh := rfl

/-! ### wrV -/

@[simp] theorem State.wrV_core (s : State) (d : Nat) (v : VWord) (l : LabelWord) : (s.wrV d v l).core = { s.core with regs := s.core.regs.putV d v l, streams := eraseAt d s.core.streams } := rfl
@[simp] theorem State.wrV_focus (s : State) (d : Nat) (v : VWord) (l : LabelWord) : (s.wrV d v l).focus = s.focus := rfl
@[simp] theorem State.wrV_ctx (s : State) (d : Nat) (v : VWord) (l : LabelWord) : (s.wrV d v l).ctx = s.ctx := rfl
@[simp] theorem State.wrV_others (s : State) (d : Nat) (v : VWord) (l : LabelWord) : (s.wrV d v l).others = s.others := rfl
@[simp] theorem State.wrV_dev (s : State) (d : Nat) (v : VWord) (l : LabelWord) : (s.wrV d v l).dev = s.dev := rfl
@[simp] theorem State.wrV_agenda (s : State) (d : Nat) (v : VWord) (l : LabelWord) : (s.wrV d v l).agenda = s.agenda := rfl
@[simp] theorem State.wrV_fresh (s : State) (d : Nat) (v : VWord) (l : LabelWord) : (s.wrV d v l).fresh = s.fresh := rfl

/-! ### wrP -/

@[simp] theorem State.wrP_core (s : State) (d : Nat) (v : Word) (l : LabelWord) : (s.wrP d v l).core = { s.core with regs := s.core.regs.putP d v l } := rfl
@[simp] theorem State.wrP_focus (s : State) (d : Nat) (v : Word) (l : LabelWord) : (s.wrP d v l).focus = s.focus := rfl
@[simp] theorem State.wrP_ctx (s : State) (d : Nat) (v : Word) (l : LabelWord) : (s.wrP d v l).ctx = s.ctx := rfl
@[simp] theorem State.wrP_others (s : State) (d : Nat) (v : Word) (l : LabelWord) : (s.wrP d v l).others = s.others := rfl
@[simp] theorem State.wrP_dev (s : State) (d : Nat) (v : Word) (l : LabelWord) : (s.wrP d v l).dev = s.dev := rfl
@[simp] theorem State.wrP_agenda (s : State) (d : Nat) (v : Word) (l : LabelWord) : (s.wrP d v l).agenda = s.agenda := rfl
@[simp] theorem State.wrP_fresh (s : State) (d : Nat) (v : Word) (l : LabelWord) : (s.wrP d v l).fresh = s.fresh := rfl

/-! ### orFlags -/

@[simp] theorem State.orFlags_core (s : State) (f : FFlags) : (s.orFlags f).core = { s.core with regs := s.core.regs.orFlags f } := rfl
@[simp] theorem State.orFlags_focus (s : State) (f : FFlags) : (s.orFlags f).focus = s.focus := rfl
@[simp] theorem State.orFlags_ctx (s : State) (f : FFlags) : (s.orFlags f).ctx = s.ctx := rfl
@[simp] theorem State.orFlags_others (s : State) (f : FFlags) : (s.orFlags f).others = s.others := rfl
@[simp] theorem State.orFlags_dev (s : State) (f : FFlags) : (s.orFlags f).dev = s.dev := rfl
@[simp] theorem State.orFlags_agenda (s : State) (f : FFlags) : (s.orFlags f).agenda = s.agenda := rfl
@[simp] theorem State.orFlags_fresh (s : State) (f : FFlags) : (s.orFlags f).fresh = s.fresh := rfl

/-! ### complete -/

@[simp] theorem State.complete_core (s : State) : (s.complete).core = s.core.complete := rfl
@[simp] theorem State.complete_focus (s : State) : (s.complete).focus = s.focus := rfl
@[simp] theorem State.complete_ctx (s : State) : (s.complete).ctx = s.ctx := rfl
@[simp] theorem State.complete_others (s : State) : (s.complete).others = s.others := rfl
@[simp] theorem State.complete_dev (s : State) : (s.complete).dev = s.dev := rfl
@[simp] theorem State.complete_agenda (s : State) : (s.complete).agenda = s.agenda := rfl
@[simp] theorem State.complete_fresh (s : State) : (s.complete).fresh = s.fresh := rfl

/-! ### drain -/

@[simp] theorem State.drain_core (s : State) : (s.drain).core = s.core.drain := rfl
@[simp] theorem State.drain_focus (s : State) : (s.drain).focus = s.focus := rfl
@[simp] theorem State.drain_ctx (s : State) : (s.drain).ctx = s.ctx := rfl
@[simp] theorem State.drain_others (s : State) : (s.drain).others = s.others := rfl
@[simp] theorem State.drain_dev (s : State) : (s.drain).dev = s.dev := rfl
@[simp] theorem State.drain_agenda (s : State) : (s.drain).agenda = s.agenda := rfl
@[simp] theorem State.drain_fresh (s : State) : (s.drain).fresh = s.fresh := rfl

/-! ### parkAt -/

@[simp] theorem State.parkAt_core (s : State) (p : Park) : (s.parkAt p).core = { s.core with park := some p, stalled := false } := rfl
@[simp] theorem State.parkAt_focus (s : State) (p : Park) : (s.parkAt p).focus = s.focus := rfl
@[simp] theorem State.parkAt_ctx (s : State) (p : Park) : (s.parkAt p).ctx = s.ctx := rfl
@[simp] theorem State.parkAt_others (s : State) (p : Park) : (s.parkAt p).others = s.others := rfl
@[simp] theorem State.parkAt_dev (s : State) (p : Park) : (s.parkAt p).dev = s.dev := rfl
@[simp] theorem State.parkAt_agenda (s : State) (p : Park) : (s.parkAt p).agenda = s.agenda := rfl
@[simp] theorem State.parkAt_fresh (s : State) (p : Park) : (s.parkAt p).fresh = s.fresh := rfl

/-! ### latchIssue -/

@[simp] theorem State.latchIssue_core (s : State) (a : Word) (l t : Bool) : (s.latchIssue a l t).core = { s.core with issue := ⟨a, l, t⟩, trapped := none, late := none, stalled := false } := rfl
@[simp] theorem State.latchIssue_focus (s : State) (a : Word) (l t : Bool) : (s.latchIssue a l t).focus = s.focus := rfl
@[simp] theorem State.latchIssue_ctx (s : State) (a : Word) (l t : Bool) : (s.latchIssue a l t).ctx = s.ctx := rfl
@[simp] theorem State.latchIssue_others (s : State) (a : Word) (l t : Bool) : (s.latchIssue a l t).others = s.others := rfl
@[simp] theorem State.latchIssue_dev (s : State) (a : Word) (l t : Bool) : (s.latchIssue a l t).dev = s.dev := rfl
@[simp] theorem State.latchIssue_agenda (s : State) (a : Word) (l t : Bool) : (s.latchIssue a l t).agenda = s.agenda := rfl
@[simp] theorem State.latchIssue_fresh (s : State) (a : Word) (l t : Bool) : (s.latchIssue a l t).fresh = s.fresh := rfl

/-! ### later -/

@[simp] theorem State.later_focus (s : State) (p : Pending) : (s.later p).focus = s.focus := by
  unfold State.later; split <;> rfl
@[simp] theorem State.later_ctx (s : State) (p : Pending) : (s.later p).ctx = s.ctx := by
  unfold State.later; split <;> rfl
@[simp] theorem State.later_others (s : State) (p : Pending) : (s.later p).others = s.others := by
  unfold State.later; split <;> rfl
@[simp] theorem State.later_dev (s : State) (p : Pending) : (s.later p).dev = s.dev := by
  unfold State.later; split <;> rfl
@[simp] theorem State.later_agenda (s : State) (p : Pending) : (s.later p).agenda = s.agenda := by
  unfold State.later; split <;> rfl
@[simp] theorem State.later_fresh (s : State) (p : Pending) : (s.later p).fresh = s.fresh := by
  unfold State.later; split <;> rfl
theorem State.later_core (s : State) (p : Pending) (h : p.reg ≠ .x 0) :
    (s.later p).core = { s.core with pending := s.core.pending ++ [p], streams := match p.reg with
      | .v n => eraseAt n s.core.streams
      | .x _ => s.core.streams
      | .f _ => s.core.streams
      | .p _ => s.core.streams } := by
  unfold State.later; rw [if_neg h]; rfl

/-! ### The end of an instruction and transfers, on the core -/

@[simp] theorem Core.passContainer_regs (c : Core) (a : Word) : (c.passContainer a).regs = c.regs := rfl
@[simp] theorem Core.passContainer_acc0 (c : Core) (a : Word) : (c.passContainer a).acc0 = c.acc0 := rfl
@[simp] theorem Core.passContainer_acc1 (c : Core) (a : Word) : (c.passContainer a).acc1 = c.acc1 := rfl
@[simp] theorem Core.passContainer_status (c : Core) (a : Word) : (c.passContainer a).status = c.status := rfl
@[simp] theorem Core.passContainer_k (c : Core) (a : Word) : (c.passContainer a).k = c.k := rfl
@[simp] theorem Core.passContainer_frozen (c : Core) (a : Word) : (c.passContainer a).frozen = c.frozen := rfl
@[simp] theorem Core.passContainer_stage (c : Core) (a : Word) : (c.passContainer a).stage = c.stage := rfl
@[simp] theorem Core.passContainer_crec (c : Core) (a : Word) : (c.passContainer a).crec = c.crec := rfl
@[simp] theorem Core.passContainer_record (c : Core) (a : Word) : (c.passContainer a).record = c.record := rfl
@[simp] theorem Core.passContainer_gang (c : Core) (a : Word) : (c.passContainer a).gang = c.gang := rfl
@[simp] theorem Core.passContainer_reserved (c : Core) (a : Word) : (c.passContainer a).reserved = c.reserved := rfl
@[simp] theorem Core.passContainer_epoch (c : Core) (a : Word) : (c.passContainer a).epoch = c.epoch := rfl
@[simp] theorem Core.passContainer_lblcfg (c : Core) (a : Word) : (c.passContainer a).lblcfg = c.lblcfg := rfl
@[simp] theorem Core.passContainer_lblstat (c : Core) (a : Word) : (c.passContainer a).lblstat = c.lblstat := rfl
@[simp] theorem Core.passContainer_epc (c : Core) (a : Word) : (c.passContainer a).epc = c.epc := rfl
@[simp] theorem Core.passContainer_ecause (c : Core) (a : Word) : (c.passContainer a).ecause = c.ecause := rfl
@[simp] theorem Core.passContainer_einfo (c : Core) (a : Word) : (c.passContainer a).einfo = c.einfo := rfl
@[simp] theorem Core.passContainer_eaddr (c : Core) (a : Word) : (c.passContainer a).eaddr = c.eaddr := rfl
@[simp] theorem Core.passContainer_sloop (c : Core) (a : Word) : (c.passContainer a).sloop = c.sloop := rfl
@[simp] theorem Core.passContainer_upjob (c : Core) (a : Word) : (c.passContainer a).upjob = c.upjob := rfl
@[simp] theorem Core.passContainer_upcause (c : Core) (a : Word) : (c.passContainer a).upcause = c.upcause := rfl
@[simp] theorem Core.passContainer_upepc (c : Core) (a : Word) : (c.passContainer a).upepc = c.upepc := rfl
@[simp] theorem Core.passContainer_upcalls (c : Core) (a : Word) : (c.passContainer a).upcalls = c.upcalls := rfl
@[simp] theorem Core.passContainer_uplost (c : Core) (a : Word) : (c.passContainer a).uplost = c.uplost := rfl
@[simp] theorem Core.passContainer_mrows (c : Core) (a : Word) : (c.passContainer a).mrows = c.mrows := rfl
@[simp] theorem Core.passContainer_aside (c : Core) (a : Word) : (c.passContainer a).aside = c.aside := rfl
@[simp] theorem Core.passContainer_mfpc (c : Core) (a : Word) : (c.passContainer a).mfpc = c.mfpc := rfl
@[simp] theorem Core.passContainer_mfault (c : Core) (a : Word) : (c.passContainer a).mfault = c.mfault := rfl
@[simp] theorem Core.passContainer_dealpat (c : Core) (a : Word) : (c.passContainer a).dealpat = c.dealpat := rfl
@[simp] theorem Core.passContainer_catchcfg (c : Core) (a : Word) : (c.passContainer a).catchcfg = c.catchcfg := rfl
@[simp] theorem Core.passContainer_codegen (c : Core) (a : Word) : (c.passContainer a).codegen = c.codegen := rfl
@[simp] theorem Core.passContainer_tableGen (c : Core) (a : Word) : (c.passContainer a).tableGen = c.tableGen := rfl
@[simp] theorem Core.passContainer_pending (c : Core) (a : Word) : (c.passContainer a).pending = c.pending := rfl
@[simp] theorem Core.passContainer_park (c : Core) (a : Word) : (c.passContainer a).park = c.park := rfl
@[simp] theorem Core.passContainer_grants (c : Core) (a : Word) : (c.passContainer a).grants = c.grants := rfl
@[simp] theorem Core.passContainer_sent (c : Core) (a : Word) : (c.passContainer a).sent = c.sent := rfl
@[simp] theorem Core.passContainer_stalled (c : Core) (a : Word) : (c.passContainer a).stalled = c.stalled := rfl
@[simp] theorem Core.passContainer_streams (c : Core) (a : Word) : (c.passContainer a).streams = c.streams := rfl
@[simp] theorem Core.passContainer_popped (c : Core) (a : Word) : (c.passContainer a).popped = c.popped := rfl
@[simp] theorem Core.passContainer_poppedTrap (c : Core) (a : Word) : (c.passContainer a).poppedTrap = c.poppedTrap := rfl
@[simp] theorem Core.passContainer_poppedUpcall (c : Core) (a : Word) : (c.passContainer a).poppedUpcall = c.poppedUpcall := rfl
@[simp] theorem Core.passContainer_arrived (c : Core) (a : Word) : (c.passContainer a).arrived = c.arrived := rfl
@[simp] theorem Core.passContainer_edge (c : Core) (a : Word) : (c.passContainer a).edge = c.edge := rfl
@[simp] theorem Core.passContainer_issue (c : Core) (a : Word) : (c.passContainer a).issue = c.issue := rfl
@[simp] theorem Core.passContainer_latch (c : Core) (a : Word) : (c.passContainer a).latch = c.latch := rfl
@[simp] theorem Core.passContainer_late (c : Core) (a : Word) : (c.passContainer a).late = c.late := rfl
@[simp] theorem Core.passContainer_trapped (c : Core) (a : Word) : (c.passContainer a).trapped = c.trapped := rfl
@[simp] theorem Core.passContainer_fetchSync (c : Core) (a : Word) : (c.passContainer a).fetchSync = c.fetchSync := rfl
@[simp] theorem Core.passContainer_fenced (c : Core) (a : Word) : (c.passContainer a).fenced = c.fenced := rfl
@[simp] theorem Core.passContainer_walkSync (c : Core) (a : Word) : (c.passContainer a).walkSync = c.walkSync := rfl
@[simp] theorem Core.complete_regs (c : Core) : c.complete.regs = c.regs := by
  unfold Core.complete; dsimp only; repeat' split
  all_goals rfl
@[simp] theorem Core.complete_acc0 (c : Core) : c.complete.acc0 = c.acc0 := by
  unfold Core.complete; dsimp only; repeat' split
  all_goals rfl
@[simp] theorem Core.complete_acc1 (c : Core) : c.complete.acc1 = c.acc1 := by
  unfold Core.complete; dsimp only; repeat' split
  all_goals rfl
@[simp] theorem Core.complete_status (c : Core) : c.complete.status = c.status := by
  unfold Core.complete; dsimp only; repeat' split
  all_goals rfl
@[simp] theorem Core.complete_k (c : Core) : c.complete.k = c.k := by
  unfold Core.complete; dsimp only; repeat' split
  all_goals rfl
@[simp] theorem Core.complete_frozen (c : Core) : c.complete.frozen = c.frozen := by
  unfold Core.complete; dsimp only; repeat' split
  all_goals rfl
@[simp] theorem Core.complete_stage (c : Core) : c.complete.stage = c.stage := by
  unfold Core.complete; dsimp only; repeat' split
  all_goals rfl
@[simp] theorem Core.complete_crec (c : Core) : c.complete.crec = c.crec := by
  unfold Core.complete; dsimp only; repeat' split
  all_goals rfl
@[simp] theorem Core.complete_record (c : Core) : c.complete.record = c.record := by
  unfold Core.complete; dsimp only; repeat' split
  all_goals rfl
@[simp] theorem Core.complete_gang (c : Core) : c.complete.gang = c.gang := by
  unfold Core.complete; dsimp only; repeat' split
  all_goals rfl
@[simp] theorem Core.complete_reserved (c : Core) : c.complete.reserved = c.reserved := by
  unfold Core.complete; dsimp only; repeat' split
  all_goals rfl
@[simp] theorem Core.complete_epoch (c : Core) : c.complete.epoch = c.epoch := by
  unfold Core.complete; dsimp only; repeat' split
  all_goals rfl
@[simp] theorem Core.complete_lblcfg (c : Core) : c.complete.lblcfg = c.lblcfg := by
  unfold Core.complete; dsimp only; repeat' split
  all_goals rfl
@[simp] theorem Core.complete_lblstat (c : Core) : c.complete.lblstat = c.lblstat := by
  unfold Core.complete; dsimp only; repeat' split
  all_goals rfl
@[simp] theorem Core.complete_epc (c : Core) : c.complete.epc = c.epc := by
  unfold Core.complete; dsimp only; repeat' split
  all_goals rfl
@[simp] theorem Core.complete_ecause (c : Core) : c.complete.ecause = c.ecause := by
  unfold Core.complete; dsimp only; repeat' split
  all_goals rfl
@[simp] theorem Core.complete_einfo (c : Core) : c.complete.einfo = c.einfo := by
  unfold Core.complete; dsimp only; repeat' split
  all_goals rfl
@[simp] theorem Core.complete_eaddr (c : Core) : c.complete.eaddr = c.eaddr := by
  unfold Core.complete; dsimp only; repeat' split
  all_goals rfl
@[simp] theorem Core.complete_sloop (c : Core) : c.complete.sloop = c.sloop := by
  unfold Core.complete; dsimp only; repeat' split
  all_goals rfl
@[simp] theorem Core.complete_upjob (c : Core) : c.complete.upjob = c.upjob := by
  unfold Core.complete; dsimp only; repeat' split
  all_goals rfl
@[simp] theorem Core.complete_upcause (c : Core) : c.complete.upcause = c.upcause := by
  unfold Core.complete; dsimp only; repeat' split
  all_goals rfl
@[simp] theorem Core.complete_upepc (c : Core) : c.complete.upepc = c.upepc := by
  unfold Core.complete; dsimp only; repeat' split
  all_goals rfl
@[simp] theorem Core.complete_upcalls (c : Core) : c.complete.upcalls = c.upcalls := by
  unfold Core.complete; dsimp only; repeat' split
  all_goals rfl
@[simp] theorem Core.complete_uplost (c : Core) : c.complete.uplost = c.uplost := by
  unfold Core.complete; dsimp only; repeat' split
  all_goals rfl
@[simp] theorem Core.complete_mrows (c : Core) : c.complete.mrows = c.mrows := by
  unfold Core.complete; dsimp only; repeat' split
  all_goals rfl
@[simp] theorem Core.complete_aside (c : Core) : c.complete.aside = c.aside := by
  unfold Core.complete; dsimp only; repeat' split
  all_goals rfl
@[simp] theorem Core.complete_mfpc (c : Core) : c.complete.mfpc = c.mfpc := by
  unfold Core.complete; dsimp only; repeat' split
  all_goals rfl
@[simp] theorem Core.complete_mfault (c : Core) : c.complete.mfault = c.mfault := by
  unfold Core.complete; dsimp only; repeat' split
  all_goals rfl
@[simp] theorem Core.complete_dealpat (c : Core) : c.complete.dealpat = c.dealpat := by
  unfold Core.complete; dsimp only; repeat' split
  all_goals rfl
@[simp] theorem Core.complete_catchcfg (c : Core) : c.complete.catchcfg = c.catchcfg := by
  unfold Core.complete; dsimp only; repeat' split
  all_goals rfl
@[simp] theorem Core.complete_codegen (c : Core) : c.complete.codegen = c.codegen := by
  unfold Core.complete; dsimp only; repeat' split
  all_goals rfl
@[simp] theorem Core.complete_tableGen (c : Core) : c.complete.tableGen = c.tableGen := by
  unfold Core.complete; dsimp only; repeat' split
  all_goals rfl
@[simp] theorem Core.complete_pending (c : Core) : c.complete.pending = c.pending := by
  unfold Core.complete; dsimp only; repeat' split
  all_goals rfl
@[simp] theorem Core.complete_park (c : Core) : c.complete.park = c.park := by
  unfold Core.complete; dsimp only; repeat' split
  all_goals rfl
@[simp] theorem Core.complete_sent (c : Core) : c.complete.sent = c.sent := by
  unfold Core.complete; dsimp only; repeat' split
  all_goals rfl
@[simp] theorem Core.complete_streams (c : Core) : c.complete.streams = c.streams := by
  unfold Core.complete; dsimp only; repeat' split
  all_goals rfl
@[simp] theorem Core.complete_popped (c : Core) : c.complete.popped = c.popped := by
  unfold Core.complete; dsimp only; repeat' split
  all_goals rfl
@[simp] theorem Core.complete_poppedTrap (c : Core) : c.complete.poppedTrap = c.poppedTrap := by
  unfold Core.complete; dsimp only; repeat' split
  all_goals rfl
@[simp] theorem Core.complete_poppedUpcall (c : Core) : c.complete.poppedUpcall = c.poppedUpcall := by
  unfold Core.complete; dsimp only; repeat' split
  all_goals rfl
@[simp] theorem Core.complete_arrived (c : Core) : c.complete.arrived = c.arrived := by
  unfold Core.complete; dsimp only; repeat' split
  all_goals rfl
@[simp] theorem Core.complete_edge (c : Core) : c.complete.edge = c.edge := by
  unfold Core.complete; dsimp only; repeat' split
  all_goals rfl
@[simp] theorem Core.complete_issue (c : Core) : c.complete.issue = c.issue := by
  unfold Core.complete; dsimp only; repeat' split
  all_goals rfl
@[simp] theorem Core.complete_latch (c : Core) : c.complete.latch = c.latch := by
  unfold Core.complete; dsimp only; repeat' split
  all_goals rfl
@[simp] theorem Core.complete_late (c : Core) : c.complete.late = c.late := by
  unfold Core.complete; dsimp only; repeat' split
  all_goals rfl
@[simp] theorem Core.complete_trapped (c : Core) : c.complete.trapped = c.trapped := by
  unfold Core.complete; dsimp only; repeat' split
  all_goals rfl
@[simp] theorem Core.complete_fetchSync (c : Core) : c.complete.fetchSync = c.fetchSync := by
  unfold Core.complete; dsimp only; repeat' split
  all_goals rfl
@[simp] theorem Core.complete_fenced (c : Core) : c.complete.fenced = c.fenced := by
  unfold Core.complete; dsimp only; repeat' split
  all_goals rfl
@[simp] theorem Core.complete_walkSync (c : Core) : c.complete.walkSync = c.walkSync := by
  unfold Core.complete; dsimp only; repeat' split
  all_goals rfl
@[simp] theorem Core.transfer_pc (c : Core) (t : Word) : (c.transfer t).pc = t := rfl
@[simp] theorem Core.transfer_regs (c : Core) (t : Word) : (c.transfer t).regs = c.regs := rfl
@[simp] theorem Core.transfer_acc0 (c : Core) (t : Word) : (c.transfer t).acc0 = c.acc0 := rfl
@[simp] theorem Core.transfer_acc1 (c : Core) (t : Word) : (c.transfer t).acc1 = c.acc1 := rfl
@[simp] theorem Core.transfer_status (c : Core) (t : Word) : (c.transfer t).status = c.status := rfl
@[simp] theorem Core.transfer_k (c : Core) (t : Word) : (c.transfer t).k = c.k := rfl
@[simp] theorem Core.transfer_frozen (c : Core) (t : Word) : (c.transfer t).frozen = c.frozen := rfl
@[simp] theorem Core.transfer_stage (c : Core) (t : Word) : (c.transfer t).stage = c.stage := rfl
@[simp] theorem Core.transfer_crec (c : Core) (t : Word) : (c.transfer t).crec = c.crec := rfl
@[simp] theorem Core.transfer_record (c : Core) (t : Word) : (c.transfer t).record = c.record := rfl
@[simp] theorem Core.transfer_gang (c : Core) (t : Word) : (c.transfer t).gang = c.gang := rfl
@[simp] theorem Core.transfer_reserved (c : Core) (t : Word) : (c.transfer t).reserved = c.reserved := rfl
@[simp] theorem Core.transfer_epoch (c : Core) (t : Word) : (c.transfer t).epoch = c.epoch := rfl
@[simp] theorem Core.transfer_lblcfg (c : Core) (t : Word) : (c.transfer t).lblcfg = c.lblcfg := rfl
@[simp] theorem Core.transfer_lblstat (c : Core) (t : Word) : (c.transfer t).lblstat = c.lblstat := rfl
@[simp] theorem Core.transfer_epc (c : Core) (t : Word) : (c.transfer t).epc = c.epc := rfl
@[simp] theorem Core.transfer_ecause (c : Core) (t : Word) : (c.transfer t).ecause = c.ecause := rfl
@[simp] theorem Core.transfer_einfo (c : Core) (t : Word) : (c.transfer t).einfo = c.einfo := rfl
@[simp] theorem Core.transfer_eaddr (c : Core) (t : Word) : (c.transfer t).eaddr = c.eaddr := rfl
@[simp] theorem Core.transfer_sloop (c : Core) (t : Word) : (c.transfer t).sloop = c.sloop := rfl
@[simp] theorem Core.transfer_upjob (c : Core) (t : Word) : (c.transfer t).upjob = c.upjob := rfl
@[simp] theorem Core.transfer_upcause (c : Core) (t : Word) : (c.transfer t).upcause = c.upcause := rfl
@[simp] theorem Core.transfer_upepc (c : Core) (t : Word) : (c.transfer t).upepc = c.upepc := rfl
@[simp] theorem Core.transfer_upcalls (c : Core) (t : Word) : (c.transfer t).upcalls = c.upcalls := rfl
@[simp] theorem Core.transfer_uplost (c : Core) (t : Word) : (c.transfer t).uplost = c.uplost := rfl
@[simp] theorem Core.transfer_mrows (c : Core) (t : Word) : (c.transfer t).mrows = c.mrows := rfl
@[simp] theorem Core.transfer_aside (c : Core) (t : Word) : (c.transfer t).aside = c.aside := rfl
@[simp] theorem Core.transfer_mfpc (c : Core) (t : Word) : (c.transfer t).mfpc = c.mfpc := rfl
@[simp] theorem Core.transfer_mfault (c : Core) (t : Word) : (c.transfer t).mfault = c.mfault := rfl
@[simp] theorem Core.transfer_dealpat (c : Core) (t : Word) : (c.transfer t).dealpat = c.dealpat := rfl
@[simp] theorem Core.transfer_catchcfg (c : Core) (t : Word) : (c.transfer t).catchcfg = c.catchcfg := rfl
@[simp] theorem Core.transfer_codegen (c : Core) (t : Word) : (c.transfer t).codegen = c.codegen := rfl
@[simp] theorem Core.transfer_tableGen (c : Core) (t : Word) : (c.transfer t).tableGen = c.tableGen := rfl
@[simp] theorem Core.transfer_pending (c : Core) (t : Word) : (c.transfer t).pending = c.pending := rfl
@[simp] theorem Core.transfer_park (c : Core) (t : Word) : (c.transfer t).park = c.park := rfl
@[simp] theorem Core.transfer_grants (c : Core) (t : Word) : (c.transfer t).grants = c.grants := rfl
@[simp] theorem Core.transfer_sent (c : Core) (t : Word) : (c.transfer t).sent = c.sent := rfl
@[simp] theorem Core.transfer_stalled (c : Core) (t : Word) : (c.transfer t).stalled = false := rfl
@[simp] theorem Core.transfer_streams (c : Core) (t : Word) : (c.transfer t).streams = c.streams := rfl
@[simp] theorem Core.transfer_popped (c : Core) (t : Word) : (c.transfer t).popped = none := rfl
@[simp] theorem Core.transfer_poppedTrap (c : Core) (t : Word) : (c.transfer t).poppedTrap = c.poppedTrap := rfl
@[simp] theorem Core.transfer_poppedUpcall (c : Core) (t : Word) : (c.transfer t).poppedUpcall = c.poppedUpcall := rfl
@[simp] theorem Core.transfer_arrived (c : Core) (t : Word) : (c.transfer t).arrived = c.arrived := rfl
@[simp] theorem Core.transfer_edge (c : Core) (t : Word) : (c.transfer t).edge = c.edge := rfl
@[simp] theorem Core.transfer_issue (c : Core) (t : Word) : (c.transfer t).issue = { c.issue with taken := true } := rfl
@[simp] theorem Core.transfer_latch (c : Core) (t : Word) : (c.transfer t).latch = c.latch := rfl
@[simp] theorem Core.transfer_late (c : Core) (t : Word) : (c.transfer t).late = c.late := rfl
@[simp] theorem Core.transfer_trapped (c : Core) (t : Word) : (c.transfer t).trapped = c.trapped := rfl
@[simp] theorem Core.transfer_fetchSync (c : Core) (t : Word) : (c.transfer t).fetchSync = c.fenced := rfl
@[simp] theorem Core.transfer_fenced (c : Core) (t : Word) : (c.transfer t).fenced = c.fenced := rfl
@[simp] theorem Core.transfer_walkSync (c : Core) (t : Word) : (c.transfer t).walkSync = c.walkSync := rfl
@[simp] theorem Core.jump_pc (c : Core) (t : Word) : (c.jump t).pc = t := rfl
@[simp] theorem Core.jump_regs (c : Core) (t : Word) : (c.jump t).regs = c.regs := rfl
@[simp] theorem Core.jump_acc0 (c : Core) (t : Word) : (c.jump t).acc0 = c.acc0 := rfl
@[simp] theorem Core.jump_acc1 (c : Core) (t : Word) : (c.jump t).acc1 = c.acc1 := rfl
@[simp] theorem Core.jump_status (c : Core) (t : Word) : (c.jump t).status = c.status := rfl
@[simp] theorem Core.jump_k (c : Core) (t : Word) : (c.jump t).k = c.k := rfl
@[simp] theorem Core.jump_loops (c : Core) (t : Word) : (c.jump t).loops = c.loops := rfl
@[simp] theorem Core.jump_frozen (c : Core) (t : Word) : (c.jump t).frozen = c.frozen := rfl
@[simp] theorem Core.jump_stage (c : Core) (t : Word) : (c.jump t).stage = c.stage := rfl
@[simp] theorem Core.jump_crec (c : Core) (t : Word) : (c.jump t).crec = c.crec := rfl
@[simp] theorem Core.jump_record (c : Core) (t : Word) : (c.jump t).record = c.record := rfl
@[simp] theorem Core.jump_gang (c : Core) (t : Word) : (c.jump t).gang = c.gang := rfl
@[simp] theorem Core.jump_reserved (c : Core) (t : Word) : (c.jump t).reserved = c.reserved := rfl
@[simp] theorem Core.jump_epoch (c : Core) (t : Word) : (c.jump t).epoch = c.epoch := rfl
@[simp] theorem Core.jump_lblcfg (c : Core) (t : Word) : (c.jump t).lblcfg = c.lblcfg := rfl
@[simp] theorem Core.jump_lblstat (c : Core) (t : Word) : (c.jump t).lblstat = c.lblstat := rfl
@[simp] theorem Core.jump_epc (c : Core) (t : Word) : (c.jump t).epc = c.epc := rfl
@[simp] theorem Core.jump_ecause (c : Core) (t : Word) : (c.jump t).ecause = c.ecause := rfl
@[simp] theorem Core.jump_einfo (c : Core) (t : Word) : (c.jump t).einfo = c.einfo := rfl
@[simp] theorem Core.jump_eaddr (c : Core) (t : Word) : (c.jump t).eaddr = c.eaddr := rfl
@[simp] theorem Core.jump_sloop (c : Core) (t : Word) : (c.jump t).sloop = c.sloop := rfl
@[simp] theorem Core.jump_upjob (c : Core) (t : Word) : (c.jump t).upjob = c.upjob := rfl
@[simp] theorem Core.jump_upcause (c : Core) (t : Word) : (c.jump t).upcause = c.upcause := rfl
@[simp] theorem Core.jump_upepc (c : Core) (t : Word) : (c.jump t).upepc = c.upepc := rfl
@[simp] theorem Core.jump_upcalls (c : Core) (t : Word) : (c.jump t).upcalls = c.upcalls := rfl
@[simp] theorem Core.jump_uplost (c : Core) (t : Word) : (c.jump t).uplost = c.uplost := rfl
@[simp] theorem Core.jump_mrows (c : Core) (t : Word) : (c.jump t).mrows = c.mrows := rfl
@[simp] theorem Core.jump_aside (c : Core) (t : Word) : (c.jump t).aside = c.aside := rfl
@[simp] theorem Core.jump_mfpc (c : Core) (t : Word) : (c.jump t).mfpc = c.mfpc := rfl
@[simp] theorem Core.jump_mfault (c : Core) (t : Word) : (c.jump t).mfault = c.mfault := rfl
@[simp] theorem Core.jump_dealpat (c : Core) (t : Word) : (c.jump t).dealpat = c.dealpat := rfl
@[simp] theorem Core.jump_catchcfg (c : Core) (t : Word) : (c.jump t).catchcfg = c.catchcfg := rfl
@[simp] theorem Core.jump_codegen (c : Core) (t : Word) : (c.jump t).codegen = c.codegen := rfl
@[simp] theorem Core.jump_tableGen (c : Core) (t : Word) : (c.jump t).tableGen = c.tableGen := rfl
@[simp] theorem Core.jump_pending (c : Core) (t : Word) : (c.jump t).pending = c.pending := rfl
@[simp] theorem Core.jump_park (c : Core) (t : Word) : (c.jump t).park = c.park := rfl
@[simp] theorem Core.jump_grants (c : Core) (t : Word) : (c.jump t).grants = c.grants := rfl
@[simp] theorem Core.jump_sent (c : Core) (t : Word) : (c.jump t).sent = c.sent := rfl
@[simp] theorem Core.jump_stalled (c : Core) (t : Word) : (c.jump t).stalled = false := rfl
@[simp] theorem Core.jump_streams (c : Core) (t : Word) : (c.jump t).streams = c.streams := rfl
@[simp] theorem Core.jump_popped (c : Core) (t : Word) : (c.jump t).popped = none := rfl
@[simp] theorem Core.jump_poppedTrap (c : Core) (t : Word) : (c.jump t).poppedTrap = c.poppedTrap := rfl
@[simp] theorem Core.jump_poppedUpcall (c : Core) (t : Word) : (c.jump t).poppedUpcall = c.poppedUpcall := rfl
@[simp] theorem Core.jump_arrived (c : Core) (t : Word) : (c.jump t).arrived = c.arrived := rfl
@[simp] theorem Core.jump_edge (c : Core) (t : Word) : (c.jump t).edge = c.edge := rfl
@[simp] theorem Core.jump_issue (c : Core) (t : Word) : (c.jump t).issue = { c.issue with taken := true } := rfl
@[simp] theorem Core.jump_latch (c : Core) (t : Word) : (c.jump t).latch = c.latch := rfl
@[simp] theorem Core.jump_late (c : Core) (t : Word) : (c.jump t).late = c.late := rfl
@[simp] theorem Core.jump_trapped (c : Core) (t : Word) : (c.jump t).trapped = c.trapped := rfl
@[simp] theorem Core.jump_fetchSync (c : Core) (t : Word) : (c.jump t).fetchSync = c.fenced := rfl
@[simp] theorem Core.jump_fenced (c : Core) (t : Word) : (c.jump t).fenced = c.fenced := rfl
@[simp] theorem Core.jump_walkSync (c : Core) (t : Word) : (c.jump t).walkSync = c.walkSync := rfl

/-! ### Registers -/

@[simp] theorem Regs.putX_f (r : Regs) (d : Nat) (v : Word) (l : LabelWord) : (r.putX d v l).f = r.f := by
  unfold Regs.putX; split <;> rfl
@[simp] theorem Regs.putX_fl (r : Regs) (d : Nat) (v : Word) (l : LabelWord) : (r.putX d v l).fl = r.fl := by
  unfold Regs.putX; split <;> rfl
@[simp] theorem Regs.putX_v (r : Regs) (d : Nat) (v : Word) (l : LabelWord) : (r.putX d v l).v = r.v := by
  unfold Regs.putX; split <;> rfl
@[simp] theorem Regs.putX_vl (r : Regs) (d : Nat) (v : Word) (l : LabelWord) : (r.putX d v l).vl = r.vl := by
  unfold Regs.putX; split <;> rfl
@[simp] theorem Regs.putX_p (r : Regs) (d : Nat) (v : Word) (l : LabelWord) : (r.putX d v l).p = r.p := by
  unfold Regs.putX; split <;> rfl
@[simp] theorem Regs.putX_pl (r : Regs) (d : Nat) (v : Word) (l : LabelWord) : (r.putX d v l).pl = r.pl := by
  unfold Regs.putX; split <;> rfl
@[simp] theorem Regs.putX_fcsr (r : Regs) (d : Nat) (v : Word) (l : LabelWord) : (r.putX d v l).fcsr = r.fcsr := by
  unfold Regs.putX; split <;> rfl
@[simp] theorem Regs.putX_bankA (r : Regs) (d : Nat) (v : Word) (l : LabelWord) : (r.putX d v l).bankA = r.bankA := by
  unfold Regs.putX; split <;> rfl
@[simp] theorem Regs.putX_bankB (r : Regs) (d : Nat) (v : Word) (l : LabelWord) : (r.putX d v l).bankB = r.bankB := by
  unfold Regs.putX; split <;> rfl
theorem Regs.putX_x (r : Regs) (d : Nat) (v : Word) (l : LabelWord) (h : d ≠ 0) :
    (r.putX d v l).x = filePut (by decide) r.x d v := by
  unfold Regs.putX; rw [if_neg h]
theorem Regs.putX_xl (r : Regs) (d : Nat) (v : Word) (l : LabelWord) (h : d ≠ 0) :
    (r.putX d v l).xl = filePut (by decide) r.xl d l := by
  unfold Regs.putX; rw [if_neg h]
@[simp] theorem Regs.putX_zero (r : Regs) (v : Word) (l : LabelWord) : r.putX 0 v l = r := by
  unfold Regs.putX; rw [if_pos rfl]
@[simp] theorem Regs.putF_x (r : Regs) (d : Nat) (v : Half) (l : LabelWord) : (r.putF d v l).x = r.x := rfl
@[simp] theorem Regs.putF_xl (r : Regs) (d : Nat) (v : Half) (l : LabelWord) : (r.putF d v l).xl = r.xl := rfl
@[simp] theorem Regs.putF_v (r : Regs) (d : Nat) (v : Half) (l : LabelWord) : (r.putF d v l).v = r.v := rfl
@[simp] theorem Regs.putF_vl (r : Regs) (d : Nat) (v : Half) (l : LabelWord) : (r.putF d v l).vl = r.vl := rfl
@[simp] theorem Regs.putF_p (r : Regs) (d : Nat) (v : Half) (l : LabelWord) : (r.putF d v l).p = r.p := rfl
@[simp] theorem Regs.putF_pl (r : Regs) (d : Nat) (v : Half) (l : LabelWord) : (r.putF d v l).pl = r.pl := rfl
@[simp] theorem Regs.putF_fcsr (r : Regs) (d : Nat) (v : Half) (l : LabelWord) : (r.putF d v l).fcsr = r.fcsr := rfl
@[simp] theorem Regs.putF_bankA (r : Regs) (d : Nat) (v : Half) (l : LabelWord) : (r.putF d v l).bankA = r.bankA := rfl
@[simp] theorem Regs.putF_bankB (r : Regs) (d : Nat) (v : Half) (l : LabelWord) : (r.putF d v l).bankB = r.bankB := rfl
@[simp] theorem Regs.putF_f (r : Regs) (d : Nat) (v : Half) (l : LabelWord) : (r.putF d v l).f = filePut (by decide) r.f d v := rfl
@[simp] theorem Regs.putF_fl (r : Regs) (d : Nat) (v : Half) (l : LabelWord) : (r.putF d v l).fl = filePut (by decide) r.fl d l := rfl
@[simp] theorem Regs.putV_x (r : Regs) (d : Nat) (v : VWord) (l : LabelWord) : (r.putV d v l).x = r.x := rfl
@[simp] theorem Regs.putV_xl (r : Regs) (d : Nat) (v : VWord) (l : LabelWord) : (r.putV d v l).xl = r.xl := rfl
@[simp] theorem Regs.putV_f (r : Regs) (d : Nat) (v : VWord) (l : LabelWord) : (r.putV d v l).f = r.f := rfl
@[simp] theorem Regs.putV_fl (r : Regs) (d : Nat) (v : VWord) (l : LabelWord) : (r.putV d v l).fl = r.fl := rfl
@[simp] theorem Regs.putV_p (r : Regs) (d : Nat) (v : VWord) (l : LabelWord) : (r.putV d v l).p = r.p := rfl
@[simp] theorem Regs.putV_pl (r : Regs) (d : Nat) (v : VWord) (l : LabelWord) : (r.putV d v l).pl = r.pl := rfl
@[simp] theorem Regs.putV_fcsr (r : Regs) (d : Nat) (v : VWord) (l : LabelWord) : (r.putV d v l).fcsr = r.fcsr := rfl
@[simp] theorem Regs.putV_bankA (r : Regs) (d : Nat) (v : VWord) (l : LabelWord) : (r.putV d v l).bankA = r.bankA := rfl
@[simp] theorem Regs.putV_bankB (r : Regs) (d : Nat) (v : VWord) (l : LabelWord) : (r.putV d v l).bankB = r.bankB := rfl
@[simp] theorem Regs.putV_v (r : Regs) (d : Nat) (v : VWord) (l : LabelWord) : (r.putV d v l).v = filePut (by decide) r.v d v := rfl
@[simp] theorem Regs.putV_vl (r : Regs) (d : Nat) (v : VWord) (l : LabelWord) : (r.putV d v l).vl = filePut (by decide) r.vl d l := rfl
@[simp] theorem Regs.putP_x (r : Regs) (d : Nat) (v : Word) (l : LabelWord) : (r.putP d v l).x = r.x := by
  unfold Regs.putP; split <;> rfl
@[simp] theorem Regs.putP_xl (r : Regs) (d : Nat) (v : Word) (l : LabelWord) : (r.putP d v l).xl = r.xl := by
  unfold Regs.putP; split <;> rfl
@[simp] theorem Regs.putP_f (r : Regs) (d : Nat) (v : Word) (l : LabelWord) : (r.putP d v l).f = r.f := by
  unfold Regs.putP; split <;> rfl
@[simp] theorem Regs.putP_fl (r : Regs) (d : Nat) (v : Word) (l : LabelWord) : (r.putP d v l).fl = r.fl := by
  unfold Regs.putP; split <;> rfl
@[simp] theorem Regs.putP_v (r : Regs) (d : Nat) (v : Word) (l : LabelWord) : (r.putP d v l).v = r.v := by
  unfold Regs.putP; split <;> rfl
@[simp] theorem Regs.putP_vl (r : Regs) (d : Nat) (v : Word) (l : LabelWord) : (r.putP d v l).vl = r.vl := by
  unfold Regs.putP; split <;> rfl
@[simp] theorem Regs.putP_fcsr (r : Regs) (d : Nat) (v : Word) (l : LabelWord) : (r.putP d v l).fcsr = r.fcsr := by
  unfold Regs.putP; split <;> rfl
@[simp] theorem Regs.putP_bankA (r : Regs) (d : Nat) (v : Word) (l : LabelWord) : (r.putP d v l).bankA = r.bankA := by
  unfold Regs.putP; split <;> rfl
@[simp] theorem Regs.putP_bankB (r : Regs) (d : Nat) (v : Word) (l : LabelWord) : (r.putP d v l).bankB = r.bankB := by
  unfold Regs.putP; split <;> rfl
theorem Regs.putP_p (r : Regs) (d : Nat) (v : Word) (l : LabelWord) (h : d ≠ 0) :
    (r.putP d v l).p = filePut (by decide) r.p d v := by
  unfold Regs.putP; rw [if_neg h]
theorem Regs.putP_pl (r : Regs) (d : Nat) (v : Word) (l : LabelWord) (h : d ≠ 0) :
    (r.putP d v l).pl = filePut (by decide) r.pl d l := by
  unfold Regs.putP; rw [if_neg h]
@[simp] theorem Regs.putP_zero (r : Regs) (v : Word) (l : LabelWord) : r.putP 0 v l = r := by
  unfold Regs.putP; rw [if_pos rfl]
@[simp] theorem Regs.orFlags_x (r : Regs) (g : FFlags) : (r.orFlags g).x = r.x := rfl
@[simp] theorem Regs.orFlags_xl (r : Regs) (g : FFlags) : (r.orFlags g).xl = r.xl := rfl
@[simp] theorem Regs.orFlags_f (r : Regs) (g : FFlags) : (r.orFlags g).f = r.f := rfl
@[simp] theorem Regs.orFlags_fl (r : Regs) (g : FFlags) : (r.orFlags g).fl = r.fl := rfl
@[simp] theorem Regs.orFlags_v (r : Regs) (g : FFlags) : (r.orFlags g).v = r.v := rfl
@[simp] theorem Regs.orFlags_vl (r : Regs) (g : FFlags) : (r.orFlags g).vl = r.vl := rfl
@[simp] theorem Regs.orFlags_p (r : Regs) (g : FFlags) : (r.orFlags g).p = r.p := rfl
@[simp] theorem Regs.orFlags_pl (r : Regs) (g : FFlags) : (r.orFlags g).pl = r.pl := rfl
@[simp] theorem Regs.orFlags_bankA (r : Regs) (g : FFlags) : (r.orFlags g).bankA = r.bankA := rfl
@[simp] theorem Regs.orFlags_bankB (r : Regs) (g : FFlags) : (r.orFlags g).bankB = r.bankB := rfl

/-- An element just put is the one read. -/
@[simp] theorem fileGet_filePut_same {α : Type} {n : Nat} (h : 0 < n) (v : Vector α n) (i : Nat) (a : α) :
    fileGet h (filePut h v i a) i = a := by
  simp [fileGet, filePut]

/-- Putting one element leaves the others. -/
theorem fileGet_filePut_other {α : Type} {n : Nat} (h : 0 < n) (v : Vector α n) (i j : Nat) (a : α)
    (hij : i % n ≠ j % n) : fileGet h (filePut h v i a) j = fileGet h v j := by
  simp only [fileGet, filePut]
  rw [Vector.getElem_set_ne]
  exact hij

/-- The same for numbers inside the file. -/
theorem fileGet_filePut_ne {α : Type} {n : Nat} (h : 0 < n) (v : Vector α n) {i j : Nat} (a : α) (hi : i < n)
    (hj : j < n) (hij : j ≠ i) : fileGet h (filePut h v i a) j = fileGet h v j :=
  fileGet_filePut_other h v i j a (by rw [Nat.mod_eq_of_lt hi, Nat.mod_eq_of_lt hj]; exact fun e => hij e.symm)

end Sys2Proof.Machine
end

