-- ==== Sys2Proof/Laws/Memory.lean ====
section
/-! SUPPORT. Memory as a finite map: reading after writing, and the canonical form, which every operation on
memory keeps. -/

namespace Sys2Proof.Machine

set_option Elab.async false

/-! ### Finite maps -/

@[simp] theorem lookup_insertAt_same {α : Type} (k : Nat) (v : α) (m : NatMap α) :
    lookup (insertAt k v m) k = some v := by
  induction m with
  | nil => simp [insertAt, lookup]
  | cons e t ih =>
    obtain ⟨j, w⟩ := e
    simp only [insertAt]
    split
    · simp [lookup]
    · split
      · simp [lookup]
      · rename_i h1 h2
        simp [lookup, h2, ih]

theorem lookup_insertAt_other {α : Type} {k j : Nat} (v : α) (m : NatMap α) (h : j ≠ k) :
    lookup (insertAt k v m) j = lookup m j := by
  induction m with
  | nil => simp [insertAt, lookup, h.symm]
  | cons e t ih =>
    obtain ⟨i, w⟩ := e
    simp only [insertAt]
    split
    · simp [lookup, h.symm]
    · split
      · rename_i h2
        subst h2
        simp [lookup, h.symm]
      · simp [lookup, ih]

@[simp] theorem lookup_eraseAt_same {α : Type} (k : Nat) (m : NatMap α) : lookup (eraseAt k m) k = none := by
  induction m with
  | nil => rfl
  | cons e t ih =>
    obtain ⟨j, w⟩ := e
    by_cases h : j = k
    · simpa [eraseAt, h] using ih
    · simpa [eraseAt, h, lookup] using ih

theorem lookup_eraseAt_other {α : Type} {k j : Nat} (m : NatMap α) (h : j ≠ k) :
    lookup (eraseAt k m) j = lookup m j := by
  induction m with
  | nil => rfl
  | cons e t ih =>
    obtain ⟨i, w⟩ := e
    by_cases hk : i = k
    · subst hk
      simpa [eraseAt, lookup, h.symm] using ih
    · by_cases hj : i = j
      · subst hj
        simp [eraseAt, hk, lookup]
      · simpa [eraseAt, hk, lookup, hj] using ih

/-- Reading a map after a put. -/
theorem lookupD_putD {α : Type} [DecidableEq α] (d : α) (k j : Nat) (v : α) (m : NatMap α) :
    lookupD d (putD d k v m) j = if j = k then v else lookupD d m j := by
  unfold putD
  by_cases hj : j = k
  · subst hj
    split <;> simp [lookupD, *]
  · split <;> simp [lookupD, lookup_eraseAt_other _ hj, lookup_insertAt_other _ _ hj]

/-! ### Bytes -/

/-- Reading one byte after bytes were poked. -/
theorem lookupD_pokeBytes (bs : List Byte) (mem : NatMap Byte) (loc a : Nat) :
    lookupD 0 (pokeBytes mem loc bs) a =
      if loc ≤ a ∧ a < loc + bs.length then bs.getD (a - loc) 0 else lookupD 0 mem a := by
  induction bs generalizing mem loc with
  | nil =>
    rw [if_neg (by simp)]
    rfl
  | cons b bs ih =>
    rw [pokeBytes, ih, lookupD_putD]
    by_cases h : a = loc
    · subst h; simp
    · by_cases h2 : loc + 1 ≤ a ∧ a < loc + 1 + bs.length
      · rw [if_pos h2, if_pos (by simp; omega)]
        have : a - loc = (a - (loc + 1)) + 1 := by omega
        rw [this]; rfl
      · rw [if_neg h2, if_neg h, if_neg (by simp; omega)]

/-- A byte outside what is poked is as before. -/
theorem Device.poke_byte_other (d : Device) (loc a : Nat) (bs : List Byte) (h : a < loc ∨ loc + bs.length ≤ a) :
    (d.poke loc bs).byte a = d.byte a := by
  show lookupD 0 (pokeBytes d.mem loc bs) a = lookupD 0 d.mem a
  rw [lookupD_pokeBytes, if_neg (by omega)]

/-- A byte that is poked is the one poked. -/
theorem Device.poke_byte_same (d : Device) (loc i : Nat) (bs : List Byte) (h : i < bs.length) :
    (d.poke loc bs).byte (loc + i) = bs.getD i 0 := by
  show lookupD 0 (pokeBytes d.mem loc bs) (loc + i) = _
  rw [lookupD_pokeBytes, if_pos (by omega)]
  congr 1
  omega

@[simp] theorem bytesOf_length (n v : Nat) : (bytesOf n v).length = n := by simp [bytesOf]

theorem natOf_bytesOf (n v : Nat) : natOf (bytesOf n v) = v % 256 ^ n := by
  induction n generalizing v with
  | zero => simp [bytesOf, natOf, Nat.mod_one]
  | succ n ih =>
    have h : bytesOf (n + 1) v = BitVec.ofNat 8 v :: bytesOf n (v / 256) := by
      simp only [bytesOf, List.range_succ_eq_map, List.map_cons, List.map_map, Nat.pow_zero, Nat.div_one]
      congr 1
      apply List.map_congr_left
      intro i _
      simp only [Function.comp]
      rw [Nat.pow_succ', Nat.div_div_eq_div_mul]
    rw [h]
    show (BitVec.ofNat 8 v).toNat + 256 * natOf (bytesOf n (v / 256)) = _
    have e := Nat.mod_mul (x := v) (a := 256) (b := 256 ^ n)
    rw [ih, Nat.pow_succ', e]
    rfl

/-- A number read where its bytes were just poked. -/
theorem Device.poke_num_same (d : Device) (loc n v : Nat) :
    (d.poke loc (bytesOf n v)).num loc n = v % 256 ^ n := by
  have h : (d.poke loc (bytesOf n v)).bytes loc n = bytesOf n v := by
    apply List.ext_getElem
    · simp [Device.bytes]
    · intro i h1 h2
      simp only [bytesOf_length] at h2
      simp only [Device.bytes, List.getElem_map, List.getElem_range]
      rw [Device.poke_byte_same _ _ _ _ (by simpa using h2), List.getD_eq_getElem _ _ (by simpa using h2)]
  rw [Device.num, h, natOf_bytesOf]

/-! ### The canonical form -/

theorem wf_nil : Memory.wf [] := ⟨List.Pairwise.nil, by simp⟩

theorem insertAt_keys {α : Type} (k : Nat) (v : α) (m : NatMap α) (x : Nat)
    (h : x ∈ (insertAt k v m).map Prod.fst) : x = k ∨ x ∈ m.map Prod.fst := by
  induction m with
  | nil => simp [insertAt] at h; exact Or.inl h
  | cons e t ih =>
    obtain ⟨j, w⟩ := e
    simp only [insertAt] at h
    split at h
    · simpa using h
    · split at h
      · rename_i h2
        subst h2
        simp at h ⊢
        omega
      · simp only [List.map_cons, List.mem_cons] at h ⊢
        rcases h with h | h
        · exact Or.inr (Or.inl h)
        · rcases ih h with h | h
          · exact Or.inl h
          · exact Or.inr (Or.inr h)

theorem insertAt_ascending {α : Type} (k : Nat) (v : α) (m : NatMap α)
    (h : List.Pairwise (· < ·) (m.map Prod.fst)) : List.Pairwise (· < ·) ((insertAt k v m).map Prod.fst) := by
  induction m with
  | nil => simp [insertAt]
  | cons e t ih =>
    obtain ⟨j, w⟩ := e
    simp only [List.map_cons, List.pairwise_cons] at h
    simp only [insertAt]
    split
    · rename_i hk
      simp only [List.map_cons, List.pairwise_cons, List.mem_cons]
      refine ⟨?_, h.1, h.2⟩
      intro x hx
      rcases hx with hx | hx
      · omega
      · exact Nat.lt_trans hk (h.1 x hx)
    · split
      · rename_i h1 h2
        subst h2
        simp only [List.map_cons, List.pairwise_cons]
        exact h
      · rename_i h1 h2
        simp only [List.map_cons, List.pairwise_cons]
        refine ⟨?_, ih h.2⟩
        intro x hx
        rcases insertAt_keys k v t x hx with hx | hx
        · omega
        · exact h.1 x hx

theorem insertAt_mem {α : Type} (k : Nat) (v : α) (m : NatMap α) (e : Nat × α) (h : e ∈ insertAt k v m) :
    e = (k, v) ∨ e ∈ m := by
  induction m with
  | nil => simp [insertAt] at h; exact Or.inl h
  | cons f t ih =>
    obtain ⟨j, w⟩ := f
    simp only [insertAt] at h
    split at h
    · simpa using h
    · split at h
      · simp only [List.mem_cons] at h ⊢
        rcases h with h | h
        · exact Or.inl h
        · exact Or.inr (Or.inr h)
      · simp only [List.mem_cons] at h ⊢
        rcases h with h | h
        · exact Or.inr (Or.inl h)
        · rcases ih h with h | h
          · exact Or.inl h
          · exact Or.inr (Or.inr h)

/-- Any selection of entries keeps the canonical form. -/
theorem filter_wf (p : Nat × Byte → Bool) (m : NatMap Byte) (h : Memory.wf m) : Memory.wf (m.filter p) :=
  ⟨h.1.sublist (List.Sublist.map _ List.filter_sublist), fun e he => h.2 e (List.mem_of_mem_filter he)⟩

theorem putD_wf (k : Nat) (v : Byte) (m : NatMap Byte) (h : Memory.wf m) : Memory.wf (putD 0 k v m) := by
  unfold putD
  split
  · exact filter_wf _ m h
  · rename_i hv
    refine ⟨insertAt_ascending k v m h.1, ?_⟩
    intro e he
    rcases insertAt_mem k v m e he with he | he
    · rw [he]; exact hv
    · exact h.2 e he

theorem pokeBytes_wf (bs : List Byte) (loc : Nat) (m : NatMap Byte) (h : Memory.wf m) :
    Memory.wf (pokeBytes m loc bs) := by
  induction bs generalizing m loc with
  | nil => exact h
  | cons b bs ih => exact ih _ _ (putD_wf _ _ _ h)

theorem Device.poke_wf (d : Device) (loc : Nat) (bs : List Byte) (h : Memory.wf d.mem) : Memory.wf (d.poke loc bs).mem :=
  pokeBytes_wf bs loc d.mem h

@[simp] theorem Device.note_mem (d : Device) (loc n : Nat) (w : Writer) :
    (d.note loc n w).mem = d.mem := rfl

@[simp] theorem Device.dirtySlot_mem (d : Device) (loc : Nat) : (d.dirtySlot loc).mem = d.mem := by
  unfold Device.dirtySlot
  split
  · split <;> rfl
  · rfl

@[simp] theorem Device.standBy_mem (d : Device) (line : Nat) (who : Writer) :
    (d.standBy line who).mem = d.mem := rfl

@[simp] theorem Device.perform_mem (d : Device) (line : Nat) (who : Writer) :
    (d.perform line who).mem = d.mem := by
  unfold Device.perform
  split
  · rfl
  · split <;> rfl

@[simp] theorem Device.meet_mem (d : Device) (line : Nat) (who : Writer) : (d.meet line who).mem = d.mem := by
  unfold Device.meet
  split <;> rfl

/-- A write to a line that is not owned in leased mode is performed. -/
theorem Device.perform_free (d : Device) (line : Nat) (who : Writer) (h : d.owned line = none) :
    d.perform line who = d := by
  unfold Device.perform
  simp only [h]

/-- A read of a line that is not owned in leased mode waits for nothing. -/
theorem Device.meet_free (d : Device) (line : Nat) (who : Writer) (h : d.owned line = none) : d.meet line who = d := by
  unfold Device.meet
  simp [h]

@[simp] theorem Device.store_mem (d : Device) (loc : Nat) (bs : List Byte) (w : Writer) :
    (d.store loc bs w).mem = pokeBytes d.mem loc bs := by
  unfold Device.store
  simp [Device.poke]

theorem Device.store_wf (d : Device) (loc : Nat) (bs : List Byte) (w : Writer)
    (h : Memory.wf d.mem) : Memory.wf (d.store loc bs w).mem := by
  rw [Device.store_mem]
  exact pokeBytes_wf bs loc d.mem h

theorem Device.setRawLabel_wf (d : Device) (line : Nat) (w : LabelWord) (h : Memory.wf d.mem) :
    Memory.wf (d.setRawLabel line w).mem := pokeBytes_wf _ _ d.mem h

/-- A byte outside what is stored is as before. -/
theorem Device.store_byte_other (d : Device) (loc a : Nat) (bs : List Byte) (w : Writer)
    (h : a < loc ∨ loc + bs.length ≤ a) : (d.store loc bs w).byte a = d.byte a := by
  have := Device.poke_byte_other d loc a bs h
  simpa [Device.byte, Device.poke] using this

/-- A byte stored is the one read. -/
theorem Device.store_byte_same (d : Device) (loc i : Nat) (bs : List Byte) (w : Writer)
    (h : i < bs.length) : (d.store loc bs w).byte (loc + i) = bs.getD i 0 := by
  have := Device.poke_byte_same d loc i bs h
  simpa [Device.byte, Device.poke] using this

end Sys2Proof.Machine
end

