-- ==== Sys2Proof/Laws/Ops.lean ====
section
/-! SUPPORT. What each shared operation can do, said once: forming a label, writing a result, the Class rule, a
transfer, the end of a meaning, trap entry and the checks of an access. -/

namespace Sys2Proof.Machine

set_option Elab.async false

/-! ### The end of a meaning -/

@[simp] theorem commit_ok (s t : State) : commit s (.ok t) = .next t := rfl
@[simp] theorem commit_trap (s : State) (t : Trap) : commit s (.error (.trap t)) = .next (s.trapEntry t) := rfl
@[simp] theorem commit_stall (s : State) :
    commit s (.error .stall) = .next (s.mapCore fun c => { c with stalled := true }) := rfl
@[simp] theorem except_bind_ok {ε α β : Type} (a : α) (f : α → Except ε β) : (Except.ok a >>= f) = f a := rfl
@[simp] theorem except_bind_error {ε α β : Type} (e : ε) (f : α → Except ε β) :
    ((Except.error e : Except ε α) >>= f) = .error e := rfl
@[simp] theorem except_pure {ε α : Type} (a : α) : (pure a : Except ε α) = .ok a := rfl

/-- A state of a result that ends well comes from a state at every step. -/
theorem bind_ok {ε α β : Type} {x : Except ε α} {f : α → Except ε β} {b : β} (h : (x >>= f) = .ok b) :
    ∃ a, x = .ok a ∧ f a = .ok b := by
  cases x with
  | error e => cases h
  | ok a => exact ⟨a, rfl, h⟩

@[simp] theorem check_ok {α : Type} (s : State) (a : α) : s.check (.ok a) = .ok a := rfl
@[simp] theorem check_error {α : Type} (s : State) (d : Deny) : s.check (.error d : Except Deny α) = .error (s.denied d) := rfl

theorem check_eq_ok {α : Type} {s : State} {r : Except Deny α} {a : α} (h : s.check r = .ok a) : r = .ok a := by
  cases r with
  | error e => cases h
  | ok b => cases h; rfl

/-! ### Forming labels (R206, R209, R210) -/

/-- A handle is found or the label is entered behind the others. -/
theorem enter_ok {w w' : World} {e : BitVec 8} {l : Label} {h : Nat} (k : w.enter e l = .ok (h, w')) :
    w' = w ∨ (w' = { w with table := w.table ++ [(e, l)] } ∧ h = w.table.length + 1 ∧ w.table.length < Config.handles) := by
  unfold World.enter at k
  split at k
  · cases k; exact .inl rfl
  · split at k
    · cases k; exact .inl rfl
    · split at k
      · cases k; exact .inl rfl
      · split at k
        · cases k; exact .inr ⟨rfl, rfl, ‹_›⟩
        · cases k

theorem form_ok {w w' : World} {c : LabelCfg} {l : Label} {lw : LabelWord} {b : Bool}
    (k : w.form c l = .ok (lw, w', b)) : ∃ extra, w' = { w with table := w.table ++ extra } := by
  unfold World.form at k
  split at k
  · cases k
  · split at k
    · cases k
    · rename_i h
      cases k
      rcases enter_ok h with h | h
      · exact ⟨[], by simp [h]⟩
      · exact ⟨_, h.1⟩

/-- All that forming a label changes: entries of the table, LBLSTAT, and the count of free values. -/
theorem formLabel_ok {s t : State} {b : Bool} {l : Label} {w : LabelWord} (h : s.formLabel b l = .ok (w, t)) :
    ∃ extra st n, t = { s with
      core := { s.core with lblstat := st }
      ctx := { s.ctx with world := { s.ctx.world with table := s.ctx.world.table ++ extra } }
      fresh := n } := by
  unfold State.formLabel at h
  split at h
  · cases h
  · cases h
  · rename_i w' world d hf
    obtain ⟨extra, rfl⟩ := form_ok hf
    dsimp only at h
    split at h
    · cases h; exact ⟨extra, _, s.fresh, rfl⟩
    · cases h; exact ⟨extra, _, s.fresh + 1, rfl⟩

theorem formConj_ok {s t : State} {ws : List LabelWord} {w : LabelWord} (h : s.formConj ws = .ok (w, t)) :
    ∃ extra st n, t = { s with
      core := { s.core with lblstat := st }
      ctx := { s.ctx with world := { s.ctx.world with table := s.ctx.world.table ++ extra } }
      fresh := n } := formLabel_ok h

/-- The only ends of forming a label without a label are the traps LBLOVF and LBLTAB. -/
theorem formLabel_error {s : State} {b : Bool} {l : Label} {e : Stop} (h : s.formLabel b l = .error e) :
    (∃ n, e = s.trap .lblovf n 0) ∨ e = s.trap .lbltab 0 0 := by
  unfold State.formLabel at h
  split at h
  · cases h; exact .inl ⟨_, rfl⟩
  · cases h; exact .inr rfl
  · dsimp only at h
    split at h <;> cases h

/-- A result in an x register: nothing for x0, else the register and its label word. -/
theorem setX_ok {s t : State} {d : Nat} {v : Word} {ws : List LabelWord} (h : s.setX d v ws = .ok t) :
    (d = 0 ∧ t = s) ∨ (d ≠ 0 ∧ ∃ w u, s.formConj ws = .ok (w, u) ∧ t = u.wrX d v w) := by
  unfold State.setX at h
  split at h
  · cases h; exact .inl ⟨‹_›, rfl⟩
  · split at h
    · cases h
    · rename_i hf
      cases h
      exact .inr ⟨‹_›, _, _, hf, rfl⟩

theorem setX_of_form {s u : State} {d : Nat} {v : Word} {ws : List LabelWord} {w : LabelWord} (hd : d ≠ 0)
    (h : s.formConj ws = .ok (w, u)) : s.setX d v ws = .ok (u.wrX d v w) := by
  unfold State.setX; rw [if_neg hd, h]

@[simp] theorem setX_zero (s : State) (v : Word) (ws : List LabelWord) : s.setX 0 v ws = .ok s := rfl

theorem setF_of_form {s u : State} {d : Nat} {v : Half} {ws : List LabelWord} {w : LabelWord}
    (h : s.formConj ws = .ok (w, u)) : s.setF d v ws = .ok (u.wrF d v w) := by
  unfold State.setF; rw [h]

theorem setV_of_form {s u : State} {d : Nat} {v : VWord} {ws : List LabelWord} {w : LabelWord}
    (h : s.formConj ws = .ok (w, u)) : s.setV d v ws = .ok (u.wrV d v w) := by
  unfold State.setV; rw [h]

theorem setP_of_form {s u : State} {d : Nat} {v : Word} {ws : List LabelWord} {w : LabelWord} (hd : d ≠ 0)
    (h : s.formConj ws = .ok (w, u)) : s.setP d v ws = .ok (u.wrP d v w) := by
  unfold State.setP; rw [if_neg hd, h]

/-- The Class rule passes or traps LBLCTL. -/
theorem classRule_cases (s : State) (ws : List LabelWord) :
    (s.classRule ws = .ok () ∧ ¬(s.srcCfg.strict = true ∧ classOf s.ctx.world.nogoods (s.conjOf ws) = .cond)) ∨
      ((s.srcCfg.strict = true ∧ classOf s.ctx.world.nogoods (s.conjOf ws) = .cond) ∧
        ∃ n, s.classRule ws = .error (s.trap .lblctl n 0)) := by
  unfold State.classRule
  split
  · exact .inr ⟨‹_›, _, rfl⟩
  · exact .inl ⟨rfl, ‹_›⟩

end Sys2Proof.Machine
end

