-- ==== Sys2Proof/Laws/Access.lean ====
section
/-! SUPPORT. What the shared operations of an access can do (R130, R159, R409 to R419): translation changes only which
translations are held, the checks and the way a line is found change only the device, and every store keeps memory in its
canonical form. -/

namespace Sys2Proof.Machine

set_option Elab.async false

/-! ### States that differ in the translations held alone -/

/-- But for held translations and the count of free values drawn, `t` is `s`. -/
structure TlbOnly (s t : State) : Prop where
  core : t.core = s.core
  focus : t.focus = s.focus
  others : t.others = s.others
  agenda : t.agenda = s.agenda
  dev : t.dev = s.dev
  ctx : { t.ctx with clusters := s.ctx.clusters } = s.ctx
  cluster : ∀ cl, { t.cluster cl with
    tlb := (s.cluster cl).tlb, first := (s.cluster cl).first, walks := (s.cluster cl).walks } = s.cluster cl

theorem TlbOnly.refl (s : State) : TlbOnly s s := ⟨rfl, rfl, rfl, rfl, rfl, rfl, fun _ => rfl⟩

theorem TlbOnly.trans {s t u : State} (h : TlbOnly s t) (k : TlbOnly t u) : TlbOnly s u where
  core := k.core.trans h.core
  focus := k.focus.trans h.focus
  others := k.others.trans h.others
  agenda := k.agenda.trans h.agenda
  dev := k.dev.trans h.dev
  ctx := by rw [← h.ctx, ← k.ctx]
  cluster cl := by rw [← h.cluster cl, ← k.cluster cl]

theorem TlbOnly.drawn (s : State) : TlbOnly s s.drawn := ⟨rfl, rfl, rfl, rfl, rfl, rfl, fun _ => rfl⟩

@[simp] theorem State.cluster_mapCluster_same (s : State) (cl : Nat) (f : Cluster → Cluster) :
    (s.mapCluster cl f).cluster cl = f (s.cluster cl) := by
  simp [State.cluster, State.mapCluster, modifyAt, lookupD]

theorem State.cluster_mapCluster_other (s : State) {cl j : Nat} (f : Cluster → Cluster) (h : j ≠ cl) :
    (s.mapCluster cl f).cluster j = s.cluster j := by
  simp [State.cluster, State.mapCluster, modifyAt, lookupD, lookup_insertAt_other _ _ h]

/-- A change of one cluster that touches only held translations. -/
theorem TlbOnly.mapCluster (s : State) (cl : Nat) (f : Cluster → Cluster)
    (h : ∀ k, { f k with tlb := k.tlb, first := k.first, walks := k.walks } = k) : TlbOnly s (s.mapCluster cl f) where
  core := rfl
  focus := rfl
  others := rfl
  agenda := rfl
  dev := rfl
  ctx := rfl
  cluster j := by
    by_cases e : j = cl
    · subst e
      rw [State.cluster_mapCluster_same]
      exact h _
    · rw [State.cluster_mapCluster_other s f e]

/-! ### Translation (check 2 of R159) -/

theorem readEntry_only (s : State) (a : Agent) (va : Word) (lvl loc : Nat) : TlbOnly s (s.readEntry a va lvl loc).2 := by
  unfold State.readEntry
  simp only
  split
  · exact TlbOnly.refl s
  · exact TlbOnly.drawn s

theorem walkFrom_only (a : Agent) (va : Word) (fuel : Nat) :
    ∀ (s : State) (lvl table : Nat), TlbOnly s (s.walkFrom a va fuel lvl table).2 := by
  induction fuel with
  | zero => intro s lvl table; exact TlbOnly.refl s
  | succ n ih =>
    intro s lvl table
    rw [State.walkFrom.eq_2]
    split
    · exact TlbOnly.refl s
    · rename_i loc _
      split
      · exact TlbOnly.refl s
      · have hr := readEntry_only s a va lvl loc
        generalize s.readEntry a va lvl loc = r at hr
        obtain ⟨e, u⟩ := r
        simp only
        split
        · split <;> exact hr
        · split
          · exact (hr.trans (TlbOnly.mapCluster u a.cl
              (fun k => { k with walks := insertAt (walkKey va lvl) e k.walks }) fun _ => rfl)).trans (ih _ _ _)
          · exact hr

theorem Cluster.hold_only (a : Agent) (va : Word) (f : Leaf) (n : Nat) (k : Cluster) :
    { k.hold a va f n with tlb := k.tlb, first := k.first, walks := k.walks } = k := rfl

theorem holdLeaf_only (s : State) (a : Agent) (va : Word) (f : Leaf) : TlbOnly s (s.holdLeaf a va f) := by
  unfold State.holdLeaf
  have h (t : State) (n : Nat) : TlbOnly t (t.mapCluster a.cl (·.hold a va f n)) :=
    TlbOnly.mapCluster t a.cl (fun k => k.hold a va f n) (Cluster.hold_only a va f n)
  simp only
  split
  · exact (TlbOnly.drawn s).trans (h _ _)
  · exact h _ _

theorem Cluster.forget_only (a : Agent) (va : Word) (k : Cluster) :
    { k.forget a va with tlb := k.tlb, first := k.first, walks := k.walks } = k := rfl

/-- The end of leafFor, from the walk's outcome. -/
theorem leafFor_rest (u : State) (a : Agent) (va : Word) (w : Except WalkFail Leaf) (olds : List Leaf) (n : Nat) :
    TlbOnly u (match olds[n]? with
      | some g => ((.ok g : Except WalkFail Leaf), u.drawn)
      | none =>
        let v := if olds.isEmpty then u else u.drawn
        match w with
        | .ok f => (.ok f, v.holdLeaf a va f)
        | .error e => (.error e, v.mapCluster a.cl (·.forget a va))).2 := by
  have hu : TlbOnly u (if olds.isEmpty then u else u.drawn) := by
    split
    · exact TlbOnly.refl u
    · exact TlbOnly.drawn u
  split
  · exact TlbOnly.drawn u
  · cases w with
    | ok f => exact hu.trans (holdLeaf_only _ a va f)
    | error e => exact hu.trans (TlbOnly.mapCluster _ _ (fun k => k.forget a va) (Cluster.forget_only a va))

theorem leafFor_only (s : State) (a : Agent) (va : Word) : TlbOnly s (s.leafFor a va).2 := by
  unfold State.leafFor
  have hw := walkFrom_only a va 3 s 1 s.ctx.desc.troot
  simp only
  generalize s.walkFrom a va 3 1 s.ctx.desc.troot = r at hw
  obtain ⟨w, u⟩ := r
  exact hw.trans (leafFor_rest u a va w _ _)

/-- Translation changes held translations alone. -/
theorem translate_only {s t : State} {a : Agent} {acc : Access} {va : Word} {p : Place}
    (h : s.translate a acc va = .ok (p, t)) : TlbOnly s t := by
  unfold State.translate at h
  simp only at h
  split at h
  · split at h
    · cases h; exact TlbOnly.refl s
    · cases h
  · split at h
    · cases h
    · have hl := leafFor_only s a va
      split at h
      · cases h
      · cases h
      · rename_i heq
        rw [heq] at hl
        generalize Leaf.pa _ + BitVec.toNat va % _ = pa at h
        split at h
        · cases h
        · split at h
          · cases h
          · cases h; exact hl

theorem translateAll_only (a : Agent) (acc : Access) (vas : List Word) :
    ∀ {s t : State} {ps : List Place}, s.translateAll a acc vas = .ok (ps, t) → TlbOnly s t := by
  induction vas with
  | nil => intro s t ps h; cases h; exact TlbOnly.refl s
  | cons va vas ih =>
    intro s t ps h
    unfold State.translateAll at h
    split at h
    · cases h
    · rename_i p u hp
      split at h
      · cases h
      · rename_i qs v hq
        cases h
        exact (translate_only hp).trans (ih hq)

/-- A place that a translation gives carries the address asked for. -/
theorem translate_va {s t : State} {a : Agent} {acc : Access} {va : Word} {p : Place}
    (h : s.translate a acc va = .ok (p, t)) : p.va = va := by
  unfold State.translate at h
  simp only at h
  split at h
  · split at h
    · cases h; rfl
    · cases h
  · split at h
    · cases h
    · split at h
      · cases h
      · cases h
      · generalize Leaf.pa _ + BitVec.toNat va % _ = pa at h
        split at h
        · cases h
        · split at h
          · cases h
          · cases h; rfl

/-! ### States that differ in held translations and in the device -/

/-- But for the device, held translations and the count of free values drawn, `t` is `s`. -/
structure DevOnly (s t : State) : Prop where
  core : t.core = s.core
  focus : t.focus = s.focus
  others : t.others = s.others
  agenda : t.agenda = s.agenda
  ctx : { t.ctx with clusters := s.ctx.clusters } = s.ctx
  cluster : ∀ cl, { t.cluster cl with
    tlb := (s.cluster cl).tlb, first := (s.cluster cl).first, walks := (s.cluster cl).walks } = s.cluster cl

theorem DevOnly.refl (s : State) : DevOnly s s := ⟨rfl, rfl, rfl, rfl, rfl, fun _ => rfl⟩

theorem DevOnly.trans {s t u : State} (h : DevOnly s t) (k : DevOnly t u) : DevOnly s u where
  core := k.core.trans h.core
  focus := k.focus.trans h.focus
  others := k.others.trans h.others
  agenda := k.agenda.trans h.agenda
  ctx := by rw [← h.ctx, ← k.ctx]
  cluster cl := by rw [← h.cluster cl, ← k.cluster cl]

theorem TlbOnly.devOnly {s t : State} (h : TlbOnly s t) : DevOnly s t :=
  ⟨h.core, h.focus, h.others, h.agenda, h.ctx, h.cluster⟩

theorem DevOnly.mapDev (s : State) (f : Device → Device) : DevOnly s (s.mapDev f) :=
  ⟨rfl, rfl, rfl, rfl, rfl, fun _ => rfl⟩

theorem DevOnly.drawn (s : State) : DevOnly s s.drawn := (TlbOnly.drawn s).devOnly

/-! ### How a line is found (check 4 of R159, R419) -/

/-- Check 4 passes exactly where no held line has the other format (R140). -/
theorem tagCheck_ok (s : State) (a : Agent) (acc : Access) (p : Place) :
    s.tagCheck a acc p = .ok () ↔
      ∀ h, lookup s.dev.held (lineOf p.loc) = some h → p.ls.isSome = true ∨ h.cmp = p.cmp := by
  unfold State.tagCheck
  split
  · rename_i hl
    simp [hl]
  · rename_i h hl
    simp only [hl, Option.some.injEq, forall_eq']
    split
    · rename_i c; simpa using c
    · rename_i c; simpa using c

theorem settle_dev (s : State) (who : Writer) (p : Place) : DevOnly s (s.settle who p) := by
  unfold State.settle
  simp only
  split
  · exact ((DevOnly.drawn s).trans (DevOnly.mapDev _ _)).trans (DevOnly.mapDev _ _)
  · exact DevOnly.mapDev _ _

theorem settle_wf (s : State) (who : Writer) (p : Place) (h : Memory.wf s.dev.mem) :
    Memory.wf (s.settle who p).dev.mem := by
  unfold State.settle
  simp only
  split
  · simp only [State.mapDev_dev, Device.meet_mem]
    exact pokeBytes_wf _ _ _ h
  · simpa using h

/-- A line that is held, lies in a local store, or has the format of its page is found as it is, where no write waits at
it. -/
theorem settle_same (s : State) (who : Writer) (p : Place)
    (h : p.ls.isSome = true ∨ s.dev.packed.contains (lineOf p.loc) = p.cmp)
    (hf : s.dev.meet (lineOf p.loc) who = s.dev) : s.settle who p = s := by
  unfold State.settle
  simp only
  split
  · rename_i c
    rcases h with h | h
    · simp [Option.isNone_iff_eq_none] at c
      obtain ⟨⟨c, _⟩, _⟩ := c
      rw [c] at h
      cases h
    · simp at c
      exact absurd (by simpa using h) c.2
  · simp only [State.mapDev, hf]

theorem foundAll_dev (a : Agent) (ps : List Place) : ∀ s : State, DevOnly s (ps.foldl (·.found a ·) s) := by
  induction ps with
  | nil => intro s; exact DevOnly.refl s
  | cons p ps ih => intro s; exact (settle_dev s _ p).trans (ih _)

theorem foundAll_wf (a : Agent) (ps : List Place) :
    ∀ s : State, Memory.wf s.dev.mem → Memory.wf (ps.foldl (·.found a ·) s).dev.mem := by
  induction ps with
  | nil => intro s h; exact h
  | cons p ps ih => intro s h; exact ih _ (settle_wf s _ p h)

/-! ### Checks 1 to 5 -/

/-- What checks 1 to 5 find when they pass. -/
theorem resolve_ok {s t : State} {acc : Access} {n align : Nat} {vas : List Word} {ps : List Place}
    (h : s.resolve acc n align vas = .ok (ps, t)) :
    ∃ u, alignAll acc align vas = .ok () ∧ s.translateAll s.me acc vas = .ok (ps, u) ∧ permAll s.me acc ps = .ok () ∧
      u.tagAll s.me acc ps = .ok () ∧ rangeAll s.myCluster.locks n acc.writes ps = .ok () ∧
      t = ps.foldl (·.found s.me ·) u := by
  unfold State.resolve at h
  obtain ⟨_, h1, h⟩ := bind_ok h
  obtain ⟨⟨qs, u⟩, h2, h⟩ := bind_ok h
  obtain ⟨_, h3, h⟩ := bind_ok h
  obtain ⟨_, h4, h⟩ := bind_ok h
  obtain ⟨_, h5, h⟩ := bind_ok h
  cases h
  exact ⟨u, check_eq_ok h1, check_eq_ok h2, check_eq_ok h3, check_eq_ok h4, check_eq_ok h5, rfl⟩

theorem resolve_dev {s t : State} {acc : Access} {n align : Nat} {vas : List Word} {ps : List Place}
    (h : s.resolve acc n align vas = .ok (ps, t)) : DevOnly s t := by
  obtain ⟨u, -, h2, -, -, -, rfl⟩ := resolve_ok h
  exact (translateAll_only _ _ _ h2).devOnly.trans (foundAll_dev _ _ _)

theorem resolve_wf {s t : State} {acc : Access} {n align : Nat} {vas : List Word} {ps : List Place}
    (h : s.resolve acc n align vas = .ok (ps, t)) (hw : Memory.wf s.dev.mem) : Memory.wf t.dev.mem := by
  obtain ⟨u, -, h2, -, -, -, rfl⟩ := resolve_ok h
  apply foundAll_wf
  rw [(translateAll_only _ _ _ h2).dev]
  exact hw

/-! ### Loads -/

@[simp] theorem Device.leaseLine_mem (d : Device) (line : Nat) (r : PoolDesc) (cmp : Bool) (g : Option Nat) :
    (d.leaseLine line r cmp g).mem = d.mem := by
  unfold Device.leaseLine
  simp only
  split
  · rfl
  · split <;> rfl

theorem makeRoom_dev (s : State) : DevOnly s s.makeRoom ∧ s.makeRoom.dev.mem = s.dev.mem := by
  unfold State.makeRoom
  split
  · exact ⟨DevOnly.refl s, rfl⟩
  · simp only
    split
    · exact ⟨DevOnly.refl s, rfl⟩
    · exact ⟨(DevOnly.drawn s).trans (DevOnly.mapDev _ _), rfl⟩

theorem cacheLine_dev (s : State) (p : Place) : DevOnly s (s.cacheLine p) ∧ (s.cacheLine p).dev.mem = s.dev.mem := by
  unfold State.cacheLine
  split
  · split
    · exact ⟨((makeRoom_dev s).1.trans (DevOnly.drawn _)).trans (DevOnly.mapDev _ _), by simp [(makeRoom_dev s).2]⟩
    · exact ⟨DevOnly.refl s, rfl⟩
  · split
    · exact ⟨(makeRoom_dev s).1.trans (DevOnly.mapDev _ _), (makeRoom_dev s).2⟩
    · exact ⟨DevOnly.refl s, rfl⟩

theorem cacheAll_dev (ps : List Place) :
    ∀ s : State, DevOnly s (ps.foldl State.cacheLine s) ∧ (ps.foldl State.cacheLine s).dev.mem = s.dev.mem := by
  induction ps with
  | nil => intro s; exact ⟨DevOnly.refl s, rfl⟩
  | cons p ps ih =>
    intro s
    have h1 := cacheLine_dev s p
    have h2 := ih (s.cacheLine p)
    exact ⟨h1.1.trans h2.1, h2.2.trans h1.2⟩

/-- What a load of elements answers, and that memory is left as the checks find it. -/
theorem loadAll_ok {s t : State} {n align : Nat} {vas : List Word} {els : List (Nat × LabelWord)}
    (h : s.loadAll n align vas = .ok (els, t)) :
    ∃ ps u, s.resolve .read n align vas = .ok (ps, u) ∧ u.poisonAll s.me .read ps = .ok () ∧
      els = ps.map (fun p => (u.dev.num p.loc n, u.lineWord p)) ∧ t = ps.foldl State.cacheLine u := by
  unfold State.loadAll at h
  obtain ⟨⟨ps, u⟩, h1, h⟩ := bind_ok h
  obtain ⟨_, h2, h⟩ := bind_ok h
  cases h
  exact ⟨ps, u, h1, check_eq_ok h2, rfl, rfl⟩

theorem loadAll_dev {s t : State} {n align : Nat} {vas : List Word} {els : List (Nat × LabelWord)}
    (h : s.loadAll n align vas = .ok (els, t)) : DevOnly s t := by
  obtain ⟨ps, u, h1, -, -, rfl⟩ := loadAll_ok h
  exact (resolve_dev h1).trans (cacheAll_dev _ _).1

theorem loadAll_wf {s t : State} {n align : Nat} {vas : List Word} {els : List (Nat × LabelWord)}
    (h : s.loadAll n align vas = .ok (els, t)) (hw : Memory.wf s.dev.mem) : Memory.wf t.dev.mem := by
  obtain ⟨ps, u, h1, -, -, rfl⟩ := loadAll_ok h
  rw [(cacheAll_dev _ _).2]
  exact resolve_wf h1 hw

/-! ### States that differ in labels too -/

/-- But for the device, held translations, label handles entered, LBLSTAT and the count of free values, `t` is `s`. -/
structure AccessOnly (s t : State) : Prop where
  core : { t.core with lblstat := s.core.lblstat } = s.core
  focus : t.focus = s.focus
  others : t.others = s.others
  agenda : t.agenda = s.agenda
  ctx : { t.ctx with clusters := s.ctx.clusters, world := s.ctx.world } = s.ctx
  world : ∃ extra, t.ctx.world = { s.ctx.world with table := s.ctx.world.table ++ extra }
  cluster : ∀ cl, { t.cluster cl with
    tlb := (s.cluster cl).tlb, first := (s.cluster cl).first, walks := (s.cluster cl).walks } = s.cluster cl

theorem DevOnly.accessOnly {s t : State} (h : DevOnly s t) : AccessOnly s t where
  core := by rw [h.core]
  focus := h.focus
  others := h.others
  agenda := h.agenda
  ctx := by
    have := h.ctx
    rw [← this]
  world := ⟨[], by
    have := congrArg Context.world h.ctx
    simp only at this
    rw [this]
    simp⟩
  cluster := h.cluster

theorem AccessOnly.refl (s : State) : AccessOnly s s := (DevOnly.refl s).accessOnly

theorem AccessOnly.trans {s t u : State} (h : AccessOnly s t) (k : AccessOnly t u) : AccessOnly s u where
  core := by rw [← h.core, ← k.core]
  focus := k.focus.trans h.focus
  others := k.others.trans h.others
  agenda := k.agenda.trans h.agenda
  ctx := by rw [← h.ctx, ← k.ctx]
  world := by
    obtain ⟨x, hx⟩ := h.world
    obtain ⟨y, hy⟩ := k.world
    exact ⟨x ++ y, by rw [hy, hx]; simp [List.append_assoc]⟩
  cluster cl := by rw [← h.cluster cl, ← k.cluster cl]

/-- Forming a label leaves the device. -/
theorem formLabel_dev {s t : State} {b : Bool} {l : Label} {w : LabelWord} (h : s.formLabel b l = .ok (w, t)) :
    t.dev = s.dev := by
  obtain ⟨_, _, _, rfl⟩ := formLabel_ok h
  rfl

theorem formLabel_only {s t : State} {b : Bool} {l : Label} {w : LabelWord} (h : s.formLabel b l = .ok (w, t)) :
    AccessOnly s t := by
  obtain ⟨extra, _, _, rfl⟩ := formLabel_ok h
  exact ⟨rfl, rfl, rfl, rfl, rfl, ⟨extra, rfl⟩, fun _ => rfl⟩

theorem formConj_only {s t : State} {ws : List LabelWord} {w : LabelWord} (h : s.formConj ws = .ok (w, t)) :
    AccessOnly s t ∧ t.dev = s.dev := ⟨formLabel_only h, formLabel_dev h⟩

/-! ### Stores (R161, R164, R165) -/

theorem beforeWrite_dev (s : State) (p : Place) : DevOnly s (s.beforeWrite p) ∧ (s.beforeWrite p).dev.mem = s.dev.mem := by
  unfold State.beforeWrite
  split
  · split
    · exact ⟨DevOnly.mapDev _ _, rfl⟩
    · exact ⟨(makeRoom_dev s).1.trans (DevOnly.mapDev _ _), (makeRoom_dev s).2⟩
  · exact ⟨DevOnly.mapDev _ _, rfl⟩

/-- The write label of a store: its word, and the label that the word names; only labels change. -/
theorem writeLabel_ok {s t : State} {ws : List LabelWord} {w : LabelWord} {l : Label} (h : s.writeLabel ws = .ok (w, l, t)) :
    AccessOnly s t ∧ t.dev = s.dev ∧ s.formConj ws = .ok (w, t) ∧ l = t.eval w := by
  unfold State.writeLabel at h
  split at h
  · cases h
  · rename_i hf
    cases h
    exact ⟨formLabel_only hf, formLabel_dev hf, hf, rfl⟩

theorem partialWord_ok {s t : State} {p : Place} {nl : Label} {w : LabelWord}
    (h : s.partialWord p nl = .ok (w, t)) : AccessOnly s t ∧ t.dev = s.dev := by
  unfold State.partialWord at h
  simp only at h
  split at h
  · cases h; exact ⟨AccessOnly.refl _, rfl⟩
  · split at h
    · cases h
    · rename_i w' u hf
      cases h
      exact ⟨formLabel_only hf, formLabel_dev hf⟩

/-- The label word of a line set: of memory, only its bytes change, and none on a page without LT. -/
theorem putPartialLabel_ok {s t : State} {p : Place} {nl : Label} (h : s.putPartialLabel p nl = .ok t) :
    AccessOnly s t ∧ (p.lt = false → t = s) ∧ (Memory.wf s.dev.mem → Memory.wf t.dev.mem) ∧
      ∀ a, (a < labelLoc (lineOf p.loc) ∨ labelLoc (lineOf p.loc) + 4 ≤ a) → t.dev.byte a = s.dev.byte a := by
  unfold State.putPartialLabel at h
  split at h
  · split at h
    · cases h
    · rename_i hl _ w u hf
      cases h
      obtain ⟨h1, h2⟩ := partialWord_ok hf
      refine ⟨h1.trans (DevOnly.mapDev u _).accessOnly, ?_, ?_, ?_⟩
      · intro hn; rw [hl] at hn; cases hn
      · intro hw
        simp only [State.mapDev_dev]
        rw [h2]
        exact Device.setRawLabel_wf _ _ _ hw
      · intro a ha
        simp only [State.mapDev_dev]
        rw [h2]
        exact Device.poke_byte_other _ _ _ _ (by simpa using ha)
  · cases h
    exact ⟨AccessOnly.refl _, fun _ => rfl, fun hw => hw, fun _ _ => rfl⟩

/-- Partial writes change only the device, labels, and of memory only what they store, with the lines' label words. -/
theorem writeEach_ok (nl : Label) (els : List (Place × List Byte)) :
    ∀ {s t : State}, s.writeEach nl els = .ok t →
      AccessOnly s t ∧ (Memory.wf s.dev.mem → Memory.wf t.dev.mem) ∧
        ∀ a, (∀ e ∈ els, (a < e.1.loc ∨ e.1.loc + e.2.length ≤ a) ∧
            (e.1.lt = false ∨ a < labelLoc (lineOf e.1.loc) ∨ labelLoc (lineOf e.1.loc) + 4 ≤ a)) →
          t.dev.byte a = s.dev.byte a := by
  induction els with
  | nil => intro s t h; cases h; exact ⟨AccessOnly.refl _, fun hw => hw, fun _ _ => rfl⟩
  | cons e els ih =>
    obtain ⟨p, bs⟩ := e
    intro s t h
    unfold State.writeEach at h
    split at h
    · cases h
    · rename_i u hu
      obtain ⟨b1, b2⟩ := beforeWrite_dev s p
      obtain ⟨l1, l2, l3, l4⟩ := putPartialLabel_ok hu
      obtain ⟨r1, r2, r3⟩ := ih h
      refine ⟨((b1.accessOnly.trans l1).trans (DevOnly.mapDev u _).accessOnly).trans r1, ?_, ?_⟩
      · intro hw
        apply r2
        exact Device.store_wf _ _ _ _ (l3 (by rw [b2]; exact hw))
      · intro a ha
        have hp := ha (p, bs) (by simp)
        rw [r3 a fun e he => ha e (by simp [he])]
        simp only [State.mapDev_dev]
        rw [Device.store_byte_other _ _ _ _ _ hp.1]
        have hb : (s.beforeWrite p).dev.byte a = s.dev.byte a := by simp only [Device.byte, b2]
        rcases hp.2 with h0 | h0
        · rw [l2 h0]; exact hb
        · rw [l4 a h0]; exact hb

/-- What a store of elements does (checks 1 to 8 of R159, then R161). -/
theorem storeAll_ok {s t : State} {ws : List LabelWord} {n align : Nat} {els : List (Word × List Byte)}
    (h : s.storeAll ws n align els = .ok t) :
    ∃ ps u v w nl, s.resolve .write n align (els.map Prod.fst) = .ok (ps, u) ∧ u.writeLabel ws = .ok (w, nl, v) ∧
      v.pageLabelCheck nl (lwHandle w) ps = .ok () ∧ v.poisonAll s.me .write ps = .ok () ∧
      v.writeEach nl (ps.zip (els.map Prod.snd)) = .ok t := by
  unfold State.storeAll at h
  obtain ⟨⟨ps, u⟩, h1, h⟩ := bind_ok h
  obtain ⟨⟨w, nl, v⟩, h2, h⟩ := bind_ok h
  obtain ⟨_, _, h⟩ := bind_ok h
  obtain ⟨_, h4, h⟩ := bind_ok h
  obtain ⟨_, h5, h⟩ := bind_ok h
  exact ⟨ps, u, v, w, nl, h1, h2, h4, check_eq_ok h5, h⟩

theorem storeAll_only {s t : State} {ws : List LabelWord} {n align : Nat} {els : List (Word × List Byte)}
    (h : s.storeAll ws n align els = .ok t) : AccessOnly s t ∧ (Memory.wf s.dev.mem → Memory.wf t.dev.mem) := by
  obtain ⟨ps, u, v, w, nl, h1, h2, -, -, h5⟩ := storeAll_ok h
  obtain ⟨l1, l2, -⟩ := writeLabel_ok h2
  obtain ⟨w1, w2, -⟩ := writeEach_ok _ _ h5
  refine ⟨((resolve_dev h1).accessOnly.trans l1).trans w1, fun hw => w2 ?_⟩
  rw [l2]
  exact resolve_wf h1 hw

/-- What a store of a whole line does (R164). -/
theorem storeLine_only {s t : State} {ws : List LabelWord} {va : Word} {x : VWord} (h : s.storeLine ws va x = .ok t) :
    AccessOnly s t ∧ (Memory.wf s.dev.mem → Memory.wf t.dev.mem) := by
  unfold State.storeLine at h
  obtain ⟨⟨ps, u⟩, h1, h⟩ := bind_ok h
  obtain ⟨⟨w, v⟩, h2, h⟩ := bind_ok h
  obtain ⟨_, _, h⟩ := bind_ok h
  obtain ⟨p, _, h⟩ := bind_ok h
  obtain ⟨_, _, h⟩ := bind_ok h
  cases h
  obtain ⟨l1, l2⟩ := formConj_only h2
  obtain ⟨b1, b2⟩ := beforeWrite_dev v p
  have base := ((resolve_dev h1).accessOnly.trans l1).trans b1.accessOnly
  refine ⟨?_, fun hw => ?_⟩
  · split
    · exact ((base.trans (DevOnly.mapDev _ _).accessOnly).trans (DevOnly.mapDev _ _).accessOnly).trans
        (DevOnly.mapDev _ _).accessOnly
    · exact (base.trans (DevOnly.mapDev _ _).accessOnly).trans (DevOnly.mapDev _ _).accessOnly
  · have hm : Memory.wf (v.beforeWrite p).dev.mem := by
      rw [b2, l2]
      exact resolve_wf h1 hw
    simp only [State.mapDev_dev]
    apply Device.store_wf
    split
    · exact Device.setRawLabel_wf _ _ _ hm
    · exact hm

/-! ### Accesses of engines and firmware -/

theorem enginePlace_ok {s t : State} {a : Agent} {acc : Access} {va : Word} {p : Place}
    (h : s.enginePlace a acc va = .ok (p, t)) : DevOnly s t ∧ (Memory.wf s.dev.mem → Memory.wf t.dev.mem) := by
  unfold State.enginePlace at h
  obtain ⟨⟨q, u⟩, h1, h⟩ := bind_ok h
  obtain ⟨_, _, h⟩ := bind_ok h
  obtain ⟨_, _, h⟩ := bind_ok h
  cases h
  have o := translate_only h1
  refine ⟨o.devOnly.trans (settle_dev _ _ _), fun hw => settle_wf _ _ _ ?_⟩
  rw [o.dev]
  exact hw

theorem engineRead_ok {s t : State} {a : Agent} {va : Word} {n v : Nat} {w : LabelWord}
    (h : s.engineRead a va n = .ok (v, w, t)) : DevOnly s t ∧ (Memory.wf s.dev.mem → Memory.wf t.dev.mem) := by
  unfold State.engineRead at h
  obtain ⟨⟨p, u⟩, h1, h⟩ := bind_ok h
  obtain ⟨_, _, h⟩ := bind_ok h
  cases h
  exact enginePlace_ok h1

theorem engineBytes_ok (s : State) (a : Agent) (p : Place) (bs : List Byte) :
    DevOnly s (s.engineBytes a p bs) ∧ (Memory.wf s.dev.mem → Memory.wf (s.engineBytes a p bs).dev.mem) :=
  ⟨DevOnly.mapDev _ _, fun hw => Device.store_wf _ _ _ _ hw⟩

theorem topPartial_ok (s : State) (p : Place) :
    DevOnly s (s.topPartial p) ∧ (Memory.wf s.dev.mem → Memory.wf (s.topPartial p).dev.mem) := by
  unfold State.topPartial
  simp only
  split
  · split
    · exact ⟨DevOnly.refl s, fun hw => hw⟩
    · exact ⟨DevOnly.mapDev _ _, fun hw => Device.setRawLabel_wf _ _ _ hw⟩
  · exact ⟨DevOnly.refl s, fun hw => hw⟩

theorem engineWrite_ok {s t : State} {a : Agent} {va : Word} {bs : List Byte} (h : s.engineWrite a va bs = .ok t) :
    DevOnly s t ∧ (Memory.wf s.dev.mem → Memory.wf t.dev.mem) := by
  unfold State.engineWrite at h
  obtain ⟨⟨p, u⟩, h1, h⟩ := bind_ok h
  obtain ⟨_, _, h⟩ := bind_ok h
  cases h
  obtain ⟨e1, e2⟩ := enginePlace_ok h1
  obtain ⟨t1, t2⟩ := topPartial_ok u p
  obtain ⟨b1, b2⟩ := engineBytes_ok (u.topPartial p) a p bs
  exact ⟨(e1.trans t1).trans b1, fun hw => b2 (t2 (e2 hw))⟩

/-- Counting a failed access leaves memory. -/
@[simp] theorem Device.cxlError_mem (d : Device) (locs : List Nat) : (d.cxlError locs).mem = d.mem := by
  unfold Device.cxlError
  simp only
  split <;> rfl

theorem noteError_only (s : State) (a : Agent) (c : Cause) (va : Word) :
    DevOnly s (s.noteError a c va) ∧ (s.noteError a c va).dev.mem = s.dev.mem := by
  unfold State.noteError
  split
  · split
    · exact ⟨DevOnly.mapDev _ _, by simp⟩
    · exact ⟨DevOnly.refl s, rfl⟩
  · exact ⟨DevOnly.refl s, rfl⟩

theorem noteDeny_ok (s : State) (a : Agent) (d : Deny) :
    DevOnly s (s.noteDeny a d) ∧ (Memory.wf s.dev.mem → Memory.wf (s.noteDeny a d).dev.mem) := by
  obtain ⟨h1, h2⟩ := noteError_only s a d.cause d.addr
  exact ⟨h1, fun hw => by unfold State.noteDeny; rw [h2]; exact hw⟩

theorem statusPut_ok (s : State) (a : Agent) (va : Word) (bs : List Byte) :
    DevOnly s (s.statusPut a va bs) ∧ (Memory.wf s.dev.mem → Memory.wf (s.statusPut a va bs).dev.mem) := by
  unfold State.statusPut
  split
  · exact engineWrite_ok ‹_›
  · exact noteDeny_ok s a _

/-- A status word changes only the device. -/
theorem statusWrite_ok (s : State) (a : Agent) (va : Word) (bs : List Byte) :
    DevOnly s (s.statusWrite a va bs) ∧ (Memory.wf s.dev.mem → Memory.wf (s.statusWrite a va bs).dev.mem) := by
  unfold State.statusWrite
  split
  · exact ⟨DevOnly.refl s, fun hw => hw⟩
  · exact statusPut_ok s a va bs

theorem readPieces_ok (word : State → Place → LabelWord) (a : Agent) (ps : List (Word × Nat)) :
    ∀ {s t : State} {bs : List Byte} {ws : List LabelWord}, s.readPieces word a ps = .ok (bs, ws, t) →
      DevOnly s t ∧ (Memory.wf s.dev.mem → Memory.wf t.dev.mem) := by
  induction ps with
  | nil => intro s t bs ws h; cases h; exact ⟨DevOnly.refl _, fun hw => hw⟩
  | cons e ps ih =>
    obtain ⟨va, n⟩ := e
    intro s t bs ws h
    unfold State.readPieces at h
    obtain ⟨⟨p, u⟩, h1, h⟩ := bind_ok h
    obtain ⟨_, _, h⟩ := bind_ok h
    obtain ⟨⟨bs', ws', v⟩, h3, h⟩ := bind_ok h
    cases h
    obtain ⟨e1, e2⟩ := enginePlace_ok h1
    obtain ⟨r1, r2⟩ := ih h3
    exact ⟨e1.trans r1, fun hw => r2 (e2 hw)⟩

theorem readSpan_ok {s t : State} {a : Agent} {va : Word} {len : Nat} {bs : List Byte} {ws : List LabelWord}
    (h : s.readSpan a va len = .ok (bs, ws, t)) : DevOnly s t ∧ (Memory.wf s.dev.mem → Memory.wf t.dev.mem) :=
  readPieces_ok _ a _ h

/-! ### Queues, context faults, trap entry -/

@[simp] theorem State.mapQueue_dev (s : State) (qid : Nat) (f : Queue → Queue) : (s.mapQueue qid f).dev = s.dev := by
  unfold State.mapQueue
  split <;> rfl

theorem showQueue_wf (s : State) (qid : Nat) (hw : Memory.wf s.dev.mem) : Memory.wf (s.showQueue qid).dev.mem := by
  unfold State.showQueue
  split
  · exact (statusPut_ok _ _ _ _).2 hw
  · exact hw

theorem freezeQueue_wf (s : State) (qid cause : Nat) (hw : Memory.wf s.dev.mem) :
    Memory.wf (s.freezeQueue qid cause).dev.mem := by
  unfold State.freezeQueue
  split
  · exact hw
  · split
    · exact showQueue_wf _ _ (by rw [State.mapQueue_dev]; exact hw)
    · exact hw

theorem freezeAnyway_wf (s : State) (qid : Nat) (hw : Memory.wf s.dev.mem) : Memory.wf (s.freezeAnyway qid).dev.mem := by
  unfold State.freezeAnyway
  split
  · exact hw
  · split
    · exact hw
    · exact showQueue_wf _ _ (by rw [State.mapQueue_dev]; exact hw)

theorem freezeAll_wf (qids : List Nat) :
    ∀ s : State, Memory.wf s.dev.mem → Memory.wf (qids.foldl State.freezeAnyway s).dev.mem := by
  induction qids with
  | nil => intro s hw; exact hw
  | cons q qs ih => intro s hw; exact ih _ (freezeAnyway_wf s q hw)

theorem contextFault_wf (s : State) (code : Nat) (hw : Memory.wf s.dev.mem) : Memory.wf (s.contextFault code).dev.mem :=
  freezeAll_wf _ _ hw

theorem signalPacket_wf (s : State) (qid seq st code : Nat) (hw : Memory.wf s.dev.mem) :
    Memory.wf (s.signalPacket qid seq st code).dev.mem := by
  unfold State.signalPacket
  split
  · exact hw
  · split
    · exact hw
    · simp only
      split
      · exact freezeQueue_wf _ _ _ ((statusWrite_ok _ _ _ _).2 (by rw [State.mapQueue_dev]; exact hw))
      · exact (statusWrite_ok _ _ _ _).2 (by rw [State.mapQueue_dev]; exact hw)

theorem fetchPlace_ok {s t : State} {m : Mode} {va : Word} {p : Place} (h : s.fetchPlace m va = .ok (p, t)) :
    DevOnly s t ∧ t.dev.mem = s.dev.mem := by
  unfold State.fetchPlace at h
  split at h
  · cases h
  · simp only at h
    split at h
    · cases h
    · rename_i ht
      split at h
      · cases h
      · split at h
        · cases h
        · split at h
          · cases h
          · cases h
            have o := translate_only ht
            exact ⟨o.devOnly, by rw [o.dev]⟩

theorem noteTrap_only (s : State) (t : Trap) : DevOnly s (s.noteTrap t) ∧ (s.noteTrap t).dev.mem = s.dev.mem := by
  unfold State.noteTrap
  split
  · exact ⟨DevOnly.refl s, rfl⟩
  · exact noteError_only s s.me t.cause t.addr

/-- Trap entry makes the context fault where the trap entry cannot be fetched, and otherwise enters the trap, on a state of
which only the device and held translations differ (R186, R423). -/
theorem trapEntry_cases (s : State) (t : Trap) :
    (∃ d u, s.fetchPlace .s (BitVec.ofNat 64 s.ctx.desc.trapent) = .error d ∧ DevOnly s u ∧ u.dev.mem = s.dev.mem ∧
      s.trapEntry t = u.contextFault d.cause.code) ∨
    ∃ p v u, s.fetchPlace .s (BitVec.ofNat 64 s.ctx.desc.trapent) = .ok (p, v) ∧ DevOnly s u ∧ u.dev.mem = s.dev.mem ∧
      s.trapEntry t = u.mapCore fun c => c.enterTrap t (BitVec.ofNat 64 s.ctx.desc.trapent) := by
  unfold State.trapEntry
  split
  · rename_i d hf
    obtain ⟨n1, n2⟩ := noteTrap_only s t
    obtain ⟨m1, m2⟩ := noteError_only (s.noteTrap t) s.me d.cause d.addr
    exact .inl ⟨d, _, hf, n1.trans m1, m2.trans n2, rfl⟩
  · rename_i p v hf
    obtain ⟨f1, f2⟩ := fetchPlace_ok hf
    obtain ⟨n1, n2⟩ := noteTrap_only v t
    exact .inr ⟨p, v, _, hf, f1.trans n1, n2.trans f2, rfl⟩

theorem trapEntry_wf (s : State) (t : Trap) (hw : Memory.wf s.dev.mem) : Memory.wf (s.trapEntry t).dev.mem := by
  rcases trapEntry_cases s t with ⟨d, u, _, _, h2, h3⟩ | ⟨p, v, u, _, _, h2, h3⟩
  · rw [h3]
    exact contextFault_wf _ _ (by rw [h2]; exact hw)
  · rw [h3]
    simp only [State.mapCore_dev]
    rw [h2]
    exact hw

/-- The end of a meaning keeps memory in its canonical form if the body does. -/
theorem commit_wf {s t : State} {r : Result State} (hw : Memory.wf s.dev.mem)
    (hr : ∀ u, r = .ok u → Memory.wf u.dev.mem) (hh : ∀ u, r = .error (.hold u) → Memory.wf u.dev.mem)
    (h : commit s r = .next t) : Memory.wf t.dev.mem := by
  unfold commit at h
  split at h
  · cases h; exact hr _ rfl
  · cases h; exact trapEntry_wf _ _ hw
  · cases h; exact hw
  · rename_i u; cases h; exact hh u rfl
  · cases h
  · cases h

end Sys2Proof.Machine
end

