-- ==== Sys2Proof/Laws/Engine.lean ====
section
/-! SUPPORT. What the shared operations of engines, records and jobs do to memory (R151 to R153, R161, R162, R211, R33 to
R35, R280): counters, catch groups, range locks and cores leave it, and every write keeps its canonical form. -/

namespace Sys2Proof.Machine

set_option Elab.async false

/-! ### Operations that leave the device -/

@[simp] theorem State.mapCoreAt_dev (s : State) (cl c : Nat) (f : Core → Core) : (s.mapCoreAt cl c f).dev = s.dev := by
  unfold State.mapCoreAt
  split <;> rfl

@[simp] theorem State.mapCoreAt_focus (s : State) (cl c : Nat) (f : Core → Core) :
    (s.mapCoreAt cl c f).focus = s.focus := by
  unfold State.mapCoreAt
  split <;> rfl

@[simp] theorem State.mapCoreAt_others (s : State) (cl c : Nat) (f : Core → Core) :
    (s.mapCoreAt cl c f).others = s.others := by
  unfold State.mapCoreAt
  split <;> rfl

@[simp] theorem State.mapCluster_idleCore (s : State) (cl : Nat) (f : Cluster → Cluster) :
    (s.mapCluster cl f).ctx.idleCore = s.ctx.idleCore := rfl

/-- A core changed reads back changed, wherever it is held. -/
theorem State.coreAt_mapCoreAt_same (s : State) (cl c : Nat) (f : Core → Core) :
    (s.mapCoreAt cl c f).coreAt cl c = f (s.coreAt cl c) := by
  unfold State.mapCoreAt
  by_cases h : s.isFocus cl c = true
  · rw [if_pos h]
    have h' : (s.mapCore f).isFocus cl c = true := h
    simp only [State.coreAt, h', h, if_true, State.mapCore_core]
  · rw [if_neg h]
    have h' : ¬ (s.mapCluster cl fun k => { k with cores := modifyAt s.ctx.idleCore c f k.cores }).isFocus cl c = true := h
    simp only [State.coreAt, h', h, if_false, Bool.false_eq_true, State.mapCluster_idleCore]
    rw [State.cluster_mapCluster_same]
    simp only [modifyAt, lookupD, lookup_insertAt_same]
    rfl

/-- Another core is as before. -/
theorem State.coreAt_mapCoreAt_other (s : State) {cl c cl' c' : Nat} (f : Core → Core) (h : ¬ (cl' = cl ∧ c' = c)) :
    (s.mapCoreAt cl c f).coreAt cl' c' = s.coreAt cl' c' := by
  unfold State.mapCoreAt
  by_cases hf : s.isFocus cl c = true
  · rw [if_pos hf]
    have hn : ¬ s.isFocus cl' c' = true := by
      simp only [State.isFocus, decide_eq_true_eq] at hf ⊢
      intro k
      exact h ⟨k.1.trans hf.1.symm, k.2.trans hf.2.symm⟩
    have hn' : ¬ (s.mapCore f).isFocus cl' c' = true := hn
    simp only [State.coreAt, hn, hn', if_false, Bool.false_eq_true]
    rfl
  · rw [if_neg hf]
    unfold State.coreAt
    have hi : (s.mapCluster cl fun k => { k with cores := modifyAt s.ctx.idleCore c f k.cores }).isFocus cl' c' = s.isFocus cl' c' := rfl
    rw [hi, State.mapCluster_idleCore]
    split
    · rfl
    · by_cases e : cl' = cl
      · subst e
        rw [State.cluster_mapCluster_same]
        have : c' ≠ c := fun k => h ⟨rfl, k⟩
        simp [modifyAt, lookupD, lookup_insertAt_other _ _ this]
      · rw [State.cluster_mapCluster_other s _ e]

@[simp] theorem bumpAt_dev (s : State) (cl core k n : Nat) (err : Bool) : (s.bumpAt cl core k n err).dev = s.dev :=
  State.mapCoreAt_dev _ _ _ _

@[simp] theorem engineArrive_dev (s : State) (cl g : Nat) (m : CatchMember) (err : Bool) :
    (s.engineArrive cl g m err).dev = s.dev := rfl

@[simp] theorem unlock_dev (s : State) (cl : Nat) (ids : List Nat) : (s.unlock cl ids).dev = s.dev := rfl

/-- An access of the dispatcher noted as lost leaves memory. -/
theorem noteLink_only (s : State) (va : Word) : DevOnly s (s.noteLink va) ∧ (s.noteLink va).dev.mem = s.dev.mem := by
  unfold State.noteLink
  split
  · split
    · exact ⟨DevOnly.mapDev _ _, Device.cxlError_mem _ _⟩
    · exact ⟨DevOnly.refl s, rfl⟩
  · exact ⟨DevOnly.refl s, rfl⟩

/-- Ranges are registered in order, each under a number of its own; memory stays. -/
theorem lockRanges_ok {s t : State} {cl core : Nat} {kind : LockKind} {ranges : List (Nat × Nat × Bool)} {ids : List Nat}
    (h : s.lockRanges cl core kind ranges = some (ids, t)) :
    t.core = s.core ∧ t.focus = s.focus ∧ t.others = s.others ∧ t.dev.mem = s.dev.mem := by
  unfold State.lockRanges at h
  simp only at h
  split at h
  · cases h
  · cases h
    exact ⟨rfl, rfl, rfl, rfl⟩

/-! ### Writes of engines -/

theorem engineForm_dev {s t : State} {cl core : Nat} {l : Label} {w : LabelWord}
    (h : s.engineForm cl core l = .ok (w, t)) : t.dev = s.dev := by
  unfold State.engineForm at h
  split at h
  · cases h
  · cases h
    simp

theorem partialLabel_dev {s t : State} {cl core : Nat} {raw w : LabelWord} {fit : Label}
    (h : s.partialLabel cl core raw fit = .ok (w, t)) : t.dev = s.dev := by
  unfold State.partialLabel at h
  simp only at h
  split at h
  · cases h; rfl
  · split at h
    · cases h
    · rename_i hf
      cases h
      exact engineForm_dev hf

theorem engineFit_dev {s t : State} {cl core : Nat} {nl fit : Label} {w : LabelWord}
    (h : s.engineFit cl core nl = .ok (w, fit, t)) : t.dev = s.dev := by
  unfold State.engineFit at h
  split at h
  · cases h
  · rename_i hf
    cases h
    exact engineForm_dev hf

theorem enginePartial_wf {s t : State} {a : Agent} {core : Nat} {p : Place} {bs : List Byte} {nl : Label}
    (h : s.enginePartial a core p bs nl = .ok t) (hw : Memory.wf s.dev.mem) : Memory.wf t.dev.mem := by
  unfold State.enginePartial at h
  obtain ⟨⟨_, fit, v⟩, hf, h⟩ := bind_ok h
  have hv : Memory.wf v.dev.mem := by rw [engineFit_dev hf]; exact hw
  dsimp only at h
  split at h
  · obtain ⟨⟨w, u⟩, hl, h⟩ := bind_ok h
    obtain ⟨_, _, h⟩ := bind_ok h
    cases h
    apply (engineBytes_ok _ _ _ _).2
    simp only [State.mapDev_dev]
    rw [partialLabel_dev hl]
    exact Device.setRawLabel_wf _ _ _ hv
  · obtain ⟨_, _, h⟩ := bind_ok h
    obtain ⟨_, _, h⟩ := bind_ok h
    cases h
    exact (engineBytes_ok _ _ _ _).2 hv

theorem engineStore_wf {s t : State} {a : Agent} {core : Nat} {p : Place} {bs : List Byte} {nl : Label}
    (h : s.engineStore a core p bs nl = .ok t) (hw : Memory.wf s.dev.mem) : Memory.wf t.dev.mem := by
  unfold State.engineStore at h
  split at h
  · split at h
    · cases h
    · rename_i w u hf
      have hu : Memory.wf u.dev.mem := by rw [engineForm_dev hf]; exact hw
      split at h
      · cases h
      · split at h
        · cases h
        · cases h
          simp only [State.cleared, State.mapDev_dev]
          apply (engineBytes_ok _ _ _ _).2
          split
          · exact Device.setRawLabel_wf _ _ _ hu
          · exact hu
  · exact enginePartial_wf h hw

theorem liftDeny_ok {α : Type} {r : Except Deny α} {a : α} (h : liftDeny r = .ok a) : r = .ok a := by
  cases r with
  | ok b => cases h; rfl
  | error d => cases h

theorem writePieces_wf (a : Agent) (core : Nat) (nl : Label) (ps : List (Word × Nat)) :
    ∀ {s t : State} {bs : List Byte}, s.writePieces a core nl ps bs = .ok t → Memory.wf s.dev.mem →
      Memory.wf t.dev.mem := by
  induction ps with
  | nil => intro s t bs h hw; cases h; exact hw
  | cons e ps ih =>
    obtain ⟨va, n⟩ := e
    intro s t bs h hw
    unfold State.writePieces at h
    split at h
    · cases h
    · rename_i p u hp
      split at h
      · cases h
      · rename_i v hv
        exact ih h (engineStore_wf hv ((enginePlace_ok (liftDeny_ok hp)).2 hw))

theorem writeSpan_wf {s t : State} {a : Agent} {core : Nat} {nl : Label} {va : Word} {bs : List Byte}
    (h : s.writeSpan a core nl va bs = .ok t) (hw : Memory.wf s.dev.mem) : Memory.wf t.dev.mem :=
  writePieces_wf a core nl _ h hw

/-! ### Records -/

theorem putRecordPieces_ok (ps : List (Word × Nat)) :
    ∀ (s : State) (bs : List Byte), DevOnly s (s.putRecordPieces ps bs) ∧
      (Memory.wf s.dev.mem → Memory.wf (s.putRecordPieces ps bs).dev.mem) := by
  induction ps with
  | nil => exact fun s _ => ⟨DevOnly.refl s, id⟩
  | cons e ps ih =>
    obtain ⟨va, n⟩ := e
    intro s bs
    simp only [State.putRecordPieces]
    split
    · rename_i p t hp
      have o : TlbOnly s t := by
        unfold State.recordPlace at hp
        split at hp
        · rename_i ht
          split at hp
          · cases hp
            exact translate_only ht
          · cases hp
        · cases hp
      obtain ⟨t1, t2⟩ := topPartial_ok t p
      obtain ⟨b1, b2⟩ := engineBytes_ok (t.topPartial p) hostAgent p (bs.take n)
      obtain ⟨i1, i2⟩ := ih ((t.topPartial p).engineBytes hostAgent p (bs.take n)) (bs.drop n)
      refine ⟨((o.devOnly.trans t1).trans b1).trans i1, fun hw => i2 (b2 (t2 ?_))⟩
      rw [o.dev]
      exact hw
    · obtain ⟨n1, n2⟩ := noteLink_only s va
      obtain ⟨i1, i2⟩ := ih (s.noteLink va) (bs.drop n)
      exact ⟨n1.trans i1, fun hw => i2 (by rw [n2]; exact hw)⟩

/-- A record written changes only the device. -/
theorem putRecord_ok (s : State) (va : Word) (r : VWord) :
    DevOnly s (s.putRecord va r) ∧ (Memory.wf s.dev.mem → Memory.wf (s.putRecord va r).dev.mem) :=
  putRecordPieces_ok _ _ _

theorem signalRecord_wf (s : State) (va : Word) (final token : Nat) (hw : Memory.wf s.dev.mem) :
    Memory.wf (s.signalRecord va final token).dev.mem := by
  unfold State.signalRecord
  split
  · exact signalPacket_wf _ _ _ _ _ hw
  · exact hw

/-- Retirement keeps memory in its canonical form, however far it climbs the chain of parents. -/
theorem finishRetire_wf (fuel : Nat) :
    ∀ (s : State) (va : Word) (final : Nat), Memory.wf s.dev.mem → Memory.wf (State.finishRetire fuel s va final).dev.mem := by
  induction fuel with
  | zero => intro s va final hw; exact hw
  | succ n ih =>
    intro s va final hw
    unfold State.finishRetire
    simp only
    have h1 := signalRecord_wf _ va final (rToken (s.record va)) ((putRecord_ok s va
      (setBits (setBits (s.record va) 384 4 final) 388 4 0)).2 hw)
    split
    · exact h1
    · split
      · exact (putRecord_ok _ _ _).2 h1
      · split
        · exact ih _ _ _ ((putRecord_ok _ _ _).2 h1)
        · exact (putRecord_ok _ _ _).2 h1

/-! ### Jobs, row operations, remote operations -/

theorem writeRun_wf {s t : State} {a : Agent} {core : Nat} {ctl : LabelWord} {p : Place} {w : LineWrite}
    (h : s.writeRun a core ctl p w = .ok t) (hw : Memory.wf s.dev.mem) : Memory.wf t.dev.mem := by
  unfold State.writeRun at h
  split at h
  · split at h
    · cases h
    · split at h
      · cases h
      · cases h
        simp only [State.cleared, State.mapDev_dev]
        apply (engineBytes_ok _ _ _ _).2
        split
        · exact Device.setRawLabel_wf _ _ _ hw
        · exact hw
  · exact engineStore_wf h hw
  · dsimp only at h
    split at h
    · exact enginePartial_wf h hw
    · exact engineStore_wf h hw

theorem engineRuns_wf (a : Agent) (p : Place) (rs : List (Word × List Byte)) :
    ∀ s : State, Memory.wf s.dev.mem →
      Memory.wf (rs.foldl (fun t r => t.engineBytes a (p.move r.1) r.2) s).dev.mem := by
  induction rs with
  | nil => intro s hw; exact hw
  | cons r rs ih => intro s hw; exact ih _ ((engineBytes_ok _ _ _ _).2 hw)

theorem writeAt_wf {s t : State} {a : Agent} {core : Nat} {ctl : LabelWord} {p : Place} {w : LineWrite}
    (h : s.writeAt a core ctl p w = .ok t) (hw : Memory.wf s.dev.mem) : Memory.wf t.dev.mem := by
  unfold State.writeAt at h
  split at h
  · cases h
  · rename_i hr
    cases h
    exact engineRuns_wf _ _ _ _ (writeRun_wf hr hw)

theorem writeLine_wf {s t : State} {a : Agent} {core : Nat} {ctl : LabelWord} {w : LineWrite}
    (h : s.writeLine a core ctl w = .ok t) (hw : Memory.wf s.dev.mem) : Memory.wf t.dev.mem := by
  unfold State.writeLine at h
  split at h
  · cases h
  · rename_i hp
    exact writeAt_wf h ((enginePlace_ok (liftDeny_ok hp)).2 hw)

theorem writeLines_wf (a : Agent) (core : Nat) (ctl : LabelWord) (ws : List LineWrite) :
    ∀ {s t : State}, s.writeLines a core ctl ws = .ok t → Memory.wf s.dev.mem → Memory.wf t.dev.mem := by
  induction ws with
  | nil => intro s t h hw; cases h; exact hw
  | cons w ws ih =>
    intro s t h hw
    unfold State.writeLines at h
    split at h
    · cases h
    · rename_i hl
      exact ih h (writeLine_wf hl hw)

theorem someLines_wf (a : Agent) (core : Nat) (ctl : LabelWord) (ws : List LineWrite) :
    ∀ s : State, Memory.wf s.dev.mem → Memory.wf (ws.foldl (fun t w => match t.writeLine a core ctl w with
      | .ok u => u
      | .error _ => t) s).dev.mem := by
  induction ws with
  | nil => intro s hw; exact hw
  | cons w ws ih =>
    intro s hw
    simp only [List.foldl_cons]
    apply ih
    split
    · exact writeLine_wf ‹_› hw
    · exact hw

theorem writeSome_wf (s : State) (a : Agent) (core : Nat) (ctl : LabelWord) (ws : List LineWrite)
    (hw : Memory.wf s.dev.mem) : Memory.wf (s.writeSome a core ctl ws).dev.mem := someLines_wf _ _ _ _ _ hw

theorem leaveEarly_wf (s : State) (a : Agent) (j : Job) (p : Plan) (hw : Memory.wf s.dev.mem) :
    Memory.wf (s.leaveEarly a j p).dev.mem := by
  unfold State.leaveEarly
  split
  · exact hw
  · exact writeSome_wf _ _ _ _ _ hw

/-- A job that completes writes its status word and, of the device, changes nothing else (R280). -/
theorem completeJob_dev (s : State) (cl crew : Nat) (j : Job) (code index : Nat) :
    (s.completeJob cl crew j code index).dev =
      (s.statusWrite (j.agent cl crew) j.statva (bytesOf 8 (statusOf 3 code index))).dev := by
  unfold State.completeJob
  simp only
  split <;> split <;> split <;> simp [State.mapCopy]

theorem completeJob_wf (s : State) (cl crew : Nat) (j : Job) (code index : Nat) (hw : Memory.wf s.dev.mem) :
    Memory.wf (s.completeJob cl crew j code index).dev.mem := by
  rw [completeJob_dev]
  exact (statusWrite_ok _ _ _ _).2 hw

theorem statusAt_wf (s : State) (a : Agent) (o : Option RowOperand) (bs : List Byte) (hw : Memory.wf s.dev.mem) :
    Memory.wf (s.statusAt a o bs).dev.mem := by
  unfold State.statusAt
  split
  · exact hw
  · dsimp only
    split
    · exact (engineBytes_ok _ _ _ _).2 ((topPartial_ok _ _).2 (settle_wf _ _ _ hw))
    · exact (noteDeny_ok _ _ _).2 hw
    · exact hw

/-- So does a row operation (R301). -/
theorem finishRow_dev (s : State) (cl : Nat) (op : RowOp) (code : Nat) (f : RowFlags) :
    (s.finishRow cl op code f).dev = (s.statusAt (engineOf cl op.mode) op.status (bytesOf 8 (rowStatus code f))).dev := by
  simp [State.finishRow]

theorem finishRow_wf (s : State) (cl : Nat) (op : RowOp) (code : Nat) (f : RowFlags) (hw : Memory.wf s.dev.mem) :
    Memory.wf (s.finishRow cl op code f).dev.mem := by
  rw [finishRow_dev]
  exact statusAt_wf _ _ _ _ hw

theorem putRowLine_wf (s : State) (l : RowLine) (hw : Memory.wf s.dev.mem) : Memory.wf (s.putRowLine l).dev.mem := by
  have h1 : Memory.wf (if l.place.lt then (s.settle .device l.place).mapDev (·.setRawLabel (lineOf l.place.loc) l.word)
      else s.settle .device l.place).dev.mem := by
    split
    · exact Device.setRawLabel_wf _ _ _ (settle_wf _ _ _ hw)
    · exact settle_wf _ _ _ hw
  have h2 := (engineBytes_ok _ (engineOf 0 .s) l.place (bytesOf 64 l.data.toNat)).2 h1
  unfold State.putRowLine
  simp only [State.mapDev_dev]
  split
  · exact h2
  · exact h2

theorem putRowLines_wf (ls : List RowLine) :
    ∀ s : State, Memory.wf s.dev.mem → Memory.wf (ls.foldl State.putRowLine s).dev.mem := by
  induction ls with
  | nil => intro s hw; exact hw
  | cons l ls ih => intro s hw; exact ih _ (putRowLine_wf s l hw)

theorem land_wf {s t : State} {cl : Nat} {r : RemoteOp} {i : Nat} {l : Landing} (h : s.land cl r i l = .ok t)
    (hw : Memory.wf s.dev.mem) : Memory.wf t.dev.mem := by
  unfold State.land at h
  simp only at h
  split at h
  · exact enginePartial_wf h hw
  · exact writeAt_wf h hw

@[simp] theorem endRemote_dev (s : State) (cl : Nat) (r : RemoteOp) : (s.endRemote cl r).dev = s.dev := by
  unfold State.endRemote
  simp only
  split <;> rfl

@[simp] theorem setRemote_dev (s : State) (cl id : Nat) (f : RemoteOp → RemoteOp) : (s.setRemote cl id f).dev = s.dev := rfl

theorem bitmapWrites_wf (a : Agent) (ps : List (Word × Nat)) :
    ∀ e : State × List Byte, Memory.wf e.1.dev.mem → Memory.wf (ps.foldl
      (fun (e : State × List Byte) p => (if (e.1.ctx.windowOff p.1).isSome then e.1.statusWrite a p.1 (e.2.take p.2)
        else e.1, e.2.drop p.2)) e).1.dev.mem := by
  induction ps with
  | nil => intro e hw; exact hw
  | cons p ps ih =>
    intro e hw
    refine ih _ ?_
    dsimp only
    split
    · exact (statusWrite_ok _ _ _ _).2 hw
    · exact hw

theorem failRemote_wf (s : State) (cl : Nat) (r : RemoteOp) (code : Nat) (hw : Memory.wf s.dev.mem) :
    Memory.wf (s.failRemote cl r code).dev.mem := by
  unfold State.failRemote
  extract_lets write u v
  have h1 : Memory.wf u.dev.mem := by
    simp only [u]
    split
    · exact bitmapWrites_wf _ _ _ hw
    · exact hw
  split <;> simpa [v] using h1

end Sys2Proof.Machine
end

