-- ==== Sys2Proof/Laws/Contexts.lean ====
section
/-! SUPPORT. What moving the focus and saving a context do to memory (R377, R424, R428). -/

namespace Sys2Proof.Machine

set_option Elab.async false

/-! ### The focus -/

@[simp] theorem State.enter_dev (s : State) (k : Context) (cl c : Nat) : (s.enter k cl c).dev = s.dev := rfl
@[simp] theorem State.enter_others (s : State) (k : Context) (cl c : Nat) : (s.enter k cl c).others = s.others := rfl
@[simp] theorem State.enter_focus (s : State) (k : Context) (cl c : Nat) : (s.enter k cl c).focus = ⟨cl, c⟩ := rfl

/-- Another core moves: the device, the agenda and the count of free values stay. -/
theorem focusOn_ok {s t : State} {ctxid cl c : Nat} (h : s.focusOn ctxid cl c = some t) :
    t.dev = s.dev ∧ t.agenda = s.agenda ∧ t.fresh = s.fresh ∧ t.focus = ⟨cl, c⟩ := by
  unfold State.focusOn at h
  split at h
  · cases h
  · split at h
    · split at h
      · rename_i hf
        cases h
        simp only [State.isFocus, decide_eq_true_eq] at hf
        obtain ⟨h1, h2⟩ := hf
        subst h1 h2
        exact ⟨rfl, rfl, rfl, rfl⟩
      · split at h
        · cases h; exact ⟨rfl, rfl, rfl, rfl⟩
        · cases h
    · split at h
      · cases h
      · cases h
        exact ⟨rfl, rfl, rfl, rfl⟩

/-- Work done in another context keeps memory canonical if it does where it is done. -/
theorem inContext_wf (s : State) (ctxid : Nat) (f : State → State)
    (hf : ∀ u, Memory.wf u.dev.mem → Memory.wf (f u).dev.mem) (hw : Memory.wf s.dev.mem) :
    Memory.wf (s.inContext ctxid f).dev.mem := by
  unfold State.inContext
  split
  · exact hf s hw
  · split
    · exact hw
    · rename_i t ht
      have h1 : Memory.wf (f t).dev.mem := hf t (by rw [(focusOn_ok ht).1]; exact hw)
      simp only
      cases hg : (f t).focusOn s.ctx.desc.ctxid s.focus.cl s.focus.core with
      | none => exact h1
      | some v => simp only [Option.getD_some]; rw [(focusOn_ok hg).1]; exact h1

/-! ### Saving a context -/

theorem putPa_wf (d : Device) (mem : NatMap Byte) (e : Nat × Byte) (h : Memory.wf mem) : Memory.wf (d.putPa mem e) := by
  unfold Device.putPa
  split
  · exact putD_wf _ _ _ h
  · exact h

theorem putPas_wf (d : Device) (news : List (Nat × Byte)) :
    ∀ mem : NatMap Byte, Memory.wf mem → Memory.wf (news.foldl d.putPa mem) := by
  induction news with
  | nil => intro mem h; exact h
  | cons e es ih => intro mem h; exact ih _ (putPa_wf d mem e h)

theorem saveCores_wf (s : State) (hw : Memory.wf s.dev.mem) : Memory.wf s.saveCores.dev.mem :=
  putPas_wf _ _ _ (filter_wf _ _ hw)

end Sys2Proof.Machine
end

