-- ==== Sys2Proof/Laws/Fields.lean ====
section
/-! SUPPORT. The fields of each instruction format (R54): what the decoder's field selectors read of a word built
from its fields. -/

namespace Sys2Proof.Laws

theorem MemOrder.code_lt (o : MemOrder) : o.code < 4 := by cases o <;> decide
theorem Scope.code_lt (o : Scope) : o.code < 5 := by cases o <;> decide

/-- The bodies of the R format (R54), and the sub-fields of R58 to R64. -/
structure IsR (x : Nat) (m d a b fn : Nat) : Prop where
  lt : x < 2 ^ 30
  f24_6 : fld x 24 6 = m
  f18_6 : fld x 18 6 = d
  f12_6 : fld x 12 6 = a
  f6_6 : fld x 6 6 = b
  f0_6 : fld x 0 6 = fn
  f6_4 : fld x 6 4 = b % 16
  f10_2 : fld x 10 2 = b / 16
  f6_3 : fld x 6 3 = b % 8
  f9_3 : fld x 9 3 = b / 8
  f22_2 : fld x 22 2 = d / 16
  f18_4 : fld x 18 4 = d % 16
  f19_5 : fld x 19 5 = d / 2
  f18_1 : fld x 18 1 = d % 2
  f6_18 : fld x 6 18 = d * 4096 + a * 64 + b
  f6_12 : fld x 6 12 = a * 64 + b

theorem isR {m d a b fn : Nat}
    (h0 : m < 64) (h1 : d < 64) (h2 : a < 64) (h3 : b < 64) (h4 : fn < 64) :
    IsR (Enc.r m d a b fn) m d a b fn := by
  constructor <;> simp only [Enc.r, fld] <;> omega

/-- The bodies of the I and B formats, and the sub-fields of R59 and R83. -/
structure IsI (x : Nat) (m d a n : Nat) : Prop where
  lt : x < 2 ^ 30
  f24_6 : fld x 24 6 = m
  f18_6 : fld x 18 6 = d
  f12_6 : fld x 12 6 = a
  f0_12 : fld x 0 12 = n
  f10_2 : fld x 10 2 = n / 1024
  f6_4 : fld x 6 4 = n / 64 % 16
  f0_6 : fld x 0 6 = n % 64
  f12_12 : fld x 12 12 = d * 64 + a

theorem isI {m d a n : Nat}
    (h0 : m < 64) (h1 : d < 64) (h2 : a < 64) (h3 : n < 4096) :
    IsI (Enc.i m d a n) m d a n := by
  constructor <;> simp only [Enc.i, fld] <;> omega

/-- The bodies of the J format. -/
structure IsJ (x : Nat) (m n : Nat) : Prop where
  lt : x < 2 ^ 30
  f24_6 : fld x 24 6 = m
  f0_24 : fld x 0 24 = n

theorem isJ {m n : Nat}
    (h0 : m < 64) (h1 : n < 2 ^ 24) :
    IsJ (Enc.j m n) m n := by
  constructor <;> simp only [Enc.j, fld] <;> omega

/-- The bodies of the U format, whose major spans the top bits of d. -/
structure IsU (x : Nat) (s d n : Nat) : Prop where
  lt : x < 2 ^ 30
  f24_6 : fld x 24 6 = 24 + 4 * s + d / 16
  f20_6 : fld x 20 6 = d
  f0_20 : fld x 0 20 = n

theorem isU {s d n : Nat}
    (h0 : s < 2) (h1 : d < 64) (h2 : n < 2 ^ 20) :
    IsU (Enc.u s d n) s d n := by
  constructor <;> simp only [Enc.u, fld] <;> omega

/-- The bodies of the V format, and the sub-fields of R65. -/
structure IsV (x : Nat) (m t d a b p fn : Nat) : Prop where
  lt : x < 2 ^ 30
  f24_6 : fld x 24 6 = m
  f21_3 : fld x 21 3 = t
  f16_5 : fld x 16 5 = d
  f11_5 : fld x 11 5 = a
  f6_5 : fld x 6 5 = b
  f3_3 : fld x 3 3 = p
  f0_3 : fld x 0 3 = fn
  f6_3 : fld x 6 3 = b % 8
  f9_2 : fld x 9 2 = b / 8
  f6_1 : fld x 6 1 = b % 2
  f7_1 : fld x 7 1 = b / 2 % 2
  f8_3 : fld x 8 3 = b / 4
  f7_4 : fld x 7 4 = b / 2
  f16_3 : fld x 16 3 = d % 8
  f19_2 : fld x 19 2 = d / 8
  f11_3 : fld x 11 3 = a % 8
  f14_2 : fld x 14 2 = a / 8

theorem isV {m t d a b p fn : Nat}
    (h0 : m < 64) (h1 : t < 8) (h2 : d < 32) (h3 : a < 32) (h4 : b < 32) (h5 : p < 8) (h6 : fn < 8) :
    IsV (Enc.v m t d a b p fn) m t d a b p fn := by
  constructor <;> simp only [Enc.v, fld] <;> omega

/-- The bodies of the VM format. -/
structure IsVm (x : Nat) (m d a n : Nat) : Prop where
  lt : x < 2 ^ 30
  f24_6 : fld x 24 6 = m
  f19_5 : fld x 19 5 = d
  f13_6 : fld x 13 6 = a
  f0_13 : fld x 0 13 = n

theorem isVm {m d a n : Nat}
    (h0 : m < 64) (h1 : d < 32) (h2 : a < 64) (h3 : n < 8192) :
    IsVm (Enc.vm m d a n) m d a n := by
  constructor <;> simp only [Enc.vm, fld] <;> omega

/-- The bodies of the MM format. -/
structure IsMm (x : Nat) (z : Bool) (m s c a b v : Nat) : Prop where
  lt : x < 2 ^ 30
  f24_6 : fld x 24 6 = m
  f19_5 : fld x 19 5 = s
  f18_1 : fld x 18 1 = c
  f17_1 : fld x 17 1 = boolCode z
  f11_6 : fld x 11 6 = a
  f5_6 : fld x 5 6 = b
  f0_5 : fld x 0 5 = v

theorem isMm {z : Bool} {m s c a b v : Nat}
    (h0 : m < 64) (h1 : s < 32) (h2 : c < 2) (h3 : a < 64) (h4 : b < 64) (h5 : v < 32) :
    IsMm (Enc.mm m s c z a b v) z m s c a b v := by
  cases z <;> constructor <;> simp only [Enc.mm, fld, boolCode, if_true, Bool.false_eq_true, if_false] <;> omega

/-- The bodies of the E format. -/
structure IsE (x : Nat) (k a f n : Nat) : Prop where
  lt : x < 2 ^ 30
  f24_6 : fld x 24 6 = 0x15
  f20_4 : fld x 20 4 = k
  f14_6 : fld x 14 6 = a
  f8_6 : fld x 8 6 = f
  f0_8 : fld x 0 8 = n
  f3_5 : fld x 3 5 = 0
  f0_3 : fld x 0 3 = n
  f1_7 : fld x 1 7 = n / 2
  f0_1 : fld x 0 1 = n % 2

theorem isE {k a f n : Nat}
    (h0 : k < 16) (h1 : a < 64) (h2 : f < 64) (h3 : n < 8) :
    IsE (Enc.e k a f n) k a f n := by
  constructor <;> simp only [Enc.e, fld] <;> omega

/-- The bodies of the scalar loads and stores (R59). -/
structure IsMem (x : Nat) (m s d a n : Nat) : Prop where
  lt : x < 2 ^ 30
  f24_6 : fld x 24 6 = m
  f9_3 : fld x 9 3 = s
  f18_6 : fld x 18 6 = d
  f12_6 : fld x 12 6 = a
  f0_9 : fld x 0 9 = n

theorem isMem {m s d a n : Nat}
    (h0 : m < 64) (h1 : s < 8) (h2 : d < 64) (h3 : a < 64) (h4 : n < 512) :
    IsMem (Enc.mem m s d a n) m s d a n := by
  constructor <;> simp only [Enc.mem, fld] <;> omega

/-- The bodies of the atomics (R60). -/
structure IsAtom (x : Nat) (o : MemOrder) (s : Scope) (op w d a : Nat) : Prop where
  lt : x < 2 ^ 30
  f24_6 : fld x 24 6 = 0x10
  f18_6 : fld x 18 6 = d
  f12_6 : fld x 12 6 = a
  f8_4 : fld x 8 4 = op
  f7_1 : fld x 7 1 = w
  f5_2 : fld x 5 2 = o.code
  f2_3 : fld x 2 3 = s.code
  f0_2 : fld x 0 2 = 0

theorem isAtom {o : MemOrder} {s : Scope} {op w d a : Nat}
    (h0 : op < 16) (h1 : w < 2) (h2 : d < 64) (h3 : a < 64) :
    IsAtom (Enc.atom op w o s d a) o s op w d a := by
  have := MemOrder.code_lt o
  have := Scope.code_lt s
  constructor <;> simp only [Enc.atom, fld] <;> omega

/-- The bodies of the control register accesses (R63). -/
structure IsCr (x : Nat) (op d a n : Nat) : Prop where
  lt : x < 2 ^ 30
  f24_6 : fld x 24 6 = 0x16
  f10_2 : fld x 10 2 = op
  f18_6 : fld x 18 6 = d
  f12_6 : fld x 12 6 = a
  f0_10 : fld x 0 10 = n

theorem isCr {op d a n : Nat}
    (h0 : op < 4) (h1 : d < 64) (h2 : a < 64) (h3 : n < 1024) :
    IsCr (Enc.cr op d a n) op d a n := by
  constructor <;> simp only [Enc.cr, fld] <;> omega

/-- The bodies of the float groups and vector memory (R59, R64). -/
structure IsFl (x : Nat) (m op s d a b : Nat) : Prop where
  lt : x < 2 ^ 30
  f24_6 : fld x 24 6 = m
  f3_3 : fld x 3 3 = op
  f0_3 : fld x 0 3 = s
  f18_6 : fld x 18 6 = d
  f12_6 : fld x 12 6 = a
  f6_6 : fld x 6 6 = b
  f8_4 : fld x 8 4 = b / 4
  f6_2 : fld x 6 2 = b % 4

theorem isFl {m op s d a b : Nat}
    (h0 : m < 64) (h1 : op < 8) (h2 : s < 8) (h3 : d < 64) (h4 : a < 64) (h5 : b < 64) :
    IsFl (Enc.fl m op s d a b) m op s d a b := by
  constructor <;> simp only [Enc.fl, fld] <;> omega

end Sys2Proof.Laws
end

