-- ==== Sys2Proof/Laws/PerInstr.lean ====
section
/-! SUPPORT. Statements made for each instruction: decoding an encoded well-formed instruction gives it back. -/

namespace Sys2Proof.Laws

set_option Elab.async false
set_option linter.unusedSimpArgs false

theorem AmoOp.code_lt (x : AmoOp) : x.code < 9 := by cases x <;> decide
theorem FamoOp.code_lt (x : FamoOp) : x.code < 13 := by cases x <;> decide
theorem AmoWidth.code_lt (x : AmoWidth) : x.code < 2 := by cases x <;> decide
theorem RboolOp.code_lt (x : RboolOp) : x.code < 8 := by cases x <;> decide
theorem PlogOp.code_lt (x : PlogOp) : x.code < 5 := by cases x <;> decide
theorem Bank.code_lt (x : Bank) : x.code < 2 := by cases x <;> decide
theorem ElemTy.code_lt (x : ElemTy) : x.code < 6 := by cases x <;> decide
theorem Rm.code_lt (x : Rm) : x.code < 5 := by cases x <;> decide
theorem FCc.code_lt (x : FCc) : x.code < 4 := by cases x <;> decide
theorem VCc.code_lt (x : VCc) : x.code < 6 := by cases x <;> decide
theorem IntTy.code_lt (x : IntTy) : x.code < 4 := by cases x <;> decide
theorem AmoOp.ofCode_code (x : AmoOp) : AmoOp.ofCode x.code = some x := by cases x <;> rfl
theorem FamoOp.ofCode_code (x : FamoOp) : FamoOp.ofCode x.code = some x := by cases x <;> rfl
theorem AmoWidth.ofCode_code (x : AmoWidth) : AmoWidth.ofCode x.code = x := by cases x <;> rfl
theorem MemOrder.ofCode_code (x : MemOrder) : MemOrder.ofCode x.code = x := by cases x <;> rfl
theorem Scope.ofCode_code (x : Scope) : Scope.ofCode x.code = some x := by cases x <;> rfl
theorem RboolOp.ofCode_code (x : RboolOp) : RboolOp.ofCode x.code = x := by cases x <;> rfl
theorem PlogOp.ofCode_code (x : PlogOp) : PlogOp.ofCode x.code = some x := by cases x <;> rfl
theorem Bank.ofCode_code (x : Bank) : Bank.ofCode x.code = x := by cases x <;> rfl
theorem ElemTy.ofCode_code (x : ElemTy) : ElemTy.ofCode x.code = some x := by cases x <;> rfl
theorem Rm.ofCode_code (x : Rm) : Rm.ofCode x.code = some x := by cases x <;> rfl
theorem FCc.ofCode_code (x : FCc) : FCc.ofCode x.code = some x := by cases x <;> rfl
theorem VCc.ofCode_code (x : VCc) : VCc.ofCode x.code = some x := by cases x <;> rfl
theorem IntTy.ofCode_code (x : IntTy) : IntTy.ofCode x.code = x := by cases x <;> rfl
theorem FamoOp.code_ge (x : FamoOp) : 10 ≤ x.code := by cases x <;> decide
theorem boolCode_lt (z : Bool) : boolCode z < 2 := by cases z <;> decide
theorem boolCode_eq (z : Bool) : (boolCode z == 1) = z := by cases z <;> rfl

theorem major_0B (b : Nat) : Dec.major 0x0B b = Dec.loads b := rfl
theorem major_0C (b : Nat) : Dec.major 0x0C b = Dec.stores b := rfl
theorem major_0F (b : Nat) : Dec.major 0x0F b = Dec.vmem b := rfl
theorem major_10 (b : Nat) : Dec.major 0x10 b = Dec.atomics b := rfl
theorem major_11 (b : Nat) : Dec.major 0x11 b = Dec.sync b := rfl
theorem major_12 (b : Nat) : Dec.major 0x12 b = Dec.continuation b := rfl
theorem major_13 (b : Nat) : Dec.major 0x13 b = Dec.label b := rfl
theorem major_14 (b : Nat) : Dec.major 0x14 b = Dec.copy b := rfl
theorem major_15 (b : Nat) : Dec.major 0x15 b = Dec.engine b := rfl
theorem major_16 (b : Nat) : Dec.major 0x16 b = Dec.crAccess b := rfl
theorem major_17 (b : Nat) : Dec.major 0x17 b = Dec.system b := rfl
theorem major_20 (b : Nat) : Dec.major 0x20 b = Dec.integer b := rfl
theorem major_27 (b : Nat) : Dec.major 0x27 b = Dec.shiftImm b := rfl
theorem major_28 (b : Nat) : Dec.major 0x28 b = Dec.floatBinary b := rfl
theorem major_29 (b : Nat) : Dec.major 0x29 b = Dec.floatUnary b := rfl
theorem major_2A (b : Nat) : Dec.major 0x2A b = Dec.vectorA b := rfl
theorem major_2B (b : Nat) : Dec.major 0x2B b = Dec.vectorB b := rfl
theorem major_2C (b : Nat) : Dec.major 0x2C b = Dec.vectorCmp b := rfl
theorem major_2D (b : Nat) : Dec.major 0x2D b = Dec.vectorC b := rfl
theorem major_2E (b : Nat) : Dec.major 0x2E b = Dec.vectorD b := rfl
theorem major_36 (b : Nat) : Dec.major 0x36 b = Dec.matrixControl b := rfl

theorem shapeOk_lt {l : MmaLimits} {s : Nat} {z : Bool} (h : l.shapeOk s z = true) : s < 32 := by
  simp only [MmaLimits.shapeOk, Bool.and_eq_true, decide_eq_true_eq] at h
  omega

theorem groupOk_lt {a n : Nat} (h : groupOk a n = true) (hn : 0 < n) : a < 64 := by
  simp only [groupOk, decide_eq_true_eq] at h
  omega

theorem scalesOk_lt {l : MmaLimits} {s vs : Nat} (h : scalesOk l s vs = true) (hl : 32 ≤ l.kmin) : vs < 32 := by
  have h1 := Nat.one_le_two_pow (n := s % 8)
  have h2 : 32 ≤ l.kmin * 2 ^ (s % 8) := Nat.le_trans hl (Nat.le_mul_of_pos_right _ h1)
  simp only [scalesOk, decide_eq_true_eq] at h
  omega

namespace RoundTrip

/-- The body of a well-formed instruction has 30 bits and decodes to the instruction; an event has no body. -/
def Statement (i : Instr) : Prop := i.wf = true → ∀ b, encode i = some b → b < 2 ^ 30 ∧ decodeBody b = .ok i

theorem j (off : Nat) : Statement (.j off) := by
  intro h w0 hw
  simp only [Instr.wf, groupOk, reg3, reg2, regOff, regImm, flt3, vec4, vec3, Bool.and_eq_true, Bool.or_eq_true, Bool.not_eq_true', decide_eq_true_eq] at h
  have key : ∀ x, IsJ x 0x00 off → decodeBody x = .ok (.j off) := by
    rintro x ⟨f, f24_6, f0_24⟩
    rw [decodeBody, f24_6]
    simp (disch := omega) [Dec.major, groupOk, Dec.need, Dec.sel, Dec.cell, Dec.d, Dec.a, Dec.rb, Dec.fn, Dec.imm, Nat.mod_eq_of_lt, Nat.div_eq_of_lt, h, f0_24]
  cases (hw : some (Enc.j 0x00 off) = some w0)
  have hx : IsJ (Enc.j 0x00 off) 0x00 off := isJ (by omega) (by omega)
  exact ⟨hx.lt, key _ hx⟩

theorem jl (off : Nat) : Statement (.jl off) := by
  intro h w0 hw
  simp only [Instr.wf, groupOk, reg3, reg2, regOff, regImm, flt3, vec4, vec3, Bool.and_eq_true, Bool.or_eq_true, Bool.not_eq_true', decide_eq_true_eq] at h
  have key : ∀ x, IsJ x 0x01 off → decodeBody x = .ok (.jl off) := by
    rintro x ⟨f, f24_6, f0_24⟩
    rw [decodeBody, f24_6]
    simp (disch := omega) [Dec.major, groupOk, Dec.need, Dec.sel, Dec.cell, Dec.d, Dec.a, Dec.rb, Dec.fn, Dec.imm, Nat.mod_eq_of_lt, Nat.div_eq_of_lt, h, f0_24]
  cases (hw : some (Enc.j 0x01 off) = some w0)
  have hx : IsJ (Enc.j 0x01 off) 0x01 off := isJ (by omega) (by omega)
  exact ⟨hx.lt, key _ hx⟩

theorem beq (a b off : Nat) : Statement (.beq a b off) := by
  intro h w0 hw
  simp only [Instr.wf, groupOk, reg3, reg2, regOff, regImm, flt3, vec4, vec3, Bool.and_eq_true, Bool.or_eq_true, Bool.not_eq_true', decide_eq_true_eq] at h
  have key : ∀ x, IsI x 0x02 a b off → decodeBody x = .ok (.beq a b off) := by
    rintro x ⟨f, f24_6, f18_6, f12_6, f0_12, f10_2, f6_4, f0_6, f12_12⟩
    rw [decodeBody, f24_6]
    simp (disch := omega) [Dec.major, groupOk, Dec.need, Dec.sel, Dec.cell, Dec.d, Dec.a, Dec.rb, Dec.fn, Dec.imm, Nat.mod_eq_of_lt, Nat.div_eq_of_lt, h, f18_6, f12_6, f0_12, f10_2, f6_4, f0_6, f12_12]
  cases (hw : some (Enc.i 0x02 a b off) = some w0)
  have hx : IsI (Enc.i 0x02 a b off) 0x02 a b off := isI (by omega) (by omega) (by omega) (by omega)
  exact ⟨hx.lt, key _ hx⟩

theorem bne (a b off : Nat) : Statement (.bne a b off) := by
  intro h w0 hw
  simp only [Instr.wf, groupOk, reg3, reg2, regOff, regImm, flt3, vec4, vec3, Bool.and_eq_true, Bool.or_eq_true, Bool.not_eq_true', decide_eq_true_eq] at h
  have key : ∀ x, IsI x 0x03 a b off → decodeBody x = .ok (.bne a b off) := by
    rintro x ⟨f, f24_6, f18_6, f12_6, f0_12, f10_2, f6_4, f0_6, f12_12⟩
    rw [decodeBody, f24_6]
    simp (disch := omega) [Dec.major, groupOk, Dec.need, Dec.sel, Dec.cell, Dec.d, Dec.a, Dec.rb, Dec.fn, Dec.imm, Nat.mod_eq_of_lt, Nat.div_eq_of_lt, h, f18_6, f12_6, f0_12, f10_2, f6_4, f0_6, f12_12]
  cases (hw : some (Enc.i 0x03 a b off) = some w0)
  have hx : IsI (Enc.i 0x03 a b off) 0x03 a b off := isI (by omega) (by omega) (by omega) (by omega)
  exact ⟨hx.lt, key _ hx⟩

theorem blt (a b off : Nat) : Statement (.blt a b off) := by
  intro h w0 hw
  simp only [Instr.wf, groupOk, reg3, reg2, regOff, regImm, flt3, vec4, vec3, Bool.and_eq_true, Bool.or_eq_true, Bool.not_eq_true', decide_eq_true_eq] at h
  have key : ∀ x, IsI x 0x04 a b off → decodeBody x = .ok (.blt a b off) := by
    rintro x ⟨f, f24_6, f18_6, f12_6, f0_12, f10_2, f6_4, f0_6, f12_12⟩
    rw [decodeBody, f24_6]
    simp (disch := omega) [Dec.major, groupOk, Dec.need, Dec.sel, Dec.cell, Dec.d, Dec.a, Dec.rb, Dec.fn, Dec.imm, Nat.mod_eq_of_lt, Nat.div_eq_of_lt, h, f18_6, f12_6, f0_12, f10_2, f6_4, f0_6, f12_12]
  cases (hw : some (Enc.i 0x04 a b off) = some w0)
  have hx : IsI (Enc.i 0x04 a b off) 0x04 a b off := isI (by omega) (by omega) (by omega) (by omega)
  exact ⟨hx.lt, key _ hx⟩

theorem bge (a b off : Nat) : Statement (.bge a b off) := by
  intro h w0 hw
  simp only [Instr.wf, groupOk, reg3, reg2, regOff, regImm, flt3, vec4, vec3, Bool.and_eq_true, Bool.or_eq_true, Bool.not_eq_true', decide_eq_true_eq] at h
  have key : ∀ x, IsI x 0x05 a b off → decodeBody x = .ok (.bge a b off) := by
    rintro x ⟨f, f24_6, f18_6, f12_6, f0_12, f10_2, f6_4, f0_6, f12_12⟩
    rw [decodeBody, f24_6]
    simp (disch := omega) [Dec.major, groupOk, Dec.need, Dec.sel, Dec.cell, Dec.d, Dec.a, Dec.rb, Dec.fn, Dec.imm, Nat.mod_eq_of_lt, Nat.div_eq_of_lt, h, f18_6, f12_6, f0_12, f10_2, f6_4, f0_6, f12_12]
  cases (hw : some (Enc.i 0x05 a b off) = some w0)
  have hx : IsI (Enc.i 0x05 a b off) 0x05 a b off := isI (by omega) (by omega) (by omega) (by omega)
  exact ⟨hx.lt, key _ hx⟩

theorem bltu (a b off : Nat) : Statement (.bltu a b off) := by
  intro h w0 hw
  simp only [Instr.wf, groupOk, reg3, reg2, regOff, regImm, flt3, vec4, vec3, Bool.and_eq_true, Bool.or_eq_true, Bool.not_eq_true', decide_eq_true_eq] at h
  have key : ∀ x, IsI x 0x06 a b off → decodeBody x = .ok (.bltu a b off) := by
    rintro x ⟨f, f24_6, f18_6, f12_6, f0_12, f10_2, f6_4, f0_6, f12_12⟩
    rw [decodeBody, f24_6]
    simp (disch := omega) [Dec.major, groupOk, Dec.need, Dec.sel, Dec.cell, Dec.d, Dec.a, Dec.rb, Dec.fn, Dec.imm, Nat.mod_eq_of_lt, Nat.div_eq_of_lt, h, f18_6, f12_6, f0_12, f10_2, f6_4, f0_6, f12_12]
  cases (hw : some (Enc.i 0x06 a b off) = some w0)
  have hx : IsI (Enc.i 0x06 a b off) 0x06 a b off := isI (by omega) (by omega) (by omega) (by omega)
  exact ⟨hx.lt, key _ hx⟩

theorem bgeu (a b off : Nat) : Statement (.bgeu a b off) := by
  intro h w0 hw
  simp only [Instr.wf, groupOk, reg3, reg2, regOff, regImm, flt3, vec4, vec3, Bool.and_eq_true, Bool.or_eq_true, Bool.not_eq_true', decide_eq_true_eq] at h
  have key : ∀ x, IsI x 0x07 a b off → decodeBody x = .ok (.bgeu a b off) := by
    rintro x ⟨f, f24_6, f18_6, f12_6, f0_12, f10_2, f6_4, f0_6, f12_12⟩
    rw [decodeBody, f24_6]
    simp (disch := omega) [Dec.major, groupOk, Dec.need, Dec.sel, Dec.cell, Dec.d, Dec.a, Dec.rb, Dec.fn, Dec.imm, Nat.mod_eq_of_lt, Nat.div_eq_of_lt, h, f18_6, f12_6, f0_12, f10_2, f6_4, f0_6, f12_12]
  cases (hw : some (Enc.i 0x07 a b off) = some w0)
  have hx : IsI (Enc.i 0x07 a b off) 0x07 a b off := isI (by omega) (by omega) (by omega) (by omega)
  exact ⟨hx.lt, key _ hx⟩

theorem jlr (d a imm : Nat) : Statement (.jlr d a imm) := by
  intro h w0 hw
  simp only [Instr.wf, groupOk, reg3, reg2, regOff, regImm, flt3, vec4, vec3, Bool.and_eq_true, Bool.or_eq_true, Bool.not_eq_true', decide_eq_true_eq] at h
  have key : ∀ x, IsI x 0x08 d a imm → decodeBody x = .ok (.jlr d a imm) := by
    rintro x ⟨f, f24_6, f18_6, f12_6, f0_12, f10_2, f6_4, f0_6, f12_12⟩
    rw [decodeBody, f24_6]
    simp (disch := omega) [Dec.major, groupOk, Dec.need, Dec.sel, Dec.cell, Dec.d, Dec.a, Dec.rb, Dec.fn, Dec.imm, Nat.mod_eq_of_lt, Nat.div_eq_of_lt, h, f18_6, f12_6, f0_12, f10_2, f6_4, f0_6, f12_12]
  cases (hw : some (Enc.i 0x08 d a imm) = some w0)
  have hx : IsI (Enc.i 0x08 d a imm) 0x08 d a imm := isI (by omega) (by omega) (by omega) (by omega)
  exact ⟨hx.lt, key _ hx⟩

theorem jr (a imm : Nat) : Statement (.jr a imm) := by
  intro h w0 hw
  simp only [Instr.wf, groupOk, reg3, reg2, regOff, regImm, flt3, vec4, vec3, Bool.and_eq_true, Bool.or_eq_true, Bool.not_eq_true', decide_eq_true_eq] at h
  have key : ∀ x, IsI x 0x08 0 a imm → decodeBody x = .ok (.jr a imm) := by
    rintro x ⟨f, f24_6, f18_6, f12_6, f0_12, f10_2, f6_4, f0_6, f12_12⟩
    rw [decodeBody, f24_6]
    simp (disch := omega) [Dec.major, groupOk, Dec.need, Dec.sel, Dec.cell, Dec.d, Dec.a, Dec.rb, Dec.fn, Dec.imm, Nat.mod_eq_of_lt, Nat.div_eq_of_lt, h, f18_6, f12_6, f0_12, f10_2, f6_4, f0_6, f12_12]
  cases (hw : some (Enc.i 0x08 0 a imm) = some w0)
  have hx : IsI (Enc.i 0x08 0 a imm) 0x08 0 a imm := isI (by omega) (by omega) (by omega) (by omega)
  exact ⟨hx.lt, key _ hx⟩

theorem loop (a imm : Nat) : Statement (.loop a imm) := by
  intro h w0 hw
  simp only [Instr.wf, groupOk, reg3, reg2, regOff, regImm, flt3, vec4, vec3, Bool.and_eq_true, Bool.or_eq_true, Bool.not_eq_true', decide_eq_true_eq] at h
  have key : ∀ x, IsI x 0x09 0 a imm → decodeBody x = .ok (.loop a imm) := by
    rintro x ⟨f, f24_6, f18_6, f12_6, f0_12, f10_2, f6_4, f0_6, f12_12⟩
    rw [decodeBody, f24_6]
    simp (disch := omega) [Dec.major, groupOk, Dec.need, Dec.sel, Dec.cell, Dec.d, Dec.a, Dec.rb, Dec.fn, Dec.imm, Nat.mod_eq_of_lt, Nat.div_eq_of_lt, h, f18_6, f12_6, f0_12, f10_2, f6_4, f0_6, f12_12]
  cases (hw : some (Enc.i 0x09 0 a imm) = some w0)
  have hx : IsI (Enc.i 0x09 0 a imm) 0x09 0 a imm := isI (by omega) (by omega) (by omega) (by omega)
  exact ⟨hx.lt, key _ hx⟩

theorem loopi (n imm : Nat) : Statement (.loopi n imm) := by
  intro h w0 hw
  simp only [Instr.wf, groupOk, reg3, reg2, regOff, regImm, flt3, vec4, vec3, Bool.and_eq_true, Bool.or_eq_true, Bool.not_eq_true', decide_eq_true_eq] at h
  have key : ∀ x, IsI x 0x0A (n / 64) (n % 64) imm → decodeBody x = .ok (.loopi n imm) := by
    rintro x ⟨f, f24_6, f18_6, f12_6, f0_12, f10_2, f6_4, f0_6, f12_12⟩
    rw [decodeBody, f24_6]
    simp (disch := omega) [Dec.major, groupOk, Dec.need, Dec.sel, Dec.cell, Dec.d, Dec.a, Dec.rb, Dec.fn, Dec.imm, Nat.mod_eq_of_lt, Nat.div_eq_of_lt, h, f18_6, f12_6, f0_12, f10_2, f6_4, f0_6, f12_12]
    omega
  replace hw : some (Enc.i 0x0A (n / 64) (n % 64) imm) = some w0 := by rw [← hw]; simp only [encode, Enc.i]; congr 1; omega
  cases (hw : some (Enc.i 0x0A (n / 64) (n % 64) imm) = some w0)
  have hx : IsI (Enc.i 0x0A (n / 64) (n % 64) imm) 0x0A (n / 64) (n % 64) imm := isI (by omega) (by omega) (by omega) (by omega)
  exact ⟨hx.lt, key _ hx⟩

theorem lb (d a off : Nat) : Statement (.lb d a off) := by
  intro h w0 hw
  simp only [Instr.wf, groupOk, reg3, reg2, regOff, regImm, flt3, vec4, vec3, Bool.and_eq_true, Bool.or_eq_true, Bool.not_eq_true', decide_eq_true_eq] at h
  have key : ∀ x, IsMem x 0x0B 0 d a off → decodeBody x = .ok (.lb d a off) := by
    rintro x ⟨f, f24_6, f9_3, f18_6, f12_6, f0_9⟩
    rw [decodeBody, f24_6, major_0B]
    simp (disch := omega) [Dec.loads, groupOk, Dec.need, Dec.sel, Dec.cell, Dec.d, Dec.a, Dec.rb, Dec.fn, Dec.imm, Nat.mod_eq_of_lt, Nat.div_eq_of_lt, h, f9_3, f18_6, f12_6, f0_9]
  cases (hw : some (Enc.mem 0x0B 0 d a off) = some w0)
  have hx : IsMem (Enc.mem 0x0B 0 d a off) 0x0B 0 d a off := isMem (by omega) (by omega) (by omega) (by omega) (by omega)
  exact ⟨hx.lt, key _ hx⟩

theorem lbu (d a off : Nat) : Statement (.lbu d a off) := by
  intro h w0 hw
  simp only [Instr.wf, groupOk, reg3, reg2, regOff, regImm, flt3, vec4, vec3, Bool.and_eq_true, Bool.or_eq_true, Bool.not_eq_true', decide_eq_true_eq] at h
  have key : ∀ x, IsMem x 0x0B 1 d a off → decodeBody x = .ok (.lbu d a off) := by
    rintro x ⟨f, f24_6, f9_3, f18_6, f12_6, f0_9⟩
    rw [decodeBody, f24_6, major_0B]
    simp (disch := omega) [Dec.loads, groupOk, Dec.need, Dec.sel, Dec.cell, Dec.d, Dec.a, Dec.rb, Dec.fn, Dec.imm, Nat.mod_eq_of_lt, Nat.div_eq_of_lt, h, f9_3, f18_6, f12_6, f0_9]
  cases (hw : some (Enc.mem 0x0B 1 d a off) = some w0)
  have hx : IsMem (Enc.mem 0x0B 1 d a off) 0x0B 1 d a off := isMem (by omega) (by omega) (by omega) (by omega) (by omega)
  exact ⟨hx.lt, key _ hx⟩

theorem lh (d a off : Nat) : Statement (.lh d a off) := by
  intro h w0 hw
  simp only [Instr.wf, groupOk, reg3, reg2, regOff, regImm, flt3, vec4, vec3, Bool.and_eq_true, Bool.or_eq_true, Bool.not_eq_true', decide_eq_true_eq] at h
  have key : ∀ x, IsMem x 0x0B 2 d a off → decodeBody x = .ok (.lh d a off) := by
    rintro x ⟨f, f24_6, f9_3, f18_6, f12_6, f0_9⟩
    rw [decodeBody, f24_6, major_0B]
    simp (disch := omega) [Dec.loads, groupOk, Dec.need, Dec.sel, Dec.cell, Dec.d, Dec.a, Dec.rb, Dec.fn, Dec.imm, Nat.mod_eq_of_lt, Nat.div_eq_of_lt, h, f9_3, f18_6, f12_6, f0_9]
  cases (hw : some (Enc.mem 0x0B 2 d a off) = some w0)
  have hx : IsMem (Enc.mem 0x0B 2 d a off) 0x0B 2 d a off := isMem (by omega) (by omega) (by omega) (by omega) (by omega)
  exact ⟨hx.lt, key _ hx⟩

theorem lhu (d a off : Nat) : Statement (.lhu d a off) := by
  intro h w0 hw
  simp only [Instr.wf, groupOk, reg3, reg2, regOff, regImm, flt3, vec4, vec3, Bool.and_eq_true, Bool.or_eq_true, Bool.not_eq_true', decide_eq_true_eq] at h
  have key : ∀ x, IsMem x 0x0B 3 d a off → decodeBody x = .ok (.lhu d a off) := by
    rintro x ⟨f, f24_6, f9_3, f18_6, f12_6, f0_9⟩
    rw [decodeBody, f24_6, major_0B]
    simp (disch := omega) [Dec.loads, groupOk, Dec.need, Dec.sel, Dec.cell, Dec.d, Dec.a, Dec.rb, Dec.fn, Dec.imm, Nat.mod_eq_of_lt, Nat.div_eq_of_lt, h, f9_3, f18_6, f12_6, f0_9]
  cases (hw : some (Enc.mem 0x0B 3 d a off) = some w0)
  have hx : IsMem (Enc.mem 0x0B 3 d a off) 0x0B 3 d a off := isMem (by omega) (by omega) (by omega) (by omega) (by omega)
  exact ⟨hx.lt, key _ hx⟩

theorem lw (d a off : Nat) : Statement (.lw d a off) := by
  intro h w0 hw
  simp only [Instr.wf, groupOk, reg3, reg2, regOff, regImm, flt3, vec4, vec3, Bool.and_eq_true, Bool.or_eq_true, Bool.not_eq_true', decide_eq_true_eq] at h
  have key : ∀ x, IsMem x 0x0B 4 d a off → decodeBody x = .ok (.lw d a off) := by
    rintro x ⟨f, f24_6, f9_3, f18_6, f12_6, f0_9⟩
    rw [decodeBody, f24_6, major_0B]
    simp (disch := omega) [Dec.loads, groupOk, Dec.need, Dec.sel, Dec.cell, Dec.d, Dec.a, Dec.rb, Dec.fn, Dec.imm, Nat.mod_eq_of_lt, Nat.div_eq_of_lt, h, f9_3, f18_6, f12_6, f0_9]
  cases (hw : some (Enc.mem 0x0B 4 d a off) = some w0)
  have hx : IsMem (Enc.mem 0x0B 4 d a off) 0x0B 4 d a off := isMem (by omega) (by omega) (by omega) (by omega) (by omega)
  exact ⟨hx.lt, key _ hx⟩

theorem lwu (d a off : Nat) : Statement (.lwu d a off) := by
  intro h w0 hw
  simp only [Instr.wf, groupOk, reg3, reg2, regOff, regImm, flt3, vec4, vec3, Bool.and_eq_true, Bool.or_eq_true, Bool.not_eq_true', decide_eq_true_eq] at h
  have key : ∀ x, IsMem x 0x0B 5 d a off → decodeBody x = .ok (.lwu d a off) := by
    rintro x ⟨f, f24_6, f9_3, f18_6, f12_6, f0_9⟩
    rw [decodeBody, f24_6, major_0B]
    simp (disch := omega) [Dec.loads, groupOk, Dec.need, Dec.sel, Dec.cell, Dec.d, Dec.a, Dec.rb, Dec.fn, Dec.imm, Nat.mod_eq_of_lt, Nat.div_eq_of_lt, h, f9_3, f18_6, f12_6, f0_9]
  cases (hw : some (Enc.mem 0x0B 5 d a off) = some w0)
  have hx : IsMem (Enc.mem 0x0B 5 d a off) 0x0B 5 d a off := isMem (by omega) (by omega) (by omega) (by omega) (by omega)
  exact ⟨hx.lt, key _ hx⟩

theorem ld (d a off : Nat) : Statement (.ld d a off) := by
  intro h w0 hw
  simp only [Instr.wf, groupOk, reg3, reg2, regOff, regImm, flt3, vec4, vec3, Bool.and_eq_true, Bool.or_eq_true, Bool.not_eq_true', decide_eq_true_eq] at h
  have key : ∀ x, IsMem x 0x0B 6 d a off → decodeBody x = .ok (.ld d a off) := by
    rintro x ⟨f, f24_6, f9_3, f18_6, f12_6, f0_9⟩
    rw [decodeBody, f24_6, major_0B]
    simp (disch := omega) [Dec.loads, groupOk, Dec.need, Dec.sel, Dec.cell, Dec.d, Dec.a, Dec.rb, Dec.fn, Dec.imm, Nat.mod_eq_of_lt, Nat.div_eq_of_lt, h, f9_3, f18_6, f12_6, f0_9]
  cases (hw : some (Enc.mem 0x0B 6 d a off) = some w0)
  have hx : IsMem (Enc.mem 0x0B 6 d a off) 0x0B 6 d a off := isMem (by omega) (by omega) (by omega) (by omega) (by omega)
  exact ⟨hx.lt, key _ hx⟩

theorem flw (d a off : Nat) : Statement (.flw d a off) := by
  intro h w0 hw
  simp only [Instr.wf, groupOk, reg3, reg2, regOff, regImm, flt3, vec4, vec3, Bool.and_eq_true, Bool.or_eq_true, Bool.not_eq_true', decide_eq_true_eq] at h
  have key : ∀ x, IsMem x 0x0B 7 d a off → decodeBody x = .ok (.flw d a off) := by
    rintro x ⟨f, f24_6, f9_3, f18_6, f12_6, f0_9⟩
    rw [decodeBody, f24_6, major_0B]
    simp (disch := omega) [Dec.loads, groupOk, Dec.need, Dec.sel, Dec.cell, Dec.d, Dec.a, Dec.rb, Dec.fn, Dec.imm, Nat.mod_eq_of_lt, Nat.div_eq_of_lt, h, f9_3, f18_6, f12_6, f0_9]
  cases (hw : some (Enc.mem 0x0B 7 d a off) = some w0)
  have hx : IsMem (Enc.mem 0x0B 7 d a off) 0x0B 7 d a off := isMem (by omega) (by omega) (by omega) (by omega) (by omega)
  exact ⟨hx.lt, key _ hx⟩

theorem sb (d a off : Nat) : Statement (.sb d a off) := by
  intro h w0 hw
  simp only [Instr.wf, groupOk, reg3, reg2, regOff, regImm, flt3, vec4, vec3, Bool.and_eq_true, Bool.or_eq_true, Bool.not_eq_true', decide_eq_true_eq] at h
  have key : ∀ x, IsMem x 0x0C 0 d a off → decodeBody x = .ok (.sb d a off) := by
    rintro x ⟨f, f24_6, f9_3, f18_6, f12_6, f0_9⟩
    rw [decodeBody, f24_6, major_0C]
    simp (disch := omega) [Dec.stores, groupOk, Dec.need, Dec.sel, Dec.cell, Dec.d, Dec.a, Dec.rb, Dec.fn, Dec.imm, Nat.mod_eq_of_lt, Nat.div_eq_of_lt, h, f9_3, f18_6, f12_6, f0_9]
  cases (hw : some (Enc.mem 0x0C 0 d a off) = some w0)
  have hx : IsMem (Enc.mem 0x0C 0 d a off) 0x0C 0 d a off := isMem (by omega) (by omega) (by omega) (by omega) (by omega)
  exact ⟨hx.lt, key _ hx⟩

theorem sh (d a off : Nat) : Statement (.sh d a off) := by
  intro h w0 hw
  simp only [Instr.wf, groupOk, reg3, reg2, regOff, regImm, flt3, vec4, vec3, Bool.and_eq_true, Bool.or_eq_true, Bool.not_eq_true', decide_eq_true_eq] at h
  have key : ∀ x, IsMem x 0x0C 1 d a off → decodeBody x = .ok (.sh d a off) := by
    rintro x ⟨f, f24_6, f9_3, f18_6, f12_6, f0_9⟩
    rw [decodeBody, f24_6, major_0C]
    simp (disch := omega) [Dec.stores, groupOk, Dec.need, Dec.sel, Dec.cell, Dec.d, Dec.a, Dec.rb, Dec.fn, Dec.imm, Nat.mod_eq_of_lt, Nat.div_eq_of_lt, h, f9_3, f18_6, f12_6, f0_9]
  cases (hw : some (Enc.mem 0x0C 1 d a off) = some w0)
  have hx : IsMem (Enc.mem 0x0C 1 d a off) 0x0C 1 d a off := isMem (by omega) (by omega) (by omega) (by omega) (by omega)
  exact ⟨hx.lt, key _ hx⟩

theorem sw (d a off : Nat) : Statement (.sw d a off) := by
  intro h w0 hw
  simp only [Instr.wf, groupOk, reg3, reg2, regOff, regImm, flt3, vec4, vec3, Bool.and_eq_true, Bool.or_eq_true, Bool.not_eq_true', decide_eq_true_eq] at h
  have key : ∀ x, IsMem x 0x0C 2 d a off → decodeBody x = .ok (.sw d a off) := by
    rintro x ⟨f, f24_6, f9_3, f18_6, f12_6, f0_9⟩
    rw [decodeBody, f24_6, major_0C]
    simp (disch := omega) [Dec.stores, groupOk, Dec.need, Dec.sel, Dec.cell, Dec.d, Dec.a, Dec.rb, Dec.fn, Dec.imm, Nat.mod_eq_of_lt, Nat.div_eq_of_lt, h, f9_3, f18_6, f12_6, f0_9]
  cases (hw : some (Enc.mem 0x0C 2 d a off) = some w0)
  have hx : IsMem (Enc.mem 0x0C 2 d a off) 0x0C 2 d a off := isMem (by omega) (by omega) (by omega) (by omega) (by omega)
  exact ⟨hx.lt, key _ hx⟩

theorem sd (d a off : Nat) : Statement (.sd d a off) := by
  intro h w0 hw
  simp only [Instr.wf, groupOk, reg3, reg2, regOff, regImm, flt3, vec4, vec3, Bool.and_eq_true, Bool.or_eq_true, Bool.not_eq_true', decide_eq_true_eq] at h
  have key : ∀ x, IsMem x 0x0C 3 d a off → decodeBody x = .ok (.sd d a off) := by
    rintro x ⟨f, f24_6, f9_3, f18_6, f12_6, f0_9⟩
    rw [decodeBody, f24_6, major_0C]
    simp (disch := omega) [Dec.stores, groupOk, Dec.need, Dec.sel, Dec.cell, Dec.d, Dec.a, Dec.rb, Dec.fn, Dec.imm, Nat.mod_eq_of_lt, Nat.div_eq_of_lt, h, f9_3, f18_6, f12_6, f0_9]
  cases (hw : some (Enc.mem 0x0C 3 d a off) = some w0)
  have hx : IsMem (Enc.mem 0x0C 3 d a off) 0x0C 3 d a off := isMem (by omega) (by omega) (by omega) (by omega) (by omega)
  exact ⟨hx.lt, key _ hx⟩

theorem fsw (d a off : Nat) : Statement (.fsw d a off) := by
  intro h w0 hw
  simp only [Instr.wf, groupOk, reg3, reg2, regOff, regImm, flt3, vec4, vec3, Bool.and_eq_true, Bool.or_eq_true, Bool.not_eq_true', decide_eq_true_eq] at h
  have key : ∀ x, IsMem x 0x0C 4 d a off → decodeBody x = .ok (.fsw d a off) := by
    rintro x ⟨f, f24_6, f9_3, f18_6, f12_6, f0_9⟩
    rw [decodeBody, f24_6, major_0C]
    simp (disch := omega) [Dec.stores, groupOk, Dec.need, Dec.sel, Dec.cell, Dec.d, Dec.a, Dec.rb, Dec.fn, Dec.imm, Nat.mod_eq_of_lt, Nat.div_eq_of_lt, h, f9_3, f18_6, f12_6, f0_9]
  cases (hw : some (Enc.mem 0x0C 4 d a off) = some w0)
  have hx : IsMem (Enc.mem 0x0C 4 d a off) 0x0C 4 d a off := isMem (by omega) (by omega) (by omega) (by omega) (by omega)
  exact ⟨hx.lt, key _ hx⟩

theorem vld (d a imm : Nat) : Statement (.vld d a imm) := by
  intro h w0 hw
  simp only [Instr.wf, groupOk, reg3, reg2, regOff, regImm, flt3, vec4, vec3, Bool.and_eq_true, Bool.or_eq_true, Bool.not_eq_true', decide_eq_true_eq] at h
  have key : ∀ x, IsVm x 0x0D d a imm → decodeBody x = .ok (.vld d a imm) := by
    rintro x ⟨f, f24_6, f19_5, f13_6, f0_13⟩
    rw [decodeBody, f24_6]
    simp (disch := omega) [Dec.major, groupOk, Dec.need, Dec.sel, Dec.cell, Dec.d, Dec.a, Dec.rb, Dec.fn, Dec.imm, Nat.mod_eq_of_lt, Nat.div_eq_of_lt, h, f19_5, f13_6, f0_13]
  cases (hw : some (Enc.vm 0x0D d a imm) = some w0)
  have hx : IsVm (Enc.vm 0x0D d a imm) 0x0D d a imm := isVm (by omega) (by omega) (by omega) (by omega)
  exact ⟨hx.lt, key _ hx⟩

theorem vst (d a imm : Nat) : Statement (.vst d a imm) := by
  intro h w0 hw
  simp only [Instr.wf, groupOk, reg3, reg2, regOff, regImm, flt3, vec4, vec3, Bool.and_eq_true, Bool.or_eq_true, Bool.not_eq_true', decide_eq_true_eq] at h
  have key : ∀ x, IsVm x 0x0E d a imm → decodeBody x = .ok (.vst d a imm) := by
    rintro x ⟨f, f24_6, f19_5, f13_6, f0_13⟩
    rw [decodeBody, f24_6]
    simp (disch := omega) [Dec.major, groupOk, Dec.need, Dec.sel, Dec.cell, Dec.d, Dec.a, Dec.rb, Dec.fn, Dec.imm, Nat.mod_eq_of_lt, Nat.div_eq_of_lt, h, f19_5, f13_6, f0_13]
  cases (hw : some (Enc.vm 0x0E d a imm) = some w0)
  have hx : IsVm (Enc.vm 0x0E d a imm) 0x0E d a imm := isVm (by omega) (by omega) (by omega) (by omega)
  exact ⟨hx.lt, key _ hx⟩

theorem vlds (d a b pg : Nat) : Statement (.vlds d a b pg) := by
  intro h w0 hw
  simp only [Instr.wf, groupOk, reg3, reg2, regOff, regImm, flt3, vec4, vec3, Bool.and_eq_true, Bool.or_eq_true, Bool.not_eq_true', decide_eq_true_eq] at h
  have key : ∀ x, IsFl x 0x0F 0 pg d a b → decodeBody x = .ok (.vlds d a b pg) := by
    rintro x ⟨f, f24_6, f3_3, f0_3, f18_6, f12_6, f6_6, f8_4, f6_2⟩
    rw [decodeBody, f24_6, major_0F]
    simp (disch := omega) [Dec.vmem, groupOk, Dec.need, Dec.sel, Dec.cell, Dec.d, Dec.a, Dec.rb, Dec.fn, Dec.imm, Nat.mod_eq_of_lt, Nat.div_eq_of_lt, h, f3_3, f0_3, f18_6, f12_6, f6_6, f8_4, f6_2]
  cases (hw : some (Enc.fl 0x0F 0 pg d a b) = some w0)
  have hx : IsFl (Enc.fl 0x0F 0 pg d a b) 0x0F 0 pg d a b := isFl (by omega) (by omega) (by omega) (by omega) (by omega) (by omega)
  exact ⟨hx.lt, key _ hx⟩

theorem vsts (d a b pg : Nat) : Statement (.vsts d a b pg) := by
  intro h w0 hw
  simp only [Instr.wf, groupOk, reg3, reg2, regOff, regImm, flt3, vec4, vec3, Bool.and_eq_true, Bool.or_eq_true, Bool.not_eq_true', decide_eq_true_eq] at h
  have key : ∀ x, IsFl x 0x0F 1 pg d a b → decodeBody x = .ok (.vsts d a b pg) := by
    rintro x ⟨f, f24_6, f3_3, f0_3, f18_6, f12_6, f6_6, f8_4, f6_2⟩
    rw [decodeBody, f24_6, major_0F]
    simp (disch := omega) [Dec.vmem, groupOk, Dec.need, Dec.sel, Dec.cell, Dec.d, Dec.a, Dec.rb, Dec.fn, Dec.imm, Nat.mod_eq_of_lt, Nat.div_eq_of_lt, h, f3_3, f0_3, f18_6, f12_6, f6_6, f8_4, f6_2]
  cases (hw : some (Enc.fl 0x0F 1 pg d a b) = some w0)
  have hx : IsFl (Enc.fl 0x0F 1 pg d a b) 0x0F 1 pg d a b := isFl (by omega) (by omega) (by omega) (by omega) (by omega) (by omega)
  exact ⟨hx.lt, key _ hx⟩

theorem vldx (d a b pg : Nat) : Statement (.vldx d a b pg) := by
  intro h w0 hw
  simp only [Instr.wf, groupOk, reg3, reg2, regOff, regImm, flt3, vec4, vec3, Bool.and_eq_true, Bool.or_eq_true, Bool.not_eq_true', decide_eq_true_eq] at h
  have key : ∀ x, IsFl x 0x0F 2 pg d a b → decodeBody x = .ok (.vldx d a b pg) := by
    rintro x ⟨f, f24_6, f3_3, f0_3, f18_6, f12_6, f6_6, f8_4, f6_2⟩
    rw [decodeBody, f24_6, major_0F]
    simp (disch := omega) [Dec.vmem, groupOk, Dec.need, Dec.sel, Dec.cell, Dec.d, Dec.a, Dec.rb, Dec.fn, Dec.imm, Nat.mod_eq_of_lt, Nat.div_eq_of_lt, h, f3_3, f0_3, f18_6, f12_6, f6_6, f8_4, f6_2]
  cases (hw : some (Enc.fl 0x0F 2 pg d a b) = some w0)
  have hx : IsFl (Enc.fl 0x0F 2 pg d a b) 0x0F 2 pg d a b := isFl (by omega) (by omega) (by omega) (by omega) (by omega) (by omega)
  exact ⟨hx.lt, key _ hx⟩

theorem vstx (d a b pg : Nat) : Statement (.vstx d a b pg) := by
  intro h w0 hw
  simp only [Instr.wf, groupOk, reg3, reg2, regOff, regImm, flt3, vec4, vec3, Bool.and_eq_true, Bool.or_eq_true, Bool.not_eq_true', decide_eq_true_eq] at h
  have key : ∀ x, IsFl x 0x0F 3 pg d a b → decodeBody x = .ok (.vstx d a b pg) := by
    rintro x ⟨f, f24_6, f3_3, f0_3, f18_6, f12_6, f6_6, f8_4, f6_2⟩
    rw [decodeBody, f24_6, major_0F]
    simp (disch := omega) [Dec.vmem, groupOk, Dec.need, Dec.sel, Dec.cell, Dec.d, Dec.a, Dec.rb, Dec.fn, Dec.imm, Nat.mod_eq_of_lt, Nat.div_eq_of_lt, h, f3_3, f0_3, f18_6, f12_6, f6_6, f8_4, f6_2]
  cases (hw : some (Enc.fl 0x0F 3 pg d a b) = some w0)
  have hx : IsFl (Enc.fl 0x0F 3 pg d a b) 0x0F 3 pg d a b := isFl (by omega) (by omega) (by omega) (by omega) (by omega) (by omega)
  exact ⟨hx.lt, key _ hx⟩

theorem amo (op : AmoOp) (w : AmoWidth) (ord : MemOrder) (sc : Scope) (d a : Nat) : Statement (.amo op w ord sc d a) := by
  intro h w0 hw
  have qop := AmoOp.code_lt op
  have qw := AmoWidth.code_lt w
  have qord := MemOrder.code_lt ord
  have qsc := Scope.code_lt sc
  simp only [Instr.wf, groupOk, reg3, reg2, regOff, regImm, flt3, vec4, vec3, Bool.and_eq_true, Bool.or_eq_true, Bool.not_eq_true', decide_eq_true_eq] at h
  have key : ∀ x, IsAtom x ord sc op.code w.code d a → decodeBody x = .ok (.amo op w ord sc d a) := by
    rintro x ⟨f, f24_6, f18_6, f12_6, f8_4, f7_1, f5_2, f2_3, f0_2⟩
    rw [decodeBody, f24_6, major_10]
    simp (disch := omega) [Dec.atomics, groupOk, Dec.need, Dec.sel, Dec.cell, Dec.d, Dec.a, Dec.rb, Dec.fn, Dec.imm, AmoOp.ofCode_code, AmoWidth.ofCode_code, MemOrder.ofCode_code, Scope.ofCode_code, Nat.mod_eq_of_lt, Nat.div_eq_of_lt, h, f18_6, f12_6, f8_4, f7_1, f5_2, f2_3, f0_2]
    intro _; omega
  cases (hw : some (Enc.atom op.code w.code ord sc d a) = some w0)
  have hx : IsAtom (Enc.atom op.code w.code ord sc d a) ord sc op.code w.code d a := isAtom (by omega) (by omega) (by omega) (by omega)
  exact ⟨hx.lt, key _ hx⟩

theorem cas (w : AmoWidth) (ord : MemOrder) (sc : Scope) (d a : Nat) : Statement (.cas w ord sc d a) := by
  intro h w0 hw
  have qw := AmoWidth.code_lt w
  have qord := MemOrder.code_lt ord
  have qsc := Scope.code_lt sc
  simp only [Instr.wf, groupOk, reg3, reg2, regOff, regImm, flt3, vec4, vec3, Bool.and_eq_true, Bool.or_eq_true, Bool.not_eq_true', decide_eq_true_eq] at h
  have key : ∀ x, IsAtom x ord sc 9 w.code d a → decodeBody x = .ok (.cas w ord sc d a) := by
    rintro x ⟨f, f24_6, f18_6, f12_6, f8_4, f7_1, f5_2, f2_3, f0_2⟩
    rw [decodeBody, f24_6, major_10]
    simp (disch := omega) [Dec.atomics, groupOk, Dec.need, Dec.sel, Dec.cell, Dec.d, Dec.a, Dec.rb, Dec.fn, Dec.imm, AmoWidth.ofCode_code, MemOrder.ofCode_code, Scope.ofCode_code, Nat.mod_eq_of_lt, Nat.div_eq_of_lt, h, f18_6, f12_6, f8_4, f7_1, f5_2, f2_3, f0_2]
  cases (hw : some (Enc.atom 9 w.code ord sc d a) = some w0)
  have hx : IsAtom (Enc.atom 9 w.code ord sc d a) ord sc 9 w.code d a := isAtom (by omega) (by omega) (by omega) (by omega)
  exact ⟨hx.lt, key _ hx⟩

theorem famo (op : FamoOp) (ord : MemOrder) (sc : Scope) (d a : Nat) : Statement (.famo op ord sc d a) := by
  intro h w0 hw
  have qop := FamoOp.code_lt op
  have qord := MemOrder.code_lt ord
  have qsc := Scope.code_lt sc
  have qop2 := FamoOp.code_ge op
  simp only [Instr.wf, groupOk, reg3, reg2, regOff, regImm, flt3, vec4, vec3, Bool.and_eq_true, Bool.or_eq_true, Bool.not_eq_true', decide_eq_true_eq] at h
  have key : ∀ x, IsAtom x ord sc op.code 0 d a → decodeBody x = .ok (.famo op ord sc d a) := by
    rintro x ⟨f, f24_6, f18_6, f12_6, f8_4, f7_1, f5_2, f2_3, f0_2⟩
    rw [decodeBody, f24_6, major_10]
    simp (disch := omega) [Dec.atomics, groupOk, Dec.need, Dec.sel, Dec.cell, Dec.d, Dec.a, Dec.rb, Dec.fn, Dec.imm, FamoOp.ofCode_code, MemOrder.ofCode_code, Scope.ofCode_code, Nat.mod_eq_of_lt, Nat.div_eq_of_lt, h, f18_6, f12_6, f8_4, f7_1, f5_2, f2_3, f0_2]
    simp [show ¬ op.code < 9 by omega, show ¬ op.code = 9 by omega, show op.code < 13 by omega]
  cases (hw : some (Enc.atom op.code 0 ord sc d a) = some w0)
  have hx : IsAtom (Enc.atom op.code 0 ord sc d a) ord sc op.code 0 d a := isAtom (by omega) (by omega) (by omega) (by omega)
  exact ⟨hx.lt, key _ hx⟩

theorem csum (ord : MemOrder) (sc : Scope) (d a : Nat) : Statement (.csum ord sc d a) := by
  intro h w0 hw
  have qord := MemOrder.code_lt ord
  have qsc := Scope.code_lt sc
  simp only [Instr.wf, groupOk, reg3, reg2, regOff, regImm, flt3, vec4, vec3, Bool.and_eq_true, Bool.or_eq_true, Bool.not_eq_true', decide_eq_true_eq] at h
  have key : ∀ x, IsAtom x ord sc 13 0 d a → decodeBody x = .ok (.csum ord sc d a) := by
    rintro x ⟨f, f24_6, f18_6, f12_6, f8_4, f7_1, f5_2, f2_3, f0_2⟩
    rw [decodeBody, f24_6, major_10]
    simp (disch := omega) [Dec.atomics, groupOk, Dec.need, Dec.sel, Dec.cell, Dec.d, Dec.a, Dec.rb, Dec.fn, Dec.imm, MemOrder.ofCode_code, Scope.ofCode_code, Nat.mod_eq_of_lt, Nat.div_eq_of_lt, h, f18_6, f12_6, f8_4, f7_1, f5_2, f2_3, f0_2]
  cases (hw : some (Enc.atom 13 0 ord sc d a) = some w0)
  have hx : IsAtom (Enc.atom 13 0 ord sc d a) ord sc 13 0 d a := isAtom (by omega) (by omega) (by omega) (by omega)
  exact ⟨hx.lt, key _ hx⟩

theorem cwb (a : Nat) : Statement (.cwb a) := by
  intro h w0 hw
  simp only [Instr.wf, groupOk, reg3, reg2, regOff, regImm, flt3, vec4, vec3, Bool.and_eq_true, Bool.or_eq_true, Bool.not_eq_true', decide_eq_true_eq] at h
  have key : ∀ x, IsR x 0x11 0 a 0 0x00 → decodeBody x = .ok (.cwb a) := by
    rintro x ⟨f, f24_6, f18_6, f12_6, f6_6, f0_6, f6_4, f10_2, f6_3, f9_3, f22_2, f18_4, f19_5, f18_1, f6_18, f6_12⟩
    rw [decodeBody, f24_6, major_11]
    simp (disch := omega) [Dec.sync, groupOk, Dec.need, Dec.sel, Dec.cell, Dec.d, Dec.a, Dec.rb, Dec.fn, Dec.imm, Nat.mod_eq_of_lt, Nat.div_eq_of_lt, h, f18_6, f12_6, f6_6, f0_6, f6_4, f10_2, f6_3, f9_3, f22_2, f18_4, f19_5, f18_1, f6_18, f6_12]
  cases (hw : some (Enc.r 0x11 0 a 0 0x00) = some w0)
  have hx : IsR (Enc.r 0x11 0 a 0 0x00) 0x11 0 a 0 0x00 := isR (by omega) (by omega) (by omega) (by omega) (by omega)
  exact ⟨hx.lt, key _ hx⟩

theorem cinv (a : Nat) : Statement (.cinv a) := by
  intro h w0 hw
  simp only [Instr.wf, groupOk, reg3, reg2, regOff, regImm, flt3, vec4, vec3, Bool.and_eq_true, Bool.or_eq_true, Bool.not_eq_true', decide_eq_true_eq] at h
  have key : ∀ x, IsR x 0x11 0 a 0 0x01 → decodeBody x = .ok (.cinv a) := by
    rintro x ⟨f, f24_6, f18_6, f12_6, f6_6, f0_6, f6_4, f10_2, f6_3, f9_3, f22_2, f18_4, f19_5, f18_1, f6_18, f6_12⟩
    rw [decodeBody, f24_6, major_11]
    simp (disch := omega) [Dec.sync, groupOk, Dec.need, Dec.sel, Dec.cell, Dec.d, Dec.a, Dec.rb, Dec.fn, Dec.imm, Nat.mod_eq_of_lt, Nat.div_eq_of_lt, h, f18_6, f12_6, f6_6, f0_6, f6_4, f10_2, f6_3, f9_3, f22_2, f18_4, f19_5, f18_1, f6_18, f6_12]
  cases (hw : some (Enc.r 0x11 0 a 0 0x01) = some w0)
  have hx : IsR (Enc.r 0x11 0 a 0 0x01) 0x11 0 a 0 0x01 := isR (by omega) (by omega) (by omega) (by omega) (by omega)
  exact ⟨hx.lt, key _ hx⟩

theorem cflush (a : Nat) : Statement (.cflush a) := by
  intro h w0 hw
  simp only [Instr.wf, groupOk, reg3, reg2, regOff, regImm, flt3, vec4, vec3, Bool.and_eq_true, Bool.or_eq_true, Bool.not_eq_true', decide_eq_true_eq] at h
  have key : ∀ x, IsR x 0x11 0 a 0 0x02 → decodeBody x = .ok (.cflush a) := by
    rintro x ⟨f, f24_6, f18_6, f12_6, f6_6, f0_6, f6_4, f10_2, f6_3, f9_3, f22_2, f18_4, f19_5, f18_1, f6_18, f6_12⟩
    rw [decodeBody, f24_6, major_11]
    simp (disch := omega) [Dec.sync, groupOk, Dec.need, Dec.sel, Dec.cell, Dec.d, Dec.a, Dec.rb, Dec.fn, Dec.imm, Nat.mod_eq_of_lt, Nat.div_eq_of_lt, h, f18_6, f12_6, f6_6, f0_6, f6_4, f10_2, f6_3, f9_3, f22_2, f18_4, f19_5, f18_1, f6_18, f6_12]
  cases (hw : some (Enc.r 0x11 0 a 0 0x02) = some w0)
  have hx : IsR (Enc.r 0x11 0 a 0 0x02) 0x11 0 a 0 0x02 := isR (by omega) (by omega) (by omega) (by omega) (by omega)
  exact ⟨hx.lt, key _ hx⟩

theorem wbrow (a : Nat) : Statement (.wbrow a) := by
  intro h w0 hw
  simp only [Instr.wf, groupOk, reg3, reg2, regOff, regImm, flt3, vec4, vec3, Bool.and_eq_true, Bool.or_eq_true, Bool.not_eq_true', decide_eq_true_eq] at h
  have key : ∀ x, IsR x 0x11 0 a 0 0x03 → decodeBody x = .ok (.wbrow a) := by
    rintro x ⟨f, f24_6, f18_6, f12_6, f6_6, f0_6, f6_4, f10_2, f6_3, f9_3, f22_2, f18_4, f19_5, f18_1, f6_18, f6_12⟩
    rw [decodeBody, f24_6, major_11]
    simp (disch := omega) [Dec.sync, groupOk, Dec.need, Dec.sel, Dec.cell, Dec.d, Dec.a, Dec.rb, Dec.fn, Dec.imm, Nat.mod_eq_of_lt, Nat.div_eq_of_lt, h, f18_6, f12_6, f6_6, f0_6, f6_4, f10_2, f6_3, f9_3, f22_2, f18_4, f19_5, f18_1, f6_18, f6_12]
  cases (hw : some (Enc.r 0x11 0 a 0 0x03) = some w0)
  have hx : IsR (Enc.r 0x11 0 a 0 0x03) 0x11 0 a 0 0x03 := isR (by omega) (by omega) (by omega) (by omega) (by omega)
  exact ⟨hx.lt, key _ hx⟩

theorem invrow (a : Nat) : Statement (.invrow a) := by
  intro h w0 hw
  simp only [Instr.wf, groupOk, reg3, reg2, regOff, regImm, flt3, vec4, vec3, Bool.and_eq_true, Bool.or_eq_true, Bool.not_eq_true', decide_eq_true_eq] at h
  have key : ∀ x, IsR x 0x11 0 a 0 0x04 → decodeBody x = .ok (.invrow a) := by
    rintro x ⟨f, f24_6, f18_6, f12_6, f6_6, f0_6, f6_4, f10_2, f6_3, f9_3, f22_2, f18_4, f19_5, f18_1, f6_18, f6_12⟩
    rw [decodeBody, f24_6, major_11]
    simp (disch := omega) [Dec.sync, groupOk, Dec.need, Dec.sel, Dec.cell, Dec.d, Dec.a, Dec.rb, Dec.fn, Dec.imm, Nat.mod_eq_of_lt, Nat.div_eq_of_lt, h, f18_6, f12_6, f6_6, f0_6, f6_4, f10_2, f6_3, f9_3, f22_2, f18_4, f19_5, f18_1, f6_18, f6_12]
  cases (hw : some (Enc.r 0x11 0 a 0 0x04) = some w0)
  have hx : IsR (Enc.r 0x11 0 a 0 0x04) 0x11 0 a 0 0x04 := isR (by omega) (by omega) (by omega) (by omega) (by omega)
  exact ⟨hx.lt, key _ hx⟩

theorem fence (kinds : Nat) (sc : Scope) : Statement (.fence kinds sc) := by
  intro h w0 hw
  have qsc := Scope.code_lt sc
  simp only [Instr.wf, groupOk, reg3, reg2, regOff, regImm, flt3, vec4, vec3, Bool.and_eq_true, Bool.or_eq_true, Bool.not_eq_true', decide_eq_true_eq] at h
  have key : ∀ x, IsR x 0x11 kinds 0 sc.code 0x08 → decodeBody x = .ok (.fence kinds sc) := by
    rintro x ⟨f, f24_6, f18_6, f12_6, f6_6, f0_6, f6_4, f10_2, f6_3, f9_3, f22_2, f18_4, f19_5, f18_1, f6_18, f6_12⟩
    rw [decodeBody, f24_6, major_11]
    simp (disch := omega) [Dec.sync, groupOk, Dec.need, Dec.sel, Dec.cell, Dec.d, Dec.a, Dec.rb, Dec.fn, Dec.imm, Scope.ofCode_code, Nat.mod_eq_of_lt, Nat.div_eq_of_lt, h, f18_6, f12_6, f6_6, f0_6, f6_4, f10_2, f6_3, f9_3, f22_2, f18_4, f19_5, f18_1, f6_18, f6_12]
    omega
  cases (hw : some (Enc.r 0x11 kinds 0 sc.code 0x08) = some w0)
  have hx : IsR (Enc.r 0x11 kinds 0 sc.code 0x08) 0x11 kinds 0 sc.code 0x08 := isR (by omega) (by omega) (by omega) (by omega) (by omega)
  exact ⟨hx.lt, key _ hx⟩

theorem fencesc : Statement (.fencesc) := by
  intro h w0 hw
  have key : ∀ x, IsR x 0x11 0 0 0 0x09 → decodeBody x = .ok (.fencesc) := by
    rintro x ⟨f, f24_6, f18_6, f12_6, f6_6, f0_6, f6_4, f10_2, f6_3, f9_3, f22_2, f18_4, f19_5, f18_1, f6_18, f6_12⟩
    rw [decodeBody, f24_6, major_11]
    simp (disch := omega) [Dec.sync, Dec.need, Dec.sel, Dec.cell, Dec.d, Dec.a, Dec.rb, Dec.fn, Dec.imm, Nat.mod_eq_of_lt, Nat.div_eq_of_lt, f18_6, f12_6, f6_6, f0_6, f6_4, f10_2, f6_3, f9_3, f22_2, f18_4, f19_5, f18_1, f6_18, f6_12]
  cases (hw : some (Enc.r 0x11 0 0 0 0x09) = some w0)
  have hx : IsR (Enc.r 0x11 0 0 0 0x09) 0x11 0 0 0 0x09 := isR (by omega) (by omega) (by omega) (by omega) (by omega)
  exact ⟨hx.lt, key _ hx⟩

theorem arrive (g a : Nat) : Statement (.arrive g a) := by
  intro h w0 hw
  simp only [Instr.wf, groupOk, reg3, reg2, regOff, regImm, flt3, vec4, vec3, Bool.and_eq_true, Bool.or_eq_true, Bool.not_eq_true', decide_eq_true_eq] at h
  have key : ∀ x, IsR x 0x11 0 a g 0x10 → decodeBody x = .ok (.arrive g a) := by
    rintro x ⟨f, f24_6, f18_6, f12_6, f6_6, f0_6, f6_4, f10_2, f6_3, f9_3, f22_2, f18_4, f19_5, f18_1, f6_18, f6_12⟩
    rw [decodeBody, f24_6, major_11]
    simp (disch := omega) [Dec.sync, groupOk, Dec.need, Dec.sel, Dec.cell, Dec.d, Dec.a, Dec.rb, Dec.fn, Dec.imm, Nat.mod_eq_of_lt, Nat.div_eq_of_lt, h, f18_6, f12_6, f6_6, f0_6, f6_4, f10_2, f6_3, f9_3, f22_2, f18_4, f19_5, f18_1, f6_18, f6_12]
  cases (hw : some (Enc.r 0x11 0 a g 0x10) = some w0)
  have hx : IsR (Enc.r 0x11 0 a g 0x10) 0x11 0 a g 0x10 := isR (by omega) (by omega) (by omega) (by omega) (by omega)
  exact ⟨hx.lt, key _ hx⟩

theorem waitc (d g : Nat) : Statement (.waitc d g) := by
  intro h w0 hw
  simp only [Instr.wf, groupOk, reg3, reg2, regOff, regImm, flt3, vec4, vec3, Bool.and_eq_true, Bool.or_eq_true, Bool.not_eq_true', decide_eq_true_eq] at h
  have key : ∀ x, IsR x 0x11 d 0 g 0x11 → decodeBody x = .ok (.waitc d g) := by
    rintro x ⟨f, f24_6, f18_6, f12_6, f6_6, f0_6, f6_4, f10_2, f6_3, f9_3, f22_2, f18_4, f19_5, f18_1, f6_18, f6_12⟩
    rw [decodeBody, f24_6, major_11]
    simp (disch := omega) [Dec.sync, groupOk, Dec.need, Dec.sel, Dec.cell, Dec.d, Dec.a, Dec.rb, Dec.fn, Dec.imm, Nat.mod_eq_of_lt, Nat.div_eq_of_lt, h, f18_6, f12_6, f6_6, f0_6, f6_4, f10_2, f6_3, f9_3, f22_2, f18_4, f19_5, f18_1, f6_18, f6_12]
  cases (hw : some (Enc.r 0x11 d 0 g 0x11) = some w0)
  have hx : IsR (Enc.r 0x11 d 0 g 0x11) 0x11 d 0 g 0x11 := isR (by omega) (by omega) (by omega) (by omega) (by omega)
  exact ⟨hx.lt, key _ hx⟩

theorem catchq (d g : Nat) : Statement (.catchq d g) := by
  intro h w0 hw
  simp only [Instr.wf, groupOk, reg3, reg2, regOff, regImm, flt3, vec4, vec3, Bool.and_eq_true, Bool.or_eq_true, Bool.not_eq_true', decide_eq_true_eq] at h
  have key : ∀ x, IsR x 0x11 d 0 g 0x12 → decodeBody x = .ok (.catchq d g) := by
    rintro x ⟨f, f24_6, f18_6, f12_6, f6_6, f0_6, f6_4, f10_2, f6_3, f9_3, f22_2, f18_4, f19_5, f18_1, f6_18, f6_12⟩
    rw [decodeBody, f24_6, major_11]
    simp (disch := omega) [Dec.sync, groupOk, Dec.need, Dec.sel, Dec.cell, Dec.d, Dec.a, Dec.rb, Dec.fn, Dec.imm, Nat.mod_eq_of_lt, Nat.div_eq_of_lt, h, f18_6, f12_6, f6_6, f0_6, f6_4, f10_2, f6_3, f9_3, f22_2, f18_4, f19_5, f18_1, f6_18, f6_12]
  cases (hw : some (Enc.r 0x11 d 0 g 0x12) = some w0)
  have hx : IsR (Enc.r 0x11 d 0 g 0x12) 0x11 d 0 g 0x12 := isR (by omega) (by omega) (by omega) (by omega) (by omega)
  exact ⟨hx.lt, key _ hx⟩

theorem waitk (k a : Nat) : Statement (.waitk k a) := by
  intro h w0 hw
  simp only [Instr.wf, groupOk, reg3, reg2, regOff, regImm, flt3, vec4, vec3, Bool.and_eq_true, Bool.or_eq_true, Bool.not_eq_true', decide_eq_true_eq] at h
  have key : ∀ x, IsR x 0x11 0 a k 0x18 → decodeBody x = .ok (.waitk k a) := by
    rintro x ⟨f, f24_6, f18_6, f12_6, f6_6, f0_6, f6_4, f10_2, f6_3, f9_3, f22_2, f18_4, f19_5, f18_1, f6_18, f6_12⟩
    rw [decodeBody, f24_6, major_11]
    simp (disch := omega) [Dec.sync, groupOk, Dec.need, Dec.sel, Dec.cell, Dec.d, Dec.a, Dec.rb, Dec.fn, Dec.imm, Nat.mod_eq_of_lt, Nat.div_eq_of_lt, h, f18_6, f12_6, f6_6, f0_6, f6_4, f10_2, f6_3, f9_3, f22_2, f18_4, f19_5, f18_1, f6_18, f6_12]
  cases (hw : some (Enc.r 0x11 0 a k 0x18) = some w0)
  have hx : IsR (Enc.r 0x11 0 a k 0x18) 0x11 0 a k 0x18 := isR (by omega) (by omega) (by omega) (by omega) (by omega)
  exact ⟨hx.lt, key _ hx⟩

theorem waitt (a b : Nat) : Statement (.waitt a b) := by
  intro h w0 hw
  simp only [Instr.wf, groupOk, reg3, reg2, regOff, regImm, flt3, vec4, vec3, Bool.and_eq_true, Bool.or_eq_true, Bool.not_eq_true', decide_eq_true_eq] at h
  have key : ∀ x, IsR x 0x11 0 a b 0x19 → decodeBody x = .ok (.waitt a b) := by
    rintro x ⟨f, f24_6, f18_6, f12_6, f6_6, f0_6, f6_4, f10_2, f6_3, f9_3, f22_2, f18_4, f19_5, f18_1, f6_18, f6_12⟩
    rw [decodeBody, f24_6, major_11]
    simp (disch := omega) [Dec.sync, groupOk, Dec.need, Dec.sel, Dec.cell, Dec.d, Dec.a, Dec.rb, Dec.fn, Dec.imm, Nat.mod_eq_of_lt, Nat.div_eq_of_lt, h, f18_6, f12_6, f6_6, f0_6, f6_4, f10_2, f6_3, f9_3, f22_2, f18_4, f19_5, f18_1, f6_18, f6_12]
  cases (hw : some (Enc.r 0x11 0 a b 0x19) = some w0)
  have hx : IsR (Enc.r 0x11 0 a b 0x19) 0x11 0 a b 0x19 := isR (by omega) (by omega) (by omega) (by omega) (by omega)
  exact ⟨hx.lt, key _ hx⟩

theorem krd (d k a : Nat) : Statement (.krd d k a) := by
  intro h w0 hw
  simp only [Instr.wf, groupOk, reg3, reg2, regOff, regImm, flt3, vec4, vec3, Bool.and_eq_true, Bool.or_eq_true, Bool.not_eq_true', decide_eq_true_eq] at h
  have key : ∀ x, IsR x 0x11 d a k 0x1A → decodeBody x = .ok (.krd d k a) := by
    rintro x ⟨f, f24_6, f18_6, f12_6, f6_6, f0_6, f6_4, f10_2, f6_3, f9_3, f22_2, f18_4, f19_5, f18_1, f6_18, f6_12⟩
    rw [decodeBody, f24_6, major_11]
    simp (disch := omega) [Dec.sync, groupOk, Dec.need, Dec.sel, Dec.cell, Dec.d, Dec.a, Dec.rb, Dec.fn, Dec.imm, Nat.mod_eq_of_lt, Nat.div_eq_of_lt, h, f18_6, f12_6, f6_6, f0_6, f6_4, f10_2, f6_3, f9_3, f22_2, f18_4, f19_5, f18_1, f6_18, f6_12]
  cases (hw : some (Enc.r 0x11 d a k 0x1A) = some w0)
  have hx : IsR (Enc.r 0x11 d a k 0x1A) 0x11 d a k 0x1A := isR (by omega) (by omega) (by omega) (by omega) (by omega)
  exact ⟨hx.lt, key _ hx⟩

theorem kadd (k a : Nat) : Statement (.kadd k a) := by
  intro h w0 hw
  simp only [Instr.wf, groupOk, reg3, reg2, regOff, regImm, flt3, vec4, vec3, Bool.and_eq_true, Bool.or_eq_true, Bool.not_eq_true', decide_eq_true_eq] at h
  have key : ∀ x, IsR x 0x11 0 a k 0x1B → decodeBody x = .ok (.kadd k a) := by
    rintro x ⟨f, f24_6, f18_6, f12_6, f6_6, f0_6, f6_4, f10_2, f6_3, f9_3, f22_2, f18_4, f19_5, f18_1, f6_18, f6_12⟩
    rw [decodeBody, f24_6, major_11]
    simp (disch := omega) [Dec.sync, groupOk, Dec.need, Dec.sel, Dec.cell, Dec.d, Dec.a, Dec.rb, Dec.fn, Dec.imm, Nat.mod_eq_of_lt, Nat.div_eq_of_lt, h, f18_6, f12_6, f6_6, f0_6, f6_4, f10_2, f6_3, f9_3, f22_2, f18_4, f19_5, f18_1, f6_18, f6_12]
  cases (hw : some (Enc.r 0x11 0 a k 0x1B) = some w0)
  have hx : IsR (Enc.r 0x11 0 a k 0x1B) 0x11 0 a k 0x1B := isR (by omega) (by omega) (by omega) (by omega) (by omega)
  exact ⟨hx.lt, key _ hx⟩

theorem spawn (a b : Nat) : Statement (.spawn a b) := by
  intro h w0 hw
  simp only [Instr.wf, groupOk, reg3, reg2, regOff, regImm, flt3, vec4, vec3, Bool.and_eq_true, Bool.or_eq_true, Bool.not_eq_true', decide_eq_true_eq] at h
  have key : ∀ x, IsR x 0x12 0 a b 0 → decodeBody x = .ok (.spawn a b) := by
    rintro x ⟨f, f24_6, f18_6, f12_6, f6_6, f0_6, f6_4, f10_2, f6_3, f9_3, f22_2, f18_4, f19_5, f18_1, f6_18, f6_12⟩
    rw [decodeBody, f24_6, major_12]
    simp (disch := omega) [Dec.continuation, groupOk, Dec.need, Dec.sel, Dec.cell, Dec.d, Dec.a, Dec.rb, Dec.fn, Dec.imm, Nat.mod_eq_of_lt, Nat.div_eq_of_lt, h, f18_6, f12_6, f6_6, f0_6, f6_4, f10_2, f6_3, f9_3, f22_2, f18_4, f19_5, f18_1, f6_18, f6_12]
  cases (hw : some (Enc.r 0x12 0 a b 0) = some w0)
  have hx : IsR (Enc.r 0x12 0 a b 0) 0x12 0 a b 0 := isR (by omega) (by omega) (by omega) (by omega) (by omega)
  exact ⟨hx.lt, key _ hx⟩

theorem join : Statement (.join) := by
  intro h w0 hw
  have key : ∀ x, IsR x 0x12 0 0 0 1 → decodeBody x = .ok (.join) := by
    rintro x ⟨f, f24_6, f18_6, f12_6, f6_6, f0_6, f6_4, f10_2, f6_3, f9_3, f22_2, f18_4, f19_5, f18_1, f6_18, f6_12⟩
    rw [decodeBody, f24_6, major_12]
    simp (disch := omega) [Dec.continuation, Dec.need, Dec.sel, Dec.cell, Dec.d, Dec.a, Dec.rb, Dec.fn, Dec.imm, Nat.mod_eq_of_lt, Nat.div_eq_of_lt, f18_6, f12_6, f6_6, f0_6, f6_4, f10_2, f6_3, f9_3, f22_2, f18_4, f19_5, f18_1, f6_18, f6_12]
  cases (hw : some (Enc.r 0x12 0 0 0 1) = some w0)
  have hx : IsR (Enc.r 0x12 0 0 0 1) 0x12 0 0 0 1 := isR (by omega) (by omega) (by omega) (by omega) (by omega)
  exact ⟨hx.lt, key _ hx⟩

theorem finish (a : Nat) : Statement (.finish a) := by
  intro h w0 hw
  simp only [Instr.wf, groupOk, reg3, reg2, regOff, regImm, flt3, vec4, vec3, Bool.and_eq_true, Bool.or_eq_true, Bool.not_eq_true', decide_eq_true_eq] at h
  have key : ∀ x, IsR x 0x12 0 a 0 2 → decodeBody x = .ok (.finish a) := by
    rintro x ⟨f, f24_6, f18_6, f12_6, f6_6, f0_6, f6_4, f10_2, f6_3, f9_3, f22_2, f18_4, f19_5, f18_1, f6_18, f6_12⟩
    rw [decodeBody, f24_6, major_12]
    simp (disch := omega) [Dec.continuation, groupOk, Dec.need, Dec.sel, Dec.cell, Dec.d, Dec.a, Dec.rb, Dec.fn, Dec.imm, Nat.mod_eq_of_lt, Nat.div_eq_of_lt, h, f18_6, f12_6, f6_6, f0_6, f6_4, f10_2, f6_3, f9_3, f22_2, f18_4, f19_5, f18_1, f6_18, f6_12]
  cases (hw : some (Enc.r 0x12 0 a 0 2) = some w0)
  have hx : IsR (Enc.r 0x12 0 a 0 2) 0x12 0 a 0 2 := isR (by omega) (by omega) (by omega) (by omega) (by omega)
  exact ⟨hx.lt, key _ hx⟩

theorem suspk (k a d : Nat) : Statement (.suspk k a d) := by
  intro h w0 hw
  simp only [Instr.wf, groupOk, reg3, reg2, regOff, regImm, flt3, vec4, vec3, Bool.and_eq_true, Bool.or_eq_true, Bool.not_eq_true', decide_eq_true_eq] at h
  have key : ∀ x, IsR x 0x12 d a k 3 → decodeBody x = .ok (.suspk k a d) := by
    rintro x ⟨f, f24_6, f18_6, f12_6, f6_6, f0_6, f6_4, f10_2, f6_3, f9_3, f22_2, f18_4, f19_5, f18_1, f6_18, f6_12⟩
    rw [decodeBody, f24_6, major_12]
    simp (disch := omega) [Dec.continuation, groupOk, Dec.need, Dec.sel, Dec.cell, Dec.d, Dec.a, Dec.rb, Dec.fn, Dec.imm, Nat.mod_eq_of_lt, Nat.div_eq_of_lt, h, f18_6, f12_6, f6_6, f0_6, f6_4, f10_2, f6_3, f9_3, f22_2, f18_4, f19_5, f18_1, f6_18, f6_12]
  cases (hw : some (Enc.r 0x12 d a k 3) = some w0)
  have hx : IsR (Enc.r 0x12 d a k 3) 0x12 d a k 3 := isR (by omega) (by omega) (by omega) (by omega) (by omega)
  exact ⟨hx.lt, key _ hx⟩

theorem suspt (a : Nat) : Statement (.suspt a) := by
  intro h w0 hw
  simp only [Instr.wf, groupOk, reg3, reg2, regOff, regImm, flt3, vec4, vec3, Bool.and_eq_true, Bool.or_eq_true, Bool.not_eq_true', decide_eq_true_eq] at h
  have key : ∀ x, IsR x 0x12 0 a 0 4 → decodeBody x = .ok (.suspt a) := by
    rintro x ⟨f, f24_6, f18_6, f12_6, f6_6, f0_6, f6_4, f10_2, f6_3, f9_3, f22_2, f18_4, f19_5, f18_1, f6_18, f6_12⟩
    rw [decodeBody, f24_6, major_12]
    simp (disch := omega) [Dec.continuation, groupOk, Dec.need, Dec.sel, Dec.cell, Dec.d, Dec.a, Dec.rb, Dec.fn, Dec.imm, Nat.mod_eq_of_lt, Nat.div_eq_of_lt, h, f18_6, f12_6, f6_6, f0_6, f6_4, f10_2, f6_3, f9_3, f22_2, f18_4, f19_5, f18_1, f6_18, f6_12]
  cases (hw : some (Enc.r 0x12 0 a 0 4) = some w0)
  have hx : IsR (Enc.r 0x12 0 a 0 4) 0x12 0 a 0 4 := isR (by omega) (by omega) (by omega) (by omega) (by omega)
  exact ⟨hx.lt, key _ hx⟩

theorem yield : Statement (.yield) := by
  intro h w0 hw
  have key : ∀ x, IsR x 0x12 0 0 0 5 → decodeBody x = .ok (.yield) := by
    rintro x ⟨f, f24_6, f18_6, f12_6, f6_6, f0_6, f6_4, f10_2, f6_3, f9_3, f22_2, f18_4, f19_5, f18_1, f6_18, f6_12⟩
    rw [decodeBody, f24_6, major_12]
    simp (disch := omega) [Dec.continuation, Dec.need, Dec.sel, Dec.cell, Dec.d, Dec.a, Dec.rb, Dec.fn, Dec.imm, Nat.mod_eq_of_lt, Nat.div_eq_of_lt, f18_6, f12_6, f6_6, f0_6, f6_4, f10_2, f6_3, f9_3, f22_2, f18_4, f19_5, f18_1, f6_18, f6_12]
  cases (hw : some (Enc.r 0x12 0 0 0 5) = some w0)
  have hx : IsR (Enc.r 0x12 0 0 0 5) 0x12 0 0 0 5 := isR (by omega) (by omega) (by omega) (by omega) (by omega)
  exact ⟨hx.lt, key _ hx⟩

theorem assume (d a b : Nat) : Statement (.assume d a b) := by
  intro h w0 hw
  simp only [Instr.wf, groupOk, reg3, reg2, regOff, regImm, flt3, vec4, vec3, Bool.and_eq_true, Bool.or_eq_true, Bool.not_eq_true', decide_eq_true_eq] at h
  have key : ∀ x, IsR x 0x13 d a b 0 → decodeBody x = .ok (.assume d a b) := by
    rintro x ⟨f, f24_6, f18_6, f12_6, f6_6, f0_6, f6_4, f10_2, f6_3, f9_3, f22_2, f18_4, f19_5, f18_1, f6_18, f6_12⟩
    rw [decodeBody, f24_6, major_13]
    simp (disch := omega) [Dec.label, groupOk, Dec.need, Dec.sel, Dec.cell, Dec.d, Dec.a, Dec.rb, Dec.fn, Dec.imm, Nat.mod_eq_of_lt, Nat.div_eq_of_lt, h, f18_6, f12_6, f6_6, f0_6, f6_4, f10_2, f6_3, f9_3, f22_2, f18_4, f19_5, f18_1, f6_18, f6_12]
  cases (hw : some (Enc.r 0x13 d a b 0) = some w0)
  have hx : IsR (Enc.r 0x13 d a b 0) 0x13 d a b 0 := isR (by omega) (by omega) (by omega) (by omega) (by omega)
  exact ⟨hx.lt, key _ hx⟩

theorem assumev (d a b : Nat) : Statement (.assumev d a b) := by
  intro h w0 hw
  simp only [Instr.wf, groupOk, reg3, reg2, regOff, regImm, flt3, vec4, vec3, Bool.and_eq_true, Bool.or_eq_true, Bool.not_eq_true', decide_eq_true_eq] at h
  have key : ∀ x, IsR x 0x13 d a b 1 → decodeBody x = .ok (.assumev d a b) := by
    rintro x ⟨f, f24_6, f18_6, f12_6, f6_6, f0_6, f6_4, f10_2, f6_3, f9_3, f22_2, f18_4, f19_5, f18_1, f6_18, f6_12⟩
    rw [decodeBody, f24_6, major_13]
    simp (disch := omega) [Dec.label, groupOk, Dec.need, Dec.sel, Dec.cell, Dec.d, Dec.a, Dec.rb, Dec.fn, Dec.imm, Nat.mod_eq_of_lt, Nat.div_eq_of_lt, h, f18_6, f12_6, f6_6, f0_6, f6_4, f10_2, f6_3, f9_3, f22_2, f18_4, f19_5, f18_1, f6_18, f6_12]
  cases (hw : some (Enc.r 0x13 d a b 1) = some w0)
  have hx : IsR (Enc.r 0x13 d a b 1) 0x13 d a b 1 := isR (by omega) (by omega) (by omega) (by omega) (by omega)
  exact ⟨hx.lt, key _ hx⟩

theorem lblof (d a : Nat) : Statement (.lblof d a) := by
  intro h w0 hw
  simp only [Instr.wf, groupOk, reg3, reg2, regOff, regImm, flt3, vec4, vec3, Bool.and_eq_true, Bool.or_eq_true, Bool.not_eq_true', decide_eq_true_eq] at h
  have key : ∀ x, IsR x 0x13 d a 0 2 → decodeBody x = .ok (.lblof d a) := by
    rintro x ⟨f, f24_6, f18_6, f12_6, f6_6, f0_6, f6_4, f10_2, f6_3, f9_3, f22_2, f18_4, f19_5, f18_1, f6_18, f6_12⟩
    rw [decodeBody, f24_6, major_13]
    simp (disch := omega) [Dec.label, groupOk, Dec.need, Dec.sel, Dec.cell, Dec.d, Dec.a, Dec.rb, Dec.fn, Dec.imm, Nat.mod_eq_of_lt, Nat.div_eq_of_lt, h, f18_6, f12_6, f6_6, f0_6, f6_4, f10_2, f6_3, f9_3, f22_2, f18_4, f19_5, f18_1, f6_18, f6_12]
  cases (hw : some (Enc.r 0x13 d a 0 2) = some w0)
  have hx : IsR (Enc.r 0x13 d a 0 2) 0x13 d a 0 2 := isR (by omega) (by omega) (by omega) (by omega) (by omega)
  exact ⟨hx.lt, key _ hx⟩

theorem lblset (d a b : Nat) : Statement (.lblset d a b) := by
  intro h w0 hw
  simp only [Instr.wf, groupOk, reg3, reg2, regOff, regImm, flt3, vec4, vec3, Bool.and_eq_true, Bool.or_eq_true, Bool.not_eq_true', decide_eq_true_eq] at h
  have key : ∀ x, IsR x 0x13 d a b 3 → decodeBody x = .ok (.lblset d a b) := by
    rintro x ⟨f, f24_6, f18_6, f12_6, f6_6, f0_6, f6_4, f10_2, f6_3, f9_3, f22_2, f18_4, f19_5, f18_1, f6_18, f6_12⟩
    rw [decodeBody, f24_6, major_13]
    simp (disch := omega) [Dec.label, groupOk, Dec.need, Dec.sel, Dec.cell, Dec.d, Dec.a, Dec.rb, Dec.fn, Dec.imm, Nat.mod_eq_of_lt, Nat.div_eq_of_lt, h, f18_6, f12_6, f6_6, f0_6, f6_4, f10_2, f6_3, f9_3, f22_2, f18_4, f19_5, f18_1, f6_18, f6_12]
  cases (hw : some (Enc.r 0x13 d a b 3) = some w0)
  have hx : IsR (Enc.r 0x13 d a b 3) 0x13 d a b 3 := isR (by omega) (by omega) (by omega) (by omega) (by omega)
  exact ⟨hx.lt, key _ hx⟩

theorem ljoin (d a b : Nat) : Statement (.ljoin d a b) := by
  intro h w0 hw
  simp only [Instr.wf, groupOk, reg3, reg2, regOff, regImm, flt3, vec4, vec3, Bool.and_eq_true, Bool.or_eq_true, Bool.not_eq_true', decide_eq_true_eq] at h
  have key : ∀ x, IsR x 0x13 d a b 4 → decodeBody x = .ok (.ljoin d a b) := by
    rintro x ⟨f, f24_6, f18_6, f12_6, f6_6, f0_6, f6_4, f10_2, f6_3, f9_3, f22_2, f18_4, f19_5, f18_1, f6_18, f6_12⟩
    rw [decodeBody, f24_6, major_13]
    simp (disch := omega) [Dec.label, groupOk, Dec.need, Dec.sel, Dec.cell, Dec.d, Dec.a, Dec.rb, Dec.fn, Dec.imm, Nat.mod_eq_of_lt, Nat.div_eq_of_lt, h, f18_6, f12_6, f6_6, f0_6, f6_4, f10_2, f6_3, f9_3, f22_2, f18_4, f19_5, f18_1, f6_18, f6_12]
  cases (hw : some (Enc.r 0x13 d a b 4) = some w0)
  have hx : IsR (Enc.r 0x13 d a b 4) 0x13 d a b 4 := isR (by omega) (by omega) (by omega) (by omega) (by omega)
  exact ⟨hx.lt, key _ hx⟩

theorem contra (a : Nat) : Statement (.contra a) := by
  intro h w0 hw
  simp only [Instr.wf, groupOk, reg3, reg2, regOff, regImm, flt3, vec4, vec3, Bool.and_eq_true, Bool.or_eq_true, Bool.not_eq_true', decide_eq_true_eq] at h
  have key : ∀ x, IsR x 0x13 0 a 0 5 → decodeBody x = .ok (.contra a) := by
    rintro x ⟨f, f24_6, f18_6, f12_6, f6_6, f0_6, f6_4, f10_2, f6_3, f9_3, f22_2, f18_4, f19_5, f18_1, f6_18, f6_12⟩
    rw [decodeBody, f24_6, major_13]
    simp (disch := omega) [Dec.label, groupOk, Dec.need, Dec.sel, Dec.cell, Dec.d, Dec.a, Dec.rb, Dec.fn, Dec.imm, Nat.mod_eq_of_lt, Nat.div_eq_of_lt, h, f18_6, f12_6, f6_6, f0_6, f6_4, f10_2, f6_3, f9_3, f22_2, f18_4, f19_5, f18_1, f6_18, f6_12]
  cases (hw : some (Enc.r 0x13 0 a 0 5) = some w0)
  have hx : IsR (Enc.r 0x13 0 a 0 5) 0x13 0 a 0 5 := isR (by omega) (by omega) (by omega) (by omega) (by omega)
  exact ⟨hx.lt, key _ hx⟩

theorem contrav (a : Nat) : Statement (.contrav a) := by
  intro h w0 hw
  simp only [Instr.wf, groupOk, reg3, reg2, regOff, regImm, flt3, vec4, vec3, Bool.and_eq_true, Bool.or_eq_true, Bool.not_eq_true', decide_eq_true_eq] at h
  have key : ∀ x, IsR x 0x13 0 a 0 6 → decodeBody x = .ok (.contrav a) := by
    rintro x ⟨f, f24_6, f18_6, f12_6, f6_6, f0_6, f6_4, f10_2, f6_3, f9_3, f22_2, f18_4, f19_5, f18_1, f6_18, f6_12⟩
    rw [decodeBody, f24_6, major_13]
    simp (disch := omega) [Dec.label, groupOk, Dec.need, Dec.sel, Dec.cell, Dec.d, Dec.a, Dec.rb, Dec.fn, Dec.imm, Nat.mod_eq_of_lt, Nat.div_eq_of_lt, h, f18_6, f12_6, f6_6, f0_6, f6_4, f10_2, f6_3, f9_3, f22_2, f18_4, f19_5, f18_1, f6_18, f6_12]
  cases (hw : some (Enc.r 0x13 0 a 0 6) = some w0)
  have hx : IsR (Enc.r 0x13 0 a 0 6) 0x13 0 a 0 6 := isR (by omega) (by omega) (by omega) (by omega) (by omega)
  exact ⟨hx.lt, key _ hx⟩

theorem ltest (d a : Nat) : Statement (.ltest d a) := by
  intro h w0 hw
  simp only [Instr.wf, groupOk, reg3, reg2, regOff, regImm, flt3, vec4, vec3, Bool.and_eq_true, Bool.or_eq_true, Bool.not_eq_true', decide_eq_true_eq] at h
  have key : ∀ x, IsR x 0x13 d a 0 7 → decodeBody x = .ok (.ltest d a) := by
    rintro x ⟨f, f24_6, f18_6, f12_6, f6_6, f0_6, f6_4, f10_2, f6_3, f9_3, f22_2, f18_4, f19_5, f18_1, f6_18, f6_12⟩
    rw [decodeBody, f24_6, major_13]
    simp (disch := omega) [Dec.label, groupOk, Dec.need, Dec.sel, Dec.cell, Dec.d, Dec.a, Dec.rb, Dec.fn, Dec.imm, Nat.mod_eq_of_lt, Nat.div_eq_of_lt, h, f18_6, f12_6, f6_6, f0_6, f6_4, f10_2, f6_3, f9_3, f22_2, f18_4, f19_5, f18_1, f6_18, f6_12]
  cases (hw : some (Enc.r 0x13 d a 0 7) = some w0)
  have hx : IsR (Enc.r 0x13 d a 0 7) 0x13 d a 0 7 := isR (by omega) (by omega) (by omega) (by omega) (by omega)
  exact ⟨hx.lt, key _ hx⟩

theorem lenv (d a b : Nat) : Statement (.lenv d a b) := by
  intro h w0 hw
  simp only [Instr.wf, groupOk, reg3, reg2, regOff, regImm, flt3, vec4, vec3, Bool.and_eq_true, Bool.or_eq_true, Bool.not_eq_true', decide_eq_true_eq] at h
  have key : ∀ x, IsR x 0x13 d a b 8 → decodeBody x = .ok (.lenv d a b) := by
    rintro x ⟨f, f24_6, f18_6, f12_6, f6_6, f0_6, f6_4, f10_2, f6_3, f9_3, f22_2, f18_4, f19_5, f18_1, f6_18, f6_12⟩
    rw [decodeBody, f24_6, major_13]
    simp (disch := omega) [Dec.label, groupOk, Dec.need, Dec.sel, Dec.cell, Dec.d, Dec.a, Dec.rb, Dec.fn, Dec.imm, Nat.mod_eq_of_lt, Nat.div_eq_of_lt, h, f18_6, f12_6, f6_6, f0_6, f6_4, f10_2, f6_3, f9_3, f22_2, f18_4, f19_5, f18_1, f6_18, f6_12]
  cases (hw : some (Enc.r 0x13 d a b 8) = some w0)
  have hx : IsR (Enc.r 0x13 d a b 8) 0x13 d a b 8 := isR (by omega) (by omega) (by omega) (by omega) (by omega)
  exact ⟨hx.lt, key _ hx⟩

theorem wreset : Statement (.wreset) := by
  intro h w0 hw
  have key : ∀ x, IsR x 0x13 0 0 0 9 → decodeBody x = .ok (.wreset) := by
    rintro x ⟨f, f24_6, f18_6, f12_6, f6_6, f0_6, f6_4, f10_2, f6_3, f9_3, f22_2, f18_4, f19_5, f18_1, f6_18, f6_12⟩
    rw [decodeBody, f24_6, major_13]
    simp (disch := omega) [Dec.label, Dec.need, Dec.sel, Dec.cell, Dec.d, Dec.a, Dec.rb, Dec.fn, Dec.imm, Nat.mod_eq_of_lt, Nat.div_eq_of_lt, f18_6, f12_6, f6_6, f0_6, f6_4, f10_2, f6_3, f9_3, f22_2, f18_4, f19_5, f18_1, f6_18, f6_12]
  cases (hw : some (Enc.r 0x13 0 0 0 9) = some w0)
  have hx : IsR (Enc.r 0x13 0 0 0 9) 0x13 0 0 0 9 := isR (by omega) (by omega) (by omega) (by omega) (by omega)
  exact ⟨hx.lt, key _ hx⟩

theorem lld (d a : Nat) : Statement (.lld d a) := by
  intro h w0 hw
  simp only [Instr.wf, groupOk, reg3, reg2, regOff, regImm, flt3, vec4, vec3, Bool.and_eq_true, Bool.or_eq_true, Bool.not_eq_true', decide_eq_true_eq] at h
  have key : ∀ x, IsR x 0x13 d a 0 10 → decodeBody x = .ok (.lld d a) := by
    rintro x ⟨f, f24_6, f18_6, f12_6, f6_6, f0_6, f6_4, f10_2, f6_3, f9_3, f22_2, f18_4, f19_5, f18_1, f6_18, f6_12⟩
    rw [decodeBody, f24_6, major_13]
    simp (disch := omega) [Dec.label, groupOk, Dec.need, Dec.sel, Dec.cell, Dec.d, Dec.a, Dec.rb, Dec.fn, Dec.imm, Nat.mod_eq_of_lt, Nat.div_eq_of_lt, h, f18_6, f12_6, f6_6, f0_6, f6_4, f10_2, f6_3, f9_3, f22_2, f18_4, f19_5, f18_1, f6_18, f6_12]
  cases (hw : some (Enc.r 0x13 d a 0 10) = some w0)
  have hx : IsR (Enc.r 0x13 d a 0 10) 0x13 d a 0 10 := isR (by omega) (by omega) (by omega) (by omega) (by omega)
  exact ⟨hx.lt, key _ hx⟩

theorem lst (d a : Nat) : Statement (.lst d a) := by
  intro h w0 hw
  simp only [Instr.wf, groupOk, reg3, reg2, regOff, regImm, flt3, vec4, vec3, Bool.and_eq_true, Bool.or_eq_true, Bool.not_eq_true', decide_eq_true_eq] at h
  have key : ∀ x, IsR x 0x13 d a 0 11 → decodeBody x = .ok (.lst d a) := by
    rintro x ⟨f, f24_6, f18_6, f12_6, f6_6, f0_6, f6_4, f10_2, f6_3, f9_3, f22_2, f18_4, f19_5, f18_1, f6_18, f6_12⟩
    rw [decodeBody, f24_6, major_13]
    simp (disch := omega) [Dec.label, groupOk, Dec.need, Dec.sel, Dec.cell, Dec.d, Dec.a, Dec.rb, Dec.fn, Dec.imm, Nat.mod_eq_of_lt, Nat.div_eq_of_lt, h, f18_6, f12_6, f6_6, f0_6, f6_4, f10_2, f6_3, f9_3, f22_2, f18_4, f19_5, f18_1, f6_18, f6_12]
  cases (hw : some (Enc.r 0x13 d a 0 11) = some w0)
  have hx : IsR (Enc.r 0x13 d a 0 11) 0x13 d a 0 11 := isR (by omega) (by omega) (by omega) (by omega) (by omega)
  exact ⟨hx.lt, key _ hx⟩

theorem jsub (d a : Nat) : Statement (.jsub d a) := by
  intro h w0 hw
  simp only [Instr.wf, groupOk, reg3, reg2, regOff, regImm, flt3, vec4, vec3, Bool.and_eq_true, Bool.or_eq_true, Bool.not_eq_true', decide_eq_true_eq] at h
  have key : ∀ x, IsR x 0x14 d a 0 0 → decodeBody x = .ok (.jsub d a) := by
    rintro x ⟨f, f24_6, f18_6, f12_6, f6_6, f0_6, f6_4, f10_2, f6_3, f9_3, f22_2, f18_4, f19_5, f18_1, f6_18, f6_12⟩
    rw [decodeBody, f24_6, major_14]
    simp (disch := omega) [Dec.copy, groupOk, Dec.need, Dec.sel, Dec.cell, Dec.d, Dec.a, Dec.rb, Dec.fn, Dec.imm, Nat.mod_eq_of_lt, Nat.div_eq_of_lt, h, f18_6, f12_6, f6_6, f0_6, f6_4, f10_2, f6_3, f9_3, f22_2, f18_4, f19_5, f18_1, f6_18, f6_12]
  cases (hw : some (Enc.r 0x14 d a 0 0) = some w0)
  have hx : IsR (Enc.r 0x14 d a 0 0) 0x14 d a 0 0 := isR (by omega) (by omega) (by omega) (by omega) (by omega)
  exact ⟨hx.lt, key _ hx⟩

theorem jpoll (d a : Nat) : Statement (.jpoll d a) := by
  intro h w0 hw
  simp only [Instr.wf, groupOk, reg3, reg2, regOff, regImm, flt3, vec4, vec3, Bool.and_eq_true, Bool.or_eq_true, Bool.not_eq_true', decide_eq_true_eq] at h
  have key : ∀ x, IsR x 0x14 d a 0 1 → decodeBody x = .ok (.jpoll d a) := by
    rintro x ⟨f, f24_6, f18_6, f12_6, f6_6, f0_6, f6_4, f10_2, f6_3, f9_3, f22_2, f18_4, f19_5, f18_1, f6_18, f6_12⟩
    rw [decodeBody, f24_6, major_14]
    simp (disch := omega) [Dec.copy, groupOk, Dec.need, Dec.sel, Dec.cell, Dec.d, Dec.a, Dec.rb, Dec.fn, Dec.imm, Nat.mod_eq_of_lt, Nat.div_eq_of_lt, h, f18_6, f12_6, f6_6, f0_6, f6_4, f10_2, f6_3, f9_3, f22_2, f18_4, f19_5, f18_1, f6_18, f6_12]
  cases (hw : some (Enc.r 0x14 d a 0 1) = some w0)
  have hx : IsR (Enc.r 0x14 d a 0 1) 0x14 d a 0 1 := isR (by omega) (by omega) (by omega) (by omega) (by omega)
  exact ⟨hx.lt, key _ hx⟩

theorem jcancel (d a : Nat) : Statement (.jcancel d a) := by
  intro h w0 hw
  simp only [Instr.wf, groupOk, reg3, reg2, regOff, regImm, flt3, vec4, vec3, Bool.and_eq_true, Bool.or_eq_true, Bool.not_eq_true', decide_eq_true_eq] at h
  have key : ∀ x, IsR x 0x14 d a 0 2 → decodeBody x = .ok (.jcancel d a) := by
    rintro x ⟨f, f24_6, f18_6, f12_6, f6_6, f0_6, f6_4, f10_2, f6_3, f9_3, f22_2, f18_4, f19_5, f18_1, f6_18, f6_12⟩
    rw [decodeBody, f24_6, major_14]
    simp (disch := omega) [Dec.copy, groupOk, Dec.need, Dec.sel, Dec.cell, Dec.d, Dec.a, Dec.rb, Dec.fn, Dec.imm, Nat.mod_eq_of_lt, Nat.div_eq_of_lt, h, f18_6, f12_6, f6_6, f0_6, f6_4, f10_2, f6_3, f9_3, f22_2, f18_4, f19_5, f18_1, f6_18, f6_12]
  cases (hw : some (Enc.r 0x14 d a 0 2) = some w0)
  have hx : IsR (Enc.r 0x14 d a 0 2) 0x14 d a 0 2 := isR (by omega) (by omega) (by omega) (by omega) (by omega)
  exact ⟨hx.lt, key _ hx⟩

theorem get (k a : Nat) : Statement (.get k a) := by
  intro h w0 hw
  simp only [Instr.wf, groupOk, reg3, reg2, regOff, regImm, flt3, vec4, vec3, Bool.and_eq_true, Bool.or_eq_true, Bool.not_eq_true', decide_eq_true_eq] at h
  have key : ∀ x, IsR x 0x14 0 a k 4 → decodeBody x = .ok (.get k a) := by
    rintro x ⟨f, f24_6, f18_6, f12_6, f6_6, f0_6, f6_4, f10_2, f6_3, f9_3, f22_2, f18_4, f19_5, f18_1, f6_18, f6_12⟩
    rw [decodeBody, f24_6, major_14]
    simp (disch := omega) [Dec.copy, groupOk, Dec.need, Dec.sel, Dec.cell, Dec.d, Dec.a, Dec.rb, Dec.fn, Dec.imm, Nat.mod_eq_of_lt, Nat.div_eq_of_lt, h, f18_6, f12_6, f6_6, f0_6, f6_4, f10_2, f6_3, f9_3, f22_2, f18_4, f19_5, f18_1, f6_18, f6_12]
  cases (hw : some (Enc.r 0x14 0 a k 4) = some w0)
  have hx : IsR (Enc.r 0x14 0 a k 4) 0x14 0 a k 4 := isR (by omega) (by omega) (by omega) (by omega) (by omega)
  exact ⟨hx.lt, key _ hx⟩

theorem getx (k a : Nat) : Statement (.getx k a) := by
  intro h w0 hw
  simp only [Instr.wf, groupOk, reg3, reg2, regOff, regImm, flt3, vec4, vec3, Bool.and_eq_true, Bool.or_eq_true, Bool.not_eq_true', decide_eq_true_eq] at h
  have key : ∀ x, IsR x 0x14 0 a k 5 → decodeBody x = .ok (.getx k a) := by
    rintro x ⟨f, f24_6, f18_6, f12_6, f6_6, f0_6, f6_4, f10_2, f6_3, f9_3, f22_2, f18_4, f19_5, f18_1, f6_18, f6_12⟩
    rw [decodeBody, f24_6, major_14]
    simp (disch := omega) [Dec.copy, groupOk, Dec.need, Dec.sel, Dec.cell, Dec.d, Dec.a, Dec.rb, Dec.fn, Dec.imm, Nat.mod_eq_of_lt, Nat.div_eq_of_lt, h, f18_6, f12_6, f6_6, f0_6, f6_4, f10_2, f6_3, f9_3, f22_2, f18_4, f19_5, f18_1, f6_18, f6_12]
  cases (hw : some (Enc.r 0x14 0 a k 5) = some w0)
  have hx : IsR (Enc.r 0x14 0 a k 5) 0x14 0 a k 5 := isR (by omega) (by omega) (by omega) (by omega) (by omega)
  exact ⟨hx.lt, key _ hx⟩

theorem send (k a : Nat) : Statement (.send k a) := by
  intro h w0 hw
  simp only [Instr.wf, groupOk, reg3, reg2, regOff, regImm, flt3, vec4, vec3, Bool.and_eq_true, Bool.or_eq_true, Bool.not_eq_true', decide_eq_true_eq] at h
  have key : ∀ x, IsR x 0x14 0 a k 6 → decodeBody x = .ok (.send k a) := by
    rintro x ⟨f, f24_6, f18_6, f12_6, f6_6, f0_6, f6_4, f10_2, f6_3, f9_3, f22_2, f18_4, f19_5, f18_1, f6_18, f6_12⟩
    rw [decodeBody, f24_6, major_14]
    simp (disch := omega) [Dec.copy, groupOk, Dec.need, Dec.sel, Dec.cell, Dec.d, Dec.a, Dec.rb, Dec.fn, Dec.imm, Nat.mod_eq_of_lt, Nat.div_eq_of_lt, h, f18_6, f12_6, f6_6, f0_6, f6_4, f10_2, f6_3, f9_3, f22_2, f18_4, f19_5, f18_1, f6_18, f6_12]
  cases (hw : some (Enc.r 0x14 0 a k 6) = some w0)
  have hx : IsR (Enc.r 0x14 0 a k 6) 0x14 0 a k 6 := isR (by omega) (by omega) (by omega) (by omega) (by omega)
  exact ⟨hx.lt, key _ hx⟩

theorem sendx (k a : Nat) : Statement (.sendx k a) := by
  intro h w0 hw
  simp only [Instr.wf, groupOk, reg3, reg2, regOff, regImm, flt3, vec4, vec3, Bool.and_eq_true, Bool.or_eq_true, Bool.not_eq_true', decide_eq_true_eq] at h
  have key : ∀ x, IsR x 0x14 0 a k 7 → decodeBody x = .ok (.sendx k a) := by
    rintro x ⟨f, f24_6, f18_6, f12_6, f6_6, f0_6, f6_4, f10_2, f6_3, f9_3, f22_2, f18_4, f19_5, f18_1, f6_18, f6_12⟩
    rw [decodeBody, f24_6, major_14]
    simp (disch := omega) [Dec.copy, groupOk, Dec.need, Dec.sel, Dec.cell, Dec.d, Dec.a, Dec.rb, Dec.fn, Dec.imm, Nat.mod_eq_of_lt, Nat.div_eq_of_lt, h, f18_6, f12_6, f6_6, f0_6, f6_4, f10_2, f6_3, f9_3, f22_2, f18_4, f19_5, f18_1, f6_18, f6_12]
  cases (hw : some (Enc.r 0x14 0 a k 7) = some w0)
  have hx : IsR (Enc.r 0x14 0 a k 7) 0x14 0 a k 7 := isR (by omega) (by omega) (by omega) (by omega) (by omega)
  exact ⟨hx.lt, key _ hx⟩

theorem smode (v a : Nat) : Statement (.smode v a) := by
  intro h w0 hw
  simp only [Instr.wf, groupOk, reg3, reg2, regOff, regImm, flt3, vec4, vec3, Bool.and_eq_true, Bool.or_eq_true, Bool.not_eq_true', decide_eq_true_eq] at h
  have key : ∀ x, IsR x 0x14 v a 0 8 → decodeBody x = .ok (.smode v a) := by
    rintro x ⟨f, f24_6, f18_6, f12_6, f6_6, f0_6, f6_4, f10_2, f6_3, f9_3, f22_2, f18_4, f19_5, f18_1, f6_18, f6_12⟩
    rw [decodeBody, f24_6, major_14]
    simp (disch := omega) [Dec.copy, groupOk, Dec.need, Dec.sel, Dec.cell, Dec.d, Dec.a, Dec.rb, Dec.fn, Dec.imm, Nat.mod_eq_of_lt, Nat.div_eq_of_lt, h, f18_6, f12_6, f6_6, f0_6, f6_4, f10_2, f6_3, f9_3, f22_2, f18_4, f19_5, f18_1, f6_18, f6_12]
  cases (hw : some (Enc.r 0x14 v a 0 8) = some w0)
  have hx : IsR (Enc.r 0x14 v a 0 8) 0x14 v a 0 8 := isR (by omega) (by omega) (by omega) (by omega) (by omega)
  exact ⟨hx.lt, key _ hx⟩

theorem soff (v : Nat) : Statement (.soff v) := by
  intro h w0 hw
  simp only [Instr.wf, groupOk, reg3, reg2, regOff, regImm, flt3, vec4, vec3, Bool.and_eq_true, Bool.or_eq_true, Bool.not_eq_true', decide_eq_true_eq] at h
  have key : ∀ x, IsR x 0x14 v 0 0 9 → decodeBody x = .ok (.soff v) := by
    rintro x ⟨f, f24_6, f18_6, f12_6, f6_6, f0_6, f6_4, f10_2, f6_3, f9_3, f22_2, f18_4, f19_5, f18_1, f6_18, f6_12⟩
    rw [decodeBody, f24_6, major_14]
    simp (disch := omega) [Dec.copy, groupOk, Dec.need, Dec.sel, Dec.cell, Dec.d, Dec.a, Dec.rb, Dec.fn, Dec.imm, Nat.mod_eq_of_lt, Nat.div_eq_of_lt, h, f18_6, f12_6, f6_6, f0_6, f6_4, f10_2, f6_3, f9_3, f22_2, f18_4, f19_5, f18_1, f6_18, f6_12]
  cases (hw : some (Enc.r 0x14 v 0 0 9) = some w0)
  have hx : IsR (Enc.r 0x14 v 0 0 9) 0x14 v 0 0 9 := isR (by omega) (by omega) (by omega) (by omega) (by omega)
  exact ⟨hx.lt, key _ hx⟩

theorem rcopy (k a : Nat) : Statement (.rcopy k a) := by
  intro h w0 hw
  simp only [Instr.wf, groupOk, reg3, reg2, regOff, regImm, flt3, vec4, vec3, Bool.and_eq_true, Bool.or_eq_true, Bool.not_eq_true', decide_eq_true_eq] at h
  have key : ∀ x, IsE x k a 0 0 → decodeBody x = .ok (.rcopy k a) := by
    rintro x ⟨f, f24_6, f20_4, f14_6, f8_6, f0_8, f3_5, f0_3, f1_7, f0_1⟩
    rw [decodeBody, f24_6, major_15]
    simp (disch := omega) [Dec.engine, groupOk, Dec.need, Dec.sel, Dec.cell, Dec.d, Dec.a, Dec.rb, Dec.fn, Dec.imm, Nat.mod_eq_of_lt, Nat.div_eq_of_lt, h, f20_4, f14_6, f8_6, f0_8, f3_5, f0_3, f1_7, f0_1]
  cases (hw : some (Enc.e k a 0 0) = some w0)
  have hx : IsE (Enc.e k a 0 0) k a 0 0 := isE (by omega) (by omega) (by omega) (by omega)
  exact ⟨hx.lt, key _ hx⟩

theorem rfill (k a : Nat) : Statement (.rfill k a) := by
  intro h w0 hw
  simp only [Instr.wf, groupOk, reg3, reg2, regOff, regImm, flt3, vec4, vec3, Bool.and_eq_true, Bool.or_eq_true, Bool.not_eq_true', decide_eq_true_eq] at h
  have key : ∀ x, IsE x k a 1 0 → decodeBody x = .ok (.rfill k a) := by
    rintro x ⟨f, f24_6, f20_4, f14_6, f8_6, f0_8, f3_5, f0_3, f1_7, f0_1⟩
    rw [decodeBody, f24_6, major_15]
    simp (disch := omega) [Dec.engine, groupOk, Dec.need, Dec.sel, Dec.cell, Dec.d, Dec.a, Dec.rb, Dec.fn, Dec.imm, Nat.mod_eq_of_lt, Nat.div_eq_of_lt, h, f20_4, f14_6, f8_6, f0_8, f3_5, f0_3, f1_7, f0_1]
  cases (hw : some (Enc.e k a 1 0) = some w0)
  have hx : IsE (Enc.e k a 1 0) k a 1 0 := isE (by omega) (by omega) (by omega) (by omega)
  exact ⟨hx.lt, key _ hx⟩

theorem rbool (op : RboolOp) (k a : Nat) : Statement (.rbool op k a) := by
  intro h w0 hw
  have qop := RboolOp.code_lt op
  simp only [Instr.wf, groupOk, reg3, reg2, regOff, regImm, flt3, vec4, vec3, Bool.and_eq_true, Bool.or_eq_true, Bool.not_eq_true', decide_eq_true_eq] at h
  have key : ∀ x, IsE x k a 2 op.code → decodeBody x = .ok (.rbool op k a) := by
    rintro x ⟨f, f24_6, f20_4, f14_6, f8_6, f0_8, f3_5, f0_3, f1_7, f0_1⟩
    rw [decodeBody, f24_6, major_15]
    simp (disch := omega) [Dec.engine, groupOk, Dec.need, Dec.sel, Dec.cell, Dec.d, Dec.a, Dec.rb, Dec.fn, Dec.imm, RboolOp.ofCode_code, Nat.mod_eq_of_lt, Nat.div_eq_of_lt, h, f20_4, f14_6, f8_6, f0_8, f3_5, f0_3, f1_7, f0_1]
  cases (hw : some (Enc.e k a 2 op.code) = some w0)
  have hx : IsE (Enc.e k a 2 op.code) k a 2 op.code := isE (by omega) (by omega) (by omega) (by omega)
  exact ⟨hx.lt, key _ hx⟩

theorem rpromo (pin : Bool) (k a : Nat) : Statement (.rpromo pin k a) := by
  intro h w0 hw
  have qpin := boolCode_lt pin
  simp only [Instr.wf, groupOk, reg3, reg2, regOff, regImm, flt3, vec4, vec3, Bool.and_eq_true, Bool.or_eq_true, Bool.not_eq_true', decide_eq_true_eq] at h
  have key : ∀ x, IsE x k a 3 (boolCode pin) → decodeBody x = .ok (.rpromo pin k a) := by
    rintro x ⟨f, f24_6, f20_4, f14_6, f8_6, f0_8, f3_5, f0_3, f1_7, f0_1⟩
    rw [decodeBody, f24_6, major_15]
    simp (disch := omega) [Dec.engine, groupOk, Dec.need, Dec.sel, Dec.cell, Dec.d, Dec.a, Dec.rb, Dec.fn, Dec.imm, boolCode_eq, Nat.mod_eq_of_lt, Nat.div_eq_of_lt, h, f20_4, f14_6, f8_6, f0_8, f3_5, f0_3, f1_7, f0_1]
  cases (hw : some (Enc.e k a 3 (boolCode pin)) = some w0)
  have hx : IsE (Enc.e k a 3 (boolCode pin)) k a 3 (boolCode pin) := isE (by omega) (by omega) (by omega) (by omega)
  exact ⟨hx.lt, key _ hx⟩

theorem rdemo (k a : Nat) : Statement (.rdemo k a) := by
  intro h w0 hw
  simp only [Instr.wf, groupOk, reg3, reg2, regOff, regImm, flt3, vec4, vec3, Bool.and_eq_true, Bool.or_eq_true, Bool.not_eq_true', decide_eq_true_eq] at h
  have key : ∀ x, IsE x k a 4 0 → decodeBody x = .ok (.rdemo k a) := by
    rintro x ⟨f, f24_6, f20_4, f14_6, f8_6, f0_8, f3_5, f0_3, f1_7, f0_1⟩
    rw [decodeBody, f24_6, major_15]
    simp (disch := omega) [Dec.engine, groupOk, Dec.need, Dec.sel, Dec.cell, Dec.d, Dec.a, Dec.rb, Dec.fn, Dec.imm, Nat.mod_eq_of_lt, Nat.div_eq_of_lt, h, f20_4, f14_6, f8_6, f0_8, f3_5, f0_3, f1_7, f0_1]
  cases (hw : some (Enc.e k a 4 0) = some w0)
  have hx : IsE (Enc.e k a 4 0) k a 4 0 := isE (by omega) (by omega) (by omega) (by omega)
  exact ⟨hx.lt, key _ hx⟩

theorem ired (fast : Bool) (k a : Nat) : Statement (.ired fast k a) := by
  intro h w0 hw
  have qfast := boolCode_lt fast
  simp only [Instr.wf, groupOk, reg3, reg2, regOff, regImm, flt3, vec4, vec3, Bool.and_eq_true, Bool.or_eq_true, Bool.not_eq_true', decide_eq_true_eq] at h
  have key : ∀ x, IsE x k a 5 (boolCode fast) → decodeBody x = .ok (.ired fast k a) := by
    rintro x ⟨f, f24_6, f20_4, f14_6, f8_6, f0_8, f3_5, f0_3, f1_7, f0_1⟩
    rw [decodeBody, f24_6, major_15]
    simp (disch := omega) [Dec.engine, groupOk, Dec.need, Dec.sel, Dec.cell, Dec.d, Dec.a, Dec.rb, Dec.fn, Dec.imm, boolCode_eq, Nat.mod_eq_of_lt, Nat.div_eq_of_lt, h, f20_4, f14_6, f8_6, f0_8, f3_5, f0_3, f1_7, f0_1]
  cases (hw : some (Enc.e k a 5 (boolCode fast)) = some w0)
  have hx : IsE (Enc.e k a 5 (boolCode fast)) k a 5 (boolCode fast) := isE (by omega) (by omega) (by omega) (by omega)
  exact ⟨hx.lt, key _ hx⟩

theorem edgerun (k a : Nat) : Statement (.edgerun k a) := by
  intro h w0 hw
  simp only [Instr.wf, groupOk, reg3, reg2, regOff, regImm, flt3, vec4, vec3, Bool.and_eq_true, Bool.or_eq_true, Bool.not_eq_true', decide_eq_true_eq] at h
  have key : ∀ x, IsE x k a 6 0 → decodeBody x = .ok (.edgerun k a) := by
    rintro x ⟨f, f24_6, f20_4, f14_6, f8_6, f0_8, f3_5, f0_3, f1_7, f0_1⟩
    rw [decodeBody, f24_6, major_15]
    simp (disch := omega) [Dec.engine, groupOk, Dec.need, Dec.sel, Dec.cell, Dec.d, Dec.a, Dec.rb, Dec.fn, Dec.imm, Nat.mod_eq_of_lt, Nat.div_eq_of_lt, h, f20_4, f14_6, f8_6, f0_8, f3_5, f0_3, f1_7, f0_1]
  cases (hw : some (Enc.e k a 6 0) = some w0)
  have hx : IsE (Enc.e k a 6 0) k a 6 0 := isE (by omega) (by omega) (by omega) (by omega)
  exact ⟨hx.lt, key _ hx⟩

theorem crr (d n : Nat) : Statement (.crr d n) := by
  intro h w0 hw
  simp only [Instr.wf, groupOk, reg3, reg2, regOff, regImm, flt3, vec4, vec3, Bool.and_eq_true, Bool.or_eq_true, Bool.not_eq_true', decide_eq_true_eq] at h
  have key : ∀ x, IsCr x 0 d 0 n → decodeBody x = .ok (.crr d n) := by
    rintro x ⟨f, f24_6, f10_2, f18_6, f12_6, f0_10⟩
    rw [decodeBody, f24_6, major_16]
    simp (disch := omega) [Dec.crAccess, groupOk, Dec.need, Dec.sel, Dec.cell, Dec.d, Dec.a, Dec.rb, Dec.fn, Dec.imm, Nat.mod_eq_of_lt, Nat.div_eq_of_lt, h, f10_2, f18_6, f12_6, f0_10]
  cases (hw : some (Enc.cr 0 d 0 n) = some w0)
  have hx : IsCr (Enc.cr 0 d 0 n) 0 d 0 n := isCr (by omega) (by omega) (by omega) (by omega)
  exact ⟨hx.lt, key _ hx⟩

theorem crw (n a : Nat) : Statement (.crw n a) := by
  intro h w0 hw
  simp only [Instr.wf, groupOk, reg3, reg2, regOff, regImm, flt3, vec4, vec3, Bool.and_eq_true, Bool.or_eq_true, Bool.not_eq_true', decide_eq_true_eq] at h
  have key : ∀ x, IsCr x 1 0 a n → decodeBody x = .ok (.crw n a) := by
    rintro x ⟨f, f24_6, f10_2, f18_6, f12_6, f0_10⟩
    rw [decodeBody, f24_6, major_16]
    simp (disch := omega) [Dec.crAccess, groupOk, Dec.need, Dec.sel, Dec.cell, Dec.d, Dec.a, Dec.rb, Dec.fn, Dec.imm, Nat.mod_eq_of_lt, Nat.div_eq_of_lt, h, f10_2, f18_6, f12_6, f0_10]
  cases (hw : some (Enc.cr 1 0 a n) = some w0)
  have hx : IsCr (Enc.cr 1 0 a n) 1 0 a n := isCr (by omega) (by omega) (by omega) (by omega)
  exact ⟨hx.lt, key _ hx⟩

theorem crs (d n a : Nat) : Statement (.crs d n a) := by
  intro h w0 hw
  simp only [Instr.wf, groupOk, reg3, reg2, regOff, regImm, flt3, vec4, vec3, Bool.and_eq_true, Bool.or_eq_true, Bool.not_eq_true', decide_eq_true_eq] at h
  have key : ∀ x, IsCr x 2 d a n → decodeBody x = .ok (.crs d n a) := by
    rintro x ⟨f, f24_6, f10_2, f18_6, f12_6, f0_10⟩
    rw [decodeBody, f24_6, major_16]
    simp (disch := omega) [Dec.crAccess, groupOk, Dec.need, Dec.sel, Dec.cell, Dec.d, Dec.a, Dec.rb, Dec.fn, Dec.imm, Nat.mod_eq_of_lt, Nat.div_eq_of_lt, h, f10_2, f18_6, f12_6, f0_10]
  cases (hw : some (Enc.cr 2 d a n) = some w0)
  have hx : IsCr (Enc.cr 2 d a n) 2 d a n := isCr (by omega) (by omega) (by omega) (by omega)
  exact ⟨hx.lt, key _ hx⟩

theorem crc (d n a : Nat) : Statement (.crc d n a) := by
  intro h w0 hw
  simp only [Instr.wf, groupOk, reg3, reg2, regOff, regImm, flt3, vec4, vec3, Bool.and_eq_true, Bool.or_eq_true, Bool.not_eq_true', decide_eq_true_eq] at h
  have key : ∀ x, IsCr x 3 d a n → decodeBody x = .ok (.crc d n a) := by
    rintro x ⟨f, f24_6, f10_2, f18_6, f12_6, f0_10⟩
    rw [decodeBody, f24_6, major_16]
    simp (disch := omega) [Dec.crAccess, groupOk, Dec.need, Dec.sel, Dec.cell, Dec.d, Dec.a, Dec.rb, Dec.fn, Dec.imm, Nat.mod_eq_of_lt, Nat.div_eq_of_lt, h, f10_2, f18_6, f12_6, f0_10]
  cases (hw : some (Enc.cr 3 d a n) = some w0)
  have hx : IsCr (Enc.cr 3 d a n) 3 d a n := isCr (by omega) (by omega) (by omega) (by omega)
  exact ⟨hx.lt, key _ hx⟩

theorem svc (n : Nat) : Statement (.svc n) := by
  intro h w0 hw
  simp only [Instr.wf, groupOk, reg3, reg2, regOff, regImm, flt3, vec4, vec3, Bool.and_eq_true, Bool.or_eq_true, Bool.not_eq_true', decide_eq_true_eq] at h
  have key : ∀ x, IsR x 0x17 0 (n / 64) (n % 64) 0 → decodeBody x = .ok (.svc n) := by
    rintro x ⟨f, f24_6, f18_6, f12_6, f6_6, f0_6, f6_4, f10_2, f6_3, f9_3, f22_2, f18_4, f19_5, f18_1, f6_18, f6_12⟩
    rw [decodeBody, f24_6, major_17]
    simp (disch := omega) [Dec.system, groupOk, Dec.need, Dec.sel, Dec.cell, Dec.d, Dec.a, Dec.rb, Dec.fn, Dec.imm, Nat.mod_eq_of_lt, Nat.div_eq_of_lt, h, f18_6, f12_6, f6_6, f0_6, f6_4, f10_2, f6_3, f9_3, f22_2, f18_4, f19_5, f18_1, f6_18, f6_12]
    omega
  replace hw : some (Enc.r 0x17 0 (n / 64) (n % 64) 0) = some w0 := by rw [← hw]; simp only [encode, Enc.r]; congr 1; omega
  cases (hw : some (Enc.r 0x17 0 (n / 64) (n % 64) 0) = some w0)
  have hx : IsR (Enc.r 0x17 0 (n / 64) (n % 64) 0) 0x17 0 (n / 64) (n % 64) 0 := isR (by omega) (by omega) (by omega) (by omega) (by omega)
  exact ⟨hx.lt, key _ hx⟩

theorem eret : Statement (.eret) := by
  intro h w0 hw
  have key : ∀ x, IsR x 0x17 0 0 0 1 → decodeBody x = .ok (.eret) := by
    rintro x ⟨f, f24_6, f18_6, f12_6, f6_6, f0_6, f6_4, f10_2, f6_3, f9_3, f22_2, f18_4, f19_5, f18_1, f6_18, f6_12⟩
    rw [decodeBody, f24_6, major_17]
    simp (disch := omega) [Dec.system, Dec.need, Dec.sel, Dec.cell, Dec.d, Dec.a, Dec.rb, Dec.fn, Dec.imm, Nat.mod_eq_of_lt, Nat.div_eq_of_lt, f18_6, f12_6, f6_6, f0_6, f6_4, f10_2, f6_3, f9_3, f22_2, f18_4, f19_5, f18_1, f6_18, f6_12]
  cases (hw : some (Enc.r 0x17 0 0 0 1) = some w0)
  have hx : IsR (Enc.r 0x17 0 0 0 1) 0x17 0 0 0 1 := isR (by omega) (by omega) (by omega) (by omega) (by omega)
  exact ⟨hx.lt, key _ hx⟩

theorem upret : Statement (.upret) := by
  intro h w0 hw
  have key : ∀ x, IsR x 0x17 0 0 0 2 → decodeBody x = .ok (.upret) := by
    rintro x ⟨f, f24_6, f18_6, f12_6, f6_6, f0_6, f6_4, f10_2, f6_3, f9_3, f22_2, f18_4, f19_5, f18_1, f6_18, f6_12⟩
    rw [decodeBody, f24_6, major_17]
    simp (disch := omega) [Dec.system, Dec.need, Dec.sel, Dec.cell, Dec.d, Dec.a, Dec.rb, Dec.fn, Dec.imm, Nat.mod_eq_of_lt, Nat.div_eq_of_lt, f18_6, f12_6, f6_6, f0_6, f6_4, f10_2, f6_3, f9_3, f22_2, f18_4, f19_5, f18_1, f6_18, f6_12]
  cases (hw : some (Enc.r 0x17 0 0 0 2) = some w0)
  have hx : IsR (Enc.r 0x17 0 0 0 2) 0x17 0 0 0 2 := isR (by omega) (by omega) (by omega) (by omega) (by omega)
  exact ⟨hx.lt, key _ hx⟩

theorem feat (d n : Nat) : Statement (.feat d n) := by
  intro h w0 hw
  simp only [Instr.wf, groupOk, reg3, reg2, regOff, regImm, flt3, vec4, vec3, Bool.and_eq_true, Bool.or_eq_true, Bool.not_eq_true', decide_eq_true_eq] at h
  have key : ∀ x, IsR x 0x17 d 0 n 3 → decodeBody x = .ok (.feat d n) := by
    rintro x ⟨f, f24_6, f18_6, f12_6, f6_6, f0_6, f6_4, f10_2, f6_3, f9_3, f22_2, f18_4, f19_5, f18_1, f6_18, f6_12⟩
    rw [decodeBody, f24_6, major_17]
    simp (disch := omega) [Dec.system, groupOk, Dec.need, Dec.sel, Dec.cell, Dec.d, Dec.a, Dec.rb, Dec.fn, Dec.imm, Nat.mod_eq_of_lt, Nat.div_eq_of_lt, h, f18_6, f12_6, f6_6, f0_6, f6_4, f10_2, f6_3, f9_3, f22_2, f18_4, f19_5, f18_1, f6_18, f6_12]
  cases (hw : some (Enc.r 0x17 d 0 n 3) = some w0)
  have hx : IsR (Enc.r 0x17 d 0 n 3) 0x17 d 0 n 3 := isR (by omega) (by omega) (by omega) (by omega) (by omega)
  exact ⟨hx.lt, key _ hx⟩

theorem invpg (a : Nat) : Statement (.invpg a) := by
  intro h w0 hw
  simp only [Instr.wf, groupOk, reg3, reg2, regOff, regImm, flt3, vec4, vec3, Bool.and_eq_true, Bool.or_eq_true, Bool.not_eq_true', decide_eq_true_eq] at h
  have key : ∀ x, IsR x 0x17 0 a 0 4 → decodeBody x = .ok (.invpg a) := by
    rintro x ⟨f, f24_6, f18_6, f12_6, f6_6, f0_6, f6_4, f10_2, f6_3, f9_3, f22_2, f18_4, f19_5, f18_1, f6_18, f6_12⟩
    rw [decodeBody, f24_6, major_17]
    simp (disch := omega) [Dec.system, groupOk, Dec.need, Dec.sel, Dec.cell, Dec.d, Dec.a, Dec.rb, Dec.fn, Dec.imm, Nat.mod_eq_of_lt, Nat.div_eq_of_lt, h, f18_6, f12_6, f6_6, f0_6, f6_4, f10_2, f6_3, f9_3, f22_2, f18_4, f19_5, f18_1, f6_18, f6_12]
  cases (hw : some (Enc.r 0x17 0 a 0 4) = some w0)
  have hx : IsR (Enc.r 0x17 0 a 0 4) 0x17 0 a 0 4 := isR (by omega) (by omega) (by omega) (by omega) (by omega)
  exact ⟨hx.lt, key _ hx⟩

theorem dtld (bank : Bank) (a : Nat) : Statement (.dtld bank a) := by
  intro h w0 hw
  have qbank := Bank.code_lt bank
  simp only [Instr.wf, groupOk, reg3, reg2, regOff, regImm, flt3, vec4, vec3, Bool.and_eq_true, Bool.or_eq_true, Bool.not_eq_true', decide_eq_true_eq] at h
  have key : ∀ x, IsR x 0x17 bank.code a 0 5 → decodeBody x = .ok (.dtld bank a) := by
    rintro x ⟨f, f24_6, f18_6, f12_6, f6_6, f0_6, f6_4, f10_2, f6_3, f9_3, f22_2, f18_4, f19_5, f18_1, f6_18, f6_12⟩
    rw [decodeBody, f24_6, major_17]
    simp (disch := omega) [Dec.system, groupOk, Dec.need, Dec.sel, Dec.cell, Dec.d, Dec.a, Dec.rb, Dec.fn, Dec.imm, Bank.ofCode_code, Nat.mod_eq_of_lt, Nat.div_eq_of_lt, h, f18_6, f12_6, f6_6, f0_6, f6_4, f10_2, f6_3, f9_3, f22_2, f18_4, f19_5, f18_1, f6_18, f6_12]
  cases (hw : some (Enc.r 0x17 bank.code a 0 5) = some w0)
  have hx : IsR (Enc.r 0x17 bank.code a 0 5) 0x17 bank.code a 0 5 := isR (by omega) (by omega) (by omega) (by omega) (by omega)
  exact ⟨hx.lt, key _ hx⟩

theorem edgeret (a : Nat) : Statement (.edgeret a) := by
  intro h w0 hw
  simp only [Instr.wf, groupOk, reg3, reg2, regOff, regImm, flt3, vec4, vec3, Bool.and_eq_true, Bool.or_eq_true, Bool.not_eq_true', decide_eq_true_eq] at h
  have key : ∀ x, IsR x 0x17 0 a 0 8 → decodeBody x = .ok (.edgeret a) := by
    rintro x ⟨f, f24_6, f18_6, f12_6, f6_6, f0_6, f6_4, f10_2, f6_3, f9_3, f22_2, f18_4, f19_5, f18_1, f6_18, f6_12⟩
    rw [decodeBody, f24_6, major_17]
    simp (disch := omega) [Dec.system, groupOk, Dec.need, Dec.sel, Dec.cell, Dec.d, Dec.a, Dec.rb, Dec.fn, Dec.imm, Nat.mod_eq_of_lt, Nat.div_eq_of_lt, h, f18_6, f12_6, f6_6, f0_6, f6_4, f10_2, f6_3, f9_3, f22_2, f18_4, f19_5, f18_1, f6_18, f6_12]
  cases (hw : some (Enc.r 0x17 0 a 0 8) = some w0)
  have hx : IsR (Enc.r 0x17 0 a 0 8) 0x17 0 a 0 8 := isR (by omega) (by omega) (by omega) (by omega) (by omega)
  exact ⟨hx.lt, key _ hx⟩

theorem edgeskip : Statement (.edgeskip) := by
  intro h w0 hw
  have key : ∀ x, IsR x 0x17 0 0 0 9 → decodeBody x = .ok (.edgeskip) := by
    rintro x ⟨f, f24_6, f18_6, f12_6, f6_6, f0_6, f6_4, f10_2, f6_3, f9_3, f22_2, f18_4, f19_5, f18_1, f6_18, f6_12⟩
    rw [decodeBody, f24_6, major_17]
    simp (disch := omega) [Dec.system, Dec.need, Dec.sel, Dec.cell, Dec.d, Dec.a, Dec.rb, Dec.fn, Dec.imm, Nat.mod_eq_of_lt, Nat.div_eq_of_lt, f18_6, f12_6, f6_6, f0_6, f6_4, f10_2, f6_3, f9_3, f22_2, f18_4, f19_5, f18_1, f6_18, f6_12]
  cases (hw : some (Enc.r 0x17 0 0 0 9) = some w0)
  have hx : IsR (Enc.r 0x17 0 0 0 9) 0x17 0 0 0 9 := isR (by omega) (by omega) (by omega) (by omega) (by omega)
  exact ⟨hx.lt, key _ hx⟩

theorem edgedone : Statement (.edgedone) := by
  intro h w0 hw
  have key : ∀ x, IsR x 0x17 0 0 0 10 → decodeBody x = .ok (.edgedone) := by
    rintro x ⟨f, f24_6, f18_6, f12_6, f6_6, f0_6, f6_4, f10_2, f6_3, f9_3, f22_2, f18_4, f19_5, f18_1, f6_18, f6_12⟩
    rw [decodeBody, f24_6, major_17]
    simp (disch := omega) [Dec.system, Dec.need, Dec.sel, Dec.cell, Dec.d, Dec.a, Dec.rb, Dec.fn, Dec.imm, Nat.mod_eq_of_lt, Nat.div_eq_of_lt, f18_6, f12_6, f6_6, f0_6, f6_4, f10_2, f6_3, f9_3, f22_2, f18_4, f19_5, f18_1, f6_18, f6_12]
  cases (hw : some (Enc.r 0x17 0 0 0 10) = some w0)
  have hx : IsR (Enc.r 0x17 0 0 0 10) 0x17 0 0 0 10 := isR (by omega) (by omega) (by omega) (by omega) (by omega)
  exact ⟨hx.lt, key _ hx⟩

theorem upi (d imm : Nat) : Statement (.upi d imm) := by
  intro h w0 hw
  simp only [Instr.wf, groupOk, reg3, reg2, regOff, regImm, flt3, vec4, vec3, Bool.and_eq_true, Bool.or_eq_true, Bool.not_eq_true', decide_eq_true_eq] at h
  have key : ∀ x, IsU x 0 d imm → decodeBody x = .ok (.upi d imm) := by
    rintro x ⟨f, f24_6, f20_6, f0_20⟩
    rw [decodeBody, f24_6]
    have hd : d / 16 < 4 := by omega
    generalize d / 16 = q at *
    interval_cases q <;> simp [Dec.major, f20_6, f0_20]
  cases (hw : some (Enc.u 0 d imm) = some w0)
  have hx : IsU (Enc.u 0 d imm) 0 d imm := isU (by omega) (by omega) (by omega)
  exact ⟨hx.lt, key _ hx⟩

theorem aupc (d imm : Nat) : Statement (.aupc d imm) := by
  intro h w0 hw
  simp only [Instr.wf, groupOk, reg3, reg2, regOff, regImm, flt3, vec4, vec3, Bool.and_eq_true, Bool.or_eq_true, Bool.not_eq_true', decide_eq_true_eq] at h
  have key : ∀ x, IsU x 1 d imm → decodeBody x = .ok (.aupc d imm) := by
    rintro x ⟨f, f24_6, f20_6, f0_20⟩
    rw [decodeBody, f24_6]
    have hd : d / 16 < 4 := by omega
    generalize d / 16 = q at *
    interval_cases q <;> simp [Dec.major, f20_6, f0_20]
  cases (hw : some (Enc.u 1 d imm) = some w0)
  have hx : IsU (Enc.u 1 d imm) 1 d imm := isU (by omega) (by omega) (by omega)
  exact ⟨hx.lt, key _ hx⟩

theorem add (d a b : Nat) : Statement (.add d a b) := by
  intro h w0 hw
  simp only [Instr.wf, groupOk, reg3, reg2, regOff, regImm, flt3, vec4, vec3, Bool.and_eq_true, Bool.or_eq_true, Bool.not_eq_true', decide_eq_true_eq] at h
  have key : ∀ x, IsR x 0x20 d a b 0 → decodeBody x = .ok (.add d a b) := by
    rintro x ⟨f, f24_6, f18_6, f12_6, f6_6, f0_6, f6_4, f10_2, f6_3, f9_3, f22_2, f18_4, f19_5, f18_1, f6_18, f6_12⟩
    rw [decodeBody, f24_6, major_20]
    simp (disch := omega) [Dec.integer, groupOk, Dec.need, Dec.sel, Dec.cell, Dec.d, Dec.a, Dec.rb, Dec.fn, Dec.imm, Nat.mod_eq_of_lt, Nat.div_eq_of_lt, h, f18_6, f12_6, f6_6, f0_6, f6_4, f10_2, f6_3, f9_3, f22_2, f18_4, f19_5, f18_1, f6_18, f6_12]
  cases (hw : some (Enc.r 0x20 d a b 0) = some w0)
  have hx : IsR (Enc.r 0x20 d a b 0) 0x20 d a b 0 := isR (by omega) (by omega) (by omega) (by omega) (by omega)
  exact ⟨hx.lt, key _ hx⟩

theorem sub (d a b : Nat) : Statement (.sub d a b) := by
  intro h w0 hw
  simp only [Instr.wf, groupOk, reg3, reg2, regOff, regImm, flt3, vec4, vec3, Bool.and_eq_true, Bool.or_eq_true, Bool.not_eq_true', decide_eq_true_eq] at h
  have key : ∀ x, IsR x 0x20 d a b 1 → decodeBody x = .ok (.sub d a b) := by
    rintro x ⟨f, f24_6, f18_6, f12_6, f6_6, f0_6, f6_4, f10_2, f6_3, f9_3, f22_2, f18_4, f19_5, f18_1, f6_18, f6_12⟩
    rw [decodeBody, f24_6, major_20]
    simp (disch := omega) [Dec.integer, groupOk, Dec.need, Dec.sel, Dec.cell, Dec.d, Dec.a, Dec.rb, Dec.fn, Dec.imm, Nat.mod_eq_of_lt, Nat.div_eq_of_lt, h, f18_6, f12_6, f6_6, f0_6, f6_4, f10_2, f6_3, f9_3, f22_2, f18_4, f19_5, f18_1, f6_18, f6_12]
  cases (hw : some (Enc.r 0x20 d a b 1) = some w0)
  have hx : IsR (Enc.r 0x20 d a b 1) 0x20 d a b 1 := isR (by omega) (by omega) (by omega) (by omega) (by omega)
  exact ⟨hx.lt, key _ hx⟩

theorem and (d a b : Nat) : Statement (.and d a b) := by
  intro h w0 hw
  simp only [Instr.wf, groupOk, reg3, reg2, regOff, regImm, flt3, vec4, vec3, Bool.and_eq_true, Bool.or_eq_true, Bool.not_eq_true', decide_eq_true_eq] at h
  have key : ∀ x, IsR x 0x20 d a b 2 → decodeBody x = .ok (.and d a b) := by
    rintro x ⟨f, f24_6, f18_6, f12_6, f6_6, f0_6, f6_4, f10_2, f6_3, f9_3, f22_2, f18_4, f19_5, f18_1, f6_18, f6_12⟩
    rw [decodeBody, f24_6, major_20]
    simp (disch := omega) [Dec.integer, groupOk, Dec.need, Dec.sel, Dec.cell, Dec.d, Dec.a, Dec.rb, Dec.fn, Dec.imm, Nat.mod_eq_of_lt, Nat.div_eq_of_lt, h, f18_6, f12_6, f6_6, f0_6, f6_4, f10_2, f6_3, f9_3, f22_2, f18_4, f19_5, f18_1, f6_18, f6_12]
  cases (hw : some (Enc.r 0x20 d a b 2) = some w0)
  have hx : IsR (Enc.r 0x20 d a b 2) 0x20 d a b 2 := isR (by omega) (by omega) (by omega) (by omega) (by omega)
  exact ⟨hx.lt, key _ hx⟩

theorem or (d a b : Nat) : Statement (.or d a b) := by
  intro h w0 hw
  simp only [Instr.wf, groupOk, reg3, reg2, regOff, regImm, flt3, vec4, vec3, Bool.and_eq_true, Bool.or_eq_true, Bool.not_eq_true', decide_eq_true_eq] at h
  have key : ∀ x, IsR x 0x20 d a b 3 → decodeBody x = .ok (.or d a b) := by
    rintro x ⟨f, f24_6, f18_6, f12_6, f6_6, f0_6, f6_4, f10_2, f6_3, f9_3, f22_2, f18_4, f19_5, f18_1, f6_18, f6_12⟩
    rw [decodeBody, f24_6, major_20]
    simp (disch := omega) [Dec.integer, groupOk, Dec.need, Dec.sel, Dec.cell, Dec.d, Dec.a, Dec.rb, Dec.fn, Dec.imm, Nat.mod_eq_of_lt, Nat.div_eq_of_lt, h, f18_6, f12_6, f6_6, f0_6, f6_4, f10_2, f6_3, f9_3, f22_2, f18_4, f19_5, f18_1, f6_18, f6_12]
  cases (hw : some (Enc.r 0x20 d a b 3) = some w0)
  have hx : IsR (Enc.r 0x20 d a b 3) 0x20 d a b 3 := isR (by omega) (by omega) (by omega) (by omega) (by omega)
  exact ⟨hx.lt, key _ hx⟩

theorem xor (d a b : Nat) : Statement (.xor d a b) := by
  intro h w0 hw
  simp only [Instr.wf, groupOk, reg3, reg2, regOff, regImm, flt3, vec4, vec3, Bool.and_eq_true, Bool.or_eq_true, Bool.not_eq_true', decide_eq_true_eq] at h
  have key : ∀ x, IsR x 0x20 d a b 4 → decodeBody x = .ok (.xor d a b) := by
    rintro x ⟨f, f24_6, f18_6, f12_6, f6_6, f0_6, f6_4, f10_2, f6_3, f9_3, f22_2, f18_4, f19_5, f18_1, f6_18, f6_12⟩
    rw [decodeBody, f24_6, major_20]
    simp (disch := omega) [Dec.integer, groupOk, Dec.need, Dec.sel, Dec.cell, Dec.d, Dec.a, Dec.rb, Dec.fn, Dec.imm, Nat.mod_eq_of_lt, Nat.div_eq_of_lt, h, f18_6, f12_6, f6_6, f0_6, f6_4, f10_2, f6_3, f9_3, f22_2, f18_4, f19_5, f18_1, f6_18, f6_12]
  cases (hw : some (Enc.r 0x20 d a b 4) = some w0)
  have hx : IsR (Enc.r 0x20 d a b 4) 0x20 d a b 4 := isR (by omega) (by omega) (by omega) (by omega) (by omega)
  exact ⟨hx.lt, key _ hx⟩

theorem shl (d a b : Nat) : Statement (.shl d a b) := by
  intro h w0 hw
  simp only [Instr.wf, groupOk, reg3, reg2, regOff, regImm, flt3, vec4, vec3, Bool.and_eq_true, Bool.or_eq_true, Bool.not_eq_true', decide_eq_true_eq] at h
  have key : ∀ x, IsR x 0x20 d a b 5 → decodeBody x = .ok (.shl d a b) := by
    rintro x ⟨f, f24_6, f18_6, f12_6, f6_6, f0_6, f6_4, f10_2, f6_3, f9_3, f22_2, f18_4, f19_5, f18_1, f6_18, f6_12⟩
    rw [decodeBody, f24_6, major_20]
    simp (disch := omega) [Dec.integer, groupOk, Dec.need, Dec.sel, Dec.cell, Dec.d, Dec.a, Dec.rb, Dec.fn, Dec.imm, Nat.mod_eq_of_lt, Nat.div_eq_of_lt, h, f18_6, f12_6, f6_6, f0_6, f6_4, f10_2, f6_3, f9_3, f22_2, f18_4, f19_5, f18_1, f6_18, f6_12]
  cases (hw : some (Enc.r 0x20 d a b 5) = some w0)
  have hx : IsR (Enc.r 0x20 d a b 5) 0x20 d a b 5 := isR (by omega) (by omega) (by omega) (by omega) (by omega)
  exact ⟨hx.lt, key _ hx⟩

theorem shr (d a b : Nat) : Statement (.shr d a b) := by
  intro h w0 hw
  simp only [Instr.wf, groupOk, reg3, reg2, regOff, regImm, flt3, vec4, vec3, Bool.and_eq_true, Bool.or_eq_true, Bool.not_eq_true', decide_eq_true_eq] at h
  have key : ∀ x, IsR x 0x20 d a b 6 → decodeBody x = .ok (.shr d a b) := by
    rintro x ⟨f, f24_6, f18_6, f12_6, f6_6, f0_6, f6_4, f10_2, f6_3, f9_3, f22_2, f18_4, f19_5, f18_1, f6_18, f6_12⟩
    rw [decodeBody, f24_6, major_20]
    simp (disch := omega) [Dec.integer, groupOk, Dec.need, Dec.sel, Dec.cell, Dec.d, Dec.a, Dec.rb, Dec.fn, Dec.imm, Nat.mod_eq_of_lt, Nat.div_eq_of_lt, h, f18_6, f12_6, f6_6, f0_6, f6_4, f10_2, f6_3, f9_3, f22_2, f18_4, f19_5, f18_1, f6_18, f6_12]
  cases (hw : some (Enc.r 0x20 d a b 6) = some w0)
  have hx : IsR (Enc.r 0x20 d a b 6) 0x20 d a b 6 := isR (by omega) (by omega) (by omega) (by omega) (by omega)
  exact ⟨hx.lt, key _ hx⟩

theorem sra (d a b : Nat) : Statement (.sra d a b) := by
  intro h w0 hw
  simp only [Instr.wf, groupOk, reg3, reg2, regOff, regImm, flt3, vec4, vec3, Bool.and_eq_true, Bool.or_eq_true, Bool.not_eq_true', decide_eq_true_eq] at h
  have key : ∀ x, IsR x 0x20 d a b 7 → decodeBody x = .ok (.sra d a b) := by
    rintro x ⟨f, f24_6, f18_6, f12_6, f6_6, f0_6, f6_4, f10_2, f6_3, f9_3, f22_2, f18_4, f19_5, f18_1, f6_18, f6_12⟩
    rw [decodeBody, f24_6, major_20]
    simp (disch := omega) [Dec.integer, groupOk, Dec.need, Dec.sel, Dec.cell, Dec.d, Dec.a, Dec.rb, Dec.fn, Dec.imm, Nat.mod_eq_of_lt, Nat.div_eq_of_lt, h, f18_6, f12_6, f6_6, f0_6, f6_4, f10_2, f6_3, f9_3, f22_2, f18_4, f19_5, f18_1, f6_18, f6_12]
  cases (hw : some (Enc.r 0x20 d a b 7) = some w0)
  have hx : IsR (Enc.r 0x20 d a b 7) 0x20 d a b 7 := isR (by omega) (by omega) (by omega) (by omega) (by omega)
  exact ⟨hx.lt, key _ hx⟩

theorem slt (d a b : Nat) : Statement (.slt d a b) := by
  intro h w0 hw
  simp only [Instr.wf, groupOk, reg3, reg2, regOff, regImm, flt3, vec4, vec3, Bool.and_eq_true, Bool.or_eq_true, Bool.not_eq_true', decide_eq_true_eq] at h
  have key : ∀ x, IsR x 0x20 d a b 8 → decodeBody x = .ok (.slt d a b) := by
    rintro x ⟨f, f24_6, f18_6, f12_6, f6_6, f0_6, f6_4, f10_2, f6_3, f9_3, f22_2, f18_4, f19_5, f18_1, f6_18, f6_12⟩
    rw [decodeBody, f24_6, major_20]
    simp (disch := omega) [Dec.integer, groupOk, Dec.need, Dec.sel, Dec.cell, Dec.d, Dec.a, Dec.rb, Dec.fn, Dec.imm, Nat.mod_eq_of_lt, Nat.div_eq_of_lt, h, f18_6, f12_6, f6_6, f0_6, f6_4, f10_2, f6_3, f9_3, f22_2, f18_4, f19_5, f18_1, f6_18, f6_12]
  cases (hw : some (Enc.r 0x20 d a b 8) = some w0)
  have hx : IsR (Enc.r 0x20 d a b 8) 0x20 d a b 8 := isR (by omega) (by omega) (by omega) (by omega) (by omega)
  exact ⟨hx.lt, key _ hx⟩

theorem sltu (d a b : Nat) : Statement (.sltu d a b) := by
  intro h w0 hw
  simp only [Instr.wf, groupOk, reg3, reg2, regOff, regImm, flt3, vec4, vec3, Bool.and_eq_true, Bool.or_eq_true, Bool.not_eq_true', decide_eq_true_eq] at h
  have key : ∀ x, IsR x 0x20 d a b 9 → decodeBody x = .ok (.sltu d a b) := by
    rintro x ⟨f, f24_6, f18_6, f12_6, f6_6, f0_6, f6_4, f10_2, f6_3, f9_3, f22_2, f18_4, f19_5, f18_1, f6_18, f6_12⟩
    rw [decodeBody, f24_6, major_20]
    simp (disch := omega) [Dec.integer, groupOk, Dec.need, Dec.sel, Dec.cell, Dec.d, Dec.a, Dec.rb, Dec.fn, Dec.imm, Nat.mod_eq_of_lt, Nat.div_eq_of_lt, h, f18_6, f12_6, f6_6, f0_6, f6_4, f10_2, f6_3, f9_3, f22_2, f18_4, f19_5, f18_1, f6_18, f6_12]
  cases (hw : some (Enc.r 0x20 d a b 9) = some w0)
  have hx : IsR (Enc.r 0x20 d a b 9) 0x20 d a b 9 := isR (by omega) (by omega) (by omega) (by omega) (by omega)
  exact ⟨hx.lt, key _ hx⟩

theorem min (d a b : Nat) : Statement (.min d a b) := by
  intro h w0 hw
  simp only [Instr.wf, groupOk, reg3, reg2, regOff, regImm, flt3, vec4, vec3, Bool.and_eq_true, Bool.or_eq_true, Bool.not_eq_true', decide_eq_true_eq] at h
  have key : ∀ x, IsR x 0x20 d a b 10 → decodeBody x = .ok (.min d a b) := by
    rintro x ⟨f, f24_6, f18_6, f12_6, f6_6, f0_6, f6_4, f10_2, f6_3, f9_3, f22_2, f18_4, f19_5, f18_1, f6_18, f6_12⟩
    rw [decodeBody, f24_6, major_20]
    simp (disch := omega) [Dec.integer, groupOk, Dec.need, Dec.sel, Dec.cell, Dec.d, Dec.a, Dec.rb, Dec.fn, Dec.imm, Nat.mod_eq_of_lt, Nat.div_eq_of_lt, h, f18_6, f12_6, f6_6, f0_6, f6_4, f10_2, f6_3, f9_3, f22_2, f18_4, f19_5, f18_1, f6_18, f6_12]
  cases (hw : some (Enc.r 0x20 d a b 10) = some w0)
  have hx : IsR (Enc.r 0x20 d a b 10) 0x20 d a b 10 := isR (by omega) (by omega) (by omega) (by omega) (by omega)
  exact ⟨hx.lt, key _ hx⟩

theorem max (d a b : Nat) : Statement (.max d a b) := by
  intro h w0 hw
  simp only [Instr.wf, groupOk, reg3, reg2, regOff, regImm, flt3, vec4, vec3, Bool.and_eq_true, Bool.or_eq_true, Bool.not_eq_true', decide_eq_true_eq] at h
  have key : ∀ x, IsR x 0x20 d a b 11 → decodeBody x = .ok (.max d a b) := by
    rintro x ⟨f, f24_6, f18_6, f12_6, f6_6, f0_6, f6_4, f10_2, f6_3, f9_3, f22_2, f18_4, f19_5, f18_1, f6_18, f6_12⟩
    rw [decodeBody, f24_6, major_20]
    simp (disch := omega) [Dec.integer, groupOk, Dec.need, Dec.sel, Dec.cell, Dec.d, Dec.a, Dec.rb, Dec.fn, Dec.imm, Nat.mod_eq_of_lt, Nat.div_eq_of_lt, h, f18_6, f12_6, f6_6, f0_6, f6_4, f10_2, f6_3, f9_3, f22_2, f18_4, f19_5, f18_1, f6_18, f6_12]
  cases (hw : some (Enc.r 0x20 d a b 11) = some w0)
  have hx : IsR (Enc.r 0x20 d a b 11) 0x20 d a b 11 := isR (by omega) (by omega) (by omega) (by omega) (by omega)
  exact ⟨hx.lt, key _ hx⟩

theorem minu (d a b : Nat) : Statement (.minu d a b) := by
  intro h w0 hw
  simp only [Instr.wf, groupOk, reg3, reg2, regOff, regImm, flt3, vec4, vec3, Bool.and_eq_true, Bool.or_eq_true, Bool.not_eq_true', decide_eq_true_eq] at h
  have key : ∀ x, IsR x 0x20 d a b 12 → decodeBody x = .ok (.minu d a b) := by
    rintro x ⟨f, f24_6, f18_6, f12_6, f6_6, f0_6, f6_4, f10_2, f6_3, f9_3, f22_2, f18_4, f19_5, f18_1, f6_18, f6_12⟩
    rw [decodeBody, f24_6, major_20]
    simp (disch := omega) [Dec.integer, groupOk, Dec.need, Dec.sel, Dec.cell, Dec.d, Dec.a, Dec.rb, Dec.fn, Dec.imm, Nat.mod_eq_of_lt, Nat.div_eq_of_lt, h, f18_6, f12_6, f6_6, f0_6, f6_4, f10_2, f6_3, f9_3, f22_2, f18_4, f19_5, f18_1, f6_18, f6_12]
  cases (hw : some (Enc.r 0x20 d a b 12) = some w0)
  have hx : IsR (Enc.r 0x20 d a b 12) 0x20 d a b 12 := isR (by omega) (by omega) (by omega) (by omega) (by omega)
  exact ⟨hx.lt, key _ hx⟩

theorem maxu (d a b : Nat) : Statement (.maxu d a b) := by
  intro h w0 hw
  simp only [Instr.wf, groupOk, reg3, reg2, regOff, regImm, flt3, vec4, vec3, Bool.and_eq_true, Bool.or_eq_true, Bool.not_eq_true', decide_eq_true_eq] at h
  have key : ∀ x, IsR x 0x20 d a b 13 → decodeBody x = .ok (.maxu d a b) := by
    rintro x ⟨f, f24_6, f18_6, f12_6, f6_6, f0_6, f6_4, f10_2, f6_3, f9_3, f22_2, f18_4, f19_5, f18_1, f6_18, f6_12⟩
    rw [decodeBody, f24_6, major_20]
    simp (disch := omega) [Dec.integer, groupOk, Dec.need, Dec.sel, Dec.cell, Dec.d, Dec.a, Dec.rb, Dec.fn, Dec.imm, Nat.mod_eq_of_lt, Nat.div_eq_of_lt, h, f18_6, f12_6, f6_6, f0_6, f6_4, f10_2, f6_3, f9_3, f22_2, f18_4, f19_5, f18_1, f6_18, f6_12]
  cases (hw : some (Enc.r 0x20 d a b 13) = some w0)
  have hx : IsR (Enc.r 0x20 d a b 13) 0x20 d a b 13 := isR (by omega) (by omega) (by omega) (by omega) (by omega)
  exact ⟨hx.lt, key _ hx⟩

theorem clz (d a : Nat) : Statement (.clz d a) := by
  intro h w0 hw
  simp only [Instr.wf, groupOk, reg3, reg2, regOff, regImm, flt3, vec4, vec3, Bool.and_eq_true, Bool.or_eq_true, Bool.not_eq_true', decide_eq_true_eq] at h
  have key : ∀ x, IsR x 0x20 d a 0 14 → decodeBody x = .ok (.clz d a) := by
    rintro x ⟨f, f24_6, f18_6, f12_6, f6_6, f0_6, f6_4, f10_2, f6_3, f9_3, f22_2, f18_4, f19_5, f18_1, f6_18, f6_12⟩
    rw [decodeBody, f24_6, major_20]
    simp (disch := omega) [Dec.integer, groupOk, Dec.need, Dec.sel, Dec.cell, Dec.d, Dec.a, Dec.rb, Dec.fn, Dec.imm, Nat.mod_eq_of_lt, Nat.div_eq_of_lt, h, f18_6, f12_6, f6_6, f0_6, f6_4, f10_2, f6_3, f9_3, f22_2, f18_4, f19_5, f18_1, f6_18, f6_12]
  cases (hw : some (Enc.r 0x20 d a 0 14) = some w0)
  have hx : IsR (Enc.r 0x20 d a 0 14) 0x20 d a 0 14 := isR (by omega) (by omega) (by omega) (by omega) (by omega)
  exact ⟨hx.lt, key _ hx⟩

theorem popc (d a : Nat) : Statement (.popc d a) := by
  intro h w0 hw
  simp only [Instr.wf, groupOk, reg3, reg2, regOff, regImm, flt3, vec4, vec3, Bool.and_eq_true, Bool.or_eq_true, Bool.not_eq_true', decide_eq_true_eq] at h
  have key : ∀ x, IsR x 0x20 d a 0 15 → decodeBody x = .ok (.popc d a) := by
    rintro x ⟨f, f24_6, f18_6, f12_6, f6_6, f0_6, f6_4, f10_2, f6_3, f9_3, f22_2, f18_4, f19_5, f18_1, f6_18, f6_12⟩
    rw [decodeBody, f24_6, major_20]
    simp (disch := omega) [Dec.integer, groupOk, Dec.need, Dec.sel, Dec.cell, Dec.d, Dec.a, Dec.rb, Dec.fn, Dec.imm, Nat.mod_eq_of_lt, Nat.div_eq_of_lt, h, f18_6, f12_6, f6_6, f0_6, f6_4, f10_2, f6_3, f9_3, f22_2, f18_4, f19_5, f18_1, f6_18, f6_12]
  cases (hw : some (Enc.r 0x20 d a 0 15) = some w0)
  have hx : IsR (Enc.r 0x20 d a 0 15) 0x20 d a 0 15 := isR (by omega) (by omega) (by omega) (by omega) (by omega)
  exact ⟨hx.lt, key _ hx⟩

theorem mul (d a b : Nat) : Statement (.mul d a b) := by
  intro h w0 hw
  simp only [Instr.wf, groupOk, reg3, reg2, regOff, regImm, flt3, vec4, vec3, Bool.and_eq_true, Bool.or_eq_true, Bool.not_eq_true', decide_eq_true_eq] at h
  have key : ∀ x, IsR x 0x20 d a b 16 → decodeBody x = .ok (.mul d a b) := by
    rintro x ⟨f, f24_6, f18_6, f12_6, f6_6, f0_6, f6_4, f10_2, f6_3, f9_3, f22_2, f18_4, f19_5, f18_1, f6_18, f6_12⟩
    rw [decodeBody, f24_6, major_20]
    simp (disch := omega) [Dec.integer, groupOk, Dec.need, Dec.sel, Dec.cell, Dec.d, Dec.a, Dec.rb, Dec.fn, Dec.imm, Nat.mod_eq_of_lt, Nat.div_eq_of_lt, h, f18_6, f12_6, f6_6, f0_6, f6_4, f10_2, f6_3, f9_3, f22_2, f18_4, f19_5, f18_1, f6_18, f6_12]
  cases (hw : some (Enc.r 0x20 d a b 16) = some w0)
  have hx : IsR (Enc.r 0x20 d a b 16) 0x20 d a b 16 := isR (by omega) (by omega) (by omega) (by omega) (by omega)
  exact ⟨hx.lt, key _ hx⟩

theorem mulh (d a b : Nat) : Statement (.mulh d a b) := by
  intro h w0 hw
  simp only [Instr.wf, groupOk, reg3, reg2, regOff, regImm, flt3, vec4, vec3, Bool.and_eq_true, Bool.or_eq_true, Bool.not_eq_true', decide_eq_true_eq] at h
  have key : ∀ x, IsR x 0x20 d a b 17 → decodeBody x = .ok (.mulh d a b) := by
    rintro x ⟨f, f24_6, f18_6, f12_6, f6_6, f0_6, f6_4, f10_2, f6_3, f9_3, f22_2, f18_4, f19_5, f18_1, f6_18, f6_12⟩
    rw [decodeBody, f24_6, major_20]
    simp (disch := omega) [Dec.integer, groupOk, Dec.need, Dec.sel, Dec.cell, Dec.d, Dec.a, Dec.rb, Dec.fn, Dec.imm, Nat.mod_eq_of_lt, Nat.div_eq_of_lt, h, f18_6, f12_6, f6_6, f0_6, f6_4, f10_2, f6_3, f9_3, f22_2, f18_4, f19_5, f18_1, f6_18, f6_12]
  cases (hw : some (Enc.r 0x20 d a b 17) = some w0)
  have hx : IsR (Enc.r 0x20 d a b 17) 0x20 d a b 17 := isR (by omega) (by omega) (by omega) (by omega) (by omega)
  exact ⟨hx.lt, key _ hx⟩

theorem mulhu (d a b : Nat) : Statement (.mulhu d a b) := by
  intro h w0 hw
  simp only [Instr.wf, groupOk, reg3, reg2, regOff, regImm, flt3, vec4, vec3, Bool.and_eq_true, Bool.or_eq_true, Bool.not_eq_true', decide_eq_true_eq] at h
  have key : ∀ x, IsR x 0x20 d a b 18 → decodeBody x = .ok (.mulhu d a b) := by
    rintro x ⟨f, f24_6, f18_6, f12_6, f6_6, f0_6, f6_4, f10_2, f6_3, f9_3, f22_2, f18_4, f19_5, f18_1, f6_18, f6_12⟩
    rw [decodeBody, f24_6, major_20]
    simp (disch := omega) [Dec.integer, groupOk, Dec.need, Dec.sel, Dec.cell, Dec.d, Dec.a, Dec.rb, Dec.fn, Dec.imm, Nat.mod_eq_of_lt, Nat.div_eq_of_lt, h, f18_6, f12_6, f6_6, f0_6, f6_4, f10_2, f6_3, f9_3, f22_2, f18_4, f19_5, f18_1, f6_18, f6_12]
  cases (hw : some (Enc.r 0x20 d a b 18) = some w0)
  have hx : IsR (Enc.r 0x20 d a b 18) 0x20 d a b 18 := isR (by omega) (by omega) (by omega) (by omega) (by omega)
  exact ⟨hx.lt, key _ hx⟩

theorem div (d a b : Nat) : Statement (.div d a b) := by
  intro h w0 hw
  simp only [Instr.wf, groupOk, reg3, reg2, regOff, regImm, flt3, vec4, vec3, Bool.and_eq_true, Bool.or_eq_true, Bool.not_eq_true', decide_eq_true_eq] at h
  have key : ∀ x, IsR x 0x20 d a b 19 → decodeBody x = .ok (.div d a b) := by
    rintro x ⟨f, f24_6, f18_6, f12_6, f6_6, f0_6, f6_4, f10_2, f6_3, f9_3, f22_2, f18_4, f19_5, f18_1, f6_18, f6_12⟩
    rw [decodeBody, f24_6, major_20]
    simp (disch := omega) [Dec.integer, groupOk, Dec.need, Dec.sel, Dec.cell, Dec.d, Dec.a, Dec.rb, Dec.fn, Dec.imm, Nat.mod_eq_of_lt, Nat.div_eq_of_lt, h, f18_6, f12_6, f6_6, f0_6, f6_4, f10_2, f6_3, f9_3, f22_2, f18_4, f19_5, f18_1, f6_18, f6_12]
  cases (hw : some (Enc.r 0x20 d a b 19) = some w0)
  have hx : IsR (Enc.r 0x20 d a b 19) 0x20 d a b 19 := isR (by omega) (by omega) (by omega) (by omega) (by omega)
  exact ⟨hx.lt, key _ hx⟩

theorem divu (d a b : Nat) : Statement (.divu d a b) := by
  intro h w0 hw
  simp only [Instr.wf, groupOk, reg3, reg2, regOff, regImm, flt3, vec4, vec3, Bool.and_eq_true, Bool.or_eq_true, Bool.not_eq_true', decide_eq_true_eq] at h
  have key : ∀ x, IsR x 0x20 d a b 20 → decodeBody x = .ok (.divu d a b) := by
    rintro x ⟨f, f24_6, f18_6, f12_6, f6_6, f0_6, f6_4, f10_2, f6_3, f9_3, f22_2, f18_4, f19_5, f18_1, f6_18, f6_12⟩
    rw [decodeBody, f24_6, major_20]
    simp (disch := omega) [Dec.integer, groupOk, Dec.need, Dec.sel, Dec.cell, Dec.d, Dec.a, Dec.rb, Dec.fn, Dec.imm, Nat.mod_eq_of_lt, Nat.div_eq_of_lt, h, f18_6, f12_6, f6_6, f0_6, f6_4, f10_2, f6_3, f9_3, f22_2, f18_4, f19_5, f18_1, f6_18, f6_12]
  cases (hw : some (Enc.r 0x20 d a b 20) = some w0)
  have hx : IsR (Enc.r 0x20 d a b 20) 0x20 d a b 20 := isR (by omega) (by omega) (by omega) (by omega) (by omega)
  exact ⟨hx.lt, key _ hx⟩

theorem rem (d a b : Nat) : Statement (.rem d a b) := by
  intro h w0 hw
  simp only [Instr.wf, groupOk, reg3, reg2, regOff, regImm, flt3, vec4, vec3, Bool.and_eq_true, Bool.or_eq_true, Bool.not_eq_true', decide_eq_true_eq] at h
  have key : ∀ x, IsR x 0x20 d a b 21 → decodeBody x = .ok (.rem d a b) := by
    rintro x ⟨f, f24_6, f18_6, f12_6, f6_6, f0_6, f6_4, f10_2, f6_3, f9_3, f22_2, f18_4, f19_5, f18_1, f6_18, f6_12⟩
    rw [decodeBody, f24_6, major_20]
    simp (disch := omega) [Dec.integer, groupOk, Dec.need, Dec.sel, Dec.cell, Dec.d, Dec.a, Dec.rb, Dec.fn, Dec.imm, Nat.mod_eq_of_lt, Nat.div_eq_of_lt, h, f18_6, f12_6, f6_6, f0_6, f6_4, f10_2, f6_3, f9_3, f22_2, f18_4, f19_5, f18_1, f6_18, f6_12]
  cases (hw : some (Enc.r 0x20 d a b 21) = some w0)
  have hx : IsR (Enc.r 0x20 d a b 21) 0x20 d a b 21 := isR (by omega) (by omega) (by omega) (by omega) (by omega)
  exact ⟨hx.lt, key _ hx⟩

theorem remu (d a b : Nat) : Statement (.remu d a b) := by
  intro h w0 hw
  simp only [Instr.wf, groupOk, reg3, reg2, regOff, regImm, flt3, vec4, vec3, Bool.and_eq_true, Bool.or_eq_true, Bool.not_eq_true', decide_eq_true_eq] at h
  have key : ∀ x, IsR x 0x20 d a b 22 → decodeBody x = .ok (.remu d a b) := by
    rintro x ⟨f, f24_6, f18_6, f12_6, f6_6, f0_6, f6_4, f10_2, f6_3, f9_3, f22_2, f18_4, f19_5, f18_1, f6_18, f6_12⟩
    rw [decodeBody, f24_6, major_20]
    simp (disch := omega) [Dec.integer, groupOk, Dec.need, Dec.sel, Dec.cell, Dec.d, Dec.a, Dec.rb, Dec.fn, Dec.imm, Nat.mod_eq_of_lt, Nat.div_eq_of_lt, h, f18_6, f12_6, f6_6, f0_6, f6_4, f10_2, f6_3, f9_3, f22_2, f18_4, f19_5, f18_1, f6_18, f6_12]
  cases (hw : some (Enc.r 0x20 d a b 22) = some w0)
  have hx : IsR (Enc.r 0x20 d a b 22) 0x20 d a b 22 := isR (by omega) (by omega) (by omega) (by omega) (by omega)
  exact ⟨hx.lt, key _ hx⟩

theorem addi (d a imm : Nat) : Statement (.addi d a imm) := by
  intro h w0 hw
  simp only [Instr.wf, groupOk, reg3, reg2, regOff, regImm, flt3, vec4, vec3, Bool.and_eq_true, Bool.or_eq_true, Bool.not_eq_true', decide_eq_true_eq] at h
  have key : ∀ x, IsI x 0x21 d a imm → decodeBody x = .ok (.addi d a imm) := by
    rintro x ⟨f, f24_6, f18_6, f12_6, f0_12, f10_2, f6_4, f0_6, f12_12⟩
    rw [decodeBody, f24_6]
    simp (disch := omega) [Dec.major, groupOk, Dec.need, Dec.sel, Dec.cell, Dec.d, Dec.a, Dec.rb, Dec.fn, Dec.imm, Nat.mod_eq_of_lt, Nat.div_eq_of_lt, h, f18_6, f12_6, f0_12, f10_2, f6_4, f0_6, f12_12]
  cases (hw : some (Enc.i 0x21 d a imm) = some w0)
  have hx : IsI (Enc.i 0x21 d a imm) 0x21 d a imm := isI (by omega) (by omega) (by omega) (by omega)
  exact ⟨hx.lt, key _ hx⟩

theorem andi (d a imm : Nat) : Statement (.andi d a imm) := by
  intro h w0 hw
  simp only [Instr.wf, groupOk, reg3, reg2, regOff, regImm, flt3, vec4, vec3, Bool.and_eq_true, Bool.or_eq_true, Bool.not_eq_true', decide_eq_true_eq] at h
  have key : ∀ x, IsI x 0x22 d a imm → decodeBody x = .ok (.andi d a imm) := by
    rintro x ⟨f, f24_6, f18_6, f12_6, f0_12, f10_2, f6_4, f0_6, f12_12⟩
    rw [decodeBody, f24_6]
    simp (disch := omega) [Dec.major, groupOk, Dec.need, Dec.sel, Dec.cell, Dec.d, Dec.a, Dec.rb, Dec.fn, Dec.imm, Nat.mod_eq_of_lt, Nat.div_eq_of_lt, h, f18_6, f12_6, f0_12, f10_2, f6_4, f0_6, f12_12]
  cases (hw : some (Enc.i 0x22 d a imm) = some w0)
  have hx : IsI (Enc.i 0x22 d a imm) 0x22 d a imm := isI (by omega) (by omega) (by omega) (by omega)
  exact ⟨hx.lt, key _ hx⟩

theorem ori (d a imm : Nat) : Statement (.ori d a imm) := by
  intro h w0 hw
  simp only [Instr.wf, groupOk, reg3, reg2, regOff, regImm, flt3, vec4, vec3, Bool.and_eq_true, Bool.or_eq_true, Bool.not_eq_true', decide_eq_true_eq] at h
  have key : ∀ x, IsI x 0x23 d a imm → decodeBody x = .ok (.ori d a imm) := by
    rintro x ⟨f, f24_6, f18_6, f12_6, f0_12, f10_2, f6_4, f0_6, f12_12⟩
    rw [decodeBody, f24_6]
    simp (disch := omega) [Dec.major, groupOk, Dec.need, Dec.sel, Dec.cell, Dec.d, Dec.a, Dec.rb, Dec.fn, Dec.imm, Nat.mod_eq_of_lt, Nat.div_eq_of_lt, h, f18_6, f12_6, f0_12, f10_2, f6_4, f0_6, f12_12]
  cases (hw : some (Enc.i 0x23 d a imm) = some w0)
  have hx : IsI (Enc.i 0x23 d a imm) 0x23 d a imm := isI (by omega) (by omega) (by omega) (by omega)
  exact ⟨hx.lt, key _ hx⟩

theorem xori (d a imm : Nat) : Statement (.xori d a imm) := by
  intro h w0 hw
  simp only [Instr.wf, groupOk, reg3, reg2, regOff, regImm, flt3, vec4, vec3, Bool.and_eq_true, Bool.or_eq_true, Bool.not_eq_true', decide_eq_true_eq] at h
  have key : ∀ x, IsI x 0x24 d a imm → decodeBody x = .ok (.xori d a imm) := by
    rintro x ⟨f, f24_6, f18_6, f12_6, f0_12, f10_2, f6_4, f0_6, f12_12⟩
    rw [decodeBody, f24_6]
    simp (disch := omega) [Dec.major, groupOk, Dec.need, Dec.sel, Dec.cell, Dec.d, Dec.a, Dec.rb, Dec.fn, Dec.imm, Nat.mod_eq_of_lt, Nat.div_eq_of_lt, h, f18_6, f12_6, f0_12, f10_2, f6_4, f0_6, f12_12]
  cases (hw : some (Enc.i 0x24 d a imm) = some w0)
  have hx : IsI (Enc.i 0x24 d a imm) 0x24 d a imm := isI (by omega) (by omega) (by omega) (by omega)
  exact ⟨hx.lt, key _ hx⟩

theorem slti (d a imm : Nat) : Statement (.slti d a imm) := by
  intro h w0 hw
  simp only [Instr.wf, groupOk, reg3, reg2, regOff, regImm, flt3, vec4, vec3, Bool.and_eq_true, Bool.or_eq_true, Bool.not_eq_true', decide_eq_true_eq] at h
  have key : ∀ x, IsI x 0x25 d a imm → decodeBody x = .ok (.slti d a imm) := by
    rintro x ⟨f, f24_6, f18_6, f12_6, f0_12, f10_2, f6_4, f0_6, f12_12⟩
    rw [decodeBody, f24_6]
    simp (disch := omega) [Dec.major, groupOk, Dec.need, Dec.sel, Dec.cell, Dec.d, Dec.a, Dec.rb, Dec.fn, Dec.imm, Nat.mod_eq_of_lt, Nat.div_eq_of_lt, h, f18_6, f12_6, f0_12, f10_2, f6_4, f0_6, f12_12]
  cases (hw : some (Enc.i 0x25 d a imm) = some w0)
  have hx : IsI (Enc.i 0x25 d a imm) 0x25 d a imm := isI (by omega) (by omega) (by omega) (by omega)
  exact ⟨hx.lt, key _ hx⟩

theorem sltiu (d a imm : Nat) : Statement (.sltiu d a imm) := by
  intro h w0 hw
  simp only [Instr.wf, groupOk, reg3, reg2, regOff, regImm, flt3, vec4, vec3, Bool.and_eq_true, Bool.or_eq_true, Bool.not_eq_true', decide_eq_true_eq] at h
  have key : ∀ x, IsI x 0x26 d a imm → decodeBody x = .ok (.sltiu d a imm) := by
    rintro x ⟨f, f24_6, f18_6, f12_6, f0_12, f10_2, f6_4, f0_6, f12_12⟩
    rw [decodeBody, f24_6]
    simp (disch := omega) [Dec.major, groupOk, Dec.need, Dec.sel, Dec.cell, Dec.d, Dec.a, Dec.rb, Dec.fn, Dec.imm, Nat.mod_eq_of_lt, Nat.div_eq_of_lt, h, f18_6, f12_6, f0_12, f10_2, f6_4, f0_6, f12_12]
  cases (hw : some (Enc.i 0x26 d a imm) = some w0)
  have hx : IsI (Enc.i 0x26 d a imm) 0x26 d a imm := isI (by omega) (by omega) (by omega) (by omega)
  exact ⟨hx.lt, key _ hx⟩

theorem shli (d a n : Nat) : Statement (.shli d a n) := by
  intro h w0 hw
  simp only [Instr.wf, groupOk, reg3, reg2, regOff, regImm, flt3, vec4, vec3, Bool.and_eq_true, Bool.or_eq_true, Bool.not_eq_true', decide_eq_true_eq] at h
  have key : ∀ x, IsI x 0x27 d a n → decodeBody x = .ok (.shli d a n) := by
    rintro x ⟨f, f24_6, f18_6, f12_6, f0_12, f10_2, f6_4, f0_6, f12_12⟩
    rw [decodeBody, f24_6, major_27]
    simp (disch := omega) [Dec.shiftImm, groupOk, Dec.need, Dec.sel, Dec.cell, Dec.d, Dec.a, Dec.rb, Dec.fn, Dec.imm, Nat.mod_eq_of_lt, Nat.div_eq_of_lt, h, f18_6, f12_6, f0_12, f10_2, f6_4, f0_6, f12_12]
  cases (hw : some (Enc.i 0x27 d a n) = some w0)
  have hx : IsI (Enc.i 0x27 d a n) 0x27 d a n := isI (by omega) (by omega) (by omega) (by omega)
  exact ⟨hx.lt, key _ hx⟩

theorem shri (d a n : Nat) : Statement (.shri d a n) := by
  intro h w0 hw
  simp only [Instr.wf, groupOk, reg3, reg2, regOff, regImm, flt3, vec4, vec3, Bool.and_eq_true, Bool.or_eq_true, Bool.not_eq_true', decide_eq_true_eq] at h
  have key : ∀ x, IsI x 0x27 d a (0x400 + n) → decodeBody x = .ok (.shri d a n) := by
    rintro x ⟨f, f24_6, f18_6, f12_6, f0_12, f10_2, f6_4, f0_6, f12_12⟩
    rw [decodeBody, f24_6, major_27]
    simp (disch := omega) [Dec.shiftImm, groupOk, Dec.need, Dec.sel, Dec.cell, Dec.d, Dec.a, Dec.rb, Dec.fn, Dec.imm, Nat.mod_eq_of_lt, Nat.div_eq_of_lt, h, f18_6, f12_6, f0_12, f10_2, f6_4, f0_6, f12_12]
    simp [show (1024 + n) / 64 % 16 = 0 by omega, show (1024 + n) % 64 = n by omega]
  cases (hw : some (Enc.i 0x27 d a (0x400 + n)) = some w0)
  have hx : IsI (Enc.i 0x27 d a (0x400 + n)) 0x27 d a (0x400 + n) := isI (by omega) (by omega) (by omega) (by omega)
  exact ⟨hx.lt, key _ hx⟩

theorem srai (d a n : Nat) : Statement (.srai d a n) := by
  intro h w0 hw
  simp only [Instr.wf, groupOk, reg3, reg2, regOff, regImm, flt3, vec4, vec3, Bool.and_eq_true, Bool.or_eq_true, Bool.not_eq_true', decide_eq_true_eq] at h
  have key : ∀ x, IsI x 0x27 d a (0x800 + n) → decodeBody x = .ok (.srai d a n) := by
    rintro x ⟨f, f24_6, f18_6, f12_6, f0_12, f10_2, f6_4, f0_6, f12_12⟩
    rw [decodeBody, f24_6, major_27]
    simp (disch := omega) [Dec.shiftImm, groupOk, Dec.need, Dec.sel, Dec.cell, Dec.d, Dec.a, Dec.rb, Dec.fn, Dec.imm, Nat.mod_eq_of_lt, Nat.div_eq_of_lt, h, f18_6, f12_6, f0_12, f10_2, f6_4, f0_6, f12_12]
    simp [show (2048 + n) / 1024 = 2 by omega, show (2048 + n) / 64 % 16 = 0 by omega, show (2048 + n) % 64 = n by omega]
  cases (hw : some (Enc.i 0x27 d a (0x800 + n)) = some w0)
  have hx : IsI (Enc.i 0x27 d a (0x800 + n)) 0x27 d a (0x800 + n) := isI (by omega) (by omega) (by omega) (by omega)
  exact ⟨hx.lt, key _ hx⟩

theorem fadd (rm : Rm) (d a b : Nat) : Statement (.fadd rm d a b) := by
  intro h w0 hw
  have qrm := Rm.code_lt rm
  simp only [Instr.wf, groupOk, reg3, reg2, regOff, regImm, flt3, vec4, vec3, Bool.and_eq_true, Bool.or_eq_true, Bool.not_eq_true', decide_eq_true_eq] at h
  have key : ∀ x, IsFl x 0x28 0 rm.code d a b → decodeBody x = .ok (.fadd rm d a b) := by
    rintro x ⟨f, f24_6, f3_3, f0_3, f18_6, f12_6, f6_6, f8_4, f6_2⟩
    rw [decodeBody, f24_6, major_28]
    simp (disch := omega) [Dec.floatBinary, groupOk, Dec.need, Dec.sel, Dec.cell, Dec.d, Dec.a, Dec.rb, Dec.fn, Dec.imm, Rm.ofCode_code, Nat.mod_eq_of_lt, Nat.div_eq_of_lt, h, f3_3, f0_3, f18_6, f12_6, f6_6, f8_4, f6_2]
  cases (hw : some (Enc.fl 0x28 0 rm.code d a b) = some w0)
  have hx : IsFl (Enc.fl 0x28 0 rm.code d a b) 0x28 0 rm.code d a b := isFl (by omega) (by omega) (by omega) (by omega) (by omega) (by omega)
  exact ⟨hx.lt, key _ hx⟩

theorem fsub (rm : Rm) (d a b : Nat) : Statement (.fsub rm d a b) := by
  intro h w0 hw
  have qrm := Rm.code_lt rm
  simp only [Instr.wf, groupOk, reg3, reg2, regOff, regImm, flt3, vec4, vec3, Bool.and_eq_true, Bool.or_eq_true, Bool.not_eq_true', decide_eq_true_eq] at h
  have key : ∀ x, IsFl x 0x28 1 rm.code d a b → decodeBody x = .ok (.fsub rm d a b) := by
    rintro x ⟨f, f24_6, f3_3, f0_3, f18_6, f12_6, f6_6, f8_4, f6_2⟩
    rw [decodeBody, f24_6, major_28]
    simp (disch := omega) [Dec.floatBinary, groupOk, Dec.need, Dec.sel, Dec.cell, Dec.d, Dec.a, Dec.rb, Dec.fn, Dec.imm, Rm.ofCode_code, Nat.mod_eq_of_lt, Nat.div_eq_of_lt, h, f3_3, f0_3, f18_6, f12_6, f6_6, f8_4, f6_2]
  cases (hw : some (Enc.fl 0x28 1 rm.code d a b) = some w0)
  have hx : IsFl (Enc.fl 0x28 1 rm.code d a b) 0x28 1 rm.code d a b := isFl (by omega) (by omega) (by omega) (by omega) (by omega) (by omega)
  exact ⟨hx.lt, key _ hx⟩

theorem fmul (rm : Rm) (d a b : Nat) : Statement (.fmul rm d a b) := by
  intro h w0 hw
  have qrm := Rm.code_lt rm
  simp only [Instr.wf, groupOk, reg3, reg2, regOff, regImm, flt3, vec4, vec3, Bool.and_eq_true, Bool.or_eq_true, Bool.not_eq_true', decide_eq_true_eq] at h
  have key : ∀ x, IsFl x 0x28 2 rm.code d a b → decodeBody x = .ok (.fmul rm d a b) := by
    rintro x ⟨f, f24_6, f3_3, f0_3, f18_6, f12_6, f6_6, f8_4, f6_2⟩
    rw [decodeBody, f24_6, major_28]
    simp (disch := omega) [Dec.floatBinary, groupOk, Dec.need, Dec.sel, Dec.cell, Dec.d, Dec.a, Dec.rb, Dec.fn, Dec.imm, Rm.ofCode_code, Nat.mod_eq_of_lt, Nat.div_eq_of_lt, h, f3_3, f0_3, f18_6, f12_6, f6_6, f8_4, f6_2]
  cases (hw : some (Enc.fl 0x28 2 rm.code d a b) = some w0)
  have hx : IsFl (Enc.fl 0x28 2 rm.code d a b) 0x28 2 rm.code d a b := isFl (by omega) (by omega) (by omega) (by omega) (by omega) (by omega)
  exact ⟨hx.lt, key _ hx⟩

theorem fdiv (rm : Rm) (d a b : Nat) : Statement (.fdiv rm d a b) := by
  intro h w0 hw
  have qrm := Rm.code_lt rm
  simp only [Instr.wf, groupOk, reg3, reg2, regOff, regImm, flt3, vec4, vec3, Bool.and_eq_true, Bool.or_eq_true, Bool.not_eq_true', decide_eq_true_eq] at h
  have key : ∀ x, IsFl x 0x28 3 rm.code d a b → decodeBody x = .ok (.fdiv rm d a b) := by
    rintro x ⟨f, f24_6, f3_3, f0_3, f18_6, f12_6, f6_6, f8_4, f6_2⟩
    rw [decodeBody, f24_6, major_28]
    simp (disch := omega) [Dec.floatBinary, groupOk, Dec.need, Dec.sel, Dec.cell, Dec.d, Dec.a, Dec.rb, Dec.fn, Dec.imm, Rm.ofCode_code, Nat.mod_eq_of_lt, Nat.div_eq_of_lt, h, f3_3, f0_3, f18_6, f12_6, f6_6, f8_4, f6_2]
  cases (hw : some (Enc.fl 0x28 3 rm.code d a b) = some w0)
  have hx : IsFl (Enc.fl 0x28 3 rm.code d a b) 0x28 3 rm.code d a b := isFl (by omega) (by omega) (by omega) (by omega) (by omega) (by omega)
  exact ⟨hx.lt, key _ hx⟩

theorem ffma (rm : Rm) (d a b : Nat) : Statement (.ffma rm d a b) := by
  intro h w0 hw
  have qrm := Rm.code_lt rm
  simp only [Instr.wf, groupOk, reg3, reg2, regOff, regImm, flt3, vec4, vec3, Bool.and_eq_true, Bool.or_eq_true, Bool.not_eq_true', decide_eq_true_eq] at h
  have key : ∀ x, IsFl x 0x28 4 rm.code d a b → decodeBody x = .ok (.ffma rm d a b) := by
    rintro x ⟨f, f24_6, f3_3, f0_3, f18_6, f12_6, f6_6, f8_4, f6_2⟩
    rw [decodeBody, f24_6, major_28]
    simp (disch := omega) [Dec.floatBinary, groupOk, Dec.need, Dec.sel, Dec.cell, Dec.d, Dec.a, Dec.rb, Dec.fn, Dec.imm, Rm.ofCode_code, Nat.mod_eq_of_lt, Nat.div_eq_of_lt, h, f3_3, f0_3, f18_6, f12_6, f6_6, f8_4, f6_2]
  cases (hw : some (Enc.fl 0x28 4 rm.code d a b) = some w0)
  have hx : IsFl (Enc.fl 0x28 4 rm.code d a b) 0x28 4 rm.code d a b := isFl (by omega) (by omega) (by omega) (by omega) (by omega) (by omega)
  exact ⟨hx.lt, key _ hx⟩

theorem fmin (d a b : Nat) : Statement (.fmin d a b) := by
  intro h w0 hw
  simp only [Instr.wf, groupOk, reg3, reg2, regOff, regImm, flt3, vec4, vec3, Bool.and_eq_true, Bool.or_eq_true, Bool.not_eq_true', decide_eq_true_eq] at h
  have key : ∀ x, IsFl x 0x28 5 0 d a b → decodeBody x = .ok (.fmin d a b) := by
    rintro x ⟨f, f24_6, f3_3, f0_3, f18_6, f12_6, f6_6, f8_4, f6_2⟩
    rw [decodeBody, f24_6, major_28]
    simp (disch := omega) [Dec.floatBinary, groupOk, Dec.need, Dec.sel, Dec.cell, Dec.d, Dec.a, Dec.rb, Dec.fn, Dec.imm, Nat.mod_eq_of_lt, Nat.div_eq_of_lt, h, f3_3, f0_3, f18_6, f12_6, f6_6, f8_4, f6_2]
  cases (hw : some (Enc.fl 0x28 5 0 d a b) = some w0)
  have hx : IsFl (Enc.fl 0x28 5 0 d a b) 0x28 5 0 d a b := isFl (by omega) (by omega) (by omega) (by omega) (by omega) (by omega)
  exact ⟨hx.lt, key _ hx⟩

theorem fmax (d a b : Nat) : Statement (.fmax d a b) := by
  intro h w0 hw
  simp only [Instr.wf, groupOk, reg3, reg2, regOff, regImm, flt3, vec4, vec3, Bool.and_eq_true, Bool.or_eq_true, Bool.not_eq_true', decide_eq_true_eq] at h
  have key : ∀ x, IsFl x 0x28 6 0 d a b → decodeBody x = .ok (.fmax d a b) := by
    rintro x ⟨f, f24_6, f3_3, f0_3, f18_6, f12_6, f6_6, f8_4, f6_2⟩
    rw [decodeBody, f24_6, major_28]
    simp (disch := omega) [Dec.floatBinary, groupOk, Dec.need, Dec.sel, Dec.cell, Dec.d, Dec.a, Dec.rb, Dec.fn, Dec.imm, Nat.mod_eq_of_lt, Nat.div_eq_of_lt, h, f3_3, f0_3, f18_6, f12_6, f6_6, f8_4, f6_2]
  cases (hw : some (Enc.fl 0x28 6 0 d a b) = some w0)
  have hx : IsFl (Enc.fl 0x28 6 0 d a b) 0x28 6 0 d a b := isFl (by omega) (by omega) (by omega) (by omega) (by omega) (by omega)
  exact ⟨hx.lt, key _ hx⟩

theorem fcmp (cc : FCc) (d a b : Nat) : Statement (.fcmp cc d a b) := by
  intro h w0 hw
  have qcc := FCc.code_lt cc
  simp only [Instr.wf, groupOk, reg3, reg2, regOff, regImm, flt3, vec4, vec3, Bool.and_eq_true, Bool.or_eq_true, Bool.not_eq_true', decide_eq_true_eq] at h
  have key : ∀ x, IsFl x 0x28 7 cc.code d a b → decodeBody x = .ok (.fcmp cc d a b) := by
    rintro x ⟨f, f24_6, f3_3, f0_3, f18_6, f12_6, f6_6, f8_4, f6_2⟩
    rw [decodeBody, f24_6, major_28]
    simp (disch := omega) [Dec.floatBinary, groupOk, Dec.need, Dec.sel, Dec.cell, Dec.d, Dec.a, Dec.rb, Dec.fn, Dec.imm, FCc.ofCode_code, Nat.mod_eq_of_lt, Nat.div_eq_of_lt, h, f3_3, f0_3, f18_6, f12_6, f6_6, f8_4, f6_2]
  cases (hw : some (Enc.fl 0x28 7 cc.code d a b) = some w0)
  have hx : IsFl (Enc.fl 0x28 7 cc.code d a b) 0x28 7 cc.code d a b := isFl (by omega) (by omega) (by omega) (by omega) (by omega) (by omega)
  exact ⟨hx.lt, key _ hx⟩

theorem fsqrt (rm : Rm) (d a : Nat) : Statement (.fsqrt rm d a) := by
  intro h w0 hw
  have qrm := Rm.code_lt rm
  simp only [Instr.wf, groupOk, reg3, reg2, regOff, regImm, flt3, vec4, vec3, Bool.and_eq_true, Bool.or_eq_true, Bool.not_eq_true', decide_eq_true_eq] at h
  have key : ∀ x, IsFl x 0x29 0 rm.code d a 0 → decodeBody x = .ok (.fsqrt rm d a) := by
    rintro x ⟨f, f24_6, f3_3, f0_3, f18_6, f12_6, f6_6, f8_4, f6_2⟩
    rw [decodeBody, f24_6, major_29]
    simp (disch := omega) [Dec.floatUnary, groupOk, Dec.need, Dec.sel, Dec.cell, Dec.d, Dec.a, Dec.rb, Dec.fn, Dec.imm, Rm.ofCode_code, Nat.mod_eq_of_lt, Nat.div_eq_of_lt, h, f3_3, f0_3, f18_6, f12_6, f6_6, f8_4, f6_2]
  cases (hw : some (Enc.fl 0x29 0 rm.code d a 0) = some w0)
  have hx : IsFl (Enc.fl 0x29 0 rm.code d a 0) 0x29 0 rm.code d a 0 := isFl (by omega) (by omega) (by omega) (by omega) (by omega) (by omega)
  exact ⟨hx.lt, key _ hx⟩

theorem fcvtfi (rm : Rm) (it : IntTy) (d a : Nat) : Statement (.fcvtfi rm it d a) := by
  intro h w0 hw
  have qrm := Rm.code_lt rm
  have qit := IntTy.code_lt it
  simp only [Instr.wf, groupOk, reg3, reg2, regOff, regImm, flt3, vec4, vec3, Bool.and_eq_true, Bool.or_eq_true, Bool.not_eq_true', decide_eq_true_eq] at h
  have key : ∀ x, IsFl x 0x29 1 rm.code d a it.code → decodeBody x = .ok (.fcvtfi rm it d a) := by
    rintro x ⟨f, f24_6, f3_3, f0_3, f18_6, f12_6, f6_6, f8_4, f6_2⟩
    rw [decodeBody, f24_6, major_29]
    simp (disch := omega) [Dec.floatUnary, groupOk, Dec.need, Dec.sel, Dec.cell, Dec.d, Dec.a, Dec.rb, Dec.fn, Dec.imm, Rm.ofCode_code, IntTy.ofCode_code, Nat.mod_eq_of_lt, Nat.div_eq_of_lt, h, f3_3, f0_3, f18_6, f12_6, f6_6, f8_4, f6_2]
  cases (hw : some (Enc.fl 0x29 1 rm.code d a it.code) = some w0)
  have hx : IsFl (Enc.fl 0x29 1 rm.code d a it.code) 0x29 1 rm.code d a it.code := isFl (by omega) (by omega) (by omega) (by omega) (by omega) (by omega)
  exact ⟨hx.lt, key _ hx⟩

theorem fcvtif (rm : Rm) (it : IntTy) (d a : Nat) : Statement (.fcvtif rm it d a) := by
  intro h w0 hw
  have qrm := Rm.code_lt rm
  have qit := IntTy.code_lt it
  simp only [Instr.wf, groupOk, reg3, reg2, regOff, regImm, flt3, vec4, vec3, Bool.and_eq_true, Bool.or_eq_true, Bool.not_eq_true', decide_eq_true_eq] at h
  have key : ∀ x, IsFl x 0x29 2 rm.code d a it.code → decodeBody x = .ok (.fcvtif rm it d a) := by
    rintro x ⟨f, f24_6, f3_3, f0_3, f18_6, f12_6, f6_6, f8_4, f6_2⟩
    rw [decodeBody, f24_6, major_29]
    simp (disch := omega) [Dec.floatUnary, groupOk, Dec.need, Dec.sel, Dec.cell, Dec.d, Dec.a, Dec.rb, Dec.fn, Dec.imm, Rm.ofCode_code, IntTy.ofCode_code, Nat.mod_eq_of_lt, Nat.div_eq_of_lt, h, f3_3, f0_3, f18_6, f12_6, f6_6, f8_4, f6_2]
  cases (hw : some (Enc.fl 0x29 2 rm.code d a it.code) = some w0)
  have hx : IsFl (Enc.fl 0x29 2 rm.code d a it.code) 0x29 2 rm.code d a it.code := isFl (by omega) (by omega) (by omega) (by omega) (by omega) (by omega)
  exact ⟨hx.lt, key _ hx⟩

theorem fmvxf (d a : Nat) : Statement (.fmvxf d a) := by
  intro h w0 hw
  simp only [Instr.wf, groupOk, reg3, reg2, regOff, regImm, flt3, vec4, vec3, Bool.and_eq_true, Bool.or_eq_true, Bool.not_eq_true', decide_eq_true_eq] at h
  have key : ∀ x, IsFl x 0x29 3 0 d a 0 → decodeBody x = .ok (.fmvxf d a) := by
    rintro x ⟨f, f24_6, f3_3, f0_3, f18_6, f12_6, f6_6, f8_4, f6_2⟩
    rw [decodeBody, f24_6, major_29]
    simp (disch := omega) [Dec.floatUnary, groupOk, Dec.need, Dec.sel, Dec.cell, Dec.d, Dec.a, Dec.rb, Dec.fn, Dec.imm, Nat.mod_eq_of_lt, Nat.div_eq_of_lt, h, f3_3, f0_3, f18_6, f12_6, f6_6, f8_4, f6_2]
  cases (hw : some (Enc.fl 0x29 3 0 d a 0) = some w0)
  have hx : IsFl (Enc.fl 0x29 3 0 d a 0) 0x29 3 0 d a 0 := isFl (by omega) (by omega) (by omega) (by omega) (by omega) (by omega)
  exact ⟨hx.lt, key _ hx⟩

theorem fmvfx (d a : Nat) : Statement (.fmvfx d a) := by
  intro h w0 hw
  simp only [Instr.wf, groupOk, reg3, reg2, regOff, regImm, flt3, vec4, vec3, Bool.and_eq_true, Bool.or_eq_true, Bool.not_eq_true', decide_eq_true_eq] at h
  have key : ∀ x, IsFl x 0x29 4 0 d a 0 → decodeBody x = .ok (.fmvfx d a) := by
    rintro x ⟨f, f24_6, f3_3, f0_3, f18_6, f12_6, f6_6, f8_4, f6_2⟩
    rw [decodeBody, f24_6, major_29]
    simp (disch := omega) [Dec.floatUnary, groupOk, Dec.need, Dec.sel, Dec.cell, Dec.d, Dec.a, Dec.rb, Dec.fn, Dec.imm, Nat.mod_eq_of_lt, Nat.div_eq_of_lt, h, f3_3, f0_3, f18_6, f12_6, f6_6, f8_4, f6_2]
  cases (hw : some (Enc.fl 0x29 4 0 d a 0) = some w0)
  have hx : IsFl (Enc.fl 0x29 4 0 d a 0) 0x29 4 0 d a 0 := isFl (by omega) (by omega) (by omega) (by omega) (by omega) (by omega)
  exact ⟨hx.lt, key _ hx⟩

theorem fclass (d a : Nat) : Statement (.fclass d a) := by
  intro h w0 hw
  simp only [Instr.wf, groupOk, reg3, reg2, regOff, regImm, flt3, vec4, vec3, Bool.and_eq_true, Bool.or_eq_true, Bool.not_eq_true', decide_eq_true_eq] at h
  have key : ∀ x, IsFl x 0x29 5 0 d a 0 → decodeBody x = .ok (.fclass d a) := by
    rintro x ⟨f, f24_6, f3_3, f0_3, f18_6, f12_6, f6_6, f8_4, f6_2⟩
    rw [decodeBody, f24_6, major_29]
    simp (disch := omega) [Dec.floatUnary, groupOk, Dec.need, Dec.sel, Dec.cell, Dec.d, Dec.a, Dec.rb, Dec.fn, Dec.imm, Nat.mod_eq_of_lt, Nat.div_eq_of_lt, h, f3_3, f0_3, f18_6, f12_6, f6_6, f8_4, f6_2]
  cases (hw : some (Enc.fl 0x29 5 0 d a 0) = some w0)
  have hx : IsFl (Enc.fl 0x29 5 0 d a 0) 0x29 5 0 d a 0 := isFl (by omega) (by omega) (by omega) (by omega) (by omega) (by omega)
  exact ⟨hx.lt, key _ hx⟩

theorem vadd (t : ElemTy) (d a b pg : Nat) : Statement (.vadd t d a b pg) := by
  intro h w0 hw
  have qt := ElemTy.code_lt t
  simp only [Instr.wf, groupOk, reg3, reg2, regOff, regImm, flt3, vec4, vec3, Bool.and_eq_true, Bool.or_eq_true, Bool.not_eq_true', decide_eq_true_eq] at h
  have key : ∀ x, IsV x 0x2A t.code d a b pg 0 → decodeBody x = .ok (.vadd t d a b pg) := by
    rintro x ⟨f, f24_6, f21_3, f16_5, f11_5, f6_5, f3_3, f0_3, f6_3, f9_2, f6_1, f7_1, f8_3, f7_4, f16_3, f19_2, f11_3, f14_2⟩
    rw [decodeBody, f24_6, major_2A]
    simp (disch := omega) [Dec.vectorA, groupOk, Dec.need, Dec.sel, Dec.cell, Dec.vty, Dec.vd, Dec.va, Dec.vb, Dec.pg, Dec.vfn, ElemTy.ofCode_code, Nat.mod_eq_of_lt, Nat.div_eq_of_lt, h, f21_3, f16_5, f11_5, f6_5, f3_3, f0_3, f6_3, f9_2, f6_1, f7_1, f8_3, f7_4, f16_3, f19_2, f11_3, f14_2]
  cases (hw : some (Enc.v 0x2A t.code d a b pg 0) = some w0)
  have hx : IsV (Enc.v 0x2A t.code d a b pg 0) 0x2A t.code d a b pg 0 := isV (by omega) (by omega) (by omega) (by omega) (by omega) (by omega) (by omega)
  exact ⟨hx.lt, key _ hx⟩

theorem vsub (t : ElemTy) (d a b pg : Nat) : Statement (.vsub t d a b pg) := by
  intro h w0 hw
  have qt := ElemTy.code_lt t
  simp only [Instr.wf, groupOk, reg3, reg2, regOff, regImm, flt3, vec4, vec3, Bool.and_eq_true, Bool.or_eq_true, Bool.not_eq_true', decide_eq_true_eq] at h
  have key : ∀ x, IsV x 0x2A t.code d a b pg 1 → decodeBody x = .ok (.vsub t d a b pg) := by
    rintro x ⟨f, f24_6, f21_3, f16_5, f11_5, f6_5, f3_3, f0_3, f6_3, f9_2, f6_1, f7_1, f8_3, f7_4, f16_3, f19_2, f11_3, f14_2⟩
    rw [decodeBody, f24_6, major_2A]
    simp (disch := omega) [Dec.vectorA, groupOk, Dec.need, Dec.sel, Dec.cell, Dec.vty, Dec.vd, Dec.va, Dec.vb, Dec.pg, Dec.vfn, ElemTy.ofCode_code, Nat.mod_eq_of_lt, Nat.div_eq_of_lt, h, f21_3, f16_5, f11_5, f6_5, f3_3, f0_3, f6_3, f9_2, f6_1, f7_1, f8_3, f7_4, f16_3, f19_2, f11_3, f14_2]
  cases (hw : some (Enc.v 0x2A t.code d a b pg 1) = some w0)
  have hx : IsV (Enc.v 0x2A t.code d a b pg 1) 0x2A t.code d a b pg 1 := isV (by omega) (by omega) (by omega) (by omega) (by omega) (by omega) (by omega)
  exact ⟨hx.lt, key _ hx⟩

theorem vmul (t : ElemTy) (d a b pg : Nat) : Statement (.vmul t d a b pg) := by
  intro h w0 hw
  have qt := ElemTy.code_lt t
  simp only [Instr.wf, groupOk, reg3, reg2, regOff, regImm, flt3, vec4, vec3, Bool.and_eq_true, Bool.or_eq_true, Bool.not_eq_true', decide_eq_true_eq] at h
  have key : ∀ x, IsV x 0x2A t.code d a b pg 2 → decodeBody x = .ok (.vmul t d a b pg) := by
    rintro x ⟨f, f24_6, f21_3, f16_5, f11_5, f6_5, f3_3, f0_3, f6_3, f9_2, f6_1, f7_1, f8_3, f7_4, f16_3, f19_2, f11_3, f14_2⟩
    rw [decodeBody, f24_6, major_2A]
    simp (disch := omega) [Dec.vectorA, groupOk, Dec.need, Dec.sel, Dec.cell, Dec.vty, Dec.vd, Dec.va, Dec.vb, Dec.pg, Dec.vfn, ElemTy.ofCode_code, Nat.mod_eq_of_lt, Nat.div_eq_of_lt, h, f21_3, f16_5, f11_5, f6_5, f3_3, f0_3, f6_3, f9_2, f6_1, f7_1, f8_3, f7_4, f16_3, f19_2, f11_3, f14_2]
  cases (hw : some (Enc.v 0x2A t.code d a b pg 2) = some w0)
  have hx : IsV (Enc.v 0x2A t.code d a b pg 2) 0x2A t.code d a b pg 2 := isV (by omega) (by omega) (by omega) (by omega) (by omega) (by omega) (by omega)
  exact ⟨hx.lt, key _ hx⟩

theorem vfma (t : ElemTy) (d a b pg : Nat) : Statement (.vfma t d a b pg) := by
  intro h w0 hw
  have qt := ElemTy.code_lt t
  simp only [Instr.wf, groupOk, reg3, reg2, regOff, regImm, flt3, vec4, vec3, Bool.and_eq_true, Bool.or_eq_true, Bool.not_eq_true', decide_eq_true_eq] at h
  have key : ∀ x, IsV x 0x2A t.code d a b pg 3 → decodeBody x = .ok (.vfma t d a b pg) := by
    rintro x ⟨f, f24_6, f21_3, f16_5, f11_5, f6_5, f3_3, f0_3, f6_3, f9_2, f6_1, f7_1, f8_3, f7_4, f16_3, f19_2, f11_3, f14_2⟩
    rw [decodeBody, f24_6, major_2A]
    simp (disch := omega) [Dec.vectorA, groupOk, Dec.need, Dec.sel, Dec.cell, Dec.vty, Dec.vd, Dec.va, Dec.vb, Dec.pg, Dec.vfn, ElemTy.ofCode_code, Nat.mod_eq_of_lt, Nat.div_eq_of_lt, h, f21_3, f16_5, f11_5, f6_5, f3_3, f0_3, f6_3, f9_2, f6_1, f7_1, f8_3, f7_4, f16_3, f19_2, f11_3, f14_2]
  cases (hw : some (Enc.v 0x2A t.code d a b pg 3) = some w0)
  have hx : IsV (Enc.v 0x2A t.code d a b pg 3) 0x2A t.code d a b pg 3 := isV (by omega) (by omega) (by omega) (by omega) (by omega) (by omega) (by omega)
  exact ⟨hx.lt, key _ hx⟩

theorem vfms (t : ElemTy) (d a b pg : Nat) : Statement (.vfms t d a b pg) := by
  intro h w0 hw
  have qt := ElemTy.code_lt t
  simp only [Instr.wf, groupOk, reg3, reg2, regOff, regImm, flt3, vec4, vec3, Bool.and_eq_true, Bool.or_eq_true, Bool.not_eq_true', decide_eq_true_eq] at h
  have key : ∀ x, IsV x 0x2A t.code d a b pg 4 → decodeBody x = .ok (.vfms t d a b pg) := by
    rintro x ⟨f, f24_6, f21_3, f16_5, f11_5, f6_5, f3_3, f0_3, f6_3, f9_2, f6_1, f7_1, f8_3, f7_4, f16_3, f19_2, f11_3, f14_2⟩
    rw [decodeBody, f24_6, major_2A]
    simp (disch := omega) [Dec.vectorA, groupOk, Dec.need, Dec.sel, Dec.cell, Dec.vty, Dec.vd, Dec.va, Dec.vb, Dec.pg, Dec.vfn, ElemTy.ofCode_code, Nat.mod_eq_of_lt, Nat.div_eq_of_lt, h, f21_3, f16_5, f11_5, f6_5, f3_3, f0_3, f6_3, f9_2, f6_1, f7_1, f8_3, f7_4, f16_3, f19_2, f11_3, f14_2]
  cases (hw : some (Enc.v 0x2A t.code d a b pg 4) = some w0)
  have hx : IsV (Enc.v 0x2A t.code d a b pg 4) 0x2A t.code d a b pg 4 := isV (by omega) (by omega) (by omega) (by omega) (by omega) (by omega) (by omega)
  exact ⟨hx.lt, key _ hx⟩

theorem vmin (t : ElemTy) (d a b pg : Nat) : Statement (.vmin t d a b pg) := by
  intro h w0 hw
  have qt := ElemTy.code_lt t
  simp only [Instr.wf, groupOk, reg3, reg2, regOff, regImm, flt3, vec4, vec3, Bool.and_eq_true, Bool.or_eq_true, Bool.not_eq_true', decide_eq_true_eq] at h
  have key : ∀ x, IsV x 0x2A t.code d a b pg 5 → decodeBody x = .ok (.vmin t d a b pg) := by
    rintro x ⟨f, f24_6, f21_3, f16_5, f11_5, f6_5, f3_3, f0_3, f6_3, f9_2, f6_1, f7_1, f8_3, f7_4, f16_3, f19_2, f11_3, f14_2⟩
    rw [decodeBody, f24_6, major_2A]
    simp (disch := omega) [Dec.vectorA, groupOk, Dec.need, Dec.sel, Dec.cell, Dec.vty, Dec.vd, Dec.va, Dec.vb, Dec.pg, Dec.vfn, ElemTy.ofCode_code, Nat.mod_eq_of_lt, Nat.div_eq_of_lt, h, f21_3, f16_5, f11_5, f6_5, f3_3, f0_3, f6_3, f9_2, f6_1, f7_1, f8_3, f7_4, f16_3, f19_2, f11_3, f14_2]
  cases (hw : some (Enc.v 0x2A t.code d a b pg 5) = some w0)
  have hx : IsV (Enc.v 0x2A t.code d a b pg 5) 0x2A t.code d a b pg 5 := isV (by omega) (by omega) (by omega) (by omega) (by omega) (by omega) (by omega)
  exact ⟨hx.lt, key _ hx⟩

theorem vmax (t : ElemTy) (d a b pg : Nat) : Statement (.vmax t d a b pg) := by
  intro h w0 hw
  have qt := ElemTy.code_lt t
  simp only [Instr.wf, groupOk, reg3, reg2, regOff, regImm, flt3, vec4, vec3, Bool.and_eq_true, Bool.or_eq_true, Bool.not_eq_true', decide_eq_true_eq] at h
  have key : ∀ x, IsV x 0x2A t.code d a b pg 6 → decodeBody x = .ok (.vmax t d a b pg) := by
    rintro x ⟨f, f24_6, f21_3, f16_5, f11_5, f6_5, f3_3, f0_3, f6_3, f9_2, f6_1, f7_1, f8_3, f7_4, f16_3, f19_2, f11_3, f14_2⟩
    rw [decodeBody, f24_6, major_2A]
    simp (disch := omega) [Dec.vectorA, groupOk, Dec.need, Dec.sel, Dec.cell, Dec.vty, Dec.vd, Dec.va, Dec.vb, Dec.pg, Dec.vfn, ElemTy.ofCode_code, Nat.mod_eq_of_lt, Nat.div_eq_of_lt, h, f21_3, f16_5, f11_5, f6_5, f3_3, f0_3, f6_3, f9_2, f6_1, f7_1, f8_3, f7_4, f16_3, f19_2, f11_3, f14_2]
  cases (hw : some (Enc.v 0x2A t.code d a b pg 6) = some w0)
  have hx : IsV (Enc.v 0x2A t.code d a b pg 6) 0x2A t.code d a b pg 6 := isV (by omega) (by omega) (by omega) (by omega) (by omega) (by omega) (by omega)
  exact ⟨hx.lt, key _ hx⟩

theorem vabs (t : ElemTy) (d a pg : Nat) : Statement (.vabs t d a pg) := by
  intro h w0 hw
  have qt := ElemTy.code_lt t
  simp only [Instr.wf, groupOk, reg3, reg2, regOff, regImm, flt3, vec4, vec3, Bool.and_eq_true, Bool.or_eq_true, Bool.not_eq_true', decide_eq_true_eq] at h
  have key : ∀ x, IsV x 0x2A t.code d a 0 pg 7 → decodeBody x = .ok (.vabs t d a pg) := by
    rintro x ⟨f, f24_6, f21_3, f16_5, f11_5, f6_5, f3_3, f0_3, f6_3, f9_2, f6_1, f7_1, f8_3, f7_4, f16_3, f19_2, f11_3, f14_2⟩
    rw [decodeBody, f24_6, major_2A]
    simp (disch := omega) [Dec.vectorA, groupOk, Dec.need, Dec.sel, Dec.cell, Dec.vty, Dec.vd, Dec.va, Dec.vb, Dec.pg, Dec.vfn, ElemTy.ofCode_code, Nat.mod_eq_of_lt, Nat.div_eq_of_lt, h, f21_3, f16_5, f11_5, f6_5, f3_3, f0_3, f6_3, f9_2, f6_1, f7_1, f8_3, f7_4, f16_3, f19_2, f11_3, f14_2]
  cases (hw : some (Enc.v 0x2A t.code d a 0 pg 7) = some w0)
  have hx : IsV (Enc.v 0x2A t.code d a 0 pg 7) 0x2A t.code d a 0 pg 7 := isV (by omega) (by omega) (by omega) (by omega) (by omega) (by omega) (by omega)
  exact ⟨hx.lt, key _ hx⟩

theorem vneg (t : ElemTy) (d a pg : Nat) : Statement (.vneg t d a pg) := by
  intro h w0 hw
  have qt := ElemTy.code_lt t
  simp only [Instr.wf, groupOk, reg3, reg2, regOff, regImm, flt3, vec4, vec3, Bool.and_eq_true, Bool.or_eq_true, Bool.not_eq_true', decide_eq_true_eq] at h
  have key : ∀ x, IsV x 0x2B t.code d a 0 pg 0 → decodeBody x = .ok (.vneg t d a pg) := by
    rintro x ⟨f, f24_6, f21_3, f16_5, f11_5, f6_5, f3_3, f0_3, f6_3, f9_2, f6_1, f7_1, f8_3, f7_4, f16_3, f19_2, f11_3, f14_2⟩
    rw [decodeBody, f24_6, major_2B]
    simp (disch := omega) [Dec.vectorB, groupOk, Dec.need, Dec.sel, Dec.cell, Dec.vty, Dec.vd, Dec.va, Dec.vb, Dec.pg, Dec.vfn, ElemTy.ofCode_code, Nat.mod_eq_of_lt, Nat.div_eq_of_lt, h, f21_3, f16_5, f11_5, f6_5, f3_3, f0_3, f6_3, f9_2, f6_1, f7_1, f8_3, f7_4, f16_3, f19_2, f11_3, f14_2]
  cases (hw : some (Enc.v 0x2B t.code d a 0 pg 0) = some w0)
  have hx : IsV (Enc.v 0x2B t.code d a 0 pg 0) 0x2B t.code d a 0 pg 0 := isV (by omega) (by omega) (by omega) (by omega) (by omega) (by omega) (by omega)
  exact ⟨hx.lt, key _ hx⟩

theorem vand (t : ElemTy) (d a b pg : Nat) : Statement (.vand t d a b pg) := by
  intro h w0 hw
  have qt := ElemTy.code_lt t
  simp only [Instr.wf, groupOk, reg3, reg2, regOff, regImm, flt3, vec4, vec3, Bool.and_eq_true, Bool.or_eq_true, Bool.not_eq_true', decide_eq_true_eq] at h
  have key : ∀ x, IsV x 0x2B t.code d a b pg 1 → decodeBody x = .ok (.vand t d a b pg) := by
    rintro x ⟨f, f24_6, f21_3, f16_5, f11_5, f6_5, f3_3, f0_3, f6_3, f9_2, f6_1, f7_1, f8_3, f7_4, f16_3, f19_2, f11_3, f14_2⟩
    rw [decodeBody, f24_6, major_2B]
    simp (disch := omega) [Dec.vectorB, groupOk, Dec.need, Dec.sel, Dec.cell, Dec.vty, Dec.vd, Dec.va, Dec.vb, Dec.pg, Dec.vfn, ElemTy.ofCode_code, Nat.mod_eq_of_lt, Nat.div_eq_of_lt, h, f21_3, f16_5, f11_5, f6_5, f3_3, f0_3, f6_3, f9_2, f6_1, f7_1, f8_3, f7_4, f16_3, f19_2, f11_3, f14_2]
  cases (hw : some (Enc.v 0x2B t.code d a b pg 1) = some w0)
  have hx : IsV (Enc.v 0x2B t.code d a b pg 1) 0x2B t.code d a b pg 1 := isV (by omega) (by omega) (by omega) (by omega) (by omega) (by omega) (by omega)
  exact ⟨hx.lt, key _ hx⟩

theorem vor (t : ElemTy) (d a b pg : Nat) : Statement (.vor t d a b pg) := by
  intro h w0 hw
  have qt := ElemTy.code_lt t
  simp only [Instr.wf, groupOk, reg3, reg2, regOff, regImm, flt3, vec4, vec3, Bool.and_eq_true, Bool.or_eq_true, Bool.not_eq_true', decide_eq_true_eq] at h
  have key : ∀ x, IsV x 0x2B t.code d a b pg 2 → decodeBody x = .ok (.vor t d a b pg) := by
    rintro x ⟨f, f24_6, f21_3, f16_5, f11_5, f6_5, f3_3, f0_3, f6_3, f9_2, f6_1, f7_1, f8_3, f7_4, f16_3, f19_2, f11_3, f14_2⟩
    rw [decodeBody, f24_6, major_2B]
    simp (disch := omega) [Dec.vectorB, groupOk, Dec.need, Dec.sel, Dec.cell, Dec.vty, Dec.vd, Dec.va, Dec.vb, Dec.pg, Dec.vfn, ElemTy.ofCode_code, Nat.mod_eq_of_lt, Nat.div_eq_of_lt, h, f21_3, f16_5, f11_5, f6_5, f3_3, f0_3, f6_3, f9_2, f6_1, f7_1, f8_3, f7_4, f16_3, f19_2, f11_3, f14_2]
  cases (hw : some (Enc.v 0x2B t.code d a b pg 2) = some w0)
  have hx : IsV (Enc.v 0x2B t.code d a b pg 2) 0x2B t.code d a b pg 2 := isV (by omega) (by omega) (by omega) (by omega) (by omega) (by omega) (by omega)
  exact ⟨hx.lt, key _ hx⟩

theorem vxor (t : ElemTy) (d a b pg : Nat) : Statement (.vxor t d a b pg) := by
  intro h w0 hw
  have qt := ElemTy.code_lt t
  simp only [Instr.wf, groupOk, reg3, reg2, regOff, regImm, flt3, vec4, vec3, Bool.and_eq_true, Bool.or_eq_true, Bool.not_eq_true', decide_eq_true_eq] at h
  have key : ∀ x, IsV x 0x2B t.code d a b pg 3 → decodeBody x = .ok (.vxor t d a b pg) := by
    rintro x ⟨f, f24_6, f21_3, f16_5, f11_5, f6_5, f3_3, f0_3, f6_3, f9_2, f6_1, f7_1, f8_3, f7_4, f16_3, f19_2, f11_3, f14_2⟩
    rw [decodeBody, f24_6, major_2B]
    simp (disch := omega) [Dec.vectorB, groupOk, Dec.need, Dec.sel, Dec.cell, Dec.vty, Dec.vd, Dec.va, Dec.vb, Dec.pg, Dec.vfn, ElemTy.ofCode_code, Nat.mod_eq_of_lt, Nat.div_eq_of_lt, h, f21_3, f16_5, f11_5, f6_5, f3_3, f0_3, f6_3, f9_2, f6_1, f7_1, f8_3, f7_4, f16_3, f19_2, f11_3, f14_2]
  cases (hw : some (Enc.v 0x2B t.code d a b pg 3) = some w0)
  have hx : IsV (Enc.v 0x2B t.code d a b pg 3) 0x2B t.code d a b pg 3 := isV (by omega) (by omega) (by omega) (by omega) (by omega) (by omega) (by omega)
  exact ⟨hx.lt, key _ hx⟩

theorem vshl (t : ElemTy) (d a b pg : Nat) : Statement (.vshl t d a b pg) := by
  intro h w0 hw
  have qt := ElemTy.code_lt t
  simp only [Instr.wf, groupOk, reg3, reg2, regOff, regImm, flt3, vec4, vec3, Bool.and_eq_true, Bool.or_eq_true, Bool.not_eq_true', decide_eq_true_eq] at h
  have key : ∀ x, IsV x 0x2B t.code d a b pg 4 → decodeBody x = .ok (.vshl t d a b pg) := by
    rintro x ⟨f, f24_6, f21_3, f16_5, f11_5, f6_5, f3_3, f0_3, f6_3, f9_2, f6_1, f7_1, f8_3, f7_4, f16_3, f19_2, f11_3, f14_2⟩
    rw [decodeBody, f24_6, major_2B]
    simp (disch := omega) [Dec.vectorB, groupOk, Dec.need, Dec.sel, Dec.cell, Dec.vty, Dec.vd, Dec.va, Dec.vb, Dec.pg, Dec.vfn, ElemTy.ofCode_code, Nat.mod_eq_of_lt, Nat.div_eq_of_lt, h, f21_3, f16_5, f11_5, f6_5, f3_3, f0_3, f6_3, f9_2, f6_1, f7_1, f8_3, f7_4, f16_3, f19_2, f11_3, f14_2]
  cases (hw : some (Enc.v 0x2B t.code d a b pg 4) = some w0)
  have hx : IsV (Enc.v 0x2B t.code d a b pg 4) 0x2B t.code d a b pg 4 := isV (by omega) (by omega) (by omega) (by omega) (by omega) (by omega) (by omega)
  exact ⟨hx.lt, key _ hx⟩

theorem vshr (t : ElemTy) (d a b pg : Nat) : Statement (.vshr t d a b pg) := by
  intro h w0 hw
  have qt := ElemTy.code_lt t
  simp only [Instr.wf, groupOk, reg3, reg2, regOff, regImm, flt3, vec4, vec3, Bool.and_eq_true, Bool.or_eq_true, Bool.not_eq_true', decide_eq_true_eq] at h
  have key : ∀ x, IsV x 0x2B t.code d a b pg 5 → decodeBody x = .ok (.vshr t d a b pg) := by
    rintro x ⟨f, f24_6, f21_3, f16_5, f11_5, f6_5, f3_3, f0_3, f6_3, f9_2, f6_1, f7_1, f8_3, f7_4, f16_3, f19_2, f11_3, f14_2⟩
    rw [decodeBody, f24_6, major_2B]
    simp (disch := omega) [Dec.vectorB, groupOk, Dec.need, Dec.sel, Dec.cell, Dec.vty, Dec.vd, Dec.va, Dec.vb, Dec.pg, Dec.vfn, ElemTy.ofCode_code, Nat.mod_eq_of_lt, Nat.div_eq_of_lt, h, f21_3, f16_5, f11_5, f6_5, f3_3, f0_3, f6_3, f9_2, f6_1, f7_1, f8_3, f7_4, f16_3, f19_2, f11_3, f14_2]
  cases (hw : some (Enc.v 0x2B t.code d a b pg 5) = some w0)
  have hx : IsV (Enc.v 0x2B t.code d a b pg 5) 0x2B t.code d a b pg 5 := isV (by omega) (by omega) (by omega) (by omega) (by omega) (by omega) (by omega)
  exact ⟨hx.lt, key _ hx⟩

theorem vsra (t : ElemTy) (d a b pg : Nat) : Statement (.vsra t d a b pg) := by
  intro h w0 hw
  have qt := ElemTy.code_lt t
  simp only [Instr.wf, groupOk, reg3, reg2, regOff, regImm, flt3, vec4, vec3, Bool.and_eq_true, Bool.or_eq_true, Bool.not_eq_true', decide_eq_true_eq] at h
  have key : ∀ x, IsV x 0x2B t.code d a b pg 6 → decodeBody x = .ok (.vsra t d a b pg) := by
    rintro x ⟨f, f24_6, f21_3, f16_5, f11_5, f6_5, f3_3, f0_3, f6_3, f9_2, f6_1, f7_1, f8_3, f7_4, f16_3, f19_2, f11_3, f14_2⟩
    rw [decodeBody, f24_6, major_2B]
    simp (disch := omega) [Dec.vectorB, groupOk, Dec.need, Dec.sel, Dec.cell, Dec.vty, Dec.vd, Dec.va, Dec.vb, Dec.pg, Dec.vfn, ElemTy.ofCode_code, Nat.mod_eq_of_lt, Nat.div_eq_of_lt, h, f21_3, f16_5, f11_5, f6_5, f3_3, f0_3, f6_3, f9_2, f6_1, f7_1, f8_3, f7_4, f16_3, f19_2, f11_3, f14_2]
  cases (hw : some (Enc.v 0x2B t.code d a b pg 6) = some w0)
  have hx : IsV (Enc.v 0x2B t.code d a b pg 6) 0x2B t.code d a b pg 6 := isV (by omega) (by omega) (by omega) (by omega) (by omega) (by omega) (by omega)
  exact ⟨hx.lt, key _ hx⟩

theorem vsel (t : ElemTy) (d a b pg : Nat) : Statement (.vsel t d a b pg) := by
  intro h w0 hw
  have qt := ElemTy.code_lt t
  simp only [Instr.wf, groupOk, reg3, reg2, regOff, regImm, flt3, vec4, vec3, Bool.and_eq_true, Bool.or_eq_true, Bool.not_eq_true', decide_eq_true_eq] at h
  have key : ∀ x, IsV x 0x2B t.code d a b pg 7 → decodeBody x = .ok (.vsel t d a b pg) := by
    rintro x ⟨f, f24_6, f21_3, f16_5, f11_5, f6_5, f3_3, f0_3, f6_3, f9_2, f6_1, f7_1, f8_3, f7_4, f16_3, f19_2, f11_3, f14_2⟩
    rw [decodeBody, f24_6, major_2B]
    simp (disch := omega) [Dec.vectorB, groupOk, Dec.need, Dec.sel, Dec.cell, Dec.vty, Dec.vd, Dec.va, Dec.vb, Dec.pg, Dec.vfn, ElemTy.ofCode_code, Nat.mod_eq_of_lt, Nat.div_eq_of_lt, h, f21_3, f16_5, f11_5, f6_5, f3_3, f0_3, f6_3, f9_2, f6_1, f7_1, f8_3, f7_4, f16_3, f19_2, f11_3, f14_2]
  cases (hw : some (Enc.v 0x2B t.code d a b pg 7) = some w0)
  have hx : IsV (Enc.v 0x2B t.code d a b pg 7) 0x2B t.code d a b pg 7 := isV (by omega) (by omega) (by omega) (by omega) (by omega) (by omega) (by omega)
  exact ⟨hx.lt, key _ hx⟩

theorem vcmp (cc : VCc) (t : ElemTy) (p a b pg : Nat) : Statement (.vcmp cc t p a b pg) := by
  intro h w0 hw
  have qcc := VCc.code_lt cc
  have qt := ElemTy.code_lt t
  simp only [Instr.wf, groupOk, reg3, reg2, regOff, regImm, flt3, vec4, vec3, Bool.and_eq_true, Bool.or_eq_true, Bool.not_eq_true', decide_eq_true_eq] at h
  have key : ∀ x, IsV x 0x2C t.code p a b pg cc.code → decodeBody x = .ok (.vcmp cc t p a b pg) := by
    rintro x ⟨f, f24_6, f21_3, f16_5, f11_5, f6_5, f3_3, f0_3, f6_3, f9_2, f6_1, f7_1, f8_3, f7_4, f16_3, f19_2, f11_3, f14_2⟩
    rw [decodeBody, f24_6, major_2C]
    simp (disch := omega) [Dec.vectorCmp, groupOk, Dec.need, Dec.sel, Dec.cell, Dec.vty, Dec.vd, Dec.va, Dec.vb, Dec.pg, Dec.vfn, VCc.ofCode_code, ElemTy.ofCode_code, Nat.mod_eq_of_lt, Nat.div_eq_of_lt, h, f21_3, f16_5, f11_5, f6_5, f3_3, f0_3, f6_3, f9_2, f6_1, f7_1, f8_3, f7_4, f16_3, f19_2, f11_3, f14_2]
  cases (hw : some (Enc.v 0x2C t.code p a b pg cc.code) = some w0)
  have hx : IsV (Enc.v 0x2C t.code p a b pg cc.code) 0x2C t.code p a b pg cc.code := isV (by omega) (by omega) (by omega) (by omega) (by omega) (by omega) (by omega)
  exact ⟨hx.lt, key _ hx⟩

theorem vcvt (t src : ElemTy) (d a pg : Nat) : Statement (.vcvt t src d a pg) := by
  intro h w0 hw
  have qt := ElemTy.code_lt t
  have qsrc := ElemTy.code_lt src
  simp only [Instr.wf, groupOk, reg3, reg2, regOff, regImm, flt3, vec4, vec3, Bool.and_eq_true, Bool.or_eq_true, Bool.not_eq_true', decide_eq_true_eq] at h
  have key : ∀ x, IsV x 0x2D t.code d a src.code pg 0 → decodeBody x = .ok (.vcvt t src d a pg) := by
    rintro x ⟨f, f24_6, f21_3, f16_5, f11_5, f6_5, f3_3, f0_3, f6_3, f9_2, f6_1, f7_1, f8_3, f7_4, f16_3, f19_2, f11_3, f14_2⟩
    rw [decodeBody, f24_6, major_2D]
    simp (disch := omega) [Dec.vectorC, groupOk, Dec.need, Dec.sel, Dec.cell, Dec.vty, Dec.vd, Dec.va, Dec.vb, Dec.pg, Dec.vfn, ElemTy.ofCode_code, Nat.mod_eq_of_lt, Nat.div_eq_of_lt, h, f21_3, f16_5, f11_5, f6_5, f3_3, f0_3, f6_3, f9_2, f6_1, f7_1, f8_3, f7_4, f16_3, f19_2, f11_3, f14_2]
  cases (hw : some (Enc.v 0x2D t.code d a src.code pg 0) = some w0)
  have hx : IsV (Enc.v 0x2D t.code d a src.code pg 0) 0x2D t.code d a src.code pg 0 := isV (by omega) (by omega) (by omega) (by omega) (by omega) (by omega) (by omega)
  exact ⟨hx.lt, key _ hx⟩

theorem venc (bank : Bank) (nan : Bool) (t : ElemTy) (d a pg : Nat) : Statement (.venc bank nan t d a pg) := by
  intro h w0 hw
  have qbank := Bank.code_lt bank
  have qt := ElemTy.code_lt t
  have qnan := boolCode_lt nan
  simp only [Instr.wf, groupOk, reg3, reg2, regOff, regImm, flt3, vec4, vec3, Bool.and_eq_true, Bool.or_eq_true, Bool.not_eq_true', decide_eq_true_eq] at h
  have key : ∀ x, IsV x 0x2D t.code d a (bank.code + 2 * boolCode nan) pg 1 → decodeBody x = .ok (.venc bank nan t d a pg) := by
    rintro x ⟨f, f24_6, f21_3, f16_5, f11_5, f6_5, f3_3, f0_3, f6_3, f9_2, f6_1, f7_1, f8_3, f7_4, f16_3, f19_2, f11_3, f14_2⟩
    rw [decodeBody, f24_6, major_2D]
    simp (disch := omega) [Dec.vectorC, groupOk, Dec.need, Dec.sel, Dec.cell, Dec.vty, Dec.vd, Dec.va, Dec.vb, Dec.pg, Dec.vfn, Bank.ofCode_code, ElemTy.ofCode_code, boolCode_eq, Nat.mod_eq_of_lt, Nat.div_eq_of_lt, h, f21_3, f16_5, f11_5, f6_5, f3_3, f0_3, f6_3, f9_2, f6_1, f7_1, f8_3, f7_4, f16_3, f19_2, f11_3, f14_2]
    rw [show (bank.code + 2 * boolCode nan) / 2 = boolCode nan by omega, boolCode_eq]
  cases (hw : some (Enc.v 0x2D t.code d a (bank.code + 2 * boolCode nan) pg 1) = some w0)
  have hx : IsV (Enc.v 0x2D t.code d a (bank.code + 2 * boolCode nan) pg 1) 0x2D t.code d a (bank.code + 2 * boolCode nan) pg 1 := isV (by omega) (by omega) (by omega) (by omega) (by omega) (by omega) (by omega)
  exact ⟨hx.lt, key _ hx⟩

theorem vdec (bank : Bank) (t : ElemTy) (d a pg : Nat) : Statement (.vdec bank t d a pg) := by
  intro h w0 hw
  have qbank := Bank.code_lt bank
  have qt := ElemTy.code_lt t
  simp only [Instr.wf, groupOk, reg3, reg2, regOff, regImm, flt3, vec4, vec3, Bool.and_eq_true, Bool.or_eq_true, Bool.not_eq_true', decide_eq_true_eq] at h
  have key : ∀ x, IsV x 0x2D t.code d a bank.code pg 2 → decodeBody x = .ok (.vdec bank t d a pg) := by
    rintro x ⟨f, f24_6, f21_3, f16_5, f11_5, f6_5, f3_3, f0_3, f6_3, f9_2, f6_1, f7_1, f8_3, f7_4, f16_3, f19_2, f11_3, f14_2⟩
    rw [decodeBody, f24_6, major_2D]
    simp (disch := omega) [Dec.vectorC, groupOk, Dec.need, Dec.sel, Dec.cell, Dec.vty, Dec.vd, Dec.va, Dec.vb, Dec.pg, Dec.vfn, Bank.ofCode_code, ElemTy.ofCode_code, Nat.mod_eq_of_lt, Nat.div_eq_of_lt, h, f21_3, f16_5, f11_5, f6_5, f3_3, f0_3, f6_3, f9_2, f6_1, f7_1, f8_3, f7_4, f16_3, f19_2, f11_3, f14_2]
  cases (hw : some (Enc.v 0x2D t.code d a bank.code pg 2) = some w0)
  have hx : IsV (Enc.v 0x2D t.code d a bank.code pg 2) 0x2D t.code d a bank.code pg 2 := isV (by omega) (by omega) (by omega) (by omega) (by omega) (by omega) (by omega)
  exact ⟨hx.lt, key _ hx⟩

theorem vscale (t : ElemTy) (d a b pg : Nat) : Statement (.vscale t d a b pg) := by
  intro h w0 hw
  have qt := ElemTy.code_lt t
  simp only [Instr.wf, groupOk, reg3, reg2, regOff, regImm, flt3, vec4, vec3, Bool.and_eq_true, Bool.or_eq_true, Bool.not_eq_true', decide_eq_true_eq] at h
  have key : ∀ x, IsV x 0x2D t.code d a b pg 3 → decodeBody x = .ok (.vscale t d a b pg) := by
    rintro x ⟨f, f24_6, f21_3, f16_5, f11_5, f6_5, f3_3, f0_3, f6_3, f9_2, f6_1, f7_1, f8_3, f7_4, f16_3, f19_2, f11_3, f14_2⟩
    rw [decodeBody, f24_6, major_2D]
    simp (disch := omega) [Dec.vectorC, groupOk, Dec.need, Dec.sel, Dec.cell, Dec.vty, Dec.vd, Dec.va, Dec.vb, Dec.pg, Dec.vfn, ElemTy.ofCode_code, Nat.mod_eq_of_lt, Nat.div_eq_of_lt, h, f21_3, f16_5, f11_5, f6_5, f3_3, f0_3, f6_3, f9_2, f6_1, f7_1, f8_3, f7_4, f16_3, f19_2, f11_3, f14_2]
  cases (hw : some (Enc.v 0x2D t.code d a b pg 3) = some w0)
  have hx : IsV (Enc.v 0x2D t.code d a b pg 3) 0x2D t.code d a b pg 3 := isV (by omega) (by omega) (by omega) (by omega) (by omega) (by omega) (by omega)
  exact ⟨hx.lt, key _ hx⟩

theorem vreds (t : ElemTy) (d a pg : Nat) : Statement (.vreds t d a pg) := by
  intro h w0 hw
  have qt := ElemTy.code_lt t
  simp only [Instr.wf, groupOk, reg3, reg2, regOff, regImm, flt3, vec4, vec3, Bool.and_eq_true, Bool.or_eq_true, Bool.not_eq_true', decide_eq_true_eq] at h
  have key : ∀ x, IsV x 0x2D t.code d a 0 pg 4 → decodeBody x = .ok (.vreds t d a pg) := by
    rintro x ⟨f, f24_6, f21_3, f16_5, f11_5, f6_5, f3_3, f0_3, f6_3, f9_2, f6_1, f7_1, f8_3, f7_4, f16_3, f19_2, f11_3, f14_2⟩
    rw [decodeBody, f24_6, major_2D]
    simp (disch := omega) [Dec.vectorC, groupOk, Dec.need, Dec.sel, Dec.cell, Dec.vty, Dec.vd, Dec.va, Dec.vb, Dec.pg, Dec.vfn, ElemTy.ofCode_code, Nat.mod_eq_of_lt, Nat.div_eq_of_lt, h, f21_3, f16_5, f11_5, f6_5, f3_3, f0_3, f6_3, f9_2, f6_1, f7_1, f8_3, f7_4, f16_3, f19_2, f11_3, f14_2]
  cases (hw : some (Enc.v 0x2D t.code d a 0 pg 4) = some w0)
  have hx : IsV (Enc.v 0x2D t.code d a 0 pg 4) 0x2D t.code d a 0 pg 4 := isV (by omega) (by omega) (by omega) (by omega) (by omega) (by omega) (by omega)
  exact ⟨hx.lt, key _ hx⟩

theorem vredm (t : ElemTy) (d a pg : Nat) : Statement (.vredm t d a pg) := by
  intro h w0 hw
  have qt := ElemTy.code_lt t
  simp only [Instr.wf, groupOk, reg3, reg2, regOff, regImm, flt3, vec4, vec3, Bool.and_eq_true, Bool.or_eq_true, Bool.not_eq_true', decide_eq_true_eq] at h
  have key : ∀ x, IsV x 0x2D t.code d a 0 pg 5 → decodeBody x = .ok (.vredm t d a pg) := by
    rintro x ⟨f, f24_6, f21_3, f16_5, f11_5, f6_5, f3_3, f0_3, f6_3, f9_2, f6_1, f7_1, f8_3, f7_4, f16_3, f19_2, f11_3, f14_2⟩
    rw [decodeBody, f24_6, major_2D]
    simp (disch := omega) [Dec.vectorC, groupOk, Dec.need, Dec.sel, Dec.cell, Dec.vty, Dec.vd, Dec.va, Dec.vb, Dec.pg, Dec.vfn, ElemTy.ofCode_code, Nat.mod_eq_of_lt, Nat.div_eq_of_lt, h, f21_3, f16_5, f11_5, f6_5, f3_3, f0_3, f6_3, f9_2, f6_1, f7_1, f8_3, f7_4, f16_3, f19_2, f11_3, f14_2]
  cases (hw : some (Enc.v 0x2D t.code d a 0 pg 5) = some w0)
  have hx : IsV (Enc.v 0x2D t.code d a 0 pg 5) 0x2D t.code d a 0 pg 5 := isV (by omega) (by omega) (by omega) (by omega) (by omega) (by omega) (by omega)
  exact ⟨hx.lt, key _ hx⟩

theorem vexp2 (t : ElemTy) (d a pg : Nat) : Statement (.vexp2 t d a pg) := by
  intro h w0 hw
  have qt := ElemTy.code_lt t
  simp only [Instr.wf, groupOk, reg3, reg2, regOff, regImm, flt3, vec4, vec3, Bool.and_eq_true, Bool.or_eq_true, Bool.not_eq_true', decide_eq_true_eq] at h
  have key : ∀ x, IsV x 0x2D t.code d a 0 pg 6 → decodeBody x = .ok (.vexp2 t d a pg) := by
    rintro x ⟨f, f24_6, f21_3, f16_5, f11_5, f6_5, f3_3, f0_3, f6_3, f9_2, f6_1, f7_1, f8_3, f7_4, f16_3, f19_2, f11_3, f14_2⟩
    rw [decodeBody, f24_6, major_2D]
    simp (disch := omega) [Dec.vectorC, groupOk, Dec.need, Dec.sel, Dec.cell, Dec.vty, Dec.vd, Dec.va, Dec.vb, Dec.pg, Dec.vfn, ElemTy.ofCode_code, Nat.mod_eq_of_lt, Nat.div_eq_of_lt, h, f21_3, f16_5, f11_5, f6_5, f3_3, f0_3, f6_3, f9_2, f6_1, f7_1, f8_3, f7_4, f16_3, f19_2, f11_3, f14_2]
  cases (hw : some (Enc.v 0x2D t.code d a 0 pg 6) = some w0)
  have hx : IsV (Enc.v 0x2D t.code d a 0 pg 6) 0x2D t.code d a 0 pg 6 := isV (by omega) (by omega) (by omega) (by omega) (by omega) (by omega) (by omega)
  exact ⟨hx.lt, key _ hx⟩

theorem vrcp (t : ElemTy) (d a pg : Nat) : Statement (.vrcp t d a pg) := by
  intro h w0 hw
  have qt := ElemTy.code_lt t
  simp only [Instr.wf, groupOk, reg3, reg2, regOff, regImm, flt3, vec4, vec3, Bool.and_eq_true, Bool.or_eq_true, Bool.not_eq_true', decide_eq_true_eq] at h
  have key : ∀ x, IsV x 0x2D t.code d a 0 pg 7 → decodeBody x = .ok (.vrcp t d a pg) := by
    rintro x ⟨f, f24_6, f21_3, f16_5, f11_5, f6_5, f3_3, f0_3, f6_3, f9_2, f6_1, f7_1, f8_3, f7_4, f16_3, f19_2, f11_3, f14_2⟩
    rw [decodeBody, f24_6, major_2D]
    simp (disch := omega) [Dec.vectorC, groupOk, Dec.need, Dec.sel, Dec.cell, Dec.vty, Dec.vd, Dec.va, Dec.vb, Dec.pg, Dec.vfn, ElemTy.ofCode_code, Nat.mod_eq_of_lt, Nat.div_eq_of_lt, h, f21_3, f16_5, f11_5, f6_5, f3_3, f0_3, f6_3, f9_2, f6_1, f7_1, f8_3, f7_4, f16_3, f19_2, f11_3, f14_2]
  cases (hw : some (Enc.v 0x2D t.code d a 0 pg 7) = some w0)
  have hx : IsV (Enc.v 0x2D t.code d a 0 pg 7) 0x2D t.code d a 0 pg 7 := isV (by omega) (by omega) (by omega) (by omega) (by omega) (by omega) (by omega)
  exact ⟨hx.lt, key _ hx⟩

theorem vrsq (t : ElemTy) (d a pg : Nat) : Statement (.vrsq t d a pg) := by
  intro h w0 hw
  have qt := ElemTy.code_lt t
  simp only [Instr.wf, groupOk, reg3, reg2, regOff, regImm, flt3, vec4, vec3, Bool.and_eq_true, Bool.or_eq_true, Bool.not_eq_true', decide_eq_true_eq] at h
  have key : ∀ x, IsV x 0x2E t.code d a 0 pg 0 → decodeBody x = .ok (.vrsq t d a pg) := by
    rintro x ⟨f, f24_6, f21_3, f16_5, f11_5, f6_5, f3_3, f0_3, f6_3, f9_2, f6_1, f7_1, f8_3, f7_4, f16_3, f19_2, f11_3, f14_2⟩
    rw [decodeBody, f24_6, major_2E]
    simp (disch := omega) [Dec.vectorD, groupOk, Dec.need, Dec.sel, Dec.cell, Dec.vty, Dec.vd, Dec.va, Dec.vb, Dec.pg, Dec.vfn, ElemTy.ofCode_code, Nat.mod_eq_of_lt, Nat.div_eq_of_lt, h, f21_3, f16_5, f11_5, f6_5, f3_3, f0_3, f6_3, f9_2, f6_1, f7_1, f8_3, f7_4, f16_3, f19_2, f11_3, f14_2]
  cases (hw : some (Enc.v 0x2E t.code d a 0 pg 0) = some w0)
  have hx : IsV (Enc.v 0x2E t.code d a 0 pg 0) 0x2E t.code d a 0 pg 0 := isV (by omega) (by omega) (by omega) (by omega) (by omega) (by omega) (by omega)
  exact ⟨hx.lt, key _ hx⟩

theorem vperm (t : ElemTy) (d a b pg : Nat) : Statement (.vperm t d a b pg) := by
  intro h w0 hw
  have qt := ElemTy.code_lt t
  simp only [Instr.wf, groupOk, reg3, reg2, regOff, regImm, flt3, vec4, vec3, Bool.and_eq_true, Bool.or_eq_true, Bool.not_eq_true', decide_eq_true_eq] at h
  have key : ∀ x, IsV x 0x2E t.code d a b pg 1 → decodeBody x = .ok (.vperm t d a b pg) := by
    rintro x ⟨f, f24_6, f21_3, f16_5, f11_5, f6_5, f3_3, f0_3, f6_3, f9_2, f6_1, f7_1, f8_3, f7_4, f16_3, f19_2, f11_3, f14_2⟩
    rw [decodeBody, f24_6, major_2E]
    simp (disch := omega) [Dec.vectorD, groupOk, Dec.need, Dec.sel, Dec.cell, Dec.vty, Dec.vd, Dec.va, Dec.vb, Dec.pg, Dec.vfn, ElemTy.ofCode_code, Nat.mod_eq_of_lt, Nat.div_eq_of_lt, h, f21_3, f16_5, f11_5, f6_5, f3_3, f0_3, f6_3, f9_2, f6_1, f7_1, f8_3, f7_4, f16_3, f19_2, f11_3, f14_2]
  cases (hw : some (Enc.v 0x2E t.code d a b pg 1) = some w0)
  have hx : IsV (Enc.v 0x2E t.code d a b pg 1) 0x2E t.code d a b pg 1 := isV (by omega) (by omega) (by omega) (by omega) (by omega) (by omega) (by omega)
  exact ⟨hx.lt, key _ hx⟩

theorem vbcast (t : ElemTy) (d a pg : Nat) : Statement (.vbcast t d a pg) := by
  intro h w0 hw
  have qt := ElemTy.code_lt t
  simp only [Instr.wf, groupOk, reg3, reg2, regOff, regImm, flt3, vec4, vec3, Bool.and_eq_true, Bool.or_eq_true, Bool.not_eq_true', decide_eq_true_eq] at h
  have key : ∀ x, IsV x 0x2E t.code d a 0 pg 2 → decodeBody x = .ok (.vbcast t d a pg) := by
    rintro x ⟨f, f24_6, f21_3, f16_5, f11_5, f6_5, f3_3, f0_3, f6_3, f9_2, f6_1, f7_1, f8_3, f7_4, f16_3, f19_2, f11_3, f14_2⟩
    rw [decodeBody, f24_6, major_2E]
    simp (disch := omega) [Dec.vectorD, groupOk, Dec.need, Dec.sel, Dec.cell, Dec.vty, Dec.vd, Dec.va, Dec.vb, Dec.pg, Dec.vfn, ElemTy.ofCode_code, Nat.mod_eq_of_lt, Nat.div_eq_of_lt, h, f21_3, f16_5, f11_5, f6_5, f3_3, f0_3, f6_3, f9_2, f6_1, f7_1, f8_3, f7_4, f16_3, f19_2, f11_3, f14_2]
  cases (hw : some (Enc.v 0x2E t.code d a 0 pg 2) = some w0)
  have hx : IsV (Enc.v 0x2E t.code d a 0 pg 2) 0x2E t.code d a 0 pg 2 := isV (by omega) (by omega) (by omega) (by omega) (by omega) (by omega) (by omega)
  exact ⟨hx.lt, key _ hx⟩

theorem vins (t : ElemTy) (d a b : Nat) : Statement (.vins t d a b) := by
  intro h w0 hw
  have qt := ElemTy.code_lt t
  simp only [Instr.wf, groupOk, reg3, reg2, regOff, regImm, flt3, vec4, vec3, Bool.and_eq_true, Bool.or_eq_true, Bool.not_eq_true', decide_eq_true_eq] at h
  have key : ∀ x, IsV x 0x2E t.code d a b 0 3 → decodeBody x = .ok (.vins t d a b) := by
    rintro x ⟨f, f24_6, f21_3, f16_5, f11_5, f6_5, f3_3, f0_3, f6_3, f9_2, f6_1, f7_1, f8_3, f7_4, f16_3, f19_2, f11_3, f14_2⟩
    rw [decodeBody, f24_6, major_2E]
    simp (disch := omega) [Dec.vectorD, groupOk, Dec.need, Dec.sel, Dec.cell, Dec.vty, Dec.vd, Dec.va, Dec.vb, Dec.pg, Dec.vfn, ElemTy.ofCode_code, Nat.mod_eq_of_lt, Nat.div_eq_of_lt, h, f21_3, f16_5, f11_5, f6_5, f3_3, f0_3, f6_3, f9_2, f6_1, f7_1, f8_3, f7_4, f16_3, f19_2, f11_3, f14_2]
  cases (hw : some (Enc.v 0x2E t.code d a b 0 3) = some w0)
  have hx : IsV (Enc.v 0x2E t.code d a b 0 3) 0x2E t.code d a b 0 3 := isV (by omega) (by omega) (by omega) (by omega) (by omega) (by omega) (by omega)
  exact ⟨hx.lt, key _ hx⟩

theorem vext (t : ElemTy) (d a b : Nat) : Statement (.vext t d a b) := by
  intro h w0 hw
  have qt := ElemTy.code_lt t
  simp only [Instr.wf, groupOk, reg3, reg2, regOff, regImm, flt3, vec4, vec3, Bool.and_eq_true, Bool.or_eq_true, Bool.not_eq_true', decide_eq_true_eq] at h
  have key : ∀ x, IsV x 0x2E t.code d a b 0 4 → decodeBody x = .ok (.vext t d a b) := by
    rintro x ⟨f, f24_6, f21_3, f16_5, f11_5, f6_5, f3_3, f0_3, f6_3, f9_2, f6_1, f7_1, f8_3, f7_4, f16_3, f19_2, f11_3, f14_2⟩
    rw [decodeBody, f24_6, major_2E]
    simp (disch := omega) [Dec.vectorD, groupOk, Dec.need, Dec.sel, Dec.cell, Dec.vty, Dec.vd, Dec.va, Dec.vb, Dec.pg, Dec.vfn, ElemTy.ofCode_code, Nat.mod_eq_of_lt, Nat.div_eq_of_lt, h, f21_3, f16_5, f11_5, f6_5, f3_3, f0_3, f6_3, f9_2, f6_1, f7_1, f8_3, f7_4, f16_3, f19_2, f11_3, f14_2]
  cases (hw : some (Enc.v 0x2E t.code d a b 0 4) = some w0)
  have hx : IsV (Enc.v 0x2E t.code d a b 0 4) 0x2E t.code d a b 0 4 := isV (by omega) (by omega) (by omega) (by omega) (by omega) (by omega) (by omega)
  exact ⟨hx.lt, key _ hx⟩

theorem vmov (t : ElemTy) (d a pg : Nat) : Statement (.vmov t d a pg) := by
  intro h w0 hw
  have qt := ElemTy.code_lt t
  simp only [Instr.wf, groupOk, reg3, reg2, regOff, regImm, flt3, vec4, vec3, Bool.and_eq_true, Bool.or_eq_true, Bool.not_eq_true', decide_eq_true_eq] at h
  have key : ∀ x, IsV x 0x2E t.code d a 0 pg 5 → decodeBody x = .ok (.vmov t d a pg) := by
    rintro x ⟨f, f24_6, f21_3, f16_5, f11_5, f6_5, f3_3, f0_3, f6_3, f9_2, f6_1, f7_1, f8_3, f7_4, f16_3, f19_2, f11_3, f14_2⟩
    rw [decodeBody, f24_6, major_2E]
    simp (disch := omega) [Dec.vectorD, groupOk, Dec.need, Dec.sel, Dec.cell, Dec.vty, Dec.vd, Dec.va, Dec.vb, Dec.pg, Dec.vfn, ElemTy.ofCode_code, Nat.mod_eq_of_lt, Nat.div_eq_of_lt, h, f21_3, f16_5, f11_5, f6_5, f3_3, f0_3, f6_3, f9_2, f6_1, f7_1, f8_3, f7_4, f16_3, f19_2, f11_3, f14_2]
  cases (hw : some (Enc.v 0x2E t.code d a 0 pg 5) = some w0)
  have hx : IsV (Enc.v 0x2E t.code d a 0 pg 5) 0x2E t.code d a 0 pg 5 := isV (by omega) (by omega) (by omega) (by omega) (by omega) (by omega) (by omega)
  exact ⟨hx.lt, key _ hx⟩

theorem pset (t : ElemTy) (p a : Nat) : Statement (.pset t p a) := by
  intro h w0 hw
  have qt := ElemTy.code_lt t
  simp only [Instr.wf, groupOk, reg3, reg2, regOff, regImm, flt3, vec4, vec3, Bool.and_eq_true, Bool.or_eq_true, Bool.not_eq_true', decide_eq_true_eq] at h
  have key : ∀ x, IsV x 0x2E t.code p a 0 0 6 → decodeBody x = .ok (.pset t p a) := by
    rintro x ⟨f, f24_6, f21_3, f16_5, f11_5, f6_5, f3_3, f0_3, f6_3, f9_2, f6_1, f7_1, f8_3, f7_4, f16_3, f19_2, f11_3, f14_2⟩
    rw [decodeBody, f24_6, major_2E]
    simp (disch := omega) [Dec.vectorD, groupOk, Dec.need, Dec.sel, Dec.cell, Dec.vty, Dec.vd, Dec.va, Dec.vb, Dec.pg, Dec.vfn, ElemTy.ofCode_code, Nat.mod_eq_of_lt, Nat.div_eq_of_lt, h, f21_3, f16_5, f11_5, f6_5, f3_3, f0_3, f6_3, f9_2, f6_1, f7_1, f8_3, f7_4, f16_3, f19_2, f11_3, f14_2]
  cases (hw : some (Enc.v 0x2E t.code p a 0 0 6) = some w0)
  have hx : IsV (Enc.v 0x2E t.code p a 0 0 6) 0x2E t.code p a 0 0 6 := isV (by omega) (by omega) (by omega) (by omega) (by omega) (by omega) (by omega)
  exact ⟨hx.lt, key _ hx⟩

theorem plog (op : PlogOp) (d a b : Nat) : Statement (.plog op d a b) := by
  intro h w0 hw
  have qop := PlogOp.code_lt op
  simp only [Instr.wf, groupOk, reg3, reg2, regOff, regImm, flt3, vec4, vec3, Bool.and_eq_true, Bool.or_eq_true, Bool.not_eq_true', decide_eq_true_eq] at h
  have key : ∀ x, IsV x 0x2E op.code d a b 0 7 → decodeBody x = .ok (.plog op d a b) := by
    rintro x ⟨f, f24_6, f21_3, f16_5, f11_5, f6_5, f3_3, f0_3, f6_3, f9_2, f6_1, f7_1, f8_3, f7_4, f16_3, f19_2, f11_3, f14_2⟩
    rw [decodeBody, f24_6, major_2E]
    simp (disch := omega) [Dec.vectorD, Dec.plog, groupOk, Dec.need, Dec.sel, Dec.cell, Dec.vty, Dec.vd, Dec.va, Dec.vb, Dec.pg, Dec.vfn, PlogOp.ofCode_code, Nat.mod_eq_of_lt, Nat.div_eq_of_lt, h, f21_3, f16_5, f11_5, f6_5, f3_3, f0_3, f6_3, f9_2, f6_1, f7_1, f8_3, f7_4, f16_3, f19_2, f11_3, f14_2]
  cases (hw : some (Enc.v 0x2E op.code d a b 0 7) = some w0)
  have hx : IsV (Enc.v 0x2E op.code d a b 0 7) 0x2E op.code d a b 0 7 := isV (by omega) (by omega) (by omega) (by omega) (by omega) (by omega) (by omega)
  exact ⟨hx.lt, key _ hx⟩

theorem mmabb (shape acc : Nat) (z : Bool) (a b : Nat) : Statement (.mmabb shape acc z a b) := by
  intro h w0 hw
  have qz := boolCode_lt z
  simp only [Instr.wf, mmaOk, Bool.and_eq_true, decide_eq_true_eq] at h
  obtain ⟨⟨⟨hs, hc⟩, ha⟩, hb⟩ := h
  have ls := shapeOk_lt hs
  have la := groupOk_lt ha (by cases z <;> decide)
  have lb := groupOk_lt hb (by decide)
  have key : ∀ x, IsMm x z 0x30 shape acc a b 0 → decodeBody x = .ok (.mmabb shape acc z a b) := by
    rintro x ⟨f, f24_6, f19_5, f18_1, f17_1, f11_6, f5_6, f0_5⟩
    rw [decodeBody, f24_6]
    simp (disch := omega) [Dec.major, Dec.mmaPlain, Dec.mmaScaled, Dec.mmaGroups, Dec.need, Dec.sel, Dec.cell, Dec.mshape, Dec.macc, Dec.mz, Dec.ma, Dec.mb, Dec.mvs, boolCode_eq, boolCode_eq, Nat.mod_eq_of_lt, Nat.div_eq_of_lt, hs, ha, hb, f19_5, f18_1, f17_1, f11_6, f5_6, f0_5]
  cases (hw : some (Enc.mm 0x30 shape acc z a b 0) = some w0)
  have hx : IsMm (Enc.mm 0x30 shape acc z a b 0) z 0x30 shape acc a b 0 := isMm (by omega) (by omega) (by omega) (by omega) (by omega) (by omega)
  exact ⟨hx.lt, key _ hx⟩

theorem mmahh (shape acc : Nat) (z : Bool) (a b : Nat) : Statement (.mmahh shape acc z a b) := by
  intro h w0 hw
  have qz := boolCode_lt z
  simp only [Instr.wf, mmaOk, Bool.and_eq_true, decide_eq_true_eq] at h
  obtain ⟨⟨⟨hs, hc⟩, ha⟩, hb⟩ := h
  have ls := shapeOk_lt hs
  have la := groupOk_lt ha (by cases z <;> decide)
  have lb := groupOk_lt hb (by decide)
  have key : ∀ x, IsMm x z 0x31 shape acc a b 0 → decodeBody x = .ok (.mmahh shape acc z a b) := by
    rintro x ⟨f, f24_6, f19_5, f18_1, f17_1, f11_6, f5_6, f0_5⟩
    rw [decodeBody, f24_6]
    simp (disch := omega) [Dec.major, Dec.mmaPlain, Dec.mmaScaled, Dec.mmaGroups, Dec.need, Dec.sel, Dec.cell, Dec.mshape, Dec.macc, Dec.mz, Dec.ma, Dec.mb, Dec.mvs, boolCode_eq, boolCode_eq, Nat.mod_eq_of_lt, Nat.div_eq_of_lt, hs, ha, hb, f19_5, f18_1, f17_1, f11_6, f5_6, f0_5]
  cases (hw : some (Enc.mm 0x31 shape acc z a b 0) = some w0)
  have hx : IsMm (Enc.mm 0x31 shape acc z a b 0) z 0x31 shape acc a b 0 := isMm (by omega) (by omega) (by omega) (by omega) (by omega) (by omega)
  exact ⟨hx.lt, key _ hx⟩

theorem mmaee (shape acc : Nat) (z : Bool) (a b vs : Nat) : Statement (.mmaee shape acc z a b vs) := by
  intro h w0 hw
  have qz := boolCode_lt z
  simp only [Instr.wf, mmaOk, Bool.and_eq_true, decide_eq_true_eq] at h
  obtain ⟨⟨⟨⟨hs, hc⟩, ha⟩, hb⟩, hv⟩ := h
  have ls := shapeOk_lt hs
  have la := groupOk_lt ha (by cases z <;> decide)
  have lb := groupOk_lt hb (by decide)
  have lv := scalesOk_lt hv (by decide)
  have key : ∀ x, IsMm x z 0x32 shape acc a b vs → decodeBody x = .ok (.mmaee shape acc z a b vs) := by
    rintro x ⟨f, f24_6, f19_5, f18_1, f17_1, f11_6, f5_6, f0_5⟩
    rw [decodeBody, f24_6]
    simp (disch := omega) [Dec.major, Dec.mmaPlain, Dec.mmaScaled, Dec.mmaGroups, Dec.need, Dec.sel, Dec.cell, Dec.mshape, Dec.macc, Dec.mz, Dec.ma, Dec.mb, Dec.mvs, boolCode_eq, boolCode_eq, Nat.mod_eq_of_lt, Nat.div_eq_of_lt, hs, ha, hb, hv, f19_5, f18_1, f17_1, f11_6, f5_6, f0_5]
  cases (hw : some (Enc.mm 0x32 shape acc z a b vs) = some w0)
  have hx : IsMm (Enc.mm 0x32 shape acc z a b vs) z 0x32 shape acc a b vs := isMm (by omega) (by omega) (by omega) (by omega) (by omega) (by omega)
  exact ⟨hx.lt, key _ hx⟩

theorem mmaef (shape acc : Nat) (z : Bool) (a b vs : Nat) : Statement (.mmaef shape acc z a b vs) := by
  intro h w0 hw
  have qz := boolCode_lt z
  simp only [Instr.wf, mmaOk, Bool.and_eq_true, decide_eq_true_eq] at h
  obtain ⟨⟨⟨⟨hs, hc⟩, ha⟩, hb⟩, hv⟩ := h
  have ls := shapeOk_lt hs
  have la := groupOk_lt ha (by cases z <;> decide)
  have lb := groupOk_lt hb (by decide)
  have lv := scalesOk_lt hv (by decide)
  have key : ∀ x, IsMm x z 0x33 shape acc a b vs → decodeBody x = .ok (.mmaef shape acc z a b vs) := by
    rintro x ⟨f, f24_6, f19_5, f18_1, f17_1, f11_6, f5_6, f0_5⟩
    rw [decodeBody, f24_6]
    simp (disch := omega) [Dec.major, Dec.mmaPlain, Dec.mmaScaled, Dec.mmaGroups, Dec.need, Dec.sel, Dec.cell, Dec.mshape, Dec.macc, Dec.mz, Dec.ma, Dec.mb, Dec.mvs, boolCode_eq, boolCode_eq, Nat.mod_eq_of_lt, Nat.div_eq_of_lt, hs, ha, hb, hv, f19_5, f18_1, f17_1, f11_6, f5_6, f0_5]
  cases (hw : some (Enc.mm 0x33 shape acc z a b vs) = some w0)
  have hx : IsMm (Enc.mm 0x33 shape acc z a b vs) z 0x33 shape acc a b vs := isMm (by omega) (by omega) (by omega) (by omega) (by omega) (by omega)
  exact ⟨hx.lt, key _ hx⟩

theorem mmaff (shape acc : Nat) (z : Bool) (a b vs : Nat) : Statement (.mmaff shape acc z a b vs) := by
  intro h w0 hw
  have qz := boolCode_lt z
  simp only [Instr.wf, mmaOk, Bool.and_eq_true, decide_eq_true_eq] at h
  obtain ⟨⟨⟨⟨hs, hc⟩, ha⟩, hb⟩, hv⟩ := h
  have ls := shapeOk_lt hs
  have la := groupOk_lt ha (by cases z <;> decide)
  have lb := groupOk_lt hb (by decide)
  have lv := scalesOk_lt hv (by decide)
  have key : ∀ x, IsMm x z 0x34 shape acc a b vs → decodeBody x = .ok (.mmaff shape acc z a b vs) := by
    rintro x ⟨f, f24_6, f19_5, f18_1, f17_1, f11_6, f5_6, f0_5⟩
    rw [decodeBody, f24_6]
    simp (disch := omega) [Dec.major, Dec.mmaPlain, Dec.mmaScaled, Dec.mmaGroups, Dec.need, Dec.sel, Dec.cell, Dec.mshape, Dec.macc, Dec.mz, Dec.ma, Dec.mb, Dec.mvs, boolCode_eq, boolCode_eq, Nat.mod_eq_of_lt, Nat.div_eq_of_lt, hs, ha, hb, hv, f19_5, f18_1, f17_1, f11_6, f5_6, f0_5]
  cases (hw : some (Enc.mm 0x34 shape acc z a b vs) = some w0)
  have hx : IsMm (Enc.mm 0x34 shape acc z a b vs) z 0x34 shape acc a b vs := isMm (by omega) (by omega) (by omega) (by omega) (by omega) (by omega)
  exact ⟨hx.lt, key _ hx⟩

theorem mmaii (shape acc : Nat) (z : Bool) (a b : Nat) : Statement (.mmaii shape acc z a b) := by
  intro h w0 hw
  have qz := boolCode_lt z
  simp only [Instr.wf, mmaOk, Bool.and_eq_true, decide_eq_true_eq] at h
  obtain ⟨⟨⟨hs, hc⟩, ha⟩, hb⟩ := h
  have ls := shapeOk_lt hs
  have la := groupOk_lt ha (by cases z <;> decide)
  have lb := groupOk_lt hb (by decide)
  have key : ∀ x, IsMm x z 0x35 shape acc a b 0 → decodeBody x = .ok (.mmaii shape acc z a b) := by
    rintro x ⟨f, f24_6, f19_5, f18_1, f17_1, f11_6, f5_6, f0_5⟩
    rw [decodeBody, f24_6]
    simp (disch := omega) [Dec.major, Dec.mmaPlain, Dec.mmaScaled, Dec.mmaGroups, Dec.need, Dec.sel, Dec.cell, Dec.mshape, Dec.macc, Dec.mz, Dec.ma, Dec.mb, Dec.mvs, boolCode_eq, boolCode_eq, Nat.mod_eq_of_lt, Nat.div_eq_of_lt, hs, ha, hb, f19_5, f18_1, f17_1, f11_6, f5_6, f0_5]
  cases (hw : some (Enc.mm 0x35 shape acc z a b 0) = some w0)
  have hx : IsMm (Enc.mm 0x35 shape acc z a b 0) z 0x35 shape acc a b 0 := isMm (by omega) (by omega) (by omega) (by omega) (by omega) (by omega)
  exact ⟨hx.lt, key _ hx⟩

theorem macq (n : Nat) : Statement (.macq n) := by
  intro h w0 hw
  simp only [Instr.wf, groupOk, reg3, reg2, regOff, regImm, flt3, vec4, vec3, Bool.and_eq_true, Bool.or_eq_true, Bool.not_eq_true', decide_eq_true_eq] at h
  have key : ∀ x, IsR x 0x36 0 0 (n - 1) 0 → decodeBody x = .ok (.macq n) := by
    rintro x ⟨f, f24_6, f18_6, f12_6, f6_6, f0_6, f6_4, f10_2, f6_3, f9_3, f22_2, f18_4, f19_5, f18_1, f6_18, f6_12⟩
    rw [decodeBody, f24_6, major_36]
    simp (disch := omega) [Dec.matrixControl, groupOk, Dec.need, Dec.sel, Dec.cell, Dec.d, Dec.a, Dec.rb, Dec.fn, Dec.imm, Nat.mod_eq_of_lt, Nat.div_eq_of_lt, h, f18_6, f12_6, f6_6, f0_6, f6_4, f10_2, f6_3, f9_3, f22_2, f18_4, f19_5, f18_1, f6_18, f6_12]
  cases (hw : some (Enc.r 0x36 0 0 (n - 1) 0) = some w0)
  have hx : IsR (Enc.r 0x36 0 0 (n - 1) 0) 0x36 0 0 (n - 1) 0 := isR (by omega) (by omega) (by omega) (by omega) (by omega)
  exact ⟨hx.lt, key _ hx⟩

theorem mrel : Statement (.mrel) := by
  intro h w0 hw
  have key : ∀ x, IsR x 0x36 0 0 0 1 → decodeBody x = .ok (.mrel) := by
    rintro x ⟨f, f24_6, f18_6, f12_6, f6_6, f0_6, f6_4, f10_2, f6_3, f9_3, f22_2, f18_4, f19_5, f18_1, f6_18, f6_12⟩
    rw [decodeBody, f24_6, major_36]
    simp (disch := omega) [Dec.matrixControl, Dec.need, Dec.sel, Dec.cell, Dec.d, Dec.a, Dec.rb, Dec.fn, Dec.imm, Nat.mod_eq_of_lt, Nat.div_eq_of_lt, f18_6, f12_6, f6_6, f0_6, f6_4, f10_2, f6_3, f9_3, f22_2, f18_4, f19_5, f18_1, f6_18, f6_12]
  cases (hw : some (Enc.r 0x36 0 0 0 1) = some w0)
  have hx : IsR (Enc.r 0x36 0 0 0 1) 0x36 0 0 0 1 := isR (by omega) (by omega) (by omega) (by omega) (by omega)
  exact ⟨hx.lt, key _ hx⟩

theorem mzero (acc : Nat) : Statement (.mzero acc) := by
  intro h w0 hw
  simp only [Instr.wf, groupOk, reg3, reg2, regOff, regImm, flt3, vec4, vec3, Bool.and_eq_true, Bool.or_eq_true, Bool.not_eq_true', decide_eq_true_eq] at h
  have key : ∀ x, IsR x 0x36 acc 0 0 2 → decodeBody x = .ok (.mzero acc) := by
    rintro x ⟨f, f24_6, f18_6, f12_6, f6_6, f0_6, f6_4, f10_2, f6_3, f9_3, f22_2, f18_4, f19_5, f18_1, f6_18, f6_12⟩
    rw [decodeBody, f24_6, major_36]
    simp (disch := omega) [Dec.matrixControl, groupOk, Dec.need, Dec.sel, Dec.cell, Dec.d, Dec.a, Dec.rb, Dec.fn, Dec.imm, Nat.mod_eq_of_lt, Nat.div_eq_of_lt, h, f18_6, f12_6, f6_6, f0_6, f6_4, f10_2, f6_3, f9_3, f22_2, f18_4, f19_5, f18_1, f6_18, f6_12]
  cases (hw : some (Enc.r 0x36 acc 0 0 2) = some w0)
  have hx : IsR (Enc.r 0x36 acc 0 0 2) 0x36 acc 0 0 2 := isR (by omega) (by omega) (by omega) (by omega) (by omega)
  exact ⟨hx.lt, key _ hx⟩

theorem mlda (acc a : Nat) : Statement (.mlda acc a) := by
  intro h w0 hw
  simp only [Instr.wf, groupOk, reg3, reg2, regOff, regImm, flt3, vec4, vec3, Bool.and_eq_true, Bool.or_eq_true, Bool.not_eq_true', decide_eq_true_eq] at h
  have key : ∀ x, IsR x 0x36 acc a 0 3 → decodeBody x = .ok (.mlda acc a) := by
    rintro x ⟨f, f24_6, f18_6, f12_6, f6_6, f0_6, f6_4, f10_2, f6_3, f9_3, f22_2, f18_4, f19_5, f18_1, f6_18, f6_12⟩
    rw [decodeBody, f24_6, major_36]
    simp (disch := omega) [Dec.matrixControl, groupOk, Dec.need, Dec.sel, Dec.cell, Dec.d, Dec.a, Dec.rb, Dec.fn, Dec.imm, Nat.mod_eq_of_lt, Nat.div_eq_of_lt, h, f18_6, f12_6, f6_6, f0_6, f6_4, f10_2, f6_3, f9_3, f22_2, f18_4, f19_5, f18_1, f6_18, f6_12]
  cases (hw : some (Enc.r 0x36 acc a 0 3) = some w0)
  have hx : IsR (Enc.r 0x36 acc a 0 3) 0x36 acc a 0 3 := isR (by omega) (by omega) (by omega) (by omega) (by omega)
  exact ⟨hx.lt, key _ hx⟩

theorem msta (acc a : Nat) : Statement (.msta acc a) := by
  intro h w0 hw
  simp only [Instr.wf, groupOk, reg3, reg2, regOff, regImm, flt3, vec4, vec3, Bool.and_eq_true, Bool.or_eq_true, Bool.not_eq_true', decide_eq_true_eq] at h
  have key : ∀ x, IsR x 0x36 acc a 0 4 → decodeBody x = .ok (.msta acc a) := by
    rintro x ⟨f, f24_6, f18_6, f12_6, f6_6, f0_6, f6_4, f10_2, f6_3, f9_3, f22_2, f18_4, f19_5, f18_1, f6_18, f6_12⟩
    rw [decodeBody, f24_6, major_36]
    simp (disch := omega) [Dec.matrixControl, groupOk, Dec.need, Dec.sel, Dec.cell, Dec.d, Dec.a, Dec.rb, Dec.fn, Dec.imm, Nat.mod_eq_of_lt, Nat.div_eq_of_lt, h, f18_6, f12_6, f6_6, f0_6, f6_4, f10_2, f6_3, f9_3, f22_2, f18_4, f19_5, f18_1, f6_18, f6_12]
  cases (hw : some (Enc.r 0x36 acc a 0 4) = some w0)
  have hx : IsR (Enc.r 0x36 acc a 0 4) 0x36 acc a 0 4 := isR (by omega) (by omega) (by omega) (by omega) (by omega)
  exact ⟨hx.lt, key _ hx⟩

theorem msync : Statement (.msync) := by
  intro h w0 hw
  have key : ∀ x, IsR x 0x36 0 0 0 5 → decodeBody x = .ok (.msync) := by
    rintro x ⟨f, f24_6, f18_6, f12_6, f6_6, f0_6, f6_4, f10_2, f6_3, f9_3, f22_2, f18_4, f19_5, f18_1, f6_18, f6_12⟩
    rw [decodeBody, f24_6, major_36]
    simp (disch := omega) [Dec.matrixControl, Dec.need, Dec.sel, Dec.cell, Dec.d, Dec.a, Dec.rb, Dec.fn, Dec.imm, Nat.mod_eq_of_lt, Nat.div_eq_of_lt, f18_6, f12_6, f6_6, f0_6, f6_4, f10_2, f6_3, f9_3, f22_2, f18_4, f19_5, f18_1, f6_18, f6_12]
  cases (hw : some (Enc.r 0x36 0 0 0 5) = some w0)
  have hx : IsR (Enc.r 0x36 0 0 0 5) 0x36 0 0 0 5 := isR (by omega) (by omega) (by omega) (by omega) (by omega)
  exact ⟨hx.lt, key _ hx⟩

theorem mskld (d a b : Nat) : Statement (.mskld d a b) := by
  intro h w0 hw
  simp only [Instr.wf, groupOk, reg3, reg2, regOff, regImm, flt3, vec4, vec3, Bool.and_eq_true, Bool.or_eq_true, Bool.not_eq_true', decide_eq_true_eq] at h
  have key : ∀ x, IsR x 0x36 d a b 6 → decodeBody x = .ok (.mskld d a b) := by
    rintro x ⟨f, f24_6, f18_6, f12_6, f6_6, f0_6, f6_4, f10_2, f6_3, f9_3, f22_2, f18_4, f19_5, f18_1, f6_18, f6_12⟩
    rw [decodeBody, f24_6, major_36]
    simp (disch := omega) [Dec.matrixControl, groupOk, Dec.need, Dec.sel, Dec.cell, Dec.d, Dec.a, Dec.rb, Dec.fn, Dec.imm, Nat.mod_eq_of_lt, Nat.div_eq_of_lt, h, f18_6, f12_6, f6_6, f0_6, f6_4, f10_2, f6_3, f9_3, f22_2, f18_4, f19_5, f18_1, f6_18, f6_12]
  cases (hw : some (Enc.r 0x36 d a b 6) = some w0)
  have hx : IsR (Enc.r 0x36 d a b 6) 0x36 d a b 6 := isR (by omega) (by omega) (by omega) (by omega) (by omega)
  exact ⟨hx.lt, key _ hx⟩

theorem hpref (d a b : Nat) : Statement (.hpref d a b) := by
  intro h w0 hw
  simp only [Instr.wf, groupOk, reg3, reg2, regOff, regImm, flt3, vec4, vec3, Bool.and_eq_true, Bool.or_eq_true, Bool.not_eq_true', decide_eq_true_eq] at h
  have key : ∀ x, IsR x 0x3F d a b 0 → decodeBody x = .ok (.hpref d a b) := by
    rintro x ⟨f, f24_6, f18_6, f12_6, f6_6, f0_6, f6_4, f10_2, f6_3, f9_3, f22_2, f18_4, f19_5, f18_1, f6_18, f6_12⟩
    rw [decodeBody, f24_6]
    simp (disch := omega) [Dec.major, groupOk, Dec.need, Dec.sel, Dec.cell, Dec.d, Dec.a, Dec.rb, Dec.fn, Dec.imm, Nat.mod_eq_of_lt, Nat.div_eq_of_lt, h, f18_6, f12_6, f6_6, f0_6, f6_4, f10_2, f6_3, f9_3, f22_2, f18_4, f19_5, f18_1, f6_18, f6_12]
  cases (hw : some (Enc.r 0x3F d a b 0) = some w0)
  have hx : IsR (Enc.r 0x3F d a b 0) 0x3F d a b 0 := isR (by omega) (by omega) (by omega) (by omega) (by omega)
  exact ⟨hx.lt, key _ hx⟩

theorem longLatencyResultReturn (cl core idx : Nat) : Statement (.longLatencyResultReturn cl core idx) := by
  intro _ _ hw
  cases hw

theorem dispatch (cl core : Nat) : Statement (.dispatch cl core) := by
  intro _ _ hw
  cases hw

theorem recordAging (cl : Nat) (rec : Word) : Statement (.recordAging cl rec) := by
  intro _ _ hw
  cases hw

theorem gangReserve (cl core : Nat) : Statement (.gangReserve cl core) := by
  intro _ _ hw
  cases hw

theorem gangwaitExpiry (cl : Nat) (rec : Word) : Statement (.gangwaitExpiry cl rec) := by
  intro _ _ hw
  cases hw

theorem recordWake (cl : Nat) (rec : Word) : Statement (.recordWake cl rec) := by
  intro _ _ hw
  cases hw

theorem coreParkWake (cl core : Nat) : Statement (.coreParkWake cl core) := by
  intro _ _ hw
  cases hw

theorem fencescTickEnd (cl core : Nat) : Statement (.fencescTickEnd cl core) := by
  intro _ _ hw
  cases hw

theorem strokeTick : Statement (.strokeTick) := by
  intro _ _ hw
  cases hw

theorem upcallDelivery (cl core : Nat) : Statement (.upcallDelivery cl core) := by
  intro _ _ hw
  cases hw

theorem contraRetire (cl core : Nat) : Statement (.contraRetire cl core) := by
  intro _ _ hw
  cases hw

theorem wresetRetire (cl core : Nat) : Statement (.wresetRetire cl core) := by
  intro _ _ hw
  cases hw

theorem leaseGrant (cl crew : Nat) : Statement (.leaseGrant cl crew) := by
  intro _ _ hw
  cases hw

theorem matrixCommandComplete (cl crew : Nat) : Statement (.matrixCommandComplete cl crew) := by
  intro _ _ hw
  cases hw

theorem matrixHalt (cl crew : Nat) : Statement (.matrixHalt cl crew) := by
  intro _ _ hw
  cases hw

theorem jobStart (cl crew : Nat) : Statement (.jobStart cl crew) := by
  intro _ _ hw
  cases hw

theorem jobComplete (cl crew : Nat) (id : Word) : Statement (.jobComplete cl crew id) := by
  intro _ _ hw
  cases hw

theorem jobFault (cl crew : Nat) (id : Word) : Statement (.jobFault cl crew id) := by
  intro _ _ hw
  cases hw

theorem transformTimeout (cl crew : Nat) (id : Word) : Statement (.transformTimeout cl crew id) := by
  intro _ _ hw
  cases hw

theorem faultRecordPoll (slot : Nat) : Statement (.faultRecordPoll slot) := by
  intro _ _ hw
  cases hw

theorem streamStripFetch (cl core v : Nat) : Statement (.streamStripFetch cl core v) := by
  intro _ _ hw
  cases hw

theorem remoteLand (cl op item : Nat) (bytes : List Byte) (lbl : LabelWord) : Statement (.remoteLand cl op item bytes lbl) := by
  intro _ _ hw
  cases hw

theorem remoteFailure (cl op : Nat) (byTarget : Bool) : Statement (.remoteFailure cl op byTarget) := by
  intro _ _ hw
  cases hw

theorem rowOpExecute (cl op : Nat) : Statement (.rowOpExecute cl op) := by
  intro _ _ hw
  cases hw

theorem rpromoComplete (cl op : Nat) : Statement (.rpromoComplete cl op) := by
  intro _ _ hw
  cases hw

theorem rdemoComplete (cl op : Nat) : Statement (.rdemoComplete cl op) := by
  intro _ _ hw
  cases hw

theorem iredExecute (cl op : Nat) : Statement (.iredExecute cl op) := by
  intro _ _ hw
  cases hw

theorem edgeRunStart (cl : Nat) : Statement (.edgeRunStart cl) := by
  intro _ _ hw
  cases hw

theorem superstep (cl : Nat) : Statement (.superstep cl) := by
  intro _ _ hw
  cases hw

theorem edgeInvocation (cl core : Nat) : Statement (.edgeInvocation cl core) := by
  intro _ _ hw
  cases hw

theorem edgeRunFault (cl : Nat) : Statement (.edgeRunFault cl) := by
  intro _ _ hw
  cases hw

theorem pageWalkComplete (cl : Nat) (va : Word) : Statement (.pageWalkComplete cl va) := by
  intro _ _ hw
  cases hw

theorem shootdownService : Statement (.shootdownService) := by
  intro _ _ hw
  cases hw

theorem unloadFree (base : Word) : Statement (.unloadFree base) := by
  intro _ _ hw
  cases hw

theorem gangStop : Statement (.gangStop) := by
  intro _ _ hw
  cases hw

theorem contextRestore (ctxid : Nat) (part : List Nat) (tables : Tables) : Statement (.contextRestore ctxid part tables) := by
  intro _ _ hw
  cases hw

theorem contextCreate (desc : CtxDesc) : Statement (.contextCreate desc) := by
  intro _ _ hw
  cases hw

theorem contextDestroy (ctxid : Nat) : Statement (.contextDestroy ctxid) := by
  intro _ _ hw
  cases hw

theorem deviceFault : Statement (.deviceFault) := by
  intro _ _ hw
  cases hw

theorem queueCreate (desc : BitVec 512) : Statement (.queueCreate desc) := by
  intro _ _ hw
  cases hw

theorem doorbell (msg : BitVec 128) : Statement (.doorbell msg) := by
  intro _ _ hw
  cases hw

theorem rmaWrite (va : Word) (bytes : List Byte) (target : RmaTarget) : Statement (.rmaWrite va bytes target) := by
  intro _ _ hw
  cases hw

theorem rmaRead (va : Word) (len : Nat) (target : RmaTarget) : Statement (.rmaRead va len target) := by
  intro _ _ hw
  cases hw

theorem packetDependencyMet (qid n : Nat) : Statement (.packetDependencyMet qid n) := by
  intro _ _ hw
  cases hw

theorem launch (qid n : Nat) : Statement (.launch qid n) := by
  intro _ _ hw
  cases hw

theorem copyin (qid n : Nat) : Statement (.copyin qid n) := by
  intro _ _ hw
  cases hw

theorem copyout (qid n : Nat) : Statement (.copyout qid n) := by
  intro _ _ hw
  cases hw

theorem signal (qid n : Nat) : Statement (.signal qid n) := by
  intro _ _ hw
  cases hw

theorem wait (qid n : Nat) : Statement (.wait qid n) := by
  intro _ _ hw
  cases hw

theorem barrier (qid n : Nat) : Statement (.barrier qid n) := by
  intro _ _ hw
  cases hw

theorem load (qid n : Nat) : Statement (.load qid n) := by
  intro _ _ hw
  cases hw

theorem unload (qid n : Nat) : Statement (.unload qid n) := by
  intro _ _ hw
  cases hw

theorem qreset (qid n : Nat) : Statement (.qreset qid n) := by
  intro _ _ hw
  cases hw

theorem ptpSync (offset : Int) (time gm : Nat) : Statement (.ptpSync offset time gm) := by
  intro _ _ hw
  cases hw

theorem ptpSyncLoss : Statement (.ptpSyncLoss) := by
  intro _ _ hw
  cases hw

theorem poolReadMiss (line dev inc : Nat) : Statement (.poolReadMiss line dev inc) := by
  intro _ _ hw
  cases hw

theorem poolLeaseExpiry (line : Nat) : Statement (.poolLeaseExpiry line) := by
  intro _ _ hw
  cases hw

theorem poolWriteApply (line : Nat) : Statement (.poolWriteApply line) := by
  intro _ _ hw
  cases hw

theorem backInvalidate (line : Nat) : Statement (.backInvalidate line) := by
  intro _ _ hw
  cases hw

theorem fabricBind (dev inc : Nat) : Statement (.fabricBind dev inc) := by
  intro _ _ hw
  cases hw

theorem powerOnReset (selfTest : SelfTest) (image : Option (List Byte)) : Statement (.powerOnReset selfTest image) := by
  intro _ _ hw
  cases hw

theorem firmwareFetchRetry (image : Option (List Byte)) : Statement (.firmwareFetchRetry image) := by
  intro _ _ hw
  cases hw

theorem firmwareFetch (image : Option (List Byte)) : Statement (.firmwareFetch image) := by
  intro _ _ hw
  cases hw

theorem statusRequest : Statement (.statusRequest) := by
  intro _ _ hw
  cases hw

theorem routineLoad (ctxid id : Nat) (image : List Byte) : Statement (.routineLoad ctxid id image) := by
  intro _ _ hw
  cases hw

theorem attestationRequest (nonce : BitVec 384) : Statement (.attestationRequest nonce) := by
  intro _ _ hw
  cases hw

theorem svnRaise (svn : Nat) : Statement (.svnRaise svn) := by
  intro _ _ hw
  cases hw

theorem healthRequest : Statement (.healthRequest) := by
  intro _ _ hw
  cases hw

theorem telemetryRequest : Statement (.telemetryRequest) := by
  intro _ _ hw
  cases hw

theorem powerCapSet (units : Nat) : Statement (.powerCapSet units) := by
  intro _ _ hw
  cases hw

theorem currentLimit : Statement (.currentLimit) := by
  intro _ _ hw
  cases hw

theorem thermalThrottle (die : Nat) : Statement (.thermalThrottle die) := by
  intro _ _ hw
  cases hw

theorem thermalTrip (die : Nat) : Statement (.thermalTrip die) := by
  intro _ _ hw
  cases hw

theorem unitLoss (kind : UnitKind) (num : Nat) : Statement (.unitLoss kind num) := by
  intro _ _ hw
  cases hw

theorem currentFallsBelowLimit : Statement (.currentFallsBelowLimit) := by
  intro _ _ hw
  cases hw

theorem throttleLevelChange (level : Nat) : Statement (.throttleLevelChange level) := by
  intro _ _ hw
  cases hw

theorem copyPacketComplete (qid n code : Nat) (bytes : List Byte) : Statement (.copyPacketComplete qid n code bytes) := by
  intro _ _ hw
  cases hw

end RoundTrip

end Sys2Proof.Laws
end

