-- ==== Sys2Proof/Tests/Slice0.lean ====
section
/-! SUPPORT. Tests: ill-formed terms that well-formedness refuses; words written out from the encodings; the
worked examples of spec/ and values worked out by hand from its rules, one step at a time; and for every
obligation a state and operands that meet its hypotheses. -/

namespace Sys2Proof.Tests
open Machine
set_option maxRecDepth 100000
set_option exponentiation.threshold 1100
set_option Elab.async false

/-! ### Small states -/

/-- The value of a result, `d` where it has none. -/
def okOr {ε α : Type} (d : α) : Except ε α → α
  | .ok v => v
  | .error _ => d

def isOk {ε α : Type} : Except ε α → Bool
  | .ok _ => true
  | .error _ => false

theorem eq_ok {ε α : Type} (d : α) {r : Except ε α} (h : isOk r = true) : r = .ok (okOr d r) := by
  cases r with
  | ok _ => rfl
  | error _ => cases h

/-- A value that a result has. -/
theorem ok_of {ε α β : Type} {r : Except ε (α × β)} (h : isOk r = true) : ∃ w u, r = .ok (w, u) := by
  cases r with
  | ok p => exact ⟨p.1, p.2, rfl⟩
  | error _ => cases h

/-- A context with one cluster, whose core 0 runs a record in U mode. -/
def placed : State := State.reset.withFetchWord 32 0xA3000000

/-- The same in S mode. -/
def super : State := placed.mapCore fun c => { c with status := { c.status with mode := .s } }

/-- A state with a value in an x register. -/
def setX (s : State) (r : Nat) (v : Word) : State := s.mapRegs fun g => { g with x := filePut (by decide) g.x r v }

/-- The first byte of core 0's local store. -/
def store0 : Word := 0x4000_0000_0000

/-! ### Well-formedness: a term that each check refuses -/

theorem test_wf_branches : ∀ i ∈ ([.j (2 ^ 24), .jl (2 ^ 24), .beq 64 0 0, .bne 0 64 0, .blt 0 0 4096, .bge 64 0 0,
    .bltu 0 64 0, .bgeu 0 0 4096, .jlr 0 1 0, .jlr 1 64 0, .jr 64 0, .jr 0 4096, .loop 64 0, .loopi 4096 0,
    .loopi 0 4096] : List Instr), i.wf = false := by decide

theorem test_wf_memory : ∀ i ∈ ([.lb 64 0 0, .lbu 0 64 0, .lh 0 0 512, .lhu 64 0 0, .lw 0 64 0, .lwu 0 0 512,
    .ld 64 0 0, .flw 32 0 0, .fsw 32 0 0, .fsw 0 0 512, .sb 64 0 0, .sh 0 64 0, .sw 0 0 512, .sd 64 0 0,
    .vld 32 0 0, .vst 0 0 8192, .vlds 0 64 0 0, .vsts 0 0 0 8, .vldx 0 0 32 0, .vstx 0 0 0 8] : List Instr),
    i.wf = false := by decide

theorem test_wf_atomics : ∀ i ∈ ([.amo .add .w .rlx .core 64 0, .cas .d .rlx .core 63 0, .cas .w .rlx .core 0 64,
    .famo .fadd .rlx .core 32 0, .csum .rlx .core 0 64, .cwb 64, .cinv 64, .cflush 64, .wbrow 64, .invrow 64,
    .fence 0 .core, .fence 16 .core] : List Instr), i.wf = false := by decide

theorem test_wf_sync : ∀ i ∈ ([.arrive 16 0, .waitc 0 16, .catchq 64 0, .waitk 16 0, .kadd 0 64, .waitt 64 0,
    .krd 0 16 0, .spawn 0 64, .finish 64, .suspt 64, .suspk 16 0 0] : List Instr), i.wf = false := by decide

theorem test_wf_labels : ∀ i ∈ ([.assume 64 0 0, .lblset 0 64 0, .ljoin 0 0 64, .lenv 64 0 0, .assumev 32 0 0,
    .lblof 64 0, .ltest 0 64, .lld 64 0, .lst 0 64, .contra 64, .contrav 32] : List Instr), i.wf = false := by decide

theorem test_wf_engines : ∀ i ∈ ([.jsub 0 0, .jsub 63 0, .jpoll 64 0, .jcancel 0 64, .get 0 61, .getx 16 0,
    .send 0 63, .sendx 16 0, .smode 27 0, .smode 28 61, .soff 27, .soff 32, .rcopy 0 62, .rfill 16 0,
    .rbool .and2 0 60, .rpromo true 0 63, .rdemo 16 0, .ired true 16 0, .edgerun 0 64] : List Instr),
    i.wf = false := by decide

theorem test_wf_system : ∀ i ∈ ([.crr 0 1024, .crw 1024 0, .crs 64 0 0, .crc 0 1024 0, .svc 4096, .feat 0 16,
    .invpg 64, .dtld .a 64, .edgeret 64, .upi 0 (2 ^ 20), .aupc 64 0] : List Instr), i.wf = false := by decide

theorem test_wf_integer : ∀ i ∈ ([.add 64 0 0, .sub 0 64 0, .and 0 0 64, .or 64 0 0, .xor 0 64 0, .shl 0 0 64,
    .shr 64 0 0, .sra 0 64 0, .slt 0 0 64, .sltu 64 0 0, .min 0 64 0, .max 0 0 64, .minu 64 0 0, .maxu 0 64 0,
    .mul 0 0 64, .mulh 64 0 0, .mulhu 0 64 0, .div 0 0 64, .divu 64 0 0, .rem 0 64 0, .remu 0 0 64, .clz 64 0,
    .popc 0 64, .addi 0 0 4096, .andi 64 0 0, .ori 0 64 0, .xori 0 0 4096, .slti 64 0 0, .sltiu 0 0 4096,
    .shli 0 0 64, .shri 0 0 64, .srai 0 0 64] : List Instr), i.wf = false := by decide

theorem test_wf_float : ∀ i ∈ ([.fadd .rne 32 0 0, .fsub .rne 0 32 0, .fmul .rne 0 0 32, .fdiv .rne 32 0 0,
    .ffma .rne 0 32 0, .fmin 0 0 32, .fmax 32 0 0, .fcmp .eq 64 0 0, .fsqrt .rne 0 32, .fcvtfi .rne .i32 0 32,
    .fcvtif .rne .i32 0 64, .fmvxf 64 0, .fmvfx 0 64, .fclass 0 32] : List Instr), i.wf = false := by decide

theorem test_wf_vector : ∀ i ∈ ([.vadd .f32 32 0 0 0, .vfma .f32 0 0 0 8, .vand .f32 0 0 0 0, .vshl .bf16 0 0 0 0,
    .vabs .f32 0 32 0, .vcmp .eq .f32 8 0 0 0, .vcvt .f32 .f32 0 0 0, .venc .a false .i8 0 0 0, .vdec .a .i16 0 0 0,
    .vscale .i32 0 0 0 0, .vexp2 .i32 0 0 0, .vrcp .i8 0 0 0, .vrsq .i16 0 0 0, .vbcast .f32 0 0 8, .vins .i8 0 0 32,
    .vext .i8 32 0 0, .pset .i8 8 0, .plog .not1 0 0 1, .plog .and2 0 0 8] : List Instr), i.wf = false := by decide

theorem test_wf_matrix : ∀ i ∈ ([.mmabb 5 0 false 0 0, .mmabb 32 0 false 0 0, .mmabb 3 0 true 0 0,
    .mmahh 0 2 false 0 0, .mmaii 2 0 true 0 0, .mmaee 0 0 false 63 0 0, .mmaef 0 0 true 62 0 0,
    .mmaff 4 0 false 0 0 0, .mmaff 0 0 false 0 63 0, .mmaee 0 0 false 0 0 31, .macq 0, .macq 65, .mzero 2,
    .mlda 0 63, .msta 2 0, .mskld 64 0 0, .hpref 0 0 64] : List Instr), i.wf = false := by decide

theorem test_wf_events : ∀ i ∈ ([.recordAging 32 0, .superstep 32, .dispatch 0 192, .edgeInvocation 32 0,
    .leaseGrant 0 24, .streamStripFetch 0 0 27, .faultRecordPoll 64, .contextRestore 0 [] ⟨[], []⟩, .contextRestore 1 [0] ⟨[((0, 0), 192)], []⟩, .contextDestroy 65536,
    .routineLoad 1 65536 [], .launch 0 0, .copyin 65536 0, .thermalThrottle 8, .throttleLevelChange 8,
    .powerCapSet 29, .powerCapSet 91, .fabricBind 0 65536] : List Instr), i.wf = false := by decide

/-! ### Words written out from the encodings of R54 to R68 -/

theorem test_decode_control : ∀ e ∈ (
    [(0x008ABCDE, .j 9092318), (0x018ABCDE, .jl 9092318), (0x0256B9A5, .beq 21 43 2469),
     (0x0356B9A5, .bne 21 43 2469), (0x0456B9A5, .blt 21 43 2469), (0x0556B9A5, .bge 21 43 2469),
     (0x0656B9A5, .bltu 21 43 2469), (0x0756B9A5, .bgeu 21 43 2469), (0x089959A5, .jlr 38 21 2469),
     (0x080159A5, .jr 21 2469), (0x090159A5, .loop 21 2469), (0x0A8C79A5, .loopi 2247 2469)] : List (Half × Instr)),
    decodeWord e.1 = .ok e.2 := by decide

theorem test_decode_memory : ∀ e ∈ (
    [(0x0B99515B, .lb 38 21 347), (0x0B99535B, .lbu 38 21 347), (0x0B99555B, .lh 38 21 347),
     (0x0B99575B, .lhu 38 21 347), (0x0B99595B, .lw 38 21 347), (0x0B995B5B, .lwu 38 21 347),
     (0x0B995D5B, .ld 38 21 347), (0x0B4D5F5B, .flw 19 21 347), (0x0C99515B, .sb 38 21 347),
     (0x0C99535B, .sh 38 21 347), (0x0C99555B, .sw 38 21 347), (0x0C99575B, .sd 38 21 347),
     (0x0C4D595B, .fsw 19 21 347), (0x0DB2BA5B, .vld 22 21 6747), (0x0EB2BA5B, .vst 22 21 6747),
     (0x0F4D5AC6, .vlds 19 21 43 6), (0x0F4D5ACE, .vsts 19 21 43 6), (0x0F4D5696, .vldx 19 21 26 6),
     (0x0F4D569E, .vstx 19 21 26 6)] : List (Half × Instr)),
    decodeWord e.1 = .ok e.2 := by decide

theorem test_decode_atomics : ∀ e ∈ (
    [(0x109958CC, .amo .swap .d .rel .dev 38 21), (0x109959B0, .cas .d .acq .sys 38 21),
     (0x104D5B68, .famo .fmin .ar .clus 19 21), (0x104D5D24, .csum .acq .crew 19 21)] : List (Half × Instr)),
    decodeWord e.1 = .ok e.2 := by decide

theorem test_decode_sync : ∀ e ∈ (
    [(0x11015000, .cwb 21), (0x11015001, .cinv 21), (0x11015002, .cflush 21), (0x11015003, .wbrow 21),
     (0x11015004, .invrow 21), (0x11240108, .fence 9 .sys), (0x11000009, .fencesc), (0x110152D0, .arrive 11 21),
     (0x119802D1, .waitc 38 11), (0x119802D2, .catchq 38 11), (0x110152D8, .waitk 11 21), (0x11015AD9, .waitt 21 43),
     (0x119952DA, .krd 38 11 21), (0x110152DB, .kadd 11 21)] : List (Half × Instr)),
    decodeWord e.1 = .ok e.2 := by decide

theorem test_decode_continuations : ∀ e ∈ (
    [(0x12015AC0, .spawn 21 43), (0x12000001, .join), (0x12015002, .finish 21), (0x129952C3, .suspk 11 21 38),
     (0x12015004, .suspt 21), (0x12000005, .yield)] : List (Half × Instr)),
    decodeWord e.1 = .ok e.2 := by decide

theorem test_decode_labels : ∀ e ∈ (
    [(0x13995AC0, .assume 38 21 43), (0x134C7AC1, .assumev 19 7 43), (0x13995002, .lblof 38 21),
     (0x13995AC3, .lblset 38 21 43), (0x13995AC4, .ljoin 38 21 43), (0x13015005, .contra 21),
     (0x13007006, .contrav 7), (0x13995007, .ltest 38 21), (0x13995AC8, .lenv 38 21 43), (0x13000009, .wreset),
     (0x1399500A, .lld 38 21), (0x1399500B, .lst 38 21)] : List (Half × Instr)),
    decodeWord e.1 = .ok e.2 := by decide

theorem test_decode_engines : ∀ e ∈ (
    [(0x14995000, .jsub 38 21), (0x14995001, .jpoll 38 21), (0x14995002, .jcancel 38 21), (0x140152C4, .get 11 21),
     (0x140152C5, .getx 11 21), (0x140152C6, .send 11 21), (0x140152C7, .sendx 11 21), (0x14795008, .smode 30 21),
     (0x14780009, .soff 30), (0x15B54000, .rcopy 11 21), (0x15B54100, .rfill 11 21),
     (0x15B54205, .rbool .xnor2 11 21), (0x15B54301, .rpromo true 11 21), (0x15B54400, .rdemo 11 21),
     (0x15B54501, .ired true 11 21), (0x15B54600, .edgerun 11 21)] : List (Half × Instr)),
    decodeWord e.1 = .ok e.2 := by decide

theorem test_decode_system : ∀ e ∈ (
    [(0x169802C5, .crr 38 709), (0x160156C5, .crw 709 21), (0x16995AC5, .crs 38 709 21), (0x16995EC5, .crc 38 709 21),
     (0x170231C0, .svc 2247), (0x17000001, .eret), (0x17000002, .upret), (0x179802C3, .feat 38 11),
     (0x17015004, .invpg 21), (0x17055005, .dtld .b 21), (0x17015008, .edgeret 21), (0x17000009, .edgeskip),
     (0x1700000A, .edgedone)] : List (Half × Instr)),
    decodeWord e.1 = .ok e.2 := by decide

theorem test_decode_integer_1 : ∀ e ∈ (
    [(0x1A6A5C3E, .upi 38 678974), (0x1E6A5C3E, .aupc 38 678974), (0x20995AC0, .add 38 21 43),
     (0x20995AC1, .sub 38 21 43), (0x20995AC2, .and 38 21 43), (0x20995AC3, .or 38 21 43),
     (0x20995AC4, .xor 38 21 43), (0x20995AC5, .shl 38 21 43), (0x20995AC6, .shr 38 21 43),
     (0x20995AC7, .sra 38 21 43), (0x20995AC8, .slt 38 21 43), (0x20995AC9, .sltu 38 21 43),
     (0x20995ACA, .min 38 21 43), (0x20995ACB, .max 38 21 43), (0x20995ACC, .minu 38 21 43),
     (0x20995ACD, .maxu 38 21 43), (0x2099500E, .clz 38 21), (0x2099500F, .popc 38 21), (0x20995AD0, .mul 38 21 43),
     (0x20995AD1, .mulh 38 21 43), (0x20995AD2, .mulhu 38 21 43), (0x20995AD3, .div 38 21 43),
     (0x20995AD4, .divu 38 21 43), (0x20995AD5, .rem 38 21 43)] : List (Half × Instr)),
    decodeWord e.1 = .ok e.2 := by decide

theorem test_decode_integer_2 : ∀ e ∈ (
    [(0x20995AD6, .remu 38 21 43), (0x219959A5, .addi 38 21 2469), (0x229959A5, .andi 38 21 2469),
     (0x239959A5, .ori 38 21 2469), (0x249959A5, .xori 38 21 2469), (0x259959A5, .slti 38 21 2469),
     (0x269959A5, .sltiu 38 21 2469), (0x2799502B, .shli 38 21 43), (0x2799542B, .shri 38 21 43),
     (0x2799582B, .srai 38 21 43)] : List (Half × Instr)),
    decodeWord e.1 = .ok e.2 := by decide

theorem test_decode_float : ∀ e ∈ (
    [(0x284C7680, .fadd .rne 19 7 26), (0x284C7689, .fsub .rtz 19 7 26), (0x284C7692, .fmul .rdn 19 7 26),
     (0x284C769B, .fdiv .rup 19 7 26), (0x284C76A4, .ffma .dyn 19 7 26), (0x284C76A8, .fmin 19 7 26),
     (0x284C76B0, .fmax 19 7 26), (0x289876BA, .fcmp .le 38 7 26), (0x294C7004, .fsqrt .dyn 19 7),
     (0x29987089, .fcvtfi .rtz .i64 38 7), (0x294D5053, .fcvtif .rup .u32 19 21), (0x29987018, .fmvxf 38 7),
     (0x294D5020, .fmvfx 19 21), (0x29987028, .fclass 38 7)] : List (Half × Instr)),
    decodeWord e.1 = .ok e.2 := by decide

theorem test_decode_vector_1 : ∀ e ∈ (
    [(0x2AB33EB0, .vadd .i8 19 7 26 6), (0x2AB33EB1, .vsub .i8 19 7 26 6), (0x2AB33EB2, .vmul .i8 19 7 26 6),
     (0x2AB33EB3, .vfma .i8 19 7 26 6), (0x2AB33EB4, .vfms .i8 19 7 26 6), (0x2AB33EB5, .vmin .i8 19 7 26 6),
     (0x2AB33EB6, .vmax .i8 19 7 26 6), (0x2AB33837, .vabs .i8 19 7 6), (0x2BB33830, .vneg .i8 19 7 6),
     (0x2B933EB1, .vand .i16 19 7 26 6), (0x2B933EB2, .vor .i16 19 7 26 6), (0x2B933EB3, .vxor .i16 19 7 26 6),
     (0x2B933EB4, .vshl .i16 19 7 26 6), (0x2B933EB5, .vshr .i16 19 7 26 6), (0x2B933EB6, .vsra .i16 19 7 26 6),
     (0x2BB33EB7, .vsel .i8 19 7 26 6), (0x2CA63EB3, .vcmp .le .i8 6 7 26 6), (0x2DB338B0, .vcvt .i8 .f16 19 7 6),
     (0x2D3338F1, .venc .b true .bf16 19 7 6), (0x2D333872, .vdec .b .bf16 19 7 6),
     (0x2D333EB3, .vscale .bf16 19 7 26 6), (0x2DB33834, .vreds .i8 19 7 6), (0x2DB33835, .vredm .i8 19 7 6),
     (0x2D333836, .vexp2 .bf16 19 7 6)] : List (Half × Instr)),
    decodeWord e.1 = .ok e.2 := by decide

theorem test_decode_vector_2 : ∀ e ∈ (
    [(0x2D333837, .vrcp .bf16 19 7 6), (0x2E333830, .vrsq .bf16 19 7 6), (0x2EB33EB1, .vperm .i8 19 7 26 6),
     (0x2EB33832, .vbcast .i8 19 7 6), (0x2EB33E83, .vins .i8 19 7 26), (0x2EB33E84, .vext .i8 19 7 26),
     (0x2EB33835, .vmov .i8 19 7 6), (0x2EA63806, .pset .i8 6 7), (0x2E651987, .plog .andn2 5 3 6)] : List (Half × Instr)),
    decodeWord e.1 = .ok e.2 := by decide

theorem test_decode_matrix : ∀ e ∈ (
    [(0x308EAD60, .mmabb 17 1 true 21 43), (0x318EAD60, .mmahh 17 1 true 21 43),
     (0x32CCAD74, .mmaee 25 1 false 21 43 20), (0x33CCAD74, .mmaef 25 1 false 21 43 20),
     (0x34CCAD74, .mmaff 25 1 false 21 43 20), (0x358EAD60, .mmaii 17 1 true 21 43), (0x36000AC0, .macq 44),
     (0x36000001, .mrel), (0x36040002, .mzero 1), (0x36055003, .mlda 1 21), (0x36055004, .msta 1 21),
     (0x36000005, .msync), (0x36995AC6, .mskld 38 21 43), (0x3F995AC0, .hpref 38 21 43)] : List (Half × Instr)),
    decodeWord e.1 = .ok e.2 := by decide

/-- The word has a cell marked ILL. -/
def isIll (w : Half) : Bool :=
  match decodeWord w with
  | .error .illCell => true
  | _ => false

/-- The word has a field that its form does not admit. -/
def isBad (w : Half) : Bool :=
  match decodeWord w with
  | .error .badField => true
  | _ => false

/-- Words with a cell marked ILL (R56 to R68) are refused as such. -/
theorem test_decode_ill_1 : ([0x2F000000, 0x37000000, 0x38000000, 0x3E000000, 0x11000005, 0x1100000A, 0x11000013, 0x1100001C, 0x11000020] : List Half).all isIll = true := by decide
theorem test_decode_ill_2 : ([0x12000006, 0x1300000C, 0x14000003, 0x1400000A, 0x17000006, 0x1700000B, 0x20000017, 0x36000007, 0x0C000A00] : List Half).all isIll = true := by decide
theorem test_decode_ill_3 : ([0x27000C00, 0x0F000020, 0x10000E00, 0x10000014, 0x146C0008, 0x15000700, 0x28000005, 0x2800003C, 0x29000030] : List Half).all isIll = true := by decide
theorem test_decode_ill_4 : ([0x2AC00000, 0x2B000001, 0x2C000006, 0x2D000000, 0x2EA00007, 0x30280000, 0x301A0000, 0x34200000, 0x3200001F] : List Half).all isIll = true := by decide

/-- Words with a field that breaks R55, or a "0" field that is not 0, are refused as such. -/
theorem test_decode_field_1 : ([0x09040000, 0x27000040, 0x10000001, 0x10000A80, 0x0B800E00, 0x11040000, 0x29000040, 0x2E000045, 0x30000001] : List Half).all isBad = true := by decide
theorem test_decode_field_2 : ([0x3001F800, 0x16001000, 0x17040000, 0x36000041, 0x1403D004, 0x150F8000, 0x15000001, 0x10FC0900, 0x14FC0000] : List Half).all isBad = true := by decide

/-- Major 0x3F never traps: a hint that EMK-4 does not define is a NOP (R69). -/
theorem test_decode_hint : decodeWord 0x3F995AC1 = .ok (.ori 0 0 0) := by decide

/-! ### Witnesses: scalar and control -/

theorem witness_IntegerForms : ∃ (s : State) (d a b : Nat) (i : Instr) (g : Word → Word → Word) (w : LabelWord),
    (i, g) ∈ Claims.integerForms d a b ∧ i.wf = true ∧ Claims.labelled s d [s.labX a, s.labX b] w := by
  obtain ⟨w, u, h⟩ := ok_of (show isOk (placed.formConj [placed.labX 0, placed.labX 63]) = true by decide)
  exact ⟨placed, 63, 0, 63, _, _, w, .head _, by decide, .inr ⟨u, h⟩⟩

theorem witness_IntegerForms_unary : ∃ (s : State) (d a k : Nat) (i : Instr) (g : Word → Word) (w : LabelWord),
    (i, g) ∈ Claims.unaryForms d a k ∧ k = 4095 ∧ i.wf = true ∧ Claims.labelled s d [s.labX a] w :=
  ⟨placed, 0, 63, 4095, _, _, 0, .tail _ (.tail _ (.head _)), rfl, by decide, .inl rfl⟩

theorem witness_DivisionForms : ∃ (s : State) (d a b : Nat) (i : Instr) (g : Word → Word → Word) (w : LabelWord),
    (i, g) ∈ Claims.divisionForms d a b ∧ i.wf = true ∧ Claims.labelled s d [s.labX a, s.labX b] w := by
  obtain ⟨w, u, h⟩ := ok_of (show isOk (placed.formConj [placed.labX 63, placed.labX 0]) = true by decide)
  exact ⟨placed, 63, 63, 0, _, _, w, .head _, by decide, .inr ⟨u, h⟩⟩

theorem witness_UpperForms : ∃ (d k : Nat), d = 63 ∧ k = 2 ^ 20 - 1 ∧ d < 64 ∧ k < 2 ^ 20 := ⟨_, _, rfl, rfl, by decide, by decide⟩

theorem witness_Jumps : ∃ (s : State) (off d a k : Nat) (dst : Word), off < 2 ^ 24 ∧ d < 64 ∧ a < 64 ∧ k < 4096 ∧ d ≠ 0 ∧
    dst = s.rdX a + BitVec.ofInt 64 (4 * Claims.signed 12 k) ∧ dst.toNat % 4 = 0 ∧ Claims.classPasses s [s.labX a] :=
  ⟨placed, 2 ^ 24 - 1, 63, 63, 4095, _, by decide, by decide, by decide, by decide, by decide, rfl, by decide, .inl (by decide)⟩

theorem witness_Branches : ∃ (s : State) (a b off : Nat) (i : Instr) (c : Word → Word → Bool),
    (i, c) ∈ Claims.branches a b off ∧ i.wf = true ∧ Claims.classPasses s [s.labX a, s.labX b] ∧
      c (s.rdX a) (s.rdX b) = true :=
  ⟨placed, 0, 63, 4095, _, _, .head _, by decide, .inl (by decide), by decide⟩

theorem witness_Branches_not_taken : ∃ (s : State) (a b off : Nat) (i : Instr) (c : Word → Word → Bool),
    (i, c) ∈ Claims.branches a b off ∧ i.wf = true ∧ Claims.classPasses s [s.labX a, s.labX b] ∧
      c (s.rdX a) (s.rdX b) = false :=
  ⟨placed, 0, 63, 4095, _, _, .tail _ (.head _), by decide, .inl (by decide), by decide⟩

theorem witness_LoopsPush : ∃ (s : State) (a k imm : Nat) (here : Word), a < 64 ∧ k < 4096 ∧ imm < 4096 ∧
    here = BitVec.ofNat 64 (s.core.issue.addr.toNat / 8 * 8) ∧ s.core.loops.length < 4 ∧ 0 < k ∧ 0 < (s.rdX a).toInt ∧
    (s.rdX a).toInt < 2 ^ 32 ∧ Claims.classPasses s [s.labX a] :=
  ⟨setX placed 63 0xFFFF_FFFF, 63, 4095, 4095, _, by decide, by decide, by decide, rfl, by decide, by decide, by decide,
    by decide, .inl (by decide)⟩

/-- A core whose innermost loop ends at the container at 0, and which executes the word at `addr` of it. -/
def looping (addr : Word) (lone taken : Bool) (count : Nat) : State := placed.mapCore fun c =>
  { c with issue := ⟨addr, lone, taken⟩, loops := if count = 0 then [] else [⟨0, 0, count⟩] }

theorem witness_CompletionAdvances :
    (∃ s : State, s.core.issue.addr.toNat / 4 % 2 = 0 ∧ s.core.issue.lone = true) ∧
    (∃ s : State, s.core.issue.addr.toNat / 4 % 2 = 0 ∧ s.core.issue.lone = false) ∧
    (∃ s : State, s.core.issue.addr.toNat / 4 % 2 = 1 ∧ s.core.issue.taken = true) ∧
    (∃ s : State, s.core.issue.addr.toNat / 4 % 2 = 1 ∧ s.core.issue.taken = false ∧ s.core.loops.length ≤ s.core.frozen) ∧
    (∃ (s : State) (e : LoopEntry) (rest : List LoopEntry), s.core.issue.addr.toNat / 4 % 2 = 1 ∧ s.core.issue.taken = false ∧
      s.core.loops = e :: rest ∧ s.core.frozen ≤ rest.length ∧ e.stop ≠ BitVec.ofNat 64 (s.core.issue.addr.toNat / 8 * 8)) ∧
    (∃ (s : State) (e : LoopEntry) (rest : List LoopEntry), s.core.issue.addr.toNat / 4 % 2 = 1 ∧ s.core.issue.taken = false ∧
      s.core.loops = e :: rest ∧ s.core.frozen ≤ rest.length ∧ e.stop = BitVec.ofNat 64 (s.core.issue.addr.toNat / 8 * 8) ∧
      1 < e.count) ∧
    (∃ (s : State) (e : LoopEntry) (rest : List LoopEntry), s.core.issue.addr.toNat / 4 % 2 = 1 ∧ s.core.issue.taken = false ∧
      s.core.loops = e :: rest ∧ s.core.frozen ≤ rest.length ∧ e.stop = BitVec.ofNat 64 (s.core.issue.addr.toNat / 8 * 8) ∧
      e.count ≤ 1) :=
  ⟨⟨looping 0 true false 0, by decide⟩, ⟨looping 0 false false 0, by decide⟩, ⟨looping 4 true true 0, by decide⟩,
    ⟨looping 4 true false 0, by decide⟩, ⟨looping 12 true false 1, ⟨0, 0, 1⟩, [], by decide⟩,
    ⟨looping 4 true false 2, ⟨0, 0, 2⟩, [], by decide⟩, ⟨looping 4 true false 1, ⟨0, 0, 1⟩, [], by decide⟩⟩

/-- Four nested loops, one of them frozen by an upcall. -/
def nested : State := super.mapCore fun c =>
  { c with
    status := { c.status with mode := .u, inup := true }
    loops := [⟨0x8_0000_0008, 0x8_0000_0010, 5⟩, ⟨0x8_0000_0008, 0x8_0000_0018, 4⟩, ⟨0x8_0000_0008, 0x8_0000_0020, 3⟩,
      ⟨0x8_0000_0008, 0x8_0000_0008, 2 ^ 32 - 1⟩], frozen := 1 }

theorem entry_of (s : State) (h : isOk (s.fetchPlace .s (BitVec.ofNat 64 s.ctx.desc.trapent)) = true) :
    ∃ u, Claims.entryFetched s u := by
  obtain ⟨p, u, h⟩ := ok_of h
  exact ⟨u, p, h⟩

theorem witness_TrapEntry : ∃ (s u : State) (_ : Trap), Claims.entryFetched s u ∧ s.core.loops.length ≤ 4 ∧ s.core.frozen ≤ 4 := by
  obtain ⟨u, h⟩ := entry_of nested (by decide)
  exact ⟨nested, u, ⟨.svc, 0, 0, 0, false⟩, h, by decide, by decide⟩

theorem witness_SvcTraps : ∃ (s u : State) (n : Nat), n = 4095 ∧ n < 4096 ∧ Claims.entryFetched s.complete u := by
  obtain ⟨u, h⟩ := entry_of placed.complete (by decide)
  exact ⟨placed, u, _, rfl, by decide, h⟩

/-- A handler about to return from a trap taken in `nested`. -/
def handling : State := super.mapCore fun c =>
  { c with
    status := { c.status with inup := true }, ecause := 0x200, epc := 0x8_0000_0004
    sloop := filePut (by decide) c.sloop 0 0x1_0000_0001 }

theorem witness_Returns_eret : ∃ s : State, s.core.status.mode = .s ∧ s.core.epc.toNat % 4 = 0 ∧
    s.core.ecause.toNat / 2 ^ 9 % 8 ≤ (s.core.sloop.toList.takeWhile fun w => decide (w.toNat / 2 ^ 32 ≠ 0)).length ∧
    (s.core.ecause.toNat / 2 ^ 9 % 8 = 0 ∨ s.core.status.inup = true) := ⟨handling, by decide⟩

theorem witness_Returns_upret : ∃ s : State, s.core.status.mode = .u ∧ s.core.status.inup = true ∧ s.core.upepc.toNat % 4 = 0 :=
  ⟨nested, by decide⟩

theorem witness_Returns_upret_traps : (∃ s : State, s.core.status.mode = .s) ∧ ∃ s : State, s.core.status.inup = false :=
  ⟨⟨super, by decide⟩, ⟨placed, by decide⟩⟩

theorem witness_EretUndoesTrapEntry : ∃ (s u : State) (t : Trap), Claims.entryFetched s u ∧ t.epc.toNat % 4 = 0 ∧
    s.core.loops.length ≤ 4 ∧ s.core.frozen ≤ s.core.loops.length ∧ (s.core.frozen = 0 ∨ s.core.status.inup = true) ∧
    ∀ e, e ∈ s.core.loops → Claims.loopSaved t.epc e := by
  obtain ⟨u, h⟩ := entry_of nested (by decide)
  refine ⟨nested, u, ⟨.svc, 0, 0, 0x8_0000_0004, false⟩, h, by decide, by decide, by decide, by decide, ?_⟩
  intro e he
  have : e = ⟨0x8_0000_0008, 0x8_0000_0010, 5⟩ ∨ e = ⟨0x8_0000_0008, 0x8_0000_0018, 4⟩ ∨
      e = ⟨0x8_0000_0008, 0x8_0000_0020, 3⟩ ∨ e = ⟨0x8_0000_0008, 0x8_0000_0008, 2 ^ 32 - 1⟩ := by
    simpa [nested, State.mapCore] using he
  obtain rfl | rfl | rfl | rfl := this
  · exact ⟨by decide, by decide, by decide, by decide, by decide, 1, by decide, by decide⟩
  · exact ⟨by decide, by decide, by decide, by decide, by decide, 2, by decide, by decide⟩
  · exact ⟨by decide, by decide, by decide, by decide, by decide, 3, by decide, by decide⟩
  · exact ⟨by decide, by decide, by decide, by decide, by decide, 0, by decide, by decide⟩

/-! ### Witnesses: control registers and synchronisation -/

theorem witness_ControlRegisterReads : ∃ (s : State) (d n : Nat) (old : Word), d < 64 ∧ (n, old) ∈ Claims.crFields s ∧
    s.core.status.mode = .u ∧ n ∈ Claims.userReads :=
  ⟨placed, 63, 2, _, by decide, .head _, by decide, by decide⟩

theorem witness_ControlRegisterReads_super : ∃ (s : State) (d n : Nat) (old : Word), d < 64 ∧ (n, old) ∈ Claims.crFields s ∧
    s.core.status.mode = .s := ⟨super, 63, 2, _, by decide, .head _, by decide⟩

theorem witness_ControlRegisterReads_forms : ∃ (s : State) (d a n : Nat), d < 64 ∧ a < 64 ∧ n < 16 ∧ 6 ≤ n ∧
    s.core.status.mode = .s := ⟨super, 63, 63, 15, by decide⟩

theorem witness_ControlRegisterWrites : ∃ (s : State) (d n a : Nat) (new : Word), d < 64 ∧ a < 64 ∧ Claims.crLegal s ∧
    Claims.classPasses s [s.labX a] ∧ s.core.status.mode = .u ∧ n ∈ Claims.userWrites ∧
    (n, new) ∈ Claims.crWrites (s.crRead n) (s.rdX a) :=
  ⟨placed, 63, 0, 63, _, by decide, by decide, ⟨by decide, by decide, by decide⟩, .inl (by decide), by decide, by decide, .head _⟩

theorem witness_ControlRegisterWrites_set : ∃ (s : State) (d n a : Nat) (new : Word), d < 64 ∧ a < 64 ∧ Claims.crLegal s ∧
    Claims.classPasses s [s.labX a] ∧ s.core.status.mode = .s ∧
    (n, new) ∈ Claims.crWrites (s.crRead n) (s.crRead n ||| s.rdX a) :=
  ⟨super, 63, 1, 63, _, by decide, by decide, ⟨by decide, by decide, by decide⟩, .inl (by decide), by decide, .tail _ (.head _)⟩

theorem witness_ControlRegisterWrites_clear : ∃ (s : State) (d n a : Nat) (new : Word), d < 64 ∧ a < 64 ∧ Claims.crLegal s ∧
    Claims.classPasses s [s.labX a] ∧ s.core.status.mode = .s ∧
    (n, new) ∈ Claims.crWrites (s.crRead n) (s.crRead n &&& ~~~(s.rdX a)) :=
  ⟨super, 63, 0, 0, _, by decide, by decide, ⟨by decide, by decide, by decide⟩, .inl (by decide), by decide, .head _⟩

theorem witness_PrivilegeTraps : ∃ (s : State) (a n : Nat), n < 1024 ∧ s.core.status.mode = .u ∧ Claims.plainCore s ∧ a ≠ 0 ∧
    n ∈ Claims.crNumbers ∧ n ∉ Claims.userReads ∧ n ∉ Claims.userWrites :=
  ⟨placed, 63, 0x50, by decide, by decide, (by intro r h; cases h), by decide, by decide, by decide, by decide⟩

theorem plain_placed : Claims.plainCore placed := by intro r h; cases h
theorem plain_super : Claims.plainCore super := by intro r h; cases h

/-- Core 0 with a row operation in flight. -/
def busy : State := placed.mapCluster 0 fun k =>
  { k with rowq := [⟨0, .rcopy, 0, 0, 0, .u, 0, [], none, []⟩] }

/-- A park of the word at 0 has ended with the value 0. -/
def granted : State := placed.mapCore fun c => { c with issue := ⟨0, true, false⟩, grants := [(0, 0)] }

theorem witness_Fences : ∃ (s : State) (kinds : Nat), 0 < kinds ∧ kinds < 16 ∧ Claims.plainCore s ∧
    (kinds < 8 ∨ s.engineBusy s.focus.cl s.focus.core = false) ∧ s.grantValue = none :=
  ⟨placed, 15, by decide, by decide, plain_placed, .inr (by decide), by decide⟩

theorem witness_Fences_waits : ∃ (s : State) (kinds : Nat), 0 < kinds ∧ kinds < 16 ∧ Claims.plainCore s ∧ 8 ≤ kinds ∧
    s.grantValue = none ∧ s.engineBusy s.focus.cl s.focus.core = true :=
  ⟨busy, 8, by decide, by decide, (by intro r h; cases h), by decide, by decide, by decide⟩

theorem witness_Fences_granted : ∃ s : State, Claims.plainCore s ∧ s.grantValue = some 0 :=
  ⟨granted, (by intro r h; cases h), by decide⟩

/-- Core 0 is in a gang and member of group 15, whose image names the cores of `image`. -/
def caught (image : BitVec 256) (flags : BitVec 217) : State :=
  (placed.mapCore fun c => { c with gang := some ⟨0, 2⟩, arrived := if flags = 0 then [] else [(15, 0)] }).mapCluster 0 fun k =>
    k.mapGroup 15 fun g => { g with image := image, flags := flags }

theorem member_caught (image : BitVec 256) (flags : BitVec 217) (h : ((caught image flags).group 15).image.getLsbD 0 = true) :
    Claims.catchMember (caught image flags) 15 := ⟨(fun e => nomatch e), (show 0 < 192 by decide), h⟩

theorem witness_CatchNetwork_last : ∃ (s : State) (g a : Nat), g < 16 ∧ a < 64 ∧ Claims.plainCore s ∧ Claims.catchMember s g ∧
    (s.group g).held = [] ∧ (s.group g).flags.getLsbD s.focus.core = false ∧ Claims.classPasses s [s.labX a] ∧
    Claims.allArrived (s.group g) (Claims.flagsWith s g) :=
  ⟨caught 1 0, 15, 63, by decide, by decide, (by intro r h; cases h), member_caught 1 0 (by decide), by decide, by decide,
    .inl (by decide), by unfold Claims.allArrived; decide⟩

theorem witness_CatchNetwork_others : ∃ (s : State) (g a : Nat), g < 16 ∧ a < 64 ∧ Claims.plainCore s ∧ Claims.catchMember s g ∧
    (s.group g).held = [] ∧ (s.group g).flags.getLsbD s.focus.core = false ∧ Claims.classPasses s [s.labX a] ∧
    ¬ Claims.allArrived (s.group g) (Claims.flagsWith s g) ∧
    ∀ n, lookup s.core.arrived g = some n → (s.group g).phase.toNat ≠ n :=
  ⟨caught (2 ^ 216 + 1) 0, 15, 0, by decide, by decide, (by intro r h; cases h), member_caught _ _ (by decide), by decide,
    by decide, .inl (by decide), by unfold Claims.allArrived; decide, by intro n h; cases h⟩

theorem witness_CatchNetwork_waits : ∃ (s : State) (g : Nat), g < 16 ∧ Claims.plainCore s ∧ Claims.catchMember s g ∧
    (s.group g).held = [] ∧ lookup s.core.arrived g = some (s.group g).phase.toNat :=
  ⟨caught 3 1, 15, by decide, (by intro r h; cases h), member_caught _ _ (by decide), by decide, by decide⟩

theorem witness_CountersAndTimedWaits : ∃ (s : State) (k a b : Nat), k < 16 ∧ a < 64 ∧ b < 64 ∧ Claims.plainCore s ∧
    Claims.classPasses s [s.labX a] ∧
    ((fileGet (by decide) s.core.k k).toNat % 2 ^ 31 + (2 ^ 31 - (s.rdX a).toNat % 2 ^ 31)) % 2 ^ 31 < 2 ^ 30 ∧
    Claims.classPasses s [s.labX a, s.labX b] ∧ (s.rdX a).toNat ≤ s.dev.cycle.toNat ∧ s.rdX b = 0 :=
  ⟨placed, 15, 63, 0, by decide, by decide, by decide, plain_placed, .inl (by decide), by decide, .inl (by decide), by decide,
    by decide⟩

theorem witness_CountersAndTimedWaits_waits : ∃ (s : State) (k a : Nat), k < 16 ∧ a < 64 ∧ Claims.plainCore s ∧
    Claims.classPasses s [s.labX a] ∧
    2 ^ 30 ≤ ((fileGet (by decide) s.core.k k).toNat % 2 ^ 31 + (2 ^ 31 - (s.rdX a).toNat % 2 ^ 31)) % 2 ^ 31 ∧
    s.grantValue = none :=
  ⟨setX placed 63 (2 ^ 30), 15, 63, by decide, by decide, (by intro r h; cases h), .inl (by decide), by decide, by decide⟩

theorem witness_CountersAndTimedWaits_other : ∃ (s : State) (k a : Nat), k < 16 ∧ a < 64 ∧ Claims.plainCore s ∧ a ≠ 0 ∧
    (s.rdX a).toNat < 192 ∧ s.ctx.mapped s.focus.cl (s.rdX a).toNat = true :=
  ⟨setX placed 63 191, 15, 63, by decide, by decide, (by intro r h; cases h), by decide, by decide, by decide⟩

theorem witness_CountersAndTimedWaits_job : ∃ (s : State) (a b : Nat), Claims.plainCore s ∧
    Claims.classPasses s [s.labX a, s.labX b] ∧ (s.rdX a).toNat ≤ s.dev.cycle.toNat ∧
    s.findJob s.focus.cl s.focus.core (s.rdX b) = none :=
  ⟨setX placed 63 1, 0, 63, (by intro r h; cases h), .inl (by decide), by decide, by decide⟩

/-! ### Witnesses: continuations and memory -/

/-- A place in the code page of the placed context, which is cacheable, readable and writable. -/
def page0 : Word := 0x8_0000_8000

/-- x5 to x7 hold a place for a record, an image behind it, and a token. -/
def running : State := setX (setX (setX placed 5 page0) 6 (page0 + 64)) 7 0x8000

theorem plain_running : Claims.plainCore running := by intro r h; cases h

theorem witness_Continuations_spawn : ∃ (s : State) (a b : Nat) (u v : State) (image : VWord), a < 64 ∧ b < 64 ∧
    Claims.plainCore s ∧ Claims.classPasses s [s.labX a, s.labX b] ∧ s.recordCheck (s.rdX a) = .ok u ∧
    u.imageRead (s.rdX b) = .ok (image, v) := by
  have h := eq_ok running (show isOk (running.recordCheck (running.rdX 5)) = true by decide)
  obtain ⟨image, v, k⟩ := ok_of (show isOk ((okOr running (running.recordCheck (running.rdX 5))).imageRead (running.rdX 6)) = true
    by decide)
  exact ⟨running, 5, 6, _, v, image, by decide, by decide, plain_running, .inl (by decide), h, k⟩

theorem witness_Continuations_leave : ∃ (s : State) (a d k : Nat), a < 64 ∧ d < 64 ∧ k < 16 ∧ Claims.plainCore s ∧
    s.core.gang = none ∧ rJoin (s.record s.core.crec) = 0 ∧ s.core.status.inup = false ∧ s.core.loops = [] ∧
    Claims.classPasses s.drain [s.drain.labX a, s.drain.labX d] ∧ (s.drain.rdX d).toNat < 192 ∧
    s.ctx.mapped s.focus.cl (s.drain.rdX d).toNat = true ∧
    Claims.classPasses s.drain [s.drain.labX a] ∧ (s.drain.rdX a).toNat < 2 ^ 60 :=
  ⟨setX running 63 191, 6, 63, 15, by decide, by decide, by decide, (by intro r h; cases h), by decide, by decide, by decide,
    by decide, .inl (by decide), by decide, by decide, .inl (by decide), by decide⟩

theorem witness_Continuations_finish : ∃ (s : State) (a : Nat), a < 64 ∧ Claims.plainCore s ∧ s.core.status.inup = false ∧
    s.core.loops = [] ∧ s.core.status.mode = .s ∧ a ≠ 0 ∧ (s.drain.rdX a).getLsbD 15 = true :=
  ⟨setX super 63 0x8000, 63, by decide, (by intro r h; cases h), by decide, by decide, by decide, by decide, by decide⟩

/-- The record of core 0 waits for a child. -/
def parent : State := (placed.mapDev fun d => d.poke 0x1000208018 [1]).mapCore fun c => { c with crec := page0 }

theorem witness_Continuations_join : ∃ s : State, Claims.plainCore s ∧ s.core.status.inup = false ∧ s.core.loops = [] ∧
    s.core.gang = none ∧ rJoin (s.record s.core.crec) ≠ 0 :=
  ⟨parent, (by intro r h; cases h), by decide, by decide, by decide, by decide⟩

/-- Checks of an access at an address of core 0's own local store. -/
theorem reaches_store (s : State) (acc : Access) (n : Nat) (va : Word) (p : Place) (hp : p.ls.isSome = true)
    (ha : va.toNat % n = 0) (ht : s.translate s.me acc va = .ok (p, s)) (hq : permCheck s.me acc p = .ok ())
    (hr : rangeCheck s.myCluster.locks va n acc.writes = .ok ()) : Claims.reaches s acc n va p s :=
  ⟨ha, ht, hq, .inl hp, hr, .inl hp⟩

/-- The last line of core 0's local store before its inbox, and a state with its address in x5. -/
def lastLine : Word := store0 + 0x3EFC0
def atStore : State := setX placed 5 lastLine
def lastPlace : Place := localPlace atStore.ctx 0 0 0x3EFC0 lastLine

theorem plain_atStore : Claims.plainCore atStore := by intro r h; cases h

theorem witness_ScalarAccesses_load : ∃ (s u : State) (d a off n : Nat) (i : Instr) (r : Reg) (ext : Nat → VWord) (p : Place)
    (w : LabelWord), (i, r, n, ext) ∈ Claims.loadForms d a off ∧ i.wf = true ∧
    Claims.reaches s .read n (Claims.scalarAddress s a off n) p u ∧ Claims.clean s p ∧
    (r = .x 0 ∨ ∃ u', u.formConj [s.labX a, Claims.lineLabel s p] = .ok (w, u')) := by
  obtain ⟨w, u, h⟩ := ok_of (show isOk (atStore.formConj [atStore.labX 5, Claims.lineLabel atStore
    (localPlace atStore.ctx 0 0 0x3EFFF (lastLine + 63))]) = true by decide)
  exact ⟨atStore, atStore, 63, 5, 63, 1, _, _, _, localPlace atStore.ctx 0 0 0x3EFFF (lastLine + 63), w, .head _, by decide,
    reaches_store _ _ _ _ _ rfl (by decide) rfl rfl rfl, by unfold Claims.clean; decide, .inr ⟨u, h⟩⟩

theorem witness_ScalarAccesses_store : ∃ (s u v : State) (d a off n val : Nat) (i : Instr) (lbl : LabelWord) (p : Place)
    (nl : Label), (i, val, lbl, n) ∈ Claims.storeForms s d a off ∧ i.wf = true ∧ Claims.plainCore s ∧
    Claims.reaches s .write n (Claims.scalarAddress s a off n) p u ∧ Claims.clean s p ∧
    Claims.writeLabels s v p [lbl, s.labX a] nl := by
  have h := eq_ok (0, atStore) (show isOk (atStore.formConj [atStore.labX 63, atStore.labX 5]) = true by decide)
  refine ⟨atStore, atStore, _, 63, 5, 63, 1, _, _, _, localPlace atStore.ctx 0 0 0x3EFFF (lastLine + 63), _, .head _, by decide,
    plain_atStore, reaches_store _ _ _ _ _ rfl (by decide) rfl rfl rfl, by unfold Claims.clean; decide, ⟨_, h, rfl⟩, .inr ?_⟩
  exact ⟨_, eq_ok (0, atStore.ctx.world, false) (by decide)⟩

theorem witness_VectorLines_load : ∃ (s u : State) (d a imm : Nat) (p : Place) (w : LabelWord), d < 32 ∧ a < 64 ∧ imm < 8192 ∧
    Claims.reaches s .read 64 (Claims.lineAddress s a imm) p u ∧ Claims.clean s p ∧
    ∃ u', u.formConj [s.labX a, Claims.lineLabel s p] = .ok (w, u') := by
  obtain ⟨w, u, h⟩ := ok_of (show isOk (atStore.formConj [atStore.labX 5, Claims.lineLabel atStore
    (localPlace atStore.ctx 0 0 0x3EF80 (lastLine - 64))]) = true by decide)
  exact ⟨atStore, atStore, 31, 5, 8191, _, w, by decide, by decide, by decide,
    reaches_store _ _ _ _ _ rfl (by decide) rfl rfl rfl, by unfold Claims.clean; decide, u, h⟩

theorem witness_VectorLines_store : ∃ (s u : State) (d a imm : Nat) (p : Place) (w : LabelWord), d < 32 ∧ a < 64 ∧ imm < 8192 ∧
    Claims.reaches s .write 64 (Claims.lineAddress s a imm) p u ∧ Claims.plainCore s ∧ s.dev.linkLost p.loc = false ∧
    (∃ u', u.formConj [s.labV d, s.labX a] = .ok (w, u')) ∧ (p.lt = true ∨ s.conjOf [s.labV d, s.labX a] = topLabel) := by
  obtain ⟨w, u, h⟩ := ok_of (show isOk (atStore.formConj [atStore.labV 31, atStore.labX 5]) = true by decide)
  exact ⟨atStore, atStore, 31, 5, 0, lastPlace, w, by decide, by decide, by decide,
    reaches_store _ _ _ _ _ rfl (by decide) rfl rfl rfl, plain_atStore, by decide, ⟨u, h⟩, .inl rfl⟩

theorem witness_VectorElements_gather : ∃ (s u : State) (d a b pg : Nat) (i : Instr) (idx w : LabelWord) (ea : Nat → Word)
    (els : List (Nat × LabelWord)), i.wf = true ∧ (i, idx, ea) ∈ Claims.gathers s d a b pg ∧
    s.loadAll 4 4 ((Claims.lanesOn s pg).map ea) = .ok (els, u) ∧
    ∃ u', u.formConj ([s.labX a, idx] ++ (if pg = 0 then [] else [s.labP pg, s.labV d]) ++ els.map Prod.snd) = .ok (w, u') := by
  have h := eq_ok ([], atStore) (show isOk (atStore.loadAll 4 4 ((Claims.lanesOn atStore 0).map (Claims.strided atStore 5 63))) =
    true by decide)
  obtain ⟨w, u, k⟩ := ok_of (show isOk ((okOr ([], atStore) (atStore.loadAll 4 4 ((Claims.lanesOn atStore 0).map
    (Claims.strided atStore 5 63)))).2.formConj ([atStore.labX 5, atStore.labX 63] ++ (if 0 = 0 then [] else
      [atStore.labP 0, atStore.labV 31]) ++ (okOr ([], atStore) (atStore.loadAll 4 4 ((Claims.lanesOn atStore 0).map
    (Claims.strided atStore 5 63)))).1.map Prod.snd)) = true by decide)
  exact ⟨atStore, _, 31, 5, 63, 0, _, _, w, _, _, by decide, .head _, h, u, k⟩

theorem witness_VectorElements_scatter : ∃ (s u : State) (d a b pg : Nat) (i : Instr) (idx : LabelWord) (ea : Nat → Word),
    i.wf = true ∧ (i, idx, ea) ∈ Claims.scatters s d a b pg ∧ Claims.plainCore s ∧
    s.storeAll ([s.labV d, s.labX a, idx] ++ (if pg = 0 then [] else [s.labP pg])) 4 4
      ((Claims.lanesOn s pg).map fun k => (ea k, bytesOf 4 (Claims.lane32 (s.rdV d) k))) = .ok u :=
  ⟨atStore, _, 31, 5, 63, 7, .vsts 31 5 63 7, _, _, by decide, .head _, plain_atStore,
    eq_ok atStore (by decide)⟩

/-- Every lane of p7 active. -/
def allLanes : State := atStore.mapRegs fun g => { g with p := filePut (by decide) g.p 7 (BitVec.allOnes 64) }

theorem witness_StoresStayInTheirLines : ∃ (s u : State) (ws : List LabelWord) (n align : Nat) (els : List (Word × List Byte)),
    s.storeAll ws n align els = .ok u ∧ (∀ e, e ∈ els → e.2.length = n) ∧ els.length = 2 :=
  ⟨atStore, _, [0], 4, 4, [(lastLine, [1, 2, 3, 4]), (lastLine + 60, [5, 6, 7, 8])], eq_ok atStore (by decide), by decide, rfl⟩

/-- An atomic at the last line of core 0's store before its inbox may go on. -/
theorem goes_atStore (n : Nat) (h : lastLine.toNat % n = 0) (ws : List LabelWord)
    (hr : rangeCheck atStore.myCluster.locks lastLine n Access.atomic.writes = .ok ())
    (hw : isOk (atStore.formConj ws) = true)
    (hl : isOk ((okOr (0, atStore) (atStore.formConj ws)).2.ctx.world.form atStore.labelCfg
      (conj (okOr (0, atStore) (atStore.formConj ws)).2.ctx.world.nogoods
        ((okOr (0, atStore) (atStore.formConj ws)).2.eval (Claims.lineLabel atStore lastPlace))
        ((okOr (0, atStore) (atStore.formConj ws)).2.eval (okOr (0, atStore) (atStore.formConj ws)).1))) = true) :
    ∃ v nl lr, Claims.atomicGoes atStore v n (atStore.rdX 5) ws lastPlace nl lr := by
  have hl := eq_ok (0, atStore.ctx.world, false) hl
  exact ⟨_, _, _, plain_atStore, by unfold Claims.clean; decide, ⟨atStore, reaches_store _ _ _ _ _ rfl h rfl rfl hr⟩,
    ⟨⟨_, eq_ok (0, atStore) hw, rfl⟩, .inr ⟨_, hl⟩⟩, _, hl, rfl⟩

theorem witness_Atomics : ∃ (s : State) (d a : Nat) (w : AmoWidth) (p : Place) (old : Nat), d < 64 ∧ a < 64 ∧
    old = s.dev.num p.loc w.size ∧ (∃ v nl lr, Claims.atomicGoes s v w.size (s.rdX a) [s.labX a, s.labX d] p nl lr) ∧
    ∃ op new, (op, new) ∈ Claims.amoResults (8 * w.size) old ((s.rdX d).toNat % 2 ^ (8 * w.size)) :=
  ⟨atStore, 63, 5, .d, lastPlace, _, by decide, by decide, rfl, goes_atStore 8 (by decide) _ rfl (by decide) (by decide), .add, _, .head _⟩

theorem witness_Atomics_cas : ∃ (s : State) (d a : Nat) (w : AmoWidth) (p : Place) (old : Nat), d < 63 ∧ a < 64 ∧
    old = s.dev.num p.loc w.size ∧ ∃ v nl lr, Claims.atomicGoes s v w.size (s.rdX a) [s.labX a, s.labX d, s.labX (d + 1)] p nl lr :=
  ⟨atStore, 62, 5, .w, lastPlace, _, by decide, by decide, rfl, goes_atStore 4 (by decide) _ rfl (by decide) (by decide)⟩

theorem witness_Atomics_famo : ∃ (s : State) (d a : Nat) (p : Place) (old : Nat), d < 32 ∧ a < 64 ∧ old = s.dev.num p.loc 4 ∧
    ∃ v nl lr, Claims.atomicGoes s v 4 (s.rdX a) [s.labX a, s.labF d] p nl lr :=
  ⟨atStore, 31, 5, lastPlace, _, by decide, by decide, rfl, goes_atStore 4 (by decide) _ rfl (by decide) (by decide)⟩

theorem witness_Atomics_csum : ∃ (s : State) (d a : Nat) (p : Place) (old : Nat), d < 32 ∧ a < 64 ∧ old = s.dev.num p.loc 8 ∧
    ∃ v nl lr, Claims.atomicGoes s v 8 (s.rdX a) [s.labX a, s.labF d] p nl lr :=
  ⟨atStore, 0, 5, lastPlace, _, by decide, by decide, rfl, goes_atStore 8 (by decide) _ rfl (by decide) (by decide)⟩

/-- A core whose x5 holds an address of the cacheable page. -/
def atPage : State := setX placed 5 page0
def pagePlace (acc : Access) : Place := (okOr (lastPlace, atPage) (atPage.translate atPage.me acc page0)).1

theorem maintains_page (acc : Access) (n : Nat) (ha : isOk (atPage.translate atPage.me acc page0) = true)
    (hp : permCheck atPage.me acc (pagePlace acc) = .ok ()) : Claims.maintains atPage acc n page0 (pagePlace acc) := by
  have hh : atPage.dev.held = [] := by decide
  refine ⟨⟨_, eq_ok (lastPlace, atPage) ha⟩, hp, .inr ?_⟩
  intro line _ h e
  rw [hh] at e
  cases e

theorem witness_CacheMaintenance : (∀ acc, acc = .read ∨ acc = .write → ∀ n, n = 64 ∨ n = 1024 →
    ∃ (s : State) (a : Nat) (p : Place), a < 64 ∧ Claims.plainCore s ∧ Claims.classPasses s [s.labX a] ∧
      Claims.maintains s acc n (BitVec.ofNat 64 ((s.rdX a).toNat / n * n)) p ∧ p.cacheable = true) := by
  rintro acc (rfl | rfl) n (rfl | rfl)
  all_goals exact ⟨atPage, 5, _, by decide, (by intro r h; cases h), .inl (by decide), maintains_page _ _ (by decide) (by decide),
    by decide⟩

/-! ### Witnesses: labels -/

/-- x5 has assumption 255 under its label; x6 holds the number of another assumption. -/
def labels : State := match setX placed 6 200 |>.formWith [0] [BitVec.ofNat 256 (2 ^ 255)] with
  | .ok (w, u) => u.mapRegs fun g => { g with xl := filePut (by decide) g.xl 5 w, vl := filePut (by decide) g.vl 31 w }
  | .error _ => placed

theorem plain_labels : Claims.plainCore labels := by intro r h; cases h

theorem witness_FormedLabelReadsBack : ∃ (s t : State) (wide : Bool) (l : Label) (w : LabelWord), l.length = 1 ∧
    s.formLabel wide l = .ok (w, t) ∧ s.ctx.world.table.length ≤ Config.handles ∧ s.core.lblcfg.ovf = false := by
  obtain ⟨w, t, h⟩ := ok_of (show isOk (labels.formLabel false [BitVec.ofNat 256 3]) = true by decide)
  exact ⟨labels, t, false, _, w, rfl, h, by decide, by decide⟩

theorem witness_LabelForms : ∃ (s u : State) (d a b : Nat) (w : LabelWord), a < 64 ∧ b < 64 ∧ d < 64 ∧ d ≠ 0 ∧
    (s.rdX b).toNat < 256 ∧ s.eval (s.labX a) ≠ topLabel ∧
    s.formWith [s.labX a, s.labX b] [BitVec.ofNat 256 (2 ^ (s.rdX b).toNat)] = .ok (w, u) := by
  obtain ⟨w, u, h⟩ := ok_of (show isOk (labels.formWith [labels.labX 5, labels.labX 6]
    [BitVec.ofNat 256 (2 ^ (labels.rdX 6).toNat)]) = true by decide)
  exact ⟨labels, u, 63, 5, 6, w, by decide, by decide, by decide, by decide, by decide, by decide, h⟩

theorem witness_LabelForms_assumev : ∃ (s u : State) (d a b : Nat) (w : LabelWord), a < 32 ∧ b < 64 ∧ d < 32 ∧
    (s.rdX b).toNat < 256 ∧ s.formWith [s.labV a, s.labX b] [BitVec.ofNat 256 (2 ^ (s.rdX b).toNat)] = .ok (w, u) := by
  obtain ⟨w, u, h⟩ := ok_of (show isOk (labels.formWith [labels.labV 31, labels.labX 6]
    [BitVec.ofNat 256 (2 ^ (labels.rdX 6).toNat)]) = true by decide)
  exact ⟨labels, u, 0, 31, 6, w, by decide, by decide, by decide, by decide, h⟩

/-- x7 holds the label word of x5 as data. -/
def labelData : State := setX labels 7 ((labels.labX 5).zeroExtend 64)

theorem witness_LabelForms_lblset : ∃ (s u : State) (d a b : Nat) (w : LabelWord), a < 64 ∧ b < 64 ∧ d < 64 ∧ d ≠ 0 ∧
    Claims.named s (s.rdX b) = [BitVec.ofNat 256 (2 ^ 255)] ∧
    s.formWith [s.labX a, s.labX b] (Claims.named s (s.rdX b)) = .ok (w, u) := by
  obtain ⟨w, u, h⟩ := ok_of (show isOk (labelData.formWith [labelData.labX 6, labelData.labX 7]
    (Claims.named labelData (labelData.rdX 7))) = true by decide)
  exact ⟨labelData, u, 63, 6, 7, w, by decide, by decide, by decide, by decide, by decide, h⟩

theorem witness_LabelForms_differ : ∃ (s u : State) (a b : Nat) (w : LabelWord), a < 64 ∧ b < 64 ∧ s.rdX a ≠ s.rdX b ∧
    s.formLabel (s.wideOf [s.labX a, s.labX b]) (s.conjOf [s.labX a, s.labX b]) = .ok (w, u) := by
  obtain ⟨w, u, h⟩ := ok_of (show isOk (labels.formLabel (labels.wideOf [labels.labX 5, labels.labX 6])
    (labels.conjOf [labels.labX 5, labels.labX 6])) = true by decide)
  exact ⟨labels, u, 5, 6, w, by decide, by decide, by decide, h⟩

theorem witness_LabelForms_agree : ∃ (s u u2 : State) (d a b : Nat) (w w2 : LabelWord), a < 64 ∧ b < 64 ∧
    s.rdX a = s.rdX b ∧ d ≠ 0 ∧
    s.formLabel (s.wideOf [s.labX a, s.labX b]) (disj s.ctx.world.nogoods (s.eval (s.labX a)) (s.eval (s.labX b))) = .ok (w, u) ∧
    u.formLabel (s.wideOf [s.labX a, s.labX b]) (s.conjOf [s.labX a, s.labX b]) = .ok (w2, u2) := by
  have h := eq_ok ((0, labels) : LabelWord × State) (show isOk (labels.formLabel (labels.wideOf [labels.labX 5, labels.labX 7])
    (disj labels.ctx.world.nogoods (labels.eval (labels.labX 5)) (labels.eval (labels.labX 7)))) = true by decide)
  obtain ⟨w2, u2, k⟩ := ok_of (show isOk ((okOr ((0, labels) : LabelWord × State) (labels.formLabel (labels.wideOf
    [labels.labX 5, labels.labX 7]) (disj labels.ctx.world.nogoods (labels.eval (labels.labX 5))
    (labels.eval (labels.labX 7))))).2.formLabel (labels.wideOf [labels.labX 5, labels.labX 7])
    (labels.conjOf [labels.labX 5, labels.labX 7])) = true by decide)
  exact ⟨labels, _, u2, 63, 5, 7, _, w2, by decide, by decide, by decide, by decide, h, k⟩

theorem witness_LabelForms_lenv : ∃ (s : State) (a b : Nat), a < 64 ∧ b < 64 ∧ (s.rdX b).toNat = 127 ∧
    s.eval (s.labX a) ≠ topLabel := ⟨setX labels 63 127, 5, 63, by decide, by decide, by decide, by decide⟩

theorem witness_LineLabels : ∃ (s u : State) (a : Nat) (p : Place) (w : LabelWord), a < 64 ∧
    Claims.reaches s .read 1 (s.rdX a) p u ∧ ∃ u', u.formConj [s.labX a] = .ok (w, u') := by
  obtain ⟨w, u, h⟩ := ok_of (show isOk (atStore.formConj [atStore.labX 5]) = true by decide)
  exact ⟨atStore, atStore, 5, lastPlace, w, by decide, reaches_store _ _ _ _ _ rfl (by decide) rfl rfl rfl, u, h⟩

/-- The same in S mode. -/
def superStore : State := setX super 5 lastLine

theorem witness_LineLabels_lst : ∃ (s u : State) (a : Nat) (p : Place), a < 64 ∧ Claims.reaches s .write 1 (s.rdX a) p u ∧
    Claims.plainCore s ∧ s.core.status.mode = .s ∧ p.lt = true :=
  ⟨superStore, superStore, 5, localPlace superStore.ctx 0 0 0x3EFC0 lastLine, by decide,
    reaches_store _ _ _ _ _ rfl (by decide) rfl rfl rfl, (by intro r h; cases h), by decide, by decide⟩

theorem witness_NogoodsAndEpochs : ∃ (s : State) (a : Nat), a < 32 ∧ Claims.plainCore s ∧ s.grantValue = none ∧
    s.eval (s.labV a) ≠ topLabel := ⟨labels, 31, by decide, plain_labels, by decide, by decide⟩

theorem witness_NogoodsAndEpochs_contra : ∃ (s : State) (a : Nat), a < 64 ∧ Claims.plainCore s ∧ s.grantValue = none ∧
    s.eval (s.labX a) ≠ topLabel := ⟨labels, 5, by decide, plain_labels, by decide, by decide⟩

/-- Core 0 waits for an umpire. -/
def contradicted : State :=
  labels.mapCore fun c => { c with park := some (.contra [BitVec.ofNat 256 3]), issue := ⟨0, true, false⟩ }

theorem witness_NogoodsAndEpochs_retire : ∃ (s : State) (cl core : Nat) (g : Label) (w : World),
    (s.coreAt cl core).issue.lone = true ∧ (s.coreAt cl core).park = some (.contra g) ∧ s.ctx.world.addNogoods g = some w :=
  ⟨contradicted, 0, 0, [BitVec.ofNat 256 3], (contradicted.ctx.world.addNogoods [BitVec.ofNat 256 3]).getD contradicted.ctx.world,
    by decide, by decide, by decide⟩

/-- Core 0 waits for the next epoch. -/
def renewed : State := labels.mapCore fun c => { c with park := some .wreset, issue := ⟨0, true, false⟩ }

theorem witness_NogoodsAndEpochs_wreset : ∃ (s : State) (cl core : Nat), (s.coreAt cl core).issue.lone = true ∧
    (s.coreAt cl core).park = some .wreset ∧ nextEpoch s.ctx.world.epoch ∉ s.ctx.world.used :=
  ⟨renewed, 0, 0, by decide, by decide, by decide⟩

/-- The umpires have answered a pair whose word0 is CONTRA or WRESET (log entry 23). -/
def acknowledged (v : Word) : State := labels.mapCore fun c =>
  { c with issue := ⟨0, false, false⟩, grants := [(0, v)], sent := some [BitVec.ofNat 256 3] }

theorem witness_NogoodsAndEpochs_pair : ∃ (s : State) (g : Label) (w : World), Claims.plainCore s ∧
    s.grantValue = some ackPair ∧ s.core.sent = some g ∧ s.ctx.world.addNogoods g = some w :=
  ⟨acknowledged ackPair, _, ((acknowledged ackPair).ctx.world.addNogoods [BitVec.ofNat 256 3]).getD labels.ctx.world,
    (by intro r h; cases h), by decide, rfl, by decide⟩

theorem witness_NogoodsAndEpochs_pair_full : ∃ (s : State) (g : Label), Claims.plainCore s ∧
    s.grantValue = some ackPair ∧ s.core.sent = some g ∧ s.ctx.world.addNogoods g = none :=
  ⟨(acknowledged ackPair).mapWorld fun w => { w with nogoods := List.replicate 1024 (BitVec.ofNat 256 4) }, _,
    (by intro r h; cases h), by decide, rfl, by decide⟩

theorem witness_NogoodsAndEpochs_pair_reset : ∃ s : State, Claims.plainCore s ∧ s.grantValue = some ackReset ∧
    nextEpoch s.ctx.world.epoch ∉ s.ctx.world.used := ⟨acknowledged ackReset, (by intro r h; cases h), by decide, by decide⟩

theorem witness_NogoodsAndEpochs_pair_used : ∃ s : State, Claims.plainCore s ∧ s.grantValue = some ackReset ∧
    nextEpoch s.ctx.world.epoch ∈ s.ctx.world.used ∧ s.core.lblcfg.swept = false :=
  ⟨(acknowledged ackReset).mapWorld fun w => { w with used := [1, 2] }, (by intro r h; cases h), by decide, by decide, by decide⟩

theorem witness_NogoodsAndEpochs_pair_waits : (∃ (s : State) (cl core : Nat) (g : Label), (s.coreAt cl core).issue.lone = false ∧
      (s.coreAt cl core).park = some (.contra g)) ∧
    ∃ (s : State) (cl core : Nat), (s.coreAt cl core).issue.lone = false ∧ (s.coreAt cl core).park = some .wreset :=
  ⟨⟨labels.mapCore fun c => { c with park := some (.contra []), issue := ⟨0, false, false⟩ }, 0, 0, [], by decide, by decide⟩,
    labels.mapCore fun c => { c with park := some .wreset, issue := ⟨0, false, false⟩ }, 0, 0, by decide, by decide⟩

/-! ### Witnesses: floats and vectors -/

/-- Registers with values that are no zeros. -/
def numbers : State := labels.mapRegs fun g =>
  { g with
    f := filePut (by decide) (filePut (by decide) g.f 31 0xBF800000) 30 0x7F800000
    v := filePut (by decide) g.v 31 (BitVec.allOnes 512)
    p := filePut (by decide) g.p 7 1 }

theorem witness_FloatForms : ∃ (s : State) (rm : Rm) (it : IntTy) (d a b : Nat) (i : Instr) (r : Nat × FFlags)
    (ws : List LabelWord) (w : LabelWord) (u : State), (i, r, ws) ∈ Claims.floatForms s rm it d a b ∧ i.wf = true ∧
    s.formConj ws = .ok (w, u) := by
  obtain ⟨w, u, h⟩ := ok_of (show isOk (numbers.formConj [numbers.labF 31, numbers.labF 30]) = true by decide)
  exact ⟨numbers, .dyn, .u64, 0, 31, 30, .fadd .dyn 0 31 30, _, _, w, u, .head _, by decide, h⟩

theorem witness_FloatForms_x : ∃ (s : State) (rm : Rm) (it : IntTy) (cc : FCc) (d a b : Nat) (i : Instr) (r : Word × FFlags)
    (ws : List LabelWord) (w : LabelWord), i.wf = true ∧ (i, r, ws) ∈ Claims.floatToXForms s rm it cc d a b ∧
    Claims.labelled s d ws w := by
  obtain ⟨w, u, h⟩ := ok_of (show isOk (numbers.formConj [numbers.labF 31, numbers.labF 30]) = true by decide)
  exact ⟨numbers, .rne, .i32, .eq, 63, 31, 30, .fcmp .eq 63 31 30, _, _, w, by decide, .head _, .inr ⟨u, h⟩⟩

theorem witness_FloatForms_long : ∃ (s u : State) (rm : Rm) (d a b : Nat) (i : Instr) (r : Nat × FFlags) (ws : List LabelWord)
    (w : LabelWord), i.wf = true ∧ (i, r, ws) ∈ Claims.floatLongForms s rm d a b ∧ s.formConj ws = .ok (w, u) := by
  obtain ⟨w, u, h⟩ := ok_of (show isOk (numbers.formConj [numbers.labF 31, numbers.labF 30]) = true by decide)
  exact ⟨numbers, u, .rup, 0, 31, 30, .fdiv .rup 0 31 30, _, _, w, by decide, .head _, h⟩

/-- Any label words of the registers of `numbers` can be joined in a label. -/
theorem witness_VectorForms : ∃ (s u : State) (t : ElemTy) (d a b pg : Nat) (i : Instr) (ws : List LabelWord) (old : VWord)
    (g : Nat → Nat × FFlags) (w : LabelWord), (i, ws, old, g) ∈ Claims.vectorForms s t d a b pg ∧ i.wf = true ∧
    s.formConj ws = .ok (w, u) ∧ Claims.activeLane s t pg 0 = true ∧ Claims.activeLane s t pg 1 = false := by
  obtain ⟨w, u, h⟩ := ok_of (show isOk (numbers.formConj ([numbers.labV 31, numbers.labV 30] ++ Claims.mergeWords numbers 0 7)) = true
    by decide)
  exact ⟨numbers, u, .i8, 0, 31, 30, 7, .vadd .i8 0 31 30 7, _, _, _, w, .head _, by decide, h, by decide, by decide⟩

theorem witness_VectorForms_long : ∃ (s u : State) (t : ElemTy) (d a pg : Nat) (i : Instr) (g : Nat → Nat × FFlags)
    (w : LabelWord), (i, g) ∈ Claims.vectorLongForms s t d a pg ∧ i.wf = true ∧
    s.formConj ([s.labV a] ++ Claims.mergeWords s d pg) = .ok (w, u) := by
  obtain ⟨w, u, h⟩ := ok_of (show isOk (numbers.formConj ([numbers.labV 31] ++ Claims.mergeWords numbers 0 7)) = true by decide)
  exact ⟨numbers, u, .f32, 0, 31, 7, .vexp2 .f32 0 31 7, _, w, .head _, by decide, h⟩

theorem witness_VectorConversions : ∃ (s u : State) (t src : ElemTy) (bank : Bank) (nan : Bool) (d a pg : Nat) (w : LabelWord),
    s.formConj ([s.labV a] ++ Claims.mergeWords s d pg) = .ok (w, u) ∧ (Instr.vcvt t src d a pg).wf = true ∧
    (Instr.vdec bank t d a pg).wf = true ∧ (Instr.venc bank nan t d a pg).wf = true := by
  obtain ⟨w, u, h⟩ := ok_of (show isOk (numbers.formConj ([numbers.labV 31] ++ Claims.mergeWords numbers 0 7)) = true by decide)
  exact ⟨numbers, u, .bf16, .i32, .b, true, 0, 31, 7, w, h, by decide, by decide, by decide⟩

theorem witness_VectorReductionsAndElements : ∃ (s u : State) (d a pg : Nat) (w : LabelWord), a < 32 ∧ pg < 8 ∧ d < 32 ∧
    s.formConj ([s.labV a] ++ Claims.predWords s pg) = .ok (w, u) := by
  obtain ⟨w, u, h⟩ := ok_of (show isOk (numbers.formConj ([numbers.labV 31] ++ Claims.predWords numbers 7)) = true by decide)
  exact ⟨numbers, u, 31, 31, 7, w, by decide, by decide, by decide, h⟩

theorem witness_VectorReductionsAndElements_vins : ∃ (s u : State) (t : ElemTy) (d a b : Nat) (w : LabelWord), a < 32 ∧ d < 32 ∧
    s.formConj [s.labV d, if t.isInt then s.labX a else s.labF a, s.labX b] = .ok (w, u) := by
  obtain ⟨w, u, h⟩ := ok_of (show isOk (numbers.formConj [numbers.labV 31, numbers.labF 30, numbers.labX 63]) = true by decide)
  exact ⟨numbers, u, .f16, 31, 30, 63, w, by decide, by decide, h⟩

theorem witness_VectorReductionsAndElements_vext : ∃ (s : State) (t : ElemTy) (d a b : Nat) (w : LabelWord), a < 32 ∧
    t.isInt = true ∧ d < 64 ∧ Claims.labelled s d [s.labV a, s.labX b] w := by
  obtain ⟨w, u, h⟩ := ok_of (show isOk (numbers.formConj [numbers.labV 31, numbers.labX 63]) = true by decide)
  exact ⟨numbers, .i8, 63, 31, 63, w, by decide, by decide, by decide, .inr ⟨u, h⟩⟩

theorem witness_VectorReductionsAndElements_vext_float : ∃ (s u : State) (t : ElemTy) (d a b : Nat) (w : LabelWord), a < 32 ∧
    t.isInt = false ∧ d < 32 ∧ s.formConj [s.labV a, s.labX b] = .ok (w, u) ∧ t = .f32 ∧ (s.rdX b).toNat = t.count - 1 := by
  obtain ⟨w, u, h⟩ := ok_of (show isOk ((setX numbers 63 15).formConj [(setX numbers 63 15).labV 31, (setX numbers 63 15).labX 63])
    = true by decide)
  exact ⟨setX numbers 63 15, u, .f32, 0, 31, 63, w, by decide, by decide, by decide, h, rfl, by decide⟩

theorem witness_PredicateForms : ∃ (s : State) (d a b pg : Nat) (w w2 w3 : LabelWord) (u u2 u3 : State), d < 8 ∧ pg < 8 ∧
    a < 8 ∧ b < 8 ∧ s.formConj ([s.labV a, s.labV b] ++ Claims.predWords s pg) = .ok (w, u) ∧
    s.formConj [s.labX a] = .ok (w2, u2) ∧ s.formConj [s.labP a, s.labP b] = .ok (w3, u3) := by
  obtain ⟨w, u, h⟩ := ok_of (show isOk (numbers.formConj ([numbers.labV 7, numbers.labV 6] ++ Claims.predWords numbers 7)) = true
    by decide)
  obtain ⟨w2, u2, h2⟩ := ok_of (show isOk (numbers.formConj [numbers.labX 7]) = true by decide)
  obtain ⟨w3, u3, h3⟩ := ok_of (show isOk (numbers.formConj [numbers.labP 7, numbers.labP 6]) = true by decide)
  exact ⟨numbers, 7, 7, 6, 7, w, w2, w3, u, u2, u3, by decide, by decide, by decide, by decide, h, h2, h3⟩

/-- The entries that bank B holds at reset stand in the last line. -/
def tables : State := atStore.mapDev fun d =>
  d.poke lastPlace.loc (State.reset.core.regs.bankB.toList.flatMap fun e => bytesOf 4 e.toNat)
def imageLine : List (Nat × LabelWord) × State := okOr ([], tables) (tables.loadAll 64 64 [lastLine])

theorem witness_DecodeTableLoads : ∃ (s u : State) (a : Nat) (els : List (Nat × LabelWord)), a < 64 ∧ Claims.plainCore s ∧
    Claims.classPasses s [s.labX a] ∧ (s.rdX a).toNat % 64 = 0 ∧
    s.loadAll 64 64 ((List.range 1).map fun i => s.rdX a + BitVec.ofNat 64 (64 * i)) = .ok (els, u) ∧
    (∀ e, e ∈ els → u.eval e.2 = topLabel) ∧
    tableFault (els.flatMap fun e => (List.range 16).map fun i => BitVec.ofNat 32 (e.1 / 2 ^ (32 * i))) = none :=
  ⟨tables, imageLine.2, 5, imageLine.1, by decide, (by intro r h; cases h), .inl (by decide), by decide,
    eq_ok ([], tables) (show isOk (tables.loadAll 64 64 [lastLine]) = true by decide), by decide, by decide⟩

/-! ### Witnesses: encodings, steps, matrix and copy -/

theorem witness_DecodeOfEncode : ∃ (i : Instr) (b : Nat), i.wf = true ∧ encode i = some b ∧ decodeBody b = .ok i :=
  ⟨.add 63 63 63, (encode (.add 63 63 63)).getD 0, by decide, by decide, by decide⟩

theorem witness_Hints : ∃ b : Nat, b < 2 ^ 30 ∧ b / 2 ^ 24 = 0x3F ∧ b % 2 ^ 6 ≠ 0 := ⟨2 ^ 30 - 1, by decide, by decide, by decide⟩

/-- A word that a step of `placed` runs by itself. -/
def fetched (s : State) : Place × State := okOr (lastPlace, s) ((s.elapse 1).fetchPlace s.core.status.mode s.core.pc)
def fetchedWords (s : State) : (Half × Half) × State := (fetched s).2.fetchWords (fetched s).1

theorem witness_StepRunsDecoded_lone : ∃ (s t u : State) (p : Place) (w0 w1 : Half) (i : Instr) (sw : Bool),
    Claims.mayIssue s ∧ s.core.pc.toNat % 4 = 0 ∧ (s.elapse 1).fetchPlace s.core.status.mode s.core.pc = .ok (p, t) ∧
    t.fetchWords p = ((w0, w1), u) ∧ decodeContainer s.core.pc w0 w1 = .lone i sw ∧
    Claims.operandsSettled (u.readied i) (sources i) (dests i) ∧
    ∃ r, exec i (Claims.issuing (u.readied i) s.core.pc true) = .next r ∧ Claims.completed r :=
  ⟨placed, (fetched placed).2, (fetchedWords placed).2, (fetched placed).1, (fetchedWords placed).1.1, (fetchedWords placed).1.2,
    .ori 0 0 0, false, by unfold Claims.mayIssue; decide, by decide, eq_ok (lastPlace, placed) (by decide), rfl, by decide,
    ⟨(by intro p h; cases h), (by intro v _; rfl)⟩, _, rfl, by unfold Claims.completed; decide⟩

/-- The same place with a pair of instructions. -/
def paired : State := placed.mapDev fun d => d.poke 0x1000200000 (bytesOf 4 ((encode (.bne 0 0 0)).getD 0) ++ bytesOf 4 0x23000000)

theorem witness_StepRunsDecoded_pair : ∃ (s t u : State) (p : Place) (w0 w1 : Half) (i0 i1 : Instr) (sw : Bool) (b v : State)
    (here : Word), Claims.mayIssue s ∧ s.core.pc.toNat % 4 = 0 ∧
    (s.elapse 1).fetchPlace s.core.status.mode s.core.pc = .ok (p, t) ∧ t.fetchWords p = ((w0, w1), u) ∧
    decodeContainer s.core.pc w0 w1 = .pair i0 i1 sw ∧ here = BitVec.ofNat 64 (s.core.pc.toNat / 8 * 8) ∧
    b = Claims.pairing u here i0 ∧ Claims.operandsSettled b (sources i0 ++ sources i1) (dests i0 ++ dests i1) ∧
    b.pairDone = false ∧ suspends i0 = false ∧ exec i0 b = .next v ∧ Claims.completed v ∧ v.ctx.faulted = false ∧
    ∃ r, exec i1 (Claims.atWord v (here + 4)) = .next r ∧ Claims.completed r :=
  ⟨paired, (fetched paired).2, (fetchedWords paired).2, (fetched paired).1, (fetchedWords paired).1.1, (fetchedWords paired).1.2,
    .bne 0 0 0, .ori 0 0 0, false, _, _, _, by unfold Claims.mayIssue; decide, by decide, eq_ok (lastPlace, paired) (by decide), rfl,
    by decide, rfl, rfl, ⟨(by intro p h; cases h), (by intro v _; rfl)⟩, by decide, rfl, rfl, by unfold Claims.completed; decide,
    by decide, _, rfl, by unfold Claims.completed; decide⟩

/-- The same with word1 performed already (log entry 23). -/
def pairLeft : State := paired.mapCore fun c => { c with grants := [(pairDoneSlot, 0)] }

theorem witness_StepRunsDecoded_left : ∃ (s t u : State) (p : Place) (w0 w1 : Half) (i0 i1 : Instr) (sw : Bool) (b v : State)
    (here : Word), Claims.mayIssue s ∧ s.core.pc.toNat % 4 = 0 ∧
    (s.elapse 1).fetchPlace s.core.status.mode s.core.pc = .ok (p, t) ∧ t.fetchWords p = ((w0, w1), u) ∧
    decodeContainer s.core.pc w0 w1 = .pair i0 i1 sw ∧ here = BitVec.ofNat 64 (s.core.pc.toNat / 8 * 8) ∧
    b = Claims.pairing u here i0 ∧ Claims.operandsSettled b (sources i0 ++ sources i1) (dests i0 ++ dests i1) ∧
    b.pairDone = true ∧ exec i0 b = .next v ∧ Claims.completed v ∧ v.ctx.faulted = false :=
  ⟨pairLeft, (fetched pairLeft).2, (fetchedWords pairLeft).2, (fetched pairLeft).1, (fetchedWords pairLeft).1.1,
    (fetchedWords pairLeft).1.2, .bne 0 0 0, .ori 0 0 0, false, _, _, _, by unfold Claims.mayIssue; decide, by decide,
    eq_ok (lastPlace, pairLeft) (by decide), rfl, by decide, rfl, rfl, ⟨(by intro p h; cases h), (by intro v _; rfl)⟩, by decide, rfl,
    by unfold Claims.completed; decide, by decide⟩

/-- The same place with a YIELD in word0. -/
def yielding : State := placed.mapDev fun d => d.poke 0x1000200000 (bytesOf 4 ((encode .yield).getD 0) ++ bytesOf 4 0x23000000)

theorem witness_StepRunsDecoded_suspends : ∃ (s t u : State) (p : Place) (w0 w1 : Half) (i0 i1 : Instr) (sw : Bool) (b q v r : State)
    (here : Word), Claims.mayIssue s ∧ s.core.pc.toNat % 4 = 0 ∧
    (s.elapse 1).fetchPlace s.core.status.mode s.core.pc = .ok (p, t) ∧ t.fetchWords p = ((w0, w1), u) ∧
    decodeContainer s.core.pc w0 w1 = .pair i0 i1 sw ∧ here = BitVec.ofNat 64 (s.core.pc.toNat / 8 * 8) ∧
    b = Claims.pairing u here i0 ∧ Claims.operandsSettled b (sources i0 ++ sources i1) (dests i0 ++ dests i1) ∧
    b.pairDone = false ∧ suspends i0 = true ∧ exec i0 b = .next q ∧ q.core.trapped = none ∧ q.core.stalled = false ∧ q.ctx.faulted = false ∧
    exec i1 (Claims.atWord b (here + 4)) = .next v ∧ Claims.completed v ∧
    exec i0 (Claims.atWord v here) = .next r ∧ Claims.completed r :=
  ⟨yielding, (fetched yielding).2, (fetchedWords yielding).2, (fetched yielding).1, (fetchedWords yielding).1.1,
    (fetchedWords yielding).1.2, .yield, .ori 0 0 0, false, _, _, _, _, _, by unfold Claims.mayIssue; decide, by decide,
    eq_ok (lastPlace, yielding) (by decide), rfl, by decide, rfl, rfl, ⟨(by intro p h; cases h), (by intro v _; rfl)⟩, by decide, rfl,
    rfl, by decide, by decide, by decide, rfl, by unfold Claims.completed; decide, rfl, by unfold Claims.completed; decide⟩

theorem errors_shape (d : Device) (n : Nat) : ∃ c p, d.errors n = { d with counters := c, poison := p } := by
  unfold Device.errors Device.count Device.countBy
  dsimp only
  split
  · exact ⟨_, _, rfl⟩
  · split <;> exact ⟨_, _, rfl⟩

/-- The state whose tick is due. -/
def dueTick : State := { State.reset with ctx := { State.reset.ctx with stopped := true } }.mapDev fun d => { d with cycle := 2 ^ 40 }

theorem witness_StepRunsDecoded_tick : ∃ s r : State, s.tickDue = true ∧ exec .strokeTick s = .next r ∧ r.dev.awaited = [] := by
  obtain ⟨c, p, h⟩ := errors_shape dueTick.dev.tick dueTick.fresh
  refine ⟨dueTick, _, by decide, rfl, ?_⟩
  unfold State.ticked
  rw [h]
  rfl

theorem witness_StepRunsDecoded_agenda : ∃ (s r : State) (i : Instr) (rest : List Turn), s.tickDue = false ∧
    s.agenda = .event i :: rest ∧ exec i { s with agenda := rest } = .next r ∧ r.dev.awaited = [] :=
  ⟨{ placed with agenda := [.event (.jobStart 0 0)] }, _, _, _, by decide, rfl, rfl, by decide⟩

def isNext : Out → Bool
  | .next _ => true
  | .fault _ => false
  | .refused _ => false

theorem next_of {o : Out} (h : isNext o = true) : ∃ t, o = .next t := by
  cases o with
  | next t => exact ⟨t, rfl⟩
  | fault _ => cases h
  | refused _ => cases h

theorem witness_StepsKeepMemoryCanonical : ∃ s t : State, Memory.wf s.dev.mem ∧ step s = .next t := by
  obtain ⟨t, h⟩ := next_of (show isNext (step placed) = true by decide)
  exact ⟨placed, t, by decide, h⟩

/-- Core 0 holds the lease of its engine; x6 and x7 hold a base and a stride word. -/
def leased : State := (setX (setX placed 6 page0) 7 0x0808_0000_0000_0040).mapMyEngine fun e => { e with holder := some 0, lrem := 4 }

theorem ready_leased : Claims.matrixReady leased :=
  ⟨(by intro r h; cases h), by decide, by decide, by decide, by decide, by unfold Claims.locksRoom; decide⟩

theorem witness_MatrixIssue_mma : ∃ (s u : State) (i : Instr) (shape acc : Nat) (z : Bool) (a b vs : Nat) (ctl : LabelWord)
    (f : MForm) (regs : List Nat), i.wf = true ∧ Claims.matrixReady s ∧ (i, f, regs) ∈ Claims.mmaForms shape acc z a b vs ∧
    Claims.strideAligned (s.rdX a) (s.rdX (a + 1)) ∧ Claims.strideAligned (s.rdX b) (s.rdX (b + 1)) ∧
    s.formConj (Claims.group s a (if z then 3 else 2) ++ Claims.group s b 2) = .ok (ctl, u) := by
  obtain ⟨w, u, h⟩ := ok_of (show isOk (leased.formConj (Claims.group leased 6 2 ++ Claims.group leased 6 2)) = true by decide)
  exact ⟨leased, u, .mmabb 0 0 false 6 6, 0, 0, false, 6, 6, 0, w, _, _, by decide, ready_leased, .head _,
    by unfold Claims.strideAligned; decide, by unfold Claims.strideAligned; decide, h⟩

theorem witness_MatrixIssue_mzero : ∃ (s u : State) (acc : Nat) (ctl : LabelWord), (Instr.mzero acc).wf = true ∧
    Claims.matrixReady s ∧ s.formConj [] = .ok (ctl, u) := by
  obtain ⟨w, u, h⟩ := ok_of (show isOk (leased.formConj []) = true by decide)
  exact ⟨leased, u, 1, w, by decide, ready_leased, h⟩

theorem witness_MatrixIssue_rows : ∃ (s u : State) (acc a : Nat) (ctl : LabelWord), (Instr.mlda acc a).wf = true ∧
    (Instr.msta acc a).wf = true ∧ Claims.matrixReady s ∧ Claims.strideAligned (s.rdX a) (s.rdX (a + 1)) ∧
    s.formConj (Claims.group s a 2) = .ok (ctl, u) ∧
    ∀ r, r < 32 → s.ctx.inboxByte (s.rdX a + BitVec.ofNat 64 (r * ((s.rdX (a + 1)).toNat % 2 ^ 48))).toNat
      (4 * min ((s.rdX (a + 1)).toNat / 2 ^ 48 % 2 ^ 8) 32) = none := by
  obtain ⟨w, u, h⟩ := ok_of (show isOk (leased.formConj (Claims.group leased 6 2)) = true by decide)
  exact ⟨leased, u, 1, 6, w, by decide, by decide, ready_leased, by unfold Claims.strideAligned; decide, h, by decide⟩

theorem witness_LeasesAndMatrixSync : ∃ s : State, Claims.plainCore s ∧ s.grantValue = none ∧ s.holdsLease = false ∧
    s.core.mfault = none ∧ s.core.aside = [] ∧ ∀ e, e ∈ s.myEngine.queue → e.core ≠ s.focus.core :=
  ⟨placed, plain_placed, by decide, by decide, by decide, by decide, by decide⟩

theorem witness_LeasesAndMatrixSync_grant : ∃ (s : State) (cl crew m : Nat), Claims.plainCore s ∧
    (s.mengine cl crew).holder = none ∧ (s.mengine cl crew).next = some m :=
  ⟨placed.mapMyEngine fun e => { e with requests := [(7, 255)] }, 0, 0, 7, (by intro r h; cases h), by decide, by decide⟩

/-- An MZERO of core 0 waits in its engine. -/
def zeroing : MEntry :=
  { cmd := .mzero 1, core := 0, record := 0, pc := 0, mode := .u, ctl := 0, scaleLbls := [], bankA := fill 256 0,
    bankB := fill 16 0, rows := 0, locks := [], last := false }
def queued (e : MEntry) : State := placed.mapMyEngine fun m => { m with queue := [e] }

theorem witness_LeasesAndMatrixSync_waits : ∃ s : State, Claims.plainCore s ∧ s.core.mfault = none ∧
    ∃ e, e ∈ s.myEngine.queue ∧ e.core = s.focus.core :=
  ⟨queued zeroing, (by intro r h; cases h), by decide, zeroing, .head _, rfl⟩

/-- One block with its four quarters stored. -/
def mask : State := setX placed 5 page0 |>.mapDev fun d => d.poke 0x1000208000 [1, 0, 0, 0, 0, 0, 0, 0, 0x8F, 0, 0, 0]
def maskCount : (Nat × LabelWord × State) := okOr (0, 0, mask) (mask.loadOne 4 (mask.rdX 5))
def maskIndex : (Nat × LabelWord × State) :=
  okOr (0, 0, mask) (maskCount.2.2.loadOne 4 (mask.rdX 5 + 8 + 4 * mask.rdX 0))
def maskQuarters : (Nat × List LabelWord × State) := okOr (0, [], mask)
  (maskIndex.2.2.readQuarters (maskIndex.1 % 16) [0, 1, 2, 3] (mask.rdX 5 + BitVec.ofNat 64 (2 * (maskIndex.1 / 16))) 0)

theorem ok_parts {ε α β γ : Type} {r : Except ε (α × β × γ)} {p : α × β × γ} (h : r = .ok p) : r = .ok (p.1, p.2.1, p.2.2) := h

theorem witness_LeasesAndMatrixSync_mskld : ∃ (s s0 s1 s2 s3 : State) (a b nbr idx r : Nat) (w0 w1 w : LabelWord)
    (ws : List LabelWord), a < 64 ∧ b < 64 ∧ (s.rdX a).toNat % 8 = 0 ∧ s.loadOne 4 (s.rdX a) = .ok (nbr, w0, s0) ∧
    (s.rdX b).toNat < nbr ∧ s0.loadOne 4 (s.rdX a + 8 + 4 * s.rdX b) = .ok (idx, w1, s1) ∧
    s1.readQuarters (idx % 16) [0, 1, 2, 3] (s.rdX a + BitVec.ofNat 64 (2 * (idx / 16))) 0 = .ok (r, ws, s2) ∧ ws.length = 4 ∧
    s2.formConj ([s.labX a, s.labX b, w0, w1] ++ ws) = .ok (w, s3) := by
  obtain ⟨w, s3, h⟩ := ok_of (show isOk (maskQuarters.2.2.formConj ([mask.labX 5, mask.labX 0, maskCount.2.1, maskIndex.2.1] ++
    maskQuarters.2.1)) = true by decide)
  have h0 : mask.loadOne 4 (mask.rdX 5) = .ok maskCount := eq_ok (0, 0, mask) (by decide)
  have h1 : maskCount.2.2.loadOne 4 (mask.rdX 5 + 8 + 4 * mask.rdX 0) = .ok maskIndex := eq_ok (0, 0, mask) (by decide)
  have h2 : maskIndex.2.2.readQuarters (maskIndex.1 % 16) [0, 1, 2, 3] (mask.rdX 5 + BitVec.ofNat 64 (2 * (maskIndex.1 / 16))) 0
    = .ok maskQuarters := eq_ok (0, [], mask) (by decide)
  have h3 : maskQuarters.2.1.length = 4 := by decide
  have h4 : (mask.rdX 0).toNat < maskCount.1 := by decide
  refine ⟨mask, maskCount.2.2, maskIndex.2.2, maskQuarters.2.2, s3, 5, 0, maskCount.1, maskIndex.1, maskQuarters.1, maskCount.2.1,
    maskIndex.2.1, w, maskQuarters.2.1, by decide, by decide, by decide, ?_, h4, ?_, ?_, h3, h⟩
  · exact ok_parts h0
  · exact ok_parts h1
  · exact ok_parts h2

theorem witness_MatrixCommandsRun : ∃ (s : State) (cl crew acc : Nat) (e : MEntry) (rest : List MEntry),
    (s.mengine cl crew).queue = e :: rest ∧ s.ctx.stopped = false ∧ e.cmd = .mzero acc ∧ e.last = false ∧
    (s.runCommand cl e).fail = none :=
  ⟨queued zeroing, 0, 0, 1, zeroing, [], rfl, rfl, rfl, rfl, by decide⟩

/-- An MLDA from where nothing is mapped. -/
def failing : MEntry := { zeroing with cmd := .mlda 0 0x7000_0000_0000 0x0808_0000_0000_0040 }

theorem witness_MatrixCommandsRun_fails : ∃ (s : State) (cl crew rows : Nat) (e : MEntry) (rest : List MEntry) (f : EngineFail),
    (s.mengine cl crew).queue = e :: rest ∧ s.ctx.stopped = false ∧ (s.runCommand cl e).fail = some (f, rows) := by
  have h : ((queued failing).runCommand 0 failing).fail.isSome = true := by decide
  obtain ⟨f, h⟩ := Option.isSome_iff_exists.mp h
  exact ⟨queued failing, 0, 0, f.2, failing, [], f.1, rfl, rfl, h⟩

/-- A descriptor of a copy of one line, with counter 15, from the page's second line to its third, at the page's first. -/
def oneLine : List Byte :=
  bytesOf 8 0x1F0 ++ bytesOf 8 (page0.toNat + 64) ++ bytesOf 8 (page0.toNat + 128) ++ bytesOf 4 64 ++ bytesOf 4 1 ++ bytesOf 32 0
def submitting : State := setX placed 5 page0 |>.mapDev fun d => d.poke 0x1000208000 oneLine
def descRead : VWord × LabelWord × State := okOr (0, 0, submitting) (submitting.readDescriptor (submitting.rdX 5))
def submitted : Job := jobOf descRead.1 submitting.core.dealpat
def controlled : LabelWord × State := okOr (0, submitting) (descRead.2.2.formConj [submitting.labX 5, descRead.2.1])
def lockedJob (s : State) (j : Job) : Option (List Nat × State) :=
  controlled.2.lockRanges s.focus.cl s.focus.core .copy (((boundsOf j.src j.rows j.srcLen j.sstride).1,
    (boundsOf j.src j.rows j.srcLen j.sstride).2, false) :: (controlled.2.jobLocks (Claims.crew s) j).map fun r => (r.1, r.2, true))

theorem witness_JobInstructions_jsub : ∃ (s t u v : State) (d a : Nat) (desc : VWord) (lw ctl : LabelWord) (j : Job)
    (locks : List Nat), 0 < d ∧ d < 63 ∧ a < 64 ∧ Claims.plainCore s ∧ s.readDescriptor (s.rdX a) = .ok (desc, lw, t) ∧
    j = jobOf desc s.core.dealpat ∧ t.jobOk (Claims.crew s) desc j = true ∧ j.fa = false ∧
    t.inboxCheck (t.writtenSpans (Claims.crew s) j) = .ok () ∧ t.formConj [s.labX a, lw] = .ok (ctl, u) ∧
    (Claims.unit u s.focus.cl (Claims.crew s)).jobs.length < Config.copyQueue ∧
    ((Claims.unit u s.focus.cl (Claims.crew s)).jobs.filter fun x => x.core == s.focus.core).length < Config.copyPerCore ∧
    u.lockRanges s.focus.cl s.focus.core .copy (((boundsOf j.src j.rows j.srcLen j.sstride).1,
      (boundsOf j.src j.rows j.srcLen j.sstride).2, false) ::
        (u.jobLocks (Claims.crew s) j).map fun r => (r.1, r.2, true)) = some (locks, v) := by
  have h : (lockedJob submitting submitted).isSome = true := by decide
  obtain ⟨f, h⟩ := Option.isSome_iff_exists.mp h
  exact ⟨submitting, descRead.2.2, controlled.2, f.2, 62, 5, descRead.1, descRead.2.1, controlled.1, submitted, f.1, by decide,
    by decide, by decide, (by intro r h; cases h), eq_ok (0, 0, submitting) (by decide), rfl, by decide, by decide, by decide,
    eq_ok (0, submitting) (by decide), by decide, by decide, h⟩

/-- The same job of core 0 with id 1. -/
def job (st : JobState) : Job :=
  { jobOf 0 0 with
    id := 1, state := st, k := 15, fk := true, src := page0 + 64, dst := page0 + 128, len := 64, rows := 1 }
def unitWith (us : CopyUnit) (s : State) : State := s.mapCopy 0 0 fun _ => us

/-- The copy unit of core 0 is full. -/
def crowded : State := unitWith ⟨List.replicate Config.copyQueue (job .queued), 0, []⟩ submitting
def crowdedRead : VWord × LabelWord × State := okOr (0, 0, crowded) (crowded.readDescriptor page0)

theorem witness_JobInstructions_full : ∃ (s t u : State) (d a : Nat) (desc : VWord) (lw ctl : LabelWord) (j : Job),
    0 < d ∧ d < 63 ∧ a < 64 ∧ Claims.plainCore s ∧ s.readDescriptor (s.rdX a) = .ok (desc, lw, t) ∧
    j = jobOf desc s.core.dealpat ∧ t.jobOk (Claims.crew s) desc j = true ∧ j.fa = false ∧
    t.inboxCheck (t.writtenSpans (Claims.crew s) j) = .ok () ∧ t.formConj [s.labX a, lw] = .ok (ctl, u) ∧
    Config.copyQueue ≤ (Claims.unit u s.focus.cl (Claims.crew s)).jobs.length := by
  refine ⟨crowded, crowdedRead.2.2, (okOr (0, crowded) (crowdedRead.2.2.formConj [crowded.labX 5, crowdedRead.2.1])).2, 1, 5,
    crowdedRead.1, crowdedRead.2.1, (okOr (0, crowded) (crowdedRead.2.2.formConj [crowded.labX 5, crowdedRead.2.1])).1,
    jobOf crowdedRead.1 crowded.core.dealpat, by decide, by decide, by decide, (by intro r h; cases h), eq_ok (0, 0, crowded) (by decide),
    rfl, by decide, by decide, by decide, eq_ok (0, crowded) (by decide), by decide⟩

theorem witness_JobInstructions_polled : ∃ (s : State) (d a : Nat) (j : Job), d < 64 ∧ a < 64 ∧ Claims.plainCore s ∧
    s.findJob s.focus.cl s.focus.core (s.rdX a) = some j ∧ j.state ≠ .running :=
  ⟨setX (unitWith ⟨[job .awaiting], 1, []⟩ placed) 5 1, 63, 5, job .awaiting, by decide, by decide, (by intro r h; cases h),
    rfl, by decide⟩

theorem witness_JobInstructions_running : ∃ (s : State) (d a : Nat) (j : Job), d < 64 ∧ a < 64 ∧ Claims.plainCore s ∧
    s.findJob s.focus.cl s.focus.core (s.rdX a) = some j ∧ j.state = .running :=
  ⟨setX (unitWith ⟨[job .running], 1, []⟩ placed) 5 1, 63, 5, job .running, by decide, by decide, (by intro r h; cases h),
    rfl, by decide⟩

theorem witness_JobInstructions_unknown : ∃ (s : State) (d a : Nat), d < 64 ∧ a < 64 ∧ Claims.plainCore s ∧
    s.findJob s.focus.cl s.focus.core (s.rdX a) = none ∧
    ∀ e, e ∈ (Claims.unit s s.focus.cl (Claims.crew s)).kept → e.1 = s.rdX a → e.2.2 ≠ s.focus.core :=
  ⟨placed, 63, 5, by decide, by decide, plain_placed, by decide, by decide⟩

theorem witness_JobInstructions_kept : ∃ (s : State) (d a : Nat) (w : Word), d < 64 ∧ a < 64 ∧ Claims.plainCore s ∧
    s.findJob s.focus.cl s.focus.core (s.rdX a) = none ∧ w ≠ 0xFF ∧
    ((Claims.unit s s.focus.cl (Claims.crew s)).kept.find? fun e => e.1 == s.rdX a && e.2.2 == s.focus.core)
      = some (s.rdX a, w, s.focus.core) :=
  ⟨setX (unitWith ⟨[], 1, [(1, 0x303, 0)]⟩ placed) 5 1, 63, 5, 0x303, by decide, by decide, (by intro r h; cases h), rfl,
    by decide, rfl⟩

theorem witness_JobsRun_start : ∃ (s : State) (cl crew : Nat) (j : Job),
    ((Claims.unit s cl crew).jobs.find? fun x => x.state == .queued) = some j :=
  ⟨unitWith ⟨[job .running, { job .queued with id := 2 }], 2, []⟩ placed, 0, 0, { job .queued with id := 2 }, rfl⟩

/-- The machine runs a job. -/
def working (j : Job) : State := unitWith ⟨[j], 1, []⟩ submitting

def completes : JobEnd → Bool
  | .complete _ _ _ => true
  | .replay _ _ => false

theorem complete_of {e : JobEnd} (h : completes e = true) : ∃ s code index, e = .complete s code index := by
  cases e with
  | complete s c i => exact ⟨s, c, i, rfl⟩
  | replay _ _ => cases h

theorem witness_JobsRun_complete : ∃ (s u : State) (cl crew code index : Nat) (j : Job), Claims.runs s cl crew j ∧
    s.runJob cl crew j = .complete u code index := by
  obtain ⟨u, c, i, h⟩ := complete_of (show completes ((working (job .running)).runJob 0 0 (job .running)) = true by decide)
  exact ⟨working (job .running), u, 0, 0, c, i, job .running, rfl, h⟩

/-- What a replay gives: its state and failure. -/
def replays : JobEnd → Option (State × EngineFail)
  | .complete _ _ _ => none
  | .replay s f => some (s, f)

theorem replay_of {e : JobEnd} {p : State × EngineFail} (h : replays e = some p) : e = .replay p.1 p.2 := by
  cases e with
  | complete _ _ _ => cases h
  | replay s f => cases h; rfl

/-- A job whose source line carries an uncorrectable error, and a REDUCE whose source is not mapped. -/
def poisoned (b : Bool) : Job := { job .running with retried := b }
def broken (b : Bool) : State := (working (poisoned b)).mapDev fun d => { d with poison := [0x1000208040] }
def unmapped : Job := { job .running with kind := 4, len := 16, src := 0x7000_0000_0000 }

theorem witness_JobsRun_error (b : Bool) : ∃ (s u : State) (cl crew : Nat) (j : Job) (f : EngineFail), Claims.runs s cl crew j ∧
    s.runJob cl crew j = .replay u f ∧ replayCode f.deny.cause = none ∧ j.retried = b := by
  have h : (replays ((broken b).runJob 0 0 (poisoned b))).isSome = true := by cases b <;> decide
  have k : ∀ p ∈ replays ((broken b).runJob 0 0 (poisoned b)), replayCode p.2.deny.cause = none := by cases b <;> decide
  obtain ⟨p, h⟩ := Option.isSome_iff_exists.mp h
  exact ⟨broken b, p.1, 0, 0, poisoned b, p.2, by cases b <;> rfl, replay_of h, k p h, rfl⟩

theorem witness_JobsRun_fault : ∃ (s u v : State) (cl crew cause : Nat) (j : Job) (f : EngineFail), Claims.runs s cl crew j ∧
    s.runJob cl crew j = .replay u f ∧ replayCode f.deny.cause = some cause ∧
    u.postRecord cl crew j.id cause (f.deny.info % 4) f.deny.addr = some v := by
  have h : (replays ((working unmapped).runJob 0 0 unmapped)).any (fun p => replayCode p.2.deny.cause == some 2 &&
    (p.1.postRecord 0 0 unmapped.id 2 (p.2.deny.info % 4) p.2.deny.addr).isSome) = true := by decide
  obtain ⟨p, hp, h⟩ := (Option.any_eq_true _ _).mp h
  simp only [Bool.and_eq_true, beq_iff_eq] at h
  obtain ⟨v, hv⟩ := Option.isSome_iff_exists.mp h.2
  exact ⟨working unmapped, p.1, v, 0, 0, 2, unmapped, p.2, rfl, replay_of hp, h.1, hv⟩

theorem witness_JobsRun_transform : ∃ (s : State) (cl crew : Nat) (j : Job), Claims.runs s cl crew j ∧ j.kind = 2 :=
  ⟨working { job .running with kind := 2 }, 0, 0, { job .running with kind := 2 }, rfl, rfl⟩

/-! ### Witnesses: remote access, streams, near memory -/

/-- x8 to x11 hold the group of a GET of 64 bytes of core 1's store to the second line of core 0's. -/
def getting : State := setX (setX (setX (setX placed 8 (2 ^ 40 + 1)) 9 (64 * 2 ^ 40 + 128)) 10 64) 11 (page0 + 4)
def getIndex : List Nat × List LabelWord × State := okOr ([], [], getting) (getting.readIndex (getting.remoteOf .get 15 8))
def getSide : State := okOr getting (getIndex.2.2.sideCheck .write 64 64)
def getLabel : LabelWord × State := okOr (0, getting) (getSide.formConj (Claims.group getting 8 4 ++ getIndex.2.1))
def getOp : RemoteOp := { getting.remoteOf .get 15 8 with index := getIndex.1 }
def getLocks : List Nat × State := (getLabel.2.lockRanges 0 0 .remote (getLabel.2.remoteRanges getOp)).getD ([], getting)

theorem some_getD {α : Type} (d : α) {o : Option α} (h : o.isSome = true) : o = some (o.getD d) := by
  cases o with
  | some _ => rfl
  | none => cases h

theorem witness_RemoteOperations_issue : ∃ (s t u v w : State) (i : Instr) (kind : RemoteKind) (k a : Nat) (index locks : List Nat)
    (ws : List LabelWord) (ctl : LabelWord) (r : RemoteOp), (i, kind) ∈ Claims.remoteForms k a ∧ i.wf = true ∧ Claims.plainCore s ∧
    s.remoteOk a (s.remoteOf kind k a) = true ∧ s.readIndex (s.remoteOf kind k a) = .ok (index, ws, t) ∧
    r = { s.remoteOf kind k a with index := index } ∧ s.nearInbox (s.remoteOf kind k a) = .ok () ∧
    (∀ p, p ∈ r.remoteSpans → p.1 + p.2 ≤ 2 ^ 18) ∧ s.farInbox r = .ok () ∧
    t.sideCheck (if kind.sends then .read else .write) r.localOff r.localLen = .ok u ∧
    u.formConj (Claims.group s a 4 ++ ws) = .ok (ctl, v) ∧ r.localLen ≠ 0 ∧
    v.lockRanges s.focus.cl s.focus.core .remote (v.remoteRanges r) = some (locks, w) := by
  have h0 : getting.readIndex (getting.remoteOf .get 15 8) = .ok getIndex := eq_ok ([], [], getting) (by decide)
  have h1 : getIndex.2.2.sideCheck .write 64 64 = .ok getSide := eq_ok getting (by decide)
  have h2 : getSide.formConj (Claims.group getting 8 4 ++ getIndex.2.1) = .ok getLabel := eq_ok (0, getting) (by decide)
  have h3 : getLabel.2.lockRanges 0 0 .remote (getLabel.2.remoteRanges getOp) = some getLocks := some_getD _ (by decide)
  exact ⟨getting, getIndex.2.2, getSide, getLabel.2, getLocks.2, .get 15 8, .get, 15, 8, getIndex.1, getLocks.1, getIndex.2.1,
    getLabel.1, getOp, .head _, by decide, (by intro r h; cases h), by decide, ok_parts h0, rfl, by decide, by decide, by decide, h1, h2,
    by decide, h3⟩

/-- The same with no bytes to move. -/
def nothing : State := setX getting 9 128
def nothingIndex : List Nat × List LabelWord × State := okOr ([], [], nothing) (nothing.readIndex (nothing.remoteOf .send 0 8))
def nothingSide : State := okOr nothing (nothingIndex.2.2.sideCheck .read 64 0)
def nothingOp : RemoteOp := { nothing.remoteOf .send 0 8 with index := nothingIndex.1 }

theorem witness_RemoteOperations_empty : ∃ (s t u v : State) (i : Instr) (kind : RemoteKind) (k a : Nat) (index : List Nat)
    (ws : List LabelWord) (ctl : LabelWord) (r : RemoteOp), (i, kind) ∈ Claims.remoteForms k a ∧ i.wf = true ∧ Claims.plainCore s ∧
    s.remoteOk a (s.remoteOf kind k a) = true ∧ s.readIndex (s.remoteOf kind k a) = .ok (index, ws, t) ∧
    r = { s.remoteOf kind k a with index := index } ∧ s.nearInbox (s.remoteOf kind k a) = .ok () ∧
    (∀ p, p ∈ r.remoteSpans → p.1 + p.2 ≤ 2 ^ 18) ∧ s.farInbox r = .ok () ∧
    t.sideCheck (if kind.sends then .read else .write) r.localOff r.localLen = .ok u ∧
    u.formConj (Claims.group s a 4 ++ ws) = .ok (ctl, v) ∧ r.localLen = 0 := by
  have h0 : nothing.readIndex (nothing.remoteOf .send 0 8) = .ok nothingIndex := eq_ok ([], [], nothing) (by decide)
  have h1 : nothingIndex.2.2.sideCheck .read 64 0 = .ok nothingSide := eq_ok nothing (by decide)
  obtain ⟨w, v, h2⟩ := ok_of (show isOk (nothingSide.formConj (Claims.group nothing 8 4 ++ nothingIndex.2.1)) = true by decide)
  exact ⟨nothing, nothingIndex.2.2, nothingSide, v, .send 0 8, .send, 0, 8, nothingIndex.1, nothingIndex.2.1, w, nothingOp,
    .tail _ (.tail _ (.head _)), by decide, (by intro r h; cases h), by decide, ok_parts h0, rfl, by decide, by decide, by decide, h1, h2,
    by decide⟩

/-- Two items of a SEND to another device, and none has landed. -/
def abroad : RemoteOp :=
  { id := 5, kind := .send, core := 0, record := 0, k := 15, mode := .u, ctl := 0, target := none, place := 0, bytes := 128, n := 0
    esize := 4, tk := false, tcounter := 0, remote := 0, localOff := 0, indexOff := 0, index := [], handler := page0, landed := []
    locks := [], targetLocks := [] }
/-- Node 0 of the torus is reachable. -/
def sending (r : RemoteOp) : State := (placed.mapCluster 0 fun k => { k with remotes := [r] }).mapCtx fun k =>
  { k with desc := { k.desc with routes := [(0, ⟨4, 7⟩)] } }

theorem witness_RemoteOperations_land : ∃ (s : State) (cl i : Nat) (r : RemoteOp), Claims.inFlight s cl r ∧ s.ctx.stopped = false ∧
    r.target = none ∧ s.served r = true ∧ r.kind.sends = true ∧ i < r.items.length ∧ i ∉ r.landed ∧ r.landed.length + 1 ≠ r.items.length :=
  ⟨sending abroad, 0, 1, abroad, rfl, rfl, rfl, by decide, rfl, by decide, by decide, by decide⟩

theorem witness_RemoteOperations_last : ∃ (s : State) (cl i : Nat) (r : RemoteOp), Claims.inFlight s cl r ∧ s.ctx.stopped = false ∧
    r.target = none ∧ s.served r = true ∧ r.kind.sends = true ∧ i < r.items.length ∧ i ∉ r.landed ∧ r.landed.length + 1 = r.items.length :=
  ⟨sending { abroad with landed := [1] }, 0, 0, { abroad with landed := [1] }, rfl, rfl, rfl, by decide, rfl, by decide, by decide,
    by decide⟩

theorem witness_RemoteOperations_fails : ∃ (s : State) (cl : Nat) (r : RemoteOp), Claims.inFlight s cl r ∧ s.ctx.stopped = false ∧
    r.target = none ∧ s.served r = true ∧ s.linked r = true ∧ r.landed = [] ∧ r.handler ≠ 0 ∧ (s.coreAt cl r.core).upcalls.length < Config.upcallFifo :=
  ⟨sending abroad, 0, abroad, rfl, rfl, rfl, by decide, by decide, rfl, by decide, by decide⟩

/-- x8 to x11 hold the pattern of a stream. -/
def streaming : State := setX (setX (setX (setX placed 8 page0) 9 (2 ^ 16 * (2 + 2 ^ 16) + 4)) 10 64) 11 0

theorem witness_Streams_smode : ∃ (s u : State) (v a : Nat) (ctl : LabelWord), 28 ≤ v ∧ v < 32 ∧ a < 61 ∧ Claims.plainCore s ∧
    (s.rdX a).toNat % 64 = 0 ∧ s.streamOk a (s.streamOf a) = true ∧ s.formConj (Claims.group s a 4) = .ok (ctl, u) := by
  obtain ⟨w, u, h⟩ := ok_of (show isOk (streaming.formConj (Claims.group streaming 8 4)) = true by decide)
  exact ⟨streaming, u, 31, 8, w, by decide, by decide, by decide, (by intro r h; cases h), by decide, by decide, h⟩

/-- A stream of v31 of which one strip is there. -/
def pattern : Stream := ⟨page0, 4, 2, 1, 64, 0, 0, 0, 0, [(0, 0)]⟩
def strips : State := placed.mapCore fun c => { c with streams := [(31, pattern)] }

theorem witness_Streams_strip : ∃ (s u : State) (v cl core : Nat) (t : Stream) (strip : VWord × LabelWord), 28 ≤ v ∧ v < 32 ∧
    s.ctx.stopped = false ∧ lookup (s.coreAt cl core).streams v = some t ∧ t.pos + t.ahead.length < t.n0 * t.n1 * t.n2 ∧
    s.readStrip ⟨cl, (s.coreAt cl core).status.mode, .core core⟩ t (t.pos + t.ahead.length) = .ok (strip, u) := by
  obtain ⟨w, u, h⟩ := ok_of (show isOk (strips.readStrip ⟨0, .u, .core 0⟩ pattern 1) = true by decide)
  exact ⟨strips, u, 31, 0, 0, pattern, w, by decide, by decide, rfl, rfl, by decide, h⟩

/-- x8 to x12 hold rows of the page, and a place for the status. -/
def rows : State := setX (setX (setX placed 8 page0) 9 (page0 + 1024)) 10 (page0 + 2048)
def rowOps : List (RowRole × Nat) := [(.dst, 8), (.src, 9), (.stat, 10)]
def rowPlaces : List (RowRole × Place) × State := okOr ([], rows) (rows.rowTranslate (rowOps.map fun r => (r.1, rows.rdX r.2)))
def rowLabel : LabelWord × State := okOr (0, rows) (rowPlaces.2.formConj (rowOps.map fun r => rows.labX r.2))
def rowLocks : List Nat × State := (rowLabel.2.lockRanges 0 0 .row ((rowPlaces.1.filter fun p => decide (p.1 ≠ .stat)).map fun p =>
  (p.2.va.toNat, p.1.bytes, decide (p.1 = RowRole.dst)))).getD ([], rows)

theorem witness_RowOperations_issue : ∃ (s t u v : State) (i : Instr) (kind : RowKind) (k a : Nat) (regs ops : List (RowRole × Nat))
    (ps : List (RowRole × Place)) (ctl : LabelWord) (locks : List Nat), i.wf = true ∧ Claims.plainCore s ∧
    (i, kind, regs) ∈ Claims.rowForms k a ∧ ops = (.dst, a) :: regs ∧
    s.rowAlign (ops.map fun r => (r.1, s.rdX r.2)) = .ok () ∧ s.inboxCheck (writtenBytes (ops.map fun r => (r.1, s.rdX r.2))) = .ok () ∧
    s.rowTranslate (ops.map fun r => (r.1, s.rdX r.2)) = .ok (ps, t) ∧ s.rowPermit ps = .ok () ∧
    t.formConj (ops.map fun r => s.labX r.2) = .ok (ctl, u) ∧
    (s.myCluster.rowq.filter fun r => r.core == s.focus.core && r.kind.isRow).length < Config.rowOpsPerCore ∧
    u.lockRanges s.focus.cl s.focus.core .row ((ps.filter fun p => decide (p.1 ≠ .stat)).map fun p =>
      (p.2.va.toNat, p.1.bytes, decide (p.1 = RowRole.dst))) = some (locks, v) := by
  have h0 : rows.rowTranslate (rowOps.map fun r => (r.1, rows.rdX r.2)) = .ok rowPlaces := eq_ok ([], rows) (by decide)
  have h1 : rowPlaces.2.formConj (rowOps.map fun r => rows.labX r.2) = .ok rowLabel := eq_ok (0, rows) (by decide)
  have h2 : rowLabel.2.lockRanges 0 0 .row ((rowPlaces.1.filter fun p => decide (p.1 ≠ .stat)).map fun p =>
    (p.2.va.toNat, p.1.bytes, decide (p.1 = RowRole.dst))) = some rowLocks := some_getD _ (by decide)
  exact ⟨rows, rowPlaces.2, rowLabel.2, rowLocks.2, .rcopy 15 8, .rcopy, 15, 8, _, rowOps, rowPlaces.1, rowLabel.1, rowLocks.1,
    by decide, (by intro r h; cases h), .head _, rfl, by decide, by decide, h0, by decide, h1, by decide, h2⟩

def promoOps : List (RowRole × Nat) := [(.src, 9), (.stat, 10)]
def promoPlaces : List (RowRole × Place) × State := okOr ([], rows) (rows.rowTranslate (promoOps.map fun r => (r.1, rows.rdX r.2)))

theorem witness_RowOperations_promo : ∃ (s t : State) (i : Instr) (kind : RowKind) (pin : Bool) (k a : Nat)
    (ops : List (RowRole × Nat)) (ps : List (RowRole × Place)), i.wf = true ∧ Claims.plainCore s ∧
    (i, kind) ∈ Claims.promoForms pin k a ∧ ops = [(.src, a), (.stat, a + 1)] ∧
    Claims.classPasses s [s.labX a, s.labX (a + 1)] ∧ s.rowAlign (ops.map fun r => (r.1, s.rdX r.2)) = .ok () ∧
    s.inboxCheck (writtenBytes (ops.map fun r => (r.1, s.rdX r.2))) = .ok () ∧
    s.rowTranslate (ops.map fun r => (r.1, s.rdX r.2)) = .ok (ps, t) ∧
    s.rowPermit (ps.filter fun p => decide (p.1 ≠ .stat)) = .ok () :=
  ⟨rows, promoPlaces.2, .rpromo true 15 9, .rpromo true, true, 15, 9, promoOps, promoPlaces.1, by decide, (by intro r h; cases h),
    .head _, rfl, .inl (by decide), by decide, by decide, eq_ok ([], rows) (by decide), by decide⟩

/-- Row operations in the queue; operands in rows 32 and 511 of subarray 3 of the row region. -/
def operand (row : Nat) (lt : Bool) : RowOperand := ⟨page0, row * 2 ^ 31 + 3 * 2 ^ 10, 2 ^ 40 + row * 2 ^ 31 + 3 * 2 ^ 10, lt, false⟩
def rowOp (kind : RowKind) (os : List RowOperand) : RowOp := ⟨7, kind, 0, 0, 15, .u, 0, os, none, []⟩
def row (kind : RowKind) (os : List RowOperand) : State := placed.mapCluster 0 fun k => { k with rowq := [rowOp kind os] }

/-- The source line has a label, and the destination's page has no labels. -/
def labelledRow : State :=
  { labels with dev := (row .rcopy [operand 32 false, operand 511 true]).dev.setRawLabel (511 * 2 ^ 31 + 3 * 2 ^ 10) (labels.labX 5) }
  |>.mapCluster 0 fun k => { k with rowq := [rowOp .rcopy [operand 32 false, operand 511 true]] }

def failure {ε α : Type} (d : ε) : Except ε α → ε
  | .ok _ => d
  | .error e => e

theorem eq_error {ε α : Type} (d : ε) {r : Except ε α} (h : isOk r = false) : r = .error (failure d r) := by
  cases r with
  | ok _ => cases h
  | error _ => rfl

theorem witness_RowOperations_fails : ∃ (s : State) (cl code : Nat) (r : RowOp) (dst : RowOperand) (rest : List RowOperand),
    Claims.queuedRow s cl r ∧ r.operands = dst :: rest ∧ r.kind.isRow = true ∧ s.ctx.stopped = false ∧
    (s.rowsFound r).rowLines cl r dst rest (List.range 16) = .error code :=
  ⟨labelledRow, 0, _, rowOp .rcopy [operand 32 false, operand 511 true], operand 32 false, [operand 511 true], rfl, rfl, rfl, rfl,
    eq_error 0 (by decide)⟩

theorem witness_RowOperations_runs : ∃ (s u : State) (cl : Nat) (r : RowOp) (dst : RowOperand) (rest : List RowOperand)
    (ls : List RowLine), Claims.queuedRow s cl r ∧ r.operands = dst :: rest ∧ r.kind.isRow = true ∧ s.ctx.stopped = false ∧
    (s.rowsFound r).rowLines cl r dst rest (List.range 16) = .ok (ls, u) := by
  obtain ⟨ls, u, h⟩ := ok_of (show isOk (((row .rcopy [operand 32 true, operand 511 true]).rowsFound
    (rowOp .rcopy [operand 32 true, operand 511 true])).rowLines 0
    (rowOp .rcopy [operand 32 true, operand 511 true]) (operand 32 true) [operand 511 true] (List.range 16)) = true by decide)
  exact ⟨row .rcopy [operand 32 true, operand 511 true], u, 0, rowOp .rcopy [operand 32 true, operand 511 true], operand 32 true,
    [operand 511 true], ls, rfl, rfl, rfl, rfl, h⟩

theorem witness_RowOperations_promotes : ∃ (s : State) (cl : Nat) (r : RowOp) (dst : RowOperand) (rest : List RowOperand) (pin : Bool),
    Claims.queuedRow s cl r ∧ r.operands = dst :: rest ∧ r.kind = .rpromo pin ∧ s.ctx.stopped = false ∧ dst.farRow s.dev ≠ none :=
  ⟨row (.rpromo true) [operand 32 true], 0, rowOp (.rpromo true) [operand 32 true], operand 32 true, [], true, rfl, rfl, rfl, rfl, by decide⟩

theorem witness_RowOperations_demotes : ∃ (s : State) (cl sub rw : Nat) (r : RowOp) (dst : RowOperand) (rest : List RowOperand),
    Claims.queuedRow s cl r ∧ r.operands = dst :: rest ∧ r.kind = .rdemo ∧ s.ctx.stopped = false ∧ dst.farRow s.dev = some (sub, rw) ∧
    ((s.dev.slotsOf sub).filter fun e => e.2.row == rw).length ≤ 1 ∧ slotWith (s.dev.slotsOf sub) rw = some 7 :=
  ⟨(row .rdemo [operand 511 true]).mapDev fun d => { d with slots := [(3, [(7, ⟨511, true, none, 0⟩)])] }, 0, 3, 511,
    rowOp .rdemo [operand 511 true], operand 511 true, [], rfl, rfl, rfl, rfl, by decide, by decide, by decide⟩

theorem ok_pair {ε α β : Type} {r : Except ε (α × β)} {p : α × β} (h : r = .ok p) : r = .ok (p.1, p.2) := h

/-- A descriptor of one bag of one row of the page, at x5; the index list is a zero. -/
def iredDesc : List Byte :=
  bytesOf 8 (page0.toNat + 1024) ++ bytesOf 8 (page0.toNat + 64) ++ bytesOf 8 (page0.toNat + 2048) ++ bytesOf 8 (page0.toNat + 3072) ++ bytesOf 4 64 ++
    bytesOf 4 64 ++ bytesOf 2 64 ++ bytesOf 2 1 ++ bytesOf 2 1 ++ bytesOf 2 0 ++ bytesOf 4 1 ++ bytesOf 12 0
def reducing : State := setX placed 5 page0 |>.mapDev fun d => d.poke 0x1000208000 iredDesc
def iredRead : VWord × LabelWord × State := okOr (0, 0, reducing) (reducing.readDescriptor page0)
def iredOf : IredDesc := iredDescOf iredRead.1
def iredList : List Byte × List LabelWord × State :=
  okOr ([], [], reducing) (iredRead.2.2.plainRead (piecesOf iredOf.idx (4 * (iredOf.pool * iredOf.nbag))))
def iredIdx : List Nat := (List.range (iredOf.pool * iredOf.nbag)).map fun i => natOf ((iredList.1.drop (4 * i)).take 4)
def iredTables : List Place × State := okOr ([], reducing) (iredList.2.2.translateAll reducing.me .read
  (iredIdx.map fun i => rowVas (iredOf.table + BitVec.ofNat 64 (i * iredOf.tstride)) iredOf.rowb).flatten)
def iredDsts : List Place × State := okOr ([], reducing) (iredTables.2.translateAll reducing.me .write
  ((List.range iredOf.nbag).map fun b => rowVas (iredOf.dst + BitVec.ofNat 64 (b * iredOf.dstride)) iredOf.dstb).flatten)
def iredLabel : LabelWord × State := okOr (0, reducing) (iredDsts.2.formConj (reducing.labX 5 :: iredRead.2.1 :: iredList.2.1))
def iredRanges : List (Nat × Nat × Bool) :=
  [((boundsOf iredOf.dst iredOf.nbag iredOf.dstb iredOf.dstride).1, (boundsOf iredOf.dst iredOf.nbag iredOf.dstb iredOf.dstride).2,
    true), (iredOf.idx.toNat, 4 * (iredOf.pool * iredOf.nbag), false)]
def iredLocks : List Nat × State := (iredLabel.2.lockRanges 0 0 .ired iredRanges).getD ([], reducing)

theorem witness_BaseDieReduce_issue : ∃ (s s0 s1 s2 s3 s4 v : State) (k a : Nat) (raw : VWord) (lw ctl : LabelWord) (d : IredDesc)
    (bs : List Byte) (ws : List LabelWord) (idx locks : List Nat) (tp dp : List Place), k < 16 ∧ a < 64 ∧
    Claims.plainCore s ∧ s.readDescriptor (s.rdX a) = .ok (raw, lw, s0) ∧ d = iredDescOf raw ∧ d.ok raw = true ∧
    s.inboxCheck d.written = .ok () ∧
    s0.plainRead (piecesOf d.idx (4 * (d.pool * d.nbag))) = .ok (bs, ws, s1) ∧
    idx = (List.range (d.pool * d.nbag)).map (fun i => natOf ((bs.drop (4 * i)).take 4)) ∧ (∀ i, i ∈ idx → i < d.nrows) ∧
    s1.translateAll s.me .read (idx.map fun i => rowVas (d.table + BitVec.ofNat 64 (i * d.tstride)) d.rowb).flatten = .ok (tp, s2) ∧
    s2.translateAll s.me .write ((List.range d.nbag).map fun b => rowVas (d.dst + BitVec.ofNat 64 (b * d.dstride)) d.dstb).flatten
      = .ok (dp, s3) ∧
    permAll s.me .read tp = .ok () ∧ permAll s.me .write dp = .ok () ∧ (∀ p, p ∈ tp ++ dp → p.loc < 2 ^ 40 ∧ p.cmp = false) ∧
    s3.formConj (s.labX a :: lw :: ws) = .ok (ctl, s4) ∧
    (s.myCluster.ireds.filter fun r => r.core == s.focus.core).length < Config.iredsPerCore ∧
    s4.lockRanges s.focus.cl s.focus.core .ired [((boundsOf d.dst d.nbag d.dstb d.dstride).1,
      (boundsOf d.dst d.nbag d.dstb d.dstride).2, true), (d.idx.toNat, 4 * (d.pool * d.nbag), false)] = some (locks, v) := by
  have h0 : reducing.readDescriptor page0 = .ok iredRead := eq_ok (0, 0, reducing) (by decide)
  have h1 : iredRead.2.2.plainRead (piecesOf iredOf.idx (4 * (iredOf.pool * iredOf.nbag))) = .ok iredList :=
    eq_ok ([], [], reducing) (by decide)
  have h2 : iredList.2.2.translateAll reducing.me .read (iredIdx.map fun i =>
    rowVas (iredOf.table + BitVec.ofNat 64 (i * iredOf.tstride)) iredOf.rowb).flatten = .ok iredTables :=
    eq_ok ([], reducing) (by decide)
  have h3 : iredTables.2.translateAll reducing.me .write ((List.range iredOf.nbag).map fun b =>
    rowVas (iredOf.dst + BitVec.ofNat 64 (b * iredOf.dstride)) iredOf.dstb).flatten = .ok iredDsts := eq_ok ([], reducing) (by decide)
  have h4 : iredDsts.2.formConj (reducing.labX 5 :: iredRead.2.1 :: iredList.2.1) = .ok iredLabel := eq_ok (0, reducing) (by decide)
  have h5 : iredLabel.2.lockRanges 0 0 .ired iredRanges = some iredLocks := some_getD _ (by decide)
  have h6 : iredOf.ok iredRead.1 = true := by decide
  exact ⟨reducing, iredRead.2.2, iredList.2.2, iredTables.2, iredDsts.2, iredLabel.2, iredLocks.2, 15, 5, iredRead.1, iredRead.2.1,
    iredLabel.1, iredOf, iredList.1, iredList.2.1, iredIdx, iredLocks.1, iredTables.1, iredDsts.1, by decide, by decide,
    (by intro r h; cases h), ok_parts h0, rfl, h6, by decide, ok_parts h1, rfl, by decide, ok_pair h2, ok_pair h3, by decide, by decide, by decide, ok_pair h4, by decide,
    h5⟩

/-- An IRED in flight. -/
def ired1 : Ired := ⟨3, true, 0, 0, 15, .u, 0, 0, 64, [], 0, []⟩

theorem witness_BaseDieReduce_runs : ∃ (s : State) (cl k a : Nat) (op : Ired), k < 16 ∧ a < 64 ∧ s.ctx.stopped = false ∧
    ((s.cluster cl).ireds.find? fun r => r.id == op.id) = some op :=
  ⟨placed.mapCluster 0 fun k => { k with ireds := [ired1] }, 0, 0, 0, ired1, by decide, by decide, rfl, rfl⟩

/-! ### Witnesses: edge programs -/

/-- A run of one vertex without edges, over arrays in the page. -/
def graph : EdgeDesc :=
  { n := 1, op := 0, mode0 := false, nosw := true, settle := false, g := 15, limit := 1, alpha := 0, beta := 0, state := page0
    ooff := page0 + 64, oidx := page0 + 128, oval := 0, ioff := page0 + 192, iidx := page0 + 256, ival := 0, f0 := page0 + 320
    f1 := page0 + 384, unf := page0 + 448, work := page0 + 512, entry := page0 + 1024, arg := 0, statva := 0 }
def run (ph : RunPhase) : EdgeRun := { newRun graph page0 0 .u [0] with phase := ph, joins := [(0, (15, 0))] }

/-- Core 0 waits for the unit, or runs an invocation. -/
def role (i : Option Invocation) : EdgeRole := ⟨15, Regs.reset, 0x800000000, ⟨0x800000000, true, false⟩, i, 0⟩
def sweeping (r : EdgeRun) (i : Option Invocation) : State :=
  (placed.mapCore fun c =>
    { c with edge := some (role i), gang := some ⟨0, 1⟩, park := if i.isNone then some .edgerun else none }).mapCluster 0 fun k => { k with runs := [r] }

theorem witness_EdgeReturns_run : ∃ (s : State) (k a : Nat), k < 16 ∧ a < 64 ∧ s.grantValue ≠ none :=
  ⟨granted, 15, 63, by decide, by decide, by decide⟩

/-- An invocation of a pulling run, on a core whose STRICT is 1. -/
def strictly : State := (sweeping { run .running with pull := true, scan := [(0, ⟨0, 1, 2⟩)] } (some ⟨0, 0, 0⟩)).mapCore fun c =>
  { c with lblcfg := { c.lblcfg with strict := true } }

theorem witness_EdgeReturns : ∃ (s u : State) (k a : Nat) (w : LabelWord) (e : EdgeRole) (i : Invocation), k < 16 ∧ a < 64 ∧
    Claims.invoked s e i ∧ s.drain.formConj [s.drain.labX a, s.drain.runCtl] = .ok (w, u) ∧ s.core.lblcfg.strict = true ∧
    classOf u.ctx.world.nogoods (u.eval w) ≠ .cond ∧
    ∃ r, r ∈ s.myCluster.runs ∧ Claims.combines s r ∧ r.pull = true ∧ lookup r.scan s.focus.core ≠ none := by
  have h := eq_ok (0, strictly) (show isOk (strictly.drain.formConj [strictly.drain.labX 63, strictly.drain.runCtl]) = true by decide)
  exact ⟨strictly, _, 15, 63, _, role (some ⟨0, 0, 0⟩), ⟨0, 0, 0⟩, by decide, by decide, ⟨rfl, rfl, rfl⟩, h, rfl, by decide, _,
    .head _, ⟨rfl, .inl rfl⟩, rfl, by decide⟩

theorem witness_EdgeReturns_push : ∃ (s : State) (r : EdgeRun), r ∈ s.myCluster.runs ∧ Claims.combines s r ∧ r.pull = false :=
  ⟨sweeping (run .running) (some ⟨0, 0, 0⟩), run .running, .head _, ⟨rfl, .inl rfl⟩, rfl⟩

def isSomeOk {ε α : Type} : Except ε (Option α) → Bool
  | .ok (some _) => true
  | .ok none => false
  | .error _ => false

theorem some_ok_of {ε α β : Type} {r : Except ε (Option (α × β))} (h : isSomeOk r = true) : ∃ q t, r = .ok (some (q, t)) := by
  cases r with
  | ok o =>
    cases o with
    | some p => exact ⟨p.1, p.2, rfl⟩
    | none => cases h
  | error _ => cases h

theorem witness_EdgeRuns_start : ∃ (s t : State) (cl : Nat) (r q : EdgeRun), s.ctx.stopped = false ∧ (s.cluster cl).readyRun = some r ∧
    s.startRun cl r = .ok (some (q, t)) := by
  obtain ⟨q, t, h⟩ := some_ok_of (show isSomeOk ((sweeping (run .ready) none).startRun 0 (run .ready)) = true by decide)
  exact ⟨sweeping (run .ready) none, t, 0, run .ready, q, rfl, rfl, h⟩

theorem witness_EdgeRuns_begin : ∃ (s t : State) (cl : Nat) (r q : EdgeRun), s.ctx.stopped = false ∧ (s.cluster cl).activeRun = some r ∧
    r.phase = .boundary ∧ s.beginStep cl r = .ok (q, t) := by
  obtain ⟨q, t, h⟩ := ok_of (show isOk ((sweeping (run .boundary) none).beginStep 0 (run .boundary)) = true by decide)
  exact ⟨sweeping (run .boundary) none, t, 0, run .boundary, q, rfl, rfl, rfl, h⟩

/-- A run with changed vertices, and one whose limit is further away. -/
def changing (limit : Nat) : EdgeRun :=
  { run .running with desc := { graph with limit := limit, unf := page0 + 448 }, changed := [0] }
def marking : State := (sweeping (changing 2) none).mapDev fun d => d.poke 0x10002081C0 [1]

theorem witness_EdgeRuns_end : ∃ (s t : State) (cl : Nat) (r q : EdgeRun), s.ctx.stopped = false ∧ (s.cluster cl).activeRun = some r ∧
    r.phase = .running ∧ s.stepDone cl r = true ∧ s.endStep cl r = .ok (q, t) ∧ r.changed = [] ∧ q.phase = .ending := by
  have h := eq_ok (run .running, placed) (show isOk ((sweeping (run .running) none).endStep 0 (run .running)) = true by decide)
  exact ⟨sweeping (run .running) none, _, 0, run .running, _, rfl, rfl, rfl, by decide, ok_pair h, rfl, by decide⟩

theorem witness_EdgeRuns_next : ∃ (s t : State) (cl : Nat) (r q : EdgeRun), s.ctx.stopped = false ∧ (s.cluster cl).activeRun = some r ∧
    r.phase = .running ∧ s.stepDone cl r = true ∧ s.endStep cl r = .ok (q, t) ∧ q.phase = .boundary := by
  have h := eq_ok (run .running, placed) (show isOk (marking.endStep 0 (changing 2)) = true by decide)
  exact ⟨marking, _, 0, changing 2, _, rfl, rfl, rfl, by decide, ok_pair h, by decide⟩

theorem witness_EdgeRuns_limit : ∃ (s t : State) (cl : Nat) (r q : EdgeRun), s.ctx.stopped = false ∧ (s.cluster cl).activeRun = some r ∧
    r.phase = .running ∧ s.stepDone cl r = true ∧ s.endStep cl r = .ok (q, t) ∧ q.step = r.desc.limit := by
  have h := eq_ok (run .running, placed) (show isOk ((sweeping (changing 1) none).endStep 0 (changing 1)) = true by decide)
  exact ⟨sweeping (changing 1) none, _, 0, changing 1, _, rfl, rfl, rfl, by decide, ok_pair h, by decide⟩

theorem witness_EdgeRuns_ends : ∃ (s : State) (cl : Nat) (r : EdgeRun), s.ctx.stopped = false ∧ (s.cluster cl).activeRun = some r ∧ r.phase = .ending ∧
    s.quiet cl r = true ∧ r.code = 9 ∧ r.locks = [] ∧ r.desc.statva = 0 :=
  ⟨sweeping { run .ending with code := 9 } none, 0, { run .ending with code := 9 }, rfl, rfl, rfl, by decide, rfl, rfl, rfl⟩

/-- A scan with an edge left to a vertex that is unfinished. -/
def scanning : EdgeRun := { run .running with scan := [(0, ⟨0, 0, 1⟩)] }
def inviting : State := (sweeping scanning none).mapDev fun d => d.poke 0x10002081C0 [1]

theorem witness_EdgeRuns_invoke : ∃ (s t : State) (cl core : Nat) (r q : EdgeRun), s.ctx.stopped = false ∧ (s.cluster cl).activeRun = some r ∧
    r.phase = .running ∧ core ∈ r.cores ∧ (s.coreAt cl core).readyForEdge = true ∧ s.unitAct cl core r = .ok (some (q, t)) ∧
    (t.coreAt cl core).awaitsEdge = false := by
  have h := eq_ok (none : Option (EdgeRun × State)) (show isOk (inviting.unitAct 0 0 scanning) = true by decide)
  have k : (okOr none (inviting.unitAct 0 0 scanning)).isSome = true := by decide
  have m := some_getD (scanning, inviting) k
  rw [m] at h
  exact ⟨inviting, _, 0, 0, scanning, _, rfl, rfl, rfl, .head _, by decide, h, by decide⟩

theorem witness_EdgeRuns_idle : ∃ (s : State) (cl core : Nat) (r : EdgeRun), s.ctx.stopped = false ∧ (s.cluster cl).activeRun = some r ∧
    r.phase = .running ∧ core ∈ r.cores ∧ (s.coreAt cl core).readyForEdge = true ∧ s.unitAct cl core r = .ok none ∧
    r.desc.g < 16 ∧ ((s.cluster cl).group r.desc.g).isMember core = true :=
  ⟨(sweeping (run .running) none).mapCluster 0 fun k => k.mapGroup 15 fun g => { g with image := 1 }, 0, 0, run .running, rfl, rfl, rfl,
    .head _, by decide, rfl, by decide, by decide⟩

/-- Offsets that do not begin at 0. -/
def badGraph : State := (sweeping { run .running with todo := [(0, [0])] } none).mapDev fun d => d.poke 0x1000208040 [1]

theorem witness_EdgeRuns_format : ∃ (s : State) (cl : Nat) (r : EdgeRun), s.ctx.stopped = false ∧ s.runFailure cl = some (r, .format) :=
  ⟨badGraph, 0, { run .running with todo := [(0, [0])] }, rfl, by decide⟩

/-! ### Witnesses: events of cores, strokes, the dispatcher -/

/-- Two results outstanding. -/
def awaiting : State := placed.mapCore fun c => { c with pending := [⟨.v 31, 1, 0, FFlags.none⟩, ⟨.x 63, 2, 0, FFlags.none⟩] }

theorem witness_CoreEvents_return : ∃ (s : State) (cl core n d : Nat) (p : Pending), (s.coreAt cl core).pending[n]? = some p ∧
    p.reg = .x d ∧ d < 64 := ⟨awaiting, 0, 0, 1, 63, _, rfl, rfl, by decide⟩

theorem witness_CoreEvents_return_v : ∃ (s : State) (cl core n d : Nat) (p : Pending), (s.coreAt cl core).pending[n]? = some p ∧
    p.reg = .v d ∧ d < 32 := ⟨awaiting, 0, 0, 0, 31, _, rfl, rfl, by decide⟩

def parked (p : Park) : State := placed.mapCore fun c => { c with park := some p }

theorem witness_CoreEvents_marker : ∃ (s : State) (cl core : Nat), s.ctx.stopped = false ∧ (s.coreAt cl core).park = some .marker ∧
    (s.coreAt cl core).pending = [] := ⟨parked .marker, 0, 0, rfl, rfl, rfl⟩

theorem witness_CoreEvents_counter : ∃ (s : State) (cl core k threshold : Nat),
    s.ctx.stopped = false ∧ (s.coreAt cl core).park = some (.counter k threshold) ∧
    (Claims.count (s.coreAt cl core) k + (2 ^ 31 - threshold % 2 ^ 31)) % 2 ^ 31 < 2 ^ 30 :=
  ⟨parked (.counter 15 0), 0, 0, 15, 0, rfl, rfl, by decide⟩

theorem witness_CoreEvents_fencesc : ∃ (s : State) (cl core stroke : Nat), s.ctx.stopped = false ∧
    (s.coreAt cl core).park = some (.fencesc stroke) ∧
    stroke < s.dev.stroke.toNat :=
  ⟨(parked (.fencesc 0)).mapDev fun d => { d with stroke := 1 }, 0, 0, 0, rfl, rfl, by decide⟩

def called : State := placed.mapCore fun c =>
  { c with status := ⟨false, true, false, .u⟩, upcalls := [⟨.remoteError, 11, 15, page0⟩, ⟨.notify, 0, 1, page0⟩], uplost := true }

theorem witness_CoreEvents_upcall : ∃ (s : State) (cl core : Nat) (u : Upcall) (rest : List Upcall),
    s.ctx.stopped = false ∧ (s.coreAt cl core).upcallReady = true ∧ (s.coreAt cl core).upcalls = u :: rest := ⟨called, 0, 0, _, _, rfl, by decide, rfl⟩

theorem witness_StrokesAndTranslations_tick : ∃ (s : State) (k threshold : Nat), Claims.nothingQueued s ∧
    s.core.park = some (.counter k threshold) ∧ (Claims.count s.core k + (2 ^ 31 - threshold % 2 ^ 31)) % 2 ^ 31 < 2 ^ 30 := by
  refine ⟨parked (.counter 15 0), 15, 0, ⟨⟨rfl, rfl, (by intro i h; cases h), ?_⟩, rfl, by decide⟩, rfl, by decide⟩
  intro cl
  cases cl with
  | zero => exact ⟨rfl, rfl, by decide⟩
  | succ n => exact ⟨rfl, rfl, by intro e h; cases h⟩

theorem witness_StrokesAndTranslations_fencesc : ∃ (s : State) (stroke : Nat), Claims.nothingQueued s ∧
    s.core.park = some (.fencesc stroke) ∧ stroke ≤ s.dev.stroke.toNat ∧ s.dev.stroke.toNat + 1 < 2 ^ 64 := by
  refine ⟨parked (.fencesc 0), 0, ⟨⟨rfl, rfl, (by intro i h; cases h), ?_⟩, rfl, by decide⟩, rfl, by decide, by decide⟩
  intro cl
  cases cl with
  | zero => exact ⟨rfl, rfl, by decide⟩
  | succ n => exact ⟨rfl, rfl, by intro e h; cases h⟩

theorem witness_StrokesAndTranslations_walk : ∃ (s t : State) (cl : Nat) (va : Word) (f : Leaf), s.ctx.windowOff va = none ∧
    canonicalVa va = true ∧ cl < s.ctx.nclus ∧ s.walkFrom (engineOf cl .s) va 3 1 s.ctx.desc.troot = (.ok f, t) := by
  have h : isOk (placed.walkFrom (engineOf 0 .s) page0 3 1 placed.ctx.desc.troot).1 = true := by decide
  have k := eq_ok (⟨0, false, false, false, false, false, false, false, false⟩ : Leaf) h
  exact ⟨placed, (placed.walkFrom (engineOf 0 .s) page0 3 1 placed.ctx.desc.troot).2, 0, page0, _, by decide, by decide, by decide,
    Prod.ext k rfl⟩

/-- A record of the fault ring that firmware has resolved. -/
def resolved : State := ((unitWith ⟨[job .awaiting], 1, []⟩ placed).mapCtx fun k =>
  { k with desc := { k.desc with fring := page0.toNat }, ringOwners := [(0, (0, 0, 1))], ringNext := 1 }).mapDev fun d =>
    d.poke 0x1000208000 [2]

theorem witness_StrokesAndTranslations_poll : ∃ (s : State) (cl slot crew : Nat) (va : Word),
    s.ctx.stopped = false ∧ lookup s.ctx.ringOwners slot = some (cl, crew, va) ∧ crew ≠ 0xFF ∧ s.ringState slot = 2 ∧
    ∃ j, j ∈ (Claims.unit s cl crew).jobs ∧ j.id = va ∧ j.state = .awaiting :=
  ⟨resolved, 0, 0, 0, 1, rfl, rfl, by decide, by decide, job .awaiting, .head _, rfl, rfl⟩

/-- A shootdown request of one page, not yet served. -/
def shooting : State := (placed.mapCtx fun k => { k with desc := { k.desc with sdline := page0.toNat } }).mapDev fun d =>
  d.poke 0x1000208000 (bytesOf 8 page0.toNat ++ bytesOf 8 1 ++ bytesOf 4 7)
def shootLine : Nat × LabelWord × State :=
  okOr (0, 0, shooting) (shooting.engineRead hostAgent (BitVec.ofNat 64 shooting.ctx.desc.sdline) 64)

theorem witness_StrokesAndTranslations_shootdown : ∃ (s t : State) (line : Nat) (w : LabelWord),
    s.engineRead hostAgent (BitVec.ofNat 64 s.ctx.desc.sdline) 64 = .ok (line, w, t) ∧
    line / 2 ^ 128 % 2 ^ 32 ≠ line / 2 ^ 160 % 2 ^ 32 ∧ line / 2 ^ 192 % 2 ^ 320 = 0 ∧ 1 ≤ line / 2 ^ 64 % 2 ^ 64 ∧
    line / 2 ^ 64 % 2 ^ 64 ≤ 65535 ∧ t.ctx.nearBusy = false := by
  have h : shooting.engineRead hostAgent (BitVec.ofNat 64 shooting.ctx.desc.sdline) 64 = .ok shootLine :=
    eq_ok (0, 0, shooting) (by decide)
  exact ⟨shooting, shootLine.2.2, shootLine.1, shootLine.2.1, ok_parts h, by decide, by decide, by decide, by decide, by decide⟩

/-- A record at the page, in the run queue of stage `st` and priority `prio`, of `gang` members, while core 0 is idle. -/
def recordAt (st prio gang state : Nat) : List Byte :=
  bytesOf 64 (page0.toNat + 64 + 42 * 2 ^ 64 + st * 2 ^ 240 + prio * 2 ^ 244 + (if gang = 0 then 0 else 1) * 2 ^ 248 +
    gang * 2 ^ 280 + state * 2 ^ 384)
def runnable (st prio gang : Nat) : State :=
  ((placed.mapCore fun c => { c with record := none }).mapCluster 0 fun k => { k with runq := [(4 * st + prio, [page0])] }).mapDev
    fun d => d.poke 0x1000208000 (recordAt st prio gang 1)

theorem witness_Dispatcher_dispatch : ∃ (s : State) (cl core : Nat) (va : Word) (r : VWord), r = s.record va ∧
    s.idle cl core = true ∧ s.ctx.stopped = false ∧ s.pick cl core = some va ∧ rState r = 1 ∧ rGang r = false :=
  ⟨runnable 0 3 0, 0, 0, page0, _, rfl, by decide, by decide, by decide, by decide, by decide⟩

theorem witness_Dispatcher_nothing : ∃ (s : State) (cl core : Nat), s.idle cl core = true ∧ s.pick cl core = none :=
  ⟨placed.mapCore fun c => { c with record := none }, 0, 0, by decide, by decide⟩

theorem witness_Dispatcher_gang : ∃ (s : State) (cl core : Nat) (va : Word) (r : VWord), r = s.record va ∧
    s.idle cl core = true ∧ s.ctx.stopped = false ∧ s.pick cl core = some va ∧ rState r = 1 ∧ rGang r = true ∧ s.gangLate cl va = false :=
  ⟨runnable 0 0 2, 0, 0, page0, _, rfl, by decide, by decide, by decide, by decide, by decide, by decide⟩

theorem witness_Dispatcher_late : ∃ (s : State) (cl core : Nat) (va : Word) (r : VWord), r = s.record va ∧
    s.idle cl core = true ∧ s.ctx.stopped = false ∧ s.pick cl core = some va ∧ rState r = 1 ∧ rGang r = true ∧
    s.gangLate cl va = true :=
  ⟨(runnable 0 0 2).mapCluster 0 fun k => { k with reservations := [⟨page0, [1], 0⟩] }, 0, 0, page0, _, rfl, by decide, by decide,
    by decide, by decide, by decide, by decide⟩

theorem witness_Dispatcher_aging : ∃ (s : State) (cl : Nat) (va : Word) (r : VWord), r = s.record va ∧
    s.ctx.stopped = false ∧ va ∈ lookupD [] (s.cluster cl).runq (4 * rStage r + rPrio r) ∧ (∀ g, g ∈ (s.cluster cl).reservations → g.record ≠ va) ∧
    s.ctx.desc.age ≠ 0 ∧ rPrio r < 3 ∧ s.ctx.desc.age < (s.dev.stroke.toNat + 2 ^ 32 - rEnq r) % 2 ^ 32 :=
  ⟨((runnable 0 2 0).mapCtx fun k => { k with desc := { k.desc with age := 1 } }).mapDev fun d => { d with stroke := 2 }, 0, page0, _,
    rfl, rfl, by decide, (by intro g h; cases h), by decide, by decide, by decide⟩

theorem witness_Dispatcher_gangwait : ∃ (s : State) (cl : Nat) (va : Word) (g : Reservation),
    s.ctx.stopped = false ∧ g ∈ (s.cluster cl).reservations ∧ g.record = va ∧ g.deadline ≤ s.dev.stroke.toNat :=
  ⟨placed.mapCluster 0 fun k => { k with reservations := [⟨page0, [1], 0⟩] }, 0, page0, ⟨page0, [1], 0⟩, rfl, .head _, rfl, by decide⟩

theorem witness_Dispatcher_wake : ∃ (s : State) (cl : Nat) (va : Word) (r : VWord), r = s.record va ∧
    s.ctx.stopped = false ∧ va ∈ (s.cluster cl).suspended ∧ s.wakes r = true :=
  ⟨(placed.mapCluster 0 fun k => { k with suspended := [page0] }).mapDev fun d => d.poke 0x1000208000 (recordAt 0 0 0 3), 0, page0, _,
    rfl, rfl, by decide, by decide⟩

/-! ### Witnesses: contexts, queues, the device -/

theorem cluster_placed (cl : Nat) : (placed.cluster cl).rowq = [] ∧ (placed.cluster cl).runs = [] := by
  cases cl with
  | zero => exact ⟨rfl, rfl⟩
  | succ n => exact ⟨rfl, rfl⟩

theorem witness_Contexts_stop : ∃ s : State, s.ctx.stopped = false ∧ Claims.stoppable s := by
  refine ⟨placed, by decide, fun cl c g => ?_, by decide, fun cl r h => ?_, fun cl r h => ?_, by intro w h; cases h⟩
  · have h : (placed.coreAt cl c).park = none := by
      unfold State.coreAt
      split
      · rfl
      · simp [State.cluster, placed, State.withFetchWord, State.placeWord, State.reset, Context.fresh, modifyAt, lookupD, insertAt, lookup,
          Cluster.reset, Core.reset]
        split <;> rfl
    rw [h]
    exact ⟨nofun, nofun⟩
  · rw [(cluster_placed cl).1] at h
    cases h
  · rw [(cluster_placed cl).2] at h
    cases h

/-- The context of `placed` stopped. -/
def halted : State := placed.mapCtx fun k => { k with stopped := true }

theorem witness_Contexts_restore : ∃ (s : State) (part : List Nat), s.ctx.stopped = true ∧ s.ctx.faulted = false ∧
    s.ctx.destroyed = false ∧ part.length = s.ctx.desc.part.length ∧ s.freePart part = true ∧ s.saveError s.ctx = false :=
  ⟨halted, [31], by decide, by decide, by decide, by decide, by decide, by decide⟩

/-- The last line of its save area is in error. -/
def spoilt : State := halted.mapDev fun d => { d with poison := [0x10460FFFC0] }

theorem witness_Contexts_restore_error : ∃ (s : State) (part : List Nat), s.ctx.stopped = true ∧ s.ctx.faulted = false ∧
    s.ctx.destroyed = false ∧ part.length = s.ctx.desc.part.length ∧ s.freePart part = true ∧ s.saveError s.ctx = true :=
  ⟨spoilt, [31], by decide, by decide, by decide, by decide, by decide, by decide⟩

theorem witness_Contexts_create : ∃ (s : State) (desc : CtxDesc), s.creatable desc = true ∧ s.ctx.desc.ctxid = 0 :=
  ⟨State.reset.mapDev fun d => { d with boot := { d.boot with stage := 3 } }, { placedDesc with ctxid := 65535, part := [30, 31] },
    by decide, by decide⟩

/-- R444: before STAGE 3 no context is created. -/
theorem witness_Contexts_refused : ∃ (s : State) (desc : CtxDesc), s.creatable desc = false :=
  ⟨State.reset, { placedDesc with ctxid := 65535, part := [30, 31] }, by decide⟩

theorem witness_Contexts_unleased : Claims.unleased halted := by
  intro c e h k
  cases h with
  | head => cases k
  | tail _ h => cases h

theorem witness_Contexts_destroy : ∃ s : State, s.ctx.desc.ctxid ≠ 0 ∧ s.ctx.destroyed = false := ⟨placed, by decide, by decide⟩

/-- An image that was unloaded in stroke 0. -/
def gone : Image := ⟨0x8_1000_0000, 64, [], (0, 0), 0, some 0, []⟩

theorem witness_Contexts_free : ∃ (s : State) (base : Word) (img : Image) (τ : Nat), s.ctx.desc.part.length ≤ 4 ∧
    img ∈ s.ctx.images ∧ img.base = base ∧ img.unloading = some τ ∧ τ < s.dev.stroke.toNat ∧
    s.dev.cycle.toNat % Config.stroke = 0 ∧ s.dev.stroke.toNat = s.dev.cycle.toNat / Config.stroke ∧
    ∀ cl c, cl < s.ctx.desc.part.length → c < 192 → img.gen.toNat ≤ (s.coreAt cl c).codegen.toNat :=
  ⟨(placed.mapCtx fun k => { k with images := [gone] }).mapDev fun d => { d with stroke := 1, cycle := BitVec.ofNat 64 Config.stroke },
    gone.base, gone, 0, by decide, .head _, rfl, rfl, by decide, by decide, by decide, fun _ _ _ _ => Nat.zero_le _⟩

/-- A descriptor of a queue of 8 slots whose ring is at 8 KiB of a page and whose status block is before it; the page has
no LT. -/
def queueDesc : BitVec 512 := BitVec.ofNat 512 (page0.toNat + (page0.toNat + 0x1000) * 2 ^ 64 + 3 * 2 ^ 160 + 1 * 2 ^ 176 + 2 ^ 200)

theorem freeQid_first (k : Context) (n q : Nat) (hn : 0 < n) (h : k.queues = []) : k.freeQid n q = some q := by
  cases n with
  | zero => cases hn
  | succ n => simp [Context.freeQid, h, lookup]

theorem queue_valid : placed.queueValid queueDesc = true := by decide
theorem queue_id : placed.ctx.freeQid 65535 (placed.freeNat 0 % 65535 + 1) = some (placed.freeNat 0 % 65535 + 1) :=
  freeQid_first _ _ _ (by decide) rfl
theorem queue_ctx : queueDesc.toNat / 2 ^ 176 % 2 ^ 16 = placed.ctx.desc.ctxid := by decide

theorem witness_HostQueues_create : ∃ (s : State) (desc : BitVec 512) (m : Nat), desc.toNat / 2 ^ 176 % 2 ^ 16 = s.ctx.desc.ctxid ∧
    s.ctx.desc.ctxid ≠ 0 ∧ s.ctx.destroyed = false ∧ s.queueValid desc = true ∧ s.ctx.faulted = false ∧
    s.ctx.freeQid 65535 (s.freeNat 0 % 65535 + 1) = some m :=
  ⟨placed, queueDesc, placed.freeNat 0 % 65535 + 1, queue_ctx, by decide, by decide, queue_valid, rfl, queue_id⟩

theorem witness_HostQueues_create_faulted : ∃ (s : State) (desc : BitVec 512), desc.toNat / 2 ^ 176 % 2 ^ 16 = s.ctx.desc.ctxid ∧
    s.ctx.desc.ctxid ≠ 0 ∧ s.ctx.destroyed = false ∧ s.ctx.faulted = true :=
  ⟨placed.mapCtx fun k => { k with faulted := true }, queueDesc, queue_ctx, by decide, by decide, rfl⟩

/-- A packet of type `typ` that signals at the page, and a queue that holds packets. -/
def packet (typ : Nat) (body : List Word) (met started : Bool) : Packet :=
  ⟨5, BitVec.ofNat 1024 (typ + 7 * 2 ^ 32 + (page0.toNat + 0x800) * 2 ^ 64 +
    (body.mapIdx fun i w => w.toNat * 2 ^ (512 + 64 * i)).sum), met, started⟩
def queue9 (ps : List Packet) : Queue :=
  { qid := 9, key := 0x5EED, ring := page0, caplog := 3, statva := page0 + 0x1000, rev := 1, rc := 6, wc := 6, state := .active, cause := 0, badwc := 0
    stale := 0, packets := ps }
def queueing (ps : List Packet) : State := placed.mapCtx fun k => { k with queues := [(9, queue9 ps)] }

theorem witness_HostQueues_stale : ∃ (s : State) (msg : BitVec 128) (qid : Nat) (q : Queue) (wcnt : Word),
    s.ctx.faulted = false ∧ lookup s.ctx.queues qid = some q ∧ q.qid = qid ∧ q.state = .active ∧ msg.toNat / 2 ^ 64 = qid ∧
    wcnt = BitVec.ofNat 64 msg.toNat ∧ qid < 2 ^ 16 ∧ 2 ^ 63 ≤ (wcnt - q.wc).toNat :=
  ⟨queueing [], BitVec.ofNat 128 (9 * 2 ^ 64 + 5), 9, queue9 [], 5, rfl, rfl, rfl, rfl, by decide, by decide, by decide, by decide⟩

theorem witness_HostQueues_beyond : ∃ (s : State) (msg : BitVec 128) (qid : Nat) (q : Queue) (wcnt : Word),
    s.ctx.faulted = false ∧ lookup s.ctx.queues qid = some q ∧ q.qid = qid ∧ q.state = .active ∧ msg.toNat / 2 ^ 64 = qid ∧
    wcnt = BitVec.ofNat 64 msg.toNat ∧ qid < 2 ^ 16 ∧ (wcnt - q.wc).toNat < 2 ^ 63 ∧ 2 ^ q.caplog < (wcnt - q.rc).toNat :=
  ⟨queueing [], BitVec.ofNat 128 (9 * 2 ^ 64 + 15), 9, queue9 [], 15, rfl, rfl, rfl, rfl, by decide, by decide, by decide, by decide,
    by decide⟩

theorem witness_HostQueues_held : ∃ (s : State) (msg : BitVec 128) (qid : Nat) (q : Queue) (wcnt : Word),
    s.ctx.faulted = false ∧ lookup s.ctx.queues qid = some q ∧ q.qid = qid ∧ q.state = .active ∧ msg.toNat / 2 ^ 64 = qid ∧
    wcnt = BitVec.ofNat 64 msg.toNat ∧ qid < 2 ^ 16 ∧ (wcnt - q.wc).toNat < 2 ^ 63 ∧ (wcnt - q.rc).toNat ≤ 2 ^ q.caplog ∧
    ∃ x, x ∈ q.packets ∧ (slotType x.slot = 5 ∨ slotType x.slot = 6) :=
  ⟨queueing [packet 6 [] true false], BitVec.ofNat 128 (9 * 2 ^ 64 + 14), 9, queue9 [packet 6 [] true false], 14, rfl, rfl, rfl, rfl,
    by decide, by decide, by decide, by decide, by decide, _, .head _, .inr (by decide)⟩

/-- A packet with one dependency, whose word says DONE. -/
def depending : Packet := ⟨5, (packet 4 [] false false).slot + BitVec.ofNat 1024 (2 ^ 16 + page0.toNat * 2 ^ 128), false, false⟩
def dependable : State := (queueing [depending]).mapDev fun d => d.poke 0x1000208000 [1]
def depWords : List Nat × State := okOr ([], dependable) (dependable.depStates ((List.range (depending.slot.toNat / 2 ^ 16 % 2 ^ 3)).map fun i =>
  depending.slot.extractLsb' (128 + 64 * i) 64))

theorem witness_HostQueues_met : ∃ (s u : State) (qid : Nat) (q : Queue) (p : Packet) (sts : List Nat),
    lookup s.ctx.queues qid = some q ∧ (q.packets.find? fun x => x.seq == p.seq && !x.met) = some p ∧
    s.depStates ((List.range (p.slot.toNat / 2 ^ 16 % 2 ^ 3)).map fun i => p.slot.extractLsb' (128 + 64 * i) 64) = .ok (sts, u) ∧
    sts.length = 1 ∧ ∀ x, x ∈ sts → x = 1 := by
  have h : dependable.depStates ((List.range (depending.slot.toNat / 2 ^ 16 % 2 ^ 3)).map fun i =>
    depending.slot.extractLsb' (128 + 64 * i) 64) = .ok depWords := eq_ok ([], dependable) (by decide)
  exact ⟨dependable, depWords.2, 9, queue9 [depending], depending, depWords.1, rfl, rfl, h, by decide, by decide⟩

theorem witness_HostQueues_copies : ∃ (s : State) (qid : Nat) (q : Queue) (p : Packet), Claims.ready s qid 2 q p :=
  ⟨queueing [packet 2 [] true false], 9, queue9 [packet 2 [] true false], packet 2 [] true false, rfl, rfl⟩

/-- A COPYOUT of two bytes of the page. -/
def sendingOut : Packet := packet 3 [page0, 0x10, 2, 7] true false
def readOut : List Byte × List LabelWord × State := okOr ([], [], placed) ((queueing [sendingOut]).readSpan hostAgent page0 2)

theorem witness_HostQueues_copyout : ∃ (s u : State) (qid : Nat) (q : Queue) (p : Packet) (bs : List Byte) (ws : List LabelWord),
    Claims.ready s qid 3 q p ∧ s.readSpan hostAgent (Claims.body p 0) (Claims.body p 2).toNat = .ok (bs, ws, u) ∧
    lookup u.ctx.queues qid = some q := by
  have h : (queueing [sendingOut]).readSpan hostAgent (Claims.body sendingOut 0) (Claims.body sendingOut 2).toNat = .ok readOut :=
    eq_ok ([], [], placed) (by decide)
  exact ⟨queueing [sendingOut], readOut.2.2, 9, queue9 [sendingOut], sendingOut, readOut.1, readOut.2.1, ⟨rfl, rfl⟩, ok_parts h,
    by decide⟩

/-- A page without LT, CMP and with C can take a record. -/
def launching : Packet := packet 1 [page0 + 64, 0, 0, 0, page0] true false

theorem witness_HostPackets_launch : ∃ (s : State) (qid : Nat) (q : Queue) (p : Packet), Claims.ready s qid 1 q p ∧
    s.recvaFault (Claims.body p 4) = none := ⟨queueing [launching], 9, queue9 [launching], launching, ⟨rfl, rfl⟩, by decide⟩

def signalling : Packet := packet 4 [page0, 0x1234] true false

theorem witness_HostPackets_signal : ∃ (s t : State) (qid : Nat) (q : Queue) (p : Packet), Claims.ready s qid 4 q p ∧
    s.engineWrite hostAgent (Claims.body p 0) (bytesOf 8 (Claims.body p 1).toNat) = .ok t :=
  ⟨queueing [signalling], _, 9, queue9 [signalling], signalling, ⟨rfl, rfl⟩, eq_ok placed (by decide)⟩

/-- A WAIT for a word at least `n`, which is 0. -/
def waiting (n : Word) : Packet := packet 5 [page0, n] true false
def waitRead (n : Word) : Nat × LabelWord × State :=
  okOr (0, 0, placed) ((queueing [waiting n]).engineRead hostAgent (Claims.body (waiting n) 0) 8)

theorem witness_HostPackets_wait : ∃ (s t : State) (qid w : Nat) (q : Queue) (p : Packet) (lw : LabelWord), Claims.ready s qid 5 q p ∧
    s.engineRead hostAgent (Claims.body p 0) 8 = .ok (w, lw, t) ∧ (Claims.body p 1).toNat ≤ w := by
  have h : (queueing [waiting 0]).engineRead hostAgent (Claims.body (waiting 0) 0) 8 = .ok (waitRead 0) := eq_ok (0, 0, placed) (by decide)
  exact ⟨queueing [waiting 0], _, 9, _, queue9 [waiting 0], waiting 0, _, ⟨rfl, rfl⟩, ok_parts h, by decide⟩

theorem witness_HostPackets_waits : ∃ (s t : State) (qid w : Nat) (q : Queue) (p : Packet) (lw : LabelWord),
    Claims.ready s qid 5 q p ∧ s.engineRead hostAgent (Claims.body p 0) 8 = .ok (w, lw, t) ∧ w < (Claims.body p 1).toNat := by
  have h : (queueing [waiting 1]).engineRead hostAgent (Claims.body (waiting 1) 0) 8 = .ok (waitRead 1) := eq_ok (0, 0, placed) (by decide)
  exact ⟨queueing [waiting 1], _, 9, _, queue9 [waiting 1], waiting 1, _, ⟨rfl, rfl⟩, ok_parts h, by decide⟩

def barrier : Packet := packet 6 [] true false

theorem witness_HostPackets_barrier : ∃ (s : State) (qid : Nat) (q : Queue) (p : Packet), Claims.ready s qid 6 q p ∧
    ∀ x, x ∈ q.packets → p.seq ≤ x.seq :=
  ⟨queueing [barrier], 9, queue9 [barrier], barrier, ⟨rfl, rfl⟩, by intro x h; cases h with
    | head => exact Nat.le_refl _
    | tail _ h => cases h⟩

theorem witness_HostPackets_barrier_holds : ∃ (s : State) (qid : Nat) (q : Queue) (p : Packet), Claims.ready s qid 6 q p ∧
    ∃ x, x ∈ q.packets ∧ x.seq < p.seq :=
  ⟨queueing [{ signalling with seq := 4 }, barrier], 9, queue9 [{ signalling with seq := 4 }, barrier], barrier, ⟨rfl, rfl⟩,
    { signalling with seq := 4 }, .head _, by decide⟩

/-- A LOAD of an object that is not there. -/
def loading : Packet := packet 7 [0x7000_0000_0000, 0x8_1000_0000, page0] true false
def loaded : Word × State := (queueing [loading]).loadImage (Claims.body loading 0) (Claims.body loading 1)

theorem witness_HostPackets_load : ∃ (s t u : State) (qid : Nat) (q : Queue) (p : Packet) (result : Word), Claims.ready s qid 7 q p ∧
    s.loadImage (Claims.body p 0) (Claims.body p 1) = (result, t) ∧
    t.engineWrite hostAgent (Claims.body p 2) (bytesOf 8 result.toNat) = .ok u :=
  ⟨queueing [loading], loaded.2, _, 9, queue9 [loading], loading, loaded.1, ⟨rfl, rfl⟩, rfl, eq_ok placed (by decide)⟩

def unloading : Packet := packet 8 [0x8_1000_0000] true false
def present : Image := ⟨0x8_1000_0000, 64, [], (0, 0), 0, none, []⟩

theorem witness_HostPackets_unload : ∃ (s : State) (qid : Nat) (q : Queue) (p : Packet) (img : Image), Claims.ready s qid 8 q p ∧
    img ∈ s.ctx.images ∧ img.base = Claims.body p 0 ∧ img.unloading = none :=
  ⟨(queueing [unloading]).mapCtx fun k => { k with images := [present] }, 9, queue9 [unloading], unloading, present, ⟨rfl, rfl⟩,
    .head _, by decide, rfl⟩

def resetting : Packet := packet 9 [0] true false

theorem witness_HostPackets_qreset : ∃ (s : State) (qid : Nat) (q : Queue) (p : Packet), Claims.ready s qid 9 q p ∧
    s.ctx.faulted = false ∧ (Claims.body p 0).getLsbD 0 = false := ⟨queueing [resetting], 9, queue9 [resetting], resetting, ⟨rfl, rfl⟩, rfl, by decide⟩

/-- A COPYIN of two bytes to the page, under way. -/
def copying : Packet := packet 2 [page0, 0, 2] true true
def copiedIn : State × Option Deny := (queueing [copying]).copyinWrite (Claims.body copying 0) [1, 2]

theorem witness_HostPackets_copy : ∃ (s t : State) (qid : Nat) (q : Queue) (p : Packet) (bs : List Byte),
    lookup s.ctx.queues qid = some q ∧ (q.packets.find? fun x => x.seq == p.seq && x.started &&
      (slotType x.slot == 2 || slotType x.slot == 3)) = some p ∧ slotType p.slot = 2 ∧ bs.length = (Claims.body p 2).toNat ∧
    s.copyinWrite (Claims.body p 0) bs = (t, none) :=
  ⟨queueing [copying], copiedIn.1, 9, queue9 [copying], copying, [1, 2], rfl, rfl, by decide, by decide,
    Prod.ext rfl (show copiedIn.2 = none by decide)⟩

theorem witness_HostPackets_rma_refused : ∃ (s : State) (ctxid : Nat) (key : Half), s.hasContext ctxid = false ∧
    ∃ s' : State, ∀ e, e ∈ s'.ctx.queues → e.2.key ≠ key :=
  ⟨placed, 2, 0, by decide, queueing [], by
    intro e h
    cases h with
    | head => decide
    | tail _ h => cases h⟩

theorem witness_HostPackets_rma_write : ∃ (s t : State) (va : Word) (bs : List Byte) (e : Nat × Queue), e ∈ s.ctx.queues ∧
    s.ctx.desc.ctxid ≠ 0 ∧ s.ctx.destroyed = false ∧ s.hostPieces (piecesOf va bs.length) bs = (t, none) ∧ bs.length = 2 :=
  ⟨queueing [], ((queueing []).hostPieces (piecesOf page0 2) [1, 2]).1, page0, [1, 2], (9, queue9 []), .head _, by decide, by decide,
    Prod.ext rfl (show ((queueing []).hostPieces (piecesOf page0 2) [1, 2]).2 = none by decide), rfl⟩

theorem witness_HostPackets_rma_read : ∃ (s t : State) (va : Word) (n : Nat) (bs : List Byte) (ws : List LabelWord) (e : Nat × Queue),
    e ∈ s.ctx.queues ∧ s.ctx.desc.ctxid ≠ 0 ∧ s.ctx.destroyed = false ∧ s.readSpan rmaAgent va n = .ok (bs, ws, t) ∧ n = 2 := by
  have h := eq_ok (([], [], placed) : List Byte × List LabelWord × State)
    (show isOk ((queueing []).readSpan rmaAgent page0 2) = true by decide)
  exact ⟨queueing [], _, page0, 2, _, _, (9, queue9 []), .head _, by decide, by decide, ok_parts h, rfl⟩

/-- The first region of the pool is this device's, leased. -/
def poolLine : Nat := 12 * 2 ^ 40
def mine : PoolDesc := ⟨true, true, Config.routingId, 1, 1⟩
def pooling (locked : Bool) : State := placed.mapDev fun d =>
  { d with pool := [(0, mine)], ptp := { d.ptp with locked := locked } }

theorem owned_mine (d : Device) (h : d.pool = [(0, mine)]) : d.owned poolLine = some mine := by
  simp [Device.owned, Device.leasedRegion, h, mine, poolLine, lookupD, lookup]

theorem witness_PoolAndTime_read (locked : Bool) : ∃ (s : State) (line dev n : Nat) (inc : BitVec 16) (r : PoolDesc), s.dev.owned line = some r ∧
    inc = BitVec.ofNat 16 n ∧ s.dev.current dev inc = true ∧ (∀ x, x ∈ s.dev.poolWrites → x.line ≠ line) ∧ s.dev.ptp.locked = locked :=
  ⟨pooling locked, poolLine, 1, 2, 2, mine, owned_mine _ rfl, rfl, rfl, (by intro x h; cases h), rfl⟩

theorem witness_PoolAndTime_expiry : ∃ (s : State) (line : Nat), ∃ l, l ∈ s.dev.leasesHeld ∧ l.line = line ∧ l.expiry ≤ s.dev.ptp.time :=
  ⟨placed.mapDev fun d => { d with leasesHeld := [⟨poolLine, 1, 1, 0, 0, true⟩] }, poolLine, ⟨poolLine, 1, 1, 0, 0, true⟩, .head _, rfl,
    by decide⟩

/-- A write of another device waits, and a lease of the line has ended by cycles. -/
def poolRequest (op : PoolOp) : PoolWrite := ⟨poolLine, Config.routingId.toNat + 1, 1, 8, bytesOf 8 7, op, .outside⟩
def requested (w : PoolWrite) : State := (pooling true).mapDev fun d =>
  { d with poolWrites := [w], cycle := 1650, leasesGranted := [⟨poolLine, 1, 1, 0, 0, true⟩] }

theorem waits_first (d : Device) (w : PoolWrite) (k : d.poolWrites = [w]) (h : w.line = poolLine) :
    d.poolWrites.find? (fun x => x.line == poolLine) = some w := by simp [k, h]

/-- R438: its write is performed, an atomic of four bytes adds 7, and a read needs no lease to end. -/
theorem witness_PoolAndTime_apply (op : PoolOp) : ∃ (s : State) (line : Nat) (r : PoolDesc) (w : PoolWrite),
    s.dev.owned line = some r ∧ s.dev.poolWrites.find? (fun x => x.line == line) = some w ∧
    (∀ l, l ∈ s.dev.leasesGranted → l.line = line → Claims.leaseEnded s r l) ∧
    w.dev ≠ Config.routingId.toNat ∧ s.dev.current w.dev w.inc = true ∧ w.op = op :=
  ⟨requested (poolRequest op), poolLine, mine, poolRequest op, owned_mine _ rfl, waits_first _ _ rfl rfl, (by
      intro l h _
      cases h with
      | head => exact .inr (by decide : 0 + 1100 * mine.ldur.toNat + 550 * mine.gbq.toNat ≤ (1650 : BitVec 64).toNat)
      | tail _ h => cases h), Nat.succ_ne_self _, rfl, rfl⟩

/-- The same while the lease stands, one cycle before; and a lease that has ended by the clocks. -/
theorem witness_PoolAndTime_waits : ∃ (s : State) (line : Nat) (r : PoolDesc) (w : PoolWrite), s.dev.owned line = some r ∧
    s.dev.poolWrites.find? (fun x => x.line == line) = some w ∧
    (∃ l, l ∈ s.dev.leasesGranted ∧ l.line = line ∧ ¬ Claims.leaseEnded s r l) ∧ w.dev ≠ Config.routingId.toNat ∧
    s.dev.current w.dev w.inc = true ∧ ∀ n, w.op ≠ .read n := by
  refine ⟨(requested (poolRequest .write)).mapDev fun d => { d with cycle := 1649 }, poolLine, mine, poolRequest .write, owned_mine _ rfl,
    waits_first _ _ rfl rfl, ⟨_, .head _, rfl, ?_⟩, Nat.succ_ne_self _, rfl, by intro n h; cases h⟩
  intro h
  rcases h with h | h
  · exact absurd h.2.2 (by decide : ¬ 0 + 2750 * mine.gbq.toNat < 0)
  · exact absurd h (by decide : ¬ 0 + 1100 * mine.ldur.toNat + 550 * mine.gbq.toNat ≤ (1649 : BitVec 64).toNat)

theorem witness_PoolAndTime_clocks : ∃ (s : State) (r : PoolDesc) (l : Lease), Claims.leaseEnded s r l ∧
    ¬ l.sent + 1100 * r.ldur.toNat + 550 * r.gbq.toNat ≤ s.dev.cycle.toNat :=
  ⟨(pooling true).mapDev fun d => { d with ptp := { d.ptp with time := 2751 } }, mine, ⟨poolLine, 1, 1, 0, 0, true⟩,
    .inl ⟨rfl, rfl, by decide⟩, by decide⟩

/-- The device that asked has bound again since. -/
theorem witness_PoolAndTime_stale : ∃ (s : State) (line : Nat) (r : PoolDesc) (w : PoolWrite), s.dev.owned line = some r ∧
    s.dev.poolWrites.find? (fun x => x.line == line) = some w ∧ w.dev ≠ Config.routingId.toNat ∧ s.dev.current w.dev w.inc = false := by
  refine ⟨(requested (poolRequest .write)).mapDev fun d => { d with peers := [((poolRequest .write).dev, 2)] }, poolLine, mine,
    poolRequest .write, owned_mine _ rfl, waits_first _ _ rfl rfl, Nat.succ_ne_self _, ?_⟩
  simp [Device.current, State.mapDev, poolRequest, lookup]

theorem witness_PoolAndTime_amo : ∃ n new : Nat, Claims.poolResult (poolRequest (.amo .add .w)) 0xFFFFFFFF n new ∧ n = 4 ∧ new = 6 :=
  ⟨4, 6, .inl ⟨.add, .w, rfl, rfl, .head _⟩, rfl, rfl⟩

theorem witness_PoolAndTime_snoop : ∃ (s : State) (line : Nat) (r : PoolDesc), 12 * 2 ^ 40 ≤ line ∧
    lookup s.dev.pool ((line - 12 * 2 ^ 40) / 2 ^ 30) = some r ∧ r.valid = true ∧ r.leased = false :=
  ⟨placed.mapDev fun d => { d with pool := [(0, { mine with leased := false })] }, poolLine, { mine with leased := false }, by decide, rfl,
    rfl, rfl⟩

theorem witness_PoolAndTime_bind : ∃ dev n : Nat, ∃ inc : BitVec 16, dev = Config.routingId.toNat ∧ inc = BitVec.ofNat 16 n :=
  ⟨_, 3, 3, rfl, rfl⟩

theorem witness_PoolAndTime_bindPeer : ∃ dev n : Nat, ∃ inc : BitVec 16, dev ≠ Config.routingId.toNat ∧ inc = BitVec.ofNat 16 n :=
  ⟨Config.routingId.toNat + 1, 3, 3, Nat.succ_ne_self _, rfl⟩

/-- The device in a boot stage. -/
def booting (stage : Nat) : State := State.reset.mapDev fun d => { d with boot := { d.boot with stage := stage }, minSvn := 3, svn := 5 }

theorem witness_FirmwareEvents : ∃ s : State, s.dev.boot.stage = 2 ∧ s.dev.boot.tries < 8 := ⟨booting 2, rfl, by decide⟩

/-- R445: the self-test finds all management cores lost. -/
theorem witness_FirmwareEvents_lost : ∃ test : SelfTest, test.fatal = false ∧ Claims.lostAll test.lost :=
  ⟨⟨0, (List.range 4).map fun n => (.mgmtCore, n), false⟩, rfl, .inr (.inl (by decide))⟩

theorem witness_FirmwareEvents_command : ∃ s : State, s.dev.boot.stage = 0xFF := ⟨booting 0xFF, rfl⟩

theorem witness_FirmwareEvents_rejected : ∃ (s : State) (bs : List Byte), imageFault s.dev.minSvn bs = 3 := ⟨booting 2, [], by decide⟩

theorem witness_FirmwareEvents_svn : ∃ (s : State) (svn : Nat), s.dev.minSvn < svn ∧ svn ≤ s.dev.svn ∧ s.dev.boot.stage = 3 :=
  ⟨booting 3, 5, by decide, by decide, rfl⟩

theorem witness_FirmwareEvents_routine : ∃ (s : State) (bs : List Byte), s.ctx.desc.ctxid ≠ 0 ∧ s.ctx.destroyed = false ∧
    bs.length ≤ 2 ^ 20 := ⟨placed, [1], by decide, by decide, by decide⟩

theorem witness_FleetEvents : ∃ (units level : Nat) (kind : UnitKind), 30 ≤ units ∧ units ≤ 90 ∧ level < 8 ∧
    kind ∈ [UnitKind.core, .crew, .cluster, .die, .stack, .matrixEngine, .copyUnit, .transformCore, .sweepUnit, .l2Slice] :=
  ⟨30, 7, .stack, by decide⟩

theorem witness_FleetEvents_cap : ∃ units : Nat, units < 30 ∨ 90 < units := ⟨29, by decide⟩

theorem cluster_idle (cl : Nat) : (placed.cluster cl).remotes = [] := by
  cases cl <;> rfl

/-- R456: the other ports of the fabric are lost already, and port 8 is the last; or another port is there still. -/
def losing (lost : List Nat) : State := placed.mapDev fun d => { d with lostUnits := lost.map fun p => (UnitKind.cxlPort, p) }

/-- No packet has started and nothing is in flight. -/
theorem witness_FleetEvents_port : ∃ s : State, s.others = [] ∧ (∀ cl, (s.cluster cl).remotes = []) ∧
    ∀ e q, e ∈ s.ctx.queues → lookup s.ctx.queues e.1 = some q → ∀ p, p ∈ q.packets → p.started = false :=
  ⟨placed, rfl, cluster_idle, by intro e q h; cases h⟩

/-- R456: three management cores are lost, and the fourth is lost after them. -/
def lostCores (n : Nat) : State := placed.mapDev fun d => { d with lostUnits := (List.range n).map fun i => (.mgmtCore, i) }

theorem witness_FleetEvents_mgmt : ∃ (s : State) (kind : UnitKind) (num : Nat) (d : Device), (kind = .mgmtCore ∨ kind = .ioDie) ∧
    d = { s.dev with lostUnits := s.dev.lostUnits ++ [(kind, num)] } ∧ d.mute = false :=
  ⟨placed, .mgmtCore, 0, _, .inl rfl, rfl, by decide⟩

theorem witness_FleetEvents_mute : ∃ (s : State) (kind : UnitKind) (num : Nat) (d : Device), (kind = .mgmtCore ∨ kind = .ioDie) ∧
    d = { s.dev with lostUnits := s.dev.lostUnits ++ [(kind, num)] } ∧ d.mute = true :=
  ⟨lostCores 3, .mgmtCore, 3, _, .inl rfl, rfl, by decide⟩

/-! ### Witnesses: where jumps, loops, returns and control registers stop -/

/-- A core under STRICT whose x5 and x7 hold labels of class COND. -/
def strictLabels : State := labels.mapCore fun c => { c with lblcfg := { c.lblcfg with strict := true } }

theorem witness_Jumps_misaligned : ∃ (s : State) (off d a k : Nat) (dst : Word), off < 2 ^ 24 ∧ d < 64 ∧ a < 64 ∧
    k < 4096 ∧ d ≠ 0 ∧ dst = s.rdX a + BitVec.ofInt 64 (4 * Claims.signed 12 k) ∧ dst.toNat % 4 ≠ 0 ∧
    Claims.classPasses s [s.labX a] :=
  ⟨setX placed 63 1, 0, 63, 63, 4095, _, by decide, by decide, by decide, by decide, by decide, rfl, by decide, .inl (by decide)⟩

theorem witness_Jumps_class : ∃ (s : State) (off d a k : Nat) (dst : Word), off < 2 ^ 24 ∧ d < 64 ∧ a < 64 ∧ k < 4096 ∧
    d ≠ 0 ∧ dst = s.rdX a + BitVec.ofInt 64 (4 * Claims.signed 12 k) ∧ dst.toNat % 4 = 0 ∧ Claims.classTraps s [s.labX a] :=
  ⟨strictLabels, 0, 63, 5, 0, _, by decide, by decide, by decide, by decide, by decide, rfl, by decide, by decide, by decide⟩

theorem witness_Branches_class : ∃ (s : State) (a b off : Nat) (i : Instr) (c : Word → Word → Bool),
    (i, c) ∈ Claims.branches a b off ∧ i.wf = true ∧ Claims.classTraps s [s.labX a, s.labX b] :=
  ⟨strictLabels, 5, 7, 4095, _, _, .head _, by decide, by decide, by decide⟩

theorem witness_LoopsPush_full : ∃ (s : State) (k : Nat), k < 4096 ∧ (0 : Int) < k ∧ 4 ≤ s.core.loops.length :=
  ⟨nested, 1, by decide⟩

theorem witness_LoopsPush_skips : ∃ (s : State) (a imm : Nat) (i : Instr) (n : Int), a < 64 ∧ imm < 4096 ∧
    i = .loop a imm ∧ n = (s.rdX a).toInt ∧ n < 2 ^ 32 ∧ Claims.classPasses s [s.labX a] ∧ n ≤ 0 :=
  ⟨setX placed 63 (BitVec.allOnes 64), 63, 4095, _, _, by decide, by decide, rfl, rfl, by decide, .inl (by decide), by decide⟩

theorem witness_LoopsPush_illegal : ∃ (s : State) (a : Nat), a < 64 ∧ 2 ^ 32 ≤ (s.rdX a).toInt ∧
    Claims.classPasses s [s.labX a] :=
  ⟨setX placed 63 (2 ^ 32), 63, by decide, by decide, .inl (by decide)⟩

theorem witness_LoopsPush_class : ∃ (s : State) (a : Nat), a < 64 ∧ Claims.classTraps s [s.labX a] :=
  ⟨strictLabels, 5, by decide, by decide, by decide⟩

/-- A context whose trap entry lies outside its code window. -/
def noEntry : State := { placed with ctx := { placed.ctx with desc := { placed.ctx.desc with trapent := 0 } } }

theorem witness_TrapEntry_fault : ∃ (s : State) (d : Deny),
    s.fetchPlace .s (BitVec.ofNat 64 s.ctx.desc.trapent) = .error d :=
  ⟨noEntry, ⟨.perm, 2, 0⟩, rfl⟩

theorem witness_Returns_misaligned : (∃ s : State, s.core.status.mode = .s ∧ s.core.epc.toNat % 4 ≠ 0) ∧
    ∃ s : State, s.core.status.mode = .u ∧ s.core.status.inup = true ∧ s.core.upepc.toNat % 4 ≠ 0 :=
  ⟨⟨super.mapCore fun c => { c with epc := 2 }, by decide⟩, ⟨nested.mapCore fun c => { c with upepc := 2 }, by decide⟩⟩

theorem witness_Returns_illegal : ∃ s : State, s.core.status.mode = .s ∧ s.core.epc.toNat % 4 = 0 ∧
    (s.core.sloop.toList.takeWhile fun w => decide (w.toNat / 2 ^ 32 ≠ 0)).length < s.core.ecause.toNat / 2 ^ 9 % 8 :=
  ⟨super.mapCore fun c => { c with ecause := 2 ^ 9 }, by decide⟩

theorem witness_ControlRegisterWrites_mprog : ∃ (s : State) (a : Nat), a < 64 ∧ s.core.status.mode = .s ∧
    Claims.classPasses s [s.labX a] ∧ (s.rdX a).toNat < 2 ^ 63 := ⟨super, 63, by decide, by decide, .inl (by decide), by decide⟩

/-- A membership image at the last line of core 0's local store before its inbox, its address in x5. -/
def imaging (b : Byte) : State := (setX super 5 lastLine).mapDev fun d => d.poke (lastPlace.loc + 27) [b]

theorem witness_ControlRegisterWrites_catchcfg : ∀ b : Byte, b = 1 ∨ b = 2 → ∃ (s u : State) (a : Nat) (p : Place)
    (m : BitVec 256), a < 64 ∧ s.core.status.mode = .s ∧ Claims.classPasses s [s.labX a] ∧
    Claims.imageAt s (s.rdX a &&& ~~~(31 : Word)) p u ∧ m = BitVec.ofNat 256 (s.dev.num p.loc 32) ∧
    (m.toNat / 2 ^ 217 = 0 ↔ b = 1) := by
  intro b hb
  refine ⟨imaging b, imaging b, 5, lastPlace, _, by decide, rfl, .inl rfl, ⟨?_, ?_, .inl rfl, ?_, ?_, ?_⟩, rfl, ?_⟩ <;>
    rcases hb with rfl | rfl <;> first | rfl | decide

theorem witness_PrivilegeTraps_map : (∃ n : Nat, n < 1024 ∧ n ∉ Claims.crNumbers) ∧
    ∃ (s : State) (n : Nat), n < 1024 ∧ s.core.status.mode = .s ∧ n ∈ Claims.readOnly :=
  ⟨⟨0x3FF, by decide⟩, ⟨super, 0x60, by decide⟩⟩

/-! ### Witnesses: where labels, groups, counters and continuations stop -/

theorem witness_LabelForms_illegal : ∃ (s : State) (b : Nat), b < 64 ∧ 255 < (s.rdX b).toNat ∧ 127 < (s.rdX b).toNat :=
  ⟨setX placed 63 256, 63, by decide⟩

theorem witness_LabelForms_p7 : ∃ (s u : State) (a b : Nat) (w : LabelWord), a < 64 ∧ b < 64 ∧ s.rdX a = s.rdX b ∧
    s.formLabel (s.wideOf [s.labX a, s.labX b]) (s.conjOf [s.labX a, s.labX b]) = .ok (w, u) := by
  obtain ⟨w, u, h⟩ := ok_of (show isOk (labels.formLabel (labels.wideOf [labels.labX 5, labels.labX 7])
    (labels.conjOf [labels.labX 5, labels.labX 7])) = true by decide)
  exact ⟨labels, u, 5, 7, w, by decide, by decide, by decide, h⟩

theorem witness_NogoodsAndEpochs_top : ∃ (s : State) (a : Nat), a < 32 ∧ Claims.plainCore s ∧ s.grantValue = none ∧
    s.eval (s.labX a) = topLabel ∧ s.eval (s.labV a) = topLabel :=
  ⟨labels, 30, by decide, plain_labels, by decide, by decide, by decide⟩

theorem witness_NogoodsAndEpochs_refused : ∃ (s : State) (v : Word), Claims.plainCore s ∧ s.grantValue = some v ∧ v ≠ 0 ∧
    v ≠ ackPair ∧ v ≠ ackReset :=
  ⟨placed.mapCore fun c => { c with issue := ⟨0, true, false⟩, grants := [(0, 1)] }, 1, (by intro r h; cases h), by decide,
    by decide, by decide, by decide⟩

/-- Core 0 waits for an umpire whose store is full. -/
def fullStore : State := contradicted.mapWorld fun w => { w with nogoods := List.replicate 1024 (BitVec.ofNat 256 4) }

theorem witness_NogoodsAndEpochs_full : ∃ (s : State) (cl core : Nat) (g : Label),
    (s.coreAt cl core).issue.lone = true ∧ (s.coreAt cl core).park = some (.contra g) ∧ s.ctx.world.addNogoods g = none :=
  ⟨fullStore, 0, 0, [BitVec.ofNat 256 3], by decide, by decide, by decide⟩

theorem witness_NogoodsAndEpochs_used : ∃ (s : State) (cl core : Nat), (s.coreAt cl core).issue.lone = true ∧
    (s.coreAt cl core).park = some .wreset ∧
    nextEpoch s.ctx.world.epoch ∈ s.ctx.world.used ∧ (s.coreAt cl core).lblcfg.swept = false :=
  ⟨renewed.mapWorld fun w => { w with used := [1, 2] }, 0, 0, by decide, by decide, by decide, by decide⟩

theorem witness_CatchNetwork_held : ∃ (s : State) (g a : Nat), g < 16 ∧ a < 64 ∧ Claims.catchMember s g ∧
    (s.group g).flags.getLsbD s.focus.core = false ∧ Claims.allArrived (s.group g) (Claims.flagsWith s g) ∧
    (s.group g).held = [(216, false, true)] ∧
    ¬ Claims.allArrived (s.group g) (Claims.nextPhase s g a).flags.toNat :=
  ⟨(caught (2 ^ 216 + 1) (2 ^ 216)).mapCluster 0 fun k => k.mapGroup 15 fun g => { g with held := [(216, false, true)] }, 15, 63,
    by decide, by decide, ⟨(fun e => nomatch e), (show 0 < 192 by decide), by decide⟩, by decide,
    by unfold Claims.allArrived; decide, by decide, by unfold Claims.allArrived; decide⟩

theorem witness_CatchNetwork_wake : ∃ (s : State) (g : Nat) (v : Word), Claims.plainCore s ∧ Claims.catchMember s g ∧
    s.grantValue = some (v + 1) :=
  ⟨(caught 1 0).mapCore fun c => { c with issue := ⟨0, true, false⟩, grants := [(0, 1)] }, 15, 0, (by intro r h; cases h),
    ⟨(fun e => nomatch e), (show 0 < 192 by decide), by decide⟩, by decide⟩

theorem witness_CatchNetwork_flag : ∃ (s : State) (g : Nat), Claims.plainCore s ∧ Claims.catchMember s g ∧
    (s.group g).flags.getLsbD s.focus.core = true :=
  ⟨caught 3 1, 15, (by intro r h; cases h), member_caught _ _ (by decide), by decide⟩

/-- The same under STRICT, x5 labelled COND. -/
def strictMember : State :=
  (strictLabels.mapCore fun c => { c with gang := some ⟨0, 2⟩ }).mapCluster 0 fun k => k.mapGroup 15 fun g => { g with image := 1 }

theorem witness_CatchNetwork_class : ∃ (s : State) (g a : Nat), Claims.plainCore s ∧ Claims.catchMember s g ∧
    (s.group g).flags.getLsbD s.focus.core = false ∧ Claims.classTraps s [s.labX a] :=
  ⟨strictMember, 15, 5, (by intro r h; cases h), ⟨(fun e => nomatch e), (show 0 < 192 by decide), by decide⟩, by decide,
    by decide, by decide⟩

theorem witness_CatchNetwork_traps : (∃ s : State, s.focus.core < 192 ∧ Claims.plainCore s ∧ s.grantValue = none ∧
      s.core.gang = none) ∧
    ∃ (s : State) (g : Nat), s.focus.core < 192 ∧ Claims.plainCore s ∧ s.grantValue = none ∧ s.core.gang ≠ none ∧
      (s.group g).image.getLsbD s.focus.core = false :=
  ⟨⟨placed, by decide, plain_placed, by decide, by decide⟩,
    ⟨caught 2 0, 15, by decide, (by intro r h; cases h), by decide, (fun e => nomatch e), by decide⟩⟩

/-- Logical core 191 is not mapped; x63 holds its number. -/
def short : State := { setX placed 63 191 with
  ctx := { placed.ctx with desc := { placed.ctx.desc with unmapped := [(0, 191)] } } }

theorem witness_CountersAndTimedWaits_traps : (∃ (s : State) (a : Nat), a ≠ 0 ∧ Claims.plainCore s ∧ 191 < (s.rdX a).toNat) ∧
    (∃ (s : State) (a : Nat), a ≠ 0 ∧ Claims.plainCore s ∧ (s.rdX a).toNat < 192 ∧
      s.ctx.mapped s.focus.cl (s.rdX a).toNat = false) ∧
    ∃ (s : State) (a b : Nat), Claims.plainCore s ∧ s.grantValue = none ∧ Claims.classTraps s [s.labX a] ∧
      Claims.classTraps s [s.labX a, s.labX b] :=
  ⟨⟨setX placed 63 192, 63, by decide, (by intro r h; cases h), by decide⟩,
    ⟨short, 63, by decide, (by intro r h; cases h), by decide, by decide⟩,
    ⟨strictLabels, 5, 7, (by intro r h; cases h), by decide, ⟨by decide, by decide⟩, by decide, by decide⟩⟩

theorem witness_Continuations_stops : (∃ (s : State) (a d k : Nat), Claims.plainCore s ∧ Claims.mayLeave s a d k (.suspk k a d) ∧
      s.core.status.inup = true) ∧
    (∃ (s : State) (a d k : Nat), Claims.plainCore s ∧ Claims.mayLeave s a d k .yield ∧ s.core.status.inup = false ∧
      s.core.loops ≠ []) ∧
    ∃ s : State, Claims.plainCore s ∧ s.core.gang ≠ none :=
  ⟨⟨running.mapCore fun c => { c with status := { c.status with inup := true } }, 5, 0, 15, (by intro r h; cases h),
      .inr (.inr ⟨rfl, .inr (.inr (.inr ⟨rfl, .inl (by decide), .inl rfl⟩))⟩), by decide⟩,
    ⟨running.mapCore fun c => { c with loops := [⟨0, 0, 1⟩] }, 0, 0, 0, (by intro r h; cases h), .inr (.inr ⟨rfl, .inl rfl⟩),
      by decide, by decide⟩,
    ⟨caught 1 0, (by intro r h; cases h), (fun e => nomatch e)⟩⟩

theorem witness_Continuations_operands : (∃ (s : State) (a : Nat), Claims.plainCore s ∧ s.core.status.mode = .s ∧ a ≠ 0 ∧
      (s.drain.rdX a).getLsbD 15 = false) ∧
    (∃ (s : State) (a d : Nat), Claims.plainCore s ∧ s.core.gang = none ∧ Claims.classPasses s.drain [s.drain.labX a] ∧
      2 ^ 60 ≤ (s.drain.rdX a).toNat ∧ Claims.classPasses s.drain [s.drain.labX a, s.drain.labX d] ∧ d ≠ 0 ∧
      191 < (s.drain.rdX d).toNat) ∧
    ∃ (s : State) (a d : Nat), Claims.plainCore s ∧ s.core.gang = none ∧ Claims.classTraps s.drain [s.drain.labX a] ∧
      Claims.classTraps s.drain [s.drain.labX a, s.drain.labX d] ∧ Claims.classTraps s [s.labX a, s.labX d] :=
  ⟨⟨super, 63, plain_super, by decide, by decide, by decide⟩,
    ⟨setX placed 63 (2 ^ 60), 63, 63, (by intro r h; cases h), by decide, .inl (by decide), by decide, .inl (by decide), by decide,
      by decide⟩,
    ⟨strictLabels, 5, 7, (by intro r h; cases h), by decide, ⟨by decide, by decide⟩, ⟨by decide, by decide⟩, by decide,
      by decide⟩⟩

/-! ### Witnesses: where accesses trap, and what an invocation refuses -/

theorem err_of {ε α : Type} {r : Except ε α} (h : isOk r = false) : ∃ e, r = .error e := by
  cases r with
  | ok _ => cases h
  | error e => exact ⟨e, rfl⟩

/-- Hypotheses of the access traps with a check that fails. -/
def accessFailing (c : Cause) : Prop := ∃ (s : State) (i : Instr) (acc : Access) (n : Nat) (va : Word) (info : Nat), i.wf = true ∧
  Claims.plainCore s ∧ Claims.accessOf s i = some (acc, n, va) ∧ Claims.AccessFails s acc n va c info

theorem witness_ScalarAccesses_misalign : accessFailing .misalign :=
  ⟨setX placed 5 1, .lh 63 5 0, .read, 2, 1, 0, by decide, (by intro r h; cases h), by decide, .misalign (by decide)⟩

theorem witness_ScalarAccesses_page : ∃ c, accessFailing c := by
  obtain ⟨d, h⟩ := err_of (show isOk (placed.translate placed.me .read 0) = false by decide)
  exact ⟨d.cause, placed, .ld 63 0 0, .read, 8, 0, d.info, by decide, plain_placed, by decide, .page (by decide) h⟩

/-- The address of core 0's inbox in x5. -/
def atInbox : State := setX placed 5 (store0 + 0x3F000)

theorem witness_ScalarAccesses_perm : accessFailing .perm :=
  ⟨atInbox, .sd 63 5 0, .write, 8, store0 + 0x3F000, 1, by decide, (by intro r h; cases h), by decide,
    .perm (p := localPlace atInbox.ctx 0 0 0x3F000 (store0 + 0x3F000)) (u := atInbox) (by decide) rfl
      (fun h => (h.2.2 (by decide)).2 ⟨by decide, by decide, by decide⟩)⟩

/-- The line of the page is held compressed. -/
def tagged : State := atPage.mapDev fun d => { d with held := [(lineOf (pagePlace .read).loc, ⟨true, []⟩)] }

theorem witness_ScalarAccesses_memattr : accessFailing .memattr := by
  have h := eq_ok (lastPlace, tagged) (show isOk (tagged.translate tagged.me .read page0) = true by decide)
  exact ⟨tagged, .ld 63 5 0, .read, 8, page0, 8, by decide, (by intro r h; cases h), by decide,
    .memattr (h := ⟨true, []⟩) (by decide) h ⟨fun _ => by decide, fun e => absurd rfl e, fun _ => ⟨by decide, fun e => e.1 rfl⟩⟩
      (by decide) (by decide) (by decide)⟩

/-- A row operation writes the page. -/
def ranged : State := atPage.mapCluster 0 fun k =>
  { k with locks := [⟨0, page0.toNat, page0.toNat + 8, true, .row, 3⟩] }

theorem witness_ScalarAccesses_range : accessFailing .range := by
  have h := eq_ok (lastPlace, ranged) (show isOk (ranged.translate ranged.me .read page0) = true by decide)
  obtain ⟨d, hd⟩ := err_of (show isOk (rangeCheck ranged.myCluster.locks page0 8 false) = false by decide)
  exact ⟨ranged, .ld 63 5 0, .read, 8, page0, d.info, by decide, (by intro r h; cases h), by decide,
    .range (by decide) h ⟨fun _ => by decide, fun e => absurd rfl e, fun _ => ⟨by decide, fun e => e.1 rfl⟩⟩
      (.inr fun x hx => by cases hx) hd⟩

/-- The line of the local store is poisoned. -/
def poisonedLine : State := atStore.mapDev fun d => { d with poison := [lineOf lastPlace.loc] }

theorem witness_ScalarAccesses_memerr : accessFailing .memerr :=
  ⟨poisonedLine, .ld 63 5 0, .read, 8, lastLine, 8, by decide, (by intro r h; cases h), by decide,
    .memerr rfl (reaches_store _ _ _ _ _ (show lastPlace.ls.isSome = true by decide) (by decide) rfl rfl rfl) (by decide)⟩

theorem witness_ScalarAccesses_merge : ∃ (s u v : State) (d a off n val : Nat) (i : Instr) (lbl : LabelWord) (p : Place)
    (nl : Label), (i, val, lbl, n) ∈ Claims.storeForms s d a off ∧ i.wf = true ∧ Claims.plainCore s ∧
    Claims.reaches s .write n (Claims.scalarAddress s a off n) p u ∧ Claims.writeLabels s v p [lbl, s.labX a] nl ∧
    s.dev.poison.contains (lineOf p.loc) = true := by
  have h := eq_ok (0, poisonedLine) (show isOk (poisonedLine.formConj [poisonedLine.labX 63, poisonedLine.labX 5]) = true by decide)
  refine ⟨poisonedLine, poisonedLine, _, 63, 5, 63, 1, _, _, _, localPlace poisonedLine.ctx 0 0 0x3EFFF (lastLine + 63), _, .head _,
    by decide, (by intro r h; cases h), reaches_store _ _ _ _ _ rfl (by decide) rfl rfl rfl, ⟨⟨_, h, rfl⟩, .inr ?_⟩, by decide⟩
  exact ⟨_, eq_ok (0, poisonedLine.ctx.world, false) (by decide)⟩

/-- x7 holds the address of the page, x5 a value whose label the page cannot hold. -/
def labelledPage : State := setX labels 7 page0

theorem witness_ScalarAccesses_lblpage : ∃ (s u v : State) (d a off n val : Nat) (i : Instr) (lbl : LabelWord) (p : Place)
    (w : LabelWord), (i, val, lbl, n) ∈ Claims.storeForms s d a off ∧ i.wf = true ∧ Claims.plainCore s ∧
    Claims.reaches s .write n (Claims.scalarAddress s a off n) p u ∧ s.formConj [lbl, s.labX a] = .ok (w, v) ∧
    v.eval w ≠ topLabel ∧ p.lt = false := by
  have h := eq_ok (0, labelledPage) (show isOk (labelledPage.formConj [labelledPage.labX 5, labelledPage.labX 7]) = true by decide)
  have k := eq_ok (lastPlace, labelledPage)
    (show isOk (labelledPage.translate labelledPage.me .write (Claims.scalarAddress labelledPage 7 0 1)) = true by decide)
  exact ⟨labelledPage, _, _, 5, 7, 0, 1, _, _, _, _, _, .head _, by decide, (by intro r h; cases h),
    ⟨by decide, k, by decide, .inr (fun x hx => by cases hx), by decide, .inr (by decide)⟩, h, by decide, by decide⟩

theorem witness_EdgeReturns_refuses : ∃ (s : State) (e : EdgeRole) (i : Invocation) (j : Instr) (kind : Nat) (addr : Word),
    Claims.invoked s e i ∧ j.wf = true ∧ Claims.refusedForm s j = some (kind, addr) :=
  ⟨strictly, _, ⟨0, 0, 0⟩, .sd 63 5 1, 1, 8, ⟨rfl, rfl, rfl⟩, by decide, by decide⟩

/-! ### Witnesses: labels that cannot be formed, and matrix forms that trap -/

/-- Core 0 may form labels of one environment, and the label table is full. -/
def narrow : State := (labels.mapCore fun c => { c with lblcfg := { c.lblcfg with xmax := 1, ovf := false } }).mapWorld fun w =>
  { w with table := List.replicate 65534 (1, [BitVec.ofNat 256 4]) }

theorem witness_FormedLabelReadsBack_ovf : ∃ (s : State) (l : Label), s.srcCfg.ovf = false ∧
    s.srcCfg.xmax < (minimise s.ctx.world.nogoods l).length :=
  ⟨narrow, [BitVec.ofNat 256 1, BitVec.ofNat 256 2], by decide, by decide⟩

theorem witness_FormedLabelReadsBack_tab : ∃ (s : State) (m : Label), m = minimise s.ctx.world.nogoods [BitVec.ofNat 256 2] ∧
    m.length ≤ s.srcCfg.xmax ∧ m ≠ [] ∧ m ≠ topLabel ∧ (s.core.epoch, m) ∉ s.ctx.world.table ∧
    Config.handles ≤ s.ctx.world.table.length := by
  refine ⟨narrow, _, rfl, by decide, by decide, by decide, ?_, ?_⟩
  · intro h
    have := List.eq_of_mem_replicate (show _ ∈ List.replicate 65534 ((1 : BitVec 8), [BitVec.ofNat 256 4]) from h)
    exact absurd this (by decide)
  · exact Nat.le_of_eq (List.length_replicate (n := 65534) (a := ((1 : BitVec 8), [BitVec.ofNat 256 4]))).symm

/-- Core 0 may not form the label of x5. -/
def stingy : State := labels.mapCore fun c => { c with lblcfg := { c.lblcfg with xmax := 0, ovf := false } }

def isTrap {α : Type} : Result α → Bool
  | .error (.trap _) => true
  | _ => false

theorem trap_of {α : Type} {r : Result α} (h : isTrap r = true) : ∃ e, r = .error (.trap e) := by
  unfold isTrap at h
  split at h
  · exact ⟨_, rfl⟩
  · cases h

theorem witness_IntegerForms_trap : ∃ (s : State) (d a b : Nat) (i : Instr) (g : Word → Word → Word) (e : Trap),
    (i, g) ∈ Claims.integerForms d a b ∧ i.wf = true ∧ d ≠ 0 ∧ s.formConj [s.labX a, s.labX b] = .error (.trap e) := by
  obtain ⟨e, h⟩ := trap_of (show isTrap (stingy.formConj [stingy.labX 5, stingy.labX 6]) = true by decide)
  exact ⟨stingy, 63, 5, 6, _, _, e, .head _, by decide, by decide, h⟩

theorem witness_MatrixIssue_lease : ∃ (s : State) (i : Instr), i.wf = true ∧ Claims.plainCore s ∧ s.core.mfault = none ∧
    s.holdsLease = false ∧ i ∈ (Claims.mmaForms 0 0 false 6 6 0).map Prod.fst :=
  ⟨placed, _, by decide, plain_placed, by decide, by decide, .head _⟩

theorem witness_MatrixIssue_deferred : ∃ (s : State) (tr : Trap), Claims.plainCore s ∧ s.core.mfault = some tr :=
  ⟨placed.mapCore fun c => { c with mfault := some ⟨.memerr, 12, 0x40, 0, true⟩ }, _, (by intro r h; cases h), rfl⟩

theorem witness_MatrixIssue_misalign : ∃ (s : State) (a b : Nat), Claims.plainCore s ∧ s.core.mfault = none ∧ s.holdsLease = true ∧
    ¬ Claims.strideAligned (s.rdX a) (s.rdX (a + 1)) ∧ Claims.strideAligned (s.rdX b) (s.rdX (b + 1)) :=
  ⟨setX leased 8 1, 8, 6, (by intro r h; cases h), by decide, by decide, by unfold Claims.strideAligned; decide,
    by unfold Claims.strideAligned; decide⟩

/-! ### Witnesses: features, records, joins of an edge program, signals, unloaded pages -/

theorem witness_ControlRegisterReads_features : ∃ (s : State) (n : Nat), n = 3 ∧ s.dev.lostUnits = [] ∧ s.ctx.nclus < 256 ∧
    s.ctx.desc.tx < 256 ∧ s.ctx.desc.ty < 256 ∧ s.ctx.desc.tz < 256 :=
  ⟨placed, 3, rfl, rfl, by decide, by decide, by decide, by decide⟩

/-- A new record of no parent: its bits one by one. -/
theorem witness_Continuations_record : ∃ (image r : VWord) (qid : Nat) (epoch : BitVec 8), Claims.recordHolds r image qid epoch ∧
    rParent image = 0 :=
  ⟨0, BitVec.ofNat 512 (2 ^ 384 + 5 * 2 ^ 224 + 1 * 2 ^ 472), 5, 1, by unfold Claims.recordHolds; decide, by decide⟩

/-- The record at the page is held. -/
theorem witness_Continuations_child : ∃ (u : State) (va : Word) (image r : VWord) (qid : Nat) (epoch : BitVec 8),
    Claims.recordHolds r image qid epoch ∧ rParent image ≠ 0 ∧
    heldRecord ((u.putRecord va r).record (rParent image)) = true :=
  ⟨placed.mapDev fun d => d.poke 0x1000208030 [1], page0 + 64, BitVec.ofNat 512 (page0.toNat * 2 ^ 128),
    BitVec.ofNat 512 (page0.toNat * 2 ^ 128 + 2 ^ 384 + 5 * 2 ^ 224 + 1 * 2 ^ 472), 5, 1, by unfold Claims.recordHolds; decide, by decide,
    by decide⟩

theorem some_of {α : Type} {o : Option (α × State)} (h : o.isSome = true) : ∃ p w, o = some (p, w) := by
  cases o with
  | some x => exact ⟨x.1, x.2, rfl⟩
  | none => cases h

theorem witness_Continuations_bytes : ∃ (u w : State) (va : Word) (p : Place), va.toNat % 64 = 0 ∧ u.recordPlace va = some (p, w) := by
  obtain ⟨p, w, h⟩ := some_of (show (placed.recordPlace page0).isSome = true by decide)
  exact ⟨placed, w, page0, p, by decide, h⟩

/-- A descriptor at the page of an edge program over one vertex, its group 15, one step. -/
def edgeBytes : List Byte :=
  (([1 + 15 * 2 ^ 40 + 2 ^ 48, 0] ++ [64, 128, 192, 0, 256, 320, 0, 384, 448, 512, 576, 1024].map (page0.toNat + ·) ++ [0, 0]).map
    (bytesOf 8)).flatten
def joining : State := ((setX placed 5 page0 |>.mapDev fun d => d.poke 0x1000208000 edgeBytes).mapCore fun c =>
  { c with gang := some ⟨0, 1⟩ }).mapCluster 0 fun k => k.mapGroup 15 fun g => { g with image := 2 ^ 216 + 1 }
def joinRead : List Byte × List LabelWord × State :=
  okOr ([], [], joining) (joining.plainRead [(joining.rdX 5, 64), (joining.rdX 5 + 64, 64)])

theorem witness_EdgeReturns_joins : ∃ (s t v : State) (a : Nat) (bs : List Byte) (ws : List LabelWord) (d : EdgeDesc) (ctl : LabelWord),
    a < 64 ∧ Claims.plainCore s ∧ s.grantValue = none ∧ s.rejoins = false ∧ s.core.gang ≠ none ∧ s.core.loops = [] ∧
    (s.rdX a).toNat % 64 = 0 ∧ s.plainRead [(s.rdX a, 64), (s.rdX a + 64, 64)] = .ok (bs, ws, t) ∧
    d = edgeDescOf (BitVec.ofNat 1024 (natOf bs)) ∧ d.ok (BitVec.ofNat 1024 (natOf bs)) s.ctx = true ∧
    (s.group d.g).sweepOnly = true ∧ (∀ r, r ∈ s.myCluster.runs → r.phase = .joining → r.desc.g = d.g → r.va = s.rdX a) ∧
    s.inboxCheck d.written = .ok () ∧ (s.group d.g).isMember s.focus.core = true ∧
    (∀ c, c ∈ (s.group d.g).coreMembers → (s.group d.g).flag c = false) ∧ t.formConj (s.labX a :: ws) = .ok (ctl, v) := by
  have h : joining.plainRead [(joining.rdX 5, 64), (joining.rdX 5 + 64, 64)] = .ok joinRead := eq_ok ([], [], joining) (by decide)
  obtain ⟨ctl, v, k⟩ := ok_of (show isOk (joinRead.2.2.formConj (joining.labX 5 :: joinRead.2.1)) = true by decide)
  exact ⟨joining, joinRead.2.2, v, 5, joinRead.1, joinRead.2.1, _, ctl, by decide, (by intro r h; cases h), by decide, by decide,
    by decide, by decide, by decide, ok_parts h, rfl, by decide, by decide, (by intro r h; cases h), by decide, by decide, by decide, k⟩

theorem witness_EdgeReturns_traps : (∃ s : State, Claims.plainCore s ∧ s.grantValue = none ∧ s.rejoins = false ∧ s.core.gang = none) ∧
    (∃ s : State, Claims.plainCore s ∧ s.grantValue = none ∧ s.rejoins = false ∧ s.core.gang ≠ none ∧ s.core.loops ≠ []) ∧
    ∃ s : State, Claims.plainCore s ∧ s.grantValue = none ∧ s.rejoins = false ∧ s.core.gang ≠ none ∧ s.core.loops = [] ∧
      (s.rdX 5).toNat % 64 ≠ 0 :=
  ⟨⟨placed, plain_placed, by decide, by decide, by decide⟩,
    ⟨joining.mapCore fun c => { c with loops := [⟨0, 0, 1⟩] }, (by intro r h; cases h), by decide, by decide, by decide, by decide⟩,
    setX joining 5 1, (by intro r h; cases h), by decide, by decide, by decide, by decide, by decide⟩

/-- A core that waits in the join again. -/
theorem witness_EdgeReturns_rejoins : ∃ s : State, s.grantValue = none ∧ s.rejoins = true :=
  ⟨placed.mapCore fun c => { c with edge := some ⟨15, Regs.reset, c.pc, ⟨0, true, false⟩, none, 0⟩ }, by decide, by decide⟩

/-- Where the signal of a packet is written. -/
def signalled : State := (queueing [signalling]).mapQueue 9 fun q => { q with packets := q.packets.filter fun x => x.seq != 5 }

theorem witness_HostPackets_signals : ∃ (s v : State) (qid : Nat) (q : Queue) (p : Packet) (pl : Place), s.queue qid = some q ∧
    (q.packets.find? fun x => x.seq == p.seq) = some p ∧ slotSig p.slot ≠ 0 ∧
    (s.mapQueue qid fun q => { q with packets := q.packets.filter fun x => x.seq != p.seq }).enginePlace hostAgent .write
      (slotSig p.slot) = .ok (pl, v) ∧ v.poisonCheck hostAgent .write pl = .ok () := by
  have h : signalled.enginePlace hostAgent .write (slotSig signalling.slot) = .ok
    (okOr (lastPlace, placed) (signalled.enginePlace hostAgent .write (slotSig signalling.slot))) := eq_ok (lastPlace, placed) (by decide)
  exact ⟨queueing [signalling], _, 9, queue9 [signalling], signalling, _, rfl, rfl, by decide, h, by decide⟩

/-- The page of an image that was unloaded in stroke 0, mapped by an entry to the code heap. -/
def heapImage : Image := ⟨0x8_0000_0000, 64, [0x1_4000_0000], (0, 0), 0, some 0, []⟩
def heapTables : Nat := (((placed.nextTable heapImage.base 1 placed.ctx.desc.troot).bind fun x =>
  placed.nextTable heapImage.base 2 x)).getD 0
def heapEntry : Nat := (placed.entryLoc heapImage.base 3 heapTables).getD 0
def unloaded : State := (((placed.mapCtx fun k => { k with images := [heapImage] }).mapDev fun d =>
  { d with stroke := 1, cycle := BitVec.ofNat 64 Config.stroke })).mapDev fun d =>
    d.poke heapEntry (bytesOf 8 (0x1_4000_0000 + 3))

theorem witness_Contexts_freed_page : ∃ (s : State) (base : Word) (img : Image) (τ table loc pa : Nat), s.ctx.desc.part.length ≤ 4 ∧
    s.ctx.images = [img] ∧ img.base = base ∧ img.unloading = some τ ∧ τ < s.dev.stroke.toNat ∧
    s.dev.cycle.toNat % Config.stroke = 0 ∧ s.dev.stroke.toNat = s.dev.cycle.toNat / Config.stroke ∧
    (∀ cl c, cl < s.ctx.desc.part.length → c < 192 → img.gen.toNat ≤ (s.coreAt cl c).codegen.toNat) ∧ 0 < img.size ∧
    img.size ≤ 2 ^ 16 ∧ img.places = [pa] ∧ ((s.nextTable base 1 s.ctx.desc.troot).bind fun x => s.nextTable base 2 x) = some table ∧
    s.entryLoc base 3 table = some loc ∧ (leafOf (s.dev.num loc 8) 3).pa = pa :=
  ⟨unloaded, heapImage.base, heapImage, 0, heapTables, heapEntry, 0x1_4000_0000, by decide, rfl, rfl, rfl, by decide, by decide, by decide,
    fun _ _ _ _ => Nat.zero_le _, by decide, by decide, rfl, by decide, by decide, by decide⟩

/-! ### Witnesses: label words of lines, special registers, exact floats -/

theorem witness_ControlRegisterWrites_class : ∃ (s : State) (d n a x : Nat) (v : Word) (i : Instr),
    (i, x, v) ∈ Claims.crForms s d n a ∧ Claims.crWritable s n ∧ Claims.classTraps s [s.labX a] :=
  ⟨strictLabels, 63, 0, 5, _, _, _, .head _, .inl (by decide), by decide, by decide⟩

theorem witness_ControlRegisterWrites_mprog_set : ∃ (s : State) (d a x : Nat) (v : Word) (i : Instr), d < 64 ∧ a < 64 ∧
    s.core.status.mode = .s ∧ Claims.classPasses s [s.labX a] ∧ (i, x, v) ∈ Claims.crForms s d 0x040 a ∧ v.toNat < 2 ^ 63 :=
  ⟨super, 63, 5, _, _, _, by decide, by decide, by decide, .inl (by decide), .tail _ (.head _), by decide⟩

theorem apart_lastPlace : Claims.labelApart lastPlace lastPlace.loc 64 := by
  intro b h k
  have h1 : labelLoc (lineOf lastPlace.loc) = (labelLoc (lineOf lastPlace.loc)) := rfl
  unfold Claims.within at h k
  have h2 : lastPlace.loc + 64 ≤ labelLoc (lineOf lastPlace.loc) := by decide
  omega

/-- The label word of the last line is of an older epoch; in `agreeing` it is of the current one. -/
theorem witness_ScalarAccesses_label : ∃ (s v : State) (p : Place) (nl : Label) (r : LabelWord × World × Bool), p.lt = true ∧
    Claims.labelApart p p.loc 64 ∧
    ¬ (conj v.ctx.world.nogoods (v.ctx.world.eval s.core.epoch (s.dev.rawLabel (lineOf p.loc))) nl =
      v.ctx.world.eval s.core.epoch (s.dev.rawLabel (lineOf p.loc)) ∧ lwEpoch (s.dev.rawLabel (lineOf p.loc)) = s.core.epoch) ∧
    v.ctx.world.form s.labelCfg (conj v.ctx.world.nogoods (v.ctx.world.eval s.core.epoch (s.dev.rawLabel (lineOf p.loc))) nl) = .ok r :=
  ⟨atStore, atStore, lastPlace, topLabel, _, rfl, apart_lastPlace, by decide, eq_ok (0, atStore.ctx.world, false) (by decide)⟩

def agreeing : State := atStore.mapDev fun d => d.setRawLabel lastPlace.loc (mkWord 1 false 0)

theorem witness_ScalarAccesses_label_kept : ∃ (s v : State) (p : Place) (nl : Label), p.lt = true ∧
    conj v.ctx.world.nogoods (v.ctx.world.eval s.core.epoch (s.dev.rawLabel (lineOf p.loc))) nl =
      v.ctx.world.eval s.core.epoch (s.dev.rawLabel (lineOf p.loc)) ∧ lwEpoch (s.dev.rawLabel (lineOf p.loc)) = s.core.epoch :=
  ⟨agreeing, agreeing, lastPlace, topLabel, rfl, by decide, by decide⟩

theorem witness_VectorLines_label : ∃ p : Place, p.lt = true ∧ Claims.labelApart p p.loc 64 := ⟨lastPlace, rfl, apart_lastPlace⟩

/-- One element in the last line. -/
def element : List (Word × List Byte) := [(lastLine, [1, 2, 3, 4])]
def elementPlaces : List Place × State := okOr ([], atStore) (atStore.translateAll atStore.me .write (element.map Prod.fst))

theorem witness_StoresStayInTheirLines_label : ∃ (s u v x : State) (w : LabelWord) (ws : List LabelWord) (n align : Nat)
    (els : List (Word × List Byte)) (ps : List Place) (p : Place), s.storeAll ws n align els = .ok u ∧
    (∀ e, e ∈ els → e.2.length = n) ∧ s.translateAll s.me .write (els.map Prod.fst) = .ok (ps, v) ∧
    s.formConj ws = .ok (w, x) ∧ (∀ q, q ∈ ps → Claims.agrees s q ∧ Claims.labelApart p q.loc n) ∧
    (ps.countP fun q => lineOf q.loc == lineOf p.loc) = 1 ∧ p ∈ ps := by
  have h : atStore.translateAll atStore.me .write (element.map Prod.fst) = .ok elementPlaces := eq_ok ([], atStore) (by decide)
  have k : elementPlaces.1 = [lastPlace] := by decide
  obtain ⟨w, x, hw⟩ := ok_of (show isOk (atStore.formConj [0]) = true by decide)
  refine ⟨atStore, _, elementPlaces.2, x, w, [0], 4, 4, element, elementPlaces.1, lastPlace, eq_ok atStore (by decide), by decide, h,
    hw, ?_, by decide, by rw [k]; exact .head _⟩
  intro q hq
  rw [k] at hq
  cases hq with
  | head => exact ⟨.inl rfl, fun b hb hk => apart_lastPlace b hb ⟨hk.1, Nat.lt_of_lt_of_le hk.2 (by decide)⟩⟩
  | tail _ hq => cases hq

theorem witness_LineLabels_pages : (∃ (s u : State) (d a : Nat) (p : Place), Claims.reaches s .write 1 (s.rdX a) p u ∧
      Claims.plainCore s ∧ s.core.status.mode = .s ∧ p.lt = false ∧ (s.rdX d).toNat % 2 ^ 16 = 0) ∧
    ∃ (s u : State) (d a : Nat) (p : Place), Claims.reaches s .write 1 (s.rdX a) p u ∧ Claims.plainCore s ∧
      s.core.status.mode = .s ∧ p.lt = false ∧ (s.rdX d).toNat % 2 ^ 16 ≠ 0 := by
  have h := eq_ok (lastPlace, setX super 5 page0) (show isOk ((setX super 5 page0).translate (setX super 5 page0).me .write page0) = true
    by decide)
  exact ⟨⟨_, _, 0, 5, _, ⟨by decide, h, by decide, .inr (fun x hx => by cases hx), by decide, .inr (by decide)⟩,
      (by intro r h; cases h), by decide, by decide, by decide⟩,
    _, _, 5, 5, _, ⟨by decide, h, by decide, .inr (fun x hx => by cases hx), by decide, .inr (by decide)⟩,
      (by intro r h; cases h), by decide, by decide, by decide⟩

theorem witness_LineLabels_user : ∃ (s v : State) (d a : Nat) (p : Place) (w : LabelWord), Claims.reaches s .write 1 (s.rdX a) p s ∧
    Claims.plainCore s ∧ s.core.status.mode = .u ∧
    s.formWith [s.labX d, s.labX a] (s.ctx.world.readWord s.core.epoch (BitVec.ofNat 32 (s.rdX d).toNat)) = .ok (w, v) ∧
    Claims.lineForms s v p (v.eval w) := by
  have h := eq_ok (0, atStore) (show isOk (atStore.formWith [atStore.labX 0, atStore.labX 5]
    (atStore.ctx.world.readWord atStore.core.epoch (BitVec.ofNat 32 (atStore.rdX 0).toNat))) = true by decide)
  exact ⟨atStore, _, 0, 5, lastPlace, _, reaches_store _ _ _ _ _ rfl (by decide) rfl rfl rfl, plain_atStore, by decide, h,
    .inr ⟨_, eq_ok (0, atStore.ctx.world, false) (by decide)⟩⟩

theorem witness_LineLabels_lblpage : ∃ (s u v : State) (d a : Nat) (p : Place) (w : LabelWord),
    Claims.reaches s .write 1 (s.rdX a) p u ∧ Claims.plainCore s ∧ s.core.status.mode = .u ∧
    s.formWith [s.labX d, s.labX a] (s.ctx.world.readWord s.core.epoch (BitVec.ofNat 32 (s.rdX d).toNat)) = .ok (w, v) ∧
    p.lt = false ∧ v.eval w ≠ topLabel := by
  have h := eq_ok (0, labelledPage) (show isOk (labelledPage.formWith [labelledPage.labX 5, labelledPage.labX 7]
    (labelledPage.ctx.world.readWord labelledPage.core.epoch (BitVec.ofNat 32 (labelledPage.rdX 5).toNat))) = true by decide)
  have k := eq_ok (lastPlace, labelledPage)
    (show isOk (labelledPage.translate labelledPage.me .write (labelledPage.rdX 7)) = true by decide)
  exact ⟨labelledPage, _, _, 5, 7, _, _, ⟨by decide, k, by decide, .inr (fun x hx => by cases hx), by decide, .inr (by decide)⟩,
    (by intro r h; cases h), by decide, h, by decide, by decide⟩

/-- 1 and 2 and their sum, difference and product; a quiet and a signalling NaN. -/
theorem witness_FloatForms_exact : ∃ (m : Nat) (x y : FVal), m < 4 ∧ Claims.finite x ∧ Claims.finite y ∧
    (∀ r, r ∈ [0x40400000, 0xBF800000, 0x40000000] → Claims.finite (fp32.decode r) ∧ Claims.rat (fp32.decode r) ≠ 0) ∧
    Claims.rat (fp32.decode 0x40400000) = Claims.rat x + Claims.rat y ∧
    Claims.rat (fp32.decode 0xBF800000) = Claims.rat x - Claims.rat y ∧
    Claims.rat (fp32.decode 0x40000000) = Claims.rat x * Claims.rat y := by
  have h3 : fp32.decode 0x40400000 = .fin false 0xC00000 (-22) := by decide
  have h1 : fp32.decode 0xBF800000 = .fin true 0x800000 (-23) := by decide
  have h2 : fp32.decode 0x40000000 = .fin false 0x800000 (-22) := by decide
  refine ⟨3, .fin false 1 0, .fin false 1 1, by decide, trivial, trivial, ?_, ?_, ?_, ?_⟩
  · intro r hr
    simp only [List.mem_cons, List.not_mem_nil, or_false] at hr
    rcases hr with rfl | rfl | rfl
    · rw [h3]; exact ⟨trivial, by norm_num [Claims.rat, FVal.exact]⟩
    · rw [h1]; exact ⟨trivial, by norm_num [Claims.rat, FVal.exact]⟩
    · rw [h2]; exact ⟨trivial, by norm_num [Claims.rat, FVal.exact]⟩
  · rw [h3]; norm_num [Claims.rat, FVal.exact]
  · rw [h1]; norm_num [Claims.rat, FVal.exact]
  · rw [h2]; norm_num [Claims.rat, FVal.exact]

theorem witness_FloatForms_nan : ∃ x y : FVal, x.isNan = true ∨ y.isNan = true := ⟨.nan true, .inf true, .inl rfl⟩
/-! ### Witnesses: leases, matrix commands, jobs and remote operations in their further cases -/

/-- Core 7 waits for the lease again that a gang-stop took, its tables saved with the engine. -/
def interrupted : State := (placed.mapMyEngine fun e =>
  { e with requests := [(7, 255)], saved := some ⟨7, some (7, 1), fill 256 5, fill 16 6⟩ }).mapCoreAt 0 7 fun c =>
    { c with park := some .lease }

theorem witness_LeasesAndMatrixSync_saved : ∃ (s : State) (cl crew m : Nat) (k : LeaseTables), Claims.plainCore s ∧
    s.ctx.stopped = false ∧ (s.mengine cl crew).holder = none ∧ (s.mengine cl crew).next = some m ∧
    (s.coreAt cl (crew * 8 + m)).park = some .lease ∧ (s.mengine cl crew).saved = some k ∧ k.member = m :=
  ⟨interrupted, 0, 0, 7, _, (by intro r h; cases h), rfl, by decide, by decide, by decide, rfl, rfl⟩

/-- The engine holds the tables of core 7 already. -/
theorem witness_LeasesAndMatrixSync_held : ∃ (s : State) (cl crew m : Nat), Claims.plainCore s ∧ s.ctx.stopped = false ∧
    (s.mengine cl crew).holder = none ∧ (s.mengine cl crew).next = some m ∧ (s.coreAt cl (crew * 8 + m)).park ≠ some .lease ∧
    (s.mengine cl crew).tables = some (crew * 8 + m, (s.coreAt cl (crew * 8 + m)).tableGen) :=
  ⟨placed.mapMyEngine fun e => { e with requests := [(7, 255)], tables := some (7, 0) }, 0, 0, 7, (by intro r h; cases h), rfl,
    by decide, by decide, by decide, by decide⟩

/-- An MLDA of one row of the local store, and an MSTA of eight words of one row there. -/
def loadRow : MEntry := { zeroing with cmd := .mlda 1 store0 0x0120_0000_0000_0080 }
def storeRow : MEntry := { zeroing with cmd := .msta 1 store0 0x0108_0000_0000_0080 }
def rowRead : List Byte × List LabelWord × State := okOr ([], [], placed) (placed.readSpan (loadRow.agent 0) store0 128)

theorem witness_MatrixCommandsRun_load : ∃ (s : State) (cl acc n : Nat) (e : MEntry) (base sw : Word) (bs : Nat → List Byte)
    (ws : Nat → List LabelWord), e.cmd = .mlda acc base sw ∧ e.rows = 0 ∧ n = sw.toNat / 2 ^ 56 % 2 ^ 8 ∧ n ≤ 8 ∧ 0 < n ∧
    (∀ i, i < n → s.readSpan (e.agent cl) (base + BitVec.ofNat 64 (i * (sw.toNat % 2 ^ 48))) 128 = .ok (bs i, ws i, s)) ∧
    (s.runCommand cl e).fail = none := by
  have h : placed.readSpan (loadRow.agent 0) store0 128 = .ok (rowRead.1, rowRead.2.1, placed) := by
    have k : placed.readSpan (loadRow.agent 0) store0 128 = .ok rowRead := eq_ok ([], [], placed) (by decide)
    rw [k]
    rfl
  refine ⟨placed, 0, 1, 1, loadRow, _, _, fun _ => rowRead.1, fun _ => rowRead.2.1, rfl, rfl, by decide, by decide, by decide, ?_, by decide⟩
  intro i hi
  obtain rfl : i = 0 := by omega
  exact h

theorem witness_MatrixCommandsRun_store : ∃ (s u : State) (cl acc n : Nat) (e : MEntry) (base sw : Word) (p : Place),
    e.cmd = .msta acc base sw ∧ e.rows = 0 ∧ sw.toNat / 2 ^ 56 % 2 ^ 8 = 1 ∧ n = 4 * min (sw.toNat / 2 ^ 48 % 2 ^ 8) 32 ∧ 0 < n ∧
    base.toNat % 64 + n ≤ 64 ∧ s.enginePlace (e.agent cl) .write base = .ok (p, u) ∧ (s.runCommand cl e).fail = none := by
  obtain ⟨p, u, h⟩ := ok_of (show isOk (placed.enginePlace (storeRow.agent 0) .write store0) = true by decide)
  exact ⟨placed, u, 0, 1, 32, storeRow, _, _, p, rfl, rfl, by decide, by decide, by decide, by decide, h, by decide⟩

theorem witness_MatrixCommandsRun_nan : ∃ (f : MForm) (i : Nat) (row col : List (Option FVal)) (x y : FVal), f ≠ .ii ∧
    row[i]? = some (some x) ∧ col[i]? = some (some y) ∧ (x.isNan = true ∨ y.isNan = true) :=
  ⟨.bb, 1, [none, some (.fin false 1 0)], [none, some (.nan true)], _, _, by decide, rfl, rfl, .inr rfl⟩

/-- The descriptor at the page asks for a copy of the page's second line to `dst`, with FLAGS as given. -/
def submitTo (flags : Nat) (dst : Word) : State := setX placed 5 page0 |>.mapDev fun d => d.poke 0x1000208000
  (bytesOf 8 flags ++ bytesOf 8 (page0.toNat + 64) ++ bytesOf 8 dst.toNat ++ bytesOf 4 64 ++ bytesOf 4 1 ++ bytesOf 32 0)
def submitRead (s : State) : VWord × LabelWord × State := okOr (0, 0, s) (s.readDescriptor page0)

theorem witness_JobInstructions_misalign : ∃ (s : State) (a : Nat), a < 64 ∧ Claims.plainCore s ∧ (s.rdX a).toNat % 64 ≠ 0 :=
  ⟨setX placed 5 1, 5, by decide, (by intro r h; cases h), by decide⟩

theorem witness_JobInstructions_illegal : ∃ (s t : State) (a : Nat) (desc : VWord) (lw : LabelWord) (j : Job), a < 64 ∧
    Claims.plainCore s ∧ s.readDescriptor (s.rdX a) = .ok (desc, lw, t) ∧ j = jobOf desc s.core.dealpat ∧
    t.jobOk (Claims.crew s) desc j = false :=
  ⟨atPage, _, 5, _, _, _, by decide, (by intro r h; cases h), ok_parts (eq_ok (0, 0, atPage) (by decide)), rfl, by decide⟩

/-- The inbox of core 0 begins with the last line that the job writes. -/
def intoInbox : State := submitTo 0 (store0 + 0x3F000)

theorem witness_JobInstructions_inbox : ∃ (s t : State) (a v : Nat) (desc : VWord) (lw : LabelWord) (j : Job), a < 64 ∧
    Claims.plainCore s ∧ s.readDescriptor (s.rdX a) = .ok (desc, lw, t) ∧ j = jobOf desc s.core.dealpat ∧
    t.jobOk (Claims.crew s) desc j = true ∧ Claims.lowestInbox t (t.writtenSpans (Claims.crew s) j) v := by
  have h : intoInbox.readDescriptor page0 = .ok (submitRead intoInbox) := eq_ok (0, 0, intoInbox) (by decide)
  have k : (submitRead intoInbox).2.2.writtenSpans 0 (jobOf (submitRead intoInbox).1 intoInbox.core.dealpat)
      = [(0x4000_0003_F000, 64)] := by decide
  have l : (submitRead intoInbox).2.2.ctx.desc.lsbase = 0x4000_0000_0000 := by decide
  refine ⟨intoInbox, (submitRead intoInbox).2.2, 5, 0x4000_0003_F000, (submitRead intoInbox).1, (submitRead intoInbox).2.1, _, by decide,
    (by intro r h; cases h), ok_parts h, rfl, by decide, ?_⟩
  unfold Claims.lowestInbox Claims.inInbox Claims.within
  rw [show Claims.crew intoInbox = 0 from rfl, k, l]
  exact ⟨by decide, ⟨_, .head _, by decide⟩, fun b hb _ p hp hw => by
    simp only [List.mem_singleton] at hp
    subst hp
    exact absurd hw.1 (by omega)⟩

/-- FA asks for an arrival at group 15; core 0 is in a gang, and its copy unit no member of the group, or in none. -/
def arriving (b : Bool) : State := (submitTo 0x1F40 (page0 + 128)).mapCore fun c =>
  { c with gang := if b then some ⟨0, 2⟩ else none }

theorem witness_JobInstructions_group (b : Bool) : ∃ (s t : State) (a : Nat) (desc : VWord) (lw : LabelWord) (j : Job),
    a < 64 ∧ Claims.plainCore s ∧ s.readDescriptor (s.rdX a) = .ok (desc, lw, t) ∧ j = jobOf desc s.core.dealpat ∧
    t.jobOk (Claims.crew s) desc j = true ∧ t.inboxCheck (t.writtenSpans (Claims.crew s) j) = .ok () ∧ j.fa = true ∧
    (s.core.gang = none ↔ b = false) ∧ (s.group j.g).isMember (192 + Claims.crew s) = false :=
  ⟨arriving b, _, 5, _, _, _, by decide, (by intro r h; cases h),
    ok_parts (eq_ok (0, 0, arriving b) (by cases b <;> decide)), rfl, by cases b <;> decide, by cases b <;> decide,
    by cases b <;> decide, by cases b <;> decide, by cases b <;> decide⟩

/-- Core 0's job copies a line of the page to the page, or to the last line of its store before the inbox. -/
def toStore : Job := { job .running with dst := lastLine }
def copyPlaces (s : State) (j : Job) : Place × State := okOr (lastPlace, s) (s.enginePlace (j.agent 0 0) .read j.src)

def toStorePlace : Place × State := okOr (lastPlace, working toStore)
  ((copyPlaces (working toStore) toStore).2.enginePlace (toStore.agent 0 0) .write toStore.dst)

def completesWith (code : Nat) : JobEnd → Bool
  | .complete _ c _ => c == code
  | .replay _ _ => false

theorem complete_with {e : JobEnd} {code : Nat} (h : completesWith code e = true) : ∃ s index, e = .complete s code index := by
  cases e with
  | complete s c i => exact ⟨s, i, by rw [eq_of_beq (show (c == code) = true from h)]⟩
  | replay _ _ => cases h

theorem witness_JobsRun_copy : ∃ (s u v w : State) (cl crew index : Nat) (j : Job) (p q : Place), j.kind = 0 ∧ j.rows = 1 ∧
    j.len = 64 ∧ j.src.toNat % 64 = 0 ∧ j.dst.toNat % 64 = 0 ∧ s.enginePlace (j.agent cl crew) .read j.src = .ok (p, v) ∧
    v.enginePlace (j.agent cl crew) .write j.dst = .ok (q, w) ∧ s.runJob cl crew j = .complete u 0 index ∧
    s.engineEval j.ctl = topLabel ∧ q.lt = true ∧ Claims.labelApart q q.loc 64 := by
  have h := eq_ok (lastPlace, working toStore) (show isOk ((working toStore).enginePlace (toStore.agent 0 0) .read toStore.src) = true
    by decide)
  have k : (copyPlaces (working toStore) toStore).2.enginePlace (toStore.agent 0 0) .write toStore.dst = .ok toStorePlace :=
    eq_ok (lastPlace, working toStore) (by decide)
  have k : (copyPlaces (working toStore) toStore).2.enginePlace (toStore.agent 0 0) .write toStore.dst = .ok (lastPlace, toStorePlace.2) := by
    rw [k, ← show toStorePlace.1 = lastPlace by decide]
  obtain ⟨u, i, r⟩ := complete_with (show completesWith 0 ((working toStore).runJob 0 0 toStore) = true by decide)
  exact ⟨working toStore, u, _, _, 0, 0, i, toStore, _, lastPlace, rfl, rfl, rfl, by decide, by decide, h, k, r, by decide, rfl,
    apart_lastPlace⟩

/-- Bit 41 of the place word is set. -/
theorem witness_RemoteOperations_group : ∃ (s : State) (i : Instr) (kind : RemoteKind) (k a : Nat), (i, kind) ∈ Claims.remoteForms k a ∧
    i.wf = true ∧ Claims.plainCore s ∧ s.ctx.desc.lsbase + 2 ^ 27 ≤ 2 ^ 64 ∧
    ((s.rdX a).toNat / 2 ^ 41 ≠ 0 ∨ 191 < (s.rdX a).toNat % 2 ^ 8) ∧ s.groupOk a (s.remoteOf kind k a) = false :=
  ⟨setX getting 8 (2 ^ 41), .get 15 8, .get, 15, 8, .head _, by decide, (by intro r h; cases h), by decide, .inl (by decide), by decide⟩

/-- The local side of a GET passes the first byte of core 0's inbox, and that of a SEND at the target that of core 1's. -/
def gettingInbox : State := setX getting 10 0x3EFF0
def sendingInbox : State := setX (setX getting 9 (64 * 2 ^ 40 + 0x3EFF0)) 10 64

theorem lowest_single {s : State} {lo n v : Nat} (h : Claims.inInbox s v) (hw : Claims.within lo n v) (hl : ∀ b, lo ≤ b → b < v →
    ¬ Claims.inInbox s b) : Claims.lowestInbox s [(lo, n)] v :=
  ⟨h, ⟨_, .head _, hw⟩, fun b hb hi p hp hk => by
    simp only [List.mem_singleton] at hp
    subst hp
    exact hl b hk.1 hb hi⟩

theorem witness_RemoteOperations_near : ∃ (s : State) (i : Instr) (kind : RemoteKind) (k a v : Nat) (r : RemoteOp),
    (i, kind) ∈ Claims.remoteForms k a ∧ i.wf = true ∧ Claims.plainCore s ∧ r = s.remoteOf kind k a ∧
    s.ctx.desc.lsbase + 2 ^ 27 ≤ 2 ^ 64 ∧ s.groupOk a r = true ∧ Claims.lowestInbox s (Claims.nearSpans s r) v := by
  refine ⟨gettingInbox, .get 15 8, .get, 15, 8, 0x4000_0003_F000, _, .head _, by decide, (by intro r h; cases h), rfl, by decide, by decide,
    ?_⟩
  have h : Claims.nearSpans gettingInbox (gettingInbox.remoteOf .get 15 8) = [(0x4000_0003_EFF0, 64)] := by decide
  have l : gettingInbox.ctx.desc.lsbase = 0x4000_0000_0000 := by decide
  rw [h]
  refine lowest_single (by unfold Claims.inInbox; rw [l]; decide) (by unfold Claims.within; decide) ?_
  intro b h1 h2 h3
  unfold Claims.inInbox at h3
  rw [l] at h3
  omega

theorem witness_RemoteOperations_far : ∃ (s : State) (i : Instr) (kind : RemoteKind) (k a v : Nat) (r : RemoteOp),
    (i, kind) ∈ Claims.remoteForms k a ∧ i.wf = true ∧ Claims.plainCore s ∧ r = s.remoteOf kind k a ∧
    s.ctx.desc.lsbase + 2 ^ 27 ≤ 2 ^ 64 ∧ s.groupOk a r = true ∧ s.nearInbox r = .ok () ∧ kind = .send ∧
    Claims.lowestInbox s [(s.ctx.desc.lsbase + (s.rdX a).toNat % 2 ^ 8 * 2 ^ 18 + r.remote, min r.bytes (2 ^ 18 - r.remote))] v := by
  refine ⟨sendingInbox, .send 0 8, .send, 0, 8, 0x4000_0007_F000, _, .tail _ (.tail _ (.head _)), by decide, (by intro r h; cases h), rfl,
    by decide, by decide, by decide, rfl, ?_⟩
  have h : (sendingInbox.ctx.desc.lsbase + (sendingInbox.rdX 8).toNat % 2 ^ 8 * 2 ^ 18 + (sendingInbox.remoteOf .send 0 8).remote,
    min (sendingInbox.remoteOf .send 0 8).bytes (2 ^ 18 - (sendingInbox.remoteOf .send 0 8).remote)) = (0x4000_0007_EFF0, 64) := by decide
  have l : sendingInbox.ctx.desc.lsbase = 0x4000_0000_0000 := by decide
  rw [h]
  refine lowest_single (by unfold Claims.inInbox; rw [l]; decide) (by unfold Claims.within; decide) ?_
  intro b h1 h2 h3
  unfold Claims.inInbox at h3
  rw [l] at h3
  omega

/-- A GET past the end of the target's store. -/
theorem witness_RemoteOperations_bound : ∃ (s : State) (i : Instr) (kind : RemoteKind) (k a : Nat) (r : RemoteOp),
    (i, kind) ∈ Claims.remoteForms k a ∧ i.wf = true ∧ Claims.plainCore s ∧ r = s.remoteOf kind k a ∧
    s.ctx.desc.lsbase + 2 ^ 27 ≤ 2 ^ 64 ∧ s.groupOk a r = true ∧ s.nearInbox r = .ok () ∧ s.farInbox r = .ok () ∧ r.bounded = false :=
  ⟨setX getting 9 (128 * 2 ^ 40 + 0x3FFC0), .get 15 8, .get, 15, 8, _, .head _, by decide, (by intro r h; cases h), rfl, by decide,
    by decide, by decide, by decide, by decide⟩

/-- Two lines of core 1's store for core 0, of which the first has landed. -/
def fetching : RemoteOp := { abroad with kind := .get, target := some (0, 1), remote := 0x3FF80, localOff := 0x3EF80, landed := [0] }

theorem witness_RemoteOperations_fetch : ∃ (s : State) (cl i tcl tcore lo ro : Nat) (r : RemoteOp), Claims.inFlight s cl r ∧
    s.ctx.stopped = false ∧ r.kind = .get ∧ r.target = some (tcl, tcore) ∧ s.served r = true ∧ i ∉ r.landed ∧
    r.items[i]? = some (64, lo, ro) ∧ ro % 64 = 0 ∧ ro < 2 ^ 18 ∧ lo < 2 ^ 26 ∧ cl < 16 ∧ tcl < 16 ∧ s.ctx.desc.ctxid < 2 ^ 16 ∧
    s.engineEval r.ctl = topLabel ∧ localLoc s.ctx.desc.ctxid cl (lo / 2 ^ 18) (lo % 2 ^ 18) % 64 = 0 :=
  ⟨sending fetching, 0, 1, 0, 1, 0x3EFC0, 0x3FFC0, fetching, rfl, rfl, rfl, rfl, by decide, by decide, by decide, by decide, by decide,
    by decide, by decide, by decide, by decide, by decide, by decide⟩

theorem witness_Streams_misalign : ∃ (s : State) (a : Nat), a < 61 ∧ Claims.plainCore s ∧ (s.rdX a).toNat % 64 ≠ 0 :=
  ⟨setX placed 8 32, 8, by decide, (by intro r h; cases h), by decide⟩

theorem witness_Streams_bad : (∃ (s : State) (a : Nat), a < 61 ∧ Claims.plainCore s ∧ (s.rdX a).toNat % 64 = 0 ∧ Claims.streamBad s a) ∧
    ∃ (s : State) (a : Nat), a < 61 ∧ Claims.plainCore s ∧ (s.rdX a).toNat % 64 = 0 ∧ ¬ Claims.streamBad s a :=
  ⟨⟨setX streaming 11 (2 ^ 32), 8, by decide, (by intro r h; cases h), by decide, by unfold Claims.streamBad; decide⟩,
    ⟨streaming, 8, by decide, (by intro r h; cases h), by decide, by unfold Claims.streamBad; decide⟩⟩

/-- Every line that the row operation of `witness_RowOperations_runs` reads has the format of its page. -/
def rowCopy : RowOp := rowOp .rcopy [operand 32 true, operand 511 true]

theorem witness_RowOperations_bits : ∃ (s u : State) (cl : Nat) (r : RowOp) (dst : RowOperand) (rest : List RowOperand)
    (ls : List RowLine), Claims.queuedRow s cl r ∧ r.operands = dst :: rest ∧ r.kind.isRow = true ∧ s.ctx.stopped = false ∧
    (s.rowsFound r).rowLines cl r dst rest (List.range 16) = .ok (ls, u) ∧
    ∀ o j, o ∈ rest → j < 16 → Claims.formatKept (s.rowsFound r) (r.inputLine (s.rowsFound r).dev o j) := by
  obtain ⟨ls, u, h⟩ := ok_of (show isOk (((row .rcopy [operand 32 true, operand 511 true]).rowsFound rowCopy).rowLines 0 rowCopy
    (operand 32 true) [operand 511 true] (List.range 16)) = true by decide)
  refine ⟨row .rcopy [operand 32 true, operand 511 true], u, 0, rowCopy, operand 32 true, [operand 511 true], ls, rfl, rfl, rfl, rfl, h, ?_⟩
  have k : ∀ j, j < 16 → ((row .rcopy [operand 32 true, operand 511 true]).rowsFound rowCopy).dev.packed.contains
      (lineOf (rowCopy.inputLine ((row .rcopy [operand 32 true, operand 511 true]).rowsFound rowCopy).dev (operand 511 true) j).loc) =
      (rowCopy.inputLine ((row .rcopy [operand 32 true, operand 511 true]).rowsFound rowCopy).dev (operand 511 true) j).cmp := by decide
  intro o j ho hj
  simp only [List.mem_singleton] at ho
  subst ho
  exact .inl (.inr (k j hj))

theorem witness_BaseDieReduce_sum : ∃ (op : Ired) (e : Nat), op.op = 2 ∧ op.fast = false ∧ e < 16 :=
  ⟨{ ired1 with op := 2, fast := false }, 15, rfl, rfl, by decide⟩

/-- A contribution of 7 to vertex 0 of a run with the given combine. -/
def combining (op : Nat) : EdgeRun := { run .running with desc := { graph with op := op } }
def combined (op : Nat) : State := sweeping (combining op) (some ⟨0, 0, 0⟩)
def statePlace (op : Nat) : Place × State :=
  okOr (lastPlace, combined op) ((combined op).enginePlace ((combining op).agent 0) .atomic ((combining op).stateVa 0))
def combinedTo (op : Nat) : Bool × Bool × State := okOr (false, false, combined op) ((combined op).combineAt 0 (combining op) 0 7 0)

def oldState (op : Nat) : Nat := (statePlace op).2.dev.num (statePlace op).1.loc 4

theorem witness_EdgeRuns_combine : ∀ op, op < 4 → ∃ (s u t : State) (cl v old new : Nat) (r : EdgeRun) (c : Word) (w : LabelWord)
    (p : Place) (moved bad : Bool), s.enginePlace (r.agent cl) .atomic (r.stateVa v) = .ok (p, u) ∧ old = u.dev.num p.loc 4 ∧
    (r.desc.op, new) ∈ Claims.combines32 old (c.toNat % 2 ^ 32) ∧ s.combineAt cl r v c w = .ok (moved, bad, t) ∧ r.desc.op = op := by
  have h1 : ∀ op, op < 4 → isOk ((combined op).enginePlace ((combining op).agent 0) .atomic ((combining op).stateVa 0)) = true := by decide
  have h2 : ∀ op, op < 4 → isOk ((combined op).combineAt 0 (combining op) 0 7 0) = true := by decide
  have h3 : ∀ op, op < 4 → ∃ e, e ∈ Claims.combines32 (oldState op) ((7 : Word).toNat % 2 ^ 32) ∧ e.1 = op := by decide
  intro op h
  obtain ⟨⟨o, n⟩, he, ho⟩ := h3 op h
  have a : (combined op).enginePlace ((combining op).agent 0) .atomic ((combining op).stateVa 0) = .ok (statePlace op) := eq_ok _ (h1 op h)
  have b : (combined op).combineAt 0 (combining op) 0 7 0 = .ok (combinedTo op) := eq_ok _ (h2 op h)
  have ho : o = op := ho
  subst ho
  have e : (combining o).desc.op = o := rfl
  refine ⟨combined o, (statePlace o).2, (combinedTo o).2.2, 0, 0, oldState o, n, combining o, 7, 0, (statePlace o).1, (combinedTo o).1,
    (combinedTo o).2.1, ok_pair a, rfl, ?_, ok_parts b, e⟩
  rw [e]
  exact he

theorem witness_EdgeRuns_mismatch : ∃ (s u : State) (cl v : Nat) (r : EdgeRun) (c : Word) (p : Place),
    s.enginePlace (r.agent cl) .atomic (r.stateVa v) = .ok (p, u) ∧ r.desc.op = 6 ∧ Claims.clean u p ∧ u.dev.num p.loc 8 ≠ c.toNat ∧
    minimise u.ctx.world.nogoods (u.engineEval (u.lineWord p)) ≠ [] := by
  have a : (combined 6).enginePlace ((combining 6).agent 0) .atomic ((combining 6).stateVa 0) = .ok (statePlace 6) :=
    eq_ok (lastPlace, combined 6) (by decide)
  exact ⟨combined 6, (statePlace 6).2, 0, 0, combining 6, 7, (statePlace 6).1, a, rfl, by unfold Claims.clean; decide, by decide, by decide⟩

/-- A result of each file outstanding. -/
def landing (r : Reg) : State := placed.mapCore fun c => { c with pending := [⟨r, 5, 0, FFlags.none⟩] }

theorem witness_CoreEvents_files (r : Reg) : ∃ (s : State) (cl core n : Nat) (p : Pending), (s.coreAt cl core).pending[n]? = some p ∧
    p.reg = r := ⟨landing r, 0, 0, 0, _, rfl, rfl⟩

theorem witness_CoreEvents_bounds : (∃ d, 0 < d ∧ d < 64) ∧ (∃ d, d < 32) ∧ ∃ d, 0 < d ∧ d < 8 := ⟨⟨63, by decide⟩, ⟨31, by decide⟩, 7, by decide⟩

theorem witness_FleetEvents_tick (pool : Bool) : ∃ (s : State) (num : Nat), Claims.nothingDue s ∧ s.dev.cxlFailed = [num] ∧
    s.dev.poolLost = pool ∧ s.ctx.desc.ctxid ≠ 0 ∧ s.ctx.destroyed = false := by
  refine ⟨(losing (if pool then [0, 1, 2, 3, 4, 5, 6, 7] else [7])).mapDev fun d =>
    { d with cxlFailed := [7], fabricPorts := [0, 1, 2, 3, 4, 5, 6, 7] }, 7, ⟨rfl, rfl, (by intro i h; cases h), ?_⟩, rfl,
    by cases pool <;> decide, (show placed.ctx.desc.ctxid ≠ 0 by decide), rfl⟩
  intro cl
  cases cl with
  | zero => exact ⟨rfl, rfl, by cases pool <;> decide⟩
  | succ n => exact ⟨rfl, rfl, by intro e h; cases h⟩

/-! ### One step at a time: the worked examples of spec/, and values worked out by hand from its rules -/

/-- The state that one instruction leaves. -/
def after (s : State) (i : Instr) : State :=
  match exec i s with
  | .next t => t
  | .fault _ => s
  | .refused _ => s

def xOf (s : State) (r : Nat) : Word := fileGet (by decide) s.core.regs.x r

/-- x1 and x2 hold `a` and `b`. -/
def two (a b : Word) : State := setX (setX placed 1 a) 2 b

/-- A state with a value in an f register. -/
def setF (s : State) (r : Nat) (v : Half) : State := s.mapRegs fun g => { g with f := filePut (by decide) g.f r v }

/-- A state with a value in a v register. -/
def setV (s : State) (r : Nat) (v : VWord) : State := s.mapRegs fun g => { g with v := filePut (by decide) g.v r v }

def vOf (s : State) (r : Nat) : VWord := fileGet (by decide) s.core.regs.v r

/-- The last long-latency result on its way (R53): its register and its low 64 bits. -/
def lateOf (s : State) : Option (Reg × Word) := s.core.pending.getLast?.map fun p => (p.reg, p.value.truncate 64)

/-- Cause code of a trap just taken (R190). -/
def causeOf (s : State) : Nat := s.core.ecause.toNat % 2 ^ 6

/-- R81: the table of division by 0 and of the overflowing quotient. -/
theorem test_div : ([(.div 3 1 2, -7, 2, -3), (.rem 3 1 2, -7, 2, -1), (.rem 3 1 2, 7, -2, 1), (.div 3 1 2, 9, 0, -1),
    (.divu 3 1 2, 9, 0, -1), (.rem 3 1 2, 9, 0, 9), (.remu 3 1 2, 9, 0, 9),
    (.div 3 1 2, 0x8000_0000_0000_0000, -1, 0x8000_0000_0000_0000), (.rem 3 1 2, 0x8000_0000_0000_0000, -1, 0)] :
    List (Instr × Word × Word × Word)).all (fun c => decide (lateOf (after (two c.2.1 c.2.2.1) c.1) = some (.x 3, c.2.2.2))) = true := by decide

/-- R80: the upper half of the product of -1 and -1 is 0 signed and all ones but one unsigned. -/
theorem test_mulh : xOf (after (two (-1) (-1)) (.mulh 3 1 2)) 3 = 0 ∧ xOf (after (two (-1) (-1)) (.mulhu 3 1 2)) 3 = -2 := by
  decide

/-- R80: arithmetic wraps, a source may be the destination; R38: x0 discards a write. -/
theorem test_add : xOf (after (two (-1) 3) (.add 1 1 2)) 1 = 2 ∧ xOf (after (two (-1) 3) (.add 0 1 2)) 0 = 0 := by decide

/-- R80: a shift counts B[5:0]; SRA fills with the sign. -/
theorem test_shift : xOf (after (two (-16) 66) (.sra 3 1 2)) 3 = -4 ∧ xOf (after (two 1 127) (.shl 3 1 2)) 3 = 0x8000_0000_0000_0000 := by
  decide

/-- R82: the immediate is sign-extended. -/
theorem test_addi : xOf (after (two 5 0) (.addi 3 1 0xFFF)) 3 = 4 ∧ xOf (after (two 5 0) (.sltiu 3 1 0xFFF)) 3 = 1 := by decide

/-- R84: the constant 0x1234_5FFF is UPI 0x1_2346 and then ADDI -1. -/
theorem test_upi : xOf (after placed (.upi 6 0x12346)) 6 = 0x1234_6000 ∧
    xOf (after (setX placed 6 0x1234_6000) (.addi 6 6 0xFFF)) 6 = 0x1234_5FFF := by decide

/-- R86: a taken BNE, two words back from the word at 8. R87: JLR with d = a jumps to the old value. -/
theorem test_transfers : (after ((two 1 2).mapCore fun c => { c with issue := ⟨8, true, false⟩ }) (.bne 1 2 0xFFE)).core.pc = 0 ∧
    (after (setX placed 1 0x40) (.jlr 1 1 0)).core.pc = 0x40 ∧ xOf (after (looping 8 true false 0) (.jlr 1 1 0)) 1 = 12 := by decide

/-- R93: the container at 0x18 ends two nested bodies; what its last instruction leaves in each of passes 1, 2
and 6 of the worked example. -/
def pass (l : List LoopEntry) : List LoopEntry × Word :=
  let t := after (placed.mapCore fun c => { c with issue := ⟨0x1C, true, false⟩, loops := l }) (.add 15 15 14)
  (t.core.loops, t.core.pc)

theorem test_loops : pass [⟨0x18, 0x18, 2⟩, ⟨0x10, 0x18, 3⟩] = ([⟨0x18, 0x18, 1⟩, ⟨0x10, 0x18, 3⟩], 0x18) ∧
    pass [⟨0x18, 0x18, 1⟩, ⟨0x10, 0x18, 3⟩] = ([⟨0x10, 0x18, 2⟩], 0x10) ∧
    pass [⟨0x18, 0x18, 1⟩, ⟨0x10, 0x18, 1⟩] = ([], 0x20) := by decide

/-- R93, the same example: `loopi 2` at word0 of 0x10 pushes the entry of a body of one container, 0x18. -/
theorem test_loopi : (after (placed.mapCore fun c => { c with issue := ⟨0x10, true, false⟩ }) (.loopi 2 0)).core.loops =
    [⟨0x18, 0x18, 2⟩] := by decide

/-- R95: SVC 5 is body 0x1700_0140; it saves the successor, its number and the cause 21, and enters S mode. -/
theorem test_svc : decodeWord 0x17000140 = .ok (.svc 5) ∧
    (let t := after (placed.mapCore fun c => { c with issue := ⟨0x8_0000_0000, true, false⟩ }) (.svc 5);
      t.core.epc = 0x8_0000_0004 ∧ t.core.einfo = 5 ∧ causeOf t = 21 ∧ t.core.status.mode = .s ∧ t.core.pc = 0x8_0001_0000) := by
  decide

/-- R57, R190: ERET in U mode traps with PRIV, code 20. -/
theorem test_eret : causeOf (after placed .eret) = 20 ∧ (after placed .eret).core.status.mode = .s := by decide

/-- R163: a byte load sign-extends. R159, R190: a misaligned word load traps with code 3 and the address. -/
theorem test_load : lateOf (after (running.mapDev fun d => d.poke 0x1000208003 [0x80]) (.lb 3 5 3)) = some (.x 3, 0xFFFF_FFFF_FFFF_FF80) ∧
    causeOf (after (setX running 5 (page0 + 2)) (.lw 3 5 0)) = 3 ∧
    (after (setX running 5 (page0 + 2)) (.lw 3 5 0)).core.eaddr = page0 + 2 := by decide

/-- R163: a store of a half changes two bytes, the low one at the lower address. -/
theorem test_store : (after (setX running 1 0x1234) (.sh 1 5 1)).dev.bytes 0x1000208000 6 = [0, 0, 0x34, 0x12, 0, 0] := by decide

/-- R168: AMO.min of words compares signed, writes the smaller and returns the old word sign-extended. -/
def amoed : State := after ((setX running 1 3).mapDev fun d => d.poke 0x1000208000 [0xFE, 0xFF, 0xFF, 0xFF]) (.amo .smin .w .rlx .dev 1 5)

theorem test_amo : lateOf amoed = some (.x 1, -2) ∧ amoed.dev.bytes 0x1000208000 4 = [0xFE, 0xFF, 0xFF, 0xFF] := by decide

/-- R169: a CAS that matches writes x(d+1). -/
theorem test_cas : (after (setX running 1 7) (.cas .d .rlx .dev 0 5)).dev.bytes 0x1000208000 8 = [7, 0, 0, 0, 0, 0, 0, 0] := by decide

/-- R30, R180: KADD adds to the core's own counter, KRD with x0 reads it. -/
theorem test_counters : fileGet (by decide) (after (two 5 0) (.kadd 3 1)).core.k 3 = 5 ∧
    xOf (after (placed.mapCore fun c => { c with k := filePut (by decide) c.k 3 9 }) (.krd 1 3 0)) 1 = 9 := by decide

/-- R112: 1 + 1 = 2; R100: 1 / 0 is infinity and sets DZ, with the quotient when it is written (R101). -/
theorem test_float : fileGet (by decide) (after (setF placed 1 0x3F800000) (.fadd .rne 2 1 1)).core.regs.f 2 = 0x40000000 ∧
    (after (setF placed 1 0x3F800000) (.fdiv .rne 2 1 3)).core.pending.map (fun p => (p.reg, p.value, p.flags)) =
      [(.f 2, 0x7F800000, ⟨false, true, false, false, false⟩)] := by decide

/-! The example of chapter 4, "rescaling E4M3 codes", instruction by instruction. -/

def codes : VWord := 0xB9017E38
def decoded : VWord := 0xBF9000003B00000043E000003F800000
def scaled : VWord := 0xC09000003C00000044E0000040800000

theorem test_vdec : vOf (after (setV placed 2 codes) (.vdec .a .f32 3 2 0)) 3 = decoded := by decide

theorem test_vbcast : vOf (after (setX placed 13 0x81) (.vbcast .i8 4 13 0)) 4 = BitVec.ofNat 512 ((2 ^ 512 - 1) / 255 * 0x81) := by
  decide

theorem test_vscale : (let t := after (setV (setV placed 3 decoded) 4 (BitVec.ofNat 512 ((2 ^ 512 - 1) / 255 * 0x81))) (.vscale .f32 3 3 4 0)
    vOf t 3 = scaled ∧ t.core.regs.fcsr.flags = FFlags.none) := by decide

theorem test_venc : (let t := after (setV placed 3 scaled) (.venc .a false .f32 5 3 0)
    vOf t 5 = 0xC9047E48 ∧ t.core.regs.fcsr.flags = ⟨false, false, true, false, true⟩ ∧ xOf (after t (.crr 5 1)) 5 = 5) := by decide

/-! "A worked sequence" of chapter 8, XMAX = 4; environments are written as the sums of 2^n. -/

theorem test_labels : conj [] [4] [32] = [36] ∧ hidden [32] [36] = true ∧
    conj [10] [1, 2] [4, 8] = [5, 6, 9] ∧ disj [10] [5, 6, 9] [1] = [1, 6] := by decide

def formed (cfg : LabelCfg) : Except LabelFail (Label × Bool) := fitLabel cfg (conj [] [1, 2] [16, 32, 64])

theorem test_label_limits : formed ⟨1, 4, false⟩ = .error (.ovf 6) ∧ formed ⟨1, 4, true⟩ = .ok ([17, 18, 33, 34], true) ∧
    formed ⟨1, 8, false⟩ = .ok ([17, 18, 33, 34, 65, 66], false) := by decide

/-- R228: ASSUME of assumption 3 on a value labelled ⊤ labels it [[3]]. -/
theorem test_assume : (let t := after (two 7 3) (.assume 4 1 2)
    xOf t 4 = 7 ∧ t.core.regs.xl[4] = 0x01000001 ∧ t.ctx.world.table = [(1, [8])]) := by decide

/-- R245, R249: an MZERO enters the queue of the crew's engine. -/
theorem test_mzero : (after leased (.mzero 1)).myEngine.queue.map (·.cmd) = [.mzero 1] := by decide

/-- R456, R457: the health word and FEAT class 3 of the example, intact and with one cluster and stack 9 lost. -/
theorem test_health : (after placed .healthRequest).dev.replies = [.health [0x0020101808205A00]] ∧
    (after (after (after placed (.unitLoss .cluster 4)) (.unitLoss .stack 9)) .healthRequest).dev.health = 0x801F0F1808105A00 := by
  decide

theorem test_feat : xOf (after placed (.feat 1 3)) 1 = 0x0100040010000100 ∧
    (after (after placed (.unitLoss .cluster 4)) (.unitLoss .stack 9)).feature 3 = 0x00E103C00F800100 := by decide

/-- R427, R106: the area of a core holds x5 at 0x28, p0 at 0xC80, LBLCFG with XMAX 4 and EPOCH 1 at 0xDA8, entry 1 of bank
A at 0xF4C, and its accumulators end at 0x3500. -/
def image : List Byte := (setX placed 5 0x1122).saveImage

theorem test_save : (image.drop 0x28).take 3 = [0x22, 0x11, 0] ∧ (image.drop 0xC7F).take 3 = [0, 0xFF, 0xFF] ∧
    (image.drop 0xDA8).take 3 = [0, 4, 1] ∧ (image.drop 0xF4C).take 3 = [0, 0xD8, 1] ∧ image.length = 0x3500 := by decide

end Sys2Proof.Tests
end

section
/-! PROOF. Undefined hints (R68, R69): major 0x3F decodes to HPREF or to NOP, and both complete with nothing changed. -/

namespace Sys2Proof.Claims
open Machine

/-! ### The end of an instruction -/

/-- The end of an instruction touches neither the registers, the outstanding results, the streams nor LBLSTAT. -/
theorem coreKept_complete (s : State) : coreKept s s.complete := by
  have hreg : s.complete.core.regs = s.core.regs := s.core.complete_regs
  have hpend : s.complete.core.pending = s.core.pending := s.core.complete_pending
  have hstr : s.complete.core.streams = s.core.streams := s.core.complete_streams
  have hstat : s.complete.core.lblstat = s.core.lblstat := s.core.complete_lblstat
  rw [coreKept, ← hreg, ← hpend, ← hstr, ← hstat]
  rfl

/-- An instruction that only completes changes nothing. -/
theorem passed_complete (s : State) : passed s s.complete :=
  ⟨s.core.complete_regs, ⟨s.core.complete_pending, s.core.complete_streams⟩, coreKept_complete s, rfl,
    ⟨rfl, rfl, rfl, rfl⟩, fun _ => rfl⟩

/-! ### NOP and HPREF -/

/-- NOP is `ori x0, x0, 0` (R76): a result for x0 writes nothing and forms no label. -/
theorem exec_nop (s : State) : exec (.ori 0 0 0) s = .next s.complete := by
  have hunary : exec (.ori 0 0 0) s = s.unary 0 0 (· ||| imm12 0) := rfl
  rw [hunary, State.unary, State.result, setX_zero]
  rfl

theorem exec_hpref (d a b : Nat) (s : State) : exec (.hpref d a b) s = .next s.complete := rfl

/-! ### Decoding major 0x3F -/

theorem major_hint (b : Nat) :
    Dec.major 0x3F b = if Dec.fn b = 0 then .ok (.hpref (Dec.d b) (Dec.a b) (Dec.rb b)) else .ok (.ori 0 0 0) := rfl

/-- A hint whose function field is not 0 is NOP (R69). -/
theorem decodeBody_undefined_hint {b : Nat} (hmajor : b / 2 ^ 24 = 0x3F) (hfn : b % 2 ^ 6 ≠ 0) :
    decodeBody b = .ok (.ori 0 0 0) := by
  have hm : fld b 24 6 = 0x3F := by rw [fld]; omega
  have hf : Dec.fn b ≠ 0 := by rwa [Dec.fn, fld, Nat.pow_zero, Nat.div_one]
  rw [decodeBody, hm, major_hint, if_neg hf]

/-- Settles O36: undefined hints decode to NOP; NOP and HPREF only complete. -/
theorem hints : Obligations.Hints := by
  intro b d a k s
  exact ⟨fun _ hmajor hfn => decodeBody_undefined_hint hmajor hfn, ⟨_, exec_nop s, passed_complete s⟩,
    ⟨_, exec_hpref d a k s, passed_complete s⟩⟩

end Sys2Proof.Claims
end

section
/-! PROOF. UPI and AUPC (R84): their words, the pair that either opens, and the register that each writes. -/

namespace Sys2Proof.Claims
open Machine

/-! ### An instruction that writes one x register -/

/-- The end of an instruction neither reads nor writes the registers. -/
theorem complete_withRegs (c : Core) (r : Regs) : Core.complete { c with regs := r } = { c.complete with regs := r } := by
  unfold Core.complete
  dsimp only
  repeat' split
  all_goals rfl

theorem xFileWritten_putX {s t : State} {d : Nat} {v : Word} {w : LabelWord} (hd : d < 64)
    (h : t.core.regs = s.core.regs.putX d v w) : xFileWritten s t d v w := by
  rw [xFileWritten, h]
  by_cases hz : d = 0
  · subst hz
    simp [x, xl, h]
  · constructor
    · rw [Regs.putX, if_neg hz]
    · intro r hr
      by_cases hrd : r = d
      · subst hrd
        simp [x, xl, h, Regs.putX_x, Regs.putX_xl, hz]
      · simp [x, xl, h, Regs.putX_x, Regs.putX_xl, hz, hrd, fileGet_filePut_ne _ _ _ hd hr hrd]

theorem xWritten_wrX_complete (s : State) {d : Nat} (v : Word) (w : LabelWord) (hd : d < 64) :
    xWritten s (s.wrX d v w).complete d v w := by
  have hcore : (s.wrX d v w).complete.core = { s.core.complete with regs := s.core.regs.putX d v w } :=
    complete_withRegs s.core _
  have hregs : (s.wrX d v w).complete.core.regs = s.core.regs.putX d v w := by rw [hcore]
  have hlatency : latencyKept s (s.wrX d v w).complete := ⟨by simp, by simp⟩
  have hkept : coreKept s (s.wrX d v w).complete := by
    rw [coreKept, hcore]
    exact coreKept_complete s
  exact ⟨xFileWritten_putX hd hregs, hlatency, hkept, ⟨[], by simp⟩, ⟨rfl, rfl, rfl, rfl⟩, fun _ => rfl⟩

/-! ### The words of a pair -/

theorem bodyOf_ofNat {b : Nat} (h : b < 2 ^ 30) : bodyOf (BitVec.ofNat 32 b) = b := by
  rw [bodyOf, BitVec.toNat_ofNat]
  omega

/-- A word that is no more than its body has neither LONE nor SW set (R45). -/
theorem markBit_ofNat {b n : Nat} (h : b < 2 ^ 30) (hn : 30 ≤ n) : (BitVec.ofNat 32 b).getLsbD n = false := by
  have hb : b < 2 ^ n := Nat.lt_of_lt_of_le h (Nat.pow_le_pow_right (by decide) hn)
  rw [BitVec.getLsbD_ofNat, Nat.testBit_lt_two_pow hb, Bool.and_false]

theorem decodeWord_ofNat {b : Nat} (h : b < 2 ^ 30) : decodeWord (BitVec.ofNat 32 b) = decodeBody b := by
  rw [decodeWord, ← bodyOf, bodyOf_ofNat h]

/-- Two bodies that pass the checks of R50 are a pair when word0 is fetched. -/
theorem decodeContainer_pair {b0 b1 : Nat} {i j : Instr} (h0 : b0 < 2 ^ 30) (h1 : b1 < 2 ^ 30)
    (hc0 : arithmeticBody b0 = false) (hc1 : arithmeticBody b1 = true) (hi : decodeBody b0 = .ok i)
    (hj : decodeBody b1 = .ok j) (hclash : writesClash i j = false) (hpaired : neverPaired i = false) :
    decodeContainer 0 (BitVec.ofNat 32 b0) (BitVec.ofNat 32 b1) = .pair i j false := by
  have hzero : BitVec.ofNat 32 b1 ≠ 0#32 := by
    intro hz
    rw [← bodyOf_ofNat h1, hz] at hc1
    exact absurd hc1 (by decide)
  have hlone (b : Nat) (h : b < 2 ^ 30) : loneBit (BitVec.ofNat 32 b) = false := markBit_ofNat h (by decide)
  have hsw (b : Nat) (h : b < 2 ^ 30) : swBit (BitVec.ofNat 32 b) = false := markBit_ofNat h (by decide)
  have hslot : slotOf 0#64 ≠ 1 := by decide
  simp [decodeContainer, hzero, hlone _ h0, hlone _ h1, hsw _ h0, hsw _ h1, bodyOf_ofNat h0, bodyOf_ofNat h1, hc0, hc1,
    decodeWord_ofNat h0, decodeWord_ofNat h1, hi, hj, hclash, hpaired, hslot]

/-- An instruction that writes x[d] alone clashes with none that does not write x[d], and with none if d is 0. -/
theorem writesClash_of_dests {i j : Instr} {d : Nat} (hi : dests i = [.x d]) (h : d = 0 ∨ Reg.x d ∉ dests j) :
    writesClash i j = false := by
  rw [writesClash, hi]
  rcases h with rfl | h
  · rfl
  · simp [h]

/-! ### UPI and AUPC -/

theorem encode_upi (d k : Nat) : encode (.upi d k) = some (3 * 2 ^ 27 + d * 2 ^ 20 + k) := by
  rw [encode, Enc.u, Nat.zero_mul, Nat.add_zero]

theorem encode_aupc (d k : Nat) : encode (.aupc d k) = some (3 * 2 ^ 27 + 2 ^ 26 + d * 2 ^ 20 + k) := by
  rw [encode, Enc.u, Nat.one_mul]

theorem exec_upi (d k : Nat) (s : State) : exec (.upi d k) s = .next (s.wrX d (upper k) s.topWord).complete := rfl

theorem exec_aupc (d k : Nat) (s : State) :
    exec (.aupc d k) s = .next (s.wrX d (s.core.issue.addr + upper k) s.topWord).complete := rfl

/-- The sign of imm20 << 12 is bit 19 of imm20 (R84). -/
theorem upper_eq_signed (k : Nat) : upper k = BitVec.ofInt 64 (signed 20 k * 4096) := by
  have hs : sext 32 (k * 2 ^ 12) = signed 20 k * 4096 := by
    rw [signed, BitVec.toInt_eq_toNat_cond, BitVec.toNat_ofNat, sext]
    split <;> split <;> omega
  rw [upper, hs, wordOf]

/-- A body below the majors of the arithmetic class is of the control/memory class (R46). -/
theorem arithmeticBody_of_lt {b : Nat} (h : b < 2 ^ 29) : arithmeticBody b = false := Nat.testBit_lt_two_pow h

/-- A body of the control/memory class whose instruction writes x[d] alone is word0 of a pair with any word1 of the
arithmetic class that writes another register. -/
theorem opens_pair {b d : Nat} {i : Instr} (hb : b < 2 ^ 29) (hi : decodeBody b = .ok i) (hd : dests i = [.x d])
    (hpaired : neverPaired i = false) :
    arithmeticBody b = false ∧ ∀ other j, other < 2 ^ 30 → arithmeticBody other = true → decodeBody other = .ok j →
      (d = 0 ∨ Reg.x d ∉ dests j) →
      decodeContainer 0 (BitVec.ofNat 32 b) (BitVec.ofNat 32 other) = .pair i j false :=
  ⟨arithmeticBody_of_lt hb, fun _ _ hother hclass hj hfree =>
    decodeContainer_pair (by omega) hother (arithmeticBody_of_lt hb) hclass hi hj (writesClash_of_dests hd hfree) hpaired⟩

/-- Settles O3: the words of UPI and AUPC, their pairs, and what each writes. -/
theorem upperForms : Obligations.UpperForms := by
  refine ⟨fun s d k hd hk => ?_, by decide, by decide, by decide⟩
  have hupi : decodeBody (3 * 2 ^ 27 + d * 2 ^ 20 + k) = .ok (.upi d k) :=
    (Laws.RoundTrip.upi d k (decide_eq_true ⟨hd, hk⟩) _ (encode_upi d k)).2
  have haupc : decodeBody (3 * 2 ^ 27 + 2 ^ 26 + d * 2 ^ 20 + k) = .ok (.aupc d k) :=
    (Laws.RoundTrip.aupc d k (decide_eq_true ⟨hd, hk⟩) _ (encode_aupc d k)).2
  refine ⟨encode_upi d k, encode_aupc d k, hupi, haupc, fun body i hbody => ?_, ⟨_, exec_upi d k s, ?_⟩,
    ⟨_, exec_aupc d k s, ?_⟩⟩
  · simp only [List.mem_cons, Prod.mk.injEq, List.not_mem_nil, or_false] at hbody
    obtain ⟨rfl, rfl⟩ | ⟨rfl, rfl⟩ := hbody
    · exact opens_pair (by omega) hupi rfl rfl
    · exact opens_pair (by omega) haupc rfl rfl
  · rw [upper_eq_signed]
    exact xWritten_wrX_complete s _ _ hd
  · rw [upper_eq_signed]
    exact xWritten_wrX_complete s _ _ hd

end Sys2Proof.Claims
end

section
/-! PROOF. SVC (R95): its word, and trap entry with cause SVC at the address where the program goes on. -/

namespace Sys2Proof.Claims
open Machine

/-- Where its first instruction can be fetched, trap entry enters the trap, on a core that nothing else has changed
(R186). -/
theorem trapEntry_core {s u : State} (t : Trap) (h : entryFetched s u) :
    (s.trapEntry t).core = s.core.enterTrap t (BitVec.ofNat 64 s.ctx.desc.trapent) := by
  obtain ⟨p, hp⟩ := h
  rcases trapEntry_cases s t with ⟨d, _, hd, _⟩ | ⟨_, _, v, _, hv, _, hentry⟩
  · rw [hp] at hd
    cases hd
  · rw [hentry, State.mapCore_core, hv.core]

/-- ECAUSE[7:0] is the cause (R188). -/
theorem packCause_code (loops : List LoopEntry) (frozen : Nat) (mode : Mode) (c : Cause) :
    (packCause loops frozen mode c).toNat % 2 ^ 8 = c.code := by
  have hcode : c.code < 2 ^ 8 := by cases c <;> decide
  rw [packCause, BitVec.toNat_ofNat]
  omega

/-- n[11:6] and n[5:0] stand in a and b (R95). -/
theorem encode_svc (n : Nat) : encode (.svc n) = some (Enc.r 0x17 0 (n / 64) (n % 64) 0) := by
  rw [encode, Enc.r]
  congr 1
  omega

theorem exec_svc (n : Nat) (s : State) :
    exec (.svc n) s = .next ((s.complete.trapEntry ⟨.svc, BitVec.ofNat 64 n, 0, s.complete.core.pc, false⟩).mapCore
      fun c => { c with trapped := none }) := rfl

/-- Settles O9: SVC completes, and then enters the trap. -/
theorem svcTraps : Obligations.SvcTraps := by
  refine ⟨by decide, fun s u n _ hentry => ⟨encode_svc n, _, exec_svc n s, ⟨_, rfl, rfl⟩, ?_⟩⟩
  rw [State.mapCore_core, trapEntry_core _ hentry]
  exact ⟨rfl, rfl, rfl, packCause_code _ _ _ _, rfl, rfl, rfl, rfl⟩

end Sys2Proof.Claims
end

section
/-! PROOF. Decoding and encoding (R54 to R69, R245, R246): every well-formed instruction has a word that decodes to it, and
whatever the decoder gives is well-formed and no event. -/

namespace Sys2Proof.Claims
open Machine

/-! ### Which instructions have an encoding -/

/-- The events and packets are what has no encoding. -/
theorem event_eq_isNone (i : Instr) : event i = (encode i).isNone := by cases i <;> rfl

/-! ### An encoding decodes to its instruction -/

open Laws.RoundTrip in
/-- Decoding undoes encoding, instruction by instruction. -/
theorem roundTrip (i : Instr) : Statement i := by
  cases i
  exacts [j _, jl _, beq _ _ _, bne _ _ _, blt _ _ _, bge _ _ _, bltu _ _ _, bgeu _ _ _, jlr _ _ _, jr _ _, loop _ _,
    loopi _ _, lb _ _ _, lbu _ _ _, lh _ _ _, lhu _ _ _, lw _ _ _, lwu _ _ _, ld _ _ _, flw _ _ _, sb _ _ _,
    sh _ _ _, sw _ _ _, sd _ _ _, fsw _ _ _, vld _ _ _, vst _ _ _, vlds _ _ _ _, vsts _ _ _ _, vldx _ _ _ _,
    vstx _ _ _ _, amo _ _ _ _ _ _, cas _ _ _ _ _, famo _ _ _ _ _, csum _ _ _ _, cwb _, cinv _, cflush _, wbrow _,
    invrow _, fence _ _, fencesc, arrive _ _, waitc _ _, catchq _ _, waitk _ _, waitt _ _, krd _ _ _, kadd _ _,
    spawn _ _, join, finish _, suspk _ _ _, suspt _, yield, assume _ _ _, assumev _ _ _, lblof _ _, lblset _ _ _,
    ljoin _ _ _, contra _, contrav _, ltest _ _, lenv _ _ _, wreset, lld _ _, lst _ _, jsub _ _, jpoll _ _,
    jcancel _ _, get _ _, getx _ _, send _ _, sendx _ _, smode _ _, soff _, rcopy _ _, rfill _ _, rbool _ _ _,
    rpromo _ _ _, rdemo _ _, ired _ _ _, edgerun _ _, crr _ _, crw _ _, crs _ _ _, crc _ _ _, svc _, eret, upret,
    feat _ _, invpg _, dtld _ _, edgeret _, edgeskip, edgedone, upi _ _, aupc _ _, add _ _ _, sub _ _ _, and _ _ _,
    or _ _ _, xor _ _ _, shl _ _ _, shr _ _ _, sra _ _ _, slt _ _ _, sltu _ _ _, min _ _ _, max _ _ _, minu _ _ _,
    maxu _ _ _, clz _ _, popc _ _, mul _ _ _, mulh _ _ _, mulhu _ _ _, div _ _ _, divu _ _ _, rem _ _ _, remu _ _ _,
    addi _ _ _, andi _ _ _, ori _ _ _, xori _ _ _, slti _ _ _, sltiu _ _ _, shli _ _ _, shri _ _ _, srai _ _ _,
    fadd _ _ _ _, fsub _ _ _ _, fmul _ _ _ _, fdiv _ _ _ _, ffma _ _ _ _, fmin _ _ _, fmax _ _ _, fcmp _ _ _ _,
    fsqrt _ _ _, fcvtfi _ _ _ _, fcvtif _ _ _ _, fmvxf _ _, fmvfx _ _, fclass _ _, vadd _ _ _ _ _, vsub _ _ _ _ _,
    vmul _ _ _ _ _, vfma _ _ _ _ _, vfms _ _ _ _ _, vmin _ _ _ _ _, vmax _ _ _ _ _, vabs _ _ _ _, vneg _ _ _ _,
    vand _ _ _ _ _, vor _ _ _ _ _, vxor _ _ _ _ _, vshl _ _ _ _ _, vshr _ _ _ _ _, vsra _ _ _ _ _, vsel _ _ _ _ _,
    vcmp _ _ _ _ _ _, vcvt _ _ _ _ _, venc _ _ _ _ _ _, vdec _ _ _ _ _, vscale _ _ _ _ _, vreds _ _ _ _,
    vredm _ _ _ _, vexp2 _ _ _ _, vrcp _ _ _ _, vrsq _ _ _ _, vperm _ _ _ _ _, vbcast _ _ _ _, vins _ _ _ _,
    vext _ _ _ _, vmov _ _ _ _, pset _ _ _, plog _ _ _ _, mmabb _ _ _ _ _, mmahh _ _ _ _ _, mmaee _ _ _ _ _ _,
    mmaef _ _ _ _ _ _, mmaff _ _ _ _ _ _, mmaii _ _ _ _ _, macq _, mrel, mzero _, mlda _ _, msta _ _, msync,
    mskld _ _ _, hpref _ _ _, longLatencyResultReturn _ _ _, dispatch _ _, recordAging _ _, gangReserve _ _,
    gangwaitExpiry _ _, recordWake _ _, coreParkWake _ _, fencescTickEnd _ _, strokeTick, upcallDelivery _ _,
    contraRetire _ _, wresetRetire _ _, leaseGrant _ _, matrixCommandComplete _ _, matrixHalt _ _, jobStart _ _,
    jobComplete _ _ _, jobFault _ _ _, transformTimeout _ _ _, faultRecordPoll _, streamStripFetch _ _ _,
    remoteLand _ _ _ _ _, remoteFailure _ _ _, rowOpExecute _ _, rpromoComplete _ _, rdemoComplete _ _,
    iredExecute _ _, edgeRunStart _, superstep _, edgeInvocation _ _, edgeRunFault _, pageWalkComplete _ _,
    shootdownService, unloadFree _, gangStop, contextRestore _ _ _, contextCreate _, contextDestroy _, deviceFault,
    queueCreate _, doorbell _, rmaWrite _ _ _, rmaRead _ _ _, packetDependencyMet _ _, launch _ _, copyin _ _,
    copyout _ _, signal _ _, wait _ _, barrier _ _, load _ _, unload _ _, qreset _ _, ptpSync _ _ _, ptpSyncLoss,
    poolReadMiss _ _ _, poolLeaseExpiry _, poolWriteApply _, backInvalidate _, fabricBind _ _, powerOnReset _ _,
    firmwareFetchRetry _, firmwareFetch _, statusRequest, routineLoad _ _ _, attestationRequest _, svnRaise _,
    healthRequest, telemetryRequest, powerCapSet _, currentLimit, thermalThrottle _, thermalTrip _, unitLoss _ _,
    currentFallsBelowLimit, throttleLevelChange _, copyPacketComplete _ _ _ _]

/-! ### What the decoder gives -/

theorem fld_lt (b lo n : Nat) : fld b lo n < 2 ^ n := Nat.mod_lt _ (Nat.two_pow_pos n)

/-- What the decoder gives, if anything, is well-formed and has an encoding. -/
def Admits (r : Except Undecodable Instr) : Prop := ∀ i, r = .ok i → i.wf = true ∧ (encode i).isSome = true

@[simp] theorem admits_error (u : Undecodable) : Admits (.error u) := fun _ h => by cases h

@[simp] theorem admits_ok_iff (i : Instr) : Admits (.ok i) ↔ i.wf = true ∧ (encode i).isSome = true :=
  ⟨fun h => h i rfl, fun h j hj => by cases hj; exact h⟩

@[simp] theorem admits_need_iff (ok : Bool) (i : Instr) :
    Admits (Dec.need ok i) ↔ (ok = true → i.wf = true ∧ (encode i).isSome = true) := by
  cases ok <;> simp [Dec.need]

@[simp] theorem admits_cell_iff (ok : Bool) (k : Except Undecodable Instr) :
    Admits (Dec.cell ok k) ↔ (ok = true → Admits k) := by
  cases ok <;> simp [Dec.cell]

@[simp] theorem admits_sel_iff {α : Type} (o : Option α) (k : α → Except Undecodable Instr) :
    Admits (Dec.sel o k) ↔ ∀ x, o = some x → Admits (k x) := by
  cases o <;> simp [Dec.sel]

/-! The fields lie in the ranges that their widths give (R54). -/

@[simp] theorem fld3_lt (b lo : Nat) : fld b lo 3 < 8 := fld_lt b lo 3
@[simp] theorem fld4_lt (b lo : Nat) : fld b lo 4 < 16 := fld_lt b lo 4
@[simp] theorem fld5_lt (b lo : Nat) : fld b lo 5 < 32 := fld_lt b lo 5
@[simp] theorem fld6_lt (b lo : Nat) : fld b lo 6 < 64 := fld_lt b lo 6
@[simp] theorem fld1_le (b lo : Nat) : fld b lo 1 ≤ 1 := Nat.le_of_lt_succ (fld_lt b lo 1)
@[simp] theorem fld9_lt (b lo : Nat) : fld b lo 9 < 512 := fld_lt b lo 9
@[simp] theorem fld10_lt (b lo : Nat) : fld b lo 10 < 1024 := fld_lt b lo 10
@[simp] theorem fld12_lt (b lo : Nat) : fld b lo 12 < 4096 := fld_lt b lo 12
@[simp] theorem fld13_lt (b lo : Nat) : fld b lo 13 < 8192 := fld_lt b lo 13
@[simp] theorem fld20_lt (b lo : Nat) : fld b lo 20 < 1048576 := fld_lt b lo 20
@[simp] theorem fld24_lt (b lo : Nat) : fld b lo 24 < 16777216 := fld_lt b lo 24
@[simp] theorem d_lt (b : Nat) : Dec.d b < 64 := fld_lt b 18 6
@[simp] theorem a_lt (b : Nat) : Dec.a b < 64 := fld_lt b 12 6
@[simp] theorem rb_lt (b : Nat) : Dec.rb b < 64 := fld_lt b 6 6
@[simp] theorem imm_lt (b : Nat) : Dec.imm b < 4096 := fld_lt b 0 12
@[simp] theorem vd_lt (b : Nat) : Dec.vd b < 32 := fld_lt b 16 5
@[simp] theorem va_lt (b : Nat) : Dec.va b < 32 := fld_lt b 11 5
@[simp] theorem vb_lt (b : Nat) : Dec.vb b < 32 := fld_lt b 6 5
@[simp] theorem pg_lt (b : Nat) : Dec.pg b < 8 := fld_lt b 3 3
@[simp] theorem macc_le (b : Nat) : Dec.macc b ≤ 1 := fld1_le b 18

/-! ### The families of majors -/

theorem admits_loads (b : Nat) : Admits (Dec.loads b) := by
  unfold Dec.loads
  split <;> simp [Instr.wf, regOff, encode]

theorem admits_stores (b : Nat) : Admits (Dec.stores b) := by
  unfold Dec.stores
  split <;> simp [Instr.wf, regOff, encode]

theorem admits_vmem (b : Nat) : Admits (Dec.vmem b) := by
  unfold Dec.vmem
  split <;> simp +contextual [Instr.wf, encode, Nat.lt_of_lt_of_le (fld_lt _ _ _)]

theorem admits_atomics (b : Nat) : Admits (Dec.atomics b) := by
  unfold Dec.atomics
  dsimp only
  rw [admits_sel_iff]
  intro sc _
  repeat' split
  all_goals simp +contextual [Instr.wf, reg2, encode]

theorem admits_sync (b : Nat) : Admits (Dec.sync b) := by
  unfold Dec.sync
  dsimp only
  split <;> simp +contextual [Instr.wf, reg2, encode, Nat.pos_iff_ne_zero]

theorem admits_continuation (b : Nat) : Admits (Dec.continuation b) := by
  unfold Dec.continuation
  split <;> simp [Instr.wf, reg2, encode]

theorem admits_label (b : Nat) : Admits (Dec.label b) := by
  unfold Dec.label
  split <;> simp +contextual [Instr.wf, reg2, reg3, encode]

theorem admits_copy (b : Nat) : Admits (Dec.copy b) := by
  unfold Dec.copy
  dsimp only
  split <;> simp +contextual [Instr.wf, reg2, encode]

theorem admits_engine (b : Nat) : Admits (Dec.engine b) := by
  unfold Dec.engine
  dsimp only
  split <;> simp +contextual [Instr.wf, encode]

theorem admits_crAccess (b : Nat) : Admits (Dec.crAccess b) := by
  unfold Dec.crAccess
  split <;> simp [Instr.wf, reg2, encode]

theorem admits_system (b : Nat) : Admits (Dec.system b) := by
  unfold Dec.system
  dsimp only
  split <;> simp [Instr.wf, encode]

theorem admits_integer (b : Nat) : Admits (Dec.integer b) := by
  unfold Dec.integer
  split <;> simp [Instr.wf, reg2, reg3, encode]

theorem admits_shiftImm (b : Nat) : Admits (Dec.shiftImm b) := by
  unfold Dec.shiftImm
  split <;> simp [Instr.wf, reg3, encode]

theorem admits_floatBinary (b : Nat) : Admits (Dec.floatBinary b) := by
  unfold Dec.floatBinary
  dsimp only
  split <;> simp +contextual [Instr.wf, flt3, encode]

theorem admits_floatUnary (b : Nat) : Admits (Dec.floatUnary b) := by
  unfold Dec.floatUnary
  dsimp only
  split <;> simp +contextual [Instr.wf, encode]

theorem admits_vectorA (b : Nat) : Admits (Dec.vectorA b) := by
  unfold Dec.vectorA
  rw [admits_sel_iff]
  intro t _
  split <;> simp [Instr.wf, vec4, vec3, encode]

theorem admits_vectorB (b : Nat) : Admits (Dec.vectorB b) := by
  unfold Dec.vectorB
  rw [admits_sel_iff]
  intro t _
  split <;> simp [Instr.wf, vec4, vec3, encode]

theorem admits_vectorCmp (b : Nat) : Admits (Dec.vectorCmp b) := by
  simp [Dec.vectorCmp, Instr.wf, encode]

theorem admits_vectorC (b : Nat) : Admits (Dec.vectorC b) := by
  unfold Dec.vectorC
  rw [admits_sel_iff]
  intro t _
  split <;> simp +contextual [Instr.wf, vec4, vec3, encode]

theorem admits_plog (b : Nat) : Admits (Dec.plog b) := by
  unfold Dec.plog
  simp +contextual [Instr.wf, encode]

theorem admits_vectorD (b : Nat) : Admits (Dec.vectorD b) := by
  unfold Dec.vectorD
  split
  · exact admits_plog b
  · rw [admits_sel_iff]
    intro t _
    split <;> simp +contextual [Instr.wf, vec4, vec3, flt3, encode]

theorem admits_mmaPlain {l : MmaLimits} {b : Nat} {i : Instr}
    (h : i.wf = mmaOk l (Dec.mshape b) (Dec.macc b) (Dec.mz b) (Dec.ma b) (Dec.mb b)) (hev : (encode i).isSome = true) :
    Admits (Dec.mmaPlain l b i) := by
  simp +contextual [Dec.mmaPlain, h, hev, mmaOk, Dec.mmaGroups]

theorem admits_mmaScaled {l : MmaLimits} {b : Nat} {i : Instr}
    (h : i.wf = (mmaOk l (Dec.mshape b) (Dec.macc b) (Dec.mz b) (Dec.ma b) (Dec.mb b)
      && scalesOk l (Dec.mshape b) (Dec.mvs b))) (hev : (encode i).isSome = true) :
    Admits (Dec.mmaScaled l b i) := by
  simp +contextual [Dec.mmaScaled, h, hev, mmaOk, Dec.mmaGroups]

theorem admits_matrixControl (b : Nat) : Admits (Dec.matrixControl b) := by
  unfold Dec.matrixControl
  dsimp only
  split <;> simp +contextual [Instr.wf, reg3, encode]

theorem admits_major (m b : Nat) : Admits (Dec.major m b) := by
  unfold Dec.major
  split
  case h_9 => split <;> simp [Instr.wf, regImm, encode, *]
  case h_55 => split <;> simp [Instr.wf, reg3, regImm, encode]
  case h_48 | h_49 | h_53 => exact admits_mmaPlain rfl rfl
  case h_50 | h_51 | h_52 => exact admits_mmaScaled rfl rfl
  all_goals simp [Instr.wf, regImm, encode, admits_loads, admits_stores, admits_vmem, admits_atomics, admits_sync,
    admits_continuation, admits_label, admits_copy, admits_engine, admits_crAccess, admits_system, admits_integer,
    admits_shiftImm, admits_floatBinary, admits_floatUnary, admits_vectorA, admits_vectorB, admits_vectorCmp, admits_vectorC,
    admits_vectorD, admits_matrixControl]

theorem not_event_of_encode {i : Instr} (h : (encode i).isSome = true) : event i = false := by
  rw [event_eq_isNone]
  exact Option.isNone_eq_false_iff.mpr h

/-- Settles O35: decoding undoes encoding on every well-formed instruction, and the decoder gives no other. -/
theorem decodeOfEncode : Obligations.DecodeOfEncode := by
  refine ⟨fun i => ⟨fun h => ?_, fun h _ => ?_⟩, fun i b hwf hb => roundTrip i hwf b hb, fun b i hi => ?_⟩
  · rwa [event_eq_isNone, Option.isNone_iff_eq_none] at h
  · rw [event_eq_isNone, Option.isNone_eq_false_iff] at h
    exact Option.isSome_iff_exists.mp h
  · obtain ⟨hwf, hencode⟩ := admits_major _ b i hi
    exact ⟨hwf, not_event_of_encode hencode⟩

end Sys2Proof.Claims
end

section
/-! PROOF. The frames of instructions that complete: what Core.complete leaves, an instruction whose result a label word goes
with (R76, R77), and one that takes a trap. -/

namespace Sys2Proof.Claims
open Machine

/-! ### The end of an instruction -/

/-- The end of an instruction neither reads nor writes what the frame of an instruction leaves out. -/
theorem complete_frame (c : Core) (r : Regs) (p : List Pending) (st : NatMap Stream) (l : LblStat) :
    Core.complete { c with regs := r, pending := p, streams := st, lblstat := l } =
      { c.complete with regs := r, pending := p, streams := st, lblstat := l } := by
  unfold Core.complete
  dsimp only
  repeat' split
  all_goals rfl

/-- Nothing else of the core has changed before the instruction ends. -/
def coreSame (s u : State) : Prop :=
  { u.core with
    regs := s.core.regs, pending := s.core.pending, streams := s.core.streams, lblstat := s.core.lblstat } = s.core

theorem coreSame.complete {s u : State} (h : coreSame s u) : coreKept s u.complete := by
  rw [coreKept, State.complete_core, ← complete_frame, h]

theorem coreSame_refl (s : State) : coreSame s s := rfl

/-- An access changes LBLSTAT alone in the core. -/
theorem accessOnly_core_eq {s u : State} (h : AccessOnly s u) : u.core = { s.core with lblstat := u.core.lblstat } := by
  rw [← h.core]

theorem coreSame_of_accessOnly {s u : State} (h : AccessOnly s u) : coreSame s u := by
  rw [Claims.coreSame, accessOnly_core_eq h]

/-! ### What a formed label leaves -/

/-- What forming a label leaves of the state (R209). -/
structure Formed (s u : State) : Prop where
  same : coreSame s u
  regs : u.core.regs = s.core.regs
  pending : u.core.pending = s.core.pending
  streams : u.core.streams = s.core.streams
  ctx : ctxKept s u
  rest : restKept s u

theorem formConj_formed {s u : State} {ws : List LabelWord} {w : LabelWord} (h : s.formConj ws = .ok (w, u)) :
    Formed s u := by
  obtain ⟨extra, st, n, rfl⟩ := formConj_ok h
  exact ⟨rfl, rfl, rfl, rfl, ⟨extra, rfl⟩, ⟨rfl, rfl, rfl, rfl⟩⟩

theorem Formed.refl (s : State) : Formed s s := ⟨rfl, rfl, rfl, rfl, ⟨[], by simp⟩, ⟨rfl, rfl, rfl, rfl⟩⟩

theorem memoryKept_of_dev {s t : State} (h : t.dev = s.dev) : memoryKept s t := fun _ => by rw [h]

/-! ### An instruction that writes an x register -/

/-- A result in an x register with its label word, and then the end of the instruction. -/
theorem Formed.xWritten {s u : State} (h : Formed s u) {d : Nat} (v : Word) (w : LabelWord) (hd : d < 64) :
    xWritten s (u.wrX d v w).complete d v w := by
  have hregs : (u.wrX d v w).complete.core.regs = s.core.regs.putX d v w := by simp [h.regs]
  refine ⟨xFileWritten_putX hd hregs, ⟨?_, ?_⟩, coreSame.complete ?_, h.ctx, h.rest, memoryKept_of_dev h.rest.2.2.2⟩
  · simp [h.pending]
  · simp [h.streams]
  · exact h.same

/-- A result written with the label of its sources, as `State.result` does it. -/
theorem result_labelled {s : State} {d : Nat} {v : Word} {ws : List LabelWord} {w : LabelWord} (hd : d < 64)
    (h : labelled s d ws w) : ∃ t, s.result d v ws = .next t ∧ xWritten s t d v w := by
  by_cases hz : d = 0
  · subst hz
    refine ⟨s.complete, rfl, ?_⟩
    exact (Formed.refl s).xWritten v w hd
  · obtain ⟨u, hu⟩ := h.resolve_left hz
    refine ⟨(u.wrX d v w).complete, ?_, (formConj_formed hu).xWritten v w hd⟩
    rw [State.result, setX_of_form hz hu, commit_ok]

/-- A label that cannot be formed traps, and nothing is written. -/
theorem result_trap {s : State} {d : Nat} {v : Word} {ws : List LabelWord} {e : Trap} (hd : d ≠ 0)
    (h : s.formConj ws = .error (.trap e)) : s.result d v ws = .next (s.trapEntry e) := by
  rw [State.result, State.setX, if_neg hd, h]
  rfl

/-! ### A result left outstanding -/

/-- A result outstanding is of the frame that an instruction leaves out. -/
theorem coreSame.later {s u : State} (h : coreSame s u) (p : Pending) : coreSame s (u.later p) := by
  by_cases hp : p.reg = .x 0
  · rwa [State.later, if_pos hp]
  · rw [coreSame, State.later_core _ _ hp]
    exact h

theorem later_regs (s : State) (p : Pending) : (s.later p).core.regs = s.core.regs := by
  unfold State.later
  split <;> rfl

theorem later_pending (s : State) (p : Pending) :
    (s.later p).core.pending = s.core.pending ++ if p.reg = .x 0 then [] else [p] := by
  unfold State.later
  split <;> simp

/-- An outstanding result of an x register ends no stream. -/
theorem later_streams_x (s : State) (d : Nat) (v : VWord) (w : LabelWord) (f : FFlags) :
    (s.later ⟨.x d, v, w, f⟩).core.streams = s.core.streams := by
  unfold State.later
  split <;> rfl

/-! ### Traps -/

/-- A meaning that ends in a trap of the instruction takes it at the instruction's own address (R47, R186). -/
theorem traps_of_commit {i : Instr} {s : State} {c : Cause} {n : Nat} {addr : Word} {r : Result State}
    (hexec : exec i s = commit s r) (h : r = .error (s.trap c n addr)) : traps i s c n addr := by
  rw [h] at hexec
  exact ⟨_, hexec, rfl⟩

theorem illegalInfo_eq (s : State) (n : Nat) : illegalInfo s n = n + 16 * slotOf s.core.issue.addr := rfl

/-- An ILLEGAL trap reports its reason and the slot (R190). -/
theorem illegal_eq (s : State) (n : Nat) (addr : Word) : s.illegal n addr = s.trap .illegal (illegalInfo s n) addr := rfl

theorem classRule_of_passes {s : State} {ws : List LabelWord} (h : classPasses s ws) : s.classRule ws = .ok () := by
  rw [State.classRule, if_neg]
  rintro ⟨hstrict, hcond⟩
  rcases h with h | h
  · rw [hstrict] at h; cases h
  · exact h hcond

/-- The Class rule traps with the handles of the first two label words (R85). -/
theorem classRule_of_traps {s : State} {ws : List LabelWord} (h : classTraps s ws) :
    s.classRule ws = .error (s.trap .lblctl ((ws.map lwHandle).getD 0 0 + 2 ^ 16 * (ws.map lwHandle).getD 1 0) 0) := by
  exact if_pos h

theorem handle_eq (w : LabelWord) : lwHandle w = handle w := by simp [lwHandle, handle]

theorem classRule_one {s : State} {w : LabelWord} (h : classTraps s [w]) :
    s.classRule [w] = .error (s.trap .lblctl (handle w) 0) := by
  rw [classRule_of_traps h, ← handle_eq]
  rfl

theorem classRule_two {s : State} {v w : LabelWord} (h : classTraps s [v, w]) :
    s.classRule [v, w] = .error (s.trap .lblctl (handle v + 2 ^ 16 * handle w) 0) := by
  rw [classRule_of_traps h, ← handle_eq, ← handle_eq]
  rfl

/-! ### Signed fields -/

/-- Sign extension is the signed reading of the field. -/
theorem sext_eq_signed (n k : Nat) : sext n k = signed n k := by
  rw [signed, BitVec.toInt_eq_toNat_cond, BitVec.toNat_ofNat, sext]
  cases n with
  | zero => simp [Nat.mod_one]
  | succ n =>
    have h2 : 2 ^ (n + 1) = 2 * 2 ^ n := Nat.pow_succ'
    rw [h2, Nat.add_sub_cancel]
    split <;> split <;> first | rfl | omega

theorem wordOf_eq (i : Int) : wordOf i = BitVec.ofInt 64 i := rfl

end Sys2Proof.Claims
end

section
/-! PROOF. Integer forms and divisions (R78 to R83): the arithmetic of each form, and the frame of its result. -/

namespace Sys2Proof.Claims
open Machine

/-! ### The arithmetic of the forms -/

theorem shiftLeft_eq (x : Word) (n : Nat) : x <<< n = BitVec.ofNat 64 (x.toNat * 2 ^ n) := by
  apply BitVec.eq_of_toNat_eq
  simp [Nat.shiftLeft_eq]

theorem shiftRight_eq (x : Word) (n : Nat) : x >>> n = BitVec.ofNat 64 (x.toNat / 2 ^ n) := by
  apply BitVec.eq_of_toNat_eq
  rw [BitVec.toNat_ushiftRight, Nat.shiftRight_eq_div_pow, BitVec.toNat_ofNat,
    Nat.mod_eq_of_lt (Nat.lt_of_le_of_lt (Nat.div_le_self _ _) x.isLt)]

theorem sshiftRight_eq (x : Word) (n : Nat) : x.sshiftRight n = BitVec.ofInt 64 (x.toInt / 2 ^ n) := by
  rw [← BitVec.ofInt_toInt (x := x.sshiftRight n), BitVec.toInt_sshiftRight, Int.shiftRight_eq_div_pow]
  norm_cast

theorem sub_eq (x y : Word) : x - y = BitVec.ofInt 64 (x.toInt - y.toInt) := by
  apply BitVec.eq_of_toInt_eq
  rw [BitVec.toInt_sub, BitVec.toInt_ofInt]

theorem ite_toInt_le (x y : Word) : (if x.toInt ≤ y.toInt then x else y) = BitVec.ofInt 64 (min x.toInt y.toInt) := by
  rw [min_def]
  split <;> rw [BitVec.ofInt_toInt]

theorem ite_toInt_ge (x y : Word) : (if x.toInt ≥ y.toInt then x else y) = BitVec.ofInt 64 (max x.toInt y.toInt) := by
  rw [max_comm, max_def]
  split <;> rw [BitVec.ofInt_toInt]

theorem ite_toNat_le (x y : Word) : (if x.toNat ≤ y.toNat then x else y) = BitVec.ofNat 64 (min x.toNat y.toNat) := by
  rw [min_def]
  split <;> simp

theorem ite_toNat_ge (x y : Word) : (if x.toNat ≥ y.toNat then x else y) = BitVec.ofNat 64 (max x.toNat y.toNat) := by
  rw [max_comm, max_def]
  split <;> simp

theorem boolWord_decide (p : Prop) [Decidable p] : boolWord (decide p) = if p then 1 else 0 := by
  simp [boolWord]

theorem leadingZeros_eq (x : Word) : leadingZeros x = 64 - x.toNat.size := by
  rw [leadingZeros]
  split
  · rename_i h
    simp [h]
  · rename_i h
    have hx : x.toNat ≠ 0 := fun k => h (BitVec.eq_of_toNat_eq (by simpa using k))
    have hlo : x.toNat.log2 < x.toNat.size := Nat.lt_size.mpr (Nat.log2_self_le hx)
    have hhi : x.toNat.size ≤ x.toNat.log2 + 1 := Nat.size_le.mpr Nat.lt_log2_self
    omega

theorem popCount_eq (x : Word) : popCount x = (List.range 64).countP fun i => x.toNat.testBit i := by
  rw [popCount, List.countP_eq_length_filter]

theorem add_imm12 (x : Word) (k : Nat) : x + imm12 k = BitVec.ofInt 64 (x.toNat + signed 12 k) := by
  rw [imm12, sext_eq_signed, wordOf, BitVec.ofInt_add, BitVec.ofInt_natCast, BitVec.ofNat_toNat, BitVec.setWidth_eq]

theorem imm12_eq (k : Nat) : imm12 k = BitVec.ofInt 64 (signed 12 k) := by rw [imm12, sext_eq_signed, wordOf]

theorem imm12_toInt (k : Nat) : (imm12 k).toInt = signed 12 k := by
  have h1 := BitVec.toInt_lt (x := BitVec.ofNat 12 k)
  have h2 := BitVec.le_toInt (x := BitVec.ofNat 12 k)
  rw [imm12_eq, BitVec.toInt_ofInt, signed, Int.bmod_eq_of_le_mul_two] <;> omega

/-! ### The forms and their results -/

/-- A form with two register operands is its arithmetic with the result's label (R80). -/
theorem exec_integerForms (s : State) (d a b : Nat) :
    ∀ e ∈ integerForms d a b, exec e.1 s = s.binary d a b e.2 := by
  have arith (f : Word → Word → Word) {i : Instr} {g : Word → Word → Word} (e : exec i s = s.binary d a b f)
      (h : ∀ x y, f x y = g x y) : exec i s = s.binary d a b g := e.trans (congrArg _ (funext₂ h))
  simp only [integerForms, List.forall_mem_cons]
  refine ⟨arith (· + ·) rfl ?add, arith (· - ·) rfl sub_eq, arith (· &&& ·) rfl ?and, arith (· ||| ·) rfl ?or,
    arith (· ^^^ ·) rfl ?xor, arith (fun x y => x <<< shiftAmount y) rfl ?shl,
    arith (fun x y => x >>> shiftAmount y) rfl ?shr, arith (fun x y => x.sshiftRight (shiftAmount y)) rfl ?sra,
    arith (fun x y => boolWord (decide (x.toInt < y.toInt))) rfl ?slt,
    arith (fun x y => boolWord (decide (x.toNat < y.toNat))) rfl ?sltu,
    arith (fun x y => if x.toInt ≤ y.toInt then x else y) rfl ite_toInt_le,
    arith (fun x y => if x.toInt ≥ y.toInt then x else y) rfl ite_toInt_ge,
    arith (fun x y => if x.toNat ≤ y.toNat then x else y) rfl ite_toNat_le,
    arith (fun x y => if x.toNat ≥ y.toNat then x else y) rfl ite_toNat_ge, arith (· * ·) rfl ?mul,
    arith (fun x y => wordOf (x.toInt * y.toInt / ((2 ^ 64 : Nat) : Int))) rfl ?mulh, rfl, List.forall_mem_nil _⟩
  case shl => exact fun x y => shiftLeft_eq x _
  case shr => exact fun x y => shiftRight_eq x _
  case sra => exact fun x y => sshiftRight_eq x _
  case slt | sltu => exact fun x y => boolWord_decide _
  case mulh => exact fun x y => by rw [wordOf_eq]; norm_cast
  case add => exact fun x y => by simp [BitVec.ofNat_add]
  case mul => exact fun x y => by simp [BitVec.ofNat_mul]
  case and | or | xor => exact fun x y => by simp

/-- A form with one register operand likewise (R80, R82, R83). -/
theorem exec_unaryForms (s : State) (d a k : Nat) :
    ∀ e ∈ unaryForms d a k, exec e.1 s = s.unary d a e.2 := by
  have arith (f : Word → Word) {i : Instr} {g : Word → Word} (e : exec i s = s.unary d a f) (h : ∀ x, f x = g x) :
      exec i s = s.unary d a g := e.trans (congrArg _ (funext h))
  simp only [unaryForms, List.forall_mem_cons]
  refine ⟨arith (fun x => BitVec.ofNat 64 (leadingZeros x)) rfl ?clz,
    arith (fun x => BitVec.ofNat 64 (popCount x)) rfl ?popc, arith (· + imm12 k) rfl ?addi, arith (· &&& imm12 k) rfl ?andi,
    arith (· ||| imm12 k) rfl ?ori, arith (· ^^^ imm12 k) rfl ?xori,
    arith (fun x => boolWord (decide (x.toInt < (imm12 k).toInt))) rfl ?slti,
    arith (fun x => boolWord (decide (x.toNat < (imm12 k).toNat))) rfl ?sltiu,
    arith (· <<< k) rfl ?shli, arith (· >>> k) rfl ?shri, arith (·.sshiftRight k) rfl ?srai, List.forall_mem_nil _⟩
  case clz => exact fun x => by rw [leadingZeros_eq]
  case popc => exact fun x => by rw [popCount_eq]
  case addi => exact fun x => add_imm12 x k
  case andi | ori | xori => exact fun x => by rw [imm12_eq]
  case slti => exact fun x => by rw [imm12_toInt, boolWord_decide]
  case sltiu => exact fun x => by rw [imm12_eq, boolWord_decide]
  case shli => exact fun x => shiftLeft_eq x k
  case shri => exact fun x => shiftRight_eq x k
  case srai => exact fun x => sshiftRight_eq x k

/-- A division is long-latency arithmetic (R53, R81). -/
theorem exec_divisionForms (s : State) (d a b : Nat) :
    ∀ e ∈ divisionForms d a b, exec e.1 s = s.longBinary d a b e.2 := by
  simp only [divisionForms, List.forall_mem_cons]
  exact ⟨rfl, rfl, rfl, rfl, List.forall_mem_nil _⟩

/-- The destination of a form with two register operands is an x register. -/
theorem integerForms_dest (d a b : Nat) : ∀ e ∈ integerForms d a b, e.1.wf = true → d < 64 := by
  have h : reg3 d a b = true → d < 64 := by simp +contextual [reg3]
  simp only [integerForms, List.forall_mem_cons]
  exact ⟨h, h, h, h, h, h, h, h, h, h, h, h, h, h, h, h, h, List.forall_mem_nil _⟩

/-- The destination of a form with one register operand is an x register. -/
theorem unaryForms_dest (d a k : Nat) : ∀ e ∈ unaryForms d a k, e.1.wf = true → d < 64 := by
  have h : reg2 d a = true → d < 64 := by simp +contextual [reg2]
  have hk : reg3 d a k = true → d < 64 := by simp +contextual [reg3]
  have hi : regImm d a k = true → d < 64 := by simp +contextual [regImm]
  simp only [unaryForms, List.forall_mem_cons]
  exact ⟨h, h, hi, hi, hi, hi, hi, hi, hk, hk, hk, List.forall_mem_nil _⟩

/-- A division leaves its result outstanding, and nothing for x0 (R53, R81). -/
theorem longBinary_outstanding {s : State} {d a b : Nat} {w : LabelWord} (f : Word → Word → Word)
    (h : labelled s d [s.labX a, s.labX b] w) :
    ∃ t, s.longBinary d a b f = .next t ∧ t.core.regs = s.core.regs ∧
      outstanding s t (.x d) ((f (s.rdX a) (s.rdX b)).zeroExtend 512) w ∧
      t.core.streams = s.core.streams ∧ coreKept s t ∧ ctxKept s t ∧ restKept s t ∧ memoryKept s t := by
  by_cases hd : d = 0
  · subst hd
    exact ⟨s.complete, rfl, by simp, by simp [outstanding, outstandingWith], by simp, (coreSame_refl s).complete,
      (Formed.refl s).ctx, (Formed.refl s).rest, memoryKept_of_dev rfl⟩
  · obtain ⟨u, hu⟩ := h.resolve_left hd
    have hF := formConj_formed hu
    refine ⟨(u.later ⟨.x d, (f (s.rdX a) (s.rdX b)).zeroExtend 512, w, FFlags.none⟩).complete, ?_, ?_, ?_, ?_,
      (hF.same.later _).complete, ?_, ?_, ?_⟩
    · rw [State.longBinary, if_neg hd, hu, commit_ok]
    · simp [later_regs, hF.regs]
    · simp [outstanding, outstandingWith, later_pending, hF.pending]
    · simp [later_streams_x, hF.streams]
    · simpa [ctxKept] using hF.ctx
    · simpa [restKept] using hF.rest
    · exact memoryKept_of_dev (by simpa using hF.rest.2.2.2)

end Sys2Proof.Claims

namespace Sys2Proof
open Machine

/-- Settles O1: each form is its arithmetic, written with the label of its sources. -/
theorem integerForms : Obligations.IntegerForms := by
  unfold Obligations.IntegerForms
  refine ⟨fun s d a b i g w hi hwf => ⟨fun hw => ?_, fun e hd he => ?_⟩,
    fun s d a k i g w hi hwf => ⟨fun hw => ?_, fun e hd he => ?_⟩⟩
  · rw [Claims.exec_integerForms s d a b _ hi]
    exact Claims.result_labelled (Claims.integerForms_dest d a b _ hi hwf) hw
  · rw [Claims.exec_integerForms s d a b _ hi]
    exact Claims.result_trap hd he
  · rw [Claims.exec_unaryForms s d a k _ hi]
    exact Claims.result_labelled (Claims.unaryForms_dest d a k _ hi hwf) hw
  · rw [Claims.exec_unaryForms s d a k _ hi]
    exact Claims.result_trap hd he

/-- Settles O2: the result is outstanding, and for x0 there is none. -/
theorem divisionForms : Obligations.DivisionForms := by
  unfold Obligations.DivisionForms
  intro s d a b i g w hi _ hw
  rw [Claims.exec_divisionForms s d a b _ hi]
  exact Claims.longBinary_outstanding g hw

end Sys2Proof
end

section
/-! PROOF. Control transfers and counted loops (R26 to R28, R49, R85 to R91, R464): the addresses of the words of a container,
what a transfer leaves of the loop stack, and where an instruction goes on. -/

namespace Sys2Proof.Claims
open Machine

/-! ### Addresses -/

theorem slotOf_eq (a : Word) : slotOf a = a.toNat / 4 % 2 := rfl

/-- A container begins at the multiple of 8 below its words. -/
theorem container_eq (a : Word) : container a = BitVec.ofNat 64 (a.toNat / 8 * 8) := by
  have low : ∀ i : Fin 64, (7 : Word).getLsbD i = decide (i.val < 3) := by decide
  have hshift : a.toNat / 8 * 8 = a.toNat >>> 3 <<< 3 := by rw [Nat.shiftLeft_eq, Nat.shiftRight_eq_div_pow]
  apply BitVec.eq_of_getLsbD_eq
  intro i hi
  rw [container, hshift, BitVec.getLsbD_and, BitVec.getLsbD_not, low ⟨i, hi⟩, BitVec.getLsbD_ofNat, Nat.testBit_shiftLeft,
    Nat.testBit_shiftRight]
  by_cases h : i < 3
  · simp [h, hi]
  · rw [Nat.add_sub_of_le (Nat.le_of_not_lt h)]
    simp [h, hi, Nat.le_of_not_lt h, BitVec.getLsbD]

theorem successor_eq (i : Issue) : i.successor = nextAddress i := by
  rw [Issue.successor, nextAddress, container_eq, slotOf_eq]
  simp

theorem branchTarget_eq (s : State) (bits off : Nat) : branchTarget s.core.issue.addr bits off = target s bits off := by
  rw [branchTarget, target, sext_eq_signed, wordOf_eq]

theorem registerTarget_eq (s : State) (a k : Nat) :
    s.registerTarget a k = s.rdX a + BitVec.ofInt 64 (4 * signed 12 k) := by
  rw [State.registerTarget, sext_eq_signed, wordOf_eq]

/-! ### Taken transfers -/

/-- The entries popped are the innermost whose body does not hold the target (R28). -/
theorem popOutside_eq (dst : Word) (l : List LoopEntry) :
    popOutside dst l = l.dropWhile fun e => !decide (e.start.toNat ≤ dst.toNat ∧ dst.toNat < e.stop.toNat + 8) := by
  induction l with
  | nil => rfl
  | cons e l ih =>
    rw [popOutside, List.dropWhile_cons]
    by_cases h : e.start.toNat ≤ dst.toNat ∧ dst.toNat < e.stop.toNat + 8 <;> simp [h, ih]

theorem transfer_loops (s : State) (dst : Word) : (s.core.transfer dst).loops = loopsAfter s dst := by
  rw [loopsAfter, ← popOutside_eq]
  rfl

theorem transferKept_transfer (s : State) (dst : Word) : transferKept s (s.mapCore fun c => c.transfer dst) :=
  ⟨rfl, rfl, rfl, rfl, ⟨rfl, rfl, rfl, rfl⟩, fun _ => rfl⟩

theorem transferKept_jump (s : State) (d : Nat) (v : Word) (w : LabelWord) (dst : Word) :
    transferKept s ((s.wrX d v w).mapCore fun c => c.jump dst) :=
  ⟨rfl, rfl, rfl, rfl, ⟨rfl, rfl, rfl, rfl⟩, fun _ => rfl⟩

/-- A jump that writes the address of the next instruction and pops no loop (R86, R87). -/
theorem link_jump (s : State) {d : Nat} (dst : Word) (hd : d < 64) :
    ∃ t, (s.wrX d s.core.issue.successor s.topWord).mapCore (fun c => c.jump dst) = t ∧ t.core.pc = dst ∧
      t.core.loops = s.core.loops ∧ xFileWritten s t d (nextAddress s.core.issue) s.topWord ∧ transferKept s t := by
  refine ⟨_, rfl, rfl, rfl, ?_, transferKept_jump s d _ _ dst⟩
  rw [← successor_eq]
  exact xFileWritten_putX hd rfl

/-! ### J, JL, JR, JLR -/

theorem exec_j (off : Nat) (s : State) :
    exec (.j off) s = .next (s.mapCore fun c => c.transfer (branchTarget s.core.issue.addr 24 off)) := rfl

theorem exec_jl (off : Nat) (s : State) :
    exec (.jl off) s = .next ((s.wrX 1 s.core.issue.successor s.topWord).mapCore fun c =>
      c.jump (branchTarget s.core.issue.addr 24 off)) := rfl

theorem exec_jr (a k : Nat) (s : State) :
    exec (.jr a k) s = commit s (do
      s.classRule [s.labX a]
      s.targetCheck (s.registerTarget a k)
      .ok (s.mapCore fun c => c.transfer (s.registerTarget a k))) := rfl

theorem exec_jlr (d a k : Nat) (s : State) :
    exec (.jlr d a k) s = commit s (do
      s.classRule [s.labX a]
      s.targetCheck (s.registerTarget a k)
      .ok ((s.wrX d s.core.issue.successor s.topWord).mapCore fun c => c.jump (s.registerTarget a k))) := rfl

theorem targetCheck_aligned {s : State} {dst : Word} (h : dst.toNat % 4 = 0) : s.targetCheck dst = .ok () :=
  if_neg (by simpa using h)

theorem targetCheck_misaligned {s : State} {dst : Word} (h : dst.toNat % 4 ≠ 0) :
    s.targetCheck dst = .error (s.trap .misalign 2 dst) := if_pos h

/-! ### Branches -/

theorem exec_branches (s : State) (a b off : Nat) :
    ∀ e ∈ branches a b off, exec e.1 s = s.branch a b off e.2 := by
  simp only [branches, List.forall_mem_cons]
  exact ⟨rfl, rfl, rfl, rfl, rfl, rfl, List.forall_mem_nil _⟩

end Sys2Proof.Claims

namespace Sys2Proof
open Machine Claims

/-- Settles O4: a jump is a transfer to its target, or a jump that links. -/
theorem jumps : Obligations.Jumps := by
  unfold Obligations.Jumps
  intro s off d a k dst _ hd _ _ _ hdst
  rw [← registerTarget_eq] at hdst
  have hj := exec_jr a k s
  have hl := exec_jlr d a k s
  rw [← hdst] at hj hl
  refine ⟨?_, ?_, fun hal hcl => ?_, fun hmis hcl => ?_, fun _ hcl => ?_⟩
  · rw [exec_j, branchTarget_eq]
    exact ⟨_, rfl, rfl, rfl, transfer_loops s _, transferKept_transfer s _⟩
  · rw [exec_jl, branchTarget_eq]
    obtain ⟨t, ht, h⟩ := link_jump s (d := 1) (target s 24 off) (by decide)
    exact ⟨t, by rw [ht], h⟩
  · rw [classRule_of_passes hcl, except_bind_ok, targetCheck_aligned hal, except_bind_ok, commit_ok] at hj hl
    obtain ⟨t, ht, h⟩ := link_jump s dst hd
    exact ⟨⟨_, hj, rfl, rfl, transfer_loops s dst, transferKept_transfer s dst⟩, t, by rw [hl, ht], h⟩
  · rw [classRule_of_passes hcl, except_bind_ok, targetCheck_misaligned hmis, except_bind_error] at hj hl
    exact ⟨traps_of_commit hj rfl, traps_of_commit hl rfl⟩
  · rw [classRule_one hcl, except_bind_error] at hj hl
    exact ⟨traps_of_commit hj rfl, traps_of_commit hl rfl⟩

/-- Settles O5: the condition decides between a transfer and the next instruction. -/
theorem branches : Obligations.Branches := by
  unfold Obligations.Branches
  intro s a b off i c hi _
  have hexec : exec i s = s.branch a b off c := exec_branches s a b off _ hi
  refine ⟨fun hcl => ?_, fun hcl => ?_⟩
  · rw [hexec, State.branch, classRule_of_passes hcl, branchTarget_eq]
    cases hc : c (s.rdX a) (s.rdX b) with
    | true =>
      exact ⟨_, rfl, rfl, fun _ => ⟨rfl, transfer_loops s _, transferKept_transfer s _⟩, nofun⟩
    | false => exact ⟨s.complete, rfl, by simp, nofun, fun _ => passed_complete s⟩
  · rw [State.branch, classRule_two hcl] at hexec
    exact traps_of_commit hexec rfl

end Sys2Proof
end

section
/-! PROOF. The end of an instruction and the counted loops (R26, R27, R49, R90, R91, R464). -/

namespace Sys2Proof.Claims
open Machine

/-! ### The end of an instruction, by the word it stands in -/

theorem complete_word0_lone {c : Core} (h : slotOf c.issue.addr = 0) (hl : c.issue.lone = true) :
    c.complete = { c with pc := c.issue.addr + 4, grants := [], stalled := false } := by
  rw [Core.complete, if_pos h, if_pos hl]

theorem complete_word0_pair {c : Core} (h : slotOf c.issue.addr = 0) (hl : c.issue.lone = false) : c.complete = c := by
  rw [Core.complete, if_pos h, if_neg (by simp [hl])]

theorem complete_taken {c : Core} (h : slotOf c.issue.addr = 1) (ht : c.issue.taken = true) :
    c.complete = { c with grants := [], stalled := false } := by
  rw [Core.complete, if_neg (by omega)]
  exact if_pos ht

theorem complete_last {c : Core} (h : slotOf c.issue.addr = 1) (ht : c.issue.taken = false) :
    c.complete = { c.passContainer (container c.issue.addr) with grants := [], stalled := false } := by
  rw [Core.complete, if_neg (by omega)]
  exact if_neg (by simp [ht])

/-- The parts of a core that the end of an instruction reads. -/
def sameIssue (c d : Core) : Prop :=
  d.issue = c.issue ∧ d.loops = c.loops ∧ d.frozen = c.frozen ∧ d.pc = c.pc ∧ d.grants = c.grants ∧ d.stalled = c.stalled

/-- The end of an instruction sets the pc, the loop stack and the marks of a waiting container, whatever else the core holds. -/
theorem complete_like {c d : Core} (h : sameIssue c d) : d.complete =
    { d with pc := c.complete.pc, loops := c.complete.loops, grants := c.complete.grants, stalled := c.complete.stalled } := by
  obtain ⟨hissue, hloops, hfrozen, hpc, hgrants, hstalled⟩ := h
  rcases Nat.mod_two_eq_zero_or_one (c.issue.addr.toNat / 4) with h0 | h1
  · cases hl : c.issue.lone with
    | true =>
      rw [complete_word0_lone (c := c) h0 hl, complete_word0_lone (c := d) (hissue ▸ h0) (hissue ▸ hl), hissue, ← hloops]
    | false =>
      rw [complete_word0_pair (c := c) h0 hl, complete_word0_pair (c := d) (hissue ▸ h0) (hissue ▸ hl), ← hloops, ← hpc,
        ← hgrants, ← hstalled]
  · cases ht : c.issue.taken with
    | true =>
      rw [complete_taken (c := c) h1 ht, complete_taken (c := d) (hissue ▸ h1) (hissue ▸ ht), ← hloops, ← hpc]
    | false =>
      rw [complete_last (c := c) h1 ht, complete_last (c := d) (hissue ▸ h1) (hissue ▸ ht), Core.passContainer,
        Core.passContainer, hissue, hloops, hfrozen]

/-- The end of an instruction is the same for two cores that differ in what it leaves alone. -/
theorem complete_sameIssue {c d : Core} (h : sameIssue c d) {f : Core → Core}
    (hf : ∀ pc loops grants stalled, f { d with pc := pc, loops := loops, grants := grants, stalled := stalled } =
      { c with pc := pc, loops := loops, grants := grants, stalled := stalled }) : f d.complete = c.complete := by
  rw [complete_like h, hf, ← complete_like (c := c) (d := c) ⟨rfl, rfl, rfl, rfl, rfl, rfl⟩]

/-! ### End-of-body processing -/

/-- The entries that are not frozen. -/
def live (c : Core) : List LoopEntry := c.loops.take (c.loops.length - c.frozen)

theorem passContainer_pc (c : Core) (here : Word) :
    (c.passContainer here).pc = (endOfBody here (live c)).2.getD (here + 8) := rfl

theorem passContainer_loops (c : Core) (here : Word) :
    (c.passContainer here).loops = (endOfBody here (live c)).1 ++ c.loops.drop (c.loops.length - c.frozen) := rfl

theorem endOfBody_other {here : Word} {e : LoopEntry} {l : List LoopEntry} (h : e.stop ≠ here) :
    endOfBody here (e :: l) = (e :: l, none) := if_pos h

theorem endOfBody_again {e : LoopEntry} {l : List LoopEntry} (h : 1 < e.count) :
    endOfBody e.stop (e :: l) = ({ e with count := e.count - 1 } :: l, some e.start) := by
  rw [endOfBody, if_neg (not_not.mpr rfl), if_pos h]

theorem endOfBody_done {e : LoopEntry} {l : List LoopEntry} (h : e.count ≤ 1) :
    endOfBody e.stop (e :: l) = endOfBody e.stop l := by
  rw [endOfBody, if_neg (not_not.mpr rfl), if_neg (by omega)]

/-- Control goes on with the next container where no live entry ends here. -/
theorem passContainer_through {c : Core} {here : Word} (h : ∀ e, (live c).head? = some e → e.stop ≠ here) :
    (c.passContainer here).pc = here + 8 ∧ (c.passContainer here).loops = c.loops := by
  have hbody : endOfBody here (live c) = (live c, none) := by
    cases hl : live c with
    | nil => rfl
    | cons e l => exact endOfBody_other (h e (by rw [hl]; rfl))
  rw [passContainer_pc, passContainer_loops, hbody]
  exact ⟨rfl, List.take_append_drop _ _⟩

/-- Where an instruction goes on that ends no live loop. -/
theorem complete_through {c : Core} (h : ∀ e, (live c).head? = some e → e.stop ≠ container c.issue.addr) :
    c.complete.loops = c.loops ∧
      c.complete.pc = (if c.issue.addr.toNat / 4 % 2 = 0 then if c.issue.lone = true then nextAddress c.issue else c.pc
        else if c.issue.taken = true then c.pc else container c.issue.addr + 8) := by
  rcases Nat.mod_two_eq_zero_or_one (c.issue.addr.toNat / 4) with h0 | h1
  · rw [if_pos h0]
    cases hl : c.issue.lone with
    | true => rw [complete_word0_lone h0 hl, if_pos rfl, nextAddress, if_pos ⟨hl, h0⟩]; exact ⟨rfl, rfl⟩
    | false => rw [complete_word0_pair h0 hl]; exact ⟨rfl, rfl⟩
  · rw [if_neg (by omega)]
    cases ht : c.issue.taken with
    | true => rw [complete_taken h1 ht]; exact ⟨rfl, rfl⟩
    | false => rw [complete_last h1 ht]; exact (passContainer_through h).symm

/-- The pass of R27 is end-of-body processing. -/
theorem passAt_eq (here : Word) (l : List LoopEntry) :
    passAt here l = ((endOfBody here l).1, (endOfBody here l).2.getD (here + 8)) := by
  induction l with
  | nil => rfl
  | cons e l ih =>
    rw [passAt]
    by_cases hstop : e.stop = here
    · subst hstop
      by_cases hcount : 1 < e.count
      · simp [hcount, endOfBody_again hcount]
      · simp [hcount, endOfBody_done (Nat.le_of_not_lt hcount), ih]
    · simp [hstop, endOfBody_other hstop]

/-- The innermost entry is live where not every entry is frozen. -/
theorem live_cons {c : Core} {e : LoopEntry} {rest : List LoopEntry} (h : c.loops = e :: rest) (hf : c.frozen ≤ rest.length) :
    live c = e :: rest.take (rest.length - c.frozen) := by
  rw [live, h, List.length_cons, Nat.succ_sub hf, List.take_succ_cons]

theorem live_nil {c : Core} (h : c.loops.length ≤ c.frozen) : live c = [] := by
  rw [live, Nat.sub_eq_zero_of_le h, List.take_zero]

theorem kept_cons {c : Core} {e : LoopEntry} {rest : List LoopEntry} (h : c.loops = e :: rest) (hf : c.frozen ≤ rest.length) :
    c.loops.drop (c.loops.length - c.frozen) = rest.drop (rest.length - c.frozen) := by
  rw [h, List.length_cons, Nat.succ_sub hf, List.drop_succ_cons]

/-- The innermost loop, which ends here, repeats while its count is above 1. -/
theorem passContainer_again {c : Core} {e : LoopEntry} {rest : List LoopEntry} (h : c.loops = e :: rest)
    (hf : c.frozen ≤ rest.length) (hc : 1 < e.count) :
    (c.passContainer e.stop).pc = e.start ∧ (c.passContainer e.stop).loops = { e with count := e.count - 1 } :: rest := by
  rw [passContainer_pc, passContainer_loops, live_cons h hf, endOfBody_again hc, kept_cons h hf]
  exact ⟨rfl, congrArg _ (List.take_append_drop _ _)⟩

/-- After its last pass it is popped, and the next one decides. -/
theorem passContainer_done {c : Core} {e : LoopEntry} {rest : List LoopEntry} (h : c.loops = e :: rest)
    (hf : c.frozen ≤ rest.length) (hc : e.count ≤ 1) :
    c.passContainer e.stop = Core.passContainer { c with loops := rest } e.stop := by
  have hlive := live_cons h hf
  rw [live] at hlive
  rw [Core.passContainer, Core.passContainer, kept_cons h hf, hlive, endOfBody_done hc]

/-! ### Loops entered and skipped -/

theorem exec_loop (a imm : Nat) (s : State) :
    exec (.loop a imm) s = commit s (do
      s.classRule [s.labX a]
      if (s.rdX a).toInt > 0xFFFFFFFF then .error (s.illegal 9 0) else s.enterLoop (s.rdX a).toInt imm) := rfl

theorem exec_loopi (k imm : Nat) (s : State) : exec (.loopi k imm) s = commit s (s.enterLoop k imm) := rfl

/-- LOOP with a count that it takes, and LOOPI, enter the loop (R91). -/
theorem exec_enterLoop {s : State} {a k imm : Nat} {i : Instr} {n : Int}
    (h : i = .loopi k imm ∧ n = k ∨ i = .loop a imm ∧ n = (s.rdX a).toInt ∧ n < 2 ^ 32 ∧ classPasses s [s.labX a]) :
    exec i s = commit s (s.enterLoop n imm) := by
  obtain ⟨rfl, rfl⟩ | ⟨rfl, rfl, hn, hcl⟩ := h
  · rfl
  · rw [exec_loop, classRule_of_passes hcl, except_bind_ok, if_neg (by omega)]

/-- The entry that LOOP and LOOPI push at the container `here`. -/
def pushed (here : Word) (imm n : Nat) : LoopEntry := ⟨here + 8, here + 8 + BitVec.ofNat 64 (8 * imm), n⟩

theorem enterLoop_skip {s : State} {n : Int} {imm : Nat} (h : n ≤ 0) :
    s.enterLoop n imm = .ok (s.mapCore fun c =>
      c.skipBody (container s.core.issue.addr + 8 + BitVec.ofNat 64 (8 * imm))) := if_pos h

theorem enterLoop_full {s : State} {n : Int} {imm : Nat} (h : 0 < n) (hl : 4 ≤ s.core.loops.length) :
    s.enterLoop n imm = .error (s.trap .loopovf 0 0) := by
  rw [State.enterLoop, if_neg (by omega), if_pos hl]

theorem enterLoop_push {s : State} {n : Int} {imm : Nat} (h : 0 < n) (hl : s.core.loops.length < 4) :
    s.enterLoop n imm = .ok (s.mapCore fun c =>
      { c with loops := pushed (container s.core.issue.addr) imm n.toNat :: c.loops }).complete := by
  rw [State.enterLoop, if_neg (by omega), if_neg (by omega)]
  rfl

/-- A body never ends at the container before it: it is at most 4096 containers long. -/
theorem pushed_stop_ne (here : Word) {imm : Nat} (n : Nat) (h : imm < 4096) : (pushed here imm n).stop ≠ here := by
  intro heq
  have := congrArg BitVec.toNat heq
  rw [pushed, BitVec.toNat_add, BitVec.toNat_add, BitVec.toNat_ofNat, show BitVec.toNat (8 : Word) = 8 from rfl] at this
  have := here.isLt
  omega

/-- The end of an instruction that changed the loop stack alone. -/
theorem complete_withLoops (c : Core) (l : List LoopEntry) :
    { Core.complete { c with loops := l } with
      regs := c.regs, pc := c.pc, loops := c.loops, pending := c.pending, streams := c.streams, lblstat := c.lblstat
      grants := c.grants, stalled := c.stalled } = c := by
  unfold Core.complete
  dsimp only
  repeat' split
  all_goals rfl

/-- The innermost live entry is one of the loop stack's. -/
theorem live_head {c : Core} {e : LoopEntry} {rest : List LoopEntry} (h : c.loops = e :: rest) {e' : LoopEntry}
    (he : (live c).head? = some e') : e' = e := by
  rw [live, h, List.head?_take] at he
  split at he
  · cases he
  · exact (Option.some.inj he).symm

/-- Where a LOOP that pushed its entry goes on: the body's own end lies behind it. -/
theorem complete_pushed (c : Core) {imm : Nat} (n : Nat) (h : imm < 4096) :
    (Core.complete { c with loops := pushed (container c.issue.addr) imm n :: c.loops }).loops =
        pushed (container c.issue.addr) imm n :: c.loops ∧
      (Core.complete { c with loops := pushed (container c.issue.addr) imm n :: c.loops }).pc =
        (if c.issue.addr.toNat / 4 % 2 = 0 then if c.issue.lone = true then nextAddress c.issue else c.pc
        else if c.issue.taken = true then c.pc else container c.issue.addr + 8) := by
  refine complete_through fun e he => ?_
  rw [live_head rfl he]
  exact pushed_stop_ne _ n h

theorem skipBody_pass {c : Core} {top : LoopEntry} {rest : List LoopEntry} (h : live c = top :: rest) :
    c.skipBody top.stop = (c.jump (top.stop + 8)).passContainer top.stop := by
  rw [live] at h
  rw [Core.skipBody, h]
  exact if_pos rfl

theorem skipBody_transfer {c : Core} {e : Word} (h : (live c).head?.map LoopEntry.stop ≠ some e) :
    c.skipBody e = c.transfer (e + 8) := by
  rw [live] at h
  rw [Core.skipBody]
  split
  · rename_i htop
    rw [htop] at h
    exact if_neg fun hs => h (congrArg some hs)
  · rfl

/-- A skipped body is a pass at its end, or a transfer behind it (R464). -/
theorem skipBody_bodySkipped (s : State) (e : Word) : bodySkipped s (s.mapCore fun c => c.skipBody e) e := by
  by_cases h : (live s.core).head?.map LoopEntry.stop = some e
  · obtain ⟨top, htop, rfl⟩ := Option.map_eq_some_iff.mp h
    obtain ⟨rest, hlive⟩ := List.head?_eq_some_iff.mp htop
    have hcore : (s.mapCore fun c => c.skipBody top.stop).core = (s.core.jump (top.stop + 8)).passContainer top.stop :=
      skipBody_pass hlive
    refine ⟨by rw [hcore]; rfl, ⟨?_, ?_, ?_, rfl, ⟨rfl, rfl, rfl, rfl⟩, fun _ => rfl⟩, fun _ => ?_, fun hn => absurd h hn⟩
    · rw [hcore]; rfl
    · rw [hcore]; rfl
    · rw [hcore]; rfl
    · rw [hcore, passAt_eq]
      exact ⟨rfl, rfl⟩
  · have hcore : (s.mapCore fun c => c.skipBody e) = s.mapCore fun c => c.transfer (e + 8) := by
      rw [State.mapCore, skipBody_transfer h]
      rfl
    rw [hcore]
    exact ⟨rfl, transferKept_transfer s _, fun hs => absurd hs h, fun _ => ⟨rfl, transfer_loops s _⟩⟩

end Sys2Proof.Claims

namespace Sys2Proof
open Machine Claims

/-- Settles O6: the count decides between a push, a trap and a skip. -/
theorem loopsPush : Obligations.LoopsPush := by
  unfold Obligations.LoopsPush
  intro s a k imm here _ _ himm hhere
  rw [← container_eq] at hhere
  subst hhere
  refine ⟨fun i n hi => ?_, fun hbig hcl => ?_, fun hcl => ?_⟩
  · have hexec := exec_enterLoop hi
    refine ⟨fun hn hroom => ?_, fun hn hfull => ?_, fun hn => ?_⟩
    · rw [enterLoop_push hn hroom, commit_ok] at hexec
      obtain ⟨hloops, hpc⟩ := complete_pushed s.core n.toNat himm
      exact ⟨_, hexec, by simp, hloops, hpc, ⟨by simp, by simp⟩, complete_withLoops s.core _, rfl, ⟨rfl, rfl, rfl, rfl⟩,
        fun _ => rfl⟩
    · exact traps_of_commit hexec (enterLoop_full hn hfull)
    · rw [enterLoop_skip hn, commit_ok] at hexec
      exact ⟨_, hexec, skipBody_bodySkipped s _⟩
  · have hexec := exec_loop a imm s
    rw [classRule_of_passes hcl, except_bind_ok, if_pos (by omega)] at hexec
    exact traps_of_commit hexec (illegal_eq s 9 0 ▸ rfl)
  · have hexec := exec_loop a imm s
    rw [classRule_one hcl, except_bind_error] at hexec
    exact traps_of_commit hexec rfl

/-- Settles O7: the word's place in its container decides, and the innermost live entry at the container's end. -/
theorem completionAdvances : Obligations.CompletionAdvances := by
  unfold Obligations.CompletionAdvances
  intro s here hhere
  rw [← container_eq] at hhere
  subst hhere
  simp only [State.complete_core]
  refine ⟨fun h hl => ?_, fun h hl => ?_, fun h ht => ?_, fun h ht => ⟨fun hf => ?_, fun e rest hloops hf => ?_⟩⟩
  · rw [complete_word0_lone h hl]
    exact ⟨rfl, rfl⟩
  · exact complete_word0_pair h hl
  · rw [complete_taken h ht]
    exact ⟨rfl, rfl⟩
  · rw [complete_last h ht]
    exact passContainer_through fun e he => by rw [live_nil hf] at he; cases he
  · refine ⟨fun hstop => ?_, fun hstop hcount => ?_, fun hstop hcount => ?_⟩
    · rw [complete_last h ht]
      exact passContainer_through fun e' he' => by rwa [live_head hloops he']
    · rw [complete_last h ht, ← hstop]
      exact passContainer_again hloops hf hcount
    · have hdone := passContainer_done hloops hf hcount
      rw [State.mapCore_core, complete_last h ht, complete_last (c := { s.core with loops := rest }) h ht]
      simp only [← hstop, hdone]

end Sys2Proof
end

section
/-! PROOF. Trap entry and the returns (R95 to R97, R186 to R189, R423): how the loop stack is packed into SLOOP and ECAUSE and
read back, and what a context fault leaves. -/

namespace Sys2Proof.Claims
open Machine

/-! ### SLOOP and ECAUSE -/

theorem tabulate_get {α : Type} {n : Nat} (h : 0 < n) (f : Nat → α) {i : Nat} (hi : i < n) : fileGet h (tabulate n f) i = f i := by
  have hmod : i % n = i := Nat.mod_eq_of_lt hi
  simp [fileGet, tabulate, hmod]

/-- The field of ECAUSE that holds bits [34:23] of the start of entry `i`, outermost first (R188). -/
def shiOf (loops : List LoopEntry) (i : Nat) : Nat := ((loops.reverse[i]?).map fun e => bitsAt e.start 23 12).getD 0

theorem shiOf_lt (loops : List LoopEntry) (i : Nat) : shiOf loops i < 2 ^ 12 := by
  rw [shiOf]
  cases loops.reverse[i]? with
  | none => exact Nat.two_pow_pos 12
  | some e => exact Nat.mod_lt _ (Nat.two_pow_pos 12)

theorem shiOf_some {loops : List LoopEntry} {i : Nat} {e : LoopEntry} (h : loops.reverse[i]? = some e) :
    shiOf loops i = e.start.toNat / 2 ^ 23 % 2 ^ 12 := by
  rw [shiOf, h]
  rfl

/-- The fields of ECAUSE do not overlap (R188). -/
theorem packCause_toNat (loops : List LoopEntry) {frozen : Nat} (mode : Mode) (c : Cause) (hf : frozen ≤ 4) :
    (packCause loops frozen mode c).toNat = c.code + (if mode = .s then 1 else 0) * 2 ^ 8 + frozen * 2 ^ 9
      + shiOf loops 0 * 2 ^ 16 + shiOf loops 1 * 2 ^ 28 + shiOf loops 2 * 2 ^ 40 + shiOf loops 3 * 2 ^ 52 := by
  have hcode : c.code < 2 ^ 8 := by cases c <;> decide
  have h0 := shiOf_lt loops 0
  have h1 := shiOf_lt loops 1
  have h2 := shiOf_lt loops 2
  have h3 := shiOf_lt loops 3
  have hbit : oneBit (decide (mode = .s)) = if mode = .s then 1 else 0 := by simp [oneBit]
  rw [packCause, BitVec.toNat_ofNat, hbit]
  apply Nat.mod_eq_of_lt
  change _ + _ + _ + shiOf loops 0 * 2 ^ 16 + shiOf loops 1 * 2 ^ 28 + shiOf loops 2 * 2 ^ 40 + shiOf loops 3 * 2 ^ 52 < _
  split <;> omega

theorem packCause_frozen (loops : List LoopEntry) {frozen : Nat} (mode : Mode) (c : Cause) (hf : frozen ≤ 4) :
    (packCause loops frozen mode c).toNat / 2 ^ 9 % 2 ^ 3 = frozen := by
  have hcode : c.code < 2 ^ 8 := by cases c <;> decide
  rw [packCause_toNat loops mode c hf]
  split <;> omega

theorem packCause_mode (loops : List LoopEntry) {frozen : Nat} (mode : Mode) (c : Cause) (hf : frozen ≤ 4) :
    (packCause loops frozen mode c).toNat.testBit 8 = decide (mode = .s) := by
  have hcode : c.code < 2 ^ 8 := by cases c <;> decide
  rw [packCause_toNat loops mode c hf, Nat.testBit_eq_decide_div_mod_eq, decide_eq_decide]
  by_cases hm : mode = .s
  · rw [if_pos hm]
    exact ⟨fun _ => hm, fun _ => by omega⟩
  · rw [if_neg hm]
    exact ⟨fun _ => by omega, fun h => absurd h hm⟩

theorem packCause_pmode (loops : List LoopEntry) {frozen : Nat} (mode : Mode) (c : Cause) (hf : frozen ≤ 4) :
    pmodeOf (packCause loops frozen mode c) = mode := by
  rw [pmodeOf, bitAt, packCause_mode loops mode c hf]
  cases mode <;> rfl

theorem packCause_shi (loops : List LoopEntry) {frozen : Nat} (mode : Mode) (c : Cause) (hf : frozen ≤ 4) {i : Nat} (hi : i < 4) :
    (packCause loops frozen mode c).toNat / 2 ^ (16 + 12 * i) % 2 ^ 12 = shiOf loops i := by
  have hcode : c.code < 2 ^ 8 := by cases c <;> decide
  have h0 := shiOf_lt loops 0
  have h1 := shiOf_lt loops 1
  have h2 := shiOf_lt loops 2
  have h3 := shiOf_lt loops 3
  rw [packCause_toNat loops mode c hf]
  match i, hi with
  | 0, _ => split <;> omega
  | 1, _ => split <;> omega
  | 2, _ => split <;> omega
  | 3, _ => split <;> omega

/-- The fields of an entry in SLOOP form do not overlap (R187). -/
theorem pack_toNat (e : LoopEntry) :
    e.pack.toNat = e.count % 2 ^ 32 * 2 ^ 32 + (e.stop - e.start).toNat / 8 % 2 ^ 12 * 2 ^ 20
      + e.start.toNat / 2 ^ 3 % 2 ^ 20 := by
  rw [LoopEntry.pack, bitsAt, BitVec.toNat_ofNat]
  omega

/-- SLOOP holds entry `i`, outermost first, and 0 beyond the last (R186). -/
theorem packLoops_get (loops : List LoopEntry) {i : Nat} (hi : i < 4) :
    fileGet (by decide) (packLoops loops) i = ((loops.reverse[i]?).map LoopEntry.pack).getD 0 :=
  tabulate_get (by decide) _ hi

/-! ### The loop stack read back -/

/-- Entry `i`, outermost first, as ERET reads it from SLOOP, EPC and ECAUSE (R187). -/
def entryOf (epc ecause : Word) (i : Nat) (w : Word) : LoopEntry :=
  let va := wordOf (sext 55 (bitsAt epc 35 20 * 2 ^ 35 + bitsAt ecause (16 + 12 * i) 12 * 2 ^ 23 + bitsAt w 0 20 * 8))
  ⟨va, va + BitVec.ofNat 64 (8 * bitsAt w 20 12), bitsAt w 32 32⟩

/-- The registers that hold an entry: those before the first with COUNT 0 (R189). -/
def heldEntries (sloop : Vector Word 4) : List Word := sloop.toList.takeWhile fun w => decide (w.toNat / 2 ^ 32 ≠ 0)

theorem count_field (w : Word) : bitsAt w 32 32 = w.toNat / 2 ^ 32 := by
  have := w.isLt
  rw [bitsAt]
  omega

theorem unpackLoops_eq (epc ecause : Word) (sloop : Vector Word 4) :
    unpackLoops epc ecause sloop = ((heldEntries sloop).mapIdx (entryOf epc ecause)).reverse := by
  rw [heldEntries, ← funext fun w => congrArg (fun n => decide (n ≠ 0)) (count_field w)]
  rfl

theorem unpackLoops_length (epc ecause : Word) (sloop : Vector Word 4) :
    (unpackLoops epc ecause sloop).length = (heldEntries sloop).length := by simp [unpackLoops_eq]

theorem unpackLoops_counts (epc ecause : Word) (sloop : Vector Word 4) :
    (unpackLoops epc ecause sloop).reverse.map LoopEntry.count = (heldEntries sloop).map fun w => w.toNat / 2 ^ 32 := by
  rw [unpackLoops_eq, List.reverse_reverse]
  refine List.ext_getElem (by simp) fun i _ _ => ?_
  rw [List.getElem_map, List.getElem_mapIdx, List.getElem_map]
  exact count_field _

/-- A canonical address is the sign extension of its low 55 bits (R131). -/
theorem sext_canonical {va : Word} (h : canonicalVa va = true) : wordOf (sext 55 (va.toNat % 2 ^ 55)) = va := by
  have hva : va.toNat / 2 ^ 54 = 0 ∨ va.toNat / 2 ^ 54 = 2 ^ 10 - 1 := by simpa [canonicalVa] using h
  have hlt := va.isLt
  apply BitVec.eq_of_toNat_eq
  rw [wordOf, BitVec.toNat_ofInt, sext]
  split <;> omega

/-- An entry that SLOOP, SHI and EPC can hold is read back as it was (R187). -/
theorem entryOf_pack {epc ecause : Word} {i : Nat} {e : LoopEntry} (h : loopSaved epc e)
    (hshi : ecause.toNat / 2 ^ (16 + 12 * i) % 2 ^ 12 = e.start.toNat / 2 ^ 23 % 2 ^ 12) :
    entryOf epc ecause i e.pack = e := by
  obtain ⟨hpos, hcount, halign, hwindow, hcanon, n, hn, hstop⟩ := h
  have hlength : (e.stop - e.start).toNat / 8 % 2 ^ 12 = n := by
    rw [hstop, BitVec.add_comm, BitVec.add_sub_cancel, BitVec.toNat_ofNat]
    omega
  have hpack := pack_toNat e
  rw [hlength] at hpack
  have hstart : bitsAt epc 35 20 * 2 ^ 35 + bitsAt ecause (16 + 12 * i) 12 * 2 ^ 23 + bitsAt e.pack 0 20 * 8 =
      e.start.toNat % 2 ^ 55 := by
    simp only [bitsAt]
    omega
  have hva : wordOf (sext 55 (e.start.toNat % 2 ^ 55)) = e.start := sext_canonical hcanon
  have hlen : bitsAt e.pack 20 12 = n := by
    rw [bitsAt]
    omega
  have hcnt : bitsAt e.pack 32 32 = e.count := by
    rw [bitsAt]
    omega
  rw [entryOf, hstart, hva, hlen, hcnt, ← hstop]

/-- A packed entry of a loop that runs has a COUNT that is not 0. -/
theorem pack_count_ne {e : LoopEntry} (h : 0 < e.count ∧ e.count < 2 ^ 32) : e.pack.toNat / 2 ^ 32 ≠ 0 := by
  rw [pack_toNat]
  omega

theorem packLoops_toList (loops : List LoopEntry) :
    (packLoops loops).toList = (List.range 4).map fun i => ((loops.reverse[i]?).map LoopEntry.pack).getD 0 := rfl

/-- The first registers of a row that hold a COUNT are the packed entries. -/
theorem takeWhile_packed (n : Nat) : ∀ l : List LoopEntry, l.length ≤ n → (∀ e ∈ l, 0 < e.count ∧ e.count < 2 ^ 32) →
    ((List.range n).map fun i => ((l[i]?).map LoopEntry.pack).getD 0).takeWhile (fun w => decide (w.toNat / 2 ^ 32 ≠ 0)) =
      l.map LoopEntry.pack := by
  induction n with
  | zero =>
    intro l hl _
    rw [List.length_eq_zero_iff.mp (Nat.le_zero.mp hl)]
    rfl
  | succ n ih =>
    intro l hl hc
    rw [List.range_succ_eq_map, List.map_cons, List.map_map]
    cases l with
    | nil => rfl
    | cons e l =>
      have hne : e.pack.toNat / 2 ^ 32 ≠ 0 := pack_count_ne (hc e List.mem_cons_self)
      have hrest := ih l (Nat.le_of_succ_le_succ hl) fun e' he' => hc e' (List.mem_cons_of_mem _ he')
      rw [List.map_cons, ← hrest]
      exact List.takeWhile_cons_of_pos (decide_eq_true hne)

/-- SLOOP holds the packed entries, outermost first, where the stack fits. -/
theorem heldEntries_packLoops {loops : List LoopEntry} (hlen : loops.length ≤ 4)
    (hcount : ∀ e ∈ loops, 0 < e.count ∧ e.count < 2 ^ 32) :
    heldEntries (packLoops loops) = loops.reverse.map LoopEntry.pack := by
  rw [heldEntries, packLoops_toList]
  exact takeWhile_packed 4 _ (by simpa using hlen) (by simpa using hcount)

/-- The loop stack that trap entry saves is the one that ERET rebuilds (R187, R189). -/
theorem unpackLoops_packLoops {epc : Word} {loops : List LoopEntry} {frozen : Nat} (mode : Mode) (c : Cause)
    (hlen : loops.length ≤ 4) (hf : frozen ≤ 4) (hsaved : ∀ e ∈ loops, loopSaved epc e) :
    unpackLoops epc (packCause loops frozen mode c) (packLoops loops) = loops := by
  have hcount : ∀ e ∈ loops, 0 < e.count ∧ e.count < 2 ^ 32 := fun e he => ⟨(hsaved e he).1, (hsaved e he).2.1⟩
  rw [unpackLoops_eq, heldEntries_packLoops hlen hcount, List.reverse_eq_iff]
  refine List.ext_getElem (by simp) fun i hi hi' => ?_
  rw [List.getElem_mapIdx, List.getElem_map]
  have hi4 : i < 4 := by
    rw [List.length_reverse] at hi'
    omega
  apply entryOf_pack (hsaved _ (List.mem_reverse.mp (List.getElem_mem hi')))
  rw [packCause_shi loops mode c hf hi4, shiOf_some (List.getElem?_eq_getElem hi')]

/-! ### ERET and UPRET -/

theorem exec_eret (s : State) :
    exec .eret s = commit s (do
      s.privileged
      s.targetCheck s.core.epc
      if frozOf s.core.ecause > (unpackLoops s.core.epc s.core.ecause s.core.sloop).length ∨
          (frozOf s.core.ecause ≠ 0 ∧ !s.core.status.inup) then .error (s.illegal 9 0)
      else .ok (s.mapCore Core.leaveTrap)) := rfl

theorem exec_upret (s : State) :
    exec .upret s = commit s (
      if s.core.status.mode = .s ∨ !s.core.status.inup then .error (s.illegal 10 0)
      else do
        s.targetCheck s.core.upepc
        .ok (s.mapCore Core.leaveUpcall)) := rfl

theorem privileged_s {s : State} (h : s.core.status.mode = .s) : s.privileged = .ok () := by
  rw [State.privileged, h]
  rfl

theorem privileged_u {s : State} (h : s.core.status.mode = .u) : s.privileged = .error (s.trap .priv 0 0) := if_pos h

theorem frozOf_eq (w : Word) : frozOf w = w.toNat / 2 ^ 9 % 8 := rfl

theorem pmodeOf_eq (w : Word) : pmodeOf w = if w.getLsbD 8 = true then .s else .u := rfl

/-- The ways in which the saved loop stack contradicts FROZ (R189). -/
def frozWrong (s : State) : Prop :=
  (heldEntries s.core.sloop).length < frozOf s.core.ecause ∨ (frozOf s.core.ecause ≠ 0 ∧ s.core.status.inup = false)

theorem exec_eret_ok {s : State} (hm : s.core.status.mode = .s) (ha : s.core.epc.toNat % 4 = 0) (hf : ¬ frozWrong s) :
    exec .eret s = .next (s.mapCore Core.leaveTrap) := by
  rw [frozWrong, ← unpackLoops_length s.core.epc s.core.ecause] at hf
  rw [exec_eret, privileged_s hm, except_bind_ok, targetCheck_aligned ha, except_bind_ok, if_neg (by simpa using hf), commit_ok]

theorem traps_eret_froz {s : State} (hm : s.core.status.mode = .s) (ha : s.core.epc.toNat % 4 = 0) (hf : frozWrong s) :
    traps .eret s .illegal (illegalInfo s 9) 0 := by
  rw [frozWrong, ← unpackLoops_length s.core.epc s.core.ecause] at hf
  refine traps_of_commit (exec_eret s) ?_
  rw [privileged_s hm, except_bind_ok, targetCheck_aligned ha, except_bind_ok, if_pos (by simpa using hf), illegal_eq]

/-! ### Context faults -/

/-- The core that moves, the fault of its context and the messages sent stand as they were. -/
structure Reported (s t : State) : Prop where
  core : t.core = s.core
  faulted : t.ctx.faulted = s.ctx.faulted
  stopped : t.ctx.stopped = s.ctx.stopped
  replies : t.dev.replies = s.dev.replies

theorem Reported.refl (s : State) : Reported s s := ⟨rfl, rfl, rfl, rfl⟩

theorem Reported.trans {s t u : State} (h : Reported s t) (k : Reported t u) : Reported s u :=
  ⟨k.core.trans h.core, k.faulted.trans h.faulted, k.stopped.trans h.stopped, k.replies.trans h.replies⟩

/-- A change of the device and of translations held that sends no message. -/
theorem reported_of_devOnly {s t : State} (h : DevOnly s t) (hr : t.dev.replies = s.dev.replies) : Reported s t where
  core := h.core
  faulted := by rw [← h.ctx]
  stopped := by rw [← h.ctx]
  replies := hr

theorem meet_replies (d : Device) (line : Nat) (who : Writer) : (d.meet line who).replies = d.replies := by
  rw [Device.meet]
  split <;> rfl

theorem dirtySlot_replies (d : Device) (loc : Nat) : (d.dirtySlot loc).replies = d.replies := by
  rw [Device.dirtySlot]
  repeat' split
  all_goals rfl

theorem perform_replies (d : Device) (line : Nat) (who : Writer) : (d.perform line who).replies = d.replies := by
  rw [Device.perform]
  repeat' split
  all_goals rfl

theorem store_replies (d : Device) (loc : Nat) (bs : List Byte) (w : Writer) : (d.store loc bs w).replies = d.replies := by
  rw [Device.store, perform_replies, dirtySlot_replies]
  rfl

theorem mapDev_replies (s : State) (f : Device → Device) (h : ∀ d, (f d).replies = d.replies) :
    (s.mapDev f).dev.replies = s.dev.replies := h s.dev

theorem dropLine_replies (d : Device) (line : Nat) : (d.dropLine line).replies = d.replies := rfl

theorem cxlError_replies (d : Device) (locs : List Nat) : (d.cxlError locs).replies = d.replies := by
  rw [Device.cxlError]
  split <;> rfl

theorem settle_replies (s : State) (who : Writer) (p : Place) : (s.settle who p).dev.replies = s.dev.replies := by
  simp only [State.settle]
  split <;> exact meet_replies _ _ _

theorem noteError_replies (s : State) (a : Agent) (c : Cause) (va : Word) :
    (s.noteError a c va).dev.replies = s.dev.replies := by
  rw [State.noteError]
  repeat' split
  all_goals simp [cxlError_replies]

theorem setRawLabel_replies (d : Device) (line : Nat) (w : LabelWord) : (d.setRawLabel line w).replies = d.replies := rfl

theorem topPartial_replies (s : State) (p : Place) : (s.topPartial p).dev.replies = s.dev.replies := by
  unfold State.topPartial
  simp only
  split
  · split
    · rfl
    · exact mapDev_replies s _ fun d => setRawLabel_replies d _ _
  · rfl

theorem engineBytes_replies (s : State) (a : Agent) (p : Place) (bs : List Byte) :
    (s.engineBytes a p bs).dev.replies = s.dev.replies := by
  rw [State.engineBytes]
  exact mapDev_replies s _ fun d => by rw [dropLine_replies, store_replies]

theorem enginePlace_replies {s t : State} {a : Agent} {acc : Access} {va : Word} {p : Place}
    (h : s.enginePlace a acc va = .ok (p, t)) : t.dev.replies = s.dev.replies := by
  rw [State.enginePlace] at h
  obtain ⟨⟨q, u⟩, htrans, h⟩ := bind_ok h
  obtain ⟨-, -, h⟩ := bind_ok h
  obtain ⟨-, -, h⟩ := bind_ok h
  obtain ⟨rfl, rfl⟩ := Prod.mk.inj (Except.ok.inj h)
  rw [State.found, settle_replies, (translate_only htrans).dev]

theorem engineWrite_replies {s t : State} {a : Agent} {va : Word} {bs : List Byte} (h : s.engineWrite a va bs = .ok t) :
    t.dev.replies = s.dev.replies := by
  rw [State.engineWrite] at h
  obtain ⟨⟨p, u⟩, hplace, h⟩ := bind_ok h
  obtain ⟨-, -, h⟩ := bind_ok h
  rw [← Except.ok.inj h, engineBytes_replies, topPartial_replies, enginePlace_replies hplace]

theorem statusPut_reported (s : State) (a : Agent) (va : Word) (bs : List Byte) : Reported s (s.statusPut a va bs) := by
  refine reported_of_devOnly (statusPut_ok s a va bs).1 ?_
  rw [State.statusPut]
  split
  · exact engineWrite_replies ‹_›
  · exact noteError_replies s a _ _

theorem mapQueue_reported (s : State) (qid : Nat) (f : Queue → Queue) : Reported s (s.mapQueue qid f) := by
  rw [State.mapQueue]
  split
  · exact ⟨rfl, rfl, rfl, rfl⟩
  · exact Reported.refl s

theorem showQueue_reported (s : State) (qid : Nat) : Reported s (s.showQueue qid) := by
  rw [State.showQueue]
  split
  · exact statusPut_reported s _ _ _
  · exact Reported.refl s

theorem freezeAnyway_reported (s : State) (qid : Nat) : Reported s (s.freezeAnyway qid) := by
  rw [State.freezeAnyway]
  repeat' split
  · exact Reported.refl s
  · exact Reported.refl s
  · exact (mapQueue_reported s qid _).trans (showQueue_reported _ qid)

theorem freezeAll_reported (qids : List Nat) : ∀ s : State, Reported s (qids.foldl State.freezeAnyway s) := by
  induction qids with
  | nil => exact Reported.refl
  | cons q qs ih => exact fun s => (freezeAnyway_reported s q).trans (ih _)

/-- A context fault stops the context and reports its cause, and leaves the core (R423). -/
theorem contextFault_reports (s : State) (code : Nat) :
    (s.contextFault code).ctx.faulted = true ∧ (s.contextFault code).ctx.stopped = true ∧
      (s.contextFault code).core = s.core ∧ Reply.contextFault s.ctx.desc.ctxid code ∈ (s.contextFault code).dev.replies := by
  rw [State.contextFault]
  have h := freezeAll_reported (s.ctx.queues.map Prod.fst) { s with
    ctx := { s.ctx with faulted := true, stopped := true }
    dev := { s.dev.count ctrCtxflt with replies := s.dev.replies ++ [Reply.contextFault s.ctx.desc.ctxid code] } }
  exact ⟨h.faulted, h.stopped, h.core, by rw [h.replies]; simp⟩

/-- Trap entry leaves every byte where its first instruction can be fetched. -/
theorem trapEntry_memory {s u : State} (t : Trap) (h : entryFetched s u) : memoryKept s (s.trapEntry t) := by
  obtain ⟨p, hp⟩ := h
  rcases trapEntry_cases s t with ⟨d, _, hd, _⟩ | ⟨_, _, v, _, _, hmem, hentry⟩
  · rw [hp] at hd
    cases hd
  · intro a
    rw [hentry, State.mapCore_dev, Device.byte, hmem]
    rfl

end Sys2Proof.Claims

namespace Sys2Proof
open Machine Claims

/-- Settles O10: each return is decided by the mode, the return address and the saved loop stack. -/
theorem returns : Obligations.Returns := by
  unfold Obligations.Returns
  refine ⟨fun s hm => ⟨fun ha hlen hfroz => ?_, fun ha => ?_, fun ha hf => ?_⟩,
    fun s => ⟨fun hm hin ha => ?_, fun h => ?_, fun hm hin ha => ?_⟩⟩
  · have hf : ¬ frozWrong s := by
      rintro (h | ⟨h, hin⟩)
      · exact absurd h (Nat.not_lt.mpr hlen)
      · rcases hfroz with h0 | h0
        · exact h h0
        · rw [hin] at h0; cases h0
    exact ⟨_, exec_eret_ok hm ha hf, rfl, rfl, rfl, rfl, unpackLoops_counts _ _ _, rfl, rfl, rfl, rfl, rfl, rfl, ⟨rfl, rfl⟩, rfl,
      ⟨rfl, rfl, rfl, rfl⟩, fun _ => rfl⟩
  · refine traps_of_commit (exec_eret s) ?_
    rw [privileged_s hm, except_bind_ok, targetCheck_misaligned ha, except_bind_error]
  · exact traps_eret_froz hm ha hf
  · have hexec := exec_upret s
    rw [if_neg (by simp [hm, hin]), targetCheck_aligned ha, except_bind_ok, commit_ok] at hexec
    exact ⟨_, hexec, rfl, rfl, rfl, rfl, rfl, rfl, rfl, rfl, ⟨rfl, rfl⟩, rfl, ⟨rfl, rfl, rfl, rfl⟩, fun _ => rfl⟩
  · refine traps_of_commit (exec_upret s) ?_
    rw [if_pos (by simpa using h), illegal_eq]
  · refine traps_of_commit (exec_upret s) ?_
    rw [if_neg (by simp [hm, hin]), targetCheck_misaligned ha, except_bind_error]

/-- Settles O8: trap entry on a core whose trap entry can be fetched, and else a context fault. -/
theorem trapEntry : Obligations.TrapEntry := by
  unfold Obligations.TrapEntry
  refine ⟨fun s u t hentry hlen hf => ?_, fun s t d hd => ?_⟩
  · have hcore := trapEntry_core t hentry
    refine ⟨by rw [hcore]; rfl, by rw [hcore]; rfl, by rw [hcore]; rfl, ?_, ?_, ?_, fun i hi => ?_, by rw [hcore]; rfl,
      by rw [hcore]; rfl, by rw [hcore]; rfl, by rw [hcore]; rfl, by rw [hcore]; rfl, by rw [hcore]; rfl, by rw [hcore]; rfl,
      by rw [hcore]; rfl, trapEntry_memory t hentry⟩
    · rw [hcore]
      exact packCause_code _ _ _ _
    · rw [hcore]
      exact packCause_mode _ _ _ hf
    · rw [hcore]
      exact packCause_frozen _ _ _ hf
    · have hget : fileGet (by decide) (s.trapEntry t).core.sloop i =
          ((s.core.loops.reverse[i]?).map LoopEntry.pack).getD 0 := by
        rw [hcore]
        exact packLoops_get s.core.loops hi
      cases he : s.core.loops.reverse[i]? with
      | none => simp [hget, he]
      | some e =>
        have hshi : (s.trapEntry t).core.ecause.toNat / 2 ^ (16 + 12 * i) % 2 ^ 12 =
            shiOf s.core.loops i := by
          rw [hcore]
          exact packCause_shi s.core.loops s.core.status.mode t.cause hf hi
        have hpack := pack_toNat e
        have hpacked : fileGet (by decide) (s.trapEntry t).core.sloop i = e.pack := by rw [hget, he]; rfl
        simp only [hpacked]
        refine ⟨?_, ?_, ?_, by rw [hshi, shiOf_some he]⟩ <;> omega
  · have hd' : s.trapEntry t = ((s.noteTrap t).noteDeny s.me d).contextFault d.cause.code := by rw [State.trapEntry, hd]
    have hnote : DevOnly s ((s.noteTrap t).noteDeny s.me d) := (noteTrap_only s t).1.trans (noteDeny_ok _ _ _).1
    obtain ⟨hfaulted, hstopped, hcore, hreply⟩ := contextFault_reports ((s.noteTrap t).noteDeny s.me d) d.cause.code
    rw [hd']
    refine ⟨hfaulted, hstopped, hcore.trans hnote.core, ?_⟩
    have hdesc : ((s.noteTrap t).noteDeny s.me d).ctx.desc = s.ctx.desc := by rw [← hnote.ctx]
    rwa [hdesc] at hreply

/-- Settles O11: what trap entry packs, ERET unpacks. -/
theorem eretUndoesTrapEntry : Obligations.EretUndoesTrapEntry := by
  unfold Obligations.EretUndoesTrapEntry
  intro s u t hentry hal hlen hf hinup hsaved
  have hcore := trapEntry_core t hentry
  have hf4 : s.core.frozen ≤ 4 := hf.trans hlen
  have hloops := unpackLoops_packLoops (frozen := s.core.frozen) s.core.status.mode t.cause hlen hf4 hsaved
  have hfroz : frozOf (packCause s.core.loops s.core.frozen s.core.status.mode t.cause) = s.core.frozen :=
    packCause_frozen _ _ _ hf4
  have hmode := packCause_pmode s.core.loops s.core.status.mode t.cause hf4
  have hheld : (heldEntries (packLoops s.core.loops)).length = s.core.loops.length := by
    rw [heldEntries_packLoops hlen fun e he => ⟨(hsaved e he).1, (hsaved e he).2.1⟩]
    simp
  have hwrong : ¬ frozWrong (s.trapEntry t) := by
    rw [frozWrong, hcore]
    rintro (h | ⟨h, hin⟩)
    · exact absurd (hheld ▸ hfroz ▸ h) (Nat.not_lt.mpr hf)
    · exact hinup.elim (fun h0 => h (hfroz.trans h0)) fun h1 => Bool.false_ne_true (hin.symm.trans h1)
  have hleft : ((s.trapEntry t).mapCore Core.leaveTrap).core =
      (s.core.enterTrap t (BitVec.ofNat 64 s.ctx.desc.trapent)).leaveTrap := congrArg Core.leaveTrap hcore
  refine ⟨_, exec_eret_ok (by rw [hcore]; rfl) (by rw [hcore]; exact hal) hwrong, ?_⟩
  rw [hleft]
  refine ⟨rfl, hloops, hfroz, ?_, rfl, rfl, trapEntry_memory t hentry⟩
  exact congrArg (fun m => { s.core.status with mode := m }) hmode

end Sys2Proof
end

section
/-! PROOF. Control registers read and the traps of privilege (R41, R42, R57, R195 to R197), and the fences (R137, R148, R149). -/

namespace Sys2Proof.Claims
open Machine

/-! ### Access to the control registers -/

theorem crAccess_beyond {n : Nat} (h : 0x60 < n) : crAccess n = none := by
  have (k : Nat) (hk : k ≤ 0x60) : n ≠ k ∧ ¬ n ≤ k := by omega
  simp [crAccess, this]

/-- The map of R41 by its lists. -/
theorem crAccess_cases (n : Nat) :
    (n ∉ crNumbers ∧ crAccess n = none) ∨
      (n ∈ crNumbers ∧ crAccess n = some ⟨decide (n ∈ userReads), decide (n ∈ userWrites), decide (n ∉ readOnly)⟩) := by
  have small : ∀ k : Fin 0x61, (k.val ∉ crNumbers ∧ crAccess k = none) ∨ (k.val ∈ crNumbers ∧
      crAccess k = some ⟨decide (k.val ∈ userReads), decide (k.val ∈ userWrites), decide (k.val ∉ readOnly)⟩) := by decide
  have large : ∀ k ∈ crNumbers, k < 0x61 := by decide
  by_cases h : n < 0x61
  · exact small ⟨n, h⟩
  · exact .inl ⟨fun hn => h (large n hn), crAccess_beyond (by omega)⟩

theorem crCheck_unassigned {s : State} {n op : Nat} {w : Bool} (h : n ∉ crNumbers) :
    s.crCheck n op w = .error (s.illegal 8 0) := by
  rcases crAccess_cases n with ⟨-, ha⟩ | ⟨hn, -⟩
  · rw [State.crCheck, ha]
  · exact absurd hn h

theorem crCheck_assigned {s : State} {n op : Nat} {w : Bool} (h : n ∈ crNumbers) :
    s.crCheck n op w =
      if s.core.status.mode = .u ∧ (n ∉ userReads ∨ (w = true ∧ n ∉ userWrites)) then
        .error (s.trap .priv (n % 1024 + 2 ^ 10 * op + 2 ^ 12) 0)
      else if w = true ∧ n ∈ readOnly then .error (s.illegal 8 0)
      else .ok () := by
  rcases crAccess_cases n with ⟨hn, -⟩ | ⟨-, ha⟩
  · exact absurd h hn
  · rw [State.crCheck, ha]
    simp

/-- A read that the mode may make. -/
theorem crCheck_read {s : State} {n : Nat} (hn : n ∈ crNumbers) (hm : s.core.status.mode = .s ∨ n ∈ userReads) :
    s.crCheck n 0 false = .ok () := by
  rw [crCheck_assigned hn, if_neg, if_neg (by simp)]
  rintro ⟨hu, hr⟩
  rcases hm with h | h
  · rw [hu] at h; cases h
  · simp [h] at hr

theorem crCheck_priv {s : State} {n op : Nat} {w : Bool} (hlt : n < 1024) (hn : n ∈ crNumbers)
    (hm : s.core.status.mode = .u) (h : n ∉ userReads ∨ (w = true ∧ n ∉ userWrites)) :
    s.crCheck n op w = .error (s.trap .priv (crInfo n op) 0) := by
  have hinfo : n % 1024 + 2 ^ 10 * op + 2 ^ 12 = crInfo n op := by rw [crInfo]; omega
  rw [crCheck_assigned hn, if_pos ⟨hm, h⟩, hinfo]

/-- A write to a register that is unassigned or, in S mode, read only (R42). -/
theorem crCheck_illegal {s : State} {n op : Nat}
    (h : n ∉ crNumbers ∨ (s.core.status.mode = .s ∧ n ∈ readOnly)) : s.crCheck n op true = .error (s.illegal 8 0) := by
  by_cases hn : n ∈ crNumbers
  · obtain ⟨hm, hr⟩ := h.resolve_left (not_not.mpr hn)
    rw [crCheck_assigned hn, hm, if_neg (by simp), if_pos ⟨rfl, hr⟩]
  · exact crCheck_unassigned hn

theorem exec_crr (d n : Nat) (s : State) :
    exec (.crr d n) s = commit s (do
      s.crCheck n 0 false
      .ok (s.wrX d (s.crRead n) s.topWord).complete) := rfl

theorem exec_crw (n a : Nat) (s : State) : exec (.crw n a) s = s.crModify 1 n a (fun _ => s.rdX a) none := rfl

theorem exec_crs (d n a : Nat) (s : State) :
    exec (.crs d n a) s = s.crModify 2 n a (fun old => old ||| s.rdX a) (some d) := rfl

theorem exec_crc (d n a : Nat) (s : State) :
    exec (.crc d n a) s = s.crModify 3 n a (fun old => old &&& ~~~(s.rdX a)) (some d) := rfl

/-- A CR access that its check stops traps so (R42). -/
theorem crModify_stopped {s : State} {op n a : Nat} {new : Word → Word} {d : Option Nat} {e : Stop}
    (h : s.crCheck n op true = .error e) : s.crModify op n a new d = commit s (.error e) := by
  rw [State.crModify, h, except_bind_error]

theorem traps_crr {s : State} {d n info : Nat} {c : Cause} (h : s.crCheck n 0 false = .error (s.trap c info 0)) :
    traps (.crr d n) s c info 0 :=
  traps_of_commit (exec_crr d n s) (by rw [h, except_bind_error])

theorem traps_crModify {i : Instr} {s : State} {op n a info : Nat} {new : Word → Word} {d : Option Nat} {c : Cause}
    (hexec : exec i s = s.crModify op n a new d) (h : s.crCheck n op true = .error (s.trap c info 0)) :
    traps i s c info 0 :=
  traps_of_commit (hexec.trans (crModify_stopped h)) rfl

/-! ### Guards of edge invocations -/

/-- A core outside an edge invocation passes the guard of R330. -/
theorem edgeGuard_plain {s : State} (h : plainCore s) (kind : Nat) (addr : Word) : s.edgeGuard kind addr = .ok () := by
  rw [State.edgeGuard]
  split
  · rename_i r hr
    refine if_neg fun ⟨hinv, hdepth⟩ => ?_
    rcases h r hr with h0 | h0
    · rw [h0] at hinv; cases hinv
    · exact h0 hdepth
  · rfl

/-! ### ERET, INVPG and FINISH in U mode -/

theorem exec_invpg (a : Nat) (s : State) :
    exec (.invpg a) s = commit s (do
      s.privileged
      .ok ((s.drain.mapCore fun c => { c with walkSync := s.dev.stores }).mapCluster s.focus.cl fun k =>
        { k.forget s.me (s.rdX a) with
          walks := eraseAt (walkKey (s.rdX a) 1) (eraseAt (walkKey (s.rdX a) 2) k.walks) }).complete) := rfl

theorem traps_eret_user {s : State} (h : s.core.status.mode = .u) : traps .eret s .priv 0 0 :=
  traps_of_commit (exec_eret s) (by rw [privileged_u h, except_bind_error])

theorem traps_invpg_user {s : State} (a : Nat) (h : s.core.status.mode = .u) : traps (.invpg a) s .priv 0 0 :=
  traps_of_commit (exec_invpg a s) (by rw [privileged_u h, except_bind_error])

theorem traps_finish_user {s : State} {a : Nat} (ha : a ≠ 0) (h : s.core.status.mode = .u) (hp : plainCore s) :
    traps (.finish a) s .priv 0 0 := by
  refine traps_of_commit (i := .finish a) rfl ?_
  rw [edgeGuard_plain hp, except_bind_ok]
  exact if_pos ⟨ha, h⟩

/-! ### Fences -/

/-- An instruction that changes the core alone leaves the rest. -/
theorem coreOnly_complete (s : State) (f : Core → Core) :
    (s.mapCore f).complete.ctx = s.ctx ∧ restKept s (s.mapCore f).complete ∧ memoryKept s (s.mapCore f).complete :=
  ⟨rfl, ⟨rfl, rfl, rfl, rfl⟩, fun _ => rfl⟩

theorem exec_fence (kinds : Nat) (sc : Scope) (s : State) :
    exec (.fence kinds sc) s = commit s (do
      if kinds.testBit 3 then s.edgeGuard 1 0
      if kinds.testBit 3 ∧ s.grantValue = none ∧ s.engineBusy s.focus.cl s.focus.core then .ok (s.parkAt .fenceE)
      else .ok (s.fence kinds sc.code).complete) := rfl

theorem exec_fencesc (s : State) :
    exec .fencesc s = commit s (do
      s.edgeGuard 1 0
      match s.grantValue with
      | none => .ok (s.drain.parkAt (.fencesc s.dev.stroke.toNat))
      | some _ => .ok ([0, 1, 2, 3].foldl (fun t sc => t.fence 7 sc) s).complete) := rfl

theorem fence_bit3 {kinds : Nat} (hlt : kinds < 16) : kinds.testBit 3 = decide (8 ≤ kinds) := by
  rw [Nat.testBit_eq_decide_div_mod_eq, decide_eq_decide]
  omega

/-- FENCE outside an edge invocation waits for the core's engine operations when it is of the E kind (R148). -/
theorem exec_fence_plain {s : State} {kinds : Nat} (sc : Scope) (hlt : kinds < 16) (hp : plainCore s) :
    exec (.fence kinds sc) s =
      if 8 ≤ kinds ∧ s.grantValue = none ∧ s.engineBusy s.focus.cl s.focus.core = true then .next (s.parkAt .fenceE)
      else .next (s.fence kinds sc.code).complete := by
  rw [exec_fence, fence_bit3 hlt]
  by_cases h8 : 8 ≤ kinds
  · rw [if_pos (decide_eq_true h8), edgeGuard_plain hp, except_bind_ok]
    by_cases h : s.grantValue = none ∧ s.engineBusy s.focus.cl s.focus.core = true
    · rw [if_pos ⟨decide_eq_true h8, h⟩, if_pos ⟨h8, h⟩, commit_ok]
    · rw [if_neg fun k => h k.2, if_neg fun k => h k.2, commit_ok]
  · rw [if_neg (by simpa using h8), if_neg fun k => h8 (of_decide_eq_true k.1), if_neg fun k => h8 k.1, commit_ok]

/-- What a fence brings into force for fetches (R137). -/
theorem fence_fenced (c : Core) (kinds stores : Nat) {sc i : Nat} (hsc : sc < 5) (hi : i < 5) :
    fileGet (by decide) (c.fence kinds sc stores).fenced i =
      if kinds % 2 = 1 ∧ i = sc then stores else fileGet (by decide) c.fenced i := by
  have h0 : kinds.testBit 0 = decide (kinds % 2 = 1) := by rw [Nat.testBit_eq_decide_div_mod_eq, Nat.pow_zero, Nat.div_one]
  rw [Core.fence, h0]
  by_cases hk : kinds % 2 = 1
  · by_cases his : i = sc
    · subst his
      simp [hk]
    · simp [hk, his, fileGet_filePut_ne _ _ _ hsc hi his]
  · simp [hk]

/-- What a fence brings into force for page walks (R414). -/
theorem fence_walkSync (c : Core) (kinds stores sc : Nat) :
    (c.fence kinds sc stores).walkSync = if kinds / 2 % 2 = 1 ∧ 3 ≤ sc then stores else c.walkSync := by
  have h1 : kinds.testBit 1 = decide (kinds / 2 % 2 = 1) := by rw [Nat.testBit_eq_decide_div_mod_eq, Nat.pow_one]
  rw [Core.fence, h1]
  simp

theorem device_scope (sc : Scope) : 3 ≤ sc.code ↔ sc = .dev ∨ sc = .sys := by cases sc <;> decide

theorem fence_regs (c : Core) (kinds sc stores : Nat) : (c.fence kinds sc stores).regs = c.regs := rfl
theorem fence_pending (c : Core) (kinds sc stores : Nat) : (c.fence kinds sc stores).pending = c.pending := rfl
theorem fence_streams (c : Core) (kinds sc stores : Nat) : (c.fence kinds sc stores).streams = c.streams := rfl

/-- Fences one after the other, on the core. -/
theorem fences_foldl (l : List Nat) : ∀ s : State, l.foldl (fun t sc => t.fence 7 sc) s =
    s.mapCore fun c => l.foldl (fun c sc => c.fence 7 sc s.dev.stores) c := by
  induction l with
  | nil => exact fun _ => rfl
  | cons sc l ih => exact fun s => (ih (s.fence 7 sc)).trans rfl

/-- FENCESC is in force as a FENCE of the kinds R, W and D of every scope but SYSTEM (R149). -/
def fencedAll (c : Core) (stores : Nat) : Core := [0, 1, 2, 3].foldl (fun c sc => c.fence 7 sc stores) c

theorem fencedAll_rest (c : Core) (stores : Nat) :
    (fencedAll c stores).regs = c.regs ∧ (fencedAll c stores).pending = c.pending ∧
      (fencedAll c stores).streams = c.streams := by
  simp only [fencedAll, List.foldl_cons, List.foldl_nil, fence_regs, fence_pending, fence_streams, and_self]

theorem fencedAll_walkSync (c : Core) (stores : Nat) : (fencedAll c stores).walkSync = stores := by
  simp only [fencedAll, List.foldl_cons, List.foldl_nil]
  rw [fence_walkSync]
  exact if_pos (by decide)

theorem fencedAll_fenced (c : Core) (stores : Nat) {i : Nat} (hi : i < 4) :
    fileGet (by decide) (fencedAll c stores).fenced i = stores := by
  simp only [fencedAll, List.foldl_cons, List.foldl_nil]
  rw [fence_fenced _ _ _ (by decide) (by omega), fence_fenced _ _ _ (by decide) (by omega),
    fence_fenced _ _ _ (by decide) (by omega), fence_fenced _ _ _ (by decide) (by omega)]
  split
  · rfl
  · split
    · rfl
    · split
      · rfl
      · exact if_pos (by omega)

end Sys2Proof.Claims

namespace Sys2Proof
open Machine Claims

/-- Settles O14: each access is stopped by its first check. -/
theorem privilegeTraps : Obligations.PrivilegeTraps := by
  unfold Obligations.PrivilegeTraps
  intro s a d n hlt
  refine ⟨fun hm hp => ⟨traps_eret_user hm, traps_invpg_user a hm, fun ha => traps_finish_user ha hm hp, fun hn hr => ?_,
    fun hn hw => ⟨?_, ?_, ?_⟩⟩, fun hn => ?_, fun h => ⟨?_, ?_, ?_⟩⟩
  · exact traps_crr (crCheck_priv hlt hn hm (.inl hr))
  · exact traps_crModify (exec_crw n a s) (crCheck_priv hlt hn hm (.inr ⟨rfl, hw⟩))
  · exact traps_crModify (exec_crs d n a s) (crCheck_priv hlt hn hm (.inr ⟨rfl, hw⟩))
  · exact traps_crModify (exec_crc d n a s) (crCheck_priv hlt hn hm (.inr ⟨rfl, hw⟩))
  · exact traps_crr (crCheck_unassigned hn)
  · exact traps_crModify (exec_crw n a s) (crCheck_illegal h)
  · exact traps_crModify (exec_crs d n a s) (crCheck_illegal h)
  · exact traps_crModify (exec_crc d n a s) (crCheck_illegal h)

/-- Settles O15: a fence waits or brings its kinds into force. -/
theorem fences : Obligations.Fences := by
  unfold Obligations.Fences
  intro s kinds sc _ hlt hp
  have hexec := exec_fence_plain sc hlt hp
  have hsc := exec_fencesc s
  rw [edgeGuard_plain hp, except_bind_ok] at hsc
  refine ⟨fun h => ?_, fun h hg hb => ?_, fun hg => ?_, fun hg => ?_⟩
  · rw [if_neg (by rintro ⟨h8, -, hbusy⟩; exact h.elim (fun k => by omega) fun k => by rw [k] at hbusy; cases hbusy)] at hexec
    refine ⟨_, hexec, Core.complete_regs _, fun i hi => ?_, ?_, Core.complete_status _, Core.complete_k _,
      ⟨Core.complete_pending _, Core.complete_streams _⟩, rfl, ⟨rfl, rfl, rfl, rfl⟩, fun _ => rfl⟩
    · rw [State.complete_core, Core.complete_fenced]
      exact fence_fenced s.core kinds s.dev.stores (by cases sc <;> decide) hi
    · rw [State.complete_core, Core.complete_walkSync]
      simp only [← device_scope]
      exact fence_walkSync s.core kinds s.dev.stores sc.code
  · rw [if_pos ⟨h, hg, hb⟩] at hexec
    exact ⟨_, hexec, rfl, rfl⟩
  · rw [hg] at hsc
    exact ⟨_, hsc, rfl, rfl, rfl⟩
  · rw [hg] at hsc
    have hsc : exec .fencesc s = .next (s.mapCore fun c => fencedAll c s.dev.stores).complete := by
      rw [hsc, commit_ok, fences_foldl]
      rfl
    obtain ⟨hregs, hpending, hstreams⟩ := fencedAll_rest s.core s.dev.stores
    have hcore : (s.mapCore fun c => fencedAll c s.dev.stores).complete.core = (fencedAll s.core s.dev.stores).complete := rfl
    refine ⟨_, hsc, ?_, fun i hi => ?_, ?_, ⟨?_, ?_⟩, coreOnly_complete s _⟩
    · rw [hcore, Core.complete_regs, hregs]
    · rw [hcore, Core.complete_fenced, fencedAll_fenced s.core s.dev.stores hi]
    · rw [hcore, Core.complete_walkSync, fencedAll_walkSync]
    · rw [hcore, Core.complete_pending, hpending]
    · rw [hcore, Core.complete_streams, hstreams]

end Sys2Proof
end

section
/-! PROOF. CRR, FEAT and INVPG (R195 to R197): the words of the control registers, the fields of the feature words, and what a
cluster forgets. -/

namespace Sys2Proof.Claims
open Machine

/-! ### The words of the control registers -/

theorem oneBit_bit (b : Bool) (n : Nat) : 2 ^ n * oneBit b = bit n b := by cases b <;> simp [oneBit, bit]

theorem status_word (t : Status) : t.word = bit 0 (t.mode == .s) + bit 5 t.inup + bit 6 t.upe + bit 7 t.haz := by
  rw [Status.word, oneBit_bit, oneBit_bit, oneBit_bit]
  cases t.mode <;> rfl

theorem fcsr_word (f : Fcsr) : f.word = bit 0 f.flags.nx + bit 1 f.flags.uf + bit 2 f.flags.of + bit 3 f.flags.dz
    + bit 4 f.flags.nv + f.rm * 2 ^ 5 := by
  rw [Fcsr.word, FFlags.toNat]
  simp only [← oneBit_bit]
  omega

theorem lblcfg_word (l : LblCfg) (epoch : BitVec 8) :
    l.word epoch = bit 0 l.strict + bit 1 l.ovf + bit 3 l.swept + l.xmax * 2 ^ 8 + epoch.toNat * 2 ^ 16 := by
  rw [LblCfg.word]
  simp only [← oneBit_bit]
  omega

theorem lblstat_word (l : LblStat) : l.word = bit 0 l.lost + l.slows * 2 ^ 16 + l.drops * 2 ^ 32 := by
  rw [LblStat.word]
  simp only [← oneBit_bit]
  omega

theorem mprog_word (s : State) :
    s.mprog = s.core.mrows
      + (if ((s.myCluster.engine (s.focus.core / 8)).holder == some (s.focus.core % 8)) = true
          then (s.myCluster.engine (s.focus.core / 8)).lrem else 0) * 2 ^ 48
      + bit 62 ((s.myCluster.engine (s.focus.core / 8)).holder == some (s.focus.core % 8)) + bit 63 (s.core.aside != []) := by
  have hlease : s.holdsLease = ((s.myCluster.engine (s.focus.core / 8)).holder == some (s.focus.core % 8)) := by
    rw [State.holdsLease, crewOf, memberOf, Bool.beq_eq_decide_eq]
  have haside : (!s.core.aside.isEmpty) = (s.core.aside != []) := by cases s.core.aside <;> rfl
  rw [State.mprog, hlease, haside, crewOf]
  simp only [← oneBit_bit]
  omega

/-- A control register reads as its fields by its layout (R41, R43, R44, R207, R208, R258, R462). -/
theorem crRead_fields (s : State) : ∀ e ∈ crFields s, s.crRead e.1 = e.2 := by
  simp only [crFields, List.forall_mem_cons]
  refine ⟨rfl, rfl, rfl, rfl, rfl, rfl, rfl, rfl, rfl, rfl, rfl, rfl, rfl, rfl, rfl, rfl, rfl, rfl, rfl, rfl, rfl, rfl,
    rfl, ?status, ?fcsr, rfl, ?lblcfg, ?lblstat, ?mprog, List.forall_mem_nil _⟩
  case status => exact congrArg (BitVec.ofNat 64) (status_word s.core.status)
  case fcsr => exact congrArg (BitVec.ofNat 64) (fcsr_word s.core.regs.fcsr)
  case lblcfg => exact congrArg (BitVec.ofNat 64) (lblcfg_word s.core.lblcfg s.core.epoch)
  case lblstat => exact congrArg (BitVec.ofNat 64) (lblstat_word s.core.lblstat)
  case mprog => exact congrArg (BitVec.ofNat 64) (mprog_word s)

theorem crFields_numbers (s : State) : ∀ e ∈ crFields s, e.1 ∈ crNumbers := by
  simp [crFields, crNumbers, userReads]

/-! ### Features -/

theorem liveClusters_whole {d : Device} (h : d.lostUnits = []) : d.liveClusters.length = 32 := by
  simp [Device.liveClusters, h]

theorem labelGib_whole {d : Device} (h : d.lostUnits = []) : d.labelGib = 256 := by
  have hw (n : Nat) : d.stackWorks n = true := by rw [Device.stackWorks, h]; rfl
  rw [Device.labelGib, List.filter_eq_self.mpr fun r _ => hw _, List.filter_eq_self.mpr fun r _ => hw r,
    List.length_range, List.length_range]

theorem lostOf_whole {d : Device} (k : UnitKind) (h : d.lostUnits = []) : d.lostOf k = 0 := by
  rw [Device.lostOf, h]
  rfl

/-- The feature words by their fields (R196). -/
theorem feature_fields (s : State) {n : Nat} (hn : n < 16) (hwhole : n = 3 → s.dev.lostUnits = []) (hc : s.ctx.nclus < 256)
    (hx : s.ctx.desc.tx < 256) (hy : s.ctx.desc.ty < 256) (hz : s.ctx.desc.tz < 256) :
    s.feature n < 2 ^ 64 ∧ ∀ e, e ∈ featureFields s n → s.feature n / 2 ^ e.1 % 2 ^ e.2.1 = e.2.2 := by
  match n with
  | 0 =>
    have hword : s.feature 0 = 4 + 4 * 2 ^ 8 + 2 ^ 24 * (Config.step % 256) + 0xF * 2 ^ 32 := rfl
    have hstep : Config.step % 256 < 256 := Nat.mod_lt _ (by decide)
    simp only [featureFields, List.forall_mem_cons]
    generalize s.feature 0 = word at hword ⊢
    generalize Config.step % 256 = step at hword hstep ⊢
    refine ⟨?_, ?_, ?_, ?_, ?_, ?_, ?_, List.forall_mem_nil _⟩ <;> omega
  | 1 =>
    simp only [State.feature, featureFields, List.forall_mem_cons]
    refine ⟨?_, ?_, ?_, ?_, ?_, ?_, ?_, List.forall_mem_nil _⟩ <;> norm_num
  | 2 =>
    simp only [State.feature, featureFields, List.forall_mem_cons]
    refine ⟨?_, ?_, ?_, ?_, ?_, ?_, ?_, List.forall_mem_nil _⟩ <;> norm_num
  | 3 =>
    have hl := hwhole rfl
    have hword : s.feature 3 = 256 + 2 ^ 16 * 4096 + 2 ^ 32 * 1024 + 2 ^ 48 * 256 := by
      rw [State.feature, liveClusters_whole hl, lostOf_whole .stack hl, labelGib_whole hl]
    rw [hword]
    exact ⟨by norm_num, by simp [featureFields]⟩
  | 4 =>
    simp only [State.feature, featureFields, List.forall_mem_cons]
    refine ⟨?_, ?_, ?_, ?_, ?_, ?_, ?_, ?_, List.forall_mem_nil _⟩ <;> norm_num
  | 5 =>
    simp only [State.feature, featureFields, List.forall_mem_cons]
    refine ⟨?_, ?_, ?_, ?_, ?_, ?_, ?_, ?_, ?_, List.forall_mem_nil _⟩ <;> omega
  | _ + 6 => exact ⟨Nat.two_pow_pos 64, List.forall_mem_nil _⟩

theorem feature_beyond (s : State) {n : Nat} (h : 6 ≤ n) : s.feature n = 0 := by
  obtain ⟨k, rfl⟩ := Nat.exists_eq_add_of_le' h
  rfl

theorem exec_feat (d n : Nat) (s : State) :
    exec (.feat d n) s = .next (s.wrX d (BitVec.ofNat 64 (s.feature n)) s.topWord).complete := rfl

/-! ### What a cluster forgets (R197) -/

theorem pageKey_ne_blockKey (va vb : Word) : pageKey va ≠ blockKey vb := by
  have := va.isLt
  rw [pageKey, blockKey]
  omega

theorem heldIn_forgetIn_same (tlb : NatMap Leaf) (va : Word) : heldIn (forgetIn tlb va) va = none := by
  rw [heldIn, forgetIn, lookup_eraseAt_same]
  dsimp only
  rw [lookup_eraseAt_other _ (pageKey_ne_blockKey va va).symm, lookup_eraseAt_same]

theorem heldIn_forgetIn_other (tlb : NatMap Leaf) {va vb : Word} (hp : pageKey vb ≠ pageKey va)
    (hb : blockKey vb ≠ blockKey va) : heldIn (forgetIn tlb va) vb = heldIn tlb vb := by
  rw [heldIn, forgetIn, lookup_eraseAt_other _ hp, lookup_eraseAt_other _ (pageKey_ne_blockKey vb va),
    lookup_eraseAt_other _ (pageKey_ne_blockKey va vb).symm, lookup_eraseAt_other _ hb]
  rfl

theorem forget_cached_same (k : Cluster) (a : Agent) (va : Word) : (k.forget a va).cached va = none :=
  heldIn_forgetIn_same _ _

theorem forget_first_same (k : Cluster) (a : Agent) (va : Word) : (k.forget a va).firstOf a va = none := by
  rw [Cluster.firstOf, Cluster.forget, lookupD, modifyAt, lookup_insertAt_same]
  exact heldIn_forgetIn_same _ _

theorem forget_other (k : Cluster) (a : Agent) {va vb : Word} (hp : pageKey vb ≠ pageKey va) (hb : blockKey vb ≠ blockKey va) :
    (k.forget a va).cached vb = k.cached vb ∧ (k.forget a va).firstOf a vb = k.firstOf a vb := by
  refine ⟨heldIn_forgetIn_other _ hp hb, ?_⟩
  rw [Cluster.firstOf, Cluster.forget, lookupD, modifyAt, lookup_insertAt_same]
  exact heldIn_forgetIn_other _ hp hb

theorem forget_first_slot (k : Cluster) (a b : Agent) (va vb : Word) (h : b.slot ≠ a.slot) :
    (k.forget a va).firstOf b vb = k.firstOf b vb := by
  rw [Cluster.firstOf, Cluster.forget, lookupD, modifyAt, lookup_insertAt_other _ _ h]
  rfl

/-- What INVPG leaves of its cluster: the translations of an address forgotten, and its walks. -/
def invalidated (k : Cluster) (a : Agent) (va : Word) : Cluster :=
  { k.forget a va with walks := eraseAt (walkKey va 1) (eraseAt (walkKey va 2) k.walks) }

theorem invalidated_cached (k : Cluster) (a : Agent) (va vb : Word) :
    (invalidated k a va).cached vb = (k.forget a va).cached vb := rfl

theorem invalidated_firstOf (k : Cluster) (a b : Agent) (va vb : Word) :
    (invalidated k a va).firstOf b vb = (k.forget a va).firstOf b vb := rfl

theorem invalidated_walks (k : Cluster) (a : Agent) (va : Word) :
    lookup (invalidated k a va).walks (walkKey va 1) = none ∧ lookup (invalidated k a va).walks (walkKey va 2) = none := by
  have hne : walkKey va 2 ≠ walkKey va 1 := by
    have := va.isLt
    have h1 : walkKey va 1 = va.toNat / 2 ^ 42 := rfl
    have h2 : walkKey va 2 = 2 ^ 48 + va.toNat / 2 ^ 29 := rfl
    omega
  rw [invalidated]
  exact ⟨lookup_eraseAt_same _ _, by rw [lookup_eraseAt_other _ hne, lookup_eraseAt_same]⟩

/-- INVPG in S mode: the results outstanding return, and the cluster forgets. -/
def pageInvalidated (s : State) (va : Word) : State :=
  ((s.drain.mapCore fun c => { c with walkSync := s.dev.stores }).mapCluster s.focus.cl fun k =>
    invalidated k s.me va).complete

theorem exec_invpg_s {s : State} (a : Nat) (h : s.core.status.mode = .s) :
    exec (.invpg a) s = .next (pageInvalidated s (s.rdX a)) := by
  rw [exec_invpg, privileged_s h, except_bind_ok, commit_ok]
  rfl

theorem pageInvalidated_core (s : State) (va : Word) :
    (pageInvalidated s va).core = Core.complete { s.core.drain with walkSync := s.dev.stores } := rfl

theorem pageInvalidated_cluster (s : State) (va : Word) :
    (pageInvalidated s va).myCluster = invalidated s.myCluster s.me va :=
  State.cluster_mapCluster_same (s.drain.mapCore fun c => { c with walkSync := s.dev.stores }) s.focus.cl _

/-- The end of an instruction that drained the core and set WALKSYNC. -/
theorem complete_withWalkSync (c : Core) (n : Nat) :
    { Core.complete { c.drain with walkSync := n } with
      walkSync := c.walkSync, regs := c.regs, pending := c.pending, streams := c.streams, lblstat := c.lblstat } = c.complete :=
  complete_sameIssue (c := c) (d := { c.drain with walkSync := n }) ⟨rfl, rfl, rfl, rfl, rfl, rfl⟩
    (f := fun d => { d with
      walkSync := c.walkSync, regs := c.regs, pending := c.pending, streams := c.streams, lblstat := c.lblstat })
    fun _ _ _ _ => rfl

theorem pageInvalidated_kept (s : State) (va : Word) :
    coreKept s ((pageInvalidated s va).mapCore fun c => { c with walkSync := s.core.walkSync }) := by
  rw [coreKept, State.mapCore_core, pageInvalidated_core]
  exact complete_withWalkSync s.core s.dev.stores

theorem pageInvalidated_rest (s : State) (va : Word) : (pageInvalidated s va).core.streams = s.core.streams ∧
    (pageInvalidated s va).ctx.world = s.ctx.world ∧ restKept s (pageInvalidated s va) ∧
      memoryKept s (pageInvalidated s va) := by
  rw [pageInvalidated_core, Core.complete_streams]
  exact ⟨rfl, rfl, ⟨rfl, rfl, rfl, rfl⟩, fun _ => rfl⟩

end Sys2Proof.Claims

namespace Sys2Proof
open Machine Claims

/-- Settles O12: the words of the registers, the fields of the features, and what INVPG forgets. -/
theorem controlRegisterReads : Obligations.ControlRegisterReads := by
  unfold Obligations.ControlRegisterReads
  refine ⟨fun s d n old hd hold hm => ?_, fun s d a n hd _ hn => ⟨?_, feature_beyond s, fun hw hc hx hy hz => ?_, fun hm => ?_⟩⟩
  · refine ⟨_, ?_, xWritten_wrX_complete s old s.topWord hd⟩
    rw [exec_crr, crCheck_read (crFields_numbers s _ hold) hm, except_bind_ok, commit_ok, crRead_fields s _ hold]
  · exact ⟨_, exec_feat d n s, xWritten_wrX_complete s _ _ hd⟩
  · exact feature_fields s hn hw hc hx hy hz
  · refine ⟨_, exec_invpg_s a hm, ?_, ?_, ?_, ?_⟩
    · rw [pageInvalidated_core, Core.complete_regs]
    · rw [pageInvalidated_core, Core.complete_pending]
      rfl
    · rw [pageInvalidated_core, Core.complete_walkSync]
    · rw [pageInvalidated_cluster]
      obtain ⟨hw1, hw2⟩ := invalidated_walks s.myCluster s.me (s.rdX a)
      refine ⟨forget_cached_same _ s.me _, forget_first_same _ _ _, hw1, hw2, fun va hp hb => forget_other _ s.me hp hb,
        fun x va hx => forget_first_slot _ s.me _ _ _ hx, pageInvalidated_kept s _, pageInvalidated_rest s _⟩

end Sys2Proof
end

section
/-! PROOF. Control registers written (R174, R195): a CATCHCFG write in a turn that has to wait at an owned line is put off. -/

namespace Sys2Proof.Claims
open Machine

/-- A core in S mode with a membership image of zeros in its local store, whose turn already waits at a line of the pool
(R440). -/
def waitingImage : State := { State.reset with
  core := { State.reset.core with status := { State.reset.core.status with mode := .s }, catchcfg := 1 }
  ctx := { State.reset.ctx with desc := { CtxDesc.zero with part := [0] } }
  dev := { State.reset.dev with awaited := [0] } }

/-- The first line of core 0's local store. -/
def firstPlace : Place := localPlace waitingImage.ctx 0 0 0 0

theorem waitingImage_imageAt : imageAt waitingImage ((0 : Word) &&& ~~~(31 : Word)) firstPlace waitingImage :=
  ⟨rfl, rfl, .inl rfl, rfl, rfl, rfl⟩

/-- The CATCHCFG that an outcome leaves. -/
def catchcfgOf (o : Out) : Option Word :=
  match o with
  | .next t => some t.core.catchcfg
  | .fault _ => none
  | .refused _ => none

/-- The write is put off: nothing is made of an image read from a line at which a write waits (R440). -/
theorem waitingImage_putOff : catchcfgOf (exec (.crw 0x50 0) waitingImage) = some 1 := by decide

end Sys2Proof.Claims

namespace Sys2Proof
open Machine Claims

/-- Refutes O13: where the turn already waits at a line of the pool (`Device.awaited`), a CATCHCFG write whose image passes
every check that the statement names is put off, and CATCHCFG keeps its value. -/
theorem not_controlRegisterWrites : ¬ Obligations.ControlRegisterWrites := by
  unfold Obligations.ControlRegisterWrites
  rintro ⟨-, -, -, h⟩
  obtain ⟨t, hexec, ⟨hwritten, -⟩, -⟩ := (h waitingImage waitingImage 0 0 0 0 (.crw 0x50 0) firstPlace 0 (by decide) (by decide)
    rfl (.inl rfl) List.mem_cons_self waitingImage_imageAt (by decide)).1 rfl
  have hput := waitingImage_putOff
  rw [hexec, catchcfgOf, hwritten] at hput
  exact absurd hput (by decide)

end Sys2Proof
end

section
/-! PROOF. The words of the spec's listings (R55, R57), and what reset leaves (R41, R106, R202). -/

namespace Sys2Proof.Claims
open Machine

theorem listedControl_decode : ∀ e ∈ listedControl, decodeWord e.1 = .ok e.2 := by decide

theorem listedMemory_decode : ∀ e ∈ listedMemory, decodeWord e.1 = .ok e.2 := by decide

theorem listedSystem_decode : ∀ e ∈ listedSystem, decodeWord e.1 = .ok e.2 := by decide

theorem listedEngines_decode : ∀ e ∈ listedEngines, decodeWord e.1 = .ok e.2 := by decide

theorem listedArithmetic_decode : ∀ e ∈ listedArithmetic, decodeWord e.1 = .ok e.2 := by decide

theorem resetValues_read : ∀ e ∈ resetValues, State.reset.crRead e.1 = e.2 := by decide

theorem fill_get {α : Type} {n : Nat} (h : 0 < n) (v : α) (i : Nat) : fileGet h (fill n v) i = v := by
  simp [fileGet, fill]

/-- The sign of a code of reset bank A is its bit 7: the upper half holds the negatives of the lower (R106). -/
theorem resetA_negative (c : Nat) : resetA (128 + c) = resetA c + 0x40000 := by
  have hlow : (128 + c) % 128 = c % 128 := by omega
  have hm : (128 + c) % 8 = c % 8 := by omega
  have hneg : (128 + c) / 128 * 2 ^ 18 = c / 128 * 2 ^ 18 + 0x40000 := by omega
  simp only [resetA, hlow, hm, hneg]
  repeat' split
  all_goals rw [← BitVec.ofNat_add_ofNat]; simp [BitVec.ofNat_add, BitVec.add_assoc]

theorem resetB_negative (c : Nat) : resetB (8 + c) = resetB c + 0x40000 := by
  have hlow : (8 + c) % 8 = c % 8 := by omega
  have hm : (8 + c) % 2 = c % 2 := by omega
  have hneg : (8 + c) / 8 * 2 ^ 18 = c / 8 * 2 ^ 18 + 0x40000 := by omega
  simp only [resetB, hlow, hm, hneg]
  split <;> simp [BitVec.ofNat_add, BitVec.add_assoc]

theorem bankA_reset {c : Nat} (h : c < 256) : fileGet (by decide) State.reset.core.regs.bankA c = resetA c :=
  tabulate_get (by decide) resetA h

theorem bankB_reset {c : Nat} (h : c < 16) : fileGet (by decide) State.reset.core.regs.bankB c = resetB c :=
  tabulate_get (by decide) resetB h

theorem resetBanks_hold : resetBanks := by
  refine ⟨by decide, by decide, by decide, by decide, by decide, by decide, by decide, by decide, by decide, by decide,
    fun c hc => ?_, fun c hc => ?_⟩
  · exact (bankA_reset (by omega)).trans ((resetA_negative c).trans (congrArg (· + 0x40000) (bankA_reset (by omega)).symm))
  · exact (bankB_reset (by omega)).trans ((resetB_negative c).trans (congrArg (· + 0x40000) (bankB_reset (by omega)).symm))

end Sys2Proof.Claims

namespace Sys2Proof
open Machine Claims

/-- Settles O37, by evaluating the decoder on each listed word. -/
theorem decodeWords : Obligations.DecodeWords := by
  unfold Obligations.DecodeWords
  refine ⟨?_, by decide, by decide, by decide, by decide⟩
  simp only [listed, List.forall_mem_append]
  exact ⟨⟨⟨⟨listedControl_decode, listedMemory_decode⟩, listedSystem_decode⟩, listedEngines_decode⟩, listedArithmetic_decode⟩

/-- Settles O39: each register, counter and bank is evaluated, and memory lists no byte. -/
theorem resetState : Obligations.ResetState := by
  unfold Obligations.ResetState
  exact ⟨⟨resetValues_read, fun k _ => fill_get _ _ _, rfl, rfl, rfl, rfl, rfl, rfl, rfl, resetBanks_hold⟩, wf_nil,
    fun _ => rfl⟩

end Sys2Proof
end

section
/-! PROOF. DTLD (R129, R440): an image read in a turn that has to wait at an owned line is put off. -/

namespace Sys2Proof.Claims
open Machine

/-- The start of core 0's local store. -/
def storeStart : Nat := (localPlace State.reset.ctx 0 0 0 0).loc

/-- A core with an image of the reset bank B at the start of its local store, whose turn already waits at a line of the pool
(R440). -/
def waitingTable : State := { State.reset with
  ctx := { State.reset.ctx with desc := { CtxDesc.zero with part := [0] } }
  dev := { State.reset.dev.poke storeStart (State.reset.core.regs.bankB.toList.flatMap fun e => bytesOf 4 e.toNat) with
    awaited := [0] } }

/-- What the image read breaks and the labels of its lines, where the read passes. -/
def imageRead (r : Result (List (Nat × LabelWord) × State)) : Option (Option Nat × List Label) :=
  match r with
  | .ok (els, u) =>
    some (tableFault (els.flatMap fun e => (List.range 16).map fun i => BitVec.ofNat 32 (e.1 / 2 ^ (32 * i))),
      els.map fun e => u.eval e.2)
  | .error _ => none

/-- The table generation that an outcome leaves. -/
def tableGenOf (o : Out) : Option Nat :=
  match o with
  | .next t => some t.core.tableGen
  | .fault _ => none
  | .refused _ => none

set_option maxRecDepth 4000 in
theorem waitingTable_reads : imageRead (waitingTable.loadAll 64 64 [0]) = some (none, [topLabel]) := by decide

/-- The load is put off: nothing is made of an image in a turn that waits at a line (R440). -/
theorem waitingTable_putOff : tableGenOf (exec (.dtld .b 0) waitingTable) = some 0 := by decide

/-- A read that `imageRead` sees has passed; its lines have those labels and its entries that fault. -/
theorem loadAll_of_imageRead {r : Result (List (Nat × LabelWord) × State)} {f : Option Nat} {l : Label}
    (h : imageRead r = some (f, [l])) : ∃ els u, r = .ok (els, u) ∧ (∀ e ∈ els, u.eval e.2 = l) ∧
      tableFault (els.flatMap fun e => (List.range 16).map fun i => BitVec.ofNat 32 (e.1 / 2 ^ (32 * i))) = f := by
  cases r with
  | error _ => cases h
  | ok p =>
    obtain ⟨els, u⟩ := p
    obtain ⟨hfault, hlabels⟩ := Prod.mk.inj (Option.some.inj h)
    refine ⟨els, u, rfl, fun e he => ?_, hfault⟩
    exact List.mem_singleton.mp (hlabels ▸ List.mem_map_of_mem he)

end Sys2Proof.Claims

namespace Sys2Proof
open Machine Claims

/-- Refutes O34: where the turn already waits at a line of the pool (`Device.awaited`), DTLD of an image of the reset
bank B in the core's own local store, which passes every check that the statement names, is put off, and the table generation stays. -/
theorem not_decodeTableLoads : ¬ Obligations.DecodeTableLoads := by
  unfold Obligations.DecodeTableLoads
  intro h
  obtain ⟨els, u, hload, htop, hlegal⟩ := loadAll_of_imageRead waitingTable_reads
  obtain ⟨t, hexec, hgen, -⟩ := h waitingTable u .b 0 els _ (by decide) (by unfold plainCore; nofun) (.inl rfl) rfl hload htop
    rfl hlegal
  have hput := waitingTable_putOff
  rw [hexec, tableGenOf, hgen] at hput
  exact absurd hput (by decide)

end Sys2Proof
end

section
/-! PROOF. The catch network (R174 to R177), counters and timed waits (R30, R31, R178 to R181). -/

namespace Sys2Proof.Claims
open Machine

/-! ### Bits -/

theorem bitAt_eq {w : Nat} (v : BitVec w) (i : Nat) : bitAt v i = v.getLsbD i := rfl

theorem bitsAt_low {w : Nat} (v : BitVec w) (n : Nat) : bitsAt v 0 n = v.toNat % 2 ^ n := by
  rw [bitsAt, Nat.pow_zero, Nat.div_one]

/-! ### Catch groups -/

theorem isMember_eq (g : CatchGroup) {m : Nat} (hm : m < 217) : g.isMember m = g.image.getLsbD m := by
  rw [CatchGroup.isMember, CatchGroup.members, Nat.testBit_mod_two_pow, decide_eq_true hm, Bool.true_and]
  rfl

/-- A group that has a member is full once every member has arrived. -/
theorem full_iff {g : CatchGroup} {m : Nat} (hm : m < 217) (hmember : g.image.getLsbD m = true) :
    g.full = true ↔ allArrived g g.flags.toNat := by
  have hnonempty : g.members ≠ 0 := by
    intro hzero
    have h : g.isMember m = true := (isMember_eq g hm).trans hmember
    rw [CatchGroup.isMember, hzero, Nat.zero_testBit] at h
    cases h
  have hbits : g.flags.toNat &&& g.members = g.members ↔ ∀ i, g.members.testBit i = true → g.flags.toNat.testBit i = true := by
    constructor
    · intro h i hi
      rw [← h, Nat.testBit_and, Bool.and_eq_true] at hi
      exact hi.1
    · intro h
      refine Nat.eq_of_testBit_eq fun i => ?_
      rw [Nat.testBit_and]
      cases hi : g.members.testBit i
      · exact Bool.and_false _
      · rw [h i hi]; rfl
  rw [CatchGroup.full, Bool.and_eq_true, decide_eq_true_iff, decide_eq_true_iff, hbits]
  constructor
  · rintro ⟨-, h⟩ i hi himage
    exact h i ((isMember_eq g hi).trans himage)
  · intro h
    refine ⟨hnonempty, fun i hi => ?_⟩
    rw [CatchGroup.members, Nat.testBit_mod_two_pow, Bool.and_eq_true, decide_eq_true_iff] at hi
    exact h i hi.1 hi.2

theorem hold_image (g : CatchGroup) (m : Nat) (or err : Bool) : (g.hold m or err).image = g.image := by
  unfold CatchGroup.hold
  split <;> rfl

theorem holds_image (l : List (CatchMember × Bool × Bool)) : ∀ g : CatchGroup,
    (l.foldl (fun k e => k.hold e.1 e.2.1 e.2.2) g).image = g.image := by
  induction l with
  | nil => exact fun _ => rfl
  | cons e l ih => exact fun g => (ih _).trans (hold_image ..)

/-- The phase after the one that the arrivals of a group complete (R175). -/
def afterPhase (g : CatchGroup) : CatchGroup :=
  g.held.foldl (fun k e => k.hold e.1 e.2.1 e.2.2)
    { g with phase := g.phase + 1, flags := 0, or := false, err := false, latest := some (g.or, g.err), held := [] }

theorem settle_succ (n : Nat) (g : CatchGroup) :
    CatchGroup.settle (n + 1) g = if g.full = true then CatchGroup.settle n (afterPhase g) else g := rfl

theorem settled_open {g : CatchGroup} (h : g.full = false) : g.settled = g := by
  rw [CatchGroup.settled, settle_succ, h, if_neg Bool.false_ne_true]

theorem settle_open {g : CatchGroup} (h : g.full = false) (n : Nat) : CatchGroup.settle n g = g := by
  cases n with
  | zero => rfl
  | succ n => rw [settle_succ, h, if_neg Bool.false_ne_true]

/-- A full group goes on to the next phase, where it stays unless that is complete already. -/
theorem settled_full {g : CatchGroup} (h : g.full = true) (hnext : (afterPhase g).full = false) : g.settled = afterPhase g := by
  rw [CatchGroup.settled, settle_succ, if_pos h, settle_open hnext]

theorem settle_image (n : Nat) : ∀ g : CatchGroup, (CatchGroup.settle n g).image = g.image := by
  induction n with
  | zero => exact fun _ => rfl
  | succ n ih =>
    intro g
    rw [settle_succ]
    split
    · exact (ih _).trans (holds_image _ _)
    · rfl

/-- The group after the core's ARRIVE (R175). -/
def arrivedAt (s : State) (g a : Nat) : CatchGroup :=
  (s.group g).mark s.focus.core (bitAt (s.rdX a) 0) (bitAt (s.rdX a) 1)

theorem arrivedAt_flags {s : State} (g a : Nat) (hcore : s.focus.core < 192) :
    (arrivedAt s g a).flags.toNat = flagsWith s g := by
  rw [arrivedAt, CatchGroup.mark, BitVec.toNat_ofNat]
  exact Nat.mod_eq_of_lt (Nat.or_lt_two_pow (s.group g).flags.isLt (Nat.pow_lt_pow_right (by decide) (by omega)))

/-- The state after an ARRIVE. -/
def afterArrive (s : State) (g a : Nat) : State :=
  ((s.mapCluster s.focus.cl fun k => k.mapGroup g fun c =>
      (c.mark s.focus.core (bitAt (s.rdX a) 0) (bitAt (s.rdX a) 1)).settled).mapCore fun c =>
    { c with arrived := insertAt g (s.group g).phase.toNat c.arrived }).complete

theorem afterArrive_group {s : State} {g h : Nat} (a : Nat) (hg : g < 16) (hh : h < 16) :
    (afterArrive s g a).group h = if h = g then (arrivedAt s g a).settled else s.group h := by
  have hgroup : (afterArrive s g a).group h =
      fileGet (by decide) (filePut (by decide) s.myCluster.catchGroups g (arrivedAt s g a).settled) h := by
    rw [State.group, State.myCluster, Cluster.group]
    exact congrArg (fun k : Cluster => fileGet (by decide) k.catchGroups h) (State.cluster_mapCluster_same s s.focus.cl _)
  rw [hgroup]
  split
  · next heq => rw [heq, fileGet_filePut_same]
  · next hne => exact fileGet_filePut_ne _ _ _ hg hh hne

theorem exec_arrive (g a : Nat) (s : State) :
    exec (.arrive g a) s = commit s (do
      s.edgeGuard 1 0
      s.catchCheck g
      if (s.group g).flag s.focus.core then .error (s.trap .catchTrap (3 + 256 * g) 0)
      s.classRule [s.labX a]
      .ok (afterArrive s g a)) := rfl

theorem exec_waitc (d g : Nat) (s : State) :
    exec (.waitc d g) s = commit s (do
      s.edgeGuard 1 0
      match s.grantValue with
      | some v => .ok (s.wrX d (v - 1) s.topWord).complete
      | none =>
        s.catchCheck g
        if catchDone s.core (s.group g) g then .ok (s.wrX d (s.group g).waitcWord s.topWord).complete
        else .ok (s.parkAt (.catchPhase g (s.group g).phase.toNat))) := rfl

/-- The state of the current phase as CATCHQ gives it (R177). -/
def phaseState (s : State) (g : Nat) : Nat :=
  let c := s.group g
  c.phase.toNat + 2 ^ 32 * oneBit c.or + 2 ^ 33 * oneBit c.err + 2 ^ 34 * oneBit c.latest.isNone
    + 2 ^ 35 * oneBit (c.flag s.focus.core) + 2 ^ 36 * c.waiting

theorem exec_catchq (d g : Nat) (s : State) :
    exec (.catchq d g) s = commit s (do
      s.catchCheck g
      .ok (s.wrX d (BitVec.ofNat 64 (phaseState s g)) s.topWord).complete) := rfl

theorem catchCheck_member {s : State} {g : Nat} (h : catchMember s g) : s.catchCheck g = .ok () := by
  obtain ⟨hgang, hcore, hmember⟩ := h
  rw [State.catchCheck, if_neg hgang, isMember_eq _ (by omega), hmember]
  rfl

/-- The reasons of CATCH before any of the instruction's own (R176). -/
theorem catchCheck_stopped {s : State} {g reason : Nat} (hcore : s.focus.core < 192)
    (h : s.core.gang = none ∧ reason = 1 ∨
      s.core.gang ≠ none ∧ (s.group g).image.getLsbD s.focus.core = false ∧ reason = 2) :
    s.catchCheck g = .error (s.trap .catchTrap (reason + 256 * g) 0) := by
  rw [State.catchCheck]
  rcases h with ⟨hgang, rfl⟩ | ⟨hgang, himage, rfl⟩
  · rw [if_pos hgang]
    rfl
  · rw [if_neg hgang, isMember_eq _ (by omega), himage]
    rfl

theorem catchDone_eq (c : Core) (k : CatchGroup) (g : Nat) :
    catchDone c k g = true ↔ ∀ n, lookup c.arrived g = some n → k.phase.toNat ≠ n := by
  rw [catchDone]
  split
  · next h => simp [h]
  · next h => simp [h]

/-- A flag of OR or ERR as the word holds it. -/
theorem two_pow_oneBit (n : Nat) (b : Bool) : 2 ^ n * oneBit b = if b = true then 2 ^ n else 0 := by
  cases b <;> simp [oneBit]

theorem waitcWord_none {k : CatchGroup} (h : k.latest = none) : k.waitcWord = BitVec.ofNat 64 (2 ^ 34) := by
  rw [CatchGroup.waitcWord, h]

theorem waitcWord_some {k : CatchGroup} {or err : Bool} (h : k.latest = some (or, err)) :
    k.waitcWord = BitVec.ofNat 64 ((k.phase - 1).toNat + (if or then 2 ^ 32 else 0) + if err then 2 ^ 33 else 0) := by
  simp only [CatchGroup.waitcWord, h, two_pow_oneBit]

theorem waiting_eq (k : CatchGroup) :
    k.waiting = (List.range 217).countP fun m => k.image.getLsbD m && !k.flags.getLsbD m := by
  rw [CatchGroup.waiting, ← List.countP_eq_length_filter]
  refine List.countP_congr fun m hm => ?_
  rw [isMember_eq k (List.mem_range.mp hm)]
  rfl

theorem phaseState_eq (s : State) (g : Nat) : phaseState s g = (s.group g).phase.toNat
      + (if (s.group g).or then 2 ^ 32 else 0) + (if (s.group g).err then 2 ^ 33 else 0)
      + (if (s.group g).latest = none then 2 ^ 34 else 0)
      + (if (s.group g).flags.getLsbD s.focus.core then 2 ^ 35 else 0)
      + 2 ^ 36 * (List.range 217).countP fun m => (s.group g).image.getLsbD m && !(s.group g).flags.getLsbD m := by
  simp only [phaseState, two_pow_oneBit, waiting_eq, Option.isNone_iff_eq_none]
  rfl

/-- What an ARRIVE that passes its checks leaves (R175). -/
theorem afterArrive_arrives {s : State} {g a : Nat} (hg : g < 16) (hmem : catchMember s g) :
    (afterArrive s g a).core.regs = s.core.regs ∧ lookup (afterArrive s g a).core.arrived g = some (s.group g).phase.toNat ∧
      ((afterArrive s g a).group g).image = (s.group g).image ∧
      (allArrived (s.group g) (flagsWith s g) → ¬ allArrived (s.group g) (nextPhase s g a).flags.toNat →
        (afterArrive s g a).group g = nextPhase s g a) ∧
      (¬ allArrived (s.group g) (flagsWith s g) →
        ((afterArrive s g a).group g).phase = (s.group g).phase ∧
        ((afterArrive s g a).group g).flags.toNat = flagsWith s g ∧
        ((afterArrive s g a).group g).or = ((s.group g).or || (s.rdX a).getLsbD 0) ∧
        ((afterArrive s g a).group g).err = ((s.group g).err || (s.rdX a).getLsbD 1) ∧
        ((afterArrive s g a).group g).latest = (s.group g).latest) ∧
      (∀ h, h < 16 → h ≠ g → (afterArrive s g a).group h = s.group h) ∧ latencyKept s (afterArrive s g a) ∧
      restKept s (afterArrive s g a) ∧ memoryKept s (afterArrive s g a) := by
  obtain ⟨-, hcore, hmember⟩ := hmem
  have hthis : (afterArrive s g a).group g = (arrivedAt s g a).settled := (afterArrive_group a hg hg).trans (if_pos rfl)
  have hflags := arrivedAt_flags g a hcore
  have hfull := full_iff (g := arrivedAt s g a) (m := s.focus.core) (by omega) hmember
  have hnext : afterPhase (arrivedAt s g a) = nextPhase s g a := rfl
  have hnextImage : (afterPhase (arrivedAt s g a)).image = (s.group g).image := holds_image _ _
  rw [hflags] at hfull
  refine ⟨?_, ?_, ?_, fun hall hnot => ?_, fun hnot => ?_, fun h hh hne => ?_, ⟨?_, ?_⟩, ⟨rfl, rfl, rfl, rfl⟩, fun _ => rfl⟩
  · exact Core.complete_regs _
  · rw [afterArrive, State.complete_core, Core.complete_arrived]
    exact lookup_insertAt_same ..
  · rw [hthis, CatchGroup.settled, settle_image]
    rfl
  · rw [hthis, settled_full (hfull.mpr hall), hnext]
    rw [← Bool.not_eq_true, full_iff (m := s.focus.core) (by omega) (hnextImage ▸ hmember), allArrived, hnextImage, hnext]
    exact hnot
  · rw [hthis, settled_open (Bool.not_eq_true _ ▸ fun hf => hnot (hfull.mp hf))]
    exact ⟨rfl, hflags, rfl, rfl, rfl⟩
  · rw [afterArrive_group a hg hh, if_neg hne]
  · exact Core.complete_pending _
  · exact Core.complete_streams _

end Sys2Proof.Claims

namespace Sys2Proof
open Machine Claims

/-- Settles O16: the members' flags decide whether an arrival completes the phase. -/
theorem catchNetwork : Obligations.CatchNetwork := by
  unfold Obligations.CatchNetwork
  refine ⟨fun s g d a hg hd _ hp hmem => ?_, fun s g d a reason hcore hp hgrant hreason => ?_⟩
  · have hcheck := catchCheck_member hmem
    have harrive := exec_arrive g a s
    have hwaitc := exec_waitc d g s
    rw [edgeGuard_plain hp, except_bind_ok] at harrive hwaitc
    rw [hcheck, except_bind_ok] at harrive
    refine ⟨fun hflag hclass => ⟨afterArrive s g a, ?_, afterArrive_arrives hg hmem⟩, fun hgrant hover => ?_, fun v hgrant => ?_,
      fun hflag => ?_, fun hflag hclass => ?_, fun hgrant harrived => ?_, ?_⟩
    · have hunset : (s.group g).flag s.focus.core = false := hflag
      rw [harrive, hunset, classRule_of_passes hclass]
      rfl
    · rw [hgrant] at hwaitc
      simp only [hcheck, except_bind_ok, if_pos ((catchDone_eq ..).mpr hover), commit_ok] at hwaitc
      refine ⟨_, hwaitc, ?_⟩
      have hwritten := xWritten_wrX_complete s (s.group g).waitcWord s.topWord hd
      rcases hlatest : (s.group g).latest with _ | ⟨or, err⟩
      · rwa [waitcWord_none hlatest] at hwritten ⊢
      · rwa [waitcWord_some hlatest] at hwritten ⊢
    · rw [hgrant] at hwaitc
      have hword : v + 1 - 1 = v := by simp
      simp only [hword, commit_ok] at hwaitc
      exact ⟨_, hwaitc, xWritten_wrX_complete s _ _ hd⟩
    · have hset : (s.group g).flag s.focus.core = true := hflag
      refine traps_of_commit harrive ?_
      rw [hset]
      rfl
    · have hunset : (s.group g).flag s.focus.core = false := hflag
      refine traps_of_commit harrive ?_
      rw [hunset, classRule_one hclass]
      rfl
    · have hwait : ¬ catchDone s.core (s.group g) g = true := by
        rw [catchDone_eq]
        exact fun h => h _ harrived rfl
      rw [hgrant] at hwaitc
      simp only [hcheck, except_bind_ok, if_neg hwait, commit_ok] at hwaitc
      exact ⟨_, hwaitc, rfl⟩
    · refine ⟨_, ?_, xWritten_wrX_complete s _ _ hd⟩
      rw [exec_catchq, hcheck, except_bind_ok, commit_ok, phaseState_eq]
  · have hstop := catchCheck_stopped hcore hreason
    refine ⟨traps_of_commit (exec_arrive g a s) ?_, traps_of_commit (exec_waitc d g s) ?_,
      traps_of_commit (exec_catchq d g s) ?_⟩
    · rw [edgeGuard_plain hp, except_bind_ok, hstop, except_bind_error]
    · rw [edgeGuard_plain hp, except_bind_ok, hgrant]
      simp only [hstop, except_bind_error]
    · rw [hstop, except_bind_error]

end Sys2Proof
end

section
/-! PROOF. Counters and timed waits (R30, R31, R178 to R181). -/

namespace Sys2Proof.Claims
open Machine

theorem reached_iff (c : Half) (v : Word) :
    reached (bitsAt c 0 31) (bitsAt v 0 31) = true ↔
      (c.toNat % 2 ^ 31 + (2 ^ 31 - v.toNat % 2 ^ 31)) % 2 ^ 31 < 2 ^ 30 := by
  rw [bitsAt_low, bitsAt_low, reached, decide_eq_true_iff, Nat.mod_mod, Nat.add_sub_assoc (by omega)]

theorem exec_waitk (k a : Nat) (s : State) :
    exec (.waitk k a) s = commit s (do
      s.edgeGuard 1 0
      s.classRule [s.labX a]
      if s.grantValue.isSome || reached (bitsAt (s.core.counter k) 0 31) (bitsAt (s.rdX a) 0 31) then .ok s.complete
      else .ok (s.parkAt (.counter k (bitsAt (s.rdX a) 0 31)))) := rfl

theorem exec_waitt (a b : Nat) (s : State) :
    exec (.waitt a b) s = commit s (do
      s.edgeGuard 1 0
      match s.grantValue with
      | some v =>
        let t := if v = 0 then s else s.mapCore fun c => { c with late := some (s.rdX b, v) }
        .ok t.complete
      | none =>
        s.classRule [s.labX a, s.labX b]
        let onTime := decide (s.rdX b = 0) || (s.findJob s.focus.cl s.focus.core (s.rdX b)).isNone
        if decide ((s.rdX a).toNat ≤ s.dev.cycle.toNat) && onTime then .ok s.complete
        else .ok (s.parkAt (.cycle (s.rdX a) (s.rdX b) false))) := rfl

theorem exec_krd_own (d k : Nat) (s : State) :
    exec (.krd d k 0) s = .next (s.wrX d ((s.core.counter k).zeroExtend 64) s.topWord).complete := rfl

theorem exec_krd {a : Nat} (d k : Nat) (s : State) (ha : a ≠ 0) :
    exec (.krd d k a) s = commit s (do
      let c ← s.coreOperand (s.rdX a)
      .ok (s.later ⟨.x d, ((s.coreAt s.focus.cl c).counter k).zeroExtend 512, s.topWord, FFlags.none⟩).complete) :=
  congrArg (commit s) (if_neg ha)

theorem coreOperand_mapped {s : State} {v : Word} (hv : v.toNat < 192) (hm : s.ctx.mapped s.focus.cl v.toNat = true) :
    s.coreOperand v = .ok v.toNat := by
  rw [State.coreOperand, if_neg (by omega), hm]
  rfl

theorem coreOperand_beyond {s : State} {v : Word} (hv : 191 < v.toNat) : s.coreOperand v = .error (s.illegal 9 0) :=
  if_pos hv

theorem coreOperand_unmapped {s : State} {v : Word} (hv : v.toNat < 192) (hm : s.ctx.mapped s.focus.cl v.toNat = false) :
    s.coreOperand v = .error (s.trap .page 64 (BitVec.ofNat 64 (s.ctx.desc.lsbase + v.toNat * 2 ^ 18))) := by
  rw [State.coreOperand, if_neg (by omega), hm]
  rfl

/-- The word that KADD leaves in a counter (R30). -/
def counterSum (w : Half) (v : Word) : Half :=
  BitVec.ofNat 32 ((w.toNat % 2 ^ 31 + v.toNat % 2 ^ 31) % 2 ^ 31 + if v.getLsbD 31 then 0 else w.toNat / 2 ^ 31 * 2 ^ 31)

theorem topBit_eq (w : Half) : 2 ^ 31 * oneBit (bitAt w 31) = w.toNat / 2 ^ 31 * 2 ^ 31 := by
  have hlt := w.isLt
  simp only [two_pow_oneBit, bitAt, Nat.testBit_eq_decide_div_mod_eq, decide_eq_true_eq]
  split <;> omega

theorem exec_kadd (k a : Nat) (s : State) :
    exec (.kadd k a) s =
      .next (s.mapCore fun c => { c with k := filePut (by decide) c.k k (counterSum (c.counter k) (s.rdX a)) }).complete := by
  have hsum (w : Half) : counterSum w (s.rdX a) = BitVec.ofNat 32
      ((bitsAt w 0 31 + bitsAt (s.rdX a) 0 31) % 2 ^ 31
        + 2 ^ 31 * oneBit (if bitAt (s.rdX a) 31 then false else bitAt w 31)) := by
    rw [counterSum, bitsAt_low, bitsAt_low, ← topBit_eq, bitAt_eq (s.rdX a)]
    cases (s.rdX a).getLsbD 31 <;> rfl
  simp only [hsum]
  rfl

/-- An outstanding result of an x register, and then the end of the instruction (R53). -/
theorem later_complete_x (s : State) (d : Nat) (v : VWord) (w : LabelWord) :
    let t := (s.later ⟨.x d, v, w, FFlags.none⟩).complete
    t.core.regs = s.core.regs ∧ outstanding s t (.x d) v w ∧ coreKept s t ∧ t.ctx = s.ctx ∧ restKept s t ∧ memoryKept s t := by
  have hrest : (s.later ⟨.x d, v, w, FFlags.none⟩).ctx = s.ctx ∧ restKept s (s.later ⟨.x d, v, w, FFlags.none⟩) := by
    unfold State.later
    split <;> exact ⟨rfl, rfl, rfl, rfl, rfl⟩
  refine ⟨?_, ?_, ((coreSame_refl s).later _).complete, hrest.1, hrest.2, memoryKept_of_dev hrest.2.2.2.2⟩
  · rw [State.complete_core, Core.complete_regs, later_regs]
  · rw [outstanding, outstandingWith, State.complete_core, Core.complete_pending, later_pending]

end Sys2Proof.Claims

namespace Sys2Proof
open Machine Claims

/-- Settles O17: each form's operands decide whether it completes, waits or traps. -/
theorem countersAndTimedWaits : Obligations.CountersAndTimedWaits := by
  unfold Obligations.CountersAndTimedWaits
  intro s k a b d hk _ _ hd hp
  have hwaitk := exec_waitk k a s
  have hwaitt := exec_waitt a b s
  rw [edgeGuard_plain hp, except_bind_ok] at hwaitk hwaitt
  refine ⟨fun hclass => ⟨fun hreached => ?_, fun hbelow hgrant => ?_⟩, fun hgrant hclass hcycle hjob => ?_, ?_,
    fun ha hv hm => ?_, fun ha hv => ?_, fun ha hv hm => ?_, fun hclass => ?_, fun hgrant hclass => ?_, ?_⟩
  · rw [classRule_of_passes hclass, except_bind_ok, if_pos, commit_ok] at hwaitk
    · exact ⟨_, hwaitk, passed_complete s⟩
    · rw [Bool.or_eq_true]
      exact .inr ((reached_iff ..).mpr hreached)
  · rw [classRule_of_passes hclass, except_bind_ok, if_neg, commit_ok] at hwaitk
    · exact ⟨_, hwaitk, by rw [bitsAt_low]; rfl⟩
    · rw [hgrant, Option.isSome_none, Bool.false_or, reached_iff]
      exact Nat.not_lt.mpr hbelow
  · have htime : (decide ((s.rdX a).toNat ≤ s.dev.cycle.toNat) &&
        (decide (s.rdX b = 0) || (s.findJob s.focus.cl s.focus.core (s.rdX b)).isNone)) = true := by
      simpa [hcycle] using hjob
    rw [hgrant] at hwaitt
    simp only [classRule_of_passes hclass, except_bind_ok, if_pos htime, commit_ok] at hwaitt
    exact ⟨_, hwaitt, passed_complete s⟩
  · exact ⟨_, exec_krd_own d k s, xWritten_wrX_complete s _ _ hd⟩
  · refine ⟨_, ?_, later_complete_x s d _ _⟩
    rw [exec_krd d k s ha, coreOperand_mapped hv hm, except_bind_ok, commit_ok]
    rfl
  · exact traps_of_commit (exec_krd d k s ha) (by rw [coreOperand_beyond hv, except_bind_error, illegal_eq])
  · exact traps_of_commit (exec_krd d k s ha) (by rw [coreOperand_unmapped hv hm, except_bind_error])
  · exact traps_of_commit hwaitk (by rw [classRule_one hclass, except_bind_error])
  · rw [hgrant] at hwaitt
    exact traps_of_commit hwaitt (by simp only [classRule_two hclass, except_bind_error])
  · obtain ⟨hctx, hrest, hmem⟩ := coreOnly_complete s fun c =>
      { c with k := filePut (by decide) c.k k (counterSum (c.counter k) (s.rdX a)) }
    refine ⟨_, exec_kadd k a s, Core.complete_regs _, fun j hj => ?_, ⟨Core.complete_pending _, Core.complete_streams _⟩, hctx,
      hrest, hmem⟩
    rw [State.complete_core, Core.complete_k]
    by_cases hjk : j = k
    · subst hjk
      rw [if_pos rfl]
      exact fileGet_filePut_same ..
    · rw [if_neg hjk]
      exact fileGet_filePut_ne _ _ _ hk hj hjk

end Sys2Proof
end

section
/-! PROOF. Continuation records (R10 to R14, R22 to R24, R33 to R36): their bits, where they lie in memory, and that what the
dispatcher does with them leaves the core that moves. -/

namespace Sys2Proof.Claims
open Machine

/-! ### Fields of a number -/

/-- Bits of a number made of a low field and the rest. -/
theorem testBit_field {n a b : Nat} (h : a < 2 ^ n) (i : Nat) :
    (a + 2 ^ n * b).testBit i = if i < n then a.testBit i else b.testBit (i - n) := by
  rw [Nat.add_comm, Nat.testBit_two_pow_mul_add _ h]

theorem bitsAt_lt {w : Nat} (v : BitVec w) (lo n : Nat) : bitsAt v lo n < 2 ^ n := Nat.mod_lt _ (by positivity)

theorem bitsAt_testBit {w : Nat} (v : BitVec w) {lo n i : Nat} (hi : i < n) :
    (bitsAt v lo n).testBit i = v.getLsbD (lo + i) := by
  rw [bitsAt, Nat.testBit_mod_two_pow, decide_eq_true hi, Bool.true_and, Nat.testBit_div_two_pow, Nat.add_comm, BitVec.getLsbD]

/-- A field replaced reads back; every other bit is as before. -/
theorem setBits_getLsbD {w : Nat} (r : BitVec w) {lo n : Nat} (v : Nat) {i : Nat} (hi : i < w) :
    (setBits r lo n v).getLsbD i = if lo ≤ i ∧ i < lo + n then v.testBit (i - lo) else r.getLsbD i := by
  have hsplit : r.toNat = r.toNat % 2 ^ lo + 2 ^ lo * (r.toNat / 2 ^ lo % 2 ^ n + 2 ^ n * (r.toNat / 2 ^ lo / 2 ^ n)) := by
    rw [Nat.mod_add_div, Nat.mod_add_div]
  have hlow : r.toNat % 2 ^ lo < 2 ^ lo := Nat.mod_lt _ (by positivity)
  have hmid : r.toNat / 2 ^ lo % 2 ^ n < 2 ^ n := Nat.mod_lt _ (by positivity)
  have hput : v % 2 ^ n < 2 ^ n := Nat.mod_lt _ (by positivity)
  have hnew : r.toNat - bitsAt r lo n * 2 ^ lo + v % 2 ^ n * 2 ^ lo =
      r.toNat % 2 ^ lo + 2 ^ lo * (v % 2 ^ n + 2 ^ n * (r.toNat / 2 ^ lo / 2 ^ n)) := by
    rw [bitsAt]
    generalize r.toNat / 2 ^ lo % 2 ^ n = mid at hsplit ⊢
    rw [Nat.mul_add] at hsplit ⊢
    rw [Nat.mul_comm mid, Nat.mul_comm (v % 2 ^ n)]
    omega
  have hold : r.getLsbD i =
      (r.toNat % 2 ^ lo + 2 ^ lo * (r.toNat / 2 ^ lo % 2 ^ n + 2 ^ n * (r.toNat / 2 ^ lo / 2 ^ n))).testBit i := by
    rw [← hsplit]; rfl
  rw [setBits, BitVec.getLsbD_ofNat, decide_eq_true hi, Bool.true_and, hnew, hold, testBit_field hlow, testBit_field hlow,
    testBit_field hput, testBit_field hmid]
  by_cases h1 : i < lo
  · simp [h1, Nat.not_le.mpr h1]
  · by_cases h2 : i - lo < n
    · rw [if_neg h1, if_pos h2, if_pos (by omega), Nat.testBit_mod_two_pow, decide_eq_true h2, Bool.true_and]
    · rw [if_neg h1, if_neg h2, if_neg (by omega), if_neg h1, if_neg h2]

/-! ### New records -/

theorem extract_testBit {w : Nat} (v : BitVec w) {lo n i : Nat} (hi : i < n) :
    (v.extractLsb' lo n).toNat.testBit i = v.getLsbD (lo + i) := by
  rw [BitVec.testBit_toNat, BitVec.getLsbD_extractLsb', decide_eq_true hi, Bool.true_and]

/-- A field of an image at its place. -/
theorem imageField {w : Nat} (v : BitVec w) {lo n i : Nat} (hlo : lo ≤ i) (hi : i - lo < n) :
    (bitsAt v lo n).testBit (i - lo) = v.getLsbD i := by
  rw [bitsAt_testBit v hi, Nat.add_sub_cancel' hlo]

/-- Neighbouring fields make one. -/
theorem bitsAt_join {w : Nat} (v : BitVec w) (lo m n : Nat) : bitsAt v lo m + 2 ^ m * bitsAt v (lo + m) n = bitsAt v lo (m + n) := by
  rw [bitsAt, bitsAt, bitsAt, Nat.pow_add 2 lo, ← Nat.div_div_eq_div_mul, Nat.pow_add 2 m, Nat.mod_mul]

/-- A sum of fields at their places, lowest first. -/
theorem fields_nested (t code frame parent qid stage prio plkind gang pltgt lclu gsize epoch : Nat) :
    code + frame * t ^ 64 + parent * t ^ 128 + qid * t ^ 224 + stage * t ^ 240 + prio * t ^ 244 + plkind * t ^ 246
        + gang * t ^ 248 + pltgt * t ^ 256 + lclu * t ^ 272 + gsize * t ^ 280 + 1 * t ^ 384 + epoch * t ^ 24 * t ^ 448 =
      (code + t ^ 64 * (frame + t ^ 64 * parent)) + t ^ 192 * (0 + t ^ 32 * (qid + t ^ 16 *
        ((stage + t ^ 4 * (prio + t ^ 2 * (plkind + t ^ 2 * gang))) + t ^ 9 * (0 + t ^ 7 *
          ((pltgt + t ^ 16 * (lclu + t ^ 8 * gsize)) + t ^ 32 * (0 + t ^ 96 * (1 + t ^ 88 * epoch))))))) := by
  ring

/-- A new record by its fields, lowest first (R11). -/
theorem newRecord_fields (image : VWord) (qid : Nat) (epoch : BitVec 8) :
    newRecord image qid epoch = BitVec.ofNat 512 (bitsAt image 0 192 + 2 ^ 192 * (0 + 2 ^ 32 * (qid % 2 ^ 16 + 2 ^ 16 *
      (bitsAt image 240 9 + 2 ^ 9 * (0 + 2 ^ 7 * (bitsAt image 256 32 + 2 ^ 32 * (0 + 2 ^ 96 *
        (1 + 2 ^ 88 * epoch.toNat)))))))) := by
  have hparent : (rParent image).toNat = bitsAt image 128 64 := by
    rw [rParent, BitVec.extractLsb'_toNat, Nat.shiftRight_eq_div_pow, bitsAt]
  have hgang : oneBit (rGang image) = bitsAt image 248 1 := by
    rw [rGang, bitAt, Nat.testBit_eq_decide_div_mod_eq, oneBit, bitsAt]
    simp only [decide_eq_true_eq]
    split <;> omega
  rw [newRecord, fields_nested, hparent, hgang, rCode, rFrame, rStage, rPrio, rPlkind, rPltgt, rLclu, rGsize,
    bitsAt_join, bitsAt_join, bitsAt_join, bitsAt_join, bitsAt_join, bitsAt_join, bitsAt_join]

theorem newRecord_holds (image : VWord) (qid : Nat) (epoch : BitVec 8) : recordHolds (newRecord image qid epoch) image qid epoch := by
  intro i hi
  have hone : (1 : Nat) < 2 ^ 88 := by decide
  rw [newRecord_fields, BitVec.getLsbD_ofNat, decide_eq_true hi, Bool.true_and, testBit_field (bitsAt_lt ..),
    testBit_field (by decide), testBit_field (Nat.mod_lt _ (by decide)), testBit_field (bitsAt_lt ..),
    testBit_field (by decide), testBit_field (bitsAt_lt ..), testBit_field (by decide), testBit_field hone]
  simp only [Nat.sub_sub, Nat.reduceAdd, newBits]
  by_cases h1 : i < 192
  · simp only [if_pos h1]
    exact imageField image (lo := 0) (Nat.zero_le i) h1
  by_cases h2 : i < 224
  · simp only [if_neg h1]
    rw [if_pos (by omega), if_neg (by omega), if_neg (by omega), if_neg (by omega), Nat.zero_testBit]
    exact (decide_eq_false (by omega)).symm
  by_cases h3 : i < 240
  · rw [if_neg h1, if_neg (by omega), if_pos (by omega), if_neg h1, if_pos (by omega), Nat.testBit_mod_two_pow,
      decide_eq_true (by omega), Bool.true_and]
  by_cases h4 : i < 249
  · rw [if_neg h1, if_neg (by omega), if_neg (by omega), if_pos (by omega), if_neg h1, if_neg (by omega), if_pos (by omega)]
    exact imageField image (by omega) (by omega)
  by_cases h5 : i < 256
  · rw [if_neg h1, if_neg (by omega), if_neg (by omega), if_neg (by omega), if_pos (by omega), if_neg h1, if_neg (by omega),
      if_neg (by omega), if_neg (by omega), Nat.zero_testBit]
    exact (decide_eq_false (by omega)).symm
  by_cases h6 : i < 288
  · rw [if_neg h1, if_neg (by omega), if_neg (by omega), if_neg (by omega), if_neg (by omega), if_pos (by omega), if_neg h1,
      if_neg (by omega), if_pos (by omega)]
    exact imageField image (by omega) (by omega)
  rw [if_neg h1, if_neg (by omega), if_neg (by omega), if_neg (by omega), if_neg (by omega), if_neg (by omega)]
  simp only [if_neg h1, if_neg (show ¬ (224 ≤ i ∧ i < 240) by omega),
    if_neg (show ¬ (240 ≤ i ∧ i < 249 ∨ 256 ≤ i ∧ i < 288) by omega)]
  by_cases h7 : i < 384
  · rw [if_pos (by omega), if_neg (by omega), Nat.zero_testBit]
    exact (decide_eq_false (by omega)).symm
  by_cases h8 : i < 472
  · rw [if_neg (by omega), if_pos (by omega), if_neg (by omega)]
    exact Bool.eq_iff_iff.mpr (by rw [Nat.testBit_one_eq_true_iff_self_eq_zero, decide_eq_true_iff]; omega)
  by_cases h9 : i < 480
  · rw [if_neg (by omega), if_neg (by omega), if_pos (by omega)]
    rfl
  · rw [if_neg (by omega), if_neg (by omega), if_neg (by omega), decide_eq_false (by omega)]
    exact Nat.testBit_lt_two_pow (epoch.isLt.trans_le (Nat.pow_le_pow_right (by decide) (by omega)))

theorem recordHolds_unique {r image : VWord} {qid : Nat} {epoch : BitVec 8} (h : recordHolds r image qid epoch) :
    r = newRecord image qid epoch := by
  refine BitVec.eq_of_getLsbD_eq fun i hi => ?_
  rw [h i hi, newRecord_holds image qid epoch i hi]

end Sys2Proof.Claims
end

section
/-! PROOF. Continuation instructions (R22 to R24, R182 to R184). -/

namespace Sys2Proof.Claims
open Machine

/-! ### What leaves the core that moves -/

/-- The core that moves and which one it is are as before. -/
def sameCore (s t : State) : Prop := t.core = s.core ∧ t.focus = s.focus

theorem sameCore.refl (s : State) : sameCore s s := ⟨rfl, rfl⟩

theorem sameCore.trans {s t u : State} (h : sameCore s t) (k : sameCore t u) : sameCore s u :=
  ⟨k.1.trans h.1, k.2.trans h.2⟩

theorem sameCore_of_devOnly {s t : State} (h : DevOnly s t) : sameCore s t := ⟨h.core, h.focus⟩

theorem mapCluster_sameCore (s : State) (cl : Nat) (f : Cluster → Cluster) : sameCore s (s.mapCluster cl f) := ⟨rfl, rfl⟩

theorem drawn_sameCore (s : State) : sameCore s s.drawn := ⟨rfl, rfl⟩

theorem putRecord_sameCore (s : State) (va : Word) (r : VWord) : sameCore s (s.putRecord va r) :=
  sameCore_of_devOnly (putRecord_ok s va r).1

theorem mapQueue_sameCore (s : State) (qid : Nat) (f : Queue → Queue) : sameCore s (s.mapQueue qid f) := by
  unfold State.mapQueue
  split <;> exact ⟨rfl, rfl⟩

theorem showQueue_sameCore (s : State) (qid : Nat) : sameCore s (s.showQueue qid) := by
  unfold State.showQueue
  split
  · exact sameCore_of_devOnly (statusPut_ok _ _ _ _).1
  · exact sameCore.refl s

theorem freezeQueue_sameCore (s : State) (qid cause : Nat) : sameCore s (s.freezeQueue qid cause) := by
  unfold State.freezeQueue
  split
  · exact sameCore.refl s
  · split
    · exact (mapQueue_sameCore _ _ _).trans (showQueue_sameCore _ _)
    · exact sameCore.refl s

theorem signalPacket_sameCore (s : State) (qid seq st code : Nat) : sameCore s (s.signalPacket qid seq st code) := by
  unfold State.signalPacket
  split
  · exact sameCore.refl s
  · split
    · exact sameCore.refl s
    · have h (f : Queue → Queue) (va : Word) (bs : List Byte) : sameCore s ((s.mapQueue qid f).statusWrite hostAgent va bs) :=
        (mapQueue_sameCore s qid f).trans (sameCore_of_devOnly (statusWrite_ok _ hostAgent va bs).1)
      split
      · exact (h _ _ _).trans (freezeQueue_sameCore _ _ _)
      · exact h _ _ _

theorem signalRecord_sameCore (s : State) (va : Word) (final token : Nat) : sameCore s (s.signalRecord va final token) := by
  unfold State.signalRecord
  split
  · exact signalPacket_sameCore _ _ _ _ _
  · exact sameCore.refl s

theorem finishRetire_sameCore (fuel : Nat) : ∀ (s : State) (va : Word) (final : Nat), sameCore s (s.finishRetire fuel va final) := by
  induction fuel with
  | zero => exact fun s _ _ => sameCore.refl s
  | succ fuel ih =>
    intro s va final
    have hsignal (r : VWord) (token : Nat) : sameCore s ((s.putRecord va r).signalRecord va final token) :=
      (putRecord_sameCore s va r).trans (signalRecord_sameCore _ va final token)
    unfold State.finishRetire
    dsimp only
    split
    · exact hsignal _ _
    · split
      · exact (hsignal _ _).trans ((drawn_sameCore _).trans (putRecord_sameCore _ _ _))
      · split
        · exact (hsignal _ _).trans ((putRecord_sameCore _ _ _).trans (ih _ _ _))
        · exact (hsignal _ _).trans (putRecord_sameCore _ _ _)

theorem retire_sameCore (s : State) (va : Word) (final : Nat) : sameCore s (s.retire va final) := by
  have hfreeze : sameCore s (if final = 7 then s.freezeQueue (rQid (s.record va)) 1 else s) := by
    split
    · exact freezeQueue_sameCore _ _ _
    · exact sameCore.refl s
  unfold State.retire
  dsimp only
  split
  · exact hfreeze.trans (putRecord_sameCore _ _ _)
  · exact hfreeze.trans (finishRetire_sameCore _ _ _ _)

theorem failRecord_sameCore (s : State) (va : Word) (token : Nat) : sameCore s (s.failRecord va token) :=
  (putRecord_sameCore _ _ _).trans (retire_sameCore _ _ _)

theorem queueTail_sameCore (s : State) (va : Word) : sameCore s (s.queueTail va) :=
  (putRecord_sameCore s va _).trans (mapCluster_sameCore _ _ _)

theorem enqueue_sameCore (s : State) (va : Word) : sameCore s (s.enqueue va) := by
  unfold State.enqueue
  dsimp only
  split
  · exact retire_sameCore _ _ _
  · split
    · exact failRecord_sameCore _ _ _
    · exact queueTail_sameCore _ _

theorem leaveGang_sameCore (s : State) (cl core : Nat) (va : Word) (token : Nat) : sameCore s (s.leaveGang cl core va token) := by
  unfold State.leaveGang
  dsimp only
  split
  · exact sameCore.refl s
  · have hfirst (c : Prop) [Decidable c] : sameCore s (if c then s.putRecord va (setBits (s.record va) 400 16 token) else s) := by
      split
      · exact putRecord_sameCore _ _ _
      · exact sameCore.refl s
    split
    · exact (hfirst _).trans ((mapCluster_sameCore _ _ _).trans (retire_sameCore _ _ _))
    · exact (hfirst _).trans (mapCluster_sameCore _ _ _)

theorem create_sameCore (s : State) (va : Word) (image : VWord) (qid : Nat) (epoch : BitVec 8) :
    sameCore s (s.create va image qid epoch) := by
  unfold State.create
  dsimp only
  refine (putRecord_sameCore s va (newRecord image qid epoch)).trans (sameCore.trans ?_ (enqueue_sameCore _ _))
  split
  · exact sameCore.refl _
  · split
    · exact putRecord_sameCore _ _ _
    · exact (drawn_sameCore _).trans (putRecord_sameCore _ _ _)

/-! ### Records in memory -/

/-- A record at an aligned address is one line. -/
theorem piecesOf_line {va : Word} (h : va.toNat % 64 = 0) : piecesOf va 64 = [(va, 64)] := by
  rw [piecesOf, linePieces, if_neg (by decide), h]
  rfl

theorem putRecord_line {s w : State} {va : Word} {p : Place} (r : VWord) (h : va.toNat % 64 = 0)
    (hp : s.recordPlace va = some (p, w)) :
    s.putRecord va r = (w.topPartial p).engineBytes hostAgent p (bytesOf 64 r.toNat) := by
  rw [State.putRecord, piecesOf_line h, State.putRecordPieces, State.putRecordPieces, hp,
    List.take_of_length_le (by rw [bytesOf_length])]

theorem bytesOf_getD {n v i : Nat} (h : i < n) : (bytesOf n v).getD i 0 = BitVec.ofNat 8 (v / 256 ^ i) := by
  rw [bytesOf, List.getD_eq_getElem?_getD, List.getElem?_map, List.getElem?_range h]
  rfl

theorem engineBytes_byte (s : State) (a : Agent) (p : Place) {bs : List Byte} {i : Nat} (h : i < bs.length) :
    (s.engineBytes a p bs).dev.byte (p.loc + i) = bs.getD i 0 :=
  Device.store_byte_same s.dev p.loc i bs _ h

/-- A byte of a number. -/
theorem byte_eq_extract {w : Nat} (v : BitVec w) (i : Nat) : BitVec.ofNat 8 (v.toNat / 256 ^ i) = v.extractLsb' (8 * i) 8 := by
  refine BitVec.eq_of_toNat_eq ?_
  rw [BitVec.toNat_ofNat, BitVec.extractLsb'_toNat, Nat.shiftRight_eq_div_pow, Nat.pow_mul]

theorem putRecord_byte {s w : State} {va : Word} {p : Place} (r : VWord) (h : va.toNat % 64 = 0)
    (hp : s.recordPlace va = some (p, w)) {i : Nat} (hi : i < 64) :
    (s.putRecord va r).dev.byte (p.loc + i) = r.extractLsb' (8 * i) 8 := by
  rw [putRecord_line r h hp, engineBytes_byte _ _ _ (by rwa [bytesOf_length]), bytesOf_getD hi, byte_eq_extract]

/-! ### SPAWN -/

theorem exec_spawn (a b : Nat) (s : State) :
    exec (.spawn a b) s = commit s (do
      s.edgeGuard 1 0
      s.classRule [s.labX a, s.labX b]
      let t ← s.recordCheck (s.rdX a)
      let (image, t) ← t.imageRead (s.rdX b)
      .ok ((t.inheritBar s.core.crec (s.rdX a)).create (s.rdX a) image (rQid (s.record s.core.crec)) s.core.epoch).complete) :=
  rfl

theorem create_root {image r : VWord} {qid : Nat} {epoch : BitVec 8} (s : State) (va : Word)
    (hr : recordHolds r image qid epoch) (h : rParent image = 0) :
    s.create va image qid epoch = (s.putRecord va r).enqueue va := by
  obtain rfl := recordHolds_unique hr
  unfold State.create
  dsimp only
  rw [if_pos h]

theorem create_child {image r : VWord} {qid : Nat} {epoch : BitVec 8} (s : State) (va : Word)
    (hr : recordHolds r image qid epoch) (h : rParent image ≠ 0)
    (hheld : heldRecord ((s.putRecord va r).record (rParent image)) = true) :
    s.create va image qid epoch = ((s.putRecord va r).putRecord (rParent image)
      (setBits ((s.putRecord va r).record (rParent image)) 192 32
        (rJoin ((s.putRecord va r).record (rParent image)) + 1))).enqueue va := by
  obtain rfl := recordHolds_unique hr
  unfold State.create
  dsimp only
  rw [if_neg h, if_pos hheld]

/-! ### Leaving the core -/

theorem mapCoreAt_focus_core (s : State) (f : Core → Core) :
    (s.mapCoreAt s.focus.cl s.focus.core f).core = f s.core := by
  unfold State.mapCoreAt
  rw [if_pos]
  · rfl
  · exact decide_eq_true ⟨rfl, rfl⟩

/-- A core that loses its record keeps nothing of it (R22). -/
theorem vacate_vacated (s : State) : vacated (s.vacate s.focus.cl s.focus.core) := by
  have haside : ((s.releaseLease s.focus.cl s.focus.core).discardAside s.focus.cl s.focus.core).core =
      { s.core with aside := [], mfault := none } := mapCoreAt_focus_core (_ : State) _
  have hfocus : ((s.releaseLease s.focus.cl s.focus.core).discardAside s.focus.cl s.focus.core).focus = s.focus :=
    State.mapCoreAt_focus _ _ _ _
  unfold State.vacate
  generalize (s.releaseLease s.focus.cl s.focus.core).discardAside s.focus.cl s.focus.core = u at haside hfocus ⊢
  have hcore : ((u.mapCluster s.focus.cl fun k => k.cancelRuns s.focus.core).mapCoreAt s.focus.cl s.focus.core fun c =>
      { c.drain with record := none, gang := none, streams := [], popped := none, park := none, grants := [], loops := []
                     frozen := 0, edge := none, late := none }).core =
      { u.core.drain with record := none, gang := none, streams := [], popped := none, park := none, grants := [], loops := []
                          frozen := 0, edge := none, late := none } := by
    rw [← hfocus]
    exact mapCoreAt_focus_core (u.mapCluster u.focus.cl fun k => k.cancelRuns u.focus.core) _
  simp only [vacated]
  rw [hcore, haside]
  exact ⟨rfl, rfl, rfl, rfl, rfl, rfl, rfl⟩

theorem vacated_of_sameCore {s t : State} (h : sameCore s t) (hv : vacated s) : vacated t := by
  rwa [vacated, h.1]

/-- The record that a suspension point saves (R22). -/
def savedRecord (s : State) (wkind warg : Nat) : VWord :=
  let r := setBits (setBits (s.record s.core.crec) 0 64 s.core.issue.successor.toNat) 64 64
    (fileGet (by decide) s.core.regs.x 4).toNat
  setBits (setBits (setBits r 448 32 (fileGet (by decide) s.core.regs.xl 4).toNat) 380 4 wkind) 320 60 warg

theorem savedRecord_bits (s : State) (wkind warg : Nat) {i : Nat} (hi : i < 512) :
    (savedRecord s wkind warg).getLsbD i = savedBits s wkind warg i := by
  unfold savedRecord savedBits x xl
  simp only [setBits_getLsbD _ _ hi, successor_eq, BitVec.testBit_toNat, Nat.sub_zero, Nat.zero_le, true_and, Nat.zero_add,
    Nat.reduceAdd]
  by_cases h1 : i < 64
  · simp only [h1, if_true, if_neg (show ¬ (320 ≤ i ∧ i < 380) by omega), if_neg (show ¬ (380 ≤ i ∧ i < 384) by omega),
      if_neg (show ¬ (448 ≤ i ∧ i < 480) by omega), if_neg (show ¬ (64 ≤ i ∧ i < 128) by omega)]
  by_cases h2 : i < 128
  · simp only [h1, h2, if_true, if_false, if_neg (show ¬ (320 ≤ i ∧ i < 380) by omega),
      if_neg (show ¬ (380 ≤ i ∧ i < 384) by omega), if_neg (show ¬ (448 ≤ i ∧ i < 480) by omega),
      if_pos (show 64 ≤ i ∧ True from ⟨by omega, trivial⟩)]
  · simp only [h1, h2, if_false, and_false]

/-- A suspension by the record that it saves (R22). -/
theorem suspend_eq (s : State) (wkind warg : Nat) :
    let u := s.putRecord s.core.crec (savedRecord s wkind warg)
    let q := setBits (u.record s.core.crec) 384 4 3
    let v := ((u.putRecord s.core.crec q).mapCore Core.dropUpcalls).vacate s.focus.cl s.focus.core
    s.suspend wkind warg = if wkind = 0 then v.enqueue s.core.crec
      else v.mapCluster (rLclu q) fun k => { k with suspended := k.suspended ++ [s.core.crec] } := by
  have hsave : s.savePoint wkind warg = s.putRecord s.core.crec (savedRecord s wkind warg) := rfl
  have hfocus (r q : VWord) : (((s.putRecord s.core.crec r).putRecord s.core.crec q).mapCore Core.dropUpcalls).focus = s.focus :=
    ((putRecord_sameCore _ _ _).trans (putRecord_sameCore _ _ _)).2
  unfold State.suspend
  dsimp only
  rw [hsave, hfocus]

theorem suspend_suspendedAs (s : State) (wkind warg : Nat) : suspendedAs s (s.suspend wkind warg) wkind warg := by
  refine ⟨savedRecord s wkind warg, _, _, fun i hi => savedRecord_bits s wkind warg hi, fun i hi => ?_, rfl, suspend_eq s wkind warg⟩
  rw [setBits_getLsbD _ _ hi]
  by_cases h : 384 ≤ i ∧ i < 388
  · rw [if_pos h, if_pos h]
    have hbits : ∀ j < 4, (3 : Nat).testBit j = decide (j < 2) := by decide
    rw [hbits (i - 384) (by omega), decide_eq_decide]
    omega
  · rw [if_neg h, if_neg h]

theorem vacate_dropped_vacated {s u : State} (h : sameCore s u) :
    vacated ((u.mapCore Core.dropUpcalls).vacate s.focus.cl s.focus.core) := by
  have hfocus : (u.mapCore Core.dropUpcalls).focus = s.focus := h.2
  rw [← hfocus]
  exact vacate_vacated _

theorem suspend_vacated (s : State) (wkind warg : Nat) : vacated (s.suspend wkind warg) := by
  have hput (r q : VWord) := vacate_dropped_vacated
    ((putRecord_sameCore s s.core.crec r).trans (putRecord_sameCore _ s.core.crec q))
  have heq := suspend_eq s wkind warg
  dsimp only at heq
  rw [heq]
  split
  · exact vacated_of_sameCore (enqueue_sameCore _ _) (hput _ _)
  · exact hput _ _

/-- A record that is suspended waits in its cluster (R24). -/
theorem suspend_waits (s : State) {wkind : Nat} (warg : Nat) (h : wkind ≠ 0) :
    ∃ cl, s.core.crec ∈ ((s.suspend wkind warg).cluster cl).suspended := by
  have heq := suspend_eq s wkind warg
  dsimp only at heq
  rw [heq, if_neg h]
  refine ⟨rLclu (setBits ((s.putRecord s.core.crec (savedRecord s wkind warg)).record s.core.crec) 384 4 3), ?_⟩
  rw [State.cluster_mapCluster_same]
  exact List.mem_append_right _ List.mem_cons_self

/-! ### The checks of a suspension point -/

theorem suspendCheck_passes {s : State} (hi : s.core.status.inup = false) (hl : s.core.loops = []) : s.suspendCheck = .ok () := by
  rw [State.suspendCheck, hi, hl]
  rfl

theorem suspendCheck_inup {s : State} (h : s.core.status.inup = true) : s.suspendCheck = .error (s.illegal 13 0) := by
  rw [State.suspendCheck, h]
  rfl

theorem suspendCheck_loops {s : State} (hi : s.core.status.inup = false) (h : s.core.loops ≠ []) :
    s.suspendCheck = .error (s.trap .loopsusp 0 0) := by
  have hne : s.core.loops.isEmpty = false := by simpa using h
  rw [State.suspendCheck, hi, hne]
  rfl

theorem gangCheck_free {s : State} (h : s.core.gang = none) : s.gangCheck = .ok () := by
  rw [State.gangCheck, h]
  rfl

theorem gangCheck_member {s : State} (h : s.core.gang ≠ none) : s.gangCheck = .error (s.illegal 13 0) := by
  rw [State.gangCheck, if_pos (Option.isSome_iff_ne_none.mpr h)]

theorem exec_join (s : State) :
    exec .join s = commit s (do
      s.gangCheck
      if rJoin (s.record s.core.crec) = 0 then .ok s.complete
      else
        s.suspendCheck
        .ok (s.drain.suspend 3 0)) := rfl

theorem exec_yield (s : State) :
    exec .yield s = commit s (do
      s.gangCheck
      s.suspendCheck
      .ok (s.drain.suspend 0 0)) := rfl

theorem exec_suspt (a : Nat) (s : State) :
    exec (.suspt a) s = commit s (do
      s.gangCheck
      s.drain.classRule [s.drain.labX a]
      if (s.drain.rdX a).toNat / 2 ^ 60 ≠ 0 then .error (s.illegal 9 0)
      s.suspendCheck
      .ok (s.drain.suspend 2 (s.drain.rdX a).toNat)) := rfl

theorem exec_suspk (k a d : Nat) (s : State) :
    exec (.suspk k a d) s = commit s (do
      s.gangCheck
      s.drain.classRule [s.drain.labX a, s.drain.labX d]
      let c ← (if d = 0 then .ok s.focus.core else s.drain.coreOperand (s.drain.rdX d))
      s.suspendCheck
      .ok (s.drain.suspend 1 (bitsAt (s.drain.rdX a) 0 31 + k * 2 ^ 32 + c * 2 ^ 40))) := rfl

/-- What a core that has finished leaves its record to (R19, R184). -/
def finished (s : State) (a : Nat) : State :=
  let token := if a = 0 then 0 else bitsAt (s.drain.rdX a) 0 16
  let t := ((s.drain.savePoint 0 0).mapCore Core.dropUpcalls).vacate s.focus.cl s.focus.core
  if s.core.gang.isSome then t.leaveGang s.focus.cl s.focus.core s.core.crec token
  else if a ≠ 0 then t.failRecord s.core.crec token
  else t.retire s.core.crec (if rToken (t.record s.core.crec) = 0 then 5 else 6)

theorem exec_finish (a : Nat) (s : State) :
    exec (.finish a) s = commit s (do
      s.edgeGuard 1 0
      if a ≠ 0 ∧ s.core.status.mode = .u then .error (s.trap .priv 0 0)
      if a ≠ 0 ∧ (if a = 0 then 0 else bitsAt (s.drain.rdX a) 0 16) / 2 ^ 15 = 0 then .error (s.illegal 9 0)
      s.suspendCheck
      if s.core.gang.isSome then .ok ((((s.drain.savePoint 0 0).mapCore Core.dropUpcalls).vacate s.focus.cl
        s.focus.core).leaveGang s.focus.cl s.focus.core s.core.crec (if a = 0 then 0 else bitsAt (s.drain.rdX a) 0 16))
      else if a ≠ 0 then .ok ((((s.drain.savePoint 0 0).mapCore Core.dropUpcalls).vacate s.focus.cl
        s.focus.core).failRecord s.core.crec (if a = 0 then 0 else bitsAt (s.drain.rdX a) 0 16))
      else .ok ((((s.drain.savePoint 0 0).mapCore Core.dropUpcalls).vacate s.focus.cl s.focus.core).retire s.core.crec
        (if rToken ((((s.drain.savePoint 0 0).mapCore Core.dropUpcalls).vacate s.focus.cl s.focus.core).record s.core.crec) = 0
          then 5 else 6))) := rfl

theorem finished_vacated (s : State) (a : Nat) : vacated (finished s a) := by
  have hput := vacate_dropped_vacated (putRecord_sameCore s.drain s.drain.core.crec (savedRecord s.drain 0 0))
  unfold finished
  dsimp only
  split
  · exact vacated_of_sameCore (leaveGang_sameCore _ _ _ _ _) hput
  · split
    · exact vacated_of_sameCore (failRecord_sameCore _ _ _) hput
    · exact vacated_of_sameCore (retire_sameCore _ _ _) hput

/-- FINISH whose register, if it names one, holds a token in S mode. -/
def finishPasses (s : State) (a : Nat) : Prop := a ≠ 0 → s.core.status.mode = .s ∧ (s.drain.rdX a).getLsbD 15 = true

theorem token_bit (v : Word) : bitsAt v 0 16 / 2 ^ 15 = 0 ↔ v.getLsbD 15 = false := by
  have hbit : v.getLsbD 15 = decide (v.toNat / 2 ^ 15 % 2 = 1) := by
    rw [BitVec.getLsbD, Nat.testBit_eq_decide_div_mod_eq]
  rw [hbit, bitsAt_low, decide_eq_false_iff_not]
  omega

theorem exec_finish_passes {s : State} {a : Nat} (hp : plainCore s) (h : finishPasses s a) :
    exec (.finish a) s = commit s (do
      s.suspendCheck
      .ok (finished s a)) := by
  have hmode : ¬ (a ≠ 0 ∧ s.core.status.mode = .u) := by
    rintro ⟨ha, hu⟩
    rw [(h ha).1] at hu
    cases hu
  have htoken : ¬ (a ≠ 0 ∧ (if a = 0 then 0 else bitsAt (s.drain.rdX a) 0 16) / 2 ^ 15 = 0) := by
    rintro ⟨ha, ht⟩
    rw [if_neg ha, token_bit, (h ha).2] at ht
    cases ht
  rw [exec_finish, edgeGuard_plain hp, except_bind_ok, if_neg hmode, if_neg htoken]
  unfold finished
  dsimp only
  cases s.suspendCheck with
  | error e => rfl
  | ok _ =>
    simp only [except_bind_ok]
    split
    · rfl
    · split <;> rfl

theorem suspt_range {v : Word} : v.toNat / 2 ^ 60 ≠ 0 ↔ 2 ^ 60 ≤ v.toNat := by omega

/-- The core that SUSPK waits on (R182). -/
theorem suspk_core {s : State} {d : Nat}
    (hd : d = 0 ∨ ((s.drain.rdX d).toNat < 192 ∧ s.ctx.mapped s.focus.cl (s.drain.rdX d).toNat = true)) :
    (if d = 0 then .ok s.focus.core else s.drain.coreOperand (s.drain.rdX d) : Result Nat) =
      .ok (if d = 0 then s.focus.core else (s.drain.rdX d).toNat) := by
  by_cases h0 : d = 0
  · rw [if_pos h0, if_pos h0]
  · obtain ⟨hlt, hmapped⟩ := hd.resolve_left h0
    rw [if_neg h0, if_neg h0]
    exact coreOperand_mapped hlt hmapped

/-- A suspension point whose own checks pass goes on to those on the upcall and the loop stack (R23). -/
theorem exec_mayLeave {s : State} {a d k : Nat} {i : Instr} (hp : plainCore s) (h : mayLeave s a d k i) :
    ∃ r : Result State, exec i s = commit s (s.suspendCheck >>= fun _ => r) := by
  rcases h with rfl | ⟨rfl, hm, ht⟩ | ⟨hg, rfl | ⟨rfl, hj⟩ | ⟨rfl, hc, hr⟩ | ⟨rfl, hc, hd⟩⟩
  · exact ⟨_, exec_finish_passes hp fun h0 => absurd rfl h0⟩
  · exact ⟨_, exec_finish_passes hp fun _ => ⟨hm, ht⟩⟩
  · exact ⟨_, by rw [exec_yield, gangCheck_free hg, except_bind_ok]⟩
  · exact ⟨_, by rw [exec_join, gangCheck_free hg, except_bind_ok, if_neg hj]⟩
  · refine ⟨.ok (s.drain.suspend 2 (s.drain.rdX a).toNat), ?_⟩
    rw [exec_suspt, gangCheck_free hg, except_bind_ok, classRule_of_passes hc, except_bind_ok,
      if_neg (by rw [suspt_range, Nat.not_le]; exact hr)]
  · exact ⟨_, by rw [exec_suspk, gangCheck_free hg, except_bind_ok, classRule_of_passes hc, except_bind_ok, suspk_core hd,
      except_bind_ok]⟩

end Sys2Proof.Claims

namespace Sys2Proof
open Machine Claims

/-- Settles O18: a record created has the bits of R11, and a suspension point leaves its record to the dispatcher. -/
theorem continuations : Obligations.Continuations := by
  unfold Obligations.Continuations
  intro s a b d k _ _ _ _ hp
  have hspawn := exec_spawn a b s
  rw [edgeGuard_plain hp, except_bind_ok] at hspawn
  refine ⟨fun u v image hclass hcheck hread => ?_, fun u va image r qid epoch hr => ⟨create_root u va hr, fun n hne hheld hn => ?_⟩,
    fun u w va r p i hva hplace hi => putRecord_byte r hva hplace hi, fun hgang hjoin => ?_, fun hinup hloops => ⟨?_, fun hm ha ht => ?_,
    fun hgang => ⟨fun hjoin => ?_, fun hclass hd => ?_, fun hclass hr => ?_, ?_⟩⟩, fun i hleave => ⟨fun hinup => ?_,
    fun hinup hloops => ?_⟩, fun hgang i hi => ?_, fun hm ha ht => ?_, fun hgang => ⟨fun hclass hr => ?_, fun hclass hd hr => ?_,
    fun hclass => ?_, fun hclass => ?_⟩, fun hclass => ?_⟩
  · refine ⟨_, ?_, rfl, ?_⟩
    · rw [hspawn, classRule_of_passes hclass, except_bind_ok, hcheck, except_bind_ok, hread, except_bind_ok, commit_ok]
    · rw [State.complete_core, Core.complete_regs, (create_sameCore _ _ _ _ _).1]
      rfl
  · rw [hn]
    exact create_child u va hr hne hheld
  · refine ⟨_, ?_, passed_complete s⟩
    rw [exec_join, gangCheck_free hgang, except_bind_ok, if_pos hjoin, commit_ok]
  · refine ⟨_, ?_, finished_vacated s 0⟩
    rw [exec_finish_passes hp fun h0 => absurd rfl h0, suspendCheck_passes hinup hloops, except_bind_ok, commit_ok]
  · refine ⟨_, ?_, finished_vacated s a⟩
    rw [exec_finish_passes hp fun _ => ⟨hm, ht⟩, suspendCheck_passes hinup hloops, except_bind_ok, commit_ok]
  · refine ⟨_, ?_, suspend_suspendedAs s.drain 3 0, suspend_vacated s.drain 3 0⟩
    rw [exec_join, gangCheck_free hgang, except_bind_ok, if_neg hjoin, suspendCheck_passes hinup hloops, except_bind_ok, commit_ok]
  · have hexec := exec_suspk k a d s
    rw [gangCheck_free hgang, except_bind_ok, classRule_of_passes hclass, except_bind_ok, suspk_core hd, except_bind_ok,
      suspendCheck_passes hinup hloops, except_bind_ok, commit_ok, bitsAt_low] at hexec
    exact ⟨_, hexec, suspend_vacated s.drain 1 _, suspend_waits s.drain _ (by decide), suspend_suspendedAs s.drain 1 _⟩
  · have hexec := exec_suspt a s
    rw [gangCheck_free hgang, except_bind_ok, classRule_of_passes hclass, except_bind_ok, if_neg (by rw [suspt_range]; omega),
      suspendCheck_passes hinup hloops] at hexec
    exact ⟨_, hexec, suspend_vacated s.drain 2 _, suspend_waits s.drain _ (by decide), suspend_suspendedAs s.drain 2 _⟩
  · refine ⟨_, ?_, suspend_vacated s.drain 0 0, suspend_suspendedAs s.drain 0 0⟩
    rw [exec_yield, gangCheck_free hgang, except_bind_ok, suspendCheck_passes hinup hloops, except_bind_ok, commit_ok]
  · obtain ⟨r, hexec⟩ := exec_mayLeave hp hleave
    exact traps_of_commit hexec (by rw [suspendCheck_inup hinup, except_bind_error, illegal_eq])
  · obtain ⟨r, hexec⟩ := exec_mayLeave hp hleave
    exact traps_of_commit hexec (by rw [suspendCheck_loops hinup hloops, except_bind_error])
  · have hstop := gangCheck_member hgang
    simp only [List.mem_cons, List.not_mem_nil, or_false] at hi
    rcases hi with rfl | rfl | rfl | rfl
    · exact traps_of_commit (exec_join s) (by rw [hstop, except_bind_error, illegal_eq])
    · exact traps_of_commit (exec_yield s) (by rw [hstop, except_bind_error, illegal_eq])
    · exact traps_of_commit (exec_suspt a s) (by rw [hstop, except_bind_error, illegal_eq])
    · exact traps_of_commit (exec_suspk k a d s) (by rw [hstop, except_bind_error, illegal_eq])
  · refine traps_of_commit (exec_finish a s) ?_
    rw [edgeGuard_plain hp, except_bind_ok, if_neg (fun h => by rw [hm] at h; cases h.2), if_pos ⟨ha, by rwa [if_neg ha, token_bit]⟩]
    rfl
  · refine traps_of_commit (exec_suspt a s) ?_
    rw [gangCheck_free hgang, except_bind_ok, classRule_of_passes hclass, except_bind_ok, if_pos (suspt_range.mpr hr)]
    rfl
  · refine traps_of_commit (exec_suspk k a d s) ?_
    rw [gangCheck_free hgang, except_bind_ok, classRule_of_passes hclass, except_bind_ok, if_neg hd, coreOperand_beyond hr]
    rfl
  · refine traps_of_commit (exec_suspt a s) ?_
    rw [gangCheck_free hgang, except_bind_ok, classRule_one hclass]
    rfl
  · refine traps_of_commit (exec_suspk k a d s) ?_
    rw [gangCheck_free hgang, except_bind_ok, classRule_two hclass]
    rfl
  · exact traps_of_commit hspawn (by rw [classRule_two hclass, except_bind_error])

end Sys2Proof
end

section
/-! PROOF. Labels formed read back (R200 to R206, R209 to R211): Minimise gives lists in the canonical order, a part of which it
leaves alone, and the handle of a formed label names what was entered. -/

namespace Sys2Proof.Claims
open Machine

/-! ### The canonical order -/

theorem envBefore_iff (a b : Env) :
    envBefore a b = true ↔ envSize a < envSize b ∨ (envSize a = envSize b ∧ a.toNat < b.toNat) := by
  simp only [envBefore, Bool.or_eq_true, Bool.and_eq_true, decide_eq_true_iff]

theorem envBefore_trans {a b c : Env} (h : envBefore a b = true) (k : envBefore b c = true) : envBefore a c = true := by
  rw [envBefore_iff] at *
  omega

theorem envBefore_of_not {a b : Env} (hne : a ≠ b) (h : ¬ envBefore a b = true) : envBefore b a = true := by
  have hval : a.toNat ≠ b.toNat := fun heq => hne (BitVec.eq_of_toNat_eq heq)
  rw [envBefore_iff] at *
  omega

/-- The environments are in the canonical order, each once (R200). -/
def ordered (l : Label) : Prop := l.Pairwise fun a b => envBefore a b = true

theorem mem_insertEnv (e x : Env) (l : Label) : x ∈ insertEnv e l ↔ x = e ∨ x ∈ l := by
  induction l with
  | nil => simp [insertEnv]
  | cons f t ih =>
    rw [insertEnv]
    split
    · next heq => simp [heq]
    · split
      · simp
      · rw [List.mem_cons, ih, List.mem_cons]
        exact or_left_comm

theorem insertEnv_ordered (e : Env) {l : Label} (h : ordered l) : ordered (insertEnv e l) := by
  induction l with
  | nil => exact List.pairwise_singleton _ _
  | cons f t ih =>
    obtain ⟨hf, ht⟩ := List.pairwise_cons.mp h
    rw [insertEnv]
    split
    · exact h
    · next hne =>
      split
      · next hbefore =>
        refine List.pairwise_cons.mpr ⟨fun x hx => ?_, h⟩
        rcases List.mem_cons.mp hx with rfl | hx
        · exact hbefore
        · exact envBefore_trans hbefore (hf x hx)
      · next hafter =>
        refine List.pairwise_cons.mpr ⟨fun x hx => ?_, ih ht⟩
        rcases (mem_insertEnv e x t).mp hx with rfl | hx
        · exact envBefore_of_not hne hafter
        · exact hf x hx

/-- The environments of a list in the canonical order. -/
def sorted (l : Label) : Label := l.foldr insertEnv []

theorem mem_sorted (x : Env) (l : Label) : x ∈ sorted l ↔ x ∈ l := by
  induction l with
  | nil => exact Iff.rfl
  | cons e t ih =>
    rw [sorted, List.foldr_cons, mem_insertEnv, List.mem_cons]
    exact or_congr_right ih

theorem sorted_ordered (l : Label) : ordered (sorted l) := by
  induction l with
  | nil => exact List.Pairwise.nil
  | cons e t ih => exact insertEnv_ordered e ih

theorem sorted_of_ordered {l : Label} (h : ordered l) : sorted l = l := by
  induction l with
  | nil => rfl
  | cons e t ih =>
    obtain ⟨he, ht⟩ := List.pairwise_cons.mp h
    rw [sorted, List.foldr_cons]
    rw [show t.foldr insertEnv [] = t from ih ht]
    cases t with
    | nil => rfl
    | cons f t =>
      have hbefore := he f List.mem_cons_self
      have hne : e ≠ f := by
        rintro rfl
        rw [envBefore_iff] at hbefore
        omega
      rw [insertEnv, if_neg hne, if_pos hbefore]

/-! ### Minimise -/

/-- The environments that no nogood is part of (R205). -/
def liveEnvs (nogoods : List Env) (s : Label) : Label := s.filter fun e => !nogoods.any fun n => envSubset n e

/-- The environments of which no other is part. -/
def leastEnvs (live : Label) : Label := live.filter fun e => !live.any fun f => envSubset f e && decide (f ≠ e)

theorem minimise_eq (nogoods : List Env) (s : Label) : minimise nogoods s = sorted (leastEnvs (liveEnvs nogoods s)) := rfl

theorem minimise_ordered (nogoods : List Env) (s : Label) : ordered (minimise nogoods s) := sorted_ordered _

/-- Minimise leaves a part of what it gave alone: no nogood is part of its environments, and none of them of another. -/
theorem minimise_part {nogoods : List Env} {l m : Label} (hsub : ∀ e ∈ m, e ∈ minimise nogoods l) (hm : ordered m) :
    minimise nogoods m = m := by
  have hmem : ∀ e ∈ m, e ∈ leastEnvs (liveEnvs nogoods l) := fun e he => (mem_sorted e _).mp (hsub e he)
  have hlive : liveEnvs nogoods m = m := by
    refine List.filter_eq_self.mpr fun e he => ?_
    exact (List.mem_filter.mp (List.mem_filter.mp (hmem e he)).1).2
  have hleast : leastEnvs m = m := by
    refine List.filter_eq_self.mpr fun e he => ?_
    have hnone := (List.mem_filter.mp (hmem e he)).2
    rw [Bool.not_eq_true', List.any_eq_false] at hnone ⊢
    exact fun f hf => hnone f (List.mem_filter.mp (hmem f hf)).1
  rw [minimise_eq, hlive, hleast, sorted_of_ordered hm]

theorem minimise_take (nogoods : List Env) (l : Label) (n : Nat) :
    minimise nogoods ((minimise nogoods l).take n) = (minimise nogoods l).take n :=
  minimise_part (fun _ he => List.mem_of_mem_take he) (List.Pairwise.sublist (List.take_sublist ..) (minimise_ordered nogoods l))

/-! ### Label words -/

theorem mkWord_toNat (e : BitVec 8) (b : Bool) (h : Nat) :
    (mkWord e b h).toNat = e.toNat * 2 ^ 24 + oneBit b * 2 ^ 16 + h % 2 ^ 16 := by
  have he := e.isLt
  have hb : oneBit b ≤ 1 := by cases b <;> decide
  rw [mkWord, BitVec.toNat_ofNat]
  omega

theorem lwEpoch_mkWord (e : BitVec 8) (b : Bool) (h : Nat) : lwEpoch (mkWord e b h) = e := by
  have hb : oneBit b ≤ 1 := by cases b <;> decide
  refine BitVec.eq_of_toNat_eq ?_
  rw [lwEpoch, BitVec.extractLsb'_toNat, Nat.shiftRight_eq_div_pow, mkWord_toNat]
  have he := e.isLt
  omega

theorem lwHandle_mkWord (e : BitVec 8) (b : Bool) (h : Nat) : lwHandle (mkWord e b h) = h % 2 ^ 16 := by
  rw [lwHandle, BitVec.extractLsb'_toNat, Nat.shiftRight_eq_div_pow, mkWord_toNat]
  omega

theorem lwP_mkWord (e : BitVec 8) (b : Bool) (h : Nat) : lwP (mkWord e b h) = b := by
  have hbit : lwP (mkWord e b h) = decide ((mkWord e b h).toNat / 2 ^ 16 % 2 = 1) := by
    rw [lwP, BitVec.getLsbD, Nat.testBit_eq_decide_div_mod_eq]
  rw [hbit, mkWord_toNat]
  cases b <;> simp only [oneBit] <;> simp <;> omega

/-! ### Entries of the label table -/

/-- An entry that is found stands at its place (R203). -/
theorem findEntry_some {epoch : BitVec 8} {l : Label} {table : List (BitVec 8 × Label)} {i n : Nat}
    (h : findEntry epoch l table i = some n) : ∃ k, n = i + k ∧ table[k]? = some (epoch, l) := by
  induction table generalizing i with
  | nil => cases h
  | cons e t ih =>
    obtain ⟨e, m⟩ := e
    rw [findEntry] at h
    split at h
    · next heq =>
      obtain ⟨rfl, rfl⟩ := heq
      cases h
      exact ⟨0, rfl, rfl⟩
    · obtain ⟨k, rfl, hk⟩ := ih h
      exact ⟨k + 1, by omega, hk⟩

theorem findEntry_none {epoch : BitVec 8} {l : Label} {table : List (BitVec 8 × Label)} (i : Nat)
    (h : (epoch, l) ∉ table) : findEntry epoch l table i = none := by
  induction table generalizing i with
  | nil => rfl
  | cons e t ih =>
    obtain ⟨e, m⟩ := e
    rw [findEntry, if_neg]
    · exact ih _ fun hm => h (List.mem_cons_of_mem _ hm)
    · rintro ⟨rfl, rfl⟩
      exact h List.mem_cons_self

/-- The handle of a label entered names it in the new table (R202, R203). -/
theorem enter_reads {w w' : World} {epoch : BitVec 8} {l : Label} {h : Nat} (k : w.enter epoch l = .ok (h, w'))
    (hlen : w.table.length ≤ Config.handles) : w'.readWord epoch (mkWord epoch false h) = l := by
  have hhandles : Config.handles = 65534 := rfl
  have hword (n : Nat) (hn : n < 2 ^ 16) : mkWord epoch false n = 0 → n = 0 := by
    intro hz
    have hsum := congrArg BitVec.toNat hz
    rw [mkWord_toNat] at hsum
    have hzero : BitVec.toNat (0 : LabelWord) = 0 := rfl
    omega
  have hentry (k : Nat) (hk : w'.table[k]? = some (epoch, l)) (hlt : k < 65534) :
      w'.readWord epoch (mkWord epoch false (k + 1)) = l := by
    have hmod : (k + 1) % 2 ^ 16 = k + 1 := Nat.mod_eq_of_lt (by omega)
    rw [World.readWord, lwEpoch_mkWord, lwHandle_mkWord, hmod, if_neg fun hz => absurd (hword (k + 1) (by omega) hz) (by omega),
      if_neg (fun hne => hne rfl), if_neg (by omega), if_neg (by omega), World.entry, Nat.add_sub_cancel, hk]
    exact if_pos rfl
  unfold World.enter at k
  split at k
  · next hbot =>
    cases k
    rw [World.readWord, lwEpoch_mkWord, lwHandle_mkWord, if_neg fun hz => absurd (hword 0xFFFF (by decide) hz) (by decide),
      if_neg (fun hne => hne rfl), if_neg (by decide), if_pos (by decide), hbot]
  · split at k
    · next htop =>
      cases k
      rw [World.readWord, lwEpoch_mkWord, lwHandle_mkWord, htop]
      split
      · rfl
      · rw [if_neg (fun hne => hne rfl), if_pos (by decide)]
    · split at k
      · next hfound =>
        cases k
        obtain ⟨j, rfl, hj⟩ := findEntry_some hfound
        rw [Nat.add_comm]
        exact hentry j hj (by have := (List.getElem?_eq_some_iff.mp hj).1; omega)
      · split at k
        · next hroom =>
          cases k
          exact hentry w.table.length (by simp) (by omega)
        · cases k

theorem enter_extra {w w' : World} {epoch : BitVec 8} {l : Label} {h : Nat} (k : w.enter epoch l = .ok (h, w')) :
    ∃ extra, w' = { w with table := w.table ++ extra } ∧ extra.length ≤ 1 := by
  rcases enter_ok k with rfl | ⟨rfl, -⟩
  · exact ⟨[], by simp, Nat.zero_le _⟩
  · exact ⟨_, rfl, Nat.le_refl _⟩

/-- A label that fits is what Minimise leaves, the first XMAX environments of it with OVF (R210). -/
theorem fitLabel_ok {c : LabelCfg} {l m : Label} {dropped : Bool} (h : fitLabel c l = .ok (m, dropped)) :
    m = l.take (min c.xmax l.length) ∧ (c.ovf = false → m = l) := by
  unfold fitLabel at h
  split at h
  · next hle =>
    cases h
    rw [Nat.min_eq_right hle, List.take_length]
    exact ⟨rfl, fun _ => rfl⟩
  · next hgt =>
    split at h
    · next hovf =>
      cases h
      rw [Nat.min_eq_left (by omega)]
      exact ⟨rfl, fun hf => by rw [hf] at hovf; cases hovf⟩
    · cases h

/-- A label formed in a world reads back there (R206, R210). -/
theorem form_reads {w w' : World} {c : LabelCfg} {l : Label} {lw : LabelWord} {dropped : Bool}
    (h : w.form c l = .ok (lw, w', dropped)) (hlen : w.table.length ≤ Config.handles) :
    w'.eval c.epoch lw = (minimise w.nogoods l).take (min c.xmax (minimise w.nogoods l).length) ∧
      (c.ovf = false → w'.eval c.epoch lw = minimise w.nogoods l) ∧ lwP lw = false ∧ lwEpoch lw = c.epoch ∧
      ∃ extra, w' = { w with table := w.table ++ extra } ∧ extra.length ≤ 1 := by
  unfold World.form at h
  split at h
  · cases h
  · next m dropped' hfit =>
    obtain ⟨hm, hall⟩ := fitLabel_ok hfit
    split at h
    · cases h
    · next handle world henter =>
      cases h
      obtain ⟨extra, hworld, hextra⟩ := enter_extra henter
      have heval : w'.eval c.epoch (mkWord c.epoch false handle) = m := by
        rw [World.eval, enter_reads henter hlen, hworld, hm]
        exact minimise_take _ _ _
      exact ⟨heval.trans hm, fun hovf => heval.trans (hall hovf), lwP_mkWord _ _ _, lwEpoch_mkWord _ _ _, extra, hworld, hextra⟩

/-- A label that a core forms is formed in its world, which is all of the context that changes (R209). -/
theorem formLabel_form {s t : State} {wide : Bool} {l : Label} {w : LabelWord} (h : s.formLabel wide l = .ok (w, t)) :
    ∃ dropped, s.ctx.world.form s.labelCfg l = .ok (w, t.ctx.world, dropped) ∧ t.core.epoch = s.core.epoch ∧
      t.ctx = { s.ctx with world := t.ctx.world } := by
  unfold State.formLabel at h
  split at h
  · cases h
  · cases h
  · next w' world dropped hform =>
    dsimp only at h
    split at h
    · cases h
      exact ⟨dropped, hform, rfl, rfl⟩
    · cases h
      exact ⟨dropped, hform, rfl, rfl⟩

end Sys2Proof.Claims

namespace Sys2Proof
open Machine Claims

/-- Settles O25: what Minimise leaves is entered in canonical order, and Minimise leaves a part of it alone. -/
theorem formedLabelReadsBack : Obligations.FormedLabelReadsBack := by
  unfold Obligations.FormedLabelReadsBack
  refine ⟨fun s wide l m hm => ⟨fun hovf hmany => ?_, fun hfits hbot htop hnew hfull => ?_⟩, fun s t wide l w h hlen => ?_⟩
  · have hfit : fitLabel s.labelCfg (minimise s.ctx.world.nogoods l) = .error (.ovf m.length) := by
      rw [← hm, fitLabel, if_neg (show ¬ m.length ≤ s.labelCfg.xmax from Nat.not_le.mpr hmany)]
      exact if_neg (by rw [State.labelCfg, hovf]; exact Bool.false_ne_true)
    have hform : s.ctx.world.form s.labelCfg l = .error (.ovf m.length) := by rw [World.form, hfit]
    rw [State.formLabel, hform]
    rfl
  · have hfit : fitLabel s.labelCfg (minimise s.ctx.world.nogoods l) = .ok (m, false) := by
      rw [← hm, fitLabel]
      exact if_pos hfits
    have henter : s.ctx.world.enter s.labelCfg.epoch m = .error .tab := by
      rw [World.enter, if_neg (show m ≠ botLabel from hbot), if_neg htop, show findEntry s.labelCfg.epoch m s.ctx.world.table 1 = none from findEntry_none 1 hnew]
      exact if_neg (Nat.not_lt.mpr hfull)
    have hform : s.ctx.world.form s.labelCfg l = .error .tab := by
      rw [World.form, hfit]
      simp only [henter]
    rw [State.formLabel, hform]
    rfl
  · obtain ⟨dropped, hform, hepoch, hctx⟩ := formLabel_form h
    obtain ⟨hfirst, hall, hp, he, extra, hworld, hextra⟩ := form_reads hform hlen
    have heval : t.eval w = t.ctx.world.eval s.labelCfg.epoch w := by rw [State.eval, hepoch]; rfl
    refine ⟨heval.trans hfirst, fun hovf => heval.trans (hall hovf), hp, he, extra, ?_, hextra⟩
    rw [hctx, hworld]

end Sys2Proof
end

section
/-! PROOF. Label instructions (R226 to R231, R234, R235), CONTRA and WRESET (R224, R225, R232, R233, R236). -/

namespace Sys2Proof.Claims
open Machine

/-! ### What a formed label leaves -/

theorem formLabel_formed {s u : State} {wide : Bool} {l : Label} {w : LabelWord} (h : s.formLabel wide l = .ok (w, u)) :
    Formed s u := by
  obtain ⟨extra, st, n, rfl⟩ := formLabel_ok h
  exact ⟨rfl, rfl, rfl, rfl, ⟨extra, rfl⟩, ⟨rfl, rfl, rfl, rfl⟩⟩

theorem Formed.trans {s u v : State} (h : Formed s u) (k : Formed u v) : Formed s v where
  same := by
    have hu : u.core = { s.core with lblstat := u.core.lblstat } := by
      have hsame := h.same
      rw [coreSame, ← h.regs, ← h.pending, ← h.streams] at hsame
      rw [← hsame]
    have hsame := k.same
    rw [coreSame] at hsame ⊢
    rw [h.regs, h.pending, h.streams, hu] at hsame
    exact congrArg (fun c : Core => { c with lblstat := s.core.lblstat }) hsame
  regs := k.regs.trans h.regs
  pending := k.pending.trans h.pending
  streams := k.streams.trans h.streams
  ctx := by
    obtain ⟨e1, h1⟩ := h.ctx
    obtain ⟨e2, h2⟩ := k.ctx
    exact ⟨e1 ++ e2, by rw [h2, h1, List.append_assoc]⟩
  rest := by
    obtain ⟨h1, h2, h3, h4⟩ := h.rest
    obtain ⟨k1, k2, k3, k4⟩ := k.rest
    exact ⟨k1.trans h1, k2.trans h2, k3.trans h3, k4.trans h4⟩

/-- A register written and its stream ended are of the frame that an instruction leaves out. -/
theorem coreSame.wrV {s u : State} (h : coreSame s u) (d : Nat) (v : VWord) (w : LabelWord) : coreSame s (u.wrV d v w) := h

theorem streamsEnded_erase (s t : State) (d : Nat) (h : t.core.streams = eraseAt d s.core.streams) : streamsEnded s t (.v d) := by
  intro v
  rw [h]
  by_cases hv : v = d
  · subst hv
    rw [if_pos rfl, lookup_eraseAt_same]
  · rw [if_neg (fun heq => hv (Reg.v.inj heq).symm), lookup_eraseAt_other _ hv]

theorem vFile_putV {s t : State} {d : Nat} {val : VWord} {w : LabelWord} (hd : d < 32) (h : t.core.regs = s.core.regs.putV d val w) :
    { t.core.regs with v := s.core.regs.v, vl := s.core.regs.vl } = s.core.regs ∧
      ∀ r, r < 32 → v t r = (if r = d then val else v s r) ∧ vl t r = (if r = d then w else vl s r) := by
  refine ⟨by rw [h]; rfl, fun r hr => ?_⟩
  rw [v, vl, h]
  by_cases hrd : r = d
  · subst hrd
    rw [if_pos rfl, if_pos rfl]
    exact ⟨fileGet_filePut_same .., fileGet_filePut_same ..⟩
  · rw [if_neg hrd, if_neg hrd]
    exact ⟨fileGet_filePut_ne _ _ _ hd hr hrd, fileGet_filePut_ne _ _ _ hd hr hrd⟩

/-- A result in a vector register, and then the end of the instruction (R293). -/
theorem Formed.vWritten {s u : State} (h : Formed s u) {d : Nat} (val : VWord) (w : LabelWord) (hd : d < 32) :
    vWritten s (u.wrV d val w).complete d val w := by
  have hregs : (u.wrV d val w).complete.core.regs = s.core.regs.putV d val w := by
    rw [State.complete_core, Core.complete_regs, ← h.regs]
    rfl
  obtain ⟨hkept, hfile⟩ := vFile_putV hd hregs
  refine ⟨hkept, hfile, ?_, streamsEnded_erase s _ d ?_, (h.same.wrV d val w).complete, h.ctx, h.rest,
    memoryKept_of_dev h.rest.2.2.2⟩
  · rw [State.complete_core, Core.complete_pending]
    exact h.pending
  · rw [State.complete_core, Core.complete_streams, ← h.streams]
    rfl

theorem pFile_putP {s t : State} {d : Nat} {val : Word} {w : LabelWord} (hd : d < 8)
    (hp : t.core.regs.p = (s.core.regs.putP d val w).p) (hl : t.core.regs.pl = (s.core.regs.putP d val w).pl) :
    ∀ r, r < 8 → p t r = (if r = d ∧ d ≠ 0 then val else p s r) ∧ pl t r = (if r = d ∧ d ≠ 0 then w else pl s r) := by
  intro r hr
  rw [p, pl, hp, hl, Regs.putP]
  by_cases hz : d = 0
  · rw [if_pos hz, if_neg (by simp [hz]), if_neg (by simp [hz])]
    exact ⟨rfl, rfl⟩
  · rw [if_neg hz]
    by_cases hrd : r = d
    · subst hrd
      rw [if_pos ⟨rfl, hz⟩, if_pos ⟨rfl, hz⟩]
      exact ⟨fileGet_filePut_same .., fileGet_filePut_same ..⟩
    · rw [if_neg (fun h => hrd h.1), if_neg (fun h => hrd h.1)]
      exact ⟨fileGet_filePut_ne _ _ _ hd hr hrd, fileGet_filePut_ne _ _ _ hd hr hrd⟩

/-! ### ASSUME, LBLSET -/

theorem assumption_ok {s : State} {b : Nat} (h : (s.rdX b).toNat < 256) : s.assumption b = .ok (s.rdX b).toNat :=
  if_neg (by omega)

theorem assumption_beyond {s : State} {b : Nat} (h : 255 < (s.rdX b).toNat) : s.assumption b = .error (s.illegal 9 0) :=
  if_pos h

theorem exec_assume (d a b : Nat) (s : State) :
    exec (.assume d a b) s = commit s (do
      let n ← s.assumption b
      if d = 0 then .ok s.complete
      else
        let (w, t) ← s.formWith [s.labX a, s.labX b] (oneAssumption n)
        .ok (t.wrX d (s.rdX a) w).complete) := rfl

theorem exec_assumev (d a b : Nat) (s : State) :
    exec (.assumev d a b) s = commit s (do
      let n ← s.assumption b
      let (w, t) ← s.formWith [s.labV a, s.labX b] (oneAssumption n)
      .ok (t.wrV d (s.rdV a) w).complete) := rfl

theorem exec_lblset_zero (a b : Nat) (s : State) : exec (.lblset 0 a b) s = .next s.complete := rfl

theorem exec_lblset {s u : State} {d a b : Nat} {w : LabelWord} (hd : d ≠ 0)
    (h : s.formWith [s.labX a, s.labX b] (s.namedLabel (s.rdX b)) = .ok (w, u)) :
    exec (.lblset d a b) s = .next (u.wrX d (s.rdX a) w).complete := by
  have hexec : exec (.lblset d a b) s = execLblset d a b s := rfl
  rw [hexec, execLblset, if_neg hd, h]
  rfl

/-- The word with bits [23:16] cleared. -/
theorem ignoredBits (v : Word) :
    ((v.truncate 32 : LabelWord) &&& 0xFF00FFFF) = BitVec.ofNat 32 (v.toNat % 2 ^ 16 + v.toNat / 2 ^ 24 % 2 ^ 8 * 2 ^ 24) := by
  have hlow : v.toNat % 2 ^ 16 < 2 ^ 16 := Nat.mod_lt _ (by decide)
  have hmask : ∀ i : Fin 32, (0xFF00FFFF : LabelWord).getLsbD i.val = decide (i.val < 16 ∨ 24 ≤ i.val) := by decide
  refine BitVec.eq_of_getLsbD_eq fun i hi => ?_
  rw [BitVec.getLsbD_and, hmask ⟨i, hi⟩, BitVec.getLsbD_ofNat, decide_eq_true hi, Bool.true_and, BitVec.truncate_eq_setWidth,
    BitVec.getLsbD_setWidth, decide_eq_true hi, Bool.true_and, BitVec.getLsbD]
  have hsum : v.toNat % 2 ^ 16 + v.toNat / 2 ^ 24 % 2 ^ 8 * 2 ^ 24
      = v.toNat % 2 ^ 16 + 2 ^ 16 * (0 + 2 ^ 8 * (v.toNat / 2 ^ 24 % 2 ^ 8)) := by ring
  rw [hsum, testBit_field hlow, testBit_field (by decide)]
  by_cases h1 : i < 16
  · rw [if_pos h1, Nat.testBit_mod_two_pow, decide_eq_true h1, Bool.true_and, decide_eq_true (.inl h1), Bool.and_true]
  by_cases h2 : i < 24
  · rw [if_neg h1, if_pos (by omega), decide_eq_false (show ¬ (i < 16 ∨ 24 ≤ i) by omega), Bool.and_false,
      Nat.zero_testBit]
  · rw [if_neg h1, if_neg (by omega), decide_eq_true (show i < 16 ∨ 24 ≤ i by omega), Bool.and_true, Nat.testBit_mod_two_pow,
      decide_eq_true (by omega), Bool.true_and, Nat.testBit_div_two_pow]
    congr 1
    omega

theorem namedLabel_eq (s : State) (v : Word) : s.namedLabel v = named s v := by
  rw [State.namedLabel, ignoredBits, named]

/-! ### LJOIN -/

/-- Forming a label reads no register but the configuration of labels (R207): with other registers it forms the same. -/
theorem formLabel_wrX {s u : State} {wide : Bool} {l : Label} {w : LabelWord} (d : Nat) (v : Word) (k : LabelWord)
    (h : s.formLabel wide l = .ok (w, u)) : (s.wrX d v k).formLabel wide l = .ok (w, u.wrX d v k) := by
  have hcfg : (s.wrX d v k).labelCfg = s.labelCfg := rfl
  have hworld : (s.wrX d v k).ctx = s.ctx := rfl
  unfold State.formLabel at h ⊢
  rw [hcfg, hworld]
  split at h
  · cases h
  · cases h
  · dsimp only at h ⊢
    split at h
    · next hslow =>
      cases h
      rw [if_pos hslow]
      rfl
    · next hfast =>
      cases h
      rw [if_neg hfast]
      rfl

/-- LJOIN whose values differ, or that names x0 (R231). -/
theorem exec_ljoin_one {s u : State} {d a b : Nat} {w : LabelWord} (h : s.rdX a ≠ s.rdX b ∨ d = 0)
    (hform : s.formLabel (s.wideOf [s.labX a, s.labX b]) (s.conjOf [s.labX a, s.labX b]) = .ok (w, u)) :
    exec (.ljoin d a b) s = .next (u.wrP 7 (if s.rdX a = s.rdX b then BitVec.allOnes 64 else 0) w).complete := by
  have hnot : ¬ (s.rdX a = s.rdX b ∧ d ≠ 0) := by
    rintro ⟨hsame, hd0⟩
    exact h.elim (fun hne => hne hsame) hd0
  have hexec : exec (.ljoin d a b) s = execLjoin d a b s := rfl
  rw [hexec, execLjoin]
  simp only [decide_eq_true_eq, if_neg hnot, except_bind_ok, hform, commit_ok]

/-- LJOIN of equal values writes x[d] besides, labelled by either (R231). -/
theorem exec_ljoin_both {s u u2 : State} {d a b : Nat} {w w2 : LabelWord} (hsame : s.rdX a = s.rdX b) (hd : d ≠ 0)
    (hform : s.formLabel (s.wideOf [s.labX a, s.labX b])
      (disj s.ctx.world.nogoods (s.eval (s.labX a)) (s.eval (s.labX b))) = .ok (w, u))
    (hform2 : u.formLabel (s.wideOf [s.labX a, s.labX b]) (s.conjOf [s.labX a, s.labX b]) = .ok (w2, u2)) :
    exec (.ljoin d a b) s = .next ((u2.wrX d (s.rdX a) w).wrP 7 (BitVec.allOnes 64) w2).complete := by
  have hexec : exec (.ljoin d a b) s = execLjoin d a b s := rfl
  have hform3 := formLabel_wrX d (s.rdX a) w hform2
  rw [hexec, execLjoin]
  simp only [if_pos (show decide (s.rdX a = s.rdX b) = true ∧ d ≠ 0 from ⟨decide_eq_true hsame, hd⟩), hform, except_bind_ok,
    hform3, commit_ok, if_pos (decide_eq_true hsame)]

/-- LJOIN leaves its verdict in p7 (R231). -/
theorem joined_of_formed {s u t : State} {val : Word} {w : LabelWord} (hf : Formed s u)
    (hregs : t.core.regs = { u.core.regs with x := t.core.regs.x, xl := t.core.regs.xl })
    (hrest : t = { u with core := { u.core with regs := t.core.regs } }) : joined s (t.wrP 7 val w).complete val w := by
  have hp : (t.wrP 7 val w).complete.core.regs = t.core.regs.putP 7 val w := by
    rw [State.complete_core, Core.complete_regs]
    rfl
  have hkept : { t.core.regs with x := s.core.regs.x, xl := s.core.regs.xl } = s.core.regs := by rw [hregs, hf.regs]
  have hfile : t.core.regs.p = s.core.regs.p ∧ t.core.regs.pl = s.core.regs.pl := by rw [hregs, hf.regs]; exact ⟨rfl, rfl⟩
  have hcore : t.core = { u.core with regs := t.core.regs } := congrArg State.core hrest
  refine ⟨fun r hr => ?_, ?_, ⟨?_, ?_⟩, coreSame.complete ?_, ?_, ?_, ?_⟩
  · have h7 := pFile_putP (s := s) (t := (t.wrP 7 val w).complete) (d := 7) (val := val) (w := w) (by decide)
      (by rw [hp]; simp only [Regs.putP, hfile.1]; rfl) (by rw [hp]; simp only [Regs.putP, hfile.2]; rfl) r hr
    simpa using h7
  · rw [hp]
    have h := congrArg (fun r : Regs => { r with p := s.core.regs.p, pl := s.core.regs.pl }) hkept
    exact h
  · rw [State.complete_core, Core.complete_pending, ← hf.pending, ← show t.core.pending = u.core.pending by rw [hcore]]
    rfl
  · rw [State.complete_core, Core.complete_streams, ← hf.streams, ← show t.core.streams = u.core.streams by rw [hcore]]
    rfl
  · have h := hf.same
    rw [coreSame] at h ⊢
    rw [← h]
    have hput : (t.wrP 7 val w).core = { t.core with regs := t.core.regs.putP 7 val w } := rfl
    rw [hput, hcore]
  · obtain ⟨extra, hctx⟩ := hf.ctx
    have ht : t.ctx = u.ctx := by rw [hrest]
    exact ⟨extra, by rw [← hctx, ← ht]; rfl⟩
  · obtain ⟨h1, h2, h3, h4⟩ := hf.rest
    rw [hrest]
    exact ⟨h1, h2, h3, h4⟩
  · have hdev : t.dev = u.dev := by rw [hrest]
    exact memoryKept_of_dev (hdev.trans hf.rest.2.2.2)

/-! ### Labels as data -/

theorem exec_lblof (d a : Nat) (s : State) :
    exec (.lblof d a) s = .next (s.wrX d ((canonicalWord s.core.epoch (s.labX a)).zeroExtend 64) s.topWord).complete := rfl

theorem lwHandle_lt (w : LabelWord) : lwHandle w < 2 ^ 16 := by
  rw [handle_eq, handle]
  exact Nat.mod_lt _ (by decide)

theorem mkWord_word (e : BitVec 8) (h : Nat) (hh : h < 2 ^ 16) :
    (mkWord e false h).zeroExtend 64 = BitVec.ofNat 64 (e.toNat * 2 ^ 24 + h) := by
  have he := e.isLt
  refine BitVec.eq_of_toNat_eq ?_
  rw [BitVec.zeroExtend_eq_setWidth, BitVec.toNat_setWidth, mkWord_toNat, BitVec.toNat_ofNat, Nat.mod_eq_of_lt hh]
  simp [oneBit]

theorem canonicalWord_value (s : State) (w : LabelWord) : (canonicalWord s.core.epoch w).zeroExtend 64 = canonicalValue s w := by
  have hh := lwHandle_lt w
  have hhandle : w.toNat % 2 ^ 16 = lwHandle w := (handle_eq w).symm
  rw [canonicalWord, canonicalValue, mkWord_word]
  · rw [hhandle]
    congr 2
    by_cases h0 : w = 0
    · rw [if_pos (.inl h0), if_pos h0]
    · by_cases he : lwEpoch w = s.core.epoch
      · by_cases hz : lwHandle w = 0
        · rw [if_pos (.inr ⟨he, hz⟩), if_neg h0, if_neg (not_not.mpr he), hz]
        · rw [if_neg (by tauto), if_neg h0, if_neg (not_not.mpr he)]
          split
          · next h => exact (h.resolve_left (not_not.mpr he)).symm
          · rfl
      · rw [if_neg (by tauto), if_pos (.inl he), if_neg h0, if_pos he]
  · split
    · decide
    · split
      · decide
      · exact hh

/-- What LTEST finds of a label (R234). -/
theorem exec_ltest (d a : Nat) (s : State) :
    exec (.ltest d a) s = .next (s.later ⟨.x d, BitVec.ofNat 512 ((if s.eval (s.labX a) = [] then 1 else 0)
        + (if s.eval (s.labX a) = topLabel then 2 else 0) + 2 ^ 8 * ((s.eval (s.labX a)).length % 256)
        + 2 ^ 32 * (s.ctx.world.nggen.toNat % 2 ^ 32)), s.topWord, FFlags.none⟩).complete := by
  have hone (c : Prop) [Decidable c] : oneBit (decide c) = if c then 1 else 0 := by
    by_cases h : c <;> simp [oneBit, h]
  have htwo (c : Prop) [Decidable c] : 2 * oneBit (decide c) = if c then 2 else 0 := by
    by_cases h : c <;> simp [oneBit, h]
  rw [← hone, ← htwo]
  rfl

theorem exec_lenv (d a b : Nat) (s : State) :
    exec (.lenv d a b) s = commit s (do
      if (s.rdX b).toNat > 127 then .error (s.illegal 9 0)
      .ok (s.later ⟨.x d, BitVec.ofNat 512 ((((s.eval (s.labX a))[bitsAt (s.rdX b) 2 5]?).map fun e =>
        lane 64 e (bitsAt (s.rdX b) 0 2)).getD 0), s.topWord, FFlags.none⟩).complete) := rfl

/-- A quarter of an environment of a label (R235). -/
theorem lenv_value (l : Label) {v : Word} (h : v.toNat < 128) :
    ((l[bitsAt v 2 5]?).map fun e => lane 64 e (bitsAt v 0 2)).getD 0 =
      (l.getD (v.toNat / 4) 0).toNat / 2 ^ (64 * (v.toNat % 4)) % 2 ^ 64 := by
  have hi : bitsAt v 2 5 = v.toNat / 4 := by rw [bitsAt]; omega
  have hq : bitsAt v 0 2 = v.toNat % 4 := bitsAt_low v 2
  rw [hi, hq, List.getD_eq_getElem?_getD]
  cases l[v.toNat / 4]? with
  | none => simp
  | some e => rfl

end Sys2Proof.Claims

namespace Sys2Proof
open Machine Claims

/-- Settles O26: each form writes what the label it forms goes with. -/
theorem labelForms : Obligations.LabelForms := by
  unfold Obligations.LabelForms
  intro s u d a b w _ _ hd
  refine ⟨fun hn => ⟨fun hd0 hform => ?_, ?_, fun hd32 _ hform => ?_⟩, fun hd0 hform => ?_,
    ⟨_, exec_lblset_zero a b s, passed_complete s⟩, fun hn => ⟨?_, ?_⟩, fun hdiff hform => ?_, fun w2 u2 hsame hd0 hform hform2 => ?_,
    ?_, ⟨_, exec_ltest d a s, later_complete_x s d _ _⟩, fun hn => ?_, fun hn => ?_⟩
  · refine ⟨_, ?_, (formLabel_formed hform).xWritten _ _ hd⟩
    rw [exec_assume, assumption_ok hn, except_bind_ok, if_neg hd0, oneAssumption, hform, except_bind_ok, commit_ok]
  · refine ⟨_, ?_, passed_complete s⟩
    rw [exec_assume, assumption_ok hn, except_bind_ok, if_pos rfl, commit_ok]
  · refine ⟨_, ?_, (formLabel_formed hform).vWritten _ _ hd32⟩
    rw [exec_assumev, assumption_ok hn, except_bind_ok, oneAssumption, hform, except_bind_ok, commit_ok]
  · rw [← namedLabel_eq] at hform
    exact ⟨_, exec_lblset hd0 hform, (formLabel_formed hform).xWritten _ _ hd⟩
  · exact traps_of_commit (exec_assume d a b s) (by rw [assumption_beyond hn, except_bind_error, illegal_eq])
  · exact traps_of_commit (exec_assumev d a b s) (by rw [assumption_beyond hn, except_bind_error, illegal_eq])
  · refine ⟨_, exec_ljoin_one hdiff hform, joined_of_formed (formLabel_formed hform) rfl rfl, ?_⟩
    rw [State.complete_core, Core.complete_regs, ← (formLabel_formed hform).regs]
    exact ⟨rfl, rfl⟩
  · have hexec := exec_ljoin_both hsame hd0 hform hform2
    have hformed := (formLabel_formed hform).trans (formLabel_formed hform2)
    have hregs : (u2.wrX d (s.rdX a) w).core.regs = s.core.regs.putX d (s.rdX a) w := by rw [← hformed.regs]; rfl
    have hother : (u2.core.regs.putX d (s.rdX a) w) = { u2.core.regs with
        x := (u2.core.regs.putX d (s.rdX a) w).x, xl := (u2.core.regs.putX d (s.rdX a) w).xl } := by
      rw [Regs.putX]
      split <;> rfl
    refine ⟨_, hexec, joined_of_formed hformed hother rfl, fun r hr => ?_⟩
    have hx := (xFileWritten_putX (t := u2.wrX d (s.rdX a) w) hd hregs).2 r hr
    simp only [hd0, and_true, ne_eq, not_false_eq_true] at hx
    have hsame : x ((u2.wrX d (s.rdX a) w).wrP 7 (BitVec.allOnes 64) w2).complete r = x (u2.wrX d (s.rdX a) w) r ∧
        xl ((u2.wrX d (s.rdX a) w).wrP 7 (BitVec.allOnes 64) w2).complete r = xl (u2.wrX d (s.rdX a) w) r := by
      rw [x, xl, State.complete_core, Core.complete_regs]
      exact ⟨rfl, rfl⟩
    rw [hsame.1, hsame.2]
    exact hx
  · rw [← canonicalWord_value]
    exact ⟨_, exec_lblof d a s, xWritten_wrX_complete s _ _ hd⟩
  · exact traps_of_commit (exec_lenv d a b s) (by rw [if_pos hn, except_bind_error, illegal_eq])
  · refine ⟨_, ?_, later_complete_x s d _ _⟩
    rw [exec_lenv, if_neg (by omega), lenv_value _ hn]
    rfl

end Sys2Proof
end

section
/-! PROOF. CONTRA, CONTRAV, WRESET and what the umpires' acknowledgements do (R204, R224, R225, R232, R233, R236). -/

namespace Sys2Proof.Claims
open Machine

/-- CONTRA and CONTRAV by the label word that they name. -/
def contraForms (s : State) (a : Nat) : List (Instr × LabelWord) := [(.contra a, s.labX a), (.contrav a, s.labV a)]

theorem exec_contraForms {s : State} {a : Nat} : ∀ e ∈ contraForms s a, exec e.1 s = s.contra e.2 := by
  simp only [contraForms, List.forall_mem_cons]
  exact ⟨rfl, rfl, List.forall_mem_nil _⟩

/-- A CONTRA outside an edge invocation whose acknowledgement has not come (R232). -/
theorem contra_sent {s : State} {w : LabelWord} (hp : plainCore s) (hg : s.grantValue = none) (h : s.eval w ≠ topLabel) :
    s.contra w = .next (s.parkAt (.contra (s.eval w))) := by
  rw [State.contra, edgeGuard_plain hp, except_bind_ok, hg]
  simp only [if_neg h, commit_ok]

theorem contra_top {s : State} {w : LabelWord} (hp : plainCore s) (hg : s.grantValue = none) (h : s.eval w = topLabel) :
    s.contra w = commit s (.error (s.illegal 9 0)) := by
  rw [State.contra, edgeGuard_plain hp, except_bind_ok, hg]
  simp only [if_pos h]

theorem contra_done {s : State} {w : LabelWord} (hp : plainCore s) (hg : s.grantValue = some 0) :
    s.contra w = .next s.complete := by
  rw [State.contra, edgeGuard_plain hp, except_bind_ok, hg]
  simp only [if_pos, commit_ok]

theorem contra_full {s : State} {w : LabelWord} {v : Word} (hp : plainCore s) (hg : s.grantValue = some v) (h0 : v ≠ 0)
    (hack : v ≠ ackPair) : s.contra w = commit s (.error (s.trap .ngfull 0 0)) := by
  rw [State.contra, edgeGuard_plain hp, except_bind_ok, hg]
  simp only [if_neg h0, if_neg hack]

/-- A CONTRA of a pair takes effect with what it sent (R47, R232). -/
theorem contra_pair {s : State} {w : LabelWord} {g : Label} {world : World} (hp : plainCore s) (hg : s.grantValue = some ackPair)
    (hsent : s.core.sent = some g) (h : s.ctx.world.addNogoods g = some world) :
    s.contra w = .next (s.mapWorld fun _ => world).complete := by
  rw [State.contra, edgeGuard_plain hp, except_bind_ok, hg, hsent]
  simp only [if_neg (show ¬ ackPair = 0 by decide), if_true, Option.getD_some, h, commit_ok]

theorem contra_pair_full {s : State} {w : LabelWord} {g : Label} (hp : plainCore s) (hg : s.grantValue = some ackPair)
    (hsent : s.core.sent = some g) (h : s.ctx.world.addNogoods g = none) :
    s.contra w = commit s (.error (s.trap .ngfull 0 0)) := by
  rw [State.contra, edgeGuard_plain hp, except_bind_ok, hg, hsent]
  simp only [if_neg (show ¬ ackPair = 0 by decide), if_true, Option.getD_some, h]

theorem addNogoods_nggen {w v : World} {g : Label} (h : w.addNogoods g = some v) : v.nggen = w.nggen + 1 := by
  unfold World.addNogoods at h
  dsimp only at h
  split at h
  · cases h
  · cases h
    rfl

theorem exec_wreset_none {s : State} (hp : plainCore s) (hg : s.grantValue = none) :
    exec .wreset s = .next (s.drain.parkAt .wreset) := by
  have hexec : exec .wreset s = execWreset s := rfl
  rw [hexec, execWreset, edgeGuard_plain hp, except_bind_ok, hg]
  rfl

theorem exec_wreset_done {s : State} (hp : plainCore s) (hg : s.grantValue = some 0) : exec .wreset s = .next s.complete := by
  have hexec : exec .wreset s = execWreset s := rfl
  rw [hexec, execWreset, edgeGuard_plain hp, except_bind_ok, hg]
  simp only [if_pos, commit_ok]

theorem exec_wreset_wrap {s : State} {v : Word} (hp : plainCore s) (hg : s.grantValue = some v) (h0 : v ≠ 0) (hack : v ≠ ackReset) :
    exec .wreset s = commit s (.error (s.trap .lblwrap v.toNat 0)) := by
  have hexec : exec .wreset s = execWreset s := rfl
  rw [hexec, execWreset, edgeGuard_plain hp, except_bind_ok, hg]
  simp only [if_neg h0, if_neg hack]

theorem exec_wreset_pair {s t : State} (hp : plainCore s) (hg : s.grantValue = some ackReset)
    (h : s.newEpoch s.focus.cl s.focus.core = .ok t) : exec .wreset s = .next t.complete := by
  have hexec : exec .wreset s = execWreset s := rfl
  rw [hexec, execWreset, edgeGuard_plain hp, except_bind_ok, hg]
  simp only [if_neg (show ¬ ackReset = 0 by decide), if_true, h, commit_ok]

theorem exec_wreset_used {s : State} {e : BitVec 8} (hp : plainCore s) (hg : s.grantValue = some ackReset)
    (h : s.newEpoch s.focus.cl s.focus.core = .error e) : exec .wreset s = commit s (.error (s.trap .lblwrap e.toNat 0)) := by
  have hexec : exec .wreset s = execWreset s := rfl
  rw [hexec, execWreset, edgeGuard_plain hp, except_bind_ok, hg]
  simp only [if_neg (show ¬ ackReset = 0 by decide), if_true, h]

/-! ### The next epoch -/

/-- A core as the WRESET in world `w` leaves it (R236). -/
def inNewEpoch (w : World) (c : Core) : Core :=
  { c with
    epoch := nextEpoch w.epoch, regs := c.regs.relabel w c.epoch (nextEpoch w.epoch), lblcfg := { c.lblcfg with swept := false }
    latch := c.latch.map fun l => (l.1.relabel w c.epoch (nextEpoch w.epoch), { l.2 with swept := false }) }

theorem newEpoch_ok {s : State} {cl core : Nat}
    (h : nextEpoch s.ctx.world.epoch ∉ s.ctx.world.used ∨ (s.coreAt cl core).lblcfg.swept = true) :
    s.newEpoch cl core = .ok ((s.mapWorld (·.advance (s.coreAt cl core).lblcfg.swept)).mapCoreAt cl core
      (inNewEpoch s.ctx.world)) := by
  unfold State.newEpoch
  rw [if_neg]
  · rfl
  · rintro ⟨hused, hswept⟩
    rcases h with h | h
    · exact h (List.contains_iff_mem.mp hused)
    · rw [h] at hswept
      cases hswept

theorem newEpoch_used {s : State} {cl core : Nat} (h : nextEpoch s.ctx.world.epoch ∈ s.ctx.world.used)
    (hs : (s.coreAt cl core).lblcfg.swept = false) : s.newEpoch cl core = .error (nextEpoch s.ctx.world.epoch) := by
  unfold State.newEpoch
  rw [if_pos]
  exact ⟨List.contains_iff_mem.mpr h, by rw [hs]; rfl⟩

theorem relabel_renewed (s : State) (c : Core) :
    c.regs.relabel s.ctx.world c.epoch (nextEpoch s.ctx.world.epoch) = renewed s c := by
  have htop : mkWord (nextEpoch s.ctx.world.epoch) false 0 = BitVec.ofNat 32 ((nextEpoch s.ctx.world.epoch).toNat * 2 ^ 24) := by
    rw [mkWord]
    simp [oneBit]
  have hword : relabel s.ctx.world c.epoch (nextEpoch s.ctx.world.epoch) = fun w =>
      if s.ctx.world.eval c.epoch w = topLabel then BitVec.ofNat 32 ((nextEpoch s.ctx.world.epoch).toNat * 2 ^ 24) else w := by
    funext w
    rw [relabel, htop]
  rw [Regs.relabel, hword]
  rfl

theorem mapCoreAt_world (s : State) (cl core : Nat) (f : Core → Core) : (s.mapCoreAt cl core f).ctx.world = s.ctx.world := by
  unfold State.mapCoreAt
  split <;> rfl

/-- A core that waits is one that the state holds: a change of the world leaves it. -/
theorem coreAt_mapWorld {s : State} {cl core : Nat} (f : World → World) (h : (s.coreAt cl core).park ≠ none) :
    (s.mapWorld f).coreAt cl core = s.coreAt cl core := by
  by_cases hf : s.isFocus cl core = true
  · have hf' : (s.mapWorld f).isFocus cl core = true := hf
    rw [State.coreAt, State.coreAt, if_pos hf, if_pos hf']
    rfl
  · have hf' : ¬ (s.mapWorld f).isFocus cl core = true := hf
    have hcl : (s.mapWorld f).cluster cl = s.cluster cl := rfl
    rw [State.coreAt, if_neg hf] at h
    rw [State.coreAt, State.coreAt, if_neg hf, if_neg hf', hcl]
    rw [lookupD] at h ⊢
    cases hl : lookup (s.cluster cl).cores core with
    | none =>
      rw [hl] at h
      exact absurd rfl h
    | some c => rw [lookupD, hl]; rfl

theorem coreAt_focus (s : State) : s.coreAt s.focus.cl s.focus.core = s.core :=
  if_pos (decide_eq_true ⟨rfl, rfl⟩)

theorem exec_contraRetire {s : State} {cl core : Nat} {g : Label} (h : (s.coreAt cl core).park = some (.contra g)) :
    exec (.contraRetire cl core) s = .next (s.retireContra cl core g) := by
  have hexec : exec (.contraRetire cl core) s = execContraRetire cl core s := rfl
  rw [hexec, execContraRetire, h]

theorem exec_wresetRetire {s : State} {cl core : Nat} (h : (s.coreAt cl core).park = some .wreset) :
    exec (.wresetRetire cl core) s = .next (s.retireReset cl core) := by
  have hexec : exec (.wresetRetire cl core) s = execWresetRetire cl core s := rfl
  rw [hexec, execWresetRetire, if_pos h]

/-- In a lone container a CONTRA takes effect as it is acknowledged (R232). -/
theorem retireContra_lone {s : State} {cl core : Nat} {g : Label} {w : World} (hlone : (s.coreAt cl core).issue.lone = true)
    (h : s.ctx.world.addNogoods g = some w) :
    s.retireContra cl core g = (s.mapWorld fun _ => w).mapCoreAt cl core (·.wake 0) := by
  rw [State.retireContra, hlone, h]
  rfl

theorem retireContra_full {s : State} {cl core : Nat} {g : Label} (hlone : (s.coreAt cl core).issue.lone = true)
    (h : s.ctx.world.addNogoods g = none) : s.retireContra cl core g = s.mapCoreAt cl core (·.wake 1) := by
  rw [State.retireContra, hlone, h]
  rfl

theorem retireContra_pair {s : State} {cl core : Nat} (g : Label) (hlone : (s.coreAt cl core).issue.lone = false) :
    s.retireContra cl core g = s.mapCoreAt cl core fun c => { c.wake ackPair with sent := some g } := by
  rw [State.retireContra, hlone]
  rfl

theorem retireReset_pair {s : State} {cl core : Nat} (hlone : (s.coreAt cl core).issue.lone = false) :
    s.retireReset cl core = s.mapCoreAt cl core (·.wake ackReset) := by
  rw [State.retireReset, hlone]
  rfl

theorem retireReset_used {s : State} {cl core : Nat} {e : BitVec 8} (hlone : (s.coreAt cl core).issue.lone = true)
    (h : s.newEpoch cl core = .error e) : s.retireReset cl core = s.mapCoreAt cl core (·.wake (e.zeroExtend 64)) := by
  rw [State.retireReset, hlone, h]
  rfl

theorem retireReset_lone {s t : State} {cl core : Nat} (hlone : (s.coreAt cl core).issue.lone = true)
    (h : s.newEpoch cl core = .ok t) : s.retireReset cl core = t.mapCoreAt cl core (·.wake 0) := by
  rw [State.retireReset, hlone, h]
  rfl

/-- A core woken: its own part of the state alone changes. -/
theorem woken (s : State) (cl core : Nat) (f : Core → Core) :
    (s.mapCoreAt cl core f).ctx.world = s.ctx.world ∧ (s.mapCoreAt cl core f).coreAt cl core = f (s.coreAt cl core) ∧
      (s.mapCoreAt cl core f).dev = s.dev :=
  ⟨mapCoreAt_world s cl core f, State.coreAt_mapCoreAt_same s cl core f, State.mapCoreAt_dev s cl core f⟩

end Sys2Proof.Claims

namespace Sys2Proof
open Machine Claims

/-- Settles O28: what the umpires hand over decides whether the nogoods or the epoch are those sent. -/
theorem nogoodsAndEpochs : Obligations.NogoodsAndEpochs := by
  unfold Obligations.NogoodsAndEpochs
  intro s a cl core w _ hp
  have hcontra := exec_contraForms (s := s) (a := a)
  simp only [contraForms, List.forall_mem_cons] at hcontra
  obtain ⟨hx, hv, -⟩ := hcontra
  have hforms : ∀ i ∈ [Instr.contra a, .contrav a], ∃ lw, exec i s = s.contra lw := by
    simp only [List.forall_mem_cons]
    exact ⟨⟨_, hx⟩, ⟨_, hv⟩, List.forall_mem_nil _⟩
  refine ⟨fun hg h => ⟨_, hx.trans (contra_sent hp hg h), rfl, rfl⟩, fun _ hg h => ⟨_, hv.trans (contra_sent hp hg h), rfl, rfl⟩,
    fun hg => ⟨_, exec_wreset_none hp hg, rfl, rfl⟩, fun hg => ⟨⟨_, hx.trans (contra_done hp hg), passed_complete s⟩,
      ⟨_, hv.trans (contra_done hp hg), passed_complete s⟩, ⟨_, exec_wreset_done hp hg, passed_complete s⟩⟩,
    fun hg => ⟨fun h => ?_, fun _ h => ?_⟩, fun v hg h0 => ⟨fun hack => ⟨?_, ?_⟩, fun hack => ?_⟩,
    fun hg i g hi hsent => ⟨fun h => ?_, fun h => ?_⟩, fun hg => ⟨fun h => ?_, fun h hs => ?_⟩,
    fun hlone => ⟨fun g hpark => ?_, fun hpark => ?_⟩, fun hlone => ⟨fun g hpark h => ?_, fun hpark h hs => ?_,
      fun g hpark h => ?_, fun hpark h => ?_⟩⟩
  · exact traps_of_commit (hx.trans (contra_top hp hg h)) rfl
  · exact traps_of_commit (hv.trans (contra_top hp hg h)) rfl
  · exact traps_of_commit (hx.trans (contra_full hp hg h0 hack)) rfl
  · exact traps_of_commit (hv.trans (contra_full hp hg h0 hack)) rfl
  · exact traps_of_commit (exec_wreset_wrap hp hg h0 hack) rfl
  · obtain ⟨lw, hexec⟩ := hforms i hi
    refine ⟨_, hexec.trans (contra_pair hp hg hsent h), rfl, addNogoods_nggen h, ?_, rfl⟩
    rw [State.complete_core, Core.complete_regs]
    rfl
  · obtain ⟨lw, hexec⟩ := hforms i hi
    exact traps_of_commit (hexec.trans (contra_pair_full hp hg hsent h)) rfl
  · rw [← coreAt_focus s] at h
    have hnew := newEpoch_ok h
    have hcore : ((s.mapWorld (·.advance (s.coreAt s.focus.cl s.focus.core).lblcfg.swept)).mapCoreAt s.focus.cl s.focus.core
        (inNewEpoch s.ctx.world)).core = inNewEpoch s.ctx.world s.core := mapCoreAt_focus_core (s.mapWorld _) _
    refine ⟨_, exec_wreset_pair hp hg hnew, ?_, ?_, ?_, ?_, ?_, ?_, ?_, ?_⟩
    · rw [State.complete_ctx, mapCoreAt_world]; rfl
    · rw [State.complete_ctx, mapCoreAt_world]; rfl
    · rw [State.complete_ctx, mapCoreAt_world]; rfl
    · rw [State.complete_ctx, mapCoreAt_world]; rfl
    · rw [State.complete_core, Core.complete_epoch, hcore]; rfl
    · rw [State.complete_core, Core.complete_regs, hcore]
      exact relabel_renewed s s.core
    · rw [State.complete_core, Core.complete_lblcfg, hcore]; rfl
    · rw [State.complete_dev, State.mapCoreAt_dev]; rfl
  · rw [← coreAt_focus s] at hs
    exact traps_of_commit (exec_wreset_used hp hg (newEpoch_used h hs)) rfl
  · obtain ⟨hworld, hcore, hdev⟩ := woken s cl core fun c => { c.wake ackPair with sent := some g }
    exact ⟨_, (exec_contraRetire hpark).trans (congrArg Host.Outcome.next (retireContra_pair g hlone)), hworld, hcore, hdev⟩
  · obtain ⟨hworld, hcore, hdev⟩ := woken s cl core (·.wake ackReset)
    exact ⟨_, (exec_wresetRetire hpark).trans (congrArg Host.Outcome.next (retireReset_pair hlone)), hworld, hcore, hdev⟩
  · obtain ⟨hworld, hcore, hdev⟩ := woken s cl core (·.wake 1)
    exact ⟨_, (exec_contraRetire hpark).trans (congrArg Host.Outcome.next (retireContra_full hlone h)), hworld, hcore, hdev⟩
  · obtain ⟨hworld, hcore, hdev⟩ := woken s cl core (·.wake ((nextEpoch s.ctx.world.epoch).zeroExtend 64))
    exact ⟨_, (exec_wresetRetire hpark).trans (congrArg Host.Outcome.next (retireReset_used hlone (newEpoch_used h hs))), hworld, hcore,
      hdev⟩
  · obtain ⟨hworld, hcore, hdev⟩ := woken (s.mapWorld fun _ => w) cl core (·.wake 0)
    rw [coreAt_mapWorld _ (by rw [hpark]; exact Option.some_ne_none _)] at hcore
    refine ⟨_, (exec_contraRetire hpark).trans (congrArg Host.Outcome.next (retireContra_lone hlone h)), hworld,
      addNogoods_nggen h, ?_, ?_, hdev⟩
    · rw [hcore]; rfl
    · rw [hcore]; rfl
  · have hnew := newEpoch_ok h
    have hheld := coreAt_mapWorld (s := s) (cl := cl) (core := core) (·.advance (s.coreAt cl core).lblcfg.swept)
      (by rw [hpark]; exact Option.some_ne_none _)
    refine ⟨_, (exec_wresetRetire hpark).trans (congrArg Host.Outcome.next (retireReset_lone hlone hnew)), ?_, ?_, ?_, ?_, ?_, ?_, ?_,
      ?_, ?_⟩
    · rw [mapCoreAt_world, mapCoreAt_world]; rfl
    · rw [mapCoreAt_world, mapCoreAt_world]; rfl
    · rw [mapCoreAt_world, mapCoreAt_world]; rfl
    · rw [mapCoreAt_world, mapCoreAt_world]; rfl
    · rw [State.coreAt_mapCoreAt_same, State.coreAt_mapCoreAt_same, hheld]; rfl
    · rw [State.coreAt_mapCoreAt_same]; rfl
    · rw [State.coreAt_mapCoreAt_same, State.coreAt_mapCoreAt_same, hheld]
      exact relabel_renewed s (s.coreAt cl core)
    · rw [State.coreAt_mapCoreAt_same, State.coreAt_mapCoreAt_same, hheld]; rfl
    · rw [State.mapCoreAt_dev, State.mapCoreAt_dev]; rfl

end Sys2Proof
end

section
/-! PROOF. Exact results of FP32 (R98 to R100, R112): a number that the format represents rounds to itself, whatever the mode. -/

namespace Sys2Proof.Claims
open Machine

theorem log2_shift {m : Nat} (hm : m ≠ 0) (k : Nat) : (m * 2 ^ k).log2 = m.log2 + k := by
  induction k with
  | zero => rw [Nat.pow_zero, Nat.mul_one, Nat.add_zero]
  | succ k ih =>
    rw [Nat.pow_succ, ← Nat.mul_assoc, Nat.mul_comm, Nat.log2_two_mul (by positivity), ih, Nat.add_assoc]

/-- The numbers `m × 2 ^ e` and `n × 2 ^ f` are the same. -/
def sameValue (m : Nat) (e : Int) (n : Nat) (f : Int) : Prop :=
  (∃ k : Nat, m = n * 2 ^ k ∧ f = e + k) ∨ ∃ k : Nat, n = m * 2 ^ k ∧ e = f + k

theorem sameValue_of_rat {m n : Nat} {e f : Int} (h : (m : Rat) * (2 : Rat) ^ e = n * (2 : Rat) ^ f) : sameValue m e n f := by
  have two : (2 : Rat) ≠ 0 := by norm_num
  rcases le_total e f with hle | hle
  · refine .inl ⟨(f - e).toNat, ?_, by omega⟩
    have hf : f = (f - e).toNat + e := by omega
    rw [hf, zpow_add₀ two, ← mul_assoc, zpow_natCast] at h
    have := mul_right_cancel₀ (zpow_ne_zero e two) h
    exact_mod_cast this
  · refine .inr ⟨(e - f).toNat, ?_, by omega⟩
    have he : e = (e - f).toNat + f := by omega
    rw [he, zpow_add₀ two, ← mul_assoc, zpow_natCast] at h
    have := mul_right_cancel₀ (zpow_ne_zero f two) h
    exact_mod_cast this.symm

/-- Equal values have the same leading bit. -/
theorem sameValue_log2 {m n : Nat} {e f : Int} (h : sameValue m e n f) (hm : m ≠ 0) : e + m.log2 = f + n.log2 := by
  rcases h with ⟨k, rfl, rfl⟩ | ⟨k, rfl, rfl⟩
  · rw [log2_shift (by rintro rfl; simp at hm)]
    push_cast
    ring
  · rw [log2_shift hm]
    push_cast
    ring

/-- A number that lies on the grid of the exponent rounds to itself (R99). -/
theorem roundInt_exact {m n : Nat} {e f : Int} (rm : Nat) (neg : Bool) (h : sameValue m e n f) :
    roundInt rm neg m (f - e) = (n, false) := by
  rcases h with ⟨k, rfl, rfl⟩ | ⟨k, rfl, rfl⟩
  · have hshift : e + (k : Int) - e = k := by omega
    rw [hshift, roundInt]
    rcases Nat.eq_zero_or_pos k with rfl | hk
    · rw [if_pos (by simp)]
      simp
    · have hd : 0 < 2 ^ k := by positivity
      rw [if_neg (by omega)]
      simp only [Int.toNat_natCast, Nat.mul_div_cancel _ hd, Nat.mul_mod_left, Nat.mul_zero]
      rcases rm with _ | _ | _ | _
      · simp [oneBit, hd.ne]
      · simp [oneBit]
      · simp [oneBit]
      · simp [oneBit]
  · have hshift : f - (f + (k : Int)) = -k := by omega
    rw [hshift, roundInt, if_pos (by omega), neg_neg, Int.toNat_natCast]

/-- The bits of a finite FP32 number: its sign, exponent field and fraction (R98). -/
theorem decode_fields {r : Nat} (hr : r < 2 ^ 32) (h : finite (fp32.decode r)) :
    ∃ (neg : Bool) (ex fr : Nat), ex < 255 ∧ fr < 2 ^ 23 ∧ r = ex * 2 ^ 23 + fr + fp32.zeroBits neg ∧
      fp32.decode r = if ex = 0 then .fin neg fr (-149) else .fin neg (2 ^ 23 + fr) ((ex : Int) - 150) := by
  refine ⟨r / 2 ^ 31 % 2 == 1, r / 2 ^ 23 % 256, r % 2 ^ 23, ?_⟩
  have hsign : fp32.zeroBits (r / 2 ^ 31 % 2 == 1) = r / 2 ^ 31 * 2 ^ 31 := by
    have h2 : r / 2 ^ 31 < 2 := by omega
    have hs : fp32.signBit = 2 ^ 31 := rfl
    rw [Fmt.zeroBits, hs, oneBit]
    interval_cases r / 2 ^ 31 <;> rfl
  have hdecode : fp32.decode r = if r / 2 ^ 23 % 256 = 255 then
      if r % 2 ^ 23 = 0 then .inf (r / 2 ^ 31 % 2 == 1) else .nan (decide (r % 2 ^ 23 < 2 ^ 22))
    else if r / 2 ^ 23 % 256 = 0 then .fin (r / 2 ^ 31 % 2 == 1) (r % 2 ^ 23) (-149)
    else .fin (r / 2 ^ 31 % 2 == 1) (2 ^ 23 + r % 2 ^ 23) ((r / 2 ^ 23 % 256 : Nat) - 127 - 23) := rfl
  have hex : r / 2 ^ 23 % 256 ≠ 255 := by
    intro heq
    rw [hdecode, if_pos heq] at h
    split at h <;> exact h
  refine ⟨by omega, Nat.mod_lt _ (by decide), ?_, ?_⟩
  · rw [hsign]
    omega
  · rw [hdecode, if_neg hex]
    split
    · rfl
    · congr 1
      omega

/-- A number that FP32 represents, other than 0, rounds to itself without a flag (R99, R101). -/
theorem round_exact {r m n : Nat} {e f : Int} {neg : Bool} (rm : Nat) (hr : r < 2 ^ 32) (hfin : fp32.decode r = .fin neg n f)
    (hn : n ≠ 0) (h : sameValue m e n f) : fp32.round rm neg m e = (r, FFlags.none) := by
  have hm : m ≠ 0 := by
    rintro rfl
    rcases h with ⟨k, h0, -⟩ | ⟨k, h0, -⟩
    · exact hn (by have := Nat.pos_of_ne_zero hn; have : 0 < n * 2 ^ k := by positivity
                   omega)
    · exact hn (by simpa using h0)
  obtain ⟨neg', ex, fr, hex, hfr, hbits, hdecode⟩ := decode_fields hr (by rw [hfin]; trivial)
  have htop := sameValue_log2 h hm
  have hbias : fp32.bias = 127 := rfl
  have hmb : fp32.mb = 23 := rfl
  rw [hfin] at hdecode
  have hgrid : max (e + (m.log2 : Int)) (1 - ((127 : Nat) : Int)) - ((23 : Nat) : Int) = f ∧ f + n.log2 ≤ 127 ∧ neg' = neg ∧
      r = (f + 23 + 127 - 1).toNat * 2 ^ 23 + n + fp32.zeroBits neg := by
    by_cases h0 : ex = 0
    · rw [if_pos h0] at hdecode
      obtain ⟨rfl, rfl, rfl⟩ := FVal.fin.inj hdecode
      have hlog : n.log2 < 23 := (Nat.log2_lt hn).mpr hfr
      refine ⟨by omega, by omega, rfl, ?_⟩
      rw [hbits, h0]
      simp
    · rw [if_neg h0] at hdecode
      obtain ⟨rfl, rfl, rfl⟩ := FVal.fin.inj hdecode
      have hlog : (2 ^ 23 + fr).log2 = 23 :=
        Nat.le_antisymm (Nat.lt_succ_iff.mp ((Nat.log2_lt hn).mpr (by omega))) ((Nat.le_log2 hn).mpr (by omega))
      rw [hlog] at htop ⊢
      refine ⟨by omega, by omega, rfl, ?_⟩
      rw [hbits]
      have : ((ex : Int) - 150 + 23 + 127 - 1).toNat = ex - 1 := by omega
      rw [this]
      omega
  obtain ⟨hq, hmax, -, hresult⟩ := hgrid
  rw [Fmt.round, if_neg hm]
  simp only [hbias, hmb, hq, roundInt_exact rm neg h]
  rw [if_neg]
  · rw [Bool.and_false]
    exact Prod.ext hresult.symm rfl
  · rw [Bool.and_eq_true, decide_eq_true_iff, decide_eq_true_iff]
    rintro ⟨-, hover⟩
    push_cast at hover
    omega

end Sys2Proof.Claims
end

section
/-! PROOF. Scalar float instructions (R53, R99 to R101, R112 to R115). -/

namespace Sys2Proof.Claims
open Machine

/-! ### Exact sums and products -/

/-- The value of an exact number. -/
def valueOf (x : Exact) : Rat := x.m * (2 : Rat) ^ x.e

theorem rat_eq (v : FVal) : rat v = valueOf v.exact := rfl

theorem scaleUp_value (m : Int) {e f : Int} (h : f ≤ e) : ((scaleUp m (e - f) : Int) : Rat) * (2 : Rat) ^ f = m * (2 : Rat) ^ e := by
  have he : e = (e - f).toNat + f := by omega
  have hz : (2 : Rat) ^ e = 2 ^ (e - f).toNat * 2 ^ f := by
    rw [← zpow_natCast, ← zpow_add₀ (by norm_num), ← he]
  rw [scaleUp, hz]
  push_cast
  ring

theorem valueOf_add (x y : Exact) : valueOf (x.add y) = valueOf x + valueOf y := by
  rw [valueOf, Exact.add]
  dsimp only
  rw [Int.cast_add, add_mul, scaleUp_value _ (min_le_left _ _), scaleUp_value _ (min_le_right _ _)]
  rfl

theorem rat_neg (v : FVal) (h : finite v) : rat v.neg = -rat v := by
  rcases v with _ | _ | ⟨neg, m, e⟩
  · exact absurd h id
  · exact absurd h id
  · cases neg <;> simp [rat, FVal.neg, FVal.exact]

/-- A number that FP32 represents rounds to itself, by its value. -/
theorem round_of_rat {r m : Nat} {e : Int} {neg : Bool} (rm : Nat) (hr : r < 2 ^ 32) (hfin : finite (fp32.decode r))
    (h0 : rat (fp32.decode r) ≠ 0) (h : rat (fp32.decode r) = rat (.fin neg m e)) : fp32.round rm neg m e = (r, FFlags.none) := by
  rcases hdecode : fp32.decode r with _ | _ | ⟨neg', n, f⟩
  · rw [hdecode] at hfin
    exact absurd hfin id
  · rw [hdecode] at hfin
    exact absurd hfin id
  · rw [hdecode] at h h0
    have hn : n ≠ 0 := by
      rintro rfl
      exact h0 (by cases neg' <;> simp [rat, FVal.exact])
    have hpos : 0 < (n : Rat) * (2 : Rat) ^ f := by positivity
    have hnonneg : 0 ≤ (m : Rat) * (2 : Rat) ^ e := by positivity
    have hval (b : Bool) (k : Nat) (g : Int) :
        rat (.fin b k g) = if b then -((k : Rat) * (2 : Rat) ^ g) else (k : Rat) * (2 : Rat) ^ g := by
      cases b <;> simp [rat, FVal.exact]
    rw [hval, hval] at h
    have hsame : neg' = neg ∧ (m : Rat) * (2 : Rat) ^ e = n * (2 : Rat) ^ f := by
      cases neg' <;> cases neg <;> simp only [if_true, Bool.false_eq_true, if_false] at h
      · exact ⟨rfl, h.symm⟩
      · linarith
      · linarith
      · exact ⟨rfl, by linarith⟩
    obtain ⟨rfl, hmag⟩ := hsame
    exact round_exact rm hr hdecode hn (sameValue_of_rat hmag)

theorem roundD_of_rat {r : Nat} {x : Exact} (rm : Nat) (zeroNeg : Bool) (hr : r < 2 ^ 32) (hfin : finite (fp32.decode r))
    (h0 : rat (fp32.decode r) ≠ 0) (h : rat (fp32.decode r) = valueOf x) : fp32.roundD rm zeroNeg x = (r, FFlags.none) := by
  have hm : x.m ≠ 0 := by
    intro hz
    rw [h, valueOf, hz] at h0
    simp at h0
  have hexact : rat (.fin (decide (x.m < 0)) x.m.natAbs x.e) = valueOf x := by
    have hsign : (if decide (x.m < 0) = true then -(x.m.natAbs : Int) else x.m.natAbs) = x.m := by
      simp only [decide_eq_true_eq]
      split <;> omega
    rw [rat, FVal.exact, hsign]
    rfl
  rw [Fmt.roundD, if_neg hm]
  exact round_of_rat rm hr hfin h0 (h.trans hexact.symm)

theorem addV_exact {r : Nat} {x y : FVal} (rm : Nat) (hx : finite x) (hy : finite y) (hr : r < 2 ^ 32)
    (hfin : finite (fp32.decode r)) (h0 : rat (fp32.decode r) ≠ 0) (h : rat (fp32.decode r) = rat x + rat y) :
    fp32.addV rm x y = (r, FFlags.none) := by
  rcases x with _ | _ | ⟨n, m, e⟩
  · exact absurd hx id
  · exact absurd hx id
  · rcases y with _ | _ | ⟨k, l, f⟩
    · exact absurd hy id
    · exact absurd hy id
    · rw [Fmt.addV]
      refine roundD_of_rat rm _ hr hfin h0 ?_
      rw [valueOf_add]
      exact h

theorem mulF_exact {r : Nat} {x y : FVal} (rm : Nat) (hx : finite x) (hy : finite y) (hr : r < 2 ^ 32)
    (hfin : finite (fp32.decode r)) (h0 : rat (fp32.decode r) ≠ 0) (h : rat (fp32.decode r) = rat x * rat y) :
    fp32.mulF rm x y = (r, FFlags.none) := by
  rcases x with _ | _ | ⟨n, m, e⟩
  · exact absurd hx id
  · exact absurd hx id
  · rcases y with _ | _ | ⟨k, l, f⟩
    · exact absurd hy id
    · exact absurd hy id
    · refine round_of_rat rm hr hfin h0 (h.trans ?_)
      rw [rat, rat, rat]
      have htwo : (2 : Rat) ^ (e + f) = 2 ^ e * 2 ^ f := zpow_add₀ (by norm_num) e f
      cases n <;> cases k <;> simp [FVal.exact, htwo] <;> ring

/-! ### NaN operands -/

theorem neg_isNan (x : FVal) : x.neg.isNan = x.isNan := by cases x <;> rfl
theorem neg_isSnan (x : FVal) : x.neg.isSnan = x.isSnan := by cases x <;> rfl

/-- The canonical NaN of FP32 with the flag of R100. -/
theorem nanOf_two (x y : FVal) : fp32.nanOf [x, y] = (0x7FC00000, ⟨x.isSnan || y.isSnan, false, false, false, false⟩) := by
  rw [Fmt.nanOf, List.any_cons, List.any_cons, List.any_nil, Bool.or_false]
  rfl

theorem addV_nan {x y : FVal} (rm : Nat) (h : x.isNan = true ∨ y.isNan = true) : fp32.addV rm x y = fp32.nanOf [x, y] := by
  cases x <;> cases y <;> simp [FVal.isNan] at h <;> rfl

theorem mulF_nan {x y : FVal} (rm : Nat) (h : x.isNan = true ∨ y.isNan = true) : fp32.mulF rm x y = fp32.nanOf [x, y] := by
  cases x <;> cases y <;> simp [FVal.isNan] at h <;> rfl

/-! ### Results with flags -/

theorem rounding_eq (s : State) (rm : Rm) : rounding s rm = s.rm rm := by cases rm <;> rfl

/-- FCSR's flags are of the frame that an instruction leaves out. -/
theorem coreSame.orFlags {s u : State} (h : coreSame s u) (g : FFlags) : coreSame s (u.orFlags g) := h

theorem fFile_putF {s t : State} {d : Nat} {val : Half} {w : LabelWord} {g : FFlags} (hd : d < 32)
    (h : t.core.regs = (s.core.regs.putF d val w).orFlags g) :
    { t.core.regs with f := s.core.regs.f, fl := s.core.regs.fl, fcsr := s.core.regs.fcsr } = s.core.regs ∧
      t.core.regs.fcsr = flagged s g ∧
      ∀ r, r < 32 → f t r = (if r = d then val else f s r) ∧ fl t r = (if r = d then w else fl s r) := by
  refine ⟨by rw [h]; rfl, by rw [h]; rfl, fun r hr => ?_⟩
  rw [f, fl, h]
  by_cases hrd : r = d
  · subst hrd
    rw [if_pos rfl, if_pos rfl]
    exact ⟨fileGet_filePut_same .., fileGet_filePut_same ..⟩
  · rw [if_neg hrd, if_neg hrd]
    exact ⟨fileGet_filePut_ne _ _ _ hd hr hrd, fileGet_filePut_ne _ _ _ hd hr hrd⟩

/-- A float result with its flags, and then the end of the instruction (R101, R112). -/
theorem Formed.fWritten {s u : State} (h : Formed s u) {d : Nat} (val : Half) (w : LabelWord) (g : FFlags) (hd : d < 32) :
    fWritten s ((u.wrF d val w).orFlags g).complete d val w g := by
  have hregs : ((u.wrF d val w).orFlags g).complete.core.regs = (s.core.regs.putF d val w).orFlags g := by
    rw [State.complete_core, Core.complete_regs, ← h.regs]
    rfl
  obtain ⟨hkept, hflags, hfile⟩ := fFile_putF hd hregs
  refine ⟨hkept, hflags, hfile, ⟨?_, ?_⟩, coreSame.complete ?_, h.ctx, h.rest, memoryKept_of_dev h.rest.2.2.2⟩
  · rw [State.complete_core, Core.complete_pending]
    exact h.pending
  · rw [State.complete_core, Core.complete_streams]
    exact h.streams
  · exact h.same

theorem floatResult_written {s u : State} {d : Nat} {r : Nat × FFlags} {ws : List LabelWord} {w : LabelWord} (hd : d < 32)
    (h : s.formConj ws = .ok (w, u)) :
    ∃ t, s.floatResult d r ws = .next t ∧ fWritten s t d (BitVec.ofNat 32 r.1) w r.2 := by
  refine ⟨_, ?_, (formConj_formed h).fWritten _ _ _ hd⟩
  rw [State.floatResult, setF_of_form h]
  rfl

/-- A result in an x register with its flags. -/
theorem Formed.xFlagged {s u : State} (h : Formed s u) {d : Nat} (val : Word) (w : LabelWord) (g : FFlags) (hd : d < 64) :
    xFlagged s ((u.wrX d val w).orFlags g).complete d val w g := by
  have hregs : ((u.wrX d val w).orFlags g).complete.core.regs = (s.core.regs.putX d val w).orFlags g := by
    rw [State.complete_core, Core.complete_regs, ← h.regs]
    rfl
  have hx := (xFileWritten_putX (s := s) (t := s.wrX d val w) hd rfl)
  refine ⟨?_, ?_, fun r hr => ?_, ⟨?_, ?_⟩, coreSame.complete ?_, h.ctx, h.rest, memoryKept_of_dev h.rest.2.2.2⟩
  · rw [hregs]
    exact congrArg (fun r : Regs => { r with fcsr := s.core.regs.fcsr }) hx.1
  · rw [hregs, flagged, Regs.putX]
    split <;> rfl
  · rw [x, xl, hregs]
    exact hx.2 r hr
  · rw [State.complete_core, Core.complete_pending]
    exact h.pending
  · rw [State.complete_core, Core.complete_streams]
    exact h.streams
  · exact h.same

theorem floatToX_written {s : State} {d : Nat} {v : Word} {g : FFlags} {ws : List LabelWord} {w : LabelWord} (hd : d < 64)
    (h : labelled s d ws w) : ∃ t, s.floatToX d v g ws = .next t ∧ xFlagged s t d v w g := by
  by_cases hz : d = 0
  · subst hz
    exact ⟨_, rfl, (Formed.refl s).xFlagged v w g hd⟩
  · obtain ⟨u, hu⟩ := h.resolve_left hz
    refine ⟨_, ?_, (formConj_formed hu).xFlagged v w g hd⟩
    rw [State.floatToX, setX_of_form hz hu]
    rfl

/-- Forming a label for an outstanding result of a register other than x0. -/
theorem laterConj_of_form {s u : State} {r : Reg} {v : VWord} {ws : List LabelWord} {g : FFlags} {w : LabelWord} (hr : r ≠ .x 0)
    (h : s.formConj ws = .ok (w, u)) : s.laterConj r v ws g = .ok (u.later ⟨r, v, w, g⟩) := by
  rw [State.laterConj, if_neg hr, h]

theorem later_outside {s u : State} (h : Formed s u) (p : Pending) :
    let t := (u.later p).complete
    t.core.regs = s.core.regs ∧ outstandingWith s t p.reg p.value p.lbl p.flags ∧ coreKept s t ∧ ctxKept s t ∧ restKept s t ∧
      memoryKept s t := by
  have hrest : (u.later p).ctx = u.ctx ∧ restKept u (u.later p) := by
    unfold State.later
    split <;> exact ⟨rfl, rfl, rfl, rfl, rfl⟩
  have hall : restKept s (u.later p).complete := by
    obtain ⟨h1, h2, h3, h4⟩ := h.rest
    obtain ⟨k1, k2, k3, k4⟩ := hrest.2
    exact ⟨k1.trans h1, k2.trans h2, k3.trans h3, k4.trans h4⟩
  obtain ⟨extra, hctx⟩ := h.ctx
  refine ⟨?_, ?_, (h.same.later p).complete, ⟨extra, hrest.1.trans hctx⟩, hall, memoryKept_of_dev hall.2.2.2⟩
  · rw [State.complete_core, Core.complete_regs, later_regs, h.regs]
  · rw [outstandingWith, State.complete_core, Core.complete_pending, later_pending, h.pending]

theorem later_streams (s : State) (p : Pending) (h : ∀ v, p.reg ≠ .v v) : (s.later p).core.streams = s.core.streams := by
  unfold State.later
  split
  · rfl
  · obtain ⟨reg, value, label, flags⟩ := p
    cases reg with
    | v n => exact absurd rfl (h n)
    | x n => rfl
    | f n => rfl
    | p n => rfl

/-! ### Forms -/

theorem exec_floatForms (s : State) (rm : Rm) (it : IntTy) (d a b : Nat) :
    ∀ e ∈ floatForms s rm it d a b, exec e.1 s = s.floatResult d e.2.1 e.2.2 := by
  simp only [floatForms, rounding_eq, List.forall_mem_cons]
  refine ⟨rfl, rfl, rfl, rfl, rfl, rfl, ?_, rfl, List.forall_mem_nil _⟩
  cases it with
  | i32 => exact congrArg (fun k => s.floatResult d (fp32.ofInt (s.rm rm) k) [s.labX a]) (sext_eq_signed 32 _)
  | u32 => rfl
  | i64 => rfl
  | u64 => rfl

theorem exec_floatToXForms (s : State) (rm : Rm) (it : IntTy) (cc : FCc) (d a b : Nat) :
    ∀ e ∈ floatToXForms s rm it cc d a b, exec e.1 s = s.floatToX d e.2.1.1 e.2.1.2 e.2.2 := by
  simp only [floatToXForms, rounding_eq, List.forall_mem_cons]
  refine ⟨rfl, rfl, ?_, rfl, List.forall_mem_nil _⟩
  have hexec : exec (.fmvxf d a) s = s.floatToX d ((s.rdF a).zeroExtend 64) FFlags.none [s.labF a] := rfl
  have hword : (s.rdF a).zeroExtend 64 = BitVec.ofNat 64 (s.rdF a).toNat := by
    rw [BitVec.zeroExtend_eq_setWidth, BitVec.ofNat_toNat]
  rw [hexec, hword]

theorem exec_floatLongForms (s : State) (rm : Rm) (d a b : Nat) :
    ∀ e ∈ floatLongForms s rm d a b, exec e.1 s = s.floatLater d e.2.1 e.2.2 := by
  simp only [floatLongForms, rounding_eq, List.forall_mem_cons]
  exact ⟨rfl, rfl, List.forall_mem_nil _⟩

/-- Well-formed float forms name a register of their file (R54). -/
theorem floatForms_wf {s : State} {rm : Rm} {it : IntTy} {d a b : Nat} :
    ∀ e ∈ floatForms s rm it d a b, e.1.wf = true → d < 32 := by
  simp only [floatForms, List.forall_mem_cons]
  refine ⟨?_, ?_, ?_, ?_, ?_, ?_, ?_, ?_, List.forall_mem_nil _⟩
  all_goals exact fun h => (of_decide_eq_true h).1

theorem floatToXForms_wf {s : State} {rm : Rm} {it : IntTy} {cc : FCc} {d a b : Nat} :
    ∀ e ∈ floatToXForms s rm it cc d a b, e.1.wf = true → d < 64 := by
  simp only [floatToXForms, List.forall_mem_cons]
  refine ⟨?_, ?_, ?_, ?_, List.forall_mem_nil _⟩
  all_goals exact fun h => (of_decide_eq_true h).1

end Sys2Proof.Claims

namespace Sys2Proof
open Machine Claims

/-- Settles O29: what FP32 represents rounds to itself, and each form writes its result with its flags. -/
theorem floatForms : Obligations.FloatForms := by
  unfold Obligations.FloatForms
  refine ⟨fun m x y r _ hx hy hr hfin h0 => ⟨fun h => addV_exact m hx hy hr hfin h0 h, fun h => ?_,
      fun h => mulF_exact m hx hy hr hfin h0 h⟩, fun m x y h r hmem => ?_, fun s rm it d a b i r ws w u hmem hwf hform => ?_,
    fun s rm it cc d a b i ws w hwf => ⟨fun r hmem hlab => ?_, fun r u hmem hform => ?_⟩⟩
  · have hneg : finite y.neg := by cases y <;> exact hy
    refine addV_exact m hx hneg hr hfin h0 ?_
    rw [rat_neg y hy, h, sub_eq_add_neg]
  · have hneg : x.isNan = true ∨ y.neg.isNan = true := by rwa [neg_isNan]
    simp only [List.mem_cons, List.not_mem_nil, or_false] at hmem
    rcases hmem with rfl | rfl | rfl
    · rw [addV_nan m h, nanOf_two]
      exact ⟨rfl, rfl⟩
    · rw [addV_nan m hneg, nanOf_two, neg_isSnan]
      exact ⟨rfl, rfl⟩
    · rw [mulF_nan m h, nanOf_two]
      exact ⟨rfl, rfl⟩
  · obtain ⟨t, hresult, hwritten⟩ := floatResult_written (r := r) (floatForms_wf _ hmem hwf) hform
    exact ⟨t, (exec_floatForms s rm it d a b _ hmem).trans hresult, hwritten⟩
  · obtain ⟨t, hresult, hwritten⟩ := floatToX_written (v := r.1) (g := r.2) (floatToXForms_wf _ hmem hwf) hlab
    exact ⟨t, (exec_floatToXForms s rm it cc d a b _ hmem).trans hresult, hwritten⟩
  · have hexec := exec_floatLongForms s rm d a b _ hmem
    rw [State.floatLater, laterConj_of_form Reg.noConfusion hform] at hexec
    obtain ⟨hregs, hout, hcore, hctx, hrest, hmem⟩ := later_outside (formConj_formed hform) ⟨.f d, BitVec.ofNat 512 r.1, w, r.2⟩
    refine ⟨_, hexec, hregs, hout, ?_, hcore, hctx, hrest, hmem⟩
    rw [State.complete_core, Core.complete_streams, later_streams _ _ (fun v => Reg.noConfusion), (formConj_formed hform).streams]

end Sys2Proof
end

section
/-! PROOF. Lanes (R116, R117): what a register made of lanes reads as, and what a lanewise form leaves. -/

namespace Sys2Proof.Claims
open Machine

/-! ### Lanes of a number -/

theorem packLanes_lt (w : Nat) (l : List Nat) : packLanes w l < 2 ^ (w * l.length) := by
  induction l with
  | nil => simp [packLanes]
  | cons x l ih =>
    rw [packLanes, List.foldr_cons, List.length_cons, Nat.mul_succ, Nat.add_comm (w * l.length), Nat.pow_add]
    have hx : x % 2 ^ w < 2 ^ w := Nat.mod_lt _ (by positivity)
    calc x % 2 ^ w + 2 ^ w * packLanes w l < 2 ^ w + 2 ^ w * packLanes w l := by omega
      _ = 2 ^ w * (packLanes w l + 1) := by ring
      _ ≤ 2 ^ w * 2 ^ (w * l.length) := Nat.mul_le_mul_left _ ih

/-- A lane packed reads back; there is none beyond the last. -/
theorem packLanes_lane (w : Nat) (l : List Nat) (i : Nat) :
    packLanes w l / 2 ^ (w * i) % 2 ^ w = l.getD i 0 % 2 ^ w := by
  induction l generalizing i with
  | nil => simp [packLanes]
  | cons x l ih =>
    have hpos : 0 < 2 ^ w := by positivity
    have hx : x % 2 ^ w < 2 ^ w := Nat.mod_lt _ hpos
    rw [packLanes, List.foldr_cons]
    cases i with
    | zero =>
      rw [Nat.mul_zero, Nat.pow_zero, Nat.div_one, Nat.add_mul_mod_self_left, Nat.mod_mod]
      rfl
    | succ i =>
      rw [Nat.mul_succ, Nat.add_comm (w * i), Nat.pow_add, ← Nat.div_div_eq_div_mul, Nat.add_mul_div_left _ _ hpos,
        Nat.div_eq_of_lt hx, Nat.zero_add]
      exact ih i

theorem ofLanes_toNat {w : Nat} {l : List Nat} (h : w * l.length ≤ 512) : (ofLanes w l).toNat = packLanes w l := by
  rw [ofLanes, BitVec.toNat_ofNat]
  exact Nat.mod_eq_of_lt ((packLanes_lt w l).trans_le (Nat.pow_le_pow_right (by decide) h))

theorem ofLanes_lane {w : Nat} {l : List Nat} (h : w * l.length ≤ 512) (i : Nat) :
    laneOf w (ofLanes w l) i = l.getD i 0 % 2 ^ w := by
  rw [laneOf, ofLanes_toNat h, packLanes_lane]

theorem lane_eq (w : Nat) (v : VWord) (i : Nat) : lane w v i = laneOf w v i := rfl

theorem laneOf_lt (w : Nat) (v : VWord) (i : Nat) : laneOf w v i < 2 ^ w := Nat.mod_lt _ (by positivity)

theorem getD_map_range {α : Type} (f : Nat → α) {n i : Nat} (d : α) (h : i < n) : ((List.range n).map f).getD i d = f i := by
  rw [List.getD_eq_getElem?_getD, List.getElem?_map, List.getElem?_range h]
  rfl

theorem getD_map_range_beyond {α : Type} (f : Nat → α) {n i : Nat} (d : α) (h : n ≤ i) : ((List.range n).map f).getD i d = d := by
  rw [List.getD_eq_default]
  rw [List.length_map, List.length_range]
  exact h

theorem bits_count (t : ElemTy) : t.bits * t.count = 512 := by cases t <;> rfl

/-! ### Flags of lanes -/

theorem flags_or_none (g : FFlags) : g.or FFlags.none = g := by
  cases g
  simp [FFlags.or, FFlags.none]

theorem flags_none_or (g : FFlags) : FFlags.none.or g = g := rfl

theorem flags_all_map (l : List Nat) (f : Nat → FFlags) :
    ∀ acc : FFlags, (l.map f).foldl FFlags.or acc = l.foldl (fun acc i => acc.or (f i)) acc := by
  intro acc
  rw [List.foldl_map]

/-- Elements without flags add none. -/
theorem flags_filter (l : List Nat) (p : Nat → Bool) (f : Nat → FFlags) : ∀ acc : FFlags,
    l.foldl (fun acc i => acc.or (if p i = true then f i else FFlags.none)) acc =
      (l.filter p).foldl (fun acc i => acc.or (f i)) acc := by
  induction l with
  | nil => exact fun _ => rfl
  | cons i l ih =>
    intro acc
    rw [List.foldl_cons, ih, List.filter_cons]
    by_cases h : p i = true
    · rw [if_pos h, if_pos h, List.foldl_cons]
    · rw [if_neg h, if_neg h, flags_or_none]

/-! ### Lanewise results -/

theorem active_eq (s : State) (t : ElemTy) (pg i : Nat) : t.active (s.rdP pg) i = activeLane s t pg i := rfl

theorem mapLanes_lanes (s : State) (t : ElemTy) (pg : Nat) (old : VWord) (g : Nat → Nat × FFlags) :
    lanesAre s t pg old g (mapLanes t (s.rdP pg) old g).1 := by
  intro i hi
  have hlen : t.bits * (List.range t.count).length ≤ 512 := by rw [List.length_range, bits_count]
  rw [mapLanes]
  dsimp only
  rw [List.map_map, ofLanes_lane (by rwa [List.length_map]), getD_map_range _ _ hi]
  rw [Function.comp_apply, active_eq]
  by_cases ha : activeLane s t pg i = true
  · rw [if_pos ha, if_pos ha]
  · rw [if_neg ha, if_neg ha]
    exact Nat.mod_eq_of_lt (laneOf_lt _ _ _)

theorem mapLanes_flags (s : State) (t : ElemTy) (pg : Nat) (old : VWord) (g : Nat → Nat × FFlags) :
    (mapLanes t (s.rdP pg) old g).2 = laneFlags s t pg g := by
  rw [mapLanes, laneFlags, ← flags_filter]
  dsimp only
  rw [FFlags.all, List.map_map, flags_all_map]
  refine congrArg (fun f => List.foldl f FFlags.none (List.range t.count)) (funext fun acc => funext fun i => ?_)
  rw [Function.comp_apply, active_eq]
  by_cases ha : activeLane s t pg i = true
  · rw [if_pos ha, if_pos ha]
  · rw [if_neg ha, if_neg ha]

/-! ### Results in vector registers -/

theorem Formed.vFlagged {s u : State} (h : Formed s u) {d : Nat} (val : VWord) (w : LabelWord) (g : FFlags) (hd : d < 32) :
    vFlagged s ((u.wrV d val w).orFlags g).complete d val w g := by
  have hregs : ((u.wrV d val w).orFlags g).complete.core.regs = (s.core.regs.putV d val w).orFlags g := by
    rw [State.complete_core, Core.complete_regs, ← h.regs]
    rfl
  obtain ⟨hkept, hfile⟩ := vFile_putV (s := s) (t := s.wrV d val w) hd rfl
  refine ⟨?_, ?_, fun r hr => ?_, ?_, streamsEnded_erase s _ d ?_, coreSame.complete ?_, h.ctx, h.rest,
    memoryKept_of_dev h.rest.2.2.2⟩
  · rw [hregs]
    rfl
  · rw [hregs]
    rfl
  · rw [v, vl, hregs]
    exact hfile r hr
  · rw [State.complete_core, Core.complete_pending]
    exact h.pending
  · rw [State.complete_core, Core.complete_streams, ← h.streams]
    rfl
  · exact h.same

theorem vecResult_written {s u : State} {d : Nat} {r : VWord × FFlags} {ws : List LabelWord} {w : LabelWord} (hd : d < 32)
    (h : s.formConj ws = .ok (w, u)) : ∃ t, s.vecResult d r ws = .next t ∧ vFlagged s t d r.1 w r.2 := by
  refine ⟨_, ?_, (formConj_formed h).vFlagged _ _ _ hd⟩
  rw [State.vecResult, setV_of_form h]
  rfl

/-- A lanewise form writes its active lanes and their flags (R117). -/
theorem mapLanes_written {s u : State} {t : ElemTy} {d pg : Nat} {old : VWord} {g : Nat → Nat × FFlags} {ws : List LabelWord}
    {w : LabelWord} {i : Instr} (hd : d < 32) (h : s.formConj ws = .ok (w, u))
    (hexec : exec i s = s.vecResult d (mapLanes t (s.rdP pg) old g) ws) :
    ∃ r val, exec i s = .next r ∧ vFlagged s r d val w (laneFlags s t pg g) ∧ lanesAre s t pg old g val := by
  obtain ⟨r, hr, hwritten⟩ := vecResult_written (r := mapLanes t (s.rdP pg) old g) hd h
  rw [mapLanes_flags] at hwritten
  exact ⟨r, _, hexec.trans hr, hwritten, mapLanes_lanes s t pg old g⟩

theorem mergeWords_eq (s : State) (d pg : Nat) (ws : List LabelWord) :
    ws ++ s.predLab pg ++ s.mergeLab d pg = ws ++ mergeWords s d pg := by
  rw [List.append_assoc, State.predLab, State.mergeLab, mergeWords]
  split <;> rfl

theorem predWords_eq (s : State) (pg : Nat) : s.predLab pg = predWords s pg := rfl

end Sys2Proof.Claims
end

section
/-! PROOF. Lanewise vector forms and conversions (R118 to R124, R126, R127). -/

namespace Sys2Proof.Claims
open Machine

theorem laneInt_eq (s : State) (t : ElemTy) (a i : Nat) : s.laneI t a i = laneInt s t a i := sext_eq_signed _ _

theorem intLane_eq (t : ElemTy) (k : Int) : intLane t k = wrapped t k := rfl

theorem byType_int {t : ElemTy} (h : t.isInt = true) (k : Int) (g : Nat × FFlags) : byType t k g = wrapped t k := if_pos h

theorem byType_float {t : ElemTy} (h : ¬ t.isInt = true) (k : Int) (g : Nat × FFlags) : byType t k g = g := if_neg h

/-- The bits of a lane are those of its signed reading. -/
theorem wrapped_signed (t : ElemTy) {x : Nat} (h : x < 2 ^ t.bits) : wrapped t (signed t.bits x) = (x, FFlags.none) := by
  rw [wrapped, signed]
  congr 1
  rw [BitVec.toInt_eq_toNat_bmod, Int.bmod_emod, BitVec.toNat_ofNat, Nat.mod_eq_of_lt h, ← Int.natCast_mod, Nat.mod_eq_of_lt h,
    Int.toNat_natCast]

/-- The lesser and the greater of two lanes (R112, R119). -/
theorem laneMinMax_int {t : ElemTy} (ht : t.isInt = true) (mx : Bool) {x y : Nat} (hx : x < 2 ^ t.bits) (hy : y < 2 ^ t.bits) :
    laneMinMax t mx x y =
      wrapped t (if mx then max (signed t.bits x) (signed t.bits y) else min (signed t.bits x) (signed t.bits y)) := by
  have hsx : t.signed x = signed t.bits x := sext_eq_signed _ _
  have hsy : t.signed y = signed t.bits y := sext_eq_signed _ _
  have hsame (h : signed t.bits x = signed t.bits y) : x = y := by
    have := congrArg (wrapped t) h
    rw [wrapped_signed t hx, wrapped_signed t hy] at this
    exact (Prod.mk.inj this).1
  rw [laneMinMax, if_pos ht, hsx, hsy]
  rcases lt_trichotomy (signed t.bits x) (signed t.bits y) with h | h | h
  · cases mx
    · rw [min_eq_left h.le]
      simp [h, wrapped_signed t hx]
    · rw [max_eq_right h.le]
      simp [h, wrapped_signed t hy]
  · obtain rfl := hsame h
    rw [max_self, min_self, ite_self, wrapped_signed t hx]
    dsimp only
    rw [ite_self]
  · cases mx
    · rw [min_eq_right h.le]
      simp [h.not_gt, wrapped_signed t hy]
    · rw [max_eq_left h.le]
      simp [h.not_gt, wrapped_signed t hx]

/-- A lane by its type, from what it is for integers and for floats. -/
theorem lane_byType {t : ElemTy} {r : Nat × FFlags} {k : Int} {g : Nat × FFlags} (hi : t.isInt = true → r = wrapped t k)
    (hf : ¬ t.isInt = true → r = g) : r = byType t k g := by
  by_cases h : t.isInt = true
  · rw [byType_int h]; exact hi h
  · rw [byType_float h]; exact hf h

/-- Two lanewise results whose lanes agree are one. -/
theorem vecResult_congr {s : State} {d : Nat} {t : ElemTy} {p : Word} {old : VWord} {g h : Nat → Nat × FFlags} {ws xs : List LabelWord}
    (hg : ∀ i, g i = h i) (hw : ws = xs) : s.vecResult d (mapLanes t p old g) ws = s.vecResult d (mapLanes t p old h) xs := by
  rw [funext hg, hw]

/-! ### Kinds of form -/

section
variable (s : State) (t : ElemTy) (d a b pg : Nat)

theorem vec2_eq (f : FVal → FVal → Nat × FFlags) (k : Int → Int → Int) :
    s.vec2 t d a b pg f k = s.vecResult d (mapLanes t (s.rdP pg) (s.rdV d) fun i =>
      byType t (k (laneInt s t a i) (laneInt s t b i)) (f (laneFloat s t a i) (laneFloat s t b i)))
      ([s.labV a, s.labV b] ++ mergeWords s d pg) :=
  vecResult_congr (fun i => lane_byType (fun h => by rw [if_pos h, laneInt_eq, laneInt_eq, intLane_eq]) fun h => if_neg h)
    (mergeWords_eq s d pg _)

theorem fused_eq (minus : Bool) : s.fused t d a b pg minus = s.vecResult d (mapLanes t (s.rdP pg) (s.rdV d) fun i =>
    byType t (laneInt s t d i + if minus then -(laneInt s t a i * laneInt s t b i) else laneInt s t a i * laneInt s t b i)
      (t.fmt.fmaF s.src.fcsr.rm (laneFloat s t d i) (if minus then (laneFloat s t a i).neg else laneFloat s t a i)
        (laneFloat s t b i))) ([s.labV d, s.labV a, s.labV b] ++ predWords s pg) :=
  vecResult_congr (fun i => lane_byType (fun h => by rw [if_pos h, laneInt_eq, laneInt_eq, laneInt_eq]; rfl) fun h => if_neg h) rfl

theorem vecBits_eq (f : Nat → Nat → Nat × FFlags) (g : Nat → Nat × FFlags)
    (h : ∀ i, f (laneOf t.bits (s.rdV a) i) (laneOf t.bits (s.rdV b) i) = g i) :
    s.vecBits t d a b pg f = s.vecResult d (mapLanes t (s.rdP pg) (s.rdV d) g) ([s.labV a, s.labV b] ++ mergeWords s d pg) :=
  vecResult_congr h (mergeWords_eq s d pg _)

theorem vec1_eq (f g : Nat → Nat × FFlags) (h : ∀ i, f (laneOf t.bits (s.rdV a) i) = g i) :
    s.vec1 t d a pg f = s.vecResult d (mapLanes t (s.rdP pg) (s.rdV d) g) ([s.labV a] ++ mergeWords s d pg) :=
  vecResult_congr h (mergeWords_eq s d pg _)

/-! ### Forms -/

/-- The registers `x` and `y` of the arithmetic forms and what they read as. -/
theorem exec_vecArithmetic :
    ∀ e ∈ (vectorForms s t d a b pg).take 5, exec e.1 s = s.vecResult d (mapLanes t (s.rdP pg) e.2.2.1 e.2.2.2) e.2.1 := by
  simp only [vectorForms, List.take_succ_cons, List.take_zero, List.forall_mem_cons]
  refine ⟨vec2_eq s t d a b pg (t.fmt.addV s.src.fcsr.rm) fun x y => x + y,
    vec2_eq s t d a b pg (fun x y => t.fmt.addV s.src.fcsr.rm x y.neg) fun x y => x - y,
    vec2_eq s t d a b pg (t.fmt.mulF s.src.fcsr.rm) fun x y => x * y, fused_eq s t d a b pg false,
    (fused_eq s t d a b pg true).trans ?_, List.forall_mem_nil _⟩
  simp only [sub_eq_add_neg, if_true]

theorem exec_vecMinMax : ∀ e ∈ ((vectorForms s t d a b pg).drop 5).take 4,
    exec e.1 s = s.vecResult d (mapLanes t (s.rdP pg) e.2.2.1 e.2.2.2) e.2.1 := by
  have hsigned (x : Nat) : t.signed x = signed t.bits x := sext_eq_signed _ _
  simp only [vectorForms, List.drop_succ_cons, List.drop_zero, List.take_succ_cons, List.take_zero, List.forall_mem_cons]
  refine ⟨vecBits_eq s t d a b pg (laneMinMax t false) _ fun i => lane_byType (fun h => ?_) fun h => if_neg h,
    vecBits_eq s t d a b pg (laneMinMax t true) _ fun i => lane_byType (fun h => ?_) fun h => if_neg h,
    vec1_eq s t d a pg (fun x => (if t.isInt then t.wrap (t.signed x).natAbs else x % t.fmt.signBit, FFlags.none)) _
      fun i => lane_byType (fun h => ?_) fun h => ?_,
    vec1_eq s t d a pg (fun x => (if t.isInt then t.wrap (-t.signed x) else x ^^^ t.fmt.signBit, FFlags.none)) _
      fun i => lane_byType (fun h => ?_) fun h => ?_, List.forall_mem_nil _⟩
  · rw [laneMinMax_int h false (laneOf_lt ..) (laneOf_lt ..)]
    rfl
  · rw [laneMinMax_int h true (laneOf_lt ..) (laneOf_lt ..)]
    rfl
  · rw [if_pos h, hsigned]; rfl
  · rw [if_neg h]
  · rw [if_pos h, hsigned]; rfl
  · rw [if_neg h]

theorem exec_vecLogic : ∀ e ∈ ((vectorForms s t d a b pg).drop 9).take 6,
    exec e.1 s = s.vecResult d (mapLanes t (s.rdP pg) e.2.2.1 e.2.2.2) e.2.1 := by
  have hsigned (x : Nat) : t.signed x = signed t.bits x := sext_eq_signed _ _
  simp only [vectorForms, List.drop_succ_cons, List.drop_zero, List.take_succ_cons, List.take_zero, List.forall_mem_cons]
  refine ⟨vecBits_eq s t d a b pg (fun x y => plain (x &&& y)) _ fun _ => rfl,
    vecBits_eq s t d a b pg (fun x y => plain (x ||| y)) _ fun _ => rfl,
    vecBits_eq s t d a b pg (fun x y => plain (x ^^^ y)) _ fun _ => rfl,
    vecBits_eq s t d a b pg (fun x y => plain (x * 2 ^ (y % t.bits) % 2 ^ t.bits)) _ fun _ => rfl,
    vecBits_eq s t d a b pg (fun x y => plain (x / 2 ^ (y % t.bits))) _ fun _ => rfl,
    vecBits_eq s t d a b pg (fun x y => intLane t (t.signed x / ((2 ^ (y % t.bits) : Nat) : Int))) _ fun i => ?_,
    List.forall_mem_nil _⟩
  rw [hsigned, intLane_eq]
  push_cast
  rfl

theorem exec_vecMoves : ∀ e ∈ (vectorForms s t d a b pg).drop 15,
    exec e.1 s = s.vecResult d (mapLanes t (s.rdP pg) e.2.2.1 e.2.2.2) e.2.1 := by
  simp only [vectorForms, List.drop_succ_cons, List.drop_zero, List.forall_mem_cons]
  refine ⟨rfl, vec1_eq s t d a pg plain _ fun _ => rfl, rfl, vecResult_congr (fun _ => rfl) (mergeWords_eq s d pg _),
    vecResult_congr (fun _ => ?_) (mergeWords_eq s d pg _), List.forall_mem_nil _⟩
  cases t <;> rfl

theorem exec_vectorForms :
    ∀ e ∈ vectorForms s t d a b pg, exec e.1 s = s.vecResult d (mapLanes t (s.rdP pg) e.2.2.1 e.2.2.2) e.2.1 := by
  intro e he
  rw [← List.take_append_drop 5 (vectorForms s t d a b pg), List.mem_append] at he
  rcases he with he | he
  · exact exec_vecArithmetic s t d a b pg e he
  rw [← List.take_append_drop 4 (List.drop 5 _), List.mem_append, List.drop_drop] at he
  rcases he with he | he
  · exact exec_vecMinMax s t d a b pg e he
  rw [← List.take_append_drop 6 (List.drop _ _), List.mem_append, List.drop_drop] at he
  rcases he with he | he
  · exact exec_vecLogic s t d a b pg e he
  · exact exec_vecMoves s t d a b pg e he

end

theorem vectorForms_wf {s : State} {t : ElemTy} {d a b pg : Nat} : ∀ e ∈ vectorForms s t d a b pg, e.1.wf = true → d < 32 := by
  have h4 (c : Bool) (h : (vec4 d a b pg && c) = true) : d < 32 := (of_decide_eq_true (Bool.and_eq_true_iff.mp h).1).1
  simp only [vectorForms, List.forall_mem_cons]
  refine ⟨?_, ?_, ?_, ?_, ?_, ?_, ?_, ?_, ?_, h4 _, h4 _, h4 _, h4 _, h4 _, h4 _, ?_, ?_, ?_, h4 _, ?_, List.forall_mem_nil _⟩
  all_goals exact fun h => (of_decide_eq_true h).1

/-! ### Long-latency forms -/

/-- A result outstanding for a vector register ends its stream (R293). -/
theorem later_streamsEnded (s : State) (d : Nat) (v : VWord) (w : LabelWord) (g : FFlags) :
    (s.later ⟨.v d, v, w, g⟩).core.streams = eraseAt d s.core.streams := by
  unfold State.later
  rw [if_neg Reg.noConfusion]
  rfl

theorem exec_vectorLongForms (s : State) (t : ElemTy) (d a pg : Nat) : ∀ e ∈ vectorLongForms s t d a pg,
    exec e.1 s = s.vecLater d (mapLanes t (s.rdP pg) (s.rdV d) e.2) ([s.labV a] ++ mergeWords s d pg) := by
  have hlater (f : Nat → Nat × FFlags) : s.mergingLater t d pg [s.labV a] f =
      s.vecLater d (mapLanes t (s.rdP pg) (s.rdV d) f) ([s.labV a] ++ mergeWords s d pg) := by
    rw [State.mergingLater, mergeWords_eq]
  simp only [vectorLongForms, List.forall_mem_cons]
  exact ⟨hlater _, hlater _, hlater _, List.forall_mem_nil _⟩

end Sys2Proof.Claims

namespace Sys2Proof
open Machine Claims

/-- Settles O30: a lanewise form maps its function over the active lanes. -/
theorem vectorForms : Obligations.VectorForms := by
  unfold Obligations.VectorForms
  refine ⟨fun s u t d a b pg i ws old g w hmem hwf hform => ?_, fun s u t d a pg i g w hmem hwf hform => ?_⟩
  · exact mapLanes_written (vectorForms_wf _ hmem hwf) hform (exec_vectorForms s t d a b pg _ hmem)
  · have hexec := exec_vectorLongForms s t d a pg _ hmem
    have hformed := formConj_formed hform
    rw [State.vecLater, laterConj_of_form Reg.noConfusion hform] at hexec
    obtain ⟨hregs, hout, hcore, hctx, hrest, hmem⟩ :=
      later_outside hformed ⟨.v d, (mapLanes t (s.rdP pg) (s.rdV d) g).1, w, (mapLanes t (s.rdP pg) (s.rdV d) g).2⟩
    rw [mapLanes_flags] at hexec hregs hout hcore hctx hrest hmem
    refine ⟨_, _, hexec, hregs, hout, mapLanes_lanes s t pg (s.rdV d) g, streamsEnded_erase s _ d ?_, hcore, hctx, hrest, hmem⟩
    rw [State.complete_core, Core.complete_streams, later_streamsEnded, hformed.streams]

end Sys2Proof
end

section
/-! PROOF. VCVT, VDEC and VENC (R104, R107, R122, R123). -/

namespace Sys2Proof.Claims
open Machine

theorem convertLane_eq (s : State) (t src : ElemTy) (x : Nat) : convertLane s.frm t src x = converted s t src x := by
  have hsigned : src.signed x = signed src.bits x := sext_eq_signed _ _
  rw [convertLane, converted, hsigned]
  rfl

theorem exec_vcvt (s : State) (t src : ElemTy) (d a pg : Nat) :
    exec (.vcvt t src d a pg) s = s.vecResult d (mapLanes t (s.rdP pg) (s.rdV d) fun i =>
      if i < src.count then converted s t src (laneOf src.bits (s.rdV a) i) else (0, FFlags.none))
      ([s.labV a] ++ mergeWords s d pg) :=
  vecResult_congr (fun i => by rw [convertLane_eq]; rfl) (mergeWords_eq s d pg _)

theorem exec_vdec (s : State) (bank : Bank) (t : ElemTy) (d a pg : Nat) :
    exec (.vdec bank t d a pg) s = s.vecResult d (mapLanes t (s.rdP pg) (s.rdV d) fun i => t.fmt.convert 0
      (decodeEntry ((entries s bank).getD (laneOf (codeWidth bank) (s.rdV a) i) 0))) ([s.labV a] ++ mergeWords s d pg) :=
  vecResult_congr (fun i => by cases bank <;> rfl) (mergeWords_eq s d pg _)

/-- The codes that VENC leaves, with the flags of the active lanes (R123). -/
def codes (s : State) (bank : Bank) (t : ElemTy) (d pg : Nat) (g : Nat → Nat × FFlags) : List (Nat × FFlags) :=
  (List.range t.count).map fun i =>
    if t.active (s.rdP pg) i then g i else plain (lane (codeWidth bank) (s.rdV d) i)

theorem exec_venc (s : State) (bank : Bank) (nan : Bool) (t : ElemTy) (d a pg : Nat) :
    exec (.venc bank nan t d a pg) s =
      let rs := codes s bank t d pg fun i =>
        encodeValue (entries s bank) nan (decide (laneOf t.bits (s.rdV a) i / t.fmt.signBit = 1)) (laneFloat s t a i)
      s.vecResult d (ofLanes (codeWidth bank) (rs.map Prod.fst), FFlags.all (rs.map Prod.snd)) ([s.labV a] ++ mergeWords s d pg) := by
  have hexec : exec (.venc bank nan t d a pg) s = execVenc bank nan t d a pg s := rfl
  rw [hexec, execVenc, mergeWords_eq]
  cases bank <;> rfl

theorem codes_flags (s : State) (bank : Bank) (t : ElemTy) (d pg : Nat) (g : Nat → Nat × FFlags) :
    FFlags.all ((codes s bank t d pg g).map Prod.snd) = laneFlags s t pg g := by
  rw [laneFlags, ← flags_filter, FFlags.all, codes, List.map_map, flags_all_map]
  refine congrArg (fun f => List.foldl f FFlags.none (List.range t.count)) (funext fun acc => funext fun i => ?_)
  rw [Function.comp_apply, active_eq]
  by_cases ha : activeLane s t pg i = true
  · rw [if_pos ha, if_pos ha]
  · rw [if_neg ha, if_neg ha]
    rfl

/-- A code of a float lane is half as wide at most: the codes fill half the register. -/
theorem codes_fit {t : ElemTy} (bank : Bank) (h : t.isInt = false) : codeWidth bank * t.count ≤ 256 := by
  cases t <;> cases bank <;> simp [ElemTy.isInt] at h <;> decide

theorem codes_lane (s : State) (bank : Bank) {t : ElemTy} (d pg : Nat) (g : Nat → Nat × FFlags) (ht : t.isInt = false) {i : Nat}
    (hi : i < t.count) : laneOf (codeWidth bank) (ofLanes (codeWidth bank) ((codes s bank t d pg g).map Prod.fst)) i =
      if activeLane s t pg i then (g i).1 % 2 ^ codeWidth bank else laneOf (codeWidth bank) (s.rdV d) i := by
  have hlen : codeWidth bank * (List.range t.count).length ≤ 512 := by
    rw [List.length_range]
    have := codes_fit bank ht
    omega
  rw [codes, List.map_map, ofLanes_lane (by rwa [List.length_map]), getD_map_range _ _ hi, Function.comp_apply, active_eq]
  by_cases ha : activeLane s t pg i = true
  · rw [if_pos ha, if_pos ha]
  · rw [if_neg ha, if_neg ha]
    exact Nat.mod_eq_of_lt (laneOf_lt _ _ _)

/-- Every byte above the last code is 0 (R123). -/
theorem codes_beyond (s : State) (bank : Bank) {t : ElemTy} (d pg : Nat) (g : Nat → Nat × FFlags) (ht : t.isInt = false) {i : Nat}
    (hi : codeWidth bank * t.count ≤ 8 * i) :
    laneOf 8 (ofLanes (codeWidth bank) ((codes s bank t d pg g).map Prod.fst)) i = 0 := by
  have hlen : ((codes s bank t d pg g).map Prod.fst).length = t.count := by
    rw [codes, List.length_map, List.length_map, List.length_range]
  have hfit : codeWidth bank * ((codes s bank t d pg g).map Prod.fst).length ≤ 512 := by
    rw [hlen]
    have := codes_fit bank ht
    omega
  rw [laneOf, ofLanes_toNat hfit, Nat.div_eq_of_lt, Nat.zero_mod]
  exact (packLanes_lt _ _).trans_le (Nat.pow_le_pow_right (by decide) (by rwa [hlen]))

end Sys2Proof.Claims

namespace Sys2Proof
open Machine Claims

/-- Settles O31: the conversions map over the active lanes, VENC over codes narrower than the lanes. -/
theorem vectorConversions : Obligations.VectorConversions := by
  unfold Obligations.VectorConversions
  intro s u t src bank nan d a pg w hform
  refine ⟨fun hwf g hg => ?_, fun hwf g hg => ?_, fun hwf g hg => ?_⟩
  · subst hg
    exact mapLanes_written (of_decide_eq_true (Bool.and_eq_true_iff.mp hwf).1).1 hform (exec_vcvt s t src d a pg)
  · subst hg
    exact mapLanes_written (of_decide_eq_true (Bool.and_eq_true_iff.mp hwf).1).1 hform (exec_vdec s bank t d a pg)
  · subst hg
    obtain ⟨hregs, hfloat⟩ := Bool.and_eq_true_iff.mp hwf
    have ht : t.isInt = false := by simpa using hfloat
    have hexec := exec_venc s bank nan t d a pg
    dsimp only at hexec
    rw [codes_flags] at hexec
    obtain ⟨r, hr, hwritten⟩ := vecResult_written (of_decide_eq_true hregs).1 hform
    exact ⟨r, _, hexec.trans hr, hwritten, fun i hi => codes_lane s bank d pg _ ht hi,
      fun i hi _ => codes_beyond s bank d pg _ ht hi⟩

end Sys2Proof
end

section
/-! PROOF. Reductions (R125): the tree over the lanes, the sum of integers and the greatest lane; a rounded result fits its
format (R98, R99). -/

namespace Sys2Proof.Claims
open Machine

/-! ### The tree -/

theorem tree_congr (op : Nat → Nat → Nat × FFlags) (k : Nat) : ∀ {v w : Nat → Nat}, (∀ i, i < 2 ^ k → v i = w i) →
    tree op k v = tree op k w := by
  induction k with
  | zero => exact fun h => by rw [tree, tree, h 0 (by decide)]
  | succ k ih =>
    intro v w h
    have hpow : 2 ^ (k + 1) = 2 ^ k + 2 ^ k := by ring
    have hop (i : Nat) (hi : i < 2 ^ k) : op (v i) (v (i + 2 ^ k)) = op (w i) (w (i + 2 ^ k)) := by
      rw [h i (by omega), h (i + 2 ^ k) (by omega)]
    rw [tree, tree]
    dsimp only
    rw [ih fun i hi => by rw [hop i hi]]
    congr 2
    exact List.foldl_ext _ _ _ fun acc i hi => by rw [hop i (List.mem_range.mp hi)]

/-- The tree of a list of values (R125). -/
theorem reduceTree_eq (op : Nat → Nat → Nat × FFlags) (k : Nat) : ∀ l : List Nat, l.length = 2 ^ k →
    reduceTree op k l = tree op k fun i => l.getD i 0 := by
  induction k with
  | zero =>
    intro l hl
    rw [reduceTree, tree, plain]
    cases l <;> rfl
  | succ k ih =>
    intro l hl
    have hhalf : l.length / 2 = 2 ^ k := by rw [hl, Nat.pow_succ]; omega
    rw [reduceTree, tree]
    dsimp only
    rw [hhalf, List.map_map, ih _ (by rw [List.length_map, List.length_range]), FFlags.all, List.map_map, flags_all_map]
    have hlevel : tree op k (fun i => ((List.range (2 ^ k)).map
        (Prod.fst ∘ fun i => op (l.getD i 0) (l.getD (i + 2 ^ k) 0))).getD i 0) =
        tree op k fun i => (op (l.getD i 0) (l.getD (i + 2 ^ k) 0)).1 :=
      tree_congr op k fun i hi => getD_map_range _ _ hi
    rw [hlevel]
    rfl

/-- What holds of the values and is kept by the operation holds of the result. -/
theorem tree_invariant {P : Nat → Prop} {op : Nat → Nat → Nat × FFlags} (hop : ∀ p q, P p → P q → P (op p q).1) (k : Nat) :
    ∀ v : Nat → Nat, (∀ i, P (v i)) → P (tree op k v).1 := by
  induction k with
  | zero => exact fun v hv => hv 0
  | succ k ih => exact fun v hv => ih _ fun i => hop _ _ (hv _) (hv _)

theorem foldl_none (l : List Nat) {f : Nat → FFlags} (h : ∀ i, f i = FFlags.none) :
    l.foldl (fun acc i => acc.or (f i)) FFlags.none = FFlags.none := by
  induction l with
  | nil => rfl
  | cons i l ih => rw [List.foldl_cons, h, flags_or_none]; exact ih

theorem tree_noFlags {op : Nat → Nat → Nat × FFlags} (hop : ∀ p q, (op p q).2 = FFlags.none) (k : Nat) :
    ∀ v : Nat → Nat, (tree op k v).2 = FFlags.none := by
  induction k with
  | zero => exact fun _ => rfl
  | succ k ih =>
    intro v
    rw [tree]
    dsimp only
    rw [ih, flags_or_none]
    exact foldl_none _ fun i => hop _ _

/-- The tree of sums is the sum, modulo the width at every level. -/
theorem tree_sum (n k : Nat) : ∀ v : Nat → Nat, (∀ i, v i < n) →
    (tree (fun p q => ((p + q) % n, FFlags.none)) k v).1 = (∑ i ∈ Finset.range (2 ^ k), v i) % n := by
  induction k with
  | zero =>
    intro v hv
    rw [tree, Nat.pow_zero, Finset.sum_range_one, Nat.mod_eq_of_lt (hv 0)]
  | succ k ih =>
    intro v hv
    rw [tree]
    dsimp only
    have hn : 0 < n := (Nat.zero_le _).trans_lt (hv 0)
    have hpow : 2 ^ (k + 1) = 2 ^ k + 2 ^ k := by ring
    rw [ih _ fun i => Nat.mod_lt _ hn, ← Finset.sum_nat_mod, Finset.sum_add_distrib, hpow, Finset.sum_range_add]
    simp only [Nat.add_comm (2 ^ k)]

/-- The tree of maxima gives one of the values, the greatest in the order of `g`. -/
theorem tree_max (g : Nat → Int) (k : Nat) : ∀ v : Nat → Nat,
    let top := (tree (fun p q => (if g p < g q then q else p, FFlags.none)) k v).1
    (∃ i, i < 2 ^ k ∧ top = v i) ∧ ∀ i, i < 2 ^ k → g (v i) ≤ g top := by
  induction k with
  | zero =>
    intro v
    refine ⟨⟨0, by decide, rfl⟩, fun i hi => ?_⟩
    obtain rfl : i = 0 := by omega
    exact le_refl _
  | succ k ih =>
    intro v
    have hpow : 2 ^ (k + 1) = 2 ^ k + 2 ^ k := by ring
    obtain ⟨⟨j, hj, htop⟩, hmax⟩ := ih fun i => if g (v i) < g (v (i + 2 ^ k)) then v (i + 2 ^ k) else v i
    dsimp only
    rw [tree]
    dsimp only
    refine ⟨?_, fun i hi => ?_⟩
    · rw [htop]
      split
      · exact ⟨j + 2 ^ k, by omega, rfl⟩
      · exact ⟨j, by omega, rfl⟩
    · by_cases hlow : i < 2 ^ k
      · refine le_trans ?_ (hmax i hlow)
        split
        · next h => exact h.le
        · exact le_refl _
      · refine le_trans ?_ (hmax (i - 2 ^ k) (by omega))
        have hi : i - 2 ^ k + 2 ^ k = i := by omega
        rw [hi]
        split
        · exact le_refl _
        · next h => exact not_lt.mp h

/-! ### Rounded results fit -/

/-- A format whose fields are wide enough for the exponents of R98. -/
def properFmt (t : Fmt) : Prop := 2 ≤ t.eb ∧ 1 ≤ t.mb

theorem roundInt_le {m M : Nat} {shift : Int} (rm : Nat) (neg : Bool) (h : (m.log2 : Int) - M ≤ shift) :
    (roundInt rm neg m shift).1 ≤ 2 ^ (M + 1) := by
  have hm : m < 2 ^ (m.log2 + 1) := Nat.lt_log2_self
  rw [roundInt]
  split
  · next hle =>
    have hexp : m.log2 + 1 + (-shift).toNat ≤ M + 1 := by omega
    calc m * 2 ^ (-shift).toNat ≤ 2 ^ (m.log2 + 1) * 2 ^ (-shift).toNat := Nat.mul_le_mul_right _ hm.le
      _ = 2 ^ (m.log2 + 1 + (-shift).toNat) := (Nat.pow_add 2 (m.log2 + 1) _).symm
      _ ≤ 2 ^ (M + 1) := Nat.pow_le_pow_right (by decide) hexp
  · have hexp : m.log2 + 1 ≤ M + 1 + shift.toNat := by omega
    have hdiv : m / 2 ^ shift.toNat < 2 ^ (M + 1) := by
      rw [Nat.div_lt_iff_lt_mul (by positivity), ← Nat.pow_add]
      exact hm.trans_le (Nat.pow_le_pow_right (by decide) hexp)
    have hup (b : Bool) : oneBit b ≤ 1 := by cases b <;> decide
    dsimp only
    exact (Nat.add_le_add_left (hup _) _).trans hdiv

theorem roundInt_ge {m M : Nat} {shift : Int} (rm : Nat) (neg : Bool) (hm : m ≠ 0) (h : shift = (m.log2 : Int) - M) :
    2 ^ M ≤ (roundInt rm neg m shift).1 := by
  have hm : 2 ^ m.log2 ≤ m := Nat.log2_self_le hm
  rw [roundInt]
  split
  · next hle =>
    have hexp : M = m.log2 + (-shift).toNat := by omega
    calc 2 ^ M = 2 ^ m.log2 * 2 ^ (-shift).toNat := by rw [← Nat.pow_add, ← hexp]
      _ ≤ m * 2 ^ (-shift).toNat := Nat.mul_le_mul_right _ hm
  · have hexp : m.log2 = M + shift.toNat := by omega
    refine le_trans ?_ (Nat.le_add_right _ _)
    rw [Nat.le_div_iff_mul_le (by positivity), ← Nat.pow_add, ← hexp]
    exact hm

theorem bias_twice {t : Fmt} (h : properFmt t) : 2 ^ t.eb = 2 * t.bias + 2 ∧ 1 ≤ t.bias := by
  obtain ⟨heb, -⟩ := h
  obtain ⟨k, hk⟩ : ∃ k, t.eb = k + 2 := ⟨t.eb - 2, by omega⟩
  have hpos : 0 < 2 ^ k := by positivity
  rw [Fmt.bias, hk]
  constructor
  · rw [show k + 2 - 1 = k + 1 by omega, Nat.pow_succ, Nat.pow_succ]
    omega
  · rw [show k + 2 - 1 = k + 1 by omega, Nat.pow_succ]
    omega

/-- A magnitude with its sign fits. -/
theorem signed_lt (t : Fmt) (neg : Bool) {n : Nat} (h : n < 2 ^ (t.eb + t.mb)) : n + oneBit neg * t.signBit < 2 ^ t.width := by
  have hb : oneBit neg ≤ 1 := by cases neg <;> decide
  have hs : oneBit neg * t.signBit ≤ 2 ^ (t.eb + t.mb) := by
    rw [Fmt.signBit]
    exact Nat.mul_le_of_le_div _ _ _ (by rw [Nat.div_self (by positivity)]; exact hb)
  rw [Fmt.width, Nat.pow_succ]
  omega

theorem special_lt {t : Fmt} (h : properFmt t) :
    (∀ neg, t.infBits neg < 2 ^ t.width) ∧ (∀ neg, t.maxBits neg < 2 ^ t.width) ∧ (∀ neg, t.zeroBits neg < 2 ^ t.width) ∧
      t.nanBits < 2 ^ t.width := by
  obtain ⟨hbias, -⟩ := bias_twice h
  have hM : 0 < 2 ^ t.mb := by positivity
  have hhalf : 2 ^ (t.mb - 1) < 2 ^ t.mb := Nat.pow_lt_pow_right (by decide) (by have := h.2; omega)
  have htop : (2 ^ t.eb - 1) * 2 ^ t.mb + 2 ^ t.mb = 2 ^ (t.eb + t.mb) := by
    rw [Nat.pow_add, ← Nat.succ_mul]
    congr 1
    omega
  refine ⟨fun neg => signed_lt t neg (by omega), fun neg => signed_lt t neg (by omega), fun neg => ?_, ?_⟩
  · have := signed_lt t neg (n := 0) (by positivity)
    rwa [Nat.zero_add] at this
  · have := signed_lt t false (n := t.nanBits) (by rw [Fmt.nanBits]; omega)
    simpa [oneBit] using this

theorem round_lt {t : Fmt} (h : properFmt t) (rm : Nat) (neg : Bool) (m : Nat) (e : Int) : (t.round rm neg m e).1 < 2 ^ t.width := by
  obtain ⟨hinf, hmax, hzero, -⟩ := special_lt h
  obtain ⟨hbias, hpos⟩ := bias_twice h
  rw [Fmt.round]
  split
  · exact hzero neg
  · next hm =>
    have hle := roundInt_le (m := m) (M := t.mb) (shift := max (e + m.log2) (1 - (t.bias : Int)) - t.mb - e) rm neg (by omega)
    have hge := roundInt_ge (m := m) (M := t.mb) (shift := (m.log2 : Int) - t.mb) rm neg hm rfl
    dsimp only
    rcases hr : roundInt rm neg m (max (e + m.log2) (1 - (t.bias : Int)) - t.mb - e) with ⟨n, inexact⟩
    rw [hr] at hle
    dsimp only at hle ⊢
    split
    · split
      · exact hinf neg
      · exact hmax neg
    · next hsmall =>
      refine signed_lt t neg ?_
      rw [Bool.and_eq_true, decide_eq_true_iff, decide_eq_true_iff] at hsmall
      have hbe : (max (e + (m.log2 : Int)) (1 - (t.bias : Int)) - t.mb + t.mb + t.bias - 1).toNat ≤ 2 * t.bias - 1 := by
        by_cases htop : 1 - (t.bias : Int) ≤ e + m.log2
        · have hshift : max (e + (m.log2 : Int)) (1 - (t.bias : Int)) - t.mb - e = m.log2 - t.mb := by omega
          rw [← hshift, hr] at hge
          have hn : n ≠ 0 := by
            have : 0 < 2 ^ t.mb := by positivity
            dsimp only at hge
            omega
          have hlog : t.mb ≤ n.log2 := (Nat.le_log2 hn).mpr hge
          have hbound := not_and.mp hsmall hn
          omega
        · omega
      rw [Nat.pow_add, hbias]
      have hprod := Nat.mul_le_mul_right (2 ^ t.mb) hbe
      have hpow : 2 ^ (t.mb + 1) = 2 * 2 ^ t.mb := by ring
      have hexpand : (2 * t.bias + 2) * 2 ^ t.mb = (2 * t.bias - 1) * 2 ^ t.mb + 3 * 2 ^ t.mb := by
        rw [← Nat.add_mul]
        congr 1
        omega
      have hM : 0 < 2 ^ t.mb := by positivity
      omega

theorem addV_lt {t : Fmt} (h : properFmt t) (rm : Nat) (x y : FVal) : (t.addV rm x y).1 < 2 ^ t.width := by
  obtain ⟨hinf, -, hzero, hnan⟩ := special_lt h
  have hround (z : Bool) (k : Exact) : (t.roundD rm z k).1 < 2 ^ t.width := by
    rw [Fmt.roundD]
    split
    · exact hzero z
    · exact round_lt h _ _ _ _
  rw [Fmt.addV.eq_def]
  split
  · exact hnan
  · exact hnan
  · split
    · exact hinf _
    · exact hnan
  · exact hinf _
  · exact hinf _
  · exact hround _ _

theorem minMax_lt {t : Fmt} (h : properFmt t) (mx : Bool) {a b : Nat} (ha : a < 2 ^ t.width) (hb : b < 2 ^ t.width) :
    (t.minMax mx a b).1 < 2 ^ t.width := by
  obtain ⟨-, -, -, hnan⟩ := special_lt h
  rw [Fmt.minMax]
  dsimp only
  split
  · exact hnan
  · split
    · exact hb
    · split
      · exact ha
      · split
        · exact ha
        · exact hb

end Sys2Proof.Claims
end

section
/-! PROOF. VREDS, VREDM, VINS and VEXT (R125, R127). -/

namespace Sys2Proof.Claims
open Machine

theorem count_log2 (t : ElemTy) : t.count = 2 ^ t.count.log2 := by cases t <;> rfl

theorem bits_pos (t : ElemTy) : 0 < t.bits := by cases t <;> decide

/-- The format of a float lane is as wide as the lane. -/
theorem fmt_float {t : ElemTy} (h : ¬ t.isInt = true) : properFmt t.fmt ∧ t.fmt.width = t.bits := by
  cases t
  case f32 => exact ⟨⟨by decide, by decide⟩, rfl⟩
  case bf16 => exact ⟨⟨by decide, by decide⟩, rfl⟩
  case f16 => exact ⟨⟨by decide, by decide⟩, rfl⟩
  all_goals exact absurd rfl h

/-- −0 is the sign bit alone. -/
theorem zeroBits_float {t : ElemTy} (h : ¬ t.isInt = true) : t.fmt.zeroBits true = 2 ^ (t.bits - 1) := by
  cases t
  case f32 => rfl
  case bf16 => rfl
  case f16 => rfl
  all_goals exact absurd rfl h

theorem half_lt (t : ElemTy) : 2 ^ (t.bits - 1) < 2 ^ t.bits :=
  Nat.pow_lt_pow_right (by decide) (by have := bits_pos t; omega)

theorem reduced_lt (s : State) (t : ElemTy) (a pg : Nat) {ident : Nat} (h : ident < 2 ^ t.bits) (i : Nat) :
    reduced s t a pg ident i < 2 ^ t.bits := by
  rw [reduced]
  split
  · exact laneOf_lt _ _ _
  · exact h

/-- A reduction writes the tree of its lanes into lane 0 and clears the rest. -/
theorem reduce_eq (s : State) (t : ElemTy) (d a pg ident : Nat) (op : Nat → Nat → Nat × FFlags) :
    s.reduce t d a pg ident op = s.vecResult d
      (BitVec.ofNat 512 (tree op t.count.log2 (reduced s t a pg ident)).1, (tree op t.count.log2 (reduced s t a pg ident)).2)
      ([s.labV a] ++ predWords s pg) := by
  have hlen : ((List.range t.count).map fun i => if t.active (s.rdP pg) i then s.laneV t a i else ident).length =
      2 ^ t.count.log2 := by
    rw [List.length_map, List.length_range]
    exact count_log2 t
  rw [State.reduce, reduceTree_eq op _ _ hlen, tree_congr op _ fun i hi => getD_map_range _ 0 (by rwa [count_log2 t])]
  rfl

theorem execVreds_eq (s : State) (t : ElemTy) (d a pg : Nat) : exec (.vreds t d a pg) s =
    s.vecResult d (BitVec.ofNat 512 (laneSum s t a pg).1, (laneSum s t a pg).2) ([s.labV a] ++ predWords s pg) := by
  have hexec : exec (.vreds t d a pg) s = execVreds t d a pg s := rfl
  rw [hexec, execVreds, reduce_eq, laneSum]
  by_cases h : t.isInt = true
  · simp only [if_pos h, plain]
  · simp only [if_neg h, zeroBits_float h]

theorem laneMinMax_max (t : ElemTy) (p q : Nat) : laneMinMax t true p q =
    if t.isInt then (if signed t.bits p < signed t.bits q then q else p, FFlags.none) else t.fmt.minMax true p q := by
  have hp : t.signed p = signed t.bits p := sext_eq_signed _ _
  have hq : t.signed q = signed t.bits q := sext_eq_signed _ _
  rw [laneMinMax, hp, hq]
  by_cases h : signed t.bits p < signed t.bits q <;> simp [h]

theorem execVredm_eq (s : State) (t : ElemTy) (d a pg : Nat) : exec (.vredm t d a pg) s =
    s.vecResult d (BitVec.ofNat 512 (laneMax s t a pg).1, (laneMax s t a pg).2) ([s.labV a] ++ predWords s pg) := by
  have hexec : exec (.vredm t d a pg) s = execVredm t d a pg s := rfl
  rw [hexec, execVredm, reduce_eq, laneMax, funext fun p => funext fun q => laneMinMax_max t p q]

/-! ### The sum -/

theorem sum_filter (n : Nat) (p : Nat → Bool) (f : Nat → Nat) :
    (((List.range n).filter p).map f).sum = ∑ i ∈ Finset.range n, if p i = true then f i else 0 := by
  induction n with
  | zero => rfl
  | succ n ih =>
    rw [List.range_succ, List.filter_append, List.map_append, List.sum_append, ih, Finset.sum_range_succ]
    by_cases h : p n = true
    · simp [h]
    · simp [h]

theorem laneSum_int {t : ElemTy} (ht : t.isInt = true) (s : State) (a pg : Nat) : (laneSum s t a pg).2 = FFlags.none ∧
    (laneSum s t a pg).1 =
      (((List.range t.count).filter (activeLane s t pg)).map (laneOf t.bits (s.rdV a))).sum % 2 ^ t.bits := by
  rw [laneSum]
  simp only [if_pos ht]
  refine ⟨tree_noFlags (fun _ _ => rfl) _ _, ?_⟩
  rw [tree_sum _ _ _ (reduced_lt s t a pg (by positivity)), ← count_log2, sum_filter]
  rfl

theorem laneSum_lt (s : State) (t : ElemTy) (a pg : Nat) : (laneSum s t a pg).1 < 2 ^ t.bits := by
  by_cases ht : t.isInt = true
  · rw [(laneSum_int ht s a pg).2]
    exact Nat.mod_lt _ (by positivity)
  · obtain ⟨hfmt, hwidth⟩ := fmt_float ht
    rw [laneSum]
    simp only [if_neg ht]
    refine tree_invariant (P := (· < 2 ^ t.bits)) (fun p q _ _ => ?_) _ _ (reduced_lt s t a pg (half_lt t))
    rw [← hwidth]
    exact addV_lt hfmt _ _ _

/-! ### The greatest lane -/

/-- The identity of the maximum is the least number of its width. -/
theorem signed_least {n : Nat} (h : 0 < n) (x : Nat) : signed n (2 ^ (n - 1)) ≤ signed n x := by
  have hle := BitVec.le_toInt (BitVec.ofNat n x)
  have hhalf : 2 ^ n = 2 * 2 ^ (n - 1) := by
    rw [← Nat.pow_succ']
    congr 1
    omega
  have hpos : 0 < 2 ^ (n - 1) := by positivity
  have hmin : signed n (2 ^ (n - 1)) = -((2 ^ (n - 1) : Nat) : Int) := by
    rw [signed, BitVec.toInt_eq_toNat_cond, BitVec.toNat_ofNat, Nat.mod_eq_of_lt (by omega), if_neg (by omega)]
    omega
  rw [hmin, signed]
  exact_mod_cast hle

theorem laneMax_int {t : ElemTy} (ht : t.isInt = true) (s : State) (a pg : Nat) : (laneMax s t a pg).2 = FFlags.none ∧
    (∀ i, i < t.count → activeLane s t pg i = true → laneInt s t a i ≤ signed t.bits (laneMax s t a pg).1) ∧
    ((∃ i, i < t.count ∧ activeLane s t pg i = true ∧ (laneMax s t a pg).1 = laneOf t.bits (s.rdV a) i) ∨
      (laneMax s t a pg).1 = 2 ^ (t.bits - 1)) := by
  rw [laneMax]
  simp only [if_pos ht]
  obtain ⟨⟨j, hj, htop⟩, hmax⟩ := tree_max (signed t.bits) t.count.log2 (reduced s t a pg (2 ^ (t.bits - 1)))
  rw [← count_log2] at hj hmax
  refine ⟨tree_noFlags (fun _ _ => rfl) _ _, fun i hi ha => ?_, ?_⟩
  · have hlane := hmax i hi
    rwa [reduced, if_pos ha] at hlane
  · rw [htop, reduced]
    by_cases ha : activeLane s t pg j = true
    · exact .inl ⟨j, hj, ha, if_pos ha⟩
    · exact .inr (if_neg ha)

theorem laneMax_lt (s : State) (t : ElemTy) (a pg : Nat) : (laneMax s t a pg).1 < 2 ^ t.bits := by
  by_cases ht : t.isInt = true
  · obtain ⟨-, -, ⟨i, -, -, h⟩ | h⟩ := laneMax_int ht s a pg
    · rw [h]
      exact laneOf_lt _ _ _
    · rw [h]
      exact half_lt t
  · obtain ⟨hfmt, hwidth⟩ := fmt_float ht
    rw [laneMax]
    simp only [if_neg ht]
    refine tree_invariant (P := (· < 2 ^ t.bits)) (fun p q hp hq => ?_) _ _ (reduced_lt s t a pg ?_)
    · rw [← hwidth] at hp hq ⊢
      exact minMax_lt hfmt true hp hq
    · rw [← hwidth]
      exact (special_lt hfmt).1 true

/-! ### VINS and VEXT -/

theorem scalarLane_eq (s : State) (t : ElemTy) (a : Nat) : s.scalarLane t a = scalar s t a := by cases t <;> rfl

theorem vins_lane (s : State) (t : ElemTy) (d a j : Nat) {i : Nat} (hi : i < t.count) :
    laneOf t.bits (ofLanes t.bits ((List.range t.count).map fun i => if i = j then (s.scalarLane t a).1 else s.laneV t d i)) i =
      if i = j then (scalar s t a).1 % 2 ^ t.bits else laneOf t.bits (s.rdV d) i := by
  rw [ofLanes_lane (by rw [List.length_map, List.length_range, bits_count]), getD_map_range _ _ hi, scalarLane_eq]
  split
  · rfl
  · exact Nat.mod_eq_of_lt (laneOf_lt _ _ _)

/-- A write of x without flags is a plain one. -/
theorem xFlagged.written {s t : State} {d : Nat} {val : Word} {w : LabelWord} (h : xFlagged s t d val w FFlags.none) :
    xWritten s t d val w := by
  obtain ⟨hregs, hflags, hfile, hrest⟩ := h
  have hsame : t.core.regs.fcsr = s.core.regs.fcsr := by
    rw [hflags, flagged, flags_or_none]
  refine ⟨⟨?_, hfile⟩, hrest⟩
  rw [← hsame] at hregs
  exact hregs

theorem execVext_int {t : ElemTy} (ht : t.isInt = true) (s : State) (d a b : Nat) : exec (.vext t d a b) s = s.floatToX d
    (if (s.rdX b).toNat < t.count then BitVec.ofInt 64 (laneInt s t a (s.rdX b).toNat) else 0) FFlags.none [s.labV a, s.labX b] := by
  have hexec : exec (.vext t d a b) s = execVext t d a b s := rfl
  rw [hexec, execVext.eq_def]
  simp only [if_pos ht, laneInt_eq]
  rfl

theorem execVext_float {t : ElemTy} (ht : ¬ t.isInt = true) (s : State) (d a b : Nat) :
    exec (.vext t d a b) s = s.floatResult d (laneFp32 s t a (s.rdX b).toNat) [s.labV a, s.labX b] := by
  have hexec : exec (.vext t d a b) s = execVext t d a b s := rfl
  rw [hexec, execVext.eq_def, laneFp32]
  by_cases hj : (s.rdX b).toNat < t.count
  · simp only [if_neg ht, if_pos hj, if_neg (not_le.mpr hj)]
    cases t <;> rfl
  · simp only [if_neg ht, if_neg hj, if_pos (not_lt.mp hj), plain]

end Sys2Proof.Claims

namespace Sys2Proof
open Machine Claims

/-- Settles O32: a reduction is the tree over its lanes, whose invariants give the sum and the greatest lane; VINS and VEXT
are results of one lane. -/
theorem vectorReductionsAndElements : Obligations.VectorReductionsAndElements := by
  unfold Obligations.VectorReductionsAndElements
  intro s u t d a b pg w _ _
  refine ⟨fun hd h => ⟨?_, ?_⟩, fun hd h => ?_, fun ht hd h => ?_, fun ht hd h => ?_⟩
  · obtain ⟨r, hr, hwritten⟩ := vecResult_written (r := (BitVec.ofNat 512 (laneSum s t a pg).1, (laneSum s t a pg).2)) hd h
    exact ⟨r, (execVreds_eq s t d a pg).trans hr, hwritten, laneSum_lt s t a pg, fun ht => laneSum_int ht s a pg⟩
  · obtain ⟨r, hr, hwritten⟩ := vecResult_written (r := (BitVec.ofNat 512 (laneMax s t a pg).1, (laneMax s t a pg).2)) hd h
    exact ⟨r, (execVredm_eq s t d a pg).trans hr, hwritten, laneMax_lt s t a pg, fun ht => laneMax_int ht s a pg⟩
  · obtain ⟨r, hr, hwritten⟩ := vecResult_written (r := (ofLanes t.bits ((List.range t.count).map fun i =>
      if i = (s.rdX b).toNat then (s.scalarLane t a).1 else s.laneV t d i), FFlags.none)) hd h
    exact ⟨r, _, hr, hwritten, fun i hi => vins_lane s t d a _ hi⟩
  · obtain ⟨r, hr, hwritten⟩ := floatToX_written (g := FFlags.none) hd h
    exact ⟨r, (execVext_int ht s d a b).trans hr, hwritten.written⟩
  · obtain ⟨r, hr, hwritten⟩ := floatResult_written (r := laneFp32 s t a (s.rdX b).toNat) hd h
    exact ⟨r, (execVext_float (by rw [ht]; decide) s d a b).trans hr, hwritten⟩

end Sys2Proof
end

section
/-! PROOF. VCMP, PSET and PLOG (R116, R120, R128). -/

namespace Sys2Proof.Claims
open Machine

theorem size_count (t : ElemTy) : t.size * t.count = 64 := by cases t <;> rfl

/-- A predicate made of lanes has every bit of a lane as its lane is. -/
theorem predOf_is (t : ElemTy) (f : Nat → Bool) : predIs t f (predOf t f) := by
  intro i hi
  have hpos : 0 < t.size := by cases t <;> decide
  have hlane : i / t.size < t.count := by
    rw [Nat.div_lt_iff_lt_mul hpos, Nat.mul_comm, size_count]
    exact hi
  have hlanes := packLanes_lane t.size ((List.range t.count).map fun i => if f i then 2 ^ t.size - 1 else 0) (i / t.size)
  rw [getD_map_range _ _ hlane] at hlanes
  have hbit := congrArg (fun n => n.testBit (i % t.size)) hlanes
  have hlow : i % t.size < t.size := Nat.mod_lt _ hpos
  have hat : t.size * (i / t.size) + i % t.size = i := Nat.div_add_mod _ _
  simp only [Nat.testBit_mod_two_pow, Nat.testBit_div_two_pow, hlow, decide_true, Bool.true_and] at hbit
  rw [Nat.add_comm, hat] at hbit
  rw [predOf, BitVec.getLsbD_ofNat, hbit, decide_eq_true hi, Bool.true_and]
  by_cases hf : f (i / t.size) = true
  · rw [if_pos hf, hf, Nat.testBit_two_pow_sub_one]
    exact decide_eq_true hlow
  · rw [if_neg hf, Nat.zero_testBit]
    exact (Bool.eq_false_iff.mpr hf).symm

/-- The instruction formed a label, wrote a predicate with it and its flags, and completed. -/
theorem Formed.pFlagged {s u : State} (h : Formed s u) {d : Nat} (val : Word) (w : LabelWord) (g : FFlags) (hd : d < 8) :
    pFlagged s ((u.wrP d val w).orFlags g).complete d val w g := by
  have hregs : ((u.wrP d val w).orFlags g).complete.core.regs = (s.core.regs.putP d val w).orFlags g := by
    rw [State.complete_core, Core.complete_regs, ← h.regs]
    rfl
  have hp : ((u.wrP d val w).orFlags g).complete.core.regs.p = (s.core.regs.putP d val w).p := by rw [hregs]; rfl
  have hl : ((u.wrP d val w).orFlags g).complete.core.regs.pl = (s.core.regs.putP d val w).pl := by rw [hregs]; rfl
  refine ⟨?_, ?_, pFile_putP hd hp hl, ⟨?_, ?_⟩, coreSame.complete ?_, h.ctx, h.rest, memoryKept_of_dev h.rest.2.2.2⟩
  · rw [hregs, Regs.putP]
    split <;> rfl
  · rw [hregs, Regs.putP]
    split <;> rfl
  · rw [State.complete_core, Core.complete_pending]
    exact h.pending
  · rw [State.complete_core, Core.complete_streams]
    exact h.streams
  · exact h.same

/-- A form that writes a predicate: nothing where it is p0, else under a label that is formed. -/
theorem setP_written {s : State} {d : Nat} {val : Word} {ws : List LabelWord} {w : LabelWord} (hd : d < 8)
    (h : d = 0 ∨ ∃ u, s.formConj ws = .ok (w, u)) :
    ∃ t, s.setP d val ws = .ok t ∧ ∀ g, pFlagged s (t.orFlags g).complete d val w g := by
  by_cases hz : d = 0
  · subst hz
    exact ⟨s, rfl, fun g => (Formed.refl s).pFlagged val w g hd⟩
  · obtain ⟨u, hu⟩ := h.resolve_left hz
    exact ⟨_, setP_of_form hz hu, fun g => (formConj_formed hu).pFlagged val w g hd⟩

theorem orFlags_none (s : State) : s.orFlags FFlags.none = s := by
  have hregs : s.core.regs.orFlags FFlags.none = s.core.regs := by
    rw [Regs.orFlags, flags_or_none]
  rw [State.orFlags, State.mapRegs, State.mapCore, hregs]

theorem fold_nv (l : List Nat) (p : Nat → Bool) : ∀ b, l.foldl (fun acc i => acc.or (FFlags.nvIf (p i))) (FFlags.nvIf b) =
    FFlags.nvIf (b || l.any p) := by
  induction l with
  | nil => intro b; rw [List.foldl_nil, List.any_nil, Bool.or_false]
  | cons i l ih =>
    intro b
    have hor : (FFlags.nvIf b).or (FFlags.nvIf (p i)) = FFlags.nvIf (b || p i) := by cases b <;> cases p i <;> rfl
    rw [List.foldl_cons, hor, ih, List.any_cons, Bool.or_assoc]

/-- The flags of the active lanes of a compare, where each lane raises NV alone or nothing. -/
theorem flags_nv {g : Nat → FFlags} {q : Nat → Bool} (h : ∀ i, g i = FFlags.nvIf (q i)) (n : Nat) (act : Nat → Bool) :
    FFlags.all (((List.range n).filter act).map g) = { FFlags.none with nv := (List.range n).any fun i => act i && q i } := by
  rw [FFlags.all, flags_all_map, funext h]
  refine (fold_nv _ q false).trans ?_
  rw [Bool.false_or, List.any_filter]
  rfl

theorem evalF_flags (cc : VCc) (x y : FVal) : (cc.evalF x y).2 =
    FFlags.nvIf (if cc = .eq ∨ cc = .ne then x.isSnan || y.isSnan else x.isNan || y.isNan) := by
  cases cc <;> rfl

/-- What PLOG writes (R128). -/
def plogged (s : State) (op : PlogOp) (a b : Nat) : Word :=
  match op with
  | .and2 => s.rdP a &&& s.rdP b
  | .or2 => s.rdP a ||| s.rdP b
  | .xor2 => s.rdP a ^^^ s.rdP b
  | .andn2 => s.rdP a &&& ~~~(s.rdP b)
  | .not1 => ~~~(s.rdP a)

theorem execPlog_eq (s : State) (op : PlogOp) (d a b : Nat) : execPlog op d a b s =
    commit s (match s.setP d (plogged s op a b) [s.labP a, s.labP b] with
      | .error e => .error e
      | .ok u => .ok u.complete) := by
  cases op <;> rfl

/-- A lane of a compare, with its flags (R120). -/
def comparedLane (s : State) (cc : VCc) (t : ElemTy) (a b i : Nat) : Bool × FFlags :=
  if t.isInt then (cc.evalI (laneInt s t a i) (laneInt s t b i), FFlags.none)
  else cc.evalF (laneFloat s t a i) (laneFloat s t b i)

theorem comparedLane_result (s : State) (cc : VCc) (t : ElemTy) (a b i : Nat) : (comparedLane s cc t a b i).1 =
    if t.isInt then cc.evalI (laneInt s t a i) (laneInt s t b i) else (cc.evalF (laneFloat s t a i) (laneFloat s t b i)).1 := by
  rw [comparedLane]
  split <;> rfl

theorem comparedLane_flags (s : State) (cc : VCc) (t : ElemTy) (a b i : Nat) : (comparedLane s cc t a b i).2 =
    FFlags.nvIf (!t.isInt && if cc = .eq ∨ cc = .ne then (laneFloat s t a i).isSnan || (laneFloat s t b i).isSnan
      else (laneFloat s t a i).isNan || (laneFloat s t b i).isNan) := by
  rw [comparedLane]
  by_cases ht : t.isInt = true
  · rw [if_pos ht, ht]
    rfl
  · rw [if_neg ht, Bool.eq_false_iff.mpr ht]
    exact evalF_flags cc _ _

theorem execVcmp_eq (s : State) (cc : VCc) (t : ElemTy) (d a b pg : Nat) : execVcmp cc t d a b pg s =
    commit s (match s.setP d (predOf t fun i => activeLane s t pg i && (comparedLane s cc t a b i).1)
        ([s.labV a, s.labV b] ++ predWords s pg) with
      | .error e => .error e
      | .ok u => .ok (u.orFlags (FFlags.all (((List.range t.count).filter (activeLane s t pg)).map fun i =>
          (comparedLane s cc t a b i).2))).complete) := by
  have hlane (i : Nat) : (if t.isInt = true then (cc.evalI (s.laneI t a i) (s.laneI t b i), FFlags.none)
      else cc.evalF (s.laneF t a i) (s.laneF t b i)) = comparedLane s cc t a b i := by
    rw [laneInt_eq, laneInt_eq]
    rfl
  rw [execVcmp]
  simp only [hlane, active_eq, predWords_eq] <;> rfl

end Sys2Proof.Claims

namespace Sys2Proof
open Machine Claims

/-- Settles O33: each form writes one predicate, lane by lane. -/
theorem predicateForms : Obligations.PredicateForms := by
  unfold Obligations.PredicateForms
  intro s cc t op d a b pg w hd _
  refine ⟨fun _ _ h => ?_, fun _ h => ?_, fun _ _ h => ?_⟩
  · obtain ⟨u, hu, hwritten⟩ := setP_written
      (val := predOf t fun i => activeLane s t pg i && (comparedLane s cc t a b i).1) hd h
    have hexec : exec (.vcmp cc t d a b pg) s = execVcmp cc t d a b pg s := rfl
    have hrun := hexec.trans (execVcmp_eq s cc t d a b pg)
    have hlanes := predOf_is t fun i => activeLane s t pg i && (comparedLane s cc t a b i).1
    have hflags := flags_nv (comparedLane_flags s cc t a b) t.count (activeLane s t pg)
    simp only [comparedLane_result] at hlanes
    simp only [← Bool.and_assoc] at hflags
    rw [hu, hflags] at hrun
    simp only [comparedLane_result] at hwritten
    exact ⟨_, _, hrun, hwritten _, hlanes⟩
  · obtain ⟨u, hu, hwritten⟩ := setP_written (val := predOf t fun i => decide (i < (s.rdX a).toNat)) hd h
    refine ⟨u.complete, _, ?_, ?_, predOf_is t _⟩
    · have hexec : exec (.pset t d a) s = execPset t d a s := rfl
      rw [hexec, execPset, hu]
      rfl
    · have := hwritten FFlags.none
      rwa [orFlags_none] at this
  · obtain ⟨u, hu, hwritten⟩ := setP_written (val := plogged s op a b) hd h
    have hexec : exec (.plog op d a b) s = execPlog op d a b s := rfl
    have hrun := hexec.trans (execPlog_eq s op d a b)
    have hkept := hwritten FFlags.none
    rw [hu] at hrun
    rw [orFlags_none] at hkept
    refine ⟨_, hrun, ?_⟩
    cases op <;> exact hkept

end Sys2Proof
end

section
/-! PROOF. MSKLD (R269, R440): a mask read in a turn that has to wait at an owned line is put off. -/

namespace Sys2Proof.Claims
open Machine

/-- A core with one block at the start of its local store, whose bitmap is 1, whose turn already waits at a line of the pool
(R440): the count of blocks, the index word at 8, the one stored quarter at 16. -/
def waitingMask : State := { State.reset with
  ctx := { State.reset.ctx with desc := { CtxDesc.zero with part := [0] } }
  dev := { State.reset.dev.poke storeStart [1, 0, 0, 0, 0, 0, 0, 0, 129, 0, 0, 0, 0, 0, 0, 0, 1, 0] with awaited := [0] } }

/-- What the reads of MSKLD find at x[0]: the count, the index word, the bitmap and its label word, where they pass. -/
def maskRead (s : State) : Option (Nat × Nat × Nat × LabelWord) :=
  match s.loadOne 4 (s.rdX 0) with
  | .error _ => none
  | .ok (nbr, w0, s0) =>
    match s0.loadOne 4 (s.rdX 0 + 8 + 4 * s.rdX 0) with
    | .error _ => none
    | .ok (idx, w1, s1) =>
      match s1.readQuarters (idx % 16) [0, 1, 2, 3] (s.rdX 0 + BitVec.ofNat 64 (2 * (idx / 16))) 0 with
      | .error _ => none
      | .ok (r, ws, s2) =>
        match s2.formConj ([s.labX 0, s.labX 0, w0, w1] ++ ws) with
        | .error _ => none
        | .ok (w, _) => some (nbr, idx, r, w)

set_option maxRecDepth 4000 in
theorem waitingMask_reads : maskRead waitingMask = some (1, 129, 1, 0x1000000) := by decide

/-- What an outcome leaves in x1. -/
def x1Of (o : Out) : Option Word :=
  match o with
  | .next t => some (x t 1)
  | .fault _ => none
  | .refused _ => none

/-- The load is put off: nothing is made of a count in a turn that waits at a line (R440). -/
theorem waitingMask_putOff : x1Of (exec (.mskld 1 0 0) waitingMask) = some 0 := by decide

/-- Reads that `maskRead` sees have passed. -/
theorem reads_of_maskRead {s : State} {nbr idx r : Nat} {w : LabelWord} (h : maskRead s = some (nbr, idx, r, w)) :
    ∃ w0 s0 w1 s1 ws s2 s3, s.loadOne 4 (s.rdX 0) = .ok (nbr, w0, s0) ∧
      s0.loadOne 4 (s.rdX 0 + 8 + 4 * s.rdX 0) = .ok (idx, w1, s1) ∧
      s1.readQuarters (idx % 16) [0, 1, 2, 3] (s.rdX 0 + BitVec.ofNat 64 (2 * (idx / 16))) 0 = .ok (r, ws, s2) ∧
      s2.formConj ([s.labX 0, s.labX 0, w0, w1] ++ ws) = .ok (w, s3) := by
  rw [maskRead] at h
  split at h
  · cases h
  next nbr' w0 s0 hcount =>
  split at h
  · cases h
  next idx' w1 s1 hindex =>
  split at h
  · cases h
  next r' ws s2 hquarters =>
  split at h
  · cases h
  next w' s3 hlabel =>
  cases h
  exact ⟨w0, s0, w1, s1, ws, s2, s3, hcount, hindex, hquarters, hlabel⟩

end Sys2Proof.Claims

namespace Sys2Proof
open Machine Claims

/-- Refutes O42: where the turn already waits at a line of the pool (`Device.awaited`), MSKLD of a block in the core's own local
store, whose reads all pass as the statement asks, is put off, and x1 does not get the bitmap. -/
theorem not_leasesAndMatrixSync : ¬ Obligations.LeasesAndMatrixSync := by
  unfold Obligations.LeasesAndMatrixSync
  rintro ⟨-, h⟩
  obtain ⟨w0, s0, w1, s1, ws, s2, s3, hcount, hindex, hquarters, hlabel⟩ := reads_of_maskRead waitingMask_reads
  obtain ⟨t, hexec, ⟨-, hfile⟩, -⟩ := h waitingMask s0 s1 s2 s3 1 0 0 1 129 1 w0 w1 0x1000000 ws (by decide) (by decide) (by decide)
    rfl hcount (by decide) hindex hquarters (.inr hlabel)
  have hput := waitingMask_putOff
  rw [hexec, x1Of, (hfile 1 (by decide)).1] at hput
  exact absurd hput (by decide)

end Sys2Proof
end

section
/-! PROOF. What an access leaves (R130, R159, R435 to R440): the frame of its device, of its context and of its core, and one
place resolved. -/

namespace Sys2Proof.Claims
open Machine

/-! ### The device -/

/-- Of the device, all is as before but what an access may change: the frame of `devKept`. -/
def devSame (d e : Device) : Prop :=
  { e with
    mem := d.mem, held := d.held, leasesHeld := d.leasesHeld, log := d.log, stores := d.stores, slots := d.slots
    poison := d.poison, poolWrites := d.poolWrites, awaited := d.awaited, leasesGranted := d.leasesGranted } = d

theorem devSame.refl (d : Device) : devSame d d := rfl

theorem devSame.trans {d e g : Device} (h : devSame d e) (k : devSame e g) : devSame d g := by
  rw [devSame, ← h, ← k]

theorem devSame.of_eq {d e : Device} (h : e = d) : devSame d e := h ▸ devSame.refl d

theorem devSame.packed {d e : Device} (h : devSame d e) : e.packed = d.packed := by rw [← h]

theorem poke_same (d : Device) (loc : Nat) (bs : List Byte) : devSame d (d.poke loc bs) := rfl

theorem note_same (d : Device) (loc n : Nat) (who : Writer) : devSame d (d.note loc n who) := rfl

theorem dirtySlot_same (d : Device) (loc : Nat) : devSame d (d.dirtySlot loc) := by
  unfold Device.dirtySlot
  split
  · split <;> rfl
  · rfl

theorem perform_same (d : Device) (line : Nat) (who : Writer) : devSame d (d.perform line who) := by
  unfold Device.perform
  split
  · rfl
  · split <;> rfl

theorem meet_same (d : Device) (line : Nat) (who : Writer) : devSame d (d.meet line who) := by
  unfold Device.meet
  split <;> rfl

theorem store_same (d : Device) (loc : Nat) (bs : List Byte) (who : Writer) : devSame d (d.store loc bs who) :=
  (((note_same d loc bs.length who).trans (poke_same _ _ _)).trans (dirtySlot_same _ _)).trans (perform_same _ _ _)

theorem dropLine_same (d : Device) (line : Nat) : devSame d (d.dropLine line) := rfl

theorem leaseLine_same (d : Device) (line : Nat) (r : PoolDesc) (cmp : Bool) (g : Option Nat) :
    devSame d (d.leaseLine line r cmp g) := by
  unfold Device.leaseLine
  dsimp only
  split
  · rfl
  · split <;> rfl

theorem cleanLine_same (d : Device) (line : Nat) : devSame d (d.cleanLine line) := by
  unfold Device.cleanLine
  split <;> rfl

theorem dirtyLine_same (d : Device) (line : Nat) (cmp : Bool) : devSame d (d.dirtyLine line cmp) := rfl

theorem setRawLabel_same (d : Device) (line : Nat) (w : LabelWord) : devSame d (d.setRawLabel line w) := rfl

/-! ### What meets a line (R440), and what a line is found as -/

theorem meet_poison (d : Device) (line : Nat) (who : Writer) : (d.meet line who).poison = d.poison := by
  unfold Device.meet
  split <;> rfl

theorem meet_held (d : Device) (line : Nat) (who : Writer) : (d.meet line who).held = d.held := by
  unfold Device.meet
  split <;> rfl

theorem linkLost_same {d e : Device} (h : devSame d e) (loc : Nat) : e.linkLost loc = d.linkLost loc := by
  rw [← h]
  rfl

theorem locate_same {d e : Device} (h : devSame d e) (pa : Nat) : e.locate pa = d.locate pa := by
  rw [← h]
  rfl

/-- A line whose format agrees with the attribute of its page is found as it is, but that a write may wait at it. -/
theorem settle_agrees {s : State} {p : Place} (who : Writer) (h : agrees s p) :
    s.settle who p = s.mapDev (·.meet (lineOf p.loc) who) := by
  rw [State.settle]
  dsimp only
  refine if_neg ?_
  rw [Bool.and_eq_true, Bool.and_eq_true, bne_iff_ne]
  rintro ⟨⟨hls, -⟩, hne⟩
  rcases h with h | h
  · rw [Option.isSome_iff_exists] at h
    obtain ⟨c, hc⟩ := h
    rw [hc] at hls
    cases hls
  · exact hne h

/-! ### The state -/

/-- But for the device as `devSame` says, held translations, labels entered, LBLSTAT and the free values drawn, the state is as
before. -/
structure Accessed (s t : State) : Prop where
  only : AccessOnly s t
  dev : devSame s.dev t.dev

theorem Accessed.refl (s : State) : Accessed s s := ⟨AccessOnly.refl s, devSame.refl _⟩

theorem Accessed.trans {s t u : State} (h : Accessed s t) (k : Accessed t u) : Accessed s u :=
  ⟨h.only.trans k.only, h.dev.trans k.dev⟩

theorem Accessed.of_tlb {s t : State} (h : TlbOnly s t) : Accessed s t := ⟨h.devOnly.accessOnly, .of_eq h.dev⟩

theorem Accessed.of_dev {s t : State} (h : DevOnly s t) (k : devSame s.dev t.dev) : Accessed s t := ⟨h.accessOnly, k⟩

theorem Accessed.mapDev (s : State) {f : Device → Device} (h : devSame s.dev (f s.dev)) : Accessed s (s.mapDev f) :=
  .of_dev (DevOnly.mapDev s f) h

theorem Accessed.of_label {s t : State} (h : AccessOnly s t) (k : t.dev = s.dev) : Accessed s t := ⟨h, .of_eq k⟩

theorem Accessed.core_eq {s t : State} (h : Accessed s t) : t.core = { s.core with lblstat := t.core.lblstat } :=
  accessOnly_core_eq h.only

theorem ctxKeptButTlb_of_access {s t : State} (h : AccessOnly s t) : ctxKeptButTlb s t := by
  obtain ⟨extra, hworld⟩ := h.world
  refine ⟨⟨extra, ?_⟩, h.cluster⟩
  rw [← hworld, ← h.ctx]

/-- The frame of an access that then completes, and leaves a result outstanding or none. -/
theorem Accessed.complete {s t : State} (h : Accessed s t) : accessKept s t.complete :=
  ⟨(coreSame_of_accessOnly h.only).complete, (ctxKeptButTlb_of_access h.only : ctxKeptButTlb s t), h.only.focus, h.only.others, h.only.agenda, h.dev⟩

theorem Accessed.later_complete {s t : State} (h : Accessed s t) (p : Pending) : accessKept s (t.later p).complete := by
  have hcore := ((coreSame_of_accessOnly h.only).later p).complete
  have hlater : (t.later p).ctx = t.ctx ∧ restKept t (t.later p) := by
    unfold State.later
    split <;> exact ⟨rfl, rfl, rfl, rfl, rfl⟩
  obtain ⟨hctx, hfocus, hothers, hagenda, hdev⟩ := hlater
  have hkept : ctxKeptButTlb s (t.later p).complete := by
    have hall := ctxKeptButTlb_of_access h.only
    have hcluster (cl : Nat) : (t.later p).complete.cluster cl = t.cluster cl := by
      rw [State.cluster, State.complete, State.mapCore, hctx, State.cluster]
    refine ⟨?_, fun cl => ?_⟩
    · have := hall.1
      rwa [← hctx] at this
    · rw [hcluster]
      exact hall.2 cl
  refine ⟨hcore, hkept, hfocus.trans h.only.focus, hothers.trans h.only.others, hagenda.trans h.only.agenda, ?_⟩
  have := h.dev
  rwa [← hdev] at this

theorem Accessed.regs {s t : State} (h : Accessed s t) : t.core.regs = s.core.regs := by rw [h.core_eq]
theorem Accessed.pending {s t : State} (h : Accessed s t) : t.core.pending = s.core.pending := by rw [h.core_eq]
theorem Accessed.streams {s t : State} (h : Accessed s t) : t.core.streams = s.core.streams := by rw [h.core_eq]
theorem Accessed.epoch {s t : State} (h : Accessed s t) : t.core.epoch = s.core.epoch := by rw [h.core_eq]
theorem Accessed.issue {s t : State} (h : Accessed s t) : t.core.issue = s.core.issue := by rw [h.core_eq]
theorem Accessed.src {s t : State} (h : Accessed s t) : t.src = s.src := by rw [State.src, h.core_eq, State.src]
theorem Accessed.srcCfg {s t : State} (h : Accessed s t) : t.srcCfg = s.srcCfg := by rw [State.srcCfg, h.core_eq, State.srcCfg]

theorem Accessed.labelCfg {s t : State} (h : Accessed s t) : t.labelCfg = s.labelCfg := by
  rw [State.labelCfg, State.labelCfg, h.epoch, h.srcCfg]

theorem Accessed.me {s t : State} (h : Accessed s t) : t.me = s.me := by
  rw [State.me, State.me, h.only.focus, h.core_eq]

theorem Accessed.desc {s t : State} (h : Accessed s t) : t.ctx.desc = s.ctx.desc := by
  rw [← h.only.ctx]

theorem Accessed.meAsWriter {s t : State} (h : Accessed s t) : t.meAsWriter = s.meAsWriter := by
  rw [State.meAsWriter, State.meAsWriter, h.only.focus, h.desc]

/-- A trap is the same of both states. -/
theorem Accessed.trap {s t : State} (h : Accessed s t) (c : Cause) (n : Nat) (addr : Word) : t.trap c n addr = s.trap c n addr := by
  rw [State.trap, State.trap, h.issue]

/-! ### Labels formed after an access -/

/-- The world is as before: no label has been entered. -/
def sameWorld (s t : State) : Prop := t.ctx.world = s.ctx.world

theorem sameWorld_of_dev {s t : State} (h : DevOnly s t) : sameWorld s t := by
  rw [sameWorld, ← h.ctx]

theorem sameWorld_of_tlb {s t : State} (h : TlbOnly s t) : sameWorld s t := sameWorld_of_dev h.devOnly

theorem eval_congr {s t : State} (h : Accessed s t) (hw : sameWorld s t) : t.eval = s.eval := by
  funext w
  rw [State.eval, State.eval, h.epoch, hw]

/-- Forming a label reads the core and the world alone. -/
theorem formLabel_congr {s t s' : State} {wide : Bool} {l : Label} {w : LabelWord} (h : Accessed s t) (hw : sameWorld s t)
    (hf : s.formLabel wide l = .ok (w, s')) :
    ∃ t', t.formLabel wide l = .ok (w, t') ∧ Accessed t t' ∧ t'.dev = t.dev ∧ sameWorld s' t' := by
  have hform : t.ctx.world.form t.labelCfg l = s.ctx.world.form s.labelCfg l := by rw [h.labelCfg, hw]
  rw [State.formLabel] at hf
  cases hr : s.ctx.world.form s.labelCfg l with
  | error e => rw [hr] at hf; cases e <;> cases hf
  | ok r =>
    obtain ⟨w', world, dropped⟩ := r
    rw [hr] at hf
    rw [hr] at hform
    dsimp only at hf
    have hs : w' = w ∧ s'.ctx.world = world := by
      split at hf <;> cases hf <;> exact ⟨rfl, rfl⟩
    obtain ⟨rfl, rfl⟩ := hs
    have ht : ∃ t', t.formLabel wide l = .ok (w', t') ∧ sameWorld s' t' := by
      rw [State.formLabel, hform]
      dsimp only
      split <;> exact ⟨_, rfl, rfl⟩
    obtain ⟨t', ht, hsame⟩ := ht
    exact ⟨t', ht, .of_label (formLabel_only ht) (formLabel_dev ht), formLabel_dev ht, hsame⟩

theorem formConj_congr {s t s' : State} {ws : List LabelWord} {w : LabelWord} (h : Accessed s t) (hw : sameWorld s t)
    (hf : s.formConj ws = .ok (w, s')) :
    ∃ t', t.formConj ws = .ok (w, t') ∧ Accessed t t' ∧ t'.dev = t.dev ∧ sameWorld s' t' := by
  have heval := eval_congr h hw
  refine formLabel_congr h hw ?_
  rw [State.formConj] at hf
  rw [State.wideOf, State.conjOf, heval, hw]
  exact hf

/-! ### One place -/

theorem tagCheck_of {s u : State} {p : Place} (a : Agent) (acc : Access) (hdev : u.dev = s.dev)
    (h : p.ls.isSome = true ∨ ∀ x, lookup s.dev.held (lineOf p.loc) = some x → x.cmp = p.cmp) : u.tagCheck a acc p = .ok () := by
  rw [tagCheck_ok, hdev]
  exact fun x hx => h.imp id fun h => h x hx

/-- The state in which an access finds the line of the place that it reaches. -/
def foundAt (u s : State) (p : Place) : State := u.mapDev (·.meet (lineOf p.loc) (s.me.writer u.ctx.desc.ctxid))

theorem foundAt_accessed {s u : State} (h : TlbOnly s u) (p : Place) : Accessed s (foundAt u s p) :=
  (Accessed.of_tlb h).trans (Accessed.mapDev u (meet_same _ _ _))

theorem foundAt_world {s u : State} (h : TlbOnly s u) (p : Place) : sameWorld s (foundAt u s p) :=
  (sameWorld_of_tlb h : sameWorld s u)

theorem foundAt_mem {s u : State} (h : TlbOnly s u) (p : Place) : (foundAt u s p).dev.mem = s.dev.mem := by
  rw [foundAt, State.mapDev, Device.meet_mem, h.dev]

theorem foundAt_poison {s u : State} (h : TlbOnly s u) (p : Place) : (foundAt u s p).dev.poison = s.dev.poison := by
  rw [foundAt, State.mapDev, meet_poison, h.dev]

theorem foundAt_held {s u : State} (h : TlbOnly s u) (p : Place) : (foundAt u s p).dev.held = s.dev.held := by
  rw [foundAt, State.mapDev, meet_held, h.dev]

/-- An access that reaches a place resolves to it. -/
theorem resolve_one {s u : State} {acc : Access} {n : Nat} {va : Word} {p : Place} (h : reaches s acc n va p u) :
    s.resolve acc n n [va] = .ok ([p], foundAt u s p) := by
  obtain ⟨halign, htranslate, hperm, htag, hrange, hagrees⟩ := h
  have hu := translate_only htranslate
  have hva := translate_va htranslate
  have hall : s.translateAll s.me acc [va] = .ok ([p], u) := by
    rw [State.translateAll, htranslate]
    rfl
  have h1 : alignAll acc n [va] = .ok () := by
    rw [alignAll, List.find?_cons, decide_eq_false (not_not.mpr halign)]
    rfl
  have h3 : permAll s.me acc [p] = .ok () := by
    rw [permAll, hperm]
    rfl
  have h4 : u.tagAll s.me acc [p] = .ok () := by
    rw [State.tagAll, tagCheck_of s.me acc hu.dev htag]
    rfl
  have h5 : rangeAll s.myCluster.locks n acc.writes [p] = .ok () := by
    rw [rangeAll, hva, hrange]
    rfl
  have hsettle : u.found s.me p = foundAt u s p := by
    refine settle_agrees _ ?_
    rw [agrees, hu.dev]
    exact hagrees
  rw [State.resolve, h1, hall]
  simp only [State.check, except_bind_ok, h3, h4, h5, List.foldl_cons, List.foldl_nil, hsettle]

theorem bytes_of_mem {d e : Device} (h : e.mem = d.mem) (loc n : Nat) : e.bytes loc n = d.bytes loc n := by
  rw [Device.bytes, Device.bytes]
  exact congrArg (fun f => (List.range n).map f) (funext fun i => by rw [Device.byte, Device.byte, h])

theorem num_of_mem {d e : Device} (h : e.mem = d.mem) (loc n : Nat) : e.num loc n = d.num loc n := by
  rw [Device.num, Device.num, bytes_of_mem h]

theorem rawLabel_of_mem {d e : Device} (h : e.mem = d.mem) (line : Nat) : e.rawLabel line = d.rawLabel line := by
  rw [Device.rawLabel, Device.rawLabel, num_of_mem h]

theorem lineWord_of_mem {s t : State} (h : t.dev.mem = s.dev.mem) (p : Place) : t.lineWord p = lineLabel s p := by
  rw [State.lineWord, lineLabel, rawLabel_of_mem h]

theorem memoryKept_of_mem {s t : State} (h : t.dev.mem = s.dev.mem) : memoryKept s t := fun a => by
  rw [Device.byte, Device.byte, h]

/-- Check 8 passes at a clean place. -/
theorem poisonAll_clean {s t : State} {p : Place} (a : Agent) (acc : Access) (hd : devSame s.dev t.dev)
    (hp : t.dev.poison = s.dev.poison) (h : clean s p) : t.poisonAll a acc [p] = .ok () := by
  obtain ⟨hpoison, hlink⟩ := h
  rw [State.poisonAll, State.poisonCheck, hp, hpoison, State.linkCheck, linkLost_same hd, hlink]
  rfl

/-! ### One element read -/

theorem makeRoom_same (s : State) : devSame s.dev s.makeRoom.dev := by
  unfold State.makeRoom
  split
  · rfl
  · dsimp only
    split <;> rfl

theorem cacheLine_accessed (s : State) (p : Place) : Accessed s (s.cacheLine p) := by
  refine .of_dev (cacheLine_dev s p).1 ?_
  unfold State.cacheLine
  split
  · split
    · exact (makeRoom_same s).trans (leaseLine_same _ _ _ _ _)
    · rfl
  · split
    · exact (makeRoom_same s).trans rfl
    · rfl

/-- A load of one element at a clean place gives its bytes and the label word of its line; memory stays. -/
theorem loadAll_one {s u : State} {n : Nat} {va : Word} {p : Place} (h : reaches s .read n va p u) (hc : clean s p) :
    ∃ t, s.loadAll n n [va] = .ok ([(s.dev.num p.loc n, lineLabel s p)], t) ∧ Accessed s u ∧ Accessed u t ∧ sameWorld u t ∧
      t.dev.mem = s.dev.mem := by
  have hu := translate_only h.2.1
  have hfound := foundAt_accessed hu p
  have hmem := foundAt_mem hu p
  refine ⟨(foundAt u s p).cacheLine p, ?_, .of_tlb hu,
    (Accessed.mapDev u (meet_same _ _ _)).trans (cacheLine_accessed _ p), ?_, ?_⟩
  · rw [State.loadAll, resolve_one h]
    simp only [except_bind_ok, poisonAll_clean s.me .read hfound.dev (foundAt_poison hu p) hc, State.check]
    rw [List.map_cons, List.map_nil, num_of_mem hmem, lineWord_of_mem hmem]
    rfl
  · have := sameWorld_of_dev (cacheLine_dev (foundAt u s p) p).1
    rwa [sameWorld] at this
  · rw [(cacheLine_dev _ p).2, hmem]

end Sys2Proof.Claims
end

section
/-! PROOF. One element written (R161): the label word that a partial write leaves in its line, and its bytes. -/

namespace Sys2Proof.Claims
open Machine

theorem formLabel_of_form {s : State} {wide : Bool} {l : Label} {r : LabelWord × World × Bool}
    (h : s.ctx.world.form s.labelCfg l = .ok r) :
    ∃ t, s.formLabel wide l = .ok (r.1, t) ∧ t.ctx.world = r.2.1 := by
  obtain ⟨w, world, dropped⟩ := r
  rw [State.formLabel, h]
  dsimp only
  split <;> exact ⟨_, rfl, rfl⟩

/-- What a partial write with the write label `nl` leaves as the label word of the line at `p`, labels being entered in the
world `w`: the condition of `lineAfter` on the word. -/
def wordAfter (s : State) (w : World) (p : Place) (nl : Label) (x : LabelWord) : Prop :=
  let old := s.dev.rawLabel (lineOf p.loc)
  let both := conj w.nogoods (w.eval s.core.epoch old) nl
  (both = w.eval s.core.epoch old ∧ lwEpoch old = s.core.epoch → x = old) ∧
    (¬ (both = w.eval s.core.epoch old ∧ lwEpoch old = s.core.epoch) → ∀ r, w.form s.labelCfg both = .ok r →
      x = BitVec.ofNat 32 (s.core.epoch.toNat * 2 ^ 24 + (if old.getLsbD 16 = true ∨ nl ≠ topLabel then 2 ^ 16 else 0)
        + handle r.1))

theorem lineAfter_iff (s t : State) (w : World) (p : Place) (nl : Label) :
    lineAfter s t w p nl ↔ (p.lt = true → wordAfter s w p nl (t.dev.rawLabel (lineOf p.loc))) := Iff.rfl

theorem handle_lt (w : LabelWord) : handle w < 2 ^ 16 := Nat.mod_lt _ (by decide)

/-- The word that a partial write forms is the one of `wordAfter`. -/
theorem partialWord_after {s t t' : State} {p : Place} {nl : Label} {x : LabelWord} (h : Accessed s t)
    (hraw : t.dev.rawLabel (lineOf p.loc) = s.dev.rawLabel (lineOf p.loc)) (hx : t.partialWord p nl = .ok (x, t')) :
    wordAfter s t.ctx.world p nl x := by
  have heval : t.eval (t.dev.rawLabel (lineOf p.loc)) = t.ctx.world.eval s.core.epoch (s.dev.rawLabel (lineOf p.loc)) := by
    rw [State.eval, h.epoch, hraw]
  rw [State.partialWord] at hx
  rw [heval, hraw, h.epoch] at hx
  refine ⟨fun hsame => ?_, fun hchange r hr => ?_⟩
  · rw [if_pos hsame] at hx
    cases hx
    rfl
  · rw [if_neg hchange] at hx
    obtain ⟨u, hu, -⟩ := formLabel_of_form (s := t) (r := r) (by rwa [h.labelCfg])
    rw [hu] at hx
    have hword := (Prod.mk.inj (Except.ok.inj hx)).1
    have hp : lwP (s.dev.rawLabel (lineOf p.loc)) = (s.dev.rawLabel (lineOf p.loc)).getLsbD 16 := rfl
    rw [← hword, mkWord, handle_eq, Nat.mod_eq_of_lt (handle_lt _), hp]
    refine congrArg (fun n => BitVec.ofNat 32 (s.core.epoch.toNat * 2 ^ 24 + n + handle r.1)) ?_
    by_cases hbit : (s.dev.rawLabel (lineOf p.loc)).getLsbD 16 = true <;> by_cases htop : nl = topLabel <;>
      simp [hbit, htop, oneBit]

/-- The label word of a line can be formed where the statement of `lineForms` says so. -/
theorem putPartialLabel_forms {s v t : State} {p : Place} {nl : Label} (h : Accessed s t) (hv : Accessed s v)
    (hw : sameWorld v t) (hraw : t.dev.rawLabel (lineOf p.loc) = s.dev.rawLabel (lineOf p.loc)) (hforms : lineForms s v p nl) :
    ∃ t', t.putPartialLabel p nl = .ok t' := by
  rw [State.putPartialLabel]
  by_cases hlt : p.lt = true
  · rw [if_pos hlt]
    have hlabel : lineLabel s p = t.dev.rawLabel (lineOf p.loc) := by rw [lineLabel, if_pos hlt, hraw]
    have heval : v.eval (lineLabel s p) = t.eval (t.dev.rawLabel (lineOf p.loc)) := by
      rw [hlabel, State.eval, State.eval, h.epoch, hv.epoch, hw]
    rw [lineForms, if_pos hlt, heval, hlabel, ← h.epoch, ← hw, ← h.labelCfg] at hforms
    have hword : ∃ r, t.partialWord p nl = .ok r := by
      rw [State.partialWord]
      by_cases hsame : conj t.ctx.world.nogoods (t.eval (t.dev.rawLabel (lineOf p.loc))) nl =
          t.eval (t.dev.rawLabel (lineOf p.loc)) ∧ lwEpoch (t.dev.rawLabel (lineOf p.loc)) = t.core.epoch
      · rw [if_pos hsame]
        exact ⟨_, rfl⟩
      · rw [if_neg hsame]
        obtain ⟨r, hr⟩ := hforms.resolve_left hsame
        obtain ⟨u, hu, -⟩ := formLabel_of_form hr
        rw [hu]
        exact ⟨_, rfl⟩
    obtain ⟨r, hr⟩ := hword
    rw [hr]
    exact ⟨_, rfl⟩
  · rw [if_neg hlt]
    exact ⟨t, rfl⟩

/-- What setting the label word of a line leaves. -/
theorem putPartialLabel_after {s t t' : State} {p : Place} {nl : Label} (h : Accessed s t)
    (hraw : t.dev.rawLabel (lineOf p.loc) = s.dev.rawLabel (lineOf p.loc)) (ht : t.putPartialLabel p nl = .ok t') :
    Accessed t t' ∧ (p.lt = false → t' = t) ∧
      (p.lt = true → ∃ x, t'.dev = t.dev.setRawLabel (lineOf p.loc) x ∧ wordAfter s t.ctx.world p nl x) := by
  rw [State.putPartialLabel] at ht
  by_cases hlt : p.lt = true
  · rw [if_pos hlt] at ht
    cases hx : t.partialWord p nl with
    | error e => rw [hx] at ht; cases ht
    | ok r =>
      obtain ⟨x, u⟩ := r
      rw [hx] at ht
      cases ht
      obtain ⟨honly, hdev⟩ := partialWord_ok hx
      refine ⟨(Accessed.of_label honly hdev).trans (Accessed.mapDev u (setRawLabel_same _ _ _)), ?_, fun _ => ⟨x, ?_, ?_⟩⟩
      · intro hf
        rw [hlt] at hf
        cases hf
      · rw [State.mapDev, hdev]
      · exact partialWord_after h hraw hx
  · rw [if_neg hlt] at ht
    cases ht
    exact ⟨Accessed.refl t, fun _ => rfl, fun h => absurd h hlt⟩

/-! ### Bytes and label words after a store -/

theorem setRawLabel_raw (d : Device) (line : Nat) (w : LabelWord) : (d.setRawLabel line w).rawLabel line = w := by
  have hlt : w.toNat < 256 ^ 4 := w.isLt
  rw [Device.rawLabel, Device.setRawLabel, Device.poke_num_same, Nat.mod_eq_of_lt hlt, BitVec.ofNat_toNat, BitVec.setWidth_eq]

theorem bytes_congr {d e : Device} {loc n : Nat} (h : ∀ b, within loc n b → e.byte b = d.byte b) : e.num loc n = d.num loc n := by
  rw [Device.num, Device.num, Device.bytes, Device.bytes]
  congr 1
  refine List.map_congr_left fun i hi => h _ ⟨Nat.le_add_right _ _, ?_⟩
  exact Nat.add_lt_add_left (List.mem_range.mp hi) _

theorem rawLabel_congr {d e : Device} {line : Nat} (h : ∀ b, within (labelLoc line) 4 b → e.byte b = d.byte b) :
    e.rawLabel line = d.rawLabel line := by
  rw [Device.rawLabel, Device.rawLabel, bytes_congr h]

theorem store_outside (d : Device) (who : Writer) {loc b : Nat} {bs : List Byte} (h : ¬ within loc bs.length b) :
    (d.store loc bs who).byte b = d.byte b := by
  refine Device.store_byte_other _ _ _ _ _ ?_
  rw [within] at h
  omega

theorem setRawLabel_outside (d : Device) {line b : Nat} (w : LabelWord) (h : ¬ within (labelLoc line) 4 b) :
    (d.setRawLabel line w).byte b = d.byte b := by
  refine Device.poke_byte_other _ _ _ _ ?_
  rw [within] at h
  rw [bytesOf, List.length_map, List.length_range]
  omega

theorem beforeWrite_accessed (s : State) (p : Place) : Accessed s (s.beforeWrite p) := by
  refine .of_dev (beforeWrite_dev s p).1 ?_
  unfold State.beforeWrite
  split
  · split
    · exact dirtyLine_same _ _ _
    · exact (makeRoom_same s).trans (dirtyLine_same _ _ _)
  · exact dropLine_same _ _

/-- What one partial write leaves. -/
structure Written (s u : State) (w : World) (p : Place) (nl : Label) (bs : List Byte) : Prop where
  accessed : Accessed s u
  bytes : ∀ j, j < bs.length → u.dev.byte (p.loc + j) = bs.getD j 0
  outside : ∀ b, ¬ within p.loc bs.length b → (p.lt = false ∨ ¬ within (labelLoc (lineOf p.loc)) 4 b) →
    u.dev.byte b = s.dev.byte b
  label : labelApart p p.loc bs.length → lineAfter s u w p nl

/-- The store that follows the label word of its line. -/
theorem written_of_label {s t t' : State} {p : Place} {nl : Label} {bs : List Byte} (h : Accessed s t) (hmem : t.dev.mem = s.dev.mem)
    (ht : t.putPartialLabel p nl = .ok t') (who : Writer) :
    Written s (t'.mapDev (·.store p.loc bs who)) t.ctx.world p nl bs := by
  have hbyte (b : Nat) : t.dev.byte b = s.dev.byte b := by rw [Device.byte, Device.byte, hmem]
  have hraw := rawLabel_of_mem hmem (lineOf p.loc)
  obtain ⟨hacc, hplain, hlabel⟩ := putPartialLabel_after h hraw ht
  refine ⟨(h.trans hacc).trans (Accessed.mapDev t' (store_same _ _ _ _)), fun j hj => Device.store_byte_same _ _ _ _ _ hj,
    fun b hb hlb => ?_, fun hapart => ?_⟩
  · rw [State.mapDev, store_outside _ _ hb]
    by_cases hlt : p.lt = true
    · obtain ⟨x, hx, -⟩ := hlabel hlt
      rw [hx, setRawLabel_outside _ _ (hlb.resolve_left (by rw [hlt]; decide)), hbyte]
    · rw [hplain (Bool.eq_false_iff.mpr hlt), hbyte]
  · rw [lineAfter_iff]
    intro hlt
    obtain ⟨x, hx, hafter⟩ := hlabel hlt
    rw [State.mapDev, rawLabel_congr (d := t'.dev) fun b hb => store_outside _ _ (hapart b hb), hx, setRawLabel_raw]
    exact hafter

theorem writeEach_one {s v t : State} {p : Place} {nl : Label} {bs : List Byte} (h : Accessed s t) (hv : Accessed s v)
    (hw : sameWorld v t) (hmem : t.dev.mem = s.dev.mem) (hforms : lineForms s v p nl) :
    ∃ u, t.writeEach nl [(p, bs)] = .ok u ∧ Written s u v.ctx.world p nl bs := by
  have hbefore := h.trans (beforeWrite_accessed t p)
  have hmem' : (t.beforeWrite p).dev.mem = s.dev.mem := (beforeWrite_dev t p).2.trans hmem
  have hworld : sameWorld v (t.beforeWrite p) := (sameWorld_of_dev (beforeWrite_dev t p).1).trans hw
  obtain ⟨t', ht'⟩ := putPartialLabel_forms hbefore hv hworld (rawLabel_of_mem hmem' _) hforms
  have hwritten := written_of_label (bs := bs) hbefore hmem' ht' t.meAsWriter
  rw [hworld] at hwritten
  refine ⟨_, ?_, hwritten⟩
  rw [State.writeEach, ht']
  rfl

/-! ### Checks 6 and 7 -/

/-- The write label is formed in the state that an access has found. -/
theorem writeLabel_forms {s t v : State} {p : Place} {ws : List LabelWord} {nl : Label} (h : Accessed s t) (hw : sameWorld s t)
    (hl : writeLabels s v p ws nl) :
    ∃ w t', s.formConj ws = .ok (w, v) ∧ t.writeLabel ws = .ok (w, nl, t') ∧ Accessed t t' ∧ t'.dev = t.dev ∧ sameWorld v t' ∧
      Accessed s v ∧ nl = v.eval w := by
  obtain ⟨⟨w, hform, rfl⟩, -⟩ := hl
  obtain ⟨t', ht', hacc, hdev, hsame⟩ := formConj_congr h hw hform
  have hv : Accessed s v := .of_label (formLabel_only hform) (formLabel_dev hform)
  refine ⟨w, t', hform, ?_, hacc, hdev, hsame, hv, rfl⟩
  have heval : t'.eval w = v.eval w := by
    rw [State.eval, State.eval, hsame, (h.trans hacc).epoch, hv.epoch]
  rw [State.writeLabel, ht', ← heval]

theorem trialLabels_one {s v t : State} {p : Place} {nl : Label} (h : Accessed s t) (hv : Accessed s v) (hw : sameWorld v t)
    (hraw : t.dev.rawLabel (lineOf p.loc) = s.dev.rawLabel (lineOf p.loc)) (hforms : lineForms s v p nl) :
    t.trialLabels nl [p] = .ok () := by
  obtain ⟨t', ht'⟩ := putPartialLabel_forms h hv hw hraw hforms
  rw [State.trialLabels, ht']
  rfl

theorem pageLabelCheck_one {s v : State} (t : State) {p : Place} {nl : Label} (handle : Nat) (hforms : lineForms s v p nl) :
    t.pageLabelCheck nl handle [p] = .ok () := by
  rw [State.pageLabelCheck, if_neg]
  · rfl
  · rintro ⟨hne, hlt⟩
    rw [lineForms, if_neg (by simpa using hlt)] at hforms
    exact hne hforms

end Sys2Proof.Claims
end

section
/-! PROOF. Scalar loads and stores, and where an access traps (R132, R159 to R164, R167, R410). -/

namespace Sys2Proof.Claims
open Machine

/-! ### Loads -/

/-- A result left outstanding after an access. -/
theorem Accessed.outcome {s t : State} (h : Accessed s t) (hmem : t.dev.mem = s.dev.mem) (p : Pending) :
    let r := (t.later p).complete
    r.core.regs = s.core.regs ∧ outstandingWith s r p.reg p.value p.lbl p.flags ∧ memoryKept s r ∧ accessKept s r := by
  refine ⟨?_, ?_, ?_, h.later_complete p⟩
  · rw [State.complete_core, Core.complete_regs, later_regs, h.regs]
  · rw [outstandingWith, State.complete_core, Core.complete_pending, later_pending, h.pending]
  · refine memoryKept_of_mem ?_
    have hdev : (t.later p).dev = t.dev := by
      unfold State.later
      split <;> rfl
    exact (congrArg Device.mem hdev).trans hmem

/-- The label of an outstanding result formed after an access. -/
theorem laterConj_access {u t : State} {r : Reg} (v : VWord) {ws : List LabelWord} (g : FFlags) {w : LabelWord} (h : Accessed u t)
    (hw : sameWorld u t) (hl : r = .x 0 ∨ ∃ u', u.formConj ws = .ok (w, u')) :
    ∃ t', t.laterConj r v ws g = .ok (t'.later ⟨r, v, w, g⟩) ∧ Accessed t t' ∧ t'.dev = t.dev := by
  by_cases hr : r = .x 0
  · refine ⟨t, ?_, Accessed.refl t, rfl⟩
    rw [State.laterConj, if_pos hr, State.later, if_pos hr]
  · obtain ⟨u', hu⟩ := hl.resolve_left hr
    obtain ⟨t', ht', hacc, hdev, -⟩ := formConj_congr h hw hu
    exact ⟨t', laterConj_of_form hr ht', hacc, hdev⟩

theorem loadOne_of_loadAll {s t : State} {n : Nat} {va : Word} {v : Nat} {l : LabelWord} (h : s.loadAll n n [va] = .ok ([(v, l)], t)) :
    s.loadOne n va = .ok (v, l, t) := by
  rw [State.loadOne, h]

theorem loadOne_error {s : State} {n : Nat} {va : Word} {e : Stop} (h : s.loadAll n n [va] = .error e) :
    s.loadOne n va = .error e := by
  rw [State.loadOne, h]

theorem load_done {s u : State} {r : Reg} {a off n : Nat} (ext : Nat → VWord) {p : Place} {w : LabelWord}
    (h : reaches s .read n (scalarAddress s a off n) p u) (hc : clean s p) (hr : ∀ v, r ≠ .v v)
    (hl : r = .x 0 ∨ ∃ u', u.formConj [s.labX a, lineLabel s p] = .ok (w, u')) :
    ∃ t, s.load r a off n ext = .next t ∧ t.core.regs = s.core.regs ∧ outstanding s t r (ext (s.dev.num p.loc n)) w ∧
      t.core.streams = s.core.streams ∧ memoryKept s t ∧ accessKept s t := by
  obtain ⟨t, hload, hsu, hut, hworld, hmem⟩ := loadAll_one h hc
  obtain ⟨t', hlater, htt, hdev⟩ := laterConj_access (ext (s.dev.num p.loc n)) FFlags.none hut hworld hl
  have hst := (hsu.trans hut).trans htt
  obtain ⟨hregs, hout, hmemory, hkept⟩ := hst.outcome ((congrArg Device.mem hdev).trans hmem)
    ⟨r, ext (s.dev.num p.loc n), w, FFlags.none⟩
  have hea : s.scalarEa a off n = scalarAddress s a off n := by
    rw [State.scalarEa, scalarAddress, sext_eq_signed]
    rfl
  refine ⟨_, ?_, hregs, hout, ?_, hmemory, hkept⟩
  · rw [State.load, hea, loadOne_of_loadAll hload]
    simp only [except_bind_ok, hlater]
    rfl
  · rw [State.complete_core, Core.complete_streams, later_streams _ _ hr, hst.streams]

theorem exec_loadForms (s : State) (d a off : Nat) : ∀ e ∈ loadForms d a off,
    exec e.1 s = s.load e.2.1 a off e.2.2.1 e.2.2.2 ∧ ∀ v, e.2.1 ≠ .v v := by
  have hsigned (n : Nat) : signedWord n = fun v => (BitVec.ofInt 64 (signed (8 * n) v)).zeroExtend 512 := by
    funext v
    rw [signedWord, sext_eq_signed]
    rfl
  have hlb := hsigned 1
  have hlh := hsigned 2
  have hlw := hsigned 4
  simp only [loadForms, List.forall_mem_cons]
  refine ⟨⟨?_, nofun⟩, ⟨rfl, nofun⟩, ⟨?_, nofun⟩, ⟨rfl, nofun⟩, ⟨?_, nofun⟩, ⟨rfl, nofun⟩, ⟨rfl, nofun⟩, ⟨rfl, nofun⟩,
    List.forall_mem_nil _⟩
  · exact congrArg (s.load (.x d) a off 1) hlb
  · exact congrArg (s.load (.x d) a off 2) hlh
  · exact congrArg (s.load (.x d) a off 4) hlw

/-! ### Stores -/

theorem storeAll_one {s u v : State} {n : Nat} {va : Word} {bs : List Byte} {p : Place} {ws : List LabelWord} {nl : Label}
    (h : reaches s .write n va p u) (hc : clean s p) (hl : writeLabels s v p ws nl) :
    ∃ t, s.storeAll ws n n [(va, bs)] = .ok t ∧ Written s t v.ctx.world p nl bs := by
  have hu := translate_only h.2.1
  have hfound := foundAt_accessed hu p
  obtain ⟨w, t, -, hwrite, htacc, htdev, hworld, hv, -⟩ := writeLabel_forms hfound (foundAt_world hu p) hl
  have hst := hfound.trans htacc
  have hmem : t.dev.mem = s.dev.mem := (congrArg Device.mem htdev).trans (foundAt_mem hu p)
  obtain ⟨r, hr, hwritten⟩ := writeEach_one (bs := bs) hst hv hworld hmem hl.2
  have hpoison : t.poisonAll s.me .write [p] = .ok () :=
    poisonAll_clean _ _ hst.dev ((congrArg Device.poison htdev).trans (foundAt_poison hu p)) hc
  refine ⟨r, ?_, hwritten⟩
  rw [State.storeAll, List.map_cons, List.map_nil, resolve_one h]
  simp only [except_bind_ok, hwrite, trialLabels_one hst hv hworld (rawLabel_of_mem hmem _) hl.2,
    pageLabelCheck_one t (lwHandle w) hl.2, hpoison, State.check]
  exact hr

theorem bytesOf_length (n v : Nat) : (bytesOf n v).length = n := by rw [bytesOf, List.length_map, List.length_range]

theorem Written.store {s t : State} {w : World} {p : Place} {nl : Label} {n val : Nat} (h : Written s t w p nl (bytesOf n val)) :
    t.complete.core.regs = s.core.regs ∧ (∀ j, j < n → t.complete.dev.byte (p.loc + j) = BitVec.ofNat 8 (val / 256 ^ j)) ∧
      memoryKeptBut s t.complete p n ∧ (labelApart p p.loc n → lineAfter s t.complete w p nl) ∧ latencyKept s t.complete ∧
      accessKept s t.complete := by
  obtain ⟨hacc, hbytes, houtside, hlabel⟩ := h
  rw [bytesOf_length] at hbytes houtside hlabel
  refine ⟨?_, fun j hj => ?_, houtside, hlabel, ⟨?_, ?_⟩, hacc.complete⟩
  · rw [State.complete_core, Core.complete_regs, hacc.regs]
  · exact (hbytes j hj).trans (bytesOf_getD hj)
  · rw [State.complete_core, Core.complete_pending, hacc.pending]
  · rw [State.complete_core, Core.complete_streams, hacc.streams]

theorem scalarEa_eq (s : State) (a off n : Nat) : s.scalarEa a off n = scalarAddress s a off n := by
  rw [State.scalarEa, scalarAddress, sext_eq_signed]
  rfl

theorem storeScalar_eq {s : State} (hp : plainCore s) (val : Nat) (lbl : LabelWord) (a off n : Nat) :
    s.storeScalar val lbl a off n = commit s (do
      let t ← s.storeAll [lbl, s.labX a] n n [(scalarAddress s a off n, bytesOf n val)]
      .ok t.complete) := by
  rw [State.storeScalar, scalarEa_eq, edgeGuard_plain hp]
  rfl

theorem exec_storeForms (s : State) (d a off : Nat) : ∀ e ∈ storeForms s d a off,
    exec e.1 s = s.storeScalar e.2.1 e.2.2.1 a off e.2.2.2 := by
  simp only [storeForms, List.forall_mem_cons]
  exact ⟨rfl, rfl, rfl, rfl, rfl, List.forall_mem_nil _⟩

/-! ### Failed checks -/

theorem alignAll_one {acc : Access} {n : Nat} {va : Word} (h : va.toNat % n = 0) : alignAll acc n [va] = .ok () := by
  rw [alignAll, List.find?_cons, decide_eq_false (not_not.mpr h)]
  rfl

/-- A translation that fails reports the address asked for. -/
theorem translate_deny {s : State} {a : Agent} {acc : Access} {va : Word} {d : Deny} (h : s.translate a acc va = .error d) :
    d.addr = va := by
  unfold State.translate at h
  dsimp only at h
  split at h
  · split at h <;> cases h
    rfl
  · split at h
    · cases h
      rfl
    · split at h
      · cases h; rfl
      · cases h; rfl
      · generalize Leaf.pa _ + BitVec.toNat va % _ = pa at h
        split at h
        · cases h
          rfl
        · split at h <;> cases h
          rfl

/-- Check 3 of R159 for an access of the core's own. -/
theorem permCheck_permitted (s : State) {acc : Access} (p : Place) (hacc : acc ≠ .fetch) :
    (permitted s acc p → permCheck s.me acc p = .ok ()) ∧
      (¬ permitted s acc p → permCheck s.me acc p = .error ⟨.perm, acc.code, p.va⟩) := by
  have hme : s.me.engineBit = 0 := rfl
  have hcore : s.me.core.isNone = false := rfl
  have hmode : s.me.mode = s.core.status.mode := rfl
  rw [permCheck.eq_def, hme, hcore, hmode]
  simp only [Nat.add_zero, permitted, inboxOff]
  constructor
  · intro h
    refine if_pos ?_
    cases hm : s.core.status.mode <;> cases acc <;> cases hls : p.ls <;> simp_all
    all_goals exact decide_eq_false (by omega)
  · intro h
    refine if_neg fun hall => h ?_
    cases hm : s.core.status.mode <;> cases acc <;> simp_all

theorem rangeCheck_deny {locks : List RangeLock} {va : Word} {n : Nat} {write : Bool} {d : Deny}
    (h : rangeCheck locks va n write = .error d) : d = ⟨.range, d.info, va⟩ := by
  rw [rangeCheck] at h
  split at h
  · cases h
  · cases h
    rfl

/-- The first of the checks 1 to 5 that fails is the one that the access reports (R159). -/
theorem resolve_fails {s : State} {acc : Access} {n : Nat} {va : Word} {c : Cause} {info : Nat} (hacc : acc ≠ .fetch)
    (h : AccessFails s acc n va c info) :
    s.resolve acc n n [va] = .error (s.trap c info va) ∨
      (acc = .read ∧ s.loadAll n n [va] = .error (s.trap c info va)) := by
  have hafter {p : Place} {u : State} (halign : va.toNat % n = 0) (htranslate : s.translate s.me acc va = .ok (p, u)) :
      s.resolve acc n n [va] = (do
        s.check (permAll s.me acc [p])
        s.check (u.tagAll s.me acc [p])
        s.check (rangeAll s.myCluster.locks n acc.writes [p])
        .ok ([p], u.found s.me p)) := by
    have hall : s.translateAll s.me acc [va] = .ok ([p], u) := by
      rw [State.translateAll, htranslate]
      rfl
    rw [State.resolve, alignAll_one halign, hall]
    rfl
  have hallowed {p : Place} (hp : permitted s acc p) : permAll s.me acc [p] = .ok () := by
    rw [permAll, (permCheck_permitted s p hacc).1 hp]
    rfl
  cases h with
  | misalign h =>
    left
    rw [State.resolve, alignAll, List.find?_cons, decide_eq_true h]
    rfl
  | page halign h =>
    left
    rw [State.resolve, alignAll_one halign, State.translateAll, h]
    simp only [State.check, except_bind_ok, except_bind_error, State.denied, translate_deny h]
  | perm halign htranslate hperm =>
    left
    rw [hafter halign htranslate, permAll, (permCheck_permitted s _ hacc).2 hperm, translate_va htranslate]
    rfl
  | @memattr p u x halign htranslate hperm hls hheld hne =>
    left
    have htag : u.tagCheck s.me acc p = .error ⟨.memattr, acc.code + if x.cmp then 8 else 0, va⟩ := by
      rw [State.tagCheck, (translate_only htranslate).dev, hheld]
      dsimp only
      rw [hls, if_neg (by simpa using hne), translate_va htranslate]
      cases x.cmp <;> rfl
    rw [hafter halign htranslate, hallowed hperm, State.tagAll, htag]
    rfl
  | @range p u d halign htranslate hperm htag hrange =>
    left
    have htags : u.tagAll s.me acc [p] = .ok () := by
      rw [State.tagAll, tagCheck_of s.me acc (translate_only htranslate).dev htag]
      rfl
    rw [hafter halign htranslate, hallowed hperm, htags, rangeAll, translate_va htranslate, hrange, rangeCheck_deny hrange]
    rfl
  | @memerr p u hread hreach hpoison =>
    right
    subst hread
    have hu := translate_only hreach.2.1
    refine ⟨rfl, ?_⟩
    rw [State.loadAll, resolve_one hreach]
    have herr : (foundAt u s p).poisonAll s.me .read [p] = .error ⟨.memerr, 8, va⟩ := by
      rw [State.poisonAll, State.poisonCheck, foundAt_poison hu, hpoison, translate_va hreach.2.1]
      rfl
    rw [except_bind_ok]
    dsimp only
    rw [herr]
    rfl

theorem loadAll_fails {s : State} {n : Nat} {va : Word} {c : Cause} {info : Nat} (h : AccessFails s .read n va c info) :
    s.loadAll n n [va] = .error (s.trap c info va) := by
  rcases resolve_fails Access.noConfusion h with h | h
  · rw [State.loadAll, h]
    rfl
  · exact h.2

theorem write_fails {s : State} {acc : Access} {n : Nat} {va : Word} {c : Cause} {info : Nat} (hw : acc = .write ∨ acc = .atomic)
    (h : AccessFails s acc n va c info) : s.resolve acc n n [va] = .error (s.trap c info va) := by
  rcases hw with rfl | rfl
  · exact (resolve_fails Access.noConfusion h).resolve_right fun h => by cases h.1
  · exact (resolve_fails Access.noConfusion h).resolve_right fun h => by cases h.1

/-! ### The forms whose access fails -/

theorem load_fails {s : State} {r : Reg} {a off n : Nat} {ext : Nat → VWord} {c : Cause} {info : Nat} {i : Instr}
    (hexec : exec i s = s.load r a off n ext) (h : AccessFails s .read n (scalarAddress s a off n) c info) :
    traps i s c info (scalarAddress s a off n) := by
  refine traps_of_commit hexec ?_
  rw [scalarEa_eq, loadOne_error (loadAll_fails h)]
  rfl

theorem store_fails {s : State} {val : Nat} {lbl : LabelWord} {a off n : Nat} {c : Cause} {info : Nat} {i : Instr}
    (hp : plainCore s) (hexec : exec i s = s.storeScalar val lbl a off n)
    (h : AccessFails s .write n (scalarAddress s a off n) c info) : traps i s c info (scalarAddress s a off n) := by
  refine traps_of_commit (hexec.trans (storeScalar_eq hp val lbl a off n)) ?_
  rw [State.storeAll, List.map_cons, List.map_nil, write_fails (.inl rfl) h]
  rfl

theorem atomicAt_fails {s : State} {n : Nat} {va : Word} {ws : List LabelWord} {f : Nat → Nat} {c : Cause} {info : Nat}
    (hp : plainCore s) (h : AccessFails s .atomic n va c info) : s.atomicAt n va ws f = .error (s.trap c info va) := by
  rw [State.atomicAt, edgeGuard_plain hp, write_fails (.inr rfl) h]
  rfl

theorem vectorEa_eq (s : State) (a imm : Nat) : s.vectorEa a imm = lineAddress s a imm := by
  rw [State.vectorEa, lineAddress, sext_eq_signed]
  rfl

theorem vld_fails {s : State} {d a imm : Nat} {c : Cause} {info : Nat} (h : AccessFails s .read 64 (lineAddress s a imm) c info) :
    traps (.vld d a imm) s c info (lineAddress s a imm) := by
  have hexec : exec (.vld d a imm) s = execVld d a imm s := rfl
  refine traps_of_commit hexec ?_
  rw [vectorEa_eq, loadAll_fails h]
  rfl

theorem vst_fails {s : State} {d a imm : Nat} {c : Cause} {info : Nat} (hp : plainCore s)
    (h : AccessFails s .write 64 (lineAddress s a imm) c info) : traps (.vst d a imm) s c info (lineAddress s a imm) := by
  have hexec : exec (.vst d a imm) s = execVst d a imm s := rfl
  refine traps_of_commit hexec ?_
  rw [edgeGuard_plain hp, vectorEa_eq, State.storeLine, write_fails (.inl rfl) h]
  rfl

/-- Every access of one place that fails a check traps with it. -/
theorem access_fails {s : State} {i : Instr} {acc : Access} {n : Nat} {va : Word} {c : Cause} {info : Nat} (hp : plainCore s)
    (ha : accessOf s i = some (acc, n, va)) (h : AccessFails s acc n va c info) : traps i s c info va := by
  unfold accessOf at ha
  split at ha
  case h_1 => cases ha; exact load_fails rfl h
  case h_2 => cases ha; exact load_fails rfl h
  case h_3 => cases ha; exact load_fails rfl h
  case h_4 => cases ha; exact load_fails rfl h
  case h_5 => cases ha; exact load_fails rfl h
  case h_6 => cases ha; exact load_fails rfl h
  case h_7 => cases ha; exact load_fails rfl h
  case h_8 => cases ha; exact load_fails rfl h
  case h_9 => cases ha; exact store_fails hp rfl h
  case h_10 => cases ha; exact store_fails hp rfl h
  case h_11 => cases ha; exact store_fails hp rfl h
  case h_12 => cases ha; exact store_fails hp rfl h
  case h_13 => cases ha; exact store_fails hp rfl h
  case h_14 => cases ha; exact vld_fails h
  case h_15 => cases ha; exact vst_fails hp h
  case h_16 op w ord sc d a =>
    cases ha
    have hexec : exec (.amo op w ord sc d a) s = execAmo op w ord sc d a s := rfl
    refine traps_of_commit hexec ?_
    dsimp only
    rw [atomicAt_fails hp h]
    rfl
  case h_17 w ord sc d a =>
    cases ha
    have hexec : exec (.cas w ord sc d a) s = execCas w ord sc d a s := rfl
    refine traps_of_commit hexec ?_
    dsimp only
    rw [atomicAt_fails hp h]
    rfl
  case h_18 op ord sc d a =>
    cases ha
    have hexec : exec (.famo op ord sc d a) s = execFamo op ord sc d a s := rfl
    refine traps_of_commit hexec ?_
    dsimp only
    rw [atomicAt_fails hp h]
    rfl
  case h_19 ord sc d a =>
    cases ha
    have hexec : exec (.csum ord sc d a) s = execCsum ord sc d a s := rfl
    refine traps_of_commit hexec ?_
    dsimp only
    rw [atomicAt_fails hp h]
    rfl
  case h_20 => cases ha

/-! ### Stores that cannot go on -/

/-- A store whose label the page cannot hold (R141): check 7. -/
theorem store_lblpage {s u v : State} {n : Nat} {va : Word} {bs : List Byte} {p : Place} {ws : List LabelWord} {w : LabelWord}
    (h : reaches s .write n va p u) (hform : s.formConj ws = .ok (w, v)) (htop : v.eval w ≠ topLabel) (hlt : p.lt = false) :
    s.storeAll ws n n [(va, bs)] = .error (s.trap .lblpage (handle w) va) := by
  have hu := translate_only h.2.1
  have hfound := foundAt_accessed hu p
  obtain ⟨t, ht, htacc, -, hworld⟩ := formConj_congr hfound (foundAt_world hu p) hform
  have hv : Accessed s v := .of_label (formLabel_only hform) (formLabel_dev hform)
  have hst := hfound.trans htacc
  have heval : t.eval w = v.eval w := by
    rw [State.eval, State.eval, hworld, hst.epoch, hv.epoch]
  have htrial : t.trialLabels (t.eval w) [p] = .ok () := by
    rw [State.trialLabels, State.putPartialLabel, hlt]
    rfl
  have hpage : t.pageLabelCheck (t.eval w) (lwHandle w) [p] = .error (s.trap .lblpage (handle w) va) := by
    rw [State.pageLabelCheck, heval, hlt, if_pos ⟨htop, rfl⟩, hst.trap, handle_eq, translate_va h.2.1]
  rw [State.storeAll, List.map_cons, List.map_nil, resolve_one h, except_bind_ok]
  dsimp only
  rw [State.writeLabel, ht]
  dsimp only [except_bind_ok]
  rw [htrial, except_bind_ok, hpage]
  rfl

/-- A store that merges into a poisoned line (R162): check 8. -/
theorem store_memerr {s u v : State} {n : Nat} {va : Word} {bs : List Byte} {p : Place} {ws : List LabelWord} {nl : Label}
    (h : reaches s .write n va p u) (hl : writeLabels s v p ws nl) (hpoison : s.dev.poison.contains (lineOf p.loc) = true) :
    s.storeAll ws n n [(va, bs)] = .error (s.trap .memerr 9 va) := by
  have hu := translate_only h.2.1
  have hfound := foundAt_accessed hu p
  obtain ⟨w, t, -, hwrite, htacc, htdev, hworld, hv, -⟩ := writeLabel_forms hfound (foundAt_world hu p) hl
  have hst := hfound.trans htacc
  have hmem : t.dev.mem = s.dev.mem := (congrArg Device.mem htdev).trans (foundAt_mem hu p)
  have herr : t.poisonAll s.me .write [p] = .error ⟨.memerr, 9, va⟩ := by
    rw [State.poisonAll, State.poisonCheck, htdev, foundAt_poison hu, hpoison, translate_va h.2.1]
    rfl
  rw [State.storeAll, List.map_cons, List.map_nil, resolve_one h]
  simp only [except_bind_ok, hwrite, trialLabels_one hst hv hworld (rawLabel_of_mem hmem _) hl.2,
    pageLabelCheck_one t (lwHandle w) hl.2, herr]
  rfl

end Sys2Proof.Claims

namespace Sys2Proof
open Machine Claims

/-- Settles O19: a scalar access reaches one place; what it leaves is the frame of the operations of an access, and the first
check that fails is the one that traps. -/
theorem scalarAccesses : Obligations.ScalarAccesses := by
  unfold Obligations.ScalarAccesses
  refine ⟨fun s u d a off n i r ext p w hi _ h hc hl => ?_, fun s u v d a off n val i lbl p nl hi _ hp h hc hl => ?_,
    fun s i acc n va c info _ hp ha h => access_fails hp ha h,
    fun s u v d a off n val i lbl p w nl hi _ hp h => ⟨fun hform htop hlt => ?_, fun hl hpoison => ?_⟩⟩
  · obtain ⟨hexec, hr⟩ := exec_loadForms s d a off _ hi
    rw [hexec]
    exact load_done ext h hc hr hl
  · obtain ⟨t, ht, hwritten⟩ := storeAll_one (bs := bytesOf n val) h hc hl
    refine ⟨t.complete, ?_, hwritten.store⟩
    rw [exec_storeForms s d a off _ hi, storeScalar_eq hp, ht]
    rfl
  · refine traps_of_commit ((exec_storeForms s d a off _ hi).trans (storeScalar_eq hp val lbl a off n)) ?_
    rw [store_lblpage h hform htop hlt]
    rfl
  · refine traps_of_commit ((exec_storeForms s d a off _ hi).trans (storeScalar_eq hp val lbl a off n)) ?_
    rw [store_memerr h hl hpoison]
    rfl

end Sys2Proof
end

section
/-! PROOF. VST on a page without LT (R141, R164, R210): where XMAX is 0 and OVF is 1, a label of ⊤ is cut to ⊥. -/

namespace Sys2Proof.Claims
open Machine

/-- A core whose page without LT lies at 0x8_0000_0000, with the address of a line there in x5 and 1 in v0, every label ⊤; its
LBLCFG has XMAX 0 and OVF 1. -/
def cutLabels : State :=
  let s := State.reset.placeWord 0xA3000000
  { s with core := { s.core with
      lblcfg := { s.core.lblcfg with xmax := 0, ovf := true }
      regs := (s.core.regs.putX 5 0x8_0000_8000 0).putV 0 1 0 } }

def cutLine : Word := lineAddress cutLabels 5 0

/-- What a translation gives, as far as it matters here: the place. -/
def placeOf (r : Except Deny (Place × State)) : Option Place :=
  match r with
  | .ok (p, _) => some p
  | .error _ => none

/-- The place of the line. -/
def cutPlace : Place := ⟨0x8_0000_8000, 0x1000208000, 0x11000208000, none, false, true, false, true, true, true, true⟩

/-- The label word of a formed label. -/
def wordOfForm (r : Result (LabelWord × State)) : Option LabelWord :=
  match r with
  | .ok (w, _) => some w
  | .error _ => none

/-- The byte that an outcome leaves at a location. -/
def byteLeft (o : Out) (loc : Nat) : Option Byte :=
  match o with
  | .next t => some (t.dev.byte loc)
  | .fault _ => none
  | .refused _ => none

set_option maxRecDepth 4000 in
theorem cutLine_place : placeOf (cutLabels.translate cutLabels.me .write cutLine) = some cutPlace := by decide

theorem cutLine_label : wordOfForm (cutLabels.formConj [cutLabels.labV 0, cutLabels.labX 5]) = some 0x100FFFF := by decide

set_option maxRecDepth 4000 in
/-- The store traps with LBLPAGE: the line does not take v0. -/
theorem cutLine_kept : byteLeft (exec (.vst 0 5 0) cutLabels) cutPlace.loc = some 0 := by decide

theorem cutLine_data : cutLabels.rdV 0 = 1 := rfl

theorem ok_of_placeOf {r : Except Deny (Place × State)} {p : Place} (h : placeOf r = some p) : ∃ u, r = .ok (p, u) := by
  cases r with
  | error _ => cases h
  | ok q =>
    cases h
    exact ⟨q.2, rfl⟩

theorem ok_of_wordOfForm {r : Result (LabelWord × State)} {w : LabelWord} (h : wordOfForm r = some w) : ∃ u, r = .ok (w, u) := by
  cases r with
  | error _ => cases h
  | ok q =>
    cases h
    exact ⟨q.2, rfl⟩

end Sys2Proof.Claims

namespace Sys2Proof
open Machine Claims

/-- Refutes O20: with XMAX 0 and OVF 1 (R210 cuts every label to ⊥, ⊤ too) VST of a register labelled ⊤ to a page without LT traps
with LBLPAGE, though the Conj of its sources is ⊤, as the statement asks. -/
theorem not_vectorLines : ¬ Obligations.VectorLines := by
  unfold Obligations.VectorLines
  intro h
  obtain ⟨u, hu⟩ := ok_of_placeOf cutLine_place
  obtain ⟨v, hv⟩ := ok_of_wordOfForm cutLine_label
  have hreach : reaches cutLabels .write 64 cutLine cutPlace u :=
    ⟨by decide, hu, rfl, .inr (fun x hx => by cases hx), rfl, .inr rfl⟩
  have htlb := translate_only hu
  obtain ⟨v', hv', -⟩ := formConj_congr (Accessed.of_tlb htlb) (sameWorld_of_tlb htlb) hv
  obtain ⟨-, hstore⟩ := h cutLabels u 0 5 0 cutPlace 0x100FFFF (by decide) (by decide) (by decide)
  obtain ⟨t, hexec, -, hbytes, -⟩ := hstore hreach (by unfold plainCore; nofun) (by decide) ⟨v', hv'⟩ (.inr (by decide))
  have hkept := cutLine_kept
  have hbyte : t.dev.byte cutPlace.loc = BitVec.ofNat 8 ((cutLabels.rdV 0).toNat / 256 ^ 0) := hbytes 0 (by decide)
  have hone : BitVec.ofNat 8 ((1 : VWord).toNat / 256 ^ 0) = 1 := by simp
  rw [hexec, byteLeft, hbyte, cutLine_data, hone] at hkept
  exact absurd hkept (by decide)

end Sys2Proof
end

section
/-! PROOF. Gathers and scatters (R116, R117, R165). -/

namespace Sys2Proof.Claims
open Machine

theorem activeLanes_eq (s : State) (pg : Nat) : activeLanes (s.rdP pg) = lanesOn s pg := rfl

theorem lanesOn_nodup (s : State) (pg : Nat) : (lanesOn s pg).Nodup := List.nodup_range.filter _

theorem lanesOn_lt {s : State} {pg k : Nat} (h : k ∈ lanesOn s pg) : k < 16 := List.mem_range.mp (List.mem_filter.mp h).1

/-! ### The lanes of a gather -/

theorem lookup_zip {α : Type} {x : α} : ∀ {l : List Nat} {xs : List α} {j k : Nat}, l.Nodup → l[j]? = some k → xs[j]? = some x →
    lookup (l.zip xs) k = some x := by
  intro l
  induction l with
  | nil => intro xs j k _ h; cases h
  | cons i l ih =>
    intro xs j k hnodup hk hx
    obtain ⟨hi, hl⟩ := List.nodup_cons.mp hnodup
    cases xs with
    | nil => cases hx
    | cons y xs =>
      cases j with
      | zero =>
        cases hk
        cases hx
        rw [List.zip_cons_cons, lookup, if_pos rfl]
      | succ j =>
        have hne : i ≠ k := fun heq => hi (heq ▸ List.mem_of_getElem? hk)
        rw [List.zip_cons_cons, lookup, if_neg hne]
        exact ih hl hk hx

theorem lookup_zip_none {α : Type} : ∀ {l : List Nat} {xs : List α} {k : Nat}, k ∉ l → lookup (l.zip xs) k = none := by
  intro l
  induction l with
  | nil => intro xs k _; rfl
  | cons i l ih =>
    intro xs k hk
    obtain ⟨hne, hl⟩ := not_or.mp (List.mem_cons.not.mp hk)
    cases xs with
    | nil => rfl
    | cons y xs =>
      rw [List.zip_cons_cons, lookup, if_neg (Ne.symm hne)]
      exact ih hl

theorem replaceLanes_lane (old : VWord) (news : List (Nat × Nat)) {k : Nat} (hk : k < 16) :
    lane32 (replaceLanes old news) k = (lookup news k).getD (lane32 old k) % 2 ^ 32 := by
  have hlen : 32 * ((List.range 16).map fun i => (lookup news i).getD (lane 32 old i)).length ≤ 512 := by
    rw [List.length_map, List.length_range]
  have hlane := ofLanes_lane hlen k
  rw [getD_map_range _ _ hk] at hlane
  exact hlane

theorem translateAll_length (a : Agent) (acc : Access) (vas : List Word) : ∀ {s t : State} {ps : List Place},
    s.translateAll a acc vas = .ok (ps, t) → ps.length = vas.length := by
  induction vas with
  | nil => intro s t ps h; cases h; rfl
  | cons va vas ih =>
    intro s t ps h
    rw [State.translateAll] at h
    split at h
    · cases h
    · split at h
      · cases h
      · next hrest =>
        cases h
        rw [List.length_cons, List.length_cons, ih hrest]

theorem loadAll_length {s t : State} {n align : Nat} {vas : List Word} {els : List (Nat × LabelWord)}
    (h : s.loadAll n align vas = .ok (els, t)) : els.length = vas.length := by
  obtain ⟨ps, u, hresolve, -, rfl, -⟩ := loadAll_ok h
  obtain ⟨v, -, hall, -⟩ := resolve_ok hresolve
  rw [List.length_map, translateAll_length _ _ _ hall]

/-! ### The forms -/

theorem stride_eq (s : State) (a b : Nat) : s.strideEa a b = strided s a b := rfl

theorem index_eq (s : State) (a b : Nat) : s.indexEa a b = indexed s a b := by
  funext i
  rw [State.indexEa, sext_eq_signed]
  rfl

theorem exec_gathers (s : State) (d a b pg : Nat) : ∀ e ∈ gathers s d a b pg, exec e.1 s = s.gather d a pg e.2.1 e.2.2 := by
  simp only [gathers, List.forall_mem_cons]
  exact ⟨rfl, congrArg (s.gather d a pg (s.labV b)) (index_eq s a b), List.forall_mem_nil _⟩

theorem exec_scatters (s : State) (d a b pg : Nat) : ∀ e ∈ scatters s d a b pg, exec e.1 s = s.scatter d a pg e.2.1 e.2.2 := by
  simp only [scatters, List.forall_mem_cons]
  exact ⟨rfl, congrArg (s.scatter d a pg (s.labV b)) (index_eq s a b), List.forall_mem_nil _⟩

/-- The register that a gather leaves outstanding. -/
def gathered (s : State) (d pg : Nat) (els : List (Nat × LabelWord)) : VWord :=
  replaceLanes (s.rdV d) ((lanesOn s pg).zip (els.map Prod.fst))

theorem gathered_on {s : State} {d pg : Nat} {els : List (Nat × LabelWord)} (hlen : els.length = (lanesOn s pg).length) {j k : Nat}
    (hk : (lanesOn s pg)[j]? = some k) : lane32 (gathered s d pg els) k = (els.map Prod.fst).getD j 0 % 2 ^ 32 := by
  obtain ⟨hj, -⟩ := List.getElem?_eq_some_iff.mp hk
  have hx : (els.map Prod.fst)[j]? = some ((els.map Prod.fst).getD j 0) := by
    rw [List.getD_eq_getElem?_getD, List.getElem?_eq_getElem (by rwa [List.length_map, hlen])]
    rfl
  rw [gathered, replaceLanes_lane _ _ (lanesOn_lt (List.mem_of_getElem? hk)), lookup_zip (lanesOn_nodup s pg) hk hx]
  rfl

theorem gathered_off {s : State} {d pg : Nat} (els : List (Nat × LabelWord)) {k : Nat} (hk : k < 16) (hoff : k ∉ lanesOn s pg) :
    lane32 (gathered s d pg els) k = lane32 (s.rdV d) k := by
  rw [gathered, replaceLanes_lane _ _ hk, lookup_zip_none hoff]
  exact Nat.mod_eq_of_lt (Nat.mod_lt _ (by decide))

/-- The frame of what an access found with the core as it was: a result outstanding for a vector register. -/
theorem outstanding_v {s u u' : State} (hdev : DevOnly s u) {ws : List LabelWord} {w : LabelWord} (hform : u.formConj ws = .ok (w, u'))
    (d : Nat) (val : VWord) :
    let t := (u'.later ⟨.v d, val, w, FFlags.none⟩).complete
    t.core.regs = s.core.regs ∧ outstanding s t (.v d) val w ∧ streamsEnded s t (.v d) ∧
      (u.dev.mem = s.dev.mem → memoryKept s t) := by
  have hf := formConj_formed hform
  obtain ⟨hregs, hout, -, -, -, hmem⟩ := later_outside hf ⟨.v d, val, w, FFlags.none⟩
  rw [hdev.core] at hregs
  refine ⟨hregs, ?_, streamsEnded_erase s _ d ?_, fun h a => (hmem a).trans ?_⟩
  · rw [outstandingWith, hdev.core] at hout
    exact hout
  · rw [State.complete_core, Core.complete_streams, later_streamsEnded, hf.streams, hdev.core]
  · rw [Device.byte, Device.byte, h]

end Sys2Proof.Claims

namespace Sys2Proof
open Machine Claims

/-- Settles O21: the elements are loaded or stored in the order of their lanes. -/
theorem vectorElements : Obligations.VectorElements := by
  unfold Obligations.VectorElements
  intro s u d a b pg i idx w ea els _
  refine ⟨fun hi hload ⟨u', hform⟩ => ?_, fun hi hp hstore => ?_⟩
  · have hlen := (loadAll_length hload).trans (List.length_map ..)
    obtain ⟨hregs, hout, hstreams, hmem⟩ := outstanding_v (loadAll_dev hload) hform d (gathered s d pg els)
    refine ⟨_, gathered s d pg els, ?_, hregs, hout, fun j k hk => gathered_on hlen hk,
      fun k hk hoff => gathered_off els hk hoff, hstreams, hmem⟩
    rw [exec_gathers s d a b pg _ hi, State.gather]
    dsimp only
    rw [activeLanes_eq, hload, except_bind_ok]
    dsimp only
    rw [laterConj_of_form Reg.noConfusion hform]
    rfl
  · obtain ⟨honly, -⟩ := storeAll_only hstore
    refine ⟨u.complete, ?_, rfl, ?_, ?_, ?_⟩
    · rw [exec_scatters s d a b pg _ hi, State.scatter, edgeGuard_plain hp]
      dsimp only
      rw [activeLanes_eq]
      exact congrArg (fun r => commit s (do let t ← r; .ok t.complete)) hstore
    · rw [State.complete_core, Core.complete_regs, accessOnly_core_eq honly]
    · rw [State.complete_core, Core.complete_pending, accessOnly_core_eq honly]
    · rw [State.complete_core, Core.complete_streams, accessOnly_core_eq honly]

end Sys2Proof
end

section
/-! PROOF. Stores of several elements (R159, R161, R165, R419): which bytes they change, and the label word of a line in which
one element lies. -/

namespace Sys2Proof.Claims
open Machine

/-! ### Lines as they are found -/

/-- Every place agrees with the format of its line, or its line does not hold the byte. -/
def findsByte (s : State) (ps : List Place) (b : Nat) : Prop := ∀ p ∈ ps, agrees s p ∨ ¬ within (lineOf p.loc) 64 b

theorem setMember_other {l : List Nat} {k j : Nat} (c : Bool) (h : j ≠ k) : (setMember l k c).contains j = l.contains j := by
  rw [Bool.eq_iff_iff, List.contains_iff_mem, List.contains_iff_mem, setMember]
  cases c with
  | false => simp [List.mem_filter, h]
  | true =>
    by_cases hk : l.contains k = true
    · rw [if_pos rfl, if_pos hk]
    · rw [if_pos rfl, if_neg hk, List.mem_cons]
      simp [h]

/-- A line found in the other format changes no byte outside it, and the format of no other line. -/
theorem settle_outside (s : State) (who : Writer) (q : Place) :
    (∀ b, ¬ within (lineOf q.loc) 64 b → (s.settle who q).dev.byte b = s.dev.byte b) ∧
      ∀ line, line ≠ lineOf q.loc → (s.settle who q).dev.packed.contains line = s.dev.packed.contains line := by
  have hpacked (d : Device) (line : Nat) : (d.meet line who).packed = d.packed := (meet_same d line who).packed
  have hbyte (d : Device) (line b : Nat) : (d.meet line who).byte b = d.byte b := by
    rw [Device.byte, Device.byte, Device.meet_mem]
  rw [State.settle]
  dsimp only
  split
  · refine ⟨fun b hb => ?_, fun line hline => ?_⟩
    · refine (hbyte _ _ _).trans (Device.poke_byte_other _ _ _ _ ?_)
      rw [within] at hb
      rw [bytesOf_length]
      omega
    · refine (congrArg (List.contains · line) (hpacked _ _)).trans (setMember_other _ hline)
  · exact ⟨fun b _ => hbyte _ _ _, fun line _ => congrArg (List.contains · line) (hpacked _ _)⟩

theorem settle_findsByte {s : State} (who : Writer) {q : Place} {ps : List Place} {b : Nat}
    (hq : agrees s q ∨ ¬ within (lineOf q.loc) 64 b) (h : findsByte s ps b) : findsByte (s.settle who q) ps b := by
  intro p hp
  by_cases hqa : agrees s q
  · rw [settle_agrees who hqa, agrees, State.mapDev, (meet_same _ _ _).packed]
    exact h p hp
  · have hqb := hq.resolve_left hqa
    by_cases hline : lineOf p.loc = lineOf q.loc
    · exact .inr (hline ▸ hqb)
    · rw [agrees, (settle_outside s who q).2 _ hline]
      exact h p hp

/-- The lines of the places found: a byte that no line found in the other format holds reads as before. -/
theorem foundAll_byte (a : Agent) {b : Nat} (ps : List Place) : ∀ s : State, findsByte s ps b →
    (ps.foldl (·.found a ·) s).dev.byte b = s.dev.byte b := by
  induction ps with
  | nil => exact fun _ _ => rfl
  | cons q ps ih =>
    intro s h
    obtain ⟨hq, hps⟩ := List.forall_mem_cons.mp h
    rw [List.foldl_cons, ih (s.found a q) (settle_findsByte _ hq hps)]
    rcases hq with hq | hq
    · rw [State.found, settle_agrees _ hq, State.mapDev, Device.byte, Device.byte, Device.meet_mem]
    · exact (settle_outside s _ q).1 b hq

/-- Where every place agrees with the format of its line, memory is found as it is. -/
theorem foundAll_agrees (a : Agent) (ps : List Place) : ∀ s : State, (∀ p ∈ ps, agrees s p) →
    Accessed s (ps.foldl (·.found a ·) s) ∧ (ps.foldl (·.found a ·) s).dev.mem = s.dev.mem := by
  induction ps with
  | nil => exact fun s _ => ⟨Accessed.refl s, rfl⟩
  | cons q ps ih =>
    intro s h
    obtain ⟨hq, hps⟩ := List.forall_mem_cons.mp h
    have hstep : s.found a q = s.mapDev (·.meet (lineOf q.loc) (a.writer s.ctx.desc.ctxid)) := settle_agrees _ hq
    have hpacked : (s.found a q).dev.packed = s.dev.packed := by
      rw [hstep]
      exact (meet_same _ _ _).packed
    obtain ⟨hacc, hmem⟩ := ih (s.found a q) fun p hp => by
      rw [agrees, hpacked]
      exact hps p hp
    have hfirst : Accessed s (s.found a q) := by
      rw [hstep]
      exact Accessed.mapDev s (meet_same _ _ _)
    refine ⟨hfirst.trans hacc, hmem.trans ?_⟩
    rw [hstep]
    exact Device.meet_mem _ _ _

theorem translateAll_va (a : Agent) (acc : Access) (vas : List Word) : ∀ {s t : State} {ps : List Place},
    s.translateAll a acc vas = .ok (ps, t) → ps.map Place.va = vas := by
  induction vas with
  | nil => intro s t ps h; cases h; rfl
  | cons va vas ih =>
    intro s t ps h
    rw [State.translateAll] at h
    split at h
    · cases h
    · next hp =>
      split at h
      · cases h
      · next hrest =>
        cases h
        rw [List.map_cons, ih hrest, translate_va hp]

/-! ### Labels formed in states of one core and one world -/

/-- The write label formed before the translation is the one formed after it. -/
theorem formConj_before {s t v : State} {ws : List LabelWord} {w : LabelWord} (h : DevOnly s t)
    (hf : t.formConj ws = .ok (w, v)) : ∃ x, s.formConj ws = .ok (w, x) ∧ sameWorld x v ∧ x.core.epoch = v.core.epoch := by
  have hworld : s.ctx.world = t.ctx.world := (sameWorld_of_dev h).symm
  have heval : s.eval = t.eval := by
    funext w
    rw [State.eval, State.eval, hworld, h.core]
  have hcfg : s.labelCfg = t.labelCfg := by
    rw [State.labelCfg, State.srcCfg, State.labelCfg, State.srcCfg, h.core]
  obtain ⟨dropped, hform, hepoch, -⟩ := formLabel_form hf
  rw [State.conjOf, ← heval, ← hworld, ← hcfg] at hform
  obtain ⟨x, hx, hxworld⟩ := formLabel_of_form (wide := s.wideOf ws) hform
  obtain ⟨-, -, hxepoch, -⟩ := formLabel_form hx
  refine ⟨x, hx, hxworld.symm, ?_⟩
  rw [hxepoch, hepoch, h.core]

/-! ### Label words of different lines -/

/-- The label words of two lines do not meet (R130, R223). -/
theorem labelLoc_apart {l m b : Nat} (h : lineOf l ≠ lineOf m) (hb : within (labelLoc (lineOf l)) 4 b) :
    ¬ within (labelLoc (lineOf m)) 4 b := by
  unfold within labelLoc lineOf at *
  split at hb <;> split <;> omega

/-- Stores in other lines, none on the label word of the line, leave it. -/
theorem writeEach_raw {s t : State} {nl : Label} {els : List (Place × List Byte)} {p : Place} (h : s.writeEach nl els = .ok t)
    (hels : ∀ e ∈ els, lineOf p.loc ≠ lineOf e.1.loc ∧ labelApart p e.1.loc e.2.length) :
    t.dev.rawLabel (lineOf p.loc) = s.dev.rawLabel (lineOf p.loc) := by
  refine rawLabel_congr fun b hb => (writeEach_ok nl els h).2.2 b fun e he => ⟨?_, ?_⟩
  · have := (hels e he).2 b hb
    rw [within] at this
    omega
  · have := labelLoc_apart (hels e he).1 hb
    rw [within] at this
    omega

theorem store_raw {d : Device} {p : Place} {loc : Nat} {bs : List Byte} (who : Writer) (h : labelApart p loc bs.length) :
    (d.store loc bs who).rawLabel (lineOf p.loc) = d.rawLabel (lineOf p.loc) :=
  rawLabel_congr fun b hb => store_outside d who (h b hb)

theorem writeEach_cons {t u : State} {nl : Label} {q : Place} {bs : List Byte} {els : List (Place × List Byte)}
    (h : t.writeEach nl ((q, bs) :: els) = .ok u) : ∃ t', (t.beforeWrite q).putPartialLabel q nl = .ok t' ∧
      (t'.mapDev (·.store q.loc bs t.meAsWriter)).writeEach nl els = .ok u := by
  rw [State.writeEach] at h
  split at h
  · cases h
  · next t' ht' => exact ⟨t', ht', h⟩

/-- The label word that the only element in its line leaves, the others lying in other lines. -/
theorem writeEach_only {s t u : State} {nl : Label} {p : Place} {bs : List Byte} {els : List (Place × List Byte)} (hst : Accessed s t)
    (hraw : t.dev.rawLabel (lineOf p.loc) = s.dev.rawLabel (lineOf p.loc)) (hwrite : t.writeEach nl ((p, bs) :: els) = .ok u)
    (hp : labelApart p p.loc bs.length) (hels : ∀ e ∈ els, lineOf p.loc ≠ lineOf e.1.loc ∧ labelApart p e.1.loc e.2.length)
    (hlt : p.lt = true) : wordAfter s t.ctx.world p nl (u.dev.rawLabel (lineOf p.loc)) := by
  obtain ⟨t', ht', hrest⟩ := writeEach_cons hwrite
  have hbefore := hst.trans (beforeWrite_accessed t p)
  have hworld : (t.beforeWrite p).ctx.world = t.ctx.world := sameWorld_of_dev (beforeWrite_dev t p).1
  have hraw' := (rawLabel_of_mem (beforeWrite_dev t p).2 (lineOf p.loc)).trans hraw
  obtain ⟨-, -, hlabel⟩ := putPartialLabel_after hbefore hraw' ht'
  obtain ⟨x, hx, hafter⟩ := hlabel hlt
  rw [hworld] at hafter
  rw [writeEach_raw hrest hels, State.mapDev, store_raw _ hp, hx, setRawLabel_raw]
  exact hafter

/-- An element in another line leaves the label word; it may enter a label. -/
theorem writeStep_other {t t' : State} {nl : Label} {p q : Place} {bs : List Byte} (who : Writer)
    (ht' : (t.beforeWrite q).putPartialLabel q nl = .ok t') (hline : lineOf p.loc ≠ lineOf q.loc)
    (hq : labelApart p q.loc bs.length) :
    Accessed t (t'.mapDev (·.store q.loc bs who)) ∧
      (t'.mapDev (·.store q.loc bs who)).dev.rawLabel (lineOf p.loc) = t.dev.rawLabel (lineOf p.loc) := by
  obtain ⟨-, -, -, houtside⟩ := putPartialLabel_ok ht'
  obtain ⟨hput, -⟩ := putPartialLabel_after (s := t.beforeWrite q) (Accessed.refl _) rfl ht'
  have hstore : Accessed t' (t'.mapDev (·.store q.loc bs who)) := Accessed.mapDev t' (store_same t'.dev q.loc bs who)
  refine ⟨((beforeWrite_accessed t q).trans hput).trans hstore, ?_⟩
  refine (store_raw who hq).trans ((rawLabel_congr fun b hb => houtside b ?_).trans (rawLabel_of_mem (beforeWrite_dev t q).2 _))
  have := labelLoc_apart hline hb
  rw [within] at this
  omega

/-- The label word of a line in which one of the elements lies. -/
theorem writeEach_label {s : State} {nl : Label} {p : Place} (els : List (Place × List Byte)) : ∀ {t u : State}, Accessed s t →
    t.dev.rawLabel (lineOf p.loc) = s.dev.rawLabel (lineOf p.loc) → t.writeEach nl els = .ok u →
    (∀ e ∈ els, labelApart p e.1.loc e.2.length) → (els.map Prod.fst).countP (fun q => lineOf q.loc == lineOf p.loc) = 1 →
    p ∈ els.map Prod.fst → p.lt = true →
    ∃ extra, wordAfter s { t.ctx.world with table := t.ctx.world.table ++ extra } p nl (u.dev.rawLabel (lineOf p.loc)) := by
  induction els with
  | nil => intro t u _ _ _ _ _ hp; cases hp
  | cons e els ih =>
    obtain ⟨q, bs⟩ := e
    intro t u hst hraw hwrite hapart hcount hp hlt
    obtain ⟨hq, hrest⟩ := List.forall_mem_cons.mp hapart
    rw [List.map_cons, List.countP_cons] at hcount
    by_cases hline : lineOf q.loc = lineOf p.loc
    · have hnone : (els.map Prod.fst).countP (fun q => lineOf q.loc == lineOf p.loc) = 0 := by
        rw [if_pos (beq_iff_eq.mpr hline)] at hcount
        omega
      have hothers := List.countP_eq_zero.mp hnone
      have hpq : p = q := (List.mem_cons.mp hp).resolve_right fun h => hothers p h (beq_self_eq_true _)
      subst hpq
      refine ⟨[], ?_⟩
      rw [List.append_nil]
      refine writeEach_only hst hraw hwrite hq (fun e he => ⟨fun heq => ?_, hrest e he⟩) hlt
      exact hothers e.1 (List.mem_map_of_mem he) (beq_iff_eq.mpr heq.symm)
    · rw [if_neg (by rwa [beq_iff_eq]), Nat.add_zero] at hcount
      have hp' : p ∈ els.map Prod.fst :=
        (List.mem_cons.mp hp).resolve_left fun h => hline (by rw [h])
      obtain ⟨t', ht', hnext⟩ := writeEach_cons hwrite
      obtain ⟨hstep, hsame⟩ := writeStep_other t.meAsWriter ht' (Ne.symm hline) hq
      generalize t'.mapDev (·.store q.loc bs t.meAsWriter) = r at hnext hstep hsame
      obtain ⟨extra, hword⟩ := ih (hst.trans hstep) (hsame.trans hraw) hnext hrest hcount hp' hlt
      obtain ⟨first, hfirst⟩ := hstep.only.world
      refine ⟨first ++ extra, ?_⟩
      rw [hfirst, List.append_assoc] at hword
      exact hword

theorem zip_fst {ps : List Place} {bss : List (List Byte)} (h : ps.length = bss.length) : (ps.zip bss).map Prod.fst = ps :=
  List.map_fst_zip h.le

end Sys2Proof.Claims

namespace Sys2Proof
open Machine Claims

/-- Settles O22: the lines are found, then the elements are written in order, each in its own bytes and the label word of its
line. -/
theorem storesStayInTheirLines : Obligations.StoresStayInTheirLines := by
  unfold Obligations.StoresStayInTheirLines
  intro s u ws n align els hstore hlen
  obtain ⟨ps, t, v, w, nl, hresolve, hlabel, -, -, hwrite⟩ := storeAll_ok hstore
  obtain ⟨t0, -, htranslate, -, -, -, rfl⟩ := resolve_ok hresolve
  obtain ⟨-, hvdev, hform, rfl⟩ := writeLabel_ok hlabel
  have htlb := translateAll_only _ _ _ htranslate
  have hcount : ps.length = (els.map Prod.snd).length := by
    rw [translateAll_length _ _ _ htranslate, List.length_map, List.length_map]
  have hpair : ∀ e ∈ ps.zip (els.map Prod.snd), e.1 ∈ ps ∧ e.2.length = n := by
    intro e he
    obtain ⟨h1, h2⟩ := List.of_mem_zip (a := e.1) (b := e.2) he
    obtain ⟨x, hx, hxe⟩ := List.mem_map.mp h2
    exact ⟨h1, hxe ▸ hlen x hx⟩
  have hagrees {p : Place} (h : agrees s p) : agrees t0 p := by
    rw [agrees, htlb.dev]
    exact h
  refine ⟨ps, t0, htranslate, translateAll_va _ _ _ htranslate, fun b hb => ?_, ?_⟩
  · rw [(writeEach_ok _ _ hwrite).2.2 b fun e he => ?_, hvdev, foundAll_byte _ _ _ fun p hp => ?_, htlb.dev]
    · exact (hb p hp).2.1.imp_left hagrees
    · obtain ⟨hp, hn⟩ := hpair e he
      obtain ⟨hout, -, hlab⟩ := hb e.1 hp
      rw [hn]
      rw [within] at hout hlab
      exact ⟨by omega, hlab.imp_right fun h => by omega⟩
  · have hdev := htlb.devOnly.trans (foundAll_dev s.me ps t0)
    obtain ⟨x, hx, hworld, hepoch⟩ := formConj_before hdev hform
    refine ⟨w, x, hx, fun p hall hone hp => ?_⟩
    have hnl : v.eval w = x.eval w := by rw [State.eval, State.eval, hworld, hepoch]
    obtain ⟨hfound, hmem⟩ := foundAll_agrees s.me ps t0 fun q hq => hagrees (hall q hq).1
    have hsv := ((Accessed.of_tlb htlb).trans hfound).trans (Accessed.of_label (formConj_only hform).1 hvdev)
    have hraw : v.dev.rawLabel (lineOf p.loc) = s.dev.rawLabel (lineOf p.loc) := by
      rw [hvdev, rawLabel_of_mem (hmem.trans (congrArg Device.mem htlb.dev))]
    by_cases hlt : p.lt = true
    · obtain ⟨extra, hword⟩ := writeEach_label (p := p) _ hsv hraw hwrite
        (fun e he => by
          obtain ⟨hq, hn⟩ := hpair e he
          rw [hn]
          exact (hall e.1 hq).2)
        (by rwa [zip_fst hcount]) (by rwa [zip_fst hcount]) hlt
      rw [hworld, hnl] at hword
      exact ⟨extra, fun _ => hword⟩
    · exact ⟨[], fun h => absurd h hlt⟩

end Sys2Proof
end

section
/-! PROOF. Atomics (R167 to R171): one place read and written, and the label of the result, which the write may have entered. -/

namespace Sys2Proof.Claims
open Machine

/-! ### A label formed twice -/

theorem findEntry_behind {e : BitVec 8} {l : Label} {table : List (BitVec 8 × Label)} : ∀ {i : Nat}, findEntry e l table i = none →
    findEntry e l (table ++ [(e, l)]) i = some (i + table.length) := by
  induction table with
  | nil =>
    intro i _
    rw [List.nil_append, findEntry, if_pos ⟨rfl, rfl⟩]
    rfl
  | cons x table ih =>
    obtain ⟨e', l'⟩ := x
    intro i h
    rw [findEntry] at h
    rw [List.cons_append, findEntry]
    split at h
    · cases h
    · next hne =>
      rw [if_neg hne, ih h, List.length_cons]
      congr 1
      omega

/-- A label that has been entered has the same handle when it is formed again (R203). -/
theorem enter_again {w w' : World} {e : BitVec 8} {l : Label} {h : Nat} (k : w.enter e l = .ok (h, w')) :
    w'.enter e l = .ok (h, w') := by
  rw [World.enter] at k
  split at k
  · next hbot =>
    cases k
    rw [World.enter, if_pos hbot]
  · next hbot =>
    split at k
    · next htop =>
      cases k
      rw [World.enter, if_neg hbot, if_pos htop]
    · next htop =>
      split at k
      · next hfound =>
        cases k
        rw [World.enter, if_neg hbot, if_neg htop, hfound]
      · next hnone =>
        split at k
        · cases k
          rw [World.enter, if_neg hbot, if_neg htop, findEntry_behind hnone]
          dsimp only
          rw [Nat.add_comm]
        · cases k

theorem form_again {w : World} {c : LabelCfg} {l : Label} {r : LabelWord × World × Bool} (h : w.form c l = .ok r) :
    ∃ r', r.2.1.form c l = .ok r' ∧ r'.1 = r.1 := by
  obtain ⟨extra, hworld⟩ := form_ok (w' := r.2.1) (lw := r.1) (b := r.2.2) h
  have hnogoods : r.2.1.nogoods = w.nogoods := by rw [hworld]
  rw [World.form] at h
  split at h
  · cases h
  · next m dropped hfit =>
    split at h
    · cases h
    · next k w' henter =>
      cases h
      refine ⟨(mkWord c.epoch false k, w', dropped), ?_, rfl⟩
      rw [World.form, hnogoods, hfit]
      dsimp only
      rw [enter_again henter]

/-- What a write of one element may enter: the label of its line after it. -/
theorem writeEach_world {t u : State} {p : Place} {nl : Label} {bs : List Byte} (h : t.writeEach nl [(p, bs)] = .ok u) :
    u.ctx.world = t.ctx.world ∨ p.lt = true ∧ ∃ r, t.ctx.world.form t.labelCfg
      (conj t.ctx.world.nogoods (t.eval (t.dev.rawLabel (lineOf p.loc))) nl) = .ok r ∧ u.ctx.world = r.2.1 := by
  obtain ⟨t', ht', hu⟩ := writeEach_cons h
  cases hu
  have hbefore := beforeWrite_accessed t p
  have hworld : (t.beforeWrite p).ctx.world = t.ctx.world := sameWorld_of_dev (beforeWrite_dev t p).1
  have hraw := rawLabel_of_mem (beforeWrite_dev t p).2 (lineOf p.loc)
  rw [State.putPartialLabel] at ht'
  split at ht'
  · next hlt =>
    split at ht'
    · cases ht'
    · next x v hx =>
      cases ht'
      rw [State.partialWord] at hx
      split at hx
      · cases hx
        exact .inl hworld
      · split at hx
        · cases hx
        · next y z hform =>
          cases hx
          obtain ⟨dropped, hr, -⟩ := formLabel_form hform
          refine .inr ⟨hlt, (y, v.ctx.world, dropped), ?_, rfl⟩
          rw [hworld, State.eval, hworld, hraw, hbefore.labelCfg, hbefore.epoch] at hr
          exact hr
  · cases ht'
    exact .inl hworld

/-! ### The two halves -/

/-- Read half and write half at the place that an atomic reaches, and the word of its result. -/
theorem atomicAt_goes {s v : State} {n : Nat} {va : Word} {ws : List LabelWord} {p : Place} {nl : Label} {lr : LabelWord}
    (h : atomicGoes s v n va ws p nl lr) (f : Nat → Nat) :
    ∃ l wide u, s.atomicAt n va ws f = .ok (s.dev.num p.loc n, l, wide, u) ∧
      Written s u v.ctx.world p nl (bytesOf n (f (s.dev.num p.loc n))) ∧ ∃ u', u.formLabel wide l = .ok (lr, u') := by
  obtain ⟨hplain, hclean, ⟨u0, hreach⟩, hlabels, r, hr, rfl⟩ := h
  have hu := translate_only hreach.2.1
  have hfound := foundAt_accessed hu p
  obtain ⟨w, t, -, hwrite, htacc, htdev, hworld, hv, -⟩ := writeLabel_forms hfound (foundAt_world hu p) hlabels
  have hst := hfound.trans htacc
  have hmem : t.dev.mem = s.dev.mem := (congrArg Device.mem htdev).trans (foundAt_mem hu p)
  have hpoison : t.poisonAll s.me .atomic [p] = .ok () :=
    poisonAll_clean _ _ hst.dev ((congrArg Device.poison htdev).trans (foundAt_poison hu p)) hclean
  have hline : t.eval (t.lineWord p) = v.eval (lineLabel s p) := by
    rw [lineWord_of_mem hmem, State.eval, State.eval, hworld, hst.epoch, hv.epoch]
  have hnogoods : s.ctx.world.nogoods = v.ctx.world.nogoods := by
    obtain ⟨extra, hextra⟩ := hv.only.world
    rw [hextra]
  obtain ⟨u, hu', hwritten⟩ := writeEach_one (bs := bytesOf n (f (s.dev.num p.loc n))) hst hv hworld hmem hlabels.2
  refine ⟨conj v.ctx.world.nogoods (v.eval (lineLabel s p)) nl,
    decide (nl.length > 1) || decide ((v.eval (lineLabel s p)).length > 1), u, ?_, hwritten, ?_⟩
  · rw [State.atomicAt, edgeGuard_plain hplain, except_bind_ok, resolve_one hreach]
    simp only [except_bind_ok, hwrite, trialLabels_one hst hv hworld (rawLabel_of_mem hmem _) hlabels.2,
      pageLabelCheck_one t (lwHandle w) hlabels.2, hpoison, State.check, num_of_mem hmem, hline, hu', hnogoods]
  · have hcfg : u.labelCfg = s.labelCfg := hwritten.accessed.labelCfg
    have hform : ∃ r', u.ctx.world.form u.labelCfg (conj v.ctx.world.nogoods (v.eval (lineLabel s p)) nl) = .ok r' ∧ r'.1 = r.1 := by
      rw [hcfg]
      rcases writeEach_world hu' with hsame | ⟨hlt, r', hr', hnew⟩
      · rw [hsame, hworld]
        exact ⟨r, hr, rfl⟩
      · have hlabel : t.eval (t.dev.rawLabel (lineOf p.loc)) = v.eval (lineLabel s p) := by
          rw [← hline, State.lineWord, if_pos hlt]
        rw [hlabel, hworld, hst.labelCfg, hr] at hr'
        cases hr'
        rw [hnew]
        exact form_again hr
    obtain ⟨r', hr', heq⟩ := hform
    obtain ⟨u', hu', -⟩ := formLabel_of_form (wide := decide (nl.length > 1) || decide ((v.eval (lineLabel s p)).length > 1)) hr'
    exact ⟨u', heq ▸ hu'⟩

/-- An atomic stores its new value and leaves its result outstanding. -/
theorem atomic_done {s v : State} {n : Nat} {va : Word} {ws : List LabelWord} {p : Place} {nl : Label} {lr : LabelWord}
    (h : atomicGoes s v n va ws p nl lr) (f : Nat → Nat) (d : Reg) (val : Nat → VWord) (g : Nat → FFlags) {i : Instr}
    (hexec : exec i s = commit s (do
      let (old, lr, wide, t) ← s.atomicAt n va ws f
      let t ← t.atomicResult d (val old) lr wide (g old)
      .ok t.complete)) {old : Nat} (hold : old = s.dev.num p.loc n) {new : Nat} (hnew : f old = new) :
    ∃ t, exec i s = .next t ∧ atomicDone s v t p n new d (val old) (g old) nl lr := by
  subst hold hnew
  obtain ⟨l, wide, u, hat, hwritten, u', hform⟩ := atomicAt_goes h f
  obtain ⟨t, hresult, hacc, hdev⟩ : ∃ t, u.atomicResult d (val (s.dev.num p.loc n)) l wide (g (s.dev.num p.loc n)) =
      .ok (t.later ⟨d, val (s.dev.num p.loc n), lr, g (s.dev.num p.loc n)⟩) ∧ Accessed u t ∧ t.dev = u.dev := by
    by_cases hd : d = .x 0
    · refine ⟨u, ?_, Accessed.refl u, rfl⟩
      rw [State.atomicResult, if_pos hd, State.later, if_pos hd]
    · refine ⟨u', ?_, .of_label (formLabel_only hform) (formLabel_dev hform), formLabel_dev hform⟩
      rw [State.atomicResult, if_neg hd, hform]
  have hall := hwritten.accessed.trans hacc
  have hlater (q : Pending) : (t.later q).complete.dev = u.dev := by
    have hkept : (t.later q).dev = t.dev := by
      unfold State.later
      split <;> rfl
    exact hkept.trans hdev
  obtain ⟨-, hbytes, houtside, hlabel⟩ := hwritten
  rw [bytesOf_length] at hbytes houtside hlabel
  refine ⟨(t.later ⟨d, val (s.dev.num p.loc n), lr, g (s.dev.num p.loc n)⟩).complete, ?_, ?_, ?_, fun j hj => ?_,
    fun hapart hlt => ?_, fun b hb hlb => ?_, hall.later_complete _⟩
  · rw [hexec, hat, except_bind_ok]
    dsimp only
    rw [hresult]
    rfl
  · rw [State.complete_core, Core.complete_regs, later_regs, hall.regs]
  · rw [outstandingWith, State.complete_core, Core.complete_pending, later_pending, hall.pending]
  · rw [hlater]
    exact (hbytes j hj).trans (bytesOf_getD hj)
  · rw [hlater]
    exact hlabel hapart hlt
  · rw [hlater]
    exact houtside b hb hlb

/-! ### The operations -/

theorem amo_apply (n old v : Nat) : ∀ e ∈ amoResults n old v, e.1.apply n old v = e.2 := by
  have hmin : (if old ≤ v then old else v) = min old v := by
    rw [min_def]
  have hmax : (if old ≥ v then old else v) = max old v := by
    rw [max_def]
    split <;> split <;> omega
  simp only [amoResults, List.forall_mem_cons, AmoOp.apply, sext_eq_signed, hmin, hmax, ge_iff_le, true_and]
  exact List.forall_mem_nil _

theorem oldWord_eq (w : AmoWidth) (v : Nat) : oldWord w v = oldValue w v := by
  cases w with
  | w =>
    rw [oldWord, signedWord, sext_eq_signed]
    rfl
  | d => rfl

end Sys2Proof.Claims

namespace Sys2Proof
open Machine Claims

/-- Settles O23: each atomic is one read half, one write half and one result. -/
theorem atomics : Obligations.Atomics := by
  unfold Obligations.Atomics
  intro s v d a w ord sc p old nl lr _ _
  refine ⟨fun hold h op new hop => ?_, fun hold _ h => ?_, fun hold _ h op => ?_, fun hold _ h => ?_⟩
  · rw [← oldWord_eq]
    exact atomic_done h (fun old => op.apply (8 * w.size) old ((s.rdX d).toNat % 2 ^ (8 * w.size))) (.x d) (oldWord w)
      (fun _ => FFlags.none) rfl hold (amo_apply _ _ _ _ hop)
  · rw [← oldWord_eq]
    exact atomic_done h (fun old => if old = (s.rdX d).toNat % 2 ^ (8 * w.size) then (s.rdX (d + 1)).toNat % 2 ^ (8 * w.size) else old)
      (.x d) (oldWord w) (fun _ => FFlags.none) rfl hold rfl
  · exact atomic_done h (fun old => (op.apply old (s.rdF d).toNat).1) (.f d) plainWord (fun old => (op.apply old (s.rdF d).toNat).2)
      rfl hold rfl
  · exact atomic_done h (fun old => (csumStep (old % 2 ^ 32) (old / 2 ^ 32) (s.rdF d).toNat).1
      + 2 ^ 32 * (csumStep (old % 2 ^ 32) (old / 2 ^ 32) (s.rdF d).toNat).2) (.f d)
      (fun old => plainWord (addRne (old % 2 ^ 32) (old / 2 ^ 32))) (fun _ => FFlags.none) rfl hold rfl

end Sys2Proof
end

section
/-! PROOF. Cache maintenance (R152, R166, R312): what CWB, CFLUSH and CINV do to one line, and to the lines of a block in turn. -/

namespace Sys2Proof.Claims
open Machine

/-! ### The lines -/

theorem translate_local {s t : State} {a : Agent} {acc : Access} {va : Word} {p : Place} (h : s.translate a acc va = .ok (p, t)) :
    (p.ls.isSome = true ∧ p.cacheable = false) ∨ p.ls = none ∧ ∃ r, s.dev.locate p.pa = some (r, p.loc) := by
  have htlb := translate_only h
  unfold State.translate at h
  dsimp only at h
  split at h
  · split at h <;> cases h
    exact .inl ⟨rfl, rfl⟩
  · split at h
    · cases h
    · split at h
      · cases h
      · cases h
      · generalize Leaf.pa _ + BitVec.toNat va % _ = pa at h
        split at h
        · cases h
        · next r loc hlocate =>
          split at h
          · cases h
          · cases h
            rw [← htlb.dev]
            exact .inr ⟨rfl, r, hlocate⟩

theorem lineAt_attributes {d : Device} {p q : Place} {n : Nat} (h : q ∈ d.lineAt p n) : q.ls = p.ls ∧ q.cmp = p.cmp := by
  rw [Device.lineAt] at h
  split at h
  · rw [List.mem_singleton] at h
    rw [h]
    exact ⟨rfl, rfl⟩
  · obtain ⟨i, -, hi⟩ := List.mem_filterMap.mp h
    cases hr : d.locate (p.pa + 64 * i) with
    | none => rw [hr] at hi; cases hi
    | some r =>
      rw [hr] at hi
      cases hi
      exact ⟨rfl, rfl⟩

/-- A block of one line is the line of its place. -/
theorem linesOf_one {s u : State} {acc : Access} {va : Word} {p : Place} (h : s.translate s.me acc va = .ok (p, u)) :
    linesOf s p 64 = [lineOf p.loc] := by
  rw [linesOf, Device.lineAt]
  rcases translate_local h with ⟨hls, -⟩ | ⟨hls, r, hlocate⟩
  · rw [if_pos hls]
    rfl
  · have hnone : ¬ p.ls.isSome = true := by rw [hls]; decide
    have hone : List.range (64 / 64) = [0] := rfl
    rw [if_neg hnone, hone, List.filterMap_cons, Nat.mul_zero, Nat.add_zero, hlocate]
    rfl

theorem tagAll_of {s u : State} {acc : Access} {p : Place} (hdev : u.dev = s.dev) {ps : List Place}
    (hps : ∀ q ∈ ps, q.ls = p.ls ∧ q.cmp = p.cmp)
    (h : p.ls.isSome = true ∨ ∀ line ∈ ps.map fun q => lineOf q.loc, ∀ x, lookup s.dev.held line = some x → x.cmp = p.cmp) :
    u.tagAll s.me acc ps = .ok () := by
  induction ps with
  | nil => rfl
  | cons q ps ih =>
    obtain ⟨⟨hls, hcmp⟩, hrest⟩ := List.forall_mem_cons.mp hps
    have hq : u.tagCheck s.me acc q = .ok () := by
      refine tagCheck_of s.me acc hdev ?_
      rw [hls, hcmp]
      exact h.imp_right fun h => h _ List.mem_cons_self
    rw [State.tagAll, hq]
    exact ih hrest (h.imp_right fun h line hline => h line (List.mem_cons_of_mem _ hline))

/-- A maintenance form whose checks pass acts on its lines in turn, where the page is cacheable. -/
theorem maintain_passes {s : State} {a n : Nat} {acc : Access} {p : Place} (hp : plainCore s) (hclass : classPasses s [s.labX a])
    (h : maintains s acc n (BitVec.ofNat 64 ((s.rdX a).toNat / n * n)) p) (f : State → Nat → State) :
    ∃ u, TlbOnly s u ∧ s.maintain a n acc f =
      .next (if p.cacheable = true then ((linesOf s p n).foldl f u).complete else u.complete) := by
  obtain ⟨⟨u, htranslate⟩, hperm, htags⟩ := h
  have hu := translate_only htranslate
  have htag : u.tagAll s.me acc (s.dev.lineAt p n) = .ok () :=
    tagAll_of hu.dev (fun q hq => lineAt_attributes hq) htags
  refine ⟨u, hu, ?_⟩
  have htranslate' : s.translate s.me acc (blockBase (s.rdX a) n) = .ok (p, u) := htranslate
  rw [State.maintain, edgeGuard_plain hp, classRule_of_passes hclass, except_bind_ok, except_bind_ok, htranslate']
  simp only [State.check, except_bind_ok, hperm, htag, hu.dev, linesOf]
  rfl

/-! ### CWB: a line cleaned -/

/-- Memory holds the current contents of the line alone. -/
def cleanAt (s : State) (line : Nat) : Prop := ∀ h, lookup s.dev.held line = some h → h.past = []

theorem cleanLine_accessed (s : State) (line : Nat) : Accessed s (s.cleanLine line) :=
  Accessed.mapDev s (cleanLine_same s.dev line)

theorem cleanLine_mem (s : State) (line : Nat) : (s.cleanLine line).dev.mem = s.dev.mem := by
  rw [State.cleanLine, State.mapDev, Device.cleanLine]
  split <;> rfl

theorem cleanLine_clean (s : State) (line : Nat) {other : Nat} (hother : other = line ∨ cleanAt s other) :
    cleanAt (s.cleanLine line) other := by
  intro h hh
  rw [State.cleanLine, State.mapDev, Device.cleanLine] at hh
  dsimp only at hh
  split at hh
  · next hnone =>
    rcases hother with rfl | hother
    · rw [hnone] at hh; cases hh
    · exact hother h hh
  · next x hx =>
    by_cases heq : other = line
    · subst heq
      rw [lookup_insertAt_same] at hh
      cases hh
      rfl
    · rw [lookup_insertAt_other _ _ heq] at hh
      exact hother.resolve_left heq h hh

theorem cleanAll (lines : List Nat) : ∀ s : State, Accessed s (lines.foldl State.cleanLine s) ∧
    (lines.foldl State.cleanLine s).dev.mem = s.dev.mem ∧
    ∀ line, line ∈ lines ∨ cleanAt s line → cleanAt (lines.foldl State.cleanLine s) line := by
  induction lines with
  | nil => exact fun s => ⟨Accessed.refl s, rfl, fun line h => h.resolve_left (List.not_mem_nil)⟩
  | cons l lines ih =>
    intro s
    obtain ⟨hacc, hmem, hclean⟩ := ih (s.cleanLine l)
    refine ⟨(cleanLine_accessed s l).trans hacc, hmem.trans (cleanLine_mem s l), fun line h => hclean line ?_⟩
    rcases h with h | h
    · rcases List.mem_cons.mp h with rfl | h
      · exact .inr (cleanLine_clean s line (.inl rfl))
      · exact .inl h
    · exact .inr (cleanLine_clean s l (.inr h))

/-! ### CINV: a line dropped, memory holding what it may -/

/-- No cache holds the line. -/
def droppedAt (s : State) (line : Nat) : Prop := lookup s.dev.held line = none

theorem store_held (d : Device) (loc : Nat) (bs : List Byte) (who : Writer) : (d.store loc bs who).held = d.held := by
  have hdirty (d : Device) : (d.dirtySlot loc).held = d.held := by
    unfold Device.dirtySlot
    split
    · split <;> rfl
    · rfl
  have hperform (d : Device) (line : Nat) : (d.perform line who).held = d.held := by
    unfold Device.perform
    split
    · rfl
    · split <;> rfl
  rw [Device.store, hperform, hdirty]
  rfl

/-- The forms of what CINV of one line leaves: nothing; a copy dropped; or one dropped and older contents written. -/
theorem invalidateLine_cases (s : State) (line : Nat) :
    (droppedAt s line ∧ s.invalidateLine line = s) ∨
    (cleanAt s line ∧ s.invalidateLine line = s.mapDev (·.dropLine line)) ∨
    ∃ v w, s.invalidateLine line =
      s.drawn.mapDev fun d => ((d.dropLine line).store line (bytesOf 64 v) s.meAsWriter).setRawLabel line w := by
  rw [State.invalidateLine]
  cases hheld : lookup s.dev.held line with
  | none => exact .inl ⟨hheld, rfl⟩
  | some h =>
    dsimp only
    cases hpast : h.past with
    | nil =>
      refine .inr (.inl ⟨fun x hx => ?_, rfl⟩)
      rw [hheld] at hx
      cases hx
      exact hpast
    | cons e past =>
      dsimp only
      have hlt : s.freeNat 0 % (e :: past ++ [(s.dev.lineData line, s.dev.rawLabel line)]).length <
          (e :: past ++ [(s.dev.lineData line, s.dev.rawLabel line)]).length := Nat.mod_lt _ (by simp)
      rw [List.getElem?_eq_getElem hlt]
      exact .inr (.inr ⟨_, _, rfl⟩)

theorem invalidateLine_accessed (s : State) (line : Nat) : Accessed s (s.invalidateLine line) := by
  rcases invalidateLine_cases s line with ⟨-, h⟩ | ⟨-, h⟩ | ⟨v, w, h⟩
  · rw [h]
    exact Accessed.refl s
  · rw [h]
    exact Accessed.mapDev s (dropLine_same _ _)
  · rw [h]
    refine .of_dev ((DevOnly.drawn s).trans (DevOnly.mapDev _ _)) ?_
    exact ((dropLine_same s.dev line).trans (store_same _ _ _ _)).trans (setRawLabel_same _ _ _)

theorem invalidateLine_dropped (s : State) (line : Nat) {other : Nat} (hother : other = line ∨ droppedAt s other) :
    droppedAt (s.invalidateLine line) other := by
  have herase : lookup (eraseAt line s.dev.held) other = none := by
    by_cases heq : other = line
    · subst heq
      exact lookup_eraseAt_same ..
    · rw [lookup_eraseAt_other _ heq]
      exact hother.resolve_left heq
  rcases invalidateLine_cases s line with ⟨hd, h⟩ | ⟨-, h⟩ | ⟨v, w, h⟩
  · rw [h]
    rcases hother with rfl | hother
    · exact hd
    · exact hother
  · rw [h]
    exact herase
  · rw [h, droppedAt]
    refine (congrArg (lookup · other) ?_).trans herase
    exact store_held _ _ _ _

theorem invalidateLine_byte (s : State) {line b : Nat} (hdata : ¬ within line 64 b) (hlabel : ¬ within (labelLoc line) 4 b) :
    (s.invalidateLine line).dev.byte b = s.dev.byte b := by
  rcases invalidateLine_cases s line with ⟨-, h⟩ | ⟨-, h⟩ | ⟨v, w, h⟩
  · rw [h]
  · rw [h]
    rfl
  · rw [h, State.mapDev, setRawLabel_outside _ _ hlabel, store_outside]
    · rfl
    · rwa [bytesOf_length]

theorem invalidateLine_kept {s : State} {line : Nat} (hclean : cleanAt s line) : (s.invalidateLine line).dev.mem = s.dev.mem := by
  rw [State.invalidateLine]
  split
  · rfl
  · next h hheld =>
    rw [hclean h hheld]
    rfl

theorem invalidateAll (lines : List Nat) : ∀ s : State, Accessed s (lines.foldl State.invalidateLine s) ∧
    (∀ line, line ∈ lines ∨ droppedAt s line → droppedAt (lines.foldl State.invalidateLine s) line) ∧
    ∀ b, (∀ line ∈ lines, ¬ within line 64 b ∧ ¬ within (labelLoc line) 4 b) →
      (lines.foldl State.invalidateLine s).dev.byte b = s.dev.byte b := by
  induction lines with
  | nil => exact fun s => ⟨Accessed.refl s, fun line h => h.resolve_left (List.not_mem_nil), fun _ _ => rfl⟩
  | cons l lines ih =>
    intro s
    obtain ⟨hacc, hdropped, hbytes⟩ := ih (s.invalidateLine l)
    refine ⟨(invalidateLine_accessed s l).trans hacc, fun line h => hdropped line ?_, fun b hb => ?_⟩
    · rcases h with h | h
      · rcases List.mem_cons.mp h with rfl | h
        · exact .inr (invalidateLine_dropped s line (.inl rfl))
        · exact .inl h
      · exact .inr (invalidateLine_dropped s l (.inr h))
    · obtain ⟨⟨hdata, hlabel⟩, hrest⟩ := List.forall_mem_cons.mp hb
      exact (hbytes b hrest).trans (invalidateLine_byte s hdata hlabel)

/-! ### The frame -/

/-- A maintenance form leaves the core as it was, and of the rest what it does to its lines. -/
theorem maintained_frame {s u t : State} (hu : TlbOnly s u) (ht : Accessed u t) (c : Bool) :
    let r := if c = true then t.complete else u.complete
    r.core.regs = s.core.regs ∧ accessKept s r := by
  have hsu := Accessed.of_tlb hu
  have hst := hsu.trans ht
  cases c with
  | true => exact ⟨by rw [if_pos rfl, State.complete_core, Core.complete_regs, hst.regs], hst.complete⟩
  | false => exact ⟨by rw [if_neg Bool.false_ne_true, State.complete_core, Core.complete_regs, hsu.regs], hsu.complete⟩

theorem maintained_mem {s u t : State} (hu : TlbOnly s u) (ht : t.dev.mem = u.dev.mem) (c : Bool) :
    memoryKept s (if c = true then t.complete else u.complete) := by
  refine memoryKept_of_mem ?_
  cases c with
  | true => exact ht.trans (congrArg Device.mem hu.dev)
  | false => exact congrArg Device.mem hu.dev

theorem maintained_byte {s u t : State} (hu : TlbOnly s u) {b : Nat} (ht : t.dev.byte b = u.dev.byte b) (c : Bool) :
    (if c = true then t.complete else u.complete).dev.byte b = s.dev.byte b := by
  cases c with
  | true => exact ht.trans (congrArg (Device.byte · b) hu.dev)
  | false => exact congrArg (Device.byte · b) hu.dev

end Sys2Proof.Claims

namespace Sys2Proof
open Machine Claims

/-- Settles O24: each form acts on its lines in turn. -/
theorem cacheMaintenance : Obligations.CacheMaintenance := by
  unfold Obligations.CacheMaintenance
  intro s a acc n p _ hp hclass h
  obtain ⟨⟨u0, htranslate⟩, -, -⟩ := id h
  refine ⟨fun hn hacc => ⟨?_, ?_⟩, fun hn hacc => ?_, fun hn hacc => ?_, fun hn hacc => ?_⟩ <;> subst hn hacc
  · obtain ⟨u, hu, hrun⟩ := maintain_passes hp hclass h State.cleanLine
    obtain ⟨hall, hmem, hclean⟩ := cleanAll (linesOf s p 64) u
    obtain ⟨hregs, hkept⟩ := maintained_frame hu hall p.cacheable
    refine ⟨_, hrun, hregs, maintained_mem hu hmem _, hkept, fun hc x hx => ?_⟩
    rw [if_pos hc] at hx
    refine hclean _ (.inl ?_) x hx
    rw [linesOf_one htranslate]
    exact List.mem_singleton_self _
  · obtain ⟨u, hu, hrun⟩ := maintain_passes hp hclass h State.flushLine
    rw [linesOf_one htranslate, List.foldl_cons, List.foldl_nil] at hrun
    obtain ⟨hregs, hkept⟩ := maintained_frame hu (Accessed.mapDev u (f := (·.dropLine (lineOf p.loc))) (dropLine_same _ _)) p.cacheable
    refine ⟨_, hrun, hregs, maintained_mem (t := u.flushLine (lineOf p.loc)) hu rfl _, hkept, fun hc => ?_⟩
    rw [if_pos hc]
    exact lookup_eraseAt_same ..
  · obtain ⟨u, hu, hrun⟩ := maintain_passes hp hclass h State.invalidateLine
    rw [linesOf_one htranslate, List.foldl_cons, List.foldl_nil] at hrun
    obtain ⟨hregs, hkept⟩ := maintained_frame hu (invalidateLine_accessed u (lineOf p.loc)) p.cacheable
    refine ⟨_, hrun, hregs, hkept, fun hc => ?_, fun b hdata hlabel => maintained_byte hu (invalidateLine_byte u hdata hlabel) _,
      fun hclean => maintained_mem hu (invalidateLine_kept ?_) _⟩
    · rw [if_pos hc]
      exact invalidateLine_dropped u _ (.inl rfl)
    · rw [cleanAt, hu.dev]
      exact hclean
  · obtain ⟨u, hu, hrun⟩ := maintain_passes hp hclass h State.cleanLine
    obtain ⟨hall, hmem, hclean⟩ := cleanAll (linesOf s p 1024) u
    obtain ⟨hregs, hkept⟩ := maintained_frame hu hall p.cacheable
    refine ⟨_, hrun, hregs, maintained_mem hu hmem _, hkept, fun hc line x hline hx => ?_⟩
    rw [if_pos hc] at hx
    exact hclean line (.inl hline) x hx
  · obtain ⟨u, hu, hrun⟩ := maintain_passes hp hclass h State.invalidateLine
    obtain ⟨hall, hdropped, hbytes⟩ := invalidateAll (linesOf s p 1024) u
    obtain ⟨hregs, hkept⟩ := maintained_frame hu hall p.cacheable
    refine ⟨_, hrun, hregs, hkept, fun hc line hline => ?_, fun b hb => maintained_byte hu (hbytes b hb) _⟩
    rw [if_pos hc]
    exact hdropped line (.inl hline)

end Sys2Proof
end

section
/-! PROOF. Label words of lines (R237, R238): LLD and LST. -/

namespace Sys2Proof.Claims
open Machine

theorem linePlace_one {s u : State} {acc : Access} {va : Word} {p : Place} (h : reaches s acc 1 va p u) :
    s.linePlace acc va = .ok (p, foundAt u s p) := by
  rw [State.linePlace, resolve_one h]
  rfl

theorem formWith_congr {s t s' : State} {ws : List LabelWord} {l : Label} {w : LabelWord} (h : Accessed s t) (hw : sameWorld s t)
    (hf : s.formWith ws l = .ok (w, s')) :
    ∃ t', t.formWith ws l = .ok (w, t') ∧ Accessed t t' ∧ t'.dev = t.dev ∧ sameWorld s' t' := by
  have heval := eval_congr h hw
  refine formLabel_congr h hw ?_
  rw [State.formWith] at hf
  rw [State.wideOf, State.conjOf, heval, hw]
  exact hf

/-! ### The word that LST writes in S mode -/

/-- A word with bits [23:17] cleared (R238). -/
def storedWord (x : Word) : LabelWord := BitVec.ofNat 32 (x.toNat / 2 ^ 24 % 2 ^ 8 * 2 ^ 24 + x.toNat % 2 ^ 17)

theorem storedWord_eq (x : Word) : x.truncate 32 &&& 0xFF01FFFF = storedWord x := by
  have hmask : (0xFF01FFFF : Half) = BitVec.ofNat 32 (2 ^ 17 - 1) ||| (BitVec.ofNat 32 (2 ^ 8 - 1) <<< 24) := by decide
  have hlow : x.toNat % 2 ^ 17 < 2 ^ 24 := (Nat.mod_lt _ (by decide)).trans (by decide)
  refine BitVec.eq_of_getLsbD_eq fun i hi => ?_
  have hbit : (storedWord x).getLsbD i = ((x.toNat / 2 ^ 24 % 2 ^ 8 * 2 ^ 24 + x.toNat % 2 ^ 17).testBit i) := by
    rw [storedWord, BitVec.getLsbD_ofNat, decide_eq_true hi, Bool.true_and]
  rw [hbit, BitVec.getLsbD_and, hmask, BitVec.getLsbD_or, BitVec.getLsbD_shiftLeft, BitVec.getLsbD_ofNat, BitVec.getLsbD_ofNat,
    Nat.testBit_two_pow_sub_one, Nat.testBit_two_pow_sub_one, BitVec.getLsbD_setWidth, Nat.mul_comm,
    Nat.testBit_two_pow_mul_add _ hlow]
  by_cases h24 : i < 24
  · rw [if_pos h24, Nat.testBit_mod_two_pow]
    simp [hi, h24, BitVec.getLsbD, Bool.and_comm]
  · have h17 : ¬ i < 17 := by omega
    have h8 : i - 24 < 8 := by omega
    have h32 : i - 24 < 32 := by omega
    have hat : i - 24 + 24 = i := by omega
    rw [if_neg h24, Nat.testBit_mod_two_pow, Nat.testBit_div_two_pow, hat]
    simp [hi, h17, h24, h8, h32, BitVec.getLsbD]

theorem storedWord_handle (x : Word) : lwHandle (storedWord x) = x.toNat % 2 ^ 16 := by
  rw [lwHandle, BitVec.extractLsb'_toNat, Nat.shiftRight_eq_div_pow, storedWord, BitVec.toNat_ofNat]
  omega

/-! ### LST -/

/-- The frame of an LST: no result, no register, no stream. -/
theorem Accessed.quiet {s t : State} (h : Accessed s t) :
    t.complete.core.regs = s.core.regs ∧ latencyKept s t.complete ∧ accessKept s t.complete := by
  refine ⟨?_, ⟨?_, ?_⟩, h.complete⟩
  · rw [State.complete_core, Core.complete_regs, h.regs]
  · rw [State.complete_core, Core.complete_pending, h.pending]
  · rw [State.complete_core, Core.complete_streams, h.streams]

theorem execLst_eq {s u : State} {d a : Nat} {p : Place} (h : reaches s .write 1 (s.rdX a) p u) (hp : plainCore s) :
    (s.core.status.mode = .s → exec (.lst d a) s = commit s (do
      let t ← (foundAt u s p).setLineWord p ((s.rdX d).truncate 32)
      .ok t.complete)) ∧
    (s.core.status.mode = .u → exec (.lst d a) s = commit s (do
      let t ← (foundAt u s p).narrowLine p [s.labX d, s.labX a]
        (s.ctx.world.readWord s.core.epoch (BitVec.ofNat 32 (s.rdX d).toNat))
      .ok t.complete)) := by
  have hexec : exec (.lst d a) s = execLst d a s := rfl
  rw [hexec, execLst, edgeGuard_plain hp, except_bind_ok, linePlace_one h, except_bind_ok]
  dsimp only
  refine ⟨fun hmode => ?_, fun hmode => ?_⟩
  · rw [hmode]
  · rw [hmode, BitVec.ofNat_toNat]

/-- A partial write of no bytes: the label word alone. -/
theorem narrowLine_forms {s u v : State} {p : Place} {ws : List LabelWord} {l : Label} {w : LabelWord} (hu : TlbOnly s u)
    (hform : s.formWith ws l = .ok (w, v)) (hforms : lineForms s v p (v.eval w)) :
    ∃ t, (foundAt u s p).narrowLine p ws l = .ok t ∧ Accessed s t ∧ lineAfter s t v.ctx.world p (v.eval w) ∧
      ∀ b, p.lt = false ∨ ¬ within (labelLoc (lineOf p.loc)) 4 b → t.dev.byte b = s.dev.byte b := by
  have hfound := foundAt_accessed hu p
  obtain ⟨t, ht, hacc, hdev, hworld⟩ := formWith_congr hfound (foundAt_world hu p) hform
  have hv : Accessed s v := .of_label (formLabel_only hform) (formLabel_dev hform)
  have hst := hfound.trans hacc
  have hmem : t.dev.mem = s.dev.mem := (congrArg Device.mem hdev).trans (foundAt_mem hu p)
  have heval : t.eval w = v.eval w := by rw [State.eval, State.eval, hworld, hst.epoch, hv.epoch]
  have hbyte (r : State) (hr : r.dev.mem = s.dev.mem) (b : Nat) : r.dev.byte b = s.dev.byte b := by
    rw [Device.byte, Device.byte, hr]
  have hmem' : (t.beforeWrite p).dev.mem = s.dev.mem := (beforeWrite_dev t p).2.trans hmem
  have hbefore := hst.trans (beforeWrite_accessed t p)
  have hworld' : sameWorld v (t.beforeWrite p) := (sameWorld_of_dev (beforeWrite_dev t p).1).trans hworld
  have hstart : (foundAt u s p).narrowLine p ws l =
      if p.lt then (t.beforeWrite p).putPartialLabel p (v.eval w) else .ok t := by
    rw [State.narrowLine, ht]
    simp only [except_bind_ok, heval, trialLabels_one hst hv hworld (rawLabel_of_mem hmem _) hforms,
      pageLabelCheck_one t (lwHandle w) hforms]
  by_cases hlt : p.lt = true
  · obtain ⟨t', ht'⟩ := putPartialLabel_forms hbefore hv hworld' (rawLabel_of_mem hmem' _) hforms
    obtain ⟨hput, -, hlabel⟩ := putPartialLabel_after hbefore (rawLabel_of_mem hmem' _) ht'
    obtain ⟨x, hx, hafter⟩ := hlabel hlt
    rw [hworld'] at hafter
    refine ⟨t', ?_, hbefore.trans hput, fun _ => ?_, fun b hb => ?_⟩
    · rw [hstart, if_pos hlt, ht']
    · rw [hx, setRawLabel_raw]
      exact hafter
    · rw [hx, setRawLabel_outside _ _ (hb.resolve_left (by rw [hlt]; decide)), hbyte _ hmem']
  · exact ⟨t, by rw [hstart, if_neg hlt], hst, fun h => absurd h hlt, fun b _ => hbyte t hmem b⟩

/-- A label that the page cannot hold (R141). -/
theorem narrowLine_lblpage {s u v : State} {p : Place} {ws : List LabelWord} {l : Label} {w : LabelWord} (hu : TlbOnly s u)
    (hform : s.formWith ws l = .ok (w, v)) (hlt : p.lt = false) (htop : v.eval w ≠ topLabel) :
    (foundAt u s p).narrowLine p ws l = .error (s.trap .lblpage (handle w) p.va) := by
  have hfound := foundAt_accessed hu p
  obtain ⟨t, ht, hacc, -, hworld⟩ := formWith_congr hfound (foundAt_world hu p) hform
  have hv : Accessed s v := .of_label (formLabel_only hform) (formLabel_dev hform)
  have hst := hfound.trans hacc
  have heval : t.eval w = v.eval w := by rw [State.eval, State.eval, hworld, hst.epoch, hv.epoch]
  have htrial : t.trialLabels (t.eval w) [p] = .ok () := by
    rw [State.trialLabels, State.putPartialLabel, hlt]
    rfl
  have hpage : t.pageLabelCheck (t.eval w) (lwHandle w) [p] = .error (s.trap .lblpage (handle w) p.va) := by
    rw [State.pageLabelCheck, heval, hlt, if_pos ⟨htop, rfl⟩, hst.trap, handle_eq]
  rw [State.narrowLine, ht, except_bind_ok]
  dsimp only
  rw [htrial, except_bind_ok, hpage]
  rfl

end Sys2Proof.Claims

namespace Sys2Proof
open Machine Claims

/-- Settles O27: LLD reads the word of the line that its address reaches; LST sets it in S mode and narrows it in U mode. -/
theorem lineLabels : Obligations.LineLabels := by
  unfold Obligations.LineLabels
  intro s u v d a p w _ _
  refine ⟨fun h hl => ?_, fun h hp hmode => ⟨fun hlt => ?_, fun hlt hzero => ?_, fun hlt hne => ?_⟩,
    fun h hp hmode hform => ⟨fun hforms => ?_, fun hlt htop => ?_⟩⟩
  · have hu := translate_only h.2.1
    have hacc : Accessed u ((foundAt u s p).cacheLine p) := (Accessed.mapDev u (meet_same _ _ _)).trans (cacheLine_accessed _ p)
    have hworld : sameWorld u ((foundAt u s p).cacheLine p) :=
      (sameWorld_of_dev (cacheLine_dev (foundAt u s p) p).1 : sameWorld (foundAt u s p) _)
    obtain ⟨t, ht, htacc, hdev⟩ := laterConj_access ((lineLabel s p).zeroExtend 512) FFlags.none hacc hworld
      (hl.imp_left (congrArg Reg.x))
    have hmem : t.dev.mem = s.dev.mem := by rw [hdev, (cacheLine_dev _ p).2, foundAt_mem hu p]
    obtain ⟨hregs, hout, hmemory, hkept⟩ := (((Accessed.of_tlb hu).trans hacc).trans htacc).outcome hmem
      ⟨.x d, (lineLabel s p).zeroExtend 512, w, FFlags.none⟩
    refine ⟨_, ?_, hregs, hout, hmemory, hkept⟩
    have hexec : exec (.lld d a) s = execLld d a s := rfl
    rw [hexec, execLld, linePlace_one h, except_bind_ok]
    dsimp only
    rw [lineWord_of_mem (foundAt_mem hu p), ht]
    rfl
  · have hu := translate_only h.2.1
    have hbefore := (foundAt_accessed hu p).trans (beforeWrite_accessed _ p)
    have hset := hbefore.trans (Accessed.mapDev _ (f := (·.setRawLabel (lineOf p.loc) (storedWord (s.rdX d)))) (setRawLabel_same _ _ _))
    obtain ⟨hregs, hlatency, hkept⟩ := hset.quiet
    refine ⟨_, ?_, hregs, setRawLabel_raw _ _ _, fun b hb => ?_, hlatency, hkept⟩
    · rw [(execLst_eq h hp).1 hmode, State.setLineWord, storedWord_eq, if_pos hlt]
      rfl
    · refine (setRawLabel_outside _ _ hb).trans ?_
      rw [Device.byte, Device.byte, (beforeWrite_dev _ p).2, foundAt_mem hu p]
  · have hu := translate_only h.2.1
    obtain ⟨hregs, hlatency, hkept⟩ := (foundAt_accessed hu p).quiet
    refine ⟨_, ?_, hregs, memoryKept_of_mem (foundAt_mem hu p), hlatency, hkept⟩
    rw [(execLst_eq h hp).1 hmode, State.setLineWord, storedWord_eq, if_neg (by rw [hlt]; decide), storedWord_handle, if_pos (.inr hzero)]
    rfl
  · have hu := translate_only h.2.1
    have hnot : ¬ (storedWord (s.rdX d) = 0 ∨ (s.rdX d).toNat % 2 ^ 16 = 0) := by
      rintro (hz | hz)
      · have hhandle := storedWord_handle (s.rdX d)
        rw [hz] at hhandle
        exact hne hhandle.symm
      · exact hne hz
    refine traps_of_commit ((execLst_eq h hp).1 hmode) ?_
    rw [State.setLineWord, storedWord_eq, if_neg (by rw [hlt]; decide), storedWord_handle, if_neg hnot,
      (foundAt_accessed hu p).trap, translate_va h.2.1]
    rfl
  · have hu := translate_only h.2.1
    obtain ⟨t, ht, hacc, hafter, hbytes⟩ := narrowLine_forms hu hform hforms
    obtain ⟨hregs, hlatency, hkept⟩ := hacc.quiet
    refine ⟨t.complete, ?_, hregs, hafter, hbytes, hlatency, hkept⟩
    rw [(execLst_eq h hp).2 hmode, ht]
    rfl
  · have hu := translate_only h.2.1
    refine traps_of_commit ((execLst_eq h hp).2 hmode) ?_
    rw [narrowLine_lblpage hu hform hlt htop, translate_va h.2.1]
    rfl

end Sys2Proof
end

section
/-! PROOF. What planning and writing leave of the state: a job's plan is read (R272 to R279), and the writes of an engine touch the
device, the labels entered and LBLSTAT alone (R211, R215). -/

namespace Sys2Proof.Claims
open Machine

/-! ### Reading -/

/-- A state after reads: the device and the held translations may differ, and memory is canonical still. -/
def ReadOnly (s t : State) : Prop := DevOnly s t ∧ (Memory.wf s.dev.mem → Memory.wf t.dev.mem)

theorem ReadOnly.refl (s : State) : ReadOnly s s := ⟨DevOnly.refl s, id⟩

theorem ReadOnly.trans {s t u : State} (h : ReadOnly s t) (k : ReadOnly t u) : ReadOnly s u :=
  ⟨h.1.trans k.1, k.2 ∘ h.2⟩

theorem readSources_ok {s t : State} {a : Agent} {va : Word} {len : Nat} {bs : List Byte} {ws : List (Word × LabelWord)}
    (h : s.readSources a va len = .ok (bs, ws, t)) : ReadOnly s t := by
  rw [State.readSources] at h
  obtain ⟨⟨bs', ws', u⟩, hread, h⟩ := bind_ok h
  cases h
  exact readPieces_ok _ _ _ hread

theorem readPrefix_ok (a : Agent) (ps : List (Word × Nat)) : ∀ s : State, ReadOnly s (s.readPrefix a ps).2.2.2 := by
  induction ps with
  | nil => exact ReadOnly.refl
  | cons p ps ih =>
    intro s
    rw [State.readPrefix]
    split
    · exact ReadOnly.refl s
    · next hread => exact (readSources_ok hread).trans (ih _)

theorem readRows_ok (a : Agent) (j : Job) (rs : List Nat) : ∀ {s t : State} {bs : List Byte} {ws : List LabelWord},
    s.readRows a j rs = .ok (bs, ws, t) → ReadOnly s t := by
  induction rs with
  | nil => intro s t bs ws h; cases h; exact ReadOnly.refl _
  | cons r rs ih =>
    intro s t bs ws h
    rw [State.readRows] at h
    obtain ⟨⟨bs', ws', u⟩, hread, h⟩ := bind_ok h
    obtain ⟨⟨bs'', ws'', v⟩, hrest, h⟩ := bind_ok h
    cases h
    exact (show ReadOnly s u from readSpan_ok hread).trans (ih hrest)

/-! ### Plans -/

/-- Planning a piece only reads. -/
def planReads (f : Nat × Nat → State → PieceResult) : Prop := ∀ p s w k t, f p s = .ok (w, k, t) → ReadOnly s t

theorem copyPiece_reads (a : Agent) (src dst : Word) : planReads (copyPiece a src dst) := by
  intro p s w k t h
  rw [copyPiece] at h
  obtain ⟨⟨bs, ws, u⟩, hread, h⟩ := bind_ok h
  cases h
  exact readSources_ok hread

theorem convertPiece_reads (j : Job) (a : Agent) (src dst : Word) : planReads (j.convertPiece a src dst) := by
  intro p s w k t h
  have hprefix := fun ps => readPrefix_ok a ps s
  rw [Job.convertPiece] at h
  dsimp only at h
  split at h
  · cases h
  · split at h
    · cases h
      exact hprefix _
    · obtain ⟨⟨old, _, u⟩, hread, h⟩ := bind_ok h
      cases h
      exact (hprefix _).trans (engineRead_ok hread)

theorem reducePiece_reads (j : Job) (a : Agent) (src dst : Word) : planReads (j.reducePiece a src dst) := by
  intro p s w k t h
  rw [Job.reducePiece] at h
  obtain ⟨⟨sv, sw, u⟩, hsrc, h⟩ := bind_ok h
  obtain ⟨⟨dv, dw, v⟩, hdst, h⟩ := bind_ok h
  obtain ⟨⟨q, x⟩, hplace, h⟩ := bind_ok h
  cases h
  exact ((readSources_ok hsrc).trans (readSources_ok hdst)).trans (enginePlace_ok hplace)

theorem planPieces_ok {f : Nat × Nat → State → PieceResult} (hf : planReads f) (ps : List (Nat × Nat)) :
    ∀ (s : State) (acc : List Piece), ReadOnly s (planPieces f ps s acc).2 := by
  induction ps with
  | nil => exact fun s _ => ReadOnly.refl s
  | cons p ps ih =>
    intro s acc
    rw [planPieces]
    split
    · exact ReadOnly.refl s
    · next h => exact hf _ _ _ _ _ h
    · next h => exact (hf _ _ _ _ _ h).trans (ih _ _)

theorem planRows_ok {span : Nat → Word × Nat} {row : Nat → State → Plan × State} (hrow : ∀ r s, ReadOnly s (row r s).2)
    (rs : List Nat) : ∀ (s : State) (acc : List Piece), ReadOnly s (planRows span row rs s acc).2 := by
  induction rs with
  | nil => exact fun s _ => ReadOnly.refl s
  | cons r rs ih =>
    intro s acc
    have h := hrow r s
    rw [planRows]
    dsimp only
    split
    · exact h
    · split
      · exact h
      · exact h.trans (ih _ _)

theorem planTransform_ok {s t : State} {a : Agent} {j : Job} {p : Plan} (h : s.planTransform a j = some (p, t)) :
    ReadOnly s t := by
  rw [State.planTransform] at h
  split at h
  · cases h
  · split at h
    · cases h
      exact ReadOnly.refl s
    · next hread =>
      dsimp only at h
      split at h
      · cases h
      · split at h
        · cases h
        · cases h
          exact readRows_ok _ _ _ hread

/-- The plan of a job has only read. -/
theorem planJob_ok {s t : State} {cl crew : Nat} {j : Job} {p : Plan} (h : s.planJob cl crew j = some (p, t)) : ReadOnly s t := by
  have hrows (f : Word → Word → Nat × Nat → State → PieceResult) (hf : ∀ src dst, planReads (f src dst)) :
      ReadOnly s (planRows (fun r => (strideAddr j.dst j.dstride r, j.dstLen)) (fun r s =>
        planPieces (f (strideAddr j.src j.sstride r) (strideAddr j.dst j.dstride r))
          (rowPieces (strideAddr j.dst j.dstride r) j.dstLen) s []) (List.range j.rows) s []).2 :=
    planRows_ok (fun r u => planPieces_ok (hf _ _) _ u _) _ _ _
  rw [State.planJob.eq_def] at h
  dsimp only at h
  split at h
  · have := hrows _ (copyPiece_reads (j.agent cl crew))
    rwa [Option.some.inj h] at this
  · have hall := hrows _ (convertPiece_reads j (j.agent cl crew))
    rw [Prod.mk.injEq _ _ _ _ |>.mp (Option.some.inj h) |>.2] at hall
    exact hall
  · exact planTransform_ok h
  · have hblocks := fun (f : Nat → Word × Nat) (row : Nat → State → Plan × State) (hrow : ∀ r u, ReadOnly u (row r u).2) rs =>
      planRows_ok (span := f) hrow rs s []
    have hall := Option.some.inj h
    rw [show t = (p, t).2 from rfl, ← hall]
    refine hblocks _ _ (fun r u => ?_) _
    split
    · exact ReadOnly.refl u
    · exact planPieces_ok (copyPiece_reads _ _ _) _ u _
  · have := hrows _ (reducePiece_reads j (j.agent cl crew))
    rwa [Option.some.inj h] at this

/-! ### Writes of engines -/

/-- But for the device, labels entered, LBLSTAT, held translations and the free values drawn, `t` is `s`. -/
structure EngineOnly (s t : State) : Prop where
  focus : t.focus = s.focus
  others : t.others = s.others
  agenda : t.agenda = s.agenda
  core : { t.core with lblstat := s.core.lblstat } = s.core
  coreAt : ∀ cl c, { t.coreAt cl c with lblstat := (s.coreAt cl c).lblstat } = s.coreAt cl c
  cluster : ∀ cl, { t.cluster cl with
    tlb := (s.cluster cl).tlb, first := (s.cluster cl).first, walks := (s.cluster cl).walks
    cores := (s.cluster cl).cores } = s.cluster cl

theorem EngineOnly.refl (s : State) : EngineOnly s s := ⟨rfl, rfl, rfl, rfl, fun _ _ => rfl, fun _ => rfl⟩

theorem EngineOnly.trans {s t u : State} (h : EngineOnly s t) (k : EngineOnly t u) : EngineOnly s u where
  focus := k.focus.trans h.focus
  others := k.others.trans h.others
  agenda := k.agenda.trans h.agenda
  core := by rw [← h.core, ← k.core]
  coreAt cl c := by rw [← h.coreAt cl c, ← k.coreAt cl c]
  cluster cl := by rw [← h.cluster cl, ← k.cluster cl]

theorem DevOnly.coreAt {s t : State} (h : DevOnly s t) (cl c : Nat) : t.coreAt cl c = s.coreAt cl c := by
  have hidle : t.ctx.idleCore = s.ctx.idleCore := by rw [← h.ctx]; rfl
  have hcores : (t.cluster cl).cores = (s.cluster cl).cores := by rw [← h.cluster cl]
  rw [State.coreAt, State.coreAt, State.isFocus, State.isFocus, h.focus, h.core, hidle, hcores]

theorem EngineOnly.of_dev {s t : State} (h : DevOnly s t) : EngineOnly s t where
  focus := h.focus
  others := h.others
  agenda := h.agenda
  core := by rw [h.core]
  coreAt cl c := by rw [DevOnly.coreAt h]
  cluster cl := by rw [← h.cluster cl]

theorem EngineOnly.mapDev (s : State) (f : Device → Device) : EngineOnly s (s.mapDev f) := .of_dev (DevOnly.mapDev s f)

/-- The core that moves is the core at the focus. -/
theorem coreAt_of_focus (s : State) : s.coreAt s.focus.cl s.focus.core = s.core := by
  rw [State.coreAt, if_pos]
  rw [State.isFocus, decide_eq_true_iff]
  exact ⟨rfl, rfl⟩

theorem EngineOnly.regs {s t : State} (h : EngineOnly s t) : t.core.regs = s.core.regs := by rw [← h.core]
theorem EngineOnly.copyUnit {s t : State} (h : EngineOnly s t) (cl crew : Nat) : t.copyUnit cl crew = s.copyUnit cl crew := by
  rw [State.copyUnit, State.copyUnit, ← h.cluster cl]
  rfl

/-- LBLSTAT of a core counts a label formed; the rest of the state stays. -/
theorem EngineOnly.mapCoreAt (s : State) (cl c : Nat) (f : LblStat → LblStat) :
    EngineOnly s (s.mapCoreAt cl c fun k => { k with lblstat := f k.lblstat }) where
  focus := State.mapCoreAt_focus ..
  others := State.mapCoreAt_others ..
  agenda := by unfold State.mapCoreAt; split <;> rfl
  core := by unfold State.mapCoreAt; split <;> rfl
  coreAt cl' c' := by
    by_cases h : cl' = cl ∧ c' = c
    · obtain ⟨rfl, rfl⟩ := h
      rw [State.coreAt_mapCoreAt_same]
    · rw [State.coreAt_mapCoreAt_other _ _ h]
  cluster cl' := by
    unfold State.mapCoreAt
    split
    · rfl
    · by_cases h : cl' = cl
      · subst h
        rw [State.cluster_mapCluster_same]
      · rw [State.cluster_mapCluster_other _ _ h]

theorem engineForm_only {s t : State} {cl core : Nat} {l : Label} {w : LabelWord} (h : s.engineForm cl core l = .ok (w, t)) :
    EngineOnly s t := by
  rw [State.engineForm] at h
  split at h
  · cases h
  · next world dropped hform =>
    cases h
    obtain ⟨extra, rfl⟩ := form_ok hform
    refine EngineOnly.trans (t := s.mapWorld fun w => { w with table := w.table ++ extra })
      ⟨rfl, rfl, rfl, rfl, fun _ _ => rfl, fun _ => rfl⟩ ?_
    exact EngineOnly.mapCoreAt _ _ _ fun st => st.count dropped (decide (l.length > 1))

theorem partialLabel_only {s t : State} {cl core : Nat} {raw w : LabelWord} {fit : Label}
    (h : s.partialLabel cl core raw fit = .ok (w, t)) : EngineOnly s t := by
  rw [State.partialLabel] at h
  split at h
  · cases h
    exact EngineOnly.refl s
  · split at h
    · cases h
    · next hform =>
      cases h
      exact engineForm_only hform

theorem engineFit_only {s t : State} {cl core : Nat} {nl fit : Label} {w : LabelWord}
    (h : s.engineFit cl core nl = .ok (w, fit, t)) : EngineOnly s t := by
  rw [State.engineFit] at h
  split at h
  · cases h
  · next hform =>
    cases h
    exact engineForm_only hform

theorem engineBytes_only (s : State) (a : Agent) (p : Place) (bs : List Byte) : EngineOnly s (s.engineBytes a p bs) :=
  .of_dev (engineBytes_ok s a p bs).1

theorem enginePartial_only {s t : State} {a : Agent} {core : Nat} {p : Place} {bs : List Byte} {nl : Label}
    (h : s.enginePartial a core p bs nl = .ok t) : EngineOnly s t := by
  rw [State.enginePartial] at h
  obtain ⟨⟨w, fit, u⟩, hfit, h⟩ := bind_ok h
  have hu := engineFit_only hfit
  dsimp only at h
  split at h
  · obtain ⟨⟨w', v⟩, hlabel, h⟩ := bind_ok h
    obtain ⟨_, _, h⟩ := bind_ok h
    cases h
    exact ((hu.trans (partialLabel_only hlabel)).trans (EngineOnly.mapDev _ _)).trans (engineBytes_only _ _ _ _)
  · obtain ⟨_, _, h⟩ := bind_ok h
    obtain ⟨_, _, h⟩ := bind_ok h
    cases h
    exact hu.trans (engineBytes_only _ _ _ _)

theorem engineStore_only {s t : State} {a : Agent} {core : Nat} {p : Place} {bs : List Byte} {nl : Label}
    (h : s.engineStore a core p bs nl = .ok t) : EngineOnly s t := by
  rw [State.engineStore] at h
  split at h
  · split at h
    · cases h
    · next w u hform =>
      split at h
      · cases h
      · split at h
        · cases h
        · cases h
          refine (((engineForm_only hform).trans ?_).trans (engineBytes_only _ _ _ _)).trans (EngineOnly.mapDev _ _)
          split
          · exact EngineOnly.mapDev _ _
          · exact EngineOnly.refl _
  · exact enginePartial_only h

theorem writeRun_only {s t : State} {a : Agent} {core : Nat} {ctl : LabelWord} {p : Place} {w : LineWrite}
    (h : s.writeRun a core ctl p w = .ok t) : EngineOnly s t := by
  rw [State.writeRun.eq_def] at h
  split at h
  · split at h
    · cases h
    · split at h
      · cases h
      · cases h
        refine (EngineOnly.trans ?_ (engineBytes_only _ _ _ _)).trans (EngineOnly.mapDev _ _)
        split
        · exact EngineOnly.mapDev _ _
        · exact EngineOnly.refl _
  · exact engineStore_only h
  · dsimp only at h
    split at h
    · exact enginePartial_only h
    · exact engineStore_only h

theorem runs_only (a : Agent) (p : Place) (rs : List (Word × List Byte)) :
    ∀ s : State, EngineOnly s (rs.foldl (fun t r => t.engineBytes a (p.move r.1) r.2) s) := by
  induction rs with
  | nil => exact EngineOnly.refl
  | cons r rs ih => exact fun s => (engineBytes_only s a (p.move r.1) r.2).trans (ih _)

theorem writeAt_only {s t : State} {a : Agent} {core : Nat} {ctl : LabelWord} {p : Place} {w : LineWrite}
    (h : s.writeAt a core ctl p w = .ok t) : EngineOnly s t := by
  rw [State.writeAt] at h
  split at h
  · cases h
  · next u hrun =>
    cases h
    exact (writeRun_only hrun).trans (runs_only a p w.rest u)

theorem writeLine_only {s t : State} {a : Agent} {core : Nat} {ctl : LabelWord} {w : LineWrite}
    (h : s.writeLine a core ctl w = .ok t) : EngineOnly s t := by
  rw [State.writeLine] at h
  split at h
  · cases h
  · next hplace => exact (EngineOnly.of_dev (enginePlace_ok (liftDeny_ok hplace)).1).trans (writeAt_only h)

theorem writeSome_only (s : State) (a : Agent) (core : Nat) (ctl : LabelWord) (ws : List LineWrite) :
    EngineOnly s (s.writeSome a core ctl ws) := by
  rw [State.writeSome]
  generalize ws.take _ = some
  refine (EngineOnly.of_dev (DevOnly.drawn s)).trans ?_
  generalize s.drawn = u
  induction some generalizing u with
  | nil => exact EngineOnly.refl u
  | cons w ws ih =>
    rw [List.foldl_cons]
    refine EngineOnly.trans ?_ (ih _)
    split
    · next h => exact writeLine_only h
    · exact EngineOnly.refl u

theorem leaveEarly_only (s : State) (a : Agent) (j : Job) (p : Plan) : EngineOnly s (s.leaveEarly a j p) := by
  rw [State.leaveEarly]
  split
  · exact EngineOnly.refl s
  · exact writeSome_only ..

theorem cancelPlan_only (s : State) (cl crew : Nat) (j : Job) : EngineOnly s (s.cancelPlan cl crew j) := by
  rw [State.cancelPlan]
  split
  · next h => exact (EngineOnly.of_dev (planJob_ok h).1).trans (leaveEarly_only ..)
  · exact EngineOnly.refl s

end Sys2Proof.Claims
end

section
/-! PROOF. Jobs of the copy unit (R270 to R287): a completion, JSUB, JPOLL and JCANCEL, and the events of a job. -/

namespace Sys2Proof.Claims
open Machine

/-! ### Cores and clusters -/

/-- A core at another place in the state depends on these alone. -/
theorem coreAt_congr {s t : State} {cl c : Nat} (hfocus : t.focus = s.focus) (hcore : t.core = s.core)
    (hidle : t.ctx.idleCore = s.ctx.idleCore) (hcores : (t.cluster cl).cores = (s.cluster cl).cores) :
    t.coreAt cl c = s.coreAt cl c := by
  rw [State.coreAt, State.coreAt, State.isFocus, State.isFocus, hfocus, hcore, hidle, hcores]

/-- A change of a cluster that leaves its cores leaves every core. -/
theorem coreAt_mapCluster (s : State) (cl : Nat) (f : Cluster → Cluster) (h : ∀ k, (f k).cores = k.cores) (cl' c : Nat) :
    (s.mapCluster cl f).coreAt cl' c = s.coreAt cl' c := by
  refine coreAt_congr rfl rfl rfl ?_
  by_cases hcl : cl' = cl
  · subst hcl
    rw [State.cluster_mapCluster_same, h]
  · rw [State.cluster_mapCluster_other _ _ hcl]

/-- A change of one core leaves all else of every cluster. -/
theorem mapCoreAt_cluster (s : State) (cl c : Nat) (f : Core → Core) (cl' : Nat) :
    { (s.mapCoreAt cl c f).cluster cl' with cores := (s.cluster cl').cores } = s.cluster cl' := by
  unfold State.mapCoreAt
  split
  · rfl
  · by_cases h : cl' = cl
    · subst h
      rw [State.cluster_mapCluster_same]
    · rw [State.cluster_mapCluster_other _ _ h]

theorem mapCoreAt_copyUnit (s : State) (cl c : Nat) (f : Core → Core) (cl' crew : Nat) :
    (s.mapCoreAt cl c f).copyUnit cl' crew = s.copyUnit cl' crew := by
  rw [State.copyUnit, State.copyUnit, ← mapCoreAt_cluster s cl c f cl']
  rfl

theorem mapCoreAt_locks (s : State) (cl c : Nat) (f : Core → Core) (cl' : Nat) :
    ((s.mapCoreAt cl c f).cluster cl').locks = (s.cluster cl').locks := by
  rw [← mapCoreAt_cluster s cl c f cl']

/-- A field of the core that moves, as of any core, is kept by a change of a core that keeps it. -/
theorem mapCoreAt_keeps {α : Type} (g : Core → α) {f : Core → Core} (hf : ∀ k, g (f k) = g k) (s : State) (cl c : Nat) :
    g (s.mapCoreAt cl c f).core = g s.core := by
  unfold State.mapCoreAt
  split
  · exact hf s.core
  · rfl

theorem coreAt_mapCoreAt_keeps {α : Type} (g : Core → α) {f : Core → Core} (hf : ∀ k, g (f k) = g k) (s : State)
    (cl c cl' c' : Nat) : g ((s.mapCoreAt cl c f).coreAt cl' c') = g (s.coreAt cl' c') := by
  by_cases h : cl' = cl ∧ c' = c
  · obtain ⟨rfl, rfl⟩ := h
    rw [State.coreAt_mapCoreAt_same, hf]
  · rw [State.coreAt_mapCoreAt_other _ _ h]

/-! ### Counters (R30, R31) -/

theorem post_k (c : Core) (u : Upcall) : (c.post u).k = c.k := by
  unfold Core.post
  split <;> rfl

theorem post_regs (c : Core) (u : Upcall) : (c.post u).regs = c.regs := by
  unfold Core.post
  split <;> rfl

/-- A counter advanced has gone on by the number, with ERR kept or set. -/
theorem bump_counted (c : Core) (k n : Nat) (bad : Bool) : counted c (c.bump k n bad) k n bad := by
  have hk : fileGet (by decide) (c.bump k n bad).k k = BitVec.ofNat 32
      ((bitsAt (fileGet (by decide) c.k k) 0 31 + n) % 2 ^ 31 + 2 ^ 31 * oneBit (bad || bitAt (fileGet (by decide) c.k k) 31)) :=
    fileGet_filePut_same ..
  have hlow : (bitsAt (fileGet (by decide) c.k k) 0 31 + n) % 2 ^ 31 < 2 ^ 31 := Nat.mod_lt _ (by decide)
  rw [counted, count, count, err, err, hk, bitsAt_low]
  rw [bitsAt_low] at hlow
  generalize fileGet _ c.k k = w at hlow ⊢
  constructor
  · rw [BitVec.toNat_ofNat]
    omega
  · rw [bitAt_eq]
    generalize (bad || w.getLsbD 31) = b
    rw [← BitVec.testBit_toNat, BitVec.toNat_ofNat, Nat.testBit_eq_decide_div_mod_eq]
    cases b <;> simp only [oneBit, decide_eq_true_eq, decide_eq_false_iff_not, if_true, if_false, Bool.false_eq_true] <;> omega

/-! ### A job completes (R280) -/

theorem copyUnit_mapCopy (s : State) (cl crew : Nat) (f : CopyUnit → CopyUnit) :
    (s.mapCopy cl crew f).copyUnit cl crew = f (s.copyUnit cl crew) := by
  rw [State.copyUnit, State.mapCopy, State.cluster_mapCluster_same]
  simp [Cluster.copyUnit, Cluster.mapCopy, modifyAt, lookupD, State.copyUnit]

theorem coreAt_mapCopy (s : State) (cl crew : Nat) (f : CopyUnit → CopyUnit) (cl' c : Nat) :
    (s.mapCopy cl crew f).coreAt cl' c = s.coreAt cl' c := coreAt_mapCluster s cl (·.mapCopy crew f) (fun _ => rfl) cl' c

theorem coreAt_unlock (s : State) (cl : Nat) (ids : List Nat) (cl' c : Nat) : (s.unlock cl ids).coreAt cl' c = s.coreAt cl' c :=
  coreAt_mapCluster s cl (fun k => { k with locks := k.locks.filter fun l => !ids.contains l.id }) (fun _ => rfl) cl' c

theorem coreAt_engineArrive (s : State) (cl g : Nat) (m : CatchMember) (err : Bool) (cl' c : Nat) :
    (s.engineArrive cl g m err).coreAt cl' c = s.coreAt cl' c :=
  coreAt_mapCluster s cl (fun k => k.mapGroup g fun c => if c.isMember m then (c.hold m false err).settled else c) (fun _ => rfl)
    cl' c

/-- What of the end of a job its own claims speak of. -/
theorem jobDone.of_same {u t t' : State} {cl crew : Nat} {j : Job} {code index : Nat} (h : jobDone u t cl crew j code index)
    (hunit : t'.copyUnit cl crew = t.copyUnit cl crew) (hlocks : (t'.cluster cl).locks = (t.cluster cl).locks)
    (hk : (t'.coreAt cl j.core).k = (t.coreAt cl j.core).k) : jobDone u t' cl crew j code index := by
  obtain ⟨hjobs, hkept, hfree, hcounted, hsame⟩ := h
  have hu : unit t' cl crew = unit t cl crew := hunit
  refine ⟨hu ▸ hjobs, hu ▸ hkept, hlocks ▸ hfree, fun hfk => ?_, fun hfk => hk.trans (hsame hfk)⟩
  obtain ⟨hcount, herr⟩ := hcounted hfk
  exact ⟨(by rw [count, count, hk] : count _ _ = count _ _).trans hcount, (by rw [err, err, hk] : err _ _ = err _ _).trans herr⟩

/-- The state before and the state from which the job completes have the same counters. -/
theorem jobDone.of_before {u u' t : State} {cl crew : Nat} {j : Job} {code index : Nat} (h : jobDone u t cl crew j code index)
    (hk : (u'.coreAt cl j.core).k = (u.coreAt cl j.core).k) : jobDone u' t cl crew j code index := by
  obtain ⟨hjobs, hkept, hlocks, hcounted, hsame⟩ := h
  refine ⟨hjobs, hkept, hlocks, fun hfk => ?_, fun hfk => (hsame hfk).trans hk.symm⟩
  obtain ⟨hcount, herr⟩ := hcounted hfk
  exact ⟨hcount.trans (by rw [count, count, hk]), herr.trans (by rw [err, err, hk])⟩

/-- The upcall of a job that completes, its arrival, and its counter, one after another. -/
theorem completeJob_done (s : State) (cl crew : Nat) (j : Job) (code index : Nat) :
    jobDone s (s.completeJob cl crew j code index) cl crew j code index := by
  unfold State.completeJob
  extract_lets w s1 s2 s3 s4 s5
  have hdev : DevOnly s s1 := (statusWrite_ok ..).1
  have hcore2 (c : Nat) : s2.coreAt cl c = s1.coreAt cl c := coreAt_unlock ..
  have hcore3 (c : Nat) : s3.coreAt cl c = s.coreAt cl c :=
    (coreAt_mapCopy ..).trans ((hcore2 c).trans (DevOnly.coreAt hdev cl c))
  have h3 : (∀ x, x ∈ (unit s3 cl crew).jobs → x.id ≠ j.id) ∧
      (j.id, BitVec.ofNat 64 (3 + code * 2 ^ 8 + index * 2 ^ 32), j.core) ∈ (unit s3 cl crew).kept ∧
      ∀ l, l ∈ (s3.cluster cl).locks → l.id ∉ j.locks := by
    have hunit : unit s3 cl crew = _ := copyUnit_mapCopy s2 cl crew _
    rw [hunit]
    refine ⟨fun x hx => ?_, ?_, fun l hl => ?_⟩
    · have := List.of_mem_filter hx
      simpa using this
    · dsimp only
      rw [keepStatus]
      exact List.mem_append_left _ List.mem_cons_self
    · have hl2 : l ∈ ((s1.unlock cl j.locks).cluster cl).locks := by
        have hlocks : (s3.cluster cl).locks = (s2.cluster cl).locks := by
          rw [show s3 = s2.mapCluster cl _ from rfl, State.cluster_mapCluster_same]
          rfl
        rwa [hlocks] at hl
      rw [State.unlock, State.cluster_mapCluster_same] at hl2
      simpa using List.of_mem_filter hl2
  have h4 : jobDone s s4 cl crew j code index := by
    have hsame : s4.copyUnit cl crew = s3.copyUnit cl crew ∧ (s4.cluster cl).locks = (s3.cluster cl).locks := by
      simp only [s4]
      split
      · exact ⟨mapCoreAt_copyUnit .., mapCoreAt_locks ..⟩
      · exact ⟨rfl, rfl⟩
    obtain ⟨hunit, hlocks⟩ := hsame
    have hunit : unit s4 cl crew = unit s3 cl crew := hunit
    rw [jobDone, hunit, hlocks]
    refine ⟨h3.1, h3.2.1, h3.2.2, fun hfk => ?_, fun hfk => ?_⟩
    · simp only [s4]
      rw [if_pos hfk, State.bumpAt, State.coreAt_mapCoreAt_same, hcore3]
      exact bump_counted ..
    · simp only [s4]
      rw [if_neg (by rw [hfk]; exact Bool.false_ne_true), hcore3]
  have h5 : jobDone s s5 cl crew j code index := by
    simp only [s5]
    split
    · have hlocks : ((s4.engineArrive cl j.g (192 + crew) (decide (code ≠ 0))).cluster cl).locks = (s4.cluster cl).locks := by
        rw [State.engineArrive, State.cluster_mapCluster_same]
        rfl
      refine h4.of_same ?_ hlocks ?_
      · rw [State.copyUnit, State.engineArrive, State.cluster_mapCluster_same]
        rfl
      · exact congrArg Core.k (coreAt_engineArrive ..)
    · exact h4
  split
  · exact h5.of_same (mapCoreAt_copyUnit ..) (mapCoreAt_locks ..) (coreAt_mapCoreAt_keeps _ (fun c => post_k c _) ..)
  · exact h5

/-- The registers of the core that moves are not the job's. -/
theorem completeJob_regs (s : State) (cl crew : Nat) (j : Job) (code index : Nat) :
    (s.completeJob cl crew j code index).core.regs = s.core.regs := by
  unfold State.completeJob
  extract_lets w s1 s2 s3 s4 s5
  have h3 : s3.core.regs = s.core.regs := congrArg Core.regs (statusWrite_ok ..).1.core
  have h4 : s4.core.regs = s.core.regs := by
    simp only [s4]
    split
    · exact (mapCoreAt_keeps Core.regs (f := (·.bump j.k 1 (decide (code ≠ 0)))) (fun _ => rfl) ..).trans h3
    · exact h3
  have h5 : s5.core.regs = s.core.regs := by
    simp only [s5]
    split <;> exact h4
  split
  · exact (mapCoreAt_keeps Core.regs (fun c => post_regs c _) ..).trans h5
  · exact h5

end Sys2Proof.Claims
end

section
/-! PROOF. JSUB, JPOLL and JCANCEL (R133, R190, R271 to R276, R279 to R287). -/

namespace Sys2Proof.Claims
open Machine

/-! ### The inboxes of the window (R133) -/

theorem inboxByte_some {s : State} {va len v : Nat} (h : s.ctx.inboxByte va len = some v) :
    inInbox s v ∧ within va len v ∧ ∀ b, b < v → inInbox s b → ¬ within va len b := by
  rw [Context.inboxByte] at h
  dsimp only at h
  rw [inboxOff] at h
  split at h
  · cases h
  · split at h
    · cases h
      refine ⟨?_, ?_, fun b hb hin hw => ?_⟩ <;> simp only [inInbox, within] at * <;> omega
    · split at h
      · cases h
        refine ⟨?_, ?_, fun b hb hin hw => ?_⟩ <;> simp only [inInbox, within] at * <;> omega
      · cases h

theorem inboxByte_none {s : State} {va len : Nat} (h : s.ctx.inboxByte va len = none) (b : Nat) (hin : inInbox s b) :
    ¬ within va len b := by
  intro hw
  rw [Context.inboxByte] at h
  dsimp only at h
  rw [inboxOff] at h
  simp only [inInbox, within] at hin hw
  split at h
  · omega
  · split at h
    · cases h
    · split at h
      · cases h
      · omega

/-- The least of a list of numbers. -/
theorem foldl_min_le (l : List Nat) : ∀ v : Nat, l.foldl min v ≤ v ∧ (∀ x, x ∈ l → l.foldl min v ≤ x) ∧
    (l.foldl min v = v ∨ l.foldl min v ∈ l) := by
  induction l with
  | nil => exact fun v => ⟨Nat.le_refl v, List.forall_mem_nil _, .inl rfl⟩
  | cons y ys ih =>
    intro v
    obtain ⟨hle, hall, hmem⟩ := ih (min v y)
    rw [List.foldl_cons]
    refine ⟨by omega, fun x hx => ?_, ?_⟩
    · rcases List.mem_cons.mp hx with rfl | hx
      · omega
      · exact hall x hx
    · rcases hmem with hmem | hmem
      · rw [hmem]
        rcases Nat.le_total v y with h | h
        · exact .inl (Nat.min_eq_left h)
        · exact .inr (by rw [Nat.min_eq_right h]; exact List.mem_cons_self)
      · exact .inr (List.mem_cons_of_mem _ hmem)

/-- The check of the spans names the lowest byte in an inbox. -/
theorem inboxCheck_lowest {s : State} {spans : List (Nat × Nat)} {v : Nat} (h : lowestInbox s spans v) :
    s.inboxCheck spans = .error (s.illegal 9 (BitVec.ofNat 64 v)) := by
  obtain ⟨hin, ⟨p, hp, hw⟩, hlow⟩ := h
  have hmem (w : Nat) (hfound : w ∈ spans.filterMap fun r => s.ctx.inboxByte r.1 r.2) : v ≤ w := by
    obtain ⟨r, hr, hw⟩ := List.mem_filterMap.mp hfound
    obtain ⟨hwin, hwr, -⟩ := inboxByte_some hw
    by_contra hlt
    exact hlow w (Nat.lt_of_not_le hlt) hwin r hr hwr
  have hv : v ∈ spans.filterMap fun r => s.ctx.inboxByte r.1 r.2 := by
    refine List.mem_filterMap.mpr ⟨p, hp, ?_⟩
    cases hx : s.ctx.inboxByte p.1 p.2 with
    | none => exact absurd hw (inboxByte_none hx v hin)
    | some w =>
      obtain ⟨hwin, hwp, hwlow⟩ := inboxByte_some hx
      have hle : v ≤ w := hmem w (List.mem_filterMap.mpr ⟨p, hp, hx⟩)
      have hge : w ≤ v := by
        by_contra hlt
        exact hwlow v (Nat.lt_of_not_le hlt) hin hw
      rw [Nat.le_antisymm hge hle]
  rw [State.inboxCheck]
  cases hl : spans.filterMap fun r => s.ctx.inboxByte r.1 r.2 with
  | nil => rw [hl] at hv; cases hv
  | cons w ws =>
    rw [hl] at hmem hv
    obtain ⟨hle, hall, hfold⟩ := foldl_min_le ws w
    have hmin : ws.foldl min w = v := by
      refine Nat.le_antisymm ?_ (hmem _ ?_)
      · rcases List.mem_cons.mp hv with rfl | hv
        · exact hle
        · exact hall v hv
      · rcases hfold with hfold | hfold
        · rw [hfold]; exact List.mem_cons_self
        · exact List.mem_cons_of_mem _ hfold
    dsimp only
    rw [hmin]

/-! ### The descriptor and the results of JSUB -/

theorem readDescriptor_only {s t : State} {va : Word} {d : VWord} {w : LabelWord} (h : s.readDescriptor va = .ok (d, w, t)) :
    DevOnly s t := by
  rw [State.readDescriptor] at h
  obtain ⟨_, _, h⟩ := bind_ok h
  obtain ⟨⟨p, u⟩, htranslate, h⟩ := bind_ok h
  obtain ⟨_, _, h⟩ := bind_ok h
  obtain ⟨_, _, h⟩ := bind_ok h
  obtain ⟨_, _, h⟩ := bind_ok h
  obtain ⟨_, _, h⟩ := bind_ok h
  rw [← (Prod.mk.inj (Prod.mk.inj (Except.ok.inj h)).2).2]
  exact (translate_only (check_eq_ok htranslate)).devOnly.trans (settle_dev _ _ _)

theorem readDescriptor_misalign {s : State} {va : Word} (h : va.toNat % 64 ≠ 0) :
    s.readDescriptor va = .error (s.trap .misalign 0 va) := by
  rw [State.readDescriptor, alignAll, List.find?_cons, decide_eq_true h]
  rfl

/-- The promise of JSUB is outstanding for its two registers; the rest of the core is at the end of the instruction. -/
theorem jsubResult_core (s : State) {d : Nat} (hd : 0 < d) (id p : Word) :
    (s.jsubResult d id p).core.pending = s.core.pending ++ [⟨.x d, id.zeroExtend 512, s.topWord, FFlags.none⟩,
      ⟨.x (d + 1), p.zeroExtend 512, s.topWord, FFlags.none⟩] ∧ (s.jsubResult d id p).core.regs = s.core.regs := by
  have h1 : (Reg.x d) ≠ .x 0 := fun h => Nat.ne_of_gt hd (Reg.x.inj h)
  have h2 : (Reg.x (d + 1)) ≠ .x 0 := fun h => Nat.succ_ne_zero d (Reg.x.inj h)
  rw [State.jsubResult]
  constructor
  · rw [State.complete_core, Core.complete_pending, later_pending, later_pending, if_neg h1, if_neg h2, List.append_assoc]
    rfl
  · rw [State.complete_core, Core.complete_regs, later_regs, later_regs]

theorem jsubResult_ctx (s : State) (d : Nat) (id p : Word) : (s.jsubResult d id p).ctx = s.ctx := by
  rw [State.jsubResult, State.complete_ctx, State.later_ctx, State.later_ctx]

theorem jsubResult_dev (s : State) (d : Nat) (id p : Word) : (s.jsubResult d id p).dev = s.dev := by
  rw [State.jsubResult, State.complete_dev, State.later_dev, State.later_dev]

theorem unit_congr {s t : State} (h : t.ctx = s.ctx) (cl crew : Nat) : unit t cl crew = unit s cl crew := by
  rw [unit, unit, State.cluster, State.cluster, h]

theorem lockRanges_copyUnit {s t : State} {cl core : Nat} {kind : LockKind} {ranges : List (Nat × Nat × Bool)} {ids : List Nat}
    (h : s.lockRanges cl core kind ranges = some (ids, t)) (cl' crew : Nat) : t.copyUnit cl' crew = s.copyUnit cl' crew := by
  rw [State.lockRanges] at h
  dsimp only at h
  split at h
  · cases h
  · cases h
    rw [State.copyUnit, State.copyUnit]
    by_cases hcl : cl' = cl
    · subst hcl
      rw [State.cluster_mapCluster_same]
      rfl
    · rw [State.cluster_mapCluster_other _ _ hcl]
      rfl

/-- The job that JSUB queues, from its descriptor's fields (R270, R285). -/
def acceptedJob (s : State) (j : Job) (id : Word) (ctl : LabelWord) (locks : List Nat) : Job :=
  { j with
    id := id, core := s.focus.core, record := s.core.crec, mode := s.core.status.mode, ctl := ctl, locks := locks
    bankA := s.src.bankA, bankB := s.src.bankB
    routine := if j.kind = 2 then lookup s.ctx.routines (bitsAt j.arg 0 16) else none }

/-- The promise of a job: its sequence number, member, crew and cluster (R285). -/
def promise (s : State) (seq : Half) : Word :=
  BitVec.ofNat 64 (seq.toNat + s.focus.core % 8 * 2 ^ 32 + crew s * 2 ^ 35 + s.focus.cl * 2 ^ 40)

/-- The state in which the job is queued. -/
def queuedJob (s v : State) (j : Job) (seq : Half) (ctl : LabelWord) (locks : List Nat) : State :=
  v.mapCopy s.focus.cl (crew s) fun u =>
    { u with jobs := u.jobs ++ [acceptedJob s j (promise s seq) ctl locks], seq := seq }

/-- What the checks of JSUB pass on, by the operands of its descriptor. -/
theorem exec_jsub {s t u : State} {d a : Nat} {desc : VWord} {lw ctl : LabelWord} {j : Job} (hp : plainCore s)
    (hread : s.readDescriptor (s.rdX a) = .ok (desc, lw, t)) (hj : j = jobOf desc s.core.dealpat)
    (hok : t.jobOk (crew s) desc j = true)
    (hgroup : j.fa = true → s.core.gang ≠ none ∧ (s.group j.g).isMember (192 + crew s) = true)
    (hinbox : t.inboxCheck (t.writtenSpans (crew s) j) = .ok ()) (hform : t.formConj [s.labX a, lw] = .ok (ctl, u)) :
    exec (.jsub d a) s = commit s
      (if (unit u s.focus.cl (crew s)).jobs.length ≥ Config.copyQueue ∨
          ((unit u s.focus.cl (crew s)).jobs.filter fun x => x.core == s.focus.core).length ≥ Config.copyPerCore then
        .ok (u.jsubResult d 0 s.dev.cycle)
      else
        match u.lockRanges s.focus.cl s.focus.core .copy (((boundsOf j.src j.rows j.srcLen j.sstride).1,
          (boundsOf j.src j.rows j.srcLen j.sstride).2, false) :: (u.jobLocks (crew s) j).map fun r => (r.1, r.2, true)) with
        | none => .error .stall
        | some (locks, v) =>
          let seq := nextSeq (unit u s.focus.cl (crew s)).seq
          let w := queuedJob s v j seq ctl locks
          .ok (w.drawn.jsubResult d (promise s seq) (BitVec.ofNat 64 (w.freeNat 0)))) := by
  have hexec : exec (.jsub d a) s = execJsub d a s := rfl
  rw [hexec, execJsub, edgeGuard_plain hp, except_bind_ok, hread, except_bind_ok]
  dsimp only
  rw [← hj]
  have hok' : ¬ (!t.jobOk (crewOf s.focus.core) desc j) = true := by
    rw [show t.jobOk (crewOf s.focus.core) desc j = true from hok]
    decide
  rw [if_neg hok', show t.inboxCheck (t.writtenSpans (crewOf s.focus.core) j) = .ok () from hinbox, except_bind_ok,
    if_neg (fun h => (hgroup h.1).1 h.2), if_neg, hform, except_bind_ok]
  · rfl
  · rintro ⟨hfa, hmember⟩
    have := (hgroup hfa).2
    rw [show (s.group j.g).isMember (192 + crewOf s.focus.core) = true from this] at hmember
    cases hmember

theorem topWord_congr {s t : State} (h : t.core.epoch = s.core.epoch) : t.topWord = s.topWord := by
  rw [State.topWord, State.topWord, h]

theorem extractLsb'_toNat (v : VWord) (lo n : Nat) : (v.extractLsb' lo n).toNat = v.toNat / 2 ^ lo % 2 ^ n := by
  rw [BitVec.extractLsb'_toNat, Nat.shiftRight_eq_div_pow]

/-- JSUB accepts the job that it has registered the ranges of (R285). -/
theorem jsub_accepts {s t u v : State} {d a : Nat} {desc : VWord} {lw ctl : LabelWord} {j : Job} {locks : List Nat} {seq : Half}
    (hd : 0 < d) (hp : plainCore s)
    (hread : s.readDescriptor (s.rdX a) = .ok (desc, lw, t)) (hj : j = jobOf desc s.core.dealpat)
    (hok : t.jobOk (crew s) desc j = true)
    (hgroup : j.fa = true → s.core.gang ≠ none ∧ (s.group j.g).isMember (192 + crew s) = true)
    (hinbox : t.inboxCheck (t.writtenSpans (crew s) j) = .ok ()) (hform : t.formConj [s.labX a, lw] = .ok (ctl, u))
    (hseq : seq = nextSeq (unit u s.focus.cl (crew s)).seq) (hroom : (unit u s.focus.cl (crew s)).jobs.length < Config.copyQueue)
    (hmine : ((unit u s.focus.cl (crew s)).jobs.filter fun x => x.core == s.focus.core).length < Config.copyPerCore)
    (hlocks : u.lockRanges s.focus.cl s.focus.core .copy (((boundsOf j.src j.rows j.srcLen j.sstride).1,
          (boundsOf j.src j.rows j.srcLen j.sstride).2, false) ::
            (u.jobLocks (crew s) j).map fun r => (r.1, r.2, true)) = some (locks, v)) :
    ∃ r job val, exec (.jsub d a) s = .next r ∧
      (unit r s.focus.cl (crew s)).jobs = (unit u s.focus.cl (crew s)).jobs ++ [job] ∧
      (unit r s.focus.cl (crew s)).seq = seq ∧
      job.id = BitVec.ofNat 64 (seq.toNat + s.focus.core % 8 * 2 ^ 32 + crew s * 2 ^ 35 + s.focus.cl * 2 ^ 40) ∧
      job.state = .queued ∧ job.kind = desc.toNat % 2 ^ 4 ∧ job.src.toNat = desc.toNat / 2 ^ 64 % 2 ^ 64 ∧
      job.dst.toNat = desc.toNat / 2 ^ 128 % 2 ^ 64 ∧ job.len = desc.toNat / 2 ^ 192 % 2 ^ 32 ∧
      job.rows = desc.toNat / 2 ^ 224 % 2 ^ 16 ∧ job.core = s.focus.core ∧ job.record = s.core.crec ∧
      job.mode = s.core.status.mode ∧ job.ctl = ctl ∧ job.locks = locks ∧
      r.core.pending = s.core.pending ++ [⟨.x d, job.id.zeroExtend 512, s.topWord, FFlags.none⟩,
        ⟨.x (d + 1), val, s.topWord, FFlags.none⟩] ∧ r.core.regs = s.core.regs ∧
      (u.dev.mem = s.dev.mem → memoryKept s r) := by
  have hexec := exec_jsub (d := d) hp hread hj hok hgroup hinbox hform
  rw [if_neg (by omega), hlocks] at hexec
  dsimp only at hexec
  rw [commit_ok, ← hseq] at hexec
  obtain ⟨hvcore, -, -, hvmem⟩ := lockRanges_ok hlocks
  have hcore : v.core = { s.core with lblstat := v.core.lblstat } := by
    have := accessOnly_core_eq (formConj_only hform).1
    rwa [(readDescriptor_only hread).core, ← hvcore] at this
  have hunit : unit (queuedJob s v j seq ctl locks) s.focus.cl (crew s) = _ := copyUnit_mapCopy v s.focus.cl (crew s) _
  obtain ⟨hpending, hregs⟩ := jsubResult_core (queuedJob s v j seq ctl locks).drawn hd (promise s seq)
    (BitVec.ofNat 64 ((queuedJob s v j seq ctl locks).freeNat 0))
  refine ⟨_, acceptedJob s j (promise s seq) ctl locks,
    (BitVec.ofNat 64 ((queuedJob s v j seq ctl locks).freeNat 0)).zeroExtend 512, hexec, ?_, ?_, rfl, ?_, ?_, ?_, ?_, ?_, ?_, rfl, rfl, rfl, rfl, rfl,
    hpending.trans ?_, hregs.trans ?_, fun hmem => memoryKept_of_mem ?_⟩
  · rw [unit_congr (jsubResult_ctx ..), unit_congr (s := queuedJob s v j seq ctl locks) (t := (queuedJob s v j seq ctl locks).drawn) rfl, hunit, lockRanges_copyUnit hlocks]
    rfl
  · rw [unit_congr (jsubResult_ctx ..), unit_congr (s := queuedJob s v j seq ctl locks) (t := (queuedJob s v j seq ctl locks).drawn) rfl, hunit]
  · subst hj; rfl
  · subst hj; exact bitsAt_low _ _
  · subst hj; exact extractLsb'_toNat desc 64 64
  · subst hj; exact extractLsb'_toNat desc 128 64
  · subst hj; rfl
  · subst hj; rfl
  · have hpend : v.core.pending = s.core.pending := by rw [hcore]
    have hepoch : v.core.epoch = s.core.epoch := by rw [hcore]
    rw [topWord_congr (s := s) (t := (queuedJob s v j seq ctl locks).drawn) hepoch]
    exact congrArg (· ++ _) hpend
  · show v.core.regs = s.core.regs
    rw [hcore]
  · rw [jsubResult_dev]
    exact hvmem.trans hmem

/-- With the unit full JSUB queues nothing, and its promise is 0 (R285). -/
theorem jsub_full {s t u : State} {d a : Nat} {desc : VWord} {lw ctl : LabelWord} {j : Job} (hd : 0 < d) (hp : plainCore s)
    (hread : s.readDescriptor (s.rdX a) = .ok (desc, lw, t)) (hj : j = jobOf desc s.core.dealpat)
    (hok : t.jobOk (crew s) desc j = true)
    (hgroup : j.fa = true → s.core.gang ≠ none ∧ (s.group j.g).isMember (192 + crew s) = true)
    (hinbox : t.inboxCheck (t.writtenSpans (crew s) j) = .ok ()) (hform : t.formConj [s.labX a, lw] = .ok (ctl, u))
    (hfull : Config.copyQueue ≤ (unit u s.focus.cl (crew s)).jobs.length ∨ Config.copyPerCore ≤
      ((unit u s.focus.cl (crew s)).jobs.filter fun x => x.core == s.focus.core).length) :
    ∃ r, exec (.jsub d a) s = .next r ∧
      (unit r s.focus.cl (crew s)).jobs = (unit u s.focus.cl (crew s)).jobs ∧
      r.core.pending = s.core.pending ++ [⟨.x d, 0, s.topWord, FFlags.none⟩,
        ⟨.x (d + 1), s.dev.cycle.zeroExtend 512, s.topWord, FFlags.none⟩] ∧ r.core.regs = s.core.regs := by
  have hexec := exec_jsub (d := d) hp hread hj hok hgroup hinbox hform
  rw [if_pos hfull, commit_ok] at hexec
  have hcore : u.core = { s.core with lblstat := u.core.lblstat } := by
    have := accessOnly_core_eq (formConj_only hform).1
    rwa [(readDescriptor_only hread).core] at this
  obtain ⟨hpending, hregs⟩ := jsubResult_core u hd 0 s.dev.cycle
  refine ⟨_, hexec, by rw [unit_congr (jsubResult_ctx ..)], hpending.trans ?_, hregs.trans (by rw [hcore])⟩
  have hepoch : u.core.epoch = s.core.epoch := by rw [hcore]
  have hpend : u.core.pending = s.core.pending := by rw [hcore]
  have hzero : (0 : Word).zeroExtend 512 = (0 : VWord) := BitVec.setWidth_zero ..
  rw [topWord_congr hepoch, hpend, hzero]

/-- Where the descriptor breaks a rule JSUB traps (R133, R190, R271 to R276). -/
theorem jsub_traps {s t : State} {a v : Nat} {desc : VWord} {lw : LabelWord} {j : Job} (d : Nat) (hp : plainCore s)
    (hread : s.readDescriptor (s.rdX a) = .ok (desc, lw, t)) (hj : j = jobOf desc s.core.dealpat) :
    (t.jobOk (crew s) desc j = false → traps (.jsub d a) s .illegal (illegalInfo s 9) 0) ∧
    (t.jobOk (crew s) desc j = true → lowestInbox t (t.writtenSpans (crew s) j) v →
      traps (.jsub d a) s .illegal (illegalInfo s 9) (BitVec.ofNat 64 v)) ∧
    (t.jobOk (crew s) desc j = true → t.inboxCheck (t.writtenSpans (crew s) j) = .ok () → j.fa = true →
      (s.core.gang = none → traps (.jsub d a) s .catchTrap (1 + 2 ^ 8 * j.g) 0) ∧
      (s.core.gang ≠ none → (s.group j.g).isMember (192 + crew s) = false →
        traps (.jsub d a) s .catchTrap (2 + 2 ^ 8 * j.g) 0)) := by
  have hexec : exec (.jsub d a) s = execJsub d a s := rfl
  rw [execJsub, edgeGuard_plain hp, except_bind_ok, hread, except_bind_ok] at hexec
  dsimp only at hexec
  rw [← hj, show crewOf s.focus.core = crew s from rfl] at hexec
  have hissue : t.core.issue = s.core.issue := by rw [(readDescriptor_only hread).core]
  refine ⟨fun hok => ?_, fun hok hlow => ?_, fun hok hinbox hfa => ⟨fun hgang => ?_, fun hgang hmember => ?_⟩⟩
  · rw [hok] at hexec
    exact traps_of_commit hexec (by rw [if_pos (by decide), except_bind_error, illegal_eq])
  · rw [hok, if_neg (by decide), inboxCheck_lowest hlow, except_bind_error] at hexec
    refine traps_of_commit hexec ?_
    rw [illegal_eq, illegalInfo_eq, illegalInfo_eq, State.trap, State.trap, hissue]
  · rw [hok, if_neg (by decide), hinbox, except_bind_ok] at hexec
    exact traps_of_commit hexec (by rw [if_pos ⟨hfa, hgang⟩, except_bind_error]; rfl)
  · rw [hok, if_neg (by decide), hinbox, except_bind_ok, if_neg (fun h => hgang h.2)] at hexec
    exact traps_of_commit hexec (by rw [if_pos ⟨hfa, by rw [hmember]; decide⟩, except_bind_error]; rfl)

/-! ### JPOLL and JCANCEL -/

theorem exec_jpoll (d a : Nat) (s : State) :
    exec (.jpoll d a) s = .next (s.wrX d (BitVec.ofNat 64 (s.jobStatus (s.rdX a))) s.topWord).complete := rfl

/-- JCANCEL of a job that is not complete completes it with CODE 9, after what it leaves where it runs (R286, R287). -/
theorem exec_jcancel {s : State} {d a : Nat} (hp : plainCore s) : exec (.jcancel d a) s =
    .next (match s.findJob s.focus.cl s.focus.core (s.rdX a) with
      | some j => match j.state with
        | .queued | .awaiting => ((s.completeJob s.focus.cl (crew s) j 9 0).wrX d 1 s.topWord).complete
        | .running => (((s.cancelPlan s.focus.cl (crew s) j).completeJob s.focus.cl (crew s) j 9 0).wrX d 2 s.topWord).complete
      | none => (s.wrX d (if s.jobStatus (s.rdX a) = 0xFF then 0 else 3) s.topWord).complete) := by
  have hexec : exec (.jcancel d a) s = execJcancel d a s := rfl
  rw [hexec, execJcancel, edgeGuard_plain hp, except_bind_ok, commit_ok]
  cases s.findJob s.focus.cl s.focus.core (s.rdX a) with
  | none => rfl
  | some j =>
    dsimp only
    cases j.state <;> rfl

/-- The result of JCANCEL written over a completed job: x[d] alone of the registers. -/
theorem cancelled_file {s t : State} {d : Nat} (v : Word) (w : LabelWord) (hd : d < 64) (h : t.core.regs = s.core.regs) :
    xFileWritten s (t.wrX d v w).complete d v w :=
  xFileWritten_putX hd (by simp [h])

theorem cancelled_done {s t : State} {cl crew code index : Nat} {j : Job} (d : Nat) (v : Word) (w : LabelWord)
    (h : jobDone s t cl crew j code index) : jobDone s (t.wrX d v w).complete cl crew j code index := by
  refine h.of_same rfl rfl ?_
  rw [State.coreAt, State.coreAt]
  have hfocus : (t.wrX d v w).complete.isFocus cl j.core = t.isFocus cl j.core := rfl
  rw [hfocus]
  split
  · exact Core.complete_k _
  · rfl

theorem findJob_core {s : State} {cl core : Nat} {id : Word} {j : Job} (h : s.findJob cl core id = some j) : j.core = core := by
  have := List.find?_some h
  simp only [Bool.and_eq_true, beq_iff_eq] at this
  exact this.2

end Sys2Proof.Claims

namespace Sys2Proof
open Machine Claims

/-- Settles O44: JSUB's checks in their order, then the queue; JPOLL and JCANCEL read the state of the job. -/
theorem jobInstructions : Obligations.JobInstructions := by
  unfold Obligations.JobInstructions
  refine ⟨fun s t u v d a desc lw ctl j locks seq hd _ _ hp hread hj hok hgroup hinbox hform hseq =>
      ⟨fun hroom hmine hlocks => jsub_accepts hd hp hread hj hok hgroup hinbox hform hseq hroom hmine hlocks,
        fun hfull => jsub_full hd hp hread hj hok hgroup hinbox hform hfull⟩,
    fun s t d a v desc lw j _ _ _ hp => ⟨fun halign => ?_, fun hread hj => jsub_traps d hp hread hj⟩,
    fun s d a j hd _ hp => ⟨fun hjob => ⟨?_, fun hstate => ?_, fun hstate => ?_⟩, fun hnone => ⟨fun hkept => ?_, fun w hw hkept => ?_⟩⟩⟩
  · have hexec : exec (.jsub d a) s = execJsub d a s := rfl
    rw [execJsub, edgeGuard_plain hp, except_bind_ok, readDescriptor_misalign halign, except_bind_error] at hexec
    exact traps_of_commit hexec rfl
  · have hstatus : s.jobStatus (s.rdX a) = j.state.code := by
      rw [State.jobStatus, hjob]
    refine ⟨_, exec_jpoll d a s, ?_⟩
    rw [hstatus]
    have hcode : (match j.state with
        | .queued => 0
        | .running => 1
        | .awaiting => 2 : Word) = BitVec.ofNat 64 j.state.code := by cases j.state <;> rfl
    have := xWritten_wrX_complete s (BitVec.ofNat 64 j.state.code) s.topWord hd
    rw [← hcode] at this ⊢
    exact this
  · have hexec := exec_jcancel (d := d) (a := a) hp
    rw [hjob] at hexec
    have hnext : exec (.jcancel d a) s = .next ((s.completeJob s.focus.cl (crew s) j 9 0).wrX d 1 s.topWord).complete := by
      rw [hexec]
      dsimp only
      cases h : j.state with
      | running => exact absurd h hstate
      | queued => rfl
      | awaiting => rfl
    exact ⟨_, hnext, cancelled_done d 1 _ (completeJob_done ..), cancelled_file 1 _ hd (completeJob_regs ..)⟩
  · have hexec := exec_jcancel (d := d) (a := a) hp
    rw [hjob] at hexec
    dsimp only at hexec
    rw [hstate] at hexec
    obtain ⟨hjobs, -⟩ := completeJob_done (s.cancelPlan s.focus.cl (crew s) j) s.focus.cl (crew s) j 9 0
    exact ⟨_, hexec, hjobs, cancelled_file 2 _ hd ((completeJob_regs ..).trans (cancelPlan_only ..).regs)⟩
  · have hstatus : s.jobStatus (s.rdX a) = 0xFF := by
      rw [State.jobStatus, hnone]
      dsimp only
      have hfind : (s.copyUnit s.focus.cl (crewOf s.focus.core)).kept.find?
          (fun e => e.1 == s.rdX a && e.2.2 == s.focus.core) = none := by
        refine List.find?_eq_none.mpr fun e he hmatch => ?_
        simp only [Bool.and_eq_true, beq_iff_eq] at hmatch
        exact hkept e he hmatch.1 hmatch.2
      rw [hfind]
    have hcancel := exec_jcancel (d := d) (a := a) hp
    have hpoll := exec_jpoll d a s
    rw [hnone] at hcancel
    dsimp only at hcancel
    rw [hstatus] at hcancel hpoll
    rw [if_pos rfl] at hcancel
    exact ⟨⟨_, hpoll, xWritten_wrX_complete s _ _ hd⟩, _, hcancel, xWritten_wrX_complete s _ _ hd⟩
  · have hstatus : s.jobStatus (s.rdX a) = w.toNat := by
      rw [State.jobStatus, hnone]
      dsimp only
      rw [show (s.copyUnit s.focus.cl (crewOf s.focus.core)).kept.find? _ = _ from hkept]
    have hcancel := exec_jcancel (d := d) (a := a) hp
    have hpoll := exec_jpoll d a s
    rw [hnone] at hcancel
    dsimp only at hcancel
    rw [hstatus] at hcancel hpoll
    have hne : w.toNat ≠ 0xFF := fun h => hw (BitVec.eq_of_toNat_eq (y := (0xFF : Word)) h)
    rw [if_neg hne] at hcancel
    rw [BitVec.ofNat_toNat, BitVec.setWidth_eq] at hpoll
    exact ⟨⟨_, hpoll, xWritten_wrX_complete s _ _ hd⟩, _, hcancel, xWritten_wrX_complete s _ _ hd⟩

end Sys2Proof
end

section
/-! PROOF. How jobs start, end and wait, and the COPY of one line (R215, R270 to R272, R279 to R281). -/

namespace Sys2Proof.Claims
open Machine

/-! ### One line written by an engine -/

/-- From `s` on a write has put its bytes at the place, and changed no byte outside them and the label word of a line of a page
with LT. -/
structure LineWritten (s u : State) (q : Place) (bs : List Byte) : Prop where
  at_ : ∀ k, k < bs.length → u.dev.byte (q.loc + k) = bs.getD k 0
  outside : ∀ b, ¬ within q.loc bs.length b → (q.lt = false ∨ ¬ within (labelLoc (lineOf q.loc)) 4 b) → u.dev.byte b = s.dev.byte b

theorem engineBytes_outside (s : State) (a : Agent) (p : Place) {bs : List Byte} {b : Nat} (h : ¬ within p.loc bs.length b) :
    (s.engineBytes a p bs).dev.byte b = s.dev.byte b :=
  store_outside s.dev (a.writer s.ctx.desc.ctxid) h

theorem cleared_byte (s : State) (line b : Nat) : (s.cleared line).dev.byte b = s.dev.byte b := rfl

/-- The bytes are written last, over the line's label word where its page has LT. -/
theorem lineWritten_of_bytes {s t : State} (a : Agent) {q : Place} (bs : List Byte)
    (h : ∀ b, q.lt = false ∨ ¬ within (labelLoc (lineOf q.loc)) 4 b → t.dev.byte b = s.dev.byte b) :
    LineWritten s (t.engineBytes a q bs) q bs where
  at_ _ hk := engineBytes_byte _ _ _ hk
  outside b hb hlabel := (engineBytes_outside _ _ _ hb).trans (h b hlabel)

theorem LineWritten.cleared {s u : State} {q : Place} {bs : List Byte} (h : LineWritten s u q bs) (line : Nat) :
    LineWritten s (u.cleared line) q bs :=
  ⟨fun k hk => (cleared_byte ..).trans (h.at_ k hk), fun b hb hl => (cleared_byte ..).trans (h.outside b hb hl)⟩

/-- The label word set where the page has LT, and nowhere else. -/
theorem labelSet_outside {s t : State} {q : Place} (w : LabelWord) (h : t.dev = s.dev) (b : Nat)
    (hb : q.lt = false ∨ ¬ within (labelLoc (lineOf q.loc)) 4 b) :
    (if q.lt then t.mapDev (·.setRawLabel (lineOf q.loc) w) else t).dev.byte b = s.dev.byte b := by
  split
  · next hlt =>
    rw [State.mapDev_dev, setRawLabel_outside _ _ (hb.resolve_left (by rw [hlt]; decide)), h]
  · rw [h]

theorem enginePartial_written {s t : State} {a : Agent} {core : Nat} {q : Place} {bs : List Byte} {nl : Label}
    (h : s.enginePartial a core q bs nl = .ok t) : LineWritten s t q bs := by
  rw [State.enginePartial] at h
  obtain ⟨⟨w, fit, u⟩, hfit, h⟩ := bind_ok h
  have hu : u.dev = s.dev := engineFit_dev hfit
  dsimp only at h
  split at h
  · next hlt =>
    obtain ⟨⟨w', v⟩, hlabel, h⟩ := bind_ok h
    obtain ⟨_, _, h⟩ := bind_ok h
    cases h
    refine lineWritten_of_bytes _ _ fun b hb => ?_
    have := labelSet_outside (q := q) w' ((partialLabel_dev hlabel).trans hu) b hb
    rwa [if_pos hlt] at this
  · obtain ⟨_, _, h⟩ := bind_ok h
    obtain ⟨_, _, h⟩ := bind_ok h
    cases h
    exact lineWritten_of_bytes _ _ fun b _ => by rw [hu]

theorem engineStore_written {s t : State} {a : Agent} {core : Nat} {q : Place} {bs : List Byte} {nl : Label}
    (h : s.engineStore a core q bs nl = .ok t) : LineWritten s t q bs := by
  rw [State.engineStore] at h
  split at h
  · split at h
    · cases h
    · next w u hform =>
      split at h
      · cases h
      · split at h
        · cases h
        · cases h
          exact (lineWritten_of_bytes _ _ fun b hb => labelSet_outside w (engineForm_dev hform) b hb).cleared _
  · exact enginePartial_written h

/-! ### The plan of a copy of one line -/

/-- A line copied whole, as the job writes it. -/
def wholeLine (dst : Word) (bs : List Byte) (src : Word × LabelWord) : LineWrite :=
  ⟨dst, bs, [], some src.2, [src.2], false⟩

theorem and_not_of_and_zero {x m : Word} (h : x &&& m = 0) : x &&& ~~~m = x := by
  ext i hi
  have hbit := congrArg (fun v : Word => v[i]) h
  simp only [BitVec.getElem_and, BitVec.getElem_not] at hbit ⊢
  rw [show (0 : Word)[i] = false by simp] at hbit
  cases hx : x[i] <;> cases hm : m[i] <;> simp_all

theorem lineVa_aligned {va : Word} (h : va.toNat % 64 = 0) : lineVa va = va := by
  refine and_not_of_and_zero (BitVec.eq_of_toNat_eq ?_)
  rw [BitVec.toNat_and]
  exact (Nat.and_two_pow_sub_one_eq_mod va.toNat 6).trans h

theorem eraseDups_const {α : Type} [BEq α] [LawfulBEq α] {a : α} {l : List α} (h : ∀ x ∈ l, x = a) (hne : l ≠ []) :
    l.eraseDups = [a] := by
  cases l with
  | nil => exact absurd rfl hne
  | cons x xs =>
    have hx := h x List.mem_cons_self
    subst hx
    rw [List.eraseDups_cons, List.filter_eq_nil_iff.mpr, List.eraseDups_nil]
    intro y hy
    rw [h y (List.mem_cons_of_mem _ hy)]
    simp

/-- Bytes that follow on one another are one run. -/
theorem runsOf_range' (f : Nat → Byte) (n : Nat) : ∀ i : Nat,
    runsOf ((List.range' i (n + 1)).map fun k => (k, f k)) = [(i, (List.range' i (n + 1)).map f)] := by
  induction n with
  | zero => exact fun i => rfl
  | succ n ih =>
    intro i
    rw [List.range'_succ, List.map_cons, runsOf, ih (i + 1)]
    exact if_pos rfl

/-- One piece of a whole line is written as that line. -/
theorem mergeLine_whole {dst : Word} {bs : List Byte} {src : Word × LabelWord} (h : dst.toNat % 64 = 0) (hn : bs.length = 64) :
    mergeLine true [⟨dst, bs, [src], false⟩] dst = some (wholeLine dst bs src) := by
  have hcovers (i : Nat) (hi : i ∈ List.range 64) : Piece.covers ⟨dst, bs, [src], false⟩ dst i = true := by
    rw [Piece.covers, lineVa_aligned h, h, hn]
    simpa using hi
  have hmine : ([(⟨dst, bs, [src], false⟩ : Piece)].filter fun p => lineVa p.va == dst) = [⟨dst, bs, [src], false⟩] := by
    rw [List.filter_cons_of_pos, List.filter_nil]
    rw [lineVa_aligned h]
    exact beq_self_eq_true _
  have hgiven : ((List.range 64).filterMap fun i => ([(⟨dst, bs, [src], false⟩ : Piece)].find? fun p => p.covers dst i).map
      fun p => (i, p)) = (List.range 64).map fun i => (i, (⟨dst, bs, [src], false⟩ : Piece)) := by
    rw [List.filterMap_congr (g := fun i => some (i, (⟨dst, bs, [src], false⟩ : Piece))), List.filterMap_eq_map']
    intro i hi
    rw [List.find?_cons, hcovers i hi]
    rfl
  have hsrc : (((List.range 64).map fun i => (i, (⟨dst, bs, [src], false⟩ : Piece))).flatMap fun e => e.2.src).eraseDups = [src] := by
    refine eraseDups_const (fun x hx => ?_) (List.ne_nil_of_mem (a := src) (List.mem_flatMap.mpr
      ⟨_, List.mem_map.mpr ⟨0, List.mem_range.mpr (by decide), rfl⟩, List.mem_singleton.mpr rfl⟩))
    obtain ⟨e, he, hx⟩ := List.mem_flatMap.mp hx
    obtain ⟨i, -, rfl⟩ := List.mem_map.mp he
    exact List.mem_singleton.mp hx
  have hbytes : (List.range' 0 64).map (fun i => Piece.byteAt ⟨dst, bs, [src], false⟩ i) = bs := by
    refine List.ext_getElem (by simp [hn]) fun i hi hi' => ?_
    simp [Piece.byteAt, h, hi', List.getD_eq_getElem?_getD]
  rw [mergeLine, hmine, List.reverse_singleton, hgiven, hsrc, List.map_map, List.range_eq_range']
  have hrun := runsOf_range' (fun i => Piece.byteAt ⟨dst, bs, [src], false⟩ i) 63 0
  rw [hbytes] at hrun
  rw [show (fun e : Nat × Piece => (e.1, e.2.byteAt e.1)) ∘ (fun i => (i, (⟨dst, bs, [src], false⟩ : Piece))) =
    fun k => (k, Piece.byteAt ⟨dst, bs, [src], false⟩ k) from rfl, hrun]
  dsimp only
  rw [if_pos ⟨rfl, hn, rfl⟩, show dst + BitVec.ofNat 64 0 = dst from BitVec.add_zero dst]
  rfl

theorem strideAddr_zero (base : Word) (stride : Int) : strideAddr base stride 0 = base := by
  rw [strideAddr, show ((0 : Nat) : Int) * stride = 0 from Int.zero_mul stride, show base + wordOf 0 = base from BitVec.add_zero base]

/-- The job copies one line. -/
def copiesLine (j : Job) : Prop := j.kind = 0 ∧ j.rows = 1 ∧ j.len = 64 ∧ j.src.toNat % 64 = 0 ∧ j.dst.toNat % 64 = 0

/-- The read of the source line of such a job. -/
theorem readSources_line {s v : State} {a : Agent} {va : Word} {p : Place} (h : va.toNat % 64 = 0)
    (hp : s.enginePlace a .read va = .ok (p, v)) :
    s.readSources a va 64 = (v.poisonCheck a .read p).map fun _ => (v.dev.bytes p.loc 64, [(va, v.copyWord p)], v) := by
  rw [State.readSources, piecesOf_line h, State.readPieces, hp, except_bind_ok]
  dsimp only
  cases v.poisonCheck a .read p with
  | error d => rfl
  | ok _ =>
    rw [except_bind_ok, State.readPieces, except_bind_ok, except_bind_ok, List.append_nil, List.map_cons, lineVa_aligned h]
    rfl

theorem bytes_length (d : Device) (loc n : Nat) : (d.bytes loc n).length = n := by
  rw [Device.bytes, List.length_map, List.length_range]

/-- The plan of a job that copies one line. -/
theorem planJob_line {s v : State} {cl crew : Nat} {j : Job} {p : Place} (h : copiesLine j)
    (hp : s.enginePlace (j.agent cl crew) .read j.src = .ok (p, v)) :
    (∀ e, v.poisonCheck (j.agent cl crew) .read p = .ok e → s.planJob cl crew j =
      some (⟨[⟨j.dst, v.dev.bytes p.loc 64, [(j.src, v.copyWord p)], false⟩], none, [], none⟩, v)) ∧
    ∀ d, v.poisonCheck (j.agent cl crew) .read p = .error d → ∃ q t, s.planJob cl crew j = some (q, t) ∧
      q.fail = some (.access d) := by
  obtain ⟨hkind, hrows, hlen, hsrc, hdst⟩ := h
  have hread := readSources_line hsrc hp
  have hdl : j.dstLen = 64 := by
    rw [Job.dstLen, hkind, hlen]
    rfl
  have hpieces : rowPieces j.dst 64 = [(0, 64)] := by
    rw [rowPieces, piecesOf_line hdst, List.map_cons, BitVec.sub_self]
    rfl
  have hcopy : copyPiece (j.agent cl crew) j.src j.dst (0, 64) s = (v.poisonCheck (j.agent cl crew) .read p).map fun _ =>
      ([⟨j.dst, v.dev.bytes p.loc 64, [(j.src, v.copyWord p)], false⟩], none, v) := by
    have hfrom : j.src + BitVec.ofNat 64 0 = j.src := BitVec.add_zero j.src
    have hto : j.dst + BitVec.ofNat 64 0 = j.dst := BitVec.add_zero j.dst
    rw [copyPiece]
    dsimp only
    rw [hfrom, hto, hread, piecesOf_line hsrc]
    cases v.poisonCheck (j.agent cl crew) .read p with
    | error d => rfl
    | ok _ =>
      have htake : (v.dev.bytes p.loc 64).take 64 = v.dev.bytes p.loc 64 := List.take_of_length_le (by rw [bytes_length])
      show Except.ok (cutSources j.dst [(j.src, 64)] (v.dev.bytes p.loc 64) [(j.src, v.copyWord p)], none, v) = _
      rw [cutSources, cutSources.eq_def, htake]
      rfl
  have hplan : s.planJob cl crew j = some (planRows (fun r => (strideAddr j.dst j.dstride r, j.dstLen)) (fun r s =>
      planPieces (copyPiece (j.agent cl crew) (strideAddr j.src j.sstride r) (strideAddr j.dst j.dstride r))
        (rowPieces (strideAddr j.dst j.dstride r) j.dstLen) s []) [0] s []) := by
    rw [State.planJob.eq_def, hkind, hrows]
    rfl
  have hrow : planPieces (copyPiece (j.agent cl crew) j.src j.dst) [(0, 64)] s [] =
      match v.poisonCheck (j.agent cl crew) .read p with
      | .error d => (⟨[], some (.access d), [], none⟩, s)
      | .ok _ => (⟨[⟨j.dst, v.dev.bytes p.loc 64, [(j.src, v.copyWord p)], false⟩], none, [], none⟩, v) := by
    rw [planPieces, hcopy]
    cases v.poisonCheck (j.agent cl crew) .read p <;> rfl
  rw [hplan, planRows]
  dsimp only
  rw [strideAddr_zero, strideAddr_zero, hdl, hpieces, hrow]
  refine ⟨fun e he => ?_, fun d hd => ?_⟩
  · rw [he]
    rfl
  · rw [hd]
    exact ⟨_, _, rfl, rfl⟩

/-! ### The run of such a job -/

theorem code_of_final {f : EngineFail} (h : f.replayable = false) : f.code ≠ 0 := by
  cases f with
  | access d => cases h
  | page _ _ => exact Nat.succ_ne_zero _
  | label l => cases l <;> exact Nat.succ_ne_zero _

/-- A job that copies one line and completes with CODE 0 has written its line at the place of its destination. -/
theorem runJob_line {s u v : State} {cl crew index : Nat} {j : Job} {p : Place} (h : copiesLine j)
    (hp : s.enginePlace (j.agent cl crew) .read j.src = .ok (p, v)) (hrun : s.runJob cl crew j = .complete u 0 index) :
    v.writeLine (j.agent cl crew) j.core j.ctl (wholeLine j.dst (v.dev.bytes p.loc 64) (j.src, v.copyWord p)) = .ok u := by
  obtain ⟨hok, herror⟩ := planJob_line h hp
  obtain ⟨hkind, -, -, -, hdst⟩ := h
  rw [State.runJob] at hrun
  cases hpoison : v.poisonCheck (j.agent cl crew) .read p with
  | error d =>
    obtain ⟨q, t, hplan, hfail⟩ := herror d hpoison
    rw [hplan] at hrun
    dsimp only at hrun
    rw [hfail] at hrun
    cases hrun
  | ok e =>
    rw [hok e hpoison] at hrun
    dsimp only at hrun
    have hlines : j.linesOf ⟨[⟨j.dst, v.dev.bytes p.loc 64, [(j.src, v.copyWord p)], false⟩], none, [], none⟩ =
        [wholeLine j.dst (v.dev.bytes p.loc 64) (j.src, v.copyWord p)] := by
      rw [Job.linesOf, decide_eq_true (.inl hkind), Plan.lines]
      dsimp only
      rw [List.filter_cons_of_pos (by rfl), List.filter_nil, mergeLines, List.map_cons, List.map_nil, lineVa_aligned hdst]
      show ([j.dst].filterMap _) = _
      rw [List.filterMap_cons, mergeLine_whole hdst (bytes_length ..)]
      rfl
    rw [hlines, State.writeLines] at hrun
    cases hwrite : v.writeLine (j.agent cl crew) j.core j.ctl (wholeLine j.dst (v.dev.bytes p.loc 64) (j.src, v.copyWord p)) with
    | ok w =>
      rw [hwrite] at hrun
      cases hrun
      rfl
    | error f =>
      rw [hwrite] at hrun
      dsimp only at hrun
      split at hrun
      · cases hrun
      · next hfinal =>
        exact absurd (JobEnd.complete.inj hrun).2.1 (code_of_final (Bool.not_eq_true _ ▸ hfinal))

theorem engineEval_of_dev {s t : State} (h : DevOnly s t) (w : LabelWord) : t.engineEval w = s.engineEval w := by
  have hworld : t.ctx.world = s.ctx.world := sameWorld_of_dev h
  rw [State.engineEval, State.engineEval, hworld]

/-- A whole line written at its place: its bytes and, under a control label ⊤, the label word of its source. -/
theorem writeAt_line {s t : State} {a : Agent} {core : Nat} {ctl : LabelWord} {q : Place} {dst : Word} {bs : List Byte}
    {src : Word × LabelWord} (h : s.writeAt a core ctl q (wholeLine dst bs src) = .ok t) : LineWritten s t q bs ∧
      (s.engineEval ctl = topLabel → q.lt = true → labelApart q q.loc bs.length → t.dev.rawLabel (lineOf q.loc) = src.2) := by
  rw [State.writeAt] at h
  split at h
  · cases h
  · next u hrun =>
    cases h
    rw [State.writeRun.eq_def] at hrun
    by_cases htop : s.engineEval ctl = topLabel
    · rw [decide_eq_true htop] at hrun
      simp only [wholeLine] at hrun
      split at hrun
      · cases hrun
      · split at hrun
        · cases hrun
        · cases hrun
          refine ⟨(lineWritten_of_bytes a bs fun b hb => labelSet_outside src.2 rfl b hb).cleared _, fun _ hlt hapart => ?_⟩
          rw [if_pos hlt]
          exact (rawLabel_congr fun b hb => engineBytes_outside _ a q (hapart b hb)).trans (setRawLabel_raw ..)
    · rw [decide_eq_false htop] at hrun
      simp only [wholeLine] at hrun
      exact ⟨engineStore_written hrun, fun h => absurd h htop⟩

/-! ### The jobs of a unit -/

theorem exec_jobStart (s : State) (cl crew : Nat) (h : s.ctx.stopped = false) : exec (.jobStart cl crew) s =
    .next (match (unit s cl crew).jobs.find? fun j => j.state == .queued with
      | some j => s.setJob cl crew j.id fun j => { j with state := .running }
      | none => s) := by
  have hexec : exec (.jobStart cl crew) s = execJobStart cl crew s := rfl
  rw [hexec, execJobStart, State.engineRuns, h]
  rfl

/-- The job that runs is the one that its events find. -/
theorem runningJob_of_runs {s : State} {cl crew : Nat} {j : Job} (h : runs s cl crew j) : s.runningJob cl crew j.id = some j := h

theorem exec_jobComplete {s t : State} {cl crew code index : Nat} {j : Job} (h : s.ctx.stopped = false) (hj : runs s cl crew j)
    (hrun : s.runJob cl crew j = .complete t code index) :
    exec (.jobComplete cl crew j.id) s = .next (t.completeJob cl crew j code index) := by
  have hexec : exec (.jobComplete cl crew j.id) s = execJobComplete cl crew j.id s := rfl
  rw [hexec, execJobComplete, State.engineRuns, h, runningJob_of_runs hj]
  dsimp only
  rw [hrun]
  rfl

theorem exec_jobFault {s t : State} {cl crew : Nat} {j : Job} {f : EngineFail} (h : s.ctx.stopped = false) (hj : runs s cl crew j)
    (hrun : s.runJob cl crew j = .replay t f) : exec (.jobFault cl crew j.id) s =
      .next (match replayCode f.deny.cause with
        | none => if j.retried then (t.noteDeny (j.agent cl crew) f.deny).completeJob cl crew j 4 0
          else (t.noteDeny (j.agent cl crew) f.deny).setJob cl crew j.id fun j => { j with retried := true }
        | some cause => match t.postRecord cl crew j.id cause (f.deny.info % 4) f.deny.addr with
          | none => s
          | some u => u.setJob cl crew j.id fun j =>
            { j with state := .awaiting, fault := some (cause, f.deny.info % 4, f.deny.addr) }) := by
  have hexec : exec (.jobFault cl crew j.id) s = execJobFault cl crew j.id s := rfl
  rw [hexec, execJobFault, State.engineRuns, h, runningJob_of_runs hj]
  dsimp only
  rw [hrun]
  rfl

theorem exec_transformTimeout {s : State} {cl crew : Nat} {j : Job} (h : s.ctx.stopped = false) (hj : runs s cl crew j)
    (hkind : j.kind = 2) : exec (.transformTimeout cl crew j.id) s = .next (s.completeJob cl crew j 10 0) := by
  have hexec : exec (.transformTimeout cl crew j.id) s = execTransformTimeout cl crew j.id s := rfl
  rw [hexec, execTransformTimeout, State.engineRuns, h, runningJob_of_runs hj]
  dsimp only
  rw [if_pos hkind]
  rfl

theorem setJob_jobs (s : State) (cl crew : Nat) (id : Word) (f : Job → Job) :
    (unit (s.setJob cl crew id f) cl crew).jobs = (unit s cl crew).jobs.map fun j => if j.id = id then f j else j :=
  congrArg CopyUnit.jobs (copyUnit_mapCopy s cl crew _)

theorem unit_of_dev {s t : State} (h : DevOnly s t) (cl crew : Nat) : unit t cl crew = unit s cl crew :=
  (EngineOnly.of_dev h).copyUnit cl crew

end Sys2Proof.Claims

namespace Sys2Proof
open Machine Claims

/-- Settles O45: the line of a COPY is planned from its source and written at its destination; each event of a job follows its
run. -/
theorem jobsRun : Obligations.JobsRun := by
  unfold Obligations.JobsRun
  refine ⟨fun s u v w cl crew index j p q hkind hrows hlen hsrc hdst hp hq hrun => ?_,
    fun s u cl crew code index j f hstopped => ⟨fun hqueued => ?_, fun hj => ⟨fun hrun => ?_, fun hrun hcode => ⟨fun hfirst => ?_,
      fun hretried => ?_⟩, fun cause v hrun hcode hpost => ?_, fun hkind => ?_⟩⟩⟩
  · have hwrite := runJob_line ⟨hkind, hrows, hlen, hsrc, hdst⟩ hp hrun
    rw [State.writeLine, show (wholeLine j.dst (v.dev.bytes p.loc 64) (j.src, v.copyWord p)).va = j.dst from rfl, hq] at hwrite
    obtain ⟨hwritten, hlabel⟩ := writeAt_line hwrite
    have hn : (v.dev.bytes p.loc 64).length = 64 := bytes_length ..
    have hdev : DevOnly s w := (enginePlace_ok hp).1.trans (enginePlace_ok hq).1
    rw [hn, engineEval_of_dev hdev] at hlabel
    refine ⟨fun k hk => ?_, hlabel, fun b hb hl => hwritten.outside b (by rw [hn]; exact hb) hl⟩
    rw [hwritten.at_ k (by rw [hn]; exact hk), Device.bytes, List.getD_eq_getElem?_getD, List.getElem?_map,
      List.getElem?_range hk]
    rfl
  · have hexec := exec_jobStart s cl crew hstopped
    rw [hqueued] at hexec
    exact ⟨_, hexec, setJob_jobs .., rfl, rfl⟩
  · exact ⟨_, exec_jobComplete hstopped hj hrun, completeJob_done ..⟩
  · have hexec := exec_jobFault hstopped hj hrun
    rw [hcode] at hexec
    dsimp only at hexec
    rw [hfirst, if_neg Bool.false_ne_true] at hexec
    refine ⟨_, hexec, rfl, ?_⟩
    rw [setJob_jobs, unit_of_dev (noteDeny_ok u _ f.deny).1]
  · have hexec := exec_jobFault hstopped hj hrun
    rw [hcode] at hexec
    dsimp only at hexec
    rw [hretried, if_pos rfl] at hexec
    refine ⟨_, hexec, (completeJob_done ..).of_before ?_⟩
    rw [DevOnly.coreAt (noteDeny_ok u _ f.deny).1]
  · have hexec := exec_jobFault hstopped hj hrun
    rw [hcode] at hexec
    dsimp only at hexec
    rw [hpost] at hexec
    exact ⟨_, hexec, rfl, setJob_jobs ..⟩
  · exact ⟨_, exec_transformTimeout hstopped hj hkind, completeJob_done ..⟩

end Sys2Proof
end

section
/-! PROOF. Streams (R292 to R295). -/

namespace Sys2Proof.Claims
open Machine

/-- A field with its sign is a multiple of 64 exactly when its low six bits are 0. -/
theorem sext32_mod64 (k : Nat) : sext 32 (k % 2 ^ 32) % 64 = 0 ↔ k % 64 = 0 := by
  rw [sext]
  split <;> omega

/-- A field of 32 bits is read with its sign. -/
theorem sext_low (k : Nat) : sext 32 (k % 2 ^ 32) = signed 32 k := by
  rw [sext_eq_signed, signed, signed]
  congr 1
  exact BitVec.eq_of_toNat_eq (by rw [BitVec.toNat_ofNat, BitVec.toNat_ofNat, Nat.mod_mod])

/-- What SMODE checks of its group is what R292 asks. -/
theorem streamOk_iff (s : State) (a : Nat) : s.streamOk a (s.streamOf a) = true ↔ ¬ streamBad s a := by
  have hn := (s.rdX (a + 1)).isLt
  have he := (s.rdX (a + 3)).isLt
  have h0 := sext32_mod64 (s.rdX (a + 2)).toNat
  have h1 := sext32_mod64 ((s.rdX (a + 2)).toNat / 2 ^ 32)
  have h2 := sext32_mod64 (s.rdX (a + 3)).toNat
  rw [State.streamOk, State.streamOf, streamBad]
  simp only [Bool.and_eq_true, decide_eq_true_iff]
  simp only [bitsAt, Nat.pow_zero, Nat.div_one, h0, h1, h2]
  clear h0 h1 h2
  simp only [Nat.reducePow] at hn he ⊢
  omega

theorem exec_smode (v a : Nat) (s : State) : exec (.smode v a) s = commit s (do
    s.edgeGuard 1 0
    if (s.rdX a).toNat % 64 ≠ 0 then .error (s.trap .misalign 0 (s.rdX a))
    if !s.streamOk a (s.streamOf a) then .error (s.illegal 9 0)
    let (ctl, u) ← s.formConj (s.labGroup a 4)
    .ok (u.mapCore fun c => { c with streams := insertAt v { s.streamOf a with ctl := ctl } c.streams }).complete) := rfl

theorem smode_misalign {s : State} {v a : Nat} (hp : plainCore s) (h : (s.rdX a).toNat % 64 ≠ 0) :
    traps (.smode v a) s .misalign 0 (s.rdX a) := by
  refine traps_of_commit (exec_smode v a s) ?_
  rw [edgeGuard_plain hp, except_bind_ok]
  dsimp only
  rw [if_pos h, except_bind_error]

theorem smode_illegal {s : State} {v a : Nat} (hp : plainCore s) (h : (s.rdX a).toNat % 64 = 0) (hbad : streamBad s a) :
    traps (.smode v a) s .illegal (illegalInfo s 9) 0 := by
  refine traps_of_commit (exec_smode v a s) ?_
  have hno : s.streamOk a (s.streamOf a) = false := by
    rw [← Bool.not_eq_true, streamOk_iff]
    exact not_not.mpr hbad
  rw [edgeGuard_plain hp, except_bind_ok]
  dsimp only
  rw [if_neg (not_not.mpr h), hno, if_pos (by decide), except_bind_error, illegal_eq]

theorem smode_opens {s u : State} {v a : Nat} {ctl : LabelWord} (hp : plainCore s) (h : (s.rdX a).toNat % 64 = 0)
    (hok : s.streamOk a (s.streamOf a) = true) (hform : s.formConj (s.labGroup a 4) = .ok (ctl, u)) :
    exec (.smode v a) s = .next (u.mapCore fun c =>
      { c with streams := insertAt v { s.streamOf a with ctl := ctl } c.streams }).complete := by
  rw [exec_smode, edgeGuard_plain hp, except_bind_ok]
  dsimp only
  rw [if_neg (not_not.mpr h), hok, if_neg (by decide), hform, except_bind_ok, commit_ok]

/-- A strip read leaves all but the device and held translations. -/
theorem readStrip_only {s u : State} {a : Agent} {t : Stream} {n : Nat} {strip : VWord × LabelWord}
    (h : s.readStrip a t n = .ok (strip, u)) : DevOnly s u := by
  rw [State.readStrip] at h
  obtain ⟨⟨p, w⟩, htranslate, h⟩ := bind_ok h
  obtain ⟨_, _, h⟩ := bind_ok h
  obtain ⟨_, _, h⟩ := bind_ok h
  obtain ⟨_, _, h⟩ := bind_ok h
  rw [← (Prod.mk.inj (Except.ok.inj h)).2]
  exact ((translate_only htranslate).devOnly.trans (settle_dev _ _ _)).trans (cacheLine_dev _ _).1

theorem exec_streamStripFetch {s u : State} {cl core v : Nat} {t : Stream} {strip : VWord × LabelWord}
    (hstopped : s.ctx.stopped = false) (ht : lookup (s.coreAt cl core).streams v = some t)
    (hleft : t.pos + t.ahead.length < t.n0 * t.n1 * t.n2)
    (hread : s.readStrip ⟨cl, (s.coreAt cl core).status.mode, .core core⟩ t (t.pos + t.ahead.length) = .ok (strip, u)) :
    exec (.streamStripFetch cl core v) s = .next (u.mapCoreAt cl core fun c =>
      { c with streams := insertAt v { t with ahead := t.ahead ++ [strip] } c.streams }) := by
  have hexec : exec (.streamStripFetch cl core v) s = execStreamStripFetch cl core v s := rfl
  rw [hexec, execStreamStripFetch, State.engineRuns, hstopped, ht]
  dsimp only
  rw [if_neg (show ¬ t.pos + t.ahead.length ≥ t.count from Nat.not_le.mpr hleft), hread]
  rfl

end Sys2Proof.Claims

namespace Sys2Proof
open Machine Claims

/-- Settles O47: SMODE's checks, SOFF, and the strip behind those fetched before it. -/
theorem streams : Obligations.Streams := by
  unfold Obligations.Streams
  intro s u v a cl core ctl t strip _ _ _ hp
  refine ⟨smode_misalign hp, smode_illegal hp, fun _ => (streamOk_iff s a).mpr, fun halign hok hform => ?_, ?_,
    fun hstopped ht hleft hread => ?_⟩
  · have hformed := formConj_formed hform
    refine ⟨_, { s.streamOf a with ctl := ctl }, smode_opens hp halign hok hform, ?_, rfl, bitsAt_low _ _, rfl, rfl, ?_, ?_, ?_,
      rfl, rfl, rfl, fun x hx => ?_, ?_, ?_, coreSame.complete ?_, hformed.ctx, hformed.rest, memoryKept_of_dev hformed.rest.2.2.2⟩
    · rw [State.complete_core, Core.complete_streams]
      exact lookup_insertAt_same ..
    · exact (congrArg (sext 32) (bitsAt_low (s.rdX (a + 2)) 32)).trans (sext_low _)
    · exact sext_low ((s.rdX (a + 2)).toNat / 2 ^ 32)
    · exact (congrArg (sext 32) (bitsAt_low (s.rdX (a + 3)) 32)).trans (sext_low _)
    · rw [State.complete_core, Core.complete_streams, ← hformed.streams]
      exact lookup_insertAt_other _ _ hx
    · rw [State.complete_core, Core.complete_regs]
      exact hformed.regs
    · rw [State.complete_core, Core.complete_pending]
      exact hformed.pending
    · exact hformed.same
  · obtain ⟨hctx, hrest, hmem⟩ := coreOnly_complete s fun c => { c with streams := eraseAt v c.streams }
    refine ⟨_, rfl, Core.complete_regs _, Core.complete_pending _, fun x => ?_, coreSame.complete rfl, hctx, hrest, hmem⟩
    rw [State.complete_core, Core.complete_streams]
    split
    · next h => subst h; exact lookup_eraseAt_same ..
    · next h => exact lookup_eraseAt_other _ h
  · have hcore := DevOnly.coreAt (readStrip_only hread) cl core
    refine ⟨_, exec_streamStripFetch hstopped ht hleft hread, ?_, ?_, State.mapCoreAt_dev ..⟩
    · rw [State.coreAt_mapCoreAt_same]
      exact lookup_insertAt_same ..
    · rw [State.coreAt_mapCoreAt_same, hcore]

end Sys2Proof
end

section
/-! PROOF. Row operations and promotions (R300 to R311). -/

namespace Sys2Proof.Claims
open Machine

/-! ### Frames -/

theorem counted_congr {c c' d d' : Core} {k n : Nat} {bad : Bool} (h : counted c d k n bad) (hc : c'.k = c.k) (hd : d'.k = d.k) :
    counted c' d' k n bad := by
  rw [counted, count, count, err, err] at h ⊢
  rw [hc, hd]
  exact h

theorem EngineOnly.k {s t : State} (h : EngineOnly s t) (cl c : Nat) : (t.coreAt cl c).k = (s.coreAt cl c).k := by
  rw [← h.coreAt cl c]

theorem evictSome_dev (s : State) (lines : List (Nat × Bool)) :
    DevOnly s (s.evictSome lines) ∧ devSame s.dev (s.evictSome lines).dev ∧ (s.evictSome lines).dev.mem = s.dev.mem := by
  unfold State.evictSome
  dsimp only
  split
  · exact ⟨DevOnly.refl s, devSame.refl _, rfl⟩
  · generalize List.filter _ _ = gone
    have hgone (d : Device) : devSame d (gone.foldl Device.evict d) ∧ (gone.foldl Device.evict d).mem = d.mem := by
      induction gone generalizing d with
      | nil => exact ⟨devSame.refl d, rfl⟩
      | cons l ls ih => exact ⟨(dropLine_same d l).trans (ih _).1, (ih (d.dropLine l)).2⟩
    exact ⟨(DevOnly.drawn s).trans (DevOnly.mapDev _ _), hgone s.dev⟩

theorem statusAt_only (s : State) (a : Agent) (o : Option RowOperand) (bs : List Byte) : DevOnly s (s.statusAt a o bs) := by
  unfold State.statusAt
  split
  · exact DevOnly.refl s
  · dsimp only
    split
    · exact ((settle_dev _ _ _).trans (topPartial_ok _ _).1).trans (engineBytes_ok _ _ _ _).1
    · exact (noteDeny_ok _ _ _).1
    · exact DevOnly.refl s

theorem noteTier_only (s : State) (code : Nat) (locs : List Nat) : DevOnly s (s.noteTier code locs) := by
  unfold State.noteTier
  split
  · exact DevOnly.mapDev _ _
  · exact DevOnly.refl s

/-- Counting failed accesses touches the counters and the ports that have failed alone. -/
theorem noteTier_dev (s : State) (code : Nat) (locs : List Nat) {d : Device} (hc : d.counters = s.dev.counters)
    (hf : d.cxlFailed = s.dev.cxlFailed) :
    { (s.noteTier code locs).dev with counters := d.counters, cxlFailed := d.cxlFailed } = s.dev := by
  rw [hc, hf]
  unfold State.noteTier
  split
  · rw [State.mapDev_dev, Device.cxlError]
    dsimp only
    split <;> rfl
  · rfl

/-! ### A row operation leaves its queue (R301) -/

/-- The operation has left the row queue, its ranges are free, and it has counted once at its core's counter. -/
structure RowDone (s t : State) (cl : Nat) (r : RowOp) (bad : Bool) : Prop where
  gone : ∀ x, x ∈ (t.cluster cl).rowq → x.id ≠ r.id
  free : ∀ l, l ∈ (t.cluster cl).locks → l.id ∉ r.locks
  counted : counted (s.coreAt cl r.core) (t.coreAt cl r.core) r.k 1 bad

theorem RowDone.of_before {s s' t : State} {cl : Nat} {r : RowOp} {bad : Bool} (h : RowDone s t cl r bad)
    (hk : (s'.coreAt cl r.core).k = (s.coreAt cl r.core).k) : RowDone s' t cl r bad :=
  ⟨h.gone, h.free, counted_congr h.counted hk rfl⟩

theorem coreAt_mapRowq (s : State) (cl : Nat) (f : List RowOp → List RowOp) (cl' c : Nat) :
    (s.mapCluster cl fun k => { k with rowq := f k.rowq }).coreAt cl' c = s.coreAt cl' c :=
  coreAt_mapCluster s cl (fun k => { k with rowq := f k.rowq }) (fun _ => rfl) cl' c

theorem finishRow_done (s : State) (cl : Nat) (r : RowOp) (code : Nat) (f : RowFlags) :
    RowDone s (s.finishRow cl r code f) cl r (decide (code ≠ 0)) := by
  unfold State.finishRow
  extract_lets s1 s2
  have hcore (c : Nat) : s2.coreAt cl c = s.coreAt cl c :=
    (coreAt_mapRowq ..).trans ((coreAt_unlock ..).trans (DevOnly.coreAt (statusAt_only ..) cl c))
  have hcluster := mapCoreAt_cluster s2 cl r.core (·.bump r.k 1 (decide (code ≠ 0))) cl
  have hrowq : (s2.cluster cl).rowq = ((s1.unlock cl r.locks).cluster cl).rowq.filter fun x => x.id != r.id := by
    simp only [s2]
    rw [State.cluster_mapCluster_same]
  have hlocks : (s2.cluster cl).locks = (s1.cluster cl).locks.filter fun l => !r.locks.contains l.id := by
    simp only [s2]
    rw [State.cluster_mapCluster_same, State.unlock, State.cluster_mapCluster_same]
  refine ⟨fun x hx => ?_, fun l hl => ?_, ?_⟩
  · have hx2 : x ∈ (s2.cluster cl).rowq := by rwa [← hcluster]
    rw [hrowq] at hx2
    simpa using List.of_mem_filter hx2
  · have hl2 : l ∈ (s2.cluster cl).locks := by rwa [← hcluster]
    rw [hlocks] at hl2
    simpa using List.of_mem_filter hl2
  · rw [State.bumpAt, State.coreAt_mapCoreAt_same, hcore]
    exact bump_counted ..

theorem finishRow_plain (s : State) (cl : Nat) {r : RowOp} (code : Nat) (f : RowFlags) (h : r.status = none) :
    (s.finishRow cl r code f).dev = s.dev := by
  rw [finishRow_dev, h]
  rfl

/-! ### Issue (R302, R309) -/

theorem rowForms_exec {k a : Nat} {i : Instr} {kind : RowKind} {regs : List (RowRole × Nat)} (h : (i, kind, regs) ∈ rowForms k a)
    (s : State) : exec i s = s.issueRow kind k a regs := by
  simp only [rowForms, List.map_cons, List.map_nil, List.cons_append, List.nil_append, List.mem_cons, List.not_mem_nil, or_false,
    Prod.mk.injEq] at h
  obtain ⟨rfl, rfl, rfl⟩ | ⟨rfl, rfl, rfl⟩ | ⟨rfl, rfl, rfl⟩ | ⟨rfl, rfl, rfl⟩ | ⟨rfl, rfl, rfl⟩ | ⟨rfl, rfl, rfl⟩ |
    ⟨rfl, rfl, rfl⟩ | ⟨rfl, rfl, rfl⟩ | ⟨rfl, rfl, rfl⟩ | ⟨rfl, rfl, rfl⟩ := h <;> rfl

theorem promoForms_exec {pin : Bool} {k a : Nat} {i : Instr} {kind : RowKind} (h : (i, kind) ∈ promoForms pin k a)
    (s : State) : exec i s = s.issuePromo kind k a := by
  simp only [promoForms, List.mem_cons, List.not_mem_nil, or_false, Prod.mk.injEq] at h
  obtain ⟨rfl, rfl⟩ | ⟨rfl, rfl⟩ := h <;> rfl

theorem rowTranslate_only {ops : List (RowRole × Word)} : ∀ {s t : State} {ps : List (RowRole × Place)},
    s.rowTranslate ops = .ok (ps, t) → TlbOnly s t := by
  induction ops with
  | nil => intro s t ps h; cases h; exact TlbOnly.refl _
  | cons o ops ih =>
    obtain ⟨r, va⟩ := o
    intro s t ps h
    rw [State.rowTranslate] at h
    split at h
    · exact ih h
    · obtain ⟨⟨p, u⟩, htranslate, h⟩ := bind_ok h
      obtain ⟨⟨qs, v⟩, hrest, h⟩ := bind_ok h
      cases h
      exact (translate_only (check_eq_ok htranslate)).trans (ih hrest)

/-- Every place that passes the permission check of its role. -/
theorem rowPermit_mem {s : State} {ps : List (RowRole × Place)} : s.rowPermit ps = .ok () →
    ∀ p ∈ ps, permCheck s.me p.1.access p.2 = .ok () := by
  induction ps with
  | nil => exact fun _ => List.forall_mem_nil _
  | cons q ps ih =>
    intro h
    rw [State.rowPermit] at h
    obtain ⟨⟨⟩, hq, h⟩ := bind_ok h
    exact List.forall_mem_cons.mpr ⟨check_eq_ok hq, ih h⟩

/-- A status word that may be written is the first of the operands' status words. -/
theorem find_status {s : State} {ps : List (RowRole × Place)} (h : s.rowPermit ps = .ok ()) :
    (ps.find? fun p => decide (p.1 = .stat) && (permCheck s.me .write p.2).isOk) = ps.find? fun p => decide (p.1 = .stat) := by
  have hall := rowPermit_mem h
  clear h
  induction ps with
  | nil => rfl
  | cons p ps ih =>
    obtain ⟨hp, hps⟩ := List.forall_mem_cons.mp hall
    rw [List.find?_cons, List.find?_cons]
    by_cases hstat : p.1 = .stat
    · rw [hstat] at hp
      rw [show permCheck s.me .write p.2 = .ok () from hp, decide_eq_true hstat]
      rfl
    · rw [decide_eq_false hstat]
      exact ih hps

/-- The operation stands at the end of the queue, as its operands were translated. -/
theorem enqueueRow_queued {s v : State} {kind : RowKind} {k : Nat} {ctl : LabelWord} {ps : List (RowRole × Place)} {locks : List Nat}
    (hfocus : v.focus = s.focus) (hcore : v.core = { s.core with lblstat := v.core.lblstat }) :
    rowQueued s v (v.enqueueRow kind k ctl ps locks) kind k ctl ((ps.filter fun p => decide (p.1 ≠ .stat)).map fun p => p.2.capture)
      ((ps.find? fun p => decide (p.1 = .stat) && (permCheck s.me .write p.2).isOk).map fun p => p.2.capture) := by
  have hme : v.me = s.me := by rw [State.me, State.me, hfocus, hcore]
  have hrowq : (v.enqueueRow kind k ctl ps locks).myCluster.rowq = v.myCluster.rowq ++
      [⟨v.dev.nextId, kind, v.focus.core, v.core.crec, k, v.core.status.mode, ctl,
        (ps.filter fun p => decide (p.1 ≠ .stat)).map fun p => p.2.capture,
        (ps.find? fun p => decide (p.1 = .stat) && (permCheck v.me .write p.2).isOk).map fun p => p.2.capture, locks⟩] := by
    show (((v.mapDev _).mapCluster v.focus.cl _).cluster v.focus.cl).rowq = _
    rw [State.cluster_mapCluster_same]
    rfl
  refine ⟨⟨_, hrowq, rfl, rfl, rfl, rfl, by rw [hme], by rw [hfocus], by rw [hcore]⟩, ?_, ⟨?_, ?_⟩, fun hmem => memoryKept_of_mem hmem⟩
  · show v.core.complete.regs = _
    rw [Core.complete_regs, hcore]
  · show v.core.complete.pending = _
    rw [Core.complete_pending, hcore]
  · show v.core.complete.streams = _
    rw [Core.complete_streams, hcore]

/-- RCOPY, RFILL and RBOOL whose operands pass their checks (R302). -/
theorem issueRow_enters {s t u v : State} {kind : RowKind} {k a : Nat} {regs : List (RowRole × Nat)} {ps : List (RowRole × Place)}
    {ctl : LabelWord} {locks : List Nat} (hp : plainCore s)
    (halign : s.rowAlign (((RowRole.dst, a) :: regs).map fun r => (r.1, s.rdX r.2)) = .ok ())
    (hinbox : s.inboxCheck (writtenBytes (((RowRole.dst, a) :: regs).map fun r => (r.1, s.rdX r.2))) = .ok ())
    (htranslate : s.rowTranslate (((RowRole.dst, a) :: regs).map fun r => (r.1, s.rdX r.2)) = .ok (ps, t))
    (hpermit : s.rowPermit ps = .ok ()) (hform : t.formConj (((RowRole.dst, a) :: regs).map fun r => s.labX r.2) = .ok (ctl, u))
    (hroom : (s.myCluster.rowq.filter fun r => r.core == s.focus.core && r.kind.isRow).length < Config.rowOpsPerCore)
    (hlocks : u.lockRanges s.focus.cl s.focus.core .row ((ps.filter fun p => decide (p.1 ≠ .stat)).map fun p =>
      (p.2.va.toNat, p.1.bytes, decide (p.1 = RowRole.dst))) = some (locks, v)) :
    s.issueRow kind k a regs = .next (v.enqueueRow kind k ctl ps locks) := by
  rw [State.issueRow, edgeGuard_plain hp, except_bind_ok, halign, except_bind_ok, hinbox, except_bind_ok, htranslate, except_bind_ok]
  dsimp only
  rw [hpermit, except_bind_ok, hform, except_bind_ok]
  dsimp only
  rw [if_neg (show ¬ s.rowsInFlight ≥ Config.rowOpsPerCore from Nat.not_le.mpr hroom), hlocks, commit_ok]

/-- RPROMO and RDEMO whose operands pass their checks (R309). -/
theorem issuePromo_enters {s t : State} {kind : RowKind} {k a : Nat} {ps : List (RowRole × Place)} (hp : plainCore s)
    (hclass : classPasses s [s.labX a, s.labX (a + 1)])
    (halign : s.rowAlign [(RowRole.src, s.rdX a), (.stat, s.rdX (a + 1))] = .ok ())
    (hinbox : s.inboxCheck (writtenBytes [(RowRole.src, s.rdX a), (.stat, s.rdX (a + 1))]) = .ok ())
    (htranslate : s.rowTranslate [(RowRole.src, s.rdX a), (.stat, s.rdX (a + 1))] = .ok (ps, t))
    (hpermit : s.rowPermit (ps.filter fun p => decide (p.1 ≠ .stat)) = .ok ()) :
    s.issuePromo kind k a = .next (t.enqueueRow kind k s.topWord ps []) := by
  rw [State.issuePromo, edgeGuard_plain hp, except_bind_ok, classRule_of_passes hclass, except_bind_ok, halign, except_bind_ok,
    hinbox, except_bind_ok, htranslate, except_bind_ok]
  dsimp only
  rw [hpermit, except_bind_ok, commit_ok]

/-! ### The lines of a destination row (R305) -/

/-- The lines stand as they did: memory, which lines are cached, in which format, and where addresses lie. -/
structure LinesSame (d e : Device) : Prop where
  same : devSame d e
  mem : e.mem = d.mem
  held : e.held = d.held

theorem LinesSame.refl (d : Device) : LinesSame d d := ⟨devSame.refl d, rfl, rfl⟩

theorem LinesSame.trans {d e g : Device} (h : LinesSame d e) (k : LinesSame e g) : LinesSame d g :=
  ⟨h.same.trans k.same, k.mem.trans h.mem, k.held.trans h.held⟩

theorem formatKept_congr {s t : State} (h : LinesSame s.dev t.dev) (p : Place) : formatKept t p ↔ formatKept s p := by
  rw [formatKept, formatKept, agrees, agrees, h.same.packed, h.held]

/-- A line that keeps its format is found as it is, but that a write may wait at it. -/
theorem settle_kept {s : State} {p : Place} (who : Writer) (h : formatKept s p) : LinesSame s.dev (s.settle who p).dev := by
  have hsettle : s.settle who p = s.mapDev (·.meet (lineOf p.loc) who) := by
    rcases h with h | h
    · exact settle_agrees who h
    · rw [State.settle]
      dsimp only
      refine if_neg ?_
      rw [Bool.and_eq_true, Bool.and_eq_true]
      rintro ⟨⟨-, hnone⟩, -⟩
      rw [Option.isNone_iff_eq_none] at hnone
      rw [hnone] at h
      cases h
  rw [hsettle]
  exact ⟨meet_same .., Device.meet_mem .., meet_held ..⟩

theorem settleAll_kept (who : Writer) (ps : List Place) : ∀ s : State, (∀ p ∈ ps, formatKept s p) →
    LinesSame s.dev (ps.foldl (·.settle who ·) s).dev := by
  induction ps with
  | nil => exact fun s _ => LinesSame.refl s.dev
  | cons p ps ih =>
    intro s h
    obtain ⟨hp, hps⟩ := List.forall_mem_cons.mp h
    have hstep := settle_kept who hp
    exact hstep.trans (ih _ fun q hq => (formatKept_congr hstep q).mpr (hps q hq))

theorem place_same {d e : Device} (h : devSame d e) (o : RowOperand) (off : Nat) : o.place e off = o.place d off := by
  rw [RowOperand.place, RowOperand.place, locate_same h]

theorem inputLine_same {d e : Device} (h : devSame d e) (r : RowOp) (o : RowOperand) (j : Nat) :
    r.inputLine e o j = r.inputLine d o j := by
  rw [RowOp.inputLine, RowOp.inputLine, place_same h, place_same h]

theorem lineData_of_mem {d e : Device} (h : e.mem = d.mem) (line : Nat) : e.lineData line = d.lineData line := by
  rw [Device.lineData, Device.lineData, num_of_mem h]

theorem rowWord_dev {s t : State} {cl : Nat} {r : RowOp} {ws : List LabelWord} {w : LabelWord}
    (h : s.rowWord cl r ws = .ok (w, t)) : t.dev = s.dev := by
  rw [State.rowWord] at h
  split at h
  · cases h; rfl
  · split at h
    · cases h
    · next hform =>
      cases h
      exact engineForm_dev hform

theorem rowWord_only {s t : State} {cl : Nat} {r : RowOp} {ws : List LabelWord} {w : LabelWord}
    (h : s.rowWord cl r ws = .ok (w, t)) : EngineOnly s t := by
  rw [State.rowWord] at h
  split at h
  · cases h; exact EngineOnly.refl s
  · split at h
    · cases h
    · next hform =>
      cases h
      exact engineForm_only hform

theorem settleAll_only (who : Writer) (ps : List Place) : ∀ s : State, DevOnly s (ps.foldl (·.settle who ·) s) := by
  induction ps with
  | nil => exact DevOnly.refl
  | cons p ps ih => exact fun s => (settle_dev s who p).trans (ih _)

/-- What a line of the destination is: its place and the function of its sources' lines. -/
def lineOfRow (base : State) (r : RowOp) (dst : RowOperand) (inputs : List RowOperand) (j : Nat) (l : RowLine) : Prop :=
  l.place = dst.place base.dev (64 * j) ∧
    l.data = rowData r.kind (inputs.map fun o => base.dev.lineData (lineOf (r.inputLine base.dev o j).loc))

theorem rowLines_only {cl : Nat} {r : RowOp} {dst : RowOperand} {inputs : List RowOperand} (js : List Nat) :
    ∀ {s u : State} {ls : List RowLine}, s.rowLines cl r dst inputs js = .ok (ls, u) → EngineOnly s u := by
  induction js with
  | nil => intro s u ls h; cases h; exact EngineOnly.refl _
  | cons j js ih =>
    intro s u ls h
    rw [State.rowLines] at h
    split at h
    · cases h
    · next hword =>
      split at h
      · cases h
      · next hrest =>
        split at h
        · cases h
        · split at h
          · cases h
          · cases h
            exact ((EngineOnly.of_dev (settleAll_only _ _ _)).trans (rowWord_only hword)).trans (ih hrest)

/-- The lines of a destination row are the functions of the source lines, where these keep their format. -/
theorem rowLines_data {base : State} {cl : Nat} {r : RowOp} {dst : RowOperand} {inputs : List RowOperand} (js : List Nat) :
    ∀ {s u : State} {ls : List RowLine}, s.rowLines cl r dst inputs js = .ok (ls, u) → LinesSame base.dev s.dev →
      (∀ o j, o ∈ inputs → j ∈ js → formatKept base (r.inputLine base.dev o j)) →
      List.Forall₂ (lineOfRow base r dst inputs) js ls := by
  induction js with
  | nil => intro s u ls h _ _; cases h; exact .nil
  | cons j js ih =>
    intro s u ls h hbase hkept
    have hplaces : inputs.map (fun o => r.inputLine s.dev o j) = inputs.map fun o => r.inputLine base.dev o j :=
      List.map_congr_left fun o _ => inputLine_same hbase.same r o j
    have hsettled : LinesSame s.dev ((inputs.map fun o => r.inputLine s.dev o j).foldl (·.settle .device ·) s).dev := by
      refine settleAll_kept .device _ s fun p hp => (formatKept_congr hbase p).mpr ?_
      rw [hplaces] at hp
      obtain ⟨o, ho, rfl⟩ := List.mem_map.mp hp
      exact hkept o j ho List.mem_cons_self
    have hfound := hbase.trans hsettled
    rw [State.rowLines] at h
    split at h
    · cases h
    · next hword =>
      split at h
      · cases h
      · next hrest =>
        split at h
        · cases h
        · split at h
          · cases h
          · cases h
            refine .cons ⟨place_same hbase.same dst _, ?_⟩ (ih hrest ?_ fun o i ho hi => hkept o i ho (List.mem_cons_of_mem _ hi))
            · show rowData r.kind _ = _
              rw [hplaces, List.map_map]
              refine congrArg (rowData r.kind) (List.map_congr_left fun o _ => ?_)
              rw [← hplaces]
              exact lineData_of_mem hfound.mem _
            · rwa [rowWord_dev hword]

/-- A bit of the destination is the function of the sources' bits (R305). -/
theorem rowData_bit (kind : RowKind) (vs : List VWord) {b : Nat} (hb : b < 512) :
    (rowData kind vs).getLsbD b = rowBit kind (vs.map (·.getLsbD b)) := by
  have hget (i : Nat) : (vs.map (·.getLsbD b)).getD i false = (vs.getD i 0).getLsbD b := by
    rw [List.getD_eq_getElem?_getD, List.getD_eq_getElem?_getD, List.getElem?_map]
    cases vs[i]? with
    | none => simp
    | some v => rfl
  rw [rowBit.eq_def, hget, hget, hget]
  generalize hx : vs.getD 0 0 = x
  generalize hy : vs.getD 1 0 = y
  generalize hz : vs.getD 2 0 = z
  rw [rowData.eq_def, hx, hy, hz]
  cases kind with
  | rbool op =>
    cases op with
    | maj3 =>
      simp only [BitVec.getLsbD_or, BitVec.getLsbD_and]
      cases x.getLsbD b <;> cases y.getLsbD b <;> cases z.getLsbD b <;> rfl
    | xnor2 =>
      simp only [BitVec.getLsbD_not, BitVec.getLsbD_xor, hb, decide_true, Bool.true_and]
      cases x.getLsbD b <;> cases y.getLsbD b <;> rfl
    | _ => simp [hb]
  | rcopy => rfl
  | rfill => rfl
  | rpromo pin => rfl
  | rdemo => rfl

/-! ### A queued operation runs -/

theorem findRow_of_queued {s : State} {cl : Nat} {r : RowOp} (h : queuedRow s cl r) : s.findRow cl r.id = some r := h

theorem exec_rowOp_fails {s : State} {cl code : Nat} {r : RowOp} {dst : RowOperand} {rest : List RowOperand}
    (hq : queuedRow s cl r) (hops : r.operands = dst :: rest) (hstopped : s.ctx.stopped = false) (hrow : r.kind.isRow = true)
    (h : (s.rowsFound r).rowLines cl r dst rest (List.range 16) = .error code) : exec (.rowOpExecute cl r.id) s =
      .next (((s.rowsFound r).noteTier code (r.failedAt (s.rowsFound r).dev dst rest)).finishRow cl r code
        { RowFlags.none with fellback := !(s.rowsFound r).dramPath r }) := by
  have hexec : exec (.rowOpExecute cl r.id) s = execRowOpExecute cl r.id s := rfl
  rw [hexec, execRowOpExecute, State.engineRuns, hstopped, findRow_of_queued hq]
  dsimp only
  rw [hrow, hops]
  dsimp only
  rw [h]
  rfl

theorem exec_rowOp_runs {s u : State} {cl : Nat} {r : RowOp} {dst : RowOperand} {rest : List RowOperand} {ls : List RowLine}
    (hq : queuedRow s cl r) (hops : r.operands = dst :: rest) (hstopped : s.ctx.stopped = false) (hrow : r.kind.isRow = true)
    (h : (s.rowsFound r).rowLines cl r dst rest (List.range 16) = .ok (ls, u)) : exec (.rowOpExecute cl r.id) s =
      .next (((ls.foldl State.putRowLine u).noteTier (if ls.any fun l => l.poisoned then 4 else 0)
        (r.failedAt (s.rowsFound r).dev dst rest)).finishRow cl r (if ls.any fun l => l.poisoned then 4 else 0)
        { RowFlags.none with fellback := !(s.rowsFound r).dramPath r }) := by
  have hexec : exec (.rowOpExecute cl r.id) s = execRowOpExecute cl r.id s := rfl
  rw [hexec, execRowOpExecute, State.engineRuns, hstopped, findRow_of_queued hq]
  dsimp only
  rw [hrow, hops]
  dsimp only
  rw [h]
  rfl

theorem putRowLine_only (s : State) (l : RowLine) : DevOnly s (s.putRowLine l) := by
  unfold State.putRowLine
  dsimp only
  refine (((settle_dev s .device l.place).trans ?_).trans (engineBytes_ok _ _ _ _).1).trans (DevOnly.mapDev _ _)
  split
  · exact DevOnly.mapDev _ _
  · exact DevOnly.refl _

theorem putRowLines_only (ls : List RowLine) : ∀ s : State, DevOnly s (ls.foldl State.putRowLine s) := by
  induction ls with
  | nil => exact DevOnly.refl
  | cons l ls ih => exact fun s => (putRowLine_only s l).trans (ih _)

/-! ### Promotion (R309 to R311) -/

theorem rowOfKind_queued {s : State} {cl : Nat} {r : RowOp} {kind : RowKind → Bool} (hq : queuedRow s cl r)
    (hk : kind r.kind = true) : s.rowOfKind cl r.id kind = some r := by
  rw [State.rowOfKind, findRow_of_queued hq, Option.filter_some, if_pos hk]

theorem exec_rpromoComplete {s : State} {cl code : Nat} {r : RowOp} {o : RowOperand} {rest : List RowOperand} {pin : Bool}
    {flags : RowFlags} {d : Device} (hq : queuedRow s cl r) (hops : r.operands = o :: rest) (hstopped : s.ctx.stopped = false)
    (hk : r.kind = .rpromo pin) (h : s.dev.promote s.ctx.desc.ctxid pin o = (code, flags, d)) :
    exec (.rpromoComplete cl r.id) s = .next ((s.mapDev fun _ => d).finishRow cl r code flags) := by
  have hexec : exec (.rpromoComplete cl r.id) s = execRpromoComplete cl r.id s := rfl
  rw [hexec, execRpromoComplete, State.engineRuns, hstopped, rowOfKind_queued hq (by rw [hk]; rfl)]
  dsimp only
  rw [State.finishPromo, hk, hops]
  dsimp only
  rw [h]
  rfl

theorem exec_rdemoComplete {s : State} {cl : Nat} {r : RowOp} {o : RowOperand} {rest : List RowOperand} (hq : queuedRow s cl r)
    (hops : r.operands = o :: rest) (hstopped : s.ctx.stopped = false) (hk : r.kind = .rdemo) :
    exec (.rdemoComplete cl r.id) s = .next ((s.mapDev fun _ => (s.dev.demote o).2).finishRow cl r 0 (s.dev.demote o).1) := by
  have hexec : exec (.rdemoComplete cl r.id) s = execRdemoComplete cl r.id s := rfl
  rw [hexec, execRdemoComplete, State.engineRuns, hstopped, rowOfKind_queued hq (by rw [hk]; rfl)]
  dsimp only
  rw [State.finishPromo, hk, hops]
  rfl

theorem promote_mem (d : Device) (ctxid : Nat) (pin : Bool) (o : RowOperand) : (d.promote ctxid pin o).2.2.mem = d.mem := by
  unfold Device.promote
  split
  · rfl
  · dsimp only
    split
    · rfl
    · split <;> rfl

theorem demote_mem (d : Device) (o : RowOperand) : (d.demote o).2.mem = d.mem := by
  unfold Device.demote
  split
  · rfl
  · split <;> rfl

theorem slotsOf_setSlots (d : Device) (sub : Nat) (m : NatMap Slot) : (d.setSlots sub m).slotsOf sub = m := by
  rw [Device.slotsOf, Device.setSlots, lookupD]
  dsimp only
  rw [lookup_insertAt_same]
  rfl

/-- A demoted row is in no slot, where one at most held it. -/
theorem demote_gone {d : Device} {o : RowOperand} {sub row : Nat} (h : o.farRow d = some (sub, row))
    (hone : ((d.slotsOf sub).filter fun e => e.2.row == row).length ≤ 1) : slotWith ((d.demote o).2.slotsOf sub) row = none := by
  rw [Device.demote, h]
  dsimp only
  split
  · next hnone => exact hnone
  · next i hi =>
    dsimp only
    rw [slotsOf_setSlots, slotWith, Option.map_eq_none_iff, List.find?_eq_none]
    rw [slotWith, Option.map_eq_some_iff] at hi
    obtain ⟨e, he, rfl⟩ := hi
    intro x hx hrow
    obtain ⟨hx, hkey⟩ := List.mem_filter.mp hx
    have hxf := List.mem_filter (p := fun e : Nat × Slot => e.2.row == row) |>.mpr ⟨hx, hrow⟩
    have hef := List.mem_filter (p := fun e : Nat × Slot => e.2.row == row) |>.mpr ⟨List.mem_of_find?_eq_some he,
      List.find?_some (p := fun e : Nat × Slot => e.2.row == row) he⟩
    match hl : (d.slotsOf sub).filter fun e => e.2.row == row with
    | [] => rw [hl] at hxf; cases hxf
    | [y] =>
      rw [hl, List.mem_singleton] at hxf hef
      rw [hxf, ← hef] at hkey
      simp at hkey
    | y :: z :: l => rw [hl] at hone; simp at hone

end Sys2Proof.Claims

namespace Sys2Proof
open Machine Claims

/-- Settles O48: the operands captured at issue, the lines formed from the sources before any is written, the slots of a
subarray. -/
theorem rowOperations : Obligations.RowOperations := by
  unfold Obligations.RowOperations
  refine ⟨fun s t u v i kind pin k a regs ops ps ctl locks _ hp => ⟨fun hi hops halign hinbox htranslate hpermit hform hroom hlocks => ?_,
    fun hi hops hclass halign hinbox htranslate hpermit => ?_⟩,
    fun s u cl code r dst rest ls flags d hq hops hstopped => ⟨fun hrow h => ?_, fun hrow h => ?_, fun pin hk h => ?_, fun hk => ?_⟩⟩
  · subst hops
    obtain ⟨hvcore, hvfocus, -, -⟩ := lockRanges_ok hlocks
    have hu := (formConj_only hform).1
    have ht := rowTranslate_only htranslate
    have hcore : v.core = { s.core with lblstat := v.core.lblstat } := by
      have := accessOnly_core_eq hu
      rwa [ht.core, ← hvcore] at this
    refine ⟨_, (rowForms_exec hi s).trans (issueRow_enters hp halign hinbox htranslate hpermit hform hroom hlocks), ?_⟩
    have hqueued := enqueueRow_queued (kind := kind) (k := k) (ctl := ctl) (ps := ps) (locks := locks)
      (hvfocus.trans (hu.focus.trans ht.focus)) hcore
    rwa [find_status hpermit] at hqueued
  · subst hops
    have ht := rowTranslate_only htranslate
    refine ⟨_, (promoForms_exec hi s).trans (issuePromo_enters hp hclass halign hinbox htranslate hpermit), ?_⟩
    exact enqueueRow_queued ht.focus (by rw [ht.core])
  · obtain ⟨hfound, hsame, -⟩ := evictSome_dev s (r.lines s.dev)
    have hnote := noteTier_only (s.rowsFound r) code (r.failedAt (s.rowsFound r).dev dst rest)
    obtain ⟨hgone, hfree, hcounted⟩ := (finishRow_done _ cl r code { RowFlags.none with fellback := !(s.rowsFound r).dramPath r }).of_before
      (s' := s) (congrArg Core.k (DevOnly.coreAt (DevOnly.trans hfound hnote) cl r.core).symm)
    refine ⟨_, exec_rowOp_fails hq hops hstopped hrow h, hgone, hfree, hcounted, fun hstatus => ?_⟩
    rw [finishRow_plain _ _ _ _ hstatus]
    refine noteTier_dev _ _ _ ?_ ?_
    · exact (congrArg Device.counters hsame).symm
    · exact (congrArg Device.cxlFailed hsame).symm
  · obtain ⟨hfound, hsame, -⟩ := evictSome_dev s (r.lines s.dev)
    have hlines := rowLines_only _ h
    have hput := putRowLines_only ls u
    have hnote := noteTier_only (ls.foldl State.putRowLine u) (if ls.any fun l => l.poisoned then 4 else 0)
      (r.failedAt (s.rowsFound r).dev dst rest)
    have hbad : decide ((if ls.any fun l => l.poisoned then 4 else 0) ≠ 0) = ls.any fun l => l.poisoned := by
      cases ls.any fun l => l.poisoned <;> rfl
    have hall := ((EngineOnly.of_dev hfound).trans hlines).trans (EngineOnly.of_dev (DevOnly.trans hput hnote))
    obtain ⟨hgone, hfree, hcounted⟩ := (finishRow_done _ cl r (if ls.any fun l => l.poisoned then 4 else 0)
      { RowFlags.none with fellback := !(s.rowsFound r).dramPath r }).of_before (s' := s) (hall.k cl r.core).symm
    rw [hbad] at hcounted
    refine ⟨_, exec_rowOp_runs hq hops hstopped hrow h, hgone, hfree, hcounted, fun hstatus => ?_, fun hkept j hj => ?_⟩
    · rw [finishRow_plain _ _ _ _ hstatus]
      exact noteTier_dev _ _ _ rfl rfl
    · have hdata := rowLines_data _ h (LinesSame.refl _) fun o j ho hj => hkept o j ho (List.mem_range.mp hj)
      have hlen : ls.length = 16 := hdata.length_eq.symm
      obtain ⟨hplace, hl⟩ := hdata.get (i := j) (by simpa using hj) (by omega)
      refine ⟨ls[j], List.getElem?_eq_getElem (by omega), ?_, fun b hb => ?_⟩
      · simpa using hplace
      · have hj' : (List.range 16).get ⟨j, by simpa using hj⟩ = j := by simp
        rw [hj'] at hl
        rw [show ls[j] = ls.get ⟨j, by omega⟩ from rfl, hl, rowData_bit _ _ hb, List.map_map]
        rfl
  · obtain ⟨hgone, -, hcounted⟩ := finishRow_done (s.mapDev fun _ => d) cl r code flags
    refine ⟨_, exec_rpromoComplete hq hops hstopped hk h, hgone, hcounted, fun hstatus => ?_⟩
    have hdev := finishRow_plain (s.mapDev fun _ => d) cl code flags hstatus
    refine ⟨hdev, memoryKept_of_mem ?_⟩
    rw [hdev]
    have := promote_mem s.dev s.ctx.desc.ctxid pin dst
    rw [h] at this
    exact this
  · obtain ⟨hgone, -, hcounted⟩ := finishRow_done (s.mapDev fun _ => (s.dev.demote dst).2) cl r 0 (s.dev.demote dst).1
    refine ⟨_, exec_rdemoComplete hq hops hstopped hk, hgone, hcounted, fun hstatus => ?_⟩
    have hdev := finishRow_plain (s.mapDev fun _ => (s.dev.demote dst).2) cl 0 (s.dev.demote dst).1 hstatus
    rw [hdev]
    exact ⟨memoryKept_of_mem (by rw [hdev]; exact demote_mem ..), fun sub row hfar hone => demote_gone hfar hone⟩

end Sys2Proof
end

section
/-! PROOF. Base-die reduce (R313 to R317). -/

namespace Sys2Proof.Claims
open Machine

/-! ### The sum of a bag (R315) -/

theorem iredCombine_add (a b : Nat) : iredCombine 2 a b = (a + b) % 2 ^ 32 := rfl

theorem foldl_combine_add (l : List Nat) : ∀ a : Nat, l.foldl (iredCombine 2) a % 2 ^ 32 = (a + l.sum) % 2 ^ 32 := by
  induction l with
  | nil => exact fun a => rfl
  | cons b l ih =>
    intro a
    rw [List.foldl_cons, ih, iredCombine_add, List.sum_cons]
    omega

/-- The contributions of the stacks below `n`. -/
def stackSum (vs : List (Nat × Nat)) (n : Nat) : Nat := ((vs.filter fun v => decide (v.1 < n)).map Prod.snd).sum

theorem stackSum_succ (vs : List (Nat × Nat)) (n : Nat) :
    stackSum vs (n + 1) = stackSum vs n + ((vs.filter fun v => v.1 == n).map Prod.snd).sum := by
  induction vs with
  | nil => rfl
  | cons v vs ih =>
    rw [stackSum, stackSum] at ih ⊢
    simp only [List.filter_cons, decide_eq_true_eq, beq_iff_eq]
    by_cases hlt : v.1 < n
    · rw [if_pos (by omega), if_pos hlt, if_neg (by omega), List.map_cons, List.map_cons, List.sum_cons, List.sum_cons, ih, Nat.add_assoc]
    · by_cases heq : v.1 = n
      · rw [if_pos (by omega), if_neg hlt, if_pos heq, List.map_cons, List.map_cons, List.sum_cons, List.sum_cons, ih]
        omega
      · rw [if_neg (by omega), if_neg hlt, if_neg heq, ih]

theorem stackSum_all {vs : List (Nat × Nat)} {n : Nat} (h : ∀ v ∈ vs, v.1 < n) : stackSum vs n = (vs.map Prod.snd).sum := by
  rw [stackSum, List.filter_eq_self.mpr fun v hv => decide_eq_true (h v hv)]

/-- With add.i32 an element is the old one and its contributions, modulo 2 ^ 32, whatever stacks hold them. -/
theorem iredElement_add {old : Nat} {vs : List (Nat × Nat)} (hold : old < 2 ^ 32) (h : ∀ v ∈ vs, v.1 < 16) :
    iredElement 2 old vs = (old + (vs.map Prod.snd).sum) % 2 ^ 32 := by
  rw [iredElement, ← stackSum_all h]
  generalize 16 = n
  induction n with
  | zero =>
    rw [stackSum, List.filter_eq_nil_iff.mpr fun v _ => by simp]
    exact (Nat.mod_eq_of_lt hold).symm
  | succ n ih =>
    rw [List.range_succ, List.foldl_append, ih, List.foldl_cons, List.foldl_nil, stackSum_succ]
    generalize hs : (vs.filter fun v => v.1 == n).map Prod.snd = mine
    cases mine with
    | nil =>
      rw [List.sum_nil, Nat.add_zero]
    | cons p rest =>
      have hrest := foldl_combine_add rest p
      dsimp only
      rw [iredCombine_add, List.sum_cons]
      omega

theorem stackOf_lt (o : Nat) : stackOf o < 16 := Nat.mod_lt _ (by decide)

theorem iredLine_held {s : State} (p : Place) : (s.iredLine false p).1 = s.dev.lineData (lineOf p.loc) := by
  rw [State.iredLine]
  dsimp only
  split
  · rw [if_neg (fun h => Bool.false_ne_true h.1)]
  · rfl

theorem iredData_add {s : State} {op : Ired} {rows : List (List Place)} {dst : Place} {j e : Nat} (hop : op.op = 2)
    (hfast : op.fast = false) (he : e < 16) :
    lane32 (s.iredData op rows dst j).1 e = (lane32 (s.dev.lineData (lineOf dst.loc)) e +
      ((rows.filterMap fun r => r[j]?).map fun p => lane32 (s.dev.lineData (lineOf p.loc)) e).sum) % 2 ^ 32 := by
  have hlane (v : VWord) : lane32 v e = laneOf 32 v e := rfl
  rw [State.iredData, hop, hfast]
  dsimp only
  rw [hlane, ofLanes_lane (by rw [List.length_map, List.length_range]), getD_map_range _ _ he]
  simp only [iredLine_held, show ¬ ((2 : Nat) = 1) from by decide, if_false]
  have hold : lane 32 (s.dev.lineData (lineOf dst.loc)) e < 2 ^ 32 := laneOf_lt 32 _ e
  rw [iredElement_add hold, Nat.mod_mod, List.map_map]
  · rfl
  · intro v hv
    obtain ⟨p, -, rfl⟩ := List.mem_map.mp hv
    exact stackOf_lt p.loc

/-! ### Issue (R313, R314) -/

theorem foundAll_only (a : Agent) (ps : List Place) : ∀ s : State, DevOnly s (ps.foldl (·.found a ·) s) := by
  induction ps with
  | nil => exact DevOnly.refl
  | cons p ps ih => exact fun s => (settle_dev s _ p).trans (ih _)

theorem plainRead_only {s t : State} {pieces : List (Word × Nat)} {bs : List Byte} {ws : List LabelWord}
    (h : s.plainRead pieces = .ok (bs, ws, t)) : DevOnly s t := by
  rw [State.plainRead] at h
  obtain ⟨⟨ps, u⟩, htranslate, h⟩ := bind_ok h
  obtain ⟨_, _, h⟩ := bind_ok h
  obtain ⟨_, _, h⟩ := bind_ok h
  obtain ⟨_, _, h⟩ := bind_ok h
  obtain ⟨_, _, h⟩ := bind_ok h
  rw [← (Prod.mk.inj (Prod.mk.inj (Except.ok.inj h)).2).2]
  exact (translateAll_only _ _ _ (check_eq_ok htranslate)).devOnly.trans (foundAll_only _ _ _)

/-- The operation that IRED queues, from its descriptor's fields. -/
def queuedIred (s v : State) (fast : Bool) (k : Nat) (d : IredDesc) (idx : List Nat) (tp dp : List Place) (ctl : LabelWord)
    (locks : List Nat) : Ired :=
  let tables := idx.map fun i => rowVas (d.table + BitVec.ofNat 64 (i * d.tstride)) d.rowb
  let dsts := (List.range d.nbag).map fun b => rowVas (d.dst + BitVec.ofNat 64 (b * d.dstride)) d.dstb
  let rows := regroup tp (tables.map List.length)
  { id := v.dev.nextId, fast := fast, core := s.focus.core, record := s.core.crec, k := k, mode := s.core.status.mode, ctl := ctl
    op := d.op, rowb := d.rowb, bags := (chunks d.pool rows.length rows).zip (regroup dp (dsts.map List.length))
    statva := d.statva, locks := locks }

/-- IRED whose descriptor, index list and lines pass their checks is in flight. -/
theorem exec_ired {s s0 s1 s2 s3 s4 v : State} {fast : Bool} {k a : Nat} {raw : VWord} {lw ctl : LabelWord} {d : IredDesc}
    {bs : List Byte} {ws : List LabelWord} {idx locks : List Nat} {tp dp : List Place} (hp : plainCore s)
    (hread : s.readDescriptor (s.rdX a) = .ok (raw, lw, s0)) (hd : d = iredDescOf raw) (hok : d.ok raw = true)
    (hinbox : s.inboxCheck d.written = .ok ())
    (hlist : s0.plainRead (piecesOf d.idx (4 * (d.pool * d.nbag))) = .ok (bs, ws, s1))
    (hidx : idx = (List.range (d.pool * d.nbag)).map (fun i => natOf ((bs.drop (4 * i)).take 4)))
    (hrows : ∀ i, i ∈ idx → i < d.nrows)
    (htables : s1.translateAll s.me .read (idx.map fun i => rowVas (d.table + BitVec.ofNat 64 (i * d.tstride)) d.rowb).flatten
      = .ok (tp, s2))
    (hdsts : s2.translateAll s.me .write ((List.range d.nbag).map fun b =>
      rowVas (d.dst + BitVec.ofNat 64 (b * d.dstride)) d.dstb).flatten = .ok (dp, s3))
    (htp : permAll s.me .read tp = .ok ()) (hdp : permAll s.me .write dp = .ok ())
    (hplaces : ∀ p, p ∈ tp ++ dp → p.loc < 2 ^ 40 ∧ p.cmp = false) (hform : s3.formConj (s.labX a :: lw :: ws) = .ok (ctl, s4))
    (hroom : (s.myCluster.ireds.filter fun r => r.core == s.focus.core).length < Config.iredsPerCore)
    (hlocks : s4.lockRanges s.focus.cl s.focus.core .ired
      [((boundsOf d.dst d.nbag d.dstb d.dstride).1, (boundsOf d.dst d.nbag d.dstb d.dstride).2, true),
        (d.idx.toNat, 4 * (d.pool * d.nbag), false)] = some (locks, v)) :
    exec (.ired fast k a) s = .next ((v.takeId.2).mapCluster s.focus.cl fun c =>
      { c with ireds := c.ireds ++ [queuedIred s v fast k d idx tp dp ctl locks] }).complete := by
  have hany : idx.any (fun i => decide (i ≥ d.nrows)) = false :=
    List.any_eq_false.mpr fun i hi => by simpa using hrows i hi
  have hnear : (tp ++ dp).any (fun p => decide (p.loc ≥ 2 ^ 40) || p.cmp) = false :=
    List.any_eq_false.mpr fun p hp => by
      obtain ⟨hloc, hcmp⟩ := hplaces p hp
      rw [hcmp, decide_eq_false (Nat.not_le.mpr hloc)]
      decide
  have hexec : exec (.ired fast k a) s = execIred fast k a s := rfl
  rw [hexec, execIred, edgeGuard_plain hp, except_bind_ok, hread, except_bind_ok]
  dsimp only
  rw [← hd, hok, if_neg (by decide), hinbox, except_bind_ok, hlist, except_bind_ok]
  dsimp only
  rw [← hidx, hany, if_neg (by decide), htables, check_ok, except_bind_ok]
  dsimp only
  rw [hdsts, check_ok, except_bind_ok]
  dsimp only
  rw [htp, check_ok, except_bind_ok, hdp, check_ok, except_bind_ok, hnear, if_neg (by decide), hform, except_bind_ok]
  dsimp only
  rw [if_neg (show ¬ iredsInFlight s.myCluster s.focus.core ≥ Config.iredsPerCore from Nat.not_le.mpr hroom), hlocks, commit_ok]
  rfl

/-! ### Execution (R315 to R317) -/

theorem seenLine_only (base s : State) (line : Nat) : DevOnly s (base.seenLine s line) := by
  unfold State.seenLine
  split
  · exact DevOnly.mapDev _ _
  · exact DevOnly.refl s

theorem seenLines_only (base : State) (lines : List Nat) : ∀ s : State, DevOnly s (lines.foldl (fun u l => base.seenLine u l) s) := by
  induction lines with
  | nil => exact DevOnly.refl
  | cons l ls ih => exact fun s => (seenLine_only base s l).trans (ih _)

theorem putIredLines_only (ls : List IredLine) : ∀ s : State, DevOnly s (ls.foldl State.putIredLine s) := by
  induction ls with
  | nil => exact DevOnly.refl
  | cons l ls ih =>
    intro s
    refine DevOnly.trans ?_ (ih _)
    unfold State.putIredLine
    dsimp only
    refine DevOnly.trans ?_ (engineBytes_ok _ _ _ _).1
    split
    · exact DevOnly.mapDev _ _
    · exact DevOnly.refl s

theorem iredRead_only (cl : Nat) (op : Ired) (jobs : List (List (List Place) × Place × Nat)) :
    ∀ s : State, EngineOnly s (s.iredRead cl op jobs).2.2.2 := by
  induction jobs with
  | nil => exact EngineOnly.refl
  | cons x jobs ih =>
    obtain ⟨rows, dst, j⟩ := x
    intro s
    rw [State.iredRead.eq_def]
    dsimp only
    split
    · next w t hform =>
      refine EngineOnly.trans ?_ (ih t)
      obtain ⟨⟨w', fit, u⟩, hfit, h⟩ := bind_ok hform
      dsimp only at h
      split at h
      · exact (engineFit_only hfit).trans (partialLabel_only h)
      · obtain ⟨_, _, h⟩ := bind_ok h
        cases h
        exact engineFit_only hfit
    · exact ih s
    · exact ih s
    · exact ih s

/-- The operation has left its list, its ranges are free, and it has counted once at its core's counter. -/
structure IredDone (s t : State) (cl : Nat) (r : Ired) (bad : Bool) : Prop where
  gone : ∀ x, x ∈ (t.cluster cl).ireds → x.id ≠ r.id
  free : ∀ l, l ∈ (t.cluster cl).locks → l.id ∉ r.locks
  counted : counted (s.coreAt cl r.core) (t.coreAt cl r.core) r.k 1 bad

theorem IredDone.of_before {s s' t : State} {cl : Nat} {r : Ired} {bad : Bool} (h : IredDone s t cl r bad)
    (hk : (s'.coreAt cl r.core).k = (s.coreAt cl r.core).k) : IredDone s' t cl r bad :=
  ⟨h.gone, h.free, counted_congr h.counted hk rfl⟩

theorem coreAt_mapIreds (s : State) (cl : Nat) (f : List Ired → List Ired) (cl' c : Nat) :
    (s.mapCluster cl fun k => { k with ireds := f k.ireds }).coreAt cl' c = s.coreAt cl' c :=
  coreAt_mapCluster s cl (fun k => { k with ireds := f k.ireds }) (fun _ => rfl) cl' c

theorem finishIred_done (s : State) (cl : Nat) (r : Ired) (code : Nat) :
    IredDone s (s.finishIred cl r code) cl r (decide (code ≠ 0)) := by
  unfold State.finishIred
  extract_lets s1 s2
  have hcore (c : Nat) : s2.coreAt cl c = s.coreAt cl c :=
    (coreAt_mapIreds ..).trans ((coreAt_unlock ..).trans (DevOnly.coreAt (statusWrite_ok ..).1 cl c))
  have hcluster := mapCoreAt_cluster s2 cl r.core (·.bump r.k 1 (decide (code ≠ 0))) cl
  have hireds : (s2.cluster cl).ireds = ((s1.unlock cl r.locks).cluster cl).ireds.filter fun x => x.id != r.id := by
    simp only [s2]
    rw [State.cluster_mapCluster_same]
  have hlocks : (s2.cluster cl).locks = (s1.cluster cl).locks.filter fun l => !r.locks.contains l.id := by
    simp only [s2]
    rw [State.cluster_mapCluster_same, State.unlock, State.cluster_mapCluster_same]
  refine ⟨fun x hx => ?_, fun l hl => ?_, ?_⟩
  · have hx2 : x ∈ (s2.cluster cl).ireds := by rwa [← hcluster]
    rw [hireds] at hx2
    simpa using List.of_mem_filter hx2
  · have hl2 : l ∈ (s2.cluster cl).locks := by rwa [← hcluster]
    rw [hlocks] at hl2
    simpa using List.of_mem_filter hl2
  · rw [State.bumpAt, State.coreAt_mapCoreAt_same, hcore]
    exact bump_counted ..

/-- An IRED that runs leaves, whatever its read phase finds. -/
theorem iredExecute_done {s : State} {cl : Nat} {op : Ired} (hstopped : s.ctx.stopped = false)
    (hop : ((s.cluster cl).ireds.find? fun r => r.id == op.id) = some op) :
    ∃ t bad, exec (.iredExecute cl op.id) s = .next t ∧ IredDone s t cl op bad := by
  have hexec : exec (.iredExecute cl op.id) s = execIredExecute cl op.id s := rfl
  rw [hexec, execIredExecute, State.engineRuns, hstopped, hop, if_neg Bool.false_ne_true]
  dsimp only
  generalize List.map _ op.bags = bags
  generalize hall : bags.flatMap (fun b => b.1.flatten ++ b.2) = all
  generalize hjobs : bags.flatMap (fun b => b.2.mapIdx fun j p => (b.1, p, j)) = jobs
  generalize hs' : all.foldl (·.settle .device ·) s = s'
  have hsettled : EngineOnly s s' := hs' ▸ .of_dev (settleAll_only .device all s)
  have hread := iredRead_only cl op jobs s'
  generalize s'.iredRead cl op jobs = read at hread
  obtain ⟨ls, fs, pg, t⟩ := read
  dsimp only
  have hseen (u : State) : EngineOnly u (if op.fast = true then
      ((all.map fun p => lineOf p.loc).eraseDups).foldl (fun u l => s'.seenLine u l) u else u) := by
    split
    · exact .of_dev (seenLines_only ..)
    · exact .refl u
  split
  · refine ⟨_, _, rfl, (finishIred_done _ cl op 0).of_before (EngineOnly.k ?_ cl op.core).symm⟩
    exact ((hsettled.trans hread).trans (hseen t)).trans (.of_dev ((putIredLines_only ls _).trans (DevOnly.drawn _)))
  · refine ⟨_, _, rfl, (finishIred_done _ cl op _).of_before (EngineOnly.k ?_ cl op.core).symm⟩
    exact (hsettled.trans (hseen s')).trans (.of_dev ((DevOnly.drawn _).trans (noteTier_only ..)))

end Sys2Proof.Claims

namespace Sys2Proof
open Machine Claims

/-- Settles O49: the sum over the stacks is the sum over the rows; IRED's checks in their order; both phases of its run. -/
theorem baseDieReduce : Obligations.BaseDieReduce := by
  unfold Obligations.BaseDieReduce
  refine ⟨fun s op rows dst j e hop hfast he => iredData_add hop hfast he,
    fun s s0 s1 s2 s3 s4 v fast k a cl raw lw ctl d bs ws idx locks tp dp op _ _ =>
      ⟨fun hp hread hd hok hinbox hlist hidx hrows htables hdsts htp hdp hplaces hform hroom hlocks => ?_, fun hstopped hop => ?_⟩⟩
  · obtain ⟨hvcore, hvfocus, -, -⟩ := lockRanges_ok hlocks
    have hu := (formConj_only hform).1
    have hs3 : DevOnly s s3 := ((readDescriptor_only hread).trans (plainRead_only hlist)).trans
      ((translateAll_only _ _ _ htables).trans (translateAll_only _ _ _ hdsts)).devOnly
    have hcore : v.core = { s.core with lblstat := v.core.lblstat } := by
      have := accessOnly_core_eq hu
      rwa [hs3.core, ← hvcore] at this
    have hfocus : v.focus = s.focus := hvfocus.trans (hu.focus.trans hs3.focus)
    refine ⟨_, queuedIred s v fast k d idx tp dp ctl locks, exec_ired hp hread hd hok hinbox hlist hidx hrows htables hdsts htp hdp
      hplaces hform hroom hlocks, ?_, rfl, rfl, rfl, rfl, rfl, rfl, rfl, rfl, ?_, ⟨?_, ?_⟩, fun hmem => memoryKept_of_mem hmem⟩
    · show (State.cluster (State.mapCluster _ s.focus.cl _) v.focus.cl).ireds = _
      rw [hfocus, State.cluster_mapCluster_same, State.myCluster, hfocus]
      rfl
    · show v.core.complete.regs = _
      rw [Core.complete_regs, hcore]
    · show v.core.complete.pending = _
      rw [Core.complete_pending, hcore]
    · show v.core.complete.streams = _
      rw [Core.complete_streams, hcore]
  · obtain ⟨t, bad, hexec, hgone, hfree, hcounted⟩ := iredExecute_done hstopped hop
    exact ⟨t, bad, hexec, hgone, hfree, hcounted⟩

end Sys2Proof
end

section
/-! PROOF. EDGERUN and the ends of an invocation (R327 to R330, R337, R341). -/

namespace Sys2Proof.Claims
open Machine

/-! ### What an invocation refuses (R330) -/

theorem edgeGuard_invoked {s : State} {e : EdgeRole} {i : Invocation} (h : invoked s e i) (kind : Nat) (addr : Word) :
    s.edgeGuard kind addr = .error (s.trap .edgestore kind addr) := by
  obtain ⟨hedge, hinv, hdepth⟩ := h
  rw [State.edgeGuard, hedge]
  exact if_pos ⟨by rw [hinv]; rfl, hdepth⟩

theorem traps_of_guard {s : State} {e : EdgeRole} {i : Invocation} {j : Instr} {kind : Nat} {addr : Word} (h : invoked s e i)
    (hguard : ∃ f, exec j s = commit s (s.edgeGuard kind addr >>= f)) : traps j s .edgestore kind addr := by
  obtain ⟨f, hexec⟩ := hguard
  exact traps_of_commit hexec (by rw [edgeGuard_invoked h, except_bind_error])

theorem rejoins_invoked {s : State} {e : EdgeRole} {i : Invocation} (h : invoked s e i) : s.rejoins = false := by
  obtain ⟨hedge, hinv, -⟩ := h
  rw [State.rejoins, hedge, Option.any_some, hinv]
  rfl

/-- The address of a scatter is that of its first active lane. -/
theorem head_guard {l : List Nat} {ea : Nat → Word} {kind : Nat} {addr : Word}
    (h : (l.head?.map fun i => (1, ea i)) = some (kind, addr)) : kind = 1 ∧ addr = (l.map ea).headD 0 := by
  cases l with
  | nil => cases h
  | cons i l =>
    cases h
    exact ⟨rfl, rfl⟩

/-- An access that checks first for an invocation, within a form. -/
theorem guarded_bind {α : Type} {s : State} {o : Out} {kind : Nat} {addr : Word} {access : Result α}
    (hform : ∃ g, o = commit s (access >>= g)) (haccess : ∃ m, access = s.edgeGuard kind addr >>= m) :
    ∃ f, o = commit s (s.edgeGuard kind addr >>= f) := by
  obtain ⟨g, rfl⟩ := hform
  obtain ⟨m, rfl⟩ := haccess
  exact ⟨fun u => m u >>= g, by rw [bind_assoc]⟩

/-- The forms that an invocation refuses check for it before anything else. -/
theorem refusedForm_guards {s : State} {j : Instr} {kind : Nat} {addr : Word} (hwf : j.wf = true) (hrejoins : s.rejoins = false)
    (h : refusedForm s j = some (kind, addr)) : ∃ f, exec j s = commit s (s.edgeGuard kind addr >>= f) := by
  rw [refusedForm.eq_def] at h
  split at h
  case h_1 => cases h; rw [← scalarEa_eq]; exact ⟨_, rfl⟩
  case h_2 => cases h; rw [← scalarEa_eq]; exact ⟨_, rfl⟩
  case h_3 => cases h; rw [← scalarEa_eq]; exact ⟨_, rfl⟩
  case h_4 => cases h; rw [← scalarEa_eq]; exact ⟨_, rfl⟩
  case h_5 => cases h; rw [← scalarEa_eq]; exact ⟨_, rfl⟩
  case h_6 => cases h; rw [← vectorEa_eq]; exact ⟨_, rfl⟩
  case h_7 =>
    obtain ⟨rfl, rfl⟩ := head_guard h
    exact ⟨_, rfl⟩
  case h_8 a b pg =>
    obtain ⟨rfl, rfl⟩ := head_guard h
    rw [← index_eq]
    exact ⟨_, rfl⟩
  case h_15 => cases h; exact guarded_bind ⟨_, rfl⟩ ⟨_, rfl⟩
  case h_16 => cases h; exact guarded_bind ⟨_, rfl⟩ ⟨_, rfl⟩
  case h_17 => cases h; exact guarded_bind ⟨_, rfl⟩ ⟨_, rfl⟩
  case h_18 => cases h; exact guarded_bind ⟨_, rfl⟩ ⟨_, rfl⟩
  case h_53 k a =>
    by_cases hgrant : s.grantValue = none
    · rw [if_pos hgrant] at h
      cases h
      have hexec : exec (.edgerun k a) s = execEdgerun k a s := rfl
      rw [hexec, execEdgerun, hgrant, hrejoins]
      exact ⟨_, rfl⟩
    · rw [if_neg hgrant] at h
      cases h
  case h_54 kinds scope =>
    by_cases hkinds : 8 ≤ kinds
    · rw [if_pos hkinds] at h
      cases h
      have hbit : kinds.testBit 3 = true := (fence_bit3 (of_decide_eq_true hwf).2).trans (decide_eq_true hkinds)
      have hexec : exec (.fence kinds scope) s = execFence kinds scope s := rfl
      rw [hexec, execFence, if_pos hbit]
      exact ⟨_, rfl⟩
    · rw [if_neg hkinds] at h
      cases h
  case h_55 => cases h
  all_goals (cases h; exact ⟨_, rfl⟩)

/-! ### EDGERUN (R327, R328, R337) -/

theorem alignAll_misalign {s : State} {va : Word} {n : Nat} (hva : va.toNat % n ≠ 0) :
    s.check (alignAll .read n [va]) = .error (s.trap .misalign 0 va) := by
  rw [alignAll, List.find?_cons, decide_eq_true hva]
  rfl

theorem joinRun_joined {v q : State} {new : EdgeRun} {k : Nat} {ctl : LabelWord} (hnew : new.phase = .joining)
    (h : q.myCluster.runs = joinRun v.myCluster.runs new v.focus.core k ctl) : joinedRun v q new k ctl := by
  unfold joinedRun
  rw [h]
  unfold joinRun
  extract_lets mine r0 r others
  refine ⟨fun r' hr' hmine => ?_, fun r' joins hr' hjoins => ?_⟩
  · have hothers : r' ∈ others := List.mem_filter.mpr ⟨hr', by rw [hmine]; rfl⟩
    split
    · exact List.mem_append_left _ hothers
    · exact List.mem_append_left _ hothers
  · have hr0 : r' = r0 ∧ r'.phase = .joining := by
      rcases hr' with hr' | ⟨hr', rfl⟩
      · refine ⟨by rw [show r0 = r' from by show (List.find? mine _).getD new = r'; rw [hr']; rfl], ?_⟩
        have := List.find?_some hr'
        simp only [mine, Bool.and_eq_true, beq_iff_eq] at this
        exact this.1.1
      · exact ⟨by show _ = (List.find? mine _).getD _; rw [hr']; rfl, hnew⟩
    obtain ⟨rfl, hphase⟩ := hr0
    subst hjoins
    by_cases hall : (r0.cores.all fun c => (lookup r.joins c).isSome) = true
    · rw [if_pos hall, if_pos hall]
      exact List.mem_append_right _ (List.mem_singleton.mpr rfl)
    · rw [if_neg hall, if_neg hall, ← hphase]
      exact List.mem_append_right _ (List.mem_singleton.mpr rfl)

/-- The state in which an EDGERUN of `s` has joined its run, `v` being as its reads and its label leave it. -/
def edgeJoin (s v : State) (k : Nat) (va : Word) (d : EdgeDesc) (ctl : LabelWord) : State :=
  ((v.drain.mapCluster s.focus.cl fun c =>
    { c with runs := joinRun c.runs (newRun d va s.core.crec s.core.status.mode (s.group d.g).coreMembers) s.focus.core k ctl }).mapCore
    fun c => { c with edge := some ⟨k, c.regs, c.pc, c.issue, none, 0⟩ }).parkAt .edgerun

theorem edgeJoin_joined {s v : State} {k : Nat} {va : Word} {d : EdgeDesc} {ctl : LabelWord} (hfocus : v.focus = s.focus) :
    joinedRun v (edgeJoin s v k va d ctl) (newRun d va s.core.crec s.core.status.mode (s.group d.g).coreMembers) k ctl := by
  refine joinRun_joined rfl ?_
  rw [hfocus]
  have hfc : s.focus.cl = v.focus.cl := by rw [hfocus]
  rw [edgeJoin, hfc]
  exact congrArg Cluster.runs (State.cluster_mapCluster_same v.drain v.focus.cl _)

/-- What EDGERUN leaves of the registers when its run has ended. -/
theorem afterRun_keeps (r : Regs) (n : Nat) : (∀ d, d = 4 ∨ d = 63 → fileGet (by decide) (r.afterRun n).x d = fileGet (by decide) r.x d ∧
      fileGet (by decide) (r.afterRun n).xl d = fileGet (by decide) r.xl d) ∧
    (r.afterRun n).fcsr = r.fcsr ∧ (r.afterRun n).bankA = r.bankA := by
  refine ⟨fun d hd => ?_, rfl, rfl⟩
  rcases hd with rfl | rfl
  · exact ⟨(fileGet_filePut_ne _ _ _ (by decide) (by decide) (by decide)).trans (fileGet_filePut_same _ _ _ _),
      (fileGet_filePut_ne _ _ _ (by decide) (by decide) (by decide)).trans (fileGet_filePut_same _ _ _ _)⟩
  · exact ⟨fileGet_filePut_same _ _ _ _, fileGet_filePut_same _ _ _ _⟩

/-- What EDGERUN does when no join of its own and no grant stand. -/
theorem exec_edgerun {s : State} {k a : Nat} (hp : plainCore s) (hgrant : s.grantValue = none) (hrejoins : s.rejoins = false)
    {r : Result State}
    (h : (do
      if s.core.gang = none then .error (s.trap .catchTrap 1 0)
      if !s.core.loops.isEmpty then .error (s.trap .loopsusp 0 0)
      s.check (alignAll .read 64 [s.rdX a])
      let (bs, ws, t) ← s.plainRead [(s.rdX a, 64), (s.rdX a + 64, 64)]
      let raw : BitVec 1024 := BitVec.ofNat 1024 (natOf bs)
      let d := edgeDescOf raw
      let grp := s.group d.g
      let clash := s.myCluster.runs.any fun r => r.phase == .joining && r.desc.g == d.g && r.va != s.rdX a
      if !d.ok raw s.ctx ∨ !grp.sweepOnly ∨ clash then .error (s.illegal 9 0)
      s.inboxCheck d.written
      if !grp.isMember s.focus.core then .error (s.trap .catchTrap (2 + 256 * d.g) 0)
      if grp.coreMembers.any grp.flag then .error (s.trap .catchTrap (3 + 256 * d.g) 0)
      let (ctl, t) ← t.formConj (s.labX a :: ws)
      .ok (edgeJoin s t k (s.rdX a) d ctl)) = r) :
    exec (.edgerun k a) s = commit s r := by
  have hexec : exec (.edgerun k a) s = execEdgerun k a s := rfl
  rw [hexec, execEdgerun, hgrant, hrejoins, edgeGuard_plain hp]
  exact congrArg (commit s) h

/-! ### The core's run -/

theorem mapMyRun_runs (s : State) (f : EdgeRun → EdgeRun) :
    (s.mapMyRun f).myCluster.runs = s.myCluster.runs.map fun r =>
      if (lookup r.joins s.focus.core).isSome && (r.phase == .running || r.phase == .paused) then f r else r :=
  congrArg Cluster.runs (State.cluster_mapCluster_same s s.focus.cl _)

theorem combines_iff {s : State} {r : EdgeRun} : ((lookup r.joins s.focus.core).isSome && (r.phase == .running || r.phase == .paused)) = true ↔
    combines s r := by
  rw [combines, Bool.and_eq_true, Bool.or_eq_true, beq_iff_eq, beq_iff_eq]

theorem mem_mapMyRun_of_combines {s : State} {f : EdgeRun → EdgeRun} {r : EdgeRun} (hr : r ∈ s.myCluster.runs) (h : combines s r) :
    f r ∈ (s.mapMyRun f).myCluster.runs := by
  rw [mapMyRun_runs]
  exact List.mem_map.mpr ⟨r, hr, if_pos (combines_iff.mpr h)⟩

theorem mem_mapMyRun_of_not {s : State} {f : EdgeRun → EdgeRun} {r : EdgeRun} (hr : r ∈ s.myCluster.runs)
    (h : combines s r → f r = r) : r ∈ (s.mapMyRun f).myCluster.runs := by
  rw [mapMyRun_runs]
  refine List.mem_map.mpr ⟨r, hr, ?_⟩
  split
  · exact h (combines_iff.mp ‹_›)
  · rfl

theorem mem_insertNat (a : Nat) : (l : List Nat) → a ∈ insertNat a l
  | [] => List.mem_singleton.mpr rfl
  | b :: l => by
    rw [insertNat]
    split
    · exact List.mem_cons_self
    · split
      · next hab => exact hab ▸ List.mem_cons_self
      · exact List.mem_cons_of_mem b (mem_insertNat a l)

/-- The scan of one core of a map, its position moved to its end. -/
theorem lookup_stopped {core : Nat} {y : Scan} : {l : NatMap Scan} → lookup l core = some y →
    lookup (l.map fun e => if e.1 = core then (e.1, { e.2 with pos := e.2.stop }) else e) core = some { y with pos := y.stop }
  | (j, z) :: l, h => by
    rw [lookup] at h
    rw [List.map_cons]
    by_cases hj : j = core
    · rw [if_pos hj] at h
      rw [if_pos hj, lookup, if_pos hj, Option.some.inj h]
    · rw [if_neg hj] at h
      rw [if_neg hj, lookup, if_neg hj]
      exact lookup_stopped h

theorem invocation_invoked {s : State} {e : EdgeRole} {i : Invocation} (h : invoked s e i) : s.invocation = .ok i := by
  obtain ⟨hedge, hinv, hdepth⟩ := h
  rw [State.invocation, hedge]
  dsimp only
  rw [hinv, hdepth]
  rfl

theorem invocation_plain {s : State} (h : plainCore s) : s.invocation = .error (s.illegal 8 0) := by
  rw [State.invocation]
  cases hedge : s.core.edge with
  | none => rfl
  | some e =>
    dsimp only
    rcases h e hedge with hinv | hdepth
    · rw [hinv]
    · cases hinv : e.inv with
      | none => rfl
      | some i =>
        cases hd : e.depth with
        | zero => exact absurd hd hdepth
        | succ n => rfl

theorem endInvocation_ended {s t : State} {e : EdgeRole} (hcore : t.core = s.core.endInvocation) (hedge : s.core.edge = some e)
    (hpending : s.core.pending = []) : invocationEnded t e ∧ t.core.regs = s.core.regs := by
  rw [invocationEnded, hcore, Core.endInvocation, hedge]
  exact ⟨⟨rfl, rfl, rfl, rfl, rfl, hpending⟩, rfl⟩

end Sys2Proof.Claims

namespace Sys2Proof
open Machine Claims

/-- Settles O50. -/
theorem edgeReturns : Obligations.EdgeReturns := by
  intro s u k a w e i hk ha
  have hret : exec (.edgeret a) s = execEdgeret a s := rfl
  have hskip : exec .edgeskip s = execEdgeskip s := rfl
  have hdone : exec .edgedone s = execEdgedone s := rfl
  refine ⟨fun hp hgrant hrejoins => ⟨fun hgang => ?_, fun hgang hloops => ?_, fun hgang hloops hva => ?_, ?_⟩, fun hgrant hrejoins => ?_,
    fun hinv j kind addr hwf href => traps_of_guard hinv (refusedForm_guards hwf (rejoins_invoked hinv) href),
    fun hp j hj => ?_, fun hgrant => ?_, fun hinv => ⟨fun hform hcond => ?_, ?_, ?_⟩⟩
  · exact traps_of_commit (exec_edgerun hp hgrant hrejoins (by rw [if_pos hgang]; rfl)) rfl
  · exact traps_of_commit (exec_edgerun hp hgrant hrejoins (by rw [if_neg hgang, if_pos (by simpa using hloops)]; rfl)) rfl
  · exact traps_of_commit (exec_edgerun hp hgrant hrejoins
      (by rw [if_neg hgang, if_neg (by simpa using hloops), alignAll_misalign hva]; rfl)) rfl
  · intro t v bs ws d ctl hgang hloops hva hread hd hok hsweep hclash hinbox hmember hflag hform
    have hempty : (!s.core.loops.isEmpty) = false := by rw [hloops]; rfl
    have hsame : (s.myCluster.runs.any fun r => r.phase == .joining && r.desc.g == d.g && r.va != s.rdX a) = false := by
      rw [List.any_eq_false]
      intro r hr hmine
      simp only [Bool.and_eq_true, beq_iff_eq, bne_iff_ne] at hmine
      exact hmine.2 (hclash r hr hmine.1.1 hmine.1.2)
    have hflags : ((s.group d.g).coreMembers.any (s.group d.g).flag) = false :=
      List.any_eq_false.mpr fun c hc => by rw [hflag c hc]; exact Bool.false_ne_true
    have ht : DevOnly s t := plainRead_only hread
    have hv := formConj_formed hform
    obtain ⟨hfocus, -, -, -⟩ := hv.rest
    have hfs : v.focus = s.focus := hfocus.trans ht.focus
    subst hd
    have hexec := exec_edgerun (k := k) (a := a) hp hgrant hrejoins (r := .ok (edgeJoin s v k (s.rdX a)
        (edgeDescOf (BitVec.ofNat 1024 (natOf bs))) ctl)) (by
      rw [if_neg hgang, if_neg (by rw [hempty]; exact Bool.false_ne_true), alignAll_one hva, hread]
      dsimp only [State.check, bind, Except.bind, pure, Except.pure]
      rw [hok, hsweep, hsame, hinbox, hmember, hflags, hform]
      rfl)
    refine ⟨_, hexec, rfl, rfl, rfl, ⟨_, rfl, rfl, rfl, ?_⟩, edgeJoin_joined hfs⟩
    rw [show s.core.pc = v.drain.core.pc from ?_]
    · rfl
    · have hcore := hv.same
      rw [coreSame] at hcore
      exact (congrArg Core.pc ht.core).symm.trans (congrArg Core.pc hcore).symm
  · have hexec : exec (.edgerun k a) s = execEdgerun k a s := rfl
    rw [hexec, execEdgerun, hgrant, hrejoins]
    exact ⟨_, rfl, rfl, rfl, rfl⟩
  · simp only [List.mem_cons, List.not_mem_nil, or_false] at hj
    have hill : s.invocation = .error (s.trap .illegal (illegalInfo s 8) 0) := by rw [invocation_plain hp, illegal_eq]
    rcases hj with rfl | rfl | rfl
    · rw [execEdgeret] at hret
      exact traps_of_commit hret (by rw [hill, except_bind_error])
    · rw [execEdgeskip] at hskip
      exact traps_of_commit hskip (by rw [hill, except_bind_error])
    · rw [execEdgedone] at hdone
      exact traps_of_commit hdone (by rw [hill, except_bind_error])
  · have hexec : exec (.edgerun k a) s = execEdgerun k a s := rfl
    rw [execEdgerun, if_pos (Option.isSome_iff_ne_none.mpr hgrant)] at hexec
    obtain ⟨hx, hfcsr, hbank⟩ := afterRun_keeps s.core.regs s.fresh
    refine ⟨_, hexec, ?_⟩
    simp only [x, xl, State.complete_core, Core.complete_regs, Core.complete_k]
    refine ⟨(hx 4 (.inl rfl)).1, (hx 63 (.inr rfl)).1, (hx 4 (.inl rfl)).2, (hx 63 (.inr rfl)).2, hfcsr, hbank, ?_, rfl, rfl,
      ⟨rfl, rfl, rfl, rfl⟩, fun _ => rfl⟩
    have hpc := congrArg Core.pc (complete_frame s.core (s.core.regs.afterRun s.fresh) s.core.pending s.core.streams s.core.lblstat)
    exact hpc
  · rw [execEdgeret, invocation_invoked hinv, except_bind_ok, show s.runCtl = s.drain.runCtl from rfl, hform, except_bind_ok] at hret
    dsimp only at hret
    have hv := formConj_formed hform
    have hclass : ¬ (u.core.lblcfg.strict = true ∧ classOf u.ctx.world.nogoods (u.eval w) = .cond) := by
      have hcfg : s.core.lblcfg = u.core.lblcfg := by
        have := hv.same
        rw [coreSame] at this
        exact (congrArg Core.lblcfg this).symm
      exact fun ⟨hstrict, hcls⟩ => hcond (hcfg ▸ hstrict) hcls
    rw [if_neg hclass] at hret
    refine ⟨_, hret, ?_⟩
    obtain ⟨hfocus, -, -, hdev⟩ := hv.rest
    have hedge : u.core.edge = some e := by
      have := hv.same
      rw [coreSame] at this
      exact (congrArg Core.edge this).trans hinv.1
    obtain ⟨hended, hregs⟩ := endInvocation_ended (s := u)
      (t := (u.mapMyRun fun r => { r with given := insertAt s.focus.core (i.v, u.rdX a, w) r.given }).mapCore Core.endInvocation)
      rfl hedge hv.pending
    have hruns : u.myCluster.runs = s.myCluster.runs := by
      obtain ⟨extra, hctx⟩ := hv.ctx
      rw [State.myCluster, hfocus, State.cluster, hctx]
      rfl
    have hlatch : u.core.latch = s.drain.core.latch := by
      have := congrArg Core.latch hv.same
      exact this
    have hrd : u.rdX a = s.drain.rdX a := by rw [State.rdX, State.rdX, State.src, State.src, hv.regs, hlatch]
    have hcombines (r : EdgeRun) : combines u r ↔ combines s r := by rw [combines, combines, hfocus]; rfl
    refine ⟨hended, hregs.trans hv.regs, fun r hr hcomb => ?_, fun r hr hnot => ?_, hdev⟩
    · rw [← hrd]
      exact mem_mapMyRun_of_combines (hruns ▸ hr) ((hcombines r).mpr hcomb)
    · exact mem_mapMyRun_of_not (hruns ▸ hr) fun hcomb => absurd ((hcombines r).mp hcomb) hnot
  · rw [execEdgeskip, invocation_invoked hinv, except_bind_ok] at hskip
    obtain ⟨hended, hregs⟩ := endInvocation_ended (s := s.drain) (t := s.drain.mapCore Core.endInvocation) rfl hinv.1 rfl
    exact ⟨_, hskip, hended, hregs, rfl, rfl⟩
  · rw [execEdgedone, invocation_invoked hinv, except_bind_ok] at hdone
    refine ⟨_, hdone, ?_⟩
    obtain ⟨hended, hregs⟩ := endInvocation_ended (s := s.drain) (t := s.drain.mapCore Core.endInvocation) rfl hinv.1 rfl
    refine ⟨hended, hregs, rfl, fun r hr hnot => ?_, fun r hr hcomb hpull => ?_⟩
    · exact mem_mapMyRun_of_not (s := s.drain) hr fun hcomb => if_neg fun hpull => hnot ⟨hcomb, hpull⟩
    · refine ⟨_, mem_mapMyRun_of_combines (s := s.drain) hr hcomb, ?_⟩
      rw [if_pos hpull]
      refine ⟨rfl, mem_insertNat _ _, fun x hx => ?_⟩
      exact ⟨_, lookup_stopped hx, rfl⟩

end Sys2Proof
end

section
/-! PROOF. Matrix commands at issue (R191, R245 to R254). -/

namespace Sys2Proof.Claims
open Machine

/-! ### Engines and their queues -/

theorem mengine_mapMengine (s : State) (cl crew : Nat) (f : MEngine → MEngine) :
    (s.mapMengine cl crew f).mengine cl crew = f (s.mengine cl crew) := by
  rw [State.mengine, State.mapMengine, State.cluster_mapCluster_same]
  simp [Cluster.engine, Cluster.mapEngine, modifyAt, lookupD, State.mengine]

theorem mengine_mapCluster {s : State} {cl : Nat} {f : Cluster → Cluster} (hf : (f (s.cluster cl)).engines = (s.cluster cl).engines)
    (cl' crew : Nat) : (s.mapCluster cl f).mengine cl' crew = s.mengine cl' crew := by
  rw [State.mengine, State.mengine]
  by_cases hcl : cl' = cl
  · rw [hcl, State.cluster_mapCluster_same, Cluster.engine, hf]
    rfl
  · rw [State.cluster_mapCluster_other _ _ hcl]

/-- Of a cluster only the matrix engines and the range locks may have changed. -/
def EnginesOnly (s t : State) : Prop :=
  ∀ cl, { t.cluster cl with engines := (s.cluster cl).engines, locks := (s.cluster cl).locks } = s.cluster cl

theorem EnginesOnly.mapCluster {s t : State} (h : EnginesOnly s t) (cl : Nat) {f : Cluster → Cluster}
    (hf : ∀ k : Cluster, f k = { k with engines := (f k).engines, locks := (f k).locks }) : EnginesOnly s (t.mapCluster cl f) := by
  intro cl'
  by_cases hcl : cl' = cl
  · rw [hcl, State.cluster_mapCluster_same, hf]
    exact h cl
  · rw [State.cluster_mapCluster_other _ _ hcl]
    exact h cl'

/-- The range table takes at most as many ranges as it has room for. -/
theorem lockRanges_room {s : State} {cl core n : Nat} {kind : LockKind} {ranges : List (Nat × Nat × Bool)}
    (hroom : (s.cluster cl).locks.length + n ≤ Config.rangeLocks) (hlen : ranges.length ≤ n) :
    ∃ ids news next, s.lockRanges cl core kind ranges = some (ids,
      (s.mapDev fun d => { d with nextId := next }).mapCluster cl fun k => { k with locks := k.locks ++ news }) := by
  have hfit : ¬ (s.cluster cl).locks.length + (ranges.filter fun r => decide (r.2.1 ≠ 0)).length > Config.rangeLocks := by
    have := List.length_filter_le (fun r : Nat × Nat × Bool => decide (r.2.1 ≠ 0)) ranges
    omega
  rw [State.lockRanges]
  dsimp only
  rw [if_neg hfit]
  exact ⟨_, _, _, rfl⟩

/-! ### A command enters its queue (R241, R252) -/

theorem resumeAside_none {s : State} (h : s.core.aside = []) : s.resumeAside = s := by
  rw [State.resumeAside, h]
  rfl

/-- A command counted against the lease and queued, the core's instruction having completed. -/
def queuedIn (v : State) (entry : MEntry) : State :=
  ((v.mapMyEngine MEngine.spend).mapMyEngine fun e => { e with queue := e.queue ++ [entry] }).complete

theorem queuedIn_engine (v : State) (entry : MEntry) : (queuedIn v entry).myEngine =
    { v.myEngine.spend with queue := v.myEngine.spend.queue ++ [entry] } :=
  (mengine_mapMengine (v.mapMyEngine MEngine.spend) v.focus.cl (crewOf v.focus.core) _).trans
    (congrArg (fun e : MEngine => { e with queue := e.queue ++ [entry] }) (mengine_mapMengine v _ _ _))

theorem spend_queue (e : MEngine) : e.spend.queue = e.queue := by
  rw [MEngine.spend]
  split <;> rfl

theorem queuedIn_engines {s v : State} (h : EnginesOnly s v) (entry : MEntry) : EnginesOnly s (queuedIn v entry) :=
  (h.mapCluster v.focus.cl fun _ => rfl).mapCluster v.focus.cl fun _ => rfl

/-- A state in which only labels, engines and range locks of `s` may have changed, no engine of the core among them. -/
structure ReadyToQueue (s v : State) : Prop where
  core : v.core = { s.core with lblstat := v.core.lblstat }
  focus : v.focus = s.focus
  others : v.others = s.others
  agenda : v.agenda = s.agenda
  ctx : ∃ extra, v.ctx = { s.ctx with
    clusters := v.ctx.clusters, world := { s.ctx.world with table := s.ctx.world.table ++ extra } }
  clusters : EnginesOnly s v
  engine : v.myEngine = s.myEngine
  dev : { v.dev with nextId := s.dev.nextId } = s.dev

/-- The entry of a command of the core that moves (R252). -/
def mentryOf (s : State) (cmd : MCmd) (ctl : LabelWord) (lbls : List LabelWord) (ids : List Nat) : MEntry :=
  { cmd := cmd, core := s.focus.core, record := s.core.crec, last := false, pc := s.core.issue.addr, mode := s.core.status.mode
    ctl := ctl, scaleLbls := lbls, bankA := s.myEngine.bankA, bankB := s.myEngine.bankB, rows := 0, locks := ids }

theorem ReadyToQueue.queued {s v : State} (h : ReadyToQueue s v) (cmd : MCmd) (ctl : LabelWord) (lbls : List LabelWord)
    (ids : List Nat) : commandQueued s (queuedIn v (mentryOf s cmd ctl lbls ids)) cmd ctl lbls := by
  have hqe : (queuedIn v (mentryOf s cmd ctl lbls ids)).myEngine =
      { s.myEngine.spend with queue := s.myEngine.queue ++ [mentryOf s cmd ctl lbls ids] } := by
    rw [queuedIn_engine, h.engine, spend_queue]
  have hsame : coreSame s v := by rw [coreSame, h.core]
  have hregs : v.core.regs = s.core.regs := by rw [h.core]
  have hpending : v.core.pending = s.core.pending := by rw [h.core]
  have hstreams : v.core.streams = s.core.streams := by rw [h.core]
  have hmem : v.dev.mem = s.dev.mem := by
    have := congrArg Device.mem h.dev
    exact this
  have hclusters := queuedIn_engines h.clusters (mentryOf s cmd ctl lbls ids)
  obtain ⟨extra, hctx⟩ := h.ctx
  refine ⟨⟨_, by rw [hqe], rfl, rfl, rfl, rfl, rfl, rfl, rfl, rfl, rfl, rfl, rfl⟩, fun hlrem => ?_, fun hlrem => ?_, ?_, ⟨?_, ?_⟩, ?_,
    ⟨⟨extra, ?_⟩, fun cl => ?_, h.focus, h.others, h.agenda⟩, h.dev, fun a => ?_⟩
  · rw [hqe, MEngine.spend, if_neg (Nat.not_le_of_lt hlrem)]
    exact ⟨rfl, rfl⟩
  · rw [hqe, MEngine.spend, if_pos hlrem]
    exact ⟨rfl, rfl⟩
  · exact (Core.complete_regs v.core).trans hregs
  · exact (Core.complete_pending v.core).trans hpending
  · exact (Core.complete_streams v.core).trans hstreams
  · exact hsame.complete
  · exact congrArg (fun k : Context => { k with clusters := (queuedIn v (mentryOf s cmd ctl lbls ids)).ctx.clusters }) hctx
  · rw [← hclusters cl]
  · exact memoryKept_of_mem (t := queuedIn v (mentryOf s cmd ctl lbls ids)) hmem a

theorem enqueueCmd_queued {s u : State} {cmd : MCmd} {ws lbls : List LabelWord} {ctl : LabelWord}
    {ranges : List (Nat × Nat × Bool)} {resumes : Bool} (hready : matrixReady s) (hform : s.formConj ws = .ok (ctl, u))
    (hlen : ranges.length ≤ 2) :
    ∃ t, s.enqueueCmd cmd ws lbls ranges resumes = .ok t ∧ commandQueued s t cmd ctl lbls := by
  obtain ⟨hp, hlease, haside, hfault, hqueue, hroom⟩ := hready
  obtain ⟨extra, st, n, rfl⟩ := formConj_ok hform
  have hresumes : (if resumes = true then s.resumeAside else s) = s := by
    rw [resumeAside_none haside, ite_self]
  obtain ⟨ids, news, next, hlocks⟩ := lockRanges_room (core := s.focus.core) (kind := .matrix) (s := { s with
    core := { s.core with lblstat := st }
    ctx := { s.ctx with world := { s.ctx.world with table := s.ctx.world.table ++ extra } }
    fresh := n }) hroom hlen
  rw [State.enqueueCmd]
  dsimp only
  rw [hresumes, hform, except_bind_ok]
  dsimp only
  rw [hlocks]
  dsimp only
  have hv : ReadyToQueue s ((State.mapDev { s with
      core := { s.core with lblstat := st }
      ctx := { s.ctx with world := { s.ctx.world with table := s.ctx.world.table ++ extra } }
      fresh := n } fun d => { d with nextId := next }).mapCluster s.focus.cl fun k => { k with locks := k.locks ++ news }) :=
    { core := rfl, focus := rfl, others := rfl, agenda := rfl, ctx := ⟨extra, rfl⟩
      clusters := EnginesOnly.mapCluster (s := s) (fun _ => rfl) s.focus.cl fun _ => rfl
      engine := mengine_mapCluster (f := fun k => { k with locks := k.locks ++ news }) rfl _ _
      dev := rfl }
  revert hv
  generalize (State.mapDev { s with
      core := { s.core with lblstat := st }
      ctx := { s.ctx with world := { s.ctx.world with table := s.ctx.world.table ++ extra } }
      fresh := n } fun d => { d with nextId := next }).mapCluster s.focus.cl (fun k => { k with locks := k.locks ++ news }) = v
  intro hv
  have hvaside : v.core.aside = [] := by rw [hv.core]; exact haside
  have hwait : ¬ (v.myEngine.queue.filter fun m => m.core == s.focus.core).length + v.core.aside.length ≥ Config.matrixQueue := by
    rw [hv.engine, hvaside]
    exact Nat.not_le_of_lt hqueue
  have hempty : (v.mapMyEngine MEngine.spend).core.aside.isEmpty = true := by
    rw [show (v.mapMyEngine MEngine.spend).core.aside = [] from hvaside]
    rfl
  rw [if_neg hwait, if_pos hempty]
  refine ⟨_, rfl, ?_⟩
  have hrec : v.core.crec = s.core.crec := by rw [hv.core]
  have hpc : v.core.issue.addr = s.core.issue.addr := by rw [hv.core]
  have hmode : v.core.status.mode = s.core.status.mode := by rw [hv.core]
  rw [hrec, hpc, hmode, hv.engine]
  exact hv.queued cmd ctl lbls ids

/-! ### The checks at issue (R191, R239, R247) -/

theorem takeDeferred_some {s : State} {tr : Trap} (h : s.core.mfault = some tr) :
    s.takeDeferred = .error (.trap { tr with epc := s.core.issue.epc }) := by
  rw [State.takeDeferred, h]

theorem takeDeferred_none {s : State} (h : s.core.mfault = none) : s.takeDeferred = .ok () := by
  rw [State.takeDeferred, h]

theorem leaseCheck_held {s : State} (h : s.holdsLease = true) : s.leaseCheck = .ok () := if_pos h

theorem leaseCheck_none {s : State} (h : s.holdsLease = false) : s.leaseCheck = .error (s.trap .mmalease 1 0) :=
  if_neg (by rw [h]; exact Bool.false_ne_true)

theorem strideAligned_iff {base w : Word} : ¬ strideAligned base w ↔ base.toNat % 16 ≠ 0 ∨ strideOf w % 16 ≠ 0 := by
  rw [strideAligned, not_and_or, strideOf, bitsAt, Nat.pow_zero, Nat.div_one]

theorem strideCheck_aligned {s : State} {acc : Access} {base w : Word} (h : strideAligned base w) :
    s.strideCheck acc base w = .ok () := if_neg fun hnot => strideAligned_iff.mpr hnot h

theorem strideCheck_misalign {s : State} {acc : Access} {base w : Word} (h : ¬ strideAligned base w) :
    s.strideCheck acc base w = .error (s.trap .misalign acc.code base) := if_pos (strideAligned_iff.mp h)

theorem exec_mmaForms (s : State) (shape acc : Nat) (z : Bool) (a b vs : Nat) : ∀ e ∈ mmaForms shape acc z a b vs,
    exec e.1 s = s.issueMma e.2.1 shape acc z a b e.2.2 := by
  simp only [mmaForms, List.forall_mem_cons]
  exact ⟨rfl, rfl, rfl, rfl, rfl, rfl, List.forall_mem_nil _⟩

theorem inboxCheck_clear {s : State} {spans : List (Nat × Nat)} (h : ∀ r ∈ spans, s.ctx.inboxByte r.1 r.2 = none) :
    s.inboxCheck spans = .ok () := by
  rw [State.inboxCheck, List.filterMap_eq_nil_iff.mpr h]

/-! ### The MMA forms at issue -/

section
variable {s : State} {shape acc : Nat} {z : Bool} {a b : Nat} {f : MForm} {scales : List Nat} (hp : plainCore s)
include hp

theorem issueMma_deferred {tr : Trap} (h : s.core.mfault = some tr) :
    s.issueMma f shape acc z a b scales = .next (s.trapEntry { tr with epc := s.core.issue.epc }) := by
  rw [State.issueMma, edgeGuard_plain hp, takeDeferred_some h]
  rfl

theorem issueMma_noLease (hfault : s.core.mfault = none) (hlease : s.holdsLease = false) :
    s.issueMma f shape acc z a b scales = commit s (.error (s.trap .mmalease 1 0)) := by
  rw [State.issueMma, edgeGuard_plain hp, takeDeferred_none hfault, leaseCheck_none hlease]
  rfl

variable (hfault : s.core.mfault = none) (hlease : s.holdsLease = true)
include hfault hlease

theorem issueMma_misalignA (ha : ¬ strideAligned (s.rdX a) (s.rdX (a + 1))) :
    s.issueMma f shape acc z a b scales = commit s (.error (s.trap .misalign 0 (s.rdX a))) := by
  rw [State.issueMma, edgeGuard_plain hp, takeDeferred_none hfault, leaseCheck_held hlease, strideCheck_misalign ha]
  rfl

theorem issueMma_misalignB (ha : strideAligned (s.rdX a) (s.rdX (a + 1))) (hb : ¬ strideAligned (s.rdX b) (s.rdX (b + 1))) :
    s.issueMma f shape acc z a b scales = commit s (.error (s.trap .misalign 0 (s.rdX b))) := by
  rw [State.issueMma, edgeGuard_plain hp, takeDeferred_none hfault, leaseCheck_held hlease, strideCheck_aligned ha,
    strideCheck_misalign hb]
  rfl

end

theorem issueMma_queued {s u : State} {shape acc : Nat} {z : Bool} {a b : Nat} {f : MForm} {scales : List Nat} {ctl : LabelWord}
    (hready : matrixReady s) (ha : strideAligned (s.rdX a) (s.rdX (a + 1))) (hb : strideAligned (s.rdX b) (s.rdX (b + 1)))
    (hform : s.formConj (group s a (if z then 3 else 2) ++ group s b 2) = .ok (ctl, u)) :
    ∃ t, s.issueMma f shape acc z a b scales = .next t ∧ commandQueued s t
      (.mma f shape acc z (s.rdX a) (s.rdX (a + 1)) (s.rdX b) (s.rdX (b + 1)) (if z then s.rdX (a + 2) else 0)
        (scales.map s.rdV)) ctl (scales.map s.labV) := by
  obtain ⟨hp, hlease, -, hfault, -, -⟩ := id hready
  have henqueue {cmd : MCmd} {lbls : List LabelWord} (r1 r2 : Nat × Nat × Bool) :=
    enqueueCmd_queued (cmd := cmd) (lbls := lbls) (resumes := true) hready hform (ranges := [r1, r2]) (le_refl 2)
  rw [State.issueMma, edgeGuard_plain hp, takeDeferred_none hfault, leaseCheck_held hlease, strideCheck_aligned ha,
    strideCheck_aligned hb]
  obtain ⟨t, ht, hqueued⟩ := henqueue _ _
  exact ⟨t, congrArg (commit s) ht, hqueued⟩

theorem mzero_queued {s u : State} {acc : Nat} {ctl : LabelWord} (hready : matrixReady s) (hform : s.formConj [] = .ok (ctl, u)) :
    ∃ t, exec (.mzero acc) s = .next t ∧ commandQueued s t (.mzero acc) ctl [] := by
  obtain ⟨hp, hlease, -, -, -, -⟩ := id hready
  have hexec : exec (.mzero acc) s = execMzero acc s := rfl
  obtain ⟨t, ht, hqueued⟩ := enqueueCmd_queued (cmd := .mzero acc) (lbls := []) (resumes := false) hready hform (ranges := [])
    (Nat.zero_le 2)
  rw [hexec, execMzero, edgeGuard_plain hp, leaseCheck_held hlease, except_bind_ok, except_bind_ok, ht]
  exact ⟨t, rfl, hqueued⟩

theorem mlda_queued {s u : State} {acc a : Nat} {ctl : LabelWord} (hready : matrixReady s)
    (ha : strideAligned (s.rdX a) (s.rdX (a + 1))) (hform : s.formConj (group s a 2) = .ok (ctl, u)) :
    ∃ t, exec (.mlda acc a) s = .next t ∧ commandQueued s t (.mlda acc (s.rdX a) (s.rdX (a + 1))) ctl [] := by
  obtain ⟨hp, hlease, -, -, -, -⟩ := id hready
  have hexec : exec (.mlda acc a) s = execMlda acc a s := rfl
  obtain ⟨t, ht, hqueued⟩ := enqueueCmd_queued (cmd := .mlda acc (s.rdX a) (s.rdX (a + 1))) (lbls := [])
    (resumes := false) hready hform (ranges := [((rowSpan (s.rdX a) (s.rdX (a + 1)) (min (vrOf (s.rdX (a + 1))) 32) 128).1,
      (rowSpan (s.rdX a) (s.rdX (a + 1)) (min (vrOf (s.rdX (a + 1))) 32) 128).2, false)]) (Nat.le_succ 1)
  rw [hexec, execMlda, edgeGuard_plain hp, leaseCheck_held hlease, strideCheck_aligned ha, except_bind_ok, except_bind_ok,
    except_bind_ok]
  exact ⟨t, congrArg (commit s) ht, hqueued⟩

theorem msta_queued {s u : State} {acc a : Nat} {ctl : LabelWord} (hready : matrixReady s)
    (ha : strideAligned (s.rdX a) (s.rdX (a + 1))) (hform : s.formConj (group s a 2) = .ok (ctl, u))
    (hinbox : ∀ r, r < min ((s.rdX (a + 1)).toNat / 2 ^ 56 % 2 ^ 8) 32 →
      s.ctx.inboxByte (s.rdX a + BitVec.ofNat 64 (r * ((s.rdX (a + 1)).toNat % 2 ^ 48))).toNat
        (4 * min ((s.rdX (a + 1)).toNat / 2 ^ 48 % 2 ^ 8) 32) = none) :
    ∃ t, exec (.msta acc a) s = .next t ∧ commandQueued s t (.msta acc (s.rdX a) (s.rdX (a + 1))) ctl [] := by
  obtain ⟨hp, hlease, -, hfault, -, -⟩ := id hready
  have hexec : exec (.msta acc a) s = execMsta acc a s := rfl
  have hclear : s.inboxCheck ((List.range (min (vrOf (s.rdX (a + 1))) 32)).map fun i =>
      ((rowAddr (s.rdX a) (s.rdX (a + 1)) i).toNat, 4 * min (vcOf (s.rdX (a + 1))) 32)) = .ok () := by
    refine inboxCheck_clear fun r hr => ?_
    obtain ⟨i, hi, rfl⟩ := List.mem_map.mp hr
    have := hinbox i (List.mem_range.mp hi)
    rw [rowAddr, strideOf, bitsAt, Nat.pow_zero, Nat.div_one]
    exact this
  obtain ⟨t, ht, hqueued⟩ := enqueueCmd_queued (cmd := .msta acc (s.rdX a) (s.rdX (a + 1))) (lbls := [])
    (resumes := true) hready hform (ranges := [((rowSpan (s.rdX a) (s.rdX (a + 1)) (min (vrOf (s.rdX (a + 1))) 32)
      (4 * min (vcOf (s.rdX (a + 1))) 32)).1, (rowSpan (s.rdX a) (s.rdX (a + 1)) (min (vrOf (s.rdX (a + 1))) 32)
      (4 * min (vcOf (s.rdX (a + 1))) 32)).2, true)]) (Nat.le_succ 1)
  rw [hexec, execMsta, edgeGuard_plain hp, takeDeferred_none hfault, leaseCheck_held hlease, strideCheck_aligned ha, except_bind_ok,
    except_bind_ok, except_bind_ok, except_bind_ok, hclear, except_bind_ok]
  exact ⟨t, congrArg (commit s) ht, hqueued⟩

end Sys2Proof.Claims

namespace Sys2Proof
open Machine Claims

/-- Settles O41. -/
theorem matrixIssue : Obligations.MatrixIssue := by
  refine ⟨fun s i shape acc z a b vs hwf hp => ⟨fun tr hfault hi => ?_, fun hfault hlease hi => ?_, fun hfault hlease =>
    ⟨fun hi hstride => ?_, fun hi hstride => ?_, fun hi => ⟨fun hstride => ?_, fun ha hb => ?_⟩⟩⟩,
    fun s u i shape acc z a b vs ctl hwf hready => ⟨fun f regs hi ha hb hform => ?_, fun hi hform => ?_, fun hi ha hform => ?_,
      fun hi ha hform hinbox => ?_⟩⟩
  · rcases List.mem_cons.mp hi with rfl | hi
    · have hexec : exec (.msta acc a) s = execMsta acc a s := rfl
      rw [hexec, execMsta, edgeGuard_plain hp, takeDeferred_some hfault]
      rfl
    · rcases List.mem_cons.mp hi with rfl | hi
      · have hexec : exec .msync s = execMsync s := rfl
        rw [hexec, execMsync, edgeGuard_plain hp, takeDeferred_some hfault, hfault]
        rfl
      · obtain ⟨e, he, rfl⟩ := List.mem_map.mp hi
        rw [exec_mmaForms s shape acc z a b vs e he, issueMma_deferred hp hfault]
  · rcases List.mem_cons.mp hi with rfl | hi
    · have hexec : exec (.mzero acc) s = execMzero acc s := rfl
      rw [execMzero, edgeGuard_plain hp, leaseCheck_none hlease] at hexec
      exact traps_of_commit hexec rfl
    · rcases List.mem_cons.mp hi with rfl | hi
      · have hexec : exec (.mlda acc a) s = execMlda acc a s := rfl
        rw [execMlda, edgeGuard_plain hp, leaseCheck_none hlease] at hexec
        exact traps_of_commit hexec rfl
      · rcases List.mem_cons.mp hi with rfl | hi
        · have hexec : exec (.msta acc a) s = execMsta acc a s := rfl
          rw [execMsta, edgeGuard_plain hp, takeDeferred_none hfault, leaseCheck_none hlease] at hexec
          exact traps_of_commit hexec rfl
        · obtain ⟨e, he, rfl⟩ := List.mem_map.mp hi
          exact traps_of_commit ((exec_mmaForms s shape acc z a b vs e he).trans (issueMma_noLease hp hfault hlease)) rfl
  · subst hi
    have hexec : exec (.mlda acc a) s = execMlda acc a s := rfl
    rw [execMlda, edgeGuard_plain hp, leaseCheck_held hlease, strideCheck_misalign hstride] at hexec
    exact traps_of_commit hexec rfl
  · subst hi
    have hexec : exec (.msta acc a) s = execMsta acc a s := rfl
    rw [execMsta, edgeGuard_plain hp, takeDeferred_none hfault, leaseCheck_held hlease, strideCheck_misalign hstride] at hexec
    exact traps_of_commit hexec rfl
  · obtain ⟨e, he, rfl⟩ := List.mem_map.mp hi
    exact traps_of_commit ((exec_mmaForms s shape acc z a b vs e he).trans (issueMma_misalignA hp hfault hlease hstride)) rfl
  · obtain ⟨e, he, rfl⟩ := List.mem_map.mp hi
    exact traps_of_commit ((exec_mmaForms s shape acc z a b vs e he).trans (issueMma_misalignB hp hfault hlease ha hb)) rfl
  · rw [exec_mmaForms s shape acc z a b vs (i, f, regs) hi]
    exact issueMma_queued hready ha hb hform
  · rw [hi]
    exact mzero_queued hready hform
  · rw [hi]
    exact mlda_queued hready ha hform
  · rw [hi]
    exact msta_queued hready ha hform hinbox

end Sys2Proof
end

section
/-! PROOF. What a command of the matrix engine may change, its reads row by row and its tiles (R251 to R256, R267). -/

namespace Sys2Proof.Claims
open Machine

/-! ### What a command may change -/

/-- Of the cores only the accumulators and LBLSTAT may have changed; memory stays canonical. -/
structure TilesOnly (s t : State) : Prop where
  coreAt : ∀ cl c, { t.coreAt cl c with
    lblstat := (s.coreAt cl c).lblstat, acc0 := (s.coreAt cl c).acc0, acc1 := (s.coreAt cl c).acc1 } = s.coreAt cl c
  wf : Memory.wf s.dev.mem → Memory.wf t.dev.mem

theorem TilesOnly.refl (s : State) : TilesOnly s s := ⟨fun _ _ => rfl, id⟩

theorem TilesOnly.trans {s t u : State} (h : TilesOnly s t) (k : TilesOnly t u) : TilesOnly s u where
  coreAt cl c := by rw [← h.coreAt cl c, ← k.coreAt cl c]
  wf := k.wf ∘ h.wf

theorem TilesOnly.of_engine {s t : State} (h : EngineOnly s t) (hwf : Memory.wf s.dev.mem → Memory.wf t.dev.mem) : TilesOnly s t where
  coreAt cl c := by rw [← h.coreAt cl c]
  wf := hwf

theorem TilesOnly.of_read {s t : State} (h : ReadOnly s t) : TilesOnly s t := .of_engine (.of_dev h.1) h.2

theorem TilesOnly.aside {s t : State} (h : TilesOnly s t) (cl c : Nat) : (t.coreAt cl c).aside = (s.coreAt cl c).aside := by
  rw [← h.coreAt cl c]

theorem setTile_tiles (c : Core) (acc : Nat) (t : Tile) :
    { c.setTile acc t with lblstat := c.lblstat, acc0 := c.acc0, acc1 := c.acc1 } = c := by
  rw [Core.setTile]
  split <;> rfl

theorem setTileAt_tiles (s : State) (cl core acc : Nat) (f : Core → Tile) :
    TilesOnly s (s.mapCoreAt cl core fun c => c.setTile acc (f c)) where
  coreAt cl' c' := by
    by_cases hc : cl' = cl ∧ c' = core
    · obtain ⟨rfl, rfl⟩ := hc
      rw [State.coreAt_mapCoreAt_same]
      exact setTile_tiles _ _ _
    · rw [State.coreAt_mapCoreAt_other _ _ hc]
  wf := by
    rw [State.mapCoreAt_dev]
    exact id

theorem setTile_tile (c : Core) (acc : Nat) (t : Tile) : (c.setTile acc t).tile acc = t := by
  rw [Core.setTile, Core.tile]
  split <;> rfl

theorem setTile_tile_other (c : Core) (acc : Nat) (t : Tile) :
    (c.setTile acc t).tile (if acc = 0 then 1 else 0) = c.tile (if acc = 0 then 1 else 0) := by
  rw [Core.setTile, Core.tile, Core.tile]
  by_cases h : acc = 0
  · rw [if_pos h, if_pos h]; rfl
  · rw [if_neg h, if_neg h]; rfl

theorem setTile_regs (c : Core) (acc : Nat) (t : Tile) : (c.setTile acc t).regs = c.regs := by
  rw [Core.setTile]
  split <;> rfl

/-! ### Reads, row by row (R255, R256) -/

theorem readEach_ok {α : Type} {f : Nat → State → Except Deny (α × State)}
    (hf : ∀ i s r t, f i s = .ok (r, t) → ReadOnly s t) (is : List Nat) :
    ∀ {s t : State} {rs : List α}, readEach f is s = .ok (rs, t) → ReadOnly s t := by
  induction is with
  | nil => intro s t rs h; cases h; exact .refl _
  | cons i is ih =>
    intro s t rs h
    rw [readEach] at h
    split at h
    · cases h
    · next r u hread =>
      split at h
      · cases h
      · next rs' v hrest =>
        cases h
        exact (hf i s r u hread).trans (ih hrest)

theorem readBlocks_ok {ag : Agent} {dec : Nat → FVal} {bits : Nat} {skip : Nat → Bool} {row : Word} (cs : List Nat) :
    ∀ {s t : State} {r : RowData}, s.readBlocks ag dec bits skip row cs = .ok (r, t) → ReadOnly s t := by
  induction cs with
  | nil => intro s t r h; cases h; exact .refl _
  | cons c cs ih =>
    intro s t r h
    rw [State.readBlocks] at h
    obtain ⟨⟨⟨vs, ws⟩, u⟩, hblock, h⟩ := bind_ok h
    obtain ⟨⟨⟨vs', ws'⟩, v⟩, hrest, h⟩ := bind_ok h
    cases h
    refine ReadOnly.trans ?_ (ih hrest)
    split at hblock
    · cases hblock
      exact .refl _
    · obtain ⟨⟨n, w, u'⟩, hread, hblock⟩ := bind_ok hblock
      cases hblock
      exact engineRead_ok hread

theorem readRowA_ok {s t : State} {ag : Agent} {dec : Nat → FVal} {bits : Nat} {x : Extent} {bitmap base w : Word} {i : Nat}
    {r : RowData} (h : s.readRowA ag dec bits x bitmap base w i = .ok (r, t)) : ReadOnly s t := readBlocks_ok _ h

theorem readRowB_ok {s t : State} {ag : Agent} {dec : Nat → FVal} {bits : Nat} {x : Extent} {cols : Nat} {base w : Word} {k : Nat}
    {r : RowData} (h : s.readRowB ag dec bits x cols base w k = .ok (r, t)) : ReadOnly s t := by
  rw [State.readRowB] at h
  split at h
  · cases h
    exact .refl _
  · obtain ⟨⟨bs, ws, u⟩, hread, h⟩ := bind_ok h
    cases h
    exact readSpan_ok hread

theorem loadRow_ok {s t : State} {ag : Agent} {ctl : LabelWord} {base w : Word} {i : Nat} {r : Nat × AccRow × Label}
    (h : s.loadRow ag ctl base w i = .ok (r, t)) : ReadOnly s t := by
  rw [State.loadRow] at h
  obtain ⟨⟨bs, ws, u⟩, hread, h⟩ := bind_ok h
  cases h
  exact readSpan_ok hread

/-! ### Rows written to a tile and to memory -/

theorem putRow_tiles (s : State) (cl core acc i : Nat) (v : AccRow) (w : LabelWord) : TilesOnly s (s.putRow cl core acc i v w) :=
  setTileAt_tiles s cl core acc fun c => ⟨filePut (by decide) (c.tile acc).row i v, filePut (by decide) (c.tile acc).lbl i w⟩

theorem putRows_tiles (cl core acc : Nat) (rows : List (Nat × AccRow × Label)) :
    ∀ {s t : State}, s.putRows cl core acc rows = .ok t → TilesOnly s t := by
  induction rows with
  | nil => intro s t h; cases h; exact .refl _
  | cons row rows ih =>
    obtain ⟨i, v, l⟩ := row
    intro s t h
    rw [State.putRows] at h
    split at h
    · cases h
    · next w u hform =>
      have hu : TilesOnly s u := .of_engine (engineForm_only hform) (by rw [engineForm_dev hform]; exact id)
      exact (hu.trans (putRow_tiles u cl core acc i v w)).trans (ih h)

theorem writePieces_only (a : Agent) (core : Nat) (nl : Label) (ps : List (Word × Nat)) :
    ∀ {s t : State} {bs : List Byte}, s.writePieces a core nl ps bs = .ok t → EngineOnly s t := by
  induction ps with
  | nil => intro s t bs h; cases h; exact .refl _
  | cons piece ps ih =>
    obtain ⟨va, n⟩ := piece
    intro s t bs h
    rw [State.writePieces] at h
    split at h
    · cases h
    · next p u hplace =>
      split at h
      · cases h
      · next v hstore =>
        exact ((EngineOnly.of_dev (enginePlace_ok (liftDeny_ok hplace)).1).trans (engineStore_only hstore)).trans (ih h)

theorem writeSpan_only {s t : State} {a : Agent} {core : Nat} {nl : Label} {va : Word} {bs : List Byte}
    (h : s.writeSpan a core nl va bs = .ok t) : EngineOnly s t := writePieces_only a core nl _ h

theorem storeRow_tiles {s t : State} {cl : Nat} {e : MEntry} {acc : Nat} {base w : Word} {cols i : Nat}
    (h : s.storeRow cl e acc base w cols i = .ok t) : TilesOnly s t := .of_engine (writeSpan_only h) (writeSpan_wf h)

theorem storeRows_tiles (cl : Nat) (e : MEntry) (acc : Nat) (base w : Word) (cols : Nat) (is : List Nat) :
    ∀ s : State, TilesOnly s (s.storeRows cl e acc base w cols is).1 := by
  induction is with
  | nil => exact fun s => .refl s
  | cons i is ih =>
    intro s
    rw [State.storeRows]
    split
    · exact .refl s
    · next t hstore => exact (storeRow_tiles hstore).trans (ih t)

/-! ### Commands -/

theorem runGroups_tiles {f : Nat → State → Except EngineFail State} (hf : ∀ g s t, f g s = .ok t → TilesOnly s t) (gs : List Nat) :
    ∀ s : State, TilesOnly s (runGroups f gs s).state := by
  induction gs with
  | nil => exact fun s => .refl s
  | cons g gs ih =>
    intro s
    rw [runGroups]
    split
    · exact .refl s
    · next t hg => exact (hf g s t hg).trans (ih t)

theorem runMma_tiles (s : State) (cl : Nat) (e : MEntry) (f : MForm) (shape acc : Nat) (a aw b bw bitmap : Word)
    (scales : List VWord) : TilesOnly s (s.runMma cl e f shape acc a aw b bw bitmap scales).state := by
  unfold State.runMma
  dsimp only
  split
  · exact .refl s
  · next bs u hread =>
    refine (TilesOnly.of_read (readEach_ok (fun _ _ _ _ h => readRowB_ok h) _ (liftDeny_ok hread))).trans
      (runGroups_tiles (fun g s t h => ?_) _ u)
    split at h
    · cases h
    · next rows v hrows =>
      exact (TilesOnly.of_read (readEach_ok (fun _ _ _ _ h => readRowA_ok h) _ (liftDeny_ok hrows))).trans (putRows_tiles _ _ _ _ h)

theorem runCommand_tiles (s : State) (cl : Nat) (e : MEntry) : TilesOnly s (s.runCommand cl e).state := by
  unfold State.runCommand
  split
  · exact runMma_tiles _ _ _ _ _ _ _ _ _ _ _ _
  · exact setTileAt_tiles _ _ _ _ _
  · refine runGroups_tiles (fun g s t h => ?_) _ s
    split at h
    · cases h
    · next news u hread =>
      exact (TilesOnly.of_read (readEach_ok (fun _ _ _ _ h => loadRow_ok h) _ (liftDeny_ok hread))).trans (putRows_tiles _ _ _ _ h)
  · exact storeRows_tiles _ _ _ _ _ _ _ s

end Sys2Proof.Claims
end

section
/-! PROOF. The command at the head of a matrix engine's queue (R253 to R256, R267). -/

namespace Sys2Proof.Claims
open Machine

/-! ### What completion does (R253) -/

theorem coreAt_mapMengine (s : State) (cl crew : Nat) (f : MEngine → MEngine) (cl' c : Nat) :
    (s.mapMengine cl crew f).coreAt cl' c = s.coreAt cl' c := coreAt_mapCluster s cl (·.mapEngine crew f) (fun _ => rfl) cl' c

theorem mengine_mapCoreAt (s : State) (cl c : Nat) (f : Core → Core) (cl' crew : Nat) :
    (s.mapCoreAt cl c f).mengine cl' crew = s.mengine cl' crew := by
  rw [State.mengine, State.mengine, ← mapCoreAt_cluster s cl c f cl']
  rfl

/-- The command at the head leaves the queue, and its ranges with it. -/
def retired (u : State) (cl crew : Nat) (e : MEntry) : State :=
  (u.unlock cl e.locks).mapMengine cl crew fun m => { m with queue := m.queue.drop 1 }

theorem commandComplete_next {s : State} {cl crew : Nat} {e : MEntry} {rest : List MEntry}
    (hqueue : (s.mengine cl crew).queue = e :: rest) (hrun : s.ctx.stopped = false) (hfail : (s.runCommand cl e).fail = none) :
    exec (.matrixCommandComplete cl crew) s = .next (if e.last then (retired (s.runCommand cl e).state cl crew e).spoilTiles cl e.core
      else retired (s.runCommand cl e).state cl crew e) := by
  have hexec : exec (.matrixCommandComplete cl crew) s = execMatrixCommandComplete cl crew s := rfl
  rw [hexec, execMatrixCommandComplete, hqueue, State.engineRuns, hrun]
  dsimp only
  rw [hfail]
  rfl

theorem retired_queue (u : State) (cl crew : Nat) (e : MEntry) :
    ((retired u cl crew e).mengine cl crew).queue = (u.mengine cl crew).queue.drop 1 := by
  rw [retired, mengine_mapMengine, State.unlock, mengine_mapCluster rfl]

theorem retired_coreAt (u : State) (cl crew : Nat) (e : MEntry) (cl' c : Nat) : (retired u cl crew e).coreAt cl' c = u.coreAt cl' c := by
  rw [retired, coreAt_mapMengine, coreAt_unlock]

theorem retired_dev (u : State) (cl crew : Nat) (e : MEntry) : (retired u cl crew e).dev = u.dev := rfl

theorem retired_locks (u : State) (cl crew : Nat) (e : MEntry) :
    ((retired u cl crew e).cluster cl).locks = (u.cluster cl).locks.filter fun l => !e.locks.contains l.id := by
  rw [retired, State.mapMengine, State.cluster_mapCluster_same, State.unlock, State.cluster_mapCluster_same]
  rfl

theorem runCommand_mzero {s : State} {cl acc : Nat} {e : MEntry} (h : e.cmd = .mzero acc) :
    s.runCommand cl e = ⟨s.mapCoreAt cl e.core fun c => c.setTile acc ⟨fill 32 0, fill 32 (mkWord s.ctx.world.agentEpoch false 0)⟩, none⟩ := by
  rw [State.runCommand.eq_def, h]

theorem spoilTiles_dev (s : State) (cl core : Nat) : (s.spoilTiles cl core).dev = s.dev := State.mapCoreAt_dev _ _ _ _

theorem spoilTiles_regs (s : State) (cl core cl' c : Nat) : ((s.spoilTiles cl core).coreAt cl' c).regs = (s.coreAt cl' c).regs :=
  coreAt_mapCoreAt_keeps Core.regs (f := fun c => { c with acc0 := Tile.unknown s.fresh 512, acc1 := Tile.unknown s.fresh 640 })
    (fun _ => rfl) s.drawn cl core cl' c

theorem spoilTiles_queue (s : State) (cl core cl' crew : Nat) : (s.spoilTiles cl core).mengine cl' crew = s.mengine cl' crew :=
  mengine_mapCoreAt s.drawn cl core _ cl' crew

theorem spoilTiles_locks (s : State) (cl core cl' : Nat) : ((s.spoilTiles cl core).cluster cl').locks = (s.cluster cl').locks :=
  mapCoreAt_locks s.drawn cl core _ cl'

/-! ### Rows loaded (R267) -/

theorem natOf_take (bs : List Byte) : ∀ n, natOf (bs.take n) = natOf bs % 256 ^ n := by
  induction bs with
  | nil => intro n; rw [List.take_nil]; exact (Nat.zero_mod _).symm
  | cons b bs ih =>
    intro n
    cases n with
    | zero => rw [List.take_zero, Nat.pow_zero, Nat.mod_one]; rfl
    | succ n =>
      have hb : b.toNat < 256 := b.isLt
      have hcons (l : List Byte) : natOf (b :: l) = b.toNat + 256 * natOf l := rfl
      have hdiv : (b.toNat + 256 * natOf bs) / 256 = natOf bs := by omega
      have hmod : (b.toNat + 256 * natOf bs) % 256 = b.toNat := by omega
      rw [List.take_succ_cons, hcons, hcons, ih, Nat.pow_succ', Nat.mod_mul, hdiv, hmod]

theorem natOf_drop (bs : List Byte) : ∀ n, natOf (bs.drop n) = natOf bs / 256 ^ n := by
  induction bs with
  | nil => intro n; rw [List.drop_nil]; exact (Nat.zero_div _).symm
  | cons b bs ih =>
    intro n
    cases n with
    | zero => rw [List.drop_zero, Nat.pow_zero, Nat.div_one]
    | succ n =>
      have hb : b.toNat < 256 := b.isLt
      have hcons : natOf (b :: bs) = b.toNat + 256 * natOf bs := rfl
      rw [List.drop_succ_cons, ih, hcons, Nat.pow_succ', ← Nat.div_div_eq_div_mul]
      congr 1
      omega

/-- A word of a row that was loaded is made of the bytes at its place. -/
theorem loadedWord (bs : List Byte) {j : Nat} (hj : j < 32) :
    (BitVec.ofNat 1024 (natOf bs)).toNat / 2 ^ (32 * j) % 2 ^ 32 = natOf ((bs.drop (4 * j)).take 4) := by
  have hwidth : 32 * j + (1024 - 32 * j) = 1024 := by omega
  have hbase : 256 ^ (4 * j) = 2 ^ (32 * j) := by rw [show 256 = 2 ^ 8 from rfl, ← Nat.pow_mul, ← Nat.mul_assoc]
  rw [natOf_take, natOf_drop, BitVec.toNat_ofNat, hbase, ← hwidth, Nat.pow_add, Nat.mod_mul_right_div_self,
    Nat.mod_mod_of_dvd _ (Nat.pow_dvd_pow 2 (by omega)), show 256 ^ 4 = 2 ^ 32 from rfl]

theorem readEach_same {α : Type} {f : Nat → State → Except Deny (α × State)} {g : Nat → α} {s : State} :
    (is : List Nat) → (∀ i ∈ is, f i s = .ok (g i, s)) → readEach f is s = .ok (is.map g, s)
  | [], _ => rfl
  | i :: is, h => by
    rw [readEach, h i List.mem_cons_self]
    dsimp only
    rw [readEach_same is fun k hk => h k (List.mem_cons_of_mem i hk)]
    rfl

theorem putRow_row (s : State) (cl core acc i : Nat) (v : AccRow) (w : LabelWord) {k : Nat} (hi : i < 32) (hk : k < 32) :
    fileGet (by decide) (((s.putRow cl core acc i v w).coreAt cl core).tile acc).row k =
      if k = i then v else fileGet (by decide) ((s.coreAt cl core).tile acc).row k := by
  rw [State.putRow, State.coreAt_mapCoreAt_same, setTile_tile]
  split
  · next h => rw [h]; exact fileGet_filePut_same _ _ _ _
  · next h => exact fileGet_filePut_ne _ _ _ hi hk h

theorem tile_of_engine {s t : State} (h : EngineOnly s t) (cl core acc : Nat) : (t.coreAt cl core).tile acc = (s.coreAt cl core).tile acc := by
  rw [← h.coreAt cl core]
  rfl

/-- Rows written together, each its own value. -/
theorem putRows_row {cl core acc : Nat} {v : Nat → AccRow} {l : Nat → Label} {k : Nat} (hk : k < 32) (is : List Nat) :
    ∀ {s t : State}, (∀ i ∈ is, i < 32) → s.putRows cl core acc (is.map fun i => (i, v i, l i)) = .ok t →
      fileGet (by decide) ((t.coreAt cl core).tile acc).row k =
        if k ∈ is then v k else fileGet (by decide) ((s.coreAt cl core).tile acc).row k := by
  induction is with
  | nil => intro s t _ h; cases h; rfl
  | cons i is ih =>
    intro s t his h
    rw [List.map_cons, State.putRows] at h
    split at h
    · cases h
    · next w u hform =>
      rw [ih (fun j hj => his j (List.mem_cons_of_mem i hj)) h, putRow_row _ _ _ _ _ _ _ (his i List.mem_cons_self) hk,
        tile_of_engine (engineForm_only hform)]
      by_cases hmem : k ∈ is
      · rw [if_pos hmem, if_pos (List.mem_cons_of_mem i hmem)]
      · rw [if_neg hmem]
        by_cases hki : k = i
        · rw [if_pos hki, if_pos (hki ▸ List.mem_cons_self), hki]
        · rw [if_neg hki, if_neg fun h => (List.mem_cons.mp h).elim hki hmem]

/-! ### A row stored (R267) -/

theorem piecesOf_within {va : Word} {n : Nat} (hn : 0 < n) (hline : va.toNat % 64 + n ≤ 64) : piecesOf va n = [(va, n)] := by
  rw [piecesOf, linePieces, if_neg (Nat.pos_iff_ne_zero.mp hn), Nat.min_eq_left (by omega)]
  dsimp only
  rw [Nat.sub_self, linePieces, if_pos rfl]

theorem groupsFrom_none : groupsFrom 0 0 = [] := rfl

theorem groupsFrom_one {n : Nat} (hpos : 0 < n) (hle : n ≤ 8) : groupsFrom 0 n = [0] := by
  rw [groupsFrom, show (n + 7) / 8 = 1 from by omega]
  rfl

theorem mem_rowsOf {n k : Nat} : k ∈ rowsOf 0 n ↔ k < 8 ∧ k < n := by
  rw [rowsOf, List.mem_filter, decide_eq_true_iff, List.mem_map]
  simp only [List.mem_range, Nat.mul_zero, Nat.zero_add, exists_eq_right]

/-- A byte of a row, by way of its word. -/
theorem storedByte (row k : Nat) : BitVec.ofNat 8 (row / 2 ^ (32 * (k / 4)) % 2 ^ 32 / 256 ^ (k % 4)) = BitVec.ofNat 8 (row / 256 ^ k) := by
  have hword : 8 * (k % 4) + (32 - 8 * (k % 4)) = 32 := by omega
  have hbyte (m : Nat) : 256 ^ m = 2 ^ (8 * m) := by rw [show 256 = 2 ^ 8 from rfl, ← Nat.pow_mul]
  apply BitVec.eq_of_toNat_eq
  rw [BitVec.toNat_ofNat, BitVec.toNat_ofNat, hbyte, hbyte, ← hword, Nat.pow_add, Nat.mod_mul_right_div_self,
    Nat.mod_mod_of_dvd _ (Nat.pow_dvd_pow 2 (by omega)), hword, Nat.div_div_eq_div_mul, ← Nat.pow_add]
  congr 3
  omega

/-- MLDA of one group of rows, the reads of which change nothing. -/
theorem mlda_rows {s : State} {cl acc n : Nat} {e : MEntry} {base sw : Word} {bs : Nat → List Byte} {ws : Nat → List LabelWord}
    (hcmd : e.cmd = .mlda acc base sw) (hrows : e.rows = 0) (hn : n = sw.toNat / 2 ^ 56 % 2 ^ 8) (hle : n ≤ 8)
    (hread : ∀ i, i < n →
      s.readSpan (e.agent cl) (base + BitVec.ofNat 64 (i * (sw.toNat % 2 ^ 48))) 128 = .ok (bs i, ws i, s))
    (hfail : (s.runCommand cl e).fail = none) :
    (∀ i j, i < n → j < 32 → accWord ((s.runCommand cl e).state.coreAt cl e.core) acc i j =
      natOf (((bs i).drop (4 * j)).take 4)) ∧
    (∀ i, n ≤ i → i < 32 → fileGet (by decide) (((s.runCommand cl e).state.coreAt cl e.core).tile acc).row i =
      fileGet (by decide) ((s.coreAt cl e.core).tile acc).row i) := by
  have hrow : ∀ k, k < 32 → fileGet (by decide) (((s.runCommand cl e).state.coreAt cl e.core).tile acc).row k =
      if k < n then BitVec.ofNat 1024 (natOf (bs k)) else fileGet (by decide) ((s.coreAt cl e.core).tile acc).row k := by
    have hvr : min (vrOf sw) 32 = n := by
      rw [vrOf, bitsAt, ← hn]
      omega
    rw [State.runCommand.eq_def, hcmd] at hfail ⊢
    dsimp only at hfail ⊢
    rw [hvr, hrows] at hfail ⊢
    intro k hk
    rcases Nat.eq_zero_or_pos n with h0 | hpos
    · rw [h0, groupsFrom_none, runGroups, if_neg (Nat.not_lt_zero k)]
    · rw [groupsFrom_one hpos hle, runGroups] at hfail ⊢
      have hloads : readEach (fun i s => s.loadRow (e.agent cl) e.ctl base sw i) (rowsOf 0 n) s =
          .ok ((rowsOf 0 n).map fun i => (i, BitVec.ofNat 1024 (natOf (bs i)), s.engineConj (e.ctl :: ws i)), s) := by
        refine readEach_same _ fun i hi => ?_
        have hread := hread i (mem_rowsOf.mp hi).2
        rw [State.loadRow, rowAddr, strideOf, bitsAt, Nat.pow_zero, Nat.div_one, hread]
        rfl
      rw [hloads, liftDeny] at hfail ⊢
      dsimp only at hfail ⊢
      cases hput : s.putRows cl e.core acc
          ((rowsOf 0 n).map fun i => (i, BitVec.ofNat 1024 (natOf (bs i)), s.engineConj (e.ctl :: ws i))) with
      | error f =>
        rw [hput] at hfail
        cases hfail
      | ok t =>
        have hmem : k ∈ rowsOf 0 n ↔ k < n := mem_rowsOf.trans ⟨And.right, fun h => ⟨by omega, h⟩⟩
        have := putRows_row hk (rowsOf 0 n) (fun i hi => by have := (mem_rowsOf.mp hi).1; omega) hput
        simp only [hmem] at this
        exact this
  refine ⟨fun i j hi hj => ?_, fun i hni hi => ?_⟩
  · rw [accWord, hrow i (by omega), if_pos hi, loadedWord _ hj]
  · rw [hrow i hi, if_neg (Nat.not_lt.mpr hni)]

theorem msta_row {s u : State} {cl acc n : Nat} {e : MEntry} {base sw : Word} {p : Place} (hcmd : e.cmd = .msta acc base sw)
    (hrows : e.rows = 0) (hone : sw.toNat / 2 ^ 56 % 2 ^ 8 = 1) (hn : n = 4 * min (sw.toNat / 2 ^ 48 % 2 ^ 8) 32) (hpos : 0 < n)
    (hline : base.toNat % 64 + n ≤ 64) (hplace : s.enginePlace (e.agent cl) .write base = .ok (p, u))
    (hfail : (s.runCommand cl e).fail = none) :
    (∀ k, k < n → (s.runCommand cl e).state.dev.byte (p.loc + k) =
      BitVec.ofNat 8 (accWord (s.coreAt cl e.core) acc 0 (k / 4) / 256 ^ (k % 4))) ∧
    ∀ b, ¬ within p.loc n b → (p.lt = false ∨ ¬ within (labelLoc (lineOf p.loc)) 4 b) →
      (s.runCommand cl e).state.dev.byte b = u.dev.byte b := by
  have hvr : min (vrOf sw) 32 = 1 := by
    rw [vrOf, bitsAt, hone]
    rfl
  have hcols : 4 * min (vcOf sw) 32 = n := by rw [hn, vcOf, bitsAt]
  have hbase : rowAddr base sw 0 = base := by
    rw [rowAddr, Nat.zero_mul]
    exact BitVec.add_zero base
  set row := (fileGet (by decide) ((s.coreAt cl e.core).tile acc).row 0).toNat with hrow
  have hlen : (bytesOf n row).length = n := by rw [bytesOf, List.length_map, List.length_range]
  have hstore : ∃ t, u.engineStore (e.agent cl) e.core p (bytesOf n row) (s.engineConj
      [fileGet (by decide) ((s.coreAt cl e.core).tile acc).lbl 0, e.ctl]) = .ok t ∧ (s.runCommand cl e).state = t := by
    rw [State.runCommand.eq_def, hcmd] at hfail ⊢
    dsimp only at hfail ⊢
    rw [hvr, hrows, show (List.range 1).filter (fun i => decide (0 ≤ i)) = [0] from rfl, State.storeRows, State.storeRow, hcols,
      hbase, State.writeSpan, hlen, piecesOf_within hpos hline, State.writePieces, hplace] at hfail ⊢
    dsimp only [liftDeny] at hfail ⊢
    rw [List.take_of_length_le (le_of_eq hlen)] at hfail ⊢
    cases hput : u.engineStore (e.agent cl) e.core p (bytesOf n row) (s.engineConj
        [fileGet (by decide) ((s.coreAt cl e.core).tile acc).lbl 0, e.ctl]) with
    | error f =>
      rw [hput] at hfail
      cases hfail
    | ok t => exact ⟨t, rfl, rfl⟩
  obtain ⟨t, ht, hstate⟩ := hstore
  obtain ⟨hat, hout⟩ := engineStore_written ht
  rw [hlen] at hat hout
  rw [hstate]
  refine ⟨fun k hk => ?_, hout⟩
  rw [hat k hk, bytesOf_getD hk, accWord, ← hrow]
  exact (storedByte row k).symm

/-! ### What the products come to (R245, R251) -/

theorem exact_elementValue_ii (bankA : Vector Half 256) (bankB : Vector Half 16) (n v : Nat) :
    (elementValue .ii bankA bankB n v).exact.m = signed 8 v := by
  rw [← sext_eq_signed]
  show (if decide (sext 8 v < 0) = true then -((sext 8 v).natAbs : Int) else ((sext 8 v).natAbs : Int)) = sext 8 v
  by_cases h : sext 8 v < 0
  · rw [if_pos (decide_eq_true h)]
    omega
  · rw [if_neg (by rw [decide_eq_false h]; exact Bool.false_ne_true)]
    omega

theorem foldl_products {α : Type} (g : α → Int) (l : List α) : ∀ a : Int, l.foldl (fun t p => t + g p) a = a + (l.map g).sum := by
  induction l with
  | nil => intro a; exact (add_zero a).symm
  | cons p l ih => intro a; rw [List.foldl_cons, ih, List.map_cons, List.sum_cons, add_assoc]

/-- The element of an int8 form (R251). -/
theorem mmaElement_ii (c : Nat) (xs ys : List Nat) (bankA : Vector Half 256) (bankB : Vector Half 16) (scale : Nat → Nat × Nat) :
    mmaElement .ii c (xs.map fun v => some (elementValue .ii bankA bankB 8 v))
        (ys.map fun v => some (elementValue .ii bankA bankB 8 v)) scale =
      (((c : Int) + ((xs.zip ys).map fun e => signed 8 e.1 * signed 8 e.2).sum) % (2 ^ 32 : Nat)).toNat := by
  rw [mmaElement.eq_def]
  dsimp only
  rw [List.zip_map, List.map_map, List.foldl_map]
  refine congrArg (fun z : Int => (((c : Int) + z) % (2 ^ 32 : Nat)).toNat) ((foldl_products
    (fun e : Nat × Nat => (elementValue .ii bankA bankB 8 e.1).exact.m * (elementValue .ii bankA bankB 8 e.2).exact.m) _ 0).trans ?_)
  simp only [exact_elementValue_ii, zero_add]

/-- A product that has a NaN factor. -/
def nanPair (p : FVal × FVal) : Prop := p.1.isNan = true ∨ p.2.isNan = true

theorem mulV_nan {p : FVal × FVal} (h : nanPair p) : ∃ v, mulV p.1 p.2 = some v ∧ v.isNan = true := by
  obtain ⟨x, y⟩ := p
  cases x <;> cases y <;> first | exact ⟨_, rfl, rfl⟩ | exact absurd h (by rintro (h | h) <;> cases h)

theorem addRne_nan {c d : Nat} (h : c = 0x7FC00000 ∨ d = 0x7FC00000) : addRne c d = 0x7FC00000 := by
  have hnan : (fp32.decode 0x7FC00000).isNan = true := by decide
  rw [addRne, addV_nan 0 (by rcases h with rfl | rfl; exacts [.inl hnan, .inr hnan]), nanOf_two]

theorem mmaStep_nan {c sa sb : Nat} {products : List (FVal × FVal)} (h : c = 0x7FC00000 ∨ ∃ p ∈ products, nanPair p) :
    mmaStep c products sa sb = 0x7FC00000 := by
  rw [mmaStep]
  refine addRne_nan (h.imp_right fun ⟨p, hp, hnan⟩ => ?_)
  split
  · rfl
  · have hblock : blockSum products ((sa : Int) + sb - 254) = none := by
      rw [blockSum]
      refine if_pos (List.any_eq_true.mpr ⟨_, List.mem_map_of_mem hp, ?_⟩)
      obtain ⟨v, hv, hnanv⟩ := mulV_nan hnan
      rw [hv]
      exact Bool.or_eq_true_iff.mpr (.inr hnanv)
    rw [hblock]
    rfl

theorem mem_chunks {α : Type} {n : Nat} (hn : 0 < n) {p : α} : ∀ (k : Nat) (l : List α), l.length ≤ k → p ∈ l → ∃ b ∈ chunks n k l, p ∈ b
  | 0, l, hlen, hp => by rw [List.length_eq_zero_iff.mp (Nat.le_zero.mp hlen)] at hp; cases hp
  | k + 1, l, hlen, hp => by
    rw [chunks, if_neg (by rw [List.isEmpty_iff]; rintro rfl; cases hp)]
    rw [← List.take_append_drop n l] at hp
    rcases List.mem_append.mp hp with hp | hp
    · exact ⟨_, List.mem_cons_self, hp⟩
    · obtain ⟨b, hb, hpb⟩ := mem_chunks hn k (l.drop n) (by rw [List.length_drop]; omega) hp
      exact ⟨b, List.mem_cons_of_mem _ hb, hpb⟩

theorem foldl_mmaStep_nan (scale : Nat → Nat × Nat) (blocks : List (Nat × List (FVal × FVal))) : ∀ c : Nat,
    (c = 0x7FC00000 ∨ ∃ e ∈ blocks, ∃ p ∈ e.2, nanPair p) →
      blocks.foldl (fun t e => mmaStep t e.2 (scale e.1).1 (scale e.1).2) c = 0x7FC00000 := by
  induction blocks with
  | nil => exact fun c h => h.resolve_right fun ⟨_, he, _⟩ => List.not_mem_nil he
  | cons e blocks ih =>
    intro c h
    rw [List.foldl_cons]
    rcases h with h | ⟨e', he', hp⟩
    · exact ih _ (.inl (mmaStep_nan (.inl h)))
    · rcases List.mem_cons.mp he' with rfl | he'
      · exact ih _ (.inl (mmaStep_nan (.inr hp)))
      · exact ih _ (.inr ⟨e', he', hp⟩)

/-- A NaN factor makes the element the canonical NaN (R110, R251). -/
theorem mmaElement_nan {f : MForm} {c i : Nat} {row col : List (Option FVal)} {x y : FVal} (scale : Nat → Nat × Nat) (hf : f ≠ .ii)
    (hx : row[i]? = some (some x)) (hy : col[i]? = some (some y)) (hnan : x.isNan = true ∨ y.isNan = true) :
    mmaElement f c row col scale = 0x7FC00000 := by
  have hzip : (some x, some y) ∈ row.zip col := List.mem_of_getElem? (List.getElem?_zip_eq_some.mpr ⟨hx, hy⟩)
  have hp : (x, y) ∈ (row.zip col).map fun p => factors p.1 p.2 := List.mem_map.mpr ⟨_, hzip, rfl⟩
  obtain ⟨b, hb, hpb⟩ := mem_chunks (n := 32) (by decide) _ _ (le_refl _) hp
  obtain ⟨k, hk, rfl⟩ := List.getElem_of_mem hb
  have hfold := foldl_mmaStep_nan scale ((chunks 32 _ ((row.zip col).map fun p => factors p.1 p.2)).mapIdx fun kb b => (kb, b)) c
    (.inr ⟨_, List.mem_mapIdx.mpr ⟨k, hk, rfl⟩, (x, y), hpb, hnan⟩)
  rw [mmaElement.eq_def]
  cases f with
  | ii => exact absurd rfl hf
  | bb | hh | ee | ef | ff => exact hfold

end Sys2Proof.Claims

namespace Sys2Proof
open Machine Claims

/-- Settles O43. -/
theorem matrixCommandsRun : Obligations.MatrixCommandsRun := by
  refine ⟨fun s cl crew acc rows e rest f hqueue hrun => ⟨fun hcmd => ?_, fun hfail => ?_, fun hfail => ?_⟩,
    fun s cl acc n e base sw bs ws hcmd hrows hn hle hread hfail => ?_,
    fun s u cl acc n e base sw p hcmd hrows hone hn hpos hline hplace hfail => ?_,
    fun c xs ys bankA bankB scale _ => mmaElement_ii c xs ys bankA bankB scale,
    fun f c i row col x y scale hf hx hy hnan => mmaElement_nan scale hf hx hy hnan⟩
  · have hrc := runCommand_mzero (s := s) (cl := cl) hcmd
    have hfail : (s.runCommand cl e).fail = none := by rw [hrc]
    have hstate : (s.runCommand cl e).state =
      s.mapCoreAt cl e.core fun c => c.setTile acc ⟨fill 32 0, fill 32 (mkWord s.ctx.world.agentEpoch false 0)⟩ := by rw [hrc]
    refine ⟨_, commandComplete_next hqueue hrun hfail, ?_⟩
    rw [hstate]
    set u := s.mapCoreAt cl e.core fun c => c.setTile acc ⟨fill 32 0, fill 32 (mkWord s.ctx.world.agentEpoch false 0)⟩ with hu
    have hcore : u.coreAt cl e.core = (s.coreAt cl e.core).setTile acc ⟨fill 32 0, fill 32 (mkWord s.ctx.world.agentEpoch false 0)⟩ :=
      State.coreAt_mapCoreAt_same _ _ _ _
    have hq : ((retired u cl crew e).mengine cl crew).queue = rest := by
      rw [retired_queue, hu, mengine_mapCoreAt, hqueue]
      rfl
    have hregs : ((retired u cl crew e).coreAt cl e.core).regs = (s.coreAt cl e.core).regs := by
      rw [retired_coreAt, hcore, setTile_regs]
    have hdev : (retired u cl crew e).dev = s.dev := State.mapCoreAt_dev _ _ _ _
    cases hlast : e.last with
    | true =>
      rw [if_pos rfl]
      refine ⟨by rw [spoilTiles_queue, hq], fun h => absurd h (by decide), by rw [spoilTiles_regs, hregs], by rw [spoilTiles_dev, hdev]⟩
    | false =>
      rw [if_neg Bool.false_ne_true]
      refine ⟨hq, fun _ => ⟨fun i hi => ?_, ?_⟩, hregs, hdev⟩
      · rw [retired_coreAt, hcore, setTile_tile]
        exact ⟨fill_get _ _ _, fill_get _ _ _⟩
      · rw [retired_coreAt, hcore, setTile_tile_other]
  · refine ⟨_, commandComplete_next hqueue hrun hfail, ?_⟩
    have hlocks : ∀ l ∈ ((retired (s.runCommand cl e).state cl crew e).cluster cl).locks, l.id ∉ e.locks := by
      intro l hl
      rw [retired_locks] at hl
      have := (List.mem_filter.mp hl).2
      intro hmem
      rw [List.contains_iff_mem.mpr hmem] at this
      cases this
    cases hlast : e.last with
    | true =>
      rw [if_pos rfl]
      exact ⟨spoilTiles_dev _ _ _, by rw [spoilTiles_locks]; exact hlocks, fun h => absurd h (by decide)⟩
    | false =>
      rw [if_neg Bool.false_ne_true]
      exact ⟨rfl, hlocks, fun _ => by rw [retired_coreAt]; exact ⟨rfl, rfl⟩⟩
  · have hexec : exec (.matrixHalt cl crew) s = execMatrixHalt cl crew s := rfl
    rw [execMatrixHalt, hqueue, State.engineRuns, hrun, if_neg Bool.false_ne_true] at hexec
    dsimp only at hexec
    rw [hfail] at hexec
    refine ⟨_, hexec, ?_⟩
    have haside := ((runCommand_tiles s cl e).trans (.of_read (noteDeny_ok _ (e.agent cl) f.deny))).aside cl e.core
    refine ⟨?_, ?_, ?_, ?_, ?_, ?_⟩
    · rw [mengine_mapCoreAt, mengine_mapMengine]
    · rw [State.coreAt_mapCoreAt_same]
    · rw [State.coreAt_mapCoreAt_same]
    · rw [State.coreAt_mapCoreAt_same, coreAt_mapMengine, haside]
    · rw [State.coreAt_mapCoreAt_same]
      exact ⟨_, rfl, rfl, rfl, rfl⟩
    · rw [State.mapCoreAt_dev]
      rfl
  · exact mlda_rows hcmd hrows hn hle hread hfail
  · exact msta_row hcmd hrows hone hn hpos hline hplace hfail

end Sys2Proof
end

section
/-! PROOF. The sweep unit and its runs (R321 to R340). -/

namespace Sys2Proof.Claims
open Machine

/-! ### Combines (R324, R325) -/

theorem edgeCombine_32 {op old c new : Nat} (h : (op, new) ∈ combines32 old (c % 2 ^ 32)) : op < 5 ∧ edgeCombine op old c = new := by
  simp only [combines32, List.mem_cons, Prod.mk.injEq, List.not_mem_nil, or_false] at h
  rcases h with ⟨rfl, rfl⟩ | ⟨rfl, rfl⟩ | ⟨rfl, rfl⟩ | ⟨rfl, rfl⟩ <;> exact ⟨by decide, rfl⟩

theorem liftAccess_ok {α : Type} (a : α) : liftAccess (.ok a) = .ok a := rfl

theorem liftRun_inv {α : Type} {x : Except EngineFail α} {a : α} (h : liftRun x = .ok a) : x = .ok a := by
  cases x with
  | ok b => cases h; rfl
  | error f => cases h

theorem combine_written {s u t : State} {cl v new : Nat} {r : EdgeRun} {c : Word} {w : LabelWord} {p : Place} {moved bad : Bool}
    (hplace : s.enginePlace (r.agent cl) .atomic (r.stateVa v) = .ok (p, u))
    (hnew : (r.desc.op, new) ∈ combines32 (u.dev.num p.loc 4) (c.toNat % 2 ^ 32))
    (h : s.combineAt cl r v c w = .ok (moved, bad, t)) :
    bad = false ∧ moved = decide (new ≠ u.dev.num p.loc 4) ∧ ∀ j, j < 4 → t.dev.byte (p.loc + j) = BitVec.ofNat 8 (new / 256 ^ j) := by
  obtain ⟨hop, hcombine⟩ := edgeCombine_32 hnew
  have hwidth : r.desc.width = 4 := if_pos hop
  rw [State.combineAt, hplace, liftAccess_ok, except_bind_ok] at h
  dsimp only at h
  obtain ⟨_, _, h⟩ := bind_ok h
  rw [if_neg (by omega), hwidth, hcombine] at h
  obtain ⟨t', hwrite, h⟩ := bind_ok h
  cases h
  obtain ⟨hat, -⟩ := enginePartial_written (liftRun_inv hwrite)
  refine ⟨rfl, rfl, fun j hj => ?_⟩
  rw [hat j (by rw [bytesOf, List.length_map, List.length_range]; exact hj), bytesOf_getD hj]

theorem poisonCheck_clean {s : State} {a : Agent} {acc : Access} {p : Place} (h : clean s p) : s.poisonCheck a acc p = .ok () := by
  obtain ⟨hpoison, hlink⟩ := h
  rw [State.poisonCheck, hpoison, State.linkCheck, hlink]
  rfl

theorem combine_mismatch {s u : State} {cl v : Nat} {r : EdgeRun} {c : Word} {w : LabelWord} {p : Place}
    (hplace : s.enginePlace (r.agent cl) .atomic (r.stateVa v) = .ok (p, u)) (hop : r.desc.op = 6) (hclean : clean u p)
    (hdiff : u.dev.num p.loc 8 ≠ c.toNat) (hseen : minimise u.ctx.world.nogoods (u.engineEval (u.lineWord p)) ≠ []) :
    s.combineAt cl r v c w = .ok (false, true, u) := by
  have hwidth : r.desc.width = 8 := if_neg (by rw [hop]; decide)
  have hhidden : hidden u.ctx.world.nogoods (u.engineEval (u.lineWord p)) = false := decide_eq_false hseen
  rw [State.combineAt, hplace, liftAccess_ok, except_bind_ok]
  dsimp only
  rw [poisonCheck_clean hclean, liftAccess_ok, except_bind_ok, if_pos hop, hwidth, ljoinOf, if_neg hdiff, hhidden]
  rfl

/-! ### The runs (R331, R335, R337) -/

theorem leaveRun_edge (c : Core) : c.leaveRun.edge = none := by
  rw [Core.leaveRun]
  cases h : c.edge with
  | none => exact h
  | some e => rfl

theorem leaveAll_edge (cl c : Nat) (js : List (Nat × (Nat × LabelWord))) : ∀ s : State,
    ((s.coreAt cl c).edge = none ∨ ∃ j ∈ js, j.1 = c) →
      ((js.foldl (fun t j => t.mapCoreAt cl j.1 Core.leaveRun) s).coreAt cl c).edge = none := by
  induction js with
  | nil => exact fun s h => h.resolve_right fun ⟨_, hj, _⟩ => List.not_mem_nil hj
  | cons j js ih =>
    intro s h
    rw [List.foldl_cons]
    apply ih
    by_cases hj : j.1 = c
    · rw [hj, State.coreAt_mapCoreAt_same, leaveRun_edge]
      exact .inl rfl
    · rcases h with h | ⟨j', hj', hc⟩
      · left
        rw [State.coreAt_mapCoreAt_other _ _ fun hsame => hj hsame.2.symm, h]
      · rcases List.mem_cons.mp hj' with rfl | hj'
        · exact absurd hc hj
        · exact .inr ⟨j', hj', hc⟩

theorem leaveAll_dev (cl : Nat) (js : List (Nat × (Nat × LabelWord))) : ∀ s : State,
    (js.foldl (fun t j => t.mapCoreAt cl j.1 Core.leaveRun) s).dev = s.dev := by
  induction js with
  | nil => exact fun s => rfl
  | cons j js ih => exact fun s => (ih _).trans (State.mapCoreAt_dev _ _ _ _)

theorem bumpAll_dev (cl : Nat) (err : Bool) (js : List (Nat × Nat)) : ∀ s : State,
    (js.foldl (fun t j => t.bumpAt cl j.1 j.2 1 err) s).dev = s.dev := by
  induction js with
  | nil => exact fun s => rfl
  | cons j js ih => exact fun s => (ih _).trans (State.mapCoreAt_dev _ _ _ _)

/-- A run without ranges and without a status word ends on the device as it stands. -/
theorem finishRun_dev (s : State) (cl : Nat) {r : EdgeRun} (hlocks : r.locks = []) (hstat : r.desc.statva = 0) :
    (s.finishRun cl r).dev = s.dev := by
  rw [State.finishRun, leaveAll_dev]
  split
  · rfl
  · rw [State.closeRun, bumpAll_dev, hlocks, State.statusWrite, if_pos hstat]
    rfl

theorem group_mapGroup (k : Cluster) (g : Nat) (f : CatchGroup → CatchGroup) : (k.mapGroup g f).group g = f (k.group g) :=
  fileGet_filePut_same _ _ _ _

/-- A member that arrives has its flag set. -/
theorem mark_flag {g : CatchGroup} {m : Nat} (h : g.isMember m = true) : (g.mark m false false).flag m = true := by
  have hm : m < 217 := by
    by_contra hge
    rw [CatchGroup.isMember, CatchGroup.members, Nat.testBit_mod_two_pow, decide_eq_false hge] at h
    cases h
  rw [CatchGroup.flag, CatchGroup.mark, BitVec.toNat_ofNat, Nat.testBit_mod_two_pow, decide_eq_true hm, Bool.true_and, Nat.testBit_or,
    Nat.testBit_two_pow_self, Bool.or_true]

theorem mapCoreAt_group (s : State) (cl c : Nat) (f : Core → Core) (cl' g : Nat) :
    ((s.mapCoreAt cl c f).cluster cl').group g = (s.cluster cl').group g := by
  have := congrArg (fun k : Cluster => k.group g) (mapCoreAt_cluster s cl c f cl')
  exact this

theorem arriveFor_kept (s : State) (cl : Nat) (r : EdgeRun) (core : Nat) : (s.arriveFor cl r core).dev = s.dev ∧
    ((s.arriveFor cl r core).coreAt cl core).regs = (s.coreAt cl core).regs ∧
    (((s.cluster cl).group r.desc.g).isMember core = true → (((s.arriveFor cl r core).cluster cl).group r.desc.g).flag core = true) := by
  unfold State.arriveFor
  extract_lets g
  have hg : g = (s.cluster cl).group r.desc.g := rfl
  by_cases h : (g.isMember core && !g.flag core) = true
  · rw [if_pos h]
    refine ⟨State.mapCoreAt_dev _ _ _ _, ?_, fun hmember => ?_⟩
    · rw [coreAt_mapCluster _ cl (fun k => k.mapGroup r.desc.g (·.mark core false false)) (fun _ => rfl), State.coreAt_mapCoreAt_same]
    · rw [State.cluster_mapCluster_same, group_mapGroup, mapCoreAt_group, ← hg]
      exact mark_flag (hg ▸ hmember)
  · rw [if_neg h]
    refine ⟨rfl, rfl, fun hmember => ?_⟩
    rw [hg, hmember, Bool.true_and, Bool.not_eq_true', Bool.not_eq_false] at h
    exact h

theorem putRun_coreAt (s : State) (cl : Nat) (r q : EdgeRun) (cl' c : Nat) : (s.putRun cl r q).coreAt cl' c = s.coreAt cl' c :=
  coreAt_mapCluster s cl (fun k => { k with runs := k.runs.map fun x => if sameRun r x then q else x }) (fun _ => rfl) cl' c

/-! ### The unit works for an owner (R329, R332) -/

theorem shareDone_putRun (s : State) (cl : Nat) (r q x : EdgeRun) (core : Nat) : (s.putRun cl r q).shareDone cl x core = s.shareDone cl x core := by
  rw [State.shareDone, State.shareDone, putRun_coreAt]

theorem unitLoop_stops {cl core : Nat} {r : EdgeRun} {s : State} (fuel : Nat)
    (h : (s.coreAt cl core).awaitsEdge = false) : State.unitLoop cl core fuel r s = (r, s) := by
  cases fuel with
  | zero => rfl
  | succ n => rw [State.unitLoop, Core.readyForEdge, h]; rfl

theorem unitLoop_none {cl core : Nat} {r : EdgeRun} {s : State} (fuel : Nat) (h : s.unitAct cl core r = .ok none) :
    State.unitLoop cl core fuel r s = (r, s) := by
  cases fuel with
  | zero => rfl
  | succ n =>
    rw [State.unitLoop, h]
    exact ite_self _

theorem unitLoop_once {cl core : Nat} {r q : EdgeRun} {s t : State} (fuel : Nat) (hready : (s.coreAt cl core).readyForEdge = true)
    (h : s.unitAct cl core r = .ok (some (q, t))) (hbusy : (t.coreAt cl core).awaitsEdge = false) :
    State.unitLoop cl core (fuel + 1) r s = (q, t) := by
  rw [State.unitLoop, hready, h]
  exact unitLoop_stops fuel hbusy

/-- With nothing to do for an owner that waits, its share of the superstep is done. -/
theorem unitAct_none_shareDone {s : State} {cl core : Nat} {r : EdgeRun} (hready : (s.coreAt cl core).readyForEdge = true)
    (h : s.unitAct cl core r = .ok none) : s.shareDone cl r core = true := by
  have hawaits : (s.coreAt cl core).awaitsEdge = true := (Bool.and_eq_true_iff.mp hready).1
  rw [State.unitAct] at h
  split at h
  · obtain ⟨x, -, h⟩ := bind_ok h
    cases h
  · next hgiven =>
    split at h
    · obtain ⟨⟨edge, u⟩, -, h⟩ := bind_ok h
      dsimp only at h
      split at h
      · obtain ⟨v, -, h⟩ := bind_ok h
        cases h
      · split at h
        · cases h
        · obtain ⟨v, -, h⟩ := bind_ok h
          cases h
    · next hscan =>
      split at h
      · next htodo =>
        rw [State.shareDone, hawaits, hgiven, hscan, htodo]
        rfl
      · obtain ⟨⟨lo, hi, u⟩, -, h⟩ := bind_ok h
        dsimp only at h
        split at h
        · obtain ⟨v, -, h⟩ := bind_ok h
          cases h
        · cases h

/-! ### The events of the unit -/

theorem startRun_started {s t : State} {cl : Nat} {r q : EdgeRun} (h : s.startRun cl r = .ok (some (q, t))) :
    q.phase = .boundary ∧ q.desc = r.desc ∧ q.step = r.step := by
  rw [State.startRun] at h
  obtain ⟨⟨ctl, s1⟩, -, h⟩ := bind_ok h
  obtain ⟨⟨out, w2, s2⟩, -, h⟩ := bind_ok h
  obtain ⟨⟨inn, w3, s3⟩, -, h⟩ := bind_ok h
  dsimp only at h
  split at h
  · cases h
  · cases h
    exact ⟨rfl, rfl, rfl⟩

theorem beginStep_begun {s t : State} {cl : Nat} {r q : EdgeRun} (h : s.beginStep cl r = .ok (q, t)) :
    q.phase = .running ∧ q.changed = [] ∧ q.done = [] ∧ q.step = r.step := by
  rw [State.beginStep] at h
  obtain ⟨⟨active, s1⟩, -, h⟩ := bind_ok h
  obtain ⟨⟨unf, s2⟩, -, h⟩ := bind_ok h
  obtain ⟨⟨pull, s3⟩, -, h⟩ := bind_ok h
  obtain ⟨⟨snap, s4⟩, -, h⟩ := bind_ok h
  obtain ⟨s5, -, h⟩ := bind_ok h
  cases h
  exact ⟨rfl, rfl, rfl, rfl⟩

theorem endStep_ended {s t : State} {cl : Nat} {r q : EdgeRun} (h : s.endStep cl r = .ok (q, t)) :
    q.step = r.step + 1 ∧ (r.changed = [] → q.phase = .ending) ∧ (q.step = r.desc.limit → q.phase = .ending) := by
  rw [State.endStep] at h
  obtain ⟨s1, -, h⟩ := bind_ok h
  obtain ⟨s2, -, h⟩ := bind_ok h
  obtain ⟨⟨unf, s3⟩, -, h⟩ := bind_ok h
  cases h
  refine ⟨rfl, fun hnone => if_pos ?_, fun hlimit => if_pos ?_⟩
  · rw [hnone]
    rfl
  · exact Bool.or_eq_true_iff.mpr (.inr (decide_eq_true hlimit))

section
variable {s : State} {cl : Nat} {r : EdgeRun} (hrun : s.ctx.stopped = false) (hactive : (s.cluster cl).activeRun = some r)
include hrun hactive

/-- What a superstep event does with the current run. -/
theorem exec_superstep : exec (.superstep cl) s = .next (match r.phase with
      | .boundary =>
        match s.beginStep cl r with
        | .error _ => s
        | .ok (r', t) => t.putRun cl r r'
      | .running =>
        if !s.stepDone cl r then s
        else match s.endStep cl r with
          | .error _ => s
          | .ok (r', t) => if r'.phase = .ending then (t.dropRun cl r).finishRun cl r' else t.putRun cl r r'
      | .ending =>
        if !s.quiet cl r then s
        else if r.code = 9 then (s.dropRun cl r).finishRun cl r
        else ((s.dropRun cl r).arriveAll cl r (!r.changed.isEmpty) true).finishRun cl { r with step := r.step + 1 }
      | .joining | .ready | .paused => s) := by
  have hexec : exec (.superstep cl) s = execSuperstep cl s := rfl
  rw [hexec, execSuperstep, hactive, State.engineRuns, hrun, if_neg Bool.false_ne_true] <;> rfl

theorem exec_edgeInvocation {core : Nat} (hphase : r.phase = .running) (hcore : core ∈ r.cores) :
    exec (.edgeInvocation cl core) s = .next
      (if ((State.unitLoop cl core (2 ^ 34) r s).2.putRun cl r (State.unitLoop cl core (2 ^ 34) r s).1).shareDone cl
          (State.unitLoop cl core (2 ^ 34) r s).1 core
        then ((State.unitLoop cl core (2 ^ 34) r s).2.putRun cl r (State.unitLoop cl core (2 ^ 34) r s).1).arriveFor cl
          (State.unitLoop cl core (2 ^ 34) r s).1 core
        else (State.unitLoop cl core (2 ^ 34) r s).2.putRun cl r (State.unitLoop cl core (2 ^ 34) r s).1) := by
  have hexec : exec (.edgeInvocation cl core) s = execEdgeInvocation cl core s := rfl
  rw [hexec, execEdgeInvocation, hactive, State.engineRuns, hrun, if_neg Bool.false_ne_true]
  dsimp only
  rw [List.contains_iff_mem.mpr hcore, hphase]
  rfl

end

end Sys2Proof.Claims

namespace Sys2Proof
open Machine Claims

/-- Settles O51. -/
theorem edgeRuns : Obligations.EdgeRuns := by
  refine ⟨fun s u t cl v old new r c w p moved bad hplace => ⟨fun hold hnew hcombine => ?_, fun hop hclean hdiff hseen =>
    combine_mismatch hplace hop hclean hdiff hseen⟩, fun s t cl core r q hrun => ⟨fun hready hstart => ?_, fun hactive =>
      ⟨fun hphase hbegin => ?_, fun hphase hdone hend => ?_, fun hphase hquiet hcode hlocks hstat => ?_,
        fun hphase hcore hready hact hbusy => ?_, fun hphase hcore hready hact => ?_⟩, fun hfail => ?_⟩⟩
  · subst hold
    exact combine_written hplace hnew hcombine
  · have hexec : exec (.edgeRunStart cl) s = execEdgeRunStart cl s := rfl
    rw [execEdgeRunStart, hready, State.engineRuns, hrun, if_neg Bool.false_ne_true] at hexec
    dsimp only at hexec
    rw [hstart] at hexec
    obtain ⟨hb, hd, hs⟩ := startRun_started hstart
    exact ⟨hb, hd, hs, hexec⟩
  · obtain ⟨hr, hc, hd, hs⟩ := beginStep_begun hbegin
    refine ⟨hr, hc, hd, hs, ?_⟩
    rw [exec_superstep hrun hactive, hphase]
    dsimp only
    rw [hbegin]
  · obtain ⟨hs, he, hl⟩ := endStep_ended hend
    have hexec := exec_superstep hrun hactive
    rw [hphase] at hexec
    dsimp only at hexec
    rw [hdone, hend] at hexec
    have hexec : exec (.superstep cl) s = .next (if q.phase = .ending then (t.dropRun cl r).finishRun cl q else t.putRun cl r q) := hexec
    refine ⟨hs, he, hl, fun hq => ?_, fun hq => ?_⟩
    · rw [hexec, if_neg (by rw [hq]; decide)]
    · rw [hexec, if_pos hq]
  · have hexec := exec_superstep hrun hactive
    rw [hphase] at hexec
    dsimp only at hexec
    rw [hquiet, if_pos hcode] at hexec
    refine ⟨_, hexec, (finishRun_dev _ cl hlocks hstat).trans rfl, fun c k l hj => ?_⟩
    rw [if_neg (by decide), State.finishRun]
    exact leaveAll_edge cl c r.joins _ (.inr ⟨_, hj, rfl⟩)
  · have hexec := exec_edgeInvocation hrun hactive hphase hcore
    obtain ⟨fuel, hfuel⟩ : ∃ n, 2 ^ 34 = n + 1 := ⟨2 ^ 34 - 1, rfl⟩
    rw [hfuel, unitLoop_once fuel hready hact hbusy] at hexec
    have hnot : (t.putRun cl r q).shareDone cl q core = false := by
      rw [shareDone_putRun, State.shareDone, hbusy]
      rfl
    rw [hexec, hnot]
    rfl
  · have hexec := exec_edgeInvocation hrun hactive hphase hcore
    rw [unitLoop_none _ hact, shareDone_putRun, unitAct_none_shareDone hready hact, if_pos rfl] at hexec
    obtain ⟨hdev, hregs, hflag⟩ := arriveFor_kept (s.putRun cl r r) cl r core
    refine ⟨_, hexec, hdev, hregs.trans (by rw [putRun_coreAt]), fun _ hmember => hflag ?_⟩
    rw [State.putRun, State.cluster_mapCluster_same]
    exact hmember
  · have hexec : exec (.edgeRunFault cl) s = execEdgeRunFault cl s := rfl
    rw [execEdgeRunFault, hfail, State.engineRuns, hrun, if_neg Bool.false_ne_true] at hexec
    exact ⟨_, hexec, rfl, rfl, rfl⟩

end Sys2Proof
end

section
/-! PROOF. Results that return, parks that end, upcalls delivered (R25, R51, R149, R194). -/

namespace Sys2Proof.Claims
open Machine

/-! ### Results (R51, R52, R101) -/

theorem oneWritten_filePut {α : Type} {n : Nat} (h : 0 < n) (v : Vector α n) {d : Nat} (hd : d < n) (a : α) :
    oneWritten h v (filePut h v d a) d a := by
  intro r hr
  split
  · next heq => rw [heq, fileGet_filePut_same]
  · next hne => exact fileGet_filePut_ne h v a hd hr hne

/-- A result that returns is written as its register says, its flags joining FCSR's. -/
theorem land_landed (r : Regs) (p : Pending) : landed r (r.land p) p := by
  rw [landed, Regs.land]
  cases hreg : p.reg with
  | x d =>
    dsimp only
    rw [Regs.putX]
    split
    · next h => exact ⟨rfl, rfl, fun _ => ⟨rfl, rfl⟩, fun hpos => absurd h (Nat.pos_iff_ne_zero.mp hpos)⟩
    · next h => exact ⟨rfl, rfl, fun h0 => absurd h0 h, fun _ hd => ⟨oneWritten_filePut _ _ hd _, oneWritten_filePut _ _ hd _⟩⟩
  | f d => exact ⟨rfl, rfl, fun hd => ⟨oneWritten_filePut _ _ hd _, oneWritten_filePut _ _ hd _⟩⟩
  | v d => exact ⟨rfl, rfl, fun hd => ⟨oneWritten_filePut _ _ hd _, oneWritten_filePut _ _ hd _⟩⟩
  | p d =>
    dsimp only
    rw [Regs.putP]
    split
    · next h => exact ⟨rfl, rfl, fun _ => ⟨rfl, rfl⟩, fun hpos => absurd h (Nat.pos_iff_ne_zero.mp hpos)⟩
    · next h => exact ⟨rfl, rfl, fun h0 => absurd h0 h, fun _ hd => ⟨oneWritten_filePut _ _ hd _, oneWritten_filePut _ _ hd _⟩⟩

theorem returnOne_some {c : Core} {n : Nat} {p : Pending} (h : c.pending[n]? = some p) :
    c.returnOne n = { c with regs := c.regs.land p, pending := c.pending.eraseIdx n } := by
  rw [Core.returnOne, h]

/-! ### Parks (R25, R149) -/

theorem wokenAt {s : State} {cl core : Nat} (f : Core → Core) (hpark : ∀ c, (f c).park = none) (hregs : ∀ c, (f c).regs = c.regs) :
    ((s.mapCoreAt cl core f).coreAt cl core).park = none ∧ coreRegsKept s (s.mapCoreAt cl core f) cl core ∧
      (s.mapCoreAt cl core f).dev = s.dev := by
  rw [coreRegsKept, State.coreAt_mapCoreAt_same]
  exact ⟨hpark _, hregs _, State.mapCoreAt_dev _ _ _ _⟩

theorem reached_of_count {c : Core} {k threshold : Nat}
    (h : (count c k + (2 ^ 31 - threshold % 2 ^ 31)) % 2 ^ 31 < 2 ^ 30) : reached (bitsAt (c.counter k) 0 31) threshold = true := by
  rw [reached, decide_eq_true_iff, bitsAt_low, Nat.add_sub_assoc (by omega)]
  exact h

/-! ### Upcalls (R193, R194) -/

theorem upcallCause_fields (u : Upcall) (lost : Bool) : (u.cause lost).toNat % 2 ^ 8 = u.kind.code ∧
    (u.cause lost).toNat / 2 ^ 8 % 2 ^ 8 = u.detail % 2 ^ 8 := by
  have hkind : u.kind.code < 4 := by cases u.kind <;> decide
  have hlost : oneBit lost ≤ 1 := by cases lost <;> decide
  rw [Upcall.cause, BitVec.toNat_ofNat]
  omega

theorem deliver_cons {c : Core} {u : Upcall} {rest : List Upcall} (h : c.upcalls = u :: rest) :
    c.deliver = Core.take { c with upcalls := rest } u := by
  rw [Core.deliver, h]

end Sys2Proof.Claims

namespace Sys2Proof
open Machine Claims

/-- Settles O52. -/
theorem coreEvents : Obligations.CoreEvents := by
  intro s cl core n k threshold stroke p u rest
  have hwake : exec (.coreParkWake cl core) s = execCoreParkWake cl core s := rfl
  refine ⟨fun hp => ?_, fun hrun hpark hpending => ?_, fun hrun hpark hreached => ?_, fun hrun hpark hstroke => ?_,
    fun hrun hready hupcalls => ?_⟩
  · refine ⟨_, rfl, ?_, State.mapCoreAt_dev _ _ _ _, ?_, ?_⟩
    · rw [State.coreAt_mapCoreAt_same, returnOne_some hp]
    · exact mapCoreAt_world _ _ _ _
    · rw [State.coreAt_mapCoreAt_same, returnOne_some hp]
      exact land_landed _ _
  · rw [execCoreParkWake, State.engineRuns, hrun, if_neg Bool.false_ne_true, State.parkWake, hpark] at hwake
    dsimp only at hwake
    rw [if_pos hpending] at hwake
    exact ⟨_, hwake, wokenAt _ (fun _ => rfl) (fun _ => rfl)⟩
  · rw [execCoreParkWake, State.engineRuns, hrun, if_neg Bool.false_ne_true, State.parkWake, hpark] at hwake
    dsimp only at hwake
    rw [if_pos (reached_of_count hreached)] at hwake
    exact ⟨_, hwake, wokenAt _ (fun _ => rfl) (fun _ => rfl)⟩
  · have hexec : exec (.fencescTickEnd cl core) s = execFencescTickEnd cl core s := rfl
    rw [execFencescTickEnd, State.engineRuns, hrun, if_neg Bool.false_ne_true, State.fencescEnd, hpark] at hexec
    dsimp only at hexec
    rw [if_pos hstroke] at hexec
    exact ⟨_, hexec, wokenAt _ (fun _ => rfl) (fun _ => rfl)⟩
  · have hexec : exec (.upcallDelivery cl core) s = execUpcallDelivery cl core s := rfl
    rw [execUpcallDelivery, State.engineRuns, hrun, if_neg Bool.false_ne_true, if_pos hready] at hexec
    have hcore : (if (s.coreAt cl core).park = some .macq then
          s.mapCluster cl fun k => k.mapEngine (crewOf core) fun e => { e with requests := eraseAt (memberOf core) e.requests }
        else s).coreAt cl core = s.coreAt cl core := by
      split
      · exact coreAt_mapMengine s cl (crewOf core) (fun e => { e with requests := eraseAt (memberOf core) e.requests }) cl core
      · rfl
    have hdev : (if (s.coreAt cl core).park = some .macq then
          s.mapCluster cl fun k => k.mapEngine (crewOf core) fun e => { e with requests := eraseAt (memberOf core) e.requests }
        else s).dev = s.dev := by
      split <;> rfl
    obtain ⟨hkind, hdetail⟩ := upcallCause_fields u (s.coreAt cl core).uplost
    refine ⟨_, hexec, ?_⟩
    rw [State.coreAt_mapCoreAt_same, hcore, deliver_cons hupcalls, State.mapCoreAt_dev, hdev]
    exact ⟨rfl, rfl, rfl, hkind, hdetail, rfl, rfl, rfl, rfl, rfl, rfl, rfl, rfl⟩

end Sys2Proof
end

section
/-! PROOF. The stroke tick (R150, R224, R373, R458). -/

namespace Sys2Proof.Claims
open Machine

/-! ### What a tick counts -/

/-- Of the device only counters and poison may have changed. -/
def CountsOnly (d e : Device) : Prop := { e with counters := d.counters, poison := d.poison } = d

theorem CountsOnly.trans {d e f : Device} (h : CountsOnly d e) (k : CountsOnly e f) : CountsOnly d f := by
  rw [CountsOnly, ← h, ← k]

theorem countBy_only (d : Device) (n k : Nat) : CountsOnly d (d.countBy n k) := rfl

theorem count_only (d : Device) (n : Nat) : CountsOnly d (d.count n) := rfl

theorem poisoned_only (d : Device) (l : List Nat) : CountsOnly d { d with poison := l } := rfl

theorem errors_only (d : Device) (n : Nat) : CountsOnly d (d.errors n) := by
  unfold Device.errors
  extract_lets e line f
  have he : CountsOnly d e := ((countBy_only _ _ _).trans (countBy_only _ _ _)).trans (countBy_only _ _ _)
  clear_value e
  have hf : CountsOnly d f := by
    by_cases hline : line < 2 ^ 40
    · rw [show f = e.count ctrDramue from if_pos hline]
      exact he.trans (count_only _ _)
    · rw [show f = e from if_neg hline]
      exact he
  clear_value f
  split
  · exact he
  · exact (hf.trans (poisoned_only f _)).trans (count_only _ _)

/-- What a tick brings to the device, counts apart (R2, R458, R459). -/
def afterTick (d : Device) : Device :=
  { d with stroke := d.stroke + 1, snapshot := d.counters, powerCap := d.pendingCap.getD d.powerCap, pendingCap := none }

theorem tick_only (d : Device) : CountsOnly (afterTick d) d.tick := by
  unfold Device.tick
  extract_lets e
  split
  · exact count_only _ _
  · rfl

theorem ticked_dev (s : State) : CountsOnly (afterTick s.dev) s.ticked.dev := (tick_only s.dev).trans (errors_only _ _)

theorem CountsOnly.mem {d e : Device} (h : CountsOnly d e) : e.mem = d.mem := by
  have := congrArg Device.mem h
  exact this

theorem ticked_memory (s : State) : memoryKept s s.ticked := memoryKept_of_mem (ticked_dev s).mem

/-! ### Parks at a tick (R25, R149) -/

/-- Of a core only its park, what its container finds when it issues again, and the stall may have changed; none that issues parks. -/
def ParkOnly (c d : Core) : Prop :=
  { d with park := c.park, grants := c.grants, stalled := c.stalled } = c ∧ (c.park = none → d.park = none)

theorem ParkOnly.refl (c : Core) : ParkOnly c c := ⟨rfl, id⟩

theorem ParkOnly.trans {c d e : Core} (h : ParkOnly c d) (k : ParkOnly d e) : ParkOnly c e := by
  obtain ⟨h1, h2⟩ := h
  obtain ⟨k1, k2⟩ := k
  exact ⟨by rw [← h1, ← k1], k2 ∘ h2⟩

theorem wake_parkOnly (c : Core) (v : Word) : ParkOnly c (c.wake v) := ⟨rfl, fun _ => rfl⟩

/-- Of the state only parks may have changed. -/
structure ParksOnly (s t : State) : Prop where
  core : ParkOnly s.core t.core
  focus : t.focus = s.focus
  others : t.others = s.others
  dev : t.dev = s.dev
  ctx : { t.ctx with clusters := s.ctx.clusters } = s.ctx
  cluster : ∀ cl, { t.cluster cl with cores := (s.cluster cl).cores } = s.cluster cl

theorem ParksOnly.refl (s : State) : ParksOnly s s := ⟨.refl _, rfl, rfl, rfl, rfl, fun _ => rfl⟩

theorem ParksOnly.trans {s t u : State} (h : ParksOnly s t) (k : ParksOnly t u) : ParksOnly s u where
  core := h.core.trans k.core
  focus := k.focus.trans h.focus
  others := k.others.trans h.others
  dev := k.dev.trans h.dev
  ctx := by rw [← h.ctx, ← k.ctx]
  cluster cl := by rw [← h.cluster cl, ← k.cluster cl]

/-- A core that is parked changes so. -/
theorem parksOnly_mapCoreAt {s : State} {cl c : Nat} {f : Core → Core} (hf : ParkOnly (s.coreAt cl c) (f (s.coreAt cl c))) :
    ParksOnly s (s.mapCoreAt cl c f) where
  core := by
    unfold State.mapCoreAt
    split
    · next h =>
      rw [State.coreAt, if_pos h] at hf
      exact hf
    · exact .refl _
  focus := State.mapCoreAt_focus _ _ _ _
  others := by
    unfold State.mapCoreAt
    split <;> rfl
  dev := State.mapCoreAt_dev _ _ _ _
  ctx := by
    unfold State.mapCoreAt
    split <;> rfl
  cluster cl' := mapCoreAt_cluster s cl c f cl'

theorem wakeAt_only (s : State) (cl c : Nat) (v : Word) : ParksOnly s (s.mapCoreAt cl c (·.wake v)) :=
  parksOnly_mapCoreAt (wake_parkOnly _ v)

theorem wakeIf_only (s : State) (cl c : Nat) (b : Bool) : ParksOnly s (if b then s.mapCoreAt cl c (·.wake 0) else s) := by
  split
  · exact wakeAt_only s cl c 0
  · exact .refl s

theorem wakeTimed_only {s : State} {cl c : Nat} {until_ job : Word} {late : Bool}
    (hpark : (s.coreAt cl c).park = some (.cycle until_ job late)) : ParksOnly s (s.wakeTimed cl c until_ job late) := by
  unfold State.wakeTimed
  extract_lets awake
  have hawake : ParksOnly s awake := wakeAt_only s cl c 0
  clear_value awake
  split
  · split
    · exact hawake
    · exact .refl s
  · split
    · exact .refl s
    · split
      · exact wakeAt_only s cl c _
      · exact parksOnly_mapCoreAt ⟨rfl, fun h => by rw [hpark] at h; cases h⟩

theorem parkWake_only (s : State) (cl c : Nat) : ParksOnly s (s.parkWake cl c) := by
  unfold State.parkWake
  extract_lets k wakeIf
  have hwakeIf (b : Bool) : ParksOnly s (wakeIf b) := wakeIf_only s cl c b
  clear_value wakeIf
  split
  · split
    · exact parksOnly_mapCoreAt ⟨rfl, fun _ => rfl⟩
    · exact .refl s
  · exact hwakeIf _
  · next hpark => exact wakeTimed_only hpark
  · dsimp only
    split
    · exact wakeAt_only s cl c _
    · exact .refl s
  · exact hwakeIf _
  · exact hwakeIf _
  all_goals exact .refl s

theorem fencescEnd_only (s : State) (cl c : Nat) : ParksOnly s (s.fencescEnd cl c) := by
  unfold State.fencescEnd
  split
  · split
    · exact wakeAt_only s cl c 0
    · exact .refl s
  · exact .refl s

theorem foldl_parksOnly {α : Type} {f : State → α → State} (hf : ∀ s a, ParksOnly s (f s a)) (l : List α) :
    ∀ s : State, ParksOnly s (l.foldl f s) := by
  induction l with
  | nil => exact fun s => .refl s
  | cons a l ih => exact fun s => (hf s a).trans (ih _)

/-! ### A tick with nothing due (R150, R224) -/

/-- No record waits, reserves or is suspended in the cluster. -/
def quietCluster (s : State) (cl : Nat) : Prop :=
  (s.cluster cl).suspended = [] ∧ (s.cluster cl).reservations = [] ∧ ∀ e, e ∈ (s.cluster cl).runq → e.2 = []

theorem quietCluster.of_parks {s t : State} {cl : Nat} (h : quietCluster s cl) (k : ParksOnly s t) : quietCluster t cl := by
  obtain ⟨h1, h2, h3⟩ := h
  have hk := k.cluster cl
  have hs := congrArg Cluster.suspended hk
  have hr := congrArg Cluster.reservations hk
  have hq := congrArg Cluster.runq hk
  dsimp only at hs hr hq
  exact ⟨hs.trans h1, hr.trans h2, by rw [hq]; exact h3⟩

/-- What a tick does to the cores of a cluster. -/
def parkTick (cl : Nat) (t : State) (c : Nat) : State := (t.parkWake cl c).fencescEnd cl c

theorem parkTick_only (cl : Nat) (s : State) (c : Nat) : ParksOnly s (parkTick cl s c) :=
  (parkWake_only s cl c).trans (fencescEnd_only _ cl c)

theorem tickCluster_quiet {s : State} {cl : Nat} (h : quietCluster s cl) :
    s.tickCluster cl = (s.listedCores cl).foldl (parkTick cl) s := by
  have hafter := h.of_parks (foldl_parksOnly (parkTick_only cl) (s.listedCores cl) s)
  obtain ⟨hsusp, -, -⟩ := h
  obtain ⟨-, hres, hrunq⟩ := hafter
  have hqueued : (((s.listedCores cl).foldl (parkTick cl) s).queuedRecords cl) = [] := by
    rw [State.queuedRecords, List.flatMap_eq_nil_iff]
    exact hrunq
  simp only [State.tickCluster, hsusp, List.foldl_nil]
  rw [show (fun t c => (State.parkWake t cl c).fencescEnd cl c) = parkTick cl from rfl, hres, List.map_nil, List.foldl_nil, hqueued, List.foldl_nil, hqueued]
  rfl

/-- All clusters are quiet, at a gang-stop none, and no image is being unloaded. -/
def quietContext (s : State) : Prop := s.ctx.stopped = false ∧ (∀ cl, quietCluster s cl) ∧ ∀ i ∈ s.ctx.images, i.unloading = none

theorem quietContext.of_parks {s t : State} (h : quietContext s) (k : ParksOnly s t) : quietContext t := by
  obtain ⟨hstop, hquiet, himages⟩ := h
  have hs := congrArg Context.stopped k.ctx
  have hi := congrArg Context.images k.ctx
  dsimp only at hs hi
  exact ⟨hs.trans hstop, fun cl => (hquiet cl).of_parks k, by rw [hi]; exact himages⟩

theorem tickCluster_parks {s : State} (h : quietContext s) (cl : Nat) : ParksOnly s (s.tickCluster cl) := by
  rw [tickCluster_quiet (h.2.1 cl)]
  exact foldl_parksOnly (parkTick_only cl) _ s

theorem tickClusters_parks (cls : List Nat) : ∀ {s : State}, quietContext s →
    ParksOnly s (cls.foldl (fun t cl => t.tickCluster cl) s) := by
  induction cls with
  | nil => exact fun _ => .refl _
  | cons cl cls ih =>
    intro s h
    rw [List.foldl_cons]
    have hfirst := tickCluster_parks h cl
    exact hfirst.trans (ih (h.of_parks hfirst))

theorem freeImages_none {s : State} (h : ∀ i ∈ s.ctx.images, i.unloading = none) (sel : Image → Bool) : s.freeImages sel = s := by
  rw [State.freeImages]
  dsimp only
  rw [if_neg]
  rw [Bool.and_eq_true, not_and, Bool.not_eq_true, List.any_eq_false]
  intro _ i hi
  rw [h i hi, Bool.and_false, Bool.false_and]
  exact Bool.false_ne_true

theorem tickContext_quiet {s : State} (h : quietContext s) :
    s.tickContext = s.listedClusters.foldl (fun t cl => t.tickCluster cl) s := by
  have hafter := h.of_parks (tickClusters_parks s.listedClusters h)
  obtain ⟨hstop, -, -⟩ := h
  obtain ⟨-, -, himages⟩ := hafter
  rw [State.tickContext, hstop, if_neg Bool.false_ne_true, freeImages_none himages]

/-- The core that moves is the first that a tick of its context looks at. -/
theorem tickContext_parks {s : State} (h : quietContext s) :
    ParksOnly (parkTick s.focus.cl s s.focus.core) s.tickContext := by
  rw [tickContext_quiet h, State.listedClusters, List.eraseDups_cons, List.foldl_cons]
  refine ParksOnly.trans ?_ (tickClusters_parks _ (h.of_parks (tickCluster_parks h s.focus.cl)))
  rw [tickCluster_quiet (h.2.1 _), State.listedCores, if_pos rfl, List.singleton_append, List.foldl_cons]
  exact foldl_parksOnly (parkTick_only _) _ _

theorem dropFailed_none {s : State} (hfailed : s.dev.cxlFailed = []) (hpool : s.dev.poolLost = false) :
    s.dropFailed = s.mapDev fun d => { d with cxlFailed := [] } := by
  rw [State.dropFailed, hfailed, hpool]
  rfl

end Sys2Proof.Claims
end

section
/-! PROOF. Stroke ticks, page walks, the fault ring and shootdown (R150, R409, R412, R415, R418, R458). -/

namespace Sys2Proof.Claims
open Machine

/-! ### Maps of values -/

theorem lookup_mapValues {α β : Type} (f : α → β) (m : NatMap α) (k : Nat) :
    lookup (m.map fun e => (e.1, f e.2)) k = (lookup m k).map f := by
  induction m with
  | nil => rfl
  | cons e m ih =>
    obtain ⟨j, v⟩ := e
    rw [List.map_cons, lookup, lookup]
    split
    · rfl
    · exact ih

theorem lookupD_mapValues {α β : Type} (f : α → β) (d : α) (m : NatMap α) (k : Nat) {d' : β} (hd : f d = d') :
    lookupD d' (m.map fun e => (e.1, f e.2)) k = f (lookupD d m k) := by
  rw [lookupD, lookupD, lookup_mapValues, ← hd]
  cases lookup m k <;> rfl

/-! ### A tick (R2, R150, R224, R373, R458) -/

/-- A cluster after a tick. -/
def tickedCluster (k : Context) (c : Cluster) : Cluster := { c with cores := c.cores.map fun e => (e.1, e.2.tick k.world k.cg) }

theorem ticked_cluster {s : State} (h : s.ctx.stopped = false) (cl : Nat) : s.ticked.cluster cl = tickedCluster s.ctx (s.cluster cl) := by
  have hctx : s.ticked.ctx.clusters = s.ctx.clusters.map fun e => (e.1, tickedCluster s.ctx e.2) := by
    show s.ctx.tick.clusters = _
    rw [Context.tick, h, if_neg Bool.false_ne_true]
    rfl
  rw [State.cluster, hctx]
  exact lookupD_mapValues (tickedCluster s.ctx) Cluster.reset s.ctx.clusters cl rfl

theorem ticked_quiet {s : State} (h : nothingDue s) : quietContext s.ticked := by
  obtain ⟨-, hstop, himages, hclusters⟩ := h
  have hctx : s.ticked.ctx.stopped = s.ctx.stopped ∧ s.ticked.ctx.images = s.ctx.images := by
    show s.ctx.tick.stopped = _ ∧ s.ctx.tick.images = _
    rw [Context.tick, hstop]
    exact ⟨rfl, rfl⟩
  refine ⟨hctx.1.trans hstop, fun cl => ?_, by rw [hctx.2]; exact himages⟩
  rw [quietCluster, ticked_cluster hstop]
  exact hclusters cl

theorem ticked_core {s : State} (h : s.ctx.stopped = false) : s.ticked.core = s.core.tick s.ctx.world s.ctx.cg := by
  show (if s.ctx.stopped = true then s.core else _) = _
  rw [h]
  rfl

theorem exec_strokeTick_quiet {s : State} (h : nothingQueued s) :
    exec .strokeTick s = .next (s.ticked.tickContext.mapDev fun d => { d with cxlFailed := [] }) := by
  obtain ⟨hdue, hfailed, hpool⟩ := h
  have hquiet := ticked_quiet hdue
  obtain ⟨hothers, hstop, -, -⟩ := hdue
  have hid : s.ticked.ctx.desc = s.ctx.desc ∧ s.ticked.others = [] := by
    refine ⟨?_, ?_⟩
    · show s.ctx.tick.desc = _
      rw [Context.tick, hstop]
      rfl
    · show s.others.map Context.tick = []
      rw [hothers]
      rfl
  have hall : s.ticked.inEvery State.tickContext = s.ticked.tickContext := by
    rw [State.inEvery, hid.2]
    exact if_pos rfl
  have hdev : s.ticked.tickContext.dev = s.ticked.dev := by
    have h1 := (tickContext_parks hquiet).dev
    exact h1.trans (parkTick_only _ _ _).dev
  have hf : s.ticked.dev.cxlFailed = [] := by
    have := congrArg Device.cxlFailed (ticked_dev s)
    exact this.trans hfailed
  have hp : s.ticked.dev.poolLost = false := by
    have h1 := congrArg Device.fabricPorts (ticked_dev s)
    have h2 := congrArg Device.lostUnits (ticked_dev s)
    dsimp only at h1 h2
    rw [Device.poolLost, h1, h2]
    exact hpool
  have hexec : exec .strokeTick s = execStrokeTick s := rfl
  rw [hexec, execStrokeTick, State.tickWork, hall, dropFailed_none (by rw [hdev, hf]) (by rw [hdev, hp])]

theorem parkWake_counter {s : State} {k threshold : Nat} (hpark : s.core.park = some (.counter k threshold))
    (hreached : (count s.core k + (2 ^ 31 - threshold % 2 ^ 31)) % 2 ^ 31 < 2 ^ 30) :
    (parkTick s.focus.cl s s.focus.core).core.park = none := by
  refine (fencescEnd_only _ _ _).core.2 ?_
  rw [State.parkWake, coreAt_focus, hpark]
  dsimp only
  rw [if_pos (reached_of_count hreached), mapCoreAt_focus_core]
  rfl

theorem fencescEnd_fencesc {s : State} {stroke : Nat} (hpark : s.core.park = some (.fencesc stroke)) (h : stroke < s.dev.stroke.toNat) :
    (parkTick s.focus.cl s s.focus.core).core.park = none := by
  have hsame : s.parkWake s.focus.cl s.focus.core = s := by
    rw [State.parkWake, coreAt_focus, hpark]
  rw [parkTick, hsame, State.fencescEnd, coreAt_focus, hpark]
  dsimp only
  rw [if_pos h, mapCoreAt_focus_core]
  rfl

/-! ### Page walks (R409, R412) -/

theorem pageKey_lt (va : Word) : pageKey va < 2 ^ 48 := by
  have := va.isLt
  rw [pageKey]
  omega

theorem lookup_eq_none {α : Type} {m : NatMap α} {k : Nat} : lookup m k = none ↔ ∀ e ∈ m, e.1 ≠ k := by
  induction m with
  | nil => exact ⟨fun _ _ he => (List.not_mem_nil he).elim, fun _ => rfl⟩
  | cons e m ih =>
    obtain ⟨j, v⟩ := e
    rw [lookup, List.forall_mem_cons]
    split
    · next h => exact ⟨fun hn => (Option.some_ne_none v hn).elim, fun hn => absurd h hn.1⟩
    · next h => rw [ih]; exact ⟨fun hn => ⟨h, hn⟩, And.right⟩

theorem lookup_roomIn_none {n pick k : Nat} {tlb : NatMap Leaf} (h : lookup tlb k = none) : lookup (roomIn n pick tlb) k = none := by
  rw [roomIn]
  split
  · exact h
  · exact lookup_eq_none.mpr fun e he => lookup_eq_none.mp h e (List.mem_of_mem_eraseIdx he)

/-- The cluster holds the translation that it has taken up. -/
theorem hold_cached (k : Cluster) (a : Agent) (va : Word) (f : Leaf) (pick : Nat) : (k.hold a va f pick).cached va = some f := by
  rw [Cluster.cached, heldIn]
  show (match lookup (insertAt (leafKey va f) f (roomIn Config.tlbCluster pick (forgetIn k.tlb va))) (pageKey va) with
    | some g => some g
    | none => lookup (insertAt (leafKey va f) f (roomIn Config.tlbCluster pick (forgetIn k.tlb va))) (blockKey va)) = some f
  by_cases hblock : f.block = true
  · have hkey : leafKey va f = blockKey va := if_pos hblock
    have hne : pageKey va ≠ blockKey va := by
      have := pageKey_lt va
      rw [blockKey]
      omega
    have hnone : lookup (forgetIn k.tlb va) (pageKey va) = none := lookup_eraseAt_same _ _
    rw [hkey, lookup_insertAt_other _ _ hne, lookup_roomIn_none hnone]
    exact lookup_insertAt_same _ _ _
  · have hkey : leafKey va f = pageKey va := if_neg hblock
    rw [hkey, lookup_insertAt_same]

theorem holdLeaf_core (s : State) (a : Agent) (va : Word) (f : Leaf) :
    (s.holdLeaf a va f).core = s.core ∧ (s.holdLeaf a va f).dev = s.dev := by
  rw [State.holdLeaf]
  split <;> exact ⟨rfl, rfl⟩

/-! ### Shootdown (R415) -/

theorem lookup_filter_none {α : Type} {p : Nat × α → Bool} {k : Nat} {m : NatMap α} (h : ∀ v, p (k, v) = false) :
    lookup (m.filter p) k = none := by
  refine lookup_eq_none.mpr fun e he hk => ?_
  have hp := (List.mem_filter.mp he).2
  obtain ⟨j, v⟩ := e
  rw [show (j, v) = (k, v) from congrArg (·, v) hk, h v] at hp
  cases hp

theorem heldIn_shot {tlb : NatMap Leaf} {lo npg : Nat} {x : Word} (hlo : lo ≤ x.toNat / 2 ^ 16) (hhi : x.toNat / 2 ^ 16 < lo + npg) :
    heldIn (tlb.filter fun l => !(false || covered lo npg l.1)) x = none := by
  have hpage : covered lo npg (pageKey x) = true := by
    rw [covered, if_pos (pageKey_lt x), pageKey, decide_eq_true hlo, decide_eq_true hhi]
    rfl
  have hblock : covered lo npg (blockKey x) = true := by
    rw [covered, if_neg (by rw [blockKey]; omega), blockKey, Nat.add_sub_cancel_left]
    simp only [Bool.and_eq_true, decide_eq_true_iff]
    omega
  rw [heldIn, lookup_filter_none fun v => by rw [hpage]; rfl]
  exact lookup_filter_none fun v => by rw [hblock]; rfl

theorem bitsAt_ofNat {w lo n : Nat} (x : Nat) (h : lo + n ≤ w) : bitsAt (BitVec.ofNat w x) lo n = x / 2 ^ lo % 2 ^ n := by
  have hw : lo + (w - lo) = w := by omega
  rw [bitsAt, BitVec.toNat_ofNat, ← hw, Nat.pow_add, Nat.mod_mul_right_div_self, Nat.mod_mod_of_dvd _ (Nat.pow_dvd_pow 2 (by omega))]

/-- Bits that are 0, the lowest of them apart. -/
theorem zeroBits_split {x lo n : Nat} (h : x / 2 ^ lo % 2 ^ (n + 1) = 0) : x.testBit lo = false ∧ x / 2 ^ (lo + 1) % 2 ^ n = 0 := by
  constructor
  · have hbit : (x / 2 ^ lo % 2 ^ (n + 1)).testBit 0 = x.testBit lo := by
      rw [Nat.testBit_mod_two_pow, Nat.testBit_div_two_pow, Nat.add_zero]
      simp
    rw [← hbit, h, Nat.zero_testBit]
  · rw [Nat.pow_succ, ← Nat.div_div_eq_div_mul, ← Nat.mod_mul_right_div_self, ← Nat.pow_succ', h, Nat.zero_div]

/-- The context after firmware has served a request for `npg` pages from page `lo` (R415). -/
def shotContext (k : Context) (lo npg stores : Nat) : Context :=
  { k with
    clusters := k.clusters.map fun e => (e.1, e.2.shoot false lo npg)
    shots := k.shots ++ [⟨lo, npg, stores⟩] }

theorem shot_forgotten {t : State} {lo npg stores : Nat} {x : Word} (hlo : lo ≤ x.toNat / 2 ^ 16) (hhi : x.toNat / 2 ^ 16 < lo + npg)
    (c : Nat) : ((t.mapCtx (shotContext · lo npg stores)).cluster c).cached x = none ∧
      ∀ who, ((t.mapCtx (shotContext · lo npg stores)).cluster c).firstOf who x = none := by
  have hcluster : (t.mapCtx (shotContext · lo npg stores)).cluster c = (t.cluster c).shoot false lo npg :=
    lookupD_mapValues (fun k : Cluster => k.shoot false lo npg) Cluster.reset t.ctx.clusters c (d' := Cluster.reset) rfl
  rw [hcluster]
  refine ⟨heldIn_shot hlo hhi, fun who => ?_⟩
  rw [Cluster.firstOf, Cluster.shoot]
  dsimp only
  rw [lookupD_mapValues (fun m : NatMap Leaf => m.filter fun l => !(false || covered lo npg l.1)) [] _ _ (d' := []) rfl]
  exact heldIn_shot hlo hhi

theorem shot_nearBusy (k : Context) (lo npg stores : Nat) : (shotContext k lo npg stores).nearBusy = k.nearBusy := by
  rw [Context.nearBusy, shotContext, List.any_map]
  rfl

end Sys2Proof.Claims

namespace Sys2Proof
open Machine Claims

/-- Settles O53. -/
theorem strokesAndTranslations : Obligations.StrokesAndTranslations := by
  intro s t cl slot crew line va job f w
  refine ⟨⟨s.ticked, rfl, ?_⟩, fun hquiet => ⟨_, exec_strokeTick_quiet hquiet, ?_⟩, fun hwin hcanon hcl hwalk => ?_,
    fun hrun howner hcrew hstate hjob => ?_, fun hread hseq hzero hone hmax hbusy => ?_⟩
  · have hdev := ticked_dev s
    have hstroke := congrArg Device.stroke hdev
    have hsnap := congrArg Device.snapshot hdev
    have hcap := congrArg Device.powerCap hdev
    have hpending := congrArg Device.pendingCap hdev
    refine ⟨hstroke, hsnap, hcap, hpending, ticked_memory s, ?_⟩
    cases hstop : s.ctx.stopped with
    | true =>
      have hcore : s.ticked.core = s.core := if_pos hstop
      have hctx : s.ticked.ctx = s.ctx := if_pos hstop
      rw [hcore, hctx]
      exact ⟨rfl, rfl, fun _ => ⟨rfl, rfl⟩, fun h => absurd h (by decide)⟩
    | false =>
      have hctx : s.ticked.ctx.world = { s.ctx.world with agentEpoch := s.ctx.world.epoch } := by
        show s.ctx.tick.world = _
        rw [Context.tick, hstop]
        rfl
      rw [ticked_core hstop, hctx]
      refine ⟨rfl, rfl, fun h => absurd h (by decide), fun _ => ⟨rfl, rfl, fun hrec => ?_, fun hrec => ?_⟩⟩
      · exact if_neg (by rw [Option.isNone_iff_eq_none]; exact hrec)
      · exact if_pos (by rw [hrec]; rfl)
  · obtain ⟨hdue, -, -⟩ := id hquiet
    have hstop := hdue.2.1
    have hfirst := tickContext_parks (ticked_quiet hdue)
    have hall := (parkTick_only _ _ _).trans hfirst
    have hdev := ticked_dev s
    have hstroke := congrArg Device.stroke hdev
    have hsnap := congrArg Device.snapshot hdev
    have hcore := hall.core.1
    rw [ticked_core hstop] at hcore
    have hpark : s.ticked.core.park = s.core.park := by rw [ticked_core hstop]; rfl
    have hmem : s.ticked.tickContext.dev.mem = s.dev.mem := by
      rw [hall.dev]
      exact hdev.mem
    refine ⟨by rw [State.mapDev_dev, hall.dev]; exact hstroke, by rw [State.mapDev_dev, hall.dev]; exact hsnap,
      ?_, ?_, ?_, memoryKept_of_mem hmem, fun k threshold hk hreached => ?_, fun n hn hle hlt => ?_⟩
    · have := congrArg Core.epoch hcore
      exact this
    · have := congrArg Core.regs hcore
      exact this
    · have := congrArg Core.pc hcore
      exact this
    · refine hfirst.core.2 (parkWake_counter (hpark.trans hk) ?_)
      rw [ticked_core hstop]
      exact hreached
    · refine hfirst.core.2 (fencescEnd_fencesc (hpark.trans hn) ?_)
      have hnext : s.ticked.dev.stroke = s.dev.stroke + 1 := hstroke
      have hone : (1 : Word).toNat = 1 := rfl
      rw [hnext, BitVec.toNat_add, hone]
      omega
  · have hexec : exec (.pageWalkComplete cl va) s = execPageWalkComplete cl va s := rfl
    rw [execPageWalkComplete, hwin, hcanon, hwalk, if_neg (by simpa using hcl)] at hexec
    have ht : TlbOnly s t := by
      have := walkFrom_only (engineOf cl .s) va 3 s 1 s.ctx.desc.troot
      rwa [hwalk] at this
    refine ⟨_, hexec, ?_, ?_, ?_⟩
    · have := congrArg (Cluster.cached · va) (State.cluster_mapCluster_same
        (if (t.cluster cl).tlbFull (engineOf cl .s) then t.drawn else t) cl (·.hold (engineOf cl .s) va f (t.freeNat 1)))
      exact this.trans (hold_cached _ _ _ _ _)
    · exact (holdLeaf_core t _ va f).1.trans ht.core
    · exact (holdLeaf_core t _ va f).2.trans ht.dev
  · have hexec : exec (.faultRecordPoll slot) s = execFaultRecordPoll slot s := rfl
    rw [execFaultRecordPoll, howner, State.engineRuns, hrun, if_neg Bool.false_ne_true] at hexec
    dsimp only at hexec
    rw [hstate, if_pos (.inl rfl), if_neg hcrew] at hexec
    have hanswer : s.answerJob cl crew job true = s.setJob cl crew job fun j => { j with state := .queued, fault := none } := by
      obtain ⟨j, hj, hid, hawait⟩ := hjob
      rw [State.answerJob]
      split
      · next hnone =>
        have := List.find?_eq_none.mp hnone j hj
        rw [hid, hawait] at this
        exact absurd (by simp) this
      · exact if_pos rfl
    rw [show decide (2 = 2) = true from rfl, hanswer] at hexec
    refine ⟨_, hexec, lookup_eraseAt_same _ _, ?_⟩
    rw [← setJob_jobs, ← unit_of_dev (statusWrite_ok (s.setJob cl crew job fun j => { j with state := .queued, fault := none })
      hostAgent (Context.ringVa _ slot) [0]).1]
    rfl
  · have hexec : exec .shootdownService s = execShootdownService s := rfl
    rw [execShootdownService, hread] at hexec
    dsimp only at hexec
    obtain ⟨hall, hrest⟩ := zeroBits_split (n := 319) hzero
    have hbit : bitAt (BitVec.ofNat 512 line) 192 = false := by
      rw [bitAt, BitVec.toNat_ofNat, Nat.testBit_mod_two_pow, hall, Bool.and_false]
    rw [hbit, bitsAt_ofNat _ (by decide), bitsAt_ofNat _ (by decide), bitsAt_ofNat _ (by decide), bitsAt_ofNat _ (by decide),
      bitsAt_ofNat _ (by decide),
      if_neg hseq, hrest, decide_eq_true hone, decide_eq_true hmax] at hexec
    have hexec : exec .shootdownService s = .next (
        if true = true ∧ (t.mapCtx (shotContext · (line / 2 ^ 0 % 2 ^ 64 / 2 ^ 16) (line / 2 ^ 64 % 2 ^ 64) s.dev.stores)).ctx.nearBusy = true then
          t.mapCtx (shotContext · (line / 2 ^ 0 % 2 ^ 64 / 2 ^ 16) (line / 2 ^ 64 % 2 ^ 64) s.dev.stores)
        else ((t.mapCtx (shotContext · (line / 2 ^ 0 % 2 ^ 64 / 2 ^ 16) (line / 2 ^ 64 % 2 ^ 64) s.dev.stores)).statusWrite hostAgent
          (BitVec.ofNat 64 s.ctx.desc.sdline + 20) (bytesOf 4 (line / 2 ^ 128 % 2 ^ 32))).service) := hexec
    have hfree : (t.mapCtx (shotContext · (line / 2 ^ 0 % 2 ^ 64 / 2 ^ 16) (line / 2 ^ 64 % 2 ^ 64) s.dev.stores)).ctx.nearBusy = false :=
      (shot_nearBusy t.ctx _ _ _).trans hbusy
    rw [hfree, if_neg (by decide)] at hexec
    refine ⟨_, t.mapCtx (shotContext · (line / 2 ^ 0 % 2 ^ 64 / 2 ^ 16) (line / 2 ^ 64 % 2 ^ 64) s.dev.stores), hexec, rfl,
      fun c x hlo hhi => ?_, rfl⟩
    rw [Nat.pow_zero, Nat.div_one]
    exact shot_forgotten hlo hhi c

end Sys2Proof
end

section
/-! PROOF. Health, power, throttling and lost units (R434, R435, R454 to R461). -/

namespace Sys2Proof.Claims
open Machine

/-! ### A single context (R428) -/

theorem inEvery_alone {s : State} (h : s.others = []) (f : State → State) : s.inEvery f = f s := by
  rw [State.inEvery, h]
  exact if_pos rfl

/-! ### A port of the network lost (R456) -/

theorem cutPackets_none {s : State} {qid : Nat} (h : ∀ q, lookup s.ctx.queues qid = some q → ∀ p ∈ q.packets, p.started = false) :
    s.cutPackets qid = s := by
  rw [State.cutPackets]
  split
  · rfl
  · next q hq =>
    rw [List.filter_eq_nil_iff.mpr fun p hp => by rw [h q hq p hp]; exact Bool.false_ne_true]
    rfl

theorem foldl_same {α : Type} {f : State → α → State} {s : State} {l : List α} (h : ∀ a ∈ l, f s a = s) : l.foldl f s = s := by
  induction l with
  | nil => rfl
  | cons a l ih => rw [List.foldl_cons, h a List.mem_cons_self, ih fun b hb => h b (List.mem_cons_of_mem a hb)]

theorem cutPort_none {s : State} (hremotes : ∀ cl, (s.cluster cl).remotes = [])
    (hpackets : ∀ e q, e ∈ s.ctx.queues → lookup s.ctx.queues e.1 = some q → ∀ p, p ∈ q.packets → p.started = false) :
    s.cutPort = s := by
  have hcut : (if s.ctx.stopped = true then s else (List.range s.ctx.nclus).foldl State.cutRemotes s) = s := by
    split
    · rfl
    · exact foldl_same fun cl _ => by rw [State.cutRemotes, hremotes]; rfl
  rw [State.cutPort, hcut]
  refine foldl_same fun qid hqid => ?_
  obtain ⟨e, he, rfl⟩ := List.mem_map.mp hqid
  exact cutPackets_none fun q hq p hp => hpackets e q he hq p hp

/-! ### Grants that lose a range (R404, R435) -/

theorem lookup_filterKeys {α : Type} (p : Nat → Bool) (m : NatMap α) (k : Nat) :
    lookup (m.filter fun e => p e.1) k = if p k then lookup m k else none := by
  induction m with
  | nil => exact (ite_self _).symm
  | cons e m ih =>
    obtain ⟨j, v⟩ := e
    rw [List.filter_cons]
    by_cases hp : p j = true
    · rw [if_pos hp, lookup, lookup, ih]
      by_cases hj : j = k
      · rw [if_pos hj, if_pos hj, if_pos (hj ▸ hp)]
      · rw [if_neg hj, if_neg hj]
    · rw [if_neg hp, ih, lookup]
      by_cases hj : j = k
      · rw [if_neg (hj ▸ hp), if_neg (hj ▸ hp)]
      · rw [if_neg hj]

/-- What a context loses when its grant loses `n` units from unit `first` on. -/
theorem revoke_lost {s : State} (hid : s.ctx.desc.ctxid ≠ 0) (hlive : s.ctx.destroyed = false) (first n : Nat) :
    (s.revoke first n).dev.cxlFailed = s.dev.cxlFailed ∧ (s.revoke first n).others = s.others ∧
    (s.revoke first n).ctx.destroyed = false ∧ (s.revoke first n).dev.rb = s.dev.rb ∧
    (s.revoke first n).ctx.desc = { s.ctx.desc with
      units := s.ctx.desc.units.filter fun u => decide (u < first ∨ first + n ≤ u)
      heap := s.ctx.desc.heap.filter fun u => decide (u < first ∨ first + n ≤ u) } ∧
    ∀ a, (s.revoke first n).dev.byte a = if s.ctx.desc.grant + first / 8 ≤ paOfLoc s.dev.rb a ∧
      paOfLoc s.dev.rb a < s.ctx.desc.grant + (first + n) / 8 then 0 else s.dev.byte a := by
  rw [State.revoke, if_neg fun h => h.elim hid fun h => by rw [hlive] at h; cases h]
  refine ⟨rfl, rfl, hlive, rfl, rfl, fun a => ?_⟩
  have hbyte := lookup_filterKeys (fun loc => !(decide (s.ctx.desc.grant + first / 8 ≤ paOfLoc s.dev.rb loc) &&
    decide (paOfLoc s.dev.rb loc < s.ctx.desc.grant + (first + n) / 8))) s.dev.mem a
  show (lookup (s.dev.mem.filter _) a).getD 0 = _
  rw [hbyte]
  by_cases hgone : s.ctx.desc.grant + first / 8 ≤ paOfLoc s.dev.rb a ∧ paOfLoc s.dev.rb a < s.ctx.desc.grant + (first + n) / 8
  · rw [if_pos hgone, decide_eq_true hgone.1, decide_eq_true hgone.2]
    rfl
  · rw [if_neg hgone, if_pos]
    · rfl
    · rw [Bool.not_eq_true', ← Bool.decide_and, decide_eq_false hgone]

/-- The units that stay when a port is lost, the pool not among the losses. -/
theorem stays_alone (num : Nat) (units : List Nat) :
    (units.filter fun u => decide (u < portUnits * (4 + num) ∨ portUnits * (4 + num) + portUnits ≤ u)) =
      units.filter fun u => decide (unitStays num false u) := by
  refine List.filter_congr fun u _ => decide_eq_decide.mpr ?_
  rw [unitStays, portUnits]
  simp only [Bool.false_eq_true, false_implies, and_true]
  omega

/-- The units that stay when the pool is lost too. -/
theorem stays_pool (num : Nat) (units : List Nat) :
    ((units.filter fun u => decide (u < portUnits * (4 + num) ∨ portUnits * (4 + num) + portUnits ≤ u)).filter fun u =>
      decide (u < portUnits * 12 ∨ portUnits * 12 + 4 * portUnits ≤ u)) = units.filter fun u => decide (unitStays num true u) := by
  rw [List.filter_filter]
  refine List.filter_congr fun u _ => ?_
  rw [← Bool.decide_and]
  refine decide_eq_decide.mpr ?_
  rw [unitStays, portUnits]
  simp only [forall_const]
  omega

/-- A stroke tick with nothing due but a failed port (R435). -/
theorem exec_strokeTick_failed {s : State} {num : Nat} (hdue : nothingDue s) (hfailed : s.dev.cxlFailed = [num])
    (hid : s.ctx.desc.ctxid ≠ 0) (hlive : s.ctx.destroyed = false) :
    ∃ v : State, v.ctx.desc = s.ctx.desc ∧ v.ctx.destroyed = false ∧ v.others = [] ∧ v.dev.rb = s.dev.rb ∧ v.dev.cxlFailed = [] ∧
      memoryKept s v ∧ exec .strokeTick s = .next (if s.dev.poolLost then
        (v.revoke (portUnits * (4 + num)) portUnits).revoke (portUnits * 12) (4 * portUnits)
        else v.revoke (portUnits * (4 + num)) portUnits) := by
  have hquiet := ticked_quiet hdue
  obtain ⟨hothers, hstop, -, -⟩ := hdue
  have hall := (parkTick_only _ _ _).trans (tickContext_parks hquiet)
  have hdev := ticked_dev s
  have hf := congrArg Device.cxlFailed hdev
  have h1 := congrArg Device.fabricPorts hdev
  have h2 := congrArg Device.lostUnits hdev
  have hrb := congrArg Device.rb hdev
  dsimp only at h1 h2
  have hctx : s.ticked.ctx.desc = s.ctx.desc ∧ s.ticked.ctx.destroyed = s.ctx.destroyed := by
    show s.ctx.tick.desc = _ ∧ s.ctx.tick.destroyed = _
    rw [Context.tick, hstop]
    exact ⟨rfl, rfl⟩
  have hdesc : s.ticked.tickContext.ctx.desc = s.ctx.desc := by
    have := congrArg Context.desc hall.ctx
    exact this.trans hctx.1
  have hdestroyed : s.ticked.tickContext.ctx.destroyed = false := by
    have := congrArg Context.destroyed hall.ctx
    exact this.trans (hctx.2.trans hlive)
  have hticked : s.ticked.others = [] := by
    show s.others.map Context.tick = []
    rw [hothers]
    rfl
  have halone : s.ticked.tickContext.others = [] := hall.others.trans hticked
  refine ⟨s.ticked.tickContext.mapDev fun d => { d with cxlFailed := [] }, hdesc, hdestroyed, halone,
    by rw [State.mapDev_dev, hall.dev]; exact hrb, rfl, fun a => ?_, ?_⟩
  · rw [← ticked_memory s a]
    have := congrArg (fun d : Device => d.byte a) hall.dev
    exact this
  · have hexec : exec .strokeTick s = execStrokeTick s := rfl
    have hpool : s.ticked.tickContext.dev.poolLost = s.dev.poolLost := by
      rw [hall.dev, Device.poolLost, h1, h2]
      rfl
    have hone : s.ticked.tickContext.dev.cxlFailed = [num] := by
      rw [hall.dev]
      exact hf.trans hfailed
    rw [hexec, execStrokeTick, State.tickWork, inEvery_alone hticked, State.dropFailed, hone, hpool, List.foldl_cons, List.foldl_nil,
      inEvery_alone (s := s.ticked.tickContext.mapDev fun d => { d with cxlFailed := [] }) halone]
    have hnext := (revoke_lost (s := s.ticked.tickContext.mapDev fun d => { d with cxlFailed := [] })
      (by rw [State.mapDev_ctx, hdesc]; exact hid) hdestroyed (portUnits * (4 + num)) portUnits).2.1.trans halone
    rw [inEvery_alone hnext]

end Sys2Proof.Claims

namespace Sys2Proof
open Machine Claims

/-- Settles O60. -/
theorem fleetEvents : Obligations.FleetEvents := by
  intro s units level die num kind
  refine ⟨⟨_, rfl, rfl⟩, ⟨_, rfl, rfl⟩, fun hlo hhi => ?_, fun h => ?_, ⟨_, rfl, rfl⟩, ⟨_, rfl, rfl⟩, fun h => ⟨_, rfl, ?_⟩,
    ⟨_, rfl, lookup_insertAt_same _ _ _, rfl, rfl, fun _ => rfl⟩, ⟨_, rfl, rfl, rfl, rfl⟩, fun h => ?_, fun h hothers hremotes hpackets => ?_,
    fun h => ?_, fun pool hdue hfailed hpool hid hlive => ?_, fun h d hd => ⟨fun hmute => ?_, fun hmute => ?_⟩⟩
  · refine ⟨_, _, congrArg Host.Outcome.next (if_pos ⟨hlo, hhi⟩), rfl, rfl, ?_⟩
    have := congrArg Device.powerCap (ticked_dev (s.mapDev fun d => { d with pendingCap := some units }))
    exact this
  · exact congrArg Host.Outcome.next (if_neg (by omega))
  · show s.mapDev (fun d => { d with throttle := level % 8 }) = _
    rw [Nat.mod_eq_of_lt h]
    rfl
  · have hexec : exec (.unitLoss kind num) s =
        .next ((s.mapDev fun d => { d with lostUnits := d.lostUnits ++ [(kind, num)] }).deviceFault 1) := by
      simp only [List.mem_cons, List.not_mem_nil, or_false] at h
      rcases h with rfl | rfl | rfl | rfl | rfl | rfl | rfl | rfl | rfl | rfl <;> rfl
    exact ⟨_, hexec, rfl, List.mem_append_right _ (List.mem_singleton.mpr rfl), rfl⟩
  · subst h
    refine ⟨_, rfl, ?_⟩
    refine (inEvery_alone (s := s.mapDev fun d => { d with lostUnits := d.lostUnits ++ [(.uePort, num)] }) hothers _).trans ?_
    exact cutPort_none (s := s.mapDev fun d => { d with lostUnits := d.lostUnits ++ [(.uePort, num)] }) hremotes hpackets
  · subst h
    refine ⟨_, rfl, rfl, fun n => ?_⟩
    show n ∈ (num :: s.dev.cxlFailed).eraseDups ↔ _
    rw [List.mem_eraseDups, List.mem_cons]
  · obtain ⟨v, hdesc, hdestroyed, halone, hrb, hnone, hmem, hexec⟩ := exec_strokeTick_failed hdue hfailed hid hlive
    have hlost := revoke_lost (by rw [hdesc]; exact hid) hdestroyed (portUnits * (4 + num)) portUnits
    rw [hdesc, hrb] at hlost
    obtain ⟨hf, -, hd1, hrb1, hdesc1, hbyte⟩ := hlost
    refine ⟨_, hexec, ?_⟩
    cases pool with
    | false =>
      rw [← hpool, if_neg Bool.false_ne_true, hdesc1]
      refine ⟨hf.trans hnone, ?_, ?_, fun a => ?_⟩
      · exact stays_alone num _
      · exact stays_alone num _
      · rw [hbyte, hmem a]
        refine if_congr ?_ rfl rfl
        simp only [portUnits, Bool.false_eq_true, false_and, or_false]
        omega
    | true =>
      have hlost2 := revoke_lost (s := v.revoke (portUnits * (4 + num)) portUnits) (by rw [hdesc1]; exact hid) hd1 (portUnits * 12) (4 * portUnits)
      rw [hdesc1, hrb1] at hlost2
      obtain ⟨hf2, -, -, -, hdesc2, hbyte2⟩ := hlost2
      rw [← hpool, if_pos rfl, hdesc2]
      refine ⟨hf2.trans (hf.trans hnone), ?_, ?_, fun a => ?_⟩
      · exact stays_pool num _
      · exact stays_pool num _
      · rw [hbyte2, hbyte, hmem a, ← ite_or]
        refine if_congr ?_ rfl rfl
        simp only [portUnits, true_and]
        omega
  · have hexec : exec (.unitLoss kind num) s = .next (if d.mute = true then
        ((s.mapDev fun d => { d with lostUnits := d.lostUnits ++ [(kind, num)] }).deviceFault 1).mapDev (·.safeTalkative)
        else s.mapDev fun d => { d with lostUnits := d.lostUnits ++ [(kind, num)] }) := by
      subst hd
      rcases h with rfl | rfl <;> rfl
    rw [hmute, if_neg Bool.false_ne_true] at hexec
    exact ⟨_, hexec, rfl⟩
  · have hexec : exec (.unitLoss kind num) s = .next (if d.mute = true then
        ((s.mapDev fun d => { d with lostUnits := d.lostUnits ++ [(kind, num)] }).deviceFault 1).mapDev (·.safeTalkative)
        else s.mapDev fun d => { d with lostUnits := d.lostUnits ++ [(kind, num)] }) := by
      subst hd
      rcases h with rfl | rfl <;> rfl
    rw [if_pos hmute] at hexec
    exact ⟨_, hexec, rfl, rfl, rfl, rfl⟩

end Sys2Proof
end

section
/-! PROOF. Boot, measurement and attestation (R443 to R453). -/

namespace Sys2Proof.Claims
open Machine

/-! ### Losses beyond which nothing boots (R445) -/

theorem lostOf_ge {d : Device} {k : UnitKind} {n : Nat} (h : ∀ i, i < n → (k, i) ∈ d.lostUnits) : n ≤ d.lostOf k := by
  have hnodup : ((List.range n).map fun i => (k, i)).Nodup := List.Nodup.map (fun _ _ h => (Prod.mk.inj h).2) List.nodup_range
  have hsub : ((List.range n).map fun i => (k, i)) ⊆ (d.lostUnits.filter fun u => u.1 == k).eraseDups := by
    intro u hu
    obtain ⟨i, hi, rfl⟩ := List.mem_map.mp hu
    rw [List.mem_eraseDups, List.mem_filter]
    exact ⟨h i (List.mem_range.mp hi), beq_self_eq_true k⟩
  have hlen := (List.subperm_of_subset hnodup hsub).length_le
  rwa [List.length_map, List.length_range] at hlen

theorem broken_of_lost {d : Device} (h : d.boot.failed = true ∨ lostAll d.lostUnits) : d.broken = true := by
  rw [Device.broken, Device.mute]
  rcases h with h | h | h | h
  · rw [h]
    rfl
  · simp only [Bool.or_eq_true, decide_eq_true_iff]
    exact .inl (.inr (.inr (lostOf_ge h)))
  · simp only [Bool.or_eq_true, decide_eq_true_iff]
    exact .inl (.inr (.inl (lostOf_ge h)))
  · simp only [Bool.or_eq_true, decide_eq_true_iff]
    exact .inr (lostOf_ge h)

/-! ### Measurements (R452) -/

theorem extend_mr (d : Device) (i : Nat) (digest : BitVec 384) : fileGet (by decide) (d.extend i digest).mr i =
    Config.sha384 (bytesOf 48 (fileGet (by decide) d.mr i).toNat ++ bytesOf 48 digest.toNat) :=
  fileGet_filePut_same _ _ _ _

/-- The device at the fetch command of the safe talkative state (R445). -/
def fromSafe (d : Device) : Device := { d with boot := { d.boot with tries := 0 } }

theorem extend_mr_other (d : Device) {i j : Nat} (digest : BitVec 384) (hi : i < 4) (hj : j < 4) (h : j ≠ i) :
    fileGet (by decide) (d.extend i digest).mr j = fileGet (by decide) d.mr j :=
  fileGet_filePut_ne _ _ _ hi hj h

/-! ### A fetch of the image (R446, R447) -/

/-- A device of which a fetch has been attempted once more. -/
def attempted (d : Device) : Device := { d with boot := { d.boot with tries := d.boot.tries + 1, stage := 2 } }

/-- An attempt that has failed with a code. -/
def attemptFailed (d : Device) (code : Nat) : Device :=
  let e := { attempted d with boot := { (attempted d).boot with code := code } }
  if e.boot.tries ≥ fetchLimit then e.safeTalkative else e

theorem fetchImage_none (d : Device) : d.fetchImage none = attemptFailed d 2 := rfl

theorem fetchImage_bad {d : Device} {bs : List Byte} (h : imageFault d.minSvn bs ≠ 0) :
    d.fetchImage (some bs) = attemptFailed d (imageFault d.minSvn bs) := by
  obtain ⟨code, hcode⟩ := Nat.exists_eq_succ_of_ne_zero h
  rw [hcode, Device.fetchImage]
  dsimp only
  rw [hcode]
  rfl

theorem fetchImage_good {d : Device} {bs : List Byte} (h : imageFault d.minSvn bs = 0) :
    d.fetchImage (some bs) = if d.broken then ((attempted d).extend 2 (Config.sha384 bs)).safeTalkative
      else ((attempted d).extend 2 (Config.sha384 bs)).start bs := by
  rw [Device.fetchImage]
  dsimp only
  rw [h]
  rfl

theorem attemptFailed_failed {s t : State} {code : Nat} (ht : t.dev = attemptFailed s.dev code) : fetchFailed s t code := by
  rw [fetchFailed, ht, attemptFailed]
  dsimp only
  split
  · next h =>
    have h : s.dev.boot.tries + 1 ≥ 8 := h
    exact ⟨rfl, fun hlt => absurd h (Nat.not_le_of_lt hlt), fun _ => ⟨rfl, rfl⟩⟩
  · next h =>
    have h : ¬ s.dev.boot.tries + 1 ≥ 8 := h
    exact ⟨rfl, fun _ => ⟨rfl, rfl⟩, fun hge => absurd hge h⟩

theorem start_fetched {s t : State} {bs : List Byte} {d : Device} (hmr : d.mr = s.dev.mr)
    (ht : t.dev = ((attempted d).extend 2 (Config.sha384 bs)).start bs) : fetched s t bs := by
  rw [fetched, ht]
  refine ⟨rfl, rfl, rfl, rfl, ?_⟩
  rw [← hmr]
  exact extend_mr (attempted d) 2 _

/-- What a fetch leaves of the rest of the device. -/
theorem fetchImage_keeps (d : Device) (image : Option (List Byte)) : (d.fetchImage image).mem = d.mem ∧
    (d.fetchImage image).minSvn = d.minSvn ∧ (d.fetchImage image).incarnation = d.incarnation ∧
    (d.fetchImage image).lostUnits = d.lostUnits ∧ (d.fetchImage image).cycle = d.cycle ∧
    (d.fetchImage image).boot.tries = d.boot.tries + 1 ∧
    fileGet (by decide) (d.fetchImage image).mr 0 = fileGet (by decide) d.mr 0 := by
  have hfailed (code : Nat) : (attemptFailed d code).mem = d.mem ∧ (attemptFailed d code).minSvn = d.minSvn ∧
      (attemptFailed d code).incarnation = d.incarnation ∧ (attemptFailed d code).lostUnits = d.lostUnits ∧
      (attemptFailed d code).cycle = d.cycle ∧ (attemptFailed d code).boot.tries = d.boot.tries + 1 ∧
      fileGet (by decide) (attemptFailed d code).mr 0 = fileGet (by decide) d.mr 0 := by
    rw [attemptFailed]
    dsimp only
    split <;> exact ⟨rfl, rfl, rfl, rfl, rfl, rfl, rfl⟩
  cases image with
  | none => exact hfailed 2
  | some bs =>
    by_cases h : imageFault d.minSvn bs = 0
    · have hmr := extend_mr_other (attempted d) (i := 2) (j := 0) (Config.sha384 bs) (by decide) (by decide) (by decide)
      rw [fetchImage_good h]
      split <;> exact ⟨rfl, rfl, rfl, rfl, rfl, rfl, hmr⟩
    · rw [fetchImage_bad h]
      exact hfailed _

/-! ### Power-on (R444, R445) -/

/-- The device after reset and self-test, before the first fetch. -/
def selfTested (old : Device) (test : SelfTest) : Device :=
  let d := { Device.reset with minSvn := old.minSvn, incarnation := old.incarnation, replies := old.replies }
  let d := (d.extend 0 Config.romDigest).extend 1 test.digest
  let bad := test.fatal || !test.lost.isEmpty
  { d with
    lostUnits := test.lost
    boot := { d.boot with
      stage := 1, code := oneBit bad, unit := ((test.lost.head?).map unitWord).getD 0, lost := bad
      failed := test.fatal } }

theorem exec_powerOnReset (s : State) (test : SelfTest) (image : Option (List Byte)) :
    exec (.powerOnReset test image) s = .next { State.reset with
      dev := if (selfTested s.dev test).broken then (selfTested s.dev test).safeTalkative else (selfTested s.dev test).fetchImage image
      agenda := s.agenda, fresh := s.fresh, ctx := { Context.fresh CtxDesc.zero with stopped := true } } := rfl

theorem selfTested_mr (old : Device) (test : SelfTest) : fileGet (by decide) (selfTested old test).mr 0 =
    Config.sha384 (bytesOf 48 0 ++ bytesOf 48 Config.romDigest.toNat) := by
  refine (extend_mr_other _ (i := 1) (j := 0) test.digest (by decide) (by decide) (by decide)).trans ?_
  rw [extend_mr]
  rfl

end Sys2Proof.Claims

namespace Sys2Proof
open Machine Claims

/-- Settles O59. -/
theorem firmwareEvents : Obligations.FirmwareEvents := by
  intro s test image bs svn id nonce
  refine ⟨?_, fun hstage htries => ⟨?_, ?_⟩, fun hstage => ?_, ⟨_, rfl, rfl⟩, ⟨_, _, rfl, rfl, ?_⟩, fun hlo hhi hstage => ?_,
    fun hid hlive hlen => ?_⟩
  · refine ⟨_, exec_powerOnReset s test image, rfl, rfl, rfl, ?_⟩
    have hmr := selfTested_mr s.dev test
    by_cases hbroken : (selfTested s.dev test).broken = true
    · dsimp only
      rw [if_pos hbroken]
      exact ⟨fun _ => rfl, rfl, rfl, rfl, rfl, fun _ => ⟨rfl, rfl⟩, hmr⟩
    · obtain ⟨hmem, hsvn, hinc, hlost, hcycle, -, hmr0⟩ := fetchImage_keeps (selfTested s.dev test) image
      dsimp only
      rw [if_neg hbroken]
      refine ⟨fun a => ?_, hsvn, hinc, hlost, hcycle, fun hall => absurd (broken_of_lost hall) hbroken, hmr0.trans hmr⟩
      rw [Device.byte, hmem]
      rfl
  · refine ⟨_, congrArg Host.Outcome.next (if_pos ⟨hstage, htries⟩), fun hgood hbroken => ?_, fun hgood hbroken => ?_, fun hbad => ?_⟩
    · exact start_fetched rfl (by rw [State.mapDev_dev, fetchImage_good hgood, hbroken]; rfl)
    · rw [State.mapDev_dev, fetchImage_good hgood, hbroken]
      exact ⟨rfl, rfl⟩
    · exact attemptFailed_failed (by rw [State.mapDev_dev, fetchImage_bad hbad])
  · exact ⟨_, congrArg Host.Outcome.next (if_pos ⟨hstage, htries⟩), attemptFailed_failed rfl⟩
  · refine ⟨_, congrArg Host.Outcome.next (if_pos hstage), ?_, fun hgood hbroken => ?_, fun hbad => ?_⟩
    · exact (fetchImage_keeps (fromSafe s.dev) (some bs)).2.2.2.2.2.1
    · refine start_fetched (d := fromSafe s.dev) rfl ?_
      have hbroken' : (fromSafe s.dev).broken = false := hbroken
      have := fetchImage_good (d := fromSafe s.dev) hgood
      rw [hbroken', if_neg Bool.false_ne_true] at this
      exact this
    · obtain ⟨hcode, hmore, -⟩ := attemptFailed_failed (s := s.mapDev fromSafe) (t := s.mapDev fun d => (fromSafe d).fetchImage (some bs))
        (fetchImage_bad (d := fromSafe s.dev) hbad)
      exact ⟨(hmore (Nat.lt_of_sub_eq_succ rfl)).1, hcode⟩
  · simp only [List.append_assoc]
    exact List.take_left' (Machine.bytesOf_length 48 nonce.toNat)
  · exact ⟨_, congrArg Host.Outcome.next (if_pos ⟨hlo, hhi, hstage⟩), rfl⟩
  · have hhas : s.hasContext s.ctx.desc.ctxid = true := by
      rw [State.hasContext, decide_eq_true hid, beq_self_eq_true, hlive]
      rfl
    refine ⟨_, congrArg Host.Outcome.next ((if_pos ⟨hhas, hlen⟩).trans (if_pos rfl)), lookup_insertAt_same _ _ _, ?_, rfl, rfl, fun _ => rfl⟩
    exact extend_mr s.dev 3 _

end Sys2Proof
end

section
/-! PROOF. Queues, doorbells and packets (R391 to R402). -/

namespace Sys2Proof.Claims
open Machine

/-! ### Queues of a context -/

section
variable {s t : State} {qid : Nat} {q : Queue} (hq : lookup s.ctx.queues qid = some q)
include hq

theorem mapQueue_eq (f : Queue → Queue) :
    s.mapQueue qid f = s.mapCtx fun c => { c with queues := insertAt qid (f q) c.queues } := by
  rw [State.mapQueue, State.queue, hq]

theorem mapQueue_lookup (f : Queue → Queue) : lookup (s.mapQueue qid f).ctx.queues qid = some (f q) := by
  rw [mapQueue_eq hq]
  exact lookup_insertAt_same _ _ _

theorem startPacket_alone (n : Nat) : startedAlone s (s.startPacket qid n) qid n q := by
  refine ⟨mapQueue_lookup hq _, ?_, ?_, ?_⟩ <;> rw [State.startPacket, mapQueue_eq hq] <;> rfl

/-- A WAIT or a BARRIER holds the queue, so that nothing is consumed (R399). -/
theorem consume_held (hold : q.holding = true) (fuel : Nat) : s.consume fuel qid = s := by
  cases fuel with
  | zero => rfl
  | succ fuel =>
    rw [State.consume, State.queue, hq]
    exact if_pos (.inr (.inr hold))

end

theorem queues_of_devOnly {s t : State} (h : DevOnly s t) : t.ctx.queues = s.ctx.queues := by
  have := congrArg Context.queues h.ctx
  exact this

theorem showQueue_only (s : State) (qid : Nat) : DevOnly s (s.showQueue qid) := by
  rw [State.showQueue]
  split
  · exact (statusPut_ok s _ _ _).1
  · exact DevOnly.refl s

theorem holding_of_mem {q : Queue} {x : Packet} (hx : x ∈ q.packets) (h : slotType x.slot = 5 ∨ slotType x.slot = 6) :
    q.holding = true := by
  rw [Queue.holding, List.any_eq_true]
  refine ⟨x, hx, ?_⟩
  rw [Bool.or_eq_true, beq_iff_eq, beq_iff_eq]
  exact h

theorem readyPacket_of_ready {s : State} {qid typ : Nat} {q : Queue} {p : Packet} (h : ready s qid typ q p) :
    s.readyPacket qid p.seq typ = some p := by
  rw [State.readyPacket, State.queue, h.1]
  exact h.2

/-! ### Contexts that the host names -/

theorem hasContext_focus {s : State} (hid : s.ctx.desc.ctxid ≠ 0) (hlive : s.ctx.destroyed = false) :
    s.hasContext s.ctx.desc.ctxid = true := by
  rw [State.hasContext, decide_eq_true hid, beq_self_eq_true, hlive]
  rfl

theorem exec_queueCreate {s : State} {desc : BitVec 512} (hdesc : desc.toNat / 2 ^ 176 % 2 ^ 16 = s.ctx.desc.ctxid)
    (hid : s.ctx.desc.ctxid ≠ 0) (hlive : s.ctx.destroyed = false) :
    exec (.queueCreate desc) s = .next (s.newQueue desc) := by
  have hhas := hasContext_focus hid hlive
  rw [← hdesc] at hhas
  exact congrArg Host.Outcome.next ((if_neg (by rw [bitsAt, hhas]; decide)).trans (if_pos hdesc))

/-! ### A queue created (R392 to R394) -/

/-- The queue that a descriptor makes, its memory key a free value. -/
def createdQueue (s : State) (d : BitVec 512) (m : Nat) : Queue :=
  { qid := m, key := BitVec.ofNat 32 (s.freeNat 1), ring := d.extractLsb' 0 64, caplog := bitsAt d 160 4
    statva := d.extractLsb' 64 64, rev := 1, rc := 0, wc := 0, state := .active, cause := 0, badwc := 0, stale := 0
    packets := [] }

/-- The state with the queue among those of its context. -/
def withQueue (s : State) (m : Nat) (q : Queue) : State := s.drawn.mapCtx fun k => { k with queues := insertAt m q k.queues }

theorem newQueue_created {s : State} {d : BitVec 512} {m : Nat} (hvalid : s.queueValid d = true) (hrun : s.ctx.faulted = false)
    (hfree : s.ctx.freeQid 65535 (s.freeNat 0 % 65535 + 1) = some m) :
    s.newQueue d =
      ((withQueue s m (createdQueue s d m)).showQueue m).reply (.qid m (createdQueue s d m).key) := by
  rw [State.newQueue, hvalid, hrun, if_neg (by decide), hfree]
  rfl

theorem newQueue_faulted {s : State} (d : BitVec 512) (h : s.ctx.faulted = true) : s.newQueue d = s.reply (.refused 1) := by
  rw [State.newQueue, h, Bool.or_true]
  exact if_pos rfl

theorem withQueue_shown (s : State) (m : Nat) (q : Queue) :
    lookup ((withQueue s m q).showQueue m).ctx.queues m = some q ∧
      ((withQueue s m q).showQueue m).dev.replies = s.dev.replies ∧ ((withQueue s m q).showQueue m).core = s.core := by
  refine ⟨?_, (showQueue_reported (withQueue s m q) m).replies, (showQueue_only (withQueue s m q) m).core⟩
  rw [queues_of_devOnly (showQueue_only _ m)]
  exact lookup_insertAt_same _ _ _

/-! ### Doorbells (R395, R402) -/

theorem exec_doorbell {s : State} {msg : BitVec 128} {qid : Nat} {q : Queue} (hmsg : msg.toNat / 2 ^ 64 = qid)
    (hqid : qid < 2 ^ 16) (hq : lookup s.ctx.queues qid = some q) :
    exec (.doorbell msg) s = .next (s.ring q (BitVec.ofNat 64 msg.toNat)) := by
  have hlow : bitsAt msg 64 16 = qid := by rw [bitsAt, hmsg, Nat.mod_eq_of_lt hqid]
  have hhigh : bitsAt msg 80 48 = 0 := by
    have hsplit : msg.toNat / 2 ^ 80 = msg.toNat / 2 ^ 64 / 2 ^ 16 := by omega
    rw [bitsAt, hsplit, hmsg, Nat.div_eq_of_lt hqid, Nat.zero_mod]
  have hword : msg.extractLsb' 0 64 = BitVec.ofNat 64 msg.toNat := by
    rw [BitVec.extractLsb', Nat.shiftRight_zero]
  have hexec : exec (.doorbell msg) s = execDoorbell msg s := rfl
  rw [hexec, execDoorbell, hlow, State.queue, hq, hword]
  exact congrArg Host.Outcome.next (if_neg (not_not.mpr hhigh))

section
variable {s : State} {q : Queue} {wcnt : Word} (hrun : s.ctx.faulted = false) (hactive : q.state = .active)
include hrun hactive

theorem ring_active : s.ring q wcnt =
    if (wcnt - q.wc).toNat ≥ 2 ^ 63 then s.mapQueue q.qid fun q => { q with stale := min 255 (q.stale + 1) }
    else if (wcnt - q.rc).toNat > 2 ^ q.caplog then
      (s.mapQueue q.qid fun q => { q with state := .frozen, cause := 2, badwc := wcnt, wc := q.rc }).showQueue q.qid
    else (s.mapQueue q.qid fun q => { q with wc := wcnt }).resumeQueue q.qid := by
  rw [State.ring, hrun, if_neg Bool.false_ne_true, hactive]

theorem ring_stale (h : 2 ^ 63 ≤ (wcnt - q.wc).toNat) :
    s.ring q wcnt = s.mapQueue q.qid fun q => { q with stale := min 255 (q.stale + 1) } := by
  rw [ring_active hrun hactive]
  exact if_pos h

theorem ring_beyond (h : (wcnt - q.wc).toNat < 2 ^ 63) (hbeyond : 2 ^ q.caplog < (wcnt - q.rc).toNat) :
    s.ring q wcnt =
      (s.mapQueue q.qid fun q => { q with state := .frozen, cause := 2, badwc := wcnt, wc := q.rc }).showQueue q.qid := by
  rw [ring_active hrun hactive, if_neg (Nat.not_le.mpr h)]
  exact if_pos hbeyond

theorem ring_covered (h : (wcnt - q.wc).toNat < 2 ^ 63) (hcovered : (wcnt - q.rc).toNat ≤ 2 ^ q.caplog) :
    s.ring q wcnt = (s.mapQueue q.qid fun q => { q with wc := wcnt }).resumeQueue q.qid := by
  rw [ring_active hrun hactive, if_neg (Nat.not_le.mpr h)]
  exact if_neg (Nat.not_lt.mpr hcovered)

end

/-! ### Dependencies -/

theorem depStates_only (vas : List Word) : ∀ {s t : State} {sts : List Nat}, s.depStates vas = .ok (sts, t) → DevOnly s t := by
  induction vas with
  | nil => intro s t sts h; cases h; exact DevOnly.refl s
  | cons va vas ih =>
    intro s t sts h
    rw [State.depStates] at h
    split at h
    · cases h
    · next hread =>
      split at h
      · cases h
      · next hrest =>
        cases h
        exact (engineRead_ok hread).1.trans (ih hrest)

theorem exec_packetDependencyMet {s u : State} {qid : Nat} {q : Queue} {p : Packet} {sts : List Nat}
    (hq : lookup s.ctx.queues qid = some q) (hfind : (q.packets.find? fun x => x.seq == p.seq && !x.met) = some p)
    (hdep : s.depStates ((List.range (slotNdep p.slot)).map (slotDep p.slot)) = .ok (sts, u)) (hdone : ∀ x ∈ sts, x = 1) :
    exec (.packetDependencyMet qid p.seq) s = .next (u.mapQueue qid fun q =>
      { q with packets := q.packets.map fun x => if x.seq = p.seq then { x with met := true } else x }) := by
  have hzero : sts.contains 0 = false := by
    rw [List.contains_eq_mem, decide_eq_false_iff_not]
    exact fun hmem => absurd (hdone 0 hmem) (by decide)
  have hall : sts.all (· == 1) = true := List.all_eq_true.mpr fun x hx => beq_iff_eq.mpr (hdone x hx)
  have hexec : exec (.packetDependencyMet qid p.seq) s = execPacketDependencyMet qid p.seq s := rfl
  rw [hexec, execPacketDependencyMet, State.queue, hq, Option.bind_some, hfind]
  dsimp only
  rw [hdep]
  dsimp only
  rw [hzero, if_neg Bool.false_ne_true, hall, if_pos rfl]

/-! ### Transfers -/

theorem exec_copyin {s : State} {qid : Nat} {q : Queue} {p : Packet} (h : ready s qid 2 q p) :
    exec (.copyin qid p.seq) s = .next ((s.startPacket qid p.seq).reply
      (.hostRead (hostAddr p.slot) (hostFep p.slot) (hostKey p.slot) (slotBody p.slot 16).toNat)) := by
  have hexec : exec (.copyin qid p.seq) s = execCopyin qid p.seq s := rfl
  rw [hexec, execCopyin, readyPacket_of_ready h]

theorem exec_copyout {s u : State} {qid : Nat} {q : Queue} {p : Packet} {bs : List Byte} {ws : List LabelWord}
    (h : ready s qid 3 q p) (hread : s.readSpan hostAgent (slotBody p.slot 0) (slotBody p.slot 16).toNat = .ok (bs, ws, u)) :
    exec (.copyout qid p.seq) s = .next ((u.startPacket qid p.seq).reply
      (.hostWrite (hostAddr p.slot) (hostFep p.slot) (hostKey p.slot) bs)) := by
  have hexec : exec (.copyout qid p.seq) s = execCopyout qid p.seq s := rfl
  rw [hexec, execCopyout, readyPacket_of_ready h]
  dsimp only
  rw [hread]

theorem startPacket_dev (s : State) (qid n : Nat) : (s.startPacket qid n).dev = s.dev := State.mapQueue_dev s qid _

end Sys2Proof.Claims

namespace Sys2Proof
open Machine Claims

/-- Settles O56: a queue is created with the fields of its descriptor, a doorbell goes one of three ways by its distance from
the counts, and a packet whose dependencies are DONE, or that starts a transfer, is marked so. -/
theorem hostQueues : Obligations.HostQueues := by
  unfold Obligations.HostQueues
  intro s desc msg qid m q p wcnt sts
  refine ⟨fun hdesc hid hlive hvalid hrun hfree => ?_, fun hdesc hid hlive hfault => ?_,
    fun hrun hq hqid hactive hmsg hw hlt => ?_, fun u hq hfind hdep hdone => ?_, fun hready => ?_,
    fun u bs ws hready hread hqu => ?_⟩
  · obtain ⟨hlookup, hreplies, hcore⟩ := withQueue_shown s m (createdQueue s desc m)
    refine ⟨_, createdQueue s desc m, (exec_queueCreate hdesc hid hlive).trans
      (congrArg Host.Outcome.next (newQueue_created hvalid hrun hfree)), hlookup, rfl, ?_, ?_, rfl, rfl, rfl, rfl, rfl, rfl, ?_, hcore⟩
    · rw [createdQueue, BitVec.extractLsb'_toNat, Nat.shiftRight_zero]
    · rw [createdQueue, BitVec.extractLsb'_toNat, Nat.shiftRight_eq_div_pow]
    · exact congrArg (· ++ [_]) hreplies
  · exact ⟨_, (exec_queueCreate hdesc hid hlive).trans (congrArg Host.Outcome.next (newQueue_faulted desc hfault)), rfl⟩
  · have hexec := exec_doorbell hmsg hlt hq
    rw [← hw] at hexec
    subst hqid
    refine ⟨fun hstale => ?_, fun hnear hbeyond => ?_, fun hnear hcovered hhold => ?_⟩
    · rw [ring_stale hrun hactive hstale] at hexec
      exact ⟨_, hexec, mapQueue_lookup hq _, (mapQueue_sameCore s _ _).1, State.mapQueue_dev s _ _⟩
    · rw [ring_beyond hrun hactive hnear hbeyond] at hexec
      refine ⟨_, hexec, ?_, (showQueue_only _ _).core.trans (mapQueue_sameCore s _ _).1⟩
      rw [queues_of_devOnly (showQueue_only _ _)]
      exact mapQueue_lookup hq _
    · obtain ⟨x, hx, htype⟩ := hhold
      have hnext := mapQueue_lookup hq fun q => { q with wc := wcnt }
      rw [ring_covered hrun hactive hnear hcovered, State.resumeQueue, consume_held hnext (holding_of_mem hx htype)] at hexec
      exact ⟨_, hexec, hnext, (mapQueue_sameCore s _ _).1, State.mapQueue_dev s _ _⟩
  · have honly := depStates_only _ hdep
    have hqu : lookup u.ctx.queues qid = some q := by rwa [queues_of_devOnly honly]
    exact ⟨_, exec_packetDependencyMet hq hfind hdep hdone, mapQueue_lookup hqu _,
      (mapQueue_sameCore u _ _).1.trans honly.core, State.mapQueue_dev u _ _⟩
  · refine ⟨_, exec_copyin hready, startPacket_alone hready.1 p.seq, ?_⟩
    have := startPacket_dev s qid p.seq
    rw [State.reply, State.mapDev_dev, this]
    rfl
  · refine ⟨_, exec_copyout hready hread, startPacket_alone hqu p.seq, ?_⟩
    rw [State.reply, State.mapDev_dev, startPacket_dev]
    rfl

end Sys2Proof
end

section
/-! PROOF. What packets do (R370, R374, R391, R398 to R402). -/

namespace Sys2Proof.Claims
open Machine

/-! ### The image of a LAUNCH (R398) -/

theorem bitsAt_extract {w : Nat} (v : BitVec w) {base lo n m : Nat} (h : lo + n ≤ m) :
    bitsAt (v.extractLsb' base m) lo n = bitsAt v (base + lo) n := by
  refine Nat.eq_of_testBit_eq fun i => ?_
  by_cases hi : i < n
  · rw [bitsAt_testBit _ hi, bitsAt_testBit _ hi, BitVec.getLsbD_extractLsb', decide_eq_true (by omega), Bool.true_and,
      Nat.add_assoc]
  · rw [Nat.testBit_lt_two_pow ((bitsAt_lt _ lo n).trans_le (Nat.pow_le_pow_right (by decide) (Nat.not_lt.mp hi))),
      Nat.testBit_lt_two_pow ((bitsAt_lt _ _ n).trans_le (Nat.pow_le_pow_right (by decide) (Nat.not_lt.mp hi)))]

theorem extract_bits {w : Nat} (v : BitVec w) (base m : Nat) : (v.extractLsb' base m).toNat = bitsAt v base m := by
  rw [BitVec.extractLsb'_toNat, Nat.shiftRight_eq_div_pow, bitsAt]

/-- The sum of the fields of a LAUNCH at their places, lowest first. -/
theorem launch_nested (t code frame parent stage prio plkind gang pltgt lclu gsize : Nat) :
    code + frame * t ^ 64 + parent * t ^ 128 + stage * t ^ 240 + prio * t ^ 244 + plkind * t ^ 246 + gang * t ^ 248
        + pltgt * t ^ 256 + lclu * t ^ 272 + gsize * t ^ 280 =
      (code + t ^ 64 * (frame + t ^ 64 * parent)) + t ^ 192 * (0 + t ^ 48 *
        ((stage + t ^ 4 * (prio + t ^ 2 * (plkind + t ^ 2 * gang))) + t ^ 9 * (0 + t ^ 7 *
          (pltgt + t ^ 16 * (lclu + t ^ 8 * gsize))))) := by
  ring

theorem launchImage_fields (p : BitVec 1024) :
    launchImage p = BitVec.ofNat 512 (bitsAt p 512 192 + 2 ^ 192 * (0 + 2 ^ 48 * (bitsAt p 704 9 + 2 ^ 9 * (0 + 2 ^ 7 *
      (bitsAt p 720 16 + 2 ^ 16 * (bitsAt p 744 8 + 2 ^ 8 * bitsAt p 736 8)))))) := by
  have hcontrol : ∀ lo n, lo + n ≤ 64 → bitsAt (slotBody p 24) lo n = bitsAt p (704 + lo) n := fun lo n h => bitsAt_extract p h
  rw [launchImage, launch_nested, hcontrol 0 4 (by decide), hcontrol 4 2 (by decide), hcontrol 6 2 (by decide),
    hcontrol 8 1 (by decide), hcontrol 16 16 (by decide), hcontrol 40 8 (by decide), hcontrol 32 8 (by decide), slotBody, slotBody,
    slotBody, extract_bits, extract_bits, extract_bits, bitsAt_join p (704 + 6), bitsAt_join p (704 + 4), bitsAt_join p (704 + 0),
    bitsAt_join p (512 + 8 * 8), bitsAt_join p (512 + 8 * 0)]

theorem launchImage_bits (p : Packet) {i : Nat} (hi : i < 512) : (launchImage p.slot).getLsbD i = launchBits p i := by
  have hfield : ∀ {base lo n : Nat}, lo ≤ i → i - lo < n → (bitsAt p.slot base n).testBit (i - lo) = p.slot.getLsbD (base + (i - lo)) :=
    fun _ h => bitsAt_testBit _ h
  rw [launchImage_fields, BitVec.getLsbD_ofNat, decide_eq_true hi, Bool.true_and, testBit_field (bitsAt_lt ..),
    testBit_field (by decide), testBit_field (bitsAt_lt ..), testBit_field (by decide), testBit_field (bitsAt_lt ..),
    testBit_field (bitsAt_lt ..)]
  simp only [Nat.sub_sub, Nat.reduceAdd, launchBits]
  by_cases h1 : i < 192
  · rw [if_pos h1, if_pos h1]
    exact hfield (lo := 0) (Nat.zero_le i) h1
  rw [if_neg h1, if_neg h1]
  by_cases h2 : i < 240
  · rw [if_pos (show i - 192 < 48 by omega), if_neg (show ¬ (240 ≤ i ∧ i < 249) by omega),
      if_neg (show ¬ (256 ≤ i ∧ i < 272) by omega), if_neg (show ¬ (272 ≤ i ∧ i < 280) by omega),
      if_neg (show ¬ (280 ≤ i ∧ i < 288) by omega), Nat.zero_testBit]
  rw [if_neg (show ¬ i - 192 < 48 by omega)]
  by_cases h3 : i < 249
  · rw [if_pos (show i - 240 < 9 by omega), if_pos (show 240 ≤ i ∧ i < 249 by omega)]
    exact hfield (by omega) (by omega)
  rw [if_neg (show ¬ i - 240 < 9 by omega), if_neg (show ¬ (240 ≤ i ∧ i < 249) by omega)]
  by_cases h4 : i < 256
  · rw [if_pos (show i - 249 < 7 by omega), if_neg (show ¬ (256 ≤ i ∧ i < 272) by omega),
      if_neg (show ¬ (272 ≤ i ∧ i < 280) by omega), if_neg (show ¬ (280 ≤ i ∧ i < 288) by omega), Nat.zero_testBit]
  rw [if_neg (show ¬ i - 249 < 7 by omega)]
  by_cases h5 : i < 272
  · rw [if_pos (show i - 256 < 16 by omega), if_pos (show 256 ≤ i ∧ i < 272 by omega)]
    exact hfield (by omega) (by omega)
  rw [if_neg (show ¬ i - 256 < 16 by omega), if_neg (show ¬ (256 ≤ i ∧ i < 272) by omega)]
  by_cases h6 : i < 280
  · rw [if_pos (show i - 272 < 8 by omega), if_pos (show 272 ≤ i ∧ i < 280 by omega)]
    exact hfield (by omega) (by omega)
  rw [if_neg (show ¬ i - 272 < 8 by omega), if_neg (show ¬ (272 ≤ i ∧ i < 280) by omega)]
  by_cases h7 : i < 288
  · rw [if_pos (show 280 ≤ i ∧ i < 288 by omega)]
    exact hfield (by omega) (by omega)
  · rw [if_neg (show ¬ (280 ≤ i ∧ i < 288) by omega)]
    exact Nat.testBit_lt_two_pow ((bitsAt_lt ..).trans_le (Nat.pow_le_pow_right (by decide) (by omega)))

/-! ### Signals (R400) -/

section
variable {s v : State} {qid : Nat} {q : Queue} {p : Packet} {pl : Place} (hq : s.queue qid = some q)
  (hfind : (q.packets.find? fun x => x.seq == p.seq) = some p)

/-- The state that a packet's signal leaves before a queue freezes. -/
def signalled (s : State) (qid : Nat) (p : Packet) (st code : Nat) : State :=
  (s.mapQueue qid fun q => { q with packets := q.packets.filter fun x => x.seq != p.seq }).statusWrite hostAgent
    (slotSig p.slot) (signalBytes p.slot st code)

include hq hfind in
theorem signalPacket_eq (st code : Nat) :
    s.signalPacket qid p.seq st code =
      if st = 3 then (signalled s qid p st code).freezeQueue qid 1 else signalled s qid p st code := by
  rw [State.signalPacket, hq]
  dsimp only
  rw [hfind]
  rfl

theorem signalled_byte (st code : Nat) (hsig : slotSig p.slot ≠ 0)
    (hplace : (s.mapQueue qid fun q => { q with packets := q.packets.filter fun x => x.seq != p.seq }).enginePlace hostAgent .write
      (slotSig p.slot) = .ok (pl, v))
    (hclean : v.poisonCheck hostAgent .write pl = .ok ()) {i : Nat} (hi : i < 8) :
    (signalled s qid p st code).dev.byte (pl.loc + i) =
      BitVec.ofNat 8 ((st + (if st = 3 then code % 256 else 0) * 2 ^ 8 + slotTag p.slot * 2 ^ 32) / 256 ^ i) := by
  rw [signalled, State.statusWrite, if_neg hsig, State.statusPut, State.engineWrite, hplace]
  simp only [bind, Except.bind, hclean]
  rw [engineBytes_byte _ _ _ (by rwa [signalBytes, Machine.bytesOf_length]), signalBytes, bytesOf_getD hi]

end

/-! ### What each packet does (R398) -/

section
variable {s t : State} {qid : Nat} {q : Queue} {p : Packet}

theorem exec_launch (h : ready s qid 1 q p) (hva : s.recvaFault (slotBody p.slot 32) = none) :
    exec (.launch qid p.seq) s = .next (((s.startPacket qid p.seq).bar (slotBody p.slot 32)).create (slotBody p.slot 32)
      (launchImage p.slot) qid s.ctx.world.agentEpoch) := by
  have hexec : exec (.launch qid p.seq) s = execLaunch qid p.seq s := rfl
  rw [hexec, execLaunch, readyPacket_of_ready h]
  dsimp only
  rw [hva]

theorem exec_signal (h : ready s qid 4 q p)
    (hwrite : s.engineWrite hostAgent (slotBody p.slot 0) (bytesOf 8 (slotBody p.slot 8).toNat) = .ok t) :
    exec (.signal qid p.seq) s = .next (t.finishPacket qid p.seq 1 0) := by
  have hexec : exec (.signal qid p.seq) s = execSignal qid p.seq s := rfl
  rw [hexec, execSignal, readyPacket_of_ready h]
  dsimp only
  rw [hwrite]

theorem exec_wait {w : Nat} {lw : LabelWord} (h : ready s qid 5 q p)
    (hread : s.engineRead hostAgent (slotBody p.slot 0) 8 = .ok (w, lw, t)) :
    exec (.wait qid p.seq) s = .next (if (slotBody p.slot 8).toNat ≤ w then t.finishPacket qid p.seq 1 0 else t) := by
  have hexec : exec (.wait qid p.seq) s = execWait qid p.seq s := rfl
  rw [hexec, execWait, readyPacket_of_ready h]
  dsimp only
  rw [hread]

theorem exec_barrier (h : ready s qid 6 q p) :
    exec (.barrier qid p.seq) s = .next (if s.allBefore qid p.seq then s.finishPacket qid p.seq 1 0 else s) := by
  have hexec : exec (.barrier qid p.seq) s = execBarrier qid p.seq s := rfl
  rw [hexec, execBarrier, readyPacket_of_ready h]

theorem allBefore_iff (h : lookup s.ctx.queues qid = some q) (n : Nat) :
    s.allBefore qid n = true ↔ ∀ x, x ∈ q.packets → n ≤ x.seq := by
  rw [State.allBefore, State.queue, h, Option.all_some, List.all_eq_true]
  exact forall₂_congr fun _ _ => decide_eq_true_iff

theorem exec_load {u : State} {result : Word} (h : ready s qid 7 q p)
    (hload : s.loadImage (slotBody p.slot 0) (slotBody p.slot 8) = (result, t))
    (hwrite : t.engineWrite hostAgent (slotBody p.slot 16) (bytesOf 8 result.toNat) = .ok u) :
    exec (.load qid p.seq) s =
      .next (u.signalPacket qid p.seq (if result = 0 then 1 else 3) (result.toNat % 2 ^ 8)) := by
  have hexec : exec (.load qid p.seq) s = execLoad qid p.seq s := rfl
  rw [hexec, execLoad, readyPacket_of_ready h]
  dsimp only
  rw [hload]
  dsimp only
  rw [hwrite]
  by_cases hzero : result = 0
  · rw [if_pos hzero, if_pos hzero, hzero]
    rfl
  · rw [if_neg hzero, if_neg hzero, bitsAt, Nat.pow_zero, Nat.div_one]

/-! ### UNLOAD (R374) -/

/-- The state in which the image at the base is unloaded and the generation of code the next. -/
def unloadedAt (s : State) (base : Word) : State :=
  s.mapCtx fun k =>
    { k with
      cg := k.cg + 1
      images := k.images.map fun i =>
        if i.base = base ∧ i.unloading.isNone then { i with gen := k.cg + 1, unloading := some s.dev.stroke.toNat } else i }

theorem exec_unload {img : Image} (h : ready s qid 8 q p) (hmem : img ∈ s.ctx.images) (hbase : img.base = slotBody p.slot 0)
    (hlive : img.unloading = none) :
    exec (.unload qid p.seq) s = .next ((unloadedAt s (slotBody p.slot 0)).signalPacket qid p.seq 1 0) := by
  have hsome : (s.ctx.imageAt (slotBody p.slot 0)).isSome = true := by
    rw [Context.imageAt, List.find?_isSome]
    exact ⟨img, hmem, by rw [hbase, hlive, beq_self_eq_true]; rfl⟩
  obtain ⟨found, hfound⟩ := Option.isSome_iff_exists.mp hsome
  have hexec : exec (.unload qid p.seq) s = execUnload qid p.seq s := rfl
  rw [hexec, execUnload, readyPacket_of_ready h]
  dsimp only
  rw [hfound]
  rfl

theorem unloadedAt_image {img : Image} {base : Word} (hmem : img ∈ s.ctx.images) (hbase : img.base = base)
    (hlive : img.unloading = none) :
    { img with gen := s.ctx.cg + 1, unloading := some s.dev.stroke.toNat } ∈ (unloadedAt s base).ctx.images :=
  List.mem_map.mpr ⟨img, hmem, if_pos ⟨hbase, by rw [hlive]; rfl⟩⟩

/-! ### QRESET (R402) -/

/-- The queue made active again, with one packet more consumed. -/
def resetQueue (s : State) (qid : Nat) (p : Packet) : State :=
  (s.mapQueue qid fun q => { q with packets := q.packets.filter fun x => x.seq != p.seq }).mapQueue qid fun q =>
    { q with rc := q.rc + 1, wc := q.rc + 1, cause := 0, badwc := 0, state := .active, packets := q.packets ++ [p] }

theorem exec_qreset (h : ready s qid 9 q p) (hrun : s.ctx.faulted = false) (hkeep : (slotBody p.slot 0).getLsbD 0 = false) :
    exec (.qreset qid p.seq) s = .next (((resetQueue s qid p).showQueue qid).signalPacket qid p.seq 1 0) := by
  have htears : bitAt (slotBody p.slot 0) 0 = false := hkeep
  have hexec : exec (.qreset qid p.seq) s = execQreset qid p.seq s := rfl
  rw [hexec, execQreset, readyPacket_of_ready h, Option.filter_some, hrun, if_pos (by rfl)]
  dsimp only
  rw [htears]
  rfl

theorem resetQueue_queue (hq : lookup s.ctx.queues qid = some q) :
    ∃ n, lookup (resetQueue s qid p).ctx.queues qid = some n ∧ n.state = .active ∧ n.rc = q.rc + 1 ∧ n.wc = q.rc + 1 ∧
      n.cause = 0 :=
  ⟨_, mapQueue_lookup (mapQueue_lookup hq _) _, rfl, rfl, rfl, rfl⟩

/-! ### Transfers that have ended -/

theorem count_lookup (d : Device) (n : Nat) : lookupD 0 (d.count n).counters n = min (2 ^ 64 - 1) (lookupD 0 d.counters n + 1) := by
  rw [lookupD, Device.count, Device.countBy, lookup_insertAt_same]
  rfl

theorem exec_copyPacketComplete (hq : lookup s.ctx.queues qid = some q) (hfind : (q.packets.find? fun x =>
      x.seq == p.seq && x.started && (slotType x.slot == 2 || slotType x.slot == 3)) = some p) (code : Nat) (bs : List Byte) :
    exec (.copyPacketComplete qid p.seq code bs) s = .next (
      if code = 11 then (s.mapDev (·.count ctrUelink)).finishPacket qid p.seq 3 11
      else if code = 12 then s.finishPacket qid p.seq 3 12
      else if code ≠ 0 then s
      else if slotType p.slot = 3 then s.finishPacket qid p.seq 1 0
      else if bs.length ≠ (slotBody p.slot 16).toNat then s
      else match s.copyinWrite (slotBody p.slot 0) bs with
        | (t, none) => t.finishPacket qid p.seq 1 0
        | (t, some d) => (t.noteDeny hostAgent d).finishPacket qid p.seq 3 (signalCode d)) := by
  have hexec : exec (.copyPacketComplete qid p.seq code bs) s = execCopyPacketComplete qid p.seq code bs s := rfl
  rw [hexec, execCopyPacketComplete, State.queue, hq, Option.bind_some, hfind] <;> rfl

end

/-! ### RMA (R391) -/

section
variable {s : State} {ctxid : Nat} {key : Half}

theorem keyed_false (h : ∀ e, e ∈ s.ctx.queues → e.2.key ≠ key) : s.ctx.keyed key = false :=
  List.any_eq_false.mpr fun e he => by
    rw [beq_iff_eq]
    exact h e he

theorem keyed_mem {e : Nat × Queue} (h : e ∈ s.ctx.queues) : s.ctx.keyed e.2.key = true :=
  List.any_eq_true.mpr ⟨e, h, beq_self_eq_true _⟩

theorem atEndpoint_nak (f : State → State)
    (h : s.hasContext ctxid = false ∨ ctxid = s.ctx.desc.ctxid ∧ ∀ e, e ∈ s.ctx.queues → e.2.key ≠ key) :
    s.atEndpoint ⟨ctxid, key⟩ f = s.reply .nak := by
  rw [State.atEndpoint]
  dsimp only
  by_cases hhas : s.hasContext ctxid = false
  · rw [hhas]
    exact if_pos rfl
  · obtain ⟨hid, hkeys⟩ := h.resolve_left hhas
    rw [Bool.not_eq_false] at hhas
    rw [hhas, if_neg (by decide), State.inContext, if_pos hid, keyed_false hkeys]
    exact if_neg Bool.false_ne_true

theorem atEndpoint_keyed {e : Nat × Queue} (f : State → State) (he : e ∈ s.ctx.queues) (hid : s.ctx.desc.ctxid ≠ 0)
    (hlive : s.ctx.destroyed = false) : s.atEndpoint ⟨s.ctx.desc.ctxid, e.2.key⟩ f = f s := by
  rw [State.atEndpoint]
  dsimp only
  rw [hasContext_focus hid hlive, if_neg (by decide), State.inContext, if_pos rfl, keyed_mem he, if_pos rfl]

end

end Sys2Proof.Claims

namespace Sys2Proof
open Machine Claims

/-- Settles O57: each packet's effect is its arm of the model; the image of a LAUNCH is read off field by field, a signal's
bytes off the write of its word. -/
theorem hostPackets : Obligations.HostPackets := by
  unfold Obligations.HostPackets
  intro s t qid code q p w lw bs va img result
  refine ⟨fun h hva => exec_launch h hva, fun i hi => launchImage_bits p hi, fun st c pl v hq hfind hst hsig hplace hclean i hi => ?_,
    fun c pl v hq hfind hc hsig hplace hclean => ?_, fun h hwrite => exec_signal h hwrite, fun h hread => ?_, fun h => ?_,
    fun h u hload hwrite => exec_load h hload hwrite, fun h hmem hbase hlive => ?_, fun h hrun hkeep => ?_, fun hq hfind => ?_,
    fun ctxid key hwrong => ?_, fun e he hid hlive => ?_⟩
  · rw [signalPacket_eq hq hfind, if_neg (by omega), signalled_byte st c hsig hplace hclean hi, if_neg (by omega), Nat.zero_mul,
      Nat.add_zero, Nat.mul_comm]
    rfl
  · refine ⟨signalled s qid p 3 c, (signalPacket_eq hq hfind 3 c).trans (if_pos rfl), fun i hi => ?_⟩
    rw [signalled_byte 3 c hsig hplace hclean hi, if_pos rfl, Nat.mod_eq_of_lt hc, Nat.mul_comm c, Nat.mul_comm (slotTag _)]
    rfl
  · have hexec := exec_wait h hread
    exact ⟨fun hle => hexec.trans (congrArg Host.Outcome.next (if_pos hle)),
      fun hlt => hexec.trans (congrArg Host.Outcome.next (if_neg (Nat.not_le.mpr hlt)))⟩
  · have hexec := exec_barrier h
    refine ⟨fun hall => hexec.trans (congrArg Host.Outcome.next (if_pos ((allBefore_iff h.1 _).mpr hall))), fun hearlier => ?_⟩
    obtain ⟨x, hx, hlt⟩ := hearlier
    refine hexec.trans (congrArg Host.Outcome.next (if_neg fun hall => ?_))
    exact absurd ((allBefore_iff h.1 _).mp hall x hx) (Nat.not_le.mpr hlt)
  · exact ⟨_, unloadedAt s (body p 0), exec_unload h hmem hbase hlive, rfl, rfl, unloadedAt_image hmem hbase hlive, rfl, rfl⟩
  · refine ⟨_, resetQueue s qid p, exec_qreset h hrun hkeep, rfl, resetQueue_queue h.1, ?_, ?_⟩
    · exact (mapQueue_sameCore _ _ _).1.trans (mapQueue_sameCore s _ _).1
    · rw [resetQueue, State.mapQueue_dev, State.mapQueue_dev]
  · have hexec := fun code => exec_copyPacketComplete (s := s) hq hfind code
    refine ⟨fun hcode => ?_, fun hcode => ?_, fun htype hlen hwrite => ?_⟩
    · rw [hexec, hcode]
      rfl
    · refine ⟨s.mapDev (·.count ctrUelink), ?_, rfl, count_lookup s.dev ctrUelink⟩
      rw [hexec, hcode]
      rfl
    · rw [hexec, if_neg (by decide), if_neg (by decide), if_neg (by decide), if_neg (by rw [htype]; decide),
        if_neg (show ¬ bs.length ≠ (slotBody p.slot 16).toNat from not_not.mpr hlen)]
      have hw : s.copyinWrite (slotBody p.slot 0) bs = (t, none) := hwrite
      rw [hw]
  · exact ⟨⟨_, congrArg Host.Outcome.next (atEndpoint_nak _ hwrong), rfl⟩, ⟨_, congrArg Host.Outcome.next (atEndpoint_nak _ hwrong), rfl⟩⟩
  · refine ⟨fun hwrite => congrArg Host.Outcome.next ((atEndpoint_keyed _ he hid hlive).trans ?_), fun ws hread =>
      ⟨t.reply (.rma bs), congrArg Host.Outcome.next ((atEndpoint_keyed _ he hid hlive).trans ?_), rfl⟩⟩
    · rw [hwrite]
    · rw [hread]

end Sys2Proof
end

section
/-! PROOF. The dispatcher (R16 to R20, R24). -/

namespace Sys2Proof.Claims
open Machine

/-! ### Fields of a record that is written -/

section
variable {w : Nat} (r : BitVec w) {lo n : Nat} (v : Nat) (hfit : lo + n ≤ w)
include hfit

theorem bitsAt_setBits_same : bitsAt (setBits r lo n v) lo n = v % 2 ^ n := by
  refine Nat.eq_of_testBit_eq fun i => ?_
  by_cases hi : i < n
  · rw [bitsAt_testBit _ hi, setBits_getLsbD r v (by omega), if_pos (by omega), Nat.testBit_mod_two_pow, decide_eq_true hi,
      Bool.true_and, Nat.add_sub_cancel_left]
  · rw [Nat.testBit_lt_two_pow ((bitsAt_lt _ lo n).trans_le (Nat.pow_le_pow_right (by decide) (Nat.not_lt.mp hi))),
      Nat.testBit_mod_two_pow, decide_eq_false hi, Bool.false_and]

end

theorem bitsAt_setBits_other {w : Nat} (r : BitVec w) {lo n : Nat} (v : Nat) {lo' n' : Nat} (hfit : lo' + n' ≤ w)
    (hapart : lo' + n' ≤ lo ∨ lo + n ≤ lo') : bitsAt (setBits r lo n v) lo' n' = bitsAt r lo' n' := by
  refine Nat.eq_of_testBit_eq fun i => ?_
  by_cases hi : i < n'
  · rw [bitsAt_testBit _ hi, bitsAt_testBit _ hi, setBits_getLsbD r v (by omega), if_neg (by omega)]
  · rw [Nat.testBit_lt_two_pow ((bitsAt_lt _ lo' n').trans_le (Nat.pow_le_pow_right (by decide) (Nat.not_lt.mp hi))),
      Nat.testBit_lt_two_pow ((bitsAt_lt _ lo' n').trans_le (Nat.pow_le_pow_right (by decide) (Nat.not_lt.mp hi)))]

/-! ### Run queues of a cluster -/

theorem lookupD_modifyAt_same {α : Type} (d : α) (k : Nat) (f : α → α) (m : NatMap α) :
    lookupD d (modifyAt d k f m) k = f (lookupD d m k) := by
  rw [lookupD, modifyAt, lookup_insertAt_same]
  rfl

theorem lookupD_modifyAt_other {α : Type} (d : α) {k j : Nat} (f : α → α) (m : NatMap α) (h : j ≠ k) :
    lookupD d (modifyAt d k f m) j = lookupD d m j := by
  rw [lookupD, modifyAt, lookup_insertAt_other _ _ h]
  rfl

theorem unqueue_runq (k : Cluster) (va : Word) (key : Nat) :
    lookupD [] (k.unqueue va).runq key = (lookupD [] k.runq key).filter (· != va) :=
  lookupD_mapValues (fun l : List Word => l.filter (· != va)) [] k.runq key rfl

theorem unqueue_absent (k : Cluster) (va : Word) (key : Nat) : va ∉ lookupD [] (k.unqueue va).runq key := by
  rw [unqueue_runq, List.mem_filter]
  exact fun h => absurd h.2 (by rw [bne_self_eq_false]; exact Bool.false_ne_true)

theorem coreAt_unqueue (s : State) (cl : Nat) (va : Word) (cl' c : Nat) :
    (s.mapCluster cl (·.unqueue va)).coreAt cl' c = s.coreAt cl' c :=
  coreAt_mapCluster s cl (·.unqueue va) (fun _ => rfl) cl' c

/-! ### A core takes a record (R16) -/

/-- What dispatch leaves of a core for a record that is no gang's. -/
def dispatchedAs (c : Core) (va : Word) (r : VWord) (d : Core) : Prop :=
  ∃ (n stores : Nat) (w : World) (cg : Half) (busy : Bool), d = c.dispatched n stores va r w cg none busy

theorem startOn_dispatched (s : State) (cl core : Nat) (va : Word) (r : VWord) :
    dispatchedAs (s.coreAt cl core) va r ((s.startOn cl core va r none).coreAt cl core) := by
  unfold State.startOn
  extract_lets n busy t
  have ht : t.coreAt cl core = s.coreAt cl core := by
    by_cases hbusy : busy = true
    · rw [show t = _ from if_pos hbusy]
      exact coreAt_mapCluster s cl (fun k =>
        { k with engines := modifyAt MEngine.reset (crewOf core) (fun e => { e with queue := markLast core e.queue }) k.engines })
        (fun _ => rfl) cl core
    · rw [show t = s from if_neg hbusy]
  rw [State.coreAt_mapCoreAt_same, DevOnly.coreAt (DevOnly.drawn t), ht]
  exact ⟨n, t.dev.stores, t.ctx.world, t.ctx.cg, busy, rfl⟩

/-- The core starts at CODE with x4 its FRAME and x63 the record's address (R16). -/
theorem dispatched_starts {c d : Core} {va : Word} {r : VWord} (h : dispatchedAs c va r d) :
    d.record = some va ∧ d.crec = va ∧ d.pc.toNat = r.toNat % 2 ^ 64 ∧
      (fileGet (by decide) d.regs.x 4).toNat = r.toNat / 2 ^ 64 % 2 ^ 64 ∧
      (fileGet (by decide) d.regs.xl 4).toNat = r.toNat / 2 ^ 448 % 2 ^ 32 ∧ fileGet (by decide) d.regs.x 63 = va ∧
      fileGet (by decide) d.regs.xl 63 = mkWord d.epoch false 0 ∧ d.stage = r.toNat / 2 ^ 240 % 2 ^ 4 ∧ d.status.mode = .u ∧
      d.status.inup = false ∧ d.loops = [] ∧ d.regs.fcsr = c.regs.fcsr ∧ d.k = c.k := by
  obtain ⟨n, stores, w, cg, busy, rfl⟩ := h
  refine ⟨rfl, rfl, ?_, ?_, ?_, fileGet_filePut_same _ _ _ _, fileGet_filePut_same _ _ _ _, rfl, rfl, rfl, rfl, rfl, rfl⟩
  · show (BitVec.ofNat 64 (rCode r)).toNat = _
    rw [rCode, bitsAt, BitVec.toNat_ofNat]
    omega
  · refine (congrArg BitVec.toNat ((fileGet_filePut_ne _ _ _ (by decide) (by decide) (by decide)).trans
      (fileGet_filePut_same _ _ _ _))).trans ?_
    rw [rFrame, bitsAt, BitVec.toNat_ofNat, Nat.mod_mod]
  · refine (congrArg BitVec.toNat ((fileGet_filePut_ne _ _ _ (by decide) (by decide) (by decide)).trans
      (fileGet_filePut_same _ _ _ _))).trans ?_
    rw [rFlbl, extract_bits]
    rfl

section
variable {s : State} {cl core : Nat} {va : Word} (hidle : s.idle cl core = true)

section
variable (hrun : s.ctx.stopped = false) (hpick : s.pick cl core = some va) (hstate : rState (s.record va) = 1)
include hidle hrun hpick hstate

theorem dispatchOn_picked : s.dispatchOn cl core =
    if rGang (s.record va) then (if s.gangLate cl va then s.expireGang cl va else s.tryGang cl va (s.record va))
    else ((s.mapCluster cl (·.unqueue va)).putRecord va (setBits (s.record va) 384 4 2)).startOn cl core va (s.record va) none := by
  rw [State.dispatchOn, State.dispatchPast, hidle, hrun, if_neg (by decide), hpick]
  dsimp only
  rw [if_neg (not_not.mpr hstate)]

theorem dispatchOn_starts (hgang : rGang (s.record va) = false) :
    dispatchedAs (s.coreAt cl core) va (s.record va) ((s.dispatchOn cl core).coreAt cl core) := by
  rw [dispatchOn_picked hidle hrun hpick hstate, hgang, if_neg Bool.false_ne_true]
  have h := startOn_dispatched ((s.mapCluster cl (·.unqueue va)).putRecord va (setBits (s.record va) 384 4 2)) cl core va
    (s.record va)
  rwa [DevOnly.coreAt (putRecord_ok _ _ _).1, coreAt_unqueue] at h

end

include hidle in
theorem dispatchOn_none (hpick : s.pick cl core = none) : s.dispatchOn cl core = s := by
  rw [State.dispatchOn, State.dispatchPast, hidle, hpick]
  exact ite_self _

end

/-! ### Aging (R18) -/

section
variable {s : State} {cl : Nat} {va : Word}

/-- The record, one priority higher, that waits anew. -/
def agedRecord (s : State) (va : Word) : VWord :=
  setBits (setBits (s.record va) 244 2 (rPrio (s.record va) + 1)) 416 32 s.dev.stroke.toNat

/-- The cluster with the record at the tail of the queue of its new priority. -/
def requeued (va : Word) (key : Nat) (k : Cluster) : Cluster :=
  { k.unqueue va with runq := modifyAt [] key (· ++ [va]) (k.unqueue va).runq }

theorem requeued_tail (va : Word) (key : Nat) (k : Cluster) :
    lookupD [] (requeued va key k).runq key = lookupD [] (k.unqueue va).runq key ++ [va] :=
  lookupD_modifyAt_same [] key (· ++ [va]) (k.unqueue va).runq

theorem requeued_only {va : Word} {key key' : Nat} {k : Cluster} (h : va ∈ lookupD [] (requeued va key k).runq key') :
    key' = key := by
  by_contra hne
  rw [requeued, lookupD_modifyAt_other _ _ _ hne] at h
  exact unqueue_absent k va key' h

theorem agedRecord_key (hprio : rPrio (s.record va) < 3) :
    queueKey (agedRecord s va) = 4 * rStage (s.record va) + rPrio (s.record va) + 1 := by
  have hstage : rStage (agedRecord s va) = rStage (s.record va) := by
    rw [rStage, agedRecord, bitsAt_setBits_other _ _ (by decide) (by decide), bitsAt_setBits_other _ _ (by decide) (by decide)]
    rfl
  have hnew : rPrio (agedRecord s va) = rPrio (s.record va) + 1 := by
    rw [rPrio, agedRecord, bitsAt_setBits_other _ _ (by decide) (by decide), bitsAt_setBits_same _ _ (by decide),
      Nat.mod_eq_of_lt (by rw [rPrio] at hprio ⊢; omega)]
  rw [queueKey, hstage, hnew, Nat.add_assoc]

theorem exec_recordAging (hrun : s.ctx.stopped = false)
    (hwaits : va ∈ lookupD [] (s.cluster cl).runq (queueKey (s.record va)))
    (hfree : ∀ g, g ∈ (s.cluster cl).reservations → g.record ≠ va) (hage : s.ctx.desc.age ≠ 0) (hprio : rPrio (s.record va) < 3)
    (hlong : s.ctx.desc.age < (s.dev.stroke.toNat + 2 ^ 32 - rEnq (s.record va)) % 2 ^ 32) :
    exec (.recordAging cl va) s =
      .next ((s.putRecord va (agedRecord s va)).mapCluster cl (requeued va (queueKey (agedRecord s va)))) := by
  have hcond : (lookupD [] (s.cluster cl).runq (queueKey (s.record va))).contains va = true ∧
      (!(s.cluster cl).reservations.any fun g => g.record == va) = true ∧ s.ctx.desc.age ≠ 0 ∧ rPrio (s.record va) < 3 ∧
      s.ctx.desc.age < (s.dev.stroke.toNat + 2 ^ 32 - rEnq (s.record va)) % 2 ^ 32 := by
    refine ⟨List.contains_iff_mem.mpr hwaits, ?_, hage, hprio, hlong⟩
    rw [Bool.not_eq_true', List.any_eq_false]
    intro g hg
    rw [beq_iff_eq]
    exact hfree g hg
  have hexec : exec (.recordAging cl va) s = s.engineRuns (s.ageRecord cl va) := rfl
  rw [hexec, State.engineRuns, hrun, if_neg Bool.false_ne_true]
  exact congrArg Host.Outcome.next (if_pos hcond)

/-! ### A gang's patience (R20) -/

/-- A core without its reservation for a gang. -/
def unreserve (cl : Nat) (va : Word) (s : State) (c : Nat) : State :=
  if (s.coreAt cl c).reserved = some va then s.mapCoreAt cl c fun k => { k with reserved := none } else s

/-- The cores of a cluster without the reservations of a gang. -/
def unreserved (s : State) (cl : Nat) (va : Word) : State := (List.range 192).foldl (unreserve cl va) s

/-- The gang gone from its cores, from the queues and from the reservations. -/
def gangFreed (s : State) (cl : Nat) (va : Word) : State :=
  (unreserved s cl va).mapCluster cl fun k =>
    { k.unqueue va with reservations := k.reservations.filter fun h => h.record != va }

theorem expireGang_eq (s : State) (cl : Nat) (va : Word) : s.expireGang cl va = (gangFreed s cl va).queueTail va := rfl

theorem unreserve_same (cl : Nat) (va : Word) (s : State) (c : Nat) : ((unreserve cl va s c).coreAt cl c).reserved ≠ some va := by
  unfold unreserve
  split
  · rw [State.coreAt_mapCoreAt_same]
    exact (Option.some_ne_none va).symm
  · assumption

theorem unreserve_other (cl : Nat) (va : Word) (s : State) {a c : Nat} (h : c ≠ a) :
    (unreserve cl va s a).coreAt cl c = s.coreAt cl c := by
  unfold unreserve
  split
  · exact State.coreAt_mapCoreAt_other _ _ fun e => h e.2
  · rfl

theorem unreserve_clears (cl : Nat) (va : Word) (l : List Nat) : ∀ (s : State) (c : Nat),
    c ∈ l ∨ (s.coreAt cl c).reserved ≠ some va → ((l.foldl (unreserve cl va) s).coreAt cl c).reserved ≠ some va := by
  induction l with
  | nil => exact fun s c h => h.resolve_left List.not_mem_nil
  | cons a l ih =>
    intro s c h
    refine ih _ c ?_
    by_cases hac : c = a
    · rw [hac]
      exact .inr (unreserve_same cl va s a)
    · rw [unreserve_other cl va s hac]
      exact h.imp_left fun hin => (List.mem_cons.mp hin).resolve_left hac

theorem gangFreed_cores (s : State) (cl : Nat) (va : Word) {c : Nat} (hc : c < 192) :
    ((gangFreed s cl va).coreAt cl c).reserved ≠ some va := by
  have hcore : (gangFreed s cl va).coreAt cl c = (unreserved s cl va).coreAt cl c :=
    coreAt_mapCluster (unreserved s cl va) cl (fun k =>
      { k.unqueue va with reservations := k.reservations.filter fun h => h.record != va }) (fun _ => rfl) cl c
  rw [hcore]
  exact unreserve_clears cl va _ s c (.inl (List.mem_range.mpr hc))

theorem gangFreed_reservations {s : State} {cl : Nat} {va : Word} {x : Reservation}
    (h : x ∈ ((gangFreed s cl va).cluster cl).reservations) : x.record ≠ va := by
  rw [gangFreed, State.cluster_mapCluster_same] at h
  exact bne_iff_ne.mp (List.mem_filter.mp h).2

theorem gangFreed_queues (s : State) (cl : Nat) (va : Word) (key : Nat) :
    va ∉ lookupD [] ((gangFreed s cl va).cluster cl).runq key := by
  rw [gangFreed, State.cluster_mapCluster_same]
  exact unqueue_absent _ va key

theorem gangLate_of_mem {g : Reservation} (hmem : g ∈ (s.cluster cl).reservations) (hrec : g.record = va)
    (hlate : g.deadline ≤ s.dev.stroke.toNat) : s.gangLate cl va = true :=
  List.any_eq_true.mpr ⟨g, hmem, by rw [hrec, beq_self_eq_true, decide_eq_true hlate]; rfl⟩

/-! ### A suspended record wakes (R24) -/

/-- The record waits in its cluster no longer. -/
def unsuspended (s : State) (cl : Nat) (va : Word) : State :=
  s.mapCluster cl fun k => { k with suspended := k.suspended.filter (· != va) }

theorem exec_recordWake (hrun : s.ctx.stopped = false) (hmem : va ∈ (s.cluster cl).suspended)
    (hwakes : s.wakes (s.record va) = true) : exec (.recordWake cl va) s = .next ((unsuspended s cl va).enqueue va) := by
  have hexec : exec (.recordWake cl va) s = s.engineRuns (s.wakeRecord cl va) := rfl
  rw [hexec, State.engineRuns, hrun, if_neg Bool.false_ne_true, State.wakeRecord, List.contains_iff_mem.mpr hmem, hwakes]
  rfl

theorem unsuspended_absent (s : State) (cl : Nat) (va : Word) : va ∉ ((unsuspended s cl va).cluster cl).suspended := by
  rw [unsuspended, State.cluster_mapCluster_same]
  exact fun h => absurd (List.mem_filter.mp h).2 (by rw [bne_self_eq_false]; exact Bool.false_ne_true)

end

end Sys2Proof.Claims

namespace Sys2Proof
open Machine Claims

/-- Settles O54: dispatch is one record picked and started, or a gang tried or expired; aging, patience and waking move the
record between the queues of its cluster. -/
theorem dispatcher : Obligations.Dispatcher := by
  unfold Obligations.Dispatcher
  rintro s cl core va r rfl
  refine ⟨fun hidle hrun hpick hstate hgang => ⟨_, rfl, dispatched_starts (dispatchOn_starts hidle hrun hpick hstate hgang)⟩,
    fun hidle hpick => ⟨_, rfl, dispatchOn_none hidle hpick⟩, fun hidle hrun hpick hstate hgang => ?_,
    fun hrun hwaits hfree hage hprio hlong => ?_, fun g hrun hmem hrec hlate => ?_, fun hrun hmem hwakes => ?_⟩
  · have hexec : exec (.gangReserve cl core) s =
        .next (if s.gangLate cl va then s.expireGang cl va else s.tryGang cl va (s.record va)) := by
      have hunfold : exec (.gangReserve cl core) s = execGangReserve cl core s := rfl
      rw [hunfold, execGangReserve, State.engineRuns, hrun, if_neg Bool.false_ne_true, hpick]
      dsimp only
      rw [hgang, if_pos rfl, dispatchOn_picked hidle hrun hpick hstate, hgang, if_pos rfl]
    exact ⟨fun hlate => hexec.trans (congrArg Host.Outcome.next (by rw [hlate, if_neg Bool.false_ne_true])),
      fun hlate => hexec.trans (congrArg Host.Outcome.next (if_pos hlate))⟩
  · have hkey := agedRecord_key hprio
    refine ⟨(s.putRecord va (agedRecord s va)).mapCluster cl (requeued va (queueKey (agedRecord s va))),
      lookupD [] (((s.putRecord va (agedRecord s va)).cluster cl).unqueue va).runq (queueKey (agedRecord s va)), exec_recordAging hrun hwaits hfree hage hprio hlong, ?_, fun key hkey' => ?_, ?_⟩
    · rw [State.cluster_mapCluster_same, ← hkey]
      exact requeued_tail _ _ _
    · rw [State.cluster_mapCluster_same] at hkey'
      exact (requeued_only hkey').trans hkey
    · exact (putRecord_ok s va _).1.core
  · refine ⟨_, gangFreed s cl va, ?_, rfl, fun x hx => gangFreed_reservations hx, gangFreed_queues s cl va,
      fun c hc => gangFreed_cores s cl va hc⟩
    have hexec : exec (.gangwaitExpiry cl va) s = s.engineRuns (s.gangwait cl va) := rfl
    rw [hexec, State.engineRuns, hrun, if_neg Bool.false_ne_true, State.gangwait, gangLate_of_mem hmem hrec hlate, if_pos rfl]
    rfl
  · exact ⟨_, unsuspended s cl va, exec_recordWake hrun hmem hwakes, rfl, unsuspended_absent s cl va, rfl, rfl⟩

end Sys2Proof
end

section
/-! PROOF. The PTP servo, the leases of the shared pool and incarnations (R403, R436 to R441). -/

namespace Sys2Proof.Claims
open Machine

/-! ### Lines dropped -/

theorem dropLine_held (d : Device) (line : Nat) : lookup (d.dropLine line).held line = none := lookup_eraseAt_same _ _

theorem dropLine_leases {d : Device} {line : Nat} {l : Lease} (h : l ∈ (d.dropLine line).leasesHeld) : l.line ≠ line :=
  bne_iff_ne.mp (List.mem_filter.mp h).2

/-- A line that is held no longer stays so while others are dropped. -/
theorem dropLine_absent {d : Device} {j : Nat} (line : Nat) (h : lookup d.held j = none) : lookup (d.dropLine line).held j = none := by
  by_cases hj : j = line
  · rw [hj]
    exact dropLine_held d line
  · exact (lookup_eraseAt_other _ hj).trans h

theorem dropLines_held (lines : List Nat) : ∀ (d : Device) (j : Nat), j ∈ lines ∨ lookup d.held j = none →
    lookup (lines.foldl Device.dropLine d).held j = none := by
  induction lines with
  | nil => exact fun d j h => h.resolve_left List.not_mem_nil
  | cons line lines ih =>
    intro d j h
    refine ih _ j ?_
    by_cases hj : j = line
    · exact .inr (hj ▸ dropLine_held d line)
    · exact h.imp (fun hin => (List.mem_cons.mp hin).resolve_left hj) (dropLine_absent line)

/-- Of the device only what caches hold has changed. -/
def CachesOnly (d e : Device) : Prop := { e with held := d.held, leasesHeld := d.leasesHeld } = d

theorem CachesOnly.trans {d e f : Device} (h : CachesOnly d e) (k : CachesOnly e f) : CachesOnly d f := by
  rw [CachesOnly, ← h, ← k]

theorem dropLines_caches {α : Type} (line : α → Nat) (l : List α) : ∀ d : Device,
    CachesOnly d (l.foldl (fun d a => d.dropLine (line a)) d) := by
  induction l with
  | nil => exact fun d => rfl
  | cons a l ih => exact fun d => CachesOnly.trans (d := d) (e := d.dropLine (line a)) rfl (ih _)

theorem dropLeases_caches (d : Device) : CachesOnly d d.dropLeases := dropLines_caches Lease.line _ d

theorem CachesOnly.ptp {d e : Device} (h : CachesOnly d e) : e.ptp = d.ptp := by
  have := congrArg Device.ptp h
  exact this

theorem CachesOnly.mem {d e : Device} (h : CachesOnly d e) : e.mem = d.mem := by
  have := congrArg Device.mem h
  exact this

/-! ### The servo (R403, R439) -/

theorem unlockPtp_mem (d : Device) : d.unlockPtp.mem = d.mem := by
  unfold Device.unlockPtp
  split
  · exact (dropLeases_caches (d.count ctrPtpunlk)).mem
  · rfl

theorem unlockPtp_unlocked (d : Device) : d.unlockPtp.ptp.locked = false ∧ d.unlockPtp.ptp.good = 0 := by
  unfold Device.unlockPtp
  split
  · exact ⟨rfl, rfl⟩
  · exact ⟨Bool.eq_false_iff.mpr ‹_›, rfl⟩

/-- The servo after an interval, before a leased region is found uncacheable. -/
def servoNext (d : Device) (offset : Int) (time gm : Nat) : Device :=
  let good := if offset.natAbs ≤ 250 then d.ptp.good + 1 else 0
  { d with
    ptp := { d.ptp with
      good := good, locked := d.ptp.locked || decide (16 ≤ good), offset := offset, time := 11 * time, gm := gm
      block := d.ptp.block && decide (good < 16) } }

/-- The device before the interval counts: unlocked, where the interval leaves the band or the grandmaster changes. -/
def servoBase (d : Device) (offset : Int) (gm : Nat) : Device :=
  if decide (offset.natAbs > 1000) || decide (gm ≠ d.ptp.gm) then d.unlockPtp else d

/-- Memory, and the servo but for its block, are those of `e`. -/
def servoAs (d e : Device) : Prop := d.mem = e.mem ∧ { d.ptp with block := e.ptp.block } = e.ptp

theorem sync_servo (d : Device) (offset : Int) (time gm : Nat) :
    servoAs (d.sync offset time gm) (servoNext (servoBase d offset gm) offset time gm) := by
  unfold Device.sync
  extract_lets lost base good src next
  have hnext : next = servoNext (servoBase d offset gm) offset time gm := rfl
  rw [← hnext]
  clear_value next
  split
  · have h := dropLeases_caches next
    exact ⟨h.mem, rfl⟩
  · exact ⟨rfl, rfl⟩

theorem servoBase_mem (d : Device) (offset : Int) (gm : Nat) : (servoBase d offset gm).mem = d.mem := by
  unfold servoBase
  split
  · exact unlockPtp_mem d
  · rfl

theorem servoBase_stays {d : Device} {offset : Int} {gm : Nat} (hgm : gm = d.ptp.gm) (hnear : offset.natAbs ≤ 250) :
    servoBase d offset gm = d :=
  if_neg (by rw [decide_eq_false (by omega), decide_eq_false (not_not.mpr hgm)]; exact Bool.false_ne_true)

theorem servoBase_lost {d : Device} {offset : Int} (gm : Nat) (hfar : 1000 < offset.natAbs) : servoBase d offset gm = d.unlockPtp :=
  if_pos (by rw [decide_eq_true hfar, Bool.true_or])

theorem sync_good {d : Device} {offset : Int} (time : Nat) {gm : Nat} (hgm : gm = d.ptp.gm) (hnear : offset.natAbs ≤ 250) :
    (d.sync offset time gm).ptp.good = d.ptp.good + 1 ∧ (15 ≤ d.ptp.good → (d.sync offset time gm).ptp.locked = true) := by
  obtain ⟨-, hservo⟩ := sync_servo d offset time gm
  rw [servoBase_stays hgm hnear] at hservo
  have hgood : (d.sync offset time gm).ptp.good = if offset.natAbs ≤ 250 then d.ptp.good + 1 else 0 := by
    have := congrArg Ptp.good hservo
    exact this
  have hlocked : (d.sync offset time gm).ptp.locked =
      (d.ptp.locked || decide (16 ≤ if offset.natAbs ≤ 250 then d.ptp.good + 1 else 0)) := by
    have := congrArg Ptp.locked hservo
    exact this
  rw [if_pos hnear] at hgood hlocked
  exact ⟨hgood, fun h => by rw [hlocked, decide_eq_true (by omega), Bool.or_true]⟩

theorem sync_lost (d : Device) {offset : Int} (time gm : Nat) (hfar : 1000 < offset.natAbs) :
    (d.sync offset time gm).ptp.locked = false ∧ (d.sync offset time gm).ptp.good = 0 := by
  obtain ⟨-, hservo⟩ := sync_servo d offset time gm
  obtain ⟨hunlocked, -⟩ := unlockPtp_unlocked d
  rw [servoBase_lost gm hfar] at hservo
  have hgood : (d.sync offset time gm).ptp.good = if offset.natAbs ≤ 250 then d.unlockPtp.ptp.good + 1 else 0 := by
    have := congrArg Ptp.good hservo
    exact this
  have hlocked : (d.sync offset time gm).ptp.locked =
      (d.unlockPtp.ptp.locked || decide (16 ≤ if offset.natAbs ≤ 250 then d.unlockPtp.ptp.good + 1 else 0)) := by
    have := congrArg Ptp.locked hservo
    exact this
  rw [if_neg (by omega)] at hgood hlocked
  exact ⟨hlocked.trans (by rw [hunlocked]; rfl), hgood⟩

theorem sync_keeps (s : State) (offset : Int) (time gm : Nat) :
    (s.dev.sync offset time gm).ptp.offset = offset ∧ (s.dev.sync offset time gm).ptp.time = 11 * time ∧
      (s.dev.sync offset time gm).ptp.gm = gm ∧ memoryKept s (s.mapDev (·.sync offset time gm)) := by
  obtain ⟨hmem, hservo⟩ := sync_servo s.dev offset time gm
  have hoffset := congrArg Ptp.offset hservo
  have htime := congrArg Ptp.time hservo
  have hgm := congrArg Ptp.gm hservo
  exact ⟨hoffset, htime, hgm, memoryKept_of_mem (hmem.trans (servoBase_mem _ _ _))⟩

/-! ### Requests of other devices (R438, R440) -/

theorem exec_poolReadMiss {s : State} {line dev n : Nat} {r : PoolDesc} (hown : s.dev.owned line = some r)
    (hinc : s.dev.current dev (BitVec.ofNat 16 n) = true) (hfree : ∀ x, x ∈ s.dev.poolWrites → x.line ≠ line) :
    exec (.poolReadMiss line dev n) s = .next (
      if s.dev.ptp.locked then
        (s.mapDev fun d =>
          { d with leasesGranted := d.leasesGranted ++ [⟨line, dev, BitVec.ofNat 16 n, s.dev.ptp.time + 11000 * r.ldur.toNat,
            d.cycle.toNat, true⟩] }).reply (.poolLine (s.dev.bytes line 64) (some (s.dev.ptp.time + 11000 * r.ldur.toNat)))
      else s.reply (.poolLine (s.dev.bytes line 64) none)) := by
  have hnone : (s.dev.poolWrites.any fun w => w.line == line && w.writes) = false :=
    List.any_eq_false.mpr fun x hx => by
      rw [beq_false_of_ne (hfree x hx)]
      exact Bool.false_ne_true
  have hexec : exec (.poolReadMiss line dev n) s = execPoolReadMiss line dev n s := rfl
  rw [hexec, execPoolReadMiss, hown]
  dsimp only
  rw [hinc, hnone, if_neg (by decide), if_neg Bool.false_ne_true]

section
variable {d : Device} {line : Nat} {r : PoolDesc} {w : PoolWrite} (hown : d.owned line = some r)
  (hfind : d.poolWrites.find? (fun x => x.line == line) = some w) (hother : w.dev ≠ Config.routingId.toNat)
include hown hfind hother

theorem applyWrite_rejected (hinc : d.current w.dev w.inc = false) :
    d.applyWrite line = { d with poolWrites := d.poolWrites.erase w, replies := d.replies ++ [.nak] } := by
  rw [Device.applyWrite, hown, hfind]
  dsimp only
  rw [PoolWrite.own, beq_false_of_ne hother, if_neg Bool.false_ne_true, hinc]
  exact if_pos rfl

section
variable (hinc : d.current w.dev w.inc = true)
include hinc

theorem applyWrite_read (hop : w.writes = false) :
    d.applyWrite line =
      { d with poolWrites := d.poolWrites.erase w, replies := d.replies ++ w.answer (d.bytes (line + w.off) w.size) } := by
  rw [Device.applyWrite, hown, hfind]
  dsimp only
  rw [PoolWrite.own, beq_false_of_ne hother, if_neg Bool.false_ne_true, hinc, if_neg (by decide), hop]
  exact if_pos rfl

theorem applyWrite_waits (hop : w.writes = true)
    (hlease : (d.leasesGranted.filter fun l => l.line == line).all (d.leaseOver r) = false) : d.applyWrite line = d := by
  rw [Device.applyWrite, hown, hfind]
  dsimp only
  rw [PoolWrite.own, beq_false_of_ne hother, if_neg Bool.false_ne_true, hinc, if_neg (by decide), hop, if_neg (by decide), hlease]
  exact if_neg Bool.false_ne_true

/-- What a request that writes leaves once no lease stands against it (R440). -/
theorem applyWrite_written (hop : w.writes = true)
    (hlease : (d.leasesGranted.filter fun l => l.line == line).all (d.leaseOver r) = true) :
    ∃ u : Device, u.mem = d.mem ∧ u.poolWrites = d.poolWrites.erase w ∧
      u.leasesGranted = d.leasesGranted.filter (fun l => l.line != line) ∧
      u.replies = d.replies ++ w.answer (d.bytes (line + w.off) w.size) ∧
      d.applyWrite line = (u.poke (line + w.off) (w.result (d.bytes (line + w.off) w.size))).dropLine line := by
  refine ⟨({ d with
      poolWrites := d.poolWrites.erase w, leasesGranted := d.leasesGranted.filter fun l => l.line != line
      replies := d.replies ++ w.answer (d.bytes (line + w.off) w.size) } : Device).note (line + w.off) w.size .outside,
    rfl, rfl, rfl, rfl, ?_⟩
  rw [Device.applyWrite, hown, hfind]
  dsimp only
  rw [PoolWrite.own, beq_false_of_ne hother, if_neg Bool.false_ne_true, hinc, if_neg (by decide), hop, if_neg (by decide), hlease]
  exact if_pos rfl

theorem applyWrite_done (hop : w.writes = true)
    (hlease : (d.leasesGranted.filter fun l => l.line == line).all (d.leaseOver r) = true)
    (hlen : (w.result (d.bytes (line + w.off) w.size)).length = w.size) :
    (∀ i, i < w.size → (d.applyWrite line).byte (line + w.off + i) = (w.result (d.bytes (line + w.off) w.size)).getD i 0) ∧
      (∀ b, ¬ within (line + w.off) w.size b → (d.applyWrite line).byte b = d.byte b) ∧
      (d.applyWrite line).poolWrites = d.poolWrites.erase w ∧
      (d.applyWrite line).replies = d.replies ++ w.answer (d.bytes (line + w.off) w.size) ∧
      ∀ l, l ∈ (d.applyWrite line).leasesGranted → l.line ≠ line := by
  obtain ⟨u, hmem, hwrites, hgranted, hreplies, happly⟩ := applyWrite_written hown hfind hother hinc hop hlease
  rw [happly]
  refine ⟨fun i hi => ?_, fun b hb => ?_, hwrites, hreplies, fun l hl => ?_⟩
  · exact Device.poke_byte_same u _ i _ (by rwa [hlen])
  · refine (Device.poke_byte_other u _ b _ ?_).trans (by rw [Device.byte, hmem]; rfl)
    rw [hlen]
    unfold within at hb
    omega
  · have hl' : l ∈ u.leasesGranted := hl
    rw [hgranted] at hl'
    exact bne_iff_ne.mp (List.mem_filter.mp hl').2

end

end

theorem exec_poolWriteApply {s : State} {line : Nat} {d : Device} (h : s.dev.applyWrite line = d) :
    exec (.poolWriteApply line) s = .next { s with dev := d } := h ▸ rfl

theorem leaseOver_iff (s : State) (r : PoolDesc) (l : Lease) : s.dev.leaseOver r l = true ↔ leaseEnded s r l := by
  rw [Device.leaseOver, leaseEnded, Bool.or_eq_true, Bool.and_eq_true, Bool.and_eq_true, decide_eq_true_iff, decide_eq_true_iff,
    and_assoc]

theorem leasesOver_iff (s : State) (r : PoolDesc) (line : Nat) :
    (s.dev.leasesGranted.filter fun l => l.line == line).all (s.dev.leaseOver r) = true ↔
      ∀ l, l ∈ s.dev.leasesGranted → l.line = line → leaseEnded s r l := by
  rw [List.all_eq_true]
  refine ⟨fun h l hl hline => (leaseOver_iff s r l).mp (h l (List.mem_filter.mpr ⟨hl, beq_iff_eq.mpr hline⟩)), fun h l hl => ?_⟩
  obtain ⟨hmem, hline⟩ := List.mem_filter.mp hl
  exact (leaseOver_iff s r l).mpr (h l hmem (beq_iff_eq.mp hline))

theorem writes_of_op {w : PoolWrite} (h : ∀ n, w.op ≠ .read n) : w.writes = true := by
  cases hop : w.op with
  | read n => exact absurd hop (h n)
  | write | amo | cas | famo | csum => rw [PoolWrite.writes, hop]

/-- What an atomic of another device computes is what the claim names. -/
theorem poolResult_served {w : PoolWrite} {old : List Byte} {n new : Nat} (h : poolResult w (natOf old) n new) :
    w.size = n ∧ w.writes = true ∧ w.answer old = [.poolOld w.dev old] ∧ w.result old = bytesOf n new := by
  obtain ⟨op, u, hop, rfl, hmem⟩ | ⟨u, hop, rfl, rfl⟩ | ⟨op, hop, rfl, rfl⟩ | ⟨hop, rfl, rfl⟩ := h <;>
    refine ⟨by rw [PoolWrite.size, hop], by rw [PoolWrite.writes, hop], by rw [PoolWrite.answer, hop], ?_⟩ <;>
    rw [PoolWrite.result, hop]
  exact congrArg (bytesOf u.size) (amo_apply _ _ _ _ hmem)

/-! ### Incarnations (R441) -/

theorem bind_keeps (d : Device) (inc : BitVec 16) :
    (d.bind inc).incarnation = inc ∧ (d.bind inc).bound = true ∧ (d.bind inc).mem = d.mem ∧
      ∀ x, x ∈ (d.bind inc).poolWrites → x.dev ≠ Config.routingId.toNat := by
  refine ⟨rfl, rfl, (dropLines_caches id _ d).mem, fun x hx => ?_⟩
  have hown := (List.mem_filter.mp hx).2
  rw [Bool.not_eq_true', PoolWrite.own] at hown
  exact ne_of_beq_false hown

theorem mem_keys_of_lookup {α : Type} {m : NatMap α} {k : Nat} (h : lookup m k ≠ none) : k ∈ m.map Prod.fst := by
  by_contra hk
  exact h (lookup_eq_none.mpr fun e he heq => hk (heq ▸ List.mem_map_of_mem he))

theorem bind_held (d : Device) (inc : BitVec 16) {l : Nat} (hlo : 12 * 2 ^ 40 ≤ l) (hhi : l < 2 ^ 44) :
    lookup (d.bind inc).held l = none := by
  refine dropLines_held _ d l ?_
  by_cases hl : lookup d.held l = none
  · exact .inr hl
  · exact .inl (List.mem_filter.mpr ⟨mem_keys_of_lookup hl, decide_eq_true ⟨hlo, hhi⟩⟩)

theorem stale_filtered {α : Type} {dev : α → Nat} {inc : α → BitVec 16} {n : Nat} {i : BitVec 16} {l : List α} {x : α}
    (h : x ∈ l.filter fun y => !(dev y == n && inc y != i)) (hdev : dev x = n) : inc x = i := by
  have hx := (List.mem_filter.mp h).2
  rw [hdev, beq_self_eq_true, Bool.true_and, Bool.not_eq_true'] at hx
  exact of_not_not fun hne => absurd hx (by rw [bne_iff_ne.mpr hne]; decide)

end Sys2Proof.Claims

namespace Sys2Proof
open Machine Claims

/-- Settles O58: the servo, the leases and the requests that wait at a line, case by case of what the device decides. -/
theorem poolAndTime : Obligations.PoolAndTime := by
  unfold Obligations.PoolAndTime
  intro s offset time gm line dev n inc r w
  refine ⟨?_, ?_, fun hown hinc hcur hfree => ?_, fun hexpired => ?_, fun n hown hfind hother hcur hop => ?_,
    fun hown hfind hlease hother hcur hop => ?_, fun hown hfind hother hcur => ?_, fun hown hfind hlease hother hcur => ?_,
    fun hline hpool hvalid hmode => ?_, fun hself hinc => ?_, fun hpeer hinc => ?_⟩
  · obtain ⟨hoffset, htime, hgm, hmem⟩ := sync_keeps s offset time gm
    exact ⟨_, rfl, hoffset, htime, hgm, rfl, rfl, hmem, fun hsame hnear => sync_good time hsame hnear,
      fun hfar => sync_lost s.dev time gm hfar⟩
  · obtain ⟨hlocked, hgood⟩ := unlockPtp_unlocked s.dev
    exact ⟨_, rfl, hlocked, hgood, memoryKept_of_mem (unlockPtp_mem s.dev), rfl, rfl⟩
  · subst hinc
    have hexec := exec_poolReadMiss hown hcur hfree
    exact ⟨fun hlocked => ⟨_, hexec.trans (congrArg Host.Outcome.next (if_pos hlocked)), rfl, rfl, fun a => rfl⟩,
      fun hlocked => ⟨_, hexec.trans (congrArg Host.Outcome.next (if_neg (by rw [hlocked]; exact Bool.false_ne_true))), rfl⟩⟩
  · obtain ⟨l, hl, hline, hexp⟩ := hexpired
    have hany : (s.dev.leasesHeld.any fun l => l.line == line && decide (l.expiry ≤ s.dev.ptp.time)) = true :=
      List.any_eq_true.mpr ⟨l, hl, by rw [hline, beq_self_eq_true, decide_eq_true hexp]; rfl⟩
    exact ⟨_, congrArg Host.Outcome.next (if_pos hany), dropLine_held s.dev line, fun l hl => dropLine_leases hl, fun a => rfl⟩
  · have happly := applyWrite_read hown hfind hother hcur (by rw [PoolWrite.writes, hop])
    have hreply : w.answer (s.dev.bytes (line + w.off) w.size) = [.poolOld w.dev (s.dev.bytes (line + w.off) n)] := by
      rw [PoolWrite.answer, PoolWrite.size, hop]
    rw [hreply] at happly
    exact ⟨_, exec_poolWriteApply happly, rfl, rfl, rfl, fun a => rfl⟩
  · obtain ⟨l, hl, hline, hstands⟩ := hlease
    have hnot : (s.dev.leasesGranted.filter fun l => l.line == line).all (s.dev.leaseOver r) = false :=
      Bool.eq_false_iff.mpr fun hall => hstands ((leasesOver_iff s r line).mp hall l hl hline)
    exact exec_poolWriteApply (applyWrite_waits hown hfind hother hcur (writes_of_op hop) hnot)
  · exact ⟨_, exec_poolWriteApply (applyWrite_rejected hown hfind hother hcur), rfl, rfl, fun a => rfl⟩
  · have hover := (leasesOver_iff s r line).mpr hlease
    refine ⟨fun hop => ?_, fun n new hresult => ?_⟩
    · have hsize : w.size = w.bytes.length := by rw [PoolWrite.size, hop]
      have hres : ∀ old, w.result old = w.bytes := fun old => by rw [PoolWrite.result, hop]
      obtain ⟨hin, hout, hwrites, hreplies, hgranted⟩ := applyWrite_done hown hfind hother hcur
        (writes_of_op fun n => by rw [hop]; exact PoolOp.noConfusion) hover (by rw [hres, hsize])
      rw [hres, hsize] at hin
      rw [hsize] at hout
      rw [PoolWrite.answer, hop, List.append_nil] at hreplies
      exact ⟨_, rfl, hin, hout, hwrites, hreplies, hgranted⟩
    · obtain ⟨hsize, -⟩ := poolResult_served hresult
      subst hsize
      obtain ⟨-, hop, hanswer, hres⟩ := poolResult_served hresult
      obtain ⟨hin, hout, hwrites, hreplies, hgranted⟩ := applyWrite_done hown hfind hother hcur hop hover
        (by rw [hres, Machine.bytesOf_length])
      rw [hanswer] at hreplies
      exact ⟨_, rfl, fun i hi => (hin i hi).trans (by rw [hres, bytesOf_getD hi]), hout, hwrites, hreplies, hgranted⟩
  · have hfree : (decide (12 * 2 ^ 40 ≤ line) &&
        (lookup s.dev.pool ((line - 12 * 2 ^ 40) / 2 ^ 30)).any fun r => r.valid && !r.leased) = true := by
      rw [decide_eq_true hline, hpool, Option.any_some, hvalid, hmode]
      rfl
    exact ⟨_, congrArg Host.Outcome.next (if_pos hfree), dropLine_held s.dev line, fun a => rfl⟩
  · subst hself hinc
    obtain ⟨hnew, hbound, hmem, hplaces⟩ := bind_keeps s.dev (BitVec.ofNat 16 n)
    refine ⟨s.mapDev (·.bind (BitVec.ofNat 16 n)), ?_, hnew, hbound, hplaces, memoryKept_of_mem hmem,
      fun l hlo hhi => bind_held s.dev _ hlo hhi⟩
    exact congrArg (fun d => Host.Outcome.next { s with dev := d }) (if_pos rfl)
  · subst hinc
    refine ⟨s.mapDev (·.bindPeer dev (BitVec.ofNat 16 n)), ?_, lookup_insertAt_same _ _ _, fun l hl => stale_filtered hl,
      fun x hx => stale_filtered hx, fun a => rfl⟩
    exact congrArg (fun d => Host.Outcome.next { s with dev := d }) (if_neg hpeer)

end Sys2Proof
end

section
/-! PROOF. Firmware frees the pages of an unloaded image (R374). -/

namespace Sys2Proof.Claims
open Machine

/-! ### A page mapped no longer -/

/-- Only the device changes, and of it only what a store may change. -/
def StoresOnly (s t : State) : Prop := devSame s.dev t.dev ∧ t = { s with dev := t.dev }

theorem StoresOnly.refl (s : State) : StoresOnly s s := ⟨devSame.refl _, rfl⟩

theorem StoresOnly.trans {s t u : State} (h : StoresOnly s t) (k : StoresOnly t u) : StoresOnly s u := by
  obtain ⟨hd, ht⟩ := h
  obtain ⟨kd, ku⟩ := k
  refine ⟨hd.trans kd, ?_⟩
  rw [ku, ht]

theorem StoresOnly.mapDev (s : State) {f : Device → Device} (h : devSame s.dev (f s.dev)) : StoresOnly s (s.mapDev f) := ⟨h, rfl⟩

theorem putEntry_only (s : State) (va : Word) (lvl table e : Nat) : StoresOnly s (s.putEntry va lvl table e) := by
  unfold State.putEntry
  split
  · exact StoresOnly.refl s
  · next loc _ => exact StoresOnly.mapDev s (f := (·.store loc (bytesOf 8 e) .device)) (store_same _ _ _ _)

theorem unmapPage_only (s : State) (va : Word) (pa : Nat) : StoresOnly s (s.unmapPage va pa) := by
  unfold State.unmapPage
  split
  · exact StoresOnly.refl s
  · split
    · exact StoresOnly.refl s
    · split
      · exact putEntry_only _ _ _ _ _
      · exact StoresOnly.refl s

/-- Pages mapped no longer, one after another. -/
def unmapAll (l : List (Word × Nat)) (s : State) : State := l.foldl (fun s e => s.unmapPage e.1 e.2) s

theorem unmapAll_only (l : List (Word × Nat)) : ∀ s : State, StoresOnly s (unmapAll l s) := by
  induction l with
  | nil => exact StoresOnly.refl
  | cons e l ih => exact fun s => (unmapPage_only s e.1 e.2).trans (ih _)

/-- The entry of a page that the tables map is cleared, and nothing else. -/
theorem unmapPage_cleared {s : State} {va : Word} {pa table loc : Nat}
    (htable : ((s.nextTable va 1 s.ctx.desc.troot).bind fun t => s.nextTable va 2 t) = some table)
    (hloc : s.entryLoc va 3 table = some loc) (hpa : (leafOf (s.dev.num loc 8) 3).pa = pa) :
    (s.unmapPage va pa).dev.num loc 8 = 0 ∧ ∀ b, ¬ within loc 8 b → (s.unmapPage va pa).dev.byte b = s.dev.byte b := by
  have hunmap : s.unmapPage va pa = s.mapDev fun d => d.store loc (bytesOf 8 0) .device := by
    rw [State.unmapPage, htable]
    dsimp only
    rw [hloc]
    dsimp only
    rw [if_pos hpa, State.putEntry, hloc]
  rw [hunmap]
  refine ⟨?_, fun b hb => ?_⟩
  · have hnum : (s.dev.store loc (bytesOf 8 0) .device).num loc 8 = (s.dev.poke loc (bytesOf 8 0)).num loc 8 :=
      num_of_mem (Device.store_mem _ _ _ _) _ _
    exact hnum.trans (Device.poke_num_same s.dev loc 8 0)
  · refine Device.store_byte_other s.dev loc b (bytesOf 8 0) .device ?_
    rw [Machine.bytesOf_length]
    unfold within at hb
    omega

/-! ### Images freed -/

/-- The image is unloaded, a stroke has passed, and every core has passed its generation (R374). -/
def freeable (s : State) (sel : Image → Bool) (i : Image) : Bool :=
  sel i && (match i.unloading with
    | none => false
    | some t => decide (t < s.dev.stroke.toNat)) && s.allPast i.gen

/-- The pages of the images that are freed. -/
def freedPages (s : State) (sel : Image → Bool) : List (Word × Nat) :=
  (s.ctx.images.filter (freeable s sel)).flatMap fun i => i.pages.zip i.places

/-- The context without the images freed and without the translations of their pages. -/
def freedContext (s : State) (sel : Image → Bool) (k : Context) : Context :=
  { k with
    images := k.images.filter fun i => !freeable s sel i
    clusters := k.clusters.map fun e =>
      (e.1, { e.2 with
        tlb := e.2.tlb.filter fun l => !((freedPages s sel).map fun e => pageKey e.1).contains l.1
        first := e.2.first.map fun t =>
          (t.1, t.2.filter fun l => !((freedPages s sel).map fun e => pageKey e.1).contains l.1) }) }

theorem freeImages_freed {s : State} {sel : Image → Bool} (hsmall : s.ctx.nclus ≤ 4) {i : Image} (hmem : i ∈ s.ctx.images)
    (hfree : freeable s sel i = true) : s.freeImages sel = (unmapAll (freedPages s sel) s).mapCtx (freedContext s sel) := by
  have hany : (decide (s.ctx.nclus ≤ 4) && s.ctx.images.any (freeable s sel)) = true := by
    rw [decide_eq_true hsmall, Bool.true_and, List.any_eq_true]
    exact ⟨i, hmem, hfree⟩
  exact if_pos hany

theorem allPast_of_cores {s : State} {g : Half}
    (h : ∀ cl c, cl < s.ctx.desc.part.length → c < 192 → g.toNat ≤ (s.coreAt cl c).codegen.toNat) : s.allPast g = true := by
  refine List.all_eq_true.mpr fun p hp => decide_eq_true ?_
  obtain ⟨cl, hcl, hp⟩ := List.mem_flatMap.mp hp
  obtain ⟨c, hc, rfl⟩ := List.mem_map.mp hp
  exact h cl c (List.mem_range.mp hcl) (List.mem_range.mp hc)

theorem image_onePage {img : Image} {pa : Nat} (hsome : 0 < img.size) (hsmall : img.size ≤ 2 ^ 16) (hplaces : img.places = [pa]) :
    img.pages.zip img.places = [(img.base, pa)] := by
  have hone : (img.size + 2 ^ 16 - 1) / 2 ^ 16 = 1 := by omega
  have hpages : img.pages = [img.base] := by
    rw [Image.pages, hone]
    exact congrArg (fun w => [w]) (BitVec.add_zero img.base)
  rw [hpages, hplaces]
  rfl

theorem freedPages_alone {s : State} {sel : Image → Bool} {img : Image} {pa : Nat} (halone : s.ctx.images = [img])
    (hfree : freeable s sel img = true) (hpages : img.pages.zip img.places = [(img.base, pa)]) :
    freedPages s sel = [(img.base, pa)] := by
  rw [freedPages, halone, List.filter_cons_of_pos hfree]
  exact (List.append_nil _).trans hpages

section
variable {s : State} {img : Image} {base : Word} {τ : Nat} (hsmall : s.ctx.desc.part.length ≤ 4) (hmem : img ∈ s.ctx.images)
  (hbase : img.base = base) (hunload : img.unloading = some τ) (hpast : τ < s.dev.stroke.toNat)
  (hcores : ∀ cl c, cl < s.ctx.desc.part.length → c < 192 → img.gen.toNat ≤ (s.coreAt cl c).codegen.toNat)
include hbase hunload hpast hcores

theorem freeable_unloaded : freeable s (fun i => decide (i.base = base)) img = true := by
  rw [freeable, decide_eq_true hbase, hunload, allPast_of_cores hcores, Bool.and_true, Bool.true_and]
  exact decide_eq_true hpast

include hsmall hmem

theorem exec_unloadFree (htick : s.dev.cycle.toNat % Config.stroke = 0)
    (hstroke : s.dev.stroke.toNat = s.dev.cycle.toNat / Config.stroke) :
    exec (.unloadFree base) s = .next ((unmapAll (freedPages s fun i => decide (i.base = base)) s).mapCtx
      (freedContext s fun i => decide (i.base = base))) := by
  have hexec : exec (.unloadFree base) s = execUnloadFree base s := rfl
  rw [hexec, execUnloadFree, if_pos ⟨htick, hstroke⟩,
    freeImages_freed hsmall hmem (freeable_unloaded hbase hunload hpast hcores)]

end

/-- The images that stay, and those that go. -/
theorem freed_images (s : State) (base : Word) (img : Image) :
    img ∈ (freedContext s (fun i => decide (i.base = base)) s.ctx).images ↔
      img ∈ s.ctx.images ∧ freeable s (fun i => decide (i.base = base)) img = false := by
  rw [freedContext, List.mem_filter, Bool.not_eq_true']

theorem freeable_other {s : State} {base : Word} {x : Image} (h : x.base ≠ base) :
    freeable s (fun i => decide (i.base = base)) x = false := by
  rw [freeable, decide_eq_false h, Bool.false_and, Bool.false_and]

end Sys2Proof.Claims
end

section
/-! PROOF. The gang-stop (R424 to R427). -/

namespace Sys2Proof.Claims
open Machine

/-! ### What the save path writes lies in the save area (R427) -/

theorem bytesAt_range {pa : Nat} {bs : List Byte} {e : Nat × Byte} (h : e ∈ bytesAt pa bs) : pa ≤ e.1 ∧ e.1 < pa + bs.length := by
  obtain ⟨i, hi, rfl⟩ := List.mem_mapIdx.mp h
  exact ⟨Nat.le_add_right _ _, Nat.add_lt_add_left hi _⟩

theorem inSave_iff (k : Context) (pa : Nat) :
    k.inSave pa = true ↔ k.desc.save ≤ pa ∧ pa < k.desc.save + (192 * 2 ^ 19 + 2 ^ 20) * k.nclus := by
  rw [Context.inSave, decide_eq_true_iff]
  rfl

theorem inSave_core {k : Context} {cl core pa : Nat} (hcl : cl < k.nclus) (hcore : core < 192) (hlo : k.saveOf cl core ≤ pa)
    (hhi : pa < k.saveOf cl core + 2 ^ 19) : k.inSave pa = true := by
  rw [inSave_iff]
  rw [Context.saveOf, show saveSize = 2 ^ 19 from rfl] at hlo hhi
  omega

theorem places_range {k : Context} {p : Nat × Nat} (h : p ∈ k.places) : p.1 < k.nclus ∧ p.2 < 192 := by
  obtain ⟨cl, hcl, h⟩ := List.mem_flatMap.mp h
  obtain ⟨c, hc, rfl⟩ := List.mem_map.mp h
  exact ⟨List.mem_range.mp hcl, List.mem_range.mp hc⟩

theorem savedCore_inSave {s : State} {p : Nat × Nat} (hp : p ∈ s.ctx.places) {e : Nat × Byte} (h : e ∈ s.savedCore p.1 p.2) :
    s.ctx.inSave e.1 = true := by
  obtain ⟨hcl, hcore⟩ := places_range hp
  rw [State.savedCore] at h
  obtain h | h := List.mem_append.mp h
  · obtain ⟨hlo, hhi⟩ := bytesAt_range h
    rw [List.length_take] at hhi
    exact inSave_core hcl hcore hlo (by omega)
  · obtain ⟨hlo, hhi⟩ := bytesAt_range h
    rw [Machine.bytesOf_length] at hhi
    exact inSave_core hcl hcore (by omega) (by omega)

theorem savedCluster_inSave {s : State} {cl : Nat} (hcl : cl < s.ctx.nclus) {e : Nat × Byte} (h : e ∈ s.savedCluster cl) :
    s.ctx.inSave e.1 = true := by
  rw [State.savedCluster] at h
  obtain ⟨hlo, hhi⟩ := bytesAt_range h
  rw [Machine.bytesOf_length] at hhi
  rw [Context.saveOf, show saveSize = 2 ^ 19 from rfl] at hlo hhi
  rw [inSave_iff]
  omega

theorem savedByte_inSave {k : Context} {x e : Nat × Byte} (h : k.savedByte x = some e) : k.inSave e.1 = true := by
  rw [Context.savedByte] at h
  dsimp only at h
  split at h
  · next hin =>
    split at h
    · cases h
      exact inSave_core (cl := (x.1 - localLoc k.desc.ctxid 0 0 0) / 2 ^ 26) (by omega) ‹_› (by omega) (by omega)
    · cases h
  · split at h
    · next hin =>
      split at h
      · cases h
        exact inSave_core (cl := (x.1 - labelLoc (localLoc k.desc.ctxid 0 0 0)) / 2 ^ 22) (by omega) ‹_› (by omega) (by omega)
      · cases h
    · cases h

/-- What the save path writes. -/
def savedBytes (s : State) : List (Nat × Byte) :=
  s.ctx.places.flatMap (fun p => s.savedCore p.1 p.2) ++ (List.range s.ctx.nclus).flatMap s.savedCluster
    ++ s.dev.mem.filterMap s.ctx.savedByte

theorem savedBytes_inSave {s : State} {e : Nat × Byte} (h : e ∈ savedBytes s) : s.ctx.inSave e.1 = true := by
  obtain h | h := List.mem_append.mp h
  · obtain h | h := List.mem_append.mp h
    · obtain ⟨p, hp, h⟩ := List.mem_flatMap.mp h
      exact savedCore_inSave hp h
    · obtain ⟨cl, hcl, h⟩ := List.mem_flatMap.mp h
      exact savedCluster_inSave (List.mem_range.mp hcl) h
  · obtain ⟨x, -, hx⟩ := List.mem_filterMap.mp h
    exact savedByte_inSave hx

/-- Bytes written at PAs leave every location where none of them lies. -/
theorem putPa_other (d : Device) {a : Nat} (l : List (Nat × Byte)) (h : ∀ e, e ∈ l → ∀ r, d.locate e.1 ≠ some (r, a)) :
    ∀ m : NatMap Byte, lookupD 0 (l.foldl d.putPa m) a = lookupD 0 m a := by
  induction l with
  | nil => exact fun m => rfl
  | cons e l ih =>
    intro m
    refine (ih (fun x hx => h x (List.mem_cons_of_mem e hx)) _).trans ?_
    unfold Device.putPa
    split
    · next r loc hloc =>
      have hne : a ≠ loc := fun heq => h e List.mem_cons_self r (heq ▸ hloc)
      rw [lookupD_putD, if_neg hne]
    · rfl

/-- Memory outside the save area stays. -/
theorem saveCores_byte (s : State) {a : Nat} (h : ¬ inSaveArea s a) : s.saveCores.dev.byte a = s.dev.byte a := by
  rw [inSaveArea, not_or] at h
  obtain ⟨hown, hloc⟩ := h
  have hnews : ∀ e, e ∈ savedBytes s → ∀ r, s.dev.locate e.1 ≠ some (r, a) :=
    fun e he r heq => hloc ⟨e.1, r, savedBytes_inSave he, heq⟩
  have hold : (!s.ctx.rewritten (paOfLoc s.dev.rb a)) = true := by
    rw [Bool.not_eq_true', Context.rewritten, Bool.eq_false_iff.mpr hown, Bool.false_and]
  have hmem : s.saveCores.dev.byte a =
      lookupD 0 ((savedBytes s).foldl s.dev.putPa (s.dev.mem.filter fun e => !s.ctx.rewritten (paOfLoc s.dev.rb e.1))) a := rfl
  rw [hmem, putPa_other s.dev _ hnews, lookupD, lookup_filterKeys fun k => !s.ctx.rewritten (paOfLoc s.dev.rb k), if_pos hold]
  rfl

/-! ### Engines settle with nothing to finish -/

/-- No promotion, demotion or combine is in flight in any cluster. -/
def settledEngines (s : State) : Prop :=
  (∀ cl r, r ∈ (s.cluster cl).rowq → r.kind.promotes = false ∧ r.kind.demotes = false) ∧
    ∀ cl r, r ∈ (s.cluster cl).runs → r.given = []

/-- The core, the device, the descriptor and the queues of engines but for runs are as before. -/
def OnlyRuns (s t : State) : Prop := t.core = s.core ∧ t.dev = s.dev ∧ t.ctx.desc = s.ctx.desc

theorem completePromos_none {s : State} (h : settledEngines s) (cl : Nat) (which : RowOp → Bool) :
    s.completePromos cl which = s := by
  have hnone : ((s.cluster cl).rowq.filter fun r => (r.kind.promotes || r.kind.demotes) && which r) = [] :=
    List.filter_eq_nil_iff.mpr fun r hr => by
      obtain ⟨hp, hd⟩ := h.1 cl r hr
      rw [hp, hd]
      exact Bool.false_ne_true
  rw [State.completePromos, hnone]
  rfl

theorem putRun_settled {s : State} (h : settledEngines s) {cl : Nat} {r : EdgeRun} (hr : r ∈ (s.cluster cl).runs) :
    settledEngines (s.putRun cl r r) := by
  refine ⟨fun cl' x hx => ?_, fun cl' x hx => ?_⟩
  · by_cases hcl : cl' = cl
    · subst hcl
      rw [State.putRun, State.cluster_mapCluster_same] at hx
      exact h.1 cl' x hx
    · rw [State.putRun, State.cluster_mapCluster_other _ _ hcl] at hx
      exact h.1 cl' x hx
  · by_cases hcl : cl' = cl
    · subst hcl
      rw [State.putRun, State.cluster_mapCluster_same] at hx
      obtain ⟨q, hq, rfl⟩ := List.mem_map.mp hx
      split
      · exact h.2 cl' r hr
      · exact h.2 cl' q hq
    · rw [State.putRun, State.cluster_mapCluster_other _ _ hcl] at hx
      exact h.2 cl' x hx

theorem combineGiven_none {s : State} (h : settledEngines s) (cl : Nat) :
    settledEngines (s.combineGiven cl) ∧ OnlyRuns s (s.combineGiven cl) := by
  rw [State.combineGiven]
  split
  · exact ⟨h, rfl, rfl, rfl⟩
  · next r hfind =>
    have hr := List.mem_of_find?_eq_some hfind
    rw [h.2 cl r hr]
    exact ⟨putRun_settled h hr, rfl, rfl, rfl⟩

theorem settleEngines_none {s : State} (h : settledEngines s) (cl : Nat) :
    settledEngines (s.settleEngines cl) ∧ OnlyRuns s (s.settleEngines cl) := by
  rw [State.settleEngines, completePromos_none h]
  exact combineGiven_none h cl

theorem settleAll_none (l : List Nat) : ∀ s : State, settledEngines s → OnlyRuns s (l.foldl State.settleEngines s) := by
  induction l with
  | nil => exact fun s _ => ⟨rfl, rfl, rfl⟩
  | cons cl l ih =>
    intro s h
    obtain ⟨hnext, hcore, hdev, hdesc⟩ := settleEngines_none h cl
    obtain ⟨kcore, kdev, kdesc⟩ := ih _ hnext
    exact ⟨kcore.trans hcore, kdev.trans hdev, kdesc.trans hdesc⟩

theorem retireLabel_none {s : State} {p : Nat × Nat}
    (h : ∀ g, (s.coreAt p.1 p.2).park ≠ some (.contra g) ∧ (s.coreAt p.1 p.2).park ≠ some .wreset) : s.retireLabel p = s := by
  rw [State.retireLabel]
  split
  · next g hg => exact absurd hg (h g).1
  · next hw => exact absurd hw (h []).2
  · rfl

/-! ### The stop -/

/-- The state that a gang-stop saves. -/
def haltedState (t : State) : State :=
  ((t.haltEngines.mapCores Core.halt).mapDev (·.dropPlaces)).mapCtx fun k => { k with stopped := true }

theorem exec_gangStop {s : State} (hrun : s.ctx.stopped = false) (h : stoppable s) :
    exec .gangStop s = .next (haltedState ((List.range s.ctx.nclus).foldl State.settleEngines s)).saveCores := by
  obtain ⟨hpark, hbound, -⟩ := h
  have hretire : s.ctx.places.foldl State.retireLabel s = s :=
    foldl_same fun p _ => retireLabel_none fun g => hpark p.1 p.2 g
  have hexec : exec .gangStop s = execGangStop s := rfl
  rw [hexec, execGangStop, hrun, if_neg Bool.false_ne_true, hretire]
  dsimp only
  rw [hbound]
  rfl

/-- A copy unit at the stop. -/
def haltedUnit (u : CopyUnit) : CopyUnit := { u with jobs := u.jobs.map Job.halt }

/-- A cluster whose engines are at the stop. -/
def haltedCluster (t : State) (cl : Nat) (k : Cluster) : Cluster :=
  { k with
    engines := k.engines.map fun e => (e.1, t.haltedEngine cl e.1 e.2)
    copies := k.copies.map fun u => (u.1, haltedUnit u.2) }

theorem lookup_mapKeyed {α β : Type} (f : Nat → α → β) (m : NatMap α) (k : Nat) :
    lookup (m.map fun e => (e.1, f e.1 e.2)) k = (lookup m k).map (f k) := by
  induction m with
  | nil => rfl
  | cons e m ih =>
    obtain ⟨j, v⟩ := e
    rw [List.map_cons, lookup, lookup]
    by_cases hj : j = k
    · rw [if_pos hj, if_pos hj, hj]
      rfl
    · rw [if_neg hj, if_neg hj, ih]

theorem halted_copies (t : State) (cl : Nat) :
    ((haltedState t).saveCores.cluster cl).copies = (t.cluster cl).copies.map fun u => (u.1, haltedUnit u.2) := by
  have hcluster : (haltedState t).saveCores.cluster cl = lookupD Cluster.reset ((t.ctx.clusters.map fun c =>
      (c.1, haltedCluster t c.1 c.2)).map fun e => (e.1, { e.2 with cores := e.2.cores.map fun c => (c.1, c.2.halt) })) cl := rfl
  rw [hcluster, lookupD_mapValues (fun k : Cluster => { k with cores := k.cores.map fun c => (c.1, c.2.halt) }) Cluster.reset _ cl
    (d' := Cluster.reset) rfl, lookupD, lookup_mapKeyed (haltedCluster t), State.cluster, lookupD]
  cases lookup t.ctx.clusters cl <;> rfl

theorem halted_jobs (t : State) (cl crew : Nat) {j : Job} (h : j ∈ (unit (haltedState t).saveCores cl crew).jobs) :
    j.state ≠ .running := by
  rw [unit, Cluster.copyUnit, halted_copies, lookupD_mapValues haltedUnit CopyUnit.reset _ _ (d' := CopyUnit.reset) rfl] at h
  obtain ⟨i, -, rfl⟩ := List.mem_map.mp h
  unfold Job.halt
  split
  · exact JobState.noConfusion
  · assumption

theorem dropPlaces_none {d : Device} (h : ∀ w, w ∈ d.poolWrites → w.own = false) : d.dropPlaces = d := by
  have hall : d.poolWrites.filter (fun w => !w.own) = d.poolWrites :=
    List.filter_eq_self.mpr fun w hw => by rw [h w hw]; rfl
  rw [Device.dropPlaces, hall]

theorem halted_core (t : State) :
    (haltedState t).saveCores.core.pending = [] ∧ (haltedState t).saveCores.core.stalled = false ∧
      (haltedState t).saveCores.core.regs = t.core.drain.regs ∧ (haltedState t).saveCores.core.pc = t.core.pc ∧
      (haltedState t).saveCores.core.record = t.core.record := ⟨rfl, rfl, rfl, rfl, rfl⟩

end Sys2Proof.Claims
end

section
/-! PROOF. Restore, creation and destruction of contexts (R421 to R433). -/

namespace Sys2Proof.Claims
open Machine

/-! ### What the replay of inboxes leaves (R429) -/

/-- The registers of the core that moves and the descriptor of its context are as before. -/
structure Replayed (s t : State) : Prop where
  regs : t.core.regs = s.core.regs
  desc : t.ctx.desc = s.ctx.desc

theorem Replayed.refl (s : State) : Replayed s s := ⟨rfl, rfl⟩

theorem Replayed.trans {s t u : State} (h : Replayed s t) (k : Replayed t u) : Replayed s u :=
  ⟨k.regs.trans h.regs, k.desc.trans h.desc⟩

theorem Replayed.mapDev (s : State) (f : Device → Device) : Replayed s (s.mapDev f) := ⟨rfl, rfl⟩

theorem Replayed.mapCoreAt (s : State) (cl c : Nat) {f : Core → Core} (h : ∀ k, (f k).regs = k.regs) :
    Replayed s (s.mapCoreAt cl c f) := by
  unfold State.mapCoreAt
  split
  · exact ⟨h s.core, rfl⟩
  · exact ⟨rfl, rfl⟩

theorem Replayed.foldl {α : Type} {f : State → α → State} (h : ∀ s a, Replayed s (f s a)) (l : List α) :
    ∀ s : State, Replayed s (l.foldl f s) := by
  induction l with
  | nil => exact Replayed.refl
  | cons a l ih => exact fun s => (h s a).trans (ih _)

theorem bumpAt_replayed (s : State) (cl core k n : Nat) (err : Bool) : Replayed s (s.bumpAt cl core k n err) :=
  Replayed.mapCoreAt s cl core (f := (·.bump k n err)) fun _ => rfl

theorem engineForm_replayed {s t : State} {cl core : Nat} {l : Label} {w : LabelWord} (h : s.engineForm cl core l = .ok (w, t)) :
    Replayed s t := by
  rw [State.engineForm] at h
  split at h
  · cases h
  · next world dropped hform =>
    cases h
    exact Replayed.trans (t := s.mapWorld fun _ => world) ⟨rfl, rfl⟩
      (Replayed.mapCoreAt _ _ _ (f := fun c => { c with lblstat := c.lblstat.count dropped (decide (l.length > 1)) }) fun _ => rfl)

theorem engineFit_replayed {s t : State} {cl core : Nat} {nl fit : Label} {w : LabelWord}
    (h : s.engineFit cl core nl = .ok (w, fit, t)) : Replayed s t := by
  rw [State.engineFit] at h
  split at h
  · cases h
  · next hform =>
    cases h
    exact engineForm_replayed hform

theorem partialLabel_replayed {s t : State} {cl core : Nat} {raw w : LabelWord} {fit : Label}
    (h : s.partialLabel cl core raw fit = .ok (w, t)) : Replayed s t := by
  rw [State.partialLabel] at h
  split at h
  · cases h
    exact Replayed.refl s
  · split at h
    · cases h
    · next hform =>
      cases h
      exact engineForm_replayed hform

theorem enginePartial_replayed {s t : State} {a : Agent} {core : Nat} {p : Place} {bs : List Byte} {nl : Label}
    (h : s.enginePartial a core p bs nl = .ok t) : Replayed s t := by
  rw [State.enginePartial] at h
  obtain ⟨⟨w, fit, u⟩, hfit, h⟩ := bind_ok h
  have hu := engineFit_replayed hfit
  dsimp only at h
  split at h
  · obtain ⟨⟨w', v⟩, hlabel, h⟩ := bind_ok h
    obtain ⟨_, _, h⟩ := bind_ok h
    cases h
    exact (hu.trans (partialLabel_replayed hlabel)).trans ((Replayed.mapDev v (·.setRawLabel (lineOf p.loc) w')).trans
      (Replayed.mapDev _ _))
  · obtain ⟨_, _, h⟩ := bind_ok h
    obtain ⟨_, _, h⟩ := bind_ok h
    cases h
    exact hu.trans (Replayed.mapDev _ _)

theorem replayRun_replayed (s : State) (cl core : Nat) (element : Bool) (line : List Byte) (off : Nat) (w : LabelWord)
    (run : Nat × Nat) : Replayed s (s.replayRun cl core element line off w run) := by
  unfold State.replayRun
  extract_lets a p bs
  split
  · exact ⟨rfl, rfl⟩
  · split
    · exact enginePartial_replayed ‹_›
    · exact Replayed.refl s

theorem replayRecord_replayed (s : State) (cl core i : Nat) : Replayed s (s.replayRecord cl core i) := by
  unfold State.replayRecord
  extract_lets at_ off w inc line beat t u
  have ht : Replayed s t := Replayed.foldl (fun s run => replayRun_replayed s cl core _ line off w run) _ s
  have hu : Replayed t u := by
    by_cases hinc : (inc.testBit 4 && !inc.testBit 6) = true
    · rw [show u = _ from if_pos hinc]
      exact bumpAt_replayed _ _ _ _ _ _
    · rw [show u = t from if_neg hinc]
      exact Replayed.refl t
  clear_value t u beat
  refine (ht.trans hu).trans ?_
  cases beat with
  | some b => exact bumpAt_replayed _ _ _ _ _ _
  | none =>
    dsimp only
    split
    · exact bumpAt_replayed _ _ _ _ _ _
    · exact Replayed.refl _

theorem replayInbox_replayed (s : State) (cl core : Nat) : Replayed s (s.replayInbox cl core) := by
  unfold State.replayInbox
  extract_lets nrec n
  split
  · exact Replayed.refl s
  · exact (Replayed.foldl (fun s i => replayRecord_replayed s cl core i) _ s).trans (Replayed.mapDev _ _)

theorem replayInbox_empty {s : State} {cl core : Nat} (h : s.dev.num (localLoc s.ctx.desc.ctxid cl core inboxOff) 8 = 0) :
    s.replayInbox cl core = s := by
  rw [State.replayInbox, h]
  exact if_pos rfl

/-! ### Leases that were saved (R243) -/

/-- The device and the core are as before but for the core's park. -/
def ParkedOnly (s t : State) : Prop := t.dev = s.dev ∧ { t.core with park := s.core.park } = s.core ∧ t.ctx.desc = s.ctx.desc

theorem ParkedOnly.refl (s : State) : ParkedOnly s s := ⟨rfl, rfl, rfl⟩

theorem ParkedOnly.trans {s t u : State} (h : ParkedOnly s t) (k : ParkedOnly t u) : ParkedOnly s u := by
  obtain ⟨hdev, hcore, hdesc⟩ := h
  obtain ⟨kdev, kcore, kdesc⟩ := k
  exact ⟨kdev.trans hdev, by rw [← hcore, ← kcore], kdesc.trans hdesc⟩

theorem ParkedOnly.foldl {α : Type} {f : State → α → State} (h : ∀ s a, ParkedOnly s (f s a)) (l : List α) :
    ∀ s : State, ParkedOnly s (l.foldl f s) := by
  induction l with
  | nil => exact ParkedOnly.refl
  | cons a l ih => exact fun s => (h s a).trans (ih _)

theorem parkLease_only (s : State) (cl c : Nat) : ParkedOnly s (s.mapCoreAt cl c fun k => { k with park := some .lease }) := by
  unfold State.mapCoreAt
  split <;> exact ⟨rfl, rfl, rfl⟩

theorem requeueLease_only (s : State) (cl : Nat) (e : Nat × MEngine) : ParkedOnly s (s.requeueLease cl e) := by
  unfold State.requeueLease
  split
  · exact ParkedOnly.refl s
  · next m _ =>
    exact ParkedOnly.trans (t := s.mapMengine cl e.1 fun e =>
      { e with
        holder := none, lrem := 0, requests := insertAt m e.lrem e.requests
        saved := some ⟨m, e.tables, e.bankA, e.bankB⟩ }) ⟨rfl, rfl, rfl⟩ (parkLease_only _ _ _)

theorem requeueLeases_only (s : State) : ParkedOnly s s.requeueLeases :=
  ParkedOnly.foldl (f := fun t (c : Nat × Cluster) => c.2.engines.foldl (·.requeueLease c.1 ·) t)
    (fun t c => ParkedOnly.foldl (f := (·.requeueLease c.1 ·)) (fun t e => requeueLease_only t c.1 e) c.2.engines t) _ s

theorem requeueLeases_unleased {s : State} (h : unleased s) : s.requeueLeases = s :=
  foldl_same fun c hc => foldl_same fun e he => by rw [State.requeueLease, h c e hc he]

/-! ### Restore -/

/-- The stopped context on its new clusters, with no translation held. -/
def movedTo (s : State) (part : List Nat) (tables : Tables) : State :=
  s.mapCtx fun k =>
    { k with
      desc := { k.desc with part := part, cores := tables.cores, routes := tables.routes }
      clusters := k.clusters.map fun e => (e.1, { e.2 with tlb := [], first := [], walks := [] }) }

/-- The inboxes replayed. -/
def replayedIn (t : State) : State := t.ctx.places.foldl (fun t p => t.replayInbox p.1 p.2) t

theorem replayedIn_replayed (t : State) : Replayed t (replayedIn t) :=
  Replayed.foldl (fun t (p : Nat × Nat) => replayInbox_replayed t p.1 p.2) _ t

theorem replayedIn_empty {t : State} (h : ∀ cl c, t.dev.num (localLoc t.ctx.desc.ctxid cl c inboxOff) 8 = 0) : replayedIn t = t :=
  foldl_same fun p _ => replayInbox_empty (h p.1 p.2)

theorem resume_eq (s : State) (part : List Nat) (tables : Tables) :
    s.resume part tables =
      (replayedIn (movedTo s part tables)).requeueLeases.mapCtx fun k => { k with stopped := false, beats := [] } := rfl

theorem resume_runs (s : State) (part : List Nat) (tables : Tables) :
    (s.resume part tables).ctx.stopped = false ∧ (s.resume part tables).ctx.desc.part = part ∧
      (s.resume part tables).ctx.desc.cores = tables.cores ∧ (s.resume part tables).ctx.desc.routes = tables.routes ∧
      (s.resume part tables).core.regs = s.core.regs := by
  obtain ⟨hregs, hdesc⟩ := replayedIn_replayed (movedTo s part tables)
  obtain ⟨-, hcore, hleases⟩ := requeueLeases_only (replayedIn (movedTo s part tables))
  have hnew : (s.resume part tables).ctx.desc = (movedTo s part tables).ctx.desc := hleases.trans hdesc
  have hkept : (replayedIn (movedTo s part tables)).requeueLeases.core.regs = (replayedIn (movedTo s part tables)).core.regs := by
    have := congrArg Core.regs hcore
    exact this
  rw [hnew]
  exact ⟨rfl, rfl, rfl, rfl, hkept.trans hregs⟩

theorem movedTo_unleased {s : State} {part : List Nat} {tables : Tables} (h : unleased s) : unleased (movedTo s part tables) := by
  intro c e hc he
  obtain ⟨c', hc', rfl⟩ := List.mem_map.mp hc
  exact h c' e hc' he

/-- With every inbox empty the restore changes no byte, and of the core only a park for a saved lease. -/
theorem resume_quiet {s : State} (part : List Nat) (tables : Tables)
    (h : ∀ cl c, s.dev.num (localLoc s.ctx.desc.ctxid cl c 0x3F000) 8 = 0) :
    (s.resume part tables).dev = s.dev ∧ { (s.resume part tables).core with park := s.core.park } = s.core ∧
      (unleased s → (s.resume part tables).core = s.core) := by
  have hempty : replayedIn (movedTo s part tables) = movedTo s part tables := replayedIn_empty h
  rw [resume_eq, hempty]
  obtain ⟨hdev, hcore, -⟩ := requeueLeases_only (movedTo s part tables)
  refine ⟨hdev, hcore, fun hfree => ?_⟩
  rw [requeueLeases_unleased (movedTo_unleased hfree)]
  rfl

theorem exec_contextRestore {s : State} {part : List Nat} {tables : Tables} (hstop : s.ctx.stopped = true)
    (hfault : s.ctx.faulted = false) (hlive : s.ctx.destroyed = false) (hlen : part.length = s.ctx.desc.part.length)
    (hpart : s.freePart part = true) :
    exec (.contextRestore s.ctx.desc.ctxid part tables) s =
      .next (if s.saveError s.ctx then s.contextFault Cause.memerr.code else s.resume part tables) := by
  have hfind : ((s.ctx :: s.others).find? fun k => k.desc.ctxid == s.ctx.desc.ctxid) = some s.ctx :=
    List.find?_cons_of_pos (beq_self_eq_true _)
  have hexec : exec (.contextRestore s.ctx.desc.ctxid part tables) s =
      execContextRestore s.ctx.desc.ctxid part tables s := rfl
  rw [hexec, execContextRestore, hfind]
  dsimp only
  rw [if_pos ⟨hstop, by rw [hfault]; rfl, by rw [hlive]; rfl, hlen, hpart⟩, State.inContext, if_pos rfl]

/-! ### Creation (R404, R421) -/

/-- PAs lie below every local store. -/
theorem locate_lt {d : Device} {pa loc : Nat} {r : Region} (h : d.locate pa = some (r, loc)) : loc < 2 ^ 44 := by
  rw [Device.locate] at h
  split at h
  · cases h
  · next r' loc' hmap =>
    split at h
    · cases h
      rw [Device.mapPa] at hmap
      dsimp only at hmap
      split at hmap
      · cases hmap
        rw [stripedOffset]
        dsimp only
        omega
      · split at hmap
        · split at hmap
          · cases hmap
            omega
          · cases hmap
        · split at hmap
          · cases hmap
            omega
          · split at hmap
            · cases hmap
              omega
            · cases hmap
    · cases h

/-- The byte belongs neither to the local stores of the context nor to their label words. -/
def outsideStores (ctxid a : Nat) : Bool :=
  !(decide (localLoc ctxid 0 0 0 ≤ a ∧ a < localLoc ctxid 0 0 0 + 2 ^ 32)) &&
    !(decide (labelLoc (localLoc ctxid 0 0 0) ≤ a ∧ a < labelLoc (localLoc ctxid 0 0 0) + 2 ^ 28))

theorem outsideStores_iff (ctxid a : Nat) : outsideStores ctxid a = true ↔ ¬ inStores ctxid a ∧ ¬ inStoreLabels ctxid a := by
  rw [outsideStores, Bool.and_eq_true, Bool.not_eq_true', Bool.not_eq_true', decide_eq_false_iff_not, decide_eq_false_iff_not]
  rfl

theorem scrubStores_byte (ctxid : Nat) (m : NatMap Byte) (a : Nat) :
    lookupD 0 (scrubStores ctxid m) a = if outsideStores ctxid a then lookupD 0 m a else 0 := by
  refine (congrArg (·.getD 0) (lookup_filterKeys (outsideStores ctxid) m a)).trans ?_
  split <;> rfl

/-- The GRANT bitmap as written for the units of a descriptor, as (PA, byte). -/
def grantBytes (g : CtxDesc) (bits : Nat → Byte) : List (Nat × Byte) :=
  (grantedUnits g).map fun u => (g.grant + u / 8, bits (u / 8))

theorem grantBytes_range {g : CtxDesc} {bits : Nat → Byte} (hunits : ∀ u, u ∈ grantedUnits g → u < 2 ^ 23) {e : Nat × Byte}
    (h : e ∈ grantBytes g bits) : g.grant ≤ e.1 ∧ e.1 < g.grant + 2 ^ 20 := by
  obtain ⟨u, hu, rfl⟩ := List.mem_map.mp h
  have := hunits u hu
  dsimp only
  omega

/-- Memory of a device whose stores are scrubbed and whose GRANT bitmap is written. -/
theorem writeGrant_byte {d : Device} {g : CtxDesc} (hunits : ∀ u, u ∈ grantedUnits g → u < 2 ^ 23) (a : Nat)
    (hout : ∀ pa r, g.grant ≤ pa → pa < g.grant + 2 ^ 20 → d.locate pa ≠ some (r, a)) :
    (d.writeGrant g).byte a =
      if g.grant ≤ paOfLoc d.rb a ∧ paOfLoc d.rb a < g.grant + 2 ^ 20 then 0 else d.byte a := by
  have hmem : (d.writeGrant g).byte a = lookupD 0 ((grantBytes g fun i => BitVec.ofNat 8 ((List.range 8).map fun b =>
      oneBit ((grantedUnits g).contains (8 * i + b)) * 2 ^ b).sum).foldl d.putPa (d.mem.filter fun e =>
        !decide (g.grant ≤ paOfLoc d.rb e.1 ∧ paOfLoc d.rb e.1 < g.grant + grantSize))) a := rfl
  rw [hmem, putPa_other d _ fun e he r => hout e.1 r (grantBytes_range hunits he).1 (grantBytes_range hunits he).2, lookupD,
    lookup_filterKeys fun k => !decide (g.grant ≤ paOfLoc d.rb k ∧ paOfLoc d.rb k < g.grant + grantSize)]
  by_cases h : g.grant ≤ paOfLoc d.rb a ∧ paOfLoc d.rb a < g.grant + 2 ^ 20
  · rw [if_pos h, if_neg (by rw [decide_eq_true (show g.grant ≤ paOfLoc d.rb a ∧ paOfLoc d.rb a < g.grant + grantSize from h)]; decide)]
    rfl
  · rw [if_neg h, if_pos (by rw [decide_eq_false (show ¬ (g.grant ≤ paOfLoc d.rb a ∧ paOfLoc d.rb a < g.grant + grantSize) from h)]; decide)]
    rfl

/-- The device with the local stores of a context zeros. -/
def scrubbedDev (d : Device) (ctxid : Nat) : Device := { d with mem := scrubStores ctxid d.mem }

/-- The device as a context is created: its stores zeros, its grants written. -/
def createdDev (d : Device) (desc : CtxDesc) : Device := (scrubbedDev d desc.ctxid).writeGrant (d.fused desc)

section
variable {s : State} {desc : CtxDesc} (hcreate : s.creatable desc = true)
include hcreate

theorem creatable_ctxid : 1 ≤ desc.ctxid ∧ desc.ctxid ≤ 65535 := by
  simp only [State.creatable, Bool.and_eq_true, decide_eq_true_eq] at hcreate
  obtain ⟨⟨⟨⟨⟨⟨⟨⟨⟨⟨⟨⟨⟨⟨⟨h, -⟩, -⟩, -⟩, -⟩, -⟩, -⟩, -⟩, -⟩, -⟩, -⟩, -⟩, -⟩, -⟩, -⟩, -⟩ := hcreate
  exact h

theorem creatable_units : ∀ u, u ∈ grantedUnits (s.dev.fused desc) → u < 2 ^ 23 := by
  have hall : (grantedUnits desc).all (fun u => decide (u < 2 ^ 23)) = true := by
    simp only [State.creatable, Bool.and_eq_true] at hcreate
    obtain ⟨⟨⟨-, h⟩, -⟩, -⟩ := hcreate
    exact h
  intro u hu
  refine of_decide_eq_true (List.all_eq_true.mp hall u ?_)
  exact List.mem_append.mpr ((List.mem_append.mp hu).imp (fun h => (List.mem_filter.mp h).1) fun h => (List.mem_filter.mp h).1)

theorem created_byte_store {a : Nat} (h : inStores desc.ctxid a) : (createdDev s.dev desc).byte a = 0 := by
  have hlo : 2 ^ 48 ≤ a := by
    have h' := h.1
    rw [localLoc] at h'
    omega
  have hzero : (scrubbedDev s.dev desc.ctxid).byte a = 0 :=
    (scrubStores_byte _ _ _).trans (if_neg fun hout => ((outsideStores_iff _ _).mp hout).1 h)
  rw [createdDev, writeGrant_byte (d := scrubbedDev s.dev desc.ctxid) (creatable_units hcreate) a fun pa r _ _ hloc => absurd (locate_lt hloc) (by omega), hzero,
    ite_self]

theorem created_byte_other {a : Nat} (hstore : ¬ inStores desc.ctxid a) (hlabel : ¬ inStoreLabels desc.ctxid a)
    (hgrant : ¬ inGrant s desc a) : (createdDev s.dev desc).byte a = s.dev.byte a := by
  rw [inGrant, not_or] at hgrant
  obtain ⟨hplain, hloc⟩ := hgrant
  have hkept : (scrubbedDev s.dev desc.ctxid).byte a = s.dev.byte a :=
    (scrubStores_byte _ _ _).trans (if_pos ((outsideStores_iff _ _).mpr ⟨hstore, hlabel⟩))
  rw [createdDev, writeGrant_byte (d := scrubbedDev s.dev desc.ctxid) (creatable_units hcreate) a fun pa r hlo hhi heq => hloc ⟨pa, r, hlo, hhi, heq⟩]
  exact (if_neg hplain).trans hkept

theorem exec_contextCreate (hfree : s.ctx.desc.ctxid = 0) :
    exec (.contextCreate desc) s = .next { s with
      ctx := Context.fresh (s.dev.fused desc), core := Core.reset, focus := ⟨0, 0⟩, dev := createdDev s.dev desc } := by
  have hexec : exec (.contextCreate desc) s = execContextCreate desc s := rfl
  rw [hexec, execContextCreate, hcreate, if_neg (by decide)]
  exact congrArg Host.Outcome.next (if_pos (.inl hfree))

end

theorem fused_mem (d : Device) (l : List Nat) (u : Nat) : u ∈ l.filter (fun u => !d.unitLost u) ↔ u ∈ l ∧ d.unitLost u = false := by
  rw [List.mem_filter, Bool.not_eq_true']

/-! ### Destruction (R432) -/

theorem exec_contextDestroy {s : State} (hid : s.ctx.desc.ctxid ≠ 0) (hlive : s.ctx.destroyed = false) :
    exec (.contextDestroy s.ctx.desc.ctxid) s =
      .next { s.destroy with others := s.destroy.others.filter fun k => !k.destroyed } := by
  have hexec : exec (.contextDestroy s.ctx.desc.ctxid) s = execContextDestroy s.ctx.desc.ctxid s := rfl
  rw [hexec, execContextDestroy, hasContext_focus hid hlive, if_neg (by decide), State.inContext, if_pos rfl]

theorem destroy_scrubs (s : State) {a : Nat} (h : inStores s.ctx.desc.ctxid a) : s.destroy.dev.byte a = 0 :=
  (scrubStores_byte s.ctx.desc.ctxid _ a).trans (if_neg fun hout => ((outsideStores_iff _ _).mp hout).1 h)

end Sys2Proof.Claims

namespace Sys2Proof
open Machine Claims

/-- Settles O55: a gang-stop saves halted cores, a restore replays the inboxes, creation and destruction scrub the local stores,
and firmware frees the pages of an image. -/
theorem contexts : Obligations.Contexts := by
  unfold Obligations.Contexts
  intro s desc part cores routes base img τ
  refine ⟨fun hrun hstop => ?_, fun hstop hfault hlive hlen hpart herror => ?_, fun hstop hfault hlive hlen hpart herror => ?_,
    fun hcreate hfree => ?_, fun hrefuse => ?_, fun hid hlive => ?_, ?_, fun hsmall hmem hbase hunload hpast htick hstroke hcores => ?_⟩
  · obtain ⟨-, -, hrows, hruns, hplaces⟩ := id hstop
    obtain ⟨hcore, hdev, hdesc⟩ := settleAll_none (List.range s.ctx.nclus) s ⟨hrows, hruns⟩
    obtain ⟨hpending, hstalled, hregs, hpc, hrecord⟩ := halted_core ((List.range s.ctx.nclus).foldl State.settleEngines s)
    have hexec := exec_gangStop hrun hstop
    generalize (List.range s.ctx.nclus).foldl State.settleEngines s = t at *
    have hhalted : (haltedState t).dev = s.dev := by
      show t.dev.dropPlaces = s.dev
      rw [hdev]
      exact dropPlaces_none hplaces
    have harea : ∀ a, inSaveArea (haltedState t) a → inSaveArea s a := by
      intro a h
      have hsave : ∀ pa, (haltedState t).ctx.inSave pa = s.ctx.inSave pa := fun pa => by
        show Context.inSave _ pa = _
        rw [Context.inSave, Context.inSave, Context.saveBytes, Context.saveBytes, Context.nclus, Context.nclus]
        show decide (t.ctx.desc.save ≤ pa ∧ pa < t.ctx.desc.save + (192 * saveSize + 2 ^ 20) * t.ctx.desc.part.length) = _
        rw [hdesc]
      rw [inSaveArea, hhalted] at h
      simp only [hsave] at h
      exact h
    refine ⟨_, hexec, rfl, hpending, hstalled, hregs.trans (by rw [hcore]), hpc.trans (by rw [hcore]),
      hrecord.trans (by rw [hcore]), fun cl crew j hj => halted_jobs t cl crew hj, ?_, fun a ha => ?_⟩
    · show { (haltedState t).dev with mem := s.dev.mem } = s.dev
      rw [hhalted]
    · rw [saveCores_byte _ fun h => ha (harea a h), hhalted]
  · obtain ⟨hfaulted, hstopped, -⟩ := contextFault_reports s Cause.memerr.code
    exact ⟨_, (exec_contextRestore hstop hfault hlive hlen hpart).trans (congrArg Host.Outcome.next (if_pos herror)), hfaulted,
      hstopped⟩
  · obtain ⟨hruns, hnew, hcores, hroutes, hregs⟩ := resume_runs s part ⟨cores, routes⟩
    exact ⟨_, (exec_contextRestore hstop hfault hlive hlen hpart).trans
      (congrArg Host.Outcome.next (if_neg (by rw [herror]; exact Bool.false_ne_true))), hruns, hnew, hcores, hroutes, hregs,
      fun hempty => resume_quiet part ⟨cores, routes⟩ hempty⟩
  · exact ⟨_, exec_contextCreate hcreate hfree, rfl, fused_mem s.dev desc.units, fused_mem s.dev desc.heap, rfl, rfl, rfl, rfl, rfl,
      rfl, fun a ha => created_byte_store hcreate ha, fun a hs hl hg => created_byte_other hcreate hs hl hg⟩
  · exact ⟨_, congrArg Host.Outcome.next (if_pos (by rw [hrefuse]; rfl)), rfl⟩
  · exact ⟨_, exec_contextDestroy hid hlive, rfl, rfl, rfl, rfl, fun a ha => destroy_scrubs s ha⟩
  · exact ⟨_, rfl, rfl, rfl, rfl, fun a => rfl, rfl, rfl⟩
  · have hfree := freeable_unloaded hbase hunload hpast hcores
    obtain ⟨hkept, honly⟩ := unmapAll_only (freedPages s fun i => decide (i.base = base)) s
    have himages : ∀ x, x ∈ ((unmapAll (freedPages s fun i => decide (i.base = base)) s).mapCtx
        (freedContext s fun i => decide (i.base = base))).ctx.images ↔
          x ∈ s.ctx.images ∧ freeable s (fun i => decide (i.base = base)) x = false := by
      intro x
      rw [honly]
      exact freed_images s base x
    refine ⟨_, exec_unloadFree hsmall hmem hbase hunload hpast hcores htick hstroke, fun hin => ?_, fun x hx hne => ?_, ?_, hkept,
      fun table loc pa halone hsome honePage hplaces htable hloc hpa => ?_⟩
    · exact absurd ((himages img).mp hin).2 (by rw [hfree]; decide)
    · exact (himages x).mpr ⟨hx, freeable_other hne⟩
    · rw [honly]
      rfl
    · have hpages := freedPages_alone halone hfree (image_onePage hsome honePage hplaces)
      have hcleared : (unmapAll (freedPages s fun i => decide (i.base = base)) s) = s.unmapPage base pa := by
        rw [hpages, hbase]
        rfl
      obtain ⟨hzero, hrest⟩ := unmapPage_cleared htable hloc hpa
      rw [← hcleared] at hzero hrest
      exact ⟨hzero, hrest⟩

end Sys2Proof
end

section
/-! PROOF. Remote access (R290): the counter of an operation whose target's counter is its own. -/

namespace Sys2Proof.Claims
open Machine

/-- A GET of one line of core 1's store, in flight for core 1 itself, whose state names the target's counter as a SEND with TK = 1
does. -/
def tickingGet : RemoteOp :=
  { id := 0, kind := .get, core := 1, record := 0, k := 3, mode := .u, ctl := 0, target := some (0, 1), place := 0, bytes := 64
    n := 0, esize := 4, tk := true, tcounter := 3, remote := 0, localOff := 0x40000 + 64, indexOff := 0, index := [], handler := 0
    landed := [], locks := [], targetLocks := [] }

/-- A context of one cluster with the GET in flight. -/
def tickingState : State :=
  ({ State.reset with ctx := { Context.fresh { CtxDesc.zero with part := [0] } with stopped := false } }).mapCluster 0 fun k =>
    { k with remotes := [tickingGet] }

/-- COUNT of counter 3 of core 1 in what an outcome leaves. -/
def countOf (o : Out) : Option Nat :=
  match o with
  | .next t => some (count (t.coreAt 0 1) 3)
  | .fault _ => none
  | .refused _ => none

/-- Landing counts at the target's counter and at the issuer's, which is the same. -/
theorem tickingState_counts : countOf (exec (.remoteLand 0 0 0 [] 0) tickingState) = some 2 := by decide

end Sys2Proof.Claims

namespace Sys2Proof
open Machine Claims

/-- Refutes O46: the statement takes any GET in flight, also one whose state has TK = 1; the line that lands then counts at the
target's counter too, so that where both are one counter it goes on by 2. -/
theorem not_remoteOperations : ¬ Obligations.RemoteOperations := by
  unfold Obligations.RemoteOperations
  rintro ⟨-, -, hland, -⟩
  obtain ⟨t, hexec, -, -, -, hcount, -⟩ := hland tickingState 0 0 0 1 (0x40000 + 64) 0 _ _ [] 0 tickingGet rfl rfl rfl rfl
    (by decide) (by decide) (by decide) (by decide) (by decide) (by decide) (by decide) (by decide) (by decide) (by decide) rfl
    (by decide) rfl
  have htwo := tickingState_counts
  rw [show tickingGet.id = 0 from rfl] at hexec
  rw [hexec, countOf, show count (t.coreAt 0 1) 3 = _ from hcount] at htwo
  exact absurd htwo (by decide)

end Sys2Proof
end

section
/-! PROOF. A step runs the decoded instruction (R45 to R51). -/

namespace Sys2Proof.Claims
open Machine

/-! ### Operands that nothing holds back (R52, R293) -/

theorem hazard_settled {s : State} {r : Reg} (h : ∀ p, p ∈ s.core.pending → p.reg ≠ r) : s.hazard r = s := by
  have hnone : (s.core.pending.any fun p => p.reg == r) = false :=
    List.any_eq_false.mpr fun p hp => by
      rw [beq_iff_eq]
      exact h p hp
  rw [State.hazard, hnone]
  exact if_neg Bool.false_ne_true

theorem hazards_settled {s : State} {i : Instr} (h : ∀ p, p ∈ s.core.pending → p.reg ∉ sources i ++ dests i) :
    s.hazards i = s :=
  foldl_same fun _ hr => hazard_settled fun p hp heq => h p hp (heq ▸ List.mem_eraseDups.mp hr)

theorem popStreams_none {s : State} (vs : List Nat) (h : ∀ v, v ∈ vs → lookup s.core.streams v = none) : s.popStreams vs = .ok s := by
  induction vs with
  | nil => rfl
  | cons v vs ih =>
    rw [State.popStreams, h v List.mem_cons_self]
    exact ih fun w hw => h w (List.mem_cons_of_mem v hw)

theorem vectorSources_mem {l : List Reg} {v : Nat} (h : v ∈ vectorSources l) : Reg.v v ∈ l := by
  obtain ⟨r, hr, hv⟩ := List.mem_filterMap.mp (List.mem_eraseDups.mp h)
  cases r with
  | v _ =>
    cases hv
    exact hr
  | x | f | p => cases hv

theorem popsOf_mem {s : State} {i : Instr} {v : Nat} (h : v ∈ s.popsOf i) : Reg.v v ∈ sources i := by
  unfold State.popsOf at h
  split at h
  · exact absurd h List.not_mem_nil
  · exact vectorSources_mem h

/-! ### What an instruction that completes leaves (R51) -/

theorem settleIssue_completed {base r : State} (sw : Bool) (h : completed r) :
    base.settleIssue sw (.next r) = .next (marked r sw) := by
  obtain ⟨htrap, hstall, hpark, hlate, -⟩ := h
  rw [State.settleIssue]
  dsimp only
  rw [htrap]
  dsimp only
  rw [hstall, if_neg Bool.false_ne_true, hpark, if_neg (by decide)]
  have hdeliver : (r.mapCore fun c => { c.deliverLate with latch := none }) = { r with core := { r.core with latch := none } } := by
    rw [State.mapCore, Core.deliverLate, hlate]
  rw [hdeliver, State.mark, marked]
  dsimp only
  by_cases hcond : sw = true ∧ r.core.pending ≠ [] ∧ r.core.record ≠ none
  · obtain ⟨hsw, hpending, hrecord⟩ := hcond
    rw [if_pos ⟨hsw, hpending, hpark, Option.isSome_iff_ne_none.mpr hrecord⟩, if_pos ⟨hsw, hpending, hrecord⟩]
    rfl
  · rw [if_neg hcond, if_neg fun hall => hcond ⟨hall.1, hall.2.1, Option.isSome_iff_ne_none.mp hall.2.2.2⟩]

theorem marked_awaited {r : State} {sw : Bool} (h : r.dev.awaited = []) : (marked r sw).dev.awaited = [] := by
  unfold marked
  dsimp only
  split <;> exact h

theorem complete_rest (c : Core) : c.complete.trapped = c.trapped ∧ c.complete.park = c.park ∧ c.complete.late = c.late := by
  unfold Core.complete Core.passContainer
  dsimp only
  repeat' split
  all_goals exact ⟨rfl, rfl, rfl⟩

theorem complete_stalled {c : Core} (h : c.stalled = false) : c.complete.stalled = false := by
  unfold Core.complete Core.passContainer
  dsimp only
  repeat' split
  all_goals simp only [h]

theorem complete_completed {v : State} (h : completed v) (addr : Word) : completed (atWord v addr).complete := by
  obtain ⟨-, hstall, hpark, hlate, hwait⟩ := h
  obtain ⟨h1, h2, h3⟩ := complete_rest (atWord v addr).core
  exact ⟨h1, complete_stalled hstall, h2.trans hpark, h3.trans hlate, hwait⟩

/-! ### A lone word (R48) -/

theorem issuing_lone (s : State) : (s.latchIssue s.core.pc true false).mapCore (fun c =>
      { c with popped := if decide (slotOf s.core.pc = 0) then some (container c.pc, []) else none }) =
    issuing s s.core.pc true := by
  have hslot : slotOf s.core.pc = s.core.pc.toNat / 4 % 2 := rfl
  rw [State.latchIssue, issuing, hslot, ← container_eq]
  by_cases h : s.core.pc.toNat / 4 % 2 = 0
  · rw [if_pos (show true = true ∧ s.core.pc.toNat / 4 % 2 = 0 from ⟨rfl, h⟩), decide_eq_true h]
    rfl
  · rw [if_neg (show ¬ (true = true ∧ s.core.pc.toNat / 4 % 2 = 0) from fun hh => h hh.2), decide_eq_false h]
    rfl

theorem issueLone_settled {s r : State} {i : Instr} {sw : Bool} (h : operandsSettled (s.readied i) (sources i) (dests i))
    (hexec : exec i (issuing (s.readied i) s.core.pc true) = .next r) (hdone : completed r) :
    s.issueLone i sw = .next (marked r sw) := by
  obtain ⟨hpending, hstreams⟩ := h
  have hpc : (s.readied i).core.pc = s.core.pc := by
    unfold State.readied
    split <;> rfl
  rw [State.issueLone]
  dsimp only
  rw [← hpc] at hexec
  generalize s.readied i = q at *
  have hbase : (q.latchIssue q.core.pc true false).hazards i = q.latchIssue q.core.pc true false := hazards_settled hpending
  rw [hbase]
  have hpops : ∀ v, v ∈ ((q.latchIssue q.core.pc true false).popsOf i).filter (fun v =>
      decide (slotOf q.core.pc = 0) || !q.core.poppedHere.contains v) → lookup q.core.streams v = none :=
    fun v hv => hstreams v (popsOf_mem (List.mem_filter.mp hv).1)
  rw [popStreams_none (s := q.latchIssue q.core.pc true false) _ hpops]
  dsimp only
  rw [List.filter_eq_nil_iff.mpr fun v hv => by
    rw [show lookup (q.latchIssue q.core.pc true false).core.streams v = none from hpops v hv]
    exact Bool.false_ne_true]
  rw [issuing_lone, hexec, settleIssue_completed sw hdone]

/-! ### A pair (R47) -/

/-- The state in which a pair issues, with nothing outstanding where word0 waits for that first. -/
def begunAt (s : State) (i0 : Instr) : State := if s.awaitsResults i0 then s.drain else s

theorem latched_pairing (s : State) (i0 : Instr) :
    ((begunAt s i0).latchIssue (container s.core.pc) false false).latched = pairing s (container s.core.pc) i0 := by
  unfold pairing
  rw [← begunAt]
  rfl

theorem begunAt_pc (s : State) (i0 : Instr) : (begunAt s i0).core.pc = s.core.pc := by
  unfold begunAt
  split <;> rfl

section
variable {s b : State} {i0 i1 : Instr} {sw : Bool} (hb : b = pairing s (container s.core.pc) i0)
  (hset : operandsSettled b (sources i0 ++ sources i1) (dests i0 ++ dests i1))
include hb hset

theorem issueBoth_settled :
    ∃ base, (begunAt s i0).issueBoth i0 i1 sw = State.runPair base b i0 i1 sw := by
  have hlatched := latched_pairing s i0
  have hpc := begunAt_pc s i0
  subst hb
  obtain ⟨hpending, hstreams⟩ := hset
  rw [← hlatched] at hpending hstreams ⊢
  rw [State.issueBoth, hpc]
  generalize begunAt s i0 = q at *
  have h0 : (q.latchIssue (container s.core.pc) false false).hazards i0 = q.latchIssue (container s.core.pc) false false :=
    hazards_settled fun p hp hmem => hpending p hp <| by
      rw [List.mem_append] at hmem ⊢
      exact hmem.imp (List.mem_append_left _) (List.mem_append_left _)
  have h1 : (q.latchIssue (container s.core.pc) false false).hazards i1 = q.latchIssue (container s.core.pc) false false :=
    hazards_settled fun p hp hmem => hpending p hp <| by
      rw [List.mem_append] at hmem ⊢
      exact hmem.imp (List.mem_append_right _) (List.mem_append_right _)
  refine ⟨q.latchIssue (container s.core.pc) false false, ?_⟩
  rw [h0, h1]
  generalize q.latchIssue (container s.core.pc) false false = base at *
  rw [popStreams_none (s := base) _ fun v hv => hstreams v (List.mem_append_left _ (popsOf_mem hv))]
  dsimp only
  have hrest : ∀ v, v ∈ (if q.pairDone = true then [] else base.popsOf i1).filter (fun v => !(base.popsOf i0).contains v) →
      lookup base.core.streams v = none := by
    intro v hv
    have hv' := (List.mem_filter.mp hv).1
    split at hv'
    · exact absurd hv' List.not_mem_nil
    · exact hstreams v (List.mem_append_right _ (popsOf_mem hv'))
  rw [popStreams_none _ hrest]

theorem issuePair_settled {t0 : State} (h0 : exec i0 b = .next t0) (htrap : t0.core.trapped = none) (hfault : t0.ctx.faulted = false) :
    ∃ base, s.issuePair i0 i1 sw = State.runPair base b i0 i1 sw := by
  obtain ⟨base, hboth⟩ := issueBoth_settled hb hset (sw := sw)
  refine ⟨base, ?_⟩
  rw [← hboth, State.issuePair, begunAt]
  by_cases hwait : s.awaitsResults i0 = true
  · have hbegun : (s.drain.latchIssue (container s.core.pc) false false).latched = b := by
      rw [hb, ← latched_pairing, begunAt, if_pos hwait]
    rw [if_pos hwait, if_pos hwait]
    dsimp only
    rw [hbegun, h0]
    dsimp only
    rw [htrap, hfault]
    exact if_neg (by decide)
  · rw [if_neg hwait, if_neg hwait]

end

section
variable {base b v r : State} {i0 i1 : Instr} {sw : Bool} {here : Word} (hhere : b.core.issue.addr = here)
include hhere

/-- Word1 has been performed already: word0 alone completes the container. -/
theorem runPair_again (hpair : b.pairDone = true) (h0 : exec i0 b = .next v) (hdone : completed v) (hfault : v.ctx.faulted = false) :
    base.runPair b i0 i1 sw = .next (marked (atWord v (here + 4)).complete sw) := by
  obtain ⟨htrap, hstall, hpark, -⟩ := id hdone
  rw [State.runPair]
  dsimp only
  rw [h0]
  dsimp only
  rw [htrap, hstall, hfault, if_neg (by decide), hpair, if_pos rfl, hpark, if_neg (by decide), hhere]
  exact settleIssue_completed sw (complete_completed hdone (here + 4))

/-- Word0 and then word1. -/
theorem runPair_both (hpair : b.pairDone = false) (hsusp : suspends i0 = false) (h0 : exec i0 b = .next v) (hdone : completed v)
    (hfault : v.ctx.faulted = false) (h1 : exec i1 (atWord v (here + 4)) = .next r) (hlast : completed r) :
    base.runPair b i0 i1 sw = .next (marked r sw) := by
  obtain ⟨htrap, hstall, hpark, -⟩ := hdone
  have hat : (v.mapCore fun c => { c with issue := { c.issue with addr := here + 4 }, trapped := none }) = atWord v (here + 4) := rfl
  rw [State.runPair]
  dsimp only
  rw [h0]
  dsimp only
  rw [htrap, hstall, hfault, if_neg (by decide), hpair, if_neg Bool.false_ne_true, hsusp, if_neg Bool.false_ne_true, hpark,
    if_neg (by decide), hhere, hat, h1]
  dsimp only
  rw [hlast.2.2.1, if_neg (by decide)]
  exact settleIssue_completed sw hlast

/-- A word0 that is a suspension point leaves the core after word1 (R50). -/
theorem runPair_suspends {q : State} (hpair : b.pairDone = false) (hsusp : suspends i0 = true) (h0 : exec i0 b = .next q)
    (htrap : q.core.trapped = none) (hstall : q.core.stalled = false) (hfault : q.ctx.faulted = false)
    (h1 : exec i1 (atWord b (here + 4)) = .next v) (hdone : completed v) (hlast : exec i0 (atWord v here) = .next r)
    (hend : completed r) : base.runPair b i0 i1 sw = .next (marked r sw) := by
  obtain ⟨vtrap, vstall, vpark, -⟩ := hdone
  have hat1 : (b.mapCore fun c => { c with issue := { c.issue with addr := here + 4 }, trapped := none }) = atWord b (here + 4) := rfl
  have hat0 : (v.mapCore fun c => { c with issue := { c.issue with addr := here }, trapped := none }) = atWord v here := rfl
  rw [State.runPair]
  dsimp only
  rw [h0]
  dsimp only
  rw [htrap, hstall, hfault, if_neg (by decide), hpair, if_neg Bool.false_ne_true, hsusp, if_pos rfl, hhere, hat1, h1]
  dsimp only
  rw [vtrap, vstall, vpark, if_neg (by decide), hat0, hlast]
  exact settleIssue_completed sw hend

end

/-! ### Turns -/

theorem performed_next {s r : State} {again : List Turn} (h : r.dev.awaited = []) : performed s again (.next r) = .next r := if_pos h

theorem fetchWords_only {s u : State} {p : Place} {ws : Half × Half} (h : s.fetchWords p = (ws, u)) : u.core = s.core := by
  rw [State.fetchWords] at h
  dsimp only at h
  split at h <;> cases h <;> rfl

section
variable {s t u : State} {p : Place} {w0 w1 : Half} (hmay : mayIssue s) (halign : s.core.pc.toNat % 4 = 0)
  (hplace : (s.elapse 1).fetchPlace s.core.status.mode s.core.pc = .ok (p, t)) (hwords : t.fetchWords p = ((w0, w1), u))
include hmay halign hplace hwords

/-- The turn of a core that may issue is the issue of its container. -/
theorem step_issues {r : State} (hissue : (match decodeContainer s.core.pc w0 w1 with
      | .bad c info epc => u.issueTrap c info 0 epc
      | .lone i sw => u.issueLone i sw
      | .pair i0 i1 sw => u.issuePair i0 i1 sw) = .next r) (hwait : r.dev.awaited = []) : step s = .next r := by
  obtain ⟨htick, hagenda, hdown, hstop, hstall, hrecord, hupcall, hpark, hstalled⟩ := hmay
  have hturn : (s.elapse 1).turn = (s.elapse 1).issue := by
    have hidle : s.core.record.isNone = false := by
      rw [← Option.not_isSome, Option.isSome_iff_ne_none.mpr hrecord]
      rfl
    rw [State.turn]
    show (if s.dev.down = true ∨ s.ctx.stopped = true ∨ s.dev.currentStall = true then _ else if s.core.record.isNone then _
      else if s.core.upcallReady then _ else if s.core.park.isSome then _ else if s.core.stalled ∧ _ then _ else _) = _
    rw [hdown, hstop, hstall, if_neg (by decide), hidle, if_neg Bool.false_ne_true, hupcall, if_neg Bool.false_ne_true, hpark,
      if_neg (by decide)]
    exact if_neg fun h => Bool.false_ne_true (hstalled.symm.trans h.1)
  have hrun : (s.elapse 1).issue = .next r := by
    rw [State.issue]
    show (if s.core.pc.toNat % 4 ≠ 0 then _ else match (s.elapse 1).fetchPlace s.core.status.mode s.core.pc with
      | .error d => _
      | .ok (p, t) => _) = _
    rw [if_neg (not_not.mpr halign), hplace]
    dsimp only
    rw [hwords]
    exact hissue
  rw [step, htick, if_neg Bool.false_ne_true, hagenda]
  show performed (s.elapse 1) [] (s.elapse 1).turn = _
  rw [hturn, hrun]
  exact performed_next hwait

omit hmay halign in
theorem fetched_pc : u.core.pc = s.core.pc := by
  rw [fetchWords_only hwords, (fetchPlace_ok hplace).1.core]
  rfl

end

end Sys2Proof.Claims

namespace Sys2Proof
open Machine Claims

/-- Settles O38: with nothing to hold an operand back, the issue of a lone word is its instruction and that of a pair its two
words in order. -/
theorem stepRunsDecoded : Obligations.StepRunsDecoded := by
  unfold Obligations.StepRunsDecoded
  intro s t u r p w0 w1 i i0 i1 sw
  refine ⟨fun htick hexec hwait => ?_, fun rest htick hagenda hexec hwait => ?_, fun hmay halign hplace hwords =>
    ⟨fun hdec hset hexec hdone => ?_, fun b v here hdec hhere hb hset => ?_⟩⟩
  · rw [step, if_pos htick, State.tickTurn, hexec]
    exact performed_next hwait
  · rw [step, htick, if_neg Bool.false_ne_true, hagenda]
    show performed { s with agenda := rest } _ (exec i { s with agenda := rest }) = _
    rw [hexec]
    exact performed_next hwait
  · have hpc := fetched_pc hplace hwords
    rw [← hpc] at hexec
    refine step_issues hmay halign hplace hwords ?_ (marked_awaited hdone.2.2.2.2)
    rw [hdec]
    exact issueLone_settled hset hexec hdone
  · have hpc := fetched_pc hplace hwords
    rw [← hpc, ← container_eq] at hhere
    rw [hhere] at hb
    have haddr : b.core.issue.addr = here := by rw [hb, hhere]; rfl
    have hstep : ∀ {t0 r : State}, exec i0 b = .next t0 → t0.core.trapped = none → t0.ctx.faulted = false → completed r →
        (∀ base : State, base.runPair b i0 i1 sw = .next (marked r sw)) → step s = .next (marked r sw) := by
      intro t0 r h0 htrap hfault hdone hrun
      obtain ⟨base, hpair⟩ := issuePair_settled hb hset h0 htrap hfault (sw := sw)
      refine step_issues hmay halign hplace hwords ?_ (marked_awaited hdone.2.2.2.2)
      rw [hdec]
      exact hpair.trans (hrun base)
    refine ⟨fun hpair h0 hdone hfault hr => ?_, fun hpair hsusp h0 hdone hfault h1 hlast => ?_,
      fun hpair hsusp q h0 htrap hstall hfault h1 hdone hlast hend => ?_⟩
    · subst hr
      exact hstep h0 hdone.1 hfault (complete_completed hdone _) fun base => runPair_again haddr hpair h0 hdone hfault
    · exact hstep h0 hdone.1 hfault hlast fun base => runPair_both haddr hpair hsusp h0 hdone hfault h1 hlast
    · exact hstep h0 htrap hfault hend fun base => runPair_suspends haddr hpair hsusp h0 htrap hstall hfault h1 hdone hlast hend

end Sys2Proof
end

section
/-! PROOF. What it means that a meaning keeps memory in its canonical form, the rules for putting meanings together, and the
meanings that change no memory: integer forms, transfers, loops and returns (O40). -/

set_option Elab.async false

namespace Sys2Proof.Claims

open Machine

/-- Memory is in its canonical form. -/
def Canon (s : State) : Prop := Memory.wf s.dev.mem

/-- A body gives `q`, and what it holds where it stalls is canonical. -/
structure Gives {α : Type} (q : α → Prop) (r : Result α) : Prop where
  out : ∀ {a}, r = .ok a → q a
  held : ∀ {u}, r = .error (.hold u) → Canon u

/-- An outcome is canonical where it is a state. -/
def Lands (o : Out) : Prop := ∀ t, o = .next t → Canon t

/-! ### Putting bodies together -/

theorem Canon.of_dev {s t : State} (h : Canon s) (e : t.dev = s.dev) : Canon t := by
  unfold Canon; rw [e]; exact h

section
variable {α β : Type} {p q : α → Prop}

theorem Gives.ok {a : α} (h : q a) : Gives q (.ok a : Result α) :=
  ⟨fun e => by cases e; exact h, fun e => by cases e⟩

theorem Gives.trap {t : Trap} : Gives q (.error (.trap t) : Result α) := ⟨nofun, nofun⟩

theorem Gives.stall : Gives q (.error .stall : Result α) := ⟨nofun, nofun⟩

theorem Gives.hold {u : State} (h : Canon u) : Gives q (.error (.hold u) : Result α) :=
  ⟨nofun, fun e => by cases e; exact h⟩

/-- A body that did not end well ends any other. -/
theorem Gives.error {r : β → Prop} {x : Result α} {e : Stop} (hx : Gives p x) (h : x = .error e) :
    Gives r (.error e : Result β) :=
  ⟨nofun, fun k => hx.held (by rw [h]; cases k; rfl)⟩

theorem Gives.bind {r : β → Prop} {x : Result α} {f : α → Result β} (hx : Gives p x) (hf : ∀ a, p a → Gives r (f a)) :
    Gives r (x >>= f) := by
  cases x with
  | ok a => exact hf a (hx.out rfl)
  | error e => exact hx.error rfl

/-- A check passes with what it found, or traps. -/
theorem Gives.check (s : State) {x : Except Deny α} (h : ∀ a, x = .ok a → q a) : Gives q (s.check x) := by
  cases x with
  | ok a => exact Gives.ok (h a rfl)
  | error d => exact Gives.trap

theorem Gives.ite {c : Prop} [Decidable c] {x y : Result α} (hx : Gives q x) (hy : Gives q y) :
    Gives q (if c then x else y) := by
  split
  · exact hx
  · exact hy

end

theorem Lands.next {t : State} (h : Canon t) : Lands (.next t) := fun u hu => by cases hu; exact h
theorem Lands.fault (f : Fault) : Lands (.fault f) := fun _ hu => by cases hu
theorem Lands.refused (r : Refusal) : Lands (.refused r) := fun _ hu => by cases hu

theorem Lands.ite {c : Prop} [Decidable c] {x y : Out} (hx : Lands x) (hy : Lands y) : Lands (if c then x else y) := by
  split
  · exact hx
  · exact hy

/-- The end of a meaning is canonical if its body gives a canonical state. -/
theorem Lands.commit {s : State} {r : Result State} (hs : Canon s) (h : Gives Canon r) : Lands (commit s r) :=
  fun _ ht => commit_wf hs (fun _ => h.out) (fun _ => h.held) ht

/-! ### Changes that leave the device -/

section
variable {s : State}

theorem Canon.mapCore (h : Canon s) (f : Core → Core) : Canon (s.mapCore f) := h
theorem Canon.mapRegs (h : Canon s) (f : Regs → Regs) : Canon (s.mapRegs f) := h
theorem Canon.mapCtx (h : Canon s) (f : Context → Context) : Canon (s.mapCtx f) := h
theorem Canon.mapWorld (h : Canon s) (f : World → World) : Canon (s.mapWorld f) := h
theorem Canon.mapCluster (h : Canon s) (cl : Nat) (f : Cluster → Cluster) : Canon (s.mapCluster cl f) := h
theorem Canon.drawn (h : Canon s) : Canon s.drawn := h
theorem Canon.drain (h : Canon s) : Canon s.drain := h
theorem Canon.wrX (h : Canon s) (d : Nat) (v : Word) (l : LabelWord) : Canon (s.wrX d v l) := h
theorem Canon.wrF (h : Canon s) (d : Nat) (v : Half) (l : LabelWord) : Canon (s.wrF d v l) := h
theorem Canon.wrV (h : Canon s) (d : Nat) (v : VWord) (l : LabelWord) : Canon (s.wrV d v l) := h
theorem Canon.wrP (h : Canon s) (d : Nat) (v : Word) (l : LabelWord) : Canon (s.wrP d v l) := h
theorem Canon.orFlags (h : Canon s) (f : FFlags) : Canon (s.orFlags f) := h
theorem Canon.parkAt (h : Canon s) (p : Park) : Canon (s.parkAt p) := h
theorem Canon.complete (h : Canon s) : Canon s.complete := h
theorem Canon.unlock (h : Canon s) (cl : Nat) (ids : List Nat) : Canon (s.unlock cl ids) := h

theorem Canon.mapCoreAt (h : Canon s) (cl c : Nat) (f : Core → Core) : Canon (s.mapCoreAt cl c f) :=
  h.of_dev (State.mapCoreAt_dev _ _ _ _)

theorem Canon.later (h : Canon s) (p : Pending) : Canon (s.later p) := by
  unfold State.later
  split
  · exact h
  · exact h.mapCore _

/-- The end of an instruction that has left its state canonical. -/
theorem Gives.done (h : Canon s) : Gives Canon (.ok s.complete) := Gives.ok h.complete

/-! ### The shared operations of the core -/

theorem formLabel_gives (h : Canon s) (b : Bool) (l : Label) : Gives (fun x => Canon x.2) (s.formLabel b l) := by
  unfold State.formLabel
  split
  · exact Gives.trap
  · exact Gives.trap
  · dsimp only
    split
    · exact Gives.ok ((h.mapWorld _).mapCore _)
    · exact Gives.ok ((h.mapWorld _).drawn.mapCore _)

theorem formConj_gives (h : Canon s) (ws : List LabelWord) : Gives (fun x => Canon x.2) (s.formConj ws) :=
  formLabel_gives h _ _

theorem setX_gives (h : Canon s) (d : Nat) (v : Word) (ws : List LabelWord) : Gives Canon (s.setX d v ws) := by
  unfold State.setX
  split
  · exact Gives.ok h
  · split
    · exact (formConj_gives h ws).error ‹_›
    · exact Gives.ok (((formConj_gives h ws).out ‹_›).wrX _ _ _)

theorem setF_gives (h : Canon s) (d : Nat) (v : Half) (ws : List LabelWord) : Gives Canon (s.setF d v ws) := by
  unfold State.setF
  split
  · exact (formConj_gives h ws).error ‹_›
  · exact Gives.ok (((formConj_gives h ws).out ‹_›).wrF _ _ _)

theorem setV_gives (h : Canon s) (d : Nat) (v : VWord) (ws : List LabelWord) : Gives Canon (s.setV d v ws) := by
  unfold State.setV
  split
  · exact (formConj_gives h ws).error ‹_›
  · exact Gives.ok (((formConj_gives h ws).out ‹_›).wrV _ _ _)

theorem setP_gives (h : Canon s) (d : Nat) (v : Word) (ws : List LabelWord) : Gives Canon (s.setP d v ws) := by
  unfold State.setP
  split
  · exact Gives.ok h
  · split
    · exact (formConj_gives h ws).error ‹_›
    · exact Gives.ok (((formConj_gives h ws).out ‹_›).wrP _ _ _)

theorem classRule_gives (s : State) (ws : List LabelWord) : Gives (fun _ => True) (s.classRule ws) := by
  unfold State.classRule
  exact Gives.ite Gives.trap (Gives.ok trivial)

theorem privileged_gives (s : State) : Gives (fun _ => True) s.privileged := by
  unfold State.privileged
  exact Gives.ite Gives.trap (Gives.ok trivial)

theorem targetCheck_gives (s : State) (t : Word) : Gives (fun _ => True) (s.targetCheck t) := by
  unfold State.targetCheck
  exact Gives.ite Gives.trap (Gives.ok trivial)

/-! ### Integer forms -/

theorem result_lands (h : Canon s) (d : Nat) (v : Word) (ws : List LabelWord) : Lands (s.result d v ws) := by
  refine Lands.commit h ?_
  split
  · exact (setX_gives h d v ws).error ‹_›
  · exact Gives.done ((setX_gives h d v ws).out ‹_›)

theorem longBinary_lands (h : Canon s) (d a b : Nat) (f : Word → Word → Word) : Lands (s.longBinary d a b f) := by
  refine Lands.commit h ?_
  split
  · exact Gives.done h
  · split
    · exact (formConj_gives h _).error ‹_›
    · exact Gives.done (((formConj_gives h _).out ‹_›).later _)

/-! ### Transfers and loops -/

theorem branch_lands (h : Canon s) (a b off : Nat) (f : Word → Word → Bool) : Lands (s.branch a b off f) := by
  refine Lands.commit h ?_
  split
  · exact (classRule_gives s _).error ‹_›
  · exact Gives.ite (Gives.ok (h.mapCore _)) (Gives.done h)

theorem execJlr_lands (h : Canon s) (d a imm : Nat) : Lands (execJlr d a imm s) :=
  Lands.commit h (Gives.bind (classRule_gives s _) fun _ _ => Gives.bind (targetCheck_gives s _) fun _ _ =>
    Gives.ok (Canon.mapCore (h.wrX _ _ _) _))

theorem execJr_lands (h : Canon s) (a imm : Nat) : Lands (execJr a imm s) :=
  Lands.commit h (Gives.bind (classRule_gives s _) fun _ _ => Gives.bind (targetCheck_gives s _) fun _ _ => Gives.ok (h.mapCore _))

theorem enterLoop_gives (h : Canon s) (n : Int) (imm : Nat) : Gives Canon (s.enterLoop n imm) := by
  unfold State.enterLoop
  exact Gives.ite (Gives.ok (h.mapCore _)) (Gives.ite Gives.trap (Gives.done (h.mapCore _)))

theorem execLoop_lands (h : Canon s) (a imm : Nat) : Lands (execLoop a imm s) :=
  Lands.commit h (Gives.bind (classRule_gives s _) fun _ _ => Gives.ite Gives.trap (enterLoop_gives h _ _))

theorem execLoopi_lands (h : Canon s) (n imm : Nat) : Lands (execLoopi n imm s) :=
  Lands.commit h (enterLoop_gives h _ _)

/-! ### Handlers -/

theorem trapEntry_canon (h : Canon s) (t : Trap) : Canon (s.trapEntry t) := trapEntry_wf s t h

theorem execSvc_lands (h : Canon s) (n : Nat) : Lands (execSvc n s) :=
  Lands.next ((trapEntry_canon h.complete _).mapCore _)

theorem execEret_lands (h : Canon s) : Lands (execEret s) :=
  Lands.commit h (Gives.bind (privileged_gives s) fun _ _ => Gives.bind (targetCheck_gives s _) fun _ _ =>
    Gives.ite Gives.trap (Gives.ok (h.mapCore _)))

theorem execUpret_lands (h : Canon s) : Lands (execUpret s) := by
  refine Lands.commit h ?_
  split
  · exact Gives.trap
  · exact Gives.bind (targetCheck_gives s _) fun _ _ => Gives.ok (h.mapCore _)

end

end Sys2Proof.Claims
end

section
/-! PROOF. Accesses, control registers, label forms and the forms of the numbers keep memory in its canonical form (O40). -/

set_option Elab.async false

namespace Sys2Proof.Claims

open Machine

section
variable {s : State}

/-! ### Checks and accesses -/

/-- A check whose result nothing uses. -/
theorem check_passes {α : Type} (s : State) (r : Except Deny α) : Gives (fun _ => True) (s.check r) :=
  Gives.check s fun _ _ => trivial

theorem edgeGuard_passes (s : State) (k : Nat) (va : Word) : Gives (fun _ => True) (s.edgeGuard k va) := by
  unfold State.edgeGuard
  split
  · exact Gives.ite Gives.trap (Gives.ok trivial)
  · exact Gives.ok trivial

theorem inHand_passes (h : Canon s) : Gives (fun _ => True) s.inHand := by
  unfold State.inHand
  split
  · exact Gives.ok trivial
  · exact Gives.hold h

theorem translate_gives (h : Canon s) (u : State) (a : Agent) (acc : Access) (va : Word) :
    Gives (fun x => Canon x.2) (u.check (s.translate a acc va)) :=
  Gives.check u fun _ hx => h.of_dev (translate_only hx).dev

theorem found_canon (h : Canon s) (a : Agent) (p : Place) : Canon (s.found a p) := settle_wf s _ p h

theorem resolve_gives (h : Canon s) (acc : Access) (n align : Nat) (vas : List Word) :
    Gives (fun x => Canon x.2) (s.resolve acc n align vas) := by
  unfold State.resolve
  refine Gives.bind (check_passes s _) fun _ _ => ?_
  refine Gives.bind (p := fun x => Canon x.2) (Gives.check s fun x hx => h.of_dev (translateAll_only _ _ _ hx).dev)
    fun ⟨ps, t⟩ ht => ?_
  refine Gives.bind (check_passes s _) fun _ _ => ?_
  refine Gives.bind (check_passes s _) fun _ _ => ?_
  refine Gives.bind (check_passes s _) fun _ _ => ?_
  exact Gives.ok (foundAll_wf _ _ _ ht)

theorem loadAll_gives (h : Canon s) (n align : Nat) (vas : List Word) :
    Gives (fun x => Canon x.2) (s.loadAll n align vas) := by
  unfold State.loadAll
  refine Gives.bind (resolve_gives h _ _ _ _) fun ⟨ps, t⟩ ht => ?_
  refine Gives.bind (check_passes s _) fun _ _ => ?_
  exact Gives.ok (by unfold Canon; rw [(cacheAll_dev _ _).2]; exact ht)

theorem cacheLine_canon (h : Canon s) (p : Place) : Canon (s.cacheLine p) := by
  unfold Canon
  rw [(cacheLine_dev s p).2]
  exact h

theorem loadOne_gives (h : Canon s) (n : Nat) (va : Word) : Gives (fun x => Canon x.2.2) (s.loadOne n va) := by
  unfold State.loadOne
  split
  · have ht := (loadAll_gives h n n [va]).out ‹_›
    exact Gives.ok ht
  · exact Gives.stall
  · exact (loadAll_gives h n n [va]).error ‹_›

theorem beforeWrite_canon (h : Canon s) (p : Place) : Canon (s.beforeWrite p) := by
  unfold Canon
  rw [(beforeWrite_dev s p).2]
  exact h

theorem partialWord_gives (h : Canon s) (p : Place) (nl : Label) : Gives (fun x => Canon x.2) (s.partialWord p nl) := by
  unfold State.partialWord
  dsimp only
  split
  · exact Gives.ok h
  · split
    · exact (formLabel_gives h _ _).error ‹_›
    · have ht := (formLabel_gives h _ _).out ‹_›
      exact Gives.ok ht

theorem setRawLabel_canon (h : Canon s) (line : Nat) (w : LabelWord) : Canon (s.mapDev (·.setRawLabel line w)) :=
  Device.setRawLabel_wf _ _ _ h

theorem store_canon (h : Canon s) (loc : Nat) (bs : List Byte) (who : Writer) :
    Canon (s.mapDev (·.store loc bs who)) :=
  Device.store_wf _ _ _ _ h

theorem putPartialLabel_gives (h : Canon s) (p : Place) (nl : Label) : Gives Canon (s.putPartialLabel p nl) := by
  unfold State.putPartialLabel
  split
  · split
    · exact (partialWord_gives h p nl).error ‹_›
    · have ht := (partialWord_gives h p nl).out ‹_›
      exact Gives.ok (setRawLabel_canon ht _ _)
  · exact Gives.ok h

theorem trialLabels_passes (nl : Label) (ps : List Place) : ∀ {s : State}, Canon s →
    Gives (fun _ => True) (s.trialLabels nl ps) := by
  induction ps with
  | nil => exact fun _ => Gives.ok trivial
  | cons p ps ih =>
    intro s h
    unfold State.trialLabels
    split
    · exact (putPartialLabel_gives h p nl).error ‹_›
    · exact ih ((putPartialLabel_gives h p nl).out ‹_›)

theorem pageLabelCheck_passes (s : State) (nl : Label) (n : Nat) (ps : List Place) :
    Gives (fun _ => True) (s.pageLabelCheck nl n ps) := by
  induction ps with
  | nil => exact Gives.ok trivial
  | cons p ps ih => exact Gives.ite Gives.trap ih

theorem writeEach_gives (nl : Label) (els : List (Place × List Byte)) : ∀ {s : State}, Canon s →
    Gives Canon (s.writeEach nl els) := by
  induction els with
  | nil => exact fun h => Gives.ok h
  | cons e els ih =>
    intro s h
    unfold State.writeEach
    split
    · exact (putPartialLabel_gives (beforeWrite_canon h _) _ nl).error ‹_›
    · exact ih (store_canon ((putPartialLabel_gives (beforeWrite_canon h _) _ nl).out ‹_›) _ _ _)

theorem writeLabel_gives (h : Canon s) (ws : List LabelWord) : Gives (fun x => Canon x.2.2) (s.writeLabel ws) := by
  unfold State.writeLabel
  split
  · exact (formConj_gives h ws).error ‹_›
  · have ht := (formConj_gives h ws).out ‹_›
    exact Gives.ok ht

theorem storeAll_gives (h : Canon s) (ws : List LabelWord) (n align : Nat) (els : List (Word × List Byte)) :
    Gives Canon (s.storeAll ws n align els) := by
  unfold State.storeAll
  refine Gives.bind (resolve_gives h _ _ _ _) fun ⟨ps, t⟩ ht => ?_
  refine Gives.bind (writeLabel_gives ht _) fun ⟨w, nl, u⟩ hu => ?_
  refine Gives.bind (trialLabels_passes nl ps hu) fun _ _ => ?_
  refine Gives.bind (pageLabelCheck_passes u nl _ ps) fun _ _ => ?_
  refine Gives.bind (check_passes s _) fun _ _ => ?_
  exact writeEach_gives nl _ hu

theorem storeLine_gives (h : Canon s) (ws : List LabelWord) (va : Word) (v : VWord) :
    Gives Canon (s.storeLine ws va v) := by
  unfold State.storeLine
  refine Gives.bind (resolve_gives h _ _ _ _) fun ⟨ps, t⟩ ht => ?_
  refine Gives.bind (formConj_gives ht _) fun ⟨w, u⟩ hu => ?_
  refine Gives.bind (pageLabelCheck_passes u _ _ ps) fun _ _ => ?_
  refine Gives.bind (p := fun _ => True) ?_ fun p _ => ?_
  · split
    · exact Gives.ok trivial
    · exact Gives.stall
  · refine Gives.bind (check_passes s _) fun _ _ => ?_
    have hb := beforeWrite_canon hu p
    refine Gives.ok (store_canon (s := if p.lt then (u.beforeWrite p).mapDev (·.setRawLabel (lineOf p.loc) w) else u.beforeWrite p) ?_ _ _ _)
    split
    · exact setRawLabel_canon hb _ _
    · exact hb

theorem laterConj_gives (h : Canon s) (d : Reg) (v : VWord) (ws : List LabelWord) (fl : FFlags) :
    Gives Canon (s.laterConj d v ws fl) := by
  unfold State.laterConj
  split
  · exact Gives.ok h
  · split
    · exact (formConj_gives h ws).error ‹_›
    · exact Gives.ok (((formConj_gives h ws).out ‹_›).later _)

/-! ### Loads, stores and cache maintenance -/

theorem load_lands (h : Canon s) (d : Reg) (a off size : Nat) (ext : Nat → VWord) : Lands (s.load d a off size ext) :=
  Lands.commit h (Gives.bind (loadOne_gives h _ _) fun ⟨_, _, _⟩ ht =>
    Gives.bind (laterConj_gives ht _ _ _ _) fun _ hu => Gives.done hu)

theorem storeScalar_lands (h : Canon s) (v : Nat) (l : LabelWord) (a off size : Nat) :
    Lands (s.storeScalar v l a off size) :=
  Lands.commit h (Gives.bind (edgeGuard_passes s _ _) fun _ _ => Gives.bind (storeAll_gives h _ _ _ _) fun _ hu => Gives.done hu)

theorem execVld_lands (h : Canon s) (d a imm : Nat) : Lands (execVld d a imm s) :=
  Lands.commit h (Gives.bind (loadAll_gives h _ _ _) fun ⟨_, _⟩ ht =>
    Gives.bind (laterConj_gives ht _ _ _ _) fun _ hu => Gives.done hu)

theorem execVst_lands (h : Canon s) (d a imm : Nat) : Lands (execVst d a imm s) :=
  Lands.commit h (Gives.bind (edgeGuard_passes s _ _) fun _ _ => Gives.bind (storeLine_gives h _ _ _) fun _ hu => Gives.done hu)

theorem gather_lands (h : Canon s) (d a pg : Nat) (idx : LabelWord) (ea : Nat → Word) : Lands (s.gather d a pg idx ea) :=
  Lands.commit h (Gives.bind (loadAll_gives h _ _ _) fun ⟨_, _⟩ ht =>
    Gives.bind (laterConj_gives ht _ _ _ _) fun _ hu => Gives.done hu)

theorem scatter_lands (h : Canon s) (d a pg : Nat) (idx : LabelWord) (ea : Nat → Word) :
    Lands (s.scatter d a pg idx ea) :=
  Lands.commit h (Gives.bind (edgeGuard_passes s _ _) fun _ _ => Gives.bind (storeAll_gives h _ _ _ _) fun _ hu => Gives.done hu)

/-- What is done to each of a list in turn keeps what each of them keeps. -/
theorem foldl_keeps {α β : Type} {P : α → Prop} {f : α → β → α} (hf : ∀ a b, P a → P (f a b)) (l : List β) :
    ∀ {a : α}, P a → P (l.foldl f a) := by
  induction l with
  | nil => exact fun h => h
  | cons b l ih => exact fun h => ih (hf _ b h)

theorem invalidateLine_canon (h : Canon s) (line : Nat) : Canon (s.invalidateLine line) := by
  unfold State.invalidateLine
  split
  · exact h
  · split
    · exact h
    · dsimp only
      split
      · exact h
      · exact Device.setRawLabel_wf _ _ _ (Device.store_wf _ _ _ _ h)

theorem maintain_lands (h : Canon s) (a n : Nat) (acc : Access) {f : State → Nat → State}
    (hf : ∀ t line, Canon t → Canon (f t line)) : Lands (s.maintain a n acc f) := by
  refine Lands.commit h ?_
  refine Gives.bind (edgeGuard_passes s _ _) fun _ _ => ?_
  refine Gives.bind (classRule_gives s _) fun _ _ => ?_
  refine Gives.bind (translate_gives h s _ _ _) fun ⟨p, t⟩ ht => ?_
  refine Gives.bind (check_passes s _) fun _ _ => ?_
  refine Gives.bind (check_passes s _) fun _ _ => ?_
  refine Gives.ok ?_
  split
  · exact Canon.complete (foldl_keeps hf _ ht)
  · exact Canon.complete ht

/-! ### Atomics -/

theorem atomicAt_gives (h : Canon s) (n : Nat) (va : Word) (ws : List LabelWord) (f : Nat → Nat) :
    Gives (fun x => Canon x.2.2.2) (s.atomicAt n va ws f) := by
  unfold State.atomicAt
  refine Gives.bind (edgeGuard_passes s _ _) fun _ _ => ?_
  refine Gives.bind (resolve_gives h _ _ _ _) fun ⟨ps, t⟩ ht => ?_
  refine Gives.bind (writeLabel_gives ht _) fun ⟨w, nl, u⟩ hu => ?_
  refine Gives.bind (trialLabels_passes nl ps hu) fun _ _ => ?_
  refine Gives.bind (pageLabelCheck_passes u nl _ ps) fun _ _ => ?_
  refine Gives.bind (check_passes s _) fun _ _ => ?_
  refine Gives.bind (p := fun _ => True) ?_ fun p _ => ?_
  · split
    · exact Gives.ok trivial
    · exact Gives.stall
  · exact Gives.bind (writeEach_gives nl _ hu) fun _ hv => Gives.ok hv

theorem atomicResult_gives (h : Canon s) (d : Reg) (v : VWord) (lr : Label) (wide : Bool) (fl : FFlags) :
    Gives Canon (s.atomicResult d v lr wide fl) := by
  unfold State.atomicResult
  split
  · exact Gives.ok h
  · split
    · exact (formLabel_gives h _ _).error ‹_›
    · exact Gives.ok (((formLabel_gives h _ _).out ‹_›).later _)

theorem execAmo_lands (h : Canon s) (op : AmoOp) (w : AmoWidth) (o : MemOrder) (sc : Scope) (d a : Nat) :
    Lands (execAmo op w o sc d a s) :=
  Lands.commit h (Gives.bind (atomicAt_gives h _ _ _ _) fun ⟨_, _, _, _⟩ ht =>
    Gives.bind (atomicResult_gives ht _ _ _ _ _) fun _ hu => Gives.done hu)

theorem execCas_lands (h : Canon s) (w : AmoWidth) (o : MemOrder) (sc : Scope) (d a : Nat) :
    Lands (execCas w o sc d a s) :=
  Lands.commit h (Gives.bind (atomicAt_gives h _ _ _ _) fun ⟨_, _, _, _⟩ ht =>
    Gives.bind (atomicResult_gives ht _ _ _ _ _) fun _ hu => Gives.done hu)

theorem execFamo_lands (h : Canon s) (op : FamoOp) (o : MemOrder) (sc : Scope) (d a : Nat) :
    Lands (execFamo op o sc d a s) :=
  Lands.commit h (Gives.bind (atomicAt_gives h _ _ _ _) fun ⟨_, _, _, _⟩ ht =>
    Gives.bind (atomicResult_gives ht _ _ _ _ _) fun _ hu => Gives.done hu)

theorem execCsum_lands (h : Canon s) (o : MemOrder) (sc : Scope) (d a : Nat) : Lands (execCsum o sc d a s) :=
  Lands.commit h (Gives.bind (atomicAt_gives h _ _ _ _) fun ⟨_, _, _, _⟩ ht =>
    Gives.bind (atomicResult_gives ht _ _ _ _ _) fun _ hu => Gives.done hu)

/-! ### Control registers -/

theorem dropAside_canon (h : Canon s) : Canon s.dropAside := by
  unfold State.dropAside
  dsimp only
  split
  · exact h.of_dev (spoilTiles_dev _ _ _)
  · exact h

theorem writeCatchcfg_gives (h : Canon s) (v : Word) : Gives Canon (s.writeCatchcfg v) := by
  unfold State.writeCatchcfg
  refine Gives.bind (translate_gives h s _ _ _) fun ⟨p, t⟩ ht => ?_
  refine Gives.bind (check_passes s _) fun _ _ => ?_
  refine Gives.bind (check_passes s _) fun _ _ => ?_
  refine Gives.bind (check_passes s _) fun _ _ => ?_
  have hf := found_canon ht s.me p
  refine Gives.bind (inHand_passes hf) fun _ _ => ?_
  dsimp only
  split
  · exact Gives.trap
  · exact Gives.ok (Canon.mapCore (Canon.mapCluster (hf.mapCore _) _ _) _)

theorem crWrite_gives (h : Canon s) (n : Nat) (v : Word) : Gives Canon (s.crWrite n v) := by
  have hc (f : Core → Core) : Gives Canon (.ok (s.mapCore f)) := Gives.ok (h.mapCore f)
  have hm : Gives Canon (if bitAt v 63 then .ok s else .ok s.dropAside : Result State) :=
    Gives.ite (Gives.ok h) (Gives.ok (dropAside_canon h))
  unfold State.crWrite
  exact Gives.ite (hc _) (Gives.ite (Gives.ok (h.mapRegs _)) (Gives.ite (hc _) (Gives.ite (hc _) (Gives.ite (hc _)
    (Gives.ite (hc _) (Gives.ite (hc _) (Gives.ite (hc _) (Gives.ite (hc _) (Gives.ite (hc _) (Gives.ite (hc _)
      (Gives.ite (hc _) (Gives.ite hm (Gives.ite (hc _) (Gives.ite (writeCatchcfg_gives h v) (Gives.ok h)))))))))))))))

theorem crCheck_passes (s : State) (n op : Nat) (w : Bool) : Gives (fun _ => True) (s.crCheck n op w) := by
  unfold State.crCheck
  split
  · exact Gives.trap
  · exact Gives.ite Gives.trap (Gives.ite Gives.trap (Gives.ok trivial))

theorem execCrr_lands (h : Canon s) (d n : Nat) : Lands (execCrr d n s) :=
  Lands.commit h (Gives.bind (crCheck_passes s _ _ _) fun _ _ => Gives.done (h.wrX _ _ _))

theorem crModify_lands (h : Canon s) (op n a : Nat) (new : Word → Word) (d : Option Nat) :
    Lands (s.crModify op n a new d) := by
  refine Lands.commit h ?_
  refine Gives.bind (crCheck_passes s _ _ _) fun _ _ => ?_
  refine Gives.bind (classRule_gives s _) fun _ _ => ?_
  refine Gives.bind (crWrite_gives h _ _) fun t ht => ?_
  refine Gives.ok ?_
  split
  · exact Canon.complete (ht.wrX _ _ _)
  · exact ht.complete

theorem execInvpg_lands (h : Canon s) (a : Nat) : Lands (execInvpg a s) :=
  Lands.commit h (Gives.bind (privileged_gives s) fun _ _ =>
    Gives.done (Canon.mapCluster (h.drain.mapCore _) _ _))

/-! ### Label forms -/

theorem assumption_passes (s : State) (b : Nat) : Gives (fun _ => True) (s.assumption b) := by
  unfold State.assumption
  exact Gives.ite Gives.trap (Gives.ok trivial)

theorem formWith_gives (h : Canon s) (ws : List LabelWord) (l : Label) : Gives (fun x => Canon x.2) (s.formWith ws l) :=
  formLabel_gives h _ _

theorem execAssume_lands (h : Canon s) (d a b : Nat) : Lands (execAssume d a b s) :=
  Lands.commit h (Gives.bind (assumption_passes s b) fun _ _ =>
    Gives.ite (Gives.done h) (Gives.bind (formWith_gives h _ _) fun ⟨_, _⟩ ht => Gives.done (Canon.wrX ht _ _ _)))

theorem execAssumev_lands (h : Canon s) (d a b : Nat) : Lands (execAssumev d a b s) :=
  Lands.commit h (Gives.bind (assumption_passes s b) fun _ _ => Gives.bind (formWith_gives h _ _) fun ⟨_, _⟩ ht =>
    Gives.done (Canon.wrV ht _ _ _))

theorem execLblset_lands (h : Canon s) (d a b : Nat) : Lands (execLblset d a b s) := by
  refine Lands.commit h ?_
  split
  · exact Gives.done h
  · split
    · exact (formWith_gives h _ _).error ‹_›
    · exact Gives.done (((formWith_gives h _ _).out ‹_›).wrX _ _ _)

theorem execLjoin_lands (h : Canon s) (d a b : Nat) : Lands (execLjoin d a b s) := by
  refine Lands.commit h ?_
  refine Gives.bind (p := Canon) ?_ fun t ht => Gives.bind (formLabel_gives ht _ _) fun ⟨_, _⟩ hu =>
    Gives.done (Canon.wrP hu _ _ _)
  split
  · split
    · exact (formLabel_gives h _ _).error ‹_›
    · exact Gives.ok (((formLabel_gives h _ _).out ‹_›).wrX _ _ _)
  · exact Gives.ok h

theorem contra_lands (h : Canon s) (w : LabelWord) : Lands (s.contra w) := by
  refine Lands.commit h ?_
  refine Gives.bind (edgeGuard_passes s _ _) fun _ _ => ?_
  split
  · split
    · exact Gives.done h
    · split
      · split
        · exact Gives.done (h.mapWorld _)
        · exact Gives.trap
      · exact Gives.trap
  · split
    · exact Gives.trap
    · exact Gives.ok (h.parkAt _)

theorem newEpoch_canon {t : State} (h : Canon s) {cl core : Nat} (e : s.newEpoch cl core = .ok t) : Canon t := by
  unfold State.newEpoch at e
  dsimp only at e
  split at e
  · cases e
  · cases e
    exact (h.mapWorld _).mapCoreAt _ _ _

theorem execWreset_lands (h : Canon s) : Lands (execWreset s) := by
  refine Lands.commit h ?_
  refine Gives.bind (edgeGuard_passes s _ _) fun _ _ => ?_
  split
  · split
    · exact Gives.done h
    · split
      · split
        · exact Gives.done (newEpoch_canon h ‹_›)
        · exact Gives.trap
      · exact Gives.trap
  · exact Gives.ok (h.drain.parkAt _)

theorem Canon.retireContra (h : Canon s) (cl core : Nat) (g : Label) : Canon (s.retireContra cl core g) := by
  unfold State.retireContra
  split
  · exact h.mapCoreAt _ _ _
  · split
    · exact (h.mapWorld _).mapCoreAt _ _ _
    · exact h.mapCoreAt _ _ _

theorem execContraRetire_lands (h : Canon s) (cl core : Nat) : Lands (execContraRetire cl core s) := by
  refine Lands.next ?_
  split
  · exact h.retireContra _ _ _
  · exact h

theorem Canon.retireReset (h : Canon s) (cl core : Nat) : Canon (s.retireReset cl core) := by
  unfold State.retireReset
  split
  · exact h.mapCoreAt _ _ _
  · split
    · exact (newEpoch_canon h ‹_›).mapCoreAt _ _ _
    · exact h.mapCoreAt _ _ _

theorem execWresetRetire_lands (h : Canon s) (cl core : Nat) : Lands (execWresetRetire cl core s) := by
  refine Lands.next ?_
  split
  · exact h.retireReset _ _
  · exact h

theorem execLtest_lands (h : Canon s) (d a : Nat) : Lands (execLtest d a s) :=
  Lands.commit h (Gives.done (h.later _))

theorem execLenv_lands (h : Canon s) (d a b : Nat) : Lands (execLenv d a b s) :=
  Lands.commit h (Gives.ite Gives.trap (Gives.done (h.later _)))

theorem linePlace_gives (h : Canon s) (acc : Access) (va : Word) : Gives (fun x => Canon x.2) (s.linePlace acc va) := by
  unfold State.linePlace
  refine Gives.bind (resolve_gives h _ _ _ _) fun ⟨ps, t⟩ ht => ?_
  dsimp only
  split
  · exact Gives.ok ht
  · exact Gives.stall

theorem execLld_lands (h : Canon s) (d a : Nat) : Lands (execLld d a s) :=
  Lands.commit h (Gives.bind (linePlace_gives h _ _) fun ⟨_, _⟩ ht =>
    Gives.bind (laterConj_gives (cacheLine_canon ht _) _ _ _ _) fun _ hu => Gives.done hu)

theorem narrowLine_gives (h : Canon s) (p : Place) (ws : List LabelWord) (l : Label) : Gives Canon (s.narrowLine p ws l) := by
  unfold State.narrowLine
  refine Gives.bind (formWith_gives h _ _) fun ⟨w, t⟩ ht => ?_
  refine Gives.bind (trialLabels_passes _ _ ht) fun _ _ => ?_
  refine Gives.bind (pageLabelCheck_passes t _ _ _) fun _ _ => ?_
  exact Gives.ite (putPartialLabel_gives (beforeWrite_canon ht p) p _) (Gives.ok ht)

theorem setLineWord_gives (h : Canon s) (p : Place) (w : LabelWord) : Gives Canon (s.setLineWord p w) := by
  unfold State.setLineWord
  exact Gives.ite (Gives.ok (setRawLabel_canon (beforeWrite_canon h p) _ _)) (Gives.ite (Gives.ok h) Gives.trap)

theorem execLst_lands (h : Canon s) (d a : Nat) : Lands (execLst d a s) := by
  refine Lands.commit h ?_
  refine Gives.bind (edgeGuard_passes s _ _) fun _ _ => ?_
  refine Gives.bind (linePlace_gives h _ _) fun ⟨p, t⟩ ht => ?_
  refine Gives.bind (p := Canon) ?_ fun _ hu => Gives.done hu
  split
  · exact setLineWord_gives ht p _
  · exact narrowLine_gives ht p _ _

/-! ### Forms of the numbers -/

theorem floatResult_lands (h : Canon s) (d : Nat) (r : Nat × FFlags) (ws : List LabelWord) :
    Lands (s.floatResult d r ws) := by
  refine Lands.commit h ?_
  split
  · exact (setF_gives h _ _ _).error ‹_›
  · exact Gives.done (((setF_gives h _ _ _).out ‹_›).orFlags _)

theorem floatToX_lands (h : Canon s) (d : Nat) (v : Word) (fl : FFlags) (ws : List LabelWord) :
    Lands (s.floatToX d v fl ws) := by
  refine Lands.commit h ?_
  split
  · exact (setX_gives h _ _ _).error ‹_›
  · exact Gives.done (((setX_gives h _ _ _).out ‹_›).orFlags _)

theorem floatLater_lands (h : Canon s) (d : Nat) (r : Nat × FFlags) (ws : List LabelWord) :
    Lands (s.floatLater d r ws) := by
  refine Lands.commit h ?_
  split
  · exact (laterConj_gives h _ _ _ _).error ‹_›
  · exact Gives.done ((laterConj_gives h _ _ _ _).out ‹_›)

theorem vecResult_lands (h : Canon s) (d : Nat) (r : VWord × FFlags) (ws : List LabelWord) :
    Lands (s.vecResult d r ws) := by
  refine Lands.commit h ?_
  split
  · exact (setV_gives h _ _ _).error ‹_›
  · exact Gives.done (((setV_gives h _ _ _).out ‹_›).orFlags _)

theorem vecLater_lands (h : Canon s) (d : Nat) (r : VWord × FFlags) (ws : List LabelWord) :
    Lands (s.vecLater d r ws) := by
  refine Lands.commit h ?_
  split
  · exact (laterConj_gives h _ _ _ _).error ‹_›
  · exact Gives.done ((laterConj_gives h _ _ _ _).out ‹_›)

theorem execVcmp_lands (h : Canon s) (cc : VCc) (t : ElemTy) (p a b pg : Nat) : Lands (execVcmp cc t p a b pg s) := by
  refine Lands.commit h ?_
  split
  · exact (setP_gives h _ _ _).error ‹_›
  · exact Gives.done (((setP_gives h _ _ _).out ‹_›).orFlags _)

theorem execPset_lands (h : Canon s) (t : ElemTy) (p a : Nat) : Lands (execPset t p a s) := by
  refine Lands.commit h ?_
  split
  · exact (setP_gives h _ _ _).error ‹_›
  · exact Gives.done ((setP_gives h _ _ _).out ‹_›)

theorem execPlog_lands (h : Canon s) (op : PlogOp) (d a b : Nat) : Lands (execPlog op d a b s) := by
  unfold execPlog
  extract_lets x y v
  refine Lands.commit h ?_
  split
  · exact (setP_gives h _ _ _).error ‹_›
  · exact Gives.done ((setP_gives h _ _ _).out ‹_›)

theorem execVext_lands (h : Canon s) (t : ElemTy) (d a b : Nat) : Lands (execVext t d a b s) :=
  Lands.ite (floatToX_lands h _ _ _ _) (floatResult_lands h _ _ _)

theorem execDtld_lands (h : Canon s) (b : Bank) (a : Nat) : Lands (execDtld b a s) := by
  unfold execDtld
  extract_lets base lines
  refine Lands.commit h ?_
  refine Gives.bind (edgeGuard_passes s _ _) fun _ _ => ?_
  refine Gives.bind (classRule_gives s _) fun _ _ => ?_
  refine Gives.bind (check_passes s _) fun _ _ => ?_
  refine Gives.bind (loadAll_gives h _ _ _) fun ⟨els, t⟩ ht => ?_
  refine Gives.bind (inHand_passes ht) fun _ _ => ?_
  split
  · exact Gives.trap
  · dsimp only
    split
    · exact Gives.trap
    · exact Gives.done (Canon.mapCore (Canon.mapRegs ht _) _)

end

end Sys2Proof.Claims
end

section
/-! PROOF. Records, the dispatcher, synchronisation and the copy unit keep memory in its canonical form (O40). -/

set_option Elab.async false

namespace Sys2Proof.Claims

open Machine

section
variable {s : State}

/-! ### Records -/

theorem Canon.putRecord (h : Canon s) (va : Word) (r : VWord) : Canon (s.putRecord va r) := (putRecord_ok s va r).2 h

theorem Canon.freezeQueue (h : Canon s) (qid cause : Nat) : Canon (s.freezeQueue qid cause) := freezeQueue_wf s qid cause h

theorem Canon.statusWrite (h : Canon s) (a : Agent) (va : Word) (bs : List Byte) : Canon (s.statusWrite a va bs) :=
  (statusWrite_ok s a va bs).2 h

theorem Canon.noteDeny (h : Canon s) (a : Agent) (d : Deny) : Canon (s.noteDeny a d) := (noteDeny_ok s a d).2 h

theorem Canon.mapQueue (h : Canon s) (qid : Nat) (f : Queue → Queue) : Canon (s.mapQueue qid f) :=
  h.of_dev (State.mapQueue_dev _ _ _)

theorem Canon.bumpAt (h : Canon s) (cl core k n : Nat) (err : Bool) : Canon (s.bumpAt cl core k n err) :=
  h.of_dev (bumpAt_dev _ _ _ _ _ _)

theorem Canon.engineArrive (h : Canon s) (cl g : Nat) (m : CatchMember) (err : Bool) :
    Canon (s.engineArrive cl g m err) := h

theorem Canon.retire (h : Canon s) (va : Word) (final : Nat) : Canon (s.retire va final) := by
  unfold State.retire
  extract_lets r t
  have ht : Canon t := by
    unfold t
    split
    · exact h.freezeQueue _ _
    · exact h
  split
  · exact ht.putRecord _ _
  · exact finishRetire_wf _ _ _ _ ht

theorem Canon.failRecord (h : Canon s) (va : Word) (token : Nat) : Canon (s.failRecord va token) :=
  (h.putRecord _ _).retire _ _

theorem Canon.queueTail (h : Canon s) (va : Word) : Canon (s.queueTail va) :=
  Canon.mapCluster (h.putRecord _ _) _ _

theorem Canon.enqueue (h : Canon s) (va : Word) : Canon (s.enqueue va) := by
  unfold State.enqueue
  dsimp only
  split
  · exact h.retire _ _
  · split
    · exact h.failRecord _ _
    · exact h.queueTail _

theorem Canon.create (h : Canon s) (va : Word) (image : VWord) (qid : Nat) (epoch : BitVec 8) :
    Canon (s.create va image qid epoch) := by
  unfold State.create
  extract_lets t parent p u
  have ht : Canon t := h.putRecord _ _
  have hu : Canon u := by
    unfold u
    split
    · exact ht
    · split
      · exact ht.putRecord _ _
      · exact ht.drawn.putRecord _ _
  exact hu.enqueue _

theorem Canon.startOn (h : Canon s) (cl core : Nat) (va : Word) (r : VWord) (gang : Option GangRole) :
    Canon (s.startOn cl core va r gang) := by
  unfold State.startOn
  extract_lets n busy t
  have ht : Canon t := by
    unfold t
    split
    · exact h.mapCluster _ _
    · exact h
  exact ht.drawn.mapCoreAt _ _ _

theorem Canon.startGang (h : Canon s) (cl : Nat) (va : Word) (r : VWord) (cores : List Nat) :
    Canon (s.startGang cl va r cores) :=
  foldl_keeps (P := Canon) (fun _ _ ht => ht.startOn _ _ _ _ _) _ (Canon.mapCluster (h.putRecord _ _) _ _)

theorem Canon.expireGang (h : Canon s) (cl : Nat) (va : Word) : Canon (s.expireGang cl va) := by
  refine Canon.queueTail (Canon.mapCluster (foldl_keeps (P := Canon) (fun _ _ ht => ?_) _ h) _ _) _
  split
  · exact ht.mapCoreAt _ _ _
  · exact ht

theorem Canon.tryGang (h : Canon s) (cl : Nat) (va : Word) (r : VWord) : Canon (s.tryGang cl va r) := by
  unfold State.tryGang
  extract_lets mine held idle cores t u
  split
  · exact Canon.startGang (foldl_keeps (P := Canon) (fun _ _ ht => ht.mapCoreAt _ _ _) _ h) _ _ _ _
  · exact Canon.mapCluster (foldl_keeps (P := Canon) (fun _ _ ht => ht.mapCoreAt _ _ _) _ h) _ _

theorem dispatchPast_canon (cl core fuel : Nat) : ∀ {s : State}, Canon s → Canon (State.dispatchPast cl core fuel s) := by
  induction fuel with
  | zero => exact fun h => h
  | succ fuel ih =>
    intro s h
    unfold State.dispatchPast
    split
    · exact h
    · split
      · exact h
      · dsimp only
        split
        · exact ih (Canon.failRecord (h.mapCluster _ _) _ _)
        · split
          · split
            · exact h.expireGang _ _
            · exact h.tryGang _ _ _
          · exact Canon.startOn (Canon.putRecord (h.mapCluster _ _) _ _) _ _ _ _ _

theorem Canon.vacate (h : Canon s) (cl core : Nat) : Canon (s.vacate cl core) :=
  Canon.mapCoreAt (Canon.mapCluster (Canon.mapCoreAt (Canon.unlock (h.mapCluster _ _) _ _) _ _ _) _ _) _ _ _

theorem Canon.savePoint (h : Canon s) (wkind warg : Nat) : Canon (s.savePoint wkind warg) := h.putRecord _ _

theorem Canon.suspend (h : Canon s) (wkind warg : Nat) : Canon (s.suspend wkind warg) := by
  unfold State.suspend
  extract_lets va t r u v
  have hv : Canon v := Canon.vacate (Canon.mapCore (Canon.putRecord (h.savePoint _ _) _ _) _) _ _
  split
  · exact hv.enqueue _
  · exact hv.mapCluster _ _

theorem Canon.leaveGang (h : Canon s) (cl core : Nat) (va : Word) (token : Nat) : Canon (s.leaveGang cl core va token) := by
  unfold State.leaveGang
  extract_lets k
  split
  · exact h
  · extract_lets first t g' others
    have ht : Canon t := by
      unfold t
      split
      · exact h.putRecord _ _
      · exact h
    split
    · exact Canon.retire (ht.mapCluster _ _) _ _
    · exact ht.mapCluster _ _

/-! ### Synchronisation -/

theorem execFence_lands (h : Canon s) (kinds : Nat) (sc : Scope) : Lands (execFence kinds sc s) := by
  have hend : Gives Canon (if kinds.testBit 3 ∧ s.grantValue = none ∧ s.engineBusy s.focus.cl s.focus.core then
      .ok (s.parkAt .fenceE) else .ok (s.fence kinds sc.code).complete : Result State) :=
    Gives.ite (Gives.ok (h.parkAt _)) (Gives.done (h.mapCore _))
  refine Lands.commit h ?_
  dsimp only
  split
  · exact Gives.bind (edgeGuard_passes s _ _) fun _ _ => hend
  · exact hend

theorem execFencesc_lands (h : Canon s) : Lands (execFencesc s) := by
  refine Lands.commit h ?_
  refine Gives.bind (edgeGuard_passes s _ _) fun _ _ => ?_
  split
  · exact Gives.ok (h.drain.parkAt _)
  · exact Gives.done (foldl_keeps (P := Canon) (fun _ _ ht => ht.mapCore _) _ h)

theorem catchCheck_passes (s : State) (g : Nat) : Gives (fun _ => True) (s.catchCheck g) := by
  unfold State.catchCheck
  dsimp only
  split
  · exact Gives.trap
  · split
    · exact Gives.trap
    · exact Gives.ok trivial

theorem execArrive_lands (h : Canon s) (g a : Nat) : Lands (execArrive g a s) := by
  refine Lands.commit h ?_
  refine Gives.bind (edgeGuard_passes s _ _) fun _ _ => ?_
  refine Gives.bind (catchCheck_passes s _) fun _ _ => ?_
  dsimp only
  split
  · exact Gives.trap
  · exact Gives.bind (classRule_gives s _) fun _ _ => Gives.done ((h.mapCluster _ _).mapCore _)

theorem execWaitc_lands (h : Canon s) (d g : Nat) : Lands (execWaitc d g s) := by
  refine Lands.commit h ?_
  refine Gives.bind (edgeGuard_passes s _ _) fun _ _ => ?_
  split
  · exact Gives.done (h.wrX _ _ _)
  · exact Gives.bind (catchCheck_passes s _) fun _ _ => Gives.ite (Gives.done (h.wrX _ _ _)) (Gives.ok (h.parkAt _))

theorem execCatchq_lands (h : Canon s) (d g : Nat) : Lands (execCatchq d g s) :=
  Lands.commit h (Gives.bind (catchCheck_passes s _) fun _ _ => Gives.done (h.wrX _ _ _))

theorem execWaitk_lands (h : Canon s) (k a : Nat) : Lands (execWaitk k a s) :=
  Lands.commit h (Gives.bind (edgeGuard_passes s _ _) fun _ _ => Gives.bind (classRule_gives s _) fun _ _ =>
    Gives.ite (Gives.done h) (Gives.ok (h.parkAt _)))

theorem execWaitt_lands (h : Canon s) (a b : Nat) : Lands (execWaitt a b s) := by
  refine Lands.commit h ?_
  refine Gives.bind (edgeGuard_passes s _ _) fun _ _ => ?_
  split
  · refine Gives.done ?_
    split
    · exact h
    · exact h.mapCore _
  · exact Gives.bind (classRule_gives s _) fun _ _ => Gives.ite (Gives.done h) (Gives.ok (h.parkAt _))

theorem coreOperand_passes (s : State) (v : Word) : Gives (fun _ => True) (s.coreOperand v) :=
  Gives.ite Gives.trap (Gives.ite Gives.trap (Gives.ok trivial))

theorem execKrd_lands (h : Canon s) (d k a : Nat) : Lands (execKrd d k a s) :=
  Lands.commit h (Gives.ite (Gives.done (h.wrX _ _ _))
    (Gives.bind (coreOperand_passes s _) fun _ _ => Gives.done (h.later _)))

theorem recordCheck_gives (h : Canon s) (va : Word) : Gives Canon (s.recordCheck va) := by
  unfold State.recordCheck
  refine Gives.bind (check_passes s _) fun _ _ => ?_
  refine Gives.bind (translate_gives h s _ _ _) fun ⟨p, t⟩ ht => ?_
  refine Gives.bind (check_passes s _) fun _ _ => ?_
  dsimp only
  split
  · exact Gives.trap
  · exact Gives.bind (check_passes s _) fun _ _ => Gives.ok ht

theorem imageRead_gives (h : Canon s) (va : Word) : Gives (fun x => Canon x.2) (s.imageRead va) := by
  unfold State.imageRead
  refine Gives.bind (check_passes s _) fun _ _ => ?_
  refine Gives.bind (translate_gives h s _ _ _) fun ⟨p, t⟩ ht => ?_
  refine Gives.bind (check_passes s _) fun _ _ => ?_
  refine Gives.bind (check_passes s _) fun _ _ => ?_
  refine Gives.bind (check_passes s _) fun _ _ => ?_
  have hf := found_canon ht s.me p
  refine Gives.bind (inHand_passes hf) fun _ _ => ?_
  dsimp only
  split
  · exact Gives.trap
  · exact Gives.ok hf

theorem execSpawn_lands (h : Canon s) (a b : Nat) : Lands (execSpawn a b s) := by
  refine Lands.commit h ?_
  refine Gives.bind (edgeGuard_passes s _ _) fun _ _ => ?_
  refine Gives.bind (classRule_gives s _) fun _ _ => ?_
  refine Gives.bind (recordCheck_gives h _) fun t ht => ?_
  refine Gives.bind (imageRead_gives ht _) fun ⟨_, u⟩ hu => ?_
  exact Gives.done (Canon.create (Canon.mapCtx hu _) _ _ _ _)

theorem suspendCheck_gives (s : State) : Gives (fun _ => True) s.suspendCheck := by
  unfold State.suspendCheck
  dsimp only
  split
  · exact Gives.trap
  · split
    · exact Gives.trap
    · exact Gives.ok trivial

theorem gangCheck_passes (s : State) : Gives (fun _ => True) s.gangCheck := Gives.ite Gives.trap (Gives.ok trivial)

theorem execJoin_lands (h : Canon s) : Lands (execJoin s) :=
  Lands.commit h (Gives.bind (gangCheck_passes s) fun _ _ => Gives.ite (Gives.done h)
    (Gives.bind (suspendCheck_gives s) fun _ _ => Gives.ok (h.drain.suspend _ _)))

theorem execFinish_lands (h : Canon s) (a : Nat) : Lands (execFinish a s) := by
  have ht : Canon (((s.drain.savePoint 0 0).mapCore Core.dropUpcalls).vacate s.focus.cl s.focus.core) :=
    Canon.vacate (Canon.mapCore (h.drain.savePoint _ _) _) _ _
  refine Lands.commit h ?_
  refine Gives.bind (edgeGuard_passes s _ _) fun _ _ => ?_
  dsimp only
  refine Gives.ite Gives.trap (Gives.ite Gives.trap (Gives.bind (suspendCheck_gives s) fun _ _ => ?_))
  exact Gives.ite (Gives.ok (ht.leaveGang _ _ _ _)) (Gives.ite (Gives.ok (ht.failRecord _ _)) (Gives.ok (ht.retire _ _)))

theorem execSuspk_lands (h : Canon s) (k a d : Nat) : Lands (execSuspk k a d s) := by
  refine Lands.commit h ?_
  refine Gives.bind (gangCheck_passes s) fun _ _ => ?_
  refine Gives.bind (classRule_gives s.drain _) fun _ _ => ?_
  refine Gives.bind (p := fun _ => True) ?_ fun c _ =>
    Gives.bind (suspendCheck_gives s) fun _ _ => Gives.ok (h.drain.suspend _ _)
  exact Gives.ite (Gives.ok trivial) (coreOperand_passes _ _)

theorem execSuspt_lands (h : Canon s) (a : Nat) : Lands (execSuspt a s) := by
  refine Lands.commit h ?_
  refine Gives.bind (gangCheck_passes s) fun _ _ => ?_
  refine Gives.bind (classRule_gives s.drain _) fun _ _ => ?_
  dsimp only
  split
  · exact Gives.trap
  · exact Gives.bind (suspendCheck_gives s) fun _ _ => Gives.ok (h.drain.suspend _ _)

theorem execYield_lands (h : Canon s) : Lands (execYield s) :=
  Lands.commit h (Gives.bind (gangCheck_passes s) fun _ _ => Gives.bind (suspendCheck_gives s) fun _ _ =>
    Gives.ok (h.drain.suspend _ _))

/-! ### The copy unit -/

theorem ReadOnly.canon {t : State} (r : ReadOnly s t) (h : Canon s) : Canon t := r.2 h

theorem Canon.completeJob (h : Canon s) (cl crew : Nat) (j : Job) (code index : Nat) :
    Canon (s.completeJob cl crew j code index) := completeJob_wf s cl crew j code index h

theorem cancelPlan_canon (h : Canon s) (cl crew : Nat) (j : Job) : Canon (s.cancelPlan cl crew j) := by
  unfold State.cancelPlan
  split
  · exact leaveEarly_wf _ _ _ _ ((planJob_ok ‹_›).canon h)
  · exact h

/-- The state that a job's run comes to. -/
def endState : JobEnd → State
  | .complete t _ _ => t
  | .replay t _ => t

theorem runJob_canon (h : Canon s) (cl crew : Nat) (j : Job) : Canon (endState (s.runJob cl crew j)) := by
  unfold State.runJob
  extract_lets a
  split
  · exact h
  · have ht := (planJob_ok ‹_›).canon h
    split
    · exact leaveEarly_wf _ _ _ _ h
    · split
      · extract_lets early
        split <;> exact leaveEarly_wf _ _ _ _ h
      · split <;> exact writeLines_wf _ _ _ _ ‹_› ht

theorem engineRuns_lands {t : State} (h : Canon s) (ht : Canon t) : Lands (s.engineRuns t) := by
  refine Lands.next ?_
  split
  · exact h
  · exact ht

theorem execJobStart_lands (h : Canon s) (cl crew : Nat) : Lands (execJobStart cl crew s) := by
  refine engineRuns_lands h ?_
  split
  · exact h.mapCluster _ _
  · exact h

theorem execJobComplete_lands (h : Canon s) (cl crew : Nat) (id : Word) : Lands (execJobComplete cl crew id s) := by
  refine engineRuns_lands h ?_
  split
  · exact h
  · next j _ =>
    have hj := runJob_canon h cl crew j
    split
    · next he =>
      rw [he] at hj
      exact Canon.completeJob hj _ _ _ _ _
    · exact h

theorem Canon.ringError (h : Canon s) (slot : Nat) : Canon (s.ringError slot) := by
  unfold State.ringError
  split
  · exact h
  · exact h.noteDeny _ _

theorem postRecord_canon {t : State} (h : Canon s) {cl crew : Nat} {job : Word} {cause acc : Nat} {va : Word}
    (e : s.postRecord cl crew job cause acc va = some t) : Canon t := by
  unfold State.postRecord at e
  dsimp only at e
  split at e
  · cases e
  · cases e
    exact Canon.mapCtx (Canon.bumpAt ((h.ringError _).statusWrite _ _ _) _ _ _ _ _) _

theorem execJobFault_lands (h : Canon s) (cl crew : Nat) (id : Word) : Lands (execJobFault cl crew id s) := by
  refine engineRuns_lands h ?_
  split
  · exact h
  · next j _ =>
    have hj := runJob_canon h cl crew j
    split
    · exact h
    · next t f he =>
      rw [he] at hj
      have ht : Canon t := hj
      dsimp only
      split
      · split
        · exact Canon.completeJob (ht.noteDeny _ _) _ _ _ _ _
        · exact Canon.mapCluster (ht.noteDeny _ _) _ _
      · split
        · exact h
        · exact Canon.mapCluster (postRecord_canon ht ‹_›) _ _

theorem execTransformTimeout_lands (h : Canon s) (cl crew : Nat) (id : Word) :
    Lands (execTransformTimeout cl crew id s) := by
  refine engineRuns_lands h ?_
  split
  · split
    · exact h.completeJob _ _ _ _ _
    · exact h
  · exact h

theorem readDescriptor_gives (h : Canon s) (va : Word) : Gives (fun x => Canon x.2.2) (s.readDescriptor va) := by
  unfold State.readDescriptor
  refine Gives.bind (check_passes s _) fun _ _ => ?_
  refine Gives.bind (translate_gives h s _ _ _) fun ⟨p, t⟩ ht => ?_
  refine Gives.bind (check_passes s _) fun _ _ => ?_
  refine Gives.bind (check_passes s _) fun _ _ => ?_
  refine Gives.bind (check_passes s _) fun _ _ => ?_
  have hf := found_canon ht s.me p
  exact Gives.bind (inHand_passes hf) fun _ _ => Gives.ok hf

theorem inboxCheck_passes (s : State) (spans : List (Nat × Nat)) : Gives (fun _ => True) (s.inboxCheck spans) := by
  unfold State.inboxCheck
  split
  · exact Gives.ok trivial
  · exact Gives.trap

theorem lockRanges_canon {t : State} {ids : List Nat} {cl core : Nat} {kind : LockKind} {ranges : List (Nat × Nat × Bool)}
    (h : Canon s) (e : s.lockRanges cl core kind ranges = some (ids, t)) : Canon t := by
  obtain ⟨-, -, -, hm⟩ := lockRanges_ok e
  unfold Canon
  rw [hm]
  exact h

theorem jsubResult_canon (h : Canon s) (d : Nat) (id p : Word) : Canon (s.jsubResult d id p) :=
  Canon.complete (Canon.later (h.later _) _)

theorem execJsub_lands (h : Canon s) (d a : Nat) : Lands (execJsub d a s) := by
  refine Lands.commit h ?_
  refine Gives.bind (edgeGuard_passes s _ _) fun _ _ => ?_
  refine Gives.bind (readDescriptor_gives h _) fun ⟨desc, lw, t⟩ ht => ?_
  dsimp only
  split
  · exact Gives.trap
  · refine Gives.bind (inboxCheck_passes t _) fun _ _ => ?_
    split
    · exact Gives.trap
    · split
      · exact Gives.trap
      · refine Gives.bind (formConj_gives ht _) fun ⟨ctl, u⟩ hu => ?_
        dsimp only
        split
        · exact Gives.ok (jsubResult_canon hu _ _ _)
        · split
          · exact Gives.stall
          · exact Gives.ok (jsubResult_canon (Canon.drawn (Canon.mapCluster (lockRanges_canon hu ‹_›) _ _)) _ _ _)

theorem execJcancel_lands (h : Canon s) (d a : Nat) : Lands (execJcancel d a s) := by
  refine Lands.commit h ?_
  refine Gives.bind (edgeGuard_passes s _ _) fun _ _ => Gives.ok ?_
  split
  · split
    · exact Canon.complete (Canon.wrX (h.completeJob _ _ _ _ _) _ _ _)
    · exact Canon.complete (Canon.wrX (h.completeJob _ _ _ _ _) _ _ _)
    · exact Canon.complete (Canon.wrX (Canon.completeJob (cancelPlan_canon h _ _ _) _ _ _ _ _) _ _ _)
  · exact Canon.complete (h.wrX _ _ _)

end

end Sys2Proof.Claims
end

section
/-! PROOF. Streams and near memory keep memory in its canonical form (O40). -/

set_option Elab.async false

namespace Sys2Proof.Claims

open Machine

section
variable {s : State}

/-! ### Streams -/

theorem readStrip_canon {t : State} (h : Canon s) {a : Agent} {st : Stream} {n : Nat} {x : VWord × LabelWord}
    (e : s.readStrip a st n = .ok (x, t)) : Canon t := by
  unfold State.readStrip at e
  obtain ⟨⟨p, u⟩, hp, e⟩ := bind_ok e
  obtain ⟨_, _, e⟩ := bind_ok e
  obtain ⟨_, _, e⟩ := bind_ok e
  obtain ⟨_, _, e⟩ := bind_ok e
  have hu : Canon u := h.of_dev (translate_only hp).dev
  obtain ⟨-, rfl⟩ := Prod.mk.inj (Except.ok.inj e)
  exact cacheLine_canon (found_canon hu a p) p

theorem execSmode_lands (h : Canon s) (v a : Nat) : Lands (execSmode v a s) := by
  refine Lands.commit h ?_
  refine Gives.bind (edgeGuard_passes s _ _) fun _ _ => ?_
  dsimp only
  refine Gives.ite Gives.trap (Gives.ite Gives.trap ?_)
  exact Gives.bind (formConj_gives h _) fun ⟨_, _⟩ hu => Gives.done (Canon.mapCore hu _)

theorem execStreamStripFetch_lands (h : Canon s) (cl core v : Nat) : Lands (execStreamStripFetch cl core v s) := by
  refine engineRuns_lands h ?_
  split
  · exact h
  · split
    · exact h
    · split
      · exact h
      · exact Canon.mapCoreAt (readStrip_canon h ‹_›) _ _ _

/-! ### Row operations -/

theorem rowAlign_passes (s : State) (ops : List (RowRole × Word)) : Gives (fun _ => True) (s.rowAlign ops) := by
  induction ops with
  | nil => exact Gives.ok trivial
  | cons o ops ih => exact Gives.ite Gives.trap ih

theorem rowTranslate_gives (ops : List (RowRole × Word)) : ∀ {s : State}, Canon s →
    Gives (fun x => Canon x.2) (s.rowTranslate ops) := by
  induction ops with
  | nil => exact fun h => Gives.ok h
  | cons o ops ih =>
    intro s h
    unfold State.rowTranslate
    refine Gives.ite (ih h) ?_
    refine Gives.bind (translate_gives h s _ _ _) fun ⟨p, t⟩ ht => ?_
    exact Gives.bind (ih ht) fun ⟨_, _⟩ hu => Gives.ok hu

theorem rowPermit_passes (s : State) (ps : List (RowRole × Place)) : Gives (fun _ => True) (s.rowPermit ps) := by
  induction ps with
  | nil => exact Gives.ok trivial
  | cons p ps ih => exact Gives.bind (check_passes s _) fun _ _ => ih

theorem Canon.takeId (h : Canon s) : Canon s.takeId.2 := h

theorem enqueueRow_canon (h : Canon s) (kind : RowKind) (k : Nat) (ctl : LabelWord) (ps : List (RowRole × Place))
    (locks : List Nat) : Canon (s.enqueueRow kind k ctl ps locks) :=
  Canon.complete (h.takeId.mapCluster _ _)

theorem issueRow_lands (h : Canon s) (kind : RowKind) (k a : Nat) (inputs : List (RowRole × Nat)) :
    Lands (s.issueRow kind k a inputs) := by
  refine Lands.commit h ?_
  refine Gives.bind (edgeGuard_passes s _ _) fun _ _ => ?_
  refine Gives.bind (rowAlign_passes s _) fun _ _ => ?_
  refine Gives.bind (inboxCheck_passes s _) fun _ _ => ?_
  refine Gives.bind (rowTranslate_gives _ h) fun ⟨ps, t⟩ ht => ?_
  refine Gives.bind (rowPermit_passes s _) fun _ _ => ?_
  refine Gives.bind (formConj_gives ht _) fun ⟨ctl, u⟩ hu => ?_
  dsimp only
  refine Gives.ite Gives.stall ?_
  split
  · exact Gives.stall
  · exact Gives.ok (enqueueRow_canon (lockRanges_canon hu ‹_›) _ _ _ _ _)

theorem issuePromo_lands (h : Canon s) (kind : RowKind) (k a : Nat) : Lands (s.issuePromo kind k a) := by
  refine Lands.commit h ?_
  refine Gives.bind (edgeGuard_passes s _ _) fun _ _ => ?_
  refine Gives.bind (classRule_gives s _) fun _ _ => ?_
  refine Gives.bind (rowAlign_passes s _) fun _ _ => ?_
  refine Gives.bind (inboxCheck_passes s _) fun _ _ => ?_
  refine Gives.bind (rowTranslate_gives _ h) fun ⟨ps, t⟩ ht => ?_
  exact Gives.bind (rowPermit_passes s _) fun _ _ => Gives.ok (enqueueRow_canon ht _ _ _ _ _)

theorem evictAll_mem (lines : List Nat) : ∀ d : Device, (lines.foldl Device.evict d).mem = d.mem := by
  induction lines with
  | nil => exact fun _ => rfl
  | cons l ls ih => exact fun d => ih (d.evict l)

theorem evictSome_canon (h : Canon s) (lines : List (Nat × Bool)) : Canon (s.evictSome lines) := by
  unfold State.evictSome
  dsimp only
  split
  · exact h
  · unfold Canon
    simp only [State.mapDev_dev, evictAll_mem]
    exact h

theorem settleAll_canon (ps : List Place) (h : Canon s) : Canon (ps.foldl (·.settle .device ·) s) :=
  foldl_keeps (P := Canon) (fun _ _ ht => settle_wf _ _ _ ht) ps h

theorem rowWord_canon {t : State} (h : Canon s) {cl : Nat} {op : RowOp} {ws : List LabelWord} {w : LabelWord}
    (e : s.rowWord cl op ws = .ok (w, t)) : Canon t := by
  unfold State.rowWord at e
  dsimp only at e
  split at e
  · cases e
    exact h
  · split at e
    · cases e
    · rename_i hf
      cases e
      exact h.of_dev (engineForm_dev hf)

theorem rowLines_canon (cl : Nat) (op : RowOp) (dst : RowOperand) (inputs : List RowOperand) (js : List Nat) :
    ∀ {s t : State} {ls : List RowLine}, Canon s → s.rowLines cl op dst inputs js = .ok (ls, t) → Canon t := by
  induction js with
  | nil =>
    intro s t ls h e
    cases e
    exact h
  | cons j js ih =>
    intro s t ls h e
    unfold State.rowLines at e
    extract_lets ps out barred u ws data bad at e
    have hu : Canon u := settleAll_canon ps h
    split at e
    · cases e
    · rename_i hw
      split at e
      · cases e
      · rename_i hl
        have hv := ih (rowWord_canon hu hw) hl
        split at e
        · cases e
        · split at e
          · cases e
          · cases e
            exact hv

theorem noteTier_canon (h : Canon s) (code : Nat) (locs : List Nat) : Canon (s.noteTier code locs) := by
  unfold State.noteTier
  split
  · unfold Canon
    simp only [State.mapDev_dev, Device.cxlError_mem]
    exact h
  · exact h

theorem finishRow_canon (h : Canon s) (cl : Nat) (op : RowOp) (code : Nat) (f : RowFlags) :
    Canon (s.finishRow cl op code f) := finishRow_wf s cl op code f h

theorem execRowOpExecute_lands (h : Canon s) (cl op : Nat) : Lands (execRowOpExecute cl op s) := by
  refine engineRuns_lands h ?_
  split
  · exact h
  · split
    · exact h
    · split
      · exact h
      · dsimp only
        have hf := evictSome_canon h
        split
        · exact finishRow_canon (noteTier_canon (hf _) _ _) _ _ _ _
        · exact finishRow_canon (noteTier_canon (putRowLines_wf _ _ (rowLines_canon _ _ _ _ _ (hf _) ‹_›)) _ _) _ _ _ _

theorem withDevice_canon (h : Canon s) {d : Device} (hd : d.mem = s.dev.mem) : Canon (s.mapDev fun _ => d) := by
  unfold Canon
  rw [State.mapDev_dev, hd]
  exact h

theorem finishPromo_canon (h : Canon s) (cl : Nat) (r : RowOp) : Canon (s.finishPromo cl r) := by
  unfold State.finishPromo
  split
  · exact finishRow_canon (withDevice_canon h (promote_mem _ _ _ _)) _ _ _ _
  · exact finishRow_canon (withDevice_canon h (demote_mem _ _)) _ _ _ _
  · exact h

theorem execRpromoComplete_lands (h : Canon s) (cl op : Nat) : Lands (execRpromoComplete cl op s) := by
  refine engineRuns_lands h ?_
  split
  · exact h
  · exact finishPromo_canon h _ _

theorem execRdemoComplete_lands (h : Canon s) (cl op : Nat) : Lands (execRdemoComplete cl op s) := by
  refine engineRuns_lands h ?_
  split
  · exact h
  · exact finishPromo_canon h _ _

/-! ### Base-die reduce -/

theorem translateAll_gives (h : Canon s) (u : State) (a : Agent) (acc : Access) (vas : List Word) :
    Gives (fun x => Canon x.2) (u.check (s.translateAll a acc vas)) :=
  Gives.check u fun _ hx => h.of_dev (translateAll_only _ _ _ hx).dev

theorem plainRead_gives (h : Canon s) (ps : List (Word × Nat)) : Gives (fun x => Canon x.2.2) (s.plainRead ps) := by
  unfold State.plainRead
  refine Gives.bind (translateAll_gives h s _ _ _) fun ⟨qs, t⟩ ht => ?_
  refine Gives.bind (check_passes s _) fun _ _ => ?_
  refine Gives.bind (check_passes s _) fun _ _ => ?_
  refine Gives.bind (check_passes s _) fun _ _ => ?_
  have hf : Canon (qs.foldl (·.found s.me ·) t) := foundAll_wf _ _ _ ht
  exact Gives.bind (inHand_passes hf) fun _ _ => Gives.ok hf

theorem execIred_lands (h : Canon s) (fast : Bool) (k a : Nat) : Lands (execIred fast k a s) := by
  refine Lands.commit h ?_
  refine Gives.bind (edgeGuard_passes s _ _) fun _ _ => ?_
  refine Gives.bind (readDescriptor_gives h _) fun ⟨raw, lw, t⟩ ht => ?_
  dsimp only
  refine Gives.ite Gives.trap ?_
  refine Gives.bind (inboxCheck_passes s _) fun _ _ => ?_
  refine Gives.bind (plainRead_gives ht _) fun ⟨bs, ws, u⟩ hu => ?_
  dsimp only
  refine Gives.ite Gives.trap ?_
  refine Gives.bind (translateAll_gives hu s _ _ _) fun ⟨tp, v⟩ hv => ?_
  refine Gives.bind (translateAll_gives hv s _ _ _) fun ⟨dp, w⟩ hw => ?_
  refine Gives.bind (check_passes s _) fun _ _ => ?_
  refine Gives.bind (check_passes s _) fun _ _ => ?_
  dsimp only
  refine Gives.ite Gives.trap ?_
  refine Gives.bind (formConj_gives hw _) fun ⟨ctl, x⟩ hx => ?_
  dsimp only
  refine Gives.ite Gives.stall ?_
  split
  · exact Gives.stall
  · exact Gives.done (Canon.mapCluster (lockRanges_canon hx ‹_›).takeId _ _)

theorem iredRead_canon (cl : Nat) (op : Ired) (jobs : List (List (List Place) × Place × Nat)) :
    ∀ {s : State}, Canon s → Canon (s.iredRead cl op jobs).2.2.2 := by
  induction jobs with
  | nil => exact fun h => h
  | cons j jobs ih =>
    intro s h
    obtain ⟨rows, dst, j⟩ := j
    rw [State.iredRead.eq_def]
    dsimp only
    split
    · rename_i w t hr
      refine ih ?_
      obtain ⟨⟨w', fit, u⟩, hfit, hr⟩ := bind_ok hr
      have hu : Canon u := h.of_dev (engineFit_dev hfit)
      dsimp only at hr
      split at hr
      · exact hu.of_dev (partialLabel_dev hr)
      · obtain ⟨_, _, hr⟩ := bind_ok hr
        cases hr
        exact hu
    · exact ih h
    · exact ih h
    · exact ih h

theorem putIredLine_canon (h : Canon s) (l : IredLine) : Canon (s.putIredLine l) := by
  unfold State.putIredLine
  dsimp only
  refine (engineBytes_ok _ _ _ _).2 ?_
  split
  · exact setRawLabel_canon h _ _
  · exact h

theorem seenLine_canon (h : Canon s) (base : State) (line : Nat) : Canon (base.seenLine s line) := by
  unfold State.seenLine
  split
  · exact h
  · exact h

theorem finishIred_canon (h : Canon s) (cl : Nat) (r : Ired) (code : Nat) : Canon (s.finishIred cl r code) :=
  Canon.bumpAt (Canon.mapCluster (Canon.unlock (h.statusWrite _ _ _) _ _) _ _) _ _ _ _ _

theorem execIredExecute_lands (h : Canon s) (cl op : Nat) : Lands (execIredExecute cl op s) := by
  refine engineRuns_lands h ?_
  split
  · exact h
  · rename_i r _
    extract_lets place bags all t jobs poisoned
    have ht : Canon t := settleAll_canon all h
    have hread := iredRead_canon cl r jobs ht
    clear_value t
    have hseen {u : State} (hu : Canon u) : Canon (if r.fast then
        ((all.map fun p => lineOf p.loc).eraseDups).foldl (fun u l => t.seenLine u l) u else u) := by
      split
      · exact foldl_keeps (P := Canon) (fun _ _ hv => seenLine_canon hv _ _) _ hu
      · exact hu
    dsimp only
    split
    · exact finishIred_canon (Canon.drawn (foldl_keeps (P := Canon) (fun _ _ hv => putIredLine_canon hv _) _ (hseen hread))) _ _ _
    · exact finishIred_canon (noteTier_canon (Canon.drawn (hseen ht)) _ _) _ _ _

end

end Sys2Proof.Claims
end

section
/-! PROOF. Edge programs keep memory in its canonical form (O40). -/

set_option Elab.async false

namespace Sys2Proof.Claims

open Machine

/-- What a step of an engine makes where it does not fail. -/
structure Makes {ε α : Type} (q : α → Prop) (r : Except ε α) : Prop where
  out : ∀ {a}, r = .ok a → q a

section
variable {ε α β : Type} {p q : α → Prop}

theorem Makes.ok {a : α} (h : q a) : Makes q (.ok a : Except ε α) := ⟨fun e => by cases e; exact h⟩

theorem Makes.fail {e : ε} : Makes q (.error e : Except ε α) := ⟨nofun⟩

theorem Makes.bind {r : β → Prop} {x : Except ε α} {f : α → Except ε β} (hx : Makes p x) (hf : ∀ a, p a → Makes r (f a)) :
    Makes r (x >>= f) := by
  cases x with
  | ok a => exact hf a (hx.out rfl)
  | error e => exact Makes.fail

theorem Makes.any (x : Except ε α) : Makes (fun _ => True) x := ⟨fun _ => trivial⟩

theorem Makes.ite {c : Prop} [Decidable c] {x y : Except ε α} (hx : Makes q x) (hy : Makes q y) :
    Makes q (if c then x else y) := by
  split
  · exact hx
  · exact hy

theorem Makes.liftRun {x : Except EngineFail α} (h : Makes q x) : Makes q (liftRun x) := by
  cases x with
  | ok a => exact Makes.ok (h.out rfl)
  | error e => exact Makes.fail

theorem Makes.liftDeny {x : Except Deny α} (h : Makes q x) : Makes q (liftDeny x) := by
  cases x with
  | ok a => exact Makes.ok (h.out rfl)
  | error e => exact Makes.fail

theorem Makes.liftAccess {x : Except Deny α} (h : Makes q x) : Makes q (liftAccess x) := h.liftDeny.liftRun

end

section
variable {s : State}

/-! ### Accesses of engines -/

theorem enginePlace_makes (h : Canon s) (a : Agent) (acc : Access) (va : Word) :
    Makes (fun x => Canon x.2) (s.enginePlace a acc va) := ⟨fun e => (enginePlace_ok e).2 h⟩

theorem engineRead_makes (h : Canon s) (a : Agent) (va : Word) (n : Nat) :
    Makes (fun x => Canon x.2.2) (s.engineRead a va n) := ⟨fun e => (engineRead_ok e).2 h⟩

theorem readSpan_makes (h : Canon s) (a : Agent) (va : Word) (n : Nat) :
    Makes (fun x => Canon x.2.2) (s.readSpan a va n) := ⟨fun e => (readSpan_ok e).2 h⟩

theorem writeSpan_makes (h : Canon s) (a : Agent) (core : Nat) (nl : Label) (va : Word) (bs : List Byte) :
    Makes Canon (s.writeSpan a core nl va bs) := ⟨fun e => writeSpan_wf e h⟩

theorem enginePartial_makes (h : Canon s) (a : Agent) (core : Nat) (p : Place) (bs : List Byte) (nl : Label) :
    Makes Canon (s.enginePartial a core p bs nl) := ⟨fun e => enginePartial_wf e h⟩

theorem engineForm_makes (h : Canon s) (cl core : Nat) (l : Label) :
    Makes (fun x => Canon x.2) (s.engineForm cl core l) := ⟨fun e => h.of_dev (engineForm_dev e)⟩

theorem engineFit_makes (h : Canon s) (cl core : Nat) (l : Label) :
    Makes (fun x => Canon x.2.2) (s.engineFit cl core l) := ⟨fun e => h.of_dev (engineFit_dev e)⟩

theorem Canon.engineBytes (h : Canon s) (a : Agent) (p : Place) (bs : List Byte) : Canon (s.engineBytes a p bs) :=
  (engineBytes_ok s a p bs).2 h

/-! ### EDGERUN and the returns of an invocation -/

theorem execEdgerun_lands (h : Canon s) (k a : Nat) : Lands (execEdgerun k a s) := by
  refine Lands.commit h ?_
  refine Gives.ite (Gives.done (h.mapRegs _).drawn) (Gives.ite (Gives.ok (h.drain.parkAt _)) ?_)
  refine Gives.bind (edgeGuard_passes s _ _) fun _ _ => ?_
  dsimp only
  refine Gives.ite Gives.trap (Gives.ite Gives.trap ?_)
  refine Gives.bind (check_passes s _) fun _ _ => ?_
  refine Gives.bind (plainRead_gives h _) fun ⟨bs, ws, t⟩ ht => ?_
  dsimp only
  refine Gives.ite Gives.trap ?_
  refine Gives.bind (inboxCheck_passes s _) fun _ _ => ?_
  refine Gives.ite Gives.trap (Gives.ite Gives.trap ?_)
  refine Gives.bind (formConj_gives ht _) fun ⟨ctl, u⟩ hu => ?_
  exact Gives.ok (Canon.parkAt (Canon.mapCore (Canon.mapCluster (Canon.drain hu) _ _) _) _)

theorem invocation_passes (s : State) : Gives (fun _ => True) s.invocation := by
  unfold State.invocation
  split
  · split
    · exact Gives.ok trivial
    · exact Gives.trap
  · exact Gives.trap

theorem Canon.mapMyRun (h : Canon s) (f : EdgeRun → EdgeRun) : Canon (s.mapMyRun f) := h.mapCluster _ _

theorem execEdgeret_lands (h : Canon s) (a : Nat) : Lands (execEdgeret a s) := by
  refine Lands.commit h ?_
  refine Gives.bind (invocation_passes s) fun i _ => ?_
  refine Gives.bind (formConj_gives h.drain _) fun ⟨w, t⟩ ht => ?_
  dsimp only
  exact Gives.ite Gives.trap (Gives.ok (Canon.mapCore (Canon.mapMyRun ht _) _))

theorem execEdgeskip_lands (h : Canon s) : Lands (execEdgeskip s) :=
  Lands.commit h (Gives.bind (invocation_passes s) fun _ _ => Gives.ok (h.drain.mapCore _))

theorem execEdgedone_lands (h : Canon s) : Lands (execEdgedone s) :=
  Lands.commit h (Gives.bind (invocation_passes s) fun _ _ => Gives.ok (Canon.mapCore (h.drain.mapMyRun _) _))

/-! ### What the unit reads and writes -/

theorem runWord_makes (h : Canon s) (cl : Nat) (r : EdgeRun) (base : Word) (i : Nat) :
    Makes (fun x => Canon x.2.2) (s.runWord cl r base i) := (engineRead_makes h _ _ _).liftAccess

theorem edgeBounds_makes (h : Canon s) (cl : Nat) (r : EdgeRun) (base : Word) (u : Nat) :
    Makes (fun x => Canon x.2.2) (s.edgeBounds cl r base u) := by
  unfold State.edgeBounds
  refine Makes.bind (runWord_makes h cl r base u) fun ⟨lo, _, t⟩ ht => ?_
  refine Makes.bind (runWord_makes ht cl r base (u + 1)) fun ⟨hi, _, v⟩ hv => ?_
  dsimp only
  exact Makes.ite Makes.fail (Makes.ok hv)

theorem readSet_makes (h : Canon s) (cl : Nat) (r : EdgeRun) (base : Word) :
    Makes (fun x => Canon x.2) (s.readSet cl r base) := by
  unfold State.readSet
  exact Makes.bind (readSpan_makes h _ _ _).liftAccess fun ⟨_, _, _⟩ ht => Makes.ok ht

theorem readBit_makes (h : Canon s) (cl : Nat) (r : EdgeRun) (base : Word) (v : Nat) :
    Makes (fun x => Canon x.2) (s.readBit cl r base v) := by
  unfold State.readBit
  exact Makes.bind (engineRead_makes h _ _ _).liftAccess fun ⟨_, _, _⟩ ht => Makes.ok ht

theorem writeBits_makes (cl : Nat) (r : EdgeRun) (base : Word) (value : Bool) (vs bs : List Nat) : ∀ {s : State}, Canon s →
    Makes Canon (s.writeBits cl r base value vs bs) := by
  induction bs with
  | nil => exact fun h => Makes.ok h
  | cons b bs ih =>
    intro s h
    unfold State.writeBits
    refine Makes.bind (engineRead_makes h _ _ _).liftAccess fun ⟨_, _, t⟩ ht => ?_
    exact Makes.bind (writeSpan_makes ht _ _ _ _ _).liftRun fun u hu => ih hu

theorem ljoinStore_makes (h : Canon s) (a : Agent) (core : Nat) (p : Place) (v : Nat) (l : Label) :
    Makes (fun x => Canon x.2) (s.ljoinStore a core p v l) := by
  unfold State.ljoinStore
  refine Makes.bind (engineFit_makes h _ _ _) fun ⟨w, fit, t⟩ ht => ?_
  dsimp only
  refine Makes.ite ?_ (Makes.ok (Canon.engineBytes (setRawLabel_canon ht _ _) _ _ _))
  exact Makes.bind (Makes.any _) fun _ _ => Makes.ok (Canon.engineBytes ht _ _ _)

theorem combineAt_makes (h : Canon s) (cl : Nat) (r : EdgeRun) (v : Nat) (c : Word) (w : LabelWord) :
    Makes (fun x => Canon x.2.2) (s.combineAt cl r v c w) := by
  unfold State.combineAt
  refine Makes.bind (enginePlace_makes h _ _ _).liftAccess fun ⟨p, t⟩ ht => ?_
  refine Makes.bind (Makes.any _) fun _ _ => ?_
  refine Makes.ite ?_ ?_
  · split
    · exact Makes.ok ht
    · exact Makes.bind (ljoinStore_makes ht _ _ _ _ _).liftRun fun ⟨_, _⟩ hu => Makes.ok hu
  · exact Makes.bind (enginePartial_makes ht _ _ _ _ _).liftRun fun _ hu => Makes.ok hu

theorem openAcc_makes (h : Canon s) (cl : Nat) (r : EdgeRun) (v : Nat) : Makes (fun x => Canon x.2) (s.openAcc cl r v) := by
  unfold State.openAcc
  exact Makes.bind (engineRead_makes h _ _ _).liftAccess fun ⟨_, _, _⟩ ht => Makes.ok ht

theorem closeAcc_makes (h : Canon s) (cl : Nat) (r : EdgeRun) (v : Nat) (x : PullAcc) :
    Makes (fun y => Canon y.2) (s.closeAcc cl r v x) := by
  unfold State.closeAcc
  dsimp only
  refine Makes.ite (Makes.ok h) ?_
  refine Makes.bind (enginePlace_makes h _ _ _).liftAccess fun ⟨p, t⟩ ht => ?_
  refine Makes.ite ?_ ?_
  · refine Makes.bind (Makes.any _) fun _ _ => ?_
    exact Makes.bind (ljoinStore_makes ht _ _ _ _ _).liftRun fun ⟨_, _⟩ hu => Makes.ok hu
  · exact Makes.bind (enginePartial_makes ht _ _ _ _ _).liftRun fun _ hu => Makes.ok hu

/-! ### Supersteps -/

theorem degreeSum_makes (cl : Nat) (r : EdgeRun) (base : Word) (us : List Nat) : ∀ {s : State}, Canon s →
    Makes (fun x => Canon x.2) (s.degreeSum cl r base us) := by
  induction us with
  | nil => exact fun h => Makes.ok h
  | cons u us ih =>
    intro s h
    unfold State.degreeSum
    refine Makes.bind (edgeBounds_makes h _ _ _ _) fun ⟨_, _, t⟩ ht => ?_
    exact Makes.bind (ih ht) fun ⟨_, _⟩ hv => Makes.ok hv

theorem direction_makes (h : Canon s) (cl : Nat) (r : EdgeRun) (active unf : List Nat) :
    Makes (fun x => Canon x.2) (s.direction cl r active unf) := by
  unfold State.direction
  refine Makes.ite (Makes.ok h) (Makes.ite (Makes.ok h) (Makes.ite (Makes.ok h) ?_))
  refine Makes.bind (degreeSum_makes _ _ _ _ h) fun ⟨_, t⟩ ht => ?_
  exact Makes.bind (degreeSum_makes _ _ _ _ ht) fun ⟨_, _⟩ hu => Makes.ok hu

theorem snapshot_makes (cl : Nat) (r : EdgeRun) (us : List Nat) : ∀ {s : State}, Canon s →
    Makes (fun x => Canon x.2) (s.snapshot cl r us) := by
  induction us with
  | nil => exact fun h => Makes.ok h
  | cons u us ih =>
    intro s h
    unfold State.snapshot
    refine Makes.bind (engineRead_makes h _ _ _).liftAccess fun ⟨_, _, t⟩ ht => ?_
    exact Makes.bind (ih ht) fun ⟨_, _⟩ hv => Makes.ok hv

theorem clearPieces_makes (a : Agent) (core : Nat) (nl : Label) (ps : List (Word × Nat)) : ∀ {s : State}, Canon s →
    Makes Canon (s.clearPieces a core nl ps) := by
  induction ps with
  | nil => exact fun h => Makes.ok h
  | cons p ps ih =>
    intro s h
    unfold State.clearPieces
    refine Makes.bind (enginePlace_makes h _ _ _).liftDeny fun ⟨_, t⟩ ht => ?_
    exact Makes.bind (enginePartial_makes ht _ _ _ _ _) fun _ hu => ih hu

theorem beginStep_makes (h : Canon s) (cl : Nat) (r : EdgeRun) : Makes (fun x => Canon x.2) (s.beginStep cl r) := by
  unfold State.beginStep
  refine Makes.bind (readSet_makes h _ _ _) fun ⟨active, t⟩ ht => ?_
  refine Makes.bind (readSet_makes ht _ _ _) fun ⟨unf, u⟩ hu => ?_
  refine Makes.bind (direction_makes hu _ _ _ _) fun ⟨pull, v⟩ hv => ?_
  refine Makes.bind (snapshot_makes _ _ _ hv) fun ⟨snap, w⟩ hw => ?_
  exact Makes.bind (clearPieces_makes _ _ _ _ hw).liftRun fun _ hx => Makes.ok hx

theorem invokeEdge_makes (h : Canon s) (cl core : Nat) (r : EdgeRun) (i : Invocation) :
    Makes Canon (s.invokeEdge cl core r i) := by
  unfold State.invokeEdge
  dsimp only
  refine Makes.bind (p := fun x => Canon x.2.2) (Makes.ite (Makes.ok h) (runWord_makes h _ _ _ _)) fun ⟨x7, w7, t⟩ ht => ?_
  dsimp only
  refine Makes.bind (engineForm_makes ht _ _ _).liftRun fun ⟨l7, u⟩ hu => ?_
  refine Makes.bind (engineForm_makes hu _ _ _).liftRun fun ⟨l8, v⟩ hv => ?_
  exact Makes.ok (Canon.mapCoreAt (Canon.drawn hv) _ _ _)

theorem nextEdge_makes (cl : Nat) (r : EdgeRun) (left : Nat) : ∀ {s : State} (pos : Nat), Canon s →
    Makes (fun x => Canon x.2) (s.nextEdge cl r left pos) := by
  induction left with
  | zero => exact fun _ h => Makes.ok h
  | succ left ih =>
    intro s pos h
    unfold State.nextEdge
    refine Makes.bind (runWord_makes h _ _ _ _) fun ⟨v, _, t⟩ ht => ?_
    dsimp only
    refine Makes.ite Makes.fail ?_
    refine Makes.bind (p := fun x => Canon x.2) (Makes.ite (Makes.ok ht) (readBit_makes ht _ _ _ _)) fun ⟨sel, u⟩ hu => ?_
    exact Makes.ite (Makes.ok hu) (ih _ hu)

theorem takeGiven_makes (h : Canon s) (cl core : Nat) (r : EdgeRun) (v : Nat) (c : Word) (w : LabelWord) :
    Makes (fun x => Canon x.2) (s.takeGiven cl core r v c w) := by
  unfold State.takeGiven
  dsimp only
  split
  · split
    · exact Makes.ok h
    · exact Makes.ok h
  · exact Makes.bind (combineAt_makes h _ _ _ _ _) fun ⟨_, _, _⟩ hu => Makes.ok hu

/-- What one action of the unit comes to. -/
def actCanon : Option (EdgeRun × State) → Prop
  | none => True
  | some x => Canon x.2

theorem unitAct_makes (h : Canon s) (cl core : Nat) (r : EdgeRun) : Makes actCanon (s.unitAct cl core r) := by
  unfold State.unitAct
  split
  · exact Makes.bind (takeGiven_makes h _ _ _ _ _ _) fun _ hx => Makes.ok hx
  · split
    · refine Makes.bind (nextEdge_makes _ _ _ _ h) fun ⟨edge, t⟩ ht => ?_
      dsimp only
      split
      · exact Makes.bind (invokeEdge_makes ht _ _ _ _) fun _ hu => Makes.ok hu
      · split
        · exact Makes.ok ht
        · exact Makes.bind (closeAcc_makes ht _ _ _ _) fun ⟨_, _⟩ hu => Makes.ok hu
    · split
      · exact Makes.ok trivial
      · refine Makes.bind (edgeBounds_makes h _ _ _ _) fun ⟨lo, hi, t⟩ ht => ?_
        dsimp only
        refine Makes.ite ?_ (Makes.ok ht)
        exact Makes.bind (openAcc_makes ht _ _ _) fun ⟨_, _⟩ hu => Makes.ok hu

theorem unitLoop_canon (cl core fuel : Nat) : ∀ (r : EdgeRun) {s : State}, Canon s →
    Canon (State.unitLoop cl core fuel r s).2 := by
  induction fuel with
  | zero => exact fun _ _ h => h
  | succ fuel ih =>
    intro r s h
    unfold State.unitLoop
    split
    · exact h
    · split
      · exact h
      · exact h
      · rename_i r' t e
        exact ih r' ((unitAct_makes h cl core r).out e)

theorem Canon.arriveFor (h : Canon s) (cl : Nat) (r : EdgeRun) (core : Nat) : Canon (s.arriveFor cl r core) :=
  h.of_dev (arriveFor_kept s cl r core).1

theorem Canon.arriveAll (h : Canon s) (cl : Nat) (r : EdgeRun) (or err : Bool) : Canon (s.arriveAll cl r or err) :=
  Canon.mapCluster (foldl_keeps (P := Canon) (fun _ _ ht => ht.arriveFor _ _ _) _ h) _ _

theorem Canon.putRun (h : Canon s) (cl : Nat) (r q : EdgeRun) : Canon (s.putRun cl r q) := h.mapCluster _ _
theorem Canon.dropRun (h : Canon s) (cl : Nat) (r : EdgeRun) : Canon (s.dropRun cl r) := h.mapCluster _ _

theorem execEdgeInvocation_lands (h : Canon s) (cl core : Nat) : Lands (execEdgeInvocation cl core s) := by
  refine engineRuns_lands h ?_
  split
  · exact h
  · rename_i r _
    split
    · exact h
    · split
      · have ht := (unitLoop_canon cl core (2 ^ 34) r h).putRun cl r (State.unitLoop cl core (2 ^ 34) r s).1
        dsimp only
        split
        · exact ht.arriveFor _ _ _
        · exact ht
      · split
        · exact h.arriveFor _ _ _
        · exact h
      all_goals exact h

theorem startRun_makes (h : Canon s) (cl : Nat) (r : EdgeRun) : Makes actCanon (s.startRun cl r) := by
  unfold State.startRun
  dsimp only
  refine Makes.bind (engineForm_makes h _ _ _).liftRun fun ⟨ctl, t⟩ ht => ?_
  refine Makes.bind (runWord_makes ht _ _ _ _) fun ⟨out, _, u⟩ hu => ?_
  refine Makes.bind (runWord_makes hu _ _ _ _) fun ⟨inn, _, v⟩ hv => ?_
  dsimp only
  split
  · exact Makes.ok trivial
  · exact Makes.ok (lockRanges_canon hv ‹_›)

theorem execEdgeRunStart_lands (h : Canon s) (cl : Nat) : Lands (execEdgeRunStart cl s) := by
  refine engineRuns_lands h ?_
  split
  · exact h
  · split
    · exact h
    · exact h
    · rename_i r _ _ r' t e
      exact Canon.putRun ((startRun_makes h cl r).out e) _ _ _

theorem Canon.spoilWork (h : Canon s) (cl : Nat) (r : EdgeRun) : Canon (s.spoilWork cl r) :=
  foldl_keeps (P := Canon) (fun _ _ ht => ht.statusWrite _ _ _) _ h.drawn

theorem Canon.closeRun (h : Canon s) (cl : Nat) (r : EdgeRun) : Canon (s.closeRun cl r) := by
  unfold State.closeRun
  extract_lets t u
  have ht : Canon t := by
    unfold t
    split
    · exact h
    · exact h.spoilWork _ _
  exact foldl_keeps (P := Canon) (fun _ _ hv => hv.bumpAt _ _ _ _ _) _ ((ht.statusWrite _ _ _).unlock _ _)

theorem Canon.finishRun (h : Canon s) (cl : Nat) (r : EdgeRun) : Canon (s.finishRun cl r) := by
  unfold State.finishRun
  extract_lets t
  have ht : Canon t := by
    unfold t
    split
    · exact h
    · exact h.closeRun _ _
  exact foldl_keeps (P := Canon) (fun _ _ hv => hv.mapCoreAt _ _ _) _ ht

theorem endStep_makes (h : Canon s) (cl : Nat) (r : EdgeRun) : Makes (fun x => Canon x.2) (s.endStep cl r) := by
  unfold State.endStep
  dsimp only
  refine Makes.bind (writeBits_makes _ _ _ _ _ _ h) fun t ht => ?_
  refine Makes.bind (writeBits_makes _ _ _ _ _ _ ht) fun u hu => ?_
  refine Makes.bind (readSet_makes hu _ _ _) fun ⟨unf, v⟩ hv => ?_
  exact Makes.ok (Canon.arriveAll hv _ _ _ _)

theorem execSuperstep_lands (h : Canon s) (cl : Nat) : Lands (execSuperstep cl s) := by
  refine engineRuns_lands h ?_
  split
  · exact h
  · rename_i r _
    split
    · split
      · exact h
      · rename_i r' t e
        exact Canon.putRun ((beginStep_makes h cl r).out e) _ _ _
    · split
      · exact h
      · split
        · exact h
        · rename_i r' t e
          have ht : Canon t := (endStep_makes h cl r).out e
          split
          · exact (ht.dropRun _ _).finishRun _ _
          · exact ht.putRun _ _ _
    · split
      · exact h
      · split
        · exact (h.dropRun _ _).finishRun _ _
        · exact Canon.finishRun ((h.dropRun _ _).arriveAll _ _ _ _) _ _
    all_goals exact h

theorem execEdgeRunFault_lands (h : Canon s) (cl : Nat) : Lands (execEdgeRunFault cl s) := by
  refine engineRuns_lands h ?_
  split
  · exact h
  · exact h.putRun _ _ _
  · dsimp only
    split
    · exact (h.noteDeny _ _).putRun _ _ _
    · split
      · exact h
      · exact Canon.putRun (postRecord_canon h ‹_›) _ _ _

theorem Canon.closeRuns (h : Canon s) (cl : Nat) : Canon (s.closeRuns cl) := by
  refine foldl_keeps (P := Canon) (fun t r ht => ?_) _ h
  split
  · exact (ht.dropRun _ _).finishRun _ _
  · exact (ht.closeRun _ _).putRun _ _ _

theorem Canon.combineGiven (h : Canon s) (cl : Nat) : Canon (s.combineGiven cl) := by
  unfold State.combineGiven
  split
  · exact h
  · rename_i r _
    refine Canon.putRun (foldl_keeps (P := fun x : EdgeRun × State => Canon x.2) (fun x e hx => ?_) r.given (a := (r, s)) h) _ _ _
    split
    · rename_i y he
      exact (takeGiven_makes hx cl _ _ _ _ _).out he
    · exact hx

end

end Sys2Proof.Claims
end

section
/-! PROOF. The matrix engine keeps memory in its canonical form (O40). -/

set_option Elab.async false

namespace Sys2Proof.Claims

open Machine

section
variable {s : State}

/-! ### Leases -/

theorem Canon.mapMyEngine (h : Canon s) (f : MEngine → MEngine) : Canon (s.mapMyEngine f) := h.mapCluster _ _

theorem execMacq_lands (h : Canon s) (n : Nat) : Lands (execMacq n s) := by
  refine Lands.commit h ?_
  refine Gives.bind (edgeGuard_passes s _ _) fun _ _ => ?_
  split
  · exact Gives.done h
  · exact Gives.ok ((h.mapMyEngine _).parkAt _)

theorem execMrel_lands (h : Canon s) : Lands (execMrel s) := by
  refine Lands.next (Canon.complete ?_)
  split
  · exact h.mapMyEngine _
  · exact h

theorem execLeaseGrant_lands (h : Canon s) (cl crew : Nat) : Lands (execLeaseGrant cl crew s) := by
  refine engineRuns_lands h ?_
  split
  · exact Canon.mapCoreAt (h.mapCluster _ _) _ _ _
  · exact h

/-! ### Commands at issue -/

theorem takeDeferred_passes (s : State) : Gives (fun _ => True) s.takeDeferred := by
  unfold State.takeDeferred
  split
  · exact Gives.trap
  · exact Gives.ok trivial

theorem leaseCheck_passes (s : State) : Gives (fun _ => True) s.leaseCheck := Gives.ite (Gives.ok trivial) Gives.trap

theorem strideCheck_passes (s : State) (acc : Access) (base w : Word) : Gives (fun _ => True) (s.strideCheck acc base w) :=
  Gives.ite Gives.trap (Gives.ok trivial)

theorem Canon.resumeAside (h : Canon s) : Canon s.resumeAside := by
  unfold State.resumeAside
  dsimp only
  split
  · exact h
  · exact (h.mapMyEngine _).mapCore _

theorem enqueueCmd_gives (h : Canon s) (cmd : MCmd) (ws ls : List LabelWord) (ranges : List (Nat × Nat × Bool))
    (resumes : Bool) : Gives Canon (s.enqueueCmd cmd ws ls ranges resumes) := by
  unfold State.enqueueCmd
  extract_lets me cl t stalled
  have ht : Canon t := by
    unfold t
    split
    · exact h.resumeAside
    · exact h
  refine Gives.bind (formConj_gives ht _) fun ⟨ctl, u⟩ hu => ?_
  dsimp only
  split
  · exact Gives.hold ht
  · have hv : Canon _ := lockRanges_canon hu ‹_›
    refine Gives.ite (Gives.hold ht) (Gives.ok ?_)
    split
    · exact Canon.complete ((hv.mapMyEngine _).mapMyEngine _)
    · exact Canon.complete ((hv.mapMyEngine _).mapCore _)

theorem issueMma_lands (h : Canon s) (f : MForm) (shape acc : Nat) (z : Bool) (a b : Nat) (scales : List Nat) :
    Lands (s.issueMma f shape acc z a b scales) :=
  Lands.commit h (Gives.bind (edgeGuard_passes s _ _) fun _ _ => Gives.bind (takeDeferred_passes s) fun _ _ =>
    Gives.bind (leaseCheck_passes s) fun _ _ => Gives.bind (strideCheck_passes s _ _ _) fun _ _ =>
      Gives.bind (strideCheck_passes s _ _ _) fun _ _ => enqueueCmd_gives h _ _ _ _ _)

theorem execMzero_lands (h : Canon s) (acc : Nat) : Lands (execMzero acc s) :=
  Lands.commit h (Gives.bind (edgeGuard_passes s _ _) fun _ _ => Gives.bind (leaseCheck_passes s) fun _ _ =>
    enqueueCmd_gives h _ _ _ _ _)

theorem execMlda_lands (h : Canon s) (acc a : Nat) : Lands (execMlda acc a s) :=
  Lands.commit h (Gives.bind (edgeGuard_passes s _ _) fun _ _ => Gives.bind (leaseCheck_passes s) fun _ _ =>
    Gives.bind (strideCheck_passes s _ _ _) fun _ _ => enqueueCmd_gives h _ _ _ _ _)

theorem execMsta_lands (h : Canon s) (acc a : Nat) : Lands (execMsta acc a s) :=
  Lands.commit h (Gives.bind (edgeGuard_passes s _ _) fun _ _ => Gives.bind (takeDeferred_passes s) fun _ _ =>
    Gives.bind (leaseCheck_passes s) fun _ _ => Gives.bind (strideCheck_passes s _ _ _) fun _ _ =>
      Gives.bind (inboxCheck_passes s _) fun _ _ => enqueueCmd_gives h _ _ _ _ _)

theorem execMsync_lands (h : Canon s) : Lands (execMsync s) := by
  have hend : Gives Canon (do
      s.takeDeferred
      if s.resumeAside.matrixBusy s.focus.cl s.focus.core then .ok (s.resumeAside.parkAt .msync)
      else .ok s.resumeAside.complete) :=
    Gives.bind (takeDeferred_passes s) fun _ _ => Gives.ite (Gives.ok (h.resumeAside.parkAt _)) (Gives.done h.resumeAside)
  refine Lands.commit h ?_
  dsimp only
  refine Gives.ite ?_ hend
  exact Gives.bind (edgeGuard_passes s _ _) fun _ _ => hend

/-! ### Commands that run -/

theorem TilesOnly.canon {t : State} (r : TilesOnly s t) (h : Canon s) : Canon t := r.wf h

theorem execMatrixCommandComplete_lands (h : Canon s) (cl crew : Nat) : Lands (execMatrixCommandComplete cl crew s) := by
  refine engineRuns_lands h ?_
  split
  · exact h
  · rename_i e _ _
    have hr := (runCommand_tiles s cl e).canon h
    dsimp only
    split
    · exact h
    · split
      · exact Canon.of_dev ((hr.unlock _ _).mapCluster _ _) (spoilTiles_dev _ _ _)
      · exact (hr.unlock _ _).mapCluster _ _

theorem execMatrixHalt_lands (h : Canon s) (cl crew : Nat) : Lands (execMatrixHalt cl crew s) := by
  refine engineRuns_lands h ?_
  split
  · exact h
  · rename_i e _ _
    have hr := (runCommand_tiles s cl e).canon h
    dsimp only
    split
    · exact h
    · exact Canon.mapCoreAt (Canon.mapCluster (hr.noteDeny _ _) _ _) _ _ _

/-! ### Masks -/

theorem readQuarters_gives (pres : Nat) (qs : List Nat) : ∀ {s : State} (p : Word) (r : Nat), Canon s →
    Gives (fun x => Canon x.2.2) (s.readQuarters pres qs p r) := by
  induction qs with
  | nil => exact fun _ _ h => Gives.ok h
  | cons q qs ih =>
    intro s p r h
    unfold State.readQuarters
    refine Gives.ite ?_ (ih _ _ h)
    refine Gives.bind (loadOne_gives h _ _) fun ⟨v, w, t⟩ ht => ?_
    exact Gives.bind (ih _ _ ht) fun ⟨_, _, _⟩ hu => Gives.ok hu

theorem execMskld_lands (h : Canon s) (d a b : Nat) : Lands (execMskld d a b s) := by
  refine Lands.commit h ?_
  refine Gives.bind (check_passes s _) fun _ _ => ?_
  refine Gives.bind (loadOne_gives h _ _) fun ⟨nbr, w0, t⟩ ht => ?_
  refine Gives.bind (inHand_passes ht) fun _ _ => ?_
  dsimp only
  refine Gives.ite Gives.trap ?_
  refine Gives.bind (loadOne_gives ht _ _) fun ⟨idx, w1, u⟩ hu => ?_
  refine Gives.bind (inHand_passes hu) fun _ _ => ?_
  refine Gives.bind (readQuarters_gives _ _ _ _ hu) fun ⟨r, ws, v⟩ hv => ?_
  exact Gives.bind (setX_gives hv _ _ _) fun _ hw => Gives.done hw

end

end Sys2Proof.Claims
end

section
/-! PROOF. Remote access keeps memory in its canonical form (O40). -/

set_option Elab.async false

namespace Sys2Proof.Claims

open Machine

section
variable {s : State}

/-! ### Issue (R288 to R290) -/

theorem sideCheck_gives (h : Canon s) (acc : Access) (off len : Nat) : Gives Canon (s.sideCheck acc off len) := by
  unfold State.sideCheck
  dsimp only
  refine Gives.bind (translateAll_gives h s _ _ _) fun ⟨places, t⟩ ht => ?_
  refine Gives.bind (check_passes s _) fun _ _ => ?_
  refine Gives.bind (check_passes s _) fun _ _ => ?_
  exact Gives.bind (check_passes s _) fun _ _ => Gives.ok ht

theorem readIndex_gives (h : Canon s) (r : RemoteOp) : Gives (fun x => Canon x.2.2) (s.readIndex r) := by
  unfold State.readIndex
  refine Gives.ite ?_ (Gives.ok h)
  refine Gives.bind (sideCheck_gives h _ _ _) fun t ht => ?_
  refine Gives.bind (Gives.check s fun _ hx => (readSpan_makes ht _ _ _).out hx) fun ⟨_, _, u⟩ hu => ?_
  exact Gives.bind (inHand_passes hu) fun _ _ => Gives.ok hu

theorem farInbox_passes (s : State) (r : RemoteOp) : Gives (fun _ => True) (s.farInbox r) :=
  Gives.ite (inboxCheck_passes s _) (Gives.ok trivial)

theorem Canon.sendRemote (h : Canon s) (r : RemoteOp) : Canon (s.sendRemote r) := by
  unfold State.sendRemote
  split
  · exact withDevice_canon h rfl
  · exact h

theorem remoteIssue_lands (h : Canon s) (kind : RemoteKind) (k a : Nat) : Lands (s.remoteIssue kind k a) := by
  unfold State.remoteIssue
  dsimp only
  refine Lands.commit h ?_
  refine Gives.bind (edgeGuard_passes s _ _) fun _ _ => ?_
  refine Gives.ite Gives.trap ?_
  refine Gives.bind (inboxCheck_passes s _) fun _ _ => ?_
  refine Gives.bind (farInbox_passes s _) fun _ _ => ?_
  refine Gives.ite Gives.trap ?_
  refine Gives.bind (readIndex_gives h _) fun ⟨index, ws, t⟩ ht => ?_
  refine Gives.bind (farInbox_passes s _) fun _ _ => ?_
  refine Gives.ite Gives.trap ?_
  refine Gives.bind (sideCheck_gives ht _ _ _) fun u hu => ?_
  refine Gives.bind (formConj_gives hu _) fun ⟨ctl, v⟩ hv => ?_
  dsimp only
  refine Gives.ite (Gives.done hv) ?_
  split
  · exact Gives.stall
  · exact Gives.done (Canon.sendRemote (Canon.mapCluster (lockRanges_canon hv ‹_›).takeId _ _) _)

/-! ### Landing (R290, R291) -/

theorem Canon.endRemote (h : Canon s) (cl : Nat) (r : RemoteOp) : Canon (s.endRemote cl r) := h.of_dev (endRemote_dev _ _ _)

theorem Canon.setRemote (h : Canon s) (cl id : Nat) (f : RemoteOp → RemoteOp) : Canon (s.setRemote cl id f) := h.mapCluster _ _

theorem Canon.failRemote (h : Canon s) (cl : Nat) (r : RemoteOp) (code : Nat) : Canon (s.failRemote cl r code) :=
  failRemote_wf s cl r code h

theorem lockTarget_canon {t : State} {q : RemoteOp} (h : Canon s) {cl : Nat} {r : RemoteOp}
    (e : s.lockTarget cl r = some (q, t)) : Canon t := by
  unfold State.lockTarget at e
  split at e
  · cases e
    exact h
  · split at e
    · cases e
      exact h
    · split at e
      · cases e
      · cases e
        exact lockRanges_canon h ‹_›

/-- The operation leaves once its last item has landed, and else goes on. -/
theorem itemLanded_canon (h : Canon s) {last : Prop} [Decidable last] (cl : Nat) (r : RemoteOp) (id : Nat)
    (f : RemoteOp → RemoteOp) : Canon (if last then s.endRemote cl r else s.setRemote cl id f) := by
  split
  · exact h.endRemote _ _
  · exact h.setRemote _ _ _

theorem landItem_canon (h : Canon s) (cl : Nat) (r : RemoteOp) (i : Nat) (item : Nat × Nat × Nat) (bytes : List Byte)
    (lbl : LabelWord) : Canon (s.landItem cl r i item bytes lbl) := by
  unfold State.landItem
  split
  · exact h
  · next q t hlock =>
    have ht := lockTarget_canon h hlock
    extract_lets written
    have hw : Makes Canon written := by
      simp only [written]
      split
      · exact Makes.ok ht
      · exact ⟨fun e => land_wf e ht⟩
    clear_value written
    split
    · exact (ht.noteDeny _ _).failRemote _ _ _
    · next u =>
      have hu := hw.out rfl
      dsimp only
      refine Canon.bumpAt ?_ _ _ _ _ _
      split
      · split
        · exact (itemLanded_canon hu _ _ _ _).bumpAt _ _ _ _ _
        · exact itemLanded_canon hu _ _ _ _
      · exact itemLanded_canon hu _ _ _ _

/-! ### Beats that land while the context stands stopped (R425) -/

theorem putStored_mem (l : List (Nat × Byte)) : ∀ d : Device, Memory.wf d.mem →
    Memory.wf (l.foldl (fun d e => { d with mem := d.putPa d.mem e }) d).mem := by
  induction l with
  | nil => exact fun _ h => h
  | cons e l ih => exact fun d h => ih _ (putPa_wf d d.mem e h)

theorem Canon.stowBytes (h : Canon s) (cl core off : Nat) (bs : List Byte) : Canon (s.stowBytes cl core off bs) :=
  putStored_mem _ _ (Device.store_wf _ _ _ _ h)

theorem beatWord_makes (h : Canon s) (cl : Nat) (r : RemoteOp) (ws : List LabelWord) :
    Makes (fun x => Canon x.2) (s.beatWord cl r ws) := by
  unfold State.beatWord
  split
  · exact Makes.ite (Makes.ok h) (engineForm_makes h _ _ _)
  · exact engineForm_makes h _ _ _

theorem inboxItem_canon (h : Canon s) (cl : Nat) (r : RemoteOp) (i : Nat) (item : Nat × Nat × Nat) (bytes : List Byte)
    (lbl : LabelWord) : Canon (s.inboxItem cl r i item bytes lbl) := by
  unfold State.inboxItem
  split
  · exact h
  · dsimp only
    split
    · exact h
    · split
      · exact h
      · next he =>
        have ht := (beatWord_makes h _ _ _).out he
        dsimp only at ht
        exact Canon.mapCtx (itemLanded_canon ((ht.stowBytes _ _ _ _).stowBytes _ _ _ _) _ _ _ _) _

/-! ### Events -/

theorem execRemoteLand_lands (h : Canon s) (cl op i : Nat) (bytes : List Byte) (lbl : LabelWord) :
    Lands (execRemoteLand cl op i bytes lbl s) := by
  refine Lands.next ?_
  split
  · exact h
  · split
    · exact h
    · split
      · exact h
      · split
        · exact inboxItem_canon h _ _ _ _ _ _
        · exact landItem_canon h _ _ _ _ _ _

theorem Canon.counted (h : Canon s) (n : Nat) : Canon (s.mapDev (·.count n)) := withDevice_canon h rfl

theorem execRemoteFailure_lands (h : Canon s) (cl op : Nat) (refused : Bool) : Lands (execRemoteFailure cl op refused s) := by
  refine Lands.next ?_
  split
  · exact h
  · cases refused with
    | true => exact iteInduction (fun _ => h) fun _ => h.failRemote _ _ _
    | false => exact iteInduction (fun _ => h) fun _ => (h.failRemote _ _ _).counted _

end

end Sys2Proof.Claims
end

section
/-! PROOF. The events of cores, of the dispatcher, of strokes and of translation keep memory in its canonical form (O40). -/

set_option Elab.async false

namespace Sys2Proof.Claims

open Machine

section
variable {s : State}

/-! ### Cores -/

theorem ParksOnly.canon {t : State} (p : ParksOnly s t) (h : Canon s) : Canon t := h.of_dev p.dev

theorem tlbOnly_canon {t : State} (p : TlbOnly s t) (h : Canon s) : Canon t := h.of_dev p.dev

theorem Canon.foldl {α : Type} {f : State → α → State} (hf : ∀ {u} a, Canon u → Canon (f u a)) (l : List α) (h : Canon s) :
    Canon (l.foldl f s) := foldl_keeps (P := Canon) (fun _ a hu => hf a hu) l h

theorem execLongLatencyResultReturn_lands (h : Canon s) (cl core idx : Nat) :
    Lands (execLongLatencyResultReturn cl core idx s) := Lands.next (h.mapCoreAt _ _ _)

theorem execCoreParkWake_lands (h : Canon s) (cl core : Nat) : Lands (execCoreParkWake cl core s) :=
  engineRuns_lands h ((parkWake_only s cl core).canon h)

theorem execFencescTickEnd_lands (h : Canon s) (cl core : Nat) : Lands (execFencescTickEnd cl core s) :=
  engineRuns_lands h ((fencescEnd_only s cl core).canon h)

theorem execUpcallDelivery_lands (h : Canon s) (cl core : Nat) : Lands (execUpcallDelivery cl core s) := by
  refine engineRuns_lands h ?_
  split
  · refine Canon.mapCoreAt ?_ _ _ _
    split
    · exact h.mapCluster _ _
    · exact h
  · exact h

/-! ### The dispatcher -/

theorem Canon.dispatchOn (h : Canon s) (cl core : Nat) : Canon (s.dispatchOn cl core) := dispatchPast_canon _ _ _ h

theorem execDispatch_lands (h : Canon s) (cl core : Nat) : Lands (execDispatch cl core s) := Lands.next (h.dispatchOn _ _)

theorem execGangReserve_lands (h : Canon s) (cl core : Nat) : Lands (execGangReserve cl core s) := by
  refine engineRuns_lands h ?_
  split
  · exact h
  · split
    · exact h.dispatchOn _ _
    · exact h

theorem Canon.ageRecord (h : Canon s) (cl : Nat) (va : Word) : Canon (s.ageRecord cl va) := by
  unfold State.ageRecord
  dsimp only
  split
  · exact Canon.mapCluster (h.putRecord _ _) _ _
  · exact h

theorem Canon.gangwait (h : Canon s) (cl : Nat) (va : Word) : Canon (s.gangwait cl va) := by
  unfold State.gangwait
  split
  · exact h.expireGang _ _
  · exact h

theorem Canon.wakeRecord (h : Canon s) (cl : Nat) (va : Word) : Canon (s.wakeRecord cl va) := by
  unfold State.wakeRecord
  split
  · exact Canon.enqueue (h.mapCluster _ _) _
  · exact h

theorem execRecordAging_lands (h : Canon s) (cl : Nat) (va : Word) : Lands (execRecordAging cl va s) :=
  engineRuns_lands h (h.ageRecord _ _)

theorem execGangwaitExpiry_lands (h : Canon s) (cl : Nat) (va : Word) : Lands (execGangwaitExpiry cl va s) :=
  engineRuns_lands h (h.gangwait _ _)

theorem execRecordWake_lands (h : Canon s) (cl : Nat) (va : Word) : Lands (execRecordWake cl va s) :=
  engineRuns_lands h (h.wakeRecord _ _)

/-! ### Strokes -/

theorem Canon.tickCluster (h : Canon s) (cl : Nat) : Canon (s.tickCluster cl) := by
  unfold State.tickCluster
  extract_lets a b c d
  have ha : Canon a := Canon.foldl (fun _ hu => hu.wakeRecord _ _) _ h
  have hb : Canon b := Canon.foldl (fun c hu => (fencescEnd_only _ cl c).canon ((parkWake_only _ cl c).canon hu)) _ ha
  have hc : Canon c := Canon.foldl (fun _ hu => hu.gangwait _ _) _ hb
  have hd : Canon d := Canon.foldl (fun _ hu => hu.ageRecord _ _) _ hc
  split
  · exact hd
  · exact Canon.foldl (fun _ hu => hu.dispatchOn _ _) _ hd

theorem Canon.stored (h : Canon s) (loc : Nat) (bs : List Byte) (who : Writer) : Canon (s.mapDev fun d => d.store loc bs who) :=
  Device.store_wf _ _ _ _ h

theorem Canon.putEntry (h : Canon s) (va : Word) (lvl table e : Nat) : Canon (s.putEntry va lvl table e) := by
  unfold State.putEntry
  split
  · exact h
  · exact h.stored _ _ _

theorem Canon.unmapPage (h : Canon s) (va : Word) (pa : Nat) : Canon (s.unmapPage va pa) := by
  unfold State.unmapPage
  split
  · exact h
  · split
    · exact h
    · split
      · exact h.putEntry _ _ _ _
      · exact h

theorem Canon.freeImages (h : Canon s) (sel : Image → Bool) : Canon (s.freeImages sel) := by
  unfold State.freeImages
  dsimp only
  split
  · exact Canon.mapCtx (Canon.foldl (fun _ hu => hu.unmapPage _ _) _ h) _
  · exact h

theorem Canon.tickContext (h : Canon s) : Canon s.tickContext := by
  unfold State.tickContext
  refine Canon.freeImages ?_ _
  split
  · exact h
  · exact Canon.foldl (fun _ hu => hu.tickCluster _) _ h

theorem Canon.ticked (h : Canon s) : Canon s.ticked := by
  unfold Canon
  rw [(ticked_dev s).mem]
  exact h

theorem Canon.inContext (h : Canon s) (id : Nat) {f : State → State} (hf : ∀ {u}, Canon u → Canon (f u)) :
    Canon (s.inContext id f) := inContext_wf s id f (fun _ => hf) h

theorem Canon.inEvery (h : Canon s) {f : State → State} (hf : ∀ {u}, Canon u → Canon (f u)) : Canon (s.inEvery f) :=
  Canon.foldl (fun _ hu => hu.inContext _ hf) _ h

/-- Memory that has lost bytes is canonical still. -/
theorem Canon.dropBytes (h : Canon s) (stays : Nat × Byte → Bool) :
    Canon (s.mapDev fun d => { d with mem := d.mem.filter stays }) := filter_wf _ _ h

theorem Canon.revoke (h : Canon s) (first n : Nat) : Canon (s.revoke first n) := by
  unfold State.revoke
  split
  · exact h
  · exact Canon.mapCtx (h.dropBytes _) _

theorem Canon.dropFailed (h : Canon s) : Canon s.dropFailed := by
  unfold State.dropFailed
  extract_lets t
  have ht : Canon t :=
    Canon.foldl (fun _ hu => hu.inEvery fun hv => hv.revoke _ _) _ (withDevice_canon h rfl)
  split
  · exact ht.inEvery fun hu => hu.revoke _ _
  · exact ht

theorem Canon.tickWork (h : Canon s) : Canon s.tickWork := (h.inEvery Canon.tickContext).dropFailed

theorem execStrokeTick_lands (h : Canon s) : Lands (execStrokeTick s) := Lands.next h.ticked.tickWork

theorem execUnloadFree_lands (h : Canon s) (base : Word) : Lands (execUnloadFree base s) := by
  refine Lands.next ?_
  split
  · exact h.freeImages _
  · exact h

/-! ### The fault ring and translation -/

theorem Canon.freeRecord (h : Canon s) (slot : Nat) : Canon (s.freeRecord slot) := Canon.mapCtx (h.statusWrite _ _ _) _

theorem Canon.answerJob (h : Canon s) (cl crew : Nat) (id : Word) (resolved : Bool) :
    Canon (s.answerJob cl crew id resolved) := by
  unfold State.answerJob
  split
  · exact h
  · split
    · exact h.mapCluster _ _
    · exact h.completeJob _ _ _ _ _

theorem execFaultRecordPoll_lands (h : Canon s) (slot : Nat) : Lands (execFaultRecordPoll slot s) := by
  refine engineRuns_lands h ?_
  split
  · exact h
  · dsimp only
    split
    · refine Canon.freeRecord ?_ _
      split
      · exact h.mapCluster _ _
      · exact h.answerJob _ _ _ _
    · exact h.ringError _

theorem execPageWalkComplete_lands (h : Canon s) (cl : Nat) (va : Word) : Lands (execPageWalkComplete cl va s) := by
  refine Lands.next ?_
  have hw := tlbOnly_canon (walkFrom_only (engineOf cl .s) va 3 s 1 s.ctx.desc.troot) h
  split
  · exact h
  · split
    · next hwalk =>
      rw [hwalk] at hw
      exact tlbOnly_canon (holdLeaf_only _ _ _ _) hw
    · next hwalk =>
      rw [hwalk] at hw
      exact hw

theorem execShootdownService_lands (h : Canon s) : Lands (execShootdownService s) := by
  refine Lands.next ?_
  split
  · exact h.noteDeny _ _
  · next line _ t hread =>
    have ht : Canon t := (engineRead_makes h _ _ _).out hread
    extract_lets w seq npg all legal lo u
    have hu : Canon u := iteInduction (fun _ => ht.mapCtx _) fun _ => ht
    clear_value u
    split
    · exact ht
    · split
      · exact hu
      · exact (hu.statusWrite _ _ _).bumpAt _ _ _ _ _

end

end Sys2Proof.Claims
end

section
/-! PROOF. Contexts, firmware and lost units keep memory in its canonical form (O40). -/

set_option Elab.async false

namespace Sys2Proof.Claims

open Machine

section
variable {s : State}

/-! ### The gang-stop -/

theorem Canon.retireLabel (h : Canon s) (p : Nat × Nat) : Canon (s.retireLabel p) := by
  unfold State.retireLabel
  split
  · exact h.retireContra _ _ _
  · exact h.retireReset _ _
  · exact h

theorem Canon.completePromos (h : Canon s) (cl : Nat) (which : RowOp → Bool) : Canon (s.completePromos cl which) :=
  Canon.foldl (fun r hu => finishPromo_canon hu cl r) _ h

theorem Canon.settleEngines (h : Canon s) (cl : Nat) : Canon (s.settleEngines cl) := (h.completePromos _ _).combineGiven _

theorem Canon.mapCores (h : Canon s) (f : Core → Core) : Canon (s.mapCores f) := h
theorem Canon.haltEngines (h : Canon s) : Canon s.haltEngines := h
theorem Canon.dropPlaces (h : Canon s) : Canon (s.mapDev (·.dropPlaces)) := h
theorem Canon.saveCores (h : Canon s) : Canon s.saveCores := saveCores_wf s h

theorem execGangStop_lands (h : Canon s) : Lands (execGangStop s) := by
  refine Lands.next ?_
  split
  · exact h
  · have hretired : Canon (s.ctx.places.foldl State.retireLabel s) := Canon.foldl (fun _ hu => hu.retireLabel _) _ h
    dsimp only
    split
    · exact hretired
    · have hsettled := Canon.foldl (fun cl hu => hu.settleEngines cl)
        (List.range (s.ctx.places.foldl State.retireLabel s).ctx.nclus) hretired
      exact Canon.saveCores (Canon.mapCtx (Canon.dropPlaces (Canon.mapCores hsettled.haltEngines _)) _)

/-! ### Restore -/

theorem Canon.replayRun (h : Canon s) (cl core : Nat) (element : Bool) (line : List Byte) (off : Nat) (w : LabelWord)
    (run : Nat × Nat) : Canon (s.replayRun cl core element line off w run) := by
  unfold State.replayRun
  dsimp only
  split
  · exact Canon.engineBytes (setRawLabel_canon h _ _) _ _ _
  · split
    · exact (enginePartial_makes h _ _ _ _ _).out ‹_›
    · exact h

theorem Canon.replayRecord (h : Canon s) (cl core i : Nat) : Canon (s.replayRecord cl core i) := by
  unfold State.replayRecord
  extract_lets at_ off w inc line beat t u
  have ht : Canon t := Canon.foldl (fun _ hv => hv.replayRun _ _ _ _ _ _ _) _ h
  have hu : Canon u := iteInduction (fun _ => ht.bumpAt _ _ _ _ _) fun _ => ht
  clear_value t u beat
  split
  · exact hu.bumpAt _ _ _ _ _
  · exact iteInduction (fun _ => hu.bumpAt _ _ _ _ _) fun _ => hu

theorem Canon.replayInbox (h : Canon s) (cl core : Nat) : Canon (s.replayInbox cl core) := by
  unfold State.replayInbox
  dsimp only
  split
  · exact h
  · exact Canon.stored (Canon.foldl (fun _ hu => hu.replayRecord _ _ _) _ h) _ _ _

theorem Canon.requeueLease (h : Canon s) (cl : Nat) (e : Nat × MEngine) : Canon (s.requeueLease cl e) := by
  unfold State.requeueLease
  split
  · exact h
  · exact Canon.mapCoreAt (h.mapCluster _ _) _ _ _

theorem Canon.resume (h : Canon s) (part : List Nat) (tables : Tables) : Canon (s.resume part tables) := by
  unfold State.resume
  refine Canon.mapCtx (Canon.foldl (fun c hu => Canon.foldl (fun e hv => hv.requeueLease _ _) _ hu) _ ?_) _
  exact Canon.foldl (fun _ hu => hu.replayInbox _ _) _ (h.mapCtx _)

theorem execContextRestore_lands (h : Canon s) (ctxid : Nat) (part : List Nat) (tables : Tables) :
    Lands (execContextRestore ctxid part tables s) := by
  refine Lands.next ?_
  split
  · exact h
  · split
    · refine h.inContext _ fun hu => ?_
      split
      · exact contextFault_wf _ _ hu
      · exact hu.resume _ _
    · exact h

/-! ### Creation and teardown -/

theorem writeGrant_mem_wf {d : Device} (h : Memory.wf d.mem) (g : CtxDesc) : Memory.wf (d.writeGrant g).mem :=
  putPas_wf _ _ _ (filter_wf _ _ h)

theorem execContextCreate_lands (h : Canon s) (desc : CtxDesc) : Lands (execContextCreate desc s) := by
  refine Lands.next ?_
  split
  · exact withDevice_canon h rfl
  · have hgrant : Memory.wf ({ s.dev with mem := scrubStores desc.ctxid s.dev.mem }.writeGrant (s.dev.fused desc)).mem :=
      writeGrant_mem_wf (filter_wf _ _ h) _
    dsimp only
    split
    · exact hgrant
    · exact hgrant

theorem Canon.withdraw (h : Canon s) (va : Word) : Canon (s.withdraw va) := by
  refine Canon.mapCtx (Canon.foldl (fun {t} p ht => ?_) _ h) _
  have hleft : Canon (if (t.coreAt p.1 p.2).record = some va then t.vacate p.1 p.2 else t) :=
    iteInduction (fun _ => ht.vacate _ _) fun _ => ht
  exact iteInduction (fun _ => hleft.mapCoreAt _ _ _) fun _ => hleft

theorem Canon.cancelJob (h : Canon s) (cl : Nat) (e : Nat × Job) :
    Canon ((if e.2.state = .running then s.cancelPlan cl e.1 e.2 else s).completeJob cl e.1 e.2 9 0) :=
  Canon.completeJob (iteInduction (fun _ => cancelPlan_canon h _ _ _) fun _ => h) _ _ _ _ _

theorem Canon.cancelOps (h : Canon s) (vas : List Word) (cl : Nat) : Canon (s.cancelOps vas cl) := by
  refine Canon.closeRuns ?_ _
  refine Canon.foldl (fun _ hu => (hu.endRemote _ _).bumpAt _ _ _ _ _) _ ?_
  refine Canon.foldl (fun _ hu => finishIred_canon hu _ _ _) _ ?_
  refine Canon.foldl (fun _ hu => finishRow_canon hu _ _ _ _) _ ?_
  exact Canon.foldl (fun e hu => hu.cancelJob cl e) _ (h.completePromos _ _)

theorem Canon.signalPacket (h : Canon s) (qid seq st code : Nat) : Canon (s.signalPacket qid seq st code) :=
  signalPacket_wf _ _ _ _ _ h

theorem Canon.cancelPackets (h : Canon s) (qid : Nat) : Canon (s.cancelPackets qid) := by
  unfold State.cancelPackets
  split
  · exact h
  · exact Canon.foldl (fun _ hu => hu.signalPacket _ _ _ _) _ h

theorem Canon.tearDown (h : Canon s) (qid : Nat) : Canon (s.tearDown qid) := by
  unfold State.tearDown
  extract_lets t vas draining u v
  have hu : Canon u := Canon.dropPlaces (Canon.foldl (fun _ hw => hw.withdraw _) _ (h.freezeQueue _ _))
  have hv : Canon v := Canon.foldl (fun _ hw => hw.cancelOps _ _) _ hu
  refine Canon.foldl (fun _ hw => (hw.putRecord _ _).retire _ _) _ ?_
  exact Canon.foldl (fun _ hw => hw.putRecord _ _) _ (hv.cancelPackets _)

theorem Canon.destroy (h : Canon s) : Canon s.destroy := by
  have ht : Canon ((s.ctx.queues.map Prod.fst).foldl State.tearDown s) := Canon.foldl (fun _ hu => hu.tearDown _) _ h
  exact filter_wf _ _ (filter_wf _ _ ht)

theorem execContextDestroy_lands (h : Canon s) (ctxid : Nat) : Lands (execContextDestroy ctxid s) := by
  refine Lands.next ?_
  split
  · exact withDevice_canon h rfl
  · exact h.inContext _ Canon.destroy

/-! ### Firmware -/

theorem Canon.fetchImage (h : Canon s) (image : Option (List Byte)) : Canon (s.mapDev (·.fetchImage image)) :=
  withDevice_canon h (fetchImage_keeps s.dev image).1

theorem execPowerOnReset_lands (s : State) (test : SelfTest) (image : Option (List Byte)) :
    Lands (execPowerOnReset test image s) := by
  have hreset : (selfTested s.dev test).mem = [] := rfl
  refine Lands.next (show Memory.wf (if (selfTested s.dev test).broken then (selfTested s.dev test).safeTalkative
    else (selfTested s.dev test).fetchImage image).mem from ?_)
  split
  · exact wf_nil
  · rw [(fetchImage_keeps _ _).1, hreset]
    exact wf_nil

theorem execFirmwareFetchRetry_lands (h : Canon s) (image : Option (List Byte)) : Lands (execFirmwareFetchRetry image s) := by
  refine Lands.next ?_
  split
  · exact h.fetchImage _
  · exact h

theorem execFirmwareFetch_lands (h : Canon s) (image : Option (List Byte)) : Lands (execFirmwareFetch image s) := by
  refine Lands.next ?_
  split
  · exact Canon.fetchImage (s := s.mapDev fun d => { d with boot := { d.boot with tries := 0 } }) h _
  · exact h

theorem execSvnRaise_lands (h : Canon s) (svn : Nat) : Lands (execSvnRaise svn s) := by
  refine Lands.next ?_
  split
  · exact withDevice_canon h rfl
  · exact h

theorem execRoutineLoad_lands (h : Canon s) (ctxid id : Nat) (image : List Byte) :
    Lands (execRoutineLoad ctxid id image s) := by
  refine Lands.next ?_
  split
  · have hd := withDevice_canon h (d := { s.dev.extend 3 (Config.sha384 image) with replies := s.dev.replies ++ [.routine id] }) rfl
    unfold State.mapContext
    split
    · exact Canon.mapCtx hd _
    · exact hd
  · exact withDevice_canon h rfl

/-! ### Device-level faults and lost units -/

theorem deviceFault_canon (s : State) (code : Nat) : Canon (s.deviceFault code) := wf_nil

theorem Canon.safeTalkative (h : Canon s) : Canon (s.mapDev (·.safeTalkative)) := withDevice_canon h rfl

theorem execDeviceFault_lands (s : State) : Lands (execDeviceFault s) := Lands.next (deviceFault_canon s 0)

theorem execThermalTrip_lands (s : State) (die : Nat) : Lands (execThermalTrip die s) :=
  Lands.next (withDevice_canon (deviceFault_canon s 2) rfl)

end

end Sys2Proof.Claims
end

section
/-! PROOF. The host's packets, the loader, the pool and the fleet keep memory in its canonical form (O40). -/

set_option Elab.async false

namespace Sys2Proof.Claims

open Machine

section
variable {s : State}

/-! ### Queues -/

theorem Canon.showQueue (h : Canon s) (qid : Nat) : Canon (s.showQueue qid) := showQueue_wf s qid h

theorem Canon.reply (h : Canon s) (r : Reply) : Canon (s.reply r) := withDevice_canon h rfl

theorem Canon.newQueue (h : Canon s) (d : BitVec 512) : Canon (s.newQueue d) := by
  unfold State.newQueue
  split
  · exact h.reply _
  · split
    · exact h.reply _
    · exact Canon.reply (Canon.showQueue (h.drawn.mapCtx _) _) _

theorem execQueueCreate_lands (h : Canon s) (desc : BitVec 512) : Lands (execQueueCreate desc s) := by
  refine Lands.next ?_
  split
  · exact h.reply _
  · exact h.inContext _ fun hu => hu.newQueue _

theorem readSlot_makes (h : Canon s) (q : Queue) (n : Word) : Makes (fun x => Canon x.2) (s.readSlot q n) := by
  unfold State.readSlot
  split
  · exact Makes.ok ((readSpan_makes h _ _ _).out ‹_›)
  · exact Makes.fail

theorem consume_canon (fuel : Nat) : ∀ {s : State} (qid : Nat), Canon s → Canon (State.consume fuel s qid) := by
  induction fuel with
  | zero => exact fun _ h => h
  | succ fuel ih =>
    intro s qid h
    unfold State.consume
    split
    · exact h
    · split
      · exact h
      · split
        · exact (h.noteDeny _ _).freezeQueue _ _
        · next he =>
          have ht := (readSlot_makes h _ _).out he
          dsimp only at ht ⊢
          split
          · exact ht.freezeQueue _ _
          · split
            · exact ht.freezeQueue _ _
            · exact ih _ ((ht.mapQueue _ _).showQueue _)

theorem Canon.resumeQueue (h : Canon s) (qid : Nat) : Canon (s.resumeQueue qid) := consume_canon _ _ h

theorem Canon.finishPacket (h : Canon s) (qid n st code : Nat) : Canon (s.finishPacket qid n st code) :=
  (h.signalPacket _ _ _ _).resumeQueue _

theorem Canon.ring (h : Canon s) (q : Queue) (wcnt : Word) : Canon (s.ring q wcnt) := by
  unfold State.ring
  split
  · exact h
  · split
    · split
      · exact h
      · split
        · exact h.noteDeny _ _
        · next he =>
          have ht := (readSlot_makes h _ _).out he
          dsimp only at ht ⊢
          split
          · exact ht.mapQueue _ _
          · exact ht
    · split
      · exact h.mapQueue _ _
      · split
        · exact (h.mapQueue _ _).showQueue _
        · exact (h.mapQueue _ _).resumeQueue _
    · exact h
    · exact h

theorem execDoorbell_lands (h : Canon s) (msg : BitVec 128) : Lands (execDoorbell msg s) := by
  refine Lands.next ?_
  split
  · exact h
  · split
    · exact h
    · exact h.ring _ _

theorem depStates_makes (vas : List Word) : ∀ {s : State}, Canon s → Makes (fun x => Canon x.2) (s.depStates vas) := by
  induction vas with
  | nil => exact fun h => Makes.ok h
  | cons va vas ih =>
    intro s h
    unfold State.depStates
    split
    · exact Makes.fail
    · next he =>
      have ht := (engineRead_makes h _ _ _).out he
      dsimp only at ht
      split
      · exact Makes.fail
      · next hd =>
        have hu := (ih ht).out hd
        exact Makes.ok hu

theorem execPacketDependencyMet_lands (h : Canon s) (qid n : Nat) : Lands (execPacketDependencyMet qid n s) := by
  refine Lands.next ?_
  split
  · exact h
  · split
    · exact (h.noteDeny _ _).finishPacket _ _ _ _
    · next he =>
      have ht := (depStates_makes _ h).out he
      dsimp only at ht
      split
      · exact ht
      · split
        · exact ht.mapQueue _ _
        · exact ht.finishPacket _ _ _ _

/-! ### Packets -/

theorem Canon.startPacket (h : Canon s) (qid n : Nat) : Canon (s.startPacket qid n) := h.mapQueue _ _

theorem Canon.bar (h : Canon s) (va : Word) : Canon (s.bar va) := h.mapCtx _

theorem execLaunch_lands (h : Canon s) (qid n : Nat) : Lands (execLaunch qid n s) := by
  refine Lands.next ?_
  split
  · exact h
  · dsimp only
    split
    · exact h.finishPacket _ _ _ _
    · exact ((h.startPacket _ _).bar _).create _ _ _ _

theorem execCopyin_lands (h : Canon s) (qid n : Nat) : Lands (execCopyin qid n s) := by
  refine Lands.next ?_
  split
  · exact h
  · exact (h.startPacket _ _).reply _

theorem execCopyout_lands (h : Canon s) (qid n : Nat) : Lands (execCopyout qid n s) := by
  refine Lands.next ?_
  split
  · exact h
  · split
    · next he =>
      have ht := (readSpan_makes h _ _ _).out he
      exact (Canon.startPacket ht _ _).reply _
    · exact (h.noteDeny _ _).finishPacket _ _ _ _

theorem engineWrite_makes (h : Canon s) (a : Agent) (va : Word) (bs : List Byte) : Makes Canon (s.engineWrite a va bs) :=
  ⟨fun e => (engineWrite_ok e).2 h⟩

theorem hostPiece_makes (h : Canon s) (va : Word) (bs : List Byte) : Makes Canon (s.hostPiece va bs) := by
  unfold State.hostPiece
  split
  · split
    · exact Makes.fail
    · next p t hp =>
      have ht : Canon t := (enginePlace_makes h _ _ _).out hp
      refine Makes.bind (Makes.any _) fun _ _ => Makes.ok ?_
      have hlabel : Canon (if p.lt then t.mapDev (·.setRawLabel (lineOf p.loc) (mkWord t.ctx.world.agentEpoch false 0)) else t) :=
        iteInduction (fun _ => setRawLabel_canon ht _ _) fun _ => ht
      exact hlabel.engineBytes _ _ _
  · exact engineWrite_makes h _ _ _

theorem hostPieces_canon (ps : List (Word × Nat)) : ∀ {s : State} (bs : List Byte), Canon s → Canon (s.hostPieces ps bs).1 := by
  induction ps with
  | nil => exact fun _ h => h
  | cons p ps ih =>
    intro s bs h
    unfold State.hostPieces
    split
    · exact h
    · exact ih _ ((hostPiece_makes h _ _).out ‹_›)

theorem copyinWrite_canon (h : Canon s) (va : Word) (bs : List Byte) : Canon (s.copyinWrite va bs).1 := by
  unfold State.copyinWrite
  dsimp only
  have hw := hostPieces_canon (piecesOf va bs.length) bs h
  split
  · next he =>
    rw [he] at hw
    exact hw
  · exact hostPieces_canon _ _ h.drawn

theorem execCopyPacketComplete_lands (h : Canon s) (qid n code : Nat) (bytes : List Byte) :
    Lands (execCopyPacketComplete qid n code bytes s) := by
  refine Lands.next ?_
  split
  · exact h
  · next p _ =>
    dsimp only
    split
    · exact (h.counted _).finishPacket _ _ _ _
    · split
      · exact h.finishPacket _ _ _ _
      · split
        · exact h
        · split
          · exact h.finishPacket _ _ _ _
          · split
            · exact h
            · have hw := copyinWrite_canon h (slotBody p.slot 0) bytes
              split
              · next he =>
                rw [he] at hw
                exact Canon.finishPacket hw _ _ _ _
              · next he =>
                rw [he] at hw
                exact Canon.finishPacket (Canon.noteDeny hw _ _) _ _ _ _

theorem execSignal_lands (h : Canon s) (qid n : Nat) : Lands (execSignal qid n s) := by
  refine Lands.next ?_
  split
  · exact h
  · split
    · exact Canon.finishPacket ((engineWrite_makes h _ _ _).out ‹_›) _ _ _ _
    · exact (h.noteDeny _ _).finishPacket _ _ _ _

theorem execWait_lands (h : Canon s) (qid n : Nat) : Lands (execWait qid n s) := by
  refine Lands.next ?_
  split
  · exact h
  · split
    · next he =>
      have ht := (engineRead_makes h _ _ _).out he
      exact iteInduction (fun _ => Canon.finishPacket ht _ _ _ _) fun _ => ht
    · exact h.noteDeny _ _

theorem execBarrier_lands (h : Canon s) (qid n : Nat) : Lands (execBarrier qid n s) := by
  refine Lands.next ?_
  split
  · exact h
  · exact iteInduction (fun _ => h.finishPacket _ _ _ _) fun _ => h

theorem Canon.retireOn (h : Canon s) (qid : Nat) : Canon (s.retireOn qid) := Canon.foldl (fun _ hu => hu.retireLabel _) _ h

theorem execQreset_lands (h : Canon s) (qid n : Nat) : Lands (execQreset qid n s) := by
  refine Lands.next ?_
  split
  · exact h
  · extract_lets tears t u v w
    have ht : Canon t := iteInduction (fun _ => h.retireOn _) fun _ => h
    have hv : Canon v := iteInduction (fun _ => Canon.tearDown (ht.mapQueue _ _) _) fun _ => ht.mapQueue _ _
    exact iteInduction (fun _ => ht) fun _ => Canon.signalPacket ((hv.mapQueue _ _).showQueue _) _ _ _ _

/-! ### RMA -/

theorem Canon.nak (h : Canon s) (d : Deny) : Canon (s.nak d) := (h.noteDeny _ _).reply _

theorem Canon.atEndpoint (h : Canon s) (target : RmaTarget) {f : State → State} (hf : ∀ {u}, Canon u → Canon (f u)) :
    Canon (s.atEndpoint target f) := by
  unfold State.atEndpoint
  split
  · exact h.reply _
  · exact h.inContext _ fun hu => iteInduction (fun _ => hf hu) fun _ => hu.reply _

theorem execRmaWrite_lands (h : Canon s) (va : Word) (bytes : List Byte) (target : RmaTarget) :
    Lands (execRmaWrite va bytes target s) := by
  refine Lands.next (h.atEndpoint target fun {t} ht => ?_)
  have hw := hostPieces_canon (piecesOf va bytes.length) bytes ht
  split
  · next he =>
    rw [he] at hw
    exact hw
  · exact ht.nak _

theorem execRmaRead_lands (h : Canon s) (va : Word) (len : Nat) (target : RmaTarget) : Lands (execRmaRead va len target s) := by
  refine Lands.next (h.atEndpoint target fun {t} ht => ?_)
  split
  · next he => exact Canon.reply ((readSpan_makes ht _ _ _).out he) _
  · exact ht.nak _

/-! ### Loading -/

theorem objBytes_makes (h : Canon s) (va : Word) (off n : Nat) : Makes (fun x => Canon x.2) (s.objBytes va off n) := by
  unfold State.objBytes
  split
  · exact Makes.ok ((readSpan_makes h _ _ _).out ‹_›)
  · exact Makes.fail

theorem objName_makes (va : Word) (fuel : Nat) : ∀ {s : State} (off : Nat), Canon s →
    Makes (fun x => Canon x.2) (s.objName va fuel off) := by
  induction fuel with
  | zero => exact fun _ _ => Makes.fail
  | succ fuel ih =>
    intro s off h
    unfold State.objName
    refine Makes.bind (objBytes_makes h _ _ _) fun ⟨b, t⟩ ht => ?_
    dsimp only
    refine Makes.ite (Makes.ok ht) ?_
    exact Makes.bind (ih _ ht) fun ⟨_, _⟩ hu => Makes.ok hu

theorem objSects_makes (va : Word) (offs : List Nat) : ∀ {s : State}, Canon s →
    Makes (fun x => Canon x.2) (s.objSects va offs) := by
  induction offs with
  | nil => exact fun h => Makes.ok h
  | cons off offs ih =>
    intro s h
    unfold State.objSects
    refine Makes.bind (objBytes_makes h _ _ _) fun ⟨e, t⟩ ht => ?_
    refine Makes.bind (objBytes_makes ht _ _ _) fun ⟨d, u⟩ hu => ?_
    exact Makes.bind (ih hu) fun ⟨_, _⟩ hv => Makes.ok hv

theorem objSyms_makes (va : Word) (stroff : Nat) (es : List (List Byte)) : ∀ {s : State}, Canon s →
    Makes (fun x => Canon x.2) (s.objSyms va stroff es) := by
  induction es with
  | nil => exact fun h => Makes.ok h
  | cons e es ih =>
    intro s h
    unfold State.objSyms
    refine Makes.bind (objName_makes _ _ _ h) fun ⟨n, t⟩ ht => ?_
    exact Makes.bind (ih ht) fun ⟨_, _⟩ hu => Makes.ok hu

theorem readObj_makes (h : Canon s) (va : Word) : Makes (fun x => Canon x.2) (s.readObj va) := by
  unfold State.readObj
  refine Makes.bind (objBytes_makes h _ _ _) fun ⟨b, t⟩ ht => ?_
  dsimp only
  refine Makes.ite (Makes.ok ht) ?_
  refine Makes.bind (objSects_makes _ _ ht) fun ⟨_, u⟩ hu => ?_
  exact Makes.bind (objSyms_makes _ _ _ hu) fun ⟨_, _⟩ hv => Makes.ok hv

theorem choose_makes (h : Canon s) (o : Obj) : Makes (fun x => Canon x.2.2.2.2) (s.choose o) := by
  unfold State.choose
  split
  · exact Makes.ok h
  · split
    · exact Makes.fail
    · dsimp only
      exact Makes.ite Makes.fail (Makes.ok (withDevice_canon h rfl))

theorem freshLines_mem (l : List Nat) (at_ : Nat → Nat) : ∀ d : Device,
    (l.foldl (fun d i => d.freshLine (at_ i)) d).mem = d.mem := by
  induction l with
  | nil => exact fun _ => rfl
  | cons a l ih => exact fun d => ih _

theorem Canon.putPage (h : Canon s) (pa : Nat) (bs : List Byte) : Canon (s.putPage pa bs) := by
  refine Canon.foldl (fun e hu => ?_) _ h
  split
  · exact hu
  · next loc _ => exact withDevice_canon (hu.stored loc e.1 .device) (freshLines_mem _ _ _)

theorem Canon.takenTable (h : Canon s) (pa : Nat) (bs : List Byte) :
    Canon ((s.putPage pa bs).mapCtx fun k => { k with tables := pa :: k.tables }) := (h.putPage pa bs).mapCtx _

theorem takeTable_canon {t : State} {pa : Nat} (h : Canon s) (e : s.takeTable = some (pa, t)) : Canon t := by
  unfold State.takeTable at e
  generalize bytesOf (2 ^ 16) 0 = bs at e
  obtain ⟨q, -, hq⟩ := Option.map_eq_some_iff.mp e
  cases hq
  exact h.takenTable _ bs

theorem tableFor_canon {t : State} {table next : Nat} {va : Word} {lvl : Nat} (h : Canon s)
    (e : s.tableFor va lvl table = some (next, t)) : Canon t := by
  unfold State.tableFor at e
  split at e
  · cases e
    exact h
  · obtain ⟨⟨pa, u⟩, hu, e⟩ := Option.map_eq_some_iff.mp e
    cases e
    exact (takeTable_canon h hu).putEntry _ _ _ _

theorem mapPage_canon {t : State} {va : Word} {pa : Nat} (h : Canon s) (e : s.mapPage va pa = some t) : Canon t := by
  unfold State.mapPage at e
  obtain ⟨⟨a, u⟩, hu, e⟩ := Option.bind_eq_some_iff.mp e
  obtain ⟨⟨b, v⟩, hv, e⟩ := Option.bind_eq_some_iff.mp e
  cases e
  exact (tableFor_canon (tableFor_canon h hu) hv).putEntry _ _ _ _

theorem mapPages_canon (l : List (Word × Nat)) : ∀ {s t : State}, Canon s →
    l.foldlM (fun s e => s.mapPage e.1 e.2) s = some t → Canon t := by
  induction l with
  | nil =>
    intro s t h e
    cases e
    exact h
  | cons x l ih =>
    intro s t h e
    obtain ⟨u, hu, e⟩ := Option.bind_eq_some_iff.mp (List.foldlM_cons.symm.trans e)
    exact ih (mapPage_canon h hu) e

theorem mapImage_canon {t : State} {base : Word} {image : List Byte} {driver : Nat × Nat} (h : Canon s)
    (e : s.mapImage base image driver = some t) : Canon t := by
  unfold State.mapImage at e
  dsimp only at e
  split at e
  · cases e
  · exact mapPages_canon _ (Canon.foldl (fun _ hu => hu.putPage _ _) _ (h.mapCtx _)) e

theorem loadImage_canon (h : Canon s) (va base : Word) : Canon (s.loadImage va base).2 := by
  unfold State.loadImage
  split
  · exact h.noteDeny _ _
  · next he =>
    have ht := (readObj_makes h _).out he
    dsimp only at ht
    split
    · exact ht
    · split
      · exact ht
      · next hc =>
        have hu := (choose_makes ht _).out hc
        dsimp only at hu ⊢
        split
        · exact hu
        · split
          · exact hu
          · split
            · exact mapImage_canon hu ‹_›
            · exact hu

theorem execLoad_lands (h : Canon s) (qid n : Nat) : Lands (execLoad qid n s) := by
  refine Lands.next ?_
  split
  · exact h
  · next p _ =>
    have hl := loadImage_canon h (slotBody p.slot 0) (slotBody p.slot 8)
    generalize s.loadImage (slotBody p.slot 0) (slotBody p.slot 8) = r at hl ⊢
    obtain ⟨w, t⟩ := r
    dsimp only
    have hw : Canon (match t.engineWrite hostAgent (slotBody p.slot 16) (bytesOf 8 w.toNat) with
        | .ok u => u
        | .error d => t.noteDeny hostAgent d) := by
      split
      · exact (engineWrite_makes hl _ _ _).out ‹_›
      · exact Canon.noteDeny hl _ _
    exact iteInduction (fun _ => hw.signalPacket _ _ _ _) fun _ => hw.signalPacket _ _ _ _

theorem execUnload_lands (h : Canon s) (qid n : Nat) : Lands (execUnload qid n s) := by
  refine Lands.next ?_
  split
  · exact h
  · dsimp only
    split
    · exact h.signalPacket _ _ _ _
    · exact (h.mapCtx _).signalPacket _ _ _ _

/-! ### Lost units -/

theorem Canon.cutRemotes (h : Canon s) (cl : Nat) : Canon (s.cutRemotes cl) :=
  Canon.foldl (fun _ hu => iteInduction (fun _ => hu.drawn) fun _ => (hu.drawn.failRemote _ _ _).counted _) _ h

theorem Canon.cutPackets (h : Canon s) (qid : Nat) : Canon (s.cutPackets qid) := by
  unfold State.cutPackets
  split
  · exact h
  · exact Canon.foldl (fun _ hu => iteInduction (fun _ => hu.drawn) fun _ => (hu.drawn.counted _).finishPacket _ _ _ _) _ h

theorem Canon.cutPort (h : Canon s) : Canon s.cutPort := by
  unfold State.cutPort
  have hr : Canon (if s.ctx.stopped then s else (List.range s.ctx.nclus).foldl State.cutRemotes s) :=
    iteInduction (fun _ => h) fun _ => Canon.foldl (fun _ hu => hu.cutRemotes _) _ h
  exact Canon.foldl (fun _ hu => hu.cutPackets _) _ hr

theorem execUnitLoss_lands (h : Canon s) (kind : UnitKind) (num : Nat) : Lands (execUnitLoss kind num s) := by
  unfold execUnitLoss
  extract_lets t
  have ht : Canon t := withDevice_canon h rfl
  clear_value t
  refine Lands.next ?_
  cases kind with
  | uePort => exact ht.inEvery Canon.cutPort
  | cxlPort => exact withDevice_canon ht rfl
  | mgmtCore | ioDie => exact iteInduction (fun _ => (deviceFault_canon t 1).safeTalkative) fun _ => ht
  | _ => exact deviceFault_canon t 1

/-! ### The pool -/

theorem applyWrite_wf {d : Device} (h : Memory.wf d.mem) (line : Nat) : Memory.wf (d.applyWrite line).mem := by
  unfold Device.applyWrite
  split
  · dsimp only
    split
    · exact h
    · split
      · exact h
      · split
        · exact h
        · split
          · exact Device.poke_wf _ _ _ h
          · exact h
  · exact h

theorem Canon.applyWrite (h : Canon s) (line : Nat) : Canon (s.mapDev (·.applyWrite line)) := applyWrite_wf h line

theorem execPoolWriteApply_lands (h : Canon s) (line : Nat) : Lands (execPoolWriteApply line s) := Lands.next (h.applyWrite _)

theorem Canon.dropLine (h : Canon s) (line : Nat) : Canon (s.mapDev (·.dropLine line)) := h

theorem execPoolReadMiss_lands (h : Canon s) (line dev inc : Nat) : Lands (execPoolReadMiss line dev inc s) := by
  refine Lands.next ?_
  split
  · exact h
  · split
    · exact h.reply _
    · split
      · exact h
      · dsimp only
        split
        · exact withDevice_canon h rfl
        · exact h.reply _

theorem execPoolLeaseExpiry_lands (h : Canon s) (line : Nat) : Lands (execPoolLeaseExpiry line s) :=
  Lands.next (iteInduction (fun _ => h.dropLine _) fun _ => h)

theorem execBackInvalidate_lands (h : Canon s) (line : Nat) : Lands (execBackInvalidate line s) :=
  Lands.next (iteInduction (fun _ => h.dropLine _) fun _ => h)

theorem execFabricBind_lands (h : Canon s) (dev inc : Nat) : Lands (execFabricBind dev inc s) := by
  refine Lands.next (withDevice_canon h ?_)
  split
  · exact (dropLines_caches id _ s.dev).mem
  · rfl

theorem sync_mem (d : Device) (offset : Int) (time gm : Nat) : (d.sync offset time gm).mem = d.mem :=
  (sync_servo d offset time gm).1.trans (servoBase_mem d offset gm)

theorem execPtpSync_lands (h : Canon s) (offset : Int) (time gm : Nat) : Lands (execPtpSync offset time gm s) :=
  Lands.next (withDevice_canon h (sync_mem s.dev offset time gm))

theorem execPtpSyncLoss_lands (h : Canon s) : Lands (execPtpSyncLoss s) := Lands.next (withDevice_canon h (unlockPtp_mem s.dev))

end

end Sys2Proof.Claims
end

section
/-! PROOF. Every instruction, event and packet keeps memory in its canonical form (O40). -/

set_option Elab.async false

namespace Sys2Proof.Claims

open Machine

section
variable {s : State}

theorem cleanLine_canon (h : Canon s) (line : Nat) : Canon (s.cleanLine line) := by
  unfold Canon
  rw [cleanLine_mem]
  exact h

/-- A form that writes one register and completes. -/
theorem written_lands (h : Canon s) (d : Nat) (v : Word) (l : LabelWord) : Lands (.next (s.wrX d v l).complete) :=
  Lands.next (Canon.complete (h.wrX d v l))

/-- An event that changes no byte of memory. -/
theorem devEvent_lands (h : Canon s) {f : Device → Device} (hf : (f s.dev).mem = s.dev.mem) : Lands (.next (s.mapDev f)) :=
  Lands.next (withDevice_canon h hf)

theorem execVins_lands (h : Canon s) (t : ElemTy) (d a b : Nat) : Lands (execVins t d a b s) := by
  unfold execVins
  dsimp only
  exact vecResult_lands h _ _ _

theorem exec_lands (h : Canon s) (i : Instr) : Lands (exec i s) := by
  cases i with
  | add | sub | and | or | xor | shl | shr | sra | slt | sltu | min | max | minu | maxu | clz | popc | mul | mulh |
    mulhu | addi | andi | ori | xori | slti | sltiu | shli | shri | srai =>
    exact result_lands h _ _ _
  | div d a b => exact (longBinary_lands h _ _ _ _ : Lands (execDiv d a b s))
  | divu d a b => exact (longBinary_lands h _ _ _ _ : Lands (execDivu d a b s))
  | rem d a b => exact (longBinary_lands h _ _ _ _ : Lands (execRem d a b s))
  | remu d a b => exact (longBinary_lands h _ _ _ _ : Lands (execRemu d a b s))
  | upi | aupc | feat | lblof | jpoll => exact written_lands h _ _ _
  | beq a b off => exact (branch_lands h _ _ _ _ : Lands (execBeq a b off s))
  | bne a b off => exact (branch_lands h _ _ _ _ : Lands (execBne a b off s))
  | blt a b off => exact (branch_lands h _ _ _ _ : Lands (execBlt a b off s))
  | bge a b off => exact (branch_lands h _ _ _ _ : Lands (execBge a b off s))
  | bltu a b off => exact (branch_lands h _ _ _ _ : Lands (execBltu a b off s))
  | bgeu a b off => exact (branch_lands h _ _ _ _ : Lands (execBgeu a b off s))
  | lb | lbu | lh | lhu | lw | lwu | ld | flw => exact load_lands h _ _ _ _ _
  | sb | sh | sw | sd | fsw => exact storeScalar_lands h _ _ _ _ _
  | vlds | vldx => exact gather_lands h _ _ _ _ _
  | vsts | vstx => exact scatter_lands h _ _ _ _ _
  | cwb | wbrow => exact maintain_lands h _ _ _ fun _ line ht => cleanLine_canon ht line
  | cflush => exact maintain_lands h _ _ _ fun _ line ht => ht.dropLine line
  | cinv | invrow => exact maintain_lands h _ _ _ fun _ line ht => invalidateLine_canon ht line
  | contra | contrav => exact contra_lands h _
  | get | getx | send | sendx => exact remoteIssue_lands h _ _ _
  | rcopy | rfill | rbool => exact issueRow_lands h _ _ _ _
  | rpromo | rdemo => exact issuePromo_lands h _ _ _
  | crw n a => exact (crModify_lands h _ _ _ _ _ : Lands (execCrw n a s))
  | crs d n a => exact (crModify_lands h _ _ _ _ _ : Lands (execCrs d n a s))
  | crc d n a => exact (crModify_lands h _ _ _ _ _ : Lands (execCrc d n a s))
  | fadd rm d a b => exact (floatResult_lands h _ _ _ : Lands (execFadd rm d a b s))
  | fsub rm d a b => exact (floatResult_lands h _ _ _ : Lands (execFsub rm d a b s))
  | fmul rm d a b => exact (floatResult_lands h _ _ _ : Lands (execFmul rm d a b s))
  | ffma rm d a b => exact (floatResult_lands h _ _ _ : Lands (execFfma rm d a b s))
  | fmin d a b => exact (floatResult_lands h _ _ _ : Lands (execFmin d a b s))
  | fmax d a b => exact (floatResult_lands h _ _ _ : Lands (execFmax d a b s))
  | fcvtif rm it d a => exact (floatResult_lands h _ _ _ : Lands (execFcvtif rm it d a s))
  | fmvfx d a => exact (floatResult_lands h _ _ _ : Lands (execFmvfx d a s))
  | fdiv rm d a b => exact (floatLater_lands h _ _ _ : Lands (execFdiv rm d a b s))
  | fsqrt rm d a => exact (floatLater_lands h _ _ _ : Lands (execFsqrt rm d a s))
  | fcmp cc d a b => exact (floatToX_lands h _ _ _ _ : Lands (execFcmp cc d a b s))
  | fcvtfi rm it d a => exact (floatToX_lands h _ _ _ _ : Lands (execFcvtfi rm it d a s))
  | fmvxf d a => exact (floatToX_lands h _ _ _ _ : Lands (execFmvxf d a s))
  | fclass d a => exact (floatToX_lands h _ _ _ _ : Lands (execFclass d a s))
  | vadd t d a b pg => exact (vecResult_lands h _ _ _ : Lands (execVadd t d a b pg s))
  | vsub t d a b pg => exact (vecResult_lands h _ _ _ : Lands (execVsub t d a b pg s))
  | vmul t d a b pg => exact (vecResult_lands h _ _ _ : Lands (execVmul t d a b pg s))
  | vfma t d a b pg => exact (vecResult_lands h _ _ _ : Lands (execVfma t d a b pg s))
  | vfms t d a b pg => exact (vecResult_lands h _ _ _ : Lands (execVfms t d a b pg s))
  | vmin t d a b pg => exact (vecResult_lands h _ _ _ : Lands (execVmin t d a b pg s))
  | vmax t d a b pg => exact (vecResult_lands h _ _ _ : Lands (execVmax t d a b pg s))
  | vabs t d a pg => exact (vecResult_lands h _ _ _ : Lands (execVabs t d a pg s))
  | vneg t d a pg => exact (vecResult_lands h _ _ _ : Lands (execVneg t d a pg s))
  | vand t d a b pg => exact (vecResult_lands h _ _ _ : Lands (execVand t d a b pg s))
  | vor t d a b pg => exact (vecResult_lands h _ _ _ : Lands (execVor t d a b pg s))
  | vxor t d a b pg => exact (vecResult_lands h _ _ _ : Lands (execVxor t d a b pg s))
  | vshl t d a b pg => exact (vecResult_lands h _ _ _ : Lands (execVshl t d a b pg s))
  | vshr t d a b pg => exact (vecResult_lands h _ _ _ : Lands (execVshr t d a b pg s))
  | vsra t d a b pg => exact (vecResult_lands h _ _ _ : Lands (execVsra t d a b pg s))
  | vsel t d a b pg => exact (vecResult_lands h _ _ _ : Lands (execVsel t d a b pg s))
  | vcvt t src d a pg => exact (vecResult_lands h _ _ _ : Lands (execVcvt t src d a pg s))
  | venc bank nan t d a pg => exact (vecResult_lands h _ _ _ : Lands (execVenc bank nan t d a pg s))
  | vdec bank t d a pg => exact (vecResult_lands h _ _ _ : Lands (execVdec bank t d a pg s))
  | vscale t d a b pg => exact (vecResult_lands h _ _ _ : Lands (execVscale t d a b pg s))
  | vreds t d a pg => exact (vecResult_lands h _ _ _ : Lands (execVreds t d a pg s))
  | vredm t d a pg => exact (vecResult_lands h _ _ _ : Lands (execVredm t d a pg s))
  | vperm t d a b pg => exact (vecResult_lands h _ _ _ : Lands (execVperm t d a b pg s))
  | vbcast t d a pg => exact (vecResult_lands h _ _ _ : Lands (execVbcast t d a pg s))
  | vmov t d a pg => exact (vecResult_lands h _ _ _ : Lands (execVmov t d a pg s))
  | vexp2 t d a pg => exact (vecLater_lands h _ _ _ : Lands (execVexp2 t d a pg s))
  | vrcp t d a pg => exact (vecLater_lands h _ _ _ : Lands (execVrcp t d a pg s))
  | vrsq t d a pg => exact (vecLater_lands h _ _ _ : Lands (execVrsq t d a pg s))
  | mmabb | mmahh | mmaee | mmaef | mmaff | mmaii => exact issueMma_lands h _ _ _ _ _ _ _
  | soff | kadd => exact Lands.next (Canon.complete (h.mapCore _))
  | j => exact Lands.next (h.mapCore _)
  | jl => exact Lands.next (Canon.mapCore (h.wrX _ _ _) _)
  | hpref => exact Lands.next h.complete
  | powerCapSet => exact Lands.next (iteInduction (fun _ => withDevice_canon h rfl) fun _ => h)
  | statusRequest | attestationRequest | healthRequest | telemetryRequest | currentLimit | thermalThrottle |
    currentFallsBelowLimit | throttleLevelChange =>
    exact devEvent_lands h rfl
  | jlr d a imm => exact execJlr_lands h d a imm
  | jr a imm => exact execJr_lands h a imm
  | loop a imm => exact execLoop_lands h a imm
  | loopi n imm => exact execLoopi_lands h n imm
  | vld d a imm => exact execVld_lands h d a imm
  | vst d a imm => exact execVst_lands h d a imm
  | amo op w ord sc d a => exact execAmo_lands h op w ord sc d a
  | cas w ord sc d a => exact execCas_lands h w ord sc d a
  | famo op ord sc d a => exact execFamo_lands h op ord sc d a
  | csum ord sc d a => exact execCsum_lands h ord sc d a
  | fence kinds sc => exact execFence_lands h kinds sc
  | fencesc => exact execFencesc_lands h
  | arrive g a => exact execArrive_lands h g a
  | waitc d g => exact execWaitc_lands h d g
  | catchq d g => exact execCatchq_lands h d g
  | waitk k a => exact execWaitk_lands h k a
  | waitt a b => exact execWaitt_lands h a b
  | krd d k a => exact execKrd_lands h d k a
  | spawn a b => exact execSpawn_lands h a b
  | join => exact execJoin_lands h
  | finish a => exact execFinish_lands h a
  | suspk k a d => exact execSuspk_lands h k a d
  | suspt a => exact execSuspt_lands h a
  | yield => exact execYield_lands h
  | assume d a b => exact execAssume_lands h d a b
  | assumev d a b => exact execAssumev_lands h d a b
  | lblset d a b => exact execLblset_lands h d a b
  | ljoin d a b => exact execLjoin_lands h d a b
  | ltest d a => exact execLtest_lands h d a
  | lenv d a b => exact execLenv_lands h d a b
  | wreset => exact execWreset_lands h
  | lld d a => exact execLld_lands h d a
  | lst d a => exact execLst_lands h d a
  | jsub d a => exact execJsub_lands h d a
  | jcancel d a => exact execJcancel_lands h d a
  | smode v a => exact execSmode_lands h v a
  | ired fast k a => exact execIred_lands h fast k a
  | edgerun k a => exact execEdgerun_lands h k a
  | crr d n => exact execCrr_lands h d n
  | svc n => exact execSvc_lands h n
  | eret => exact execEret_lands h
  | upret => exact execUpret_lands h
  | invpg a => exact execInvpg_lands h a
  | dtld bank a => exact execDtld_lands h bank a
  | edgeret a => exact execEdgeret_lands h a
  | edgeskip => exact execEdgeskip_lands h
  | edgedone => exact execEdgedone_lands h
  | vcmp cc t p a b pg => exact execVcmp_lands h cc t p a b pg
  | vins t d a b => exact execVins_lands h t d a b
  | vext t d a b => exact execVext_lands h t d a b
  | pset t p a => exact execPset_lands h t p a
  | plog op d a b => exact execPlog_lands h op d a b
  | macq n => exact execMacq_lands h n
  | mrel => exact execMrel_lands h
  | mzero acc => exact execMzero_lands h acc
  | mlda acc a => exact execMlda_lands h acc a
  | msta acc a => exact execMsta_lands h acc a
  | msync => exact execMsync_lands h
  | mskld d a b => exact execMskld_lands h d a b
  | longLatencyResultReturn cl core idx => exact execLongLatencyResultReturn_lands h cl core idx
  | dispatch cl core => exact execDispatch_lands h cl core
  | recordAging cl rec => exact execRecordAging_lands h cl rec
  | gangReserve cl core => exact execGangReserve_lands h cl core
  | gangwaitExpiry cl rec => exact execGangwaitExpiry_lands h cl rec
  | recordWake cl rec => exact execRecordWake_lands h cl rec
  | coreParkWake cl core => exact execCoreParkWake_lands h cl core
  | fencescTickEnd cl core => exact execFencescTickEnd_lands h cl core
  | strokeTick => exact execStrokeTick_lands h
  | upcallDelivery cl core => exact execUpcallDelivery_lands h cl core
  | contraRetire cl core => exact execContraRetire_lands h cl core
  | wresetRetire cl core => exact execWresetRetire_lands h cl core
  | leaseGrant cl crew => exact execLeaseGrant_lands h cl crew
  | matrixCommandComplete cl crew => exact execMatrixCommandComplete_lands h cl crew
  | matrixHalt cl crew => exact execMatrixHalt_lands h cl crew
  | jobStart cl crew => exact execJobStart_lands h cl crew
  | jobComplete cl crew id => exact execJobComplete_lands h cl crew id
  | jobFault cl crew id => exact execJobFault_lands h cl crew id
  | transformTimeout cl crew id => exact execTransformTimeout_lands h cl crew id
  | faultRecordPoll slot => exact execFaultRecordPoll_lands h slot
  | streamStripFetch cl core v => exact execStreamStripFetch_lands h cl core v
  | remoteLand cl op item bytes lbl => exact execRemoteLand_lands h cl op item bytes lbl
  | remoteFailure cl op byTarget => exact execRemoteFailure_lands h cl op byTarget
  | rowOpExecute cl op => exact execRowOpExecute_lands h cl op
  | rpromoComplete cl op => exact execRpromoComplete_lands h cl op
  | rdemoComplete cl op => exact execRdemoComplete_lands h cl op
  | iredExecute cl op => exact execIredExecute_lands h cl op
  | edgeRunStart cl => exact execEdgeRunStart_lands h cl
  | superstep cl => exact execSuperstep_lands h cl
  | edgeInvocation cl core => exact execEdgeInvocation_lands h cl core
  | edgeRunFault cl => exact execEdgeRunFault_lands h cl
  | pageWalkComplete cl va => exact execPageWalkComplete_lands h cl va
  | shootdownService => exact execShootdownService_lands h
  | unloadFree base => exact execUnloadFree_lands h base
  | gangStop => exact execGangStop_lands h
  | contextRestore ctxid part tables => exact execContextRestore_lands h ctxid part tables
  | contextCreate desc => exact execContextCreate_lands h desc
  | contextDestroy ctxid => exact execContextDestroy_lands h ctxid
  | deviceFault => exact execDeviceFault_lands s
  | queueCreate desc => exact execQueueCreate_lands h desc
  | doorbell msg => exact execDoorbell_lands h msg
  | rmaWrite va bytes target => exact execRmaWrite_lands h va bytes target
  | rmaRead va len target => exact execRmaRead_lands h va len target
  | packetDependencyMet qid n => exact execPacketDependencyMet_lands h qid n
  | launch qid n => exact execLaunch_lands h qid n
  | copyin qid n => exact execCopyin_lands h qid n
  | copyout qid n => exact execCopyout_lands h qid n
  | signal qid n => exact execSignal_lands h qid n
  | wait qid n => exact execWait_lands h qid n
  | barrier qid n => exact execBarrier_lands h qid n
  | load qid n => exact execLoad_lands h qid n
  | unload qid n => exact execUnload_lands h qid n
  | qreset qid n => exact execQreset_lands h qid n
  | ptpSync offset time gm => exact execPtpSync_lands h offset time gm
  | ptpSyncLoss => exact execPtpSyncLoss_lands h
  | poolReadMiss line dev inc => exact execPoolReadMiss_lands h line dev inc
  | poolLeaseExpiry line => exact execPoolLeaseExpiry_lands h line
  | poolWriteApply line => exact execPoolWriteApply_lands h line
  | backInvalidate line => exact execBackInvalidate_lands h line
  | fabricBind dev inc => exact execFabricBind_lands h dev inc
  | powerOnReset selfTest image => exact execPowerOnReset_lands s selfTest image
  | firmwareFetchRetry image => exact execFirmwareFetchRetry_lands h image
  | firmwareFetch image => exact execFirmwareFetch_lands h image
  | routineLoad ctxid id image => exact execRoutineLoad_lands h ctxid id image
  | svnRaise svn => exact execSvnRaise_lands h svn
  | thermalTrip die => exact execThermalTrip_lands s die
  | unitLoss kind num => exact execUnitLoss_lands h kind num
  | copyPacketComplete qid n code bytes => exact execCopyPacketComplete_lands h qid n code bytes

end

end Sys2Proof.Claims
end

section
/-! PROOF. Issues, turns and steps keep memory in its canonical form (O40). -/

set_option Elab.async false

namespace Sys2Proof.Claims

open Machine

section
variable {s : State}

/-! ### Before the instruction -/

theorem fetchPlace_canon {t : State} {m : Mode} {va : Word} {p : Place} (h : Canon s) (e : s.fetchPlace m va = .ok (p, t)) :
    Canon t := by
  unfold Canon
  rw [(fetchPlace_ok e).2]
  exact h

theorem fetchWords_canon (h : Canon s) (p : Place) : Canon (s.fetchWords p).2 := by
  unfold State.fetchWords
  dsimp only
  split
  · exact h
  · exact h.drawn

theorem issueTrap_lands (h : Canon s) (c : Cause) (info : Nat) (addr epc : Word) : Lands (s.issueTrap c info addr epc) :=
  Lands.next (Canon.mapCore (trapEntry_canon h _) _)

theorem Canon.hazard (h : Canon s) (r : Reg) : Canon (s.hazard r) := by
  unfold State.hazard
  split
  · dsimp only
    split
    · exact Canon.mapCore (Canon.drawn (h.mapCore _)) _
    · exact Canon.drawn (h.mapCore _)
  · exact h

theorem Canon.hazards (h : Canon s) (i : Instr) : Canon (s.hazards i) := Canon.foldl (fun r hu => hu.hazard r) _ h

theorem popStream_gives (h : Canon s) (v : Nat) (t : Stream) : Gives Canon (s.popStream v t) := by
  unfold State.popStream
  refine Gives.bind (p := fun x => Canon x.2) ?_ fun ⟨⟨line, word⟩, u⟩ hu => ?_
  · split
    · exact Gives.ok h
    · exact Gives.check s fun _ hx => readStrip_canon h hx
  · exact Gives.bind (formConj_gives hu _) fun ⟨l, w⟩ hw => Gives.ok (Canon.mapCore hw _)

theorem popStreams_gives (vs : List Nat) : ∀ {s : State}, Canon s → Gives Canon (s.popStreams vs) := by
  induction vs with
  | nil => exact fun h => Gives.ok h
  | cons v vs ih =>
    intro s h
    unfold State.popStreams
    split
    · exact ih h
    · next t _ =>
      split
      · exact (popStream_gives h v t).error ‹_›
      · exact ih ((popStream_gives h v t).out ‹_›)

/-! ### After it -/

theorem Canon.mark (h : Canon s) (sw : Bool) : Canon (s.mark sw) := by
  unfold State.mark
  split
  · exact h.mapCore _
  · exact h

theorem Canon.waitsAs (h : Canon s) (d : Device) : Canon (s.mapDev (·.waitsAs d)) := by
  refine withDevice_canon h ?_
  unfold Device.waitsAs
  split <;> rfl

theorem Canon.afterStall (h : Canon s) (t : State) : Canon (s.afterStall t) := by
  unfold State.afterStall
  dsimp only
  refine Canon.waitsAs (Canon.mapCore ?_ _) _
  split
  · exact h.resumeAside
  · exact h

theorem settleIssue_lands (h : Canon s) (sw : Bool) {o : Out} (ho : Lands o) : Lands (s.settleIssue sw o) := by
  unfold State.settleIssue
  split
  · next t =>
    have ht : Canon t := ho t rfl
    split
    · exact Lands.next (Canon.mapCore (trapEntry_canon h _) _)
    · split
      · exact Lands.next (h.afterStall t)
      · split
        · exact Lands.next (ht.mapCore _)
        · exact Lands.next (Canon.mark (ht.mapCore _) _)
  · exact Lands.fault _
  · exact Lands.refused _

/-- An outcome that settles as a state that is canonical already. -/
theorem settled_lands {t : State} (h : Canon s) (sw : Bool) (ht : Canon t) : Lands (s.settleIssue sw (.next t)) :=
  settleIssue_lands h sw (Lands.next ht)

/-! ### One issue -/

theorem Canon.latchIssue (h : Canon s) (addr : Word) (lone taken : Bool) : Canon (s.latchIssue addr lone taken) := h.mapCore _

theorem Canon.readied (h : Canon s) (i : Instr) : Canon (s.readied i) := by
  unfold State.readied
  split
  · exact h.drain
  · exact h

theorem issueLone_lands (h : Canon s) (i : Instr) (sw : Bool) : Lands (s.issueLone i sw) := by
  unfold State.issueLone
  extract_lets t base first vs
  have hbase : Canon base := Canon.hazards (Canon.latchIssue (h.readied i) _ _ _) i
  clear_value base
  have hpop := popStreams_gives vs hbase
  split
  · exact settleIssue_lands hbase sw (Lands.commit hbase (hpop.error ‹_›))
  · exact settleIssue_lands hbase sw (exec_lands (Canon.mapCore (hpop.out ‹_›) _) i)

theorem runPair_lands {t : State} (h : Canon s) (ht : Canon t) (i0 i1 : Instr) (sw : Bool) : Lands (s.runPair t i0 i1 sw) := by
  unfold State.runPair
  extract_lets here at0 at1
  have h0 {u : State} (hu : Canon u) : Canon (at0 u) := hu.mapCore _
  have h1 {u : State} (hu : Canon u) : Canon (at1 u) := hu.mapCore _
  clear_value at0 at1
  have hword1 := exec_lands (h1 ht) i1
  split
  · next t0 he0 =>
    have ht0 : Canon t0 := exec_lands ht i0 t0 he0
    split
    · exact settled_lands h sw ht0
    · split
      · exact settled_lands h sw (iteInduction (fun _ => ht0) fun _ => (h1 ht0).complete)
      · split
        · split
          · next t1 he1 =>
            have ht1 : Canon t1 := hword1 t1 he1
            split
            · exact settled_lands h sw ht1
            · exact settleIssue_lands h sw (exec_lands (h0 ht1) i0)
          · exact Lands.fault _
          · exact Lands.refused _
        · split
          · split
            · next t1 he1 =>
              have ht1 : Canon t1 := hword1 t1 he1
              split
              · exact settled_lands h sw ht1
              · split
                · split
                  · exact settled_lands h sw ht1
                  · have hu := (h0 ht1).mapCore fun c => { c with pc := t.core.pc }
                    exact settleIssue_lands (iteInduction (fun _ => hu) fun _ => h) sw (exec_lands hu i0)
                · exact settled_lands h sw ht0
            · exact Lands.fault _
            · exact Lands.refused _
          · split
            · next t1 he1 =>
              have ht1 : Canon t1 := exec_lands (h1 ht0) i1 t1 he1
              split
              · exact settleIssue_lands h sw hword1
              · exact settled_lands h sw ht1
            · exact Lands.fault _
            · exact Lands.refused _
  · exact Lands.fault _
  · exact Lands.refused _

theorem Canon.latched (h : Canon s) : Canon s.latched := h.mapCore _

theorem popFailed_lands {t : State} {x : Result State} {e : Stop} (h : Canon s) (ht : Canon t) (i0 : Instr) (sw : Bool)
    (hx : Gives Canon x) (he : x = .error e) : Lands (s.popFailed t i0 sw e) := by
  unfold State.popFailed
  split
  · next t0 h0 =>
    split
    · exact settled_lands h sw (exec_lands ht i0 t0 h0)
    · exact settleIssue_lands h sw (Lands.commit h (hx.error he))
  · exact Lands.fault _
  · exact Lands.refused _

theorem issueBoth_lands (h : Canon s) (i0 i1 : Instr) (sw : Bool) : Lands (s.issueBoth i0 i1 sw) := by
  unfold State.issueBoth
  extract_lets base mine
  have hbase : Canon base := ((h.latchIssue _ _ _).hazards i0).hazards i1
  clear_value base
  have hpop := popStreams_gives mine hbase
  split
  · exact settleIssue_lands hbase sw (Lands.commit hbase (hpop.error ‹_›))
  · have ht := hpop.out ‹_›
    have hrest := popStreams_gives ((if s.pairDone then [] else base.popsOf i1).filter fun v => !mine.contains v) ht
    split
    · exact popFailed_lands hbase ht.latched i0 sw hrest ‹_›
    · exact runPair_lands hbase (Canon.latched (hrest.out ‹_›)) i0 i1 sw

theorem issuePair_lands (h : Canon s) (i0 i1 : Instr) (sw : Bool) : Lands (s.issuePair i0 i1 sw) := by
  unfold State.issuePair
  split
  · dsimp only
    split
    · next t he =>
      split
      · exact settled_lands (h.latchIssue _ _ _) sw (exec_lands (Canon.latched (h.drain.latchIssue _ _ _)) i0 t he)
      · exact issueBoth_lands h.drain i0 i1 sw
    · exact Lands.fault _
    · exact Lands.refused _
  · exact issueBoth_lands h i0 i1 sw

theorem issue_lands (h : Canon s) : Lands s.issue := by
  unfold State.issue
  dsimp only
  split
  · exact issueTrap_lands h _ _ _ _
  · split
    · exact issueTrap_lands h _ _ _ _
    · next p t hp =>
      have ht : Canon (t.fetchWords p).2 := fetchWords_canon (fetchPlace_canon h hp) p
      split
      · exact issueTrap_lands ht _ _ _ _
      · exact issueLone_lands ht _ _
      · exact issuePair_lands ht _ _ _

/-! ### Turns -/

theorem Canon.elapse (h : Canon s) (n : Nat) : Canon (s.elapse n) := withDevice_canon h rfl

theorem advance_lands (h : Canon s) : Lands s.advance := by
  unfold State.advance
  split
  · exact exec_lands h _
  · exact Lands.next h

theorem orElseWait_lands {o : Out} (ho : Lands o) (waits : State → Bool) {f : State → Out} (hf : ∀ {t}, Canon t → Lands (f t)) :
    Lands (orElseWait o waits f) := by
  unfold orElseWait
  split
  · next t =>
    exact Lands.ite (hf (ho t rfl)) ho
  · exact Lands.fault _
  · exact Lands.refused _

theorem turn_lands (h : Canon s) : Lands s.turn := by
  unfold State.turn
  dsimp only
  refine Lands.ite (Lands.next h) ?_
  refine Lands.ite (orElseWait_lands (exec_lands h _) _ advance_lands) ?_
  refine Lands.ite (exec_lands h _) ?_
  refine Lands.ite (orElseWait_lands (exec_lands h _) _ advance_lands) ?_
  exact Lands.ite (advance_lands (h.mapCore _)) (issue_lands h)

theorem applyWrites_wf (lines : List Nat) : ∀ {d : Device}, Memory.wf d.mem → Memory.wf (lines.foldl Device.applyWrite d).mem :=
  foldl_keeps (P := fun d : Device => Memory.wf d.mem) (fun _ line hd => applyWrite_wf hd line) lines

theorem Canon.putOff (h : Canon s) (d : Device) (again : List Turn) : Canon (s.putOff d again) := applyWrites_wf d.awaited h

theorem performed_lands (h : Canon s) (again : List Turn) {o : Out} (ho : Lands o) : Lands (performed s again o) := by
  unfold performed
  split
  · next t => exact Lands.ite ho (Lands.next (h.putOff _ _))
  · exact Lands.fault _
  · exact Lands.refused _

theorem coreTurn_lands (h : Canon s) : Lands s.coreTurn := performed_lands (h.elapse 1) _ (turn_lands (h.elapse 1))

theorem takeTurn_lands (h : Canon s) (t : Turn) : Lands (s.takeTurn t) := by
  cases t with
  | elapse n => exact Lands.next (h.elapse n)
  | event i => exact performed_lands h _ (exec_lands h i)
  | core ctxid cl c =>
    unfold State.takeTurn
    dsimp only
    split
    · exact Lands.fault _
    · exact coreTurn_lands (h.of_dev (focusOn_ok ‹_›).1)

theorem step_lands (h : Canon s) : Lands (step s) := by
  unfold step
  refine Lands.ite (performed_lands (h.elapse 1) _ (exec_lands h _)) ?_
  split
  · next t rest _ => exact takeTurn_lands (h.of_dev (t := { s with agenda := rest }) rfl) t
  · exact coreTurn_lands h

end

end Sys2Proof.Claims

namespace Sys2Proof

open Machine Claims

/-- Settles O40, by what every meaning leaves of memory: each instruction, event and packet that starts from a canonical
memory leaves one, and so do the issue and the turn around it. -/
theorem stepsKeepMemoryCanonical : Obligations.StepsKeepMemoryCanonical := fun _ _ h hstep => step_lands h _ hstep

end Sys2Proof
end
